-- ==== Sys2Proof/Word.lean ====
section
/-! DEFINITION. The word types of the CQ9 (03:R46, 00:R5) and their plainest arithmetic. -/

namespace Sys2Proof

/-- A byte of memory. -/
abbrev Byte := BitVec 8
/-- A scalar register (03:R46: 64 bits). -/
abbrev Word := BitVec 64
/-- A vector register (03:R46, R58: `ms.vlbits` is 128). -/
abbrev VWord := BitVec 128
/-- A predicate register (03:R46: one bit per byte lane, 16 on the CQ9). -/
abbrev PWord := BitVec 16
/-- An instruction word (10:R158). -/
abbrev IWord := BitVec 32
/-- A register number. -/
abbrev Reg := BitVec 5

end Sys2Proof
end

