-- ==== Sys2Proof/Syntax.lean ====
section
/-! DEFINITION. The operations and events of the CQ9: one constructor of `Instr` per row of the opcode table.
Encoded instructions carry their operands as 10:R158 to R169 lay them out; `fwcall` services carry nothing (they act on
the call the slot has pending); engine commands name the tile whose queue they head; events name what they happen to. -/

namespace Sys2Proof

/-- A guard `(p n)` or `(~p n)` (10:R161, R166). -/
structure Guard where
  pred : BitVec 3
  neg : Bool
  deriving DecidableEq, Repr

/-- The length an instruction is encoded at, with its guard (10:R158, R162). -/
inductive Form
  | w32
  | w64 (g : Guard)
  | w96 (g : Guard)
  deriving DecidableEq, Repr

/-- The head of a debug request's payload: the session that sends it and its request identifier. `other` is an op byte that the table of
27:R376 does not list, in place of the request's own. -/
structure DebugHead where
  session : Nat
  id : BitVec 32 := 0
  other : Option (BitVec 8) := none
  deriving DecidableEq, Repr

/-- A control message of a trust domain (23:R355 to R357, 27:R384). The key of a generation is none: it goes over a secured session. -/
inductive Control
  | barrier (gen : Nat)
  | drained
  | ready
  | opened
  | heartbeat
  | rekey
  | leave
  | successor (member : Nat)
  | trigger (id : BitVec 4) (action : BitVec 2) (count : Nat) (ocore : BitVec 10) (ocycle : Nat)
  deriving DecidableEq, Repr

/-- What comes to a domain over the session with one member: the partition that keeps the domain, and the member (23:R357). -/
structure FromPeer where
  part : Nat
  member : Nat
  deriving DecidableEq, Repr

/-- A world's secret, and the SPDM session over which the tenant supplied it (23:R343). -/
structure TenantSecret where
  session : Nat
  bytes : List Byte
  deriving DecidableEq, Repr

/-- What fails in memory: a data line or a node of the counter tree, which cannot be corrected (23:R347), or the MAC of a line, twice (23:R345). -/
inductive MemError
  | line
  | node (level : Nat)
  | mac
  deriving DecidableEq, Repr

/-- The host locks an interface on a link and marks pages of its memory confidential (23:R358). -/
structure LinkLock where
  link : Nat
  pages : List Nat := []
  deriving DecidableEq, Repr

/-- An image sent to the recovery form, and whether it reads back right once it is written (29:R399). -/
structure RecoveryImage where
  bytes : List Byte
  ok : Bool
  deriving DecidableEq, Repr

/-- How a member answered the coordinator's exchanges (23:R353): how many of the eight requests it answered rightly, in their order, the
firmware digest it reported and the SHA-384 of its descriptor. -/
structure JoinReport where
  member : Nat
  answered : Nat
  meas : List Byte
  digest : List Byte
  deriving DecidableEq, Repr

/-- Source B of a scalar or integer vector instruction: a register with its empty-behaviour bit, or the literal of the
96-bit form (10:R163). -/
inductive Src
  | reg (r : Reg) (eb : Bool)
  | lit (l : BitVec 32)
  deriving DecidableEq, Repr

/-- Source B of a `vfp` instruction: a register, the 16-bit `fi` immediate, or the 96-bit literal (12:R208). -/
inductive FSrc
  | reg (r : Reg) (eb : Bool)
  | fi (x : BitVec 16)
  | lit (l : BitVec 32)
  deriving DecidableEq, Repr

/-- The immediate of an I-format instruction (10:R160, R163). -/
inductive Imm
  | i13 (x : BitVec 13)
  | lit (l : BitVec 32)
  deriving DecidableEq, Repr

/-- The immediate of an M-format instruction (10:R160, R163). -/
inductive Disp
  | i8 (x : BitVec 8)
  | lit (l : BitVec 32)
  deriving DecidableEq, Repr

/-- A memory operand (09:R148, 10:R160). -/
structure MemOp where
  seg : BitVec 3
  ptr : Reg
  ea : Bool
  pinc : Bool
  disp : Disp
  deriving DecidableEq, Repr

/-- Ordering and scope fields (10:R161, R165). -/
structure Order where
  ord : BitVec 2
  sn : Bool
  scope : BitVec 4
  deriving DecidableEq, Repr

/-- Operands of `alu` and `mul` minors (11:R182, R187). -/
structure AluArgs where
  f : Form
  d : Reg
  a : Reg
  ea : Bool
  b : Src
  deriving DecidableEq, Repr

/-- Operands of one-source scalar minors (11:R185). -/
structure UnArgs where
  f : Form
  d : Reg
  a : Reg
  ea : Bool
  deriving DecidableEq, Repr

/-- Operands of register compares (11:R188). -/
structure CmpArgs where
  f : Form
  p : BitVec 3
  a : Reg
  ea : Bool
  b : Src
  deriving DecidableEq, Repr

/-- Operands of the immediate majors (11:R184). -/
structure ImmArgs where
  f : Form
  d : Reg
  a : Reg
  ea : Bool
  imm : Imm
  deriving DecidableEq, Repr

/-- Operands of immediate compares (11:R188). -/
structure CmpImmArgs where
  f : Form
  p : BitVec 3
  a : Reg
  ea : Bool
  imm : Imm
  deriving DecidableEq, Repr

/-- Operands of two-source predicate minors (11:R189). -/
structure PredArgs where
  f : Form
  d : BitVec 3
  a : BitVec 3
  b : BitVec 3
  deriving DecidableEq, Repr

/-- Operands of one-source predicate minors (11:R189). -/
structure PredUn where
  f : Form
  d : BitVec 3
  a : BitVec 3
  deriving DecidableEq, Repr

/-- Operands of two-source integer vector minors (12:R202). -/
structure VArgs where
  f : Form
  ty : BitVec 5
  sat : Bool
  d : Reg
  a : Reg
  ea : Bool
  b : Src
  deriving DecidableEq, Repr

/-- Operands of one-source vector minors (12:R202, R205, R206, R211, R215). -/
structure VUn where
  f : Form
  ty : BitVec 5
  rnd : BitVec 2
  sat : Bool
  d : Reg
  a : Reg
  ea : Bool
  deriving DecidableEq, Repr

/-- Operands of integer vector compares (12:R203). -/
structure VCmp where
  f : Form
  ty : BitVec 5
  p : BitVec 3
  a : Reg
  ea : Bool
  b : Src
  deriving DecidableEq, Repr

/-- Operands of two-source floating-point minors (12:R206, R208). -/
structure VFArgs where
  f : Form
  ty : BitVec 5
  rnd : BitVec 2
  sat : Bool
  d : Reg
  a : Reg
  ea : Bool
  b : FSrc
  deriving DecidableEq, Repr

/-- Operands of floating-point compares (12:R206). -/
structure VFCmp where
  f : Form
  ty : BitVec 5
  p : BitVec 3
  a : Reg
  ea : Bool
  b : FSrc
  deriving DecidableEq, Repr

/-- Operands of the fused minors (12:R206). -/
structure VFma where
  f : Form
  ty : BitVec 5
  rnd : BitVec 2
  sat : Bool
  d : Reg
  a : Reg
  ea : Bool
  b : Reg
  eb : Bool
  c : Reg
  ec : Bool
  deriving DecidableEq, Repr

/-- Operands of vector moves with a vector or selector B field (12:R211). -/
structure VMovArgs where
  f : Form
  ty : BitVec 5
  d : Reg
  a : Reg
  ea : Bool
  b : Reg
  eb : Bool
  deriving DecidableEq, Repr

/-- Operands of `vins` and `vext`: k is a selector (12:R211, 11:R175). -/
structure VIdxArgs where
  f : Form
  ty : BitVec 5
  d : Reg
  a : Reg
  ea : Bool
  k : BitVec 5
  deriving DecidableEq, Repr

/-- Operands of `cvt` (12:R212, R213). -/
structure CvtArgs where
  f : Form
  dt : BitVec 5
  st : BitVec 5
  rnd : BitVec 2
  sat : Bool
  q : BitVec 2
  cnt : Option Reg
  d : Reg
  a : Reg
  ea : Bool
  deriving DecidableEq, Repr

/-- Operands of `cvt.mx` (12:R214). -/
structure CvtMxArgs where
  f : Form
  dt : BitVec 5
  st : BitVec 5
  rnd : BitVec 2
  sat : Bool
  bal : Bool
  c : Reg
  d : Reg
  a : Reg
  ea : Bool
  deriving DecidableEq, Repr

/-- Operands of loads (13:R219, R220). -/
structure LdArgs where
  f : Form
  m : MemOp
  t : Reg
  o : Order
  sx : Bool
  deriving DecidableEq, Repr

/-- Operands of stores (13:R219, R221). -/
structure StArgs where
  f : Form
  m : MemOp
  t : Reg
  et : Bool
  o : Order
  deriving DecidableEq, Repr

/-- Operands of `ldfe`, `ldfe.take` and `join` (13:R223, R224, R235). -/
structure FeArgs where
  f : Form
  m : MemOp
  t : Reg
  sn : Bool
  scope : BitVec 4
  y : Bool
  deriving DecidableEq, Repr

/-- Operands of `stfe` (13:R223). -/
structure StfeArgs where
  f : Form
  m : MemOp
  t : Reg
  et : Bool
  sn : Bool
  scope : BitVec 4
  wfe : Bool
  deriving DecidableEq, Repr

/-- Operands of `qld` and `qst` (13:R225). -/
structure QArgs where
  f : Form
  m : MemOp
  t : Reg
  et : Bool
  o : Order
  queue : BitVec 3
  size : BitVec 4
  deriving DecidableEq, Repr

/-- Operands of `amo` (13:R227). -/
structure AmoArgs where
  f : Form
  m : MemOp
  t : Reg
  et : Bool
  o : Order
  queue : BitVec 3
  op : BitVec 4
  c : Reg
  ec : Bool
  deriving DecidableEq, Repr

/-- Operands of `waddr` (13:R230). -/
structure WaddrArgs where
  f : Form
  m : MemOp
  t : Reg
  et : Bool
  sn : Bool
  scope : BitVec 4
  cond : BitVec 2
  d64 : Bool
  y : Bool
  deriving DecidableEq, Repr

/-- Operands of instructions that read two s or v registers and may write one (13:R232, 14:R238, R256, R257, 18:R280,
R281). -/
structure TwoArgs where
  f : Form
  d : Reg
  a : Reg
  ea : Bool
  b : Reg
  eb : Bool
  deriving DecidableEq, Repr

/-- How an outstanding request moves on: it is performed at its home, its response arrives, its path ends it with abort or poison, or
its memory fails the MAC check twice, or another package's response carries a refusal (03:R48, 13:R225, 17:R271, 23:R342, R345; assumption
48, DESIGN CHOICE). -/
inductive Arrival
  | perform
  | arrive
  | abort
  | poison
  | integrity
  | refused
  deriving DecidableEq, Repr

/-- The arguments of management request 0x01 (25:R367, 20:R309). -/
structure CreateReq where
  part : Nat
  cores : List Nat
  slots : BitVec 16
  spBanks : BitVec 16
  asBanks : BitVec 16
  stackMask : BitVec 8
  mainmem : Nat
  tier2 : Nat
  host : BitVec 2
  eth : BitVec 8
  fabric : BitVec 24
  world : BitVec 4
  lease : Nat
  capMatrix : Nat
  capGather : Nat
  capCopy : Nat
  capSfu : Nat
  dequeExt : Nat
  saveArea : Nat
  launchRings : List Nat
  frames : List Nat
  deriving DecidableEq, Repr

/-- A management request of the host's ring (25:R367). -/
inductive HostRequest
  | create (r : CreateReq)
  | destroy (part : Nat)
  | resize (part : Nat) (cores : List Nat)
  | bind (part dev weight slice : Nat)
  | fault (part vpage : Nat)
  | world (die : Nat) (world : BitVec 4) (secret : TenantSecret) (capKeys : List Byte)
  deriving DecidableEq, Repr

/-- The management controller's configuration of a host link (25:R363, R364): CXL mode, and the region of second-tier memory it
exposes, as a base firmware chooses and GiB. -/
structure LinkCfg where
  cxl : Bool := false
  base : Nat := 0
  gib : Nat := 0
  deriving DecidableEq, Repr

/-- What a cold start is given: the parts that fail, numbered step × 32 + part (assumption 76, DESIGN CHOICE), and the configuration of
the host links. -/
structure StartParts where
  failed : List Nat := []
  links : List LinkCfg := []
  deriving DecidableEq, Repr

/-- A sample of a sensor (29:R394): 0 to 7 the junctions of the dies, 8 module power, 9 coolant inlet, 10 coolant flow. Its value is in
tenths of the sensor's unit: °C, W or L/min (assumption 76, DESIGN CHOICE). -/
structure Sample where
  sensor : Nat
  value : Nat
  deriving DecidableEq, Repr

/-- The operations and events of the CQ9: one constructor per row of the opcode table, in the table's order but for the events
that the machine's own course brings about, which stand before those that come from outside it. -/
inductive Instr
  -- control (11:R177 to R181, R194, 13:R236)
  | br (off : BitVec 20) (g : Guard)
  | nop
  | call (off : BitVec 20) (g : Guard)
  | loop (f : Form) (d : Reg) (ea : Bool) (off : BitVec 13)
  | jr (f : Form) (a : Reg) (ea : Bool)
  | callr (o : UnArgs)
  | ret (f : Form) (ea : Bool)
  | tend (f : Form)
  | hintYield (f : Form)
  | yield (f : Form)
  | gbar (f : Form)
  -- alu (11:R182, R183, R185, R186)
  | add (o : AluArgs) (sat : Bool) (uns : Bool)
  | sub (o : AluArgs) (sat : Bool) (uns : Bool)
  | and (o : AluArgs)
  | or (o : AluArgs)
  | xor (o : AluArgs)
  | andn (o : AluArgs)
  | orn (o : AluArgs)
  | shl (o : AluArgs)
  | shr (o : AluArgs)
  | sra (o : AluArgs)
  | rol (o : AluArgs)
  | ror (o : AluArgs)
  | min (o : AluArgs)
  | max (o : AluArgs)
  | minu (o : AluArgs)
  | maxu (o : AluArgs)
  | clz (o : UnArgs)
  | ctz (o : UnArgs)
  | popc (o : UnArgs)
  | sext (o : AluArgs)
  | zext (o : AluArgs)
  | bext (o : AluArgs)
  | bins (o : AluArgs)
  | sh1add (o : AluArgs)
  | sh2add (o : AluArgs)
  | sh3add (o : AluArgs)
  | sh4add (o : AluArgs)
  -- mul (11:R187)
  | mul (o : AluArgs)
  | mulh (o : AluArgs)
  | mulhu (o : AluArgs)
  | mulhsu (o : AluArgs)
  | div (o : AluArgs)
  | divu (o : AluArgs)
  | rem (o : AluArgs)
  | remu (o : AluArgs)
  -- compares (11:R188)
  | cmpEq (o : CmpArgs)
  | cmpNe (o : CmpArgs)
  | cmpLt (o : CmpArgs)
  | cmpGe (o : CmpArgs)
  | cmpLtu (o : CmpArgs)
  | cmpGeu (o : CmpArgs)
  -- immediates (11:R184, R188)
  | addi (o : ImmArgs)
  | andi (o : ImmArgs)
  | ori (o : ImmArgs)
  | xori (o : ImmArgs)
  | shli (o : ImmArgs)
  | shri (o : ImmArgs)
  | srai (o : ImmArgs)
  | cmpiEq (o : CmpImmArgs)
  | cmpiNe (o : CmpImmArgs)
  | cmpiLt (o : CmpImmArgs)
  | cmpiGe (o : CmpImmArgs)
  | cmpiuLtu (o : CmpImmArgs)
  | cmpiuGeu (o : CmpImmArgs)
  -- status and segments (11:R190 to R193)
  | rdms (f : Form) (d : Reg) (num : BitVec 13)
  | wrms (f : Form) (a : Reg) (ea : Bool) (num : BitVec 13)
  | gnarrow (f : Form) (d a : BitVec 3) (b : Reg) (eb : Bool) (c : Reg) (ec : Bool) (drop : BitVec 4)
  | grd (f : Form) (d : Reg) (a : BitVec 3) (hi : Bool)
  -- predicates (11:R189, 12:R209, R210)
  | pand (o : PredArgs)
  | por (o : PredArgs)
  | pxor (o : PredArgs)
  | pnot (o : PredUn)
  | pmov (o : PredUn)
  | vwhile (g : Guard) (ty : BitVec 5) (d : BitVec 3) (a : Reg) (ea : Bool) (b : Reg) (eb : Bool)
  | pcnt (ty : BitVec 5) (d : Reg) (a : BitVec 3)
  -- moves (12:R211)
  | vmov (o : VUn)
  | vbcast (o : VUn)
  | vins (o : VIdxArgs)
  | vext (o : VIdxArgs)
  | vperm (o : VMovArgs)
  | vsel (o : VMovArgs)
  -- integer SIMD (12:R202 to R205)
  | vintVadd (o : VArgs)
  | vintVsub (o : VArgs)
  | vintVmul (o : VArgs)
  | vintVmulh (o : VArgs)
  | vintVmin (o : VArgs)
  | vintVmax (o : VArgs)
  | vintVand (o : VArgs)
  | vintVor (o : VArgs)
  | vintVxor (o : VArgs)
  | vintVandn (o : VArgs)
  | vintVshl (o : VArgs)
  | vintVshr (o : VArgs)
  | vintVsra (o : VArgs)
  | vintVabs (o : VUn)
  | vintVneg (o : VUn)
  | vintVcmpEq (o : VCmp)
  | vintVcmpNe (o : VCmp)
  | vintVcmpLt (o : VCmp)
  | vintVcmpLe (o : VCmp)
  | vdot4 (o : VArgs)
  | vintVsum (o : VUn)
  -- floating-point SIMD (12:R206 to R208)
  | vfpVadd (o : VFArgs)
  | vfpVsub (o : VFArgs)
  | vfpVmul (o : VFArgs)
  | vfpVmin (o : VFArgs)
  | vfpVmax (o : VFArgs)
  | vfpVabs (o : VUn)
  | vfpVneg (o : VUn)
  | vfpVcmpEq (o : VFCmp)
  | vfpVcmpNe (o : VFCmp)
  | vfpVcmpLt (o : VFCmp)
  | vfpVcmpLe (o : VFCmp)
  | vfpVsum (o : VUn)
  | vfma (o : VFma)
  | vfms (o : VFma)
  | vfnma (o : VFma)
  | vfnms (o : VFma)
  -- format word, conversions, special functions (12:R198, R212 to R216)
  | fmt (w : BitVec 32)
  | cvt (o : CvtArgs)
  | cvtMx (o : CvtMxArgs)
  | sfuExp (o : VUn)
  | sfuLog (o : VUn)
  | sfuRcp (o : VUn)
  | sfuRsqrt (o : VUn)
  | sfuSqrt (o : VUn)
  | sfuSin (o : VUn)
  | sfuCos (o : VUn)
  | sfuTanh (o : VUn)
  | sfuSigm (o : VUn)
  -- memory (13)
  | ldD8 (o : LdArgs)
  | ldD16 (o : LdArgs)
  | ldD32 (o : LdArgs)
  | ldD64 (o : LdArgs)
  | ldD128 (o : LdArgs)
  | stD4 (o : StArgs)
  | stD8 (o : StArgs)
  | stD16 (o : StArgs)
  | stD32 (o : StArgs)
  | stD64 (o : StArgs)
  | stD128 (o : StArgs)
  | ldfe (o : FeArgs)
  | ldfeTake (o : FeArgs)
  | stfe (o : StfeArgs)
  | qld (o : QArgs)
  | qst (o : QArgs)
  | amoD32 (o : AmoArgs)
  | amoD64 (o : AmoArgs)
  | fork (f : Form) (m : MemOp) (t : Reg)
  | join (o : FeArgs)
  | waddr (o : WaddrArgs)
  | fence (f : Form) (o : Order)
  | qwait (f : Form) (sel : BitVec 5)
  | send (f : Form) (a : Reg) (ea : Bool) (b : Reg) (eb : Bool)
  | recv (f : Form) (d : Reg) (a : BitVec 3) (ea : Bool)
  | recvKeep (f : Form) (d : Reg) (a : BitVec 3) (ea : Bool)
  | mwait (f : Form) (a : BitVec 3) (ea : Bool)
  -- engine, power, step (14)
  | tcmd (f : Form) (a : Reg) (ea : Bool) (b : Reg) (eb : Bool)
  | semSig (f : Form) (n : BitVec 3)
  | semWait (f : Form) (n : BitVec 3)
  | pwrAcq (f : Form) (cls : BitVec 2) (n : BitVec 5)
  | pwrRel (f : Form) (cls : BitVec 2) (n : BitVec 5)
  | termrd (f : Form) (d : Reg) (num : BitVec 6)
  | stepget (f : Form) (d : Reg) (sel : BitVec 3) (a : Reg) (ea : Bool)
  | stoptest (o : TwoArgs)
  | seqret (o : TwoArgs) (why : BitVec 2)
  | seqadm (o : UnArgs)
  | poolTake (f : Form) (d : Reg)
  | poolGive (f : Form) (a : Reg) (ea : Bool)
  -- system (18)
  | trap (f : Form) (imm : BitVec 8)
  | trapret (f : Form)
  | gwrite (f : Form) (d : BitVec 3) (a : Reg) (ea : Bool) (b : Reg) (eb : Bool)
  | ctxsave (f : Form) (d : Reg) (a : Reg) (ea : Bool) (g : BitVec 3)
  | ctxsaveTile (f : Form) (d : Reg) (g : BitVec 3)
  | ctxrest (f : Form) (d : Reg) (a : Reg) (ea : Bool) (g : BitVec 3)
  | ctxrestTile (f : Form) (d : Reg) (g : BitVec 3)
  | rebuild (o : UnArgs)
  | recmark (f : Form) (a : Reg) (ea : Bool) (tag : BitVec 5)
  | bkpt (f : Form) (code : BitVec 5)
  | halt (f : Form) (d : Reg) (a : Reg) (ea : Bool) (op : BitVec 3)
  | fwcall (o : TwoArgs)
  | termclr (f : Form)
  -- engine commands at the head of their queue (14:R244 to R251), and events that the machine's own course brings about
  | mm (tile : Nat)
  | gath (tile : Nat)
  | copy (tile : Nat)
  | copyCin (tile : Nat)
  | copyDec (tile : Nat)
  | copyEnc (tile : Nat)
  | collPut (tile : Nat)
  | collAdd (tile : Nat)
  | collAr (tile : Nat)
  | queueFence (tile : Nat)
  | engineCommandComplete (tile : Nat) (q : Nat)
  | engineDeadlineExpiry (tile : Nat) (q : Nat)
  | registerDelivery (tag : Nat) (how : Arrival)
  | messageArrival (tag : Nat)
  | taskWake (key : Nat)
  | slotOverdue (core : Nat)
  | issueRunLimit (core : Nat)
  | yieldAgeLimit (key : Nat)
  | idleSlotSearch (key : Nat)
  | stealComplete (key : Nat)
  | calderaPlacement (part : Nat)
  | gangReservation (part : Nat)
  | reservationPreempt (part : Nat)
  | sliceBoundary (part : Nat)
  | launchPacket (part : Nat) (q : Nat)
  | unloadPacket (part : Nat) (q : Nat)
  | launchDone (launch : Nat)
  | ringTailWatch (part : Nat) (ring : Nat)
  | ringWatchReread (ring : Nat)
  | ringSpaceFreed (part : Nat) (ring : Nat)
  | stepDescriptorBuild (part : Nat)
  | stepSchedulerStart (part : Nat)
  | calderaReply (key : Nat)
  | releasePerformed (tag : Nat)
  | queuedStoreAccept (tag : Nat) (how : Arrival)
  | remoteAccessRequest (tag : Nat)
  | remoteNibbleStore (tag : Nat)
  | waddrRecheck (key : Nat)
  | pageWalk (i : Nat)
  | faultReply (part : Nat) (i : Nat)
  | leaseExpiry (cluster : Nat) (i : Nat)
  | migrationMoveComplete (part : Nat) (vpage : Nat) (ok : Bool)
  | hysteresisExpiry (part : Nat) (vpage : Nat)
  | atsInvalidateTimeout (link : Nat) (i : Nat)
  | atsInvalidateCompletion (link : Nat) (i : Nat)
  | preemptRequestArrival (part : Nat) (core : Nat)
  | preemptEngineAbort (tile : Nat) (q : Nat)
  | tileImageSave (part : Nat) (vtile : Nat)
  | calderaRestore (part : Nat)
  | trapEntry (key : Nat)
  | quarantine (key : Nat) (cause : BitVec 6)
  | breakAddr (key : Nat)
  | stopMessageArrival (core : Nat) (i : Nat)
  | triggerArrival (core part : Nat) (id : BitVec 4) (action : BitVec 2) (count : Nat) (opkg : BitVec 19) (ocore : BitVec 10) (ocycle : Nat)
  | issueSample (core : Nat)
  | freezeArrival (core : Nat)
  | waitForEventTimeout (session part : Nat)
  | buildComplete (part : Nat) (capid : Nat)
  | poisonReport (part : Nat) (pa : Nat)
  -- firmware services (18:R281, 20:R311, 21:R331, 23:R360)
  | fwver
  | setpol
  | donate
  | settvseg
  | termclrall
  | time
  | hdmbase
  | setlease
  | setptroot
  | setfring
  | setdeadline
  | collgrp
  | preempt
  | requeue
  | stepcfg
  | capinst
  | capref
  | capdel
  | capstat
  | ctxdrop
  | capexp
  | keyload
  | keydrop
  | keyctr
  | domset
  | domleave
  | domstat
  | pgrebuild
  -- memory events (06, 07, 19)
  | scTakeEffect
  | leaseWithdrawal (tag : Nat)
  | directoryDeviceFault (part : Nat) (vpage : Nat)
  | atsInvalidateRequest (link : Nat) (lo hi : Nat)
  -- pre-emption, traps, debug (17, 20, 27)
  | ringGather
  | debugAttach (head : DebugHead) (part : Nat)
  | debugDetach (head : DebugHead) (part : Nat)
  | setBreakpoint (head : DebugHead) (part : Nat) (b : Nat) (capid : Nat) (off : BitVec 32) (gtid : Word)
      (action : Nat) (trigId : BitVec 4) (trigAction : BitVec 2)
  | setWatchpoint (head : DebugHead) (part : Nat) (w : Nat) (kind : Nat) (vtile : Nat) (addr : Nat) (k : Nat) (mask : BitVec 5)
      (gtid : Word) (action : Nat) (trigId : BitVec 4) (trigAction : BitVec 2)
  | debugStop (head : DebugHead) (part : Nat) (gtid : Word)
  | debugGo (head : DebugHead) (part : Nat) (gtid : Word)
  | debugStep (head : DebugHead) (part : Nat) (gtid : Word)
  | debugStopCluster (head : DebugHead) (part : Nat) (gtid : Word)
  | debugGoCluster (head : DebugHead) (part : Nat) (gtid : Word)
  | debugStopPartition (head : DebugHead) (part : Nat)
  | readRegister (head : DebugHead) (part : Nat) (gtid : Word) (file : Nat) (index : Nat)
  | writeRegister (head : DebugHead) (part : Nat) (gtid : Word) (file : Nat) (index : Nat) (value : BitVec 128)
  | readTileMemory (head : DebugHead) (part : Nat) (vtile : Nat) (addr : Nat) (len : Nat)
  | sendTrigger (head : DebugHead) (part : Nat) (id : Nat) (action : Nat) (count : Nat)
  | setSamplePeriod (head : DebugHead) (part : Nat) (k : Nat)
  | zeroDelayAccumulators (head : DebugHead) (part : Nat) (core : Nat)
  | readLiveRing (head : DebugHead) (part : Nat) (core : Nat)
  | waitForEvent (head : DebugHead) (part : Nat)
  | readTephra (head : DebugHead) (chunk : Nat)
  | releaseTephra (head : DebugHead)
  | debugSessionEnd (session : Nat)
  -- host requests and management (25, 29)
  | createPartition (r : CreateReq)
  | destroyPartition (part : Nat)
  | resizePartition (part : Nat) (cores : List Nat)
  | bindVirtualDevice (part : Nat) (dev : Nat) (weight : Nat) (slice : Nat)
  | directoryHostFault (part : Nat) (vpage : Nat)
  | createWorld (die : Nat) (world : BitVec 4) (secret : TenantSecret) (capKeys : List Byte)
  | hlReqringWrite (base : Word)
  | hlEvringWrite (base : Word)
  | registerWrite (offset : Nat) (value : Word)
  | logRead (session : Nat) (chunk : Nat)
  | startRecordRead (session : Nat)
  | startRecordClear (session : Nat)
  | sensorSample (samples : List Sample)
  | recovery
  | firmwareUpdate (session : Nat) (image : List Byte) (ok : Bool)
  | firmwareActivation
  | coldStart (failed : List Nat) (parts : StartParts)
  | warmReset
  | failedStepRestart (failed : List Nat) (parts : List Nat)
  | recoveryForm (image : RecoveryImage)
  | powerLoss
  | uncorrectableError (pa : Nat) (treeLevel : MemError)
  | hostOwnershipRequest (pa : Nat) (data : List Byte)
  | ideIntegrityFailure (part : Nat) (link : Nat)
  | fabricRequestTimeout (tag : Nat)
  | fabricLinkFailure (link : Nat)
  | transportLoss (peer : Nat)
  | linkStateChange (link : Nat) (up : Bool) (width : Nat)
  -- trust domains and SPDM (23, 27)
  | domainJoin (part : Nat) (okMembers : List JoinReport)
  | getVersion (session : Nat)
  | getCapabilities (session : Nat)
  | negotiateAlgorithms (session : Nat)
  | getCertificate (session : Nat)
  | challenge (session : Nat)
  | getMeasurements (session : Nat)
  | keyExchange (session : Nat)
  | finish (session : Nat)
  | pskExchange (session : Nat) (world : BitVec 4) (psk : List Byte)
  | domainMessageReceive (part : Nat) (bytes : List Byte)
  | barrier (part : FromPeer) (gen : Nat)
  | drained (part : Nat) (member : Nat)
  | domainKey (part : FromPeer) (key : List Byte)
  | ready (part : Nat) (member : Nat)
  | domOpen (part : FromPeer)
  | barrierDrainTimeout (part : Nat)
  | heartbeat (part : Nat)
  | heartbeatReceive (part : Nat) (member : Nat)
  | coordinatorLost (part : Nat)
  | successorMessage (part : FromPeer) (member : Nat)
  | successorJoinTimeout (part : Nat) (member : Nat)
  | frameBoundary
  | lockInterface (part : Nat) (link : LinkLock)
  | fabricRequest (world : BitVec 4) (kind : Nat) (pa : Nat) (len : Nat) (data : List Byte)
  | coreFailure (core : Nat)
  deriving DecidableEq, Repr

end Sys2Proof
end

