-- ==== Sys2Proof/WellFormed.lean ====
section
/-! DEFINITION. Which operands an encoded instruction may carry: checks 2, 3 and the type part of 5 of 10:R170, stated
once on the instruction. The decoder applies them to what it has read, so what is ill formed is what it refuses. -/

namespace Sys2Proof

/-- Why the decoder refuses a word group (10:R170, checks 1, 2, 3 and 5; `short` is a group whose words are not all
there, which is a fetch fault and no decode trap, 10:R158). -/
inductive DecErr
  | illegalOpcode
  | reservedField
  | illegalImm
  | format
  | short
  deriving DecidableEq, Repr

/-- The guard an instruction runs under: 10:R162 gives a 32-bit word `(p0)`. -/
def Form.guard : Form → Guard
  | .w32 => ⟨0, false⟩
  | .w64 g => g
  | .w96 g => g

def Form.is32 : Form → Bool
  | .w32 => true
  | _ => false

def Form.is64 : Form → Bool
  | .w64 _ => true
  | _ => false

def Form.is96 : Form → Bool
  | .w96 _ => true
  | _ => false

/-- Length in bytes (10:R158). -/
def Form.bytes : Form → Nat
  | .w32 => 4
  | .w64 _ => 8
  | .w96 _ => 12

/-- `ms.lanes` of an element-type code (03:R61); 0 for a code that names no register type. -/
def lanesOf (ty : BitVec 5) : Nat :=
  match ty.toNat with
  | 0x03 | 0x07 => 2
  | 0x02 | 0x06 | 0x08 => 4
  | 0x01 | 0x05 | 0x09 | 0x0A => 8
  | 0x00 | 0x04 | 0x0B | 0x0C | 0x0D | 0x0E | 0x10 | 0x11 | 0x12 | 0x13 | 0x14 | 0x16 => 16
  | 0x0F | 0x15 => 32
  | _ => 0

/-- Width in bits of an element as it lies in a register: E3M2 and E2M3 take a byte (03:R61, 04:R69). -/
def elemBits (ty : BitVec 5) : Nat :=
  match ty.toNat with
  | 0x03 | 0x07 => 64
  | 0x02 | 0x06 | 0x08 => 32
  | 0x01 | 0x05 | 0x09 | 0x0A => 16
  | 0x0F | 0x15 => 4
  | _ => 8

/-- Integer types i8 to n64; the i types are signed (10:R164). -/
def isInt (ty : BitVec 5) : Bool := decide (ty.toNat ≤ 7)
def isSigned (ty : BitVec 5) : Bool := decide (ty.toNat ≤ 3)
/-- The types a `vfp` or `sfu` minor accepts (12:R206, R215). -/
def isFp (ty : BitVec 5) : Bool := decide (8 ≤ ty.toNat ∧ ty.toNat ≤ 0x0A)
/-- The MX types (10:R164). -/
def isMx (ty : BitVec 5) : Bool := decide (0x11 ≤ ty.toNat ∧ ty.toNat ≤ 0x16)
/-- A code 0x18 to 0x1F (10:R164). -/
def tyResv (ty : BitVec 5) : Bool := decide (0x18 ≤ ty.toNat)
/-- A type code that moves and `vwhile` accept (12:R209, R211): 0x00 to 0x16. -/
def isElem (ty : BitVec 5) : Bool := decide (ty.toNat ≤ 0x16)

/-- Two registers of a group share one field, which must be a multiple of the group (12:R197). -/
def groupBad (r : Reg) (n : Nat) : Bool := decide (r.toNat % n ≠ 0)

/-- Registers that `cvt` reads for one source (12:R212). -/
def cvtGroup (dt st : BitVec 5) : Nat :=
  if lanesOf st = 0 ∨ lanesOf dt < lanesOf st then 1 else lanesOf dt / lanesOf st

/-- Registers that `cvt.mx` reads: 32 / ns (12:R214); one where a code names no register type. -/
def mxGroup (st : BitVec 5) : Nat := max 1 (32 / lanesOf st)

/-- Limits of the literals of the scalar R forms: shift amounts (11:R182), widths (R185), control values (R186). -/
def shiftLitBad : Src → Bool
  | .lit l => decide (63 < l.toNat)
  | _ => false

def widthLitBad : Src → Bool
  | .lit l => decide (64 < l.toNat)
  | _ => false

def ctlLitBad : Src → Bool
  | .lit l => decide (32768 ≤ l.toNat) || l.getLsbD 7 || decide (64 < l.toNat / 256 % 128)
  | _ => false

def shiftImmBad : Imm → Bool
  | .i13 x => decide (63 < x.toNat)
  | .lit l => decide (63 < l.toNat)

/-- A `vint` literal must be its own low element extended (10:R163): signed for a signed arithmetic minor, unsigned for
logical and shift minors and n types (09:R152). -/
def vintLitBad (ty : BitVec 5) (signed : Bool) : Src → Bool
  | .lit l =>
    let w := elemBits ty
    if 32 ≤ w then false
    else if signed then
      !(l == (BitVec.ofInt 32 (BitVec.ofNat w l.toNat).toInt))
    else decide (2 ^ w ≤ l.toNat)
  | _ => false

/-- A `vint` literal with a type that `vint` does not accept: the limit of R163 is stated for every element width and comes before the
check of the type. An element that is not signed or unsigned by its type takes either extension (assumption 80, DEDUCED). -/
def vintImmBad (ty : BitVec 5) (arith : Bool) (b : Src) : Bool :=
  if isInt ty then vintLitBad ty (arith && isSigned ty) b
  else lanesOf ty != 0 && vintLitBad ty false b && (!arith || vintLitBad ty true b)

/-- Types with an infinity (04:R67, R75). -/
def hasInf (ty : BitVec 5) : Bool := [0x08, 0x09, 0x0A, 0x0B, 0x11].contains ty.toNat

/-- An infinity for a type without one (10:R163, 09:R152). The 16-bit immediate of a type that has no such form is read as bfloat16
(assumption 80, DEDUCED). -/
def infBad (ty : BitVec 5) : FSrc → Bool
  | .reg _ _ => false
  | .fi x => !hasInf ty && x &&& 0x7FFF == 0x7F80
  | .lit l => !hasInf ty && l &&& 0x7FFFFFFF == 0x7F800000

/-- A post-increment literal lies in −4,096 to 4,095 (10:R163). -/
def dispBad (pinc : Bool) : Disp → Bool
  | .i8 _ => false
  | .lit l => pinc && (decide (l.toInt < -4096) || decide (4095 < l.toInt))

/-- Pointer rules of the M format (10:R160, R170): no post-increment through s0 or through an s-file T; no displacement
beside a pointer register. -/
def memBad (m : MemOp) (t : Reg) (tIsS : Bool) : Bool :=
  if m.ptr = 0 then m.pinc
  else if m.pinc then tIsS && m.ptr == t
  else match m.disp with
    | .i8 x => x != 0
    | .lit l => l != 0

/-- Scope codes 0xA to 0xF are reserved, and an unnamed scope is encoded as 0 (10:R161, R165). -/
def scopeBad (sn : Bool) (scope : BitVec 4) : Bool := decide (0xA ≤ scope.toNat) || (!sn && scope != 0)

/-- Ordering of an access: the accepted `ord` codes, and task to package scope for `sc` (13:R217, R229). -/
def orderBad (o : Order) (acq rel sc : Bool) : Bool :=
  scopeBad o.sn o.scope ||
  match o.ord.toNat with
  | 0 => false
  | 1 => !rel
  | 2 => !acq
  | _ => !sc || decide (5 < o.scope.toNat)

/-- The zero conditions of the format word (12:R198). -/
def fmtWordBad (w : BitVec 32) : Bool :=
  let n := w.toNat
  let oa := w.getLsbD 31
  let fa := n / 2 ^ 26 % 32
  let ob := w.getLsbD 25
  let fb := n / 2 ^ 20 % 32
  let part := n / 2 ^ 18 % 4
  let ss := n / 2 ^ 16 % 4
  let sreg := n / 2 ^ 11 % 32
  let sv := n / 8 % 256
  decide (n % 8 ≠ 0) || (!oa && fa != 0) || (!ob && fb != 0) || (!oa && !ob && part != 0) || ss == 3
    || decide (0x18 ≤ fa) || decide (0x18 ≤ fb)
    || (ss == 1 && sreg == 0) || (ss != 1 && sreg != 0)
    || (ss == 1 && decide (8 ≤ sv)) || (ss == 0 && sv != 0)

/-- Check 2 of 10:R170 on the operands: reserved codes and forbidden register fields. -/
def Instr.reservedBad : Instr → Bool
  | .add _ sat uns | .sub _ sat uns => uns && !sat
  | .vwhile _ ty _ _ _ _ _ | .pcnt ty _ _ => tyResv ty
  | .vmov o => tyResv o.ty || o.sat || o.rnd != 0
  | .vbcast o => tyResv o.ty || o.sat || o.rnd != 0
  | .vins o | .vext o => tyResv o.ty
  | .vperm o | .vsel o => tyResv o.ty
  | .vintVadd o | .vintVsub o | .vintVmul o | .vintVshl o | .vdot4 o => tyResv o.ty
  | .vintVmulh o | .vintVmin o | .vintVmax o | .vintVand o | .vintVor o | .vintVxor o | .vintVandn o | .vintVshr o
  | .vintVsra o => tyResv o.ty || o.sat
  | .vintVabs o | .vintVneg o | .vintVsum o => tyResv o.ty || o.rnd != 0
  | .vintVcmpEq o | .vintVcmpNe o | .vintVcmpLt o | .vintVcmpLe o => tyResv o.ty
  | .vfpVadd o | .vfpVsub o | .vfpVmul o => tyResv o.ty
  | .vfpVmin o | .vfpVmax o => tyResv o.ty || o.sat || o.rnd != 0
  | .vfpVabs o | .vfpVneg o => tyResv o.ty || o.sat || o.rnd != 0
  | .vfpVsum o => tyResv o.ty
  | .vfpVcmpEq o | .vfpVcmpNe o | .vfpVcmpLt o | .vfpVcmpLe o => tyResv o.ty
  | .vfma o | .vfms o | .vfnma o | .vfnms o => tyResv o.ty
  | .fmt w => fmtWordBad w
  | .cvt o => tyResv o.dt || tyResv o.st || groupBad o.a (cvtGroup o.dt o.st)
  | .cvtMx o => tyResv o.dt || tyResv o.st || groupBad o.a (mxGroup o.st)
      || (isMx o.dt && o.dt != 0x15 && groupBad o.d 2)
  | .sfuExp o | .sfuLog o | .sfuRcp o | .sfuRsqrt o | .sfuSqrt o | .sfuSin o | .sfuCos o | .sfuTanh o | .sfuSigm o =>
      tyResv o.ty
  | .ldD8 o | .ldD16 o | .ldD32 o => memBad o.m o.t true || orderBad o.o true false true
  | .ldD64 o => memBad o.m o.t true || orderBad o.o true false true || o.sx
  | .ldD128 o => memBad o.m o.t false || orderBad o.o true false true || o.sx
  | .stD4 o => memBad o.m o.t true || orderBad o.o false true false
  | .stD8 o | .stD16 o | .stD32 o | .stD64 o => memBad o.m o.t true || orderBad o.o false true true
  | .stD128 o => memBad o.m o.t false || orderBad o.o false true true
  | .ldfe o | .ldfeTake o => memBad o.m o.t true || scopeBad o.sn o.scope
  | .join o => memBad o.m o.t true || o.sn || o.scope != 0
  | .stfe o => memBad o.m o.t true || scopeBad o.sn o.scope
  | .qld o => memBad o.m o.t (decide (o.size.toNat < 4)) || orderBad o.o true false true || decide (3 < o.queue.toNat)
      || decide (4 < o.size.toNat) || o.et
  | .qst o => memBad o.m o.t (decide (o.size.toNat < 4)) || orderBad o.o false true true || decide (o.queue.toNat < 4)
      || decide (5 < o.queue.toNat) || decide (4 < o.size.toNat)
  | .amoD32 o | .amoD64 o => memBad o.m o.t true || orderBad o.o true true true || decide (3 < o.queue.toNat)
      || decide (9 < o.op.toNat) || (o.et && o.op != 9)
  | .fork _ m t => memBad m t true
  | .waddr o => memBad o.m o.t true || scopeBad o.sn o.scope || o.cond == 3
  | .fence _ o => o.ord == 3 || scopeBad o.sn o.scope
  | .qwait _ sel => decide (5 < sel.toNat)
  | .stepget _ _ sel a _ => !(sel == 2 || sel == 3 || sel == 4) && a != 0
  | .halt _ _ _ _ op => decide (4 < op.toNat)
  | _ => false

/-- Check 3 of 10:R170: immediates and literals outside their limits. -/
def Instr.immBad : Instr → Bool
  | .shl o | .shr o | .sra o | .rol o | .ror o => shiftLitBad o.b
  | .sext o | .zext o => widthLitBad o.b
  | .bext o | .bins o => ctlLitBad o.b
  | .shli o | .shri o | .srai o => shiftImmBad o.imm
  | .vins o | .vext o => decide (lanesOf o.ty ≤ o.k.toNat)
  | .vintVadd o | .vintVsub o | .vintVmul o | .vintVmulh o | .vintVmin o | .vintVmax o | .vdot4 o =>
      vintImmBad o.ty true o.b
  | .vintVand o | .vintVor o | .vintVxor o | .vintVandn o | .vintVshl o | .vintVshr o | .vintVsra o =>
      vintImmBad o.ty false o.b
  | .vintVcmpEq o | .vintVcmpNe o | .vintVcmpLt o | .vintVcmpLe o =>
      vintImmBad o.ty true o.b
  | .vfpVadd o | .vfpVsub o | .vfpVmul o | .vfpVmin o | .vfpVmax o => infBad o.ty o.b
  | .vfpVcmpEq o | .vfpVcmpNe o | .vfpVcmpLt o | .vfpVcmpLe o => infBad o.ty o.b
  | .cvt o => if lanesOf o.st ≤ lanesOf o.dt then o.q != 0
      else decide (lanesOf o.st < o.q.toNat * lanesOf o.dt + lanesOf o.dt)
  | .ldD8 o | .ldD16 o | .ldD32 o | .ldD64 o | .ldD128 o => dispBad o.m.pinc o.m.disp
  | .stD4 o | .stD8 o | .stD16 o | .stD32 o | .stD64 o | .stD128 o => dispBad o.m.pinc o.m.disp
  | .ldfe o | .ldfeTake o | .join o => dispBad o.m.pinc o.m.disp
  | .stfe o => dispBad o.m.pinc o.m.disp
  | .qld o | .qst o => dispBad o.m.pinc o.m.disp
  | .amoD32 o | .amoD64 o => dispBad o.m.pinc o.m.disp
  | .fork _ m _ => dispBad m.pinc m.disp
  | .waddr o => dispBad o.m.pinc o.m.disp
  | .pwrAcq _ cls n | .pwrRel _ cls n => n == 0 || decide ((if cls = 3 then 8 else 4) < n.toNat)
  | _ => false

/-- Check 5 of 10:R170, its type part: a listed code that the instruction does not accept. -/
def Instr.formatBad : Instr → Bool
  | .vwhile _ ty _ _ _ _ _ | .pcnt ty _ _ => !isElem ty
  | .vmov o | .vbcast o => !isElem o.ty
  | .vins o | .vext o => !isElem o.ty
  | .vperm o | .vsel o => !isElem o.ty
  | .vintVadd o | .vintVsub o | .vintVmul o | .vintVmulh o | .vintVmin o | .vintVmax o | .vintVand o | .vintVor o
  | .vintVxor o | .vintVandn o | .vintVshl o | .vintVshr o | .vintVsra o => !isInt o.ty
  | .vdot4 o => !(o.ty == 0 || o.ty == 4)
  | .vintVabs o | .vintVneg o => !isSigned o.ty
  | .vintVsum o => !isInt o.ty
  | .vintVcmpEq o | .vintVcmpNe o | .vintVcmpLt o | .vintVcmpLe o => !isInt o.ty
  | .vfpVadd o | .vfpVsub o | .vfpVmul o | .vfpVmin o | .vfpVmax o => !isFp o.ty
  | .vfpVabs o | .vfpVneg o | .vfpVsum o => !isFp o.ty
  | .vfpVcmpEq o | .vfpVcmpNe o | .vfpVcmpLt o | .vfpVcmpLe o => !isFp o.ty
  | .vfma o | .vfms o | .vfnma o | .vfnms o => !isFp o.ty
  | .cvt o => !isElem o.dt || !isElem o.st || o.dt == 0x10
  | .cvtMx o => !isMx o.dt || !isFp o.st
  | .sfuExp o | .sfuLog o | .sfuRcp o | .sfuRsqrt o | .sfuSqrt o | .sfuSin o | .sfuCos o | .sfuTanh o | .sfuSigm o =>
      !isFp o.ty
  | _ => false

/-- The first check of 10:R170 that an instruction's operands fail, in the order 2, 3, 5. -/
def Instr.operandErr (i : Instr) : Option DecErr :=
  if i.reservedBad then some .reservedField
  else if i.immBad then some .illegalImm
  else if i.formatBad then some .format
  else none

/-- A scalar or vector B source lies in the form that can hold it (10:R163). -/
def Src.fits (f : Form) : Src → Bool
  | .reg _ _ => !f.is96
  | .lit _ => f.is96

def FSrc.fits (f : Form) : FSrc → Bool
  | .reg _ _ => f.is64
  | .fi _ => f.is64
  | .lit _ => f.is96

def Imm.fits (f : Form) : Imm → Bool
  | .i13 _ => !f.is96
  | .lit _ => f.is96

def Disp.fits (f : Form) : Disp → Bool
  | .i8 _ => !f.is96
  | .lit _ => f.is96

/-- What a 32-bit word cannot hold is at its default (10:R162). -/
def Order.plain32 (f : Form) (o : Order) : Bool := !f.is32 || (o.ord == 0 && !o.sn && o.scope == 0)

/-- The form can hold the operands (10:R162, R163, R237, R277): which lengths an instruction has, and the defaults of its
32-bit form. -/
def Instr.formOk : Instr → Bool
  | .br _ _ => true
  | .nop => true
  | .call _ _ => true
  | .loop f _ _ _ | .jr f _ _ | .ret f _ | .tend f | .hintYield f | .yield f | .gbar f => !f.is96
  | .callr o => !o.f.is96
  | .add o sat uns | .sub o sat uns => o.b.fits o.f && (!o.f.is32 || (!sat && !uns))
  | .and o | .or o | .xor o | .andn o | .orn o | .shl o | .shr o | .sra o | .rol o | .ror o | .min o | .max o | .minu o
  | .maxu o | .sext o | .zext o | .bext o | .bins o | .sh1add o | .sh2add o | .sh3add o | .sh4add o => o.b.fits o.f
  | .mul o | .mulh o | .mulhu o | .mulhsu o | .div o | .divu o | .rem o | .remu o => o.b.fits o.f
  | .clz o | .ctz o | .popc o => !o.f.is96
  | .cmpEq o | .cmpNe o | .cmpLt o | .cmpGe o | .cmpLtu o | .cmpGeu o => o.b.fits o.f
  | .addi o | .andi o | .ori o | .xori o | .shli o | .shri o | .srai o => o.imm.fits o.f
  | .cmpiEq o | .cmpiNe o | .cmpiLt o | .cmpiGe o | .cmpiuLtu o | .cmpiuGeu o => o.imm.fits o.f
  | .rdms f _ _ | .wrms f _ _ _ | .grd f _ _ _ => !f.is96
  | .gnarrow f _ _ _ _ c ec drop => !f.is96 && (!f.is32 || (c == 0 && !ec && drop == 0))
  | .pand o | .por o | .pxor o => !o.f.is96
  | .pnot o | .pmov o => !o.f.is96
  | .vwhile _ _ _ _ _ _ _ => true
  | .pcnt _ _ _ => true
  | .vmov o => !o.f.is96 && (!o.f.is32 || o.ty == 4)
  | .vbcast o => !o.f.is96 && (!o.f.is32 || o.ty == 6)
  | .vins o | .vext o => !o.f.is96 && (!o.f.is32 || o.ty == 6)
  | .vperm o | .vsel o => !o.f.is96 && (!o.f.is32 || o.ty == 4)
  | .vintVadd o | .vintVsub o | .vintVmul o | .vintVmulh o | .vintVmin o | .vintVmax o | .vintVand o | .vintVor o
  | .vintVxor o | .vintVandn o | .vintVshl o | .vintVshr o | .vintVsra o | .vdot4 o => !o.f.is32 && o.b.fits o.f
  | .vintVabs o | .vintVneg o | .vintVsum o => o.f.is64
  | .vintVcmpEq o | .vintVcmpNe o | .vintVcmpLt o | .vintVcmpLe o => !o.f.is32 && o.b.fits o.f
  | .vfpVadd o | .vfpVsub o | .vfpVmul o | .vfpVmin o | .vfpVmax o => o.b.fits o.f
  | .vfpVabs o | .vfpVneg o | .vfpVsum o => o.f.is64
  | .vfpVcmpEq o | .vfpVcmpNe o | .vfpVcmpLt o | .vfpVcmpLe o => o.b.fits o.f
  | .vfma o | .vfms o | .vfnma o | .vfnms o => o.f.is64
  | .fmt _ => true
  | .cvt o => o.f.is64
  | .cvtMx o => o.f.is64
  | .sfuExp o | .sfuLog o | .sfuRcp o | .sfuRsqrt o | .sfuSqrt o | .sfuSin o | .sfuCos o | .sfuTanh o | .sfuSigm o =>
      o.f.is64
  | .ldD8 o | .ldD16 o | .ldD32 o | .ldD64 o | .ldD128 o =>
      o.m.disp.fits o.f && o.o.plain32 o.f && (!o.f.is32 || !o.sx)
  | .stD4 o | .stD8 o | .stD16 o | .stD32 o | .stD64 o | .stD128 o => o.m.disp.fits o.f && o.o.plain32 o.f
  | .ldfe o | .ldfeTake o | .join o => o.m.disp.fits o.f && (!o.f.is32 || (!o.sn && o.scope == 0 && !o.y))
  | .stfe o => o.m.disp.fits o.f && (!o.f.is32 || (!o.sn && o.scope == 0 && !o.wfe))
  | .qld o | .qst o => o.m.disp.fits o.f && !o.f.is32
  | .amoD32 o | .amoD64 o => o.m.disp.fits o.f && !o.f.is32
  | .fork f m _ => m.disp.fits f
  | .waddr o => o.m.disp.fits o.f && (!o.f.is32 || (!o.sn && o.scope == 0 && o.cond == 0 && !o.d64 && !o.y))
  | .fence f o => !f.is96 && o.plain32 f
  | .qwait f _ | .send f _ _ _ _ | .recv f _ _ _ | .recvKeep f _ _ _ | .mwait f _ _ => !f.is96
  | .tcmd f _ _ _ _ | .semSig f _ | .semWait f _ | .pwrAcq f _ _ | .pwrRel f _ _ | .termrd f _ _ => !f.is96
  | .stepget f _ _ _ _ | .poolTake f _ | .poolGive f _ _ => !f.is96
  | .stoptest o => !o.f.is96
  | .seqret o why => !o.f.is96 && (!o.f.is32 || why == 0)
  | .seqadm o => !o.f.is96
  | .trap f _ | .trapret f | .gwrite f _ _ _ _ _ | .ctxsave f _ _ _ _ | .ctxrest f _ _ _ _ => !f.is96
  | .ctxsaveTile f _ _ | .ctxrestTile f _ _ => f.is64
  | .rebuild o => !o.f.is96
  | .recmark f _ _ _ | .bkpt f _ | .halt f _ _ _ _ | .termclr f => !f.is96
  | .fwcall o => !o.f.is96
  | _ => false

/-- Well formed: an encoded instruction in a form that can hold it, which passes the checks. A branch that is the `nop`
word is spelt `nop` (10:R166). -/
def Instr.wf (i : Instr) : Bool :=
  i.formOk && i.operandErr.isNone && !(i == .br 0 ⟨0, true⟩)

end Sys2Proof
end

