-- ==== Sys2Proof/Decode.lean ====
section
/-! DEFINITION. Instruction words: the formats of 10:R158 to R169 as records, the decoder (total, refusing by name under
10:R170) and, after it, the encoder. -/

namespace Sys2Proof

/-- Length code, bits 1:0 of the first word (10:R158). -/
inductive Len
  | l32
  | l64
  | l96
  deriving DecidableEq, Repr

/-- The words of one instruction with its length code taken off: major opcode, bits 31:8 of the first word, the second
word (0 at 32 bits) and the literal (0 below 96 bits). -/
structure Raw where
  len : Len
  major : BitVec 6
  body : BitVec 24
  hi : BitVec 32
  lit : BitVec 32
  deriving DecidableEq, Repr

/-- The R format (10:R160). -/
structure RFields where
  d : BitVec 5
  a : BitVec 5
  b : BitVec 5
  ea : Bool
  eb : Bool
  minor : BitVec 7
  deriving DecidableEq, Repr

/-- The I format (10:R160). -/
structure IFields where
  d : BitVec 5
  a : BitVec 5
  ea : Bool
  imm : BitVec 13
  deriving DecidableEq, Repr

/-- The B format (10:R160). -/
structure BFields where
  pred : BitVec 3
  neg : Bool
  off : BitVec 20
  deriving DecidableEq, Repr

/-- The M format (10:R160). -/
structure MFields where
  t : BitVec 5
  a : BitVec 5
  ea : Bool
  g : BitVec 3
  pi : Bool
  et : Bool
  imm : BitVec 8
  deriving DecidableEq, Repr

/-- The extension word (10:R161). -/
structure Ext where
  pred : BitVec 3 := 0
  pneg : Bool := false
  ty : BitVec 5 := 0
  rnd : BitVec 2 := 0
  sat : Bool := false
  srcc : BitVec 5 := 0
  ebc : Bool := false
  scope : BitVec 4 := 0
  ord : BitVec 2 := 0
  queue : BitVec 3 := 0
  sn : Bool := false
  xmod : BitVec 4 := 0
  deriving DecidableEq, Repr

/-- Fields of a word, least significant first: a width and a value each. -/
def packFields : List (Nat × Nat) → Nat
  | [] => 0
  | (w, v) :: r => v % 2 ^ w + 2 ^ w * packFields r

/-- Bits `lo + w - 1 : lo` of a number. -/
def bitsAt (n lo w : Nat) : BitVec w := BitVec.ofNat w (n / 2 ^ lo)

def bitAt (n i : Nat) : Bool := n / 2 ^ i % 2 == 1

def RFields.read (n : BitVec 24) : RFields :=
  let n := n.toNat
  ⟨bitsAt n 0 5, bitsAt n 5 5, bitsAt n 10 5, bitAt n 15, bitAt n 16, bitsAt n 17 7⟩

def IFields.read (n : BitVec 24) : IFields :=
  let n := n.toNat
  ⟨bitsAt n 0 5, bitsAt n 5 5, bitAt n 10, bitsAt n 11 13⟩

def BFields.read (n : BitVec 24) : BFields :=
  let n := n.toNat
  ⟨bitsAt n 0 3, bitAt n 3, bitsAt n 4 20⟩

def MFields.read (n : BitVec 24) : MFields :=
  let n := n.toNat
  ⟨bitsAt n 0 5, bitsAt n 5 5, bitAt n 10, bitsAt n 11 3, bitAt n 14, bitAt n 15, bitsAt n 16 8⟩

def Ext.read (n : BitVec 32) : Ext :=
  let n := n.toNat
  ⟨bitsAt n 0 3, bitAt n 3, bitsAt n 4 5, bitsAt n 9 2, bitAt n 11, bitsAt n 12 5, bitAt n 17, bitsAt n 18 4,
   bitsAt n 22 2, bitsAt n 24 3, bitAt n 27, bitsAt n 28 4⟩

def RFields.word (f : RFields) : BitVec 24 :=
  BitVec.ofNat 24 (packFields [(5, f.d.toNat), (5, f.a.toNat), (5, f.b.toNat), (1, f.ea.toNat), (1, f.eb.toNat),
    (7, f.minor.toNat)])

def IFields.word (f : IFields) : BitVec 24 :=
  BitVec.ofNat 24 (packFields [(5, f.d.toNat), (5, f.a.toNat), (1, f.ea.toNat), (13, f.imm.toNat)])

def BFields.word (f : BFields) : BitVec 24 :=
  BitVec.ofNat 24 (packFields [(3, f.pred.toNat), (1, f.neg.toNat), (20, f.off.toNat)])

def MFields.word (f : MFields) : BitVec 24 :=
  BitVec.ofNat 24 (packFields [(5, f.t.toNat), (5, f.a.toNat), (1, f.ea.toNat), (3, f.g.toNat), (1, f.pi.toNat),
    (1, f.et.toNat), (8, f.imm.toNat)])

def Ext.word (e : Ext) : BitVec 32 :=
  BitVec.ofNat 32 (packFields [(3, e.pred.toNat), (1, e.pneg.toNat), (5, e.ty.toNat), (2, e.rnd.toNat), (1, e.sat.toNat),
    (5, e.srcc.toNat), (1, e.ebc.toNat), (4, e.scope.toNat), (2, e.ord.toNat), (3, e.queue.toNat), (1, e.sn.toNat),
    (4, e.xmod.toNat)])

/-- The 16-bit immediate of `fi` lies over bits 59:44 (10:R161). -/
def Ext.fi (e : Ext) : BitVec 16 :=
  BitVec.ofNat 16 (packFields [(5, e.srcc.toNat), (1, e.ebc.toNat), (4, e.scope.toNat), (2, e.ord.toNat),
    (3, e.queue.toNat), (1, e.sn.toNat)])

/-- The extension word with the 16-bit immediate laid in, and `fi` set. -/
def Ext.withFi (e : Ext) (x : BitVec 16) : Ext :=
  let n := x.toNat
  { e with srcc := bitsAt n 0 5, ebc := bitAt n 5, scope := bitsAt n 6 4, ord := bitsAt n 10 2, queue := bitsAt n 12 3,
           sn := bitAt n 15, xmod := 1 }

/-- Which extension fields an entry uses; the others must be zero (10:R167). -/
structure Use where
  ty : Bool := false
  rnd : Bool := false
  sat : Bool := false
  c : Bool := false
  sc : Bool := false
  ord : Bool := false
  q : Bool := false
  xm : BitVec 4 := 0
  deriving DecidableEq, Repr

/-- Some unused extension field is not zero. -/
def Ext.unusedBad (e : Ext) (u : Use) : Bool :=
  (!u.ty && e.ty != 0) || (!u.rnd && e.rnd != 0) || (!u.sat && e.sat) || (!u.c && (e.srcc != 0 || e.ebc))
    || (!u.sc && (e.sn || e.scope != 0)) || (!u.ord && e.ord != 0) || (!u.q && e.queue != 0)
    || (e.xmod &&& ~~~u.xm) != 0

/-- Form and guard of a word group (10:R158, R161). -/
def Raw.form (r : Raw) : Form :=
  let e := Ext.read r.hi
  match r.len with
  | .l32 => .w32
  | .l64 => .w64 ⟨e.pred, e.pneg⟩
  | .l96 => .w96 ⟨e.pred, e.pneg⟩

/-- Accept, or refuse with RESERVED_FIELD. -/
def keep (bad : Bool) (i : Instr) : Except DecErr Instr := if bad then .error .reservedField else .ok i

/-- B operand of an R form that takes a literal at 96 bits (10:R163): the field and its bit are then zero. -/
def rSrc (r : Raw) (f : RFields) : Src := if r.len = .l96 then .lit r.lit else .reg f.b f.eb
def rSrcBad (r : Raw) (f : RFields) : Bool := r.len = .l96 && (f.b != 0 || f.eb)

def iImm (r : Raw) (f : IFields) : Imm := if r.len = .l96 then .lit r.lit else .i13 f.imm
def iImmBad (r : Raw) (f : IFields) : Bool := r.len = .l96 && f.imm != 0

def mOp (r : Raw) (f : MFields) : MemOp :=
  ⟨f.g, f.a, f.ea, f.pi, if r.len = .l96 then .lit r.lit else .i8 f.imm⟩
def mOpBad (r : Raw) (f : MFields) : Bool := r.len = .l96 && f.imm != 0

/-- Element type: the entry's default at 32 bits (10:R162). -/
def tyField (r : Raw) (e : Ext) (dflt : BitVec 5) : BitVec 5 := if r.len = .l32 then dflt else e.ty

def low3 (x : BitVec 5) : BitVec 3 := x.setWidth 3
/-- A p, m or g field, of which only indices 0 to 7 exist (10:R167). -/
def idx3Bad (x : BitVec 5) : Bool := decide (7 < x.toNat)

/-- Major 0x04 (11:R180, R194, 13:R236). -/
def decodeControl (r : Raw) (f : RFields) (e : Ext) : Except DecErr Instr :=
  if r.len = .l96 then .error .illegalOpcode else
  let bad := e.unusedBad {} || f.b != 0
  let none3 := bad || f.d != 0 || f.a != 0
  match f.minor.toNat with
  | 0x00 => keep (bad || f.d != 0) (.jr r.form f.a f.ea)
  | 0x01 => keep bad (.callr ⟨r.form, f.d, f.a, f.ea⟩)
  | 0x02 => keep (bad || f.d != 0 || f.a != 31) (.ret r.form f.ea)
  | 0x03 => keep none3 (.tend r.form)
  | 0x04 => keep none3 (.hintYield r.form)
  | 0x05 => keep none3 (.yield r.form)
  | 0x06 => keep none3 (.gbar r.form)
  | _ => .error .illegalOpcode

/-- Major 0x05 (11:R182, R183, R185, R186). -/
def decodeAlu (r : Raw) (f : RFields) (e : Ext) : Except DecErr Instr :=
  let bad := e.unusedBad {} || rSrcBad r f
  let addBad := e.unusedBad { sat := true, xm := 1 } || rSrcBad r f
  let o : AluArgs := ⟨r.form, f.d, f.a, f.ea, rSrc r f⟩
  let u : UnArgs := ⟨r.form, f.d, f.a, f.ea⟩
  let unary (i : Instr) : Except DecErr Instr :=
    if r.len = .l96 then .error .illegalOpcode else keep (e.unusedBad {} || f.b != 0) i
  match f.minor.toNat with
  | 0x00 => keep addBad (.add o e.sat (e.xmod == 1))
  | 0x01 => keep addBad (.sub o e.sat (e.xmod == 1))
  | 0x02 => keep bad (.and o)
  | 0x03 => keep bad (.or o)
  | 0x04 => keep bad (.xor o)
  | 0x05 => keep bad (.andn o)
  | 0x06 => keep bad (.orn o)
  | 0x07 => keep bad (.shl o)
  | 0x08 => keep bad (.shr o)
  | 0x09 => keep bad (.sra o)
  | 0x0a => keep bad (.rol o)
  | 0x0b => keep bad (.ror o)
  | 0x0c => keep bad (.min o)
  | 0x0d => keep bad (.max o)
  | 0x0e => keep bad (.minu o)
  | 0x0f => keep bad (.maxu o)
  | 0x10 => unary (.clz u)
  | 0x11 => unary (.ctz u)
  | 0x12 => unary (.popc u)
  | 0x13 => keep bad (.sext o)
  | 0x14 => keep bad (.zext o)
  | 0x15 => keep bad (.bext o)
  | 0x16 => keep bad (.bins o)
  | 0x18 => keep bad (.sh1add o)
  | 0x19 => keep bad (.sh2add o)
  | 0x1a => keep bad (.sh3add o)
  | 0x1b => keep bad (.sh4add o)
  | _ => .error .illegalOpcode

/-- Majors 0x06 and 0x07 (11:R187, R188). -/
def decodeMul (r : Raw) (f : RFields) (e : Ext) : Except DecErr Instr :=
  let bad := e.unusedBad {} || rSrcBad r f
  let o : AluArgs := ⟨r.form, f.d, f.a, f.ea, rSrc r f⟩
  match f.minor.toNat with
  | 0x00 => keep bad (.mul o)
  | 0x01 => keep bad (.mulh o)
  | 0x02 => keep bad (.mulhu o)
  | 0x03 => keep bad (.mulhsu o)
  | 0x04 => keep bad (.div o)
  | 0x05 => keep bad (.divu o)
  | 0x06 => keep bad (.rem o)
  | 0x07 => keep bad (.remu o)
  | _ => .error .illegalOpcode

def decodeCmp (r : Raw) (f : RFields) (e : Ext) : Except DecErr Instr :=
  let bad := e.unusedBad {} || rSrcBad r f || idx3Bad f.d
  let o : CmpArgs := ⟨r.form, low3 f.d, f.a, f.ea, rSrc r f⟩
  match f.minor.toNat with
  | 0x00 => keep bad (.cmpEq o)
  | 0x01 => keep bad (.cmpNe o)
  | 0x02 => keep bad (.cmpLt o)
  | 0x03 => keep bad (.cmpGe o)
  | 0x04 => keep bad (.cmpLtu o)
  | 0x05 => keep bad (.cmpGeu o)
  | _ => .error .illegalOpcode

/-- Majors 0x08 to 0x10 (11:R184, R188). -/
def decodeImm (r : Raw) (f : IFields) (e : Ext) : Except DecErr Instr :=
  let bad := e.unusedBad {} || iImmBad r f
  let o : ImmArgs := ⟨r.form, f.d, f.a, f.ea, iImm r f⟩
  let c : CmpImmArgs := ⟨r.form, low3 f.d, f.a, f.ea, iImm r f⟩
  match r.major.toNat with
  | 0x08 => keep bad (.addi o)
  | 0x09 => keep bad (.andi o)
  | 0x0a => keep bad (.ori o)
  | 0x0b => keep bad (.xori o)
  | 0x0c => keep bad (.shli o)
  | 0x0d => keep bad (.shri o)
  | 0x0e => keep bad (.srai o)
  | 0x0F =>
    match f.d.toNat / 8 with
    | 0 => keep bad (.cmpiEq c)
    | 1 => keep bad (.cmpiNe c)
    | 2 => keep bad (.cmpiLt c)
    | _ => keep bad (.cmpiGe c)
  | 0x10 =>
    match f.d.toNat / 8 with
    | 0 => keep bad (.cmpiuLtu c)
    | 1 => keep bad (.cmpiuGeu c)
    | _ => .error .reservedField
  | _ => .error .illegalOpcode

/-- `loop`, `rdms`, `wrms` and `termrd`: I forms without a 96-bit form (11:R181, R190, R191, 14:R253). -/
def decodeI64 (r : Raw) (f : IFields) (e : Ext) : Except DecErr Instr :=
  if r.len = .l96 then .error .illegalOpcode else
  let bad := e.unusedBad {}
  match r.major.toNat with
  | 0x03 => keep (bad || f.d != f.a) (.loop r.form f.d f.ea f.imm)
  | 0x11 => keep (bad || f.a != 0 || f.ea) (.rdms r.form f.d f.imm)
  | 0x12 => keep (bad || f.d != 0) (.wrms r.form f.a f.ea f.imm)
  | 0x39 =>
    if bad || f.a != 0 || f.ea then .error .reservedField
    else if 63 < f.imm.toNat then .error .illegalImm
    else .ok (.termrd r.form f.d (f.imm.setWidth 6))
  | _ => .error .illegalOpcode

/-- Major 0x13 (11:R192, R193). -/
def decodeSegment (r : Raw) (f : RFields) (e : Ext) : Except DecErr Instr :=
  if r.len = .l96 then .error .illegalOpcode else
  match f.minor.toNat with
  | 0x00 => keep (e.unusedBad { c := true, xm := 15 } || idx3Bad f.d || idx3Bad f.a || f.ea)
      (.gnarrow r.form (low3 f.d) (low3 f.a) f.b f.eb e.srcc e.ebc e.xmod)
  | 0x01 => keep (e.unusedBad {} || idx3Bad f.a || f.ea || f.eb || decide (1 < f.b.toNat))
      (.grd r.form f.d (low3 f.a) (f.b == 1))
  | _ => .error .illegalOpcode

/-- Major 0x1B (11:R189, 12:R209, R210). -/
def decodeVpred (r : Raw) (f : RFields) (e : Ext) : Except DecErr Instr :=
  if r.len = .l96 then .error .illegalOpcode else
  let bad := e.unusedBad {} || idx3Bad f.d || idx3Bad f.a || f.ea
  let o : PredArgs := ⟨r.form, low3 f.d, low3 f.a, low3 f.b⟩
  let u : PredUn := ⟨r.form, low3 f.d, low3 f.a⟩
  match f.minor.toNat with
  | 0x00 =>
    if r.len = .l32 then .error .illegalOpcode
    else keep (e.unusedBad { ty := true } || idx3Bad f.d)
      (.vwhile ⟨e.pred, e.pneg⟩ e.ty (low3 f.d) f.a f.ea f.b f.eb)
  | 0x01 => keep (bad || idx3Bad f.b || f.eb) (.pand o)
  | 0x02 => keep (bad || idx3Bad f.b || f.eb) (.por o)
  | 0x03 => keep (bad || idx3Bad f.b || f.eb) (.pxor o)
  | 0x04 => keep (bad || f.b != 0) (.pnot u)
  | 0x05 => keep (bad || f.b != 0) (.pmov u)
  | 0x06 =>
    if r.len = .l32 then .error .illegalOpcode
    else keep (e.unusedBad { ty := true } || idx3Bad f.a || f.ea || f.b != 0 || e.pred != 0 || e.pneg)
      (.pcnt e.ty f.d (low3 f.a))
  | _ => .error .illegalOpcode

/-- Major 0x1C (12:R211). -/
def decodeVmov (r : Raw) (f : RFields) (e : Ext) : Except DecErr Instr :=
  if r.len = .l96 then .error .illegalOpcode else
  let bad := e.unusedBad { ty := true }
  let u (dflt : BitVec 5) : VUn := ⟨r.form, tyField r e dflt, 0, false, f.d, f.a, f.ea⟩
  let k : VIdxArgs := ⟨r.form, tyField r e 6, f.d, f.a, f.ea, f.b⟩
  let v : VMovArgs := ⟨r.form, tyField r e 4, f.d, f.a, f.ea, f.b, f.eb⟩
  match f.minor.toNat with
  | 0x00 => keep (bad || f.b != 0) (.vmov (u 4))
  | 0x01 => keep (bad || f.b != 0) (.vbcast (u 6))
  | 0x02 => keep (bad || f.eb) (.vins k)
  | 0x03 => keep (bad || f.eb) (.vext k)
  | 0x04 => keep bad (.vperm v)
  | 0x05 => keep bad (.vsel v)
  | _ => .error .illegalOpcode

/-- Major 0x18 (12:R202 to R205). -/
def decodeVint (r : Raw) (f : RFields) (e : Ext) : Except DecErr Instr :=
  if r.len = .l32 then .error .illegalOpcode else
  let bad := e.unusedBad { ty := true, sat := true } || rSrcBad r f
  let o : VArgs := ⟨r.form, e.ty, e.sat, f.d, f.a, f.ea, rSrc r f⟩
  let unary (i : Instr) : Except DecErr Instr :=
    if r.len = .l96 then .error .illegalOpcode else keep (e.unusedBad { ty := true, sat := true } || f.b != 0) i
  let u : VUn := ⟨r.form, e.ty, 0, e.sat, f.d, f.a, f.ea⟩
  let cbad := e.unusedBad { ty := true } || rSrcBad r f || idx3Bad f.d
  let c : VCmp := ⟨r.form, e.ty, low3 f.d, f.a, f.ea, rSrc r f⟩
  match f.minor.toNat with
  | 0x00 => keep bad (.vintVadd o)
  | 0x01 => keep bad (.vintVsub o)
  | 0x02 => keep bad (.vintVmul o)
  | 0x03 => keep bad (.vintVmulh o)
  | 0x04 => keep bad (.vintVmin o)
  | 0x05 => keep bad (.vintVmax o)
  | 0x06 => keep bad (.vintVand o)
  | 0x07 => keep bad (.vintVor o)
  | 0x08 => keep bad (.vintVxor o)
  | 0x09 => keep bad (.vintVandn o)
  | 0x0a => keep bad (.vintVshl o)
  | 0x0b => keep bad (.vintVshr o)
  | 0x0c => keep bad (.vintVsra o)
  | 0x0D => unary (.vintVabs u)
  | 0x0E => unary (.vintVneg u)
  | 0x10 => keep cbad (.vintVcmpEq c)
  | 0x11 => keep cbad (.vintVcmpNe c)
  | 0x12 => keep cbad (.vintVcmpLt c)
  | 0x13 => keep cbad (.vintVcmpLe c)
  | 0x14 => keep bad (.vdot4 o)
  | 0x15 => unary (.vintVsum u)
  | _ => .error .illegalOpcode

/-- Source B of a `vfp` minor (12:R208): at 64 bits a register, or with `fi` set the 16-bit immediate. -/
def vfpSrc (r : Raw) (f : RFields) (e : Ext) : FSrc :=
  if r.len = .l96 then .lit r.lit else if e.xmod.getLsbD 0 then .fi e.fi else .reg f.b f.eb

/-- Unused fields beside source B: with `fi`, bits 59:44 are the immediate and B, its bit and bits 63:61 are zero. -/
def vfpBad (r : Raw) (f : RFields) (e : Ext) (rs : Bool) : Bool :=
  (!rs && (e.rnd != 0 || e.sat)) ||
  (if r.len = .l96 then e.unusedBad { ty := true, rnd := true, sat := true } || f.b != 0 || f.eb
   else if e.xmod.getLsbD 0 then f.b != 0 || f.eb || e.xmod != 1
   else e.unusedBad { ty := true, rnd := true, sat := true })

/-- Major 0x19 (12:R206 to R208). -/
def decodeVfp (r : Raw) (f : RFields) (e : Ext) : Except DecErr Instr :=
  if r.len = .l32 then .error .illegalOpcode else
  let o : VFArgs := ⟨r.form, e.ty, e.rnd, e.sat, f.d, f.a, f.ea, vfpSrc r f e⟩
  let u : VUn := ⟨r.form, e.ty, e.rnd, e.sat, f.d, f.a, f.ea⟩
  let c : VFCmp := ⟨r.form, e.ty, low3 f.d, f.a, f.ea, vfpSrc r f e⟩
  let m : VFma := ⟨r.form, e.ty, e.rnd, e.sat, f.d, f.a, f.ea, f.b, f.eb, e.srcc, e.ebc⟩
  let bad := vfpBad r f e true
  let cbad := vfpBad r f e false || idx3Bad f.d
  let unary (i : Instr) : Except DecErr Instr :=
    if r.len = .l96 then .error .illegalOpcode
    else keep (e.unusedBad { ty := true, rnd := true, sat := true } || f.b != 0) i
  let fused (i : Instr) : Except DecErr Instr :=
    if r.len = .l96 then .error .illegalOpcode
    else keep (e.unusedBad { ty := true, rnd := true, sat := true, c := true }) i
  match f.minor.toNat with
  | 0x00 => keep bad (.vfpVadd o)
  | 0x01 => keep bad (.vfpVsub o)
  | 0x02 => keep bad (.vfpVmul o)
  | 0x04 => keep bad (.vfpVmin o)
  | 0x05 => keep bad (.vfpVmax o)
  | 0x0D => unary (.vfpVabs u)
  | 0x0E => unary (.vfpVneg u)
  | 0x10 => keep cbad (.vfpVcmpEq c)
  | 0x11 => keep cbad (.vfpVcmpNe c)
  | 0x12 => keep cbad (.vfpVcmpLt c)
  | 0x13 => keep cbad (.vfpVcmpLe c)
  | 0x15 => unary (.vfpVsum u)
  | 0x20 => fused (.vfma m)
  | 0x21 => fused (.vfms m)
  | 0x22 => fused (.vfnma m)
  | 0x23 => fused (.vfnms m)
  | _ => .error .illegalOpcode

/-- Major 0x1A (12:R212 to R214): the B field holds the source type. -/
def decodeVcvt (r : Raw) (f : RFields) (e : Ext) : Except DecErr Instr :=
  if r.len ≠ .l64 then .error .illegalOpcode else
  let bad := e.unusedBad { ty := true, rnd := true, sat := true, c := true, xm := 15 } || f.eb || e.ebc
  match f.minor.toNat with
  | 0x00 =>
    let cnt := e.xmod.getLsbD 3
    keep (bad || e.xmod.getLsbD 2 || (!cnt && e.srcc != 0))
      (.cvt ⟨r.form, e.ty, f.b, e.rnd, e.sat, e.xmod.setWidth 2, if cnt then some e.srcc else none, f.d, f.a, f.ea⟩)
  | 0x01 =>
    keep (bad || decide (1 < e.xmod.toNat))
      (.cvtMx ⟨r.form, e.ty, f.b, e.rnd, e.sat, e.xmod == 1, e.srcc, f.d, f.a, f.ea⟩)
  | _ => .error .illegalOpcode

/-- Major 0x1D (12:R215). -/
def decodeSfu (r : Raw) (f : RFields) (e : Ext) : Except DecErr Instr :=
  if r.len ≠ .l64 then .error .illegalOpcode else
  let bad := e.unusedBad { ty := true, rnd := true, sat := true } || f.b != 0
  let u : VUn := ⟨r.form, e.ty, e.rnd, e.sat, f.d, f.a, f.ea⟩
  match f.minor.toNat with
  | 0x00 => keep bad (.sfuExp u)
  | 0x01 => keep bad (.sfuLog u)
  | 0x02 => keep bad (.sfuRcp u)
  | 0x03 => keep bad (.sfuRsqrt u)
  | 0x04 => keep bad (.sfuSqrt u)
  | 0x05 => keep bad (.sfuSin u)
  | 0x06 => keep bad (.sfuCos u)
  | 0x07 => keep bad (.sfuTanh u)
  | 0x08 => keep bad (.sfuSigm u)
  | _ => .error .illegalOpcode

/-- Majors 0x20 to 0x34 (13). -/
def decodeMem (r : Raw) (f : MFields) (e : Ext) : Except DecErr Instr :=
  let ob := mOpBad r f
  let m := mOp r f
  let o : Order := ⟨e.ord, e.sn, e.scope⟩
  let ord : Use := { sc := true, ord := true }
  let ld : LdArgs := ⟨r.form, m, f.t, o, e.xmod == 1⟩
  let ldBad := ob || f.et || e.unusedBad { ord with xm := 1 }
  let st : StArgs := ⟨r.form, m, f.t, f.et, o⟩
  let stBad := ob || e.unusedBad ord
  let fe : FeArgs := ⟨r.form, m, f.t, e.sn, e.scope, e.xmod == 8⟩
  let feBad := ob || f.et || e.unusedBad { sc := true, xm := 8 }
  let q : QArgs := ⟨r.form, m, f.t, f.et, o, e.queue, e.xmod⟩
  let qBad := ob || e.unusedBad { ord with q := true, xm := 15 }
  let am : AmoArgs := ⟨r.form, m, f.t, f.et, o, e.queue, e.xmod, e.srcc, e.ebc⟩
  let amBad := ob || e.unusedBad { ord with q := true, c := true, xm := 15 }
  let long (bad : Bool) (i : Instr) : Except DecErr Instr :=
    if r.len = .l32 then .error .illegalOpcode else keep bad i
  match r.major.toNat with
  | 0x20 => keep ldBad (.ldD8 ld)
  | 0x21 => keep ldBad (.ldD16 ld)
  | 0x22 => keep ldBad (.ldD32 ld)
  | 0x23 => keep ldBad (.ldD64 ld)
  | 0x24 => keep ldBad (.ldD128 ld)
  | 0x25 => keep stBad (.stD4 st)
  | 0x26 => keep stBad (.stD8 st)
  | 0x27 => keep stBad (.stD16 st)
  | 0x28 => keep stBad (.stD32 st)
  | 0x29 => keep stBad (.stD64 st)
  | 0x2A => keep stBad (.stD128 st)
  | 0x2B => keep feBad (.ldfe fe)
  | 0x2C => keep feBad (.ldfeTake fe)
  | 0x2D => keep (ob || e.unusedBad { sc := true, xm := 1 })
      (.stfe ⟨r.form, m, f.t, f.et, e.sn, e.scope, e.xmod == 1⟩)
  | 0x2E => long qBad (.qld q)
  | 0x2F => long qBad (.qst q)
  | 0x30 => long amBad (.amoD32 am)
  | 0x31 => long amBad (.amoD64 am)
  | 0x32 => keep (ob || f.et || e.unusedBad {}) (.fork r.form m f.t)
  | 0x33 => keep feBad (.join fe)
  | 0x34 => keep (ob || e.unusedBad { sc := true, xm := 15 })
      (.waddr ⟨r.form, m, f.t, f.et, e.sn, e.scope, e.xmod.setWidth 2, e.xmod.getLsbD 2, e.xmod.getLsbD 3⟩)
  | _ => .error .illegalOpcode

/-- Major 0x35 (13:R226, R228, R232, R233). -/
def decodeSync (r : Raw) (f : RFields) (e : Ext) : Except DecErr Instr :=
  if r.len = .l96 then .error .illegalOpcode else
  let bad := e.unusedBad {}
  match f.minor.toNat with
  | 0x00 => keep (e.unusedBad { sc := true, ord := true } || f.d != 0 || f.a != 0 || f.b != 0)
      (.fence r.form ⟨e.ord, e.sn, e.scope⟩)
  | 0x01 => keep (bad || f.d != 0 || f.a != 0 || f.eb) (.qwait r.form f.b)
  | 0x02 => keep (bad || f.d != 0) (.send r.form f.a f.ea f.b f.eb)
  | 0x03 => keep (bad || f.b != 0 || idx3Bad f.a) (.recv r.form f.d (low3 f.a) f.ea)
  | 0x04 => keep (bad || f.b != 0 || idx3Bad f.a) (.recvKeep r.form f.d (low3 f.a) f.ea)
  | 0x05 => keep (bad || f.b != 0 || f.d != 0 || idx3Bad f.a) (.mwait r.form (low3 f.a) f.ea)
  | _ => .error .illegalOpcode

/-- Major 0x38 (14:R238, R243, R252). -/
def decodeEng (r : Raw) (f : RFields) (e : Ext) : Except DecErr Instr :=
  if r.len = .l96 then .error .illegalOpcode else
  let bad := e.unusedBad {}
  let selBad := bad || f.a != 0 || f.eb
  match f.minor.toNat with
  | 0x00 => keep (bad || f.d != 0) (.tcmd r.form f.a f.ea f.b f.eb)
  | 0x01 => keep (selBad || f.d != 0 || idx3Bad f.b) (.semSig r.form (low3 f.b))
  | 0x02 => keep (selBad || f.d != 0 || idx3Bad f.b) (.semWait r.form (low3 f.b))
  | 0x03 => keep (selBad || decide (3 < f.b.toNat)) (.pwrAcq r.form (f.b.setWidth 2) f.d)
  | 0x04 => keep (selBad || decide (3 < f.b.toNat)) (.pwrRel r.form (f.b.setWidth 2) f.d)
  | _ => .error .illegalOpcode

/-- Major 0x3B (14:R255 to R261). -/
def decodeStep (r : Raw) (f : RFields) (e : Ext) : Except DecErr Instr :=
  if r.len = .l96 then .error .illegalOpcode else
  let bad := e.unusedBad {}
  let o : TwoArgs := ⟨r.form, f.d, f.a, f.ea, f.b, f.eb⟩
  match f.minor.toNat with
  | 0x00 => keep (bad || f.eb || idx3Bad f.b) (.stepget r.form f.d (low3 f.b) f.a f.ea)
  | 0x01 => keep bad (.stoptest o)
  | 0x02 => keep (e.unusedBad { xm := 3 }) (.seqret o (e.xmod.setWidth 2))
  | 0x03 => keep (bad || f.b != 0) (.seqadm ⟨r.form, f.d, f.a, f.ea⟩)
  | 0x04 => keep (bad || f.a != 0 || f.b != 0) (.poolTake r.form f.d)
  | 0x05 => keep (bad || f.d != 0 || f.b != 0) (.poolGive r.form f.a f.ea)
  | _ => .error .illegalOpcode

/-- Major 0x3C (18:R277). -/
def decodeSys (r : Raw) (f : RFields) (e : Ext) : Except DecErr Instr :=
  if r.len = .l96 then .error .illegalOpcode else
  let bad := e.unusedBad {}
  let none3 := bad || f.d != 0 || f.a != 0 || f.b != 0
  let ctxBad := e.unusedBad { xm := 1 } || idx3Bad f.b || f.eb
  match f.minor.toNat with
  | 0x00 => keep (bad || f.d != 0 || f.ea || f.eb || idx3Bad f.b)
      (.trap r.form (BitVec.ofNat 8 (f.a.toNat + 32 * f.b.toNat)))
  | 0x01 => keep none3 (.trapret r.form)
  | 0x02 => keep (bad || idx3Bad f.d) (.gwrite r.form (low3 f.d) f.a f.ea f.b f.eb)
  | 0x03 =>
    if e.xmod == 1 then keep (ctxBad || f.a != 0) (.ctxsaveTile r.form f.d (low3 f.b))
    else keep ctxBad (.ctxsave r.form f.d f.a f.ea (low3 f.b))
  | 0x04 =>
    if e.xmod == 1 then keep (ctxBad || f.a != 0) (.ctxrestTile r.form f.d (low3 f.b))
    else keep ctxBad (.ctxrest r.form f.d f.a f.ea (low3 f.b))
  | 0x05 => keep (bad || f.b != 0) (.rebuild ⟨r.form, f.d, f.a, f.ea⟩)
  | 0x06 => keep (bad || f.d != 0 || f.eb) (.recmark r.form f.a f.ea f.b)
  | 0x07 => keep (bad || f.d != 0 || f.a != 0 || f.eb) (.bkpt r.form f.b)
  | 0x08 => keep (bad || f.eb || idx3Bad f.b) (.halt r.form f.d f.a f.ea (low3 f.b))
  | 0x09 => keep bad (.fwcall ⟨r.form, f.d, f.a, f.ea, f.b, f.eb⟩)
  | 0x0A => keep none3 (.termclr r.form)
  | _ => .error .illegalOpcode

/-- The opcode map (10:R168): the instruction a word group names, with the checks on its unused fields. -/
def decodeShape (r : Raw) : Except DecErr Instr :=
  let e := Ext.read r.hi
  let rf := RFields.read r.body
  let i := IFields.read r.body
  let m := MFields.read r.body
  match r.major.toNat with
  | 0x01 =>
    if r.len = .l32 then
      let b := BFields.read r.body
      if b.pred == 0 && b.neg && b.off == 0 then .ok .nop else .ok (.br b.off ⟨b.pred, b.neg⟩)
    else .error .illegalOpcode
  | 0x02 =>
    if r.len = .l32 then
      let b := BFields.read r.body
      .ok (.call b.off ⟨b.pred, b.neg⟩)
    else .error .illegalOpcode
  | 0x03 | 0x11 | 0x12 | 0x39 => decodeI64 r i e
  | 0x04 => decodeControl r rf e
  | 0x05 => decodeAlu r rf e
  | 0x06 => decodeMul r rf e
  | 0x07 => decodeCmp r rf e
  | 0x08 | 0x09 | 0x0A | 0x0B | 0x0C | 0x0D | 0x0E | 0x0F | 0x10 => decodeImm r i e
  | 0x13 => decodeSegment r rf e
  | 0x18 => decodeVint r rf e
  | 0x19 => decodeVfp r rf e
  | 0x1A => decodeVcvt r rf e
  | 0x1B => decodeVpred r rf e
  | 0x1C => decodeVmov r rf e
  | 0x1D => decodeSfu r rf e
  | 0x20 | 0x21 | 0x22 | 0x23 | 0x24 | 0x25 | 0x26 | 0x27 | 0x28 | 0x29 | 0x2A | 0x2B | 0x2C | 0x2D | 0x2E | 0x2F | 0x30
  | 0x31 | 0x32 | 0x33 | 0x34 => decodeMem r m e
  | 0x35 => decodeSync r rf e
  | 0x38 => decodeEng r rf e
  | 0x3B => decodeStep r rf e
  | 0x3C => decodeSys r rf e
  | 0x3E => if r.len = .l64 then keep (r.body != 0) (.fmt r.hi) else .error .illegalOpcode
  | _ => .error .illegalOpcode

/-- The decoder on a word group: the map, then checks 2, 3 and 5 of 10:R170 on the operands (assumption 42, DEDUCED). -/
def decodeRaw (r : Raw) : Except DecErr Instr :=
  match decodeShape r with
  | .error x => .error x
  | .ok i => match i.operandErr with
    | some x => .error x
    | none => .ok i

/-- Words an instruction takes, by bits 1:0 of its first (10:R158). -/
def wordsOf (w : IWord) : Nat :=
  match w.toNat % 4 with
  | 2 => 2
  | 3 => 3
  | _ => 1

def rawOf (len : Len) (w0 hi lit : IWord) : Raw :=
  ⟨len, bitsAt w0.toNat 2 6, bitsAt w0.toNat 8 24, hi, lit⟩

/-- Decode the words at a boundary: the instruction and the number of words it takes. Page 1 holds none (10:R159). -/
def decodeWords : List IWord → Except DecErr (Instr × Nat)
  | [] => .error .short
  | w0 :: rest =>
    match w0.toNat % 4, rest with
    | 0, _ => (decodeRaw (rawOf .l32 w0 0 0)).map (·, 1)
    | 1, _ => .error .illegalOpcode
    | 2, w1 :: _ => (decodeRaw (rawOf .l64 w0 w1 0)).map (·, 2)
    | 3, w1 :: w2 :: _ => (decodeRaw (rawOf .l96 w0 w1 w2)).map (·, 3)
    | _, _ => .error .short

/-- Little-endian number of bytes (00:R5). -/
def leNat : List Byte → Nat
  | [] => 0
  | b :: r => b.toNat + 256 * leNat r

/-- The low `n` bytes of a number, least significant first (00:R5). -/
def leBytes : Nat → Nat → List Byte
  | 0, _ => []
  | n + 1, x => BitVec.ofNat 8 x :: leBytes n (x / 256)

/-- The 32-bit words of a run of bytes; what is left over below a word is dropped. -/
def wordsOfBytes : List Byte → List IWord
  | a :: b :: c :: d :: r => BitVec.ofNat 32 (leNat [a, b, c, d]) :: wordsOfBytes r
  | _ => []

/-- The decoder on any bytes: the instruction they begin with and its length in bytes. -/
def decode (bs : List Byte) : Except DecErr (Instr × Nat) :=
  (decodeWords (wordsOfBytes (bs.take 12))).map fun (i, n) => (i, 4 * n)

/-- What the decoder reads from bits numbered as the opcode table numbers them, the bits above them zero: words are
stored low byte first, the first word at the lowest address (10:R158, 00:R5). -/
def decodeTableWord (nbits w : Nat) : Option Instr :=
  match decode (leBytes 12 (w % 2 ^ nbits)) with
  | .ok (i, _) => some i
  | .error _ => none

/-! The encoder. -/

def Form.len : Form → Len
  | .w32 => .l32
  | .w64 _ => .l64
  | .w96 _ => .l96

/-- The second word of a form: none at 32 bits, else the extension word with the guard laid in. -/
def Form.hi (f : Form) (e : Ext) : BitVec 32 :=
  match f with
  | .w32 => 0
  | .w64 g | .w96 g => Ext.word { e with pred := g.pred, pneg := g.neg }

def Src.reg5 : Src → BitVec 5
  | .reg r _ => r
  | .lit _ => 0

def Src.eb : Src → Bool
  | .reg _ e => e
  | .lit _ => false

def Src.litWord : Src → BitVec 32
  | .reg _ _ => 0
  | .lit l => l

def FSrc.reg5 : FSrc → BitVec 5
  | .reg r _ => r
  | _ => 0

def FSrc.eb : FSrc → Bool
  | .reg _ e => e
  | _ => false

def FSrc.litWord : FSrc → BitVec 32
  | .lit l => l
  | _ => 0

def FSrc.ext (e : Ext) : FSrc → Ext
  | .fi x => e.withFi x
  | _ => e

def Imm.imm13 : Imm → BitVec 13
  | .i13 x => x
  | .lit _ => 0

def Imm.litWord : Imm → BitVec 32
  | .i13 _ => 0
  | .lit l => l

def Disp.imm8 : Disp → BitVec 8
  | .i8 x => x
  | .lit _ => 0

def Disp.litWord : Disp → BitVec 32
  | .i8 _ => 0
  | .lit l => l

/-- An R-format word group. -/
def encR (major : BitVec 6) (minor : BitVec 7) (f : Form) (d a b : BitVec 5) (ea eb : Bool) (e : Ext)
    (lit : BitVec 32) : Raw :=
  ⟨f.len, major, RFields.word ⟨d, a, b, ea, eb, minor⟩, f.hi e, lit⟩

def encI (major : BitVec 6) (f : Form) (d a : BitVec 5) (ea : Bool) (imm : BitVec 13) (lit : BitVec 32) : Raw :=
  ⟨f.len, major, IFields.word ⟨d, a, ea, imm⟩, f.hi {}, lit⟩

def encM (major : BitVec 6) (f : Form) (m : MemOp) (t : Reg) (et : Bool) (e : Ext) : Raw :=
  ⟨f.len, major, MFields.word ⟨t, m.ptr, m.ea, m.seg, m.pinc, et, m.disp.imm8⟩, f.hi e, m.disp.litWord⟩

def encAlu (major : BitVec 6) (minor : BitVec 7) (o : AluArgs) (e : Ext) : Raw :=
  encR major minor o.f o.d o.a o.b.reg5 o.ea o.b.eb e o.b.litWord

def encUn (major : BitVec 6) (minor : BitVec 7) (o : UnArgs) : Raw := encR major minor o.f o.d o.a 0 o.ea false {} 0

def encCmp (minor : BitVec 7) (o : CmpArgs) : Raw :=
  encR 0x07 minor o.f (o.p.setWidth 5) o.a o.b.reg5 o.ea o.b.eb {} o.b.litWord

def encImm (major : BitVec 6) (o : ImmArgs) : Raw := encI major o.f o.d o.a o.ea o.imm.imm13 o.imm.litWord

def encCmpImm (major : BitVec 6) (c : Nat) (o : CmpImmArgs) : Raw :=
  encI major o.f (BitVec.ofNat 5 (o.p.toNat + 8 * c)) o.a o.ea o.imm.imm13 o.imm.litWord

def encPred (minor : BitVec 7) (o : PredArgs) : Raw :=
  encR 0x1B minor o.f (o.d.setWidth 5) (o.a.setWidth 5) (o.b.setWidth 5) false false {} 0

def encPredUn (minor : BitVec 7) (o : PredUn) : Raw :=
  encR 0x1B minor o.f (o.d.setWidth 5) (o.a.setWidth 5) 0 false false {} 0

def encV (minor : BitVec 7) (o : VArgs) : Raw :=
  encR 0x18 minor o.f o.d o.a o.b.reg5 o.ea o.b.eb { ty := o.ty, sat := o.sat } o.b.litWord

def encVUn (major : BitVec 6) (minor : BitVec 7) (o : VUn) : Raw :=
  encR major minor o.f o.d o.a 0 o.ea false { ty := o.ty, rnd := o.rnd, sat := o.sat } 0

def encVCmp (minor : BitVec 7) (o : VCmp) : Raw :=
  encR 0x18 minor o.f (o.p.setWidth 5) o.a o.b.reg5 o.ea o.b.eb { ty := o.ty } o.b.litWord

def encVF (minor : BitVec 7) (o : VFArgs) : Raw :=
  encR 0x19 minor o.f o.d o.a o.b.reg5 o.ea o.b.eb (o.b.ext { ty := o.ty, rnd := o.rnd, sat := o.sat }) o.b.litWord

def encVFCmp (minor : BitVec 7) (o : VFCmp) : Raw :=
  encR 0x19 minor o.f (o.p.setWidth 5) o.a o.b.reg5 o.ea o.b.eb (o.b.ext { ty := o.ty }) o.b.litWord

def encFma (minor : BitVec 7) (o : VFma) : Raw :=
  encR 0x19 minor o.f o.d o.a o.b o.ea o.eb { ty := o.ty, rnd := o.rnd, sat := o.sat, srcc := o.c, ebc := o.ec } 0

def encVIdx (minor : BitVec 7) (o : VIdxArgs) : Raw := encR 0x1C minor o.f o.d o.a o.k o.ea false { ty := o.ty } 0

def encVMov (minor : BitVec 7) (o : VMovArgs) : Raw := encR 0x1C minor o.f o.d o.a o.b o.ea o.eb { ty := o.ty } 0

def encTwo (major : BitVec 6) (minor : BitVec 7) (o : TwoArgs) (e : Ext) : Raw :=
  encR major minor o.f o.d o.a o.b o.ea o.eb e 0

def Order.ext (o : Order) : Ext := { ord := o.ord, sn := o.sn, scope := o.scope }

def encLd (major : BitVec 6) (o : LdArgs) : Raw :=
  encM major o.f o.m o.t false { o.o.ext with xmod := BitVec.ofNat 4 o.sx.toNat }

def encSt (major : BitVec 6) (o : StArgs) : Raw := encM major o.f o.m o.t o.et o.o.ext

def encFe (major : BitVec 6) (o : FeArgs) : Raw :=
  encM major o.f o.m o.t false { sn := o.sn, scope := o.scope, xmod := BitVec.ofNat 4 (8 * o.y.toNat) }

def encQ (major : BitVec 6) (o : QArgs) : Raw :=
  encM major o.f o.m o.t o.et { o.o.ext with queue := o.queue, xmod := o.size }

def encAmo (major : BitVec 6) (o : AmoArgs) : Raw :=
  encM major o.f o.m o.t o.et { o.o.ext with queue := o.queue, xmod := o.op, srcc := o.c, ebc := o.ec }

/-- An R form whose operands are all in the fields named. -/
def enc0 (major : BitVec 6) (minor : BitVec 7) (f : Form) (d a b : BitVec 5) (ea eb : Bool) : Raw :=
  encR major minor f d a b ea eb {} 0

/-- The word group of an encoded instruction (10:R168, R169); a service, engine command or event has none. -/
def Instr.toRaw : Instr → Option Raw
  | .br off g => some ⟨.l32, 0x01, BFields.word ⟨g.pred, g.neg, off⟩, 0, 0⟩
  | .nop => some ⟨.l32, 0x01, BFields.word ⟨0, true, 0⟩, 0, 0⟩
  | .call off g => some ⟨.l32, 0x02, BFields.word ⟨g.pred, g.neg, off⟩, 0, 0⟩
  | .loop f d ea off => some (encI 0x03 f d d ea off 0)
  | .jr f a ea => some (enc0 0x04 0x00 f 0 a 0 ea false)
  | .callr o => some (encUn 0x04 0x01 o)
  | .ret f ea => some (enc0 0x04 0x02 f 0 31 0 ea false)
  | .tend f => some (enc0 0x04 0x03 f 0 0 0 false false)
  | .hintYield f => some (enc0 0x04 0x04 f 0 0 0 false false)
  | .yield f => some (enc0 0x04 0x05 f 0 0 0 false false)
  | .gbar f => some (enc0 0x04 0x06 f 0 0 0 false false)
  | .add o sat uns => some (encAlu 0x05 0x00 o { sat := sat, xmod := BitVec.ofNat 4 uns.toNat })
  | .sub o sat uns => some (encAlu 0x05 0x01 o { sat := sat, xmod := BitVec.ofNat 4 uns.toNat })
  | .and o => some (encAlu 0x05 0x02 o {})
  | .or o => some (encAlu 0x05 0x03 o {})
  | .xor o => some (encAlu 0x05 0x04 o {})
  | .andn o => some (encAlu 0x05 0x05 o {})
  | .orn o => some (encAlu 0x05 0x06 o {})
  | .shl o => some (encAlu 0x05 0x07 o {})
  | .shr o => some (encAlu 0x05 0x08 o {})
  | .sra o => some (encAlu 0x05 0x09 o {})
  | .rol o => some (encAlu 0x05 0x0a o {})
  | .ror o => some (encAlu 0x05 0x0b o {})
  | .min o => some (encAlu 0x05 0x0c o {})
  | .max o => some (encAlu 0x05 0x0d o {})
  | .minu o => some (encAlu 0x05 0x0e o {})
  | .maxu o => some (encAlu 0x05 0x0f o {})
  | .clz o => some (encUn 0x05 0x10 o)
  | .ctz o => some (encUn 0x05 0x11 o)
  | .popc o => some (encUn 0x05 0x12 o)
  | .sext o => some (encAlu 0x05 0x13 o {})
  | .zext o => some (encAlu 0x05 0x14 o {})
  | .bext o => some (encAlu 0x05 0x15 o {})
  | .bins o => some (encAlu 0x05 0x16 o {})
  | .sh1add o => some (encAlu 0x05 0x18 o {})
  | .sh2add o => some (encAlu 0x05 0x19 o {})
  | .sh3add o => some (encAlu 0x05 0x1a o {})
  | .sh4add o => some (encAlu 0x05 0x1b o {})
  | .mul o => some (encAlu 0x06 0x00 o {})
  | .mulh o => some (encAlu 0x06 0x01 o {})
  | .mulhu o => some (encAlu 0x06 0x02 o {})
  | .mulhsu o => some (encAlu 0x06 0x03 o {})
  | .div o => some (encAlu 0x06 0x04 o {})
  | .divu o => some (encAlu 0x06 0x05 o {})
  | .rem o => some (encAlu 0x06 0x06 o {})
  | .remu o => some (encAlu 0x06 0x07 o {})
  | .cmpEq o => some (encCmp 0x00 o)
  | .cmpNe o => some (encCmp 0x01 o)
  | .cmpLt o => some (encCmp 0x02 o)
  | .cmpGe o => some (encCmp 0x03 o)
  | .cmpLtu o => some (encCmp 0x04 o)
  | .cmpGeu o => some (encCmp 0x05 o)
  | .addi o => some (encImm 0x08 o)
  | .andi o => some (encImm 0x09 o)
  | .ori o => some (encImm 0x0a o)
  | .xori o => some (encImm 0x0b o)
  | .shli o => some (encImm 0x0c o)
  | .shri o => some (encImm 0x0d o)
  | .srai o => some (encImm 0x0e o)
  | .cmpiEq o => some (encCmpImm 0x0F 0 o)
  | .cmpiNe o => some (encCmpImm 0x0F 1 o)
  | .cmpiLt o => some (encCmpImm 0x0F 2 o)
  | .cmpiGe o => some (encCmpImm 0x0F 3 o)
  | .cmpiuLtu o => some (encCmpImm 0x10 0 o)
  | .cmpiuGeu o => some (encCmpImm 0x10 1 o)
  | .rdms f d num => some (encI 0x11 f d 0 false num 0)
  | .wrms f a ea num => some (encI 0x12 f 0 a ea num 0)
  | .gnarrow f d a b eb c ec drop =>
      some (encR 0x13 0x00 f (d.setWidth 5) (a.setWidth 5) b false eb { srcc := c, ebc := ec, xmod := drop } 0)
  | .grd f d a hi => some (enc0 0x13 0x01 f d (a.setWidth 5) (BitVec.ofNat 5 hi.toNat) false false)
  | .pand o => some (encPred 0x01 o)
  | .por o => some (encPred 0x02 o)
  | .pxor o => some (encPred 0x03 o)
  | .pnot o => some (encPredUn 0x04 o)
  | .pmov o => some (encPredUn 0x05 o)
  | .vwhile g ty d a ea b eb => some (encR 0x1B 0x00 (.w64 g) (d.setWidth 5) a b ea eb { ty := ty } 0)
  | .pcnt ty d a => some (encR 0x1B 0x06 (.w64 ⟨0, false⟩) d (a.setWidth 5) 0 false false { ty := ty } 0)
  | .vmov o => some (encVUn 0x1C 0x00 o)
  | .vbcast o => some (encVUn 0x1C 0x01 o)
  | .vins o => some (encVIdx 0x02 o)
  | .vext o => some (encVIdx 0x03 o)
  | .vperm o => some (encVMov 0x04 o)
  | .vsel o => some (encVMov 0x05 o)
  | .vintVadd o => some (encV 0x00 o)
  | .vintVsub o => some (encV 0x01 o)
  | .vintVmul o => some (encV 0x02 o)
  | .vintVmulh o => some (encV 0x03 o)
  | .vintVmin o => some (encV 0x04 o)
  | .vintVmax o => some (encV 0x05 o)
  | .vintVand o => some (encV 0x06 o)
  | .vintVor o => some (encV 0x07 o)
  | .vintVxor o => some (encV 0x08 o)
  | .vintVandn o => some (encV 0x09 o)
  | .vintVshl o => some (encV 0x0a o)
  | .vintVshr o => some (encV 0x0b o)
  | .vintVsra o => some (encV 0x0c o)
  | .vintVabs o => some (encVUn 0x18 0x0D o)
  | .vintVneg o => some (encVUn 0x18 0x0E o)
  | .vintVcmpEq o => some (encVCmp 0x10 o)
  | .vintVcmpNe o => some (encVCmp 0x11 o)
  | .vintVcmpLt o => some (encVCmp 0x12 o)
  | .vintVcmpLe o => some (encVCmp 0x13 o)
  | .vdot4 o => some (encV 0x14 o)
  | .vintVsum o => some (encVUn 0x18 0x15 o)
  | .vfpVadd o => some (encVF 0x00 o)
  | .vfpVsub o => some (encVF 0x01 o)
  | .vfpVmul o => some (encVF 0x02 o)
  | .vfpVmin o => some (encVF 0x04 o)
  | .vfpVmax o => some (encVF 0x05 o)
  | .vfpVabs o => some (encVUn 0x19 0x0D o)
  | .vfpVneg o => some (encVUn 0x19 0x0E o)
  | .vfpVcmpEq o => some (encVFCmp 0x10 o)
  | .vfpVcmpNe o => some (encVFCmp 0x11 o)
  | .vfpVcmpLt o => some (encVFCmp 0x12 o)
  | .vfpVcmpLe o => some (encVFCmp 0x13 o)
  | .vfpVsum o => some (encVUn 0x19 0x15 o)
  | .vfma o => some (encFma 0x20 o)
  | .vfms o => some (encFma 0x21 o)
  | .vfnma o => some (encFma 0x22 o)
  | .vfnms o => some (encFma 0x23 o)
  | .fmt w => some ⟨.l64, 0x3E, 0, w, 0⟩
  | .cvt o => some (encR 0x1A 0x00 o.f o.d o.a o.st o.ea false
      { ty := o.dt, rnd := o.rnd, sat := o.sat, srcc := o.cnt.getD 0,
        xmod := BitVec.ofNat 4 (o.q.toNat + 8 * o.cnt.isSome.toNat) } 0)
  | .cvtMx o => some (encR 0x1A 0x01 o.f o.d o.a o.st o.ea false
      { ty := o.dt, rnd := o.rnd, sat := o.sat, srcc := o.c, xmod := BitVec.ofNat 4 o.bal.toNat } 0)
  | .sfuExp o => some (encVUn 0x1D 0x00 o)
  | .sfuLog o => some (encVUn 0x1D 0x01 o)
  | .sfuRcp o => some (encVUn 0x1D 0x02 o)
  | .sfuRsqrt o => some (encVUn 0x1D 0x03 o)
  | .sfuSqrt o => some (encVUn 0x1D 0x04 o)
  | .sfuSin o => some (encVUn 0x1D 0x05 o)
  | .sfuCos o => some (encVUn 0x1D 0x06 o)
  | .sfuTanh o => some (encVUn 0x1D 0x07 o)
  | .sfuSigm o => some (encVUn 0x1D 0x08 o)
  | .ldD8 o => some (encLd 0x20 o)
  | .ldD16 o => some (encLd 0x21 o)
  | .ldD32 o => some (encLd 0x22 o)
  | .ldD64 o => some (encLd 0x23 o)
  | .ldD128 o => some (encLd 0x24 o)
  | .stD4 o => some (encSt 0x25 o)
  | .stD8 o => some (encSt 0x26 o)
  | .stD16 o => some (encSt 0x27 o)
  | .stD32 o => some (encSt 0x28 o)
  | .stD64 o => some (encSt 0x29 o)
  | .stD128 o => some (encSt 0x2a o)
  | .ldfe o => some (encFe 0x2B o)
  | .ldfeTake o => some (encFe 0x2C o)
  | .stfe o => some (encM 0x2D o.f o.m o.t o.et { sn := o.sn, scope := o.scope, xmod := BitVec.ofNat 4 o.wfe.toNat })
  | .qld o => some (encQ 0x2E o)
  | .qst o => some (encQ 0x2F o)
  | .amoD32 o => some (encAmo 0x30 o)
  | .amoD64 o => some (encAmo 0x31 o)
  | .fork f m t => some (encM 0x32 f m t false {})
  | .join o => some (encFe 0x33 o)
  | .waddr o => some (encM 0x34 o.f o.m o.t o.et
      { sn := o.sn, scope := o.scope, xmod := BitVec.ofNat 4 (o.cond.toNat + 4 * o.d64.toNat + 8 * o.y.toNat) })
  | .fence f o => some (encR 0x35 0x00 f 0 0 0 false false o.ext 0)
  | .qwait f sel => some (enc0 0x35 0x01 f 0 0 sel false false)
  | .send f a ea b eb => some (enc0 0x35 0x02 f 0 a b ea eb)
  | .recv f d a ea => some (enc0 0x35 0x03 f d (a.setWidth 5) 0 ea false)
  | .recvKeep f d a ea => some (enc0 0x35 0x04 f d (a.setWidth 5) 0 ea false)
  | .mwait f a ea => some (enc0 0x35 0x05 f 0 (a.setWidth 5) 0 ea false)
  | .tcmd f a ea b eb => some (enc0 0x38 0x00 f 0 a b ea eb)
  | .semSig f n => some (enc0 0x38 0x01 f 0 0 (n.setWidth 5) false false)
  | .semWait f n => some (enc0 0x38 0x02 f 0 0 (n.setWidth 5) false false)
  | .pwrAcq f cls n => some (enc0 0x38 0x03 f n 0 (cls.setWidth 5) false false)
  | .pwrRel f cls n => some (enc0 0x38 0x04 f n 0 (cls.setWidth 5) false false)
  | .termrd f d num => some (encI 0x39 f d 0 false (num.setWidth 13) 0)
  | .stepget f d sel a ea => some (enc0 0x3B 0x00 f d a (sel.setWidth 5) ea false)
  | .stoptest o => some (encTwo 0x3B 0x01 o {})
  | .seqret o why => some (encTwo 0x3B 0x02 o { xmod := why.setWidth 4 })
  | .seqadm o => some (encUn 0x3B 0x03 o)
  | .poolTake f d => some (enc0 0x3B 0x04 f d 0 0 false false)
  | .poolGive f a ea => some (enc0 0x3B 0x05 f 0 a 0 ea false)
  | .trap f imm => some (enc0 0x3C 0x00 f 0 (BitVec.ofNat 5 imm.toNat) (BitVec.ofNat 5 (imm.toNat / 32)) false false)
  | .trapret f => some (enc0 0x3C 0x01 f 0 0 0 false false)
  | .gwrite f d a ea b eb => some (enc0 0x3C 0x02 f (d.setWidth 5) a b ea eb)
  | .ctxsave f d a ea g => some (enc0 0x3C 0x03 f d a (g.setWidth 5) ea false)
  | .ctxsaveTile f d g => some (encR 0x3C 0x03 f d 0 (g.setWidth 5) false false { xmod := 1 } 0)
  | .ctxrest f d a ea g => some (enc0 0x3C 0x04 f d a (g.setWidth 5) ea false)
  | .ctxrestTile f d g => some (encR 0x3C 0x04 f d 0 (g.setWidth 5) false false { xmod := 1 } 0)
  | .rebuild o => some (encUn 0x3C 0x05 o)
  | .recmark f a ea tag => some (enc0 0x3C 0x06 f 0 a tag ea false)
  | .bkpt f code => some (enc0 0x3C 0x07 f 0 0 code false false)
  | .halt f d a ea op => some (enc0 0x3C 0x08 f d a (op.setWidth 5) ea false)
  | .fwcall o => some (encTwo 0x3C 0x09 o {})
  | .termclr f => some (enc0 0x3C 0x0A f 0 0 0 false false)
  | _ => none

/-- The first word of a group: length code, major, bits 31:8 (10:R158, R160). -/
def Raw.word0 (r : Raw) : IWord :=
  let len := match r.len with
    | .l32 => 0
    | .l64 => 2
    | .l96 => 3
  BitVec.ofNat 32 (packFields [(2, len), (6, r.major.toNat), (24, r.body.toNat)])

def Raw.words (r : Raw) : List IWord :=
  match r.len with
  | .l32 => [r.word0]
  | .l64 => [r.word0, r.hi]
  | .l96 => [r.word0, r.hi, r.lit]

/-- The words of an encoded instruction; none for a service, an engine command or an event. -/
def encode (i : Instr) : List IWord :=
  match i.toRaw with
  | some r => r.words
  | none => []

/-- The bytes of words, each low byte first (00:R5). -/
def bytesOfWords (ws : List IWord) : List Byte := ws.flatMap fun w => leBytes 4 w.toNat

end Sys2Proof
end

