-- ==== Sys2Proof/Machine/State.lean ====
section
/-! DEFINITION. The state of one CQ9 package as plain data, and its state at reset. INVENTORY.md lists every field with
the rule that names it. A map is a list of key and value pairs with keys strictly rising; what is absent reads as the
default its accessor in Ops.lean names. -/

namespace Sys2Proof.Machine

/-- Entries by number, keys strictly rising. -/
abbrev Map (α : Type) := List (Nat × α)

/-- Bytes by address (Ops.lean lays the spaces of 06:R100 out), addresses strictly rising, no entry equal to what an
unlisted byte reads as. -/
abbrev Mem := List Host.Cell

/-- The model's own faults. None is a fault of the hardware, whose traps are next states. -/
inductive Fault
  /-- Raised by an operation that meets a physical address no memory of the package backs (assumption 12, DESIGN CHOICE). Safe: the
  model stops where the hardware does something the spec does not describe. -/
  | unbackedAddress (pa : Nat)
  deriving DecidableEq, Repr

/-- Refusals. -/
inductive Refusal
  /-- Raised by an arm of `exec` whose instruction has no meaning yet. Safe: the model stops. -/
  | notModelled (mnemonic : String)
  deriving DecidableEq, Repr

/-! ### Tasks -/

/-- Privilege levels (17:R265). -/
inductive Priv
  | task
  | supervisor
  | firmware
  deriving DecidableEq, Repr

/-- A register with a full/empty bit (03:R46). -/
inductive RegId
  | s (r : Reg)
  | v (r : Reg)
  | m (r : BitVec 3)
  deriving DecidableEq, Repr

/-- Trap state (17:R267): `ms.t` registers and `ms.aerr`, or their firmware copies. -/
structure TrapRegs where
  cause : Word := 0
  pc : Word := 0
  addr : Word := 0
  status : Word := 0
  aerr : Word := 0
  vec : Word := 0
  vseg : VWord := 0
  deriving DecidableEq, Repr

/-- A firmware call under way (18:R281): service and argument, the register the code goes to, and the result once the
service has run. -/
structure FwCall where
  service : Word
  arg : Word
  dst : Reg
  result : Option Word := none
  deriving DecidableEq, Repr

/-- What a parked task waits for (02:R36). -/
inductive Wake
  | event                              -- only the reply wakes it (row 12)
  | page (va acc : Nat)                -- row 0: the page whose fault holds the access
  | full (r : RegId)                   -- rows 1, 3 and 4
  | word (addr : Nat) (full : Bool)    -- row 2: the word at this memory address is full, or is empty
  | response (tag : Nat)               -- rows 2 and 9: the answer to this access has arrived
  | watch (addr n : Nat) (seen : Nat) (cond : BitVec 2) (t : Nat)   -- row 5: the word read `seen`
  | barrier (n : Nat)                  -- row 6: the gang has completed more than n barriers
  | drained                            -- row 7: the conditions of 02:R35
  | sem (n : Nat)                      -- row 8
  | performed (loadsOnly : Bool)       -- row 9: a fence's earlier accesses
  | sc (tag : Nat)                     -- row 9: an SC operation takes effect
  | queueIdle (q : Nat)                -- row 9: `qwait`
  | queueShare (q : Nat)               -- row 10: an entry of a decoupling queue
  | engineShare (q : Nat)              -- row 10: an entry of an engine queue
  | messageShare (ch : Nat)            -- row 10: a message buffer entry
  | tokens (cls n : Nat)               -- row 11
  | domain                             -- rows 9 and 10: a barrier of the trust domain (23:R356)
  | kept                               -- its wake came while the task was stopped (27:R377)
  deriving DecidableEq, Repr

/-- Resident, or parked at a row of 02:R36. -/
inductive Run
  | resident
  | parked (row : Nat) (w : Wake)
  deriving DecidableEq, Repr

/-- A cause that is due at the task's next boundary (17:R271, R272). -/
structure Due where
  cause : BitVec 6
  detail : Nat := 0
  seg : Option (BitVec 3) := none
  addr : Word := 0
  sub : Nat := 0                        -- kind of the access it logs (27:R406)
  cycle : Nat := 0
  deriving DecidableEq, Repr

/-- A message in flight or in an inbox (03:R53, 06:R109). -/
structure Msg where
  tag : Nat
  src : Word             -- GTID of the sender
  srcCore : Nat
  srcRank : Nat
  gang : Nat
  dst : Word             -- GTID of the target member
  dstKey : Nat           -- slot that held it when it was sent
  dstRank : Nat
  ch : Nat
  mreg : BitVec 3
  data : VWord
  mute : Bool := false   -- a debugger has written its register: the delivery is discarded (27:R382)
  deriving DecidableEq, Repr

/-- The context of one task (03:R46, 18:R284) and its place in the scheduler (assumption 5, DESIGN CHOICE). -/
structure Task where
  gtid : Word := 0
  part : Nat := 0
  capid : Nat := 0
  bodygen : Nat := 0
  pc : Word := 0
  s : Vector Word 32 := Vector.replicate 32 0
  v : Vector VWord 32 := Vector.replicate 32 0
  p : Vector PWord 8 := Vector.replicate 8 0
  m : Vector VWord 8 := Vector.replicate 8 0
  g : Vector VWord 8 := Vector.replicate 8 0
  sFull : BitVec 32 := BitVec.allOnes 32
  vFull : BitVec 32 := BitVec.allOnes 32
  mFull : BitVec 8 := 0
  sErr : BitVec 32 := 0
  vErr : BitVec 32 := 0
  fpend : Bool := false
  fmtword : BitVec 32 := 0
  fmtPc : Word := 0                     -- the `fmt` of the pending pair, its return point (17:R273, 21:R329)
  priv : Priv := .task
  domain : BitVec 2 := 0
  tile : Option Nat := none             -- virtual tile of a tile task (02:R25)
  gang : Option Nat := none
  grank : Nat := 0xFFFF
  gsize : Nat := 0
  home : Nat := 0                       -- home core (02:R26)
  prio : Nat := 0
  launch : Option Nat := none
  root : Bool := false
  step : Option Nat := none
  sched : Bool := false
  join : Option Nat := none             -- memory address of the join counter (02:R24)
  tokens : Vector Nat 4 := Vector.replicate 4 0
  tr : TrapRegs := {}
  errSub : Nat := 0                     -- kind of the access that `ms.aerr` names (27:R406)
  inHandler : Bool := false             -- its g7 holds the handler's segment (17:R273)
  tvNext : Option VWord := none         -- segment `settvseg` gave while it was in its handler (18:R281)
  fw : TrapRegs := {}
  fqarea : Word := 0                    -- 0x30B, 0x310 and 0x311 (17:R267)
  fwBase : Word := 0
  fwBound : Word := 0
  codeBase : Option Word := none        -- what firmware wrote to `ms.codebase` and `ms.codebound` (17:R267); none: those of the
  codeBound : Option Word := none       -- capsule that runs
  fwCall : Option FwCall := none
  run : Run := .resident
  barriers : Nat := 0                   -- gang barriers this member has arrived at
  atBarrier : Bool := false             -- it has arrived and its `gbar` has not completed
  due : List Due := []
  inbox : List Msg := []
  stopped : Bool := false
  stepping : Bool := false
  skipBreak : Bool := false             -- a breakpoint at the pc has been taken and is not matched again (27:R378)
  nissued : Nat := 0                    -- instructions it has issued, from which a stop's skid is counted (27:R380)
  stamp : Nat := 0                      -- residency stamp (02:R38)
  since : Nat := 0                      -- cycle in which it became resident (20:R316)
  yieldedAt : Option Nat := none        -- cycle of a yield (02:R27)
  lastIssue : Option Nat := none
  holdUntil : Nat := 0                  -- first cycle of issue after a taken branch (10:R173)
  waitCount : Nat := 0
  lats : Map Nat := []                  -- register code, first cycle in which its value may be read (10:R173)
  held : Bool := false                  -- held by `preempt` (20:R311)
  fills : List RegId := []              -- registers that a delivery has filled in the cycle fillCycle (03:R51)
  fillCycle : Nat := 0
  owed : Bool := false                  -- its held tokens are still to be taken back from the pools (05:R98, 13:R236)
  draining : Option Nat := none         -- cycle in which it stopped for a save whose waits are not over (06:R108, 07:R128)
  deriving DecidableEq, Repr

/-! ### Accesses in flight -/

/-- What an access does at its home. -/
inductive AccOp
  | load (n : Nat) (sx : Bool)
  | store (n : Nat) (d : Nat)
  | nibble (hi : Bool) (d : Nat)
  | amo (w : Nat) (op : Nat) (c : Nat) (cmp : Nat)
  | feRead (take : Bool)                -- waits for full
  | feProbe (take : Bool)               -- answers at once (13:R224)
  | feStore (wait : Bool) (d : Nat)
  | count                               -- a fork's increment (02:R24)
  | uncount                             -- a retirement's decrement (02:R24)
  deriving DecidableEq, Repr

/-- A part of a queued access within one page (06:R110): physical or host address, length, ordering kind. -/
structure Piece where
  addr : Nat
  len : Nat
  kind : Nat
  deriving DecidableEq, Repr

/-- Where an access goes. -/
inductive Place
  | tile (acc : Bool) (vtile : Nat) (addr : Nat)                     -- spaces 0x1 to 0x3 and 0x6
  | ext (space queue va : Nat) (pieces : List Piece)                 -- spaces 0x4 and 0x5
  deriving DecidableEq, Repr

/-- How far an access is. -/
inductive AccState
  | flying                              -- on its way
  | blocked                             -- held in the message network by a full agent (06:R105)
  | waiting                             -- held at the remote-access agent (06:R105)
  | performed (value : Nat)             -- performed; its answer is on its way
  | answered (value : Nat)              -- the answer has arrived at a task that waits for it at its instruction
  | failed (poison : Bool)              -- its path ended it with abort or poison
  deriving DecidableEq, Repr

/-- An access in flight: remote requests of channel 2, queued requests, and the local stores, fills, signals and sends
that a release holds back. Accesses of one task carry rising tags, so tags give issue order. -/
structure Acc where
  tag : Nat
  owner : Word                          -- GTID
  key : Nat                             -- slot that issued it
  part : Nat
  op : AccOp
  place : Place
  dst : Option RegId := none
  acq : Bool := false
  rel : Bool := false
  scope : BitVec 4 := 5
  issued : Nat := 0                     -- cycle
  left : Option Nat := none             -- cycle in which it left the core's port (27:R385)
  leaseEnd : Option Nat := none         -- expiry of the lease it started under (19:R299)
  nissue : Nat := 0                     -- instructions its task had issued with it (27:R380)
  offset : Nat := 0                     -- portable offset of its instruction (27:R378)
  sup : Bool := false                   -- supervisor code made it (19:R304)
  waits : Bool := false                 -- the task waits for the answer at its instruction
  dead : Bool := false                  -- the task has ended, and the delivery is discarded (03:R52)
  extra : Nat := 0                      -- cycles a bank conflict has delayed it (06:R103)
  carry : List Nat := []                -- the fork descriptor whose counter it increments (13:R234); the length and increment of a `join`
  st : AccState := .flying
  deriving DecidableEq, Repr

/-- A release that is held back although its own path is local or is the message network (13:R221, R223, R232, R243). -/
inductive HeldOp
  | store (vtile : Nat) (acc : Bool) (addr n d : Nat)
  | nibble (vtile : Nat) (addr : Nat) (hi : Bool) (d : Nat)
  | fill (vtile : Nat) (addr d : Nat)
  | send (m : Msg)
  | signal (vtile n : Nat)
  | uncount (addr : Nat)                -- a retirement's decrement (02:R24)
  | arrive (gang rank : Nat)            -- at a gang barrier (02:R33)
  | leave (gang rank : Nat)             -- a retired member counts as arrived (02:R33, 08:R141)
  deriving DecidableEq, Repr

structure Held where
  tag : Nat
  owner : Word
  key : Nat
  part : Nat
  op : HeldOp
  nissue : Nat := 0
  offset : Nat := 0
  deriving DecidableEq, Repr

/-- An announced SC operation (07:R127, R128): the access it performs when it takes effect, and how the instruction then
completes. -/
structure ScOp where
  tag : Nat
  owner : Word
  key : Nat
  part : Nat
  cycle : Nat
  op : AccOp
  place : Place
  dst : Option RegId
  len : Nat                             -- instruction length
  pinc : Option (Reg × Word)            -- post-increment
  far : Bool := false                   -- it goes to a tile's agent (spaces 0x3 and 0x6)
  nissue : Nat := 0                     -- instructions its task had issued with it (27:R380)
  offset : Nat := 0                     -- portable offset of its instruction (27:R378)
  deriving DecidableEq, Repr

/-- An outstanding SFU request (12:R216): the result is computed at issue, since inactive elements carry the old value. -/
structure SfuReq where
  tag : Nat
  owner : Word
  part : Nat
  cluster : Nat
  last : Nat                            -- cycle in which the SFU takes its last element, and the elements it takes in
  used : Nat                            -- that cycle for this and earlier requests (12:R216)
  key : Nat                             -- slot that issued it
  dst : Reg
  value : VWord
  dead : Bool := false                  -- the task has ended, and the result is discarded
  drawn : Bool := true                  -- it drew its own token; false: one the task holds covers it (05:R97)
  mute : Bool := false                  -- a debugger has written its register: the delivery is discarded (27:R382)
  deriving DecidableEq, Repr

/-- A delivery that waits for a task in no slot (03:R52, 18:R284 `nd`). -/
structure Landed where
  owner : Word
  dst : RegId
  tag : Nat
  value : VWord
  err : Bool
  aerr : Word
  sub : Nat := 0
  deriving DecidableEq, Repr

/-- What this package has sent to others: a domain message, sealed (23:R354); a request of an SPDM exchange with a member, by its code, and
the key of a generation, over the secured session with it (23:R353). -/
inductive Outgoing
  | message (peer : Nat) (bytes : List Byte)
  | spdm (peer : Nat) (code : Nat)
  | key (peer : Nat) (key : List Byte)
  deriving DecidableEq, Repr

structure Net where
  accs : List Acc := []
  helds : List Held := []
  scOps : List ScOp := []
  sfu : List SfuReq := []
  msgs : List Msg := []
  landed : List Landed := []
  out : List Outgoing := []             -- sent to other packages, oldest first
  fences : List (Word × Nat) := []      -- a task has moved: its accesses from this tag on wait for those before it (07:R125)
  deriving DecidableEq, Repr

/-! ### Cores and tiles -/

/-- The freeze of a fatal cause: its origin and cause (27:R388). -/
structure Freeze where
  cause : Nat
  opkg : Nat
  ocore : Nat
  cycle : Nat
  deriving DecidableEq, Repr

/-- Fumarole ring of a core (27:R386 to R388). -/
structure Recorder where
  ring : List VWord := []               -- newest last, at most 4,096
  memCount : Nat := 0
  dropped : Nat := 0
  backlog : Nat := 0                    -- records its queue held at cycle `backAt` (27:R386)
  backAt : Nat := 0
  capture : Option Nat := none          -- records still to write before the ring is held (27:R384)
  frozen : Option (List VWord) := none  -- the trailer, once a freeze has arrived
  freezeDue : Option Freeze := none     -- a freeze on its way
  deriving DecidableEq, Repr

structure Core where
  lastVictim : Nat := 0                 -- core of the last successful steal (02:R27)
  recorder : Recorder := {}
  samples : Nat := 0
  scratch : Map (Word × Word) := []     -- by slot: the registers that expansions use (21:R327; assumption 117, DESIGN CHOICE)
  deriving DecidableEq, Repr

/-- A deque of a partition on a core, bottom first (02:R23). -/
structure Deque where
  entries : List Task := []
  deriving DecidableEq, Repr

/-- Per partition and core: term counters (05:R94), delay accumulators (27:R385) and the state of the barrel policy (assumption 46, DESIGN CHOICE). -/
structure Counters where
  terms : Map Word := []
  added : Map Word := []                -- counts of the commands that completed in cycle addedAt (18:R293)
  addedAt : Nat := 0
  clearedAt : Option Nat := none        -- cycle of the last clear (18:R293)
  delays : Map (Nat × Nat) := []        -- count and sum
  current : Option Nat := none          -- current slot (02:R38)
  runCount : Nat := 0                   -- times it has issued in a row
  lastSlot : Option Nat := none         -- slot that last issued (02:R39)
  hint : Option Nat := none             -- cycle of a `hint.yield`, which applies to the next owned cycle (15:R263)
  deriving DecidableEq, Repr

/-- One operand slot of a command, checked at acceptance (10:R172, 14:R238): the memory address of its first byte. -/
structure Range where
  present : Bool := false
  aux : Nat := 0
  space : Nat := 0
  mem : Nat := 0
  len : Nat := 0
  seg : BitVec 3 := 0
  off : Nat := 0
  fails : Bool := false
  deriving DecidableEq, Repr

/-- An operand latch (14:R246): type, M, K, elements and scales as bytes. -/
structure Latch where
  ty : BitVec 5
  m : Nat
  k : Nat
  data : List Byte
  scales : List Byte
  deriving DecidableEq, Repr

/-- One side of a copy: a range in a tile's memory by its memory address, or a range its descriptor names (14:R247). -/
structure Side where
  ext : Bool
  len : Nat
  addr : Nat
  space : Nat
  deriving DecidableEq, Repr

inductive CmdState
  | queued
  | started (cycle : Nat)
  deriving DecidableEq, Repr

/-- What a started command will do when it completes. -/
structure CmdResult where
  code : Nat := 0
  detail : Nat := 0
  writes : List (Nat × List Byte) := []
  adds : Option (BitVec 5 × Nat × List Byte) := none     -- type, address and elements to add to a tile's range (14:R250)
  terms : List (Nat × Nat) := []        -- term counter, amount
  latch : Option (Nat × Latch) := none
  endCycle : Nat := 0
  deriving DecidableEq, Repr

/-- A command in an engine queue (14:R238, R239). -/
structure Cmd where
  order : Nat                           -- acceptance order of the tile (07:R129)
  part : Nat
  owner : Word
  core : Nat
  vtile : Nat
  word : BitVec 256
  seq : Nat
  gs : Vector VWord 8                   -- the task's segments at acceptance (14:R247)
  ranges : Vector Range 3
  semDone : Bool := false
  waitFrom : Option Nat := none         -- cycle in which it began to wait for its power token (05:R95)
  fault : Option Nat := none            -- virtual address whose page fault holds it (14:R247)
  failed : Bool := false                -- that fault could not be resolved
  held : Bool := false                  -- started, and its external part waits: for a page, an engine or its group
  offered : Option Nat := none          -- cycle in which its external part was first offered (20:R320)
  abort : Bool := false                 -- its task has ended before it started: it completes with 0x01 (17:R274)
  dead : Bool := false                  -- its task has ended, and the token write is discarded (02:R52)
  kernel : Option (Option Nat) := none  -- runs as an engine kernel, in this slot once it has one (20:R320)
  st : CmdState := .queued
  drawn : Bool := true                  -- it drew its own token; false: one the task holds covers it (05:R97)
  mute : Bool := false                  -- a debugger has written its token: the delivery is discarded (27:R382)
  sup : Bool := false                   -- supervisor code pushed it (19:R304)
  nissue : Nat := 0                     -- instructions its task had issued with its push (27:R380)
  offset : Nat := 0                     -- portable offset of its `tcmd` (27:R378)
  moving : Bool := false                -- it moves its range in parts, of at most a 4 KiB page each (19:R296)
  sides : List Side := []               -- source and destination, as its descriptors gave them at its start (14:R247)
  moved : Nat := 0                      -- bytes moved
  partEnd : Nat := 0                    -- cycle in which its next part moves
  bytes : List Byte := []               -- source bytes it holds
  param : List Byte := []               -- parameter block and key it read at its start (14:R249)
  result : CmdResult := {}
  deriving DecidableEq, Repr

structure Tile where
  queues : Vector (List Cmd) 5 := Vector.replicate 5 []   -- 4 holds queue-fence entries
  accepted : Nat := 0
  bankUse : List (Nat × Bool × Nat) := []                 -- cycle, store and bank of the accesses served lately (06:R103)
  deriving DecidableEq, Repr

/-- A waiter on a semaphore (14:R242): a task by GTID, or a command by its order on the tile. -/
inductive SemWaiter
  | task (gtid : Word)
  | cmd (order : Nat)
  deriving DecidableEq, Repr

/-- State of one virtual tile of a partition (14:R242, R246, 18:R286). -/
structure VTile where
  sems : Vector Nat 8 := Vector.replicate 8 0
  waiters : Vector (List SemWaiter) 8 := Vector.replicate 8 []
  latches : Vector (Option Latch) 2 := Vector.replicate 2 none
  dirty : List Nat := []                -- window region numbers; accumulator-store regions from 512 upward
  saved : Map (List Byte) := []         -- tile images in Caldera's keeping, by virtual device, 8 where none is bound (20:R317, R322)
  deriving DecidableEq, Repr

/-! ### Translation (19) -/

/-- A TLB entry (19:R297, R298): the page it maps and the cycle its lease ends. -/
structure TlbEntry where
  part : Nat
  vbase : Nat
  size : Nat
  pbase : Nat
  kind : Nat
  r : Bool
  w : Bool
  a : Bool
  mig : Nat
  expiry : Nat
  deriving DecidableEq, Repr

/-- A translation under way for a task's access (19:R303). -/
structure Walk where
  gtid : Word
  key : Nat
  part : Nat
  cluster : Nat
  va : Nat
  acc : Nat                             -- bit 0 read, bit 1 write, bit 2 atomic, bit 3 engine (19:R302)
  seg : BitVec 3
  since : Nat := 0                      -- cycle in which it began
  sup : Bool := false                   -- supervisor code made the access (19:R304)
  deriving DecidableEq, Repr

/-- An access attached to a fault (19:R301): its task, the segment of its operand, none for an engine command, and the tag of a
withdrawn request (19:R299). -/
structure Waiter where
  gtid : Word
  acc : Nat
  seg : Option (BitVec 3)
  tag : Option Nat := none
  va : Nat := 0                         -- first byte of its own that failed (17:R269)
  deriving DecidableEq, Repr

/-- A pending fault record (19:R302): `idx` is its place in the ring at `base`, none while the ring has no free record. -/
structure FaultRec where
  part : Nat
  va : Nat
  acc : Nat
  prop : Nat
  idx : Option Nat
  base : Nat := 0
  waiters : List Waiter
  deriving DecidableEq, Repr

/-- State of a host-homed page in the migration directory (19:R306). -/
inductive PageState
  | host
  | device
  | moving (toDevice : Bool)
  deriving DecidableEq, Repr

structure DirEntry where
  st : PageState := .host
  hostPa : Nat := 0
  frame : Nat := 0
  since : Nat := 0
  loser : Option Bool := none           -- the side that lost: true the device
  timer : Option Nat := none            -- cycle the hysteresis timer started
  asked : Bool := false                 -- a device fault is on its way to the directory
  waiters : List Waiter := []
  hostWaits : Nat := 0                  -- host faults attached to a move
  lmax : Nat := 0                       -- largest lease length since its leaf was made invalid (19:R299)
  snap : Option (List Byte) := none     -- the page as it was when the device, the loser, was mapped to the host (19:R306, R307)
  deriving DecidableEq, Repr

/-- An ATS invalidation under way on a host link (19:R308). -/
structure AtsInval where
  lo : Nat
  hi : Nat
  since : Nat
  tags : List Nat                       -- requests issued under the translation
  cmds : List (Nat × Nat) := []         -- engine commands issued under it, by tile and order
  deriving DecidableEq, Repr

structure Mmu where
  tlb1 : Map (List TlbEntry) := []      -- by cluster
  tlb2 : Map (List TlbEntry) := []      -- by die
  walks : List Walk := []
  faults : List FaultRec := []
  atc : Map (List Nat) := []            -- per host link: pages translated
  invals : Map (List AtsInval) := []
  deriving DecidableEq, Repr

/-! ### Capsules (21) -/

/-- Lifetime of a capsule (21:R333). -/
inductive CapState
  | built
  | voided
  | rebuilding
  | unloadPending (current : Bool) (building : Bool)
  deriving DecidableEq, Repr

/-- A resume-map entry (21:R328). -/
structure Boundary where
  off : Nat
  kind : Nat
  land : Bool
  deriving DecidableEq, Repr

/-- An entry-table record (21:R326). -/
structure Entry where
  off : Nat
  bound : Bool
  domain : BitVec 2
  deriving DecidableEq, Repr

/-- A task whose `rebuild` awaits a build (18:R289): the register its code goes to, and the slot it issued from. -/
structure Joiner where
  gtid : Word
  dst : Reg
  key : Nat
  dead : Bool := false                  -- the task has ended, and the delivery is discarded (03:R52)
  mute : Bool := false                  -- a debugger has written its register: the delivery is discarded (27:R382)
  deriving DecidableEq, Repr

structure Capsule where
  capid : Nat
  world : BitVec 4
  featver : Nat
  st : CapState
  bodygen : Nat := 0
  refs : BitVec 8 := 0
  base : Nat                            -- arena address
  len : Nat                             -- text length in bytes
  rmap : List Boundary
  entries : List Entry
  image : List Byte := []
  joiners : List Joiner := []
  deriving DecidableEq, Repr

/-! ### Partitions (20) -/

/-- A waiter on a power token (05:R97): a task by GTID, or a command by its tile and order. -/
inductive PoolWaiter
  | task (gtid : Word)
  | cmd (tile order : Nat)
  deriving DecidableEq, Repr

/-- A power-token pool of a cluster and class (05:R96 to R99). -/
structure Pool where
  created : Nat
  capacity : Nat
  inUse : Nat := 0
  waiters : List PoolWaiter := []       -- in the order in which they began to wait
  deriving DecidableEq, Repr

/-- A saved context (18:R283): where its image lies, and who holds it (assumption 56, DESIGN CHOICE). -/
structure Saved where
  gtid : Word
  capid : Nat
  task : Task                           -- what a save keeps beside the image: its place for Caldera
  va : Nat
  byCaldera : Bool
  hold : Bool := false                  -- held by `preempt` until `requeue` (20:R311)
  iv : Nat := 0                         -- the IV of its image, which names this save (18:R285)
  go : Bool := false                    -- a debugger that had stopped it has left: it comes back running (27:R375)
  cmds : List Cmd := []                 -- its commands that had not started (18:R284)
  since : Nat := 0                      -- cycle of the save (20:R322)
  core : Option Nat := none             -- core it left, until its tile's image is written (20:R322)
  deriving DecidableEq, Repr

/-- A key handle (23:R359). -/
structure KeyHandle where
  serial : Nat
  key : List Byte
  use : BitVec 3
  fixed : List Byte
  counter : Nat := 0
  dropped : Bool := false
  deriving DecidableEq, Repr

/-- A launch (20:R313, R314). -/
structure Launch where
  id : Nat
  part : Nat
  queue : Nat
  domain : BitVec 2                     -- widest domain of its tasks (02:R26)
  live : Nat                            -- roots not retired
  doneaddr : Nat
  doneval : Word
  deriving DecidableEq, Repr

/-- A sequence slot of the step queue (14:R255). -/
structure Seq where
  seqid : Word
  len : Nat
  stops : List (BitVec 32)
  deriving DecidableEq, Repr

inductive StepPhase
  | idle                                -- waits for the admission ring (20:R318)
  | running (launch : Nat)
  | scheduling
  deriving DecidableEq, Repr

/-- The step queue (20:R318, 02:R43): configuration, the descriptor of the running step, what the step has retired and
admitted, and the pages in use. -/
structure StepQ where
  root : List Byte
  sched : Nat
  pool : Nat
  npages : Nat
  pglog : Nat
  adm : Nat
  cring : Nat
  plarea : Nat
  stepno : Nat := 0
  phase : StepPhase := .idle
  used : List Nat := []                 -- numbers of the pages that are not free, rising
  desc : Map Seq := []                  -- by sequence slot
  pgfree : Nat := 0
  retired : List Nat := []
  admitted : Map Seq := []
  admTail : Nat := 0
  deriving DecidableEq, Repr

/-- A virtual device (20:R317). -/
structure VDev where
  weight : Nat
  credit : Int := 0
  hadWork : Bool := false
  deriving DecidableEq, Repr

/-- A breakpoint (27:R378). -/
structure Breakpoint where
  capid : Nat
  off : Nat
  gtid : Word
  action : Nat
  trigId : BitVec 4
  trigAction : BitVec 2
  deriving DecidableEq, Repr

/-- A watchpoint (27:R379). -/
structure Watchpoint where
  kind : Nat
  vtile : Nat
  addr : Nat
  k : Nat
  mask : BitVec 5
  gtid : Word
  action : Nat
  trigId : BitVec 4
  trigAction : BitVec 2
  deriving DecidableEq, Repr

structure PartDebug where
  session : Option Nat := none
  breaks : Map Breakpoint := []
  watches : Map Watchpoint := []
  period : Nat := 12
  records : List VWord := []            -- stop records not yet handed out
  stops : List Word := []               -- tasks the debugger stopped
  deriving DecidableEq, Repr

/-- Members' progress in a trust domain (23:R353, R356). -/
inductive DomState
  | joining
  | draining                            -- BARRIER received, requests of the old generation still out
  | drained
  | keyed                               -- the new key installed, READY sent
  | opened
  deriving DecidableEq, Repr

structure Domain where
  id : Nat
  members : List Nat                    -- listed package numbers
  meas : List Byte
  digest : List Byte
  coord : Nat
  st : DomState := .joining
  gen : Nat := 0
  nextGen : Nat := 0
  key : List Byte := []
  joined : List Nat := []
  since : Nat := 0
  drained : List Nat := []
  ready : List Nat := []
  lastBeat : Nat := 0                   -- cycle of the coordinator's last answer, and of the last heartbeat sent
  beatSent : Nat := 0
  sendSeq : Map Nat := []               -- by peer × 4 + channel
  recvSeq : Map Nat := []
  early : Map Nat := []                 -- messages received that bring what a later event delivers (assumption 101, DESIGN CHOICE)
  broken : List Nat := []               -- tuples whose later messages are discarded (23:R355)
  lost : List Nat := []                 -- members declared lost (23:R356, R357)
  rejoin : Option Nat := none           -- cycle in which this package, as successor, began to join the others (23:R357)
  rejoined : List Nat := []
  barrierAt : Nat := 0                  -- cycle of the barrier's BARRIER (23:R356)
  keyBy : Nat := 0                      -- the coordinator that sent the key
  deriving DecidableEq, Repr

/-- Interface state of a partition on a host link (23:R358). -/
inductive Tdisp
  | unlocked
  | run
  | error
  deriving DecidableEq, Repr

/-- One partition (20:R309; assumption 10, DESIGN CHOICE). -/
structure Partition where
  cores : List Nat
  slots : BitVec 16
  spBanks : BitVec 16
  asBanks : BitVec 16
  stackMask : BitVec 8
  mainmem : Nat
  tier2 : Nat
  host : BitVec 2
  eth : BitVec 8
  fabric : BitVec 24
  world : BitVec 4
  saveArea : Nat
  vmap : Map Nat                        -- virtual tile, physical tile
  ranges : List (Nat × Nat) := []       -- physical memory granted: base and bytes (assumption 24, DESIGN CHOICE)
  pol : Bool := false
  polNext : Bool := false
  donate : Bool := false
  donateNext : Bool := false
  lease : Nat := 20
  ptroot : Nat := 0
  fring : Option Nat := none
  ftail : Nat := 0
  deadline : Nat := 20
  qarea : Word := 0
  qnext : Nat := 0
  qheld : List (List Byte) := []        -- records held for the ring (17:R275)
  cring : Option Nat := none
  cserial : Nat := 0
  capsRes : Word := 0
  capsIo : Word := 0
  capacity : Vector Nat 4 := Vector.replicate 4 0
  pools : Map Pool := []                -- by cluster × 4 + class
  dequeExt : Nat := 0
  launchRings : Map Nat := []           -- by launch queue
  lastPacket : Map Nat := []            -- by launch queue: launch of its last packet, where that one was accepted (20:R314)
  groups : Map (List (Nat × Nat)) := [] -- collective groups: package and virtual tile
  capsules : List Capsule := []
  deleted : List (Nat × Nat) := []      -- deleted capsules, each with the generation its body had reached (18:R289, 21:R333)
  supCap : Option Nat := none           -- the supervisor capsule (17:R265)
  saved : List Saved := []
  keys : Map KeyHandle := []
  stepq : Option StepQ := none
  vdevs : Map VDev := []
  slice : Nat := 1000
  resident : Option Nat := none
  sliceStart : Nat := 0                 -- cycle in which the resident device took the partition
  switching : Bool := false             -- a switch of devices is under way (20:R317)
  stopped : Bool := false
  resizing : Option (List Nat) := none  -- cores after a resize under way (20:R325)
  frames : List Nat := []               -- free frames of the migration directory
  dir : Map DirEntry := []              -- by virtual page
  dbg : PartDebug := {}
  tdisp : Vector Tdisp 2 := Vector.replicate 2 .unlocked
  hostMarked : List Nat := []           -- pages of host memory that the host has marked confidential (23:R358)
  domain : Option Domain := none
  seqs : Map Nat := []                  -- by virtual tile × 8 + queue: commands accepted (03:R54)
  deriving DecidableEq, Repr

/-! ### Caldera -/

/-- Work Caldera holds (20:R315, R323). -/
inductive Work
  | root (queue : Nat) (order : Nat) (t : Task)
  | saved (gtid : Word)
  | gang (queue : Nat) (id : Nat) (ts : List Task)
  | kernel (tile q order : Nat)
  deriving DecidableEq, Repr

structure QueuedWork where
  part : Nat
  prio : Nat
  requeued : Bool
  since : Nat
  reserved : List Nat := []             -- slot keys reserved for a gang (20:R316)
  reservedAt : Option Nat := none
  held : Bool := false                  -- held as under `preempt`, since its body's build was refused (21:R336)
  work : Work
  deriving DecidableEq, Repr

/-- A gang (02:R31 to R33): ranks still live, and the barriers it has completed. -/
structure Gang where
  part : Nat
  size : Nat
  live : List Nat
  members : List Word
  arrived : List Nat := []              -- ranks that have arrived at the running barrier
  completed : Nat := 0
  deriving DecidableEq, Repr

/-- A pre-emption request on its way to a core (20:R321). -/
structure Preempt where
  part : Nat
  core : Nat
  since : Nat
  hold : Bool
  gtids : List Word
  failed : List Word := []              -- tasks whose images could not be written (18:R283)
  deriving DecidableEq, Repr

/-- A steal under way (02:R29): the task goes to a slot of the thief's core. -/
structure Steal where
  key : Nat
  since : Nat
  limit : Nat
  stolen : Bool := true
  task : Task
  deriving DecidableEq, Repr

/-- A request whose reply writes `dst` of a parked task (02:R36 row 12). -/
inductive Ask
  | seqret (mask base : Word) (why : BitVec 2)
  | seqadm (n : Word)
  | poolTake
  | poolGive (pa : Word)
  | ctxsave (slot : Word) (va : Nat)
  | ctxsaveTile (va : Nat)
  | ctxrest (slot : Word) (va : Nat)
  | ctxrestTile (va : Nat)
  | halt (gtid : Word) (op : Nat)
  deriving DecidableEq, Repr

structure Asked where
  key : Nat
  gtid : Word
  part : Nat
  dst : Reg
  len : Nat
  ask : Ask
  reply : Option Word := none
  page : Option Nat := none             -- virtual page of its image that the directory is moving for it (19:R306)
  deriving DecidableEq, Repr

structure Caldera where
  serials : Vector Nat 8 := Vector.replicate 8 0
  stampCtr : Nat := 0
  idCtr : Nat := 0                      -- launches, gangs and packets, in order of creation
  work : List QueuedWork := []
  gangs : Map Gang := []
  launches : List Launch := []
  preempts : List Preempt := []
  steals : List Steal := []
  asked : List Asked := []
  lastQueue : Map Nat := []             -- by partition × 4 + priority: launch last taken from (20:R315)
  deriving DecidableEq, Repr

/-! ### Worlds, host, debug, management -/

/-- A world (23:R341, R343). -/
structure World where
  id : BitVec 4
  secret : List Byte
  capKeys : List Byte
  ivCtr : Nat := 0
  deriving DecidableEq, Repr

structure HostRegs where
  id : Word := 0x0009D3E0
  reqring : Word := 0
  evring : Word := 0
  status : Word := 0
  hdm : Vector Word 2 := Vector.replicate 2 0
  serving : Option Nat := none          -- code of the request at the ring's head, under way (25:R367)
  queued : List HostRequest := []       -- requests whose records stand behind the head's
  deriving DecidableEq, Repr

structure HostLink where
  up : Bool := true
  cxl : Bool := false
  width : Nat := 16
  deriving DecidableEq, Repr

/-- An entry of the fabric window (25:R370). -/
structure Granule where
  pkg : Nat
  base : Nat
  links : BitVec 24
  deriving DecidableEq, Repr

/-- Phases of an SPDM exchange (23:R353). -/
inductive SpdmPhase
  | start
  | version
  | capabilities
  | algorithms
  | certificate
  | challenged
  | measured
  | exchanged
  | secured
  deriving DecidableEq, Repr

structure Session where
  phase : SpdmPhase := .start
  world : BitVec 4 := 0
  debugger : Bool := false
  waiting : List (Nat × Nat × BitVec 32) := []           -- partitions it waits for an event of, since when, request identifiers (27:R376)
  deriving DecidableEq, Repr

/-- What the device answers (27:R376, 29:R396, R401, 23:R353, 25:R367, 26:R374). -/
structure Reply where
  session : Nat
  code : Nat
  status : Nat
  data : List Byte := []
  part : Nat := 0                       -- of a debug request: its partition and identifier
  id : BitVec 32 := 0
  deriving DecidableEq, Repr

/-- A match of a breakpoint or watchpoint: the task, a slot number that its records carry, the core of the cluster where it was found, the portable
offset of the instruction, and, where a message tells the task, what its skid counts from (27:R378 to R380). -/
structure Match where
  gtid : Word
  part : Nat
  key : Nat
  core : Nat
  off : Nat
  base : Option Nat := none
  deriving DecidableEq, Repr

/-- A stop message on its way to a task (27:R380, R392): `base` is the count of its instructions from which its skid counts,
`note` the memory record of the match that goes ahead of the stop record. -/
structure StopMsg where
  gtid : Word
  cause : BitVec 6
  cycle : Nat
  base : Nat
  note : Option VWord := none
  deriving DecidableEq, Repr

/-- Ring of one core in a tephra record: the core, its world, its records oldest first, its trailer. -/
structure TephraCore where
  core : Nat
  world : BitVec 4
  ring : List VWord
  trailer : List VWord
  deriving DecidableEq, Repr

/-- A tephra record (27:R389), the record keys of the worlds as they stood, and the signatures of the views made from it, by world (27:R390,
R391). -/
structure Tephra where
  fwver : Nat
  origin : Nat
  pkg : Nat
  ocore : Nat
  cause : Nat
  cores : List TephraCore
  sig : List Byte
  keys : Map (List Byte) := []
  sigs : Map (List Byte) := []
  deriving DecidableEq, Repr

structure DebugUnit where
  tephra : Option Tephra := none
  freeze : Option Freeze := none        -- a freeze whose rings have not all been gathered
  stops : List (Nat × StopMsg) := []    -- by core
  deriving DecidableEq, Repr

/-- A start-step record (29:R401). -/
structure StartRecord where
  fwver : Nat
  kind : Nat
  steps : Vector Nat 9
  stackMask : BitVec 8
  dies : BitVec 8
  fabric : BitVec 24
  deriving DecidableEq, Repr

/-- A log record (29:R396). -/
structure LogRec where
  kind : Nat
  time : Nat
  world : BitVec 4
  payload : List Byte
  deriving DecidableEq, Repr

structure Sensor where
  level : Nat := 0
  below : Vector Nat 3 := Vector.replicate 3 0            -- samples in a row below each level's threshold by the margin
  recent : List Nat := []                                 -- module power: the samples of the last 100 ms
  deriving DecidableEq, Repr

/-- An image that step 3 of an update is writing, and what its verification will find (29:R398). -/
structure Update where
  version : Nat
  ok : Bool
  deriving DecidableEq, Repr

structure Mgmt where
  log : List LogRec := []
  sensors : Vector Sensor 11 := Vector.replicate 11 {}   -- dies 0 to 7, module power, coolant inlet, coolant flow
  barred : BitVec 8 := 0                -- dies on which nothing is placed (29:R395)
  update : Option Update := none
  imageValid : Bool := true
  imageVer : Nat := 1                   -- version of the stored image
  skips : BitVec 9 := 0                 -- start steps to be skipped until the record is cleared (29:R400)
  minVersion : Nat := 0
  recoveryForm : Bool := false          -- the boot ROM's recovery form runs (29:R399)
  halted : Bool := false
  startDue : Bool := false              -- the controller owes a start: a step failed, or the recovery form has an image (29:R399, R400)
  nextKind : Nat := 3                   -- the kind of that start
  alts : BitVec 9 := 0                  -- steps whose main form failed in this chain of starts (29:R400)
  failSteps : List Nat := []            -- steps whose main form fails, and the parts that fail, as the last starts found them
  failParts : List Nat := []
  tierOut : BitVec 8 := 0               -- controllers of second-tier memory that are absent (29:R400; assumption 76, DESIGN CHOICE)
  hostOut : Bool := false               -- the host links are absent
  own : Nat := 0                        -- the controller's own time, in cycles, when the cycle counter last began (29:R396)
  counting : Bool := true               -- the cycle counter runs: a start is complete
  failedCores : List Nat := []          -- cores that have failed (20:R325)
  fused : List Nat := []                -- tiles that are fused off (01:R8)
  linkCfg : Vector LinkCfg 2 := Vector.replicate 2 {}    -- configuration of the host links (25:R363)
  start : StartRecord
  lmsNext : Nat := 0
  lmsEnd : Nat := 0
  recoverDue : List (Option (BitVec 4)) := []            -- recoveries after fatal causes, in order: a world each, or the package
  activationDue : Bool := false
  retained : List (List Byte) := []     -- images and records kept in retained SRAM (17:R274)
  deriving DecidableEq, Repr

/-- The package. `cur` is the slot an instruction acts on, (die × 128 + core) × 16 + slot; `turn` says what this cycle serves next:
2,048 what arrives in it, then cores from 0 to 1,023, then 1,024 the rest (assumption 2, DESIGN CHOICE). -/
structure State where
  agenda : List Instr
  cur : Nat
  turn : Nat
  cycle : Nat
  freeCtr : Nat
  tagCtr : Nat
  pkgNo : BitVec 19
  fwver : Nat
  worldOf : Vector (BitVec 4) 8         -- world id latched by each die (23:R341)
  mem : Mem
  feEmpty : List Nat                    -- addresses of scratchpad words whose bit is empty
  poison : List Nat                     -- poisoned 4 KiB physical pages, by address >> 12 (assumption 9, DESIGN CHOICE)
  macBad : List Nat                     -- 64-byte lines whose MAC fails, by address >> 6 (23:R345; assumption 104, DESIGN CHOICE)
  memWorld : Map Nat                    -- by GiB: the world that was granted it last, 16 where its keys are gone (assumption 105, DESIGN CHOICE)
  slots : Map Task
  cores : Map Core
  deques : Map Deque                    -- by partition × 1024 + core
  counters : Map Counters               -- by partition × 1024 + core
  slotTv : Map (Word × VWord)           -- by slot: `ms.tvec` and `ms.tvseg` a new task finds (17:R267)
  tiles : Map Tile
  vtiles : Map VTile                    -- by partition × 1024 + virtual tile
  parts : Map Partition
  net : Net
  mmu : Mmu
  cald : Caldera
  worlds : List World
  keySerials : Map Nat                  -- handles that a world's partitions have had (23:R359)
  hl : HostRegs
  links : Vector HostLink 2
  fabricUp : BitVec 24
  granules : Map Granule
  ethUp : BitVec 8
  sessions : Map Session
  dbg : DebugUnit
  mgmt : Mgmt
  replies : List Reply
  deriving DecidableEq, Repr

/-- The firmware version a complete start reports (assumption 11, DESIGN CHOICE: the spec gives no number). -/
def resetFwver : Nat := 1

/-- The record of a start in which every step ended done and every part is present (29:R400, R401; assumption 1, DESIGN CHOICE). -/
def resetStart : StartRecord :=
  { fwver := resetFwver, kind := 0, steps := Vector.replicate 9 1, stackMask := 0xFF, dies := 0xFF, fabric := 0xFFFFFF }

/-- The package right after a complete cold start (29:R400): no partition, no task, memory with nothing listed. `hl.id`
carries the firmware's version (25:R366). -/
def State.reset : State :=
  { agenda := [], cur := 0, turn := 0, cycle := 0, freeCtr := 0, tagCtr := 0
    pkgNo := 0, fwver := resetFwver
    worldOf := Vector.replicate 8 0
    mem := [], feEmpty := [], poison := [], macBad := [], memWorld := []
    slots := [], cores := [], deques := [], counters := [], slotTv := [], tiles := [], vtiles := [], parts := []
    net := {}, mmu := {}, cald := {}
    worlds := [], keySerials := [], hl := { id := 0x0001_0009_D3E0 }
    links := Vector.replicate 2 {}, fabricUp := 0xFFFFFF, granules := [], ethUp := 0xFF
    sessions := [], dbg := {}, mgmt := { start := resetStart }, replies := [] }

end Sys2Proof.Machine
end

