-- ==== Sys2Proof/Machine/Base.lean ====
section
/-! DEFINITION. Maps, memory and addresses: the plain operations everything else is written over. -/

namespace Sys2Proof.Machine

/-- What an instruction or event answers. -/
abbrev Out := Host.Outcome State Fault Refusal

/-! ### Maps -/

def mapGet {α : Type} (m : Map α) (k : Nat) : Option α :=
  match m with
  | [] => none
  | (x, a) :: r => if x = k then some a else mapGet r k

/-- The map with `a` at `k`, keys kept rising. -/
def mapSet {α : Type} (m : Map α) (k : Nat) (a : α) : Map α :=
  match m with
  | [] => [(k, a)]
  | (x, b) :: r => if x < k then (x, b) :: mapSet r k a else if x = k then (k, a) :: r else (k, a) :: (x, b) :: r

def mapErase {α : Type} (m : Map α) (k : Nat) : Map α := m.filter fun e => e.1 != k

/-- The map with `f` applied at `k`, starting from `d` where nothing is. -/
def mapMod {α : Type} (m : Map α) (k : Nat) (d : α) (f : α → α) : Map α := mapSet m k (f ((mapGet m k).getD d))

/-- Insert into a rising list of numbers. -/
def insNat (l : List Nat) (k : Nat) : List Nat :=
  match l with
  | [] => [k]
  | x :: r => if x < k then x :: insNat r k else if x = k then x :: r else k :: x :: r

/-! ### Memory -/

/-- What an unlisted byte reads as: 0 (06:R104 for scratchpads; assumption 8, DESIGN CHOICE for the rest). -/
def fillByte : Byte := 0

/-- The canonical form: addresses strictly rising, no listed byte equal to what an unlisted one reads as. -/
def Mem.wfFrom (lo : Nat) : Mem → Bool
  | [] => true
  | (a, b) :: r => decide (lo ≤ a) && b != fillByte && Mem.wfFrom (a + 1) r

def Mem.wf (m : Mem) : Bool := Mem.wfFrom 0 m

def memGet (m : Mem) (a : Nat) : Byte :=
  match m with
  | [] => fillByte
  | (x, b) :: r => if x = a then b else memGet r a

def memSet (m : Mem) (a : Nat) (b : Byte) : Mem :=
  match m with
  | [] => if b = fillByte then [] else [(a, b)]
  | (x, c) :: r =>
    if x < a then (x, c) :: memSet r a b
    else if x = a then (if b = fillByte then r else (a, b) :: r)
    else if b = fillByte then (x, c) :: r else (a, b) :: (x, c) :: r

/-- `n` bytes from `a`, lowest address first. -/
def memRead (m : Mem) (a n : Nat) : List Byte := (List.range n).map fun i => memGet m (a + i)

def memWrite (m : Mem) (a : Nat) (bs : List Byte) : Mem :=
  match bs with
  | [] => m
  | b :: r => memWrite (memSet m a b) (a + 1) r

/-- Little-endian number of `n` bytes (00:R5). -/
def memNat (m : Mem) (a n : Nat) : Nat := leNat (memRead m a n)

def memPut (m : Mem) (a n x : Nat) : Mem := memWrite m a (leBytes n x)

/-- The range `lo` to `hi - 1` reads as unlisted. -/
def memClear (m : Mem) (lo hi : Nat) : Mem := m.filter fun c => decide (c.1 < lo) || decide (hi ≤ c.1)

/-! ### The address space

One list of bytes holds every memory of the package: physical addresses from 0 (19:R294: 50 bits), host memory at
`hostBase`, and for each partition and virtual tile its scratchpad window (06:R102) and accumulator store. A tile's memory
is listed by its coordinate, which is how 02:R30 moves it. -/

def hostBase : Nat := 2 ^ 60
def spBase (part vt : Nat) : Nat := 2 ^ 61 + (part * 1024 + vt) * 2 ^ 21
def asBase (part vt : Nat) : Nat := 2 ^ 62 + (part * 1024 + vt) * 2 ^ 20

/-- Main memory: 512 GiB, eight stacks of 64 GiB (01:R8, 25:R372). -/
def mainBytes : Nat := 2 ^ 39

/-- The code arena: the highest 4 GiB of main memory (21:R330; assumption 27, DESIGN CHOICE: the spec places it outside every grant). -/
def arenaBase : Nat := mainBytes - 2 ^ 32
def arenaBytes : Nat := 2 ^ 32

/-- Second-tier memory: 1,536 GiB; where it lies in the physical space is the model's (assumption 13, DESIGN CHOICE). -/
def tier2Base : Nat := 2 ^ 40
def tier2Bytes : Nat := 1536 * 2 ^ 30
/-- The fabric window: bits 49:48 both set (25:R370). -/
def inWindow (pa : Nat) : Bool := pa / 2 ^ 48 == 3
/-- A physical address some memory of the package backs. -/
def backed (pa : Nat) : Bool := decide (pa < mainBytes) || (decide (tier2Base ≤ pa) && decide (pa < tier2Base + tier2Bytes))

/-! ### Bits -/

def ofBool (b : Bool) : Nat := if b then 1 else 0

/-- Bits `lo + w - 1 : lo` of a number. -/
def field (n lo w : Nat) : Nat := n / 2 ^ lo % 2 ^ w

/-- `n` with bits `lo + w - 1 : lo` replaced. -/
def setField (n lo w x : Nat) : Nat := n - field n lo w * 2 ^ lo + (x % 2 ^ w) * 2 ^ lo

/-- The numbers below `n` whose bit is set in `b`. -/
def setBits (b n : Nat) : List Nat := (List.range n).filter fun i => b / 2 ^ i % 2 == 1

def popCount (b n : Nat) : Nat := (setBits b n).length

/-- Fields of a word, least significant first, as `packFields`. -/
def word64 (fs : List (Nat × Nat)) : Word := BitVec.ofNat 64 (packFields fs)

def signOf (x w : Nat) : Int := if x < 2 ^ (w - 1) then x else (x : Int) - 2 ^ w

/-- Floor of a signed number modulo 2^w. -/
def wrapTo (w : Nat) (x : Int) : Nat := (x % (2 ^ w : Int)).toNat

def clampInt (lo hi x : Int) : Int := if x < lo then lo else if hi < x then hi else x

/-! ### Places: a slot's key is (die × 128 + core) × 16 + slot (01:R8, R9) -/

def coreOf (key : Nat) : Nat := key / 16
def slotOf (key : Nat) : Nat := key % 16
def tileOf (core : Nat) : Nat := core / 2
def clusterOf (core : Nat) : Nat := core / 8
def dieOf (core : Nat) : Nat := core / 128
/-- Stage cores are even, compute cores odd (01:R9). -/
def isStage (core : Nat) : Bool := core % 2 == 0
/-- The compute core of a core's tile: its term counters serve both (05:R94). -/
def computeOf (core : Nat) : Nat := core / 2 * 2 + 1

namespace State

/-- The slot's task; a slot that holds none reads as an empty context (02:R17: its `ms.gtid` reads zero). -/
def taskAt (s : State) (key : Nat) : Task := (mapGet s.slots key).getD {}

def putTask (s : State) (key : Nat) (t : Task) : State := { s with slots := mapSet s.slots key t }

def task (s : State) : Task := s.taskAt s.cur
def setTask (s : State) (t : Task) : State := s.putTask s.cur t

def at_ (s : State) (key : Nat) : State := { s with cur := key }

def partOf? (s : State) (p : Nat) : Option Partition := mapGet s.parts p
def core (s : State) (c : Nat) : Core := (mapGet s.cores c).getD {}
def modCore (s : State) (c : Nat) (f : Core → Core) : State := { s with cores := mapMod s.cores c {} f }
def tile (s : State) (t : Nat) : Tile := (mapGet s.tiles t).getD {}
def modTile (s : State) (t : Nat) (f : Tile → Tile) : State := { s with tiles := mapMod s.tiles t {} f }
def vtile (s : State) (p vt : Nat) : VTile := (mapGet s.vtiles (p * 1024 + vt)).getD {}
def modVTile (s : State) (p vt : Nat) (f : VTile → VTile) : State :=
  { s with vtiles := mapMod s.vtiles (p * 1024 + vt) {} f }
def modPart (s : State) (p : Nat) (f : Partition → Partition) : State :=
  match mapGet s.parts p with
  | none => s
  | some x => { s with parts := mapSet s.parts p (f x) }
def deque (s : State) (p c : Nat) : List Task := ((mapGet s.deques (p * 1024 + c)).getD {}).entries
def setDeque (s : State) (p c : Nat) (l : List Task) : State :=
  { s with deques := if l.isEmpty then mapErase s.deques (p * 1024 + c) else mapSet s.deques (p * 1024 + c) ⟨l⟩ }
def counts (s : State) (p c : Nat) : Counters := (mapGet s.counters (p * 1024 + c)).getD {}
def modCounts (s : State) (p c : Nat) (f : Counters → Counters) : State :=
  { s with counters := mapMod s.counters (p * 1024 + c) {} f }

/-- The slot that holds a task (02:R17: the GTID stands for the task wherever it runs). -/
def keyOf? (s : State) (g : Word) : Option Nat := (s.slots.find? fun e => e.2.gtid == g).map (·.1)

/-- A fresh value the spec leaves open is the free value at this number (assumption 3, DESIGN CHOICE). -/
def tick (s : State) : State := { s with freeCtr := s.freeCtr + 1 }

/-- A new tag for an outstanding request, rising (assumption 4, DESIGN CHOICE). -/
def newTag (s : State) : Nat × State := (s.tagCtr, { s with tagCtr := s.tagCtr + 1 })

/-- The virtual tile of a partition that a core's tile backs (01:R9). -/
def vtileOf? (s : State) (p core : Nat) : Option Nat :=
  match mapGet s.parts p with
  | none => none
  | some x => (x.vmap.find? fun e => e.2 == tileOf core).map (·.1)

/-- The virtual tile whose memory a task's local segments map (02:R22). -/
def here (s : State) : Nat := (s.vtileOf? s.task.part (coreOf s.cur)).getD 0

end State

end Sys2Proof.Machine
end

