-- ==== Sys2Proof/Machine/Crypto.lean ====
section
/-! DEFINITION. The published algorithms the spec names: AES-256 (FIPS 197), GCM (SP 800-38D), key unwrap (SP 800-38F),
SHA-384 (FIPS 180-4), HMAC and HKDF (RFC 5869). Byte strings are lists in the order they are printed (24:R361). -/

namespace Sys2Proof.Machine.Crypto

/-- Big-endian number of a byte string, and its bytes. -/
def beNat (bs : List Byte) : Nat := bs.foldl (fun n b => n * 256 + b.toNat) 0
def beBytes (n x : Nat) : List Byte := (leBytes n x).reverse

def xorBytes (a b : List Byte) : List Byte := List.zipWith (· ^^^ ·) a b

/-! ### AES-256 -/

/-- Multiplication in GF(2^8) modulo x^8 + x^4 + x^3 + x + 1. -/
def xtime (a : Nat) : Nat := if a < 128 then 2 * a else (2 * a ^^^ 0x11B) % 256

def gfMulFrom (a b acc : Nat) : Nat → Nat
  | 0 => acc
  | n + 1 => gfMulFrom (xtime a) (b / 2) (if b % 2 = 1 then acc ^^^ a else acc) n

def gfMul (a b : Nat) : Nat := gfMulFrom a b 0 8

/-- a^254, the inverse of a, and 0 of 0. -/
def gfInv (a : Nat) : Nat :=
  let a2 := gfMul a a
  let a4 := gfMul a2 a2
  let a8 := gfMul a4 a4
  let a16 := gfMul a8 a8
  let a32 := gfMul a16 a16
  let a64 := gfMul a32 a32
  let a128 := gfMul a64 a64
  gfMul a128 (gfMul a64 (gfMul a32 (gfMul a16 (gfMul a8 (gfMul a4 a2)))))

def rotl8 (x n : Nat) : Nat := (x * 2 ^ n + x / 2 ^ (8 - n)) % 256

def sbox (x : Nat) : Nat :=
  let b := gfInv x
  b ^^^ rotl8 b 1 ^^^ rotl8 b 2 ^^^ rotl8 b 3 ^^^ rotl8 b 4 ^^^ 0x63

def invSbox (x : Nat) : Nat := gfInv (rotl8 x 1 ^^^ rotl8 x 3 ^^^ rotl8 x 6 ^^^ 0x05)

/-- The key schedule: words as four numbers, newest first while it grows. -/
def expandFrom (ws : List (List Nat)) (i rcon : Nat) : Nat → List (List Nat)
  | 0 => ws
  | n + 1 =>
    let t := ws.headD []
    let old := (ws[7]?).getD []
    let t := if i % 8 = 0 then List.zipWith (· ^^^ ·) ((t.drop 1 ++ t.take 1).map sbox) [rcon, 0, 0, 0]
      else if i % 8 = 4 then t.map sbox else t
    expandFrom (List.zipWith (· ^^^ ·) old t :: ws) (i + 1) (if i % 8 = 0 then xtime rcon else rcon) n

def chunks {α : Type} (k : Nat) (l : List α) : Nat → List (List α)
  | 0 => []
  | n + 1 => if l.isEmpty then [] else l.take k :: chunks k (l.drop k) n

def roundKeys (key : List Byte) : List (List Nat) :=
  let ws := (expandFrom (chunks 4 (key.map (·.toNat)) 8).reverse 8 1 52).reverse
  (chunks 4 ws 15).map List.flatten

/-- Column c, row r of a state is byte 4c + r. -/
def shiftRows (s : List Nat) (back : Bool) : List Nat :=
  (List.range 16).map fun i =>
    let r := i % 4
    let c := i / 4
    (s[4 * ((if back then c + 4 - r else c + r) % 4) + r]?).getD 0

def mixColumn (k : List Nat) (c : List Nat) : List Nat :=
  (List.range 4).map fun r => (List.range 4).foldl (fun acc j => acc ^^^ gfMul (k.getD ((j + 4 - r) % 4) 0) (c.getD j 0)) 0

def mixColumns (m s : List Nat) : List Nat := ((chunks 4 s 4).map (mixColumn m)).flatten

def addKey (s k : List Nat) : List Nat := List.zipWith (· ^^^ ·) s k

def encRounds (s : List Nat) : List (List Nat) → List Nat
  | [] => s
  | [k] => addKey (shiftRows (s.map sbox) false) k
  | k :: r => encRounds (addKey (mixColumns [2, 3, 1, 1] (shiftRows (s.map sbox) false)) k) r

def decRounds (s : List Nat) : List (List Nat) → List Nat
  | [] => s
  | [k] => addKey ((shiftRows s true).map invSbox) k
  | k :: r => decRounds (mixColumns [14, 11, 13, 9] (addKey ((shiftRows s true).map invSbox) k)) r

def toBytes (s : List Nat) : List Byte := s.map (BitVec.ofNat 8)

def aesEnc (ks : List (List Nat)) (b : List Byte) : List Byte :=
  toBytes (encRounds (addKey (b.map (·.toNat)) (ks.headD [])) (ks.drop 1))

def aesDec (ks : List (List Nat)) (b : List Byte) : List Byte :=
  let ks := ks.reverse
  toBytes (decRounds (addKey (b.map (·.toNat)) (ks.headD [])) (ks.drop 1))

/-! ### GCM -/

/-- Multiplication in GF(2^128), bit 0 of the string being the coefficient of 1. -/
def ghMulFrom (x v z : Nat) : Nat → Nat
  | 0 => z
  | n + 1 =>
    let z := if x / 2 ^ n % 2 = 1 then z ^^^ v else z
    let v := if v % 2 = 1 then (v / 2) ^^^ (0xE1 * 2 ^ 120) else v / 2
    ghMulFrom x v z n

def ghMul (x y : Nat) : Nat := ghMulFrom x y 0 128

def pad16 (bs : List Byte) : List Byte := bs ++ List.replicate ((16 - bs.length % 16) % 16) 0

def ghash (h : Nat) (bs : List Byte) : Nat := (chunks 16 bs (bs.length / 16 + 1)).foldl (fun y b => ghMul (y ^^^ beNat b) h) 0

/-- Keystream blocks from counter 2 (24:R361). -/
def gcmStream (ks : List (List Nat)) (iv : List Byte) (n : Nat) : List Byte :=
  ((List.range ((n + 15) / 16)).map fun i => aesEnc ks (iv ++ beBytes 4 (i + 2))).flatten.take n

def gcmTag (ks : List (List Nat)) (iv aad ct : List Byte) : List Byte :=
  let h := beNat (aesEnc ks (List.replicate 16 0))
  let g := ghash h (pad16 aad ++ pad16 ct ++ beBytes 8 (8 * aad.length) ++ beBytes 8 (8 * ct.length))
  xorBytes (beBytes 16 g) (aesEnc ks (iv ++ beBytes 4 1))

/-- Ciphertext and tag of a plaintext. -/
def gcmSeal (key iv aad pt : List Byte) : List Byte × List Byte :=
  let ks := roundKeys key
  let ct := xorBytes pt (gcmStream ks iv pt.length)
  (ct, gcmTag ks iv aad ct)

/-- The plaintext, where the tag is right. -/
def gcmOpen (key iv aad ct tag : List Byte) : Option (List Byte) :=
  let ks := roundKeys key
  if gcmTag ks iv aad ct = tag then some (xorBytes ct (gcmStream ks iv ct.length)) else none

/-! ### Key unwrap -/

/-- One step of the inverse wrapping function, `t` counting down. -/
def unwrapFrom (ks : List (List Nat)) (a : List Byte) (rs : List (List Byte)) (n : Nat) : Nat → List Byte × List (List Byte)
  | 0 => (a, rs)
  | t + 1 =>
    let i := t % n
    let b := aesDec ks (xorBytes a (beBytes 8 (t + 1)) ++ (rs[i]?).getD [])
    unwrapFrom ks (b.take 8) (rs.set i (b.drop 8)) n t

/-- The wrapped key data, where the integrity check holds. -/
def unwrap (kek w : List Byte) : Option (List Byte) :=
  let n := w.length / 8 - 1
  let r := unwrapFrom (roundKeys kek) (w.take 8) (chunks 8 (w.drop 8) n) n (6 * n)
  if r.1 = List.replicate 8 0xA6 then some r.2.flatten else none

/-! ### SHA-384 -/

def isPrime (n : Nat) : Bool := 2 ≤ n && (List.range n).all fun d => d < 2 || n % d != 0
/-- The first 80 primes. -/
def primes : List Nat := (List.range 410).filter isPrime

/-- Largest r below `lo + 2^k` with r^p ≤ n. -/
def rootFrom (p n lo : Nat) : Nat → Nat
  | 0 => lo
  | k + 1 => let m := lo + 2 ^ k; rootFrom p n (if m ^ p ≤ n then m else lo) k

def roundK : List Nat := primes.map fun p => rootFrom 3 (p * 2 ^ 192) 0 67 % 2 ^ 64
def init384 : List Nat := ((primes.drop 8).take 8).map fun p => rootFrom 2 (p * 2 ^ 128) 0 67 % 2 ^ 64

def rotr (x n : Nat) : Nat := x / 2 ^ n + x % 2 ^ n * 2 ^ (64 - n)
def add64 (x y : Nat) : Nat := (x + y) % 2 ^ 64

/-- Message schedule, newest first. -/
def schedule (ws : List Nat) : Nat → List Nat
  | 0 => ws
  | n + 1 =>
    let w (i : Nat) : Nat := (ws[i]?).getD 0
    let s0 := rotr (w 14) 1 ^^^ rotr (w 14) 8 ^^^ (w 14 / 2 ^ 7)
    let s1 := rotr (w 1) 19 ^^^ rotr (w 1) 61 ^^^ (w 1 / 2 ^ 6)
    schedule (add64 (add64 s1 (w 6)) (add64 s0 (w 15)) :: ws) n

def shaRound (v : List Nat) (kw : Nat) : List Nat :=
  match v with
  | [a, b, c, d, e, f, g, h] =>
    let s1 := rotr e 14 ^^^ rotr e 18 ^^^ rotr e 41
    let ch := (e &&& f) ^^^ ((2 ^ 64 - 1 - e) &&& g)
    let t1 := add64 (add64 h s1) (add64 ch kw)
    let s0 := rotr a 28 ^^^ rotr a 34 ^^^ rotr a 39
    let maj := (a &&& b) ^^^ (a &&& c) ^^^ (b &&& c)
    [add64 t1 (add64 s0 maj), a, b, c, add64 d t1, e, f, g]
  | _ => v

def shaBlock (hs : List Nat) (b : List Byte) : List Nat :=
  let ws := (schedule ((chunks 8 b 16).map beNat).reverse 64).reverse
  List.zipWith add64 hs ((List.zipWith add64 roundK ws).foldl shaRound hs)

def sha384 (m : List Byte) : List Byte :=
  let z := (128 - (m.length + 17) % 128) % 128
  let p := m ++ [0x80] ++ List.replicate z 0 ++ beBytes 16 (8 * m.length)
  (((chunks 128 p (p.length / 128)).foldl shaBlock init384).take 6).flatMap (beBytes 8)

/-! ### HMAC and HKDF with SHA-384 -/

def hmac (key m : List Byte) : List Byte :=
  let k := if 128 < key.length then sha384 key else key
  let k := k ++ List.replicate (128 - k.length) 0
  sha384 (k.map (· ^^^ 0x5C) ++ sha384 (k.map (· ^^^ 0x36) ++ m))

/-- 32 bytes of HKDF output, one block of the expansion. -/
def hkdf (ikm salt info : List Byte) : List Byte := (hmac (hmac salt ikm) (info ++ [1])).take 32

/-- ASCII bytes of a label (23:R343). -/
def label (s : String) : List Byte := s.toList.map fun c => BitVec.ofNat 8 c.toNat

end Sys2Proof.Machine.Crypto
end

