-- ==== Sys2Proof/Config.lean ====
section
/-! DEFINITION. What one package fixes and the spec leaves open, and the free values: constants without a body, so that no
proof can know what they are. -/

namespace Sys2Proof.Config

/-- A free 64-bit value for each number (assumption 3, DESIGN CHOICE). -/
opaque freeWord : Nat → BitVec 64
/-- A free 128-bit value for each number (assumption 3, DESIGN CHOICE). -/
opaque freeVec : Nat → BitVec 128
/-- A key drawn at random (23:R343, R353) for each number (assumption 3, DESIGN CHOICE). -/
opaque freeKey : Nat → BitVec 256
/-- The body key, derived from the fused root key and the firmware version (23:R343; assumption 14, DESIGN CHOICE). -/
opaque bodyKey : Nat → BitVec 256
/-- Verification of an ECDSA P-384 signature with SHA-384: public keys, message, signature (23:R350; assumption 15, DESIGN CHOICE). -/
opaque ecdsaOk : List Byte → List Byte → List Byte → Bool
/-- Verification of an LMS signature (23:R350; assumption 15, DESIGN CHOICE). -/
opaque lmsOk : List Byte → List Byte → List Byte → Bool
/-- The device's ECDSA signature of a message, 96 bytes (23:R350; assumption 15, DESIGN CHOICE). -/
opaque ecdsaSign : List Byte → BitVec 768
/-- The device's HSS signature of a message under a leaf index (23:R351; assumption 15, DESIGN CHOICE). -/
opaque lmsSign : Nat → List Byte → List Byte
/-- Certificates of the device identity (23:R350; assumption 15, DESIGN CHOICE). -/
opaque certificates : List Byte
/-- The firmware measurement of a version (23:R353; assumption 15, DESIGN CHOICE). -/
opaque measurement : Nat → List Byte
/-- Both signatures of a firmware image are good (23:R350, 29:R398; assumption 15, DESIGN CHOICE). -/
opaque imageOk : List Byte → Bool
/-- The version a firmware image names (29:R398; assumption 15, DESIGN CHOICE: the spec gives no layout). -/
opaque imageVersion : List Byte → Nat
/-- Payload of a domain message: kind, address or status, length, data (23:R354; assumption 101, DESIGN CHOICE: the spec gives no layout). -/
opaque payload : Nat → Nat → Nat → List Byte → List Byte
/-- Payload of a control message (23:R354; assumption 101, DESIGN CHOICE). -/
opaque controlPayload : Control → List Byte
/-- Address, length and data of the request that a payload of a kind holds (23:R354; assumption 101, DESIGN CHOICE). -/
opaque requestOf : Nat → List Byte → Nat × Nat × List Byte
/-- The control message a payload holds (23:R354; assumption 101, DESIGN CHOICE). -/
opaque controlOf : List Byte → Option Control
/-- Device generation to which a native body is bound (21:R326; assumption 11, DESIGN CHOICE). -/
opaque generation : BitVec 32

/-- Bytes of retained SRAM (17:R274; assumption 29, DESIGN CHOICE: the spec gives no size). -/
opaque retainedBytes : Nat

end Sys2Proof.Config
end

