-- ==== Sys2Proof/Machine/Ops.lean ====
section
/-! DEFINITION. The named operations over registers, the recorder, completion, parking, retirement and taking an
exception. -/

namespace Sys2Proof.Machine

/-! ### Cause codes (17:R270) -/

def cILLEGAL_OPCODE : BitVec 6 := 0x00
def cRESERVED_FIELD : BitVec 6 := 0x01
def cILLEGAL_IMM : BitVec 6 := 0x02
def cPRIVILEGE : BitVec 6 := 0x03
def cILLEGAL_TARGET : BitVec 6 := 0x04
def cNOT_IN_GANG : BitVec 6 := 0x05
def cFETCH_BOUND : BitVec 6 := 0x06
def cSYSCALL : BitVec 6 := 0x07
def cEMPTY_REG : BitVec 6 := 0x08
def cDELIVERY_ERROR : BitVec 6 := 0x09
def cSEGMENT_INVALID : BitVec 6 := 0x10
def cSEGMENT_RIGHTS : BitVec 6 := 0x11
def cSEGMENT_BOUND : BitVec 6 := 0x12
def cSEGMENT_FORM : BitVec 6 := 0x13
def cSEGMENT_ALIGN : BitVec 6 := 0x14
def cDEQUE_FULL : BitVec 6 := 0x15
def cMSG_TARGET : BitVec 6 := 0x16
def cBAD_DESCRIPTOR : BitVec 6 := 0x17
def cPAGE_UNMAPPED : BitVec 6 := 0x18
def cPAGE_RIGHTS : BitVec 6 := 0x19
def cRESERVED_KIND : BitVec 6 := 0x1A
def cPTE_MALFORMED : BitVec 6 := 0x1B
def cWALK_ERROR : BitVec 6 := 0x1C
def cHOST_ABORT : BitVec 6 := 0x1D
def cMIGRATION_FAIL : BitVec 6 := 0x1E
def cFORMAT : BitVec 6 := 0x20
def cDIVIDE_ZERO : BitVec 6 := 0x21
def cBAD_COMMAND : BitVec 6 := 0x28
def cENGINE_ROLE : BitVec 6 := 0x29
def cTOKEN_REG : BitVec 6 := 0x2A
def cSEM_OVERFLOW : BitVec 6 := 0x2B
def cPOWER_EXCESS : BitVec 6 := 0x2C
def cPOWER_RELEASE : BitVec 6 := 0x2D
def cSTEP : BitVec 6 := 0x2E
def cPOOL_ADDR : BitVec 6 := 0x2F
def cBKPT : BitVec 6 := 0x30
def cBREAK_ADDR : BitVec 6 := 0x31
def cWATCH : BitVec 6 := 0x32
def cSINGLE_STEP : BitVec 6 := 0x33
def cHALT_REQ : BitVec 6 := 0x34
def cTRIGGER : BitVec 6 := 0x35
def cPOISON : BitVec 6 := 0x38
def cINTEGRITY : BitVec 6 := 0x39
def cSEQ_FAULT : BitVec 6 := 0x3A
def cWORLD_REFUSED : BitVec 6 := 0x3B
def cDOMAIN_LOST : BitVec 6 := 0x3C
def cUNCORRECTABLE : BitVec 6 := 0x3D
def cTHERMAL : BitVec 6 := 0x3E
def cPOWER_ALARM : BitVec 6 := 0x3F

/-- Debug family (17:R270: bits 5:3). -/
def isDebugCause (c : BitVec 6) : Bool := c.toNat / 8 == 6
/-- Trust, integrity and environment family. -/
def isTrustCause (c : BitVec 6) : Bool := c.toNat / 8 == 7
/-- Translation family. -/
def isTransCause (c : BitVec 6) : Bool := c.toNat / 8 == 3

/-- A cause that freezes its context: a quarantine cause, or any cause that became fatal, marked by detail 1 (17:R274, R276). -/
def Due.freezes (d : Due) : Bool := isTrustCause d.cause || d.detail == 1

/-- An exception as an instruction raises it: cause, detail, segment of the faulting operand, logged address
(17:R268, R269). -/
structure Exc where
  cause : BitVec 6
  detail : Nat := 0
  seg : Option (BitVec 3) := none
  addr : Word := 0
  sub : Nat := 0                        -- kind of the access it logs (27:R406)
  async : Bool := false
  deriving DecidableEq, Repr

def exc (c : BitVec 6) : Exc := { cause := c }

/-- `ms.tcause` (17:R268). -/
def Exc.word (e : Exc) : Word :=
  word64 [(6, e.cause.toNat), (2, 0), (1, ofBool e.seg.isSome), (3, (e.seg.getD 0).toNat), (20, 0), (8, e.detail),
    (23, 0), (1, ofBool e.async)]

end Sys2Proof.Machine

namespace Sys2Proof

open Machine

/-- The cause a refused encoding raises (10:R170). -/
def DecErr.cause : DecErr → BitVec 6
  | .illegalOpcode => cILLEGAL_OPCODE
  | .reservedField => cRESERVED_FIELD
  | .illegalImm => cILLEGAL_IMM
  | .format => cFORMAT
  | .short => cFETCH_BOUND

end Sys2Proof

namespace Sys2Proof.Machine

/-! ### Registers -/

namespace Task

/-- s0 reads zero (03:R47). -/
def getS (t : Task) (r : Reg) : Word := if r = 0 then 0 else t.s[r.toNat]
def getV (t : Task) (r : Reg) : VWord := t.v[r.toNat]
/-- p0 reads all ones (03:R47). -/
def getP (t : Task) (r : BitVec 3) : PWord := if r = 0 then BitVec.allOnes 16 else t.p[r.toNat]
def getM (t : Task) (r : BitVec 3) : VWord := t.m[r.toNat]
def getG (t : Task) (r : BitVec 3) : VWord := t.g[r.toNat]

/-- A write to s0 is ignored (03:R47); a write clears an error mark (17:R271). -/
def putS (t : Task) (r : Reg) (x : Word) : Task :=
  if r = 0 then t else { t with s := t.s.set r.toNat x, sErr := t.sErr &&& ~~~((1 : BitVec 32) <<< r.toNat) }
def putV (t : Task) (r : Reg) (x : VWord) : Task :=
  { t with v := t.v.set r.toNat x, vErr := t.vErr &&& ~~~((1 : BitVec 32) <<< r.toNat) }
def putP (t : Task) (r : BitVec 3) (x : PWord) : Task := if r = 0 then t else { t with p := t.p.set r.toNat x }
def putM (t : Task) (r : BitVec 3) (x : VWord) : Task := { t with m := t.m.set r.toNat x }
def putG (t : Task) (r : BitVec 3) (x : VWord) : Task := { t with g := t.g.set r.toNat x }

/-- Full/empty bit; s0 is always full (03:R47). -/
def full (t : Task) : RegId → Bool
  | .s r => r == 0 || t.sFull.getLsbD r.toNat
  | .v r => t.vFull.getLsbD r.toNat
  | .m r => t.mFull.getLsbD r.toNat

def setFull (t : Task) (r : RegId) (b : Bool) : Task :=
  match r with
  | .s r => if r = 0 then t else
      { t with sFull := if b then t.sFull ||| (1 <<< r.toNat) else t.sFull &&& ~~~((1 : BitVec 32) <<< r.toNat) }
  | .v r => { t with vFull := if b then t.vFull ||| (1 <<< r.toNat) else t.vFull &&& ~~~((1 : BitVec 32) <<< r.toNat) }
  | .m r => { t with mFull := if b then t.mFull ||| (1 <<< r.toNat) else t.mFull &&& ~~~((1 : BitVec 8) <<< r.toNat) }

/-- Error mark of a register (17:R271). -/
def err (t : Task) : RegId → Bool
  | .s r => r != 0 && t.sErr.getLsbD r.toNat
  | .v r => t.vErr.getLsbD r.toNat
  | .m _ => false

def setErr (t : Task) : RegId → Task
  | .s r => if r = 0 then t else { t with sErr := t.sErr ||| (1 <<< r.toNat) }
  | .v r => { t with vErr := t.vErr ||| (1 <<< r.toNat) }
  | .m _ => t

/-- `MarkEmpty` (09:R157). -/
def markEmpty (t : Task) (r : RegId) : Task := t.setFull r false

def putReg (t : Task) (r : RegId) (x : VWord) : Task :=
  match r with
  | .s r => t.putS r (x.setWidth 64)
  | .v r => t.putV r x
  | .m r => t.putM r x

/-- `Deliver` (09:R157): writes and fills in one step; an error is marked after the write (17:R271). -/
def deliver (t : Task) (r : RegId) (x : VWord) (err : Bool) : Task :=
  let t := (t.putReg r x).setFull r true
  if err then t.setErr r else t

/-- Note that a delivery fills a register in cycle `now` (03:R51). -/
def filled (t : Task) (now : Nat) (r : RegId) : Task :=
  { t with fills := r :: if t.fillCycle = now then t.fills else [], fillCycle := now }

/-- A delivery has filled the register in this very cycle: a read sees it empty, and issues again (03:R51). -/
def fresh (t : Task) (now : Nat) (r : RegId) : Bool := t.fillCycle == now && t.fills.contains r

/-- Bit 0 of the guard (10:R166). -/
def guard0 (t : Task) (g : Guard) : Bool := (t.getP g.pred).getLsbD 0 != g.neg

/-- The guard value over the byte lanes (10:R166). -/
def guardBits (t : Task) (g : Guard) : PWord := if g.neg then ~~~(t.getP g.pred) else t.getP g.pred

/-- A number for each register, to record when its value may be read (10:R173). -/
def code : RegId → Nat
  | .s r => r.toNat
  | .v r => 32 + r.toNat
  | .m r => 64 + r.toNat

def pcode (r : BitVec 3) : Nat := 72 + r.toNat

/-- A result of latency L issued in cycle t may be read from t + L (10:R173); latency 1 needs no note, since a slot never
issues in two cycles running. -/
def late (t : Task) (c now lat : Nat) : Task :=
  { t with lats := if lat ≤ 1 then mapErase t.lats c else mapSet (t.lats.filter fun e => decide (now < e.2)) c (now + lat) }

/-- `WriteReg` of a result with its latency (09:R157, 10:R173). -/
def writeS (t : Task) (now : Nat) (d : Reg) (x : Word) (lat : Nat) : Task :=
  if d = 0 then t else (t.putS d x).late (code (.s d)) now lat
def writeV (t : Task) (now : Nat) (d : Reg) (x : VWord) (lat : Nat) : Task := (t.putV d x).late (code (.v d)) now lat
def writeP (t : Task) (now : Nat) (d : BitVec 3) (x : PWord) (lat : Nat) : Task :=
  if d = 0 then t else (t.putP d x).late (pcode d) now lat

/-- Back in the rotation: a task woken in cycle `now` issues in the next one at the earliest (02:R40; assumption 2, DESIGN CHOICE). -/
def woken (t : Task) (now : Nat) : Task := { t with run := .resident, holdUntil := max t.holdUntil (now + 1) }

end Task

/-- What reading an instruction's registers gives (03:R49 to R51, 17:R271, R272). -/
inductive Gate
  | ok
  | park (r : RegId)
  | again                               -- a register fills in this very cycle: the instruction issues again
  | raise (c : BitVec 6)
  deriving DecidableEq, Repr

/-- The first source that traps: an error mark, or an empty register whose field selects trap (17:R272, field order). A register
that fills in this cycle does neither. -/
def gateTrap (now : Nat) (t : Task) : List (RegId × Bool) → Option (BitVec 6)
  | [] => none
  | (r, eb) :: rest =>
    if t.fresh now r then gateTrap now t rest
    else if t.err r then some cDELIVERY_ERROR
    else if !t.full r && eb then some cEMPTY_REG
    else gateTrap now t rest

/-- Read the sources in field order (09:R156, R157), then look at the destinations: one that awaits a delivery parks the instruction
as a blocking read does, whatever the bits of the source fields say (03:R50; assumption 16, DEDUCED). The destinations given here are
those of an instruction that has nothing to check between its reads and its write; `toWrite` looks at the others. -/
def gate (now : Nat) (t : Task) (dsts : List RegId) (srcs : List (RegId × Bool)) : Gate :=
  match gateTrap now t srcs with
  | some c => .raise c
  | none =>
    match (srcs.map (·.1) ++ dsts).find? fun r => !t.full r with
    | some r => .park r
    | none => if (srcs.map (·.1) ++ dsts).any (t.fresh now) then .again else .ok

/-! ### The recorder (27:R386, R387) -/

/-- GTID as a record holds it: bits 44:42 over bits 36:0 (27:R387). -/
def recGtid (g : Word) : Nat := field g.toNat 0 37 + field g.toNat 42 3 * 2 ^ 37

/-- A record (27:R387). -/
def recWord (kind world slot sub : Nat) (g : Word) (time pay : Nat) : VWord :=
  BitVec.ofNat 128 (packFields [(40, pay), (32, time), (40, recGtid g), (4, sub), (4, slot), (4, world), (4, kind)])

/-- Records in the queue of a core at cycle `now`: its ring takes four a cycle (27:R386). -/
def Recorder.queued (r : Recorder) (now : Nat) : Nat := r.backlog - 4 * (now - r.backAt)

/-- Write a record into a ring: held or frozen rings take none, and a capture counts down (27:R384, R386, R388). -/
def Recorder.put (r : Recorder) (now : Nat) (w : VWord) : Recorder :=
  if r.frozen.isSome then r
  else
    let r := { r with backlog := r.queued now + 1, backAt := now }
    match r.capture with
    | some 0 => r
    | some (n + 1) => { r with ring := (r.ring ++ [w]).drop (r.ring.length + 1 - 4096), capture := some n }
    | none => { r with ring := (r.ring ++ [w]).drop (r.ring.length + 1 - 4096) }

/-- An access has not been performed. -/
def Acc.pending (a : Acc) : Bool :=
  match a.st with
  | .flying => true
  | .blocked => true
  | .waiting => true
  | _ => false

/-! ### Term counters (05:R94, R95, 18:R293) -/

/-- A term counter as cycle `now` reads it: what commands add in that cycle it does not show yet, so that a clear of that cycle comes
before them (18:R293). -/
def Counters.term (k : Counters) (now i : Nat) : Word :=
  (mapGet k.terms i).getD 0 + if k.addedAt = now then 0 else (mapGet k.added i).getD 0

def addAll (m : Map Word) (l : List (Nat × Word)) : Map Word := l.foldl (fun m e => mapMod m e.1 0 fun x => x + e.2) m

/-- Add what a command counts, when it completes. -/
def Counters.count (k : Counters) (now : Nat) (l : List (Nat × Nat)) : Counters :=
  let add := l.map fun (e : Nat × Nat) => (e.1, BitVec.ofNat 64 e.2)
  if k.addedAt = now then { k with added := addAll k.added add }
  else { k with terms := addAll k.terms k.added, added := addAll [] add, addedAt := now }

/-- `termclr`: counts of the same cycle remain, and a second clear of that cycle finds nothing else (18:R293). -/
def Counters.clearTerms (k : Counters) (now : Nat) : Counters :=
  if k.clearedAt = some now then k
  else { k with terms := if k.addedAt = now then k.added else [], added := [], clearedAt := some now }

namespace State

def worldOfCore (s : State) (c : Nat) : BitVec 4 := (s.worldOf.toList[dieOf c]?).getD 0

/-- A record of a slot's task into its core's ring. -/
def record (s : State) (key : Nat) (kind sub : Nat) (g : Word) (pay : Nat) : State :=
  let c := coreOf key
  s.modCore c fun k =>
    { k with recorder := k.recorder.put s.cycle (recWord kind (s.worldOfCore c).toNat (slotOf key) sub g s.cycle pay) }

/-- A scheduler record (27:R387): row or cause, and GTID bits 41:37. -/
def recordSched (s : State) (key sub row : Nat) (g : Word) : State :=
  s.record key 0x4 sub g (field g.toNat 37 5 + row * 2 ^ 34)

/-! ### Status registers -/

/-- `ms.status` (03:R59). -/
def statusOf (s : State) (t : Task) (core : Nat) : Word :=
  let pol := ((s.partOf? t.part).map (·.pol)).getD false
  let priv := match t.priv with
    | .task => 0
    | .supervisor => 1
    | .firmware => 2
  word64 [(1, ofBool t.fpend), (1, ofBool t.gang.isSome), (1, ofBool t.tile.isSome), (1, 0), (2, t.domain.toNat), (1, 0),
    (1, ofBool pol), (2, priv), (2, 0), (4, (s.worldOfCore core).toNat), (32, t.fmtword.toNat), (16, 0)]

/-! ### Capsules as running code sees them -/

def capsule? (s : State) (part capid : Nat) : Option Capsule :=
  match s.partOf? part with
  | none => none
  | some p => p.capsules.find? fun c => c.capid == capid

/-- The supervisor capsule of a partition (17:R265; assumption 17, DESIGN CHOICE). -/
def supCapsule? (s : State) (part : Nat) : Option Capsule :=
  match s.partOf? part with
  | none => none
  | some p => match p.supCap with
    | none => none
    | some id => p.capsules.find? fun c => c.capid == id

/-- The capsule a task's code comes from at its level (17:R265). -/
def codeOf? (s : State) (t : Task) : Option Capsule :=
  match t.priv with
  | .task => s.capsule? t.part t.capid
  | _ => s.supCapsule? t.part

end State

def Capsule.boundary? (c : Capsule) (off : Nat) : Option Boundary := c.rmap.find? fun b => b.off == off
/-- The offset of an instruction that the `fmt` of a boundary prefixes (12:R201, 21:R328). -/
def Capsule.prefixed (c : Capsule) (off : Nat) : Bool := c.rmap.any fun b => b.kind == 2 && b.off + 8 == off
/-- A landing point of the capsule (11:R177). -/
def Capsule.lands (c : Capsule) (off : Word) : Bool := ((c.boundary? off.toNat).map (·.land)).getD false

/-- A barrier completes when every member that has not retired has arrived (02:R33). -/
def Gang.settle (g : Gang) : Gang :=
  if g.live.all g.arrived.contains then { g with arrived := [], completed := g.completed + 1 } else g

/-! ### Completion -/

namespace State

/-- What the device answers to a session. -/
def reply (s : State) (session code status : Nat) (data : List Byte) : State :=
  { s with replies := s.replies ++ [{ session := session, code := code, status := status, data := data }] }

/-- The response to a debug request (27:R376). -/
def debugReply (s : State) (session part : Nat) (id : BitVec 32) (code status : Nat) (data : List Byte) : State :=
  { s with replies := s.replies ++ [{ session := session, code := code, status := status, data := data, part := part, id := id }] }

/-- A stop record for the debugger of a partition: a request that waits for one has it at once (27:R376). -/
def postStop (s : State) (part : Nat) (r : VWord) : State :=
  match (s.partOf? part).bind (·.dbg.session) with
  | none => s
  | some n =>
    match mapGet s.sessions n with
    | none => s
    | some x =>
      if (x.waiting.any fun w => w.1 == part) then
        let ids := (x.waiting.filter fun w => w.1 == part).map (·.2.2)
        let y := { x with waiting := x.waiting.filter fun (w : Nat × Nat × BitVec 32) => w.1 != part }
        ids.foldl (fun s i => s.debugReply n part i 0x20D 0 (leBytes 16 r.toNat)) { s with sessions := mapSet s.sessions n y }
      else s.modPart part fun p => { p with dbg := { p.dbg with records := p.dbg.records ++ [r] } }

/-- Causes whose stops are the debugger's own: its end releases them (27:R375). -/
def debuggers (c : BitVec 6) : Bool := c == cBKPT || c == cBREAK_ADDR || c == cWATCH || c == cTRIGGER

/-- The portable offset of the instruction a task stands at; inside a prefixed pair its `fmt` (21:R329, 17:R273). -/
def standsAt (t : Task) : Word := if t.fpend then t.fmtPc else t.pc

/-- Write a stop record and stop a task where it stands (27:R377, R387). -/
def stopTask (s : State) (key : Nat) (cause : BitVec 6) (skid : Nat) : State :=
  let t := s.taskAt key
  let s := s.putTask key { t with stopped := true, stepping := false }
  let pay := packFields [(32, (standsAt t).toNat), (8, min skid 255)]
  let s := s.record key 0xA (cause.toNat % 8) t.gtid pay
  let s := s.modPart t.part fun p =>
    if p.dbg.session.isSome && debuggers cause then { p with dbg := { p.dbg with stops := t.gtid :: p.dbg.stops } } else p
  s.postStop t.part (recWord 0xA (s.worldOfCore (coreOf key)).toNat (slotOf key) (cause.toNat % 8) t.gtid s.cycle pay)

/-- The end of an instruction: the pc moves on, the prefix is cleared (03:R60), and a step ends (27:R381) unless the
instruction was the `fmt` of a pair (21:R329) or a firmware call, which ends with its return (18:R281). -/
def finish (s : State) (pc : Word) (prefixed : Bool) : State :=
  let t := s.task
  let t := if prefixed then { t with pc := pc }
    else { t with pc := pc, fpend := false, fmtword := 0, skipBreak := false }
  let s := s.setTask t
  if t.stepping && !prefixed && t.priv != .firmware then s.stopTask s.cur cSINGLE_STEP 0 else s

/-- Completion of an instruction of `len` bytes. -/
def complete (s : State) (len : Nat) : State := s.finish (s.task.pc + BitVec.ofNat 64 len) false

/-- Completion with a new task state. -/
def completeWith (s : State) (t : Task) (len : Nat) : State := (s.setTask t).complete len

/-- A taken branch holds its slot out of issue for the two following cycles (10:R173, 11:R178). -/
def branch (s : State) (t : Task) (pc : Word) : State :=
  (s.setTask { t with holdUntil := s.cycle + 3 }).finish pc false

/-- `Park` (09:R157): the task leaves the rotation and the instruction is reissued on the wake (02:R36). A step ends
stopped and parked, with its stop record (27:R381, R393). -/
def park (s : State) (row : Nat) (w : Wake) : State :=
  let t := s.task
  let s := s.setTask { t with run := .parked row w }
  let s := s.recordSched s.cur 1 row t.gtid
  if t.stepping then s.stopTask s.cur cSINGLE_STEP 0 else s

/-- Park on a register that is empty: row 3 for an m register, row 1 for the others (02:R36). -/
def parkOn (s : State) (r : RegId) : State :=
  s.park (match r with
    | .m _ => 3
    | _ => 1) (.full r)

/-- `WriteReg` comes after what an instruction checks (09:R157, 17:R272): a destination that awaits a delivery then parks it, and one that
fills in this very cycle lets it issue again (03:R50, R51). -/
def toWrite (s : State) (dsts : List RegId) (k : State) : State :=
  match dsts.find? fun r => !s.task.full r with
  | some r => s.parkOn r
  | none => if dsts.any (s.task.fresh s.cycle) then s else k

/-! ### Power tokens (05:R96 to R99) -/

def poolKey (core cls : Nat) : Nat := clusterOf core * 4 + cls

def pool (s : State) (part k : Nat) : Pool :=
  match s.partOf? part with
  | none => { created := 0, capacity := 0 }
  | some p => (mapGet p.pools k).getD { created := 0, capacity := 0 }

def poolFree (s : State) (part k : Nat) : Nat := (s.pool part k).capacity - (s.pool part k).inUse

def poolPut (s : State) (part k : Nat) (f : Pool → Pool) : State :=
  s.modPart part fun p => match mapGet p.pools k with
    | none => p
    | some x => { p with pools := mapSet p.pools k (f x) }

/-- Return n tokens; a pool above its capacity retires them (05:R99), which is what counting use against the capacity in
force says. -/
def poolReturn (s : State) (part k n : Nat) : State := s.poolPut part k fun p => { p with inUse := p.inUse - n }

def poolDraw (s : State) (part k n : Nat) : State := s.poolPut part k fun p => { p with inUse := p.inUse + n }

/-- Token class of an engine queue; collective commands and queue-fence entries draw none (05:R96). -/
def classOfQueue (q : Nat) : Option Nat := if q < 3 then some q else none

def Cmd.running (c : Cmd) : Bool := match c.st with
  | .started _ => true
  | .queued => false

/-- Operations of a class in progress that a task's held tokens cover (05:R97). -/
def covered (s : State) (g : Word) (cls : Nat) : Nat :=
  if cls = 3 then (s.net.sfu.filter fun r => r.owner == g && !r.drawn).length
  else s.tiles.foldl (fun n e => n + ((e.2.queues.toList[cls]?.getD []).filter fun c =>
    c.owner == g && Cmd.running c && !c.drawn).length) 0

/-- Let `n` covered operations of a class keep the tokens that cover them (05:R98); an SFU request in flight is one of these (assumption 109, DESIGN
CHOICE). -/
def keepTokens (s : State) (g : Word) (cls n : Nat) : State :=
  let mark {α : Type} (p : α → Bool) (f : α → α) (l : List α) (n : Nat) : List α × Nat :=
    l.foldl (fun acc x => if p x && decide (0 < acc.2) then (acc.1 ++ [f x], acc.2 - 1) else (acc.1 ++ [x], acc.2)) ([], n)
  if cls = 3 then
    { s with net := { s.net with
      sfu := (mark (fun r : SfuReq => r.owner == g && !r.drawn) (fun r => { r with drawn := true }) s.net.sfu n).1 } }
  else
    let step (acc : Map Tile × Nat) (e : Nat × Tile) : Map Tile × Nat :=
      let q := e.2.queues.toList[cls]?.getD []
      let r := mark (fun c : Cmd => c.owner == g && Cmd.running c && !c.drawn) (fun c => { c with drawn := true }) q acc.2
      (acc.1 ++ [(e.1, { e.2 with queues := e.2.queues.setIfInBounds cls r.1 })], r.2)
    { s with tiles := (s.tiles.foldl step ([], n)).1 }

/-- Give back `n` tokens of a class that a task holds: those that cover an operation in progress stay with it (05:R98). -/
def giveTokens (s : State) (part : Nat) (g : Word) (core cls held n : Nat) : State :=
  let use := s.covered g cls
  let free := min n (held - use)
  (s.poolReturn part (poolKey core cls) free).keepTokens g cls (n - free)

/-- Return every token a task holds (05:R98); one that is still to take its tokens back holds none of the pools'. -/
def dropTokens (s : State) (t : Task) (core : Nat) : State :=
  if t.owed then s else (List.range 4).foldl (fun s c =>
    let h := t.tokens.toList[c]?.getD 0
    if h = 0 then s else s.giveTokens t.part t.gtid core c h h) s

/-! ### Retirement (02:R24, R35, R52) -/

/-- Every access of a task that is not yet performed (07:R119): what a release waits for. -/
def unperformed (s : State) (g : Word) : Bool :=
  (s.net.accs.any fun a => a.owner == g && a.pending) || s.net.helds.any (·.owner == g)

/-- Accesses of a task issued before a tag and not yet performed (07:R119). -/
def unperformedBefore (s : State) (g : Word) (tag : Nat) : Bool :=
  (s.net.accs.any fun a => a.owner == g && decide (a.tag < tag) && a.pending) || s.net.helds.any fun h => h.owner == g && decide (h.tag < tag)

/-- A move of a task is a full fence between its accesses before and after it (07:R125). -/
def moveFence (s : State) (g : Word) : State :=
  let old := s.net.fences.filter fun f => s.unperformedBefore f.1 f.2
  { s with net := { s.net with fences := if s.unperformed g then old ++ [(g, s.tagCtr)] else old } }

def feFull (s : State) (a : Nat) : Bool := !s.feEmpty.contains a
def setFe (s : State) (a : Nat) (full : Bool) : State :=
  { s with feEmpty := if full then s.feEmpty.filter (· != a) else insNat s.feEmpty a }

/-- Part and virtual tile of a scratchpad or accumulator-store address. -/
def placeOf (a : Nat) : Nat × Nat × Nat × Bool :=
  if 2 ^ 62 ≤ a then (((a - 2 ^ 62) / 2 ^ 30), (a - 2 ^ 62) / 2 ^ 20 % 1024, (a - 2 ^ 62) % 2 ^ 20, true)
  else ((a - 2 ^ 61) / 2 ^ 31, (a - 2 ^ 61) / 2 ^ 21 % 1024, (a - 2 ^ 61) % 2 ^ 21, false)

/-- Mark the 4 KiB regions of a written range dirty (18:R286). -/
def dirty (s : State) (a n : Nat) : State :=
  if a < 2 ^ 61 ∨ n = 0 then s
  else
    let (p, vt, w, acc) := placeOf a
    let first := w / 4096 + (if acc then 512 else 0)
    let last := (w + n - 1) / 4096 + (if acc then 512 else 0)
    s.modVTile p vt fun x => { x with dirty := (List.range (last + 1 - first)).foldl (fun d i => insNat d (first + i)) x.dirty }

/-- Write bytes at a memory address. -/
def store (s : State) (a : Nat) (bs : List Byte) : State :=
  { s with mem := memWrite s.mem a bs }.dirty a bs.length

def storeNat (s : State) (a n x : Nat) : State := s.store a (leBytes n x)
def loadNat (s : State) (a n : Nat) : Nat := memNat s.mem a n

/-- Subtract 1 from a join counter and fill it at zero (02:R24). -/
def uncount (s : State) (a : Nat) : State :=
  let x := (s.loadNat a 8 + (2 ^ 64 - 1)) % 2 ^ 64
  let s := s.storeNat a 8 x
  if x = 0 then s.setFe a true else s

/-- The launch queue a launch number gives back. -/
def queueOf (id : Nat) : Nat := id % 8

/-- Every task of the package: in slots, deques and steals, saved, or given back to Caldera. -/
def everyTask (s : State) : List Task :=
  (s.slots.map (·.2)) ++ (s.deques.flatMap fun (e : Nat × Deque) => e.2.entries) ++ s.cald.steals.map (·.task)
    ++ (s.parts.flatMap fun (e : Nat × Partition) => e.2.saved.map (·.task))
    ++ s.cald.work.filterMap fun w => match w.work with
      | .root 8 _ t => some t
      | _ => none

/-- The virtual device of a partition that a launch belongs to, by its queue: 8 where none is bound, the resident one where no launch is known
(20:R317). -/
def deviceIn (s : State) (part : Nat) (launch : Option Nat) : Nat :=
  match s.partOf? part with
  | none => 8
  | some p => if p.vdevs.isEmpty then 8 else ((launch.map queueOf).orElse fun _ => p.resident).getD 8

/-- The virtual device of a task. -/
def deviceOf (s : State) (part : Nat) (g : Word) : Nat := s.deviceIn part ((s.everyTask.find? fun t => t.gtid == g).bind (·.launch))

/-- The image of a tile that a task's device uses is in Caldera's keeping: what reaches its banks waits until it is back (20:R322). -/
def tileAway (s : State) (part vt : Nat) (g : Word) : Bool := (mapGet (s.vtile part vt).saved (s.deviceOf part g)).isSome

/-! ### Banks (06:R102, R103) -/

/-- The k-th lowest set bit of a bank mask (06:R102). -/
def nthBank (mask : BitVec 16) (k : Nat) : Nat := (setBits mask.toNat 16)[k]?.getD 0

/-- The physical bank of a window address (06:R102, R103). -/
def bankOf (s : State) (part : Nat) (acc : Bool) (w : Nat) : Nat :=
  match s.partOf? part with
  | none => 0
  | some p => if acc then nthBank p.asBanks (w / 2 ^ 16) else nthBank p.spBanks (w / 2 ^ 17)

/-- An access to a bank in cycle `now`: it is delayed by 2 cycles for each access that the bank serves before it in that cycle (06:R103). -/
def bankAt (s : State) (tile now : Nat) (acc : Bool) (bank : Nat) : Nat × State :=
  let uses := (s.tile tile).bankUse.filter fun u => decide (now ≤ u.1)
  (2 * (uses.filter fun u => u == (now, acc, bank)).length, s.modTile tile fun t => { t with bankUse := uses ++ [(now, acc, bank)] })

/-- The tile that backs a partition's virtual tile (01:R9). -/
def physTile? (s : State) (part vt : Nat) : Option Nat := (s.partOf? part).bind fun p => mapGet p.vmap vt

/-- A bank of a virtual tile serves an access in this cycle. Those before it in the order of 06:R103 have been served. -/
def tileBank (s : State) (part vt : Nat) (acc : Bool) (w : Nat) : Nat × State :=
  match s.physTile? part vt with
  | none => (0, s)
  | some t => s.bankAt t s.cycle acc (s.bankOf part acc w)

/-- A join counter lies in the tile of a core, which holds what it backs (02:R24, 20:R322). -/
def counterHere (s : State) (key part : Nat) (g : Word) (a : Nat) : Bool :=
  s.vtileOf? part (coreOf key) == some (placeOf a).2.1 && !s.tileAway part (placeOf a).2.1 g

/-- The decrement of a retirement: at once for a counter of the core's own tile; for another it is a request on channel 2 to its tile's agent
(02:R24, 06:R109). -/
def sendUncount (s : State) (key part : Nat) (g : Word) (a : Nat) : State :=
  if s.counterHere key part g a then (s.tileBank part (placeOf a).2.1 false (placeOf a).2.2.1).2.uncount a
  else
    let x : Acc := { tag := s.tagCtr, owner := g, key := key, part := part, op := .uncount, place := .tile false (placeOf a).2.1 (placeOf a).2.2.1
                     dead := true, scope := 5, issued := s.cycle, left := some s.cycle }
    { s with tagCtr := s.tagCtr + 1, net := { s.net with accs := s.net.accs ++ [x] } }

/-- A slot gives its task up: `ms.tvec` and `ms.tvseg` stay with the slot for its next task (17:R267; assumption 6, DESIGN CHOICE). -/
def freeSlot (s : State) (key : Nat) : State :=
  let t := s.taskAt key
  let seg := t.tvNext.getD (if t.inHandler then t.getG 7 else t.tr.vseg)
  let s := { s with slots := mapErase s.slots key, slotTv := mapSet s.slotTv key (t.tr.vec, seg) }
  let c := coreOf key
  if (s.counts t.part c).current == some (slotOf key) then
    s.modCounts t.part c fun k => { k with current := none, runCount := 0, hint := none }
  else s

/-- Commands of a task that has ended: those not started complete with 0x01, and no token is written (17:R274, 02:R52). -/
def orphanCmds (s : State) (g : Word) : State :=
  let f (c : Cmd) : Cmd := if c.owner == g then { c with dead := true, abort := !Cmd.running c } else c
  { s with tiles := s.tiles.map fun (e : Nat × Tile) => (e.1, { e.2 with queues := e.2.queues.map fun (q : List Cmd) => q.map f }) }

/-- Deliveries to a task that has ended are discarded (02:R52): its accesses run on without a destination. -/
def orphan (s : State) (g : Word) : State :=
  let s := s.orphanCmds g
  { s with
    net := { s.net with
      accs := s.net.accs.map fun a => if a.owner == g then { a with dead := true } else a
      sfu := s.net.sfu.map fun r => if r.owner == g then { r with dead := true } else r
      landed := s.net.landed.filter (·.owner != g)
      scOps := s.net.scOps.filter (·.owner != g) }
    mmu := { s.mmu with
      walks := s.mmu.walks.filter (·.gtid != g)
      faults := s.mmu.faults.map fun f => { f with waiters := f.waiters.filter (·.gtid != g) } }
    parts := s.parts.map fun (e : Nat × Partition) => (e.1, { e.2 with
      dir := e.2.dir.map fun (d : Nat × DirEntry) => (d.1, { d.2 with waiters := d.2.waiters.filter (·.gtid != g) })
      capsules := e.2.capsules.map fun (c : Capsule) => { c with
        joiners := c.joiners.map fun j => if j.gtid == g then { j with dead := true } else j } })
    cald := { s.cald with asked := s.cald.asked.filter (·.gtid != g) } }

/-- A task gives up its places among the waiters of semaphores and pools (14:R242, 05:R97). -/
def unwait (s : State) (part : Nat) (g : Word) : State :=
  let s := { s with vtiles := s.vtiles.map fun (e : Nat × VTile) =>
    if e.1 / 1024 == part then (e.1, { e.2 with waiters := e.2.waiters.map fun (l : List SemWaiter) => l.filter (· != SemWaiter.task g) }) else e }
  s.modPart part fun p => { p with
    pools := p.pools.map fun (e : Nat × Pool) => (e.1, { e.2 with waiters := e.2.waiters.filter (· != PoolWaiter.task g) }) }

/-- A gang member leaves: it counts as arrived at every later barrier (02:R33). -/
def leaveGang (s : State) (id rank : Nat) : State :=
  match mapGet s.cald.gangs id with
  | none => s
  | some g =>
    let g := ({ g with live := g.live.filter (· != rank) } : Gang).settle
    { s with cald := { s.cald with
      gangs := if g.live.isEmpty then mapErase s.cald.gangs id else mapSet s.cald.gangs id g } }

/-- What a retirement does is a release: it is held back while an access of the task has not been performed (07:R119, R123). -/
def afterAll (s : State) (t : Task) (key : Nat) (op : HeldOp) (now : State) : State :=
  if s.unperformed t.gtid then
    { s with tagCtr := s.tagCtr + 1, net := { s.net with helds := s.net.helds ++ [(⟨s.tagCtr, t.gtid, key, t.part, op, 0, 0⟩ : Held)] } }
  else now

/-- A root of a launch has retired (20:R314). -/
def rootDone (s : State) (t : Task) : State :=
  if !t.root then s
  else match t.launch with
    | none => s
    | some id => { s with cald := { s.cald with
        launches := s.cald.launches.map fun l => if l.id == id then { l with live := l.live - 1 } else l } }

/-- A task that is in no slot any more has ended: counter, gang, launch, saved work (02:R24, R33, R35, 08:R141). Its last slot, or one of its
home core for a task that held none, sends what the retirement sends. -/
def ended (s : State) (t : Task) (key : Nat) : State :=
  let s := s.rootDone t
  let s := match t.gang with
    | none => s
    | some id => s.afterAll t key (.leave id t.grank) (s.leaveGang id t.grank)
  let s := match t.join with
    | none => s
    | some a => s.afterAll t key (.uncount a) (s.sendUncount key t.part t.gtid a)
  (s.orphan t.gtid).unwait t.part t.gtid

/-- Retire the task of a slot, by `tend` or through a trap with its cause (02:R24, R35, 27:R387). -/
def retire (s : State) (key : Nat) (cause : Nat) : State :=
  let t := s.taskAt key
  let s := s.recordSched key 6 cause t.gtid
  let s := (s.dropTokens t (coreOf key)).freeSlot key
  s.ended t key

/-- A member arrives at its gang's barrier (02:R33). -/
def arriveAt (s : State) (id rank : Nat) : State :=
  match mapGet s.cald.gangs id with
  | none => s
  | some g => { s with cald := { s.cald with
      gangs := mapSet s.cald.gangs id ({ g with arrived := insNat g.arrived rank } : Gang).settle } }

/-! ### Deques (02:R23) -/

/-- Entries of a partition on a core: its share of the 64 hardware entries, at least 4, and its extension. -/
def dequeCap (p : Partition) : Nat := max 4 (64 * popCount p.slots.toNat 16 / 16) + p.dequeExt

def dequeRoom (s : State) (part core : Nat) : Bool :=
  match s.partOf? part with
  | none => false
  | some p => decide ((s.deque part core).length < dequeCap p)

def pushBottom (s : State) (core : Nat) (t : Task) : State := s.setDeque t.part core (t :: s.deque t.part core)
def pushTop (s : State) (core : Nat) (t : Task) : State := s.setDeque t.part core (s.deque t.part core ++ [t])

/-- `hint.yield` under greedy-then-oldest moves the current slot on; under round-robin it does nothing (02:R38, R39). -/
def hintYield (s : State) : State :=
  let t := s.task
  if ((s.partOf? t.part).map (·.pol)).getD false then s
  else s.modCounts t.part (coreOf s.cur) fun k => { k with hint := some s.cycle }

/-- A task leaves its slot for the top of its core's deque (13:R236). Its tokens go back as at a pre-emption, and it takes them back
before it resumes (05:R98). A task that a debugger steps keeps its slot: its step ends there (27:R377, R381, R383; assumption 95,
DEDUCED). -/
def yieldTask (s : State) (t : Task) : State :=
  if t.stepping then (s.setTask t).stopTask s.cur cSINGLE_STEP 0
  else
  let c := coreOf s.cur
  let s := s.recordSched s.cur 3 0 t.gtid
  let s := (((s.setTask t).dropTokens t c).freeSlot s.cur).moveFence t.gtid
  s.pushTop c { t with yieldedAt := some s.cycle, lastIssue := none, holdUntil := 0, waitCount := 0, lats := []
                       owed := t.owed || t.tokens.toList.any fun n => decide (0 < n) }

/-- A yield leaves the slot for every task but a gang member, while the deque or its extension has room (13:R236). -/
def canYield (s : State) : Bool :=
  let t := s.task
  t.gang.isNone && s.dequeRoom t.part (coreOf s.cur)

/-! ### Taking an exception (17:R270 to R273) -/

/-- Bytes of a 64-byte event record (25:R368; assumption 18, DESIGN CHOICE for the places the spec does not give). -/
def eventRecord (type part : Nat) (tcause tpc taddr : Word) : List Byte :=
  leBytes 1 type ++ leBytes 1 0 ++ leBytes 2 part ++ leBytes 4 0 ++ leBytes 8 tcause.toNat ++ leBytes 8 tpc.toNat
    ++ leBytes 8 taddr.toNat ++ leBytes 32 0

/-- Number of records of a ring, from its base (20:R312). -/
def ringSize (base : Nat) : Nat := 2 ^ (base % 16 + 4)
/-- Address of a ring's header: an address of 52 bits, as those of segments (20:R312, 06:R100; assumption 39, DESIGN CHOICE). -/
def ringAt (base : Nat) : Nat := base / 4096 * 4096 % 2 ^ 52

/-- The controller's own time (29:R396; assumption 75, DESIGN CHOICE). -/
def ownTime (s : State) : Nat := s.mgmt.own + s.cycle

/-- A record in the management log, under the package cycle, or the controller's own time before the cycle counter runs; full, it loses its
oldest (29:R396: 16 MiB of 64-byte records; assumption 75, DESIGN CHOICE). -/
def logPut (s : State) (kind : Nat) (world : BitVec 4) (payload : List Byte) : State :=
  let r : LogRec := { kind := kind, time := if s.mgmt.counting then s.cycle else s.ownTime, world := world, payload := payload.take 48 }
  { s with mgmt := { s.mgmt with log := (s.mgmt.log ++ [r]).drop (s.mgmt.log.length + 1 - 262144) } }

/-- Post an event record for the host: a full ring sets `hl.status` bit 0 and drops the record; the log keeps it
(25:R368). No ring, no record. -/
def postEvent (s : State) (rec : List Byte) : State :=
  let s := s.logPut 1 0 (rec.take 48)
  if s.hl.evring = 0 then s
  else
    let b := hostBase + ringAt s.hl.evring.toNat
    let k := ringSize s.hl.evring.toNat
    let head := s.loadNat b 8
    let tail := s.loadNat (b + 8) 8
    if (tail + 2 ^ 64 - head) % 2 ^ 64 ≥ k then { s with hl := { s.hl with status := s.hl.status ||| 1 } }
    else (s.store (b + 64 + tail % k * 64) rec).storeNat (b + 8) 8 (tail + 1)

/-- Ask every core of a partition to give its tasks up (20:R321). -/
def requestPreempt (s : State) (part : Nat) (hold : Bool) (gtids : List Word) : State :=
  match s.partOf? part with
  | none => s
  | some p =>
    let new : List Preempt := p.cores.map fun c => ⟨part, c, s.cycle, hold, gtids, []⟩
    { s with cald := { s.cald with preempts := s.cald.preempts ++ new } }

/-- A core of a die that is present, on a tile that is not fused off (01:R8, 29:R400). -/
def corePresent (s : State) (c : Nat) : Bool :=
  decide (c < 1024) && s.mgmt.start.dies.getLsbD (dieOf c) && !s.mgmt.fused.contains (tileOf c)

/-- A freeze is on its way to every core of the package (27:R388). -/
def spreadFreeze (s : State) (z : Freeze) : State :=
  let s := { s with dbg := { s.dbg with freeze := some z } }
  ((List.range 1024).filter s.corePresent).foldl (fun s c => s.modCore c fun k => { k with recorder := { k.recorder with freezeDue := some z } }) s

/-- The freeze of a fatal cause (17:R276, 27:R388): at the core that raised it, the freeze arrives in its own cycle; the
others take it when it reaches them. A second one before the gather has ended is only logged. -/
def raiseFreeze (s : State) (core : Nat) (cause : BitVec 6) (world : BitVec 4) : State :=
  if s.dbg.freeze.isSome then
    s.logPut 3 world [cause.setWidth 8]
  else
    s.spreadFreeze { cause := cause.toNat, opkg := s.pkgNo.toNat, ocore := core, cycle := s.cycle }

/-- Change every task wherever it is: in a slot, a deque, a steal, saved, or returned to Caldera's queue. -/
def mapTasks (s : State) (u : Task → Task) : State :=
  let inWork (w : QueuedWork) : QueuedWork := match w.work with
    | .root q o t => { w with work := .root q o (u t) }
    | _ => w
  { s with
    slots := s.slots.map fun (e : Nat × Task) => (e.1, u e.2)
    deques := s.deques.map fun (e : Nat × Deque) => (e.1, ⟨e.2.entries.map u⟩)
    parts := s.parts.map fun (e : Nat × Partition) => (e.1, { e.2 with saved := e.2.saved.map fun v => { v with task := u v.task } })
    cald := { s.cald with steals := s.cald.steals.map fun v => { v with task := u v.task }, work := s.cald.work.map inWork } }

/-- A fatal cause (17:R276): every context of the world is quarantined at its next boundary, the recorder freezes, the
controller logs the event and starts recovery. -/
def fatal (s : State) (core : Nat) (cause : BitVec 6) : State :=
  let w := s.worldOfCore core
  let d : Due := { cause := cause, detail := 1, cycle := s.cycle }
  let s := s.mapTasks fun t => if ((s.partOf? t.part).map (·.world)).getD w == w then { t with due := d :: t.due } else t
  let s := s.raiseFreeze core cause w
  let s := s.logPut 2 w [cause.setWidth 8]
  let s := { s with mgmt := { s.mgmt with recoverDue := s.mgmt.recoverDue.filter (· != some w) ++ [some w] } }
  s.postEvent (eventRecord 3 0 (BitVec.ofNat 64 cause.toNat) 0 0)

/-- Firmware takes a supervisor trap (17:R270): the slot's task ends as a retirement through a trap, the partition stops,
and the firmware copy of the trap state goes to the host driver. -/
def toFirmware (s : State) (e : Exc) (retPc : Word) : State :=
  let t := s.task
  let fw : TrapRegs := { t.fw with cause := e.word, pc := retPc, addr := e.addr, status := s.statusOf t (coreOf s.cur) }
  let s := s.setTask { t with fw := fw }
  let s := s.retire s.cur e.cause.toNat
  let s := s.modPart t.part fun p => { p with stopped := true }
  let s := s.requestPreempt t.part true []
  s.postEvent (eventRecord 1 t.part fw.cause fw.pc fw.addr)

/-- Entry to the supervisor's handler (17:R273): saved registers, g7 exchanged with `ms.tvseg`, the prefix cleared, the
level raised, the pc at `ms.tvec`. It counts as a taken branch. -/
def enterSupervisor (s : State) (e : Exc) (retPc : Word) : State :=
  let t := s.task
  let tr : TrapRegs := { t.tr with cause := e.word, pc := retPc, addr := e.addr, status := s.statusOf t (coreOf s.cur),
                                   vseg := t.getG 7 }
  -- it waits for no semaphore and no token any more (14:R242, 05:R97)
  (s.unwait t.part t.gtid).setTask { (t.putG 7 t.tr.vseg) with
    tr := tr, fpend := false, fmtword := 0, priv := .supervisor, inHandler := true, pc := t.tr.vec, run := .resident
    codeBase := none, codeBound := none
    holdUntil := s.cycle + 3, skipBreak := false, stepping := false }

/-- The return point: inside a prefixed pair, the pair's `fmt` (17:R273, 21:R329). -/
def returnPoint (s : State) (pc : Word) : Word := if s.task.fpend then s.task.fmtPc else pc

/-- The record of a logged memory address that follows a trap record, with `sub` as for the access (27:R406). -/
def recordTrapAddr (s : State) (e : Exc) : State :=
  let g := s.task.gtid
  if isTransCause e.cause || e.cause == cPOOL_ADDR then s.record s.cur 0x3 e.sub g (field e.addr.toNat 12 40)
  else if e.cause == cDELIVERY_ERROR then
    if e.addr.getLsbD 63 then
      s.record s.cur 0x2 (e.sub + if e.addr.getLsbD 62 then 8 else 0) g
        (field e.addr.toNat 0 21 + field e.addr.toNat 48 10 * 2 ^ 30)
    else s.record s.cur 0x3 e.sub g (field e.addr.toNat 12 40)
  else s

/-- Take an exception at the current slot with its return point (17:R270, R273). -/
def takeAt (s : State) (e : Exc) (retPc : Word) : State :=
  let t := s.task
  let pc := s.returnPoint retPc
  if isTrustCause e.cause then
    -- quarantine at the context's next boundary (17:R274); fatal at firmware privilege
    if t.priv = .firmware then s.fatal (coreOf s.cur) e.cause
    else s.setTask { t with due := { cause := e.cause, addr := e.addr, cycle := s.cycle } :: t.due }
  else if isDebugCause e.cause && (t.priv = .firmware) then s
  else if isDebugCause e.cause && (e.cause != cBKPT || (((s.partOf? t.part).map (·.dbg.session.isSome)).getD false)) then
    s.stopTask s.cur e.cause 0
  else
    let step := t.stepping
    let s := s.record s.cur 0x5 0 t.gtid (packFields [(34, pc.toNat % 2 ^ 32), (6, e.cause.toNat)])
    let s := s.recordTrapAddr e
    -- a debug cause is routed at supervisor privilege as at task privilege (17:R270)
    match (if isDebugCause e.cause then Priv.task else t.priv) with
    | .firmware => s.fatal (coreOf s.cur) e.cause
    | .supervisor => s.toFirmware e pc
    | .task =>
      let ok := ((s.supCapsule? t.part).map (·.lands t.tr.vec)).getD false
      if ok then
        let s := s.enterSupervisor e pc
        if step then s.stopTask s.cur cSINGLE_STEP 0 else s
      else s.toFirmware { cause := cILLEGAL_TARGET, detail := e.cause.toNat, addr := t.tr.vec } pc

/-- Take a precise exception: the instruction has had no effect and the return point names it (17:R271). -/
def trap (s : State) (e : Exc) : State := s.takeAt e s.task.pc

def trapC (s : State) (c : BitVec 6) : State := s.trap (exc c)

/-- An exception of a source register (03:R49, 17:R271): DELIVERY_ERROR logs the address in `ms.aerr`, which only a read
clears (assumption 38, DEDUCED). -/
def trapSource (s : State) (c : BitVec 6) : State :=
  s.trap { cause := c, addr := if c == cDELIVERY_ERROR then s.task.tr.aerr else 0, sub := if c == cDELIVERY_ERROR then s.task.errSub else 0 }

/-! ### The frame of an encoded instruction -/

/-- What every scalar, memory, control and engine instruction shares: no prefix is accepted (03:R60), a false guard performs
nothing (10:R166), then the registers are read (09:R156) and the body runs on the task. -/
def plainG (s : State) (g : Guard) (len : Nat) (dsts : List RegId) (srcs : List (RegId × Bool)) (body : Task → State) :
    State :=
  let t := s.task
  if t.fpend then s.trapC cFORMAT
  else if !t.guard0 g then s.complete len
  else match gate s.cycle t dsts srcs with
    | .park r => s.parkOn r
    | .raise c => s.trapSource c
    | .again => s
    | .ok => body t

def plain (s : State) (f : Form) (dsts : List RegId) (srcs : List (RegId × Bool)) (body : Task → State) : State :=
  s.plainG f.guard f.bytes dsts srcs body

/-- A privileged instruction: check 4 of 10:R170 comes before the prefix. -/
def privileged (s : State) (body : State) : State := if s.task.priv = .task then s.trapC cPRIVILEGE else body

end State

end Sys2Proof.Machine
end

