-- ==== Sys2Proof/Machine/Flags.lean ====
section
/-! DEFINITION. Values computed from operands: the scalar results of 11:R182 to R187, the conditions that compares turn into
predicates (the CQ9 has no flags register: 11:R188), saturation, and lane activity (03:R57). -/

namespace Sys2Proof.Machine

/-! ### Scalar results (11:R182, R183) -/

def i64Min : Int := -(2 ^ 63)
def i64Max : Int := 2 ^ 63 - 1
def n64Max : Int := 2 ^ 64 - 1

/-- Saturate an exact result to i64 or n64 (11:R183, 04:R66). -/
def satI64 (x : Int) : Word := BitVec.ofInt 64 (clampInt i64Min i64Max x)
def satN64 (x : Int) : Word := BitVec.ofInt 64 (clampInt 0 n64Max x)

def addVal (sat uns : Bool) (a b : Word) : Word :=
  if !sat then a + b else if uns then satN64 (a.toNat + b.toNat) else satI64 (a.toInt + b.toInt)

def subVal (sat uns : Bool) (a b : Word) : Word :=
  if !sat then a - b else if uns then satN64 ((a.toNat : Int) - b.toNat) else satI64 (a.toInt - b.toInt)

def shlVal (a b : Word) : Word := if 64 ≤ b.toNat then 0 else a <<< b.toNat
def shrVal (a b : Word) : Word := if 64 ≤ b.toNat then 0 else a >>> b.toNat
def sraVal (a b : Word) : Word := if 64 ≤ b.toNat then (if a.msb then BitVec.allOnes 64 else 0) else a.sshiftRight b.toNat
def rolVal (a b : Word) : Word := a.rotateLeft (b.toNat % 64)
def rorVal (a b : Word) : Word := a.rotateRight (b.toNat % 64)
def minVal (a b : Word) : Word := if a.toInt ≤ b.toInt then a else b
def maxVal (a b : Word) : Word := if a.toInt ≤ b.toInt then b else a
def minuVal (a b : Word) : Word := if a.toNat ≤ b.toNat then a else b
def maxuVal (a b : Word) : Word := if a.toNat ≤ b.toNat then b else a
def shNaddVal (n : Nat) (a b : Word) : Word := (a <<< n) + b

/-- Leading zero bits among the low n bits (11:R185). -/
def leadZeros (x : Nat) : Nat → Nat
  | 0 => 0
  | n + 1 => if x / 2 ^ n % 2 = 1 then 0 else 1 + leadZeros x n

/-- Trailing zero bits, n at most (11:R185). -/
def trailZeros (x : Nat) : Nat → Nat
  | 0 => 0
  | n + 1 => if x % 2 = 1 then 0 else 1 + trailZeros (x / 2) n

def clzVal (a : Word) : Word := BitVec.ofNat 64 (leadZeros a.toNat 64)
def ctzVal (a : Word) : Word := BitVec.ofNat 64 (trailZeros a.toNat 64)
def popcVal (a : Word) : Word := BitVec.ofNat 64 (popCount a.toNat 64)

/-- a[w−1:0] sign-extended; w above 64 is clamped, w = 0 gives 0 (11:R185). -/
def sextVal (a b : Word) : Word := BitVec.ofInt 64 (BitVec.ofNat (min b.toNat 64) a.toNat).toInt
def zextVal (a b : Word) : Word := BitVec.ofNat 64 (a.toNat % 2 ^ (min b.toNat 64))

/-- Offset and width of a control value (11:R186). -/
def ctlOff (c : Word) : Nat := c.toNat % 128
def ctlWidth (c : Word) : Nat := min (c.toNat / 256 % 128) 64

def bextVal (a c : Word) : Word :=
  let f := ctlOff c
  let w := ctlWidth c
  if 64 ≤ f ∨ w = 0 then 0 else BitVec.ofNat 64 (a.toNat / 2 ^ f % 2 ^ (min w (64 - f)))

def binsVal (d a c : Word) : Word :=
  let f := ctlOff c
  let w := ctlWidth c
  if f < 64 ∧ 0 < w then BitVec.ofNat 64 (setField d.toNat f (min w (64 - f)) a.toNat) else d

/-! ### Multiply and divide (11:R187) -/

def mulhVal (a b : Word) : Word := BitVec.ofInt 64 (a.toInt * b.toInt / 2 ^ 64)
def mulhuVal (a b : Word) : Word := BitVec.ofNat 64 (a.toNat * b.toNat / 2 ^ 64)
def mulhsuVal (a b : Word) : Word := BitVec.ofInt 64 (a.toInt * (b.toNat : Int) / 2 ^ 64)
def divVal (a b : Word) : Word := BitVec.ofInt 64 (a.toInt.tdiv b.toInt)
def divuVal (a b : Word) : Word := BitVec.ofNat 64 (a.toNat / b.toNat)
def remVal (a b : Word) : Word := a - b * divVal a b
def remuVal (a b : Word) : Word := a - b * divuVal a b

/-! ### Conditions (11:R188) -/

inductive Cond
  | eq
  | ne
  | lt
  | ge
  | ltu
  | geu
  deriving DecidableEq, Repr

def Cond.holds : Cond → Word → Word → Bool
  | .eq, a, b => a == b
  | .ne, a, b => a != b
  | .lt, a, b => decide (a.toInt < b.toInt)
  | .ge, a, b => decide (b.toInt ≤ a.toInt)
  | .ltu, a, b => decide (a.toNat < b.toNat)
  | .geu, a, b => decide (b.toNat ≤ a.toNat)

/-- Literals are zero-extended for `ltu` and `geu`, sign-extended for the others. -/
def Cond.signed : Cond → Bool
  | .ltu => false
  | .geu => false
  | _ => true

/-- Every bit of a predicate set alike (11:R188). -/
def spread (b : Bool) : PWord := if b then BitVec.allOnes 16 else 0

/-! ### Lanes (03:R57, R61) -/

/-- Bits of a predicate that an element governs: its bytes; the two E2M1 elements of a byte share one. -/
def laneBit (ty : BitVec 5) (i : Nat) : Nat := i * elemBits ty / 8

/-- `Active(i, T)` under the guard value (09:R157). -/
def active (gb : PWord) (ty : BitVec 5) (i : Nat) : Bool := gb.getLsbD (laneBit ty i)

/-- The bits of an element in a predicate: one for each byte, at least one. -/
def laneMask (ty : BitVec 5) (i : Nat) : PWord :=
  BitVec.ofNat 16 ((2 ^ (max 1 (elemBits ty / 8)) - 1) * 2 ^ laneBit ty i)

/-- Set all bits of an element to one value (03:R57). -/
def setLane (p : PWord) (ty : BitVec 5) (i : Nat) (b : Bool) : PWord :=
  if b then p ||| laneMask ty i else p &&& ~~~(laneMask ty i)

/-- Element i of a vector as a number; `Elem` of 09:R157. -/
def elem (v : VWord) (ty : BitVec 5) (i : Nat) : Nat := field v.toNat (i * elemBits ty) (elemBits ty)

def putElem (v : VWord) (ty : BitVec 5) (i x : Nat) : VWord :=
  BitVec.ofNat 128 (setField v.toNat (i * elemBits ty) (elemBits ty) x)

end Sys2Proof.Machine
end

