-- ==== Sys2Proof/Machine/Float.lean ====
section
/-! DEFINITION. Floating-point and MX values: decoding, exact arithmetic on dyadic numbers, and the one rounding of
04:R67 to R77. -/

namespace Sys2Proof.Machine

/-- A value: NaN, an infinity, or exactly (−1)^neg · m · 2^e. -/
inductive FVal
  | nan
  | inf (neg : Bool)
  | fin (neg : Bool) (m : Nat) (e : Int)
  deriving DecidableEq, Repr

/-- A floating-point format (04:R67): mantissa and exponent bits, bias, whether it has infinities and NaNs, its canonical NaN
(R72) and the encoding of its largest finite value. -/
structure Fmt where
  mb : Nat
  eb : Nat
  bias : Nat
  infs : Bool
  hasNan : Bool
  nan : Nat
  maxBits : Nat
  deriving DecidableEq, Repr

def f32 : Fmt := ⟨23, 8, 127, true, true, 0x7FC00000, 0x7F7FFFFF⟩
def f16 : Fmt := ⟨10, 5, 15, true, true, 0x7E00, 0x7BFF⟩
def bf16 : Fmt := ⟨7, 8, 127, true, true, 0x7FC0, 0x7F7F⟩
def e5m2 : Fmt := ⟨2, 5, 15, true, true, 0x7E, 0x7B⟩
def e4m3 : Fmt := ⟨3, 4, 7, false, true, 0x7F, 0x7E⟩
def e3m2 : Fmt := ⟨2, 3, 3, false, false, 0, 0x1F⟩
def e2m3 : Fmt := ⟨3, 2, 1, false, false, 0, 0x1F⟩
def e2m1 : Fmt := ⟨1, 2, 1, false, false, 0, 0x7⟩

/-- The format of an element-type code; an MX code names its element format (10:R164, 04:R75). -/
def fmtOf (ty : BitVec 5) : Option Fmt :=
  match ty.toNat with
  | 0x08 => some f32
  | 0x09 => some f16
  | 0x0A => some bf16
  | 0x0B | 0x11 => some e5m2
  | 0x0C | 0x12 => some e4m3
  | 0x0D | 0x13 => some e3m2
  | 0x0E | 0x14 => some e2m3
  | 0x0F | 0x15 => some e2m1
  | _ => none

/-- The value of an encoding (04:R67). -/
def Fmt.decode (f : Fmt) (x : Nat) : FVal :=
  let s := x / 2 ^ (f.eb + f.mb) % 2 == 1
  let e := x / 2 ^ f.mb % 2 ^ f.eb
  let m := x % 2 ^ f.mb
  if f.infs && e == 2 ^ f.eb - 1 then (if m = 0 then .inf s else .nan)
  else if !f.infs && f.hasNan && x % 2 ^ (f.eb + f.mb) == f.nan then .nan
  else if e = 0 then .fin s m (1 - (f.bias : Int) - f.mb)
  else .fin s (m + 2 ^ f.mb) ((e : Int) - f.bias - f.mb)

/-! ### Rounding (04:R71, R73, R74) -/

/-- Rounding modes (10:R165): 0 rne, 1 rtz, 2 rup, 3 rdn. -/
abbrev Rnd := BitVec 2

/-- Whether a magnitude with quotient `n` and remainder `r` of `2^k` goes up in magnitude. -/
def roundsUp (rnd : Rnd) (neg : Bool) (n r k : Nat) : Bool :=
  match rnd.toNat with
  | 0 => decide (2 ^ k < 2 * r) || (decide (2 * r = 2 ^ k) && decide (n % 2 = 1) && decide (r ≠ 0))
  | 1 => false
  | 2 => !neg && decide (r ≠ 0)
  | _ => neg && decide (r ≠ 0)

/-- m · 2^e rounded to a multiple of 2^q, as that multiple. -/
def roundMag (rnd : Rnd) (neg : Bool) (m : Nat) (e q : Int) : Nat :=
  if q ≤ e then m * 2 ^ (e - q).toNat
  else
    let k := (q - e).toNat
    m / 2 ^ k + ofBool (roundsUp rnd neg (m / 2 ^ k) (m % 2 ^ k) k)

/-- A rounded encoding, and what 04:R74 counts it as. -/
structure Rounded where
  bits : Nat
  clamp : Bool := false
  under : Bool := false
  deriving DecidableEq, Repr

def Fmt.signed (f : Fmt) (neg : Bool) (x : Nat) : Nat := x + ofBool neg * 2 ^ (f.eb + f.mb)

/-- Overflow (04:R73). -/
def Fmt.overflow (f : Fmt) (rnd : Rnd) (sat neg : Bool) : Rounded :=
  let toInf : Bool := match rnd.toNat with
    | 0 => true
    | 1 => false
    | 2 => !neg
    | _ => neg
  if f.infs && !sat && toInf then ⟨f.signed neg ((2 ^ f.eb - 1) * 2 ^ f.mb), false, false⟩
  else ⟨f.signed neg f.maxBits, true, false⟩

/-- Round once to the format: the spacing is that of the value's binade, unbounded above, and that of the subnormals
below (04:R71). -/
def Fmt.round (f : Fmt) (rnd : Rnd) (sat : Bool) : FVal → Rounded
  | .nan => ⟨f.nan, false, false⟩
  | .inf neg => if f.infs then ⟨f.signed neg ((2 ^ f.eb - 1) * 2 ^ f.mb), false, false⟩ else ⟨f.signed neg f.maxBits, true, false⟩
  | .fin neg m e =>
    if m = 0 then ⟨f.signed neg 0, false, false⟩
    else
      let qmin : Int := 1 - (f.bias : Int) - f.mb
      let q : Int := max ((Nat.log2 m : Int) + e - f.mb) qmin
      let n := roundMag rnd neg m e q
      let x := if n < 2 ^ f.mb then n else (q - qmin + 1).toNat * 2 ^ f.mb + (n - 2 ^ f.mb)
      if f.maxBits < x then f.overflow rnd sat neg
      else ⟨f.signed neg x, false, decide (x = 0)⟩

/-- Round to an integer and saturate to `lo` to `hi` (04:R73). -/
def roundInt (rnd : Rnd) (lo hi : Int) : FVal → Int
  | .nan => 0
  | .inf neg => if neg then lo else hi
  | .fin neg m e =>
    let n : Int := roundMag rnd neg m e 0
    clampInt lo hi (if neg then -n else n)

/-! ### Exact arithmetic -/

/-- The signed integer at exponent `q`, which is at most the value's own. -/
def scaled (neg : Bool) (m : Nat) (e q : Int) : Int :=
  let x : Int := m * 2 ^ (e - q).toNat
  if neg then -x else x

def ofScaled (zeroNeg : Bool) (x q : Int) : FVal :=
  if x = 0 then .fin zeroNeg 0 0 else .fin (decide (x < 0)) x.natAbs q

def FVal.neg : FVal → FVal
  | .nan => .nan
  | .inf s => .inf (!s)
  | .fin s m e => .fin (!s) m e

def FVal.abs : FVal → FVal
  | .nan => .nan
  | .inf _ => .inf false
  | .fin _ m e => .fin false m e

/-- Exact sum; an exact zero takes its sign as IEEE 754-2019 says (04:R71). -/
def FVal.add (rnd : Rnd) : FVal → FVal → FVal
  | .nan, _ => .nan
  | _, .nan => .nan
  | .inf s, .inf t => if s = t then .inf s else .nan
  | .inf s, .fin _ _ _ => .inf s
  | .fin _ _ _, .inf t => .inf t
  | .fin s m e, .fin t n f =>
    let q := min e f
    ofScaled (if s = t then s else rnd == 3) (scaled s m e q + scaled t n f q) q

def FVal.mul : FVal → FVal → FVal
  | .nan, _ => .nan
  | _, .nan => .nan
  | .inf s, .inf t => .inf (s != t)
  | .inf s, .fin t n _ => if n = 0 then .nan else .inf (s != t)
  | .fin s m _, .inf t => if m = 0 then .nan else .inf (s != t)
  | .fin s m e, .fin t n f => .fin (s != t) (m * n) (e + f)

/-- Times 2^k, exactly. -/
def FVal.scale (k : Int) : FVal → FVal
  | .fin s m e => .fin s m (e + k)
  | x => x

def FVal.isNan : FVal → Bool
  | .nan => true
  | _ => false

/-- A key whose order is that of the values, with −0 below +0; NaN has none. -/
def FVal.lt : FVal → FVal → Bool
  | .nan, _ => false
  | _, .nan => false
  | .inf s, .inf t => s && !t
  | .inf s, .fin _ _ _ => s
  | .fin _ _ _, .inf t => !t
  | .fin s m e, .fin t n f => let q := min e f; decide (scaled s m e q < scaled t n f q)

/-- Numeric equality: +0 equals −0 (12:R206). -/
def FVal.eqv (a b : FVal) : Bool := !a.isNan && !b.isNan && !a.lt b && !b.lt a

def FVal.sign : FVal → Bool
  | .nan => false
  | .inf s => s
  | .fin s _ _ => s

/-- Minimum and maximum, −0 below +0; NaN when either is (12:R206). -/
def FVal.min (a b : FVal) : FVal :=
  if a.isNan || b.isNan then .nan else if a.lt b || (!b.lt a && a.sign) then a else b
def FVal.max (a b : FVal) : FVal :=
  if a.isNan || b.isNan then .nan else if b.lt a || (!a.lt b && b.sign) then a else b

/-! ### Values of elements (04:R67 to R69, R75) -/

/-- 2^(x − 127), or NaN (04:R68). -/
def e8m0Value (x : Nat) : FVal := if x % 256 = 255 then .nan else .fin false 1 ((x % 256 : Nat) - 127)

def ofInt (x : Int) (e : Int) : FVal := .fin (decide (x < 0)) x.natAbs e

/-- Value of an element of a floating-point or MX type, `x` being its encoding and `sc` the E8M0 scale that an MX element
takes. -/
def elemValue (ty : BitVec 5) (sc x : Nat) : FVal :=
  let v := match fmtOf ty with
    | some f => f.decode (x % 2 ^ (1 + f.eb + f.mb))
    | none => if ty.toNat = 0x10 then e8m0Value x else if isInt ty then ofInt (if isSigned ty then signOf x (elemBits ty) else x) 0
      else ofInt (signOf x 8) (-6)
  if !isMx ty then v else if sc % 256 = 255 then .nan else v.scale ((sc % 256 : Nat) - 127)

/-- MXINT8: the nearest multiple of 2^−6, saturated at ±127 × 2^−6 (04:R77). -/
def roundMxInt (rnd : Rnd) : FVal → Rounded
  | .nan => ⟨0, false, false⟩
  | .inf neg => ⟨wrapTo 8 (if neg then -127 else 127), true, false⟩
  | .fin neg m e =>
    let n := roundMag rnd neg m e (-6)
    let x : Int := if neg then -(min n 127 : Nat) else (min n 127 : Nat)
    ⟨wrapTo 8 x, decide (127 < n), decide (m ≠ 0) && decide (n = 0)⟩

/-- Round to the element format of a type, floating-point or MX. An MX element that overflows saturates as in the E4M3 row of 04:R73; an
infinite source stays infinite where the element format has infinities (12:R212, 04:R73, R74; assumption 47, DEDUCED). -/
def roundTo (ty : BitVec 5) (rnd : Rnd) (sat : Bool) (v : FVal) : Rounded :=
  match fmtOf ty with
  | some f => f.round rnd (sat || isMx ty) v
  | none => roundMxInt rnd v

end Sys2Proof.Machine
end

