-- ==== Sys2Proof/Machine/Special.lean ====
section
/-! DEFINITION. The functions of 12:R215 as numbers: an exact value where the result is dyadic, and otherwise a lower and
an upper bound that lie within 2^−790 of each other, relative to the fixed point of `sfuP` bits. -/

namespace Sys2Proof.Machine

/-- Bits after the point. -/
def sfuP : Nat := 840
def sfuOne : Int := 2 ^ sfuP
/-- A bound on the truncation errors of every series below. -/
def sfuErr : Int := 2 ^ 40

/-- Sum of ±t_i / (2i + 1) with t_{i+1} = t_i · num / den, `n` terms: the odd series of atanh and atan. -/
def oddSeries (sgn num den : Int) : Nat → Int → Int → Int → Int
  | 0, _, _, acc => acc
  | n + 1, t, i, acc => oddSeries sgn num den n (sgn * (t * num / den)) (i + 2) (acc + t / i)

/-- atanh(1/k), and atan(1/k). -/
def atanhInv (k : Int) : Int := oddSeries 1 1 (k * k) 430 (sfuOne / k) 1 0
def atanInv (k : Int) : Int := oddSeries (-1) 1 (k * k) 430 (sfuOne / k) 1 0

def ln2Fix : Int := 2 * atanhInv 3
/-- π/2 by Machin's formula. -/
def halfPiFix : Int := 2 * (4 * atanInv 5 - atanInv 239)

/-- A dyadic number in fixed point, rounded down. -/
def toFix (neg : Bool) (m : Nat) (e : Int) : Int :=
  let k := e + sfuP
  let x : Int := if 0 ≤ k then m * 2 ^ k.toNat else m / 2 ^ (-k).toNat
  if neg then -x else x

/-- Sum of t_i with t_{i+1} = sgn · t_i · r / (i (i + step)) …: Taylor series of exp (step 0), sin and cos (step 1). -/
def expSeries (r : Int) : Nat → Int → Int → Int → Int
  | 0, _, _, acc => acc
  | n + 1, t, i, acc => expSeries r n (t * r / sfuOne / i) (i + 1) (acc + t)

def trigSeries (r2 : Int) : Nat → Int → Int → Int → Int
  | 0, _, _, acc => acc
  | n + 1, t, i, acc => trigSeries r2 n (-(t * r2 / sfuOne / (i * (i + 1)))) (i + 2) (acc + t)

/-- e^x as n · 2^k, n in fixed point. -/
def expFix (x : Int) : Int × Int :=
  let k := (2 * x + ln2Fix) / (2 * ln2Fix)
  (expSeries (x - k * ln2Fix) 180 sfuOne 1 0, k)

/-- e^−x in fixed point for x ≥ 0. -/
def expNegFix (x : Int) : Int :=
  let r := expFix (-x)
  r.1 / 2 ^ (-r.2).toNat

/-- sin and cos of a reduced argument. -/
def sinFix (r : Int) : Int := trigSeries (r * r / sfuOne) 100 r 2 0
def cosFix (r : Int) : Int := trigSeries (r * r / sfuOne) 100 sfuOne 1 0

/-- ln of m · 2^e, m > 0. -/
def lnFix (m : Nat) (e : Int) : Int :=
  let l := Nat.log2 m
  let z := (((m : Int) - 2 ^ l) * sfuOne) / ((m : Int) + 2 ^ l)
  (e + l) * ln2Fix + 2 * oddSeries 1 (z * z / sfuOne) sfuOne 280 z 1 0

inductive SfuFn
  | exp
  | log
  | rcp
  | rsqrt
  | sqrt
  | sin
  | cos
  | tanh
  | sigm
  deriving DecidableEq, Repr

/-- A result: exact, or between two values of one sign. -/
inductive SfuOut
  | exact (v : FVal)
  | between (lo hi : FVal)
  deriving DecidableEq, Repr

/-- n · 2^(k − sfuP) with the error bound. -/
def around (n k : Int) : SfuOut :=
  let neg := decide (n < 0)
  let m : Int := n.natAbs
  .between (.fin neg (m - sfuErr).toNat (k - sfuP)) (.fin neg (m + sfuErr).toNat (k - sfuP))

def one : FVal := .fin false 1 0
/-- Below every magnitude of a format, or above it. -/
def tiny : FVal := .fin false 1 (-2000)
def huge : FVal := .fin false 1 2000
/-- Just below 1. -/
def nearOne (neg : Bool) : FVal := .fin neg (2 ^ 2000 - 1) (-2000)

/-- The magnitude is at least 2^k: 512 for the exponentials, 256 for the hyperbolic tangent, whose distance from 1 falls twice as fast. -/
def farAway (k : Int) (m : Nat) (e : Int) : Bool := decide (k ≤ (Nat.log2 m : Int) + e)

/-- q with a sticky bit below it, at exponent e. -/
def sticky (neg : Bool) (q : Nat) (exact : Bool) (e : Int) : FVal := .fin neg (2 * q + ofBool (!exact)) (e - 1)

/-- 1 / (m · 2^e): a quotient long enough for one rounding. -/
def rcpVal (neg : Bool) (m : Nat) (e : Int) : FVal :=
  let k := Nat.log2 m + 200
  sticky neg (2 ^ k / m) (2 ^ k % m == 0) (-(k : Int) - e)

/-- √(m · 2^e). -/
def sqrtVal (m : Nat) (e : Int) : FVal :=
  let x := if e % 2 = 0 then m * 2 ^ 400 else m * 2 ^ 401
  let q := Nat.sqrt x
  sticky false q (q * q == x) ((e - e % 2) / 2 - 200)

/-- 1 / √(m · 2^e). -/
def rsqrtVal (m : Nat) (e : Int) : FVal :=
  let m := if e % 2 = 0 then m else m * 2
  let e := (e - e % 2) / 2
  let k := Nat.log2 m + 200
  let q := Nat.sqrt (2 ^ (2 * k) / m)
  sticky false q (q * q * m == 2 ^ (2 * k)) (-(k : Int) - e)

/-- Quarter turns and the reduced argument. -/
def trigReduce (x : Int) : Int × Int :=
  let q := (2 * x + halfPiFix) / (2 * halfPiFix)
  (q % 4, x - q * halfPiFix)

def sinQuarter (q r : Int) : Int := if q = 0 then sinFix r else if q = 1 then cosFix r else if q = 2 then -(sinFix r) else -(cosFix r)

/-- The value of a function (12:R215). -/
def sfuValue (f : SfuFn) (x : FVal) : SfuOut :=
  match x with
  | .nan => .exact .nan
  | .inf neg =>
    match f with
    | .exp => .exact (if neg then .fin false 0 0 else .inf false)
    | .log | .rsqrt | .sqrt =>
      .exact (if neg then .nan else if f = .rsqrt then .fin false 0 0 else .inf false)
    | .rcp => .exact (.fin neg 0 0)
    | .sin | .cos => .exact .nan
    | .tanh => .exact (.fin neg 1 0)
    | .sigm => .exact (if neg then .fin false 0 0 else one)
  | .fin neg m e =>
    if m = 0 then
      match f with
      | .exp | .cos => .exact one
      | .log => .exact (.inf true)
      | .rcp | .rsqrt => .exact (.inf neg)
      | .sqrt | .sin | .tanh => .exact (.fin neg 0 0)
      | .sigm => .exact (.fin false 1 (-1))
    else
      match f with
      | .exp =>
        if farAway 9 m e then .exact (if neg then tiny else huge)
        else let r := expFix (toFix neg m e); around r.1 r.2
      | .log =>
        if neg then .exact .nan
        else if 2 ^ Nat.log2 m = m ∧ (Nat.log2 m : Int) + e = 0 then .exact (.fin false 0 0)
        else around (lnFix m e) 0
      | .rcp => .exact (rcpVal neg m e)
      | .rsqrt => .exact (if neg then .nan else rsqrtVal m e)
      | .sqrt => .exact (if neg then .nan else sqrtVal m e)
      | .sin => let r := trigReduce (toFix neg m e); around (sinQuarter r.1 r.2) 0
      | .cos => let r := trigReduce (toFix neg m e); around (sinQuarter ((r.1 + 1) % 4) r.2) 0
      | .tanh =>
        if farAway 8 m e then .exact (nearOne neg)
        else
          let w := expNegFix (2 * toFix false m e)
          let y := (sfuOne - w) * sfuOne / (sfuOne + w)
          around (if neg then -y else y) 0
      | .sigm =>
        if farAway 9 m e then .exact (if neg then tiny else nearOne false)
        else
          let w := expNegFix (toFix false m e)
          around (if neg then w * sfuOne / (sfuOne + w) else sfuOne * sfuOne / (sfuOne + w)) 0

/-- The rounded encoding; none where the bounds round apart. -/
def sfuRound (ty : BitVec 5) (rnd : Rnd) (sat : Bool) : SfuOut → Option Nat
  | .exact v => some (roundTo ty rnd sat v).bits
  | .between lo hi =>
    let a := (roundTo ty rnd sat lo).bits
    if a = (roundTo ty rnd sat hi).bits then some a else none

end Sys2Proof.Machine
end

