-- ==== Sys2Proof/Machine/Operands.lean ====
section
/-! DEFINITION. Operand forms: literals and immediates (09:R152, 10:R163), memory operands and post-increment (09:R148,
10:R160), the segment checks (03:R55, R56, 06:R100 to R102, 13:R217) and access to tile memory. -/

namespace Sys2Proof

open Machine

/-- A 32-bit literal extended as its instruction says (09:R152). -/
def litVal (signed : Bool) (l : BitVec 32) : Word := if signed then l.signExtend 64 else l.setWidth 64

def Src.val (t : Task) (signed : Bool) : Src → Word
  | .reg r _ => t.getS r
  | .lit l => litVal signed l

def Src.reads : Src → List (RegId × Bool)
  | .reg r e => [(.s r, e)]
  | .lit _ => []

def Src.vreads : Src → List (RegId × Bool)
  | .reg r e => [(.v r, e)]
  | .lit _ => []

def FSrc.vreads : FSrc → List (RegId × Bool)
  | .reg r e => [(.v r, e)]
  | _ => []

def Imm.val (signed : Bool) : Imm → Word
  | .i13 x => if signed then x.signExtend 64 else x.setWidth 64
  | .lit l => litVal signed l

def Disp.val : Disp → Word
  | .i8 x => x.signExtend 64
  | .lit l => l.signExtend 64

/-! ### Memory operands -/

/-- The offset o: the immediate through s0, else the pointer register (10:R160). -/
def MemOp.offset (t : Task) (m : MemOp) : Word := if m.ptr = 0 then m.disp.val else t.getS m.ptr

def MemOp.reads (m : MemOp) : List (RegId × Bool) := if m.ptr = 0 then [] else [(.s m.ptr, m.ea)]

/-- The post-increment, written when the access has passed its checks (09:R148). -/
def MemOp.bump (m : MemOp) (t : Task) : Task := if m.pinc then t.putS m.ptr (t.getS m.ptr + m.disp.val) else t

/-- What the increment adds, for an access that completes later. -/
def MemOp.bumpBy (m : MemOp) : Option (Reg × Word) := if m.pinc then some (m.ptr, m.disp.val) else none

end Sys2Proof

namespace Sys2Proof.Machine

/-! ### Segments (03:R55) -/

structure Segment where
  space : Nat
  rd : Bool
  wr : Bool
  at_ : Bool
  en : Bool
  target : Nat
  base : Nat
  limit : Nat
  deriving DecidableEq, Repr

def segOf (g : VWord) : Segment :=
  let n := g.toNat
  { space := field n 124 4, rd := g.getLsbD 123, wr := g.getLsbD 122, at_ := g.getLsbD 121, en := g.getLsbD 120
    target := field n 110 10, base := field n 52 52, limit := field n 0 52 }

/-- Bound of base + limit (03:R55). -/
def spaceBound (space : Nat) : Nat :=
  if space = 1 ∨ space = 3 then 2 ^ 21 else if space = 2 ∨ space = 6 then 2 ^ 20 else 2 ^ 52

/-- What a written segment breaks (03:R55, 18:R280): none, or the cause and the logged value. -/
def segWriteBad (tiles : Nat) (g : VWord) : Option (BitVec 6 × Word) :=
  let x := segOf g
  if 7 ≤ x.space ∨ field g.toNat 104 6 ≠ 0 then some (cSEGMENT_INVALID, 0)
  else if (x.space = 3 ∨ x.space = 6) ∧ tiles ≤ x.target then some (cSEGMENT_INVALID, 0)
  else if ¬(x.space = 3 ∨ x.space = 6) ∧ x.target ≠ 0 then some (cSEGMENT_INVALID, 0)
  else if x.space ≠ 0 ∧ spaceBound x.space < x.base + x.limit then some (cSEGMENT_BOUND, BitVec.ofNat 64 x.limit)
  else none

/-- Rights an access needs (03:R55, R56). -/
structure Need where
  rd : Bool := false
  wr : Bool := false
  at_ : Bool := false
  en : Bool := false
  deriving DecidableEq, Repr

def Segment.allows (x : Segment) (n : Need) : Bool :=
  (!n.rd || x.rd) && (!n.wr || x.wr) && (!n.at_ || x.at_) && (!n.en || x.en)

/-- Banks owned (06:R102). -/
def spWindow (p : Partition) : Nat := popCount p.spBanks.toNat 16 * 2 ^ 17
def asWindow (p : Partition) : Nat := popCount p.asBanks.toNat 16 * 2 ^ 16

/-- `SegCheck` in the order of 13:R217: space, path, size and alignment, rights, bound, banks. `align` is the natural
alignment asked of the address, 1 where any is accepted; `asOnly` lists the sizes an accumulator store accepts. -/
def segCheck (p : Option Partition) (g : VWord) (o n : Nat) (need : Need) (spaces : List Nat) (align : Nat)
    (asSizes : List Nat) : Except (BitVec 6) (Segment × Nat) :=
  let x := segOf g
  if x.space = 0 ∨ 7 ≤ x.space then .error cSEGMENT_INVALID
  else if !spaces.contains x.space then .error cSEGMENT_FORM
  else if (x.space = 2 ∨ x.space = 6) ∧ !asSizes.contains n then .error cSEGMENT_ALIGN
  else if (x.base + o) % align ≠ 0 then .error cSEGMENT_ALIGN
  else if !x.allows need then .error cSEGMENT_RIGHTS
  else if x.limit ≤ o ∨ x.limit - o < n then .error cSEGMENT_BOUND
  else
    let window := match p with
      | none => 0
      | some p => if x.space = 2 ∨ x.space = 6 then asWindow p else spWindow p
    if (x.space ≤ 3 ∨ x.space = 6) ∧ window < x.base + o + n then .error cSEGMENT_BOUND
    else .ok (x, x.base + o)

namespace State

/-- Check a memory operand of the current task. -/
def check (s : State) (seg : BitVec 3) (o n : Nat) (need : Need) (spaces : List Nat) (align : Nat) (asSizes : List Nat) :
    Except Exc (Segment × Nat) :=
  match segCheck (s.partOf? s.task.part) (s.task.getG seg) o n need spaces align asSizes with
  | .ok x => .ok x
  | .error c => .error { cause := c, seg := some seg, addr := BitVec.ofNat 64 o }

/-- The virtual tile a tile segment maps: the task's own tile, or its target (02:R22, 06:R100). -/
def tileOfSeg (s : State) (x : Segment) : Nat := if x.space = 3 ∨ x.space = 6 then x.target else s.here

/-- Memory address of byte `a` of a tile segment. -/
def tileAddr (part : Nat) (acc : Bool) (vt a : Nat) : Nat :=
  if acc then asBase part vt + a else spBase part vt + a

end State

end Sys2Proof.Machine
end

