-- ==== Sys2Proof/Machine/VectorInt.lean ====
section
/-! DEFINITION. Predicate generation, moves and integer SIMD (12:R195, R196, R202 to R205, R209 to R211). -/

namespace Sys2Proof.Machine

namespace State

/-- A vector instruction that takes no prefix: it reads its sources whatever the guard (10:R166, 12:R196, R199). -/
def vplain (s : State) (dsts : List RegId) (srcs : List (RegId × Bool)) (body : Task → State) : State :=
  let t := s.task
  if t.fpend then s.trapC cFORMAT
  else match gate s.cycle t dsts srcs with
    | .park r => s.park 1 (.full r)
    | .raise c => s.trapSource c
    | .again => s
    | .ok => body t

/-- A vector instruction that writes v registers: it also reads their old values, whatever the guard and whether it keeps an element or
not (12:R196; assumption 81, DEDUCED for those that keep none). -/
def vmerge (s : State) (dsts : List Reg) (srcs : List (RegId × Bool)) (body : Task → State) : State :=
  s.vplain [] (srcs ++ dsts.map fun d => (.v d, false)) body

end State

/-- The merging rule: each active element is written, the others keep their value (12:R196). -/
def lanewise (gb : PWord) (ty : BitVec 5) (d : VWord) (f : Nat → Nat) : VWord :=
  (List.range (lanesOf ty)).foldl (fun acc i => if active gb ty i then putElem acc ty i (f i) else acc) d

/-- Every element is written (12:R196, "whole"). -/
def wholeLanes (ty : BitVec 5) (f : Nat → Nat) : VWord :=
  (List.range (lanesOf ty)).foldl (fun acc i => putElem acc ty i (f i)) 0

/-- A predicate with each active element set to one truth value (12:R203, R209). -/
def laneFlags (gb : PWord) (ty : BitVec 5) (p : PWord) (f : Nat → Bool) : PWord :=
  (List.range (lanesOf ty)).foldl (fun acc i => if active gb ty i then setLane acc ty i (f i) else acc) p

/-! ### Predicate generation -/

/-- Elements that `vwhile` visits: for E2M1 the even ones, whose pair shares a bit (12:R209). -/
def whileLanes (ty : BitVec 5) : List Nat :=
  (List.range (lanesOf ty)).filter fun i => elemBits ty != 4 || i % 2 == 0

def execVwhile (g : Guard) (ty : BitVec 5) (d : BitVec 3) (a : Reg) (ea : Bool) (b : Reg) (eb : Bool) (s : State) : Out :=
  .next (s.vplain [] [(.s a, ea), (.s b, eb)] fun t =>
    let gb := t.guardBits g
    let p := (whileLanes ty).foldl (fun acc i =>
      if active gb ty i then setLane acc ty i (decide ((t.getS a).toNat + i < (t.getS b).toNat)) else acc) (t.getP d)
    s.completeWith (t.writeP s.cycle d p 1) 8)

def execPcnt (ty : BitVec 5) (d : Reg) (a : BitVec 3) (s : State) : Out :=
  .next (s.vplain [.s d] [] fun t =>
    let n := ((List.range (lanesOf ty)).filter fun i => active (t.getP a) ty i).length
    s.completeWith (t.writeS s.cycle d (BitVec.ofNat 64 n) 1) 8)

/-! ### Moves (12:R211) -/

/-- What a move writes of an element: E3M2 and E2M3 keep bits 5:0 (04:R69). -/
def moved (ty : BitVec 5) (x : Nat) : Nat :=
  if [0x0D, 0x0E, 0x13, 0x14].contains ty.toNat then x % 64 else x % 2 ^ elemBits ty

def execVmov (o : VUn) (s : State) : Out :=
  .next (s.vmerge [o.d] [(.v o.a, o.ea)] fun t =>
    let r := lanewise (t.guardBits o.f.guard) o.ty (t.getV o.d) fun i => moved o.ty (elem (t.getV o.a) o.ty i)
    s.completeWith (t.writeV s.cycle o.d r 2) o.f.bytes)

def execVbcast (o : VUn) (s : State) : Out :=
  .next (s.vmerge [o.d] [(.s o.a, o.ea)] fun t =>
    let r := lanewise (t.guardBits o.f.guard) o.ty (t.getV o.d) fun _ => moved o.ty (t.getS o.a).toNat
    s.completeWith (t.writeV s.cycle o.d r 2) o.f.bytes)

def execVins (o : VIdxArgs) (s : State) : Out :=
  .next (s.plain o.f [] [(.s o.a, o.ea), (.v o.d, false)] fun t =>
    s.completeWith (t.writeV s.cycle o.d (putElem (t.getV o.d) o.ty o.k.toNat (moved o.ty (t.getS o.a).toNat)) 2) o.f.bytes)

def execVext (o : VIdxArgs) (s : State) : Out :=
  .next (s.plain o.f [.s o.d] [(.v o.a, o.ea)] fun t =>
    let x := moved o.ty (elem (t.getV o.a) o.ty o.k.toNat)
    let r : Word := if isSigned o.ty then BitVec.ofInt 64 (signOf x (elemBits o.ty)) else BitVec.ofNat 64 x
    s.completeWith (t.writeS s.cycle o.d r 2) o.f.bytes)

/-- An index is an element of its type: bits 7:6 of an E3M2 or E2M3 element are ignored (04:R69; assumption 82, DEDUCED). -/
def execVperm (o : VMovArgs) (s : State) : Out :=
  .next (s.vmerge [o.d] [(.v o.a, o.ea), (.v o.b, o.eb)] fun t =>
    let r := lanewise (t.guardBits o.f.guard) o.ty (t.getV o.d) fun i =>
      let k := moved o.ty (elem (t.getV o.b) o.ty i)
      if k < lanesOf o.ty then moved o.ty (elem (t.getV o.a) o.ty k) else 0
    s.completeWith (t.writeV s.cycle o.d r 2) o.f.bytes)

def execVsel (o : VMovArgs) (s : State) : Out :=
  .next (s.vmerge [o.d] [(.v o.a, o.ea), (.v o.b, o.eb)] fun t =>
    let gb := t.guardBits o.f.guard
    let r := wholeLanes o.ty fun i => moved o.ty (elem (if active gb o.ty i then t.getV o.a else t.getV o.b) o.ty i)
    s.completeWith (t.writeV s.cycle o.d r 2) o.f.bytes)

/-! ### Integer SIMD (12:R202) -/

/-- An element read as the type says: signed for i types, unsigned for n types. -/
def intOf (ty : BitVec 5) (x : Nat) : Int := if isSigned ty then signOf x (elemBits ty) else x

/-- Reduce an exact result to the type: wrap, or saturate (04:R66). -/
def reduce (ty : BitVec 5) (sat : Bool) (x : Int) : Nat :=
  let w := elemBits ty
  if !sat then wrapTo w x
  else if isSigned ty then wrapTo w (clampInt (-(2 ^ (w - 1))) (2 ^ (w - 1) - 1) x)
  else wrapTo w (clampInt 0 (2 ^ w - 1) x)

/-- Element i of source B: of the register, or the broadcast literal (10:R163). -/
def vintB (t : Task) (signed : Bool) (ty : BitVec 5) (i : Nat) : Src → Nat
  | .reg r _ => elem (t.getV r) ty i
  | .lit l => (litVal signed l).toNat % 2 ^ elemBits ty

namespace State

/-- An element-wise integer minor with two sources; `f` takes the elements as raw numbers. -/
def vint2 (s : State) (o : VArgs) (signedLit : Bool) (f : Nat → Nat → Nat) : State :=
  s.vmerge [o.d] ((.v o.a, o.ea) :: o.b.vreads) fun t =>
    let r := lanewise (t.guardBits o.f.guard) o.ty (t.getV o.d) fun i =>
      f (elem (t.getV o.a) o.ty i) (vintB t signedLit o.ty i o.b)
    s.completeWith (t.writeV s.cycle o.d r 2) o.f.bytes

/-- An arithmetic minor: an exact integer operation, then reduced to the type. -/
def vintArith (s : State) (o : VArgs) (f : Int → Int → Int) : State :=
  s.vint2 o (isSigned o.ty) fun a b => reduce o.ty o.sat (f (intOf o.ty a) (intOf o.ty b))

def vint1 (s : State) (o : VUn) (f : Int → Int) : State :=
  s.vmerge [o.d] [(.v o.a, o.ea)] fun t =>
    let r := lanewise (t.guardBits o.f.guard) o.ty (t.getV o.d) fun i => reduce o.ty o.sat (f (intOf o.ty (elem (t.getV o.a) o.ty i)))
    s.completeWith (t.writeV s.cycle o.d r 2) o.f.bytes

/-- An integer compare into pD (12:R203). -/
def vintCmp (s : State) (o : VCmp) (f : Int → Int → Bool) : State :=
  s.vplain [] ((.v o.a, o.ea) :: o.b.vreads) fun t =>
    let p := laneFlags (t.guardBits o.f.guard) o.ty (t.getP o.p) fun i =>
      f (intOf o.ty (elem (t.getV o.a) o.ty i)) (intOf o.ty (vintB t (isSigned o.ty) o.ty i o.b))
    s.completeWith (t.writeP s.cycle o.p p 2) o.f.bytes

end State

/-- `vshl`: exact, then reduced; a shift of the width or more loses every bit (12:R202). -/
def vshlElem (ty : BitVec 5) (sat : Bool) (a b : Nat) : Nat :=
  let w := elemBits ty
  if sat then reduce ty true (intOf ty a * 2 ^ min b w) else if w ≤ b then 0 else a * 2 ^ b % 2 ^ w

def vshrElem (ty : BitVec 5) (a b : Nat) : Nat := if elemBits ty ≤ b then 0 else a / 2 ^ b

/-- `vsra` copies the sign in; an n element has none, so zeros (12:R202; assumption 20, DEDUCED). -/
def vsraElem (ty : BitVec 5) (a b : Nat) : Nat := wrapTo (elemBits ty) (intOf ty a / 2 ^ min b (elemBits ty))

def execVintVadd (o : VArgs) (s : State) : Out := .next (s.vintArith o (fun a b => a + b))
def execVintVsub (o : VArgs) (s : State) : Out := .next (s.vintArith o (fun a b => a - b))
def execVintVmul (o : VArgs) (s : State) : Out := .next (s.vintArith o (fun a b => a * b))
def execVintVmulh (o : VArgs) (s : State) : Out := .next (s.vintArith o (fun a b => a * b / 2 ^ elemBits o.ty))
def execVintVmin (o : VArgs) (s : State) : Out := .next (s.vintArith o min)
def execVintVmax (o : VArgs) (s : State) : Out := .next (s.vintArith o max)
def execVintVand (o : VArgs) (s : State) : Out := .next (s.vint2 o false (fun a b => a &&& b))
def execVintVor (o : VArgs) (s : State) : Out := .next (s.vint2 o false (fun a b => a ||| b))
def execVintVxor (o : VArgs) (s : State) : Out := .next (s.vint2 o false (fun a b => a ^^^ b))
def execVintVandn (o : VArgs) (s : State) : Out := .next (s.vint2 o false (fun a b => a ^^^ (a &&& b)))
def execVintVshl (o : VArgs) (s : State) : Out := .next (s.vint2 o false (vshlElem o.ty o.sat))
def execVintVshr (o : VArgs) (s : State) : Out := .next (s.vint2 o false (vshrElem o.ty))
def execVintVsra (o : VArgs) (s : State) : Out := .next (s.vint2 o false (vsraElem o.ty))
def execVintVabs (o : VUn) (s : State) : Out := .next (s.vint1 o (fun a => if a < 0 then -a else a))
def execVintVneg (o : VUn) (s : State) : Out := .next (s.vint1 o (fun a => -a))
def execVintVcmpEq (o : VCmp) (s : State) : Out := .next (s.vintCmp o (fun a b => decide (a = b)))
def execVintVcmpNe (o : VCmp) (s : State) : Out := .next (s.vintCmp o (fun a b => decide (a ≠ b)))
def execVintVcmpLt (o : VCmp) (s : State) : Out := .next (s.vintCmp o (fun a b => decide (a < b)))
def execVintVcmpLe (o : VCmp) (s : State) : Out := .next (s.vintCmp o (fun a b => decide (a ≤ b)))

/-- The type of the accumulator of `vdot4`: i32 for i8, n32 for n8 (12:R204). -/
def dotAcc (ty : BitVec 5) : BitVec 5 := if isSigned ty then 2 else 6

/-- One 32-bit element of `vdot4`: the sum is exact before it is reduced (12:R204). -/
def dotElem (t : Task) (o : VArgs) (j : Nat) : Int :=
  (List.range 4).foldl (fun acc k =>
    acc + intOf o.ty (elem (t.getV o.a) o.ty (4 * j + k)) * intOf o.ty (vintB t (isSigned o.ty) o.ty (4 * j + k) o.b))
    (intOf (dotAcc o.ty) (elem (t.getV o.d) (dotAcc o.ty) j))

def execVdot4 (o : VArgs) (s : State) : Out :=
  .next (s.vmerge [o.d] ((.v o.a, o.ea) :: o.b.vreads) fun t =>
    let gb := t.guardBits o.f.guard
    let r := (List.range 4).foldl (fun acc j =>
      if active gb o.ty (4 * j) then putElem acc (dotAcc o.ty) j (reduce (dotAcc o.ty) o.sat (dotElem t o j)) else acc)
      (t.getV o.d)
    s.completeWith (t.writeV s.cycle o.d r 2) o.f.bytes)

/-- `vsum` (12:R205): the exact sum of the active elements in element 0, zero elsewhere. -/
def execVintVsum (o : VUn) (s : State) : Out :=
  .next (s.vmerge [o.d] [(.v o.a, o.ea)] fun t =>
    let gb := t.guardBits o.f.guard
    let x := (List.range (lanesOf o.ty)).foldl (fun acc i =>
      if active gb o.ty i then acc + intOf o.ty (elem (t.getV o.a) o.ty i) else acc) (0 : Int)
    s.completeWith (t.writeV s.cycle o.d (putElem 0 o.ty 0 (reduce o.ty o.sat x)) 2) o.f.bytes)

end Sys2Proof.Machine
end

