-- ==== Sys2Proof/Machine/VectorFloat.lean ====
section
/-! DEFINITION. The format prefix and floating-point SIMD (12:R198 to R201, R206 to R208). -/

namespace Sys2Proof.Machine

/-! ### The prefix (12:R198) -/

/-- The fields of `ms.status.fmtword`. -/
structure Prefix where
  oa : Bool
  fa : BitVec 5
  ob : Bool
  fb : BitVec 5
  part : Nat
  ss : Nat
  sreg : Reg
  sv : Nat
  deriving DecidableEq, Repr

def prefixOf (w : BitVec 32) : Prefix :=
  let n := w.toNat
  { oa := w.getLsbD 31, fa := bitsAt n 26 5, ob := w.getLsbD 25, fb := bitsAt n 20 5
    part := field n 18 2, ss := field n 16 2, sreg := bitsAt n 11 5, sv := field n 3 8 }

/-- The prefix of a task; without one, nothing is overridden. -/
def Task.prefix_ (t : Task) : Prefix := prefixOf (if t.fpend then t.fmtword else 0)

/-- The E8M0 scale that every MX source takes (12:R199); 2⁰ with `ss` = 0. -/
def Task.scaleX (t : Task) : Nat :=
  let p := t.prefix_
  if p.ss = 1 then field (t.getS p.sreg).toNat (8 * (p.sv % 8)) 8 else if p.ss = 2 then p.sv else 0x7F

/-- The scale register as an extra source (12:R199). -/
def Prefix.reads (p : Prefix) : List (RegId × Bool) := if p.ss = 1 then [(.s p.sreg, false)] else []

/-- Widenings allowed for a type (12:R200). -/
def widens (ty f : BitVec 5) : Bool :=
  if ty.toNat = 0x08 then [0x08, 0x09, 0x0A, 0x0B, 0x0C, 0x11, 0x12].contains f.toNat
  else f == ty || [0x0B, 0x0C, 0x11, 0x12].contains f.toNat

/-- An override is an allowed widening whose part is in range (12:R199, R200). -/
def overrideOk (ty f : BitVec 5) (part : Nat) : Bool :=
  widens ty f && decide (part * lanesOf ty + lanesOf ty ≤ lanesOf f)

/-- Whether a `vfp` or `sfu` instruction accepts the task's prefix: `canA` and `canB` say which sources it may override
(12:R199). -/
def prefixOk (t : Task) (ty : BitVec 5) (canB : Bool) : Bool :=
  let p := t.prefix_
  !t.fpend ||
    ((!p.oa || overrideOk ty p.fa p.part) && (!p.ob || (canB && overrideOk ty p.fb p.part))
      && (p.ss == 0 || (p.oa && isMx p.fa) || (p.ob && isMx p.fb)))

namespace State

/-- A vector instruction that accepts a prefix: FORMAT under check 5 of 10:R170, then its sources, then its body. -/
def fplain (s : State) (ok : Bool) (dsts : List RegId) (srcs : List (RegId × Bool)) (body : Task → State) : State :=
  let t := s.task
  if !ok then s.trapC cFORMAT
  else match gate s.cycle t dsts (srcs ++ t.prefix_.reads) with
    | .park r => s.park 1 (.full r)
    | .raise c => s.trapSource c
    | .again => s
    | .ok => body t

/-- One that writes v registers, and so reads their old values (12:R196). -/
def fmerge (s : State) (ok : Bool) (vds : List Reg) (dsts : List RegId) (srcs : List (RegId × Bool)) (body : Task → State) : State :=
  s.fplain ok dsts (srcs ++ vds.map fun d => (.v d, false)) body

end State

/-- `fmt` (12:R198): a second one raises FORMAT and leaves the pending one (03:R60). -/
def execFmt (w : BitVec 32) (s : State) : Out :=
  .next (
    let t := s.task
    if t.fpend then s.trapC cFORMAT
    else (s.setTask { t with fpend := true, fmtword := w, fmtPc := t.pc }).finish (t.pc + 8) true)

/-! ### Operands -/

/-- Element i of a source of type `ty`, read as the override says (12:R200). -/
def fpElem (t : Task) (ty : BitVec 5) (ov : Option (BitVec 5)) (part : Nat) (v : VWord) (i : Nat) : FVal :=
  match ov with
  | none => elemValue ty 0x7F (elem v ty i)
  | some f => elemValue f t.scaleX (elem v f (i + part * lanesOf ty))

def fpA (t : Task) (ty : BitVec 5) (a : Reg) (i : Nat) : FVal :=
  let p := t.prefix_
  fpElem t ty (if p.oa then some p.fa else none) p.part (t.getV a) i

def fpReg (t : Task) (ty : BitVec 5) (b : Reg) (i : Nat) : FVal :=
  let p := t.prefix_
  fpElem t ty (if p.ob then some p.fb else none) p.part (t.getV b) i

/-- Source B of a `vfp` minor: the 16-bit immediate is bfloat16, or binary16 for f16; the literal is binary32, rounded to
the type to nearest with finite saturation (12:R208, 10:R163, 09:R152). -/
def fpB (t : Task) (ty : BitVec 5) (i : Nat) : FSrc → FVal
  | .reg r _ => fpReg t ty r i
  | .fi x => if ty.toNat = 0x09 then f16.decode x.toNat else bf16.decode x.toNat
  | .lit l => elemValue ty 0x7F (roundTo ty 0 true (f32.decode l.toNat)).bits

def FSrc.isReg : FSrc → Bool
  | .reg _ _ => true
  | _ => false

/-! ### Element-wise minors (12:R206) -/

namespace State

/-- Two sources, one rounding; `f` is exact. `vmin` and `vmax` have the latency of `vadd` (assumption 112, DESIGN CHOICE). -/
def vfp2 (s : State) (o : VFArgs) (f : FVal → FVal → FVal) : State :=
  s.fmerge (prefixOk s.task o.ty (FSrc.isReg o.b)) [o.d] [] ((.v o.a, o.ea) :: o.b.vreads) fun t =>
    let r := lanewise (t.guardBits o.f.guard) o.ty (t.getV o.d) fun i =>
      (roundTo o.ty o.rnd o.sat (f (fpA t o.ty o.a i) (fpB t o.ty i o.b))).bits
    s.completeWith (t.writeV s.cycle o.d r 4) o.f.bytes

/-- One source; `vabs` and `vneg` have the latency of `vadd` (assumption 112, DESIGN CHOICE). -/
def vfp1 (s : State) (o : VUn) (f : FVal → FVal) : State :=
  s.fmerge (prefixOk s.task o.ty false) [o.d] [] [(.v o.a, o.ea)] fun t =>
    let r := lanewise (t.guardBits o.f.guard) o.ty (t.getV o.d) fun i =>
      (roundTo o.ty o.rnd o.sat (f (fpA t o.ty o.a i))).bits
    s.completeWith (t.writeV s.cycle o.d r 4) o.f.bytes

def vfpCmp (s : State) (o : VFCmp) (f : FVal → FVal → Bool) : State :=
  s.fplain (prefixOk s.task o.ty (FSrc.isReg o.b)) [] ((.v o.a, o.ea) :: o.b.vreads) fun t =>
    let p := laneFlags (t.guardBits o.f.guard) o.ty (t.getP o.p) fun i => f (fpA t o.ty o.a i) (fpB t o.ty i o.b)
    s.completeWith (t.writeP s.cycle o.p p 2) o.f.bytes

/-- The fused minors: a prefix overrides A and B, never C (12:R206). -/
def vfma (s : State) (o : VFma) (f : FVal → FVal → FVal) : State :=
  s.fmerge (prefixOk s.task o.ty true) [o.d] [] [(.v o.a, o.ea), (.v o.b, o.eb), (.v o.c, o.ec)] fun t =>
    let r := lanewise (t.guardBits o.f.guard) o.ty (t.getV o.d) fun i =>
      (roundTo o.ty o.rnd o.sat (f ((fpA t o.ty o.a i).mul (fpReg t o.ty o.b i)) (elemValue o.ty 0x7F (elem (t.getV o.c) o.ty i)))).bits
    s.completeWith (t.writeV s.cycle o.d r 4) o.f.bytes

end State

def execVfpVadd (o : VFArgs) (s : State) : Out := .next (s.vfp2 o (FVal.add o.rnd))
def execVfpVsub (o : VFArgs) (s : State) : Out := .next (s.vfp2 o fun a b => FVal.add o.rnd a b.neg)
def execVfpVmul (o : VFArgs) (s : State) : Out := .next (s.vfp2 o FVal.mul)
def execVfpVmin (o : VFArgs) (s : State) : Out := .next (s.vfp2 o FVal.min)
def execVfpVmax (o : VFArgs) (s : State) : Out := .next (s.vfp2 o FVal.max)
def execVfpVabs (o : VUn) (s : State) : Out := .next (s.vfp1 o FVal.abs)
def execVfpVneg (o : VUn) (s : State) : Out := .next (s.vfp1 o FVal.neg)
def execVfpVcmpEq (o : VFCmp) (s : State) : Out := .next (s.vfpCmp o FVal.eqv)
def execVfpVcmpNe (o : VFCmp) (s : State) : Out := .next (s.vfpCmp o fun a b => !a.eqv b)
def execVfpVcmpLt (o : VFCmp) (s : State) : Out := .next (s.vfpCmp o FVal.lt)
def execVfpVcmpLe (o : VFCmp) (s : State) : Out := .next (s.vfpCmp o fun a b => a.lt b || a.eqv b)
def execVfma (o : VFma) (s : State) : Out := .next (s.vfma o (FVal.add o.rnd))
def execVfms (o : VFma) (s : State) : Out := .next (s.vfma o fun p c => FVal.add o.rnd p c.neg)
def execVfnma (o : VFma) (s : State) : Out := .next (s.vfma o fun p c => FVal.add o.rnd p.neg c.neg)
def execVfnms (o : VFma) (s : State) : Out := .next (s.vfma o fun p c => FVal.add o.rnd p.neg c)

/-- The exact sum of values, +0 for none (12:R207). -/
def fsum (rnd : Rnd) : List FVal → FVal
  | [] => .fin false 0 0
  | x :: r => r.foldl (FVal.add rnd) x

/-- `vsum` (12:R207): one rounding in element 0, +0 elsewhere. -/
def execVfpVsum (o : VUn) (s : State) : Out :=
  .next (s.fmerge (prefixOk s.task o.ty false) [o.d] [] [(.v o.a, o.ea)] fun t =>
    let gb := t.guardBits o.f.guard
    let xs := ((List.range (lanesOf o.ty)).filter (active gb o.ty)).map (fpA t o.ty o.a)
    s.completeWith (t.writeV s.cycle o.d (putElem 0 o.ty 0 (roundTo o.ty o.rnd o.sat (fsum o.rnd xs)).bits) 4) o.f.bytes)

end Sys2Proof.Machine
end

