-- ==== Sys2Proof/Machine/Sfu.lean ====
section
/-! DEFINITION. Special-function requests (12:R215, R216). -/

namespace Sys2Proof.Machine

namespace State

/-- A task's operation of a class is covered by a token it holds (05:R97); one that has yielded holds none until it has taken them back
(05:R98). -/
def holdsFree (s : State) (t : Task) (cls : Nat) : Bool := !t.owed && decide (s.covered t.gtid cls < t.tokens.toList[cls]?.getD 0)

/-- Waiters of a pool are served in the order in which they began to wait (05:R97): nobody waits ahead of the task. -/
def firstInPool (s : State) (t : Task) (k : Nat) : Bool :=
  match (s.pool t.part k).waiters with
  | [] => true
  | g :: _ => g == .task t.gtid

def poolWait (s : State) (t : Task) (k : Nat) : State :=
  s.poolPut t.part k fun p => if p.waiters.contains (.task t.gtid) then p else { p with waiters := p.waiters ++ [.task t.gtid] }

def poolServed (s : State) (t : Task) (k : Nat) : State :=
  s.poolPut t.part k fun p => { p with waiters := p.waiters.filter (· != .task t.gtid) }

/-- The SFU cycle in which a request of `n` elements is taken whole, and the elements taken in it: arrival order, at most 16
a cycle for the cluster (12:R216). -/
def sfuTake (s : State) (cluster n : Nat) : Nat × Nat :=
  let prev := (s.net.sfu.filter fun r => r.cluster == cluster && decide (s.cycle ≤ r.last)).getLast?
  let base := match prev with
    | some r => (r.last, r.used)
    | none => (s.cycle, 0)
  let total := base.2 + n
  (base.1 + (total - 1) / 16, total - (total - 1) / 16 * 16)

/-- The value a request delivers: the function in the active elements, the old value in the others (12:R216). Where the
model's bounds do not decide the rounding, the element is free (assumption 22, DESIGN CHOICE). -/
def sfuResult (s : State) (t : Task) (o : VUn) (f : SfuFn) : VWord :=
  lanewise (t.guardBits o.f.guard) o.ty (t.getV o.d) fun i =>
    (sfuRound o.ty o.rnd o.sat (sfuValue f (fpA t o.ty o.a i))).getD
      ((Config.freeVec s.freeCtr).toNat / 2 ^ (i * elemBits o.ty) % 2 ^ elemBits o.ty)

/-- A request (12:R216): token, destination empty, request on the ring; the instruction is complete and the task parks until
the result is delivered (assumption 23, DEDUCED). Every element of the type takes its place on the ring, active or not (assumption 111,
DESIGN CHOICE). -/
def sfu (s : State) (o : VUn) (f : SfuFn) : State :=
  s.fmerge (prefixOk s.task o.ty false) [o.d] [] [(.v o.a, o.ea)] fun t =>
    let core := coreOf s.cur
    let k := poolKey core 3
    let held := s.holdsFree t 3
    if !held && !(decide (0 < s.poolFree t.part k) && s.firstInPool t k) then (s.poolWait t k).park 11 (.tokens 3 1)
    else
      let s := if held then s else (s.poolServed t k).poolDraw t.part k 1
      let r := s.sfuTake (clusterOf core) (lanesOf o.ty)
      let req : SfuReq := { tag := s.tagCtr, owner := t.gtid, part := t.part, cluster := clusterOf core, last := r.1, used := r.2
                            key := s.cur, dst := o.d, value := s.sfuResult t o f, drawn := !held }
      let s := { s with tagCtr := s.tagCtr + 1, freeCtr := s.freeCtr + 1, net := { s.net with sfu := s.net.sfu ++ [req] } }
      (s.completeWith (t.markEmpty (.v o.d)) o.f.bytes).park 4 (.full (.v o.d))

end State

def execSfuExp (o : VUn) (s : State) : Out := .next (s.sfu o .exp)
def execSfuLog (o : VUn) (s : State) : Out := .next (s.sfu o .log)
def execSfuRcp (o : VUn) (s : State) : Out := .next (s.sfu o .rcp)
def execSfuRsqrt (o : VUn) (s : State) : Out := .next (s.sfu o .rsqrt)
def execSfuSqrt (o : VUn) (s : State) : Out := .next (s.sfu o .sqrt)
def execSfuSin (o : VUn) (s : State) : Out := .next (s.sfu o .sin)
def execSfuCos (o : VUn) (s : State) : Out := .next (s.sfu o .cos)
def execSfuTanh (o : VUn) (s : State) : Out := .next (s.sfu o .tanh)
def execSfuSigm (o : VUn) (s : State) : Out := .next (s.sfu o .sigm)

end Sys2Proof.Machine
end

