-- ==== Sys2Proof/Machine/Access.lean ====
section
/-! DEFINITION. Shared operations over accesses: what an access does at its home, the order of one task's accesses (07:R115,
R118 to R120), deliveries and wakes (03:R48 to R53, 02:R36), physical memory and worlds, translation (19), watchpoints and
memory records (27:R379, R386). -/

namespace Sys2Proof.Machine

/-! ### At the home of a word -/

/-- Extend a loaded value of n bytes (13:R220). -/
def extLoad (n : Nat) (sx : Bool) (x : Nat) : Nat := if sx ∧ n < 8 then wrapTo 64 (signOf x (8 * n)) else x

/-- The new value of an atomic (13:R227). -/
def amoNew (w op old c cmp : Nat) : Nat :=
  let so := signOf old w
  let sc := signOf c w
  match op with
  | 0 => c
  | 1 => (old + c) % 2 ^ w
  | 2 => old &&& c
  | 3 => old ||| c
  | 4 => old ^^^ c
  | 5 => if so ≤ sc then old else c
  | 6 => if so ≤ sc then c else old
  | 7 => min old c
  | 8 => max old c
  | _ => if old = cmp then c else old

namespace State

/-- Byte `a` of tile memory is hidden while a running `copy.dec` writes it, other than `own`: it reads zero, and a store to it has no effect
(14:R249). -/
def hiddenBut (s : State) (own : Cmd → Bool) (a : Nat) : Bool :=
  s.tiles.any fun e => (e.2.queues[2]).any fun c =>
    !own c && Cmd.running c && c.word.toNat % 256 == 3 && (let r := c.ranges[1]
      decide (r.mem ≤ a) && decide (a < r.mem + r.len))

def hiddenAt (s : State) (a : Nat) : Bool := s.hiddenBut (fun _ => false) a

/-- A store by a core or an agent: hidden bytes keep their value. -/
def coreStore (s : State) (a n x : Nat) : State :=
  s.store a ((leBytes n x).zipIdx.map fun e => if s.hiddenAt (a + e.2) then memGet s.mem (a + e.2) else e.1)

/-- Perform an operation on the word at a memory address: its value and the state after, or none where it must wait for the
word's full/empty bit (13:R223, 02:R24, 06:R111). An atomic and a full/empty access are one step. -/
def perform (s : State) (a : Nat) : AccOp → Option (Nat × State)
  | .load n sx => some (extLoad n sx (s.loadNat a n), s)
  | .store n d => some (0, s.coreStore a n d)
  | .nibble hi d =>
    let b := s.loadNat a 1
    some (0, s.coreStore a 1 (if hi then setField b 4 4 d else setField b 0 4 d))
  | .amo w op c cmp =>
    let old := s.loadNat a (w / 8)
    let new := amoNew w op old c cmp
    some (old, s.coreStore a (w / 8) new)
  | .feRead take =>
    if s.feFull a then some (s.loadNat a 8, if take then (s.setFe a false).dirty a 8 else s) else none
  | .feProbe take =>
    if s.feFull a then some (s.loadNat a 8, if take then (s.setFe a false).dirty a 8 else s) else some (2 ^ 64, s)
  | .feStore wait d =>
    if wait && s.feFull a then none else some (0, (s.coreStore a 8 d).setFe a true)
  | .count => some (0, (s.coreStore a 8 ((s.loadNat a 8 + 1) % 2 ^ 64)).setFe a false)
  | .uncount => some (0, s.uncount a)

end State

/-- The operation reads a value back into a register. -/
def AccOp.reads : AccOp → Bool
  | .load _ _ => true
  | .amo _ _ _ _ => true
  | .feRead _ => true
  | .feProbe _ => true
  | _ => false

/-- Its bytes, for overlap. -/
def AccOp.size : AccOp → Nat
  | .load n _ => n
  | .store n _ => n
  | .nibble _ _ => 1
  | .amo w _ _ _ => w / 8
  | _ => 8

def AccOp.writes : AccOp → Bool
  | .load _ _ => false
  | .feProbe t => t
  | .feRead t => t
  | _ => true

/-- A `join` of a remote word, which waits parked for the agent's answer (13:R235). -/
def Acc.joins (a : Acc) : Bool := a.waits && match a.op with
  | .feRead _ => true
  | _ => false

def Acc.isTile (a : Acc) : Bool :=
  match a.place with
  | .tile _ _ _ => true
  | .ext _ _ _ _ => false

def Acc.queue? (a : Acc) : Option Nat :=
  match a.place with
  | .tile _ _ _ => none
  | .ext _ q _ _ => some q

def Acc.pieces (a : Acc) : List Piece :=
  match a.place with
  | .tile _ _ _ => []
  | .ext _ _ _ ps => ps

def ScOp.pieces (o : ScOp) : List Piece :=
  match o.place with
  | .tile _ _ _ => []
  | .ext _ _ _ ps => ps

/-- Between BARRIER and OPEN no new request of the domain is accepted (23:R356). -/
def Domain.barrier (d : Domain) : Bool := d.st == .draining || d.st == .drained || d.st == .keyed

/-- A tuple's key in the sequence maps: peer and channel (23:R355). -/
def tupleKey (peer ch : Nat) : Nat := peer * 4 + ch

/-- Payload in whole units of 16 bytes, at most 16 of them (23:R354). -/
def inUnits (b : List Byte) : List Byte :=
  let b := b.take 256
  b ++ List.replicate ((16 - b.length % 16) % 16) 0

/-- A message from package `me` under number `seq` of its tuple (23:R354). -/
def Domain.seal (d : Domain) (me peer ch kind seq : Nat) (payload : List Byte) : List Byte :=
  let p := inUnits payload
  let iv := leBytes 12 (packFields [(40, seq), (2, ch), (19, peer), (19, me), (16, d.gen)])
  let head := iv ++ leBytes 1 kind ++ leBytes 1 (p.length / 16) ++ leBytes 2 d.id
  let o := Crypto.gcmSeal d.key iv head p
  head ++ o.1 ++ o.2

/-- Number of the next message on a tuple. -/
def Domain.nextSeq (d : Domain) (peer ch : Nat) : Nat := (mapGet d.sendSeq (tupleKey peer ch)).getD 0

/-- A member's message on a channel has been received, with the event it brings: one that came before the event is not counted again
(23:R355; assumption 101, DESIGN CHOICE). -/
def Domain.got (d : Domain) (peer ch n : Nat) : Domain :=
  let k := tupleKey peer ch
  let had := min n ((mapGet d.early k).getD 0)
  { d with early := mapMod d.early k 0 fun x => x - had, recvSeq := mapMod d.recvSeq k 0 fun x => x + (n - had) }

/-! ### Order (07:R115, R118 to R120) -/

/-- An acquire still holds later accesses back: a remote one until its answer has arrived, a queued one until it is performed
(13:R220, R225). -/
def Acc.holdsLater (a : Acc) : Bool := a.acq && (a.pending || (a.isTile && match a.st with
  | .performed _ => true
  | _ => false))

/-- Both reach bytes of one place in tile memory. -/
def Acc.meetsTile (a b : Acc) : Bool :=
  match a.place, b.place with
  | .tile x v i, .tile y w j => a.part == b.part && x == y && v == w && decide (i < j + b.op.size) && decide (j < i + a.op.size)
  | _, _ => false

def piecesMeet (p q : List Piece) : Bool :=
  p.any fun x => q.any fun y => decide (x.addr < y.addr + y.len) && decide (y.addr < x.addr + x.len)

/-- SO pages and all of space 0x5 (06:R110). -/
def soPiece (p : Piece) : Bool := p.kind == 0
/-- SO and RC pages: one store queue keeps their order (06:R108). -/
def orderedPiece (p : Piece) : Bool := p.kind == 0 || p.kind == 1

namespace State

/-- The task has an acquire, or a move, that later accesses wait for (07:R120, R125). -/
def acqPending (s : State) (g : Word) : Bool :=
  (s.net.accs.any fun a => a.owner == g && a.holdsLater) || s.net.fences.any fun f => f.1 == g && s.unperformedBefore g f.2

/-- Loads, atomics and full/empty reads not yet performed (07:R124). -/
def unperformedReads (s : State) (g : Word) : Bool := s.net.accs.any fun a => a.owner == g && a.pending && a.op.reads

/-! ### Trust domains as accesses meet them (23:R352 to R357) -/

/-- The package a window address belongs to (25:R370). -/
def pkgAt (s : State) (pa : Nat) : Option Nat :=
  if pa < hostBase ∧ inWindow pa then (mapGet s.granules (field pa 30 18)).map (·.pkg) else none

/-- A partition's trust domain: its world's, kept with the partition whose supervisor set it. -/
def domainAt (s : State) (part : Nat) : Option (Nat × Domain) :=
  match s.partOf? part with
  | none => none
  | some p => s.parts.findSome? fun e => if e.2.world == p.world then e.2.domain.map fun d => (e.1, d) else none

def barrierRuns (s : State) (part : Nat) : Bool := (s.domainAt part).any fun d => d.2.barrier

/-- Members of the partition's domain that pieces reach. -/
def peersOf (s : State) (part : Nat) (ps : List Piece) : List Nat :=
  match s.domainAt part with
  | none => []
  | some d => ps.filterMap fun p => (s.pkgAt p.addr).filter d.2.members.contains

/-- A new request to a domain member waits for the barrier that runs. -/
def domainHolds (s : State) (part : Nat) (ps : List Piece) : Bool := s.barrierRuns part && !(s.peersOf part ps).isEmpty

/-- A piece reaches a member that was lost (23:R356, R357). -/
def domainLost (s : State) (part : Nat) (ps : List Piece) : Bool :=
  (s.domainAt part).any fun d => (s.peersOf part ps).any d.2.lost.contains

def setDomain (s : State) (part : Nat) (d : Domain) : State := s.modPart part fun p => { p with domain := some d }

/-- The generation after g; 0 is never used (23:R357). -/
def nextGeneration (g : Nat) : Nat := g % 65535 + 1

/-- The domain a partition keeps. -/
def domain? (s : State) (k : Nat) : Option Domain := (s.partOf? k).bind (·.domain)

def modDomain (s : State) (k : Nat) (f : Domain → Domain) : State :=
  match s.domain? k with
  | none => s
  | some d => s.setDomain k (f d)

def post (s : State) (o : Outgoing) : State := { s with net := { s.net with out := s.net.out ++ [o] } }

/-- Send a message of the domain, under the next number of its tuple (23:R354, R355). -/
def sendMsg (s : State) (k peer ch kind : Nat) (payload : List Byte) : State :=
  match s.domain? k with
  | none => s
  | some d =>
    let n := d.nextSeq peer ch
    (s.setDomain k { d with sendSeq := mapSet d.sendSeq (tupleKey peer ch) (n + 1) }).post
      (.message peer (d.seal s.pkgNo.toNat peer ch kind n payload))

/-- Send a control message, on channel 3; a package sends none to itself. -/
def control (s : State) (k peer : Nat) (c : Control) : State :=
  if peer = s.pkgNo.toNat then s else s.sendMsg k peer 3 5 (Config.controlPayload c)

/-- Send a control message to several members. -/
def controlAll (s : State) (k : Nat) (l : List Nat) (c : Control) : State := l.foldl (fun s m => s.control k m c) s

/-- The coordinator sends BARRIER(g + 1) to every other member and stops accepting requests itself. -/
def raiseBarrier (s : State) (k : Nat) : State :=
  match s.domain? k with
  | none => s
  | some d => (s.controlAll k d.joined (.barrier (nextGeneration d.gen))).modDomain k fun d =>
      { d with st := .draining, nextGen := nextGeneration d.gen, drained := [], ready := [], since := s.cycle, barrierAt := s.cycle }

/-- Ask for a barrier: the coordinator raises it, a member sends the request (23:R355). -/
def askBarrier (s : State) (k : Nat) : State :=
  match s.domain? k with
  | none => s
  | some d =>
    if d.coord = s.pkgNo.toNat then (if d.barrier then s else s.raiseBarrier k) else s.control k d.coord .rekey

/-- Send a message; a sender whose number reaches 2^40 − 2^20 asks for a barrier (23:R355). -/
def sendDomain (s : State) (k peer ch kind : Nat) (payload : List Byte) : State :=
  let t := s.sendMsg k peer ch kind payload
  if ((s.domain? k).map fun d => d.nextSeq peer ch + 1) = some (2 ^ 40 - 2 ^ 20) then t.askBarrier k else t

/-- Messages that pieces at members take, each of at most 128 bytes: member, address there, length (23:R354; assumption 101, DESIGN
CHOICE). -/
def domainParts (s : State) (part : Nat) (ps : List Piece) : List (Nat × Nat × Nat) :=
  match s.domainAt part with
  | none => []
  | some d => ps.flatMap fun p => match (mapGet s.granules (field p.addr 30 18)).filter fun g =>
        decide (p.addr < hostBase) && inWindow p.addr && d.2.members.contains g.pkg with
    | none => []
    | some g => (List.range ((p.len + 127) / 128)).map fun i => (g.pkg, g.base + p.addr % 2 ^ 30 + 128 * i, min 128 (p.len - 128 * i))

/-- Send the messages of an access of a kind to domain members: 0 load, 1 store, 2 atomic on channel 0, 4 collective on channel 2
(23:R354). -/
def askDomain (s : State) (part kind : Nat) (ps : List Piece) (data : List Byte) : State :=
  match s.domainAt part with
  | none => s
  | some (k, _) => ((s.domainParts part ps).foldl (fun (x : State × List Byte) q =>
      (x.1.sendDomain k q.1 (if kind = 4 then 2 else 0) kind (Config.payload kind q.2.1 q.2.2 (x.2.take q.2.2)), x.2.drop q.2.2)) (s, data)).1

/-- The responses of an access to members have been received (23:R355). -/
def domainAnswers (s : State) (part : Nat) (ps : List Piece) : State :=
  match s.domainAt part with
  | none => s
  | some (k, _) => match s.domainParts part ps with
    | [] => s
    | l => s.modDomain k fun d => l.foldl (fun d q => d.got q.1 1 1) d

/-- A tuple on which responses are discarded: the request to this member is not answered (23:R355). -/
def responseBroken (s : State) (part : Nat) (ps : List Piece) : Bool :=
  (s.domainAt part).any fun d => (s.peersOf part ps).any fun m => d.2.broken.contains (tupleKey m 1)

/-- An access is held back at its source: an acquire before it, or what came before a move, has not been performed, or it is a
release and something before it has not (07:R119, R120, R125). It has not entered its path. -/
def heldBack (s : State) (a : Acc) : Bool :=
  (s.net.accs.any fun b => b.owner == a.owner && decide (b.tag < a.tag) && b.holdsLater)
    || (a.rel && s.unperformedBefore a.owner a.tag)
    || s.net.fences.any fun f => f.1 == a.owner && decide (f.2 ≤ a.tag) && s.unperformedBefore a.owner f.2

/-- The tile whose agent an access goes to. -/
def agentOf? (s : State) (a : Acc) : Option Nat :=
  match a.place with
  | .tile _ vt _ => s.physTile? a.part vt
  | .ext _ _ _ _ => none

/-- An access that started under a lease is performed within 4 µs of the lease's end, or not at all (19:R299). -/
def leaseOk (s : State) (e : Option Nat) : Bool :=
  match e with
  | none => true
  | some c => decide (s.cycle ≤ c + 4 * 1700)

/-- A flying access may be performed: its lease allows it, it is not held back at its source, and the order of its own path holds. -/
def mayPerform (s : State) (a : Acc) : Bool :=
  let mine := s.net.accs.filter fun b => b.owner == a.owner && decide (b.tag < a.tag)
  !s.heldBack a && s.leaseOk a.leaseEnd
    && match a.place with
      | .tile _ _ _ =>
        -- channel 2 keeps the order of one source core and one target tile (06:R105, R109); a task's own accesses to one place
        -- are performed in issue order (07:R115)
        !(s.net.accs.any fun b => coreOf b.key == coreOf a.key && b.isTile && s.agentOf? b == s.agentOf? a && decide (b.tag < a.tag)
            && (match b.st with
              | .flying => !s.heldBack b
              | .blocked => true
              | _ => false))
          && !(mine.any fun b => b.pending && b.meetsTile a)
      | .ext _ q _ ps => !s.responseBroken a.part ps && decide (a.issued + a.extra ≤ s.cycle) &&
        -- SO accesses in issue order, overlapping accesses of one task in issue order
        !(mine.any fun b => b.pending && ((b.pieces.any soPiece && ps.any soPiece) || piecesMeet b.pieces ps))
        -- one store queue performs SO and RC stores in acceptance order (06:R108)
        && !(decide (4 ≤ q) && ps.any orderedPiece && s.net.accs.any fun b =>
            coreOf b.key == coreOf a.key && decide (b.tag < a.tag) && b.pending && b.queue? == some q && b.pieces.any orderedPiece)

def accOf? (s : State) (tag : Nat) : Option Acc := s.net.accs.find? fun a => a.tag == tag
def putAcc (s : State) (a : Acc) : State :=
  { s with net := { s.net with accs := s.net.accs.map fun b => if b.tag == a.tag then a else b } }
def dropAcc (s : State) (tag : Nat) : State :=
  { s with net := { s.net with accs := s.net.accs.filter fun b => b.tag != tag } }
/-- A request that starts to wait at its agent queues behind those that wait there (06:R105). -/
def waitAcc (s : State) (a : Acc) : State :=
  let s := s.dropAcc a.tag
  { s with net := { s.net with accs := s.net.accs ++ [{ a with st := .waiting }] } }

/-- Issue an access under a new tag. It leaves the core's port at once, or once nothing holds it back at its source (27:R385). -/
def sendAcc (s : State) (f : Nat → Acc) : State :=
  let a := { f s.tagCtr with nissue := s.task.nissued, offset := (standsAt s.task).toNat, sup := s.task.priv != Priv.task }
  { s with tagCtr := s.tagCtr + 1
           net := { s.net with accs := s.net.accs ++ [{ a with left := if s.heldBack a then none else some s.cycle }] } }

/-- An access that nothing holds back any more leaves the core's port. -/
def leavePort (s : State) (a : Acc) : State :=
  if a.left.isNone && a.st == .flying && !s.heldBack a then s.putAcc { a with left := some s.cycle } else s

/-- Hold a release back (07:R119). -/
def hold (s : State) (t : Task) (op : HeldOp) : State :=
  { s with tagCtr := s.tagCtr + 1
           net := { s.net with helds := s.net.helds ++ [(⟨s.tagCtr, t.gtid, s.cur, t.part, op, t.nissued, (standsAt t).toNat⟩ : Held)] } }

/-- A held local store of the task overlaps these bytes (07:R115). -/
def heldMeets (s : State) (g : Word) (part vt : Nat) (acc : Bool) (a n : Nat) : Bool :=
  s.net.helds.any fun h => h.owner == g && h.part == part && match h.op with
    | .store v ac b m _ => v == vt && ac == acc && decide (a < b + m) && decide (b < a + n)
    | .nibble v b _ _ => v == vt && !acc && decide (a < b + 1) && decide (b < a + n)
    | .fill v b _ => v == vt && !acc && decide (a < b + 8) && decide (b < a + n)
    | _ => false

/-- A local access of the task waits: behind an acquire, or behind its own held store to the same bytes. The instruction
has done nothing and issues again (assumption 21, DEDUCED). -/
def localWaits (s : State) (t : Task) (acc : Bool) (a n : Nat) : Bool :=
  s.acqPending t.gtid || s.heldMeets t.gtid t.part s.here acc a n

/-! ### Wakes (02:R36, R40) -/

def gangOf? (s : State) (t : Task) : Option Gang := t.gang.bind fun id => mapGet s.cald.gangs id

/-- `waddr`'s condition (13:R230). -/
def watchHolds (cond : BitVec 2) (w x t : Nat) : Bool :=
  match cond.toNat with
  | 0 => x != t
  | 1 => x == t
  | _ => decide (0 ≤ signOf ((x + (2 ^ w - t)) % 2 ^ w) w)

/-- Entries of a decoupling queue that a partition has in use on a core: an announced SC request keeps the one its request will take
(06:R106, 13:R225). -/
def queueUse (s : State) (part core q : Nat) : Nat :=
  (s.net.accs.filter fun a => a.part == part && coreOf a.key == core && a.queue? == some q).length
    + (s.net.scOps.filter fun o => o.part == part && coreOf o.key == core && match o.place with
        | .tile _ _ _ => false
        | .ext _ n _ _ => n == q).length

/-- A partition's share of 16 entries (06:R106). -/
def shareOf (p : Partition) : Nat := max 1 (popCount p.slots.toNat 16)

def queueRoom (s : State) (part core q : Nat) : Bool :=
  match s.partOf? part with
  | none => false
  | some p => decide (s.queueUse part core q < shareOf p)

/-- Messages a core has sent on a channel and that have not arrived (13:R232: 16; assumption 113, DESIGN CHOICE). -/
def sendRoom (s : State) (core ch : Nat) : Bool :=
  decide ((s.net.msgs.filter fun m => m.srcCore == core && m.ch == ch).length
    + (s.net.helds.filter fun h => coreOf h.key == core && match h.op with
        | .send m => m.ch == ch
        | _ => false).length < 16)

/-- Entries of an engine queue of a tile that a partition uses; a queue-fence entry takes one in every queue it names
(14:R238, R239). -/
def engineUse (s : State) (part tile q : Nat) : Nat :=
  let t := s.tile tile
  ((t.queues.toList[q]?.getD []).filter fun c => c.part == part).length
    + (t.queues[4].filter fun c => c.part == part && c.word.getLsbD (44 + q)).length

/-- Each partition has its share of 16 entries, as in the decoupling queues (14:R239). -/
def engineRoom (s : State) (part tile q : Nat) : Bool :=
  match s.partOf? part with
  | none => false
  | some p => decide (s.engineUse part tile q < shareOf p)

/-- The commands and tasks that wait on a semaphore take it in order: the first waiter is the task (14:R242). -/
def semTurn (s : State) (part vt n : Nat) (g : Word) : Bool :=
  match ((s.vtile part vt).waiters.toList[n]?).getD [] with
  | [] => true
  | .task h :: _ => h == g
  | .cmd _ :: _ => false

def semCount (s : State) (part vt n : Nat) : Nat := ((s.vtile part vt).sems.toList[n]?).getD 0

/-- Work of a task that `tend` waits for (02:R35): commands, queued requests, SFU requests; and its other pending deliveries, since
only a retirement through a trap leaves any (03:R52; assumption 37, DEDUCED). -/
def outstanding (s : State) (g : Word) : Bool :=
  (s.tiles.any fun e => e.2.queues.toList.any fun q => q.any fun c => c.owner == g)
    || (s.net.accs.any fun a => a.owner == g && (!a.isTile || a.dst.isSome))
    || s.net.sfu.any (·.owner == g)

/-- The wake condition of a parked task (02:R36). A word of host memory wakes nobody when it is written (13:R230). -/
def wakeReady (s : State) (key : Nat) (t : Task) : Wake → Bool
  | .event => false
  | .kept => true
  | .page _ _ => false
  | .full r => t.full r
  | .word a full => s.feFull a == full
  | .response tag =>
    match s.accOf? tag with
    | none => true
    | some a => match a.st with
      | .answered _ => true
      | .failed _ => true
      | _ => false
  | .watch a n seen cond x =>
    decide (a < hostBase ∨ 2 ^ 61 ≤ a) && (s.loadNat a n != seen || watchHolds cond (8 * n) (s.loadNat a n) x)
  | .barrier n => decide (n ≤ ((s.gangOf? t).map (·.completed)).getD n)
  | .drained => !s.outstanding t.gtid
  | .sem n => match s.vtileOf? t.part (coreOf key) with
    | none => false
    | some vt => decide (0 < s.semCount t.part vt n) && s.semTurn t.part vt n t.gtid
  | .performed loadsOnly => if loadsOnly then !s.unperformedReads t.gtid else !s.unperformed t.gtid
  | .sc tag => !(s.net.scOps.any fun o => o.tag == tag)
  | .queueIdle q => !(s.net.accs.any fun a => a.owner == t.gtid && a.queue? == some q)
  | .queueShare q => s.queueRoom t.part (coreOf key) q
  | .engineShare q => s.engineRoom t.part (tileOf (coreOf key)) q
  | .messageShare ch => s.sendRoom (coreOf key) ch
  | .domain => !s.barrierRuns t.part
  | .tokens cls n =>
    let k := poolKey (coreOf key) cls
    decide (n ≤ s.poolFree t.part k) && ((s.pool t.part k).waiters.head?.getD (.task t.gtid) == .task t.gtid)

/-- The pools can supply a task's held tokens on the core of a slot (05:R98). The tokens that are free count, whoever else waits for
them (assumption 77, DESIGN CHOICE). -/
def tokensFor (s : State) (key : Nat) (t : Task) : Bool :=
  (List.range 4).all fun c => decide (t.tokens.toList[c]?.getD 0 ≤ s.poolFree t.part (poolKey (coreOf key) c))

/-- Take a task's held tokens back from the pools of its core (05:R98). -/
def takeTokens (s : State) (key : Nat) (t : Task) : State :=
  (List.range 4).foldl (fun s c => s.poolDraw t.part (poolKey (coreOf key) c) (t.tokens.toList[c]?.getD 0)) s

/-- A task that has been taken from a deque resumes once its held tokens are supplied (05:R98). -/
def payTokens (s : State) (key : Nat) : State :=
  let t := s.taskAt key
  if t.owed && s.tokensFor key t then (s.takeTokens key t).putTask key { t with owed := false } else s

/-- Let a parked task whose wake condition holds back into the rotation (02:R36, R40). A stopped one stays parked until a go, which has it
look again (27:R377). -/
def wakeUp (s : State) (key : Nat) : State :=
  let s := s.payTokens key
  let t := s.taskAt key
  match t.run with
  | .resident => s
  | .parked row w =>
    if !t.stopped && s.wakeReady key t w then (s.putTask key (t.woken s.cycle)).recordSched key 2 row t.gtid else s

/-- Wake a task whatever its condition: the event that ends its wait has come. A stopped one stays parked and keeps the wake (27:R377). -/
def wakeNow (s : State) (key : Nat) : State :=
  let t := s.taskAt key
  match t.run with
  | .resident => s
  | .parked row _ =>
    if t.stopped then s.putTask key { t with run := .parked row .kept }
    else (s.putTask key (t.woken s.cycle)).recordSched key 2 row t.gtid

/-- A cause that is due at a task's next boundary, of a slot or of a task by GTID. -/
def addDue (s : State) (key : Nat) (d : Due) : State :=
  let t := s.taskAt key
  s.putTask key { t with due := t.due ++ [d] }

/-- Change the task of a GTID, wherever it is. -/
def modTask (s : State) (g : Word) (f : Task → Task) : State := s.mapTasks fun t => if t.gtid == g then f t else t

def addDueTo (s : State) (g : Word) (d : Due) : State := s.modTask g fun t => { t with due := t.due ++ [d] }

/-! ### Kinds of accesses in records (27:R387), and failing accesses (17:R271) -/

/-- `sub` of a record of an access to tile memory. -/
def accSub : AccOp → Nat
  | .load _ _ => 0
  | .store _ _ => 1
  | .nibble _ _ => 4
  | .amo _ _ _ _ => 2
  | _ => 3

/-- `qld`, `qst`, atomic as a kind-0x3 record numbers them. -/
def extSub (op : AccOp) : Nat :=
  match op with
  | .load _ _ => 0
  | .store _ _ => 1
  | _ => 2

def placeSub (a : Acc) : Nat := match a.place with
  | .tile _ _ _ => accSub a.op
  | .ext _ _ _ _ => extSub a.op

/-- The address `ms.aerr` holds for a failed access (17:R267). -/
def accErrAddr (a : Acc) : Word :=
  match a.place with
  | .tile acc vt w => word64 [(21, w), (27, 0), (10, vt), (4, 0), (1, ofBool acc), (1, 1)]
  | .ext _ _ va _ => BitVec.ofNat 64 (va % 2 ^ 52)

/-- Note a delivery error that its task has not reported, and the kind of its access (17:R267, 27:R406). -/
def noteErr (t : Task) (a : Word) (sub : Nat) : Task :=
  if t.tr.aerr = 0 then { t with tr := { t.tr with aerr := a }, errSub := sub } else t

/-! ### Deliveries (03:R48, R52, 17:R271) -/

/-- Write a register, fill it and wake its readers; a task in no slot finds the delivery when it is resident again. -/
def deliverTo (s : State) (g : Word) (part : Nat) (r : RegId) (tag : Nat) (x : VWord) (err : Bool) (aerr : Word) (sub : Nat := 0) :
    State :=
  match s.keyOf? g with
  | some k =>
    let t := ((s.taskAt k).deliver r x err).filled s.cycle r
    let t := if err then noteErr t aerr sub else t
    (s.putTask k t).wakeUp k
  | none =>
    if (s.partOf? part).isNone then s
    else { s with net := { s.net with landed := s.net.landed ++ [⟨g, r, tag, x, err, aerr, sub⟩] } }

/-- A register as a discard record names it (27:R387). -/
def regPay : RegId → Nat
  | .s r => packFields [(33, 0), (2, 0), (5, r.toNat)]
  | .v r => packFields [(33, 0), (2, 1), (5, r.toNat)]
  | .m r => packFields [(33, 0), (2, 2), (5, r.toNat)]

/-! ### Instructions that complete with their access -/

/-- An instruction that waited parked for its own access completes in the slot of its task; `f` gives the task its result (07:R128,
13:R235). A stopped task has then kept its wake, and goes on with the next instruction (27:R377). -/
def completeAt (s : State) (key len : Nat) (f : Task → Task) : State :=
  let cur := s.cur
  let s := (s.at_ key).wakeNow key
  (s.completeWith (f s.task) len).at_ cur

/-- The answer to a `join` that its task waits for: its register fills, the pointer moves, and the instruction is complete. A path that
ended it fills the register with a marked zero (17:R271). -/
def joinDone (s : State) (key : Nat) (a : Acc) : State :=
  let r : Option (Nat × Bool) := match a.st with
    | .answered v => some (v, false)
    | .failed _ => some (0, true)
    | _ => none
  match r with
  | none => s
  | some (v, bad) =>
    (s.dropAcc a.tag).completeAt key (a.carry.headD 0) fun t =>
      let t := match a.carry with
        | [_, p, x] => t.putS (BitVec.ofNat 5 p) (t.getS (BitVec.ofNat 5 p) + BitVec.ofNat 64 x)
        | _ => t
      let t := if bad then noteErr t (accErrAddr a) (placeSub a) else t
      match a.dst with
      | none => t
      | some d => t.deliver d (BitVec.ofNat 128 v) bad

/-- Deliveries that arrived while a task held no slot fill its registers when it takes one (03:R52), and a `join` that was answered then
completes. -/
def landAll (s : State) (key : Nat) : State :=
  let g := (s.taskAt key).gtid
  let mine := s.net.landed.filter (·.owner == g)
  let s := { s with net := { s.net with landed := s.net.landed.filter (·.owner != g) } }
  let s := mine.foldl (fun s l => s.deliverTo g 0 l.dst l.tag l.value l.err l.aerr l.sub) s
  let s := (s.net.accs.filter fun a => a.owner == g && a.joins).foldl (fun s a => s.joinDone key a) s
  s.putTask key { s.taskAt key with fills := [] }

/-! ### Delay accumulators (27:R385) -/

/-- The accumulator a physical destination selects; none for a reserved one. -/
def delayOfPa (pa : Nat) : Nat :=
  if hostBase ≤ pa then 0x2A else if inWindow pa then 0x2B
  else if pa < mainBytes then 0x20 + pa / 2 ^ 36 else 0x28

/-- CXL shared memory: the HDM-DB region of a host link (25:R364, R366). -/
def inHdm (s : State) (pa : Nat) : Bool := s.hl.hdm.toList.any fun r =>
  let base := field r.toNat 30 20 * 2 ^ 30
  decide (base ≤ pa) && decide (pa < base + field r.toNat 0 9 * 2 ^ 30)

def delayIndex (s : State) (a : Acc) : Nat :=
  match a.place with
  | .tile acc _ w => s.bankOf a.part acc w + (if acc then 0x10 else 0)
  | .ext _ _ _ ps =>
    let pa := (ps.head?.map (·.addr)).getD 0
    if s.inHdm pa then 0x29 else delayOfPa pa

/-- An access returns its delay field to its issuing core: the cycles since it left the core's port. -/
def addDelay (s : State) (a : Acc) : State :=
  let d := min (s.cycle - a.left.getD s.cycle) 0xFFFF
  s.modCounts a.part (coreOf a.key) fun c =>
    { c with delays := mapMod c.delays (s.delayIndex a) (0, 0) fun e => ((e.1 + 1) % 2 ^ 24, (e.2 + d) % 2 ^ 40) }

/-! ### Memory records (27:R386) -/

def recordTile (s : State) (key : Nat) (g : Word) (op : AccOp) (acc : Bool) (vt a : Nat) : State :=
  s.record key 0x2 (accSub op + ofBool acc * 8) g (packFields [(21, a), (9, 0), (10, vt)])

def recordExt (s : State) (key : Nat) (g : Word) (sub va : Nat) : State := s.record key 0x3 sub g (va / 4096 % 2 ^ 40)

/-- Every 2^k-th remote or queued access of a core writes a memory record; with four records in this cycle already it is dropped. -/
def sampled (s : State) (t : Task) (write : State → State) : State :=
  let c := coreOf s.cur
  let k := ((s.partOf? t.part).map (·.dbg.period)).getD 12
  let n := (s.core c).recorder.memCount + 1
  let s := s.modCore c fun x => { x with recorder := { x.recorder with memCount := n } }
  if n % 2 ^ k ≠ 0 then s
  else if 4 ≤ (s.core c).recorder.queued s.cycle then
    s.modCore c fun x => { x with recorder := { x.recorder with dropped := x.recorder.dropped + 1 } }
  else write s

/-! ### Stops (27:R377 to R380) -/

/-- The tasks of a partition in slots, in deques and on their way to a slot, on the cores that `on` names (18:R292, 02:R29). -/
def tasksOn (s : State) (part : Nat) (on : Nat → Bool) : List Task :=
  ((s.slots.filter fun e => e.2.part == part && on (coreOf e.1)).map (·.2))
    ++ ((s.deques.filter fun e => e.1 / 1024 == part && on (e.1 % 1024)).flatMap fun (e : Nat × Deque) => e.2.entries)
    ++ (s.cald.steals.filter fun (x : Steal) => x.task.part == part && on (coreOf x.key)).map (·.task)

def clusterTasks (s : State) (part cluster : Nat) : List Task := s.tasksOn part fun c => clusterOf c == cluster

/-- The tasks of a partition wherever they run. -/
def allTasks (s : State) (part : Nat) : List Task := s.tasksOn part fun _ => true

/-- A task where it runs: a slot, a deque, a steal. -/
def running? (s : State) (part : Nat) (g : Word) : Option Task := (s.allTasks part).find? fun t => t.gtid == g

/-- A slot number of the core that holds a task: its slot, or where its core has none for it, that core's first (assumption 97, DESIGN
CHOICE). -/
def ringKey? (s : State) (g : Word) : Option Nat :=
  match s.keyOf? g with
  | some k => some k
  | none => match s.cald.steals.find? fun (x : Steal) => x.task.gtid == g with
    | some x => some x.key
    | none => (s.deques.find? fun (e : Nat × Deque) => e.2.entries.any fun t => t.gtid == g).map fun e => e.1 % 1024 * 16

/-- Send a stop to a task: it reaches the task at its core, or at the one a steal takes it to (27:R383). Its skid counts from `base`, or from
now; `note` is the memory record of a match (27:R380, R392). -/
def sendStop (s : State) (g : Word) (cause : BitVec 6) (base : Option Nat := none) (note : Option VWord := none) : State :=
  match s.ringKey? g, s.everyTask.find? fun t => t.gtid == g with
  | some k, some t => { s with dbg := { s.dbg with stops := s.dbg.stops
      ++ [(coreOf k, { gtid := g, cause := cause, cycle := s.cycle, base := base.getD t.nissued, note := note })] } }
  | _, _ => s

def attached (s : State) (part : Nat) : Bool := ((s.partOf? part).map (·.dbg.session.isSome)).getD false

/-- Tasks of a partition in slots, by key. -/
def residents (s : State) (part : Nat) : List (Nat × Task) := s.slots.filter fun e => e.2.part == part

/-- The other tasks an action stops: a gang, the cluster where the match occurred, the partition (27:R378). -/
def actionTargets (s : State) (m : Match) (action : Nat) : List Word :=
  let gang := ((s.running? m.part m.gtid).bind (·.gang))
  let ts : List Task := match action with
    | 1 => (s.allTasks m.part).filter fun (t : Task) => t.gang.isSome && t.gang == gang
    | 2 => s.clusterTasks m.part (clusterOf m.core)
    | 3 => s.allTasks m.part
    | _ => []
  (ts.map (·.gtid)).filter (· != m.gtid)

/-- Send a trigger to every core of a partition (27:R384), where each arrival is an event, and to the other packages of its domain. -/
def sendTriggerTo (s : State) (part core : Nat) (id : BitVec 4) (action : BitVec 2) (count : Nat) : State :=
  match s.partOf? part with
  | none => s
  | some p =>
    let s := { s with agenda := s.agenda ++ p.cores.map (fun c =>
      Instr.triggerArrival c part id action count s.pkgNo (BitVec.ofNat 10 core) s.cycle) }
    match s.domainAt part with
    | none => s
    | some (k, d) => s.controlAll k d.joined (.trigger id action count (BitVec.ofNat 10 core) s.cycle)

/-- Act on a match of a breakpoint or watchpoint (27:R377, R378, R392). `now` says that the matching task stops here, once; otherwise a stop
message goes to it. The others take HALT_REQ. -/
def onMatch (s : State) (m : Match) (cause : BitVec 6) (action : Nat) (id : BitVec 4) (ta : BitVec 2) (now : Bool) (note : Option VWord := none) :
    State :=
  if !s.attached m.part then s
  else if action = 4 then
    let pay := packFields [(32, m.off), (8, 0)]
    let sub := 8 + cause.toNat % 8
    let s := s.record m.key 0xA sub m.gtid pay
    let s := s.postStop m.part (recWord 0xA (s.worldOfCore (coreOf m.key)).toNat (slotOf m.key) sub m.gtid s.cycle pay)
    s.sendTriggerTo m.part (coreOf m.key) id ta 0
  else
    let others := s.actionTargets m action
    let s := if !now then s.sendStop m.gtid cause m.base note
      else if (s.taskAt m.key).stopped then s else s.stopTask m.key cause 0
    let s := others.foldl (fun s g => s.sendStop g cHALT_REQ) s
    s.modPart m.part fun p => { p with dbg := { p.dbg with stops := others ++ p.dbg.stops } }

/-- A watchpoint covers these bytes, this kind of access and this task (27:R379). -/
def watchCovers (w : Watchpoint) (mem vt a n : Nat) (mask : Nat) (g : Word) : Bool :=
  w.kind == mem && (mem == 2 || w.vtile == vt) && decide (w.mask.toNat &&& mask ≠ 0) && (w.gtid == 0 || w.gtid == g)
    && decide (w.addr < a + n) && decide (a < w.addr + 2 ^ w.k)

/-- Mask bits of an access: read 1, write 2, atomic 4, change of a full/empty bit 8 (27:R379). -/
def accMask : AccOp → Nat
  | .load _ _ => 1
  | .store _ _ => 2
  | .nibble _ _ => 2
  | .amo _ _ _ _ => 4
  | .feRead t => 1 + ofBool t * 8
  | .feProbe t => 1 + ofBool t * 8
  | .feStore _ _ => 10
  | .count => 14
  | .uncount => 14

def watchHits (s : State) (part mem vt a n mask : Nat) (g : Word) : List Watchpoint :=
  match s.partOf? part with
  | none => []
  | some p => (p.dbg.watches.filter fun w => watchCovers w.2 mem vt a n mask g).map (·.2)

/-- Some of the watches a task has hit stop it. -/
def stopsIt (s : State) (part : Nat) (hits : List Watchpoint) : Bool := s.attached part && hits.any (·.action != 4)

/-- A WATCH at the end of an instruction is taken in place of its SINGLE_STEP (17:R272). -/
def unstep (t : Task) (b : Bool) : Task := if b then { t with stepping := false } else t

/-- Take the watches that the access of an instruction which has just completed has hit, after its memory record (27:R379). -/
def watchNow (s : State) (m : Match) (hits : List Watchpoint) (write : State → State) : State :=
  hits.foldl (fun s w => s.onMatch m cWATCH w.action w.trigId w.trigAction true) (write s)

/-- An access of an instruction as a watchpoint sees it: memory (27:R379), virtual tile, address and operation. -/
abbrev Seen := Nat × Nat × Nat × AccOp

def seenHits (s : State) (t : Task) (x : Seen) : List Watchpoint :=
  s.watchHits t.part x.1 x.2.1 x.2.2.1 x.2.2.2.size (accMask x.2.2.2) t.gtid

def recordSeen (s : State) (key : Nat) (g : Word) (x : Seen) : State :=
  if x.1 = 2 then s.recordExt key g (extSub x.2.2.2) x.2.2.1 else s.recordTile key g x.2.2.2 (x.1 == 1) x.2.1 x.2.2.1

/-- The end of an instruction whose own accesses are matched precisely (27:R379, 17:R272). -/
def completeWatched (s : State) (t : Task) (len : Nat) (l : List Seen) : State :=
  let hits := l.flatMap (s.seenHits t)
  if hits.isEmpty then s.completeWith t len
  else (s.completeWith (unstep t (s.stopsIt t.part hits)) len).watchNow ⟨t.gtid, t.part, s.cur, coreOf s.cur, (standsAt s.task).toNat, none⟩ hits
    fun u => (l.filter fun x => !(s.seenHits t x).isEmpty).foldl (fun u x => u.recordSeen s.cur t.gtid x) u

/-- Take the watches that an access has hit away from its instruction: the stop message to its task carries the memory record of the match,
which is written at once where nothing stops (27:R379, R380, R392). -/
def watchAway (s : State) (m : Match) (mem vt a n mask kind sub pay : Nat) : State :=
  let m := { m with key := (s.ringKey? m.gtid).getD m.key }
  let hits := s.watchHits m.part mem vt a n mask m.gtid
  if hits.isEmpty then s
  else
    let carried := s.stopsIt m.part hits && (s.ringKey? m.gtid).isSome
    let w := recWord kind (s.worldOfCore (coreOf m.key)).toNat (slotOf m.key) sub m.gtid s.cycle pay
    let first := hits.find? (·.action != 4)
    let s := if carried then s else s.record m.key kind sub m.gtid pay
    hits.foldl (fun s h => s.onMatch m cWATCH h.action h.trigId h.trigAction false (if carried && first == some h then some w else none)) s

/-! ### Physical memory and worlds (23:R341 to R349) -/

/-- Bytes of the ranges granted to a partition, as its creation placed them (20:R309; assumption 24, DESIGN CHOICE). -/
def inRanges (rs : List (Nat × Nat)) (pa : Nat) : Bool := rs.any fun r => decide (r.1 ≤ pa) && decide (pa < r.1 + r.2)

/-- World of the granule a physical address lies in (23:R344; assumption 24, DESIGN CHOICE). -/
def granuleWorld (s : State) (pa : Nat) : BitVec 4 :=
  match s.parts.find? fun e => inRanges e.2.ranges pa with
  | some e => e.2.world
  | none => 0

/-- Memory that no partition holds and no world reads or writes as data: the code arena (21:R330), and what another world than the open one was
granted last, until it is granted again (23:R343; assumption 105, DESIGN CHOICE). -/
def sealedOff (s : State) (pa : Nat) : Bool :=
  (decide (arenaBase ≤ pa) && decide (pa < arenaBase + arenaBytes))
    || ((mapGet s.memWorld (pa / 2 ^ 30)).any (· != 0) && !(s.parts.any fun e => inRanges e.2.ranges pa))

def worldOfPart (s : State) (part : Nat) : BitVec 4 := ((s.partOf? part).map (·.world)).getD 0

def poisoned (s : State) (pa : Nat) : Bool := s.poison.contains (pa / 4096)

/-- The pieces touch a poisoned page. -/
def poisonMeets (s : State) (ps : List Piece) : Bool :=
  ps.any fun p => decide (p.addr < hostBase) && (s.poisoned p.addr || s.poisoned (p.addr + p.len - 1))

/-- The pieces touch a line whose MAC fails (23:R345). -/
def macMeets (s : State) (ps : List Piece) : Bool :=
  ps.any fun p => decide (p.addr < hostBase) && s.macBad.any fun l => decide (p.addr / 64 ≤ l) && decide (l ≤ (p.addr + p.len - 1) / 64)

/-- The host link a partition's host traffic takes: the lowest of those granted to it that are up (25:R372; assumption 84, DESIGN
CHOICE). -/
def hostLink? (s : State) (part : Nat) : Option Nat :=
  (s.partOf? part).bind fun p => (setBits p.host.toNat 2).find? fun i => ((s.links.toList[i]?).map (·.up)).getD false

/-- A partition sees main memory of the stacks granted to it (01:R8), and the HDM-DB region of a host link granted to it (25:R364,
R372; assumption 84, DESIGN CHOICE). -/
def granted (s : State) (part pa : Nat) : Bool :=
  match s.partOf? part with
  | none => false
  | some p =>
    if s.inHdm pa then p.host != 0
    else s.granuleWorld pa == p.world && !s.sealedOff pa && (decide (mainBytes ≤ pa) || p.stackMask.getLsbD (pa / 2 ^ 36))

/-- A piece lies in main or second-tier memory of another world (23:R342), or in memory not granted. -/
def foreign (s : State) (part : Nat) (ps : List Piece) : Bool := ps.any fun p => backed p.addr && !s.granted part p.addr

/-- The first physical address of the pieces that no memory backs. -/
def unbacked? (ps : List Piece) : Option Nat :=
  (ps.find? fun p => decide (p.addr < hostBase) && !backed p.addr && !inWindow p.addr).map (·.addr)

/-- `n` bytes the spec leaves open, from free value `i` on. -/
def freeBytes (i n : Nat) : List Byte := ((List.range ((n + 15) / 16)).flatMap fun j => leBytes 16 (Config.freeVec (i + j)).toNat).take n

/-- Bytes of piece k, of at most a page: in the fabric window they are another package's memory, free values (assumption 49, DESIGN
CHOICE). -/
def pieceBytes (s : State) (k : Nat) (p : Piece) : List Byte :=
  if p.addr < hostBase ∧ inWindow p.addr then freeBytes (s.freeCtr + 256 * k) p.len else memRead s.mem p.addr p.len

/-- Bytes of pieces; the free values among them are used up. -/
def takeBytes (s : State) (ps : List Piece) : List Byte × State :=
  ((ps.zipIdx.map fun e => s.pieceBytes e.2 e.1).flatten, { s with freeCtr := s.freeCtr + 256 * ps.length })

/-- DMA to a page that the host has marked confidential needs the T bit, which an interface in RUN sets (23:R358). -/
def hostTakes (s : State) (part : Nat) (p : Piece) : Bool :=
  match s.hostLink? part, s.partOf? part with
  | some i, some x => x.tdisp.toList[i]? == some .run || !((x.hostMarked.contains ((p.addr - hostBase) / 4096))
      || x.hostMarked.contains ((p.addr + p.len - 1 - hostBase) / 4096))
  | _, _ => false

/-- The directory may move a page from or to its place in host memory: the partition has a host link that is up, and no mark refuses it
(01:R8, 23:R358). -/
def hostOpen (s : State) (part hostPa : Nat) : Bool := s.hostTakes part ⟨hostBase + hostPa, 4096, 3⟩

/-- A route is left to the window's granule over fabric links (25:R371; assumption 67, DESIGN CHOICE), or over Ethernet to a domain member
(25:R369), or to the host. -/
def routed (s : State) (part : Nat) (ps : List Piece) : Bool :=
  ps.all fun p =>
    if hostBase ≤ p.addr then s.hostTakes part p
    else !inWindow p.addr ||
      match mapGet s.granules (field p.addr 30 18), s.partOf? part with
      | some g, some x => g.links &&& x.fabric &&& s.fabricUp != 0
          || x.eth &&& s.ethUp != 0 && (s.domainAt part).any (·.2.members.contains g.pkg)
      | _, _ => false

/-- The host link's translation cache holds the pages its requests use, at most 2,048 (19:R308). -/
def atcFill (s : State) (part : Nat) (ps : List Piece) : State :=
  match s.hostLink? part with
  | none => s
  | some k =>
    let pages := (ps.filter fun p => decide (hostBase ≤ p.addr)).flatMap fun p =>
      [(p.addr - hostBase) / 4096, (p.addr - hostBase + p.len - 1) / 4096]
    if pages.isEmpty then s
    else
      let put (l : List Nat) (v : Nat) : List Nat :=
        let l := l.filter (· != v)
        (l ++ [v]).drop (l.length + 1 - 2048)
      { s with mmu := { s.mmu with atc := mapMod s.mmu.atc k [] fun l => pages.foldl put l } }

def readPieces (s : State) (ps : List Piece) : List Byte := ps.flatMap fun p => memRead s.mem p.addr p.len

def writePieces (s : State) : List Piece → List Byte → State
  | [], _ => s
  | p :: r, bs => (s.store p.addr (bs.take p.len)).writePieces r (bs.drop p.len)

/-! ### Translation (19:R294 to R298) -/

/-- Rights an access needs of a page: acc bit 0 read, 1 write, 2 atomic (19:R302). -/
def pageAllows (r w a : Bool) (acc : Nat) : Bool :=
  (acc % 2 == 0 || r) && (acc / 2 % 2 == 0 || w) && (acc / 4 % 2 == 0 || a)

def tlbCovers (e : TlbEntry) (now part va acc : Nat) : Bool :=
  e.part == part && decide (e.vbase ≤ va) && decide (va < e.vbase + e.size) && decide (now < e.expiry)
    && pageAllows e.r e.w e.a acc

/-- A live entry of the cluster's TLB, or of the die's behind it (19:R297). -/
def tlbFind (s : State) (part core va acc : Nat) : Option TlbEntry :=
  let hit (l : List TlbEntry) : Option TlbEntry := l.find? fun e => tlbCovers e s.cycle part va acc
  match hit ((mapGet s.mmu.tlb1 (clusterOf core)).getD []) with
  | some e => some e
  | none => hit ((mapGet s.mmu.tlb2 (dieOf core)).getD [])

/-- The entries of a level but for an older one of the same page. -/
def tlbOthers (l : List TlbEntry) (e : TlbEntry) : List TlbEntry := l.filter fun x => !(x.part == e.part && x.vbase == e.vbase && x.size == e.size)

/-- Put an entry into a first-level TLB: 256 entries, fully associative; the oldest leaves (19:R297; assumption 85, DESIGN CHOICE). -/
def tlbPut (l : List TlbEntry) (e : TlbEntry) : List TlbEntry :=
  let l := tlbOthers l e
  (l ++ [e]).drop (l.length + 1 - 256)

/-- The set of a last-level TLB an entry belongs to: 512 sets of 8 (19:R297; assumption 85, DESIGN CHOICE). -/
def tlbSet (e : TlbEntry) : Nat := e.vbase / e.size % 512

/-- Put an entry into a last-level TLB: the oldest of a full set leaves. -/
def tlbPut8 (l : List TlbEntry) (e : TlbEntry) : List TlbEntry :=
  let l := tlbOthers l e
  let mine := l.filter fun x => tlbSet x == tlbSet e
  (if mine.length < 8 then l else l.erase (mine.headD e)) ++ [e]

def tlbInstall (s : State) (core : Nat) (e : TlbEntry) : State :=
  { s with mmu := { s.mmu with
    tlb1 := mapMod s.mmu.tlb1 (clusterOf core) [] (fun l => tlbPut l e)
    tlb2 := mapMod s.mmu.tlb2 (dieOf core) [] (fun l => tlbPut8 l e) } }

/-- The cluster's own TLB holds a translation of the page. -/
def tlbNear (s : State) (part core va acc : Nat) : Bool :=
  ((mapGet s.mmu.tlb1 (clusterOf core)).getD []).any fun e => tlbCovers e s.cycle part va acc

/-- Keep a copy of a translation that the die's TLB served in the cluster's, with its lease (19:R297). -/
def tlbRefill (s : State) (part core va acc : Nat) : State :=
  if s.tlbNear part core va acc then s
  else match s.tlbFind part core va acc with
    | none => s
    | some e => { s with mmu := { s.mmu with tlb1 := mapMod s.mmu.tlb1 (clusterOf core) [] (fun l => tlbPut l e) } }

/-- What a first-level miss that the last level serves adds to a queued access (19:R297). -/
def tlbDelay (s : State) (part core va n acc : Nat) : Nat :=
  if s.tlbNear part core va acc && s.tlbNear part core (va + n - 1) acc then 0 else 24

/-- The expiry of the lease an access to global memory starts under, the earlier of two (19:R299). -/
def leaseOf (s : State) (part core va n acc : Nat) : Option Nat :=
  match s.tlbFind part core va acc, s.tlbFind part core (va + n - 1) acc with
  | some x, some y => some (min x.expiry y.expiry)
  | _, _ => none

/-- What a translation gives: the pieces, or the page that misses. -/
inductive Xlat
  | pieces (ps : List Piece)
  | miss (va : Nat)
  deriving DecidableEq, Repr

/-- Translate an access in full, split where it straddles two pages (19:R296, 06:R110). -/
def translate (s : State) (part core va n acc : Nat) : Xlat :=
  match s.tlbFind part core va acc with
  | none => .miss va
  | some e =>
    let room := e.vbase + e.size - va
    let p0 : Piece := ⟨e.pbase + (va - e.vbase), min n room, e.kind⟩
    if n ≤ room then .pieces [p0]
    else match s.tlbFind part core (va + room) acc with
      | none => .miss (va + room)
      | some f => .pieces [p0, ⟨f.pbase + (va + room - f.vbase), n - room, f.kind⟩]

/-- Result of a table walk: an entry, a fault with the cause proposed, or a page whose home is the host. -/
inductive WalkOut
  | entry (e : TlbEntry)
  | fault (c : BitVec 6)
  | directory
  deriving DecidableEq, Repr

/-- Fields of a page-table entry (19:R295). -/
structure Pte where
  v : Bool
  kind : Nat
  r : Bool
  w : Bool
  a : Bool
  leaf : Bool
  mig : Nat
  resv : Nat
  pa : Nat
  deriving DecidableEq, Repr

def pteOf (e : Nat) : Pte :=
  { v := field e 63 1 == 1, kind := field e 61 2, r := field e 60 1 == 1, w := field e 59 1 == 1, a := field e 58 1 == 1
    leaf := field e 57 1 == 1, mig := field e 55 2, resv := field e 50 5, pa := field e 12 38 * 4096 }

/-- Address of the entry a table at `pa` holds for `va` (19:R294). -/
def pteAddr (pa lvl va : Nat) : Nat := pa + 8 * (if lvl = 3 then va / 2 ^ 39 % 8192 else va / 2 ^ (12 + 9 * lvl) % 512)

/-- Malformed at its level (19:R295). -/
def pteBad (e : Pte) (lvl : Nat) : Bool :=
  e.resv != 0 || (lvl == 3 && e.leaf) || (lvl == 0 && !e.leaf) || (!e.leaf && e.kind != 0) || e.mig == 3
    || (e.leaf && e.pa % 2 ^ (12 + 9 * lvl) != 0)

/-- An entry the walker may not read: outside main memory, in another world's memory, or poisoned (19:R295). -/
def tableBad (s : State) (part ea : Nat) : Bool :=
  decide (mainBytes ≤ ea) || s.granuleWorld ea != s.worldOfPart part || s.sealedOff ea || s.poisoned ea

/-- The entry of the fabric window's granule, where a granted link routes to it (25:R370, R372), or a granted Ethernet port reaches a domain
member's package (25:R369). -/
def windowOpen (s : State) (part pa : Nat) : Bool :=
  match mapGet s.granules (field pa 30 18), s.partOf? part with
  | some g, some p => g.links &&& p.fabric != 0 || p.eth != 0 && (s.domainAt part).any (·.2.members.contains g.pkg)
  | _, _ => false

/-- The host window of the physical space: bits 49:48 hold 2 (assumption 25, DESIGN CHOICE: the spec gives it no place). -/
def inHostWindow (pa : Nat) : Bool := pa / 2 ^ 48 == 2

/-- What a leaf's address maps. -/
def physOf (pa : Nat) : Nat := if inHostWindow pa then hostBase + pa % 2 ^ 48 else pa

def dirEntry (s : State) (part vpage : Nat) : DirEntry := ((s.partOf? part).bind fun p => mapGet p.dir vpage).getD {}

/-- A remote mapping whose hysteresis has ended faults to the directory (19:R306). -/
def remoteEnded (s : State) (part va : Nat) : Bool := (s.dirEntry part (va / 4096)).timer.isNone

/-- What a good leaf gives. -/
def leafOut (s : State) (part va acc lvl : Nat) (e : Pte) : WalkOut :=
  if e.kind = 3 then .fault cRESERVED_KIND
  else if !pageAllows e.r e.w e.a acc then .fault cPAGE_RIGHTS
  else if e.mig = 1 ∨ (e.mig = 2 ∧ s.remoteEnded part va) then .directory
  else if inWindow e.pa && !s.windowOpen part e.pa then .fault cWALK_ERROR
  else
    let size := 2 ^ (12 + 9 * lvl)
    let lease := ((s.partOf? part).map (·.lease)).getD 20
    .entry { part := part, vbase := va / size * size, size := size, pbase := physOf e.pa, kind := e.kind, r := e.r, w := e.w, a := e.a
             mig := e.mig, expiry := s.cycle + lease * 1700 }

/-- The walk of 19:R294 and R295 from a table at `pa`; `lvl` counts the levels below it. -/
def walkFrom (s : State) (part va acc pa : Nat) : Nat → WalkOut
  | 0 =>
    if s.tableBad part (pteAddr pa 0 va) then .fault cWALK_ERROR
    else
      let e := pteOf (s.loadNat (pteAddr pa 0 va) 8)
      if !e.v then .fault cPAGE_UNMAPPED
      else if pteBad e 0 then .fault cPTE_MALFORMED
      else s.leafOut part va acc 0 e
  | lvl + 1 =>
    if s.tableBad part (pteAddr pa (lvl + 1) va) then .fault cWALK_ERROR
    else
      let e := pteOf (s.loadNat (pteAddr pa (lvl + 1) va) 8)
      if !e.v then .fault cPAGE_UNMAPPED
      else if pteBad e (lvl + 1) then .fault cPTE_MALFORMED
      else if e.leaf then s.leafOut part va acc (lvl + 1) e
      else walkFrom s part va acc e.pa lvl

/-- Walk a partition's table (19:R294). -/
def walk (s : State) (part va acc : Nat) : WalkOut :=
  s.walkFrom part va acc (((s.partOf? part).map (·.ptroot)).getD 0) 3

/-- The directory is moving a page, whose leaf is then not valid (19:R306). -/
def dirMoving (s : State) (part va : Nat) : Bool := match (s.dirEntry part (va / 4096)).st with
  | .moving _ => true
  | _ => false

/-- What a walk gives with the directory's moves seen. -/
def walkSeen (s : State) (part va acc : Nat) : WalkOut :=
  match s.walk part va acc with
  | .fault c => if c == cPAGE_UNMAPPED && s.dirMoving part va then .directory else .fault c
  | x => x

end State

/-- Why a range cannot be reached: its first failing byte, and the cause; none where that page's home is the host. -/
structure VaFail where
  va : Nat
  why : Option (BitVec 6)
  deriving DecidableEq, Repr

/-- The pages of a range: the first address and the bytes of each. -/
def pagesOf (va n : Nat) : List (Nat × Nat) :=
  (List.range ((va % 4096 + n + 4095) / 4096)).map fun i =>
    let a := if i = 0 then va else va / 4096 * 4096 + 4096 * i
    (a, min (va / 4096 * 4096 + 4096 * (i + 1)) (va + n) - a)

/-- The piece of a page that an entry maps. -/
def pieceAt (e : TlbEntry) (p : Nat × Nat) : Piece := ⟨e.pbase + (p.1 - e.vbase), p.2, e.kind⟩

namespace State

/-- The pieces of a range of a partition's memory, walked page by page, as Caldera and firmware do. -/
def walkRange (s : State) (part va acc n : Nat) : Except VaFail (List Piece) :=
  (pagesOf va n).foldl (fun r p =>
    match r with
    | .error c => .error c
    | .ok ps =>
      match s.walkSeen part p.1 acc with
      | .fault c => .error ⟨p.1, some c⟩
      | .directory => .error ⟨p.1, none⟩
      | .entry e => .ok (ps ++ [pieceAt e p])) (.ok [])

/-- Translate a page at a core's cluster port: its TLBs first, else a walk whose entry they keep (01:R12, 19:R297). -/
def pageFor (s : State) (part core va acc : Nat) : Except VaFail (TlbEntry × State) :=
  match s.tlbFind part core va acc with
  | some e => .ok (e, s.tlbRefill part core va acc)
  | none => match s.walkSeen part va acc with
    | .entry e => .ok (e, s.tlbInstall core e)
    | .fault c => .error ⟨va, some c⟩
    | .directory => .error ⟨va, none⟩

/-- The pieces of a range, translated at a core's cluster port. -/
def piecesFor (s : State) (part core va n acc : Nat) : Except VaFail (List Piece × State) :=
  (pagesOf va n).foldl (fun r p =>
    match r with
    | .error c => .error c
    | .ok (ps, s) => match s.pageFor part core p.1 acc with
      | .error c => .error c
      | .ok (e, s) => .ok (ps ++ [pieceAt e p], s)) (.ok ([], s))

/-- No memory of the package backs a piece, it belongs to another world, or it is the host's and the partition has no link that is up (01:R8). -/
def closed (s : State) (part : Nat) (ps : List Piece) : Bool :=
  s.foreign part ps || (unbacked? ps).isSome || !s.routed part ps || ps.any fun p => decide (p.addr < hostBase) && inWindow p.addr

/-- Why Caldera, firmware and the device do not reach pieces that translate: they are closed to them, or meet poison or a
failing MAC. -/
def shut (s : State) (part va : Nat) (ps : List Piece) : Except VaFail (List Piece) :=
  if s.closed part ps then .error ⟨va, some cWORLD_REFUSED⟩
  else if s.poisonMeets ps then .error ⟨va, some cPOISON⟩
  else if s.macMeets ps then .error ⟨va, some cINTEGRITY⟩
  else .ok ps

/-- The pieces of a partition's virtual memory as Caldera and firmware reach it, or why they cannot: an address above the 52 bits of a
virtual one, or a page that faults, is closed to them, or meets poison. -/
def vaPieces (s : State) (part va acc n : Nat) : Except VaFail (List Piece) :=
  if 2 ^ 52 < va + n then .error ⟨va, some cPAGE_UNMAPPED⟩
  else match s.walkRange part va acc n with
  | .error e => .error e
  | .ok ps => s.shut part va ps

/-- Read a partition's virtual memory, or say why not. -/
def vaRead (s : State) (part va n : Nat) : Except VaFail (List Byte) := (s.vaPieces part va 1 n).map s.readPieces

/-- Write a partition's virtual memory, or say why not. -/
def vaWrite (s : State) (part va : Nat) (bs : List Byte) : Except VaFail State :=
  (s.vaPieces part va 2 bs.length).map fun ps => s.writePieces ps bs

/-- The pieces of a range as a core reaches it through the port of its cluster, whose TLB serves it and keeps what it walks for (06:R100,
01:R12, 18:R282). -/
def portPieces (s : State) (part core va acc n : Nat) : Except VaFail (List Piece × State) :=
  if 2 ^ 52 < va + n then .error ⟨va, some cPAGE_UNMAPPED⟩
  else match s.piecesFor part core va n acc with
  | .error e => .error e
  | .ok (ps, s) => (s.shut part va ps).map fun ps => (ps, s)

def portRead (s : State) (part core va n : Nat) : Except VaFail (List Byte × State) :=
  (s.portPieces part core va 1 n).map fun r => (r.2.readPieces r.1, r.2)

def portWrite (s : State) (part core va : Nat) (bs : List Byte) : Except VaFail State :=
  (s.portPieces part core va 2 bs.length).map fun r => r.2.writePieces r.1 bs

def readVa (s : State) (part va n : Nat) : Option (List Byte) := (s.vaRead part va n).toOption
def writeVa (s : State) (part va : Nat) (bs : List Byte) : Option State := (s.vaWrite part va bs).toOption

end State

end Sys2Proof.Machine
end

