-- ==== Sys2Proof/Machine/Memory.lean ====
section
/-! DEFINITION. Memory instructions: tile memory, full/empty words, queued access, atomics, `waddr`, `fork` and `join`
(13:R217 to R230, R234, R235). -/

namespace Sys2Proof.Machine

namespace State

/-! ### Shared steps -/

/-- Extra cycles of a core's access to its tile's memory. Cores are served in ascending order, so the stage core comes first. -/
def bankCost (s : State) (acc : Bool) (a : Nat) : Nat × State :=
  s.bankAt (tileOf (coreOf s.cur)) s.cycle acc (s.bankOf s.task.part acc a)

/-- The scope of an access: the one written, else the default (10:R165, 07:R123). -/
def scopeOr (sn : Bool) (scope dflt : BitVec 4) : BitVec 4 := if sn then scope else dflt

/-- The narrowest scope that contains a core and a tile (07:R113). -/
def scopeOfTiles (core tile : Nat) : BitVec 4 :=
  if tileOf core = tile then 2 else if tileOf core / 4 = tile / 4 then 3 else if tileOf core / 64 = tile / 64 then 4 else 5

/-- The default scope of an access to a virtual tile's memory through its agent (07:R123). -/
def farScope (s : State) (t : Task) (vt : Nat) : BitVec 4 := scopeOfTiles (coreOf s.cur) ((s.physTile? t.part vt).getD 0)

/-- The default scope of a queued access: package, and host for space 0x5 (07:R123). -/
def extScope (space : Nat) : BitVec 4 := if space = 5 then 6 else 5

/-- The end of an instruction with its access to a tile of its own, and the watches it has hit (27:R379). -/
def localEnds (s : State) (t : Task) (len : Nat) (op : AccOp) (acc : Bool) (vt a : Nat) : State :=
  s.completeWatched t len [(ofBool acc, vt, a, op)]

/-- Perform a local access and complete: `f` puts its value into the task; latency 5 and the bank's cost (10:R173). -/
def localDo (s : State) (acc : Bool) (vt a len : Nat) (op : AccOp) (f : Task → Nat → Nat → Task) : State :=
  let t := s.task
  match s.perform (tileAddr t.part acc vt a) op with
  | none => s
  | some (x, s) =>
    let (extra, s) := s.bankCost acc a
    s.localEnds (f t x (5 + extra)) len op acc vt a

/-- A request to a tile's agent on channel 2, completing at issue (13:R220, R221). -/
def remoteSend (s : State) (t : Task) (x : Segment) (a len : Nat) (op : AccOp) (dst : Option RegId) (acq rel : Bool) (scope : BitVec 4) : State :=
  let acc := x.space == 6
  let s := s.sendAcc fun tag =>
    { tag := tag, owner := t.gtid, key := s.cur, part := t.part, op := op, place := .tile acc x.target a, dst := dst
      acq := acq, rel := rel, scope := scope, issued := s.cycle }
  let s := s.sampled t fun s => s.recordTile s.cur t.gtid op acc x.target a
  let t := match dst with
    | some r => t.markEmpty r
    | none => t
  s.completeWith t len

/-- A request that the task waits for at its instruction. -/
def remoteWait (s : State) (t : Task) (x : Segment) (a row : Nat) (op : AccOp) (dst : Option RegId) (acq rel : Bool) (scope : BitVec 4)
    (carry : List Nat) : State :=
  let tag := s.tagCtr
  let s := s.sendAcc fun tag =>
    { tag := tag, owner := t.gtid, key := s.cur, part := t.part, op := op, place := .tile (x.space == 6) x.target a, dst := dst
      acq := acq, rel := rel, scope := scope, issued := s.cycle, waits := true, carry := carry }
  let s := s.sampled t fun s => s.recordTile s.cur t.gtid op (x.space == 6) x.target a
  s.park row (.response tag)

/-- The task's own request of this kind, to this word, that it waits for. -/
def waitedFor (s : State) (g : Word) (op : AccOp) (vt a : Nat) : Option Acc :=
  s.net.accs.find? fun x => x.owner == g && x.op == op && x.waits && x.place == Place.tile false vt a

/-- The memory record of an announced operation: one to another tile or to external memory (27:R386). -/
def announceRecord (s : State) (t : Task) (op : AccOp) (place : Place) (far : Bool) : State :=
  match place with
  | .tile acc vt a => if far then s.sampled t fun s => s.recordTile s.cur t.gtid op acc vt a else s
  | .ext _ _ va _ => s.sampled t fun s => s.recordExt s.cur t.gtid (extSub op) va

/-- Announce an SC operation: everything before it is performed first, then it takes effect at its window's end
(07:R127, R128). -/
def announce (s : State) (t : Task) (op : AccOp) (place : Place) (dst : Option RegId) (len : Nat) (m : MemOp) (far : Bool) :
    State :=
  if s.unperformed t.gtid || s.acqPending t.gtid then s.park 9 (.performed false)
  else
    let o : ScOp := { tag := s.tagCtr, owner := t.gtid, key := s.cur, part := t.part, cycle := s.cycle, op := op, place := place
                      dst := dst, len := len, pinc := m.bumpBy, far := far, nissue := t.nissued
                      offset := (standsAt t).toNat }
    let s : State := { s with tagCtr := s.tagCtr + 1, net := { s.net with scOps := s.net.scOps ++ [o] } }
    (s.announceRecord t op place far).park 9 (.sc o.tag)

/-- A release behind something not yet performed. -/
def releaseWaits (s : State) (g : Word) : Bool := s.unperformed g || s.acqPending g

def regDst (isV : Bool) (r : Reg) : Option RegId := if isV then some (.v r) else if r = 0 then none else some (.s r)

def writeT (t : Task) (now : Nat) (isV : Bool) (r : Reg) (x lat : Nat) : Task :=
  if isV then t.writeV now r (BitVec.ofNat 128 x) lat else t.writeS now r (BitVec.ofNat 64 x) lat

/-! ### Loads and stores (13:R219 to R222) -/

def load (s : State) (o : LdArgs) (n : Nat) (isV : Bool) : State :=
  s.plain o.f [] o.m.reads fun t =>
    match s.check o.m.seg (o.m.offset t).toNat n { rd := true } [1, 2, 3, 6] n [4, 16] with
    | .error e => s.trap e
    | .ok (x, a) => s.toWrite [if isV then .v o.t else .s o.t] (
      let acc := x.space == 2 || x.space == 6
      let op : AccOp := .load n o.sx
      if o.o.ord = 3 then s.announce t op (.tile acc (s.tileOfSeg x) a) (regDst isV o.t) o.f.bytes o.m (decide (2 < x.space))
      else if x.space ≤ 2 then
        if s.localWaits t acc a n then s
        else s.localDo acc s.here a o.f.bytes op fun t v lat => writeT (o.m.bump t) s.cycle isV o.t v lat
      else s.remoteSend (o.m.bump t) x a o.f.bytes op (regDst isV o.t) (o.o.ord == 2) false (scopeOr o.o.sn o.o.scope (s.farScope t x.target)))

def storeOp (s : State) (o : StArgs) (n : Nat) (isV : Bool) : State :=
  s.plain o.f [] (o.m.reads ++ [if isV then (.v o.t, o.et) else (.s o.t, o.et)]) fun t =>
    match s.check o.m.seg (o.m.offset t).toNat n { wr := true } [1, 2, 3, 6] n [4, 16] with
    | .error e => s.trap e
    | .ok (x, a) =>
      let acc := x.space == 2 || x.space == 6
      let d := (if isV then (t.getV o.t).toNat else (t.getS o.t).toNat) % 2 ^ (8 * n)
      let op : AccOp := .store n d
      if o.o.ord = 3 then s.announce t op (.tile acc (s.tileOfSeg x) a) none o.f.bytes o.m (decide (2 < x.space))
      else if x.space ≤ 2 then
        if o.o.ord = 1 ∧ s.releaseWaits t.gtid then (s.hold t (.store s.here acc a n d)).completeWith (o.m.bump t) o.f.bytes
        else if s.localWaits t acc a n then s
        else s.localDo acc s.here a o.f.bytes op fun t _ _ => o.m.bump t
      else s.remoteSend (o.m.bump t) x a o.f.bytes op none false (o.o.ord == 1) (scopeOr o.o.sn o.o.scope (s.farScope t x.target))

/-- `st.d4`: the offset and the increment count nibbles (13:R222). -/
def storeNibble (s : State) (o : StArgs) : State :=
  s.plain o.f [] (o.m.reads ++ [(.s o.t, o.et)]) fun t =>
    let off := (o.m.offset t).toNat
    match s.check o.m.seg (off / 2) 1 { wr := true } [1, 2, 3, 6] 1 [] with
    | .error e => s.trap { e with addr := BitVec.ofNat 64 off }
    | .ok (x, a) =>
      let op : AccOp := .nibble (off % 2 == 1) ((t.getS o.t).toNat % 16)
      if x.space ≤ 2 then
        if o.o.ord = 1 ∧ s.releaseWaits t.gtid then
          (s.hold t (.nibble s.here a (off % 2 == 1) ((t.getS o.t).toNat % 16))).completeWith (o.m.bump t) o.f.bytes
        else if s.localWaits t false a 1 then s
        else s.localDo false s.here a o.f.bytes op fun t _ _ => o.m.bump t
      else s.remoteSend (o.m.bump t) x a o.f.bytes op none false (o.o.ord == 1) (scopeOr o.o.sn o.o.scope (s.farScope t x.target))

/-! ### Full/empty words (13:R223, R224, R235) -/

/-- The yielding form yields for every task but a gang member, which waits as the plain form does (13:R224). -/
def yields (t : Task) (y : Bool) : Bool := y && t.gang.isNone

/-- Yield in place of parking: with no room in the deque the task stays, as after `hint.yield`, and issues again (13:R224, R236,
02:R42). -/
def yieldNow (s : State) (t : Task) : State := if s.canYield then s.yieldTask t else s.hintYield

/-- Yield, or wait as the plain form does. -/
def yieldOr (s : State) (t : Task) (y : Bool) (wait : State) : State := if yields t y then s.yieldNow t else wait

/-- A request a task waited for at its instruction has come back: `done` with its value, or with the mark of a delivery that its path
ended (17:R271). -/
def cameBack (s : State) (t : Task) (r : Acc) (done : State → Task → Nat → Bool → State) : State :=
  match r.st with
  | .answered v => done (s.dropAcc r.tag) t v false
  | .failed _ => done (s.dropAcc r.tag) (noteErr t (accErrAddr r) (placeSub r)) 0 true
  | _ => s.park 2 (.response r.tag)

/-- A `y` form of a remote word: it probes, and parks until the reply (13:R224). -/
def probe (s : State) (t : Task) (x : Segment) (a : Nat) (take : Bool) (dst : Option RegId) (scope : BitVec 4)
    (got : State → Task → Nat → Bool → State) : State :=
  match s.waitedFor t.gtid (.feProbe take) x.target a with
  | none => s.remoteWait t x a 2 (.feProbe take) dst true false scope []
  | some r => s.cameBack t r fun s t v bad => if v < 2 ^ 64 then got s t v bad else s.yieldNow t

/-- A `join` of a remote word marks its register empty and parks until the agent has answered, which completes it (06:R105, 13:R235). -/
def joinWait (s : State) (t : Task) (o : FeArgs) (x : Segment) (a : Nat) (take : Bool) (scope : BitVec 4) : State :=
  match s.waitedFor t.gtid (.feRead take) x.target a with
  | some r => s.park 2 (.response r.tag)
  | none =>
    let t := t.markEmpty (.s o.t)
    let bump := match o.m.bumpBy with
      | some (r, d) => [r.toNat, d.toNat]
      | none => []
    (s.setTask t).remoteWait t x a 2 (.feRead take) (regDst false o.t) true false scope (o.f.bytes :: bump)

/-- `ldfe`, `ldfe.take` and `join`; `atHome` says that a remote form parks until its answer arrives (13:R235; assumption 43, DEDUCED). -/
def feLoad (s : State) (o : FeArgs) (take atHome : Bool) : State :=
  s.plain o.f [] o.m.reads fun t =>
    match s.check o.m.seg (o.m.offset t).toNat 8 { rd := true } [1, 3] 8 [] with
    | .error e => s.trap e
    | .ok (x, a) =>
      let put (t : Task) (v lat : Nat) : Task := (o.m.bump t).writeS s.cycle o.t (BitVec.ofNat 64 v) lat
      let got (s : State) (t : Task) (v : Nat) (bad : Bool) : State :=
        s.completeWith (if bad then (put t v 1).setErr (.s o.t) else put t v 1) o.f.bytes
      let dst := regDst false o.t
      let w := tileAddr t.part false s.here a
      -- the completion of `join` is an acquire at package scope (13:R235)
      let scope := scopeOr o.sn o.scope (if atHome then 5 else s.farScope t x.target)
      if x.space = 1 then
        if s.localWaits t false a 8 then s
        else if !s.feFull w then s.yieldOr t o.y (s.park 2 (.word w true))
        else s.toWrite [.s o.t] (s.localDo false s.here a o.f.bytes (.feRead take) put)
      else if (s.waitedFor t.gtid (.feRead take) x.target a).isSome then s.joinWait t o x a take scope
      else s.toWrite [.s o.t] (
        if yields t o.y then s.probe t x a take dst scope got
        else if atHome then s.joinWait t o x a take scope
        else s.remoteSend (o.m.bump t) x a o.f.bytes (.feRead take) dst true false scope)

/-- `stfe` (13:R223), always a release. -/
def feStore (s : State) (o : StfeArgs) : State :=
  s.plain o.f [] (o.m.reads ++ [(.s o.t, o.et)]) fun t =>
    match s.check o.m.seg (o.m.offset t).toNat 8 { wr := true } [1, 3] 8 [] with
    | .error e => s.trap e
    | .ok (x, a) =>
      let d := (t.getS o.t).toNat
      let w := tileAddr t.part false s.here a
      if x.space = 1 then
        if s.releaseWaits t.gtid then
          if o.wfe then s else (s.hold t (.fill s.here a d)).completeWith (o.m.bump t) o.f.bytes
        else if o.wfe && s.feFull w then s.park 2 (.word w false)
        else s.localDo false s.here a o.f.bytes (.feStore o.wfe d) fun t _ _ => o.m.bump t
      else s.remoteSend (o.m.bump t) x a o.f.bytes (.feStore o.wfe d) none false true (scopeOr o.sn o.scope (s.farScope t x.target))

/-! ### Queued access (13:R225, 06:R106 to R108) -/

/-- The translation of an access of the task misses: it stays at its instruction while the walk runs (06:R107). -/
def startWalk (s : State) (t : Task) (seg : BitVec 3) (va acc : Nat) : State :=
  let w : Walk := { gtid := t.gtid, key := s.cur, part := t.part, cluster := clusterOf (coreOf s.cur), va := va, acc := acc
                    seg := seg, since := s.cycle, sup := t.priv != .task }
  if s.mmu.walks.any fun v => v.gtid == t.gtid && v.va / 4096 == va / 4096 && v.acc == acc then s
  else { s with mmu := { s.mmu with walks := s.mmu.walks ++ [w] } }

/-- The pieces of an external access: space 0x5 is not translated and is treated as SO (06:R100, R110). -/
def extPieces (s : State) (t : Task) (space a n acc : Nat) : Xlat :=
  if space = 5 then .pieces [⟨hostBase + a, n, 0⟩] else s.translate t.part (coreOf s.cur) a n acc

/-- The end of an instruction whose queued access has been accepted, with the watches it hit on its translation (27:R379). -/
def extEnds (s : State) (t : Task) (len : Nat) (op : AccOp) (space a : Nat) : State :=
  if space ≠ 4 then s.completeWith t len
  else s.completeWatched t len [(2, 0, a, op)]

/-- Push a queued request or a space-0x4 atomic; an annotation on UO pages alone is plain (07:R123). One that a barrier of its domain holds parks at
row 10 (23:R356; assumption 116, DESIGN CHOICE). -/
def queuePush (s : State) (t : Task) (m : MemOp) (len space a n q acc : Nat) (op : AccOp) (dst : Option RegId)
    (o : Order) : State :=
  match s.extPieces t space a n acc with
  | .miss va => s.startWalk t m.seg va acc
  | .pieces ps =>
    let core := coreOf s.cur
    let late := if space = 4 then s.tlbDelay t.part core a n acc else 0
    let lease := if space = 4 then s.leaseOf t.part core a n acc else none
    let s := (if space = 4 then (s.tlbRefill t.part core a acc).tlbRefill t.part core (a + n - 1) acc else s).atcFill t.part ps
    let marked := ps.any orderedPiece
    let place : Place := .ext space q a ps
    if s.domainHolds t.part ps then s.park 10 .domain
    else if !s.queueRoom t.part (coreOf s.cur) q then s.park 10 (.queueShare q)
    else if o.ord = 3 then s.announce t op place dst len m false
    else if o.ord = 1 ∧ marked ∧ s.unperformed t.gtid then s.park 9 (.performed false)
    else
      let s := s.sendAcc fun tag =>
        { tag := tag, owner := t.gtid, key := s.cur, part := t.part, op := op, place := place, dst := dst
          acq := o.ord == 2 && marked, rel := o.ord == 1 && marked
          scope := scopeOr o.sn o.scope (extScope space), leaseEnd := lease, issued := s.cycle, extra := late }
      let s := s.sampled t fun s => s.recordExt s.cur t.gtid (extSub op) a
      let t' := m.bump t
      let t' := match dst with
        | some r => t'.markEmpty r
        | none => t'
      s.extEnds t' len op space a

/-- The spaces of a queued access; `sc` on space 0x5 is refused with the path check (13:R225, 07:R128). -/
def extSpaces (ord : BitVec 2) : List Nat := if ord = 3 then [4] else [4, 5]

def qload (s : State) (o : QArgs) : State :=
  let isV := o.size == 4
  let n := 2 ^ o.size.toNat
  s.plain o.f [] o.m.reads fun t =>
    match s.check o.m.seg (o.m.offset t).toNat n { rd := true } (extSpaces o.o.ord) 1 [] with
    | .error e => s.trap e
    | .ok (x, a) =>
      s.toWrite [if isV then .v o.t else .s o.t] (s.queuePush t o.m o.f.bytes x.space a n o.queue.toNat 1 (.load n false) (regDst isV o.t) o.o)

def qstore (s : State) (o : QArgs) : State :=
  let isV := o.size == 4
  let n := 2 ^ o.size.toNat
  s.plain o.f [] (o.m.reads ++ [if isV then (.v o.t, o.et) else (.s o.t, o.et)]) fun t =>
    match s.check o.m.seg (o.m.offset t).toNat n { wr := true } (extSpaces o.o.ord) 1 [] with
    | .error e => s.trap e
    | .ok (x, a) =>
      let d := (if isV then (t.getV o.t).toNat else (t.getS o.t).toNat) % 2 ^ (8 * n)
      s.queuePush t o.m o.f.bytes x.space a n o.queue.toNat 2 (.store n d) none o.o

/-! ### Atomics (13:R227) -/

/-- A local release that must wait for what comes before it does nothing and issues again (assumption 21, DEDUCED). -/
def amo (s : State) (o : AmoArgs) (w : Nat) : State :=
  let n := w / 8
  let cas := o.op == 9
  s.plain o.f [] (o.m.reads ++ [(.s o.c, o.ec)] ++ if cas then [(.s o.t, o.et)] else []) fun t =>
    let off := (o.m.offset t).toNat
    let space := (segOf (t.getG o.m.seg)).space
    if o.queue != 0 && space != 4 then s.trapC cRESERVED_FIELD
    else match s.check o.m.seg off n { at_ := true } [1, 2, 3, 4, 6] n [4] with
    | .error e => s.trap e
    | .ok (x, a) =>
      let acc := x.space == 2 || x.space == 6
      let op : AccOp := .amo w o.op.toNat ((t.getS o.c).toNat % 2 ^ w) ((t.getS o.t).toNat % 2 ^ w)
      s.toWrite [.s o.t] (if x.space = 4 then s.queuePush t o.m o.f.bytes 4 a n o.queue.toNat 4 op (regDst false o.t) o.o
      else if o.o.ord = 3 then s.announce t op (.tile acc (s.tileOfSeg x) a) (regDst false o.t) o.f.bytes o.m (decide (2 < x.space))
      else if x.space ≤ 2 then
        if s.localWaits t acc a n || (o.o.ord == 1 && s.releaseWaits t.gtid) then s
        else s.localDo acc s.here a o.f.bytes op fun t v lat => (o.m.bump t).writeS s.cycle o.t (BitVec.ofNat 64 v) lat
      else s.remoteSend (o.m.bump t) x a o.f.bytes op (regDst false o.t) (o.o.ord == 2) (o.o.ord == 1)
        (scopeOr o.o.sn o.o.scope (s.farScope t x.target)))

/-! ### `waddr` (13:R230) -/

/-- Reading the word now must follow the task's own accesses on its path, and on an SO page its earlier SO accesses (06:R110, 07:R115,
R120). -/
def watchWaits (s : State) (t : Task) (x : Segment) (a n : Nat) (ps : List Piece) : Bool :=
  if x.space = 1 then s.localWaits t false a n
  else s.acqPending t.gtid || s.net.accs.any fun b => b.owner == t.gtid && b.pending && match b.place with
    | .tile acc vt _ => x.space == 3 && !acc && vt == x.target
    | .ext _ _ _ qs => 4 ≤ x.space && (piecesMeet qs ps || (qs.any soPiece && ps.any soPiece))

/-- What the memory side refuses of a read by a task: a lost member, no route, another world, poison, a MAC that fails
(23:R342, R345, R347, R356, 25:R371; assumption 44, DEDUCED). -/
def readRefused (s : State) (part va : Nat) (ps : List Piece) : Option Exc :=
  if s.domainLost part ps then some (exc cDOMAIN_LOST)
  else if !s.routed part ps then some { cause := cDELIVERY_ERROR, addr := BitVec.ofNat 64 (va % 2 ^ 52) }
  else if s.foreign part ps then some (exc cWORLD_REFUSED)
  else if s.poisonMeets ps then some (exc cPOISON)
  else if s.macMeets ps then some (exc cINTEGRITY)
  else none

/-- The pieces of the word a `waddr` watches. -/
def watchPieces (s : State) (t : Task) (x : Segment) (a n : Nat) : Xlat :=
  if x.space = 1 ∨ x.space = 3 then Xlat.pieces [⟨tileAddr t.part false (s.tileOfSeg x) a, n, 0⟩] else s.extPieces t x.space a n 1

def watchCheck (s : State) (t : Task) (o : WaddrArgs) : Except Exc (Segment × Nat) :=
  let n := if o.d64 then 8 else 4
  s.check o.m.seg (o.m.offset t).toNat n { rd := true } [1, 3, 4, 5] n []

def waddrReads (o : WaddrArgs) : List (RegId × Bool) := o.m.reads ++ [(.s o.t, o.et)]

/-- The end of a `waddr`: a read of another tile is matched at its bank, the others precisely (27:R379). -/
def watchEnds (s : State) (t : Task) (len : Nat) (x : Segment) (a n : Nat) : State :=
  if x.space = 3 then
    let off := (standsAt s.task).toNat
    let at_ : Match := ⟨t.gtid, t.part, s.cur, ((s.physTile? t.part x.target).getD 0) * 2, off, some t.nissued⟩
    (s.completeWith t len).watchAway at_ 0 x.target a n 1 0x2 0
      (packFields [(21, a), (9, 0), (10, x.target)])
  else if x.space = 1 then s.localEnds t len (.load n false) false s.here a
  else s.extEnds t len (.load n false) x.space a

def waitAddr (s : State) (o : WaddrArgs) : State :=
  let n := if o.d64 then 8 else 4
  s.plain o.f [.s o.t] (waddrReads o) fun t =>
    match s.watchCheck t o with
    | .error e => s.trap e
    | .ok (x, a) =>
      match s.watchPieces t x a n with
      | .miss va => s.startWalk t o.m.seg va 1
      | .pieces ps =>
        if s.watchWaits t x a n ps then s
        else if 4 ≤ x.space ∧ s.domainHolds t.part ps then s.park 10 .domain
        else match (if 4 ≤ x.space then s.readRefused t.part a ps else none) with
          | some e =>
            let u := if e.cause == cDELIVERY_ERROR then noteErr t e.addr 0 else t
            let e := if e.cause == cDELIVERY_ERROR then { e with addr := u.tr.aerr } else e
            ((s.setTask u).recordExt s.cur t.gtid 0 a).trap e
          | none =>
            let (bytes, s) := s.takeBytes ps
            let (extra, s) := if x.space ≤ 3 then s.tileBank t.part (s.tileOfSeg x) false a else (0, s)
            let v := leNat bytes
            let want := (t.getS o.t).toNat % 2 ^ (8 * n)
            if watchHolds o.cond (8 * n) v want then
              s.watchEnds ((o.m.bump t).writeS s.cycle o.t (BitVec.ofNat 64 v) (5 + extra)) o.f.bytes x a n
            else s.yieldOr t o.y (s.park 5 (.watch ((ps.head?.map (·.addr)).getD 0) n v o.cond want))

/-- A physical address no memory backs that this `waddr` would read (assumption 12, DESIGN CHOICE). -/
def watchAbsent (s : State) (o : WaddrArgs) : Option Nat :=
  let t := s.task
  if t.fpend || !t.guard0 o.f.guard || gate s.cycle t [.s o.t] (waddrReads o) != .ok then none
  else match s.watchCheck t o with
    | .error _ => none
    | .ok (x, a) =>
      match s.watchPieces t x a (if o.d64 then 8 else 4) with
      | .miss _ => none
      | .pieces ps => if 4 ≤ x.space then unbacked? ps else none

/-! ### `fork` (13:R234, 02:R18 to R26) -/

/-- A new GTID of a die (02:R17, R18). -/
def newGtid (s : State) (die : Nat) : Word × State :=
  let n := s.cald.serials.toList[die]?.getD 0
  (word64 [(42, n), (3, die), (19, s.pkgNo.toNat)],
   { s with cald := { s.cald with serials := s.cald.serials.setIfInBounds die ((n + 1) % 2 ^ 42) } })

/-- The state every new task starts with (02:R21). -/
def freshTask (gtid : Word) (part capid bodygen entry : Nat) (args : List Nat) (segs : Vector VWord 8) : Task :=
  let t : Task := { gtid := gtid, part := part, capid := capid, bodygen := bodygen, pc := BitVec.ofNat 64 entry, g := segs }
  (List.range 4).foldl (fun t i => t.putS (BitVec.ofNat 5 (i + 1)) (BitVec.ofNat 64 (args[i]?.getD 0))) t

/-- The child of a fork: the parent's segments, binding, launch and step; its counter's home goes with it. -/
def forkChild (t : Task) (code : Capsule) (gtid : Word) (core entry dom counter : Nat) (args : List Nat) : Task :=
  { freshTask gtid t.part code.capid code.bodygen entry args t.g with
    priv := if t.priv = .task then .task else .supervisor
    domain := BitVec.ofNat 2 (min dom t.domain.toNat), tile := t.tile, home := core, prio := t.prio
    launch := t.launch, step := if t.sched then none else t.step, join := some counter }

/-- Push the child and give its GTID to the parent; `seen` are the accesses of the fork to its own tile (27:R379). -/
def forkPush (s : State) (t : Task) (o : MemOp) (dst : Reg) (len : Nat) (code : Capsule) (entry dom counter : Nat)
    (args : List Nat) (seen : List Seen) : State :=
  let core := coreOf s.cur
  let (g, s) := s.newGtid (dieOf core)
  let s := s.pushBottom core (forkChild t code g core entry dom counter args)
  s.completeWatched ((o.bump t).writeS s.cycle dst g 1) len seen

/-- The words of a fork descriptor: `ctl`, `cnt` and four arguments (13:R234). -/
def forkWords (s : State) (base : Nat) : List Nat := (List.range 6).map fun i => s.loadNat (base + 8 * i) 8

/-- The fork of this task, with its descriptor at this address, that waits for its counter's home. -/
def forkWaits (s : State) (g : Word) (base : Nat) : Option Acc :=
  s.net.accs.find? fun a => a.owner == g && a.op == AccOp.count && a.waits && a.carry.head? == some base

/-- A fork whose counter's home has answered: the child is the one its descriptor named when it was checked. The deque may have filled
meanwhile, and then the count is taken back. A path that ended the increment leaves the fork without effect (17:R271; assumption 78,
DEDUCED). -/
def forkBack (s : State) (t : Task) (r : Acc) (m : MemOp) (dst : Reg) (len : Nat) : State :=
  let w (i : Nat) : Nat := r.carry[i + 1]?.getD 0
  let counter := match r.place with
    | .tile acc vt c => tileAddr r.part acc vt c
    | .ext _ _ _ _ => 0
  match r.st with
  | .answered _ =>
    let s := s.dropAcc r.tag
    match s.codeOf? t with
    | none => (s.sendUncount s.cur t.part t.gtid counter).trap { cause := cILLEGAL_TARGET, addr := BitVec.ofNat 64 (field (w 0) 0 32) }
    | some code =>
      if s.dequeRoom t.part (coreOf s.cur) then
        s.forkPush t m dst len code (field (w 0) 0 32) (field (w 0) 32 2) counter (r.carry.drop 3)
          [(0, (placeOf (r.carry.headD 0)).2.1, (placeOf (r.carry.headD 0)).2.2.1, .load 48 false)]
      else (s.sendUncount s.cur t.part t.gtid counter).trapC cDEQUE_FULL
  | .failed _ =>
    let u := noteErr t (accErrAddr r) (placeSub r)
    ((s.dropAcc r.tag).setTask u).trap { cause := cDELIVERY_ERROR, addr := u.tr.aerr, sub := u.errSub }
  | _ => s.park 9 (.response r.tag)

/-- `fork` (13:R234). With a counter in this tile it is a release: while an access of the task has not been performed it issues again,
and its slot is in no row of 02:R36 (assumption 21, DEDUCED). -/
def forkOp (s : State) (f : Form) (m : MemOp) (dst : Reg) : State :=
  s.plain f [] m.reads fun t =>
    match s.check m.seg (m.offset t).toNat 48 { rd := true } [1] 16 [] with
    | .error e => s.trap e
    | .ok (_, a) =>
      let base := tileAddr t.part false s.here a
      match s.forkWaits t.gtid base with
      | some r => s.forkBack t r m dst f.bytes
      | none =>
      if s.localWaits t false a 48 then s
      else
      let words := s.forkWords base
      let s := [0, 16, 32].foldl (fun s i => (s.bankCost false (a + i)).2) s
      let ctl := words[0]?.getD 0
      let entry := field ctl 0 32
      if field ctl 37 27 ≠ 0 then s.trapC cBAD_DESCRIPTOR
      else match s.codeOf? t with
      | none => s.trap { cause := cILLEGAL_TARGET, addr := BitVec.ofNat 64 entry }
      | some code =>
        if !code.lands (BitVec.ofNat 64 entry) then s.trap { cause := cILLEGAL_TARGET, addr := BitVec.ofNat 64 entry }
        else match s.check (BitVec.ofNat 3 (field ctl 34 3)) (words[1]?.getD 0) 8 { rd := true, wr := true } [1, 3] 8 [] with
        | .error e => s.trap e
        | .ok (x, c) =>
          let counter := tileAddr t.part false (s.tileOfSeg x) c
          if !s.dequeRoom t.part (coreOf s.cur) then s.trapC cDEQUE_FULL
          else s.toWrite [.s dst] (
            if x.space = 3 then s.remoteWait t x c 9 .count (regDst false dst) false true 5 (base :: words)
            else if s.releaseWaits t.gtid then s
            else match s.perform counter .count with
              | none => s
              | some (_, s) => (s.bankCost false c).2.forkPush t m dst f.bytes code entry (field ctl 32 2) counter (words.drop 2)
                [(0, s.here, a, .load 48 false), (0, s.here, c, .count)])

end State

def execLdD8 (o : LdArgs) (s : State) : Out := .next (s.load o 1 false)
def execLdD16 (o : LdArgs) (s : State) : Out := .next (s.load o 2 false)
def execLdD32 (o : LdArgs) (s : State) : Out := .next (s.load o 4 false)
def execLdD64 (o : LdArgs) (s : State) : Out := .next (s.load o 8 false)
def execLdD128 (o : LdArgs) (s : State) : Out := .next (s.load o 16 true)
def execStD4 (o : StArgs) (s : State) : Out := .next (s.storeNibble o)
def execStD8 (o : StArgs) (s : State) : Out := .next (s.storeOp o 1 false)
def execStD16 (o : StArgs) (s : State) : Out := .next (s.storeOp o 2 false)
def execStD32 (o : StArgs) (s : State) : Out := .next (s.storeOp o 4 false)
def execStD64 (o : StArgs) (s : State) : Out := .next (s.storeOp o 8 false)
def execStD128 (o : StArgs) (s : State) : Out := .next (s.storeOp o 16 true)
def execLdfe (o : FeArgs) (s : State) : Out := .next (s.feLoad o false false)
def execLdfeTake (o : FeArgs) (s : State) : Out := .next (s.feLoad o true false)
def execJoin (o : FeArgs) (s : State) : Out := .next (s.feLoad o false true)
def execStfe (o : StfeArgs) (s : State) : Out := .next (s.feStore o)
def execQld (o : QArgs) (s : State) : Out := .next (s.qload o)
def execQst (o : QArgs) (s : State) : Out := .next (s.qstore o)
def execAmoD32 (o : AmoArgs) (s : State) : Out := .next (s.amo o 32)
def execAmoD64 (o : AmoArgs) (s : State) : Out := .next (s.amo o 64)
def execFork (f : Form) (m : MemOp) (t : Reg) (s : State) : Out := .next (s.forkOp f m t)
def execWaddr (o : WaddrArgs) (s : State) : Out :=
  match s.watchAbsent o with
  | some pa => .fault (.unbackedAddress pa)
  | none => .next (s.waitAddr o)

end Sys2Proof.Machine
end

