-- ==== Sys2Proof/Machine/Sync.lean ====
section
/-! DEFINITION. Fences, queue waits and messages (13:R226, R228, R231 to R233), and the events that carry accesses on:
deliveries, held releases, remote requests, queued stores, SC operations and wakes (03:R48 to R53, 06:R105 to R111,
07:R119, R127, R128, 02:R40). -/

namespace Sys2Proof.Machine

namespace State

/-! ### Semaphores (14:R242) -/

/-- A signal: the state, and whether it found the count at 65,535. -/
def semSignal (s : State) (part vt n : Nat) : State × Bool :=
  if 65535 ≤ s.semCount part vt n then (s, true)
  else (s.modVTile part vt fun x => { x with sems := x.sems.setIfInBounds n (x.sems.toList[n]?.getD 0 + 1) }, false)

/-- Take 1 and leave the waiters. -/
def semTake (s : State) (part vt n : Nat) (w : SemWaiter) : State :=
  s.modVTile part vt fun x => { x with
    sems := x.sems.setIfInBounds n (x.sems.toList[n]?.getD 0 - 1)
    waiters := x.waiters.setIfInBounds n ((x.waiters.toList[n]?.getD []).filter (· != w)) }

/-- Join the waiters of a semaphore once (assumption 45, DEDUCED). -/
def semJoin (s : State) (part vt n : Nat) (w : SemWaiter) : State :=
  s.modVTile part vt fun x =>
    let l := x.waiters.toList[n]?.getD []
    if l.contains w then x else { x with waiters := x.waiters.setIfInBounds n (l ++ [w]) }

/-! ### Messages (13:R231 to R233, 03:R53) -/

/-- Payload of a message record (27:R387): the other party's rank, channel and m register. -/
def msgPay (rank ch : Nat) (mreg : BitVec 3) : Nat := packFields [(22, 0), (3, mreg.toNat), (1, ch), (14, rank)]

/-- A message enters the network under the next tag: tags of messages tell the order in which they entered it (assumption 4,
DESIGN CHOICE; assumption 51, DEDUCED). -/
def netSend (s : State) (key : Nat) (m : Msg) : State :=
  let s := { s with tagCtr := s.tagCtr + 1, net := { s.net with msgs := s.net.msgs ++ [{ m with tag := s.tagCtr }] } }
  s.record key 0x6 0 m.src (msgPay m.dstRank m.ch m.mreg)

/-- Fill an m register from a message. -/
def msgFill (s : State) (key : Nat) (m : Msg) : State :=
  let t := s.taskAt key
  let s := s.putTask key (((t.putM m.mreg m.data).setFull (.m m.mreg) true).filled s.cycle (.m m.mreg))
  (s.record key 0x6 1 t.gtid (msgPay m.srcRank m.ch m.mreg)).wakeUp key

/-- The messages that wait in a core's inbox, with the slot of their task (03:R53). -/
def inboxOf (s : State) (core : Nat) : List (Nat × Msg) :=
  s.slots.flatMap fun e => if coreOf e.1 == core then e.2.inbox.map fun m => (e.1, m) else []

/-- A message that waits on the core comes before one of this tag from the same source core and channel (03:R53). -/
def inboxBefore (s : State) (core tag srcCore ch : Nat) : Bool :=
  (s.inboxOf core).any fun x => decide (x.2.tag < tag) && x.2.srcCore == srcCore && x.2.ch == ch

/-- The inbox message that delivers next: its register is empty, and none of its source core and channel waits before it. -/
def inboxNext (s : State) (core : Nat) : Option (Nat × Msg) :=
  (s.inboxOf core).find? fun x => !(s.taskAt x.1).full (.m x.2.mreg) && !s.inboxBefore core x.2.tag x.2.srcCore x.2.ch

/-- Deliver what a core's inbox holds for emptied registers, at most `n` messages. -/
def drainInbox (s : State) (core : Nat) : Nat → State
  | 0 => s
  | n + 1 =>
    match s.inboxNext core with
    | none => s
    | some (key, m) =>
      let t := s.taskAt key
      let s := s.putTask key { t with inbox := t.inbox.filter (·.tag != m.tag) }
      drainInbox (s.msgFill key m) core n

def sendOp (s : State) (f : Form) (a : Reg) (ea : Bool) (b : Reg) (eb : Bool) : State :=
  s.plain f [] [(.v a, ea), (.s b, eb)] fun t =>
    let w := (t.getS b).toNat
    let rank := field w 0 14
    if field w 14 6 ≠ 0 ∨ field w 24 40 ≠ 0 ∨ t.gang.isNone ∨ t.gsize ≤ rank then s.trapC cMSG_TARGET
    else
      let ch := field w 23 1
      if !s.sendRoom (coreOf s.cur) ch then s.park 10 (.messageShare ch)
      else
        let dst := ((s.gangOf? t).bind fun g => g.members[rank]?).getD 0
        let m : Msg := { tag := 0, src := t.gtid, srcCore := coreOf s.cur, srcRank := t.grank, gang := t.gang.getD 0, dst := dst
                         dstKey := (s.keyOf? dst).getD 0, dstRank := rank, ch := ch, mreg := BitVec.ofNat 3 (field w 20 3)
                         data := t.getV a }
        if s.releaseWaits t.gtid then (s.hold t (.send m)).complete f.bytes
        else (s.netSend s.cur m).complete f.bytes

/-- `recv` and `recv.keep`: an empty register parks the task at row 3 of 02:R36, or traps by A's bit. -/
def recvOp (s : State) (f : Form) (d : Reg) (a : BitVec 3) (ea keep : Bool) : State :=
  s.plain f [.v d] [(.m a, ea)] fun t =>
    let t' := t.writeV s.cycle d (t.getM a) 1
    if keep then s.completeWith t' f.bytes
    else
      let core := coreOf s.cur
      ((s.completeWith (t'.setFull (.m a) false) f.bytes).drainInbox core (s.inboxOf core).length)

def mwaitOp (s : State) (f : Form) (a : BitVec 3) (ea : Bool) : State := s.plain f [] [(.m a, ea)] fun _ => s.complete f.bytes

/-- A message is held by Caldera: its task is saved, or on its way (20:R321). -/
def msgHeld (s : State) (m : Msg) : Bool :=
  (s.keyOf? m.dst).isNone && (mapGet s.cald.gangs m.gang).any fun g => g.live.contains m.dstRank

/-- A message that waits in an inbox delivers when its register is empty and none of its source core and channel waits before it: its task has
come to the core, or what stood before it has gone (03:R53). -/
def inboxArrive (s : State) (tag : Nat) : State :=
  match s.slots.find? fun e => e.2.inbox.any (·.tag == tag) with
  | none => s
  | some e =>
    match s.inboxNext (coreOf e.1) with
    | none => s
    | some _ => s.drainInbox (coreOf e.1) (s.inboxOf (coreOf e.1)).length

/-- A message reaches its core, in order for its source core, destination core and channel (06:R109). Those that Caldera holds for saved tasks
hold back none for others (20:R321). -/
def msgArrive (s : State) (tag : Nat) : State :=
  match s.net.msgs.find? (·.tag == tag) with
  | none => s.inboxArrive tag
  | some m =>
    let first := s.net.msgs.find? fun x =>
      x.srcCore == m.srcCore && coreOf x.dstKey == coreOf m.dstKey && x.ch == m.ch && (x.dst == m.dst || !s.msgHeld x)
    if (first.map (·.tag)) != some tag || s.msgHeld m then s
    else
      let gone : State := { s with net := { s.net with msgs := s.net.msgs.filter (·.tag != tag) } }
      if m.mute then gone
      else match s.keyOf? m.dst with
      | none => gone.record m.dstKey 0x6 2 m.dst (msgPay m.srcRank m.ch m.mreg)
      | some key =>
        let t := s.taskAt key
        let waits := t.full (.m m.mreg) || s.inboxBefore (coreOf key) m.tag m.srcCore m.ch
        if !waits then gone.msgFill key m
        else
          if (s.inboxOf (coreOf key)).length < 64 then gone.putTask key { t with inbox := t.inbox ++ [m] } else s

/-! ### Fences and waits (13:R226, R228) -/

def fenceOp (s : State) (f : Form) (o : Order) : State :=
  s.plain f [] [] fun t =>
    if o.ord = 2 then
      if s.unperformedReads t.gtid then s.park 9 (.performed true) else s.complete f.bytes
    else if s.unperformed t.gtid then s.park 9 (.performed false)
    else s.complete f.bytes

def qwaitOp (s : State) (f : Form) (sel : BitVec 5) : State :=
  s.plain f [] [] fun t =>
    if s.net.accs.any fun a => a.owner == t.gtid && a.queue? == some sel.toNat then s.park 9 (.queueIdle sel.toNat)
    else s.complete f.bytes

/-! ### Failing accesses (17:R271) -/

/-- The memory record of an access that faults (27:R386). -/
def recordAcc (s : State) (a : Acc) : State :=
  match a.place with
  | .tile acc vt w => s.recordTile a.key a.owner a.op acc vt w
  | .ext _ _ va _ => s.recordExt a.key a.owner (extSub a.op) va

/-- A store that its path ended: DELIVERY_ERROR at the task's next boundary. -/
def storeFails (s : State) (a : Acc) : State :=
  let s := (s.dropAcc a.tag).recordAcc a
  let s := s.addDelay a
  (s.modTask a.owner fun t => noteErr t (accErrAddr a) (placeSub a)).addDueTo a.owner { cause := cDELIVERY_ERROR, cycle := s.cycle }

/-- The answer to an access that its task waits for at its instruction has come, and its delay field: the task goes on, and a `join` is
complete (13:R235, 27:R385). -/
def backTo (s : State) (a : Acc) : State :=
  let s := (s.putAcc a).addDelay a
  match s.keyOf? a.owner with
  | some k => if a.joins then s.joinDone k a else s.wakeUp k
  | none => s

/-- Abort or poison ends an access that has not been performed. -/
def accFails (s : State) (a : Acc) (poison : Bool) : State :=
  if a.waits then (s.recordAcc a).backTo { a with st := .failed poison }
  else if a.op.reads then (s.recordAcc a).putAcc { a with st := .failed poison }
  else s.storeFails a

/-! ### Queued accesses at the memory side (06:R107, R108, 23:R344, R347, 25:R370, R371) -/

/-- Write the pieces that memory of the package or the host backs. -/
def storePieces (s : State) : List Piece → List Byte → State
  | [], _ => s
  | p :: r, bs =>
    let s := if p.addr < hostBase ∧ inWindow p.addr then s else s.store p.addr (bs.take p.len)
    s.storePieces r (bs.drop p.len)

/-- What the memory side does with an access: its value and the state, the cause that refuses it, or an address no memory
backs. -/
inductive Home
  | done (v : Nat) (s : State)
  | refused (c : BitVec 6)
  | lost
  | absent (pa : Nat)

def atHome (s : State) (part : Nat) (op : AccOp) (ps : List Piece) : Home :=
  match unbacked? ps with
  | some pa => .absent pa
  | none =>
    if s.domainLost part ps then .refused cDOMAIN_LOST
    else if !s.routed part ps then .lost
    else if s.foreign part ps then .refused cWORLD_REFUSED
    else if s.poisonMeets ps then .refused cPOISON
    else if op.reads && s.macMeets ps then .refused cINTEGRITY
    else
      let (bytes, s) := s.takeBytes ps
      match op with
      | .load n sx => .done (extLoad n sx (leNat bytes)) (s.askDomain part 0 ps [])
      | .store n d => .done 0 ((s.askDomain part 1 ps (leBytes n d)).storePieces ps (leBytes n d))
      | .amo w o c cmp =>
        let s := s.askDomain part 2 ps (leBytes 1 o ++ leBytes (w / 8) c ++ leBytes (w / 8) cmp)
        .done (leNat bytes) (s.storePieces ps (leBytes (w / 8) (amoNew w o (leNat bytes) c cmp)))
      | _ => .done 0 s

/-- The memory side refuses an access: quarantine is due for its task, and a load delivers zero (13:R225, 17:R274). -/
def accRefused (s : State) (a : Acc) (c : BitVec 6) : State :=
  let s := (if a.op.reads then s.putAcc { a with st := .failed true } else (s.dropAcc a.tag).addDelay a).recordAcc a
  s.addDueTo a.owner { cause := c, cycle := s.cycle }

/-- Pieces in host memory, and in the memory of another package. -/
def toHost (ps : List Piece) : Bool := ps.any fun p => decide (hostBase ≤ p.addr)
def toWindow (ps : List Piece) : Bool := ps.any fun p => decide (p.addr < hostBase) && inWindow p.addr

/-- Poison on the way: what a host link reports delivers under DELIVERY_ERROR, what the device's memory does is POISON (17:R271, 23:R347). -/
def accPoison (s : State) (a : Acc) : State := if a.isTile || toHost a.pieces then s.accFails a true else s.accRefused a cPOISON

/-! ### Deliveries (03:R48, R52, 06:R107) -/

/-- A queue of a core delivers in acceptance order, whatever the partition (06:R107). -/
def queueFirst (s : State) (a : Acc) : Bool :=
  match a.queue? with
  | none => true
  | some q => !(s.net.accs.any fun b => coreOf b.key == coreOf a.key && b.queue? == some q && decide (b.tag < a.tag))

/-- Give the answer of an access to its register, or discard it for a task that has ended. -/
def answer (s : State) (a : Acc) (v : Nat) (err : Bool) : State :=
  let s := (s.dropAcc a.tag).addDelay a
  match a.dst with
  | none => s
  | some r =>
    if a.dead then s.record a.key 0xB 1 a.owner (regPay r)
    else s.deliverTo a.owner a.part r a.tag (BitVec.ofNat 128 v) err (if err then accErrAddr a else 0) (placeSub a)

/-- Cycles from the issue of an access to its answer: the typical figures of 06:R108 for the queues; for a remote access, of which
the spec gives none, 24 (assumption 34, DESIGN CHOICE). -/
def latencyOf (s : State) (a : Acc) : Nat :=
  match a.place with
  | .tile _ _ _ => 24
  | .ext _ _ _ ps =>
    match ps with
    | [] => 560
    | p :: _ =>
      if hostBase ≤ p.addr then 2600
      else if s.inHdm p.addr then 1700
      else if tier2Base ≤ p.addr then 1100
      else 560

/-- An answer arrives at the core. -/
def accArrive (s : State) (a : Acc) : State :=
  if !s.queueFirst a || decide (s.cycle < a.issued + s.latencyOf a + a.extra) then s
  else match a.st with
    | .performed v =>
      let s := s.domainAnswers a.part a.pieces
      if a.waits && !a.dead then s.backTo { a with st := .answered v } else s.answer a v false
    | .failed _ => if a.waits then s else s.answer a 0 true
    | _ => s

/-- Delivery of an SFU result, at least 24 cycles after the unit took its last element (12:R216). -/
def sfuArrive (s : State) (r : SfuReq) : State :=
  if s.cycle < r.last + 24 then s
  else
    let s := { s with net := { s.net with sfu := s.net.sfu.filter (·.tag != r.tag) } }
    let s := if r.drawn then s.poolReturn r.part (r.cluster * 4 + 3) 1 else s
    if r.mute then s
    else if r.dead then s.record r.key 0xB 1 r.owner (regPay (.v r.dst))
    else s.deliverTo r.owner r.part (.v r.dst) r.tag r.value false 0

/-! ### Remote requests at their agent (06:R105, R109, R111) -/

/-- Watchpoints of an access to a virtual tile that is matched at its bank, away from its instruction (27:R379). -/
def farWatch (s : State) (m : Match) (op : AccOp) (acc : Bool) (vt a : Nat) : State :=
  s.watchAway { m with core := ((s.physTile? m.part vt).getD 0) * 2 } (ofBool acc) vt a op.size (accMask op) 0x2 (accSub op + ofBool acc * 8)
    (packFields [(21, a), (9, 0), (10, vt)])

/-- A request that waits at the agent on the same word and could be served now goes first (06:R105). -/
def waiterFirst (s : State) (a : Acc) (addr : Nat) : Bool :=
  s.net.accs.any fun b => b.tag != a.tag && b.part == a.part && b.place == a.place && (match b.st with
    | .waiting => true
    | _ => false) && (s.perform addr b.op).isSome

/-- Requests that wait at the agent of an access, of any partition (06:R105). -/
def agentWaiting (s : State) (a : Acc) : Nat := (s.net.accs.filter fun b => b.st == .waiting && b.isTile && s.agentOf? b == s.agentOf? a).length

/-- The waiting request is the first of those on its word (06:R105). -/
def firstWaiting (s : State) (a : Acc) : Bool :=
  ((s.net.accs.find? fun b => b.part == a.part && b.place == a.place && (match b.st with
    | .waiting => true
    | _ => false)).map (·.tag)) == some a.tag

/-- The agent performs a request, or lets it wait for its word; with 64 that wait, the network holds it until one of them completes
(06:R105). -/
def agentServe (s : State) (a : Acc) (acc : Bool) (vt w : Nat) : State :=
  match s.perform (tileAddr a.part acc vt w) a.op with
  | some (v, s) =>
    let (extra, s) := s.tileBank a.part vt acc w
    (s.putAcc { a with st := .performed v, extra := a.extra + extra }).farWatch ⟨a.owner, a.part, a.key, 0, a.offset, some a.nissue⟩ a.op acc vt w
  | none =>
    if a.st = .waiting then s else if s.agentWaiting a < 64 then s.waitAcc a else s.putAcc { a with st := .blocked }

/-- A remote request reaches its agent: it is served, or made to wait for its word. -/
def remoteArrive (s : State) (tag : Nat) (nib : Bool) : State :=
  match s.accOf? tag with
  | none => s
  | some a =>
    match a.place with
    | .ext _ _ _ _ => s
    | .tile acc vt w =>
      let isNib := match a.op with
        | .nibble _ _ => true
        | _ => false
      if isNib != nib || s.tileAway a.part vt a.owner then s
      else match a.st with
        | .flying =>
          if !s.mayPerform a || s.waiterFirst a (tileAddr a.part acc vt w) then s else s.agentServe a acc vt w
        | .blocked =>
          if 64 ≤ s.agentWaiting a || s.waiterFirst a (tileAddr a.part acc vt w) then s else s.agentServe a acc vt w
        | .waiting => if s.firstWaiting a then s.agentServe a acc vt w else s
        | _ => s

/-! ### Held releases (07:R119) -/

/-- A held store is performed in its bank. -/
def heldStore (s : State) (h : Held) (acc : Bool) (vt a : Nat) (op : AccOp) : State :=
  match s.perform (tileAddr h.part acc vt a) op with
  | none => s
  | some (_, s) => (s.tileBank h.part vt acc a).2.farWatch ⟨h.owner, h.part, h.key, 0, h.offset, some h.nissue⟩ op acc vt a

def heldDo (s : State) (h : Held) : State :=
  match h.op with
  | .store vt acc a n d => s.heldStore h acc vt a (.store n d)
  | .nibble vt a hi d => s.heldStore h false vt a (.nibble hi d)
  | .fill vt a d => s.heldStore h false vt a (.feStore false d)
  | .send m => s.netSend h.key m
  | .signal vt n =>
    let r := s.semSignal h.part vt n
    if r.2 then r.1.addDueTo h.owner { cause := cSEM_OVERFLOW, cycle := s.cycle } else r.1
  | .uncount a => s.sendUncount h.key h.part h.owner a
  | .arrive g rank => s.arriveAt g rank
  | .leave g rank => s.leaveGang g rank

/-- A held release goes to a tile whose image is in Caldera's keeping (20:R322). -/
def heldAway (s : State) (h : Held) : Bool := match h.op with
  | .store vt _ _ _ _ => s.tileAway h.part vt h.owner
  | .nibble vt _ _ _ => s.tileAway h.part vt h.owner
  | .fill vt _ _ => s.tileAway h.part vt h.owner
  | .signal vt _ => s.tileAway h.part vt h.owner
  | _ => false

def heldPerform (s : State) (tag : Nat) : State :=
  match s.net.helds.find? (·.tag == tag) with
  | none => s
  | some h =>
    let acq := s.net.accs.any fun a => a.owner == h.owner && decide (a.tag < tag) && a.holdsLater
    if acq || s.unperformedBefore h.owner tag || s.heldAway h then s
    else ({ s with net := { s.net with helds := s.net.helds.filter (·.tag != tag) } } : State).heldDo h

/-! ### SC operations (07:R127, R128) -/

/-- SC order within a window: core, slot, issue order. -/
def scBefore (a b : ScOp) : Bool := decide (a.key < b.key) || (a.key == b.key && decide (a.tag < b.tag))

def scInsert (o : ScOp) : List ScOp → List ScOp
  | [] => [o]
  | x :: r => if scBefore o x then o :: x :: r else x :: scInsert o r

/-- What a watchpoint sees precisely of an SC operation: not what it does to another tile (27:R379). -/
def scSeen (o : ScOp) : List Seen := match o.place with
  | .tile acc vt a => if o.far then [] else [(ofBool acc, vt, a, o.op)]
  | .ext space _ va _ => if space = 4 then [(2, 0, va, o.op)] else []

/-- Completion of the parked instruction of an SC operation, with `f` giving its result to the task, and the watches it has hit. -/
def scComplete (s : State) (o : ScOp) (f : Task → Task) : State :=
  let t := s.taskAt o.key
  if t.gtid != o.owner then s
  else
    let hits := (scSeen o).flatMap (s.seenHits t)
    let u := s.completeAt o.key o.len fun t => unstep (f (match o.pinc with
      | some (r, x) => t.putS r (t.getS r + x)
      | none => t)) (s.stopsIt o.part hits)
    if hits.isEmpty then u
    else
      let at_ : Match := ⟨o.owner, o.part, o.key, coreOf o.key, o.offset, none⟩
      u.watchNow at_ hits fun u => (scSeen o).foldl (fun u x => u.recordSeen o.key o.owner x) u

/-- The request of an SC operation as its path sees it from here on: it leaves the core's port when the operation takes effect. -/
def scAcc (s : State) (o : ScOp) (tag : Nat) (st : AccState) : Acc :=
  { tag := tag, owner := o.owner, key := o.key, part := o.part, op := o.op, place := o.place, dst := o.dst, issued := s.cycle
    left := some s.cycle, nissue := o.nissue, offset := o.offset, st := st }

/-- An SC operation has taken effect away from its core: its data or acknowledgement comes back as that of its path does, for a queue in
queue order (13:R220, R225). -/
def scSent (s : State) (o : ScOp) (a : Acc) : State :=
  ({ s with tagCtr := s.tagCtr + 1, net := { s.net with accs := s.net.accs ++ [{ a with tag := s.tagCtr }] } } : State).scComplete o fun t =>
    match o.dst with
    | some r => t.markEmpty r
    | none => t

/-- One to external memory takes its place in its queue here, and its destination is empty from here on (assumption 110, DESIGN CHOICE). -/
def scQueued (s : State) (o : ScOp) (st : AccState) : State := s.scSent o (s.scAcc o 0 st)

/-- An external SC operation that its path or its memory ends: a load delivers zero, marked (13:R225, 17:R271). -/
def scEnds (s : State) (o : ScOp) : State :=
  if o.op.reads then s.scQueued o (.failed false) else (s.addDelay (s.scAcc o 0 .flying)).scComplete o id

/-- An SC operation on tile memory. That of another tile answers on channel 2; while the image of that tile is in Caldera's keeping, Caldera
holds the request, and what follows it in its task waits for it (20:R322). -/
def scTile (s : State) (o : ScOp) (acc : Bool) (vt a : Nat) : State :=
  if o.far && s.tileAway o.part vt o.owner then s.scSent o { s.scAcc o 0 .flying with acq := true }
  else match s.perform (tileAddr o.part acc vt a) o.op with
    | none => s
    | some (v, s) =>
      let (extra, s) := s.tileBank o.part vt acc a
      let s := if o.far then s.scSent o { s.scAcc o 0 (.performed v) with extra := extra }
        else s.scComplete o fun t => match o.dst with
          | some r => (t.deliver r (BitVec.ofNat 128 v) false).late (Task.code r) s.cycle (5 + extra)
          | none => t
      if o.far then s.farWatch ⟨o.owner, o.part, o.key, 0, o.offset, some o.nissue⟩ o.op acc vt a else s

/-- The path of an external SC operation ends it (17:R271). -/
def scLost (s : State) (o : ScOp) : State :=
  let va := match o.place with
    | .ext _ _ va _ => va
    | .tile _ _ _ => 0
  let s := s.scEnds o
  if o.op.reads then s
  else
    (s.modTask o.owner fun t => noteErr t (BitVec.ofNat 64 (va % 2 ^ 52)) (extSub o.op)).addDueTo o.owner { cause := cDELIVERY_ERROR, cycle := s.cycle }

/-- The memory side refuses it (17:R274). -/
def scRefused (s : State) (o : ScOp) (c : BitVec 6) : State := (s.scEnds o).addDueTo o.owner { cause := c, cycle := s.cycle }

/-- An operation is announced no more. -/
def dropSc (s : State) (tag : Nat) : State := { s with net := { s.net with scOps := s.net.scOps.filter (·.tag != tag) } }

def scDo (s : State) (o : ScOp) : Out :=
  let s := s.dropSc o.tag
  match o.place with
  | .tile acc vt a => .next (s.scTile o acc vt a)
  | .ext _ _ _ ps =>
    match s.atHome o.part o.op ps with
    | .absent pa => .fault (.unbackedAddress pa)
    | .refused c => .next (s.scRefused o c)
    | .lost => .next (s.scLost o)
    | .done v s => .next (s.scQueued o (.performed v))

def scAll (s : State) : List ScOp → Out
  | [] => .next s
  | o :: r => match s.scDo o with
    | .next s => s.scAll r
    | x => x

/-- The operations of the oldest announced window, in SC order, once its announcements are everywhere. -/
def scWindow (s : State) : List ScOp :=
  match s.net.scOps.map (fun (o : ScOp) => o.cycle / 32) with
  | [] => []
  | w :: ws =>
    let m := ws.foldl min w
    if s.cycle < 32 * m + 128 then [] else (s.net.scOps.filter fun o => o.cycle / 32 == m).foldr scInsert []

end State

def execFence (f : Form) (o : Order) (s : State) : Out := .next (s.fenceOp f o)
def execQwait (f : Form) (sel : BitVec 5) (s : State) : Out := .next (s.qwaitOp f sel)
def execSend (f : Form) (a : Reg) (ea : Bool) (b : Reg) (eb : Bool) (s : State) : Out := .next (s.sendOp f a ea b eb)
def execRecv (f : Form) (d : Reg) (a : BitVec 3) (ea : Bool) (s : State) : Out := .next (s.recvOp f d a ea false)
def execRecvKeep (f : Form) (d : Reg) (a : BitVec 3) (ea : Bool) (s : State) : Out := .next (s.recvOp f d a ea true)
def execMwait (f : Form) (a : BitVec 3) (ea : Bool) (s : State) : Out := .next (s.mwaitOp f a ea)

/-- What meets the request of an announced SC operation on its path or at its memory (17:R271, R274, 23:R345). -/
def State.scMeets (s : State) (tag : Nat) (how : Arrival) : State :=
  match s.net.scOps.find? fun o => o.tag == tag && (o.far || match o.place with
    | .ext _ _ _ _ => true
    | .tile _ _ _ => false) with
  | none => s
  | some o => match how with
    | .abort => (s.dropSc tag).scLost o
    | .poison => if o.far || State.toHost o.pieces then (s.dropSc tag).scLost o else (s.dropSc tag).scRefused o cPOISON
    | .integrity => (s.dropSc tag).scRefused o cINTEGRITY
    | .refused => if State.toWindow o.pieces then (s.dropSc tag).scRefused o cWORLD_REFUSED else s
    | _ => s

/-- A long-latency result moves on: a queued load or atomic is performed, an answer or an SFU result arrives, or the path
ends the access. -/
def execRegisterDelivery (tag : Nat) (how : Arrival) (s : State) : Out :=
  match s.net.sfu.find? (·.tag == tag) with
  | some r => .next (if how = .arrive then s.sfuArrive r else s)
  | none =>
    match s.accOf? tag with
    | none => .next (s.scMeets tag how)
    | some a =>
      match how with
      | .arrive => .next (s.accArrive a)
      | .abort => .next (if a.pending then s.accFails a false else s)
      | .poison => .next (if a.pending then s.accPoison a else s)
      | .integrity => .next (if a.pending then s.accRefused a cINTEGRITY else s)
      | .refused => .next (if a.pending && State.toWindow a.pieces then s.accRefused a cWORLD_REFUSED else s)
      | .perform =>
        match a.place with
        | .tile _ _ _ => .next s
        | .ext _ _ _ ps =>
          if a.st != .flying || !a.op.reads || !s.mayPerform a then .next s
          else match s.atHome a.part a.op ps with
            | .absent pa => .fault (.unbackedAddress pa)
            | .refused c => .next (s.accRefused a c)
            | .lost => .next (s.accFails a false)
            | .done v s => .next (s.putAcc { a with st := .performed v })

/-- A queued store is performed and accepted at the memory side, and its entry is free (06:R108). -/
def execQueuedStoreAccept (tag : Nat) (how : Arrival) (s : State) : Out :=
  match s.accOf? tag with
  | none => .next s
  | some a =>
    match a.place with
    | .tile _ _ _ => .next s
    | .ext _ _ _ ps =>
      if a.st != .flying || a.op.reads then .next s
      else match how with
        | .arrive => .next s
        | .abort => .next (s.accFails a false)
        | .poison => .next (s.accPoison a)
        | .integrity => .next (s.accRefused a cINTEGRITY)
        | .refused => .next (if State.toWindow a.pieces then s.accRefused a cWORLD_REFUSED else s)
        | .perform =>
          if !s.mayPerform a then .next s
          else match s.atHome a.part a.op ps with
            | .absent pa => .fault (.unbackedAddress pa)
            | .refused c => .next (s.accRefused a c)
            | .lost => .next (s.accFails a false)
            | .done _ s => .next (((s.domainAnswers a.part ps).dropAcc a.tag).addDelay a)

def execMessageArrival (tag : Nat) (s : State) : Out := .next (s.msgArrive tag)
def execTaskWake (key : Nat) (s : State) : Out := .next (s.wakeUp key)
def execReleasePerformed (tag : Nat) (s : State) : Out := .next (s.heldPerform tag)
def execRemoteAccessRequest (tag : Nat) (s : State) : Out := .next (s.remoteArrive tag false)
def execRemoteNibbleStore (tag : Nat) (s : State) : Out := .next (s.remoteArrive tag true)
def execScTakeEffect (s : State) : Out := s.scAll s.scWindow

/-- The re-read of a watched word: the task reissues its `waddr` (13:R230). -/
def execWaddrRecheck (key : Nat) (s : State) : Out :=
  .next (match (s.taskAt key).run with
    | .parked _ (.watch _ _ _ _ _) => s.wakeNow key
    | _ => s)

end Sys2Proof.Machine
end

