-- ==== Sys2Proof/Machine/Command.lean ====
section
/-! DEFINITION. Engine command words (10:R171, R172), what refuses them (14:R238, R244 to R251), `tcmd`, and the semaphore
and power-token instructions (14:R243, R252). -/

namespace Sys2Proof.Machine

/-! ### Fields of a command word (10:R171, R172) -/

abbrev CmdWord := BitVec 256

namespace CmdWord

def get (w : CmdWord) (lo n : Nat) : Nat := field w.toNat lo n
def eop (w : CmdWord) : Nat := CmdWord.get w 0 8
def queue (w : CmdWord) : Nat := CmdWord.get w 8 3
def shape (w : CmdWord) : Nat := CmdWord.get w 11 5
def ta (w : CmdWord) : BitVec 5 := BitVec.ofNat 5 (CmdWord.get w 16 5)
def tb (w : CmdWord) : BitVec 5 := BitVec.ofNat 5 (CmdWord.get w 21 5)
def td (w : CmdWord) : BitVec 5 := BitVec.ofNat 5 (CmdWord.get w 26 5)
def tok (w : CmdWord) : Reg := BitVec.ofNat 5 (CmdWord.get w 31 5)
def swait (w : CmdWord) : Nat := CmdWord.get w 36 3
def swen (w : CmdWord) : Bool := w.getLsbD 39
def ssig (w : CmdWord) : Nat := CmdWord.get w 40 3
def ssen (w : CmdWord) : Bool := w.getLsbD 43
def fmask (w : CmdWord) : Nat := CmdWord.get w 44 4
def flags (w : CmdWord) : Nat := CmdWord.get w 48 8
/-- Operand slot i, 1 to 3. -/
def slot (w : CmdWord) (i : Nat) : Nat := CmdWord.get w (64 * i) 64
def pres (w : CmdWord) (i : Nat) : Bool := field (CmdWord.slot w i) 47 1 == 1
def aux (w : CmdWord) (i : Nat) : Nat := field (CmdWord.slot w i) 48 16
def len (w : CmdWord) (i : Nat) : Nat := field (CmdWord.slot w i) 22 22
def off (w : CmdWord) (i : Nat) : Nat := field (CmdWord.slot w i) 0 22
def seg (w : CmdWord) (i : Nat) : BitVec 3 := BitVec.ofNat 3 (field (CmdWord.slot w i) 44 3)

/-- Bit 48 on: `lat`, `lsel` of `gath` or `sdsc`; bit 49: `lsel` of `mm` or `ddsc`; bit 50: `zacc`. -/
def flag (w : CmdWord) (i : Nat) : Bool := w.getLsbD (48 + i)

end CmdWord

open CmdWord

/-! ### Shapes and types (14:R244, R246) -/

/-- Kmax of a matrix command by `tb`; none for a type no command accepts. -/
def mmKmax (tb : BitVec 5) : Option Nat :=
  match tb.toNat with
  | 0x0F | 0x15 => some 256
  | 0x0B | 0x0C | 0x0D | 0x0E | 0x11 | 0x12 | 0x13 | 0x14 => some 128
  | 0x00 | 0x16 => some 128
  | 0x0A => some 64
  | _ => none

/-- The pairings of 14:R244. -/
def mmPair (ta tb : BitVec 5) : Bool :=
  match tb.toNat with
  | 0x00 | 0x16 => [0x00, 0x16].contains ta.toNat
  | 0x0A => ta.toNat == 0x0A
  | _ => (mmKmax tb).isSome && [0x0B, 0x0C, 0x11, 0x12, 0x0A].contains ta.toNat

def gathKmax (ta : BitVec 5) : Option Nat :=
  match ta.toNat with
  | 0x0B | 0x0C | 0x11 | 0x12 | 0x17 => some 256
  | 0x00 | 0x16 => some 128
  | 0x0A => some 64
  | _ => none

def dimOf (c : Nat) : Nat := 16 * 2 ^ (c % 4)
def CmdWord.rows (w : CmdWord) : Nat := dimOf (shape w / 8)
def CmdWord.cols (w : CmdWord) : Nat := dimOf (shape w / 2)
def CmdWord.depth (w : CmdWord) : Nat :=
  let kmax := if queue w = 0 then (mmKmax (tb w)).getD 0 else (gathKmax (ta w)).getD 0
  if shape w % 2 = 1 then kmax else kmax / 2

/-- Bytes of n elements. -/
def bytesOf (ty : BitVec 5) (n : Nat) : Nat := n * elemBits ty / 8
/-- Element bytes of an MX block (04:R75). -/
def blockBytes (ty : BitVec 5) : Nat := 4 * elemBits ty

/-! ### Refusals (14:R238, R244 to R251) -/

/-- The space a slot's g register holds is none the use allows; an invalid segment passes (14:R238). -/
def badSpace (gs : Vector VWord 8) (w : CmdWord) (i : Nat) (spaces : List Nat) : Bool :=
  let x := segOf gs[(seg w i).toNat]
  decide (1 ≤ x.space) && decide (x.space ≤ 6) && !spaces.contains x.space

/-- Slot i present in one of these spaces, with this `aux` allowed. -/
def needs (gs : Vector VWord 8) (w : CmdWord) (i : Nat) (spaces : List Nat) (auxOk : Bool) : Bool :=
  pres w i && !badSpace gs w i spaces && (auxOk || aux w i == 0)

/-- A copy slot: a range in a tile, or a 16-byte descriptor in space 0x1. -/
def needsOr (gs : Vector VWord 8) (w : CmdWord) (i : Nat) (dsc : Bool) (spaces : List Nat) (auxOk : Bool) : Bool :=
  if dsc then needs gs w i [1] auxOk && len w i == 16 else needs gs w i spaces auxOk

def tiles4 : List Nat := [1, 2, 3, 6]

/-- The opcode's table admits the word. -/
def opOk (gs : Vector VWord 8) (w : CmdWord) : Bool :=
  let noTypes := ta w == 0 && tb w == 0 && shape w == 0
  match queue w, eop w with
  | 0, 1 =>
    let lat := flag w 0
    let m := rows w
    let n := cols w
    let k := depth w
    decide (flags w < 8) && td w == 0x08 && mmPair (ta w) (tb w)
      && (if lat then !pres w 1 else needs gs w 1 [1] (isMx (ta w)) && len w 1 == bytesOf (ta w) (m * k))
      && needs gs w 2 [1] (isMx (tb w)) && len w 2 == bytesOf (tb w) (k * n)
      && needs gs w 3 [2] false && len w 3 == m * n * 4
  | 1, 1 =>
    decide (flags w < 2) && (gathKmax (ta w)).isSome && tb w == 0 && td w == 0 && shape w / 2 % 4 == 0
      && needs gs w 1 [1, 3] (isMx (ta w)) && needs gs w 2 [1] false && len w 2 == 4 * rows w && !pres w 3
  | 2, 1 =>
    decide (flags w < 4) && noTypes && td w == 0 && needsOr gs w 1 (flag w 0) tiles4 false
      && needsOr gs w 2 (flag w 1) tiles4 false && !pres w 3
  | 2, 2 =>
    decide (flags w < 2) && noTypes && td w == 0 && needsOr gs w 1 (flag w 0) tiles4 true
      && needs gs w 2 [1, 2] false && len w 2 % 32 == 0 && needs gs w 3 [1, 2] false && len w 3 == len w 2 / 32
  | 2, 3 =>
    decide (flags w < 2) && noTypes && td w == 0 && needsOr gs w 1 (flag w 0) tiles4 false && needs gs w 2 [1, 2] false
      && needs gs w 3 [1] false && len w 3 == 64
  | 2, 4 =>
    (flags w == 0 || flags w == 2) && noTypes && td w == 0 && needs gs w 1 [1, 2] false
      && needsOr gs w 2 (flag w 1) tiles4 false && needs gs w 3 [1] false && len w 3 == 64
  | 3, 1 =>
    (flags w == 0 || flags w == 2) && noTypes && td w == 0 && needs gs w 1 [1, 2] false
      && needsOr gs w 2 (flag w 1) [3] false && !pres w 3
  | 3, 2 =>
    (flags w == 0 || flags w == 2) && noTypes && [2, 8, 10].contains (td w).toNat && needs gs w 1 [1, 2] false
      && needsOr gs w 2 (flag w 1) [3] false && !pres w 3
  | 3, 3 =>
    flags w == 0 && noTypes && [2, 8, 10].contains (td w).toNat && needs gs w 1 [1, 2] true && decide (aux w 1 < 256)
      && !pres w 2 && !pres w 3
  | 4, 0 =>
    flags w == 0 && noTypes && td w == 0 && !pres w 1 && !pres w 2 && !pres w 3
  | _, _ => false

/-- What refuses a word whatever its opcode (10:R171, R172). -/
def wordOk (w : CmdWord) : Bool :=
  CmdWord.get w 56 8 == 0 && decide (queue w ≤ 4) && (queue w == 4 || fmask w == 0)
    && [1, 2, 3].all fun i => if pres w i then decide (1 ≤ len w i) && decide (len w i ≤ 2097152) else slot w i == 0

/-- Rights a slot's use needs (14:R238): reading, writing, and always `en`. -/
def slotNeed (w : CmdWord) (i : Nat) : Need :=
  let r : Need := { rd := true, en := true }
  let x : Need := { wr := true, en := true }
  let rw : Need := { rd := true, wr := true, en := true }
  match queue w, eop w, i with
  | 0, _, 3 => if flag w 2 then x else rw
  | 2, 1, 2 => if flag w 1 then r else x
  | 2, 2, 2 => x
  | 2, 2, 3 => x
  | 2, 3, 2 => x
  | 2, 4, 2 => if flag w 1 then r else x
  | 2, 4, 3 => rw
  | 3, 1, 2 => if flag w 1 then r else x
  | 3, 2, 2 => if flag w 1 then r else rw
  | 3, 3, 1 => rw
  | _, _, _ => r

/-- The scale bytes a slot brings with it (14:R245, R246). -/
def scaleLen (w : CmdWord) (i : Nat) : Nat :=
  match queue w, i with
  | 0, 1 => if isMx (ta w) && !flag w 0 then rows w * depth w / 32 else 0
  | 0, 2 => if isMx (tb w) then cols w * depth w / 32 else 0
  | 1, 1 => if isMx (ta w) then (len w 1 + blockBytes (ta w) - 1) / blockBytes (ta w) else 0
  | _, _ => 0

/-- A range fails 03:R56 or 06:R102. -/
def rangeFails (p : Partition) (g : VWord) (o n : Nat) (need : Need) : Bool :=
  let x := segOf g
  x.space == 0 || decide (7 ≤ x.space) || !x.allows need || decide (x.limit ≤ o) || decide (x.limit - o < n)
    || (let win := if x.space = 2 ∨ x.space = 6 then asWindow p else spWindow p
        (decide (x.space ≤ 3) || x.space == 6) && decide (win < x.base + o + n))

namespace State

/-- Memory address of an offset in a tile segment, for the pushing task's tile. -/
def segMem (part vt : Nat) (g : VWord) (o : Nat) : Nat :=
  let x := segOf g
  tileAddr part (x.space == 2 || x.space == 6) (if x.space = 3 ∨ x.space = 6 then x.target else vt) (x.base + o)

/-- Slot i as it stands at acceptance. -/
def rangeOf (p : Partition) (part vt : Nat) (gs : Vector VWord 8) (w : CmdWord) (i : Nat) : Range :=
  if !pres w i then {}
  else
    let g := gs[(seg w i).toNat]
    let need := slotNeed w i
    let sc := scaleLen w i
    { present := true, aux := aux w i, space := (segOf g).space, mem := segMem part vt g (off w i), len := len w i
      seg := seg w i, off := off w i
      fails := rangeFails p g (off w i) (len w i) need || (sc != 0 && rangeFails p g (aux w i * 32) sc need) }

/-- Queues whose entries a command takes (14:R239). -/
def takes (w : CmdWord) : List Nat := if queue w = 4 then setBits (fmask w) 4 else [queue w]

/-- A held local release of the task, which its command must see (07:R129). -/
def heldLocal (s : State) (g : Word) : Bool := s.net.helds.any fun h => h.owner == g && match h.op with
  | .store _ _ _ _ _ => true
  | .nibble _ _ _ _ => true
  | .fill _ _ _ => true
  | _ => false

/-- Append an accepted command (14:R238, 03:R54). -/
def accept (s : State) (t : Task) (p : Partition) (w : CmdWord) : State :=
  let tile := tileOf (coreOf s.cur)
  let vt := s.here
  let q := queue w
  let k := vt * 8 + q
  let n := (mapGet p.seqs k).getD 0
  let c : Cmd := { order := (s.tile tile).accepted, part := t.part, owner := t.gtid, core := coreOf s.cur, vtile := vt
                   word := w, seq := n % 2 ^ 16, gs := t.g, sup := t.priv != .task, nissue := t.nissued, offset := (standsAt t).toNat
                   ranges := Vector.ofFn fun i => rangeOf p t.part vt t.g w (i.val + 1) }
  let s := s.modTile tile fun x => { x with
    accepted := x.accepted + 1, queues := x.queues.setIfInBounds q ((x.queues.toList[q]?.getD []) ++ [c]) }
  s.modPart t.part fun p => { p with seqs := mapSet p.seqs k (n + 1) }

/-- `tcmd` in the order of 14:R238. -/
def tcmd (s : State) (f : Form) (a : Reg) (ea : Bool) (b : Reg) (eb : Bool) : State :=
  s.plain f [] [(.v a, ea), (.v b, eb)] fun t =>
    let w : CmdWord := t.getV b ++ t.getV a
    let q := queue w
    if !wordOk w || !opOk t.g w then s.trap { cause := cBAD_COMMAND, detail := q }
    else if q < 4 && (isStage (coreOf s.cur) == (q == 0)) then s.trap { cause := cENGINE_ROLE, detail := q }
    else if tok w = 0 then s.trapC cTOKEN_REG
    else s.toWrite [.s (tok w)] <|
      if s.acqPending t.gtid || s.heldLocal t.gtid then s
      else match (takes w).find? fun x => !s.engineRoom t.part (tileOf (coreOf s.cur)) x with
      | some x => s.park 10 (.engineShare x)
      | none =>
        match s.partOf? t.part with
        | none => s
        | some p => (s.accept t p w).completeWith (t.markEmpty (.s (tok w))) f.bytes

/-! ### Semaphores (14:R243) -/

def semSig (s : State) (f : Form) (n : BitVec 3) : State :=
  s.plain f [] [] fun t =>
    let vt := s.here
    if 65535 ≤ s.semCount t.part vt n.toNat then s.trapC cSEM_OVERFLOW
    else if s.releaseWaits t.gtid then (s.hold t (.signal vt n.toNat)).complete f.bytes
    else ((s.semSignal t.part vt n.toNat).1).complete f.bytes

def semWait (s : State) (f : Form) (n : BitVec 3) : State :=
  s.plain f [] [] fun t =>
    let vt := s.here
    if 0 < s.semCount t.part vt n.toNat ∧ s.semTurn t.part vt n.toNat t.gtid then
      (s.semTake t.part vt n.toNat (.task t.gtid)).complete f.bytes
    else (s.semJoin t.part vt n.toNat (.task t.gtid)).park 8 (.sem n.toNat)

/-! ### Power tokens (14:R252) -/

def pwrAcq (s : State) (f : Form) (cls : BitVec 2) (n : BitVec 5) : State :=
  s.plain f [] [] fun t =>
    let c := cls.toNat
    let k := poolKey (coreOf s.cur) c
    let held := t.tokens.toList[c]?.getD 0
    if (s.pool t.part k).created < held + n.toNat then s.trapC cPOWER_EXCESS
    else if !(decide (n.toNat ≤ s.poolFree t.part k) && s.firstInPool t k) then
      (s.poolWait t k).park 11 (.tokens c n.toNat)
    else
      ((s.poolServed t k).poolDraw t.part k n.toNat).completeWith
        { t with tokens := t.tokens.setIfInBounds c (held + n.toNat) } f.bytes

def pwrRel (s : State) (f : Form) (cls : BitVec 2) (n : BitVec 5) : State :=
  s.plain f [] [] fun t =>
    let c := cls.toNat
    let held := t.tokens.toList[c]?.getD 0
    if held < n.toNat then s.trapC cPOWER_RELEASE
    else (s.giveTokens t.part t.gtid (coreOf s.cur) c held n.toNat).completeWith
      { t with tokens := t.tokens.setIfInBounds c (held - n.toNat) } f.bytes

end State

def execTcmd (f : Form) (a : Reg) (ea : Bool) (b : Reg) (eb : Bool) (s : State) : Out := .next (s.tcmd f a ea b eb)
def execSemSig (f : Form) (n : BitVec 3) (s : State) : Out := .next (s.semSig f n)
def execSemWait (f : Form) (n : BitVec 3) (s : State) : Out := .next (s.semWait f n)
def execPwrAcq (f : Form) (cls : BitVec 2) (n : BitVec 5) (s : State) : Out := .next (s.pwrAcq f cls n)
def execPwrRel (f : Form) (cls : BitVec 2) (n : BitVec 5) (s : State) : Out := .next (s.pwrRel f cls n)

end Sys2Proof.Machine
end

