-- ==== Sys2Proof/Machine/Matrix.lean ====
section
/-! DEFINITION. What a matrix command and a gather compute (05:R84 to R93, 14:R244 to R246), and cinder form
(04:R79 to R83). -/

namespace Sys2Proof.Machine

open CmdWord

/-! ### Recoding and term time (05:R84 to R86, R91) -/

/-- Non-zero digits of the non-adjacent form of n. -/
def nafCount (n : Nat) : Nat → Nat
  | 0 => 0
  | f + 1 =>
    if n = 0 then 0
    else if n % 2 = 1 then 1 + nafCount (if n % 4 = 1 then (n - 1) / 2 else (n + 1) / 2) f
    else nafCount (n / 2) f

/-- Term count of a B element; NaN and infinities count 1. -/
def termCount : FVal → Nat
  | .fin _ m _ => nafCount m 64
  | _ => 1

/-- Progress of a column group: k-step, terms taken in it, and its three counts. -/
structure Group where
  d : Nat := 0
  c : Nat := 0
  cyc : Nat := 0
  skip : Nat := 0
  wait : Nat := 0
  deriving DecidableEq, Repr

/-- Pass the k-steps of cost 0 within the skew window. -/
def groupSkip (cost : Nat → Nat) (k lo : Nat) (g : Group) : Nat → Group
  | 0 => g
  | f + 1 => if g.d < k ∧ g.d < lo + 64 ∧ cost g.d = 0 then groupSkip cost k lo { g with d := g.d + 1, skip := g.skip + 1 } f else g

/-- One term cycle of a group. -/
def groupStep (cost : Nat → Nat) (k lo : Nat) (g : Group) : Group :=
  let g := groupSkip cost k lo g k
  if g.d < k ∧ lo + 64 ≤ g.d then { g with wait := g.wait + 1 }
  else if g.d < k then
    let c := g.c + 1
    if c = cost g.d then { g with d := g.d + 1, c := 0, cyc := g.cyc + 1 } else { g with c := c, cyc := g.cyc + 1 }
  else g

/-- The loop of 05:R91: the groups at the end, and S. -/
def termLoop (cost : Nat → Nat → Nat) (k : Nat) (gs : List Group) (s : Nat) : Nat → List Group × Nat
  | 0 => (gs, s)
  | f + 1 =>
    if gs.zipIdx.any fun x => (List.range (k - x.1.d)).any fun j => decide (0 < cost x.2 (x.1.d + j)) then
      let lo := gs.foldl (fun m g => min m g.d) k
      termLoop cost k (gs.zipIdx.map fun x => groupStep (cost x.2) k lo x.1) (s + 1) f
    else (gs, s)

/-! ### Operands -/

/-- Encoding of element i of packed elements. -/
def elemAt (ty : BitVec 5) (data : Array Byte) (i : Nat) : Nat :=
  let b := elemBits ty
  if b = 4 then (data.getD (i / 2) 0).toNat / 2 ^ (4 * (i % 2)) % 16
  else (List.range (b / 8)).foldr (fun j x => (data.getD (i * (b / 8) + j) 0).toNat + 256 * x) 0

/-- Value of element i, under the scale of its block (04:R76). -/
def valueAt (ty : BitVec 5) (data scales : Array Byte) (i : Nat) : FVal :=
  elemValue ty (if isMx ty then (scales.getD (i * elemBits ty / 8 / blockBytes ty) 0).toNat else 0) (elemAt ty data i)

/-! ### Sums (05:R87 to R90) -/

/-- An exact zero sum is +0. -/
def plusZero : FVal → FVal
  | .fin _ 0 _ => .fin false 0 0
  | x => x

def round32 (x : FVal) : FVal := f32.decode (f32.round 0 false x).bits

/-- Exact sum of the products of k-steps `lo` to `lo + n - 1`; a zero B element contributes nothing. -/
def sumProducts (a b : Nat → FVal) (lo n : Nat) : FVal :=
  plusZero ((List.range n).foldl (fun acc j =>
    match b (lo + j) with
    | .fin _ 0 _ => acc
    | y => acc.add 0 ((a (lo + j)).mul y)) (.fin false 0 0))

/-- T of 05:R88 to R90. -/
def dotValue (bf : Bool) (a b : Nat → FVal) (k : Nat) : FVal :=
  match sumProducts a b 0 k with
  | .fin s m e =>
    if bf then (List.range (k / 32 - 1)).foldl (fun t i => round32 (t.add 0 (round32 (sumProducts a b (32 * (i + 1)) 32))))
      (round32 (sumProducts a b 0 32))
    else round32 (.fin s m e)
  | x => x

/-- What an `mm` does, from its operands' values and C's old bytes (05:R84 to R95, 14:R245). -/
def mmCompute (w : CmdWord) (av bv : Nat → FVal) (old : List Byte) (cAddr start : Nat) : CmdResult :=
  let m := rows w
  let n := cols w
  let k := depth w
  let bf := (ta w).toNat == 0x0A && (tb w).toNat == 0x0A
  let oldA := old.toArray
  let cell (i j : Nat) : Nat :=
    let t := dotValue bf (fun x => av (i * k + x)) (fun x => bv (j * k + x)) k
    if flag w 2 then (f32.round 0 false t).bits
    else (f32.round 0 false ((f32.decode (elemAt 0x08 oldA (i * n + j))).add 0 t)).bits
  let counts := ((List.range (n * k)).map fun x => termCount (bv x)).toArray
  let cost (g j : Nat) : Nat := (List.range 8).foldl (fun c x => max c (counts.getD ((8 * g + x) * k + j) 0)) 0
  let r := termLoop cost k (List.replicate (n / 8) {}) 0 4096
  let nz := counts.foldl (· + ·) 0
  let per := r.1.zipIdx.flatMap fun x => [(x.2, x.1.cyc), (16 + x.2, x.1.skip), (32 + x.2, x.1.wait)]
  { detail := r.2
    writes := [(cAddr, (List.range (m * n)).flatMap fun x => leBytes 4 (cell (x / n) (x % n)))]
    terms := per ++ [(0x30, nz), (0x31, 1), (0x32, 16 + r.2)]
    endCycle := start + 16 + r.2 }

/-! ### Cinder form (04:R79 to R83) -/

structure Cinder where
  nblocks : Nat
  lens : List Nat
  indexOff : Nat
  blockOff : Nat
  deriving DecidableEq, Repr

/-- The header, where it is well-formed (04:R79, R80; assumption 50, DEDUCED). One that reaches past its range is malformed, and one at an
address that is not 4-byte aligned is read all the same (assumption 87, DESIGN CHOICE). -/
def cinderHeader (d : Array Byte) : Option Cinder :=
  let num (o n : Nat) : Nat := leNat ((List.range n).map fun i => d.getD (o + i) 0)
  let lens := (List.range 16).map fun i => field (num 8 8) (4 * i) 4
  let kraft := (lens.map fun l => if l = 0 then 0 else 2 ^ (8 - l)).sum
  if d.size < 32 ∨ num 0 2 ≠ 1 ∨ num 2 2 ≠ 0 ∨ num 4 4 = 0 ∨ num 24 8 ≠ 0 ∨ lens.any (fun l => decide (8 < l)) ∨ kraft = 0 ∨ 256 < kraft
      ∨ num 16 4 % 4 ≠ 0 ∨ num 20 4 % 4 ≠ 0 then none
  else some ⟨num 4 4, lens, num 16 4, num 20 4⟩

/-- Canonical codes: symbol, length, code (04:R80). -/
def cinderCodes (lens : List Nat) : List (Nat × Nat × Nat) :=
  ((List.range 8).foldl (fun acc l =>
    let r := lens.zipIdx.foldl (fun (a : List (Nat × Nat × Nat) × Nat) x =>
      if x.1 = l + 1 then (a.1 ++ [(x.2, l + 1, a.2)], a.2 + 1) else a) acc
    (r.1, r.2 * 2)) ([], 0)).1

/-- Read one code word at bit q: the symbol and the bits it took. -/
def cinderSym (codes : List (Nat × Nat × Nat)) (bit : Nat → Nat) (q c l : Nat) : Nat → Option (Nat × Nat)
  | 0 => none
  | f + 1 =>
    let c := 2 * c + bit (q + l)
    match codes.find? fun x => x.2.1 == l + 1 && x.2.2 == c with
    | some x => some (x.1, l + 1)
    | none => cinderSym codes bit q c (l + 1) f

/-- The elements from element i on, with the bits read: none where the block is malformed (04:R83). -/
def cinderElems (codes : List (Nat × Nat × Nat)) (bit sm : Nat → Nat) (emax q i : Nat) : Nat → Option (List Byte × Nat)
  | 0 => some ([], q)
  | f + 1 =>
    match cinderSym codes bit q 0 0 8 with
    | none => none
    | some (sym, n) =>
      if sym ≠ 15 ∧ emax < sym + 1 then none
      else
        let ef := if sym = 15 then 0 else emax - sym
        match cinderElems codes bit sm emax (q + n) (i + 1) f with
        | none => none
        | some (es, q) => some (BitVec.ofNat 8 (sm i / 8 * 128 + ef * 8 + sm i % 8) :: es, q)

/-- Expand the block that starts at byte o: elements, scale and length in bytes. A block that reaches past the end of its range is
malformed (assumption 87, DESIGN CHOICE: the spec gives no outcome). -/
def cinderBlock (d : Array Byte) (codes : List (Nat × Nat × Nat)) (o : Nat) : Option (List Byte × Byte × Nat) :=
  let at_ (i : Nat) : Nat := (d.getD (o + i) 0).toNat
  let len := at_ 1 / 16
  if len < 6 ∨ 13 < len ∨ d.size < o + 4 * len then none
  else
    let bit (q : Nat) : Nat := if 4 * len ≤ 18 + q / 8 then 0 else at_ (18 + q / 8) / 2 ^ (q % 8) % 2
    let sm (i : Nat) : Nat := at_ (2 + i / 2) / 2 ^ (4 * (i % 2)) % 16
    match cinderElems codes bit sm (at_ 1 % 16) 0 0 32 with
    | none => none
    | some (es, q) => if (18 + (q + 7) / 8 + 3) / 4 ≠ len then none else some (es, BitVec.ofNat 8 (at_ 0), 4 * len)

/-- Walk forward n blocks from offset o by their length fields; the number of a block whose length is bad. -/
def cinderWalk (d : Array Byte) (o b : Nat) : Nat → Except Nat Nat
  | 0 => .ok o
  | n + 1 =>
    let len := (d.getD (o + 1) 0).toNat / 16
    if len < 6 ∨ 13 < len ∨ d.size < o + 4 * len then .error b else cinderWalk d (o + 4 * len) (b + 1) n

/-- Byte offset of block b, through the index (04:R81). -/
def cinderFind (d : Array Byte) (h : Cinder) (b : Nat) : Except Nat Nat :=
  let e := h.indexOff + 4 * (b / 64)
  if h.nblocks ≤ b ∨ d.size < e + 4 then .error b
  else cinderWalk d (h.blockOff + leNat ((List.range 4).map fun i => d.getD (e + i) 0)) (b / 64 * 64) (b % 64)

/-- Expand n blocks from block b, which starts at byte o, walking on by the length fields: what was expanded, and the number of the
malformed block, or of the block beyond the tensor, that ended it. -/
def cinderFrom (d : Array Byte) (h : Cinder) (o b : Nat) : Nat → List (List Byte × Byte) × Option Nat
  | 0 => ([], none)
  | n + 1 =>
    if h.nblocks ≤ b then ([], some b)
    else match cinderBlock d (cinderCodes h.lens) o with
      | none => ([], some b)
      | some (es, sc, k) =>
        let r := cinderFrom d h (o + k) (b + 1) n
        ((es, sc) :: r.1, r.2)

/-- Expand n blocks from block b: one index entry is read, and the blocks are walked from there (04:R81). -/
def cinderRun (d : Array Byte) (h : Cinder) (b n : Nat) : List (List Byte × Byte) × Option Nat :=
  match cinderFind d h b with
  | .error x => ([], some x)
  | .ok o => cinderFrom d h o b n

/-! ### Gather (14:R246) -/

/-- A row of a gather, or why it has none: a bad entry, or a malformed block. -/
inductive Row
  | row (data scales : List Byte)
  | bad
  | cinder (b : Nat)
  deriving DecidableEq, Repr

def gathRow (w : CmdWord) (src scales : Array Byte) (h : Option Cinder) (e : Nat) : Row :=
  let k := depth w
  let ty := ta w
  let cin := ty.toNat == 0x17
  let z := e / 2 ^ 31 == 1
  let roff := e % 2 ^ 22
  let n := if cin then k else bytesOf ty k
  if field e 22 9 ≠ 0 ∨ (z ∧ e % 2 ^ 31 ≠ 0) then .bad
  else if z then .row (List.replicate n 0) (if isMx ty || cin then List.replicate (k / 32) 0x7F else [])
  else if cin then
    match h with
    | none => .cinder 0xFFFFFFFF
    | some h =>
      let r := cinderRun src h roff (k / 32)
      match r.2 with
      | some b => .cinder b
      | none => .row (r.1.flatMap (·.1)) (r.1.map (·.2))
  else
    let unit := if isMx ty then blockBytes ty else elemBits ty / 8
    if roff % unit ≠ 0 ∨ src.size < roff + n then .bad
    else .row ((List.range n).map fun i => src.getD (roff + i) 0)
      (if isMx ty then (List.range (k / 32)).map fun i => scales.getD (roff / unit + i) 0 else [])

/-- What a gather delivers. -/
def gathCompute (w : CmdWord) (src scales idx : List Byte) : CmdResult :=
  let m := rows w
  let srcA := src.toArray
  let h := if (ta w).toNat = 0x17 then cinderHeader srcA else none
  let idxA := idx.toArray
  let rs := (List.range m).map fun j => gathRow w srcA scales.toArray h (elemAt 0x02 idxA j)
  let badAt := rs.findIdx? fun r => r == .bad
  match badAt with
  | some j => { code := 0x05, detail := j }
  | none =>
    let cin := rs.find? fun r => match r with
      | .cinder _ => true
      | _ => false
    match cin with
    | some (.cinder b) => { code := 0x08, detail := b }
    | _ =>
      if (ta w).toNat = 0x17 ∧ h.isNone then { code := 0x08, detail := 0xFFFFFFFF }
      else
        { detail := m
          latch := some (ofBool (flag w 0), {
            ty := if (ta w).toNat = 0x17 then 0x12 else ta w, m := m, k := depth w
            data := rs.flatMap fun r => match r with
              | .row d _ => d
              | _ => []
            scales := rs.flatMap fun r => match r with
              | .row _ x => x
              | _ => [] }) }

end Sys2Proof.Machine
end

