-- ==== Sys2Proof/Machine/Translation.lean ====
section
/-! DEFINITION. Translation events: walks, fault records and replies, leases, the migration directory, and invalidations of
host translations (19:R295 to R308). -/

namespace Sys2Proof.Machine

/-- A ring base (20:R312): 4 KiB aligned, bits 3:0 at most 11, bits 11:4 zero. -/
def ringOk (base : Nat) : Bool := decide (base % 4096 < 12)

/-- Cycles of 4 µs and 1 µs (19:R298, R299: 20 µs are 34,000 cycles). -/
def cyclesPerUs : Nat := 1700

namespace State

/-! ### The request ring (25:R366, R367) -/

/-- Head record of the management request ring: its address and `head`. -/
def reqHead (s : State) : Option (Nat × Nat) :=
  let base := s.hl.reqring.toNat
  if base = 0 then none
  else
    let b := hostBase + ringAt base
    let h := s.loadNat b 8
    let t := s.loadNat (b + 8) 8
    if h = t then none else some (b + 64 + h % ringSize base * 128, h)

/-- Code of a management request (25:R367). -/
def requestCode : HostRequest → Nat
  | .create _ => 1
  | .destroy _ => 2
  | .resize _ _ => 3
  | .bind _ _ _ _ => 4
  | .fault _ _ => 5
  | .world _ _ _ _ => 6

/-- A request of this code is not the one whose turn it is: another stands at the ring's head, or one is under way (25:R367). -/
def ringBusy (s : State) (code : Nat) : Bool :=
  match s.reqHead with
  | none => false
  | some (a, _) => s.hl.serving.isSome || memNat s.mem a 1 != code

/-- Serve a request in its turn (25:R367). -/
def inTurn (s : State) (i : HostRequest) (f : State → State) : State :=
  if s.ringBusy (requestCode i) then { s with hl := { s.hl with queued := s.hl.queued ++ [i] } } else f s

/-- A request takes its time: those behind it wait. -/
def takeTurn (s : State) (code : Nat) : State :=
  if s.reqHead.isSome then { s with hl := { s.hl with serving := some code } } else s

/-- Answer a management request: where its record stands at the head of the ring, the status and reply go into it and `head`
advances (25:R367). -/
def answerReq (s : State) (code status : Nat) (data : List Byte) : State :=
  let s := s.reply 0 (0x300 + code) status data
  match s.reqHead with
  | none => s
  | some (a, h) =>
    if memNat s.mem a 1 ≠ code then s
    else
      let s := if data.isEmpty then s else s.store (a + 8) (data.take 120)
      let s := (s.storeNat (a + 1) 1 status).storeNat (hostBase + ringAt s.hl.reqring.toNat) 8 ((h + 1) % 2 ^ 64)
      { s with hl := { s.hl with serving := none } }

/-! ### Rings in a partition's memory (20:R312) -/

def vaNat (s : State) (part va n : Nat) : Option Nat := (s.readVa part va n).map leNat

/-- Records a ring holds and the count of its tail; none where its header does not translate. The reserved words of a header, bits 63:16
of its bytes, are not looked at (20:R312; assumption 86, DESIGN CHOICE: the spec gives a non-zero one no outcome). -/
def ringState (s : State) (part base : Nat) : Option (Nat × Nat) :=
  match s.vaNat part (ringAt base) 8, s.vaNat part (ringAt base + 8) 8 with
  | some h, some t => some ((t + 2 ^ 64 - h) % 2 ^ 64, t)
  | _, _ => none

/-- Produce a record: none where the ring is full or unmapped; else the state and the record's number. -/
def ringPut (s : State) (part base : Nat) (rec : List Byte) : Option (State × Nat) :=
  match s.ringState part base with
  | none => none
  | some (n, t) =>
    if ringSize base ≤ n then none
    else match s.writeVa part (ringAt base + 64 + t % ringSize base * rec.length) rec with
      | none => none
      | some s => match s.writeVa part (ringAt base + 8) (leBytes 8 (t + 1)) with
        | none => none
        | some s => some (s, t)

/-- The oldest record of a ring the model consumes, `size` bytes each, and its number. -/
def ringHead (s : State) (part base size : Nat) : Option (List Byte × Nat) :=
  match s.ringState part base, s.vaNat part (ringAt base) 8 with
  | some (n, _), some h =>
    if n = 0 then none else (s.readVa part (ringAt base + 64 + h % ringSize base * size) size).map fun r => (r, h)
  | _, _ => none

/-- Advance `head`. -/
def ringTake (s : State) (part base h : Nat) : State := (s.writeVa part (ringAt base) (leBytes 8 ((h + 1) % 2 ^ 64))).getD s

/-! ### Faults (19:R301, R302, R304) -/

/-- A fault record (19:R302). -/
def faultBytes (f : FaultRec) (seq : Nat) : List Byte :=
  leBytes 8 (f.va % 2 ^ 52) ++ leBytes 8 ((f.waiters.head?.map (·.gtid.toNat)).getD 0) ++ leBytes 1 f.acc ++ leBytes 1 f.prop
    ++ leBytes 2 f.waiters.length ++ leBytes 4 seq ++ leBytes 8 0

/-- Write the record of a pending fault, where its ring has room. -/
def postOne (s : State) (f : FaultRec) : State × FaultRec :=
  match f.idx, s.partOf? f.part with
  | none, some p =>
    match p.fring with
    | none => (s, f)
    | some base =>
      let seq := (p.ftail + 1) % 2 ^ 32
      match s.ringPut f.part base (faultBytes f seq) with
      | none => (s, f)
      | some (s, i) => (s.modPart f.part fun p => { p with ftail := seq }, { f with idx := some i, base := base })
  | _, _ => (s, f)

/-- Write every held record a ring has room for, in order. -/
def postHeld (s : State) (part : Nat) : State :=
  let r := s.mmu.faults.foldl (fun (acc : State × List FaultRec) f =>
    if f.part = part then
      let x := acc.1.postOne f
      (x.1, acc.2 ++ [x.2])
    else (acc.1, acc.2 ++ [f])) (s, [])
  { r.1 with mmu := { r.1.mmu with faults := r.2 } }

def sameFault (f : FaultRec) (part va acc : Nat) : Bool := f.part == part && f.va / 4096 == va / 4096 && f.acc == acc

/-- Post a fault, or attach the access to the pending record of its page, partition and kind. -/
def postFault (s : State) (part va acc : Nat) (prop : BitVec 6) (w : Waiter) : State :=
  if s.mmu.faults.any (fun f => sameFault f part va acc) then
    let add (f : FaultRec) : FaultRec := if sameFault f part va acc then { f with waiters := f.waiters ++ [w] } else f
    { s with mmu := { s.mmu with faults := s.mmu.faults.map add } }
  else
    let f : FaultRec := { part := part, va := va, acc := acc, prop := prop.toNat, idx := none, waiters := [w] }
    ({ s with mmu := { s.mmu with faults := s.mmu.faults ++ [f] } } : State).postHeld part

/-- The slot in which a task is parked on a page for this kind of access. -/
def parkedOn (s : State) (g : Word) (va acc : Nat) : Option Nat :=
  match s.keyOf? g with
  | none => none
  | some k => match (s.taskAt k).run with
    | .parked _ (.page v a) => if v / 4096 == va / 4096 && a == acc then some k else none
    | _ => none

/-- A supervisor fault that Caldera or the device meets on a partition's memory: the partition stops (19:R304, 17:R270; assumption 52, DEDUCED). -/
def partFault (s : State) (part : Nat) (c : BitVec 6) (va : Nat) : State :=
  let s := s.modPart part fun p => { p with stopped := true }
  let s := s.requestPreempt part true []
  s.postEvent (eventRecord 1 part (BitVec.ofNat 64 c.toNat) 0 (BitVec.ofNat 64 va))

/-- A fault of a supervisor access is raised at once, to firmware: at its task's next boundary where that stands at supervisor privilege in
a slot, else for the partition alone (19:R304). -/
def supFault (s : State) (part : Nat) (g : Word) (d : Due) : State :=
  match s.keyOf? g with
  | none => s.partFault part d.cause d.addr.toNat
  | some k => if (s.taskAt k).priv = .task then s.partFault part d.cause d.addr.toNat else s.addDue k d

/-- Change the engine commands of a task that a fault of this page holds. -/
def modHeldCmds (s : State) (g : Word) (va : Nat) (f : Cmd → Cmd) : State :=
  let hit (c : Cmd) : Cmd := if c.owner == g && (c.fault.any fun v => v / 4096 == va / 4096) then f c else c
  { s with tiles := s.tiles.map fun (e : Nat × Tile) => (e.1, { e.2 with queues := e.2.queues.map fun (q : List Cmd) => q.map hit }) }

/-- An access attached to a fault is reissued. A withdrawn request is translated again by its own event (19:R299). -/
def retryWaiter (s : State) (va : Nat) (w : Waiter) : State :=
  if w.tag.isSome then s
  else if 8 ≤ w.acc then s.modHeldCmds w.gtid va fun c => { c with fault := none }
  else match s.parkedOn w.gtid va w.acc with
    | none => s
    | some k => s.wakeNow k

/-- A withdrawn request that cannot be translated any more ends as one its path ended, with the cause due at its task (assumption 26,
DEDUCED): a load delivers zero under an error mark. -/
def failAcc (s : State) (tag : Nat) (d : Due) : State :=
  match s.accOf? tag with
  | none => s
  | some a =>
    if !a.pending then s
    else
      let s := (if a.op.reads then s.putAcc { a with st := .failed false } else (s.dropAcc a.tag).addDelay a).recordAcc a
      if a.sup then s.supFault a.part a.owner d else s.addDueTo a.owner d

/-- `sub` of the record of an access by its rights: read, write, atomic, or an engine's (27:R406). -/
def rightsSub (acc : Nat) : Nat := if 8 ≤ acc then 3 else if 4 ≤ acc then 2 else acc - 1

/-- The cause of a fault, due at its task (17:R269). -/
def faultDue (s : State) (va : Nat) (seg : Option (BitVec 3)) (c : BitVec 6) (acc : Nat) : Due :=
  { cause := c, seg := seg, addr := BitVec.ofNat 64 (va % 2 ^ 52), sub := rightsSub acc, cycle := s.cycle }

/-- The task of a slot that a failed save had stopped goes on as though it had never been stopped (18:R283). -/
def unstop (s : State) (key : Nat) : State :=
  match mapGet s.slots key with
  | none => s
  | some t => s.putTask key { t with draining := none }

/-- A context instruction whose image's page cannot be moved answers 0x08, and the target of a save resumes (18:R282, R283). -/
def failAsk (s : State) (g : Word) (va : Nat) : State :=
  let hit (a : Asked) : Bool := a.gtid == g && a.page == some (va / 4096) && a.reply.isNone
  let s := (s.cald.asked.filter hit).foldl (fun s a => match a.ask with
    | .ctxsave slot _ => s.unstop (coreOf a.key * 16 + slot.toNat)
    | _ => s) s
  { s with cald := { s.cald with asked := s.cald.asked.map fun (a : Asked) => if hit a then { a with reply := some 8 } else a } }

/-- An access attached to a fault fails: a precise trap at its instruction, engine status 0x0A, or code 0x08 of a context instruction. -/
def failWaiter (s : State) (va : Nat) (c : BitVec 6) (w : Waiter) : State :=
  match w.tag with
  | some n => s.failAcc n (s.faultDue va w.seg c w.acc)
  | none =>
    if 8 ≤ w.acc then s.modHeldCmds w.gtid va fun c => { c with fault := none, failed := true }
    else match s.parkedOn w.gtid va w.acc with
      | none => s.failAsk w.gtid va
      | some k => (s.addDue k (s.faultDue va w.seg c w.acc)).wakeNow k

/-- Park a task on a page at row 0. -/
def parkPage (s : State) (key va acc : Nat) : State := ((s.at_ key).park 0 (.page va acc)).at_ s.cur

/-- A walk ends with a fault: at once for supervisor code, and for a partition without a ring; else a record. -/
def walkFaults (s : State) (w : Walk) (c : BitVec 6) : State :=
  let s := s.recordExt w.key w.gtid (if w.acc = 4 then 2 else w.acc - 1) w.va
  let d := s.faultDue w.va (some w.seg) c w.acc
  if w.sup then s.addDue w.key d
  else match (s.partOf? w.part).bind (·.fring) with
    | none => s.addDue w.key d
    | some _ => (s.parkPage w.key w.va w.acc).postFault w.part w.va w.acc c ⟨w.gtid, w.acc, some w.seg, none, w.va⟩

def modDir (s : State) (part vpage : Nat) (f : DirEntry → DirEntry) : State :=
  s.modPart part fun p => { p with dir := mapMod p.dir vpage {} f }

/-- Attach an access to its page's entry in the migration directory; the request is on its way. -/
def dirAttach (s : State) (part va : Nat) (w : Waiter) : State :=
  s.modDir part (va / 4096) fun e => { e with asked := true, waiters := e.waiters ++ [w] }

/-- A walk reads one entry at each of four levels (19:R297: typically 180 cycles each; assumption 34, DESIGN CHOICE). -/
def walkCycles : Nat := 720

/-- The walker completes a translation (19:R295, R303). A walk whose task has left its slot, or stands at another privilege than the access
was made at, is dropped: the access translates again when it is reissued. -/
def pageWalkDone (s : State) (w : Walk) : State :=
  let t := s.taskAt w.key
  if t.gtid != w.gtid || (t.priv != .task) != w.sup then s
  else match s.walkSeen w.part w.va w.acc with
    | .entry e => s.tlbInstall (w.cluster * 8) e
    | .fault c => s.walkFaults w c
    | .directory =>
      if w.sup then s.walkFaults w cPAGE_UNMAPPED
      else (s.parkPage w.key w.va w.acc).dirAttach w.part w.va ⟨w.gtid, w.acc, some w.seg, none, w.va⟩

/-- Caldera sees the reply of a pending fault (19:R302). -/
def faultReplied (s : State) (f : FaultRec) (reply rcause : Nat) : State :=
  let s := { s with mmu := { s.mmu with faults := s.mmu.faults.filter fun x => !sameFault x f.part f.va f.acc } }
  if reply = 1 then f.waiters.foldl (fun s w => s.retryWaiter f.va w) s
  else
    let c : BitVec 6 := if reply = 2 ∧ 0x18 ≤ rcause ∧ rcause ≤ 0x1E then BitVec.ofNat 6 rcause else cPAGE_UNMAPPED
    f.waiters.foldl (fun s w => s.failWaiter w.va c w) s

/-- The reply of fault record i, where there is one. The reserved bytes of the record are not looked at (assumption 86, DESIGN CHOICE: the spec
gives non-zero ones no outcome). -/
def replyOf (s : State) (part i : Nat) : Option (FaultRec × Nat × Nat) :=
  match s.mmu.faults[i]? with
  | none => none
  | some f =>
    if f.part ≠ part then none
    else match f.idx, (s.partOf? part).isSome with
      | some n, true =>
        let at_ := ringAt f.base + 64 + n % ringSize f.base * 32
        match s.vaNat part (at_ + 24) 1, s.vaNat part (at_ + 25) 1 with
        | some r, some c => if r = 0 then none else some (f, r, c)
        | _, _ => none
      | _, _ => none

/-! ### Leases (19:R298, R299) -/

/-- Drop dead entry i of a cluster's TLB, or of a die's behind it from 128 upward. -/
def leaseEnds (s : State) (cluster i : Nat) : State :=
  let dead (l : List TlbEntry) : List TlbEntry := match l[i]? with
    | some e => if e.expiry ≤ s.cycle then l.eraseIdx i else l
    | none => l
  if cluster < 128 then { s with mmu := { s.mmu with tlb1 := mapMod s.mmu.tlb1 cluster [] dead } }
  else { s with mmu := { s.mmu with tlb2 := mapMod s.mmu.tlb2 (cluster - 128) [] dead } }

/-- A fault of this request is pending, in the ring or at the directory. -/
def faultPends (s : State) (tag : Nat) : Bool :=
  (s.mmu.faults.any fun f => f.waiters.any fun w => w.tag == some tag)
    || s.parts.any fun e => e.2.dir.any fun d => d.2.waiters.any fun w => w.tag == some tag

/-- Withdraw a request that its lease no longer covers, translate it again at its core's port and reissue it (19:R299). Where it faults it
waits as R303 has it: on a record, or on the directory; supervisor code's fault is raised at once (19:R304; assumption 26, DEDUCED). -/
def withdraw (s : State) (a : Acc) : State :=
  match a.place with
  | .tile _ _ _ => s
  | .ext space q va ps =>
    let n := (ps.map (·.len)).sum
    let kind := if a.op.reads then (if a.op.writes then 4 else 1) else 2
    let core := coreOf a.key
    match s.piecesFor a.part core va n kind with
    | .ok (ps, s) => s.putAcc { a with place := .ext space q va ps, leaseEnd := s.leaseOf a.part core va n kind }
    | .error e =>
      let w : Waiter := ⟨a.owner, kind, none, some a.tag, e.va⟩
      let s := s.recordAcc a
      match e.why, a.sup with
      | some c, true => s.failAcc a.tag (s.faultDue e.va none c kind)
      | none, true => s.failAcc a.tag (s.faultDue e.va none cPAGE_UNMAPPED kind)
      | none, false => s.dirAttach a.part e.va w
      | some c, false => match (s.partOf? a.part).bind (·.fring) with
        | none => s.failAcc a.tag (s.faultDue e.va none c kind)
        | some _ => s.postFault a.part e.va kind c w

/-! ### The migration directory (19:R305 to R307) -/

/-- Address of the 4 KiB leaf that maps a page, by the tables above it. -/
def leafAddr (s : State) (pa va : Nat) : Nat → Option Nat
  | 0 => some (pteAddr pa 0 va)
  | lvl + 1 =>
    let e := pteOf (s.loadNat (pteAddr pa (lvl + 1) va) 8)
    if e.v && !e.leaf then leafAddr s e.pa va lvl else none

def leafOf? (s : State) (part vpage : Nat) : Option Nat :=
  s.leafAddr (((s.partOf? part).map (·.ptroot)).getD 0) (vpage * 4096) 3

/-- Rewrite a leaf: valid bit, `mig`, physical address. -/
def writeLeaf (s : State) (part vpage : Nat) (v : Bool) (mig pa : Nat) : State :=
  match s.leafOf? part vpage with
  | none => s
  | some a =>
    let e := s.loadNat a 8
    s.storeNat a 8 (setField (setField (setField e 63 1 (ofBool v)) 55 2 mig) 12 38 (pa / 4096))

/-- Wake a page's faulters. -/
def dirWake (s : State) (part vpage : Nat) (fail : Option (BitVec 6)) : State :=
  let ws := (s.dirEntry part vpage).waiters
  let s := s.modDir part vpage fun e => { e with waiters := [] }
  ws.foldl (fun s w => match fail with
    | none => s.retryWaiter (vpage * 4096) w
    | some c => s.failWaiter w.va c w) s

/-- The answer to a host fault, granted: byte 8 says 0, it uses host memory, or 1, it maps the device frame, at the address that follows
(25:R367). -/
def hostGrant (s : State) (remote : Bool) (frame : Nat) : State := s.answerReq 5 1 (leBytes 8 (ofBool remote) ++ leBytes 8 frame)

/-- Host address of a page and the host-window address a remote leaf holds. -/
def hostWindow (hostPa : Nat) : Nat := 2 * 2 ^ 48 + hostPa % 2 ^ 48

/-- The device, the loser of a move to the host, is mapped to the host's page. What it and others write there from now on stays: the page is
copied first, and the end of the move copies only what old leases still change in the frame (19:R306, R307). -/
def mapLoser (s : State) (part vpage : Nat) : State :=
  let e := s.dirEntry part vpage
  if e.snap.isSome then s
  else
    let b := memRead s.mem e.frame 4096
    (s.store (hostBase + e.hostPa) b).modDir part vpage fun e => { e with loser := some true, timer := some s.cycle, snap := some b }

/-- Host address of the page that a leaf maps. -/
def hostPage (s : State) (leaf : Nat) : Nat := (pteOf (s.loadNat leaf 8)).pa % 2 ^ 48

/-- A device fault reaches the directory. A page that the partition may not take from the host stays there (01:R8, 19:R306, 23:R358). -/
def dirDeviceFault (s : State) (part vpage : Nat) : State :=
  let e := s.dirEntry part vpage
  if !e.asked then s
  else
    let s := s.modDir part vpage fun e => { e with asked := false }
    let remote (s : State) : State := (s.writeLeaf part vpage true 2 (hostWindow e.hostPa)).dirWake part vpage none
    if e.timer.isSome && e.loser == some true then remote s
    else match e.st with
      | .host =>
        match s.partOf? part, s.leafOf? part vpage with
        | some p, some a =>
          match p.frames with
          | [] => s.dirWake part vpage (some cMIGRATION_FAIL)
          | f :: r =>
            if !s.hostOpen part (s.hostPage a) then s.dirWake part vpage (some cHOST_ABORT)
            else (s.modPart part fun p => { p with frames := r }).modDir part vpage fun e =>
              { e with st := .moving true, hostPa := s.hostPage a, frame := f, since := s.cycle }
        | _, _ => s.dirWake part vpage (some cMIGRATION_FAIL)
      | .device => s.dirWake part vpage none
      | .moving true => s
      | .moving false => if s.hostOpen part e.hostPa then remote (s.mapLoser part vpage) else s

/-- What the directory does with a fault of the host. -/
def dirHostServe (s : State) (part vpage : Nat) : State :=
  let e := s.dirEntry part vpage
  if e.timer.isSome && e.loser == some false then s.hostGrant true e.frame
  else match e.st with
    | .host => s.hostGrant false 0
    | .device =>
      ((s.writeLeaf part vpage false 0 e.frame).modDir part vpage fun e =>
        { e with st := .moving false, since := s.cycle, hostWaits := e.hostWaits + 1
                 lmax := ((s.partOf? part).map (·.lease)).getD 20 }).takeTurn 5
    | .moving true =>
      (s.modDir part vpage fun e => { e with loser := some false, timer := some s.cycle }).hostGrant true e.frame
    | .moving false => (s.modDir part vpage fun e => { e with hostWaits := e.hostWaits + 1 }).takeTurn 5

/-- The walks of this page that end in the current cycle. -/
def endingWalks (s : State) (part vpage : Nat) : List Walk :=
  s.mmu.walks.filter fun w => w.part == part && w.va / 4096 == vpage && decide (w.since + walkCycles ≤ s.cycle)

/-- Requests of one cycle are ordered device first: a device fault whose walk ends in it reaches the directory before the host's (19:R307). -/
def dirHostFault (s : State) (part vpage : Nat) : State :=
  let ws := s.endingWalks part vpage
  let s := ws.foldl (fun (s : State) w => ({ s with mmu := { s.mmu with walks := s.mmu.walks.erase w } } : State).pageWalkDone w) s
  (s.dirDeviceFault part vpage).dirHostServe part vpage

/-- Clear the poison of a physical page that has been written whole; its tree is rebuilt (23:R349). -/
def cleanPage (s : State) (pa : Nat) : State :=
  { s with poison := s.poison.filter (· != pa / 4096), macBad := s.macBad.filter fun l => l / 64 != pa / 4096 }

/-- Copy 4 KiB; a poisoned destination stays as it is (23:R347, R349). -/
def copyPage (s : State) (src dst : Nat) : State := if s.poisoned dst then s else s.store dst (memRead s.mem src 4096)

/-- The quiet time of a leaf's change: by the largest lease length in force since it was made (19:R299). -/
def quiet (e : DirEntry) : Nat := (e.lmax + 4) * cyclesPerUs

/-- Faults attached to a move to the host end with HOST_ABORT where its copy failed: status 2 (19:R306; assumption 91, DESIGN CHOICE). -/
def hostAborts (s : State) : Nat → State
  | 0 => s
  | n + 1 => hostAborts (s.answerReq 5 2 (leBytes 8 2 ++ leBytes 8 cHOST_ABORT.toNat)) n

/-- Faults attached to a move to the host have their answer. -/
def hostGrants (s : State) (remote : Bool) (frame : Nat) : Nat → State
  | 0 => s
  | n + 1 => hostGrants (s.hostGrant remote frame) remote frame n

/-- The copy of a move to the host: the frame, or what has changed in it since the device was mapped to the host. -/
def copyToHost (s : State) (e : DirEntry) : State :=
  match e.snap with
  | none => s.copyPage e.frame (hostBase + e.hostPa)
  | some b =>
    let new := memRead s.mem e.frame 4096
    s.store (hostBase + e.hostPa) (((b.zip new).zip (memRead s.mem (hostBase + e.hostPa) 4096)).map fun x => if x.1.1 = x.1.2 then x.2 else x.1.2)

/-- A move ends; its copy succeeds only while the host takes it (01:R8, 23:R358). -/
def moveDone (s : State) (part vpage : Nat) (ok : Bool) : State :=
  let e := s.dirEntry part vpage
  let ok := ok && s.hostOpen part e.hostPa
  match e.st with
  | .moving true =>
    if ok then
      let s := s.copyPage (hostBase + e.hostPa) e.frame
      let s := s.writeLeaf part vpage true 0 e.frame
      (s.modDir part vpage fun e => { e with st := .device }).dirWake part vpage none
    else
      let s := s.modPart part fun p => { p with frames := insNat p.frames e.frame }
      (s.modDir part vpage fun e => { e with st := .host }).dirWake part vpage (some cHOST_ABORT)
  | .moving false =>
    if s.cycle < e.since + quiet e then s
    else if ok then
      let s := s.copyToHost e
      let s := s.modPart part fun p => { p with frames := insNat p.frames e.frame }
      let remote := e.timer.isSome && e.loser == some true
      let s := if remote then s else s.writeLeaf part vpage true 1 (hostWindow e.hostPa)
      (s.modDir part vpage fun e => { e with st := .host, hostWaits := 0, snap := none }).hostGrants false 0 e.hostWaits
    else
      let s := s.writeLeaf part vpage true 0 e.frame
      let s := s.modDir part vpage fun e => { e with st := .device, hostWaits := 0, snap := none }
      (s.hostAborts e.hostWaits).dirWake part vpage (some cHOST_ABORT)
  | _ => s

/-! ### Invalidations of host translations (19:R308) -/

def pieceIn (lo hi : Nat) (p : Piece) : Bool :=
  decide (hostBase ≤ p.addr) && decide (p.addr - hostBase < hi) && decide (lo < p.addr - hostBase + p.len)

/-- The pieces of those pages of a range of global memory that translate now. -/
def openPages (s : State) (part va n acc : Nat) : List Piece :=
  (pagesOf va n).filterMap fun p => match s.walkSeen part p.1 acc with
    | .entry e => some (pieceAt e p)
    | _ => none

/-- Host bytes of the part of a side that is still to move: its own in space 0x5, those of its pages in the host window in space 0x4. -/
def sideHost (s : State) (c : Cmd) (x : Side) (acc : Nat) : List (Nat × Nat) :=
  if !x.ext then []
  else if x.space = 5 then [(x.addr + c.moved, x.len - c.moved)]
  else ((s.openPages c.part (x.addr + c.moved) (x.len - c.moved) acc).filter fun p => decide (hostBase ≤ p.addr)).map fun p =>
    (p.addr - hostBase, p.len)

/-- Host bytes a started command still reads or writes. -/
def cmdHost (s : State) (c : Cmd) : List (Nat × Nat) :=
  match c.moving, c.sides with
  | true, [x, y] => s.sideHost c x 1 ++ s.sideHost c y 2
  | _, _ => []

def runningCmds (s : State) : List (Nat × Cmd) :=
  s.tiles.flatMap fun e => e.2.queues.toList.flatMap fun q => (q.filter Cmd.running).map fun c => (e.1, c)

/-- An Invalidate Request on a host link: what has been issued under the translation is noted, and later requests translate again. -/
def atsRequest (s : State) (link lo hi : Nat) : State :=
  let mine (part : Nat) : Bool := s.hostLink? part == some link
  let tags := (s.net.accs.filter fun a => mine a.part && (match a.st with
    | .flying => true
    | .performed _ => true
    | _ => false) && a.pieces.any (pieceIn lo hi)).map (·.tag)
  let cmds := (s.runningCmds.filter fun e => mine e.2.part && (s.cmdHost e.2).any fun r => decide (r.1 < hi) && decide (lo < r.1 + r.2)).map
    fun e => (e.1, e.2.order)
  let v : AtsInval := { lo := lo, hi := hi, since := s.cycle, tags := tags, cmds := cmds }
  { s with mmu := { s.mmu with
    atc := mapMod s.mmu.atc link [] fun l => l.filter fun p => !(decide (p * 4096 < hi) && decide (lo < p * 4096 + 4096))
    invals := mapMod s.mmu.invals link [] fun l => l ++ [v] } }

def invalOf? (s : State) (link i : Nat) : Option AtsInval := ((mapGet s.mmu.invals link).getD [])[i]?

/-- End a running command with 0x01: what it moved stays (19:R308); a `copy.dec` has zeroed its destination (14:R249). -/
def abortCmd (s : State) (tile order : Nat) : State :=
  let f (c : Cmd) : Cmd :=
    if c.order = order ∧ Cmd.running c then
      let r : CmdResult := { code := 1, detail := c.result.detail, terms := c.result.terms, endCycle := s.cycle }
      { c with fault := none, held := false, moving := false, result := r }
    else c
  s.modTile tile fun t => { t with queues := t.queues.map fun (q : List Cmd) => q.map f }

/-- After 50 µs the requests that remain are aborted (assumption 54, DEDUCED). -/
def atsAbort (s : State) (v : AtsInval) : State :=
  if s.cycle < v.since + 50 * cyclesPerUs then s
  else
    let s := v.tags.foldl (fun s tag => match s.accOf? tag with
      | some a => if a.pending then s.accFails a false else s
      | none => s) s
    v.cmds.foldl (fun s c => s.abortCmd c.1 c.2) s

/-- No request issued under the translation is left. After 50 µs what has been performed is waited for no more. -/
def atsDrained (s : State) (v : AtsInval) : Bool :=
  !(v.tags.any fun tag => (s.accOf? tag).any fun a => match a.st with
      | .flying => true
      | .performed _ => decide (s.cycle < v.since + 50 * cyclesPerUs)
      | _ => false)
    && !(v.cmds.any fun c => s.runningCmds.any fun e => e.1 == c.1 && e.2.order == c.2 && (e.2.moving || decide (s.cycle < e.2.result.endCycle)))

/-- The Invalidate Completion is sent. -/
def atsComplete (s : State) (link i : Nat) (v : AtsInval) : State :=
  if !s.atsDrained v then s
  else { s with
    mmu := { s.mmu with invals := mapMod s.mmu.invals link [] fun l => l.eraseIdx i }
    replies := s.replies ++ [{ session := link, code := 0x100, status := 0, data := leBytes 8 v.lo ++ leBytes 8 v.hi }] }

end State

def execPageWalk (i : Nat) (s : State) : Out :=
  .next (match s.mmu.walks[i]? with
    | none => s
    | some w =>
      if s.cycle < w.since + State.walkCycles then s
      else ({ s with mmu := { s.mmu with walks := s.mmu.walks.eraseIdx i } } : State).pageWalkDone w)

def execFaultReply (part i : Nat) (s : State) : Out :=
  .next (match s.replyOf part i with
    | none => s
    | some (f, r, c) => s.faultReplied f r c)

def execLeaseExpiry (cluster i : Nat) (s : State) : Out := .next (s.leaseEnds cluster i)

def execLeaseWithdrawal (tag : Nat) (s : State) : Out :=
  .next (match s.accOf? tag with
    | none => s
    | some a => if a.st != .flying || s.leaseOk a.leaseEnd || s.faultPends tag then s else s.withdraw a)

def execDirectoryDeviceFault (part vpage : Nat) (s : State) : Out := .next (s.dirDeviceFault part vpage)
def execDirectoryHostFault (part vpage : Nat) (s : State) : Out :=
  .next (s.inTurn (.fault part vpage) fun s => s.dirHostFault part vpage)
def execMigrationMoveComplete (part vpage : Nat) (ok : Bool) (s : State) : Out := .next (s.moveDone part vpage ok)

/-- The hysteresis timer of a page ends after 100 µs. -/
def execHysteresisExpiry (part vpage : Nat) (s : State) : Out :=
  .next (match (s.dirEntry part vpage).timer with
    | none => s
    | some c => if s.cycle < c + 100 * cyclesPerUs then s
      else s.modDir part vpage fun e => { e with timer := none, loser := none })

def execAtsInvalidateRequest (link lo hi : Nat) (s : State) : Out := .next (s.atsRequest link lo hi)

def execAtsInvalidateTimeout (link i : Nat) (s : State) : Out :=
  .next (match s.invalOf? link i with
    | none => s
    | some v => s.atsAbort v)

def execAtsInvalidateCompletion (link i : Nat) (s : State) : Out :=
  .next (match s.invalOf? link i with
    | none => s
    | some v => s.atsComplete link i v)

end Sys2Proof.Machine
end

