-- ==== Sys2Proof/Machine/Engine.lean ====
section
/-! DEFINITION. The engines of a tile: how a command starts, what it does, how it completes (07:R129 to R132, 14:R238 to R251,
05:R92 to R97, 20:R320, 23:R349, R359). -/

namespace Sys2Proof.Machine

open CmdWord

/-- What starting a command gives: it ends with a result, it moves its range in parts, it waits, or it needs memory that is not there. -/
inductive EngOut
  | done (r : CmdResult) (s : State)
  | go (c : Cmd) (s : State)
  | wait

/-- What a part of a side gives: its pieces, a page that does not translate, a status code, a wait, a cause
that refuses it, or an address no memory backs. -/
inductive Reach
  | ok (ps : List Piece) (s : State)
  | page (e : VaFail)
  | code (k : Nat)
  | wait
  | barred (c : BitVec 6)
  | absent (pa : Nat)

/-- The lowest code of those that hold (14:R241). -/
def worst (codes : List (Nat × Nat)) : Option (Nat × Nat) :=
  codes.foldl (fun m c => match m with
    | none => some c
    | some x => if c.1 < x.1 ∨ (c.1 = x.1 ∧ c.2 < x.2) then some c else some x) none

def fails (r : Nat × Nat) : CmdResult := { code := r.1, detail := r.2 }

/-! ### Elements of collectives (14:R250) -/

def collBytes (td : BitVec 5) : Nat := if td.toNat = 10 then 2 else if td.toNat = 0 then 1 else 4

/-- The sum of a list of elements: binary32 rounded at each addition, i32 wrapping, bfloat16 summed as binary32 and rounded
once. A lone element is no sum of binary32 and stays as it is, while a lone bfloat16 element is rounded as every one is, which makes a
NaN canonical (assumption 88, DESIGN CHOICE). -/
def collSum (td : BitVec 5) (xs : List Nat) : Nat :=
  match td.toNat with
  | 2 => xs.foldl (· + ·) 0 % 2 ^ 32
  | 8 => match xs with
    | [] => 0
    | x :: r => r.foldl (fun a b => (f32.round 0 false ((f32.decode a).add 0 (f32.decode b))).bits) x
  | 10 => match xs.map bf16.decode with
    | [] => 0
    | x :: r => (bf16.round 0 false (r.foldl (fun a b => round32 (a.add 0 b)) x)).bits
  | _ => xs.headD 0

/-- Element-wise sum of ranges of n bytes. -/
def collRange (td : BitVec 5) (n : Nat) (ranges : List (List Byte)) : List Byte :=
  let b := collBytes td
  let arrs := ranges.map (·.toArray)
  (List.range (n / b)).flatMap fun i =>
    leBytes b (collSum td (arrs.map fun a => leNat ((List.range b).map fun j => a.getD (i * b + j) 0)))

/-! ### Pieces -/

/-- Bytes of the next part of a command that moves: up to the next page boundary of either side, and whole elements of a `coll.add`,
of which one may lie across a boundary (19:R296, 14:R250). -/
def partLen (c : Cmd) (x y : Side) : Nat :=
  let room (z : Side) : Nat := if z.ext then 4096 - (z.addr + c.moved) % 4096 else 2097152
  let n := min (x.len - c.moved) (min (room x) (room y))
  let b := if queue c.word = 3 ∧ eop c.word = 2 then collBytes (td c.word) else 1
  if n < b then min b (x.len - c.moved) else n / b * b

/-- Cycles that moving n bytes takes, one beat of 16 bytes a cycle (06:R103; assumption 35, DESIGN CHOICE). -/
def beats (n : Nat) : Nat := max 1 ((n + 15) / 16)

/-- The result a moving command ends with: the lowest code counts, and 0x0A and 0x0B bring no detail (14:R241). -/
def endResult (c : Cmd) (k now : Nat) : CmdResult :=
  let code := if c.result.code = 0 then k else if k = 0 then c.result.code else min c.result.code k
  { c.result with code := code, detail := if code = 10 ∨ code = 11 then 0 else c.result.detail, endCycle := now }

namespace State

/-- A store by an engine: bytes that a running `copy.dec` of another command hides keep their value (14:R249). -/
def engineStore (s : State) (c : Cmd) (a : Nat) (bs : List Byte) : State :=
  let own (d : Cmd) : Bool := d.order == c.order && d.core == c.core
  s.store a (bs.zipIdx.map fun e => if s.hiddenBut own (a + e.2) then memGet s.mem (a + e.2) else e.1)

/-- The messages of a part of a command to domain members: loads and stores with their responses, or collective beats (23:R354). -/
def engineAsks (s : State) (c : Cmd) (acc : Nat) (ps : List Piece) (bs : List Byte) : State :=
  if queue c.word = 3 then s.askDomain c.part 4 ps bs else (s.askDomain c.part (acc / 2 % 2) ps bs).domainAnswers c.part ps

/-- What the memory side says of a piece: routes (25:R371), worlds (23:R342), poison under a read (23:R347; assumption 66, DEDUCED). -/
def pieceProblem (s : State) (c : Cmd) (acc : Nat) (p : Piece) : Option Reach :=
  match unbacked? [p] with
  | some pa => some (.absent pa)
  | none =>
    let lost := s.domainLost c.part [p]
    if s.foreign c.part [p] then some (.barred cWORLD_REFUSED)
    else if !s.routed c.part [p] || (lost && queue c.word == 2) then some (.code 1)
    else if acc % 2 == 1 && s.poisonMeets [p] then some (.code 3)
    else if acc % 2 == 1 && s.macMeets [p] then some (.barred cINTEGRITY)
    else if lost then some (.code 11)
    else if queue c.word == 2 && s.domainHolds c.part [p] then some .wait
    else none

/-- Of what the pieces of a part meet: memory that is not there, else the lowest code (14:R241; what bars them is 0x01), else a wait. -/
def worstReach (l : List Reach) : Option Reach :=
  let absent := l.find? fun r => match r with
    | .absent _ => true
    | _ => false
  let world := l.find? fun r => match r with
    | .barred _ => true
    | _ => false
  let codes := l.filterMap fun r => match r with
    | .code k => some (k, 0)
    | _ => none
  ((absent.orElse fun _ => world).orElse fun _ => (worst codes).map fun c => .code c.1).orElse fun _ => l.head?

/-- Reach n bytes of a side from byte `o` on, translated at its tile's port just before they move (01:R12, 19:R296); `acc` bit 0 read, bit 1
write. -/
def reach (s : State) (c : Cmd) (x : Side) (o n acc : Nat) : Reach :=
  if !x.ext then
    let z := placeOf x.addr
    if s.tileAway z.1 z.2.1 c.owner then .wait else .ok [⟨x.addr + o, n, 3⟩] s
  else
    match (if x.space = 5 then .ok ([⟨hostBase + x.addr + o, n, 0⟩], s) else s.piecesFor c.part c.core (x.addr + o) n acc) with
    | .error e => .page e
    | .ok (ps, s) => (worstReach (ps.filterMap (s.pieceProblem c acc))).getD (.ok ps (s.atcFill c.part ps))

/-- A page of the destination that the command rewrites whole: only a `copy` clears its poison (23:R349). -/
def wholePage (c : Cmd) (y : Side) (o : Nat) : Bool :=
  let v := (y.addr + o) / 4096 * 4096
  queue c.word == 2 && eop c.word == 1 && y.space == 4 && decide (y.addr ≤ v) && decide (v + 4096 ≤ y.addr + y.len)

/-- Write the part of the destination from byte `o` on. A poisoned page that is not rewritten whole keeps its bytes, and the command goes
on to 0x03; one that is loses its poison with its last byte (23:R349; assumption 40, DESIGN CHOICE). -/
def writePart (s : State) (c : Cmd) (y : Side) (o : Nat) (ps : List Piece) (bs : List Byte) : Cmd × State :=
  if s.poisonMeets ps && !wholePage c y o then
    ({ c with result := { c.result with code := if c.result.code = 0 then 3 else min c.result.code 3 } }, s)
  else
    let s := if y.ext then s.storePieces ps bs else s.engineStore c (y.addr + o) bs
    let s := if wholePage c y o && (y.addr + o + bs.length) % 4096 == 0 then ps.foldl (fun s p => s.cleanPage p.addr) s else s
    ({ c with result := { c.result with detail := c.result.detail + bs.length } }, s)

/-! ### Operand slots -/

def slotRange (c : Cmd) (i : Nat) : Range := c.ranges.toList[i - 1]?.getD {}

/-- Slot i names a descriptor (14:R248, R250). -/
def descSlot (w : CmdWord) (i : Nat) : Bool :=
  (queue w == 2 && ((i == 1 && flag w 0) || (i == 2 && flag w 1))) || (queue w == 3 && i == 2 && flag w 1)

/-- A descriptor: the range it names and what it breaks (14:R247). A bad one names no range, so that nothing else is amiss with
its range (assumption 36, DEDUCED). -/
def descSide (s : State) (c : Cmd) (i : Nat) (need : Need) : Side × List (Nat × Nat) :=
  let d := s.loadNat (slotRange c i).mem 16
  let x := segOf (c.gs.toList[field d 96 3]?.getD 0)
  let o := field d 0 64
  let n := field d 64 32
  let spaces := if queue c.word = 3 then [4] else [4, 5]
  let bad := field d 99 5 != 0 || field d 104 24 != 0 || !spaces.contains x.space || n == 0 || decide (2097152 < n)
  let fail := spaces.contains x.space && (!x.allows need || decide (x.limit ≤ o) || decide (x.limit - o < n))
  ({ ext := true, len := n, addr := x.base + o, space := x.space },
    if bad then [(9, i)] else if fail then [(4, i)] else [])

def sideOf (s : State) (c : Cmd) (i : Nat) (need : Need) : Side × List (Nat × Nat) :=
  if descSlot c.word i then s.descSide c i need
  else
    let r := slotRange c i
    ({ ext := false, len := r.len, addr := r.mem, space := r.space }, [])

def rdNeed : Need := { rd := true, en := true }
def wrNeed : Need := { wr := true, en := true }
def rwNeed : Need := { rd := true, wr := true, en := true }

/-- The scale array a slot brings, by memory address and length (14:R245, R246). -/
def scaleRange (c : Cmd) (i : Nat) : Nat × Nat :=
  let n := scaleLen c.word i
  if n = 0 then (0, 0) else (segMem c.part c.vtile (c.gs.toList[(seg c.word i).toNat]?.getD 0) (aux c.word i * 32), n)

/-! ### The scoreboard (07:R131) -/

def latchAddr (part vt l : Nat) : Nat := 2 ^ 63 + (part * 1024 + vt) * 4 + l

def lsel (w : CmdWord) : Nat := if queue w = 1 then ofBool (flag w 0) else ofBool (flag w 1)

def wholeSlot (c : Cmd) (i : Nat) : List (Nat × Nat) :=
  if pres c.word i then [((slotRange c i).mem, (slotRange c i).len)] else []

def cmdWrites (c : Cmd) : List (Nat × Nat) :=
  let w := c.word
  match queue w, eop w with
  | 0, _ => wholeSlot c 3
  | 1, _ => [(latchAddr c.part c.vtile (lsel w), 1)]
  | 2, 4 => (if descSlot w 2 then [] else wholeSlot c 2) ++ wholeSlot c 3
  | 2, 3 => wholeSlot c 2
  | 2, 2 => wholeSlot c 2 ++ wholeSlot c 3
  | 2, _ => if descSlot w 2 then [] else wholeSlot c 2
  | 3, 3 => wholeSlot c 1
  | 3, _ => if descSlot w 2 then [] else wholeSlot c 2
  | _, _ => []

def cmdReads (c : Cmd) : List (Nat × Nat) :=
  let w := c.word
  let scales := ([1, 2].map (scaleRange c)).filter fun r => r.2 != 0
  (match queue w, eop w with
  | 0, _ => wholeSlot c 1 ++ wholeSlot c 2 ++ (if flag w 2 then [] else wholeSlot c 3)
      ++ (if flag w 0 then [(latchAddr c.part c.vtile (lsel w), 1)] else [])
  | 1, _ => wholeSlot c 1 ++ wholeSlot c 2
  | 2, 2 => wholeSlot c 1
  | 2, 3 => wholeSlot c 1 ++ wholeSlot c 3
  | 2, 4 => wholeSlot c 1 ++ wholeSlot c 3 ++ (if descSlot w 2 then wholeSlot c 2 else [])
  | 2, _ => wholeSlot c 1 ++ (if descSlot w 2 then wholeSlot c 2 else [])
  | 3, 1 => wholeSlot c 1 ++ (if descSlot w 2 then wholeSlot c 2 else [])
  | 3, _ => wholeSlot c 1 ++ wholeSlot c 2
  | _, _ => []) ++ scales

def rangesMeet (a b : List (Nat × Nat)) : Bool :=
  a.any fun x => b.any fun y => decide (x.1 < y.1 + y.2) && decide (y.1 < x.1 + x.2)

/-- Command L may not start while E is incomplete. -/
def conflicts (e l : Cmd) : Bool :=
  rangesMeet (cmdWrites e) (cmdReads l) || rangesMeet (cmdWrites e) (cmdWrites l) || rangesMeet (cmdReads e) (cmdWrites l)

/-- Commands of the four queues of a tile. -/
def tileCmds (s : State) (tile : Nat) : List Cmd := ((s.tile tile).queues.toList.take 4).flatten

/-- A fence entry accepted before the command holds its queue (07:R132). -/
def fenced (s : State) (tile q : Nat) (c : Cmd) : Bool :=
  (s.tile tile).queues[4].any fun f => decide (f.order < c.order) && f.word.getLsbD (44 + q)

def scored (s : State) (tile : Nat) (c : Cmd) : Bool :=
  (s.tileCmds tile).any fun e => decide (e.order < c.order) && conflicts e c

def modCmd (s : State) (tile order : Nat) (f : Cmd → Cmd) : State :=
  s.modTile tile fun t => { t with
    queues := t.queues.map fun (q : List Cmd) => q.map fun c => if c.order == order then f c else c }

/-! ### Bodies -/

/-- `mm` (14:R244, R245). -/
def mmBody (s : State) (c : Cmd) : EngOut :=
  let w := c.word
  let l := ((s.vtile c.part c.vtile).latches.toList[lsel w]?).getD none
  let a : Option (Array Byte × Array Byte) :=
    if flag w 0 then
      match l with
      | some l => if l.ty == ta w && l.m == rows w && l.k == depth w then some (l.data.toArray, l.scales.toArray) else none
      | none => none
    else
      let sc := scaleRange c 1
      some ((memRead s.mem (slotRange c 1).mem (slotRange c 1).len).toArray, (memRead s.mem sc.1 sc.2).toArray)
  match a with
  | none => .done { code := 6, detail := lsel w, terms := [(0x31, 1), (0x32, 16)], endCycle := s.cycle + 16 } s
  | some (ad, asc) =>
    let sc := scaleRange c 2
    let bd := (memRead s.mem (slotRange c 2).mem (slotRange c 2).len).toArray
    let bsc := (memRead s.mem sc.1 sc.2).toArray
    let r3 := slotRange c 3
    .done (mmCompute w (valueAt (ta w) ad asc) (valueAt (tb w) bd bsc) (memRead s.mem r3.mem r3.len) r3.mem s.cycle) s

/-- The cycle in which an engine has moved `n` bytes. -/
def beatsEnd (s : State) (n : Nat) : Nat := s.cycle + beats n

/-- `gath` (14:R246): its latch is invalid from the start. -/
def gathBody (s : State) (c : Cmd) : EngOut :=
  let sc := scaleRange c 1
  let r := gathCompute c.word (memRead s.mem (slotRange c 1).mem (slotRange c 1).len) (memRead s.mem sc.1 sc.2)
    (memRead s.mem (slotRange c 2).mem (slotRange c 2).len)
  .done { r with endCycle := s.beatsEnd ((r.latch.map fun l => l.2.data.length).getD 0) }
    (s.modVTile c.part c.vtile fun x => { x with latches := x.latches.setIfInBounds (lsel c.word) none })

/-- The lengths of two sides do not match; a bad descriptor has none. -/
def uneven (x y : Side × List (Nat × Nat)) : Bool := x.1.len != y.1.len && !((x.2 ++ y.2).any fun e => e.1 == 9)

/-- A command of these sides begins to move; a source in a tile is read at its start. -/
def moves (s : State) (c : Cmd) (x y : Side) : EngOut :=
  .go { c with moving := true, sides := [x, y], bytes := if x.ext then [] else memRead s.mem x.addr x.len } s

def ends (s : State) (e : Nat × Nat) : EngOut := .done { fails e with endCycle := s.cycle + 1 } s

/-- `copy` (14:R248). -/
def copyBody (s : State) (c : Cmd) : EngOut :=
  let x := s.sideOf c 1 rdNeed
  let y := s.sideOf c 2 wrNeed
  match worst (x.2 ++ y.2 ++ (if uneven x y then [(7, 0)] else [])) with
  | some e => s.ends e
  | none =>
    if x.1.ext || y.1.ext then s.moves c x.1 y.1
    else .done { detail := x.1.len, writes := [(y.1.addr, memRead s.mem x.1.addr x.1.len)], endCycle := s.beatsEnd x.1.len } s

/-- What `copy.cin` makes of its source (14:R248, 04:R83). -/
def cinResult (c : Cmd) (src : List Byte) (endCycle : Nat) : CmdResult :=
  let d := src.toArray
  let n := (slotRange c 2).len / 32
  match cinderHeader d with
  | none => { code := 8, detail := 0xFFFFFFFF, endCycle := endCycle }
  | some h =>
    let o := cinderRun d h (64 * aux c.word 1) n
    let ws := [((slotRange c 2).mem, o.1.flatMap (·.1)), ((slotRange c 3).mem, o.1.map (·.2))]
    match o.2 with
    | some b => { code := 8, detail := b, writes := ws, endCycle := endCycle }
    | none => { detail := n, writes := ws, endCycle := endCycle }

/-- `copy.cin` (14:R248). -/
def cinBody (s : State) (c : Cmd) : EngOut :=
  let x := s.sideOf c 1 rdNeed
  match worst x.2 with
  | some e => s.ends e
  | none =>
    if x.1.ext then s.moves c x.1 { ext := false, len := (slotRange c 2).len, addr := (slotRange c 2).mem, space := (slotRange c 2).space }
    else .done (cinResult c (memRead s.mem x.1.addr x.1.len) (s.beatsEnd x.1.len)) s

/-- Fields of a parameter block (14:R249). -/
structure Param where
  tag : List Byte
  iv : List Byte
  key : Nat
  aadlen : Nat
  aad : List Byte
  bad : Bool
  deriving DecidableEq, Repr

def paramOf (b : List Byte) : Param :=
  let n := leNat ((b.drop 32).take 2)
  { tag := b.take 16, iv := (b.drop 16).take 12, key := leNat ((b.drop 28).take 4), aadlen := n, aad := (b.drop 36).take n
    bad := decide (28 < n) || leNat ((b.drop 34).take 2) != 0 }

/-- The key a handle names, if its partition holds it with the use asked for (23:R359). -/
def keyOfHandle (s : State) (part h use : Nat) : Option KeyHandle :=
  match s.partOf? part with
  | none => none
  | some p =>
    match mapGet p.keys (h % 256) with
    | none => none
    | some k =>
      if h / 2 ^ 28 = p.world.toNat ∧ k.serial = field h 8 20 ∧ !k.dropped ∧ k.use.getLsbD use then some k else none

/-- What `copy.dec` makes of its source, with the parameters and key it read at its start (14:R249). -/
def decResult (c : Cmd) (src : List Byte) (endCycle : Nat) : CmdResult :=
  let p := paramOf c.param
  let y := slotRange c 2
  match Crypto.gcmOpen (c.param.drop 64) p.iv p.aad src p.tag with
  | none => { code := 2, endCycle := endCycle }
  | some pt => { detail := y.len, writes := [(y.mem, pt)], endCycle := endCycle }

/-- `copy.dec` (14:R249): the checks, then the destination is zeroed, then the data. -/
def decBody (s : State) (c : Cmd) : EngOut :=
  let x := s.sideOf c 1 rdNeed
  let y := slotRange c 2
  let b := memRead s.mem (slotRange c 3).mem 64
  let p := paramOf b
  let k := s.keyOfHandle c.part p.key 0
  match worst (x.2 ++ (if uneven x ({ x.1 with len := y.len }, []) then [(7, 0)] else []) ++ (if p.bad || k.isNone then [(9, 3)] else [])), k with
  | none, some k =>
    let c := { c with param := b ++ k.key }
    let z := s.store y.mem (List.replicate y.len 0)
    if x.1.ext then z.moves c x.1 { ext := false, len := y.len, addr := y.mem, space := y.space }
    else .done (decResult c (memRead z.mem x.1.addr x.1.len) (s.beatsEnd y.len)) z
  | some e, _ => s.ends e
  | none, none => s.ends (9, 3)

/-- `copy.enc` (14:R249, 23:R359). One that ends on the way writes its tag, and its IV under `ivauto`, all the same (assumption 115, DESIGN
CHOICE). -/
def encBody (s : State) (c : Cmd) : EngOut :=
  let y := s.sideOf c 2 wrNeed
  let x := slotRange c 1
  let p := paramOf (memRead s.mem (slotRange c 3).mem 64)
  let k := (s.keyOfHandle c.part p.key 1).filter fun k => !(k.use.getLsbD 2 && decide (2 ^ 64 - 1 ≤ k.counter))
  match worst (y.2 ++ (if uneven ({ y.1 with len := x.len }, []) y then [(7, 0)] else []) ++ (if p.bad || k.isNone then [(9, 3)] else [])), k with
  | none, some k =>
    let auto := k.use.getLsbD 2
    let iv := if auto then k.fixed ++ Crypto.beBytes 8 k.counter else p.iv
    let o := Crypto.gcmSeal k.key iv p.aad (memRead s.mem x.mem x.len)
    let pm := (slotRange c 3).mem
    let s' := if auto then s.modPart c.part fun q => { q with
      keys := mapSet q.keys (p.key % 256) { k with counter := k.counter + 1 } } else s
    let tag := [(pm, o.2)] ++ (if auto then [(pm + 16, iv)] else [])
    if y.1.ext then
      .go { c with moving := true, sides := [{ ext := false, len := x.len, addr := x.mem, space := x.space }, y.1], bytes := o.1
                   result := { writes := tag } } s'
    else .done { detail := x.len, writes := (y.1.addr, o.1) :: tag, endCycle := s.beatsEnd x.len } s'
  | some e, _ => s.ends e
  | none, none => s.ends (9, 3)

/-- `coll.put` and `coll.add` (14:R250). -/
def collBody (s : State) (c : Cmd) (add : Bool) : EngOut :=
  let x := s.sideOf c 1 rdNeed
  let y := s.sideOf c 2 (if add then rwNeed else wrNeed)
  let td := td c.word
  match worst (y.2 ++ (if uneven x y || x.1.len % collBytes td != 0 then [(7, 0)] else [])) with
  | some e => s.ends e
  | none =>
    let bs := memRead s.mem x.1.addr x.1.len
    let r : CmdResult := { detail := x.1.len, endCycle := s.beatsEnd x.1.len }
    if y.1.ext then s.moves c x.1 y.1
    else if add then .done { r with adds := some (td, y.1.addr, bs) } s
    else .done { r with writes := [(y.1.addr, bs)] } s

/-- The running `coll.ar` of a group's member in this package. -/
def arOf (s : State) (part vt g : Nat) : Option (Nat × Cmd) :=
  match (s.partOf? part).bind fun p => mapGet p.vmap vt with
  | none => none
  | some tile =>
    (((s.tile tile).queues[3]).find? fun c => c.part == part && c.vtile == vt && Cmd.running c && c.held
      && eop c.word == 3 && aux c.word 1 == g).map fun c => (tile, c)

/-- Members of a collective group (20:R311, 14:R250). -/
def groupOf (s : State) (part g : Nat) : List (Nat × Nat) := (((s.partOf? part).bind fun p => mapGet p.groups g)).getD []

/-- A package that granted links reach: an Ethernet port (25:R369), or a fabric link that routes to it (25:R372). -/
def reaches (s : State) (part pkg : Nat) : Bool :=
  match s.partOf? part with
  | none => false
  | some p =>
    let l := s.granules.filter fun e => e.2.pkg == pkg
    p.eth &&& s.ethUp != 0 || (if l.isEmpty then p.fabric &&& s.fabricUp != 0 else l.any fun e => e.2.links &&& p.fabric &&& s.fabricUp != 0)

/-- A virtual tile of a partition has a core left that has not failed (20:R325). -/
def tileThere (s : State) (part vt : Nat) : Bool := match s.physTile? part vt, s.partOf? part with
  | some t, some p => p.cores.any fun c => tileOf c == t
  | _, _ => false

/-- A member of the group has lost its tile (14:R250), is a lost member of the domain (23:R356), or cannot be reached (25:R372). -/
def groupLost (s : State) (part g : Nat) : Bool :=
  (s.groupOf part g).any fun m =>
    if m.1 = s.pkgNo.toNat then !(s.tileThere part m.2)
    else (s.domainAt part).any (fun d => d.2.lost.contains m.1) || !s.reaches part m.1

/-- While a barrier runs, a command that would send to members of the domain waits at its queue's head; a `coll.ar` that another
member of this package has begun goes on (23:R356, 14:R250). -/
def domainWaits (s : State) (c : Cmd) : Bool :=
  s.barrierRuns c.part &&
    match queue c.word, eop c.word with
    | 3, 3 =>
      let g := s.groupOf c.part (aux c.word 1)
      let here_ := g.filter fun m => m.1 == s.pkgNo.toNat
      ((s.domainAt c.part).any fun d => g.any fun m => m.1 != s.pkgNo.toNat && d.2.members.contains m.1)
        && !(here_.any fun m => (s.arOf c.part m.2 (aux c.word 1)).isSome)
    | 2, _ => [1, 2].any fun i => descSlot c.word i && meets s c i
    | 3, _ => meets s c 2
    | _, _ => false
where
  meets (s : State) (c : Cmd) (i : Nat) : Bool :=
    let x := (s.sideOf c i {}).1
    x.ext && x.space == 4 && !(s.peersOf c.part (s.openPages c.part x.addr x.len 0)).isEmpty

/-- The beats of a `coll.ar` between this package and the members of its domain in others, 256 bytes each: what each member here brings goes
to each of those packages, and as many come from each member there; what those bring are free values (23:R354, R355; assumption 101, DESIGN
CHOICE). -/
def beatAll (s : State) (part g : Nat) (mine : List (List Byte)) (far n : Nat) : State :=
  let s := { s with freeCtr := s.freeCtr + far * n }
  match s.domainAt part with
  | none => s
  | some (k, d) =>
    let peers := ((s.groupOf part g).map (·.1)).filter fun m => m != s.pkgNo.toNat && d.members.contains m
    let chunks := (n + 255) / 256
    let s := peers.eraseDups.foldl (fun s m => mine.foldl (fun s b => (List.range chunks).foldl (fun s i =>
      s.sendDomain k m 2 4 ((b.drop (256 * i)).take 256)) s) s) s
    s.modDomain k fun d => peers.foldl (fun d m => d.got m 2 chunks) d

/-- `coll.ar`: it waits until every member of this package has started its own; then every member's range becomes the sum, in one order of combination
(assumption 100, DESIGN CHOICE); a mismatch ends them all.
What the members of other packages bring is free. -/
def arBody (s : State) (c : Cmd) : EngOut :=
  let g := aux c.word 1
  let members := s.groupOf c.part g
  let mine := (members.filter fun m => m.1 == s.pkgNo.toNat).map (·.2)
  let far := members.length - mine.length
  let n := (slotRange c 1).len
  let td := td c.word
  let bad (o : Cmd) : Bool := (slotRange o 1).len % collBytes (CmdWord.td o.word) != 0
  let ends (o : Cmd) (k : Nat) : CmdResult := { fails (if bad o then 7 else k, 0) with endCycle := s.cycle + 1 }
  if !mine.contains c.vtile || s.groupLost c.part g then .done (ends c 11) s
  else
    let others := (mine.filter (· != c.vtile)).map fun vt => s.arOf c.part vt g
    if others.any Option.isNone then .wait
    else
      let os := others.filterMap id
      let same := os.all fun o => (slotRange o.2 1).len == n && CmdWord.td o.2.word == td
      let all := c :: os.map (·.2)
      let free := (List.range far).map fun i => freeBytes (s.freeCtr + i * n) n
      let sum := collRange td n (all.map (fun (o : Cmd) => memRead s.mem (slotRange o 1).mem n) ++ free)
      let r (o : Cmd) : CmdResult :=
        if bad o || !same then ends o 11
        else { detail := n, writes := [((slotRange o 1).mem, sum)], endCycle := s.beatsEnd n }
      let s' := os.foldl (fun s (o : Nat × Cmd) => s.modCmd o.1 o.2.order fun x => { x with held := false, result := r o.2 }) s
      .done (r c) (s'.beatAll c.part g (all.map fun (o : Cmd) => memRead s.mem (slotRange o 1).mem n) far n)

/-- What a command does when it starts. -/
def cmdBody (s : State) (c : Cmd) : EngOut :=
  match queue c.word, eop c.word with
  | 0, _ => s.mmBody c
  | 1, _ => s.gathBody c
  | 2, 1 => s.copyBody c
  | 2, 2 => s.cinBody c
  | 2, 3 => s.decBody c
  | 2, _ => s.encBody c
  | 3, 1 => s.collBody c false
  | 3, 2 => s.collBody c true
  | _, _ => s.arBody c

/-! ### Watchpoints (27:R379) -/

/-- A match of an engine access: of the task that pushed the command, at its `tcmd`; for tile memory at the cluster of the tile, for external
memory at that of the command (27:R378 to R380). -/
def cmdMatch (s : State) (c : Cmd) (vt : Option Nat) : Match :=
  ⟨c.owner, c.part, c.core * 16, ((vt.bind (s.physTile? c.part)).map (· * 2)).getD c.core, c.offset, some c.nissue⟩

/-- Take the watches one engine access to tile memory has hit; its record is that of an engine read or write (27:R379, R387). -/
def engineWatch (s : State) (c : Cmd) (write : Bool) (r : Nat × Nat) : State :=
  if r.1 < 2 ^ 61 ∨ 2 ^ 63 ≤ r.1 then s
  else
    let x := placeOf r.1
    s.watchAway (s.cmdMatch c (some x.2.1)) (ofBool x.2.2.2) x.2.1 x.2.2.1 r.2 16 0x2 (5 + ofBool write + ofBool x.2.2.2 * 8)
      (packFields [(21, x.2.2.1), (9, 0), (10, x.2.1)])

/-- Watches of a part of a side of a copy: virtual addresses are matched on their translation. -/
def sideWatch (s : State) (c : Cmd) (write : Bool) (x : Side) (o n : Nat) : State :=
  if !x.ext then s.engineWatch c write (x.addr + o, n)
  else if x.space = 4 then s.watchAway (s.cmdMatch c none) 2 0 (x.addr + o) n 16 0x3 3 ((x.addr + o) / 4096 % 2 ^ 40)
  else s

/-- The tile memory that a command reads as it starts. -/
def engineReads (s : State) (c : Cmd) : State := (cmdReads c).foldl (fun s r => s.engineWatch c false r) s

/-! ### Completion (05:R93, 07:R130, 14:R240 to R242) -/

def putCmdTerms (s : State) (tile : Nat) (c : Cmd) (ts : List (Nat × Nat)) : State :=
  if ts.isEmpty then s else s.modCounts c.part (2 * tile + 1) fun k => k.count s.cycle ts

/-- What a matrix command counts for the cycles it has waited for a token (05:R95). -/
def waitTerms (s : State) (c : Cmd) : List (Nat × Nat) :=
  match c.waitFrom with
  | some w => if queue c.word = 0 then [(0x33, s.cycle - w)] else []
  | none => []

/-- The status word (03:R54). -/
def statusWord (c : Cmd) (code detail : Nat) : Word :=
  word64 [(8, code), (4, queue c.word), (4, 0), (16, c.seq), (32, detail)]

/-- Fill a command's token, or discard the fill for a task that has ended (02:R52). -/
def fillToken (s : State) (c : Cmd) (x : Word) : State :=
  if c.mute then s
  else if c.dead then s.record (c.core * 16) 0xB 1 c.owner (regPay (.s (tok c.word)))
  else s.deliverTo c.owner c.part (.s (tok c.word)) c.order (x.setWidth 128) false 0

/-- Writes, counters, signal, token, in that order; then the power token goes back. `drew` says that it drew one (assumption 41, DESIGN CHOICE). -/
def finishCmd (s : State) (tile : Nat) (c : Cmd) (r : CmdResult) (drew : Bool) : State :=
  let w := c.word
  let s := r.writes.foldl (fun s x => (s.engineStore c x.1 x.2).engineWatch c true (x.1, x.2.length)) s
  let s := match r.adds with
    | some (ty, a, bs) => (s.engineStore c a (collRange ty bs.length [memRead s.mem a bs.length, bs])).engineWatch c true (a, bs.length)
    | none => s
  let s := match r.latch with
    | some (l, x) => s.modVTile c.part c.vtile fun v => { v with latches := v.latches.setIfInBounds l (some x) }
    | none => s
  let s := s.putCmdTerms tile c r.terms
  let sig := if ssen w then s.semSignal c.part c.vtile (ssig w) else (s, false)
  let full := sig.2 && r.code == 0
  let s := sig.1.fillToken c (statusWord c (if full then 12 else r.code) (if full then ssig w else r.detail))
  let s := if drew then s.poolReturn c.part (poolKey (2 * tile) (queue w)) 1 else s
  let s := if c.waitFrom.isSome then s.poolPut c.part (poolKey (2 * tile) (queue w)) fun p => { p with
    waiters := p.waiters.filter (· != .cmd tile c.order) } else s
  s.modTile tile fun t => { t with queues := t.queues.map fun (q : List Cmd) => q.filter fun x => x.order != c.order }

/-! ### Start (14:R238 to R240, 20:R320) -/

/-- The command's own semaphore wait: whether it has succeeded (14:R240, R242). -/
def cmdWait (s : State) (tile : Nat) (c : Cmd) : Bool × State :=
  let n := swait c.word
  let me : SemWaiter := .cmd c.order
  if !swen c.word || c.semDone then (true, s)
  else
    let first := (((s.vtile c.part c.vtile).waiters.toList[n]?).getD []).head?.getD me
    if 0 < s.semCount c.part c.vtile n ∧ first = me then
      (true, (s.semTake c.part c.vtile n me).modCmd tile c.order fun x => { x with semDone := true })
    else (false, s.semJoin c.part c.vtile n me)

/-- A power token for a command, or none (05:R97): whether it drew one, with the state. -/
def cmdToken (s : State) (tile : Nat) (c : Cmd) : Option (Bool × State) × State :=
  let q := queue c.word
  if 3 ≤ q then (some (false, s), s)
  else
    let k := poolKey (2 * tile) q
    let me : PoolWaiter := .cmd tile c.order
    let covers := match s.keyOf? c.owner with
      | some key => s.holdsFree (s.taskAt key) q && tileOf (coreOf key) / 4 == tile / 4
      | none => false
    if covers then (some (false, s.poolPut c.part k fun p => { p with waiters := p.waiters.filter (· != me) }), s)
    else if 0 < s.poolFree c.part k ∧ (s.pool c.part k).waiters.head?.getD me = me then
      (some (true, (s.poolPut c.part k fun p => { p with waiters := p.waiters.filter (· != me) }).poolDraw c.part k 1), s)
    else
      let s := s.poolPut c.part k fun p => if p.waiters.contains me then p else { p with waiters := p.waiters ++ [me] }
      (none, s.modCmd tile c.order fun x => { x with waitFrom := some (x.waitFrom.getD s.cycle) })

/-- A command with an external part, or a collective: the shared engines of its die serve it (20:R320). -/
def cmdShared (c : Cmd) : Bool := queue c.word == 3 || (queue c.word == 2 && (descSlot c.word 1 || descSlot c.word 2))

/-- Shared engines of a command's die that other commands use: eight serve the die's copies and collectives. -/
def sharedUse (s : State) (tile : Nat) (c : Cmd) : Nat :=
  (s.runningCmds.filter fun e => e.1 / 64 == tile / 64 && !(e.1 == tile && e.2.order == c.order) && cmdShared e.2
    && e.2.kernel.isNone && e.2.offered.isNone).length

/-- The shared part of a command may run: an engine kernel has its slot, an engine has accepted it, or one accepts it now; `fresh` says
that it is offered for the first time. -/
def sharedGate (s : State) (tile : Nat) (c : Cmd) (fresh : Bool) : Bool :=
  if !cmdShared c then true
  else match c.kernel with
    | some (some _) => true
    | some none => false
    | none => (!fresh && c.offered.isNone) || decide (s.sharedUse tile c < 8)

/-- A page of the command does not translate: it is held until the fault is resolved, or ends with 0x0A where that cannot be (14:R247,
19:R302 to R304). -/
def holdCmd (s : State) (tile : Nat) (c : Cmd) (e : VaFail) (acc : Nat) : State :=
  let w : Waiter := ⟨c.owner, acc + 8, none, none, e.va⟩
  let s := s.recordExt (c.core * 16) c.owner 3 e.va
  let put (s : State) (f : Cmd → Cmd) : State := s.modCmd tile c.order fun x => f { x with result := c.result }
  let stop (x : Cmd) : Cmd := { x with held := false, moving := false, result := endResult c 10 s.cycle }
  let wait (x : Cmd) : Cmd := { x with held := true, fault := some e.va }
  if c.sup then (put s stop).addDueTo c.owner (s.faultDue e.va none (e.why.getD cPAGE_UNMAPPED) (acc + 8))
  else match e.why, (s.partOf? c.part).bind (·.fring) with
    | none, _ => (put s wait).dirAttach c.part e.va w
    | some _, none => put s stop
    | some k, some _ => (put s wait).postFault c.part e.va (acc + 8) k w

/-- The end of a command that has moved its whole range. -/
def movedAll (c : Cmd) (now : Nat) : CmdResult :=
  match queue c.word, eop c.word with
  | 2, 2 => cinResult c c.bytes now
  | 2, 3 => decResult c c.bytes now
  | _, _ => { c.result with endCycle := now }

/-- `copy.cin` and `copy.dec` gather their source before they write. -/
def gathers (c : Cmd) : Bool := queue c.word == 2 && (eop c.word == 2 || eop c.word == 3)

/-- Move what both sides of a part give: a decoder gathers its source, the others write their destination. -/
def moveBytes (s : State) (c : Cmd) (x y : Side) (n : Nat) (src : List Byte) (ps : List Piece) : Cmd × State :=
  let s := if x.ext then s.sideWatch c false x c.moved n else s
  let r := if gathers c then ({ c with bytes := c.bytes ++ src }, s)
    else if queue c.word = 3 ∧ eop c.word = 2 then
      let old := s.takeBytes ps
      (old.2.sideWatch c true y c.moved n).writePart c y c.moved ps (collRange (td c.word) n [old.1, src])
    else (s.sideWatch c true y c.moved n).writePart c y c.moved ps src
  let d := { r.1 with moved := c.moved + n }
  if x.len ≤ d.moved then ({ d with moving := false, result := movedAll d s.cycle }, r.2)
  else ({ d with partEnd := s.cycle + beats (partLen d x y) }, r.2)

/-- A command that a port refuses by world leaves a trap record, at its `tcmd` (23:R342; assumption 102, DESIGN CHOICE); one whose read fails its
MAC has its task quarantined (23:R345; assumption 104, DESIGN CHOICE). -/
def refusedCmd (s : State) (c : Cmd) (cause : BitVec 6) : State :=
  if cause = cWORLD_REFUSED then s.record (c.core * 16) 0x5 0 c.owner (packFields [(34, c.offset % 2 ^ 32), (6, cause.toNat)])
  else s.addDueTo c.owner { cause := cause, cycle := s.cycle }

/-- Move the next part of a command (19:R296, 14:R247). -/
def movePart (s : State) (tile : Nat) (c : Cmd) : Out :=
  match c.sides with
  | [x, y] =>
    let n := partLen c x y
    let put (s : State) (d : Cmd) : State := s.modCmd tile c.order fun _ => d
    let ends (s : State) (k : Nat) : State := put s { c with held := false, moving := false, result := endResult c k s.cycle }
    let go (s : State) (src : List Byte) (ps : List Piece) : Out :=
      let acc := if y.ext then (if queue c.word = 3 ∧ eop c.word = 2 then 3 else 2) else 0
      let r := (s.engineAsks c acc ps src).moveBytes { c with held := false } x y n src ps
      .next (put r.2 r.1)
    if c.failed then .next (ends s 10)
    else
      match (if x.ext then s.reach c x c.moved n 1 else .ok [] s) with
      | .page e => .next (s.holdCmd tile c e 1)
      | .code k => .next (ends s k)
      | .barred e => .next (ends (s.refusedCmd c e) 1)
      | .wait => .next s
      | .absent pa => .fault (.unbackedAddress pa)
      | .ok px s =>
        let (src, s) := if x.ext then (s.engineAsks c 1 px []).takeBytes px else ((c.bytes.drop c.moved).take n, s)
        if gathers c then go s src []
        else
          let acc := if queue c.word = 3 ∧ eop c.word = 2 then 3 else 2
          match s.reach c y c.moved n acc with
          | .page e => .next (s.holdCmd tile c e acc)
          | .code k => .next (ends s k)
          | .barred e => .next (ends (s.refusedCmd c e) 1)
          | .wait => .next s
          | .absent pa => .fault (.unbackedAddress pa)
          | .ok py s => go s src py
  | _ => .next s

/-- A shared engine, or its kernel's slot, serves a command from now on: it moves its first part, or joins its group. -/
def serveCmd (s : State) (tile : Nat) (c : Cmd) (fresh : Bool) : State :=
  if !s.sharedGate tile c fresh then s.modCmd tile c.order fun x => { x with held := true, offered := some (x.offered.getD s.cycle) }
  else if c.moving then
    match c.sides with
    | [x, y] => s.modCmd tile c.order fun d => { d with held := false, offered := none, partEnd := s.cycle + beats (partLen d x y) }
    | _ => s
  else
    let c := { c with offered := none }
    let s := s.modCmd tile c.order fun x => { x with held := false, offered := none }
    match s.cmdBody c with
    | .done r s => s.modCmd tile c.order fun x => { x with result := r }
    | _ => s.modCmd tile c.order fun x => { x with held := true }

/-- Run a command that has its token: its descriptors are read once, then a shared engine takes the part it serves. -/
def runCmd (s : State) (tile : Nat) (c : Cmd) : State :=
  if queue c.word = 3 ∧ eop c.word = 3 then (s.serveCmd tile c true).engineReads c
  else
    let wait := s.waitTerms c
    match s.cmdBody c with
    | .done r s =>
      let d := { c with result := { r with terms := r.terms ++ wait } }
      let s := (s.modCmd tile c.order fun _ => d).engineReads d
      if cmdShared d && r.code == 0 && !s.sharedGate tile d true then
        s.modCmd tile c.order fun x => { x with held := true, offered := some s.cycle }
      else s
    | .go d s => ((s.modCmd tile c.order fun _ => d).engineReads d).serveCmd tile d true
    | .wait => s

/-- The lowest failing slot of a command (14:R238). -/
def failSlot (c : Cmd) : Option Nat := [1, 2, 3].find? fun i => (slotRange c i).fails

/-- The queue lets its next command go on: matrix commands overlap their last six cycles (05:R92), the others do not. -/
def queueFree (s : State) (q : Nat) (l : List Cmd) : Bool :=
  l.all fun c => !Cmd.running c || (q == 0 && decide (c.result.endCycle ≤ s.cycle + 6))

/-- Start the command at the head of its queue: its fence, semaphore, range check, scoreboard and token, in that order. -/
def startCmd (s : State) (tile q : Nat) (l : List Cmd) (c : Cmd) : Out :=
  if s.fenced tile q c || !s.queueFree q l || s.domainWaits c then .next s
  else
    let (ok, s) := s.cmdWait tile c
    let c := { c with semDone := true }
    if !ok then .next s
    else if c.abort then .next (if l.any Cmd.running then s else s.finishCmd tile c { code := 1, terms := s.waitTerms c } false)
    else match failSlot c with
    | some i => .next (if l.any Cmd.running then s else s.finishCmd tile c { code := 4, detail := i } false)
    | none =>
      if s.scored tile c then .next s
      else
        let (tk, s) := s.cmdToken tile c
        match tk with
        | none => .next s
        | some (drew, s) =>
          let c := { c with st := .started s.cycle, drawn := drew }
          .next ((s.modCmd tile c.order fun x => { x with st := .started s.cycle, drawn := drew }).runCmd tile c)

/-- A held or moving command goes on: a fault that was resolved moves its part now, one that waits for an engine or its group tries again,
one that moves takes its next part when that is due. -/
def goOn (s : State) (tile : Nat) (c : Cmd) : Out :=
  if c.fault.isSome then .next s
  else if c.held && c.offered.isNone && c.moving then s.movePart tile c
  else if c.held then .next (s.serveCmd tile c false)
  else if c.partEnd ≤ s.cycle then s.movePart tile c
  else .next s

/-- One engine row: a command of the queue that is held or moving goes on, or the next one starts. -/
def engineRow (s : State) (tile q op : Nat) : Out :=
  let l := (s.tile tile).queues.toList[q]?.getD []
  match l.find? fun c => Cmd.running c && (c.held || c.moving) with
  | some c => if eop c.word = op then s.goOn tile c else .next s
  | none => match l.find? fun c => !Cmd.running c with
    | none => .next s
    | some c => if eop c.word = op then s.startCmd tile q l c else .next s

/-- A queue-fence entry whose earlier commands have all completed (07:R132). -/
def fenceReady (s : State) (tile : Nat) (f : Cmd) : Bool :=
  (setBits (fmask f.word) 4).all fun q => ((s.tile tile).queues.toList[q]?.getD []).all fun c => decide (f.order < c.order)

/-- Every entry that is ready completes once its own semaphore wait has succeeded; none waits for another's (07:R132, 14:R251). -/
def fenceRow (s : State) (tile : Nat) : State :=
  ((s.tile tile).queues[4].filter (s.fenceReady tile)).foldl (fun s f =>
    let r := s.cmdWait tile f
    if r.1 then r.2.finishCmd tile f { code := ofBool f.abort } false else r.2) s

/-- A command's writes reach no tile whose image Caldera keeps (20:R322). -/
def writesOpen (s : State) (c : Cmd) : Bool :=
  !((c.result.writes.map (·.1) ++ (c.result.adds.map fun a => a.2.1).toList).any fun a =>
    let z := placeOf a
    s.tileAway z.1 z.2.1 c.owner)

/-- The started command at the head of a queue has run to its end. -/
def cmdEnds (s : State) (tile q : Nat) : Option Cmd :=
  match (s.tile tile).queues.toList[q]?.getD [] with
  | c :: _ =>
    if Cmd.running c && !c.held && !c.moving && s.writesOpen c && decide (c.result.endCycle ≤ s.cycle) && decide (q < 4) then some c else none
  | [] => none

/-- The head command whose external part no shared engine has accepted within the deadline (20:R320). -/
def cmdLate (s : State) (tile q : Nat) : Option Cmd :=
  ((s.tile tile).queues.toList[q]?.getD []).find? fun c => Cmd.running c && c.kernel.isNone && match c.offered with
    | some o => decide (o + (((s.partOf? c.part).map (·.deadline)).getD 20) * cyclesPerUs ≤ s.cycle)
    | none => false

end State

def execMm (tile : Nat) (s : State) : Out := s.engineRow tile 0 1
def execGath (tile : Nat) (s : State) : Out := s.engineRow tile 1 1
def execCopy (tile : Nat) (s : State) : Out := s.engineRow tile 2 1
def execCopyCin (tile : Nat) (s : State) : Out := s.engineRow tile 2 2
def execCopyDec (tile : Nat) (s : State) : Out := s.engineRow tile 2 3
def execCopyEnc (tile : Nat) (s : State) : Out := s.engineRow tile 2 4
def execCollPut (tile : Nat) (s : State) : Out := s.engineRow tile 3 1
def execCollAdd (tile : Nat) (s : State) : Out := s.engineRow tile 3 2
def execCollAr (tile : Nat) (s : State) : Out := s.engineRow tile 3 3
def execQueueFence (tile : Nat) (s : State) : Out := .next (s.fenceRow tile)

def execEngineCommandComplete (tile q : Nat) (s : State) : Out :=
  .next (match s.cmdEnds tile q with
    | none => s
    | some c => s.finishCmd tile c c.result (c.drawn && decide (q < 3)))

/-- Caldera runs the external part as an engine kernel, ahead of all other work at priority 3. -/
def execEngineDeadlineExpiry (tile q : Nat) (s : State) : Out :=
  .next (match s.cmdLate tile q with
    | none => s
    | some c =>
      let w : QueuedWork := { part := c.part, prio := 3, requeued := true, since := s.cycle, work := .kernel tile q c.order }
      let s := s.modCmd tile c.order fun x => { x with kernel := some none }
      { s with cald := { s.cald with work := w :: s.cald.work } })

end Sys2Proof.Machine
end

