-- ==== Sys2Proof/Machine/Convert.lean ====
section
/-! DEFINITION. Conversions and MX quantisation (12:R212 to R214, 04:R74 to R78). -/

namespace Sys2Proof.Machine

/-- A group of registers read with one empty-behaviour bit (12:R197). -/
def groupReads (r : Reg) (n : Nat) (e : Bool) : List (RegId × Bool) :=
  (List.range n).map fun i => (.v (r + BitVec.ofNat 5 i), e)

/-- Element `i` of the source of `cvt`, a group or a part of one register (12:R212; assumption 47, DEDUCED). -/
def cvtElem (t : Task) (o : CvtArgs) (i : Nat) : Nat :=
  let ns := lanesOf o.st
  let nd := lanesOf o.dt
  if ns ≤ nd then elem (t.getV (o.a + BitVec.ofNat 5 (i / ns))) o.st (i % ns)
  else elem (t.getV o.a) o.st (i + o.q.toNat * nd)

/-- Destinations whose clamps and underflows are counted (12:R213). -/
def counted (ty : BitVec 5) : Bool := (decide (0x0B ≤ ty.toNat) && decide (ty.toNat ≤ 0x0F)) || isMx ty

/-- One element of `cvt` (12:R212). -/
def cvtOne (t : Task) (o : CvtArgs) (i : Nat) : Rounded :=
  let x := cvtElem t o i
  if isInt o.dt then
    if isInt o.st then ⟨reduce o.dt o.sat (intOf o.st x), false, false⟩
    else
      let w := elemBits o.dt
      let lo : Int := if isSigned o.dt then -(2 ^ (w - 1)) else 0
      let hi : Int := if isSigned o.dt then 2 ^ (w - 1) - 1 else 2 ^ w - 1
      ⟨wrapTo w (roundInt o.rnd lo hi (elemValue o.st t.scaleX x)), false, false⟩
  else roundTo o.dt o.rnd o.sat (elemValue o.st t.scaleX x)

/-- A prefix may supply the scale of an MX source and nothing else (12:R212, R199). -/
def cvtPrefixOk (t : Task) (o : CvtArgs) : Bool :=
  let p := t.prefix_
  !t.fpend || (!p.oa && !p.ob && p.part == 0 && (p.ss == 0 || isMx o.st))

def countWord (scale clamps under : Nat) : Word := word64 [(6, under), (2, 0), (6, clamps), (2, 0), (8, scale)]

def execCvt (o : CvtArgs) (s : State) : Out :=
  .next (
    let cdst : List RegId := match o.cnt with
      | some c => [.s c]
      | none => []
    s.fmerge (cvtPrefixOk s.task o) [o.d] cdst (groupReads o.a (cvtGroup o.dt o.st) o.ea) fun t =>
      let gb := t.guardBits o.f.guard
      let r := lanewise gb o.dt (t.getV o.d) fun i => (cvtOne t o i).bits
      let act := (List.range (lanesOf o.dt)).filter (active gb o.dt)
      let cl := (act.filter fun i => (cvtOne t o i).clamp).length
      let un := (act.filter fun i => (cvtOne t o i).under).length
      let t' := t.writeV s.cycle o.d r 3
      let t' := match o.cnt with
        | some c => t'.writeS s.cycle c (if counted o.dt then countWord 0 cl un else 0) 3
        | none => t'
      s.completeWith t' o.f.bytes)

/-! ### MX blocks (04:R77, R78) -/

/-- A quantised block: encoded scale, elements, clamps and underflows. -/
structure MxBlock where
  scale : Nat
  elems : List Nat
  clamps : Nat
  under : Nat
  deriving DecidableEq, Repr

/-- Exponent of the largest element magnitude of an MX element format (04:R75). -/
def emaxOf (ty : BitVec 5) : Int :=
  match ty.toNat with
  | 0x11 => 15
  | 0x12 => 8
  | 0x13 => 4
  | 0x14 => 2
  | 0x15 => 2
  | _ => 0

/-- Quantise under 2^k; inactive elements are neither converted nor counted (04:R74). -/
def mxUnder (ty : BitVec 5) (rnd : Rnd) (vals : List FVal) (act : Nat → Bool) (k : Int) : MxBlock :=
  let rs := vals.zipIdx.map fun e => if act e.2 then roundTo ty rnd true (e.1.scale (-k)) else ⟨0, false, false⟩
  ⟨(k + 127).toNat, rs.map (·.bits), (rs.filter (·.clamp)).length, (rs.filter (·.under)).length⟩

/-- floor(log2 |x|) of a finite non-zero value. -/
def log2Of : FVal → Option Int
  | .fin _ m e => if m = 0 then none else some ((Nat.log2 m : Int) + e)
  | _ => none

def FVal.isFin : FVal → Bool
  | .fin _ _ _ => true
  | _ => false

/-- The exponent of standard mode, none for a block of zeros (04:R77). -/
def mxExp (ty : BitVec 5) (vals : List FVal) : Option Int :=
  match vals.filterMap log2Of with
  | [] => none
  | x :: r => some (clampInt (-127) 127 (r.foldl max x - emaxOf ty))

def mxQuantise (ty : BitVec 5) (rnd : Rnd) (bal : Bool) (vals : List FVal) (act : Nat → Bool) : MxBlock :=
  if !vals.all FVal.isFin then ⟨0xFF, vals.map fun _ => 0, 0, 0⟩
  else match mxExp ty vals with
    | none => ⟨0, vals.map fun v => (roundTo ty rnd true v).bits, 0, 0⟩
    | some k =>
      -- all 32 elements choose the scale, whatever the predicate (04:R77, R78, 12:R214)
      let loss (k : Int) : Nat := let b := mxUnder ty rnd vals (fun _ => true) k
        b.clamps + b.under
      mxUnder ty rnd vals act (if bal && decide (-127 < k) && decide (loss (k - 1) < loss k) then k - 1 else k)

/-- Elements of an MX block in one register: 32 for MXFP4, else 16 (04:R76). -/
def mxPer (ty : BitVec 5) : Nat := if ty.toNat = 0x15 then 32 else 16

/-- `cvt.mx` (12:R214). Where a block fills two registers, its predicate bits govern the elements of each register alike: bit i is for elements
i and 16 + i (assumption 83, DESIGN CHOICE). -/
def execCvtMx (o : CvtMxArgs) (s : State) : Out :=
  .next (
    let t := s.task
    if t.fpend then s.trapC cFORMAT
    else
      let two := mxPer o.dt == 16
      s.fmerge true (o.d :: if two then [o.d + 1] else []) [.s o.c] (groupReads o.a (mxGroup o.st) o.ea) fun t =>
        let gb := t.guardBits o.f.guard
        let ns := lanesOf o.st
        let vals := (List.range 32).map fun i => elemValue o.st 0x7F (elem (t.getV (o.a + BitVec.ofNat 5 (i / ns))) o.st (i % ns))
        let b := mxQuantise o.dt o.rnd o.bal vals fun i => active gb o.dt (i % mxPer o.dt)
        let el (i : Nat) : Nat := b.elems[i]?.getD 0
        let t' := t.writeV s.cycle o.d (lanewise gb o.dt (t.getV o.d) el) 3
        let t' := if two then t'.writeV s.cycle (o.d + 1) (lanewise gb o.dt (t.getV (o.d + 1)) fun i => el (16 + i)) 3 else t'
        s.completeWith (t'.writeS s.cycle o.c (countWord b.scale b.clamps b.under) 3) o.f.bytes)

end Sys2Proof.Machine
end

