-- ==== Sys2Proof/Machine/Uses.lean ====
section
/-! DEFINITION. The registers an instruction's issue waits for: sources, guard and merged destination, whose producers'
latencies must have passed (02:R38, 10:R173). -/

namespace Sys2Proof

open Machine

def Form.uses : Form → List Nat
  | .w32 => []
  | .w64 g | .w96 g => if g.pred = 0 then [] else [Task.pcode g.pred]

def us (r : Reg) : Nat := Task.code (.s r)
def uv (r : Reg) : Nat := Task.code (.v r)

def Src.uses : Src → List Nat
  | .reg r _ => [us r]
  | .lit _ => []

def Src.vuses : Src → List Nat
  | .reg r _ => [uv r]
  | .lit _ => []

def FSrc.uses : FSrc → List Nat
  | .reg r _ => [uv r]
  | _ => []

/-- A vector result merges with the destination's old value, which is read whatever the guard (12:R196). -/
def Form.merges (f : Form) (d : Reg) : List Nat := uv d :: f.uses

def AluArgs.uses (o : AluArgs) : List Nat := o.f.uses ++ us o.a :: o.b.uses
def UnArgs.uses (o : UnArgs) : List Nat := o.f.uses ++ [us o.a]
def CmpArgs.uses (o : CmpArgs) : List Nat := o.f.uses ++ us o.a :: o.b.uses
def ImmArgs.uses (o : ImmArgs) : List Nat := o.f.uses ++ [us o.a]
def CmpImmArgs.uses (o : CmpImmArgs) : List Nat := o.f.uses ++ [us o.a]
def PredArgs.uses (o : PredArgs) : List Nat := o.f.uses ++ [Task.pcode o.a, Task.pcode o.b, Task.pcode o.d]
def PredUn.uses (o : PredUn) : List Nat := o.f.uses ++ [Task.pcode o.a, Task.pcode o.d]
def VArgs.uses (o : VArgs) : List Nat := o.f.merges o.d ++ uv o.a :: o.b.vuses
def VUn.uses (o : VUn) : List Nat := o.f.merges o.d ++ [uv o.a]
def VCmp.uses (o : VCmp) : List Nat := o.f.uses ++ Task.pcode o.p :: uv o.a :: o.b.vuses
def VFArgs.uses (o : VFArgs) : List Nat := o.f.merges o.d ++ uv o.a :: o.b.uses
def VFCmp.uses (o : VFCmp) : List Nat := o.f.uses ++ Task.pcode o.p :: uv o.a :: o.b.uses
def VFma.uses (o : VFma) : List Nat := o.f.merges o.d ++ [uv o.a, uv o.b, uv o.c]
def VMovArgs.uses (o : VMovArgs) : List Nat := o.f.merges o.d ++ [uv o.a, uv o.b]
/-- Every register of a group (12:R197). -/
def groupUses (r : Reg) (n : Nat) : List Nat := (List.range n).map fun i => uv (r + BitVec.ofNat 5 i)
def CvtArgs.uses (o : CvtArgs) : List Nat := o.f.merges o.d ++ groupUses o.a (cvtGroup o.dt o.st)
def CvtMxArgs.uses (o : CvtMxArgs) : List Nat :=
  o.f.merges o.d ++ (if mxPer o.dt == 16 then [uv (o.d + 1)] else []) ++ groupUses o.a (mxGroup o.st)
def MemOp.uses (m : MemOp) : List Nat := [us m.ptr]
def LdArgs.uses (o : LdArgs) : List Nat := o.f.uses ++ o.m.uses
def FeArgs.uses (o : FeArgs) : List Nat := o.f.uses ++ o.m.uses
def StfeArgs.uses (o : StfeArgs) : List Nat := o.f.uses ++ us o.t :: o.m.uses
def AmoArgs.uses (o : AmoArgs) : List Nat := o.f.uses ++ us o.t :: us o.c :: o.m.uses
def WaddrArgs.uses (o : WaddrArgs) : List Nat := o.f.uses ++ us o.t :: o.m.uses
def StArgs.uses (o : StArgs) (isV : Bool) : List Nat := o.f.uses ++ (if isV then uv o.t else us o.t) :: o.m.uses
def QArgs.uses (o : QArgs) (st : Bool) : List Nat :=
  o.f.uses ++ (if st then [if o.size = 4 then uv o.t else us o.t] else []) ++ o.m.uses
def TwoArgs.uses (o : TwoArgs) (va : Bool) : List Nat := o.f.uses ++ [if va then uv o.a else us o.a, us o.b]

/-- What an encoded instruction's issue waits for; events wait for no register. -/
def Instr.uses : Instr → List Nat
  | .br _ g => if g.pred = 0 then [] else [Task.pcode g.pred]
  | .call _ g => if g.pred = 0 then [] else [Task.pcode g.pred]
  | .loop f d _ _ => us d :: f.uses
  | .jr f a _ => us a :: f.uses
  | .callr o => o.uses
  | .ret f _ => us 31 :: f.uses
  | .tend f | .hintYield f | .yield f | .gbar f => f.uses
  | .add o _ _ | .sub o _ _ => o.uses
  | .and o | .or o | .xor o | .andn o | .orn o | .shl o | .shr o | .sra o | .rol o | .ror o | .min o | .max o | .minu o | .maxu o
  | .sext o | .zext o | .bext o | .sh1add o | .sh2add o | .sh3add o | .sh4add o | .mul o | .mulh o | .mulhu o | .mulhsu o
  | .div o | .divu o | .rem o | .remu o => o.uses
  | .bins o => us o.d :: o.uses
  | .clz o | .ctz o | .popc o => o.uses
  | .cmpEq o | .cmpNe o | .cmpLt o | .cmpGe o | .cmpLtu o | .cmpGeu o => o.uses
  | .addi o | .andi o | .ori o | .xori o | .shli o | .shri o | .srai o => o.uses
  | .cmpiEq o | .cmpiNe o | .cmpiLt o | .cmpiGe o | .cmpiuLtu o | .cmpiuGeu o => o.uses
  | .rdms f _ _ => f.uses
  | .wrms f a _ _ => us a :: f.uses
  | .gnarrow f _ _ b _ c _ _ => us b :: us c :: f.uses
  | .grd f _ _ _ => f.uses
  | .pand o | .por o | .pxor o => o.uses
  | .pnot o | .pmov o => o.uses
  | .vwhile g _ d a _ b _ => [Task.pcode g.pred, Task.pcode d, us a, us b]
  | .pcnt _ _ a => [Task.pcode a]
  | .vmov o => o.uses
  | .vbcast o => o.f.merges o.d ++ [us o.a]
  | .vins o => [uv o.d, us o.a] ++ o.f.uses
  | .vext o => uv o.a :: o.f.uses
  | .vperm o | .vsel o => o.uses
  | .vintVadd o | .vintVsub o | .vintVmul o | .vintVmulh o | .vintVmin o | .vintVmax o | .vintVand o | .vintVor o | .vintVxor o
  | .vintVandn o | .vintVshl o | .vintVshr o | .vintVsra o => o.uses
  | .vdot4 o => uv o.d :: o.uses
  | .vintVabs o | .vintVneg o | .vintVsum o => o.uses
  | .vintVcmpEq o | .vintVcmpNe o | .vintVcmpLt o | .vintVcmpLe o => o.uses
  | .vfpVadd o | .vfpVsub o | .vfpVmul o | .vfpVmin o | .vfpVmax o => o.uses
  | .vfpVabs o | .vfpVneg o | .vfpVsum o => o.uses
  | .vfpVcmpEq o | .vfpVcmpNe o | .vfpVcmpLt o | .vfpVcmpLe o => o.uses
  | .vfma o | .vfms o | .vfnma o | .vfnms o => o.uses
  | .cvt o => o.uses
  | .cvtMx o => o.uses
  | .sfuExp o | .sfuLog o | .sfuRcp o | .sfuRsqrt o | .sfuSqrt o | .sfuSin o | .sfuCos o | .sfuTanh o | .sfuSigm o => uv o.d :: o.uses
  | .ldD8 o | .ldD16 o | .ldD32 o | .ldD64 o | .ldD128 o => o.uses
  | .stD4 o | .stD8 o | .stD16 o | .stD32 o | .stD64 o => o.uses false
  | .stD128 o => o.uses true
  | .ldfe o | .ldfeTake o | .join o => o.uses
  | .stfe o => o.uses
  | .qld o => o.uses false
  | .qst o => o.uses true
  | .amoD32 o | .amoD64 o => o.uses
  | .fork f m t => us t :: f.uses ++ m.uses
  | .waddr o => o.uses
  | .fence f _ | .qwait f _ => f.uses
  | .send f a _ b _ => uv a :: us b :: f.uses
  | .recv f _ _ _ | .recvKeep f _ _ _ | .mwait f _ _ => f.uses
  | .tcmd f a _ b _ => uv a :: uv b :: f.uses
  | .semSig f _ | .semWait f _ | .pwrAcq f _ _ | .pwrRel f _ _ | .termrd f _ _ => f.uses
  | .stepget f _ _ a _ => us a :: f.uses
  | .stoptest o => o.uses true
  | .seqret o _ | .fwcall o => o.uses false
  | .seqadm o | .rebuild o => o.uses
  | .poolTake f _ => f.uses
  | .poolGive f a _ => us a :: f.uses
  | .trap f _ | .trapret f | .bkpt f _ | .termclr f => f.uses
  | .gwrite f _ a _ b _ => us a :: us b :: f.uses
  | .ctxsave f _ a _ _ | .ctxrest f _ a _ _ => us a :: f.uses
  | .ctxsaveTile f _ _ | .ctxrestTile f _ _ => f.uses
  | .recmark f a _ _ => us a :: f.uses
  | .halt f _ a _ _ => us a :: f.uses
  | _ => []

end Sys2Proof
end

