-- ==== Sys2Proof/Machine/Fetch.lean ====
section
/-! DEFINITION. What a slot does next, and which slots are ready (02:R38, 10:R170, R173, 17:R266, R271, R272, 18:R281,
20:R310, 27:R378). -/

namespace Sys2Proof.Machine

/-- What a slot does when it issues, in the order of 17:R272. -/
inductive Turn
  | trust (c : BitVec 6)
  | due
  | call (i : Instr)                    -- the firmware service of its call
  | back                                -- firmware's return from it
  | bound
  | stopAt                              -- a breakpoint at its pc
  | bad (e : DecErr)
  | instr (i : Instr)
  deriving DecidableEq, Repr

/-- The service of each number that has one (18:R281, 20:R311, 21:R331, 23:R360). -/
def serviceOf (n : Nat) : Option Instr :=
  match n with
  | 0x00 => some .fwver
  | 0x01 => some .setpol
  | 0x02 => some .donate
  | 0x03 => some .settvseg
  | 0x04 => some .termclrall
  | 0x05 => some .time
  | 0x06 => some .hdmbase
  | 0x10 => some .setlease
  | 0x11 => some .setptroot
  | 0x12 => some .setfring
  | 0x13 => some .setdeadline
  | 0x14 => some .collgrp
  | 0x15 => some .preempt
  | 0x16 => some .requeue
  | 0x17 => some .stepcfg
  | 0x40 => some .capinst
  | 0x41 => some .capref
  | 0x42 => some .capdel
  | 0x43 => some .capstat
  | 0x44 => some .ctxdrop
  | 0x45 => some .capexp
  | 0x60 => some .keyload
  | 0x61 => some .keydrop
  | 0x62 => some .keyctr
  | 0x63 => some .domset
  | 0x64 => some .domleave
  | 0x65 => some .domstat
  | 0x66 => some .pgrebuild
  | _ => none

namespace State

/-! ### Fetch (17:R266, 10:R158) -/

/-- Where a task fetches: `ms.codebase` and `ms.codebound` as firmware set them for its level (17:R266). -/
def codeBaseOf (t : Task) (c : Capsule) : Nat := (t.codeBase.map (·.toNat)).getD c.base
def codeBoundOf (t : Task) (c : Capsule) : Nat := (t.codeBound.map (·.toNat)).getD c.len

/-- The bytes at a task's pc, at most the longest instruction's, within its code bound. -/
def codeBytes (s : State) (t : Task) (c : Capsule) (off : Nat) : List Byte :=
  memRead s.mem (codeBaseOf t c + off) (min 12 (codeBoundOf t c - off))

/-- A breakpoint matches a fetch (27:R378). -/
def breakHits (s : State) (t : Task) (capid off : Nat) : List Breakpoint :=
  match s.partOf? t.part with
  | none => []
  | some p =>
    if p.dbg.session.isNone || t.skipBreak || t.priv == .firmware then []
    else (p.dbg.breaks.filter fun b => b.2.capid == capid && b.2.off == off && (b.2.gtid == 0 || b.2.gtid == t.gtid)).map (·.2)

/-- The body of the capsule may run: it is built or serves its last tasks (21:R333). -/
def fetchTurn (s : State) (t : Task) : Turn :=
  match s.codeOf? t with
  | none => .bound
  | some c =>
    let off := t.pc.toNat
    if codeBoundOf t c ≤ off then .bound
    else match decode (s.codeBytes t c off) with
      | .error .short => .bound
      | r =>
        if !(s.breakHits t c.capid off).isEmpty then .stopAt
        else match r with
          | .error e => .bad e
          | .ok (i, _) => .instr i

/-- What is due during a firmware call waits for its return (18:R281). -/
def turnOf (s : State) (t : Task) : Turn :=
  match t.fwCall with
  | some ⟨n, _, _, none⟩ => match serviceOf n.toNat with
    | some i => .call i
    | none => .back
  | some _ => .back
  | none =>
    match t.due.find? Due.freezes with
    | some d => .trust d.cause
    | none => if !t.due.isEmpty then .due else s.fetchTurn t

/-! ### Readiness (02:R38, 10:R173) -/

/-- The slot may issue but for its instruction's operands: a resident task that is not stopped, holds its tokens, did not issue in the
previous cycle nor a branch in the two before, and whose access is not being translated. -/
def mayIssue (s : State) (t : Task) : Bool :=
  t.run == .resident && !t.stopped && !t.owed && t.draining.isNone && decide (t.holdUntil ≤ s.cycle)
    && (match t.lastIssue with
      | some c => decide (c + 2 ≤ s.cycle)
      | none => true)
    && !(s.mmu.walks.any fun w => w.gtid == t.gtid)

/-- The operands' latencies have passed; a scale register is a source of a prefixed instruction (12:R199). -/
def operandsReady (s : State) (t : Task) : Turn → Bool
  | .instr i =>
    let uses := i.uses ++ (if t.fpend && t.prefix_.ss == 1 then [us t.prefix_.sreg] else [])
    uses.all fun u => match mapGet t.lats u with
      | some c => decide (c ≤ s.cycle)
      | none => true
  | _ => true

def ready (s : State) (t : Task) : Bool := s.mayIssue t && s.operandsReady t (s.turnOf t)

/-- The older of two residents. -/
def oldest (l : List (Nat × Task)) : Option (Nat × Task) :=
  l.foldl (fun m e => match m with
    | none => some e
    | some x => if e.2.stamp < x.2.stamp then some e else some x) none

/-! ### The issue frame (20:R310) -/

/-- Cores and slots of a partition. -/
def ownsSlot (p : Partition) (key : Nat) : Bool := p.cores.contains (coreOf key) && p.slots.getLsbD (slotOf key)

/-- The partition that owns a slot number of a core. -/
def ownerOf (s : State) (core n : Nat) : Option Nat := (s.parts.find? fun e => ownsSlot e.2 (core * 16 + n)).map (·.1)

/-- The ready slots of a partition on a core. -/
def readyOn (s : State) (core part : Nat) : List (Nat × Task) :=
  s.slots.filter fun e => coreOf e.1 == core && e.2.part == part && s.ready e.2

/-- The partition that the current cycle of a core goes to. -/
def cyclePart (s : State) (core : Nat) : Option Nat :=
  let f := s.cycle % 16
  match s.ownerOf core f with
  | none => none
  | some p =>
    if !(s.readyOn core p).isEmpty then some p
    else if ((s.partOf? p).map (·.donate)).getD false then
      ((List.range 15).filterMap fun i => s.ownerOf core ((f + 1 + i) % 16)).find? fun q => !(s.readyOn core q).isEmpty
    else none

/-- A slot's wait count has reached 64 (02:R38). -/
def overdue (e : Nat × Task) : Bool := decide (64 ≤ e.2.waitCount)

/-- The hint of the current slot applies: no owned cycle has passed since it (15:R263). -/
def hinted (s : State) (core part : Nat) (k : Counters) : Bool :=
  match k.hint with
  | none => false
  | some h => decide (s.cycle ≤ h + 16)
      && !((List.range (s.cycle - h - 1)).any fun i => s.ownerOf core ((h + 1 + i) % 16) == some part)

end State

end Sys2Proof.Machine
end

