-- ==== Sys2Proof/Machine/Schedule.lean ====
section
/-! DEFINITION. Slots and deques: how a task becomes resident, what an idle slot does, steals, the issue frame and the events
of the barrel policies (02:R23 to R30, R38, R39, 15:R262, 20:R310). -/

namespace Sys2Proof.Machine

namespace State

/-! ### Slots -/

/-- Every slot of a partition, in ascending order. -/
def slotsOf (p : Partition) : List Nat := p.cores.flatMap fun c => (setBits p.slots.toNat 16).map fun n => c * 16 + n

/-- A slot is taken by an engine kernel (20:R320), or on its way to a thief (02:R29), or reserved for a gang (20:R316). -/
def kernelIn (s : State) (key : Nat) : Bool := s.runningCmds.any fun e => e.2.kernel == some (some key)
def stealTo (s : State) (key : Nat) : Bool := s.cald.steals.any fun x => x.key == key
/-- A slot that a restore names is claimed from the restore's issue on (18:R288). -/
def claimed (s : State) (key : Nat) : Bool := s.cald.asked.any fun a => a.reply.isNone && match a.ask with
  | .ctxrest slot _ => decide (slot.toNat < 16) && coreOf a.key * 16 + slot.toNat == key
  | _ => false
def reservedFor (s : State) (key : Nat) : Bool := s.cald.work.any fun w => w.reserved.contains key

/-- A resize under way takes the core from its partition (20:R325). -/
def losing (p : Partition) (core : Nat) : Bool := p.resizing.any fun cs => !cs.contains core

/-- Nothing is placed on a die that management bars (29:R395), in a stopped partition, on a core that a resize takes away, where a
pre-emption is under way, or while an activation waits for every task to be pre-empted (21:R333, 29:R398). -/
def placeable (s : State) (p : Partition) (part key : Nat) : Bool :=
  !p.stopped && !s.mgmt.activationDue && !s.mgmt.barred.getLsbD (dieOf (coreOf key)) && !losing p (coreOf key)
    && !(s.cald.preempts.any fun x => x.part == part && x.core == coreOf key)

/-- The slot belongs to the partition and holds nothing. -/
def slotFree (s : State) (part key : Nat) : Bool :=
  match s.partOf? part with
  | none => false
  | some p => ownsSlot p key && (mapGet s.slots key).isNone && !s.kernelIn key && !s.stealTo key && !s.claimed key && s.placeable p part key

/-- A parked task evaluates its instruction again, unless that has completed but for what it waits for: a reply, or the result of an SFU
request (02:R36, R37, 12:R216, 14:R254). -/
def reissues : Run → Run
  | .parked _ .kept => .resident
  | .parked 12 w => .parked 12 w
  | .parked 4 w => .parked 4 w
  | _ => .resident

/-- How a task waits in the slot it takes, or after a go: for a reply only where its request still stands (22:R340), and for an SC operation
while it is announced (07:R128). -/
def rewaits (s : State) (t : Task) : Run := match t.run with
  | .parked 12 .event => if s.cald.asked.any fun a => a.gtid == t.gtid then t.run else .resident
  | .parked 9 (.sc tag) => if s.net.scOps.any fun o => o.tag == tag then t.run else .resident
  | r => reissues r

/-- Let a task become resident in a slot. A task that has never been resident finds the slot's `ms.tvec` and `ms.tvseg`
(17:R267; assumption 6, DESIGN CHOICE). -/
def occupy (s : State) (key : Nat) (t : Task) (sub : Nat) : State :=
  let tv := (mapGet s.slotTv key).getD (0, 0)
  let t := if t.stamp = 0 then { t with tr := { t.tr with vec := tv.1, vseg := tv.2 } } else t
  let t := { t with stamp := s.cald.stampCtr + 1, since := s.cycle, yieldedAt := none, lastIssue := none, holdUntil := 0, waitCount := 0, lats := []
                    draining := none, run := s.rewaits t }
  let s := { s with cald := { s.cald with stampCtr := s.cald.stampCtr + 1 } }
  ((s.putTask key t).recordSched key sub 0 t.gtid).landAll key

/-! ### Domains (02:R25 to R27) -/

/-- Core `c` lies in the unit of a domain measured from core `home`. -/
def inUnit (domain : BitVec 2) (home c : Nat) : Bool :=
  match domain.toNat with
  | 0 => c == home
  | 1 => clusterOf c == clusterOf home
  | 2 => dieOf c == dieOf home
  | _ => true

/-- A core admits a task by its domain, and a tile task by its binding as well (02:R25, R26). -/
def admits (s : State) (t : Task) (core : Nat) : Bool :=
  inUnit t.domain t.home core && match t.tile with
    | some vt => (((s.partOf? t.part).bind fun p => mapGet p.vmap vt)).any fun tile => tile == tileOf core
    | none => true

/-- Widest domain among a partition's current launches: those with a root that has not retired, and those with any task in a slot or a
deque, of which the task's own domain counts (assumption 89, DESIGN CHOICE). -/
def widest (s : State) (part : Nat) : Nat :=
  ((s.cald.launches.filter (·.part == part)).map (·.domain.toNat)
    ++ (s.slots.filter (·.2.part == part)).map (·.2.domain.toNat)
    ++ s.deques.flatMap fun (e : Nat × Deque) => (e.2.entries.filter (·.part == part)).map (·.domain.toNat)).foldl max 0

/-- A yielded top entry that has waited more than 1,024 cycles. -/
def agedTop (s : State) (part core : Nat) : Option Task :=
  ((s.deque part core).getLast?).filter fun t => match t.yieldedAt with
    | some c => decide (c + 1024 < s.cycle)
    | none => false

/-- The partition whose slot this is, if the slot is idle: a slot that a reservation names searches on, since a reservation binds
Caldera's placements (02:R27, 20:R316). -/
def idlePart (s : State) (key : Nat) : Option Nat :=
  ((s.parts.find? fun e => ownsSlot e.2 key).map (·.1)).filter fun p => s.slotFree p key

/-- Victims of one step of the search: ascending from the core after the last successful victim, wrapping. A core keeps one such victim for
all its slots, of every partition (assumption 7, DESIGN CHOICE). -/
def victims (s : State) (p : Partition) (core level : Nat) : List Nat :=
  let near (c : Nat) : Bool :=
    c != core && (match level with
      | 1 => clusterOf c == clusterOf core
      | 2 => dieOf c == dieOf core && clusterOf c != clusterOf core
      | _ => dieOf c != dieOf core)
  let l := p.cores.filter near
  let last := (s.core core).lastVictim
  (l.filter fun c => decide (last < c)) ++ l.filter fun c => decide (c ≤ last)

/-- Idle slots of a partition on a core: each pops an entry of the core's deque in this cycle, if there is one. -/
def poppers (s : State) (part core : Nat) : Nat :=
  ((List.range 16).filter fun n => s.idlePart (core * 16 + n) == some part).length

/-- The top entry of a victim, where the thief is admitted, and the owner's pops of the same cycle leave it (02:R28). A stopped task is
not stolen (27:R383). -/
def stealable (s : State) (part thief victim : Nat) : Option Task :=
  if (s.deque part victim).length ≤ s.poppers part victim then none
  else ((s.deque part victim).getLast?).filter fun t => s.admits t thief && !t.stopped

/-- Bound of a steal's time (02:R29). -/
def stealLimit (thief victim : Nat) : Nat :=
  if clusterOf thief = clusterOf victim then 40 else if dieOf thief = dieOf victim then 200 else 1500

/-- Take the top entry of the first victim that admits the thief, in the search order of 02:R27. -/
def stealFor (s : State) (p : Partition) (part key : Nat) : Option State :=
  let c := coreOf key
  let vs := ([1, 2, 3].filter fun l => decide (l ≤ s.widest part)).flatMap (s.victims p c)
  (vs.find? fun v => (s.stealable part c v).isSome).bind fun v =>
    (s.stealable part c v).map fun t =>
      let s := s.setDeque part v (s.deque part v).dropLast
      let s := s.modCore c fun k => { k with lastVictim := v }
      { s with cald := { s.cald with steals := s.cald.steals ++ [⟨key, s.cycle, stealLimit c v, true, t⟩] } }

/-! ### The issue frame (20:R310) -/

/-- Policy and donate bits take effect at a frame boundary. -/
def frameStart (s : State) : State :=
  if s.cycle % 16 ≠ 0 then s
  else { s with parts := s.parts.map fun (e : Nat × Partition) => (e.1, { e.2 with pol := e.2.polNext, donate := e.2.donateNext }) }

end State

/-- The oldest overdue slot becomes the current one (02:R38). -/
def execSlotOverdue (core : Nat) (s : State) : Out :=
  .next (match s.cyclePart core with
    | none => s
    | some part =>
      match State.oldest ((s.readyOn core part).filter State.overdue) with
      | none => s
      | some e => s.modCounts part core fun k => { k with current := some (slotOf e.1), runCount := 0, hint := none })

/-- After 64 issues in a row the current slot changes to the oldest other ready slot; with none, its count starts again. A hint asks for
the same change in this cycle, and is spent (02:R38, 15:R263). -/
def execIssueRunLimit (core : Nat) (s : State) : Out :=
  .next (match s.cyclePart core with
    | none => s
    | some part =>
      let k := s.counts part core
      if k.runCount < 64 then s
      else
        let l := (s.readyOn core part).filter fun e => k.current != some (slotOf e.1)
        s.modCounts part core fun k => { k with
          current := ((State.oldest l).map fun e => slotOf e.1).orElse fun _ => k.current, runCount := 0, hint := none })

def execFrameBoundary (s : State) : Out := .next s.frameStart

end Sys2Proof.Machine
end

