-- ==== Sys2Proof/Machine/Capsule.lean ====
section
/-! DEFINITION. Capsules (21): the image and its checks, the code arena, the lifetime, builds, and the capsule services. -/

namespace Sys2Proof.Machine

/-! ### Firmware calls (18:R281) -/

namespace State

/-- Run a service on the pending call of the current slot; `f` gives the code and result from the argument. Without such a call
nothing happens. -/
def service (s : State) (n : Nat) (f : Task → Word → State × Nat × Nat) : State :=
  let t := s.task
  match t.fwCall with
  | some ⟨k, arg, d, none⟩ =>
    if k.toNat ≠ n then s
    else
      let r := f t arg
      let s := r.1
      s.putTask s.cur { s.task with fwCall := some ⟨k, arg, d, some (word64 [(8, r.2.1), (56, r.2.2)])⟩ }
  | _ => s

/-! ### Worlds and their keys (23:R343) -/

/-- The record of a world; the open world has no creation record, and its secret is free (assumption 53, DESIGN CHOICE). -/
def worldRec (s : State) (w : BitVec 4) : World :=
  (s.worlds.find? fun x => x.id == w).getD
    { id := w, secret := Crypto.beBytes 32 (Config.freeKey w.toNat).toNat, capKeys := [] }

def worldKey (s : State) (w : BitVec 4) (label : String) : List Byte :=
  Crypto.hkdf (s.worldRec w).secret [w.setWidth 8] (Crypto.label label)

/-- The next IV of a world: a counter that never repeats (18:R285). -/
def nextIv (s : State) (w : BitVec 4) : Nat × State :=
  let x := s.worldRec w
  let y := { x with ivCtr := x.ivCtr + 1 }
  (x.ivCtr, { s with worlds :=
    if (s.worlds.any fun (z : World) => z.id == w) then s.worlds.map fun (z : World) => if z.id == w then y else z else s.worlds ++ [y] })

end State

/-! ### The image (21:R326, R328) -/

structure Part where
  off : Nat
  len : Nat
  deriving DecidableEq, Repr

structure Image where
  flags : Nat
  featver : Nat
  capid : Nat
  world : Nat
  text : Part
  rodata : Part
  data : Part
  rmap : Part
  entries : Part
  body : Part
  bind : Nat × Nat
  lms : Part
  deriving DecidableEq, Repr

namespace Image

def num (b : List Byte) (o n : Nat) : Nat := leNat ((b.drop o).take n)

def part (b : List Byte) (o : Nat) : Part := ⟨num b o 4, num b (o + 4) 4⟩

/-- The fields of a header. -/
def read (b : List Byte) : Image :=
  { flags := num b 7 1, featver := num b 6 1, capid := num b 8 8, world := num b 16 1, text := part b 32, rodata := part b 40
    data := part b 48, rmap := part b 56, entries := ⟨num b 64 4, 8 * num b 68 4⟩, body := part b 72
    bind := (num b 80 4, num b 84 4), lms := part b 184 }

def parts (h : Image) : List Part := [h.text, h.rodata, h.data, h.rmap, h.entries, h.body, h.lms]

/-- Length of the image: the end of its last part. -/
def size (h : Image) : Nat := (h.parts.map fun p => p.off + p.len).foldl max 256

def apart (ps : List Part) : Bool :=
  (ps.zipIdx.all fun x => ps.zipIdx.all fun y => x.2 == y.2 || x.1.len == 0 || y.1.len == 0
    || decide (x.1.off + x.1.len ≤ y.1.off) || decide (y.1.off + y.1.len ≤ x.1.off))

/-- The header keeps 21:R326. -/
def headerOk (b : List Byte) (h : Image) : Bool :=
  num b 0 4 == 0xCA950C09 && num b 4 2 == 1 && decide (1 ≤ h.featver) && decide (h.flags < 2) && decide (1 ≤ h.capid)
    && decide (h.capid < 2 ^ 40) && decide (h.world < 16) && num b 17 15 == 0 && num b 192 64 == 0
    && h.text.len % 4 == 0 && decide (1 ≤ h.entries.len) && decide (h.entries.len ≤ 2048)
    && (h.flags == 1 || (h.body.off == 0 && h.body.len == 0))
    && h.parts.all (fun p => p.off % 8 == 0 && decide (p.off + p.len ≤ 2 ^ 26))
    && apart (⟨0, 256⟩ :: h.parts)

def bytes (b : List Byte) (p : Part) : List Byte := (b.drop p.off).take p.len

/-- What the signatures cover. -/
def signed (b : List Byte) (h : Image) : List Byte :=
  let zero (o n : Nat) (x : List Byte) : List Byte := x.take o ++ List.replicate n 0 ++ x.drop (o + n)
  let hd := zero 184 8 (zero 88 96 (zero 72 16 (b.take 256)))
  let hd := hd.take 7 ++ [((hd.drop 7).headD 0) &&& 0xFE] ++ hd.drop 8
  hd ++ [h.text, h.rodata, h.data, h.rmap, h.entries].flatMap (bytes b)

end Image

/-- A portable boundary as the text itself gives it: offset, the `fmt` of a pair, and whether it follows a call. -/
structure TextBoundary where
  off : Nat
  pair : Bool
  after : Bool
  deriving DecidableEq, Repr

def isFmt (bs : List Byte) : Bool := match decode bs with
  | .ok (.fmt _, _) => true
  | _ => false

def isCall (bs : List Byte) : Bool := match decode bs with
  | .ok (.call _ _, _) => true
  | .ok (.callr _, _) => true
  | _ => false

/-- Bytes of the instruction that starts here, by its length field alone (10:R158). -/
def instrBytes (bs : List Byte) : Nat := 4 * wordsOf (BitVec.ofNat 32 (leNat (bs.take 4)))

/-- The boundaries of a text from offset `o` on (21:R328): a `fmt` and the instruction it prefixes are one, and what follows a prefixed `call` follows
a call. -/
def textBoundaries (bs : List Byte) (o : Nat) (after : Bool) : Nat → List TextBoundary
  | 0 => []
  | n + 1 =>
    if bs.isEmpty then []
    else
      let k := instrBytes bs
      if isFmt bs then
        let rest := bs.drop k
        let k2 := instrBytes rest
        ⟨o, true, after⟩ :: textBoundaries (rest.drop k2) (o + k + k2) (isCall rest) n
      else ⟨o, false, after⟩ :: textBoundaries (bs.drop k) (o + k) (isCall bs) n

/-- Entry i of a resume map. -/
def boundaryOf (m : List Byte) (i : Nat) : Nat := leNat ((m.drop (8 * i)).take 8)

/-- Where the entries of a resume map of n boundaries end: at its first name, or at its end (21:R328; assumption 92, DEDUCED). -/
def rmapEnd (m : List Byte) (n : Nat) : Nat :=
  ((List.range n).map (boundaryOf m)).foldl (fun a e => if field e 32 2 = 1 then min a (field e 40 24) else a) m.length

/-- A resume map keeps 21:R328 for these boundaries: it has an entry for each and none besides, and its names follow them, each with its
zero byte (assumption 92, DEDUCED). -/
def rmapOk (m : List Byte) (bs : List TextBoundary) : Bool :=
  rmapEnd m bs.length / 8 == bs.length && bs.zipIdx.all fun x =>
    let e := boundaryOf m x.2
    let kind := field e 32 2
    field e 0 32 == x.1.off && field e 35 5 == 0 && (if x.1.pair then kind == 2 else decide (kind < 2))
      && (if kind = 1 then (m.drop (field e 40 24)).contains 0 else field e 40 24 == 0) && (!x.1.after || field e 34 1 == 1)

def rmapOf (m : List Byte) (n : Nat) : List Boundary :=
  (List.range n).map fun i => let e := boundaryOf m i; ⟨field e 0 32, field e 32 2, field e 34 1 == 1⟩

def entriesOf (b : List Byte) (n : Nat) : List Entry :=
  (List.range n).map fun i => let e := boundaryOf b i; ⟨field e 0 32, field e 32 1 == 1, BitVec.ofNat 2 (field e 33 2)⟩

/-! ### The arena (21:R330) -/

/-- The highest feature version the device implements (03:R63). -/
def featverMax : Nat := 1

namespace State

/-- Arena ranges in use. -/
def arenaUsed (s : State) : List (Nat × Nat) :=
  s.parts.flatMap fun e => e.2.capsules.map fun c => (c.base, (c.len + 4095) / 4096 * 4096)

/-- The lowest place of the arena for a body of n bytes: the base, or the end of a body. -/
def arenaFind (s : State) (n : Nat) : Option Nat :=
  let used := s.arenaUsed
  ((arenaBase :: used.map fun u => u.1 + u.2).filter fun a => decide (a + n ≤ arenaBase + arenaBytes) &&
      used.all fun u => decide (a + n ≤ u.1) || decide (u.1 + u.2 ≤ a)).foldl
    (fun m a => match m with
      | none => some a
      | some x => some (min x a)) none

def modCapsule (s : State) (part capid : Nat) (f : Capsule → Capsule) : State :=
  s.modPart part fun p => { p with capsules := p.capsules.map fun c => if c.capid == capid then f c else c }

end State

/-! ### Lifetime (21:R333 to R336) -/

/-- The body is current: tasks may run it. -/
def Capsule.current (c : Capsule) : Bool := match c.st with
  | .built => true
  | .unloadPending cur _ => cur
  | _ => false

def Capsule.code (c : Capsule) : Nat := match c.st with
  | .built => 1
  | .voided => 2
  | .rebuilding => 3
  | .unloadPending _ _ => 4

/-- A build starts at first use. -/
def Capsule.startBuild (c : Capsule) : Capsule := match c.st with
  | .voided => { c with st := .rebuilding }
  | .unloadPending false false => { c with st := .unloadPending false true }
  | _ => c

def Capsule.building (c : Capsule) : Bool := match c.st with
  | .rebuilding => true
  | .unloadPending _ b => b
  | _ => false

/-- The last load reference is dropped. -/
def Capsule.unload (c : Capsule) : Capsule :=
  if c.refs ≠ 0 then c
  else match c.st with
    | .built => { c with st := .unloadPending true false }
    | .voided => { c with st := .unloadPending false false }
    | .rebuilding => { c with st := .unloadPending false true }
    | _ => c

def Capsule.holds (c : Capsule) (q : Nat) : Bool := c.refs.getLsbD q

/-- Drop a queue's reference (21:R334). -/
def Capsule.dropRef (c : Capsule) (q : Nat) : Capsule := ({ c with refs := c.refs &&& ~~~((1 : BitVec 8) <<< q) } : Capsule).unload

/-- Firmware activation voids a body (21:R333). -/
def Capsule.void (c : Capsule) : Capsule := match c.st with
  | .built => { c with st := .voided }
  | .unloadPending true b => { c with st := .unloadPending false b }
  | _ => c

namespace State

/-- The code of a pending rebuild fills its register. -/
def giveJoiners (s : State) (part : Nat) (c : Capsule) (code : Nat) : State :=
  let s := s.modCapsule part c.capid fun c => { c with joiners := [] }
  c.joiners.foldl (fun s j =>
    if j.mute then s
    else if j.dead then s.record j.key 0xB 1 j.gtid (regPay (.s j.dst))
    else s.deliverTo j.gtid part (.s j.dst) 0 (BitVec.ofNat 128 code) false 0) s

/-- A `ctxrest` of an image of this capsule (18:R284). -/
def restores (s : State) (part capid : Nat) (a : Asked) : Bool :=
  a.part == part && match a.ask with
    | .ctxrest _ va => (s.readVa part (va + 16) 8).any fun b => leNat b == capid
    | _ => false

/-- Work of a capsule whose build is refused: roots of launches are discarded, tasks that wait for Caldera's restore are held, waiting `ctxrest`
answer 0x05 (21:R336). -/
def buildRefused (s : State) (part capid : Nat) : State :=
  let drop (w : QueuedWork) : Bool := w.part == part && match w.work with
    | .root q _ t => q < 8 && t.capid == capid
    | .gang _ _ ts => ts.any fun t => t.capid == capid
    | _ => false
  let hold (w : QueuedWork) : QueuedWork := match w.work with
    | .root q _ t => if w.part == part && 8 ≤ q && t.capid == capid then { w with held := true } else w
    | _ => w
  let gone := (s.cald.work.filter drop).flatMap fun w => match w.work with
    | .root _ _ t => t.launch.toList
    | .gang _ _ ts => (ts.head?.bind (·.launch)).toList
    | _ => []
  let s := { s with cald := { s.cald with
    work := (s.cald.work.filter fun w => !drop w).map hold
    launches := s.cald.launches.filter fun l => !gone.contains l.id
    asked := s.cald.asked.map fun (a : Asked) => if s.restores part capid a && a.reply.isNone then { a with reply := some 5 } else a } }
  s.modPart part fun p => { p with saved := p.saved.map fun (v : Saved) => if v.capid = capid ∧ v.byCaldera then { v with hold := true } else v }

/-- A build ends. -/
def buildEnds (s : State) (part : Nat) (c : Capsule) : State :=
  if !c.building then s
  else if featverMax < c.featver then
    let s := s.modCapsule part c.capid fun c => { c with st := match c.st with
      | .rebuilding => .voided
      | _ => .unloadPending false false }
    (s.giveJoiners part c 3).buildRefused part c.capid
  else
    let s := s.modCapsule part c.capid fun c => { c with
      bodygen := c.bodygen + 1
      st := match c.st with
        | .rebuilding => .built
        | _ => .unloadPending true false }
    s.giveJoiners part c 0

/-! ### Install (21:R331, R332) -/

/-- Whether the body an image carries is bound to this device and firmware and verifies: IV, tag and ciphertext, in that order
(assumption 28, DESIGN CHOICE). -/
def bodyGood (s : State) (b : List Byte) (h : Image) : Bool :=
  let x := Image.bytes b h.body
  h.flags == 1 && h.bind == (Config.generation.toNat, s.fwver) &&
    (Crypto.gcmOpen (Crypto.beBytes 32 (Config.bodyKey s.fwver).toNat) (x.take 12) (leBytes 8 h.capid) (x.drop 28)
      ((x.drop 12).take 16)).isSome

/-- The checks of 21:R332 in order: the reason of the first failure, or the capsule as it is installed. The keys are those of the world the
image names (21:R326). -/
def installCheck (s : State) (p : Partition) (b : List Byte) : Except Nat Capsule :=
  let h := Image.read b
  let keys := (s.worldRec (BitVec.ofNat 4 h.world)).capKeys
  let msg := Image.signed b h
  let text := Image.bytes b h.text
  let bs := textBoundaries text 0 false text.length
  let rm := Image.bytes b h.rmap
  let es := entriesOf (Image.bytes b h.entries) (h.entries.len / 8)
  let entriesBad := (List.range (h.entries.len / 8)).any fun i =>
    let e := boundaryOf (Image.bytes b h.entries) i
    field e 35 29 != 0 || !(bs.any fun x => x.off == field e 0 32)
  if !(Config.ecdsaOk keys msg ((b.drop 88).take 96) && Config.lmsOk keys msg (Image.bytes b h.lms)) then .error 1
  else if !Image.headerOk b h || !rmapOk rm bs || entriesBad then .error 2
  else if featverMax < h.featver then .error 3
  else if h.world ≠ p.world.toNat then .error 4
  else if p.capsules.any (fun c => c.capid == h.capid) then .error 5
  else
    let good := s.bodyGood b h
    match if text.length ≤ 2 ^ 24 then s.arenaFind ((text.length + 4095) / 4096 * 4096) else none with
    | none => .error 9
    | some a =>
      .ok { capid := h.capid, world := p.world, featver := h.featver, st := if good then .built else .voided
            bodygen := if good then 1 else 0, base := a, len := text.length, rmap := rmapOf rm bs.length, entries := es
            image := b.take h.size }

/-- The text of a capsule goes into the arena; the first capsule installed is the supervisor's when none is (assumption 17, DESIGN CHOICE). -/
def install (s : State) (part : Nat) (c : Capsule) : State :=
  let h := Image.read c.image
  let s := s.store c.base (Image.bytes c.image h.text)
  s.modPart part fun p => { p with
    capsules := p.capsules ++ [c], deleted := mapErase p.deleted c.capid, supCap := some (p.supCap.getD c.capid) }

/-- The whole image at a virtual address: its header, then up to its length. -/
def readImage (s : State) (part va : Nat) : Option (List Byte) :=
  match s.readVa part va 256 with
  | none => none
  | some hd =>
    let n := min (Image.read hd).size (2 ^ 26)
    s.readVa part va n

def capinst (s : State) (t : Task) (arg : Word) : State × Nat × Nat :=
  let va := arg.toNat
  if va % 4096 ≠ 0 ∨ 2 ^ 52 ≤ va then (s, 2, 0)
  else match s.readImage t.part va, s.partOf? t.part with
    | some b, some p =>
      match s.installCheck p b with
      | .error r => (s, 3, r)
      | .ok c => (s.install t.part c, 0, c.code)
    | _, _ => (s, 2, 0)

/-- A task of the capsule is live: in a slot, a deque, a steal, or queued or held at Caldera (21:R332). -/
def capLive (s : State) (part capid : Nat) : Bool :=
  let is (t : Task) : Bool := t.part == part && t.capid == capid
  (s.slots.any fun e => is e.2) || (s.deques.any fun e => e.2.entries.any is) || (s.cald.steals.any fun x => is x.task)
    || ((((s.partOf? part).map (·.saved)).getD []).any fun v => v.capid == capid && (v.byCaldera || v.hold))
    || s.cald.work.any fun w => match w.work with
      | .root _ _ t => is t
      | .gang _ _ ts => ts.any is
      | _ => false

def savedOf (s : State) (part capid : Nat) : Nat :=
  (((s.partOf? part).map (·.saved)).getD []).filter (·.capid == capid) |>.length

/-- What a service answers for a capsule it does not find: a deleted one refuses every operation but to report its state (21:R332, R333;
assumption 92, DEDUCED). -/
def noCapsule (s : State) (part id : Nat) : State × Nat × Nat :=
  if ((s.partOf? part).bind fun p => mapGet p.deleted id).isSome then (s, 3, 6) else (s, 2, 0)

def capref (s : State) (t : Task) (arg : Word) : State × Nat × Nat :=
  let id := field arg.toNat 0 40
  let q := field arg.toNat 40 3
  let drop := arg.getLsbD 43
  if field arg.toNat 44 20 ≠ 0 then (s, 2, 0)
  else match s.capsule? t.part id with
    | none => if drop && (s.noCapsule t.part id).2.1 == 3 then (s, 3, 10) else s.noCapsule t.part id
    | some c =>
      if drop then
        if c.holds q then (s.modCapsule t.part id fun c => c.dropRef q, 0, 0) else (s, 3, 10)
      else if c.code = 4 then (s, 3, 6)
      else if c.holds q then (s, 3, 10)
      else (s.modCapsule t.part id fun c => { c with refs := c.refs ||| ((1 : BitVec 8) <<< q) }, 0, 0)

def capdel (s : State) (t : Task) (arg : Word) : State × Nat × Nat :=
  match s.capsule? t.part arg.toNat with
  | none => s.noCapsule t.part arg.toNat
  | some c =>
    if c.code ≠ 4 then (s, 3, 6)
    else if s.capLive t.part c.capid then (s, 3, 7)
    else if s.savedOf t.part c.capid ≠ 0 then (s, 3, 8)
    else (s.modPart t.part fun p => { p with capsules := p.capsules.filter fun x => x.capid != c.capid
                                             deleted := mapSet p.deleted c.capid c.bodygen
                                             supCap := p.supCap.filter (· != c.capid) }, 0, 0)

def capstat (s : State) (t : Task) (arg : Word) : State × Nat × Nat :=
  match s.capsule? t.part arg.toNat with
  | none => match (s.partOf? t.part).bind fun p => mapGet p.deleted arg.toNat with
    | some gen => (s, 0, packFields [(4, 5), (8, 0), (16, 0), (28, gen)])
    | none => (s, 2, 0)
  | some c => (s, 0, packFields [(4, c.code), (8, c.refs.toNat), (16, min (s.savedOf t.part c.capid) 65535), (28, c.bodygen)])

/-- A saved context is dropped: the task counts as retired through a trap (21:R331). -/
def ctxdrop (s : State) (t : Task) (arg : Word) : State × Nat × Nat :=
  match ((s.partOf? t.part).map (·.saved)).bind fun l => l.find? fun v => v.gtid == arg with
  | none => (s, 2, 0)
  | some v =>
    let s := s.modPart t.part fun p => { p with saved := p.saved.filter fun x => x.gtid != arg }
    let s := { s with cald := { s.cald with work := s.cald.work.filter fun w => w.work != Work.saved arg } }
    (s.ended v.task (v.task.home * 16), 0, 0)

/-- The image as `capexp` writes it: with the body of this device, where it is current, and its binding. -/
def exported (s : State) (c : Capsule) : List Byte :=
  let h := Image.read c.image
  let set (o : Nat) (x : List Byte) (b : List Byte) : List Byte := b.take o ++ x ++ b.drop (o + x.length)
  let core := c.image.take (([h.text, h.rodata, h.data, h.rmap, h.entries, h.lms].map fun p => p.off + p.len).foldl max 256)
  let core := core ++ List.replicate ((8 - core.length % 8) % 8) 0
  if !c.current then set 72 (List.replicate 16 0) (set 7 [0] core)
  else
    let iv := leBytes 12 (Config.freeVec s.freeCtr).toNat
    let x := Crypto.gcmSeal (Crypto.beBytes 32 (Config.bodyKey s.fwver).toNat) iv (leBytes 8 c.capid) (memRead s.mem c.base c.len)
    let body := iv ++ x.2 ++ x.1
    set 72 (leBytes 4 core.length ++ leBytes 4 body.length ++ leBytes 4 Config.generation.toNat ++ leBytes 4 s.fwver)
      (set 7 [1] core) ++ body

def capexp (s : State) (t : Task) (arg : Word) : State × Nat × Nat :=
  match s.readVa t.part arg.toNat 16 with
  | none => (s, 2, 0)
  | some b =>
    let id := leNat (b.take 8)
    let va := leNat (b.drop 8)
    match s.capsule? t.part id with
    | none => s.noCapsule t.part id
    | some c =>
      if va % 4096 ≠ 0 ∨ 2 ^ 52 < va + 2 ^ 26 then (s, 2, 0)
      else
        let x := s.exported c
        match s.writeVa t.part va x with
        | none => (s, 2, 0)
        | some s => ({ s with freeCtr := s.freeCtr + 1 }, 0, x.length)

end State

def execCapinst (s : State) : Out := .next (s.service 0x40 s.capinst)
def execCapref (s : State) : Out := .next (s.service 0x41 s.capref)
def execCapdel (s : State) : Out := .next (s.service 0x42 s.capdel)
def execCapstat (s : State) : Out := .next (s.service 0x43 s.capstat)
def execCtxdrop (s : State) : Out := .next (s.service 0x44 s.ctxdrop)
def execCapexp (s : State) : Out := .next (s.service 0x45 s.capexp)

def execBuildComplete (part capid : Nat) (s : State) : Out :=
  .next (match s.capsule? part capid with
    | none => s
    | some c => s.buildEnds part c)

/-- `rebuild` (18:R289): its register is empty until the request ends. -/
def execRebuild (o : UnArgs) (s : State) : Out :=
  .next (s.privileged (s.plain o.f [.s o.d] [(.s o.a, o.ea)] fun t =>
    let id := (t.getS o.a).toNat
    let part := t.part
    let k := s.cur
    let go (s : State) (code : Nat) : State :=
      let s := s.completeWith (t.markEmpty (.s o.d)) o.f.bytes
      s.putTask k ((s.taskAt k).deliver (.s o.d) (BitVec.ofNat 128 code) false)
    match s.capsule? part id with
    | none => go s (if (s.noCapsule part id).2.1 = 3 then 4 else 2)
    | some c =>
      match c.st with
      | .unloadPending _ _ => go s 4
      | .built => go s 1
      | _ =>
        if featverMax < c.featver then go s 3
        else
          let s := s.modCapsule part id fun c => { c.startBuild with joiners := c.joiners ++ [⟨t.gtid, o.d, k, false, false⟩] }
          s.completeWith (t.markEmpty (.s o.d)) o.f.bytes))

end Sys2Proof.Machine
end

