-- ==== Sys2Proof/Machine/System.lean ====
section
/-! DEFINITION. Status and system registers, traps and returns, whole segments, markers, breakpoints and firmware calls
(11:R190, R191, 14:R253, 17:R267, R273, 18:R277 to R281, R290, R291, R293). -/

namespace Sys2Proof.Machine

/-- `ms.tshape` (03:R62, 14:R244, R246): shape codes legal for `mm` below, for `gath` above. -/
def tshapeOf (ty : Nat) : Nat :=
  let mm := [0x00, 0x0A, 0x0B, 0x0C, 0x0D, 0x0E, 0x0F, 0x11, 0x12, 0x13, 0x14, 0x15, 0x16].contains ty
  let ga := [0x00, 0x0A, 0x0B, 0x0C, 0x11, 0x12, 0x16, 0x17].contains ty
  (if mm then 0xFFFFFFFF else 0) + (if ga then 0x03030303 * 2 ^ 32 else 0)

/-- What reading a status register gives: its value, or the cause it raises (11:R190, 17:R267). -/
inductive MsRead
  | value (x : Word)
  | raise (c : BitVec 6)
  deriving DecidableEq, Repr

/-- Lowest level that may read a system register: 1 supervisor, 2 firmware; none for an unassigned number. -/
def sysReadLevel (n : Nat) : Option Nat :=
  if [0x200, 0x201, 0x202, 0x203, 0x204, 0x208, 0x209, 0x20A, 0x20B, 0x210, 0x211].contains n then some 1
  else if [0x300, 0x301, 0x302, 0x303, 0x304, 0x308, 0x309, 0x30A, 0x30B, 0x310, 0x311].contains n then some 2
  else none

/-- Numbers below 0x200 that name a register (03:R58). -/
def taskRegOk (n : Nat) : Bool :=
  [0, 1, 2, 3, 4, 8, 0x60, 0x61].contains n || (decide (0x20 ≤ n) && decide (n < 0x38))
    || (decide (0x40 ≤ n) && decide (n < 0x58)) || (decide (0x100 ≤ n) && decide (n < 0x180))

def Priv.level : Priv → Nat
  | .task => 0
  | .supervisor => 1
  | .firmware => 2

namespace State

/-- A term counter of the task's partition, of its tile's compute core (05:R94, R95). -/
def term (s : State) (i : Nat) : Word :=
  if 0x34 ≤ i then 0 else (s.counts s.task.part (computeOf (coreOf s.cur))).term s.cycle i

/-- A delay accumulator of the issuing core (27:R385). -/
def delay (s : State) (i : Nat) : Word :=
  let d := (mapGet (s.counts s.task.part (coreOf s.cur)).delays i).getD (0, 0)
  word64 [(40, d.2), (24, d.1)]

/-- Code base and bound as the level reads them (17:R267): at supervisor privilege a portable view. -/
def codeView (s : State) (t : Task) : Word × Word :=
  let c := s.codeOf? t
  let len := BitVec.ofNat 64 ((c.map (·.len)).getD 0)
  if t.priv = .firmware then (t.codeBase.getD (BitVec.ofNat 64 ((c.map (·.base)).getD 0)), t.codeBound.getD len) else (0, len)

def msValue (s : State) (t : Task) (n : Nat) : Word :=
  let p := s.partOf? t.part
  match n with
  | 0x000 => s.statusOf { t with fpend := false, fmtword := 0 } (coreOf s.cur)
  | 0x001 => t.gtid
  | 0x002 => BitVec.ofNat 64 (t.tile.getD 0x3FF)
  | 0x003 => BitVec.ofNat 64 t.grank
  | 0x004 => BitVec.ofNat 64 t.gsize
  | 0x008 => 128
  | 0x060 => (p.map (·.capsRes)).getD 0
  | 0x061 => (p.map (·.capsIo)).getD 0
  | 0x200 => t.tr.cause
  | 0x201 => t.tr.pc
  | 0x202 => t.tr.addr
  | 0x203 => t.tr.status
  | 0x204 => t.tr.aerr
  | 0x208 => t.tr.vec
  | 0x209 => t.tr.vseg.extractLsb' 0 64
  | 0x20A => t.tr.vseg.extractLsb' 64 64
  | 0x20B => (p.map (·.qarea)).getD 0
  | 0x210 => (s.codeView t).1
  | 0x211 => (s.codeView t).2
  | 0x300 => t.fw.cause
  | 0x301 => t.fw.pc
  | 0x302 => t.fw.addr
  | 0x303 => t.fw.status
  | 0x304 => t.fw.aerr
  | 0x308 => t.fw.vec
  | 0x309 => t.fw.vseg.extractLsb' 0 64
  | 0x30A => t.fw.vseg.extractLsb' 64 64
  | 0x30B => t.fqarea
  | 0x310 => t.fwBase
  | 0x311 => t.fwBound
  | n =>
    if n < 0x40 then BitVec.ofNat 64 (lanesOf (BitVec.ofNat 5 n))
    else if n < 0x60 then BitVec.ofNat 64 (tshapeOf (n - 0x40))
    else if n < 0x140 then s.term (n - 0x100)
    else s.delay (n - 0x140)

/-- `ms.aerr` is cleared by its read (17:R267, RC). -/
def msRead (s : State) (t : Task) (n : Nat) : MsRead :=
  if n < 0x200 then if taskRegOk n then .value (s.msValue t n) else .raise cRESERVED_FIELD
  else match sysReadLevel n with
    | none => .raise cRESERVED_FIELD
    | some l => if t.priv.level < l then .raise cPRIVILEGE else .value (s.msValue t n)

end State

/-- Writable bits of `ms.tcause` (17:R268). -/
def tcauseMask : Word := 0x800000FF00000F3F
/-- Bits of `ms.tstatus` that `ms.status` gives a meaning (03:R59); bits 2:0 of `fmtword` are reserved (12:R198). -/
def tstatusMask : Word := 0x0000FFFFFFF8F3B7
/-- The upper half of a segment without its reserved bits (03:R55). -/
def segHiMask : Word := 0xFFFFC0FFFFFFFFFF
/-- A whole segment with its reserved bits 109:104 zero (03:R55). -/
def segClean (x : VWord) : VWord := (x.extractLsb' 64 64 &&& segHiMask) ++ x.extractLsb' 0 64
def qareaMask : Word := 0xFFFFFFFFFFFFF

namespace State

/-- A write of a system register; what the level may not write is ignored (11:R191, 17:R267). -/
def msWrite (s : State) (t : Task) (n : Nat) (x : Word) : State :=
  let fw := t.priv = .firmware
  match n with
  | 0x200 => s.setTask { t with tr := { t.tr with cause := x &&& tcauseMask } }
  | 0x201 => s.setTask { t with tr := { t.tr with pc := x } }
  | 0x202 => s.setTask { t with tr := { t.tr with addr := x } }
  | 0x203 => s.setTask { t with tr := { t.tr with status := x &&& tstatusMask } }
  | 0x208 => s.setTask { t with tr := { t.tr with vec := x } }
  | 0x209 => if fw then s.setTask { t with tr := { t.tr with vseg := (t.tr.vseg.extractLsb' 64 64) ++ x } } else s
  | 0x20A => if fw then s.setTask { t with tr := { t.tr with vseg := (x &&& segHiMask) ++ (t.tr.vseg.extractLsb' 0 64) } } else s
  | 0x20B => s.modPart t.part fun p => { p with qarea := x &&& qareaMask, qnext := 0 }
  | 0x210 => if fw then s.setTask { t with codeBase := some x } else s
  | 0x211 => if fw then s.setTask { t with codeBound := some x } else s
  | 0x300 => if fw then s.setTask { t with fw := { t.fw with cause := x &&& tcauseMask } } else s
  | 0x301 => if fw then s.setTask { t with fw := { t.fw with pc := x } } else s
  | 0x302 => if fw then s.setTask { t with fw := { t.fw with addr := x } } else s
  | 0x303 => if fw then s.setTask { t with fw := { t.fw with status := x &&& tstatusMask } } else s
  | 0x308 => if fw then s.setTask { t with fw := { t.fw with vec := x } } else s
  | 0x309 => if fw then s.setTask { t with fw := { t.fw with vseg := (t.fw.vseg.extractLsb' 64 64) ++ x } } else s
  | 0x30A => if fw then s.setTask { t with fw := { t.fw with vseg := (x &&& segHiMask) ++ (t.fw.vseg.extractLsb' 0 64) } } else s
  | 0x30B => if fw then s.setTask { t with fqarea := x &&& qareaMask } else s
  | 0x310 => if fw then s.setTask { t with fwBase := x } else s
  | 0x311 => if fw then s.setTask { t with fwBound := x } else s
  | _ => s

/-- The number names a register of some level. -/
def msAssigned (n : Nat) : Bool := (decide (n < 0x200) && taskRegOk n) || (sysReadLevel n).isSome

end State

/-- `rdms` (11:R190). -/
def execRdms (f : Form) (d : Reg) (num : BitVec 13) (s : State) : Out :=
  .next (
    let t := s.task
    match s.msRead t num.toNat with
    | .raise c => s.trapC c
    | .value _ => s.plain f [.s d] [] fun t =>
        let x := s.msValue t num.toNat
        let t' := if num.toNat = 0x204 then { t with tr := { t.tr with aerr := 0 } }
          else if num.toNat = 0x304 then { t with fw := { t.fw with aerr := 0 } } else t
        s.completeWith (t'.writeS s.cycle d x 1) f.bytes)

/-- `wrms` (11:R191): PRIVILEGE at task level whatever the number, RESERVED_FIELD for an unassigned one above it. -/
def execWrms (f : Form) (a : Reg) (ea : Bool) (num : BitVec 13) (s : State) : Out :=
  .next (s.privileged (
    if !State.msAssigned num.toNat then s.trapC cRESERVED_FIELD
    else s.plain f [] [(.s a, ea)] fun t => (s.msWrite t num.toNat (t.getS a)).complete f.bytes))

/-- `termrd` (14:R253). -/
def execTermrd (f : Form) (d : Reg) (num : BitVec 6) (s : State) : Out :=
  .next (s.plain f [.s d] [] fun t => s.completeWith (t.writeS s.cycle d (s.term num.toNat) 1) f.bytes)

/-- `trap` raises SYSCALL after it completes: the return point is the next instruction (18:R278). -/
def execTrap (f : Form) (imm : BitVec 8) (s : State) : Out :=
  .next (s.plain f [] [] fun t =>
    s.takeAt { cause := cSYSCALL, detail := imm.toNat } (t.pc + BitVec.ofNat 64 f.bytes))

namespace State

/-- The checks of 17:R273 on a return point, then the return itself: `u` at the pc, with the prefix that was pending. -/
def returnTo (s : State) (c : Option Capsule) (tr : TrapRegs) (u : Task) : State :=
  let fp := tr.status.getLsbD 0
  if (c.bind fun c => c.boundary? tr.pc.toNat).any fun b => !fp || b.kind == 2 then
    let s := s.setTask { u with
      fpend := fp, fmtword := if fp then tr.status.extractLsb' 16 32 else 0, fmtPc := tr.pc, skipBreak := false
      holdUntil := s.cycle + 3, pc := if fp then tr.pc + 8 else tr.pc }
    if u.stepping then s.stopTask s.cur cSINGLE_STEP 0 else s
  else s.trap { cause := cILLEGAL_TARGET, addr := tr.pc }

/-- The return of a firmware call, from the firmware copies: the code and result go to sD, the level to supervisor, the pc to the return
point. One that fails the checks is a trap of the supervisor (18:R279, R281). -/
def fwReturn (s : State) : State :=
  let t := { s.task with priv := .supervisor, fwCall := none }
  let u := match s.task.fwCall with
    | some ⟨_, _, d, some r⟩ => t.writeS s.cycle d r 1
    | _ => t
  (s.setTask t).returnTo (s.supCapsule? t.part) t.fw u

/-- The return of a handler: g7 and `ms.tvseg` change places again (17:R273). -/
def trapReturn (s : State) : State :=
  let t := s.task
  s.returnTo (s.capsule? t.part t.capid) t.tr { t.putG 7 t.tr.vseg with
    tr := { t.tr with vseg := t.tvNext.getD (t.getG 7) }, inHandler := false, tvNext := none, priv := .task
    codeBase := none, codeBound := none }

end State

def execTrapret (f : Form) (s : State) : Out :=
  .next (s.privileged (s.plain f [] [] fun t => if t.priv = .firmware then s.fwReturn else s.trapReturn))

/-- Tiles granted to the partition (25:R372). -/
def State.tilesOf (s : State) (part : Nat) : Nat := ((s.partOf? part).map (·.vmap.length)).getD 0

/-- `gwrite` (18:R280). -/
def execGwrite (f : Form) (d : BitVec 3) (a : Reg) (ea : Bool) (b : Reg) (eb : Bool) (s : State) : Out :=
  .next (s.privileged (s.plain f [] [(.s a, ea), (.s b, eb)] fun t =>
    let x : VWord := t.getS b ++ t.getS a
    match segWriteBad (s.tilesOf t.part) x with
    | some (c, l) => s.trap { cause := c, seg := some d, addr := l }
    | none => s.completeWith (t.putG d x) f.bytes))

/-- `recmark` (18:R290, 27:R387). -/
def execRecmark (f : Form) (a : Reg) (ea : Bool) (tag : BitVec 5) (s : State) : Out :=
  .next (s.plain f [] [(.s a, ea)] fun t =>
    (s.record s.cur 0x7 0 t.gtid (packFields [(32, (t.getS a).toNat), (3, 0), (5, tag.toNat)])).complete f.bytes)

/-- `bkpt` (18:R291). -/
def execBkpt (f : Form) (code : BitVec 5) (s : State) : Out :=
  .next (s.plain f [] [] fun _ => s.trap { cause := cBKPT, detail := code.toNat })

/-- Services that have a row of their own (18:R281, 20:R311, 21:R331, 23:R360). -/
def knownService (n : Nat) : Bool :=
  decide (n ≤ 6) || (decide (0x10 ≤ n) && decide (n ≤ 0x17)) || (decide (0x40 ≤ n) && decide (n ≤ 0x45))
    || (decide (0x60 ≤ n) && decide (n ≤ 0x66))

/-- `fwcall` saves the return point and enters firmware; the service runs there and the firmware `trapret` returns its
code (18:R281). An unknown service and a service number above 0xFF have their code at once. At firmware privilege it is an
illegal opcode, which is fatal. -/
def execFwcall (o : TwoArgs) (s : State) : Out :=
  .next (s.privileged (
    if s.task.priv = .firmware then s.trapC cILLEGAL_OPCODE
    else s.plain o.f [.s o.d] [(.s o.a, o.ea), (.s o.b, o.eb)] fun t =>
      let a := t.getS o.a
      let r : Option Word := if 256 ≤ a.toNat then some 2 else if knownService a.toNat then none else some 1
      s.branch { t with priv := .firmware, fw := { t.fw with pc := t.pc + BitVec.ofNat 64 o.f.bytes }
                        fwCall := some ⟨a, t.getS o.b, o.d, r⟩ } t.pc))

/-- `termclr` zeroes the caller's partition's set on the compute core of its tile (18:R293). -/
def execTermclr (f : Form) (s : State) : Out :=
  .next (s.privileged (s.plain f [] [] fun t =>
    (s.modCounts t.part (computeOf (coreOf s.cur)) fun c => c.clearTerms s.cycle).complete f.bytes))

end Sys2Proof.Machine
end

