-- ==== Sys2Proof/Machine/Image.lean ====
section
/-! DEFINITION. Slot images and tile images: layout, authentication, writing and reading back (18:R284 to R287, R405). -/

namespace Sys2Proof.Machine

/-! ### Slot images (18:R284) -/

/-- A pending delivery as an image lists it (18:R405). -/
structure Pending where
  dst : RegId
  kind : Nat
  unit : Nat
  tag : Nat
  deriving DecidableEq, Repr

def Pending.bytes (x : Pending) : List Byte :=
  let r := match x.dst with
    | .s r => (0, r.toNat)
    | .v r => (1, r.toNat)
    | .m r => (2, r.toNat)
  leBytes 1 r.1 ++ leBytes 1 r.2 ++ leBytes 1 x.kind ++ leBytes 1 x.unit ++ leBytes 4 0 ++ leBytes 8 x.tag

/-- The producer and unit of an access. -/
def Acc.producer (a : Acc) : Nat × Nat :=
  match a.op, a.place with
  | .amo _ _ _ _, _ => (2, 0)
  | .load _ _, .ext _ q _ ps => if ps.any fun p => decide (p.addr < hostBase) && inWindow p.addr then (1, 0) else (0, q)
  | _, _ => (1, 0)

/-- A step or pool instruction asks for it (14:R254). -/
def Ask.stepOrPool : Ask → Bool
  | .seqret _ _ _ => true
  | .seqadm _ => true
  | .poolTake => true
  | .poolGive _ => true
  | _ => false

namespace State

/-- Deliveries pending for a task. The tag of each is the model's own (18:R405 leaves it open; assumption 30, DESIGN CHOICE). -/
def pendingOf (s : State) (part : Nat) (g : Word) : List Pending :=
  (s.net.accs.filter fun a => a.owner == g && a.op != .count).filterMap (fun (a : Acc) => a.dst.map fun r => ⟨r, a.producer.1, a.producer.2, a.tag⟩)
    ++ (s.net.sfu.filter fun r => r.owner == g && !r.mute).map (fun (r : SfuReq) => ⟨.v r.dst, 3, 0, r.tag⟩)
    ++ (s.tiles.flatMap fun (e : Nat × Tile) => e.2.queues.toList.zipIdx.flatMap fun (q : List Cmd × Nat) =>
        (q.1.filter fun c => c.owner == g && Cmd.running c && !c.dead && !c.mute).map fun c =>
          ⟨.s (CmdWord.tok c.word), 4, q.2, e.1 * 2 ^ 40 + c.order⟩)
    ++ ((((s.partOf? part).map (·.capsules)).getD []).flatMap fun c =>
        (c.joiners.filter fun j => j.gtid == g && !j.mute).map fun j => ⟨.s j.dst, 5, 0, c.capid⟩)
    ++ (s.cald.asked.filter fun a => a.gtid == g && a.ask.stepOrPool).map (fun (a : Asked) => ⟨.s a.dst, 6, 0, a.key⟩)

/-- Commands of a task that have not started, by tile, queue and acceptance. -/
def unstarted (s : State) (g : Word) : List Cmd :=
  s.tiles.flatMap fun (e : Nat × Tile) =>
    ((e.2.queues.toList.flatMap id).filter fun c => c.owner == g && !Cmd.running c).mergeSort fun a b => decide (a.order ≤ b.order)

end State

def wordBytes (x : Word) : List Byte := leBytes 8 x.toNat

/-- An inbox entry: payload, source core, channel, m register (assumption 31, DESIGN CHOICE: their places). -/
def Msg.bytes (m : Msg) : List Byte :=
  leBytes 16 m.data.toNat ++ leBytes 2 m.srcCore ++ leBytes 1 m.ch ++ leBytes 1 m.mreg.toNat ++ leBytes 12 0

/-- The resume point: the `fmt` of a pending pair (21:R329, R337). -/
def Task.resumePoint (t : Task) : Word := if t.fpend then t.fmtPc else t.pc

def Task.isParked (t : Task) : Bool := match t.run with
  | .resident => false
  | .parked _ _ => true

def Task.imageFlags (t : Task) : Nat :=
  packFields [(1, ofBool t.isParked), (1, ofBool t.tile.isSome), (1, ofBool t.stopped), (2, t.priv.level)]

/-- The fields of an image before its tag. -/
def slotHead (t : Task) (bodygen len : Nat) : List Byte :=
  leBytes 2 0x5C01 ++ leBytes 2 t.imageFlags ++ leBytes 4 len ++ wordBytes t.gtid ++ leBytes 8 t.capid ++ leBytes 4 bodygen
    ++ leBytes 4 t.resumePoint.toNat

/-- Those after it. -/
def slotTail (t : Task) (ds : List Pending) (cmds : List Cmd) (iv : List Byte) : List Byte :=
  iv ++ t.tokens.toList.flatMap (leBytes 1)
    ++ (t.s.toList.drop 1).flatMap wordBytes ++ leBytes 8 (t.sFull.toNat / 2 * 2)
    ++ t.v.toList.flatMap (fun x => leBytes 16 x.toNat) ++ leBytes 4 t.vFull.toNat ++ leBytes 1 t.mFull.toNat ++ leBytes 3 0
    ++ (t.p.toList.drop 1).flatMap (fun x => leBytes 2 x.toNat) ++ leBytes 10 0
    ++ t.m.toList.flatMap (fun x => leBytes 16 x.toNat) ++ t.g.toList.flatMap (fun x => leBytes 16 x.toNat)
    ++ wordBytes t.tr.cause ++ wordBytes t.tr.pc ++ wordBytes t.tr.addr ++ wordBytes t.tr.status ++ wordBytes t.tr.aerr
    ++ wordBytes t.tr.vec ++ leBytes 16 t.tr.vseg.toNat
    ++ leBytes 8 (packFields [(1, ofBool t.fpend), (15, 0), (32, t.fmtword.toNat)])
    ++ leBytes 8 (packFields [(32, t.sErr.toNat), (32, t.vErr.toNat)])
    ++ leBytes 2 ds.length ++ leBytes 2 t.inbox.length ++ leBytes 2 cmds.length ++ leBytes 2 0
    ++ ds.flatMap Pending.bytes ++ t.inbox.flatMap Msg.bytes ++ cmds.flatMap (fun (c : Cmd) => leBytes 32 c.word.toNat)

/-- The image with its tag and IV as given. -/
def slotBytes (t : Task) (bodygen : Nat) (ds : List Pending) (cmds : List Cmd) (iv tag : List Byte) : List Byte :=
  slotHead t bodygen (0x4B8 + 16 * ds.length + 32 * t.inbox.length + 32 * cmds.length) ++ tag ++ slotTail t ds cmds iv

def zeros (n : Nat) : List Byte := List.replicate n 0

/-- Bytes o to o + n - 1 replaced. -/
def patch (b : List Byte) (o : Nat) (x : List Byte) : List Byte := b.take o ++ x ++ b.drop (o + x.length)

/-- GMAC of an image whose tag reads zero (18:R285). -/
def imageTag (key iv b : List Byte) : List Byte := (Crypto.gcmSeal key iv b []).2

/-- Seal an image with its IV in place: its tag goes to offset `o`. -/
def withTag (key iv b : List Byte) (o : Nat) : List Byte := patch b o (imageTag key iv b)

/-- The tag at offset `o` verifies. -/
def tagOk (key iv b : List Byte) (o : Nat) : Bool := (b.drop o).take 16 == imageTag key iv (patch b o (zeros 16))

/-- The reserved fields and lengths of a slot image hold (18:R284, R405). -/
def slotFormOk (b : List Byte) : Bool :=
  let n (o k : Nat) : Nat := leNat ((b.drop o).take k)
  let nd := n 0x4B0 2
  let ni := n 0x4B2 2
  let nc := n 0x4B4 2
  let ds := (List.range nd).map fun i => (b.drop (0x4B8 + 16 * i)).take 16
  n 0 2 == 0x5C01 && n 2 2 / 32 == 0 && decide (n 2 2 / 8 % 4 < 2) && n 4 4 == 0x4B8 + 16 * nd + 32 * ni + 32 * nc
    && decide (n 4 4 < 16384) && n 0x138 8 % 2 == 0 && decide (n 0x138 8 < 2 ^ 32) && n 0x345 3 == 0 && n 0x356 10 == 0
    && field (n 0x4A0 8) 1 15 == 0 && field (n 0x4A0 8) 48 16 == 0 && n 0x4B6 2 == 0
    && ds.all fun d => decide (leNat ((d.drop 2).take 1) < 7) && leNat ((d.drop 4).take 4) == 0

/-- The fields of an image back in a task; what an image does not hold stays as the save kept it. Reserved bits of registers read zero
(00:R4). -/
def Task.ofImage (t : Task) (b : List Byte) : Task :=
  let n (o k : Nat) : Nat := leNat ((b.drop o).take k)
  let fp := n 0x4A0 8 % 2 == 1
  let resume := BitVec.ofNat 64 (n 0x1C 4)
  { t with
    gtid := BitVec.ofNat 64 (n 8 8), capid := n 0x10 8, pc := if fp then resume + 8 else resume, fmtPc := resume
    stopped := n 2 2 / 4 % 2 == 1
    priv := if n 2 2 / 8 % 4 = 0 then .task else .supervisor
    tokens := Vector.ofFn fun (i : Fin 4) => n (0x3C + i.val) 1
    s := Vector.ofFn fun (i : Fin 32) => if i.val = 0 then 0 else BitVec.ofNat 64 (n (0x40 + 8 * (i.val - 1)) 8)
    sFull := BitVec.ofNat 32 (n 0x138 8 + 1)
    v := Vector.ofFn fun (i : Fin 32) => BitVec.ofNat 128 (n (0x140 + 16 * i.val) 16)
    vFull := BitVec.ofNat 32 (n 0x340 4), mFull := BitVec.ofNat 8 (n 0x344 1)
    p := Vector.ofFn fun (i : Fin 8) => if i.val = 0 then 0 else BitVec.ofNat 16 (n (0x348 + 2 * (i.val - 1)) 2)
    m := Vector.ofFn fun (i : Fin 8) => BitVec.ofNat 128 (n (0x360 + 16 * i.val) 16)
    g := Vector.ofFn fun (i : Fin 8) => segClean (BitVec.ofNat 128 (n (0x3E0 + 16 * i.val) 16))
    tr := { cause := BitVec.ofNat 64 (n 0x460 8) &&& tcauseMask, pc := BitVec.ofNat 64 (n 0x468 8), addr := BitVec.ofNat 64 (n 0x470 8)
            status := BitVec.ofNat 64 (n 0x478 8) &&& tstatusMask, aerr := BitVec.ofNat 64 (n 0x480 8), vec := BitVec.ofNat 64 (n 0x488 8)
            vseg := segClean (BitVec.ofNat 128 (n 0x490 16)) }
    fpend := fp, fmtword := BitVec.ofNat 32 (field (n 0x4A0 8) 19 29 * 8)
    sErr := BitVec.ofNat 32 (n 0x4A8 4), vErr := BitVec.ofNat 32 (n 0x4AC 4) }

/-! ### Region records (18:R287) -/

/-- Words equal to `x` at the head of a list, at most `n`. -/
def runOf (x : Nat) : List Nat → Nat → Nat
  | [], _ => 0
  | _, 0 => 0
  | y :: r, n + 1 => if y = x then 1 + runOf x r n else 0

/-- Words of a literal: up to a zero or the start of a run, at most `n`. -/
def litOf : List Nat → Nat → Nat
  | [], _ => 0
  | _, 0 => 0
  | x :: r, n + 1 => if x = 0 ∨ r.head? = some x then 0 else 1 + litOf r n

/-- The deterministic encoder: one token per step, `fuel` bounds the steps. -/
def encTokens (ws : List Nat) : Nat → List Byte
  | 0 => []
  | fuel + 1 =>
    match ws with
    | [] => []
    | x :: _ =>
      let r := runOf x ws 64
      if x = 0 then leBytes 1 (r - 1) ++ encTokens (ws.drop r) fuel
      else if 2 ≤ r then leBytes 1 (64 + (r - 1)) ++ leBytes 8 x ++ encTokens (ws.drop r) fuel
      else
        let n := litOf ws 64
        leBytes 1 (128 + (n - 1)) ++ (ws.take n).flatMap (leBytes 8) ++ encTokens (ws.drop n) fuel

/-- The words of a token stream; none where it is malformed. -/
def decTokens (b : List Byte) : Nat → Option (List Nat)
  | 0 => none
  | fuel + 1 =>
    match b with
    | [] => some []
    | t :: r =>
      let c := t.toNat % 64 + 1
      match t.toNat / 64 with
      | 0 => (decTokens r fuel).map (List.replicate c 0 ++ ·)
      | 1 => if r.length < 8 then none else (decTokens (r.drop 8) fuel).map (List.replicate c (leNat (r.take 8)) ++ ·)
      | 2 =>
        if r.length < 8 * c then none
        else (decTokens (r.drop (8 * c)) fuel).map ((List.range c).map (fun i => leNat ((r.drop (8 * i)).take 8)) ++ ·)
      | _ => none

/-- The encoder always writes a literal of at least one word. -/
def padTo8 (b : List Byte) : List Byte := b ++ zeros ((8 - b.length % 8) % 8)

/-- A region record: number, store, full bits of a scratchpad region, words. -/
def regionBytes (num : Nat) (acc : Bool) (full : List Bool) (ws : List Nat) : List Byte :=
  let tk := encTokens ws 512
  let map := if acc then [] else leBytes 64 (full.foldr (fun b n => ofBool b + 2 * n) 0)
  padTo8 (leBytes 2 num ++ leBytes 1 (ofBool acc) ++ leBytes 1 0 ++ leBytes 2 tk.length ++ leBytes 2 0 ++ map ++ tk)

/-- A region as a record gives it. -/
structure Region where
  num : Nat
  acc : Bool
  full : List Bool
  words : List Nat
  deriving DecidableEq, Repr

/-- The record at the head of some bytes, and what follows it. -/
def readRegion (b : List Byte) : Option (Region × List Byte) :=
  let n (o k : Nat) : Nat := leNat ((b.drop o).take k)
  let acc := n 2 1 == 1
  let tlen := n 4 2
  let mlen := if acc then 0 else 64
  let len := 8 + mlen + tlen
  let padded := (len + 7) / 8 * 8
  if b.length < padded ∨ 1 < n 2 1 ∨ n 3 1 ≠ 0 ∨ n 6 2 ≠ 0 then none
  else if ((b.drop len).take (padded - len)).any (· != 0) then none
  else match decTokens ((b.drop (8 + mlen)).take tlen) 513 with
    | none => none
    | some ws =>
      if ws.length ≠ 512 then none
      else
        let m := n 8 64
        some (⟨n 0 2, acc, (List.range 512).map fun i => m / 2 ^ i % 2 == 1, ws⟩, b.drop padded)

def readRegions (b : List Byte) : Nat → Option (List Region × List Byte)
  | 0 => some ([], b)
  | k + 1 => match readRegion b with
    | none => none
    | some (r, rest) => (readRegions rest k).map fun x => (r :: x.1, x.2)

/-! ### Tile images (18:R286) -/

def latchBytes (l : Nat) (x : Latch) : List Byte :=
  padTo8 (leBytes 1 l ++ leBytes 1 x.ty.toNat ++ leBytes 2 x.m ++ leBytes 2 x.k ++ leBytes 2 0 ++ x.data ++ x.scales)

/-- The latch at the head of some bytes, and what follows it. -/
def readLatch (b : List Byte) : Option (Nat × Latch × List Byte) :=
  let n (o k : Nat) : Nat := leNat ((b.drop o).take k)
  let ty := BitVec.ofNat 5 (n 1 1)
  let d := bytesOf ty (n 2 2 * n 4 2)
  let sc := if isMx ty then n 2 2 * n 4 2 / 32 else 0
  let padded := (8 + d + sc + 7) / 8 * 8
  if b.length < padded ∨ 1 < n 0 1 ∨ n 6 2 ≠ 0 then none
  else some (n 0 1, ⟨ty, n 2 2, n 4 2, (b.drop 8).take d, (b.drop (8 + d)).take sc⟩, b.drop padded)

def readLatches (b : List Byte) : Nat → Option (List (Nat × Latch))
  | 0 => if b.isEmpty then some [] else none
  | k + 1 => match readLatch b with
    | none => none
    | some (l, x, rest) => (readLatches rest k).map fun y => (l, x) :: y

namespace State

/-- The words and full bits of a region of a virtual tile. -/
def regionOf (s : State) (part vt r : Nat) : List Byte :=
  let acc := decide (512 ≤ r)
  let num := r % 512
  let base := (if acc then asBase part vt else spBase part vt) + num * 4096
  regionBytes num acc ((List.range 512).map fun i => s.feFull (base + 8 * i)) ((List.range 512).map fun i => s.loadNat (base + 8 * i) 8)

/-- The image of a tile (18:R286), with the IV and tag as given. -/
def tileBytes (s : State) (part vt : Nat) (iv tag : List Byte) : List Byte :=
  let x := s.vtile part vt
  let sp := x.dirty.filter (· < 512)
  let as := x.dirty.filter (512 ≤ ·)
  let ls := x.latches.toList.zipIdx.filterMap fun e => e.1.map fun l => (e.2, l)
  let body := (x.dirty.flatMap (s.regionOf part vt)) ++ ls.flatMap fun e => latchBytes e.1 e.2
  leBytes 2 0x5C02 ++ leBytes 2 (ls.foldl (fun n e => n + 2 ^ e.1) 0) ++ leBytes 4 (64 + body.length) ++ leBytes 2 vt
    ++ leBytes 2 sp.length ++ leBytes 2 as.length ++ leBytes 2 0 ++ x.sems.toList.flatMap (leBytes 2) ++ tag ++ iv ++ leBytes 4 0
    ++ body

/-- Seal an image under a world's sealing key with the next IV. -/
def sealTile (s : State) (part vt : Nat) : List Byte × State :=
  let w := s.worldOfPart part
  let (n, s) := s.nextIv w
  let iv := leBytes 12 n
  (withTag (s.worldKey w "seal") iv (s.tileBytes part vt iv (zeros 16)) 32, s)

end State

/-- A tile image taken apart, where its form holds. -/
structure TileImage where
  vt : Nat
  sems : Vector Nat 8
  regions : List Region
  latches : List (Nat × Latch)
  deriving DecidableEq, Repr

def readTile (b : List Byte) : Option TileImage :=
  let n (o k : Nat) : Nat := leNat ((b.drop o).take k)
  let nl := popCount (n 2 2) 2
  if n 0 2 ≠ 0x5C02 ∨ 4 ≤ n 2 2 ∨ n 4 4 ≠ b.length ∨ n 14 2 ≠ 0 ∨ n 60 4 ≠ 0 then none
  else match readRegions (b.drop 64) (n 10 2 + n 12 2) with
    | none => none
    | some (rs, rest) =>
      if (rs.take (n 10 2)).any (·.acc) ∨ (rs.drop (n 10 2)).any (!·.acc) then none
      else (readLatches rest nl).map fun ls => ⟨n 8 2, Vector.ofFn fun (i : Fin 8) => n (16 + 2 * i.val) 2, rs, ls⟩

namespace State

/-- Load a tile image into its virtual tile: absent regions are zero and full, restored ones dirty (18:R286). -/
def loadTile (s : State) (part : Nat) (x : TileImage) : State :=
  let sp := spBase part x.vt
  let as := asBase part x.vt
  let m := memClear (memClear s.mem sp (sp + 2 ^ 21)) as (as + 2 ^ 20)
  let fe := s.feEmpty.filter fun a => !(decide (sp ≤ a) && decide (a < sp + 2 ^ 21))
  let s := { s with mem := m, feEmpty := fe }
  let s := s.modVTile part x.vt fun v => { v with
    dirty := [], sems := x.sems
    latches := x.latches.foldl (fun l e => l.setIfInBounds e.1 (some e.2)) (Vector.replicate 2 none) }
  x.regions.foldl (fun s r =>
    let base := (if r.acc then as else sp) + r.num * 4096
    let s := s.store base (r.words.flatMap (leBytes 8))
    r.full.zipIdx.foldl (fun s f => if f.1 || r.acc then s else s.setFe (base + 8 * f.2) false) s) s

/-- What a slot of the partition on a tile does not hold (18:R282, code 0x04): a task other than the executing one, or a
command. -/
def tileBusy (s : State) (part tile me : Nat) : Bool :=
  (s.slots.any fun e => tileOf (coreOf e.1) == tile && e.2.part == part && e.1 != me)
    || (s.tile tile).queues.toList.any fun q => q.any fun c => c.part == part

end State

end Sys2Proof.Machine
end

