-- ==== Sys2Proof/Machine/Traps.lean ====
section
/-! DEFINITION. What is due at a boundary: trap entry, quarantine, breakpoints (17:R271 to R276, R403, R404, 27:R378). -/

namespace Sys2Proof.Machine

namespace State

/-! ### Trap entry (17:R272, R273) -/

/-- The cause that is taken first (assumption 55, DEDUCED). -/
def firstDue (t : Task) : Option Due :=
  let l := t.due.filter fun d => !d.freezes
  (l.find? fun d => d.cause == cDELIVERY_ERROR).orElse fun _ =>
    (l.find? fun d => d.cause == cSEM_OVERFLOW).orElse fun _ => l.head?

/-- Take the first cause that is due at the current slot. A cause of the same code is the same one; a cause of the instruction
that waits is raised again when it is reissued (17:R272). -/
def takeDue (s : State) : State :=
  let t := s.task
  match firstDue t with
  | none => s
  | some d =>
    let late := d.cause == cDELIVERY_ERROR || d.cause == cSEM_OVERFLOW
    let rest := t.due.filter fun x => x.freezes || (x.cause != d.cause && x.cause == cSEM_OVERFLOW)
    let addr := if d.cause == cDELIVERY_ERROR then t.tr.aerr else d.addr
    let sub := if d.cause == cDELIVERY_ERROR then t.errSub else d.sub
    (s.setTask { t with due := rest }).trap { cause := d.cause, detail := d.detail, seg := d.seg, addr := addr, sub := sub, async := late }

/-- The first cause that is due at a slot is taken (17:R272). -/
def entryAt (s : State) (key : Nat) : State :=
  if (s.taskAt key).stopped then s else ((s.at_ key).takeDue).at_ s.cur

/-! ### Retained SRAM and the completion ring (17:R274, R275) -/

def retainedUse (s : State) : Nat :=
  ((s.mgmt.retained.map List.length).sum) + (s.parts.map fun (e : Nat × Partition) => (e.2.qheld.map List.length).sum).sum
    + ((s.dbg.tephra.map fun t => 256 + 65696 * t.cores.length + t.sig.length).getD 0)

def retainedRoom (s : State) (n : Nat) : Bool := decide (s.retainedUse + n ≤ Config.retainedBytes)

/-- Post a quarantine record; while the ring is full it is held, and nothing passes it (17:R275; assumption 57, DESIGN CHOICE). -/
def postRecord (s : State) (part : Nat) (rec : List Byte) : State :=
  match s.partOf? part with
  | none => s
  | some p =>
    let now := if p.qheld.isEmpty then p.cring.bind fun b => s.ringPut part b rec else none
    match now with
    | some (s, _) => s
    | none =>
      if p.cring.isSome && s.retainedRoom rec.length then s.modPart part fun p => { p with qheld := p.qheld ++ [rec] }
      else s.logPut 4 p.world rec

/-- Post the held records a ring has room for, in order. -/
def postQheld (s : State) (part : Nat) : Nat → State
  | 0 => s
  | n + 1 =>
    match s.partOf? part with
    | none => s
    | some p =>
      match p.qheld, p.cring with
      | r :: l, some b =>
        match s.ringPut part b r with
        | none => s
        | some (s, _) => postQheld (s.modPart part fun p => { p with qheld := l }) part n
      | _, _ => s

/-! ### Quarantine (17:R274, R403, R404) -/

/-- The sealed image of a context. -/
def sealed (s : State) (t : Task) (cause : BitVec 6) (iv : List Byte) : List Byte :=
  let gen := ((s.capsule? t.part t.capid).map (·.bodygen)).getD 0
  let plain := slotBytes t gen [] [] (zeros 12) (zeros 16)
  let aad := leBytes 2 0x5C03 ++ leBytes 1 cause.toNat ++ leBytes 1 0 ++ leBytes 4 (0x30 + plain.length) ++ wordBytes t.gtid
  let x := Crypto.gcmSeal (s.worldKey (s.worldOfPart t.part) "seal") iv aad plain
  aad ++ iv ++ leBytes 4 0 ++ x.2 ++ x.1

/-- The fault of a supervisor access of Caldera or the device, with its proposed cause; a page whose home is the host is not mapped for
it (19:R304; assumption 52, DEDUCED). -/
def vaFault (s : State) (part : Nat) (e : VaFail) : State := s.partFault part (e.why.getD cPAGE_UNMAPPED) e.va

/-- Write an image or report to the next free units of the quarantine area: its address, where it fits and its pages map. A
page that does not map is a supervisor fault of the partition (17:R404, 19:R304). -/
def toArea (s : State) (part : Nat) (b : List Byte) : Option Nat × State :=
  match s.partOf? part with
  | none => (none, s)
  | some p =>
    let n := (b.length + 4095) / 4096
    let a := field p.qarea.toNat 12 40 * 4096 + p.qnext * 4096
    if p.qnext + n ≤ field p.qarea.toNat 0 12 + 1 then
      match s.vaWrite part a b with
      | .ok s => (some a, s.modPart part fun p => { p with qnext := p.qnext + n })
      | .error e => (none, s.vaFault part e)
    else (none, s)

/-- A quarantine record (17:R275). -/
def quarRecord (t : Task) (cause : BitVec 6) (world : BitVec 4) (lost fatal : Bool) (len addr now : Nat) : List Byte :=
  wordBytes t.gtid ++ leBytes 1 cause.toNat ++ leBytes 1 world.toNat
    ++ leBytes 1 (packFields [(1, ofBool t.gang.isSome), (1, ofBool lost), (1, ofBool fatal)]) ++ leBytes 1 0
    ++ leBytes 4 len ++ leBytes 8 addr ++ leBytes 8 now

/-- Mark the rest of a gang: its quarantine is the whole gang's (17:R274). -/
def markGang (s : State) (t : Task) (d : Due) : State :=
  match s.gangOf? t with
  | none => s
  | some g => (g.members.filter (· != t.gtid)).foldl (fun s m =>
      s.modTask m fun x => if x.due.any Due.freezes then x else { x with due := x.due ++ [d] }) s

/-- Freeze a context that has stopped: its gang is marked, its image is sealed into the area, its record is posted. -/
def freeze (s : State) (t : Task) (cause : BitVec 6) : State :=
  let w := s.worldOfPart t.part
  let fatal := t.due.any fun d => d.cause == cause && d.detail == 1
  let s := s.markGang t { cause := cause, detail := ofBool fatal, cycle := s.cycle }
  let (n, s) := s.nextIv w
  let img := s.sealed t cause (leBytes 12 n)
  let r := s.toArea t.part img
  let s := match r.1 with
    | some _ => r.2
    | none => if r.2.retainedRoom img.length then { r.2 with mgmt := { r.2.mgmt with retained := r.2.mgmt.retained ++ [img] } } else r.2
  s.postRecord t.part (quarRecord t cause w r.1.isNone fatal (if r.1.isSome then img.length else 0) (r.1.getD 0) s.cycle)

/-- Quarantine the task of a slot; it retires as through a trap. -/
def quarantineTask (s : State) (key : Nat) (cause : BitVec 6) : State :=
  match mapGet s.slots key with
  | none => s
  | some t =>
    let s := (s.freeze t cause).record key 0x5 1 t.gtid (packFields [(34, t.resumePoint.toNat % 2 ^ 32), (6, cause.toNat)])
    s.retire key cause.toNat

/-- Quarantine every context of a world, wherever it is, with the fatal cause they are marked with (17:R276). -/
def quarantineWorld (s : State) (w : BitVec 4) : State :=
  let mine (t : Task) : Bool := s.worldOfPart t.part == w
  let here_ := (s.slots.filter fun e => mine e.2)
  let away := s.everyTask.filter fun t => mine t && (s.keyOf? t.gtid).isNone
  match (here_.map (·.2) ++ away).findSome? fun t => t.due.find? Due.freezes with
  | none => s
  | some d =>
    let s := here_.foldl (fun s e => s.quarantineTask e.1 d.cause) s
    away.foldl (fun s t => (s.freeze t d.cause).ended t (t.home * 16)) s

/-- A context at firmware privilege, or with an SC operation announced, has no boundary yet (18:R281, 07:R128). -/
def atBoundary (s : State) (t : Task) : Bool := t.fwCall.isNone && !(s.net.scOps.any fun o => o.owner == t.gtid)

/-! ### Breakpoints (27:R378) -/

/-- Every breakpoint that matches the fetch at a slot acts; the fetch does not match again. -/
def breakAt (s : State) (key : Nat) : State :=
  let t := s.taskAt key
  let hits := match s.codeOf? t with
    | none => []
    | some c => s.breakHits t c.capid t.pc.toNat
  if hits.isEmpty then s
  else
    let s := s.putTask key { t with skipBreak := true }
    let at_ : Match := ⟨t.gtid, t.part, key, coreOf key, (standsAt t).toNat, none⟩
    hits.foldl (fun s b => s.onMatch at_ cBREAK_ADDR b.action b.trigId b.trigAction true) s

end State

def execTrapEntry (key : Nat) (s : State) : Out := .next (s.entryAt key)

def execQuarantine (key : Nat) (cause : BitVec 6) (s : State) : Out :=
  .next (
    let t := s.taskAt key
    if (t.due.any fun d => d.freezes && d.cause == cause) && s.atBoundary t then s.quarantineTask key cause else s)

def execBreakAddr (key : Nat) (s : State) : Out := .next (s.breakAt key)

end Sys2Proof.Machine
end

