-- ==== Sys2Proof/Machine/Context.lean ====
section
/-! DEFINITION. Saving and restoring contexts and tiles, and `halt` (18:R282 to R288, R292, 21:R336, R337). -/

namespace Sys2Proof.Machine

/-- How a save ends. -/
inductive SaveOut
  | saved (s : State) (len : Nat)
  | wait (s : State)                    -- the target has no boundary yet, or what its save waits for is not over
  | gone (s : State)                    -- the target retired at the boundary
  | failed (s : State) (e : VaFail)     -- the image could not be written
  deriving DecidableEq, Repr

/-- What Caldera does with a request: it answers, it waits, or it refuses a page that cannot be returned (14:R261). -/
inductive AskOut
  | reply (w : Word) (s : State)
  | wait (s : State)
  | refuse
  deriving DecidableEq, Repr

namespace State

/-! ### Saving a slot (18:R283) -/

/-- A semaphore waiter that is one of these commands. -/
def semWaiterIn (cs : List Cmd) (key : Nat) : SemWaiter → Bool
  | .task _ => false
  | .cmd o => cs.any fun d => d.part * 1024 + d.vtile == key && d.order == o

/-- A pool waiter that is one of these commands. -/
def poolWaiterIn (cs : List Cmd) : PoolWaiter → Bool
  | .task _ => false
  | .cmd tile o => cs.any fun d => tileOf d.core == tile && d.order == o

/-- Commands leave their queues and the waiters of semaphores and pools; the cycles a matrix command has waited for its token count
(05:R95). -/
def takeCmds (s : State) (part : Nat) (cs : List Cmd) : State :=
  let stay (tile : Nat) (q : List Cmd) : List Cmd := q.filter fun c => !(cs.any fun d => tileOf d.core == tile && d.order == c.order)
  let stayS (k : Nat) (l : List SemWaiter) : List SemWaiter := l.filter fun w => !(semWaiterIn cs k w)
  let stayP (l : List PoolWaiter) : List PoolWaiter := l.filter fun w => !(poolWaiterIn cs w)
  let inTile (e : Nat × Tile) : Nat × Tile := (e.1, { e.2 with queues := e.2.queues.map (stay e.1) })
  let inSems (e : Nat × VTile) : Nat × VTile := (e.1, { e.2 with waiters := e.2.waiters.map (stayS e.1) })
  let inPools (e : Nat × Pool) : Nat × Pool := (e.1, { e.2 with waiters := stayP e.2.waiters })
  let s := cs.foldl (fun s c => s.putCmdTerms (tileOf c.core) c (s.waitTerms c)) s
  let s := { s with tiles := s.tiles.map inTile, vtiles := s.vtiles.map inSems }
  s.modPart part fun p => { p with pools := p.pools.map inPools }

/-- Commands go to the tile that backs their virtual tile, in their order (18:R288). -/
def giveCmds (s : State) (key : Nat) (cs : List Cmd) : State :=
  cs.foldl (fun s c =>
    let tile := (((s.partOf? c.part).bind fun p => mapGet p.vmap c.vtile)).getD (tileOf (coreOf key))
    let c := { c with order := (s.tile tile).accepted, core := coreOf key, waitFrom := none }
    let q := CmdWord.queue c.word
    s.modTile tile fun t => { t with
      accepted := t.accepted + 1
      queues := t.queues.setIfInBounds q ((t.queues.toList[q]?.getD []) ++ [c]) }) s

/-- The task of a slot stops for a save, at its next boundary. -/
def stopForSave (s : State) (key : Nat) : State :=
  let t := s.taskAt key
  if t.draining.isSome || t.fwCall.isSome then s else s.putTask key { t with draining := some s.cycle }

/-- A task that has stopped may be saved: every SC operation its core had announced has taken effect (07:R128), and the stores it had
queued are performed (06:R108). -/
def saveReady (s : State) (key : Nat) (t : Task) : Bool :=
  match t.draining with
  | none => false
  | some d => !(s.net.scOps.any fun o => coreOf o.key == coreOf key && decide (o.cycle ≤ d))
      && !(s.net.accs.any fun a => a.owner == t.gtid && a.pending && !a.op.reads && a.queue?.isSome)

/-- A `ctxrest` of a task that is pre-empted before it is served is withdrawn: it issues again on restore (22:R340). -/
def withdrawRest (s : State) (g : Word) : State :=
  let unserved (a : Asked) : Bool := a.gtid == g && a.reply.isNone && match a.ask with
    | .ctxrest _ _ => true
    | _ => false
  { s with cald := { s.cald with asked := s.cald.asked.filter fun a => !unserved a } }

/-- What is due at the boundary of a save comes first: a quarantine, else the entry of a trap, that of a fetch beyond the text among them
(17:R272, R273, 20:R324; assumption 96, DEDUCED). -/
def beforeSave (s : State) (key : Nat) : State :=
  let t := s.taskAt key
  match t.due.find? Due.freezes with
  | some d => s.quarantineTask key d.cause
  | none =>
    let s := s.entryAt key
    match mapGet s.slots key with
    | none => s
    | some t =>
      if t.due.isEmpty && s.fetchTurn t == .bound then ((s.at_ key).trap { cause := cFETCH_BOUND, addr := t.pc }).at_ s.cur else s

/-- Save the task of a slot that has stopped: what is due there comes first, tokens go back, commands that have not started leave, the image
is written and the slot freed. An instruction writes the image through the port of its cluster (18:R282). -/
def saveStopped (s : State) (key va : Nat) (byCaldera hold : Bool) : SaveOut :=
  let s := s.beforeSave key
  match mapGet s.slots key with
  | none => .gone s
  | some t =>
    let w := s.worldOfPart t.part
    let (n, s) := s.nextIv w
    let iv := leBytes 12 n
    let cs := s.unstarted t.gtid
    let gen := ((s.capsule? t.part t.capid).map (·.bodygen)).getD 0
    let img := withTag (s.worldKey w "seal") iv (slotBytes t gen (s.pendingOf t.part t.gtid) cs iv (zeros 16)) 0x20
    match if byCaldera then s.vaWrite t.part va img else s.portWrite t.part (coreOf key) va img with
    | .error e => .failed s e
    | .ok s1 =>
      let s1 := (s1.dropTokens t (coreOf key)).takeCmds t.part cs
      let s1 := ((((s1.recordSched key 4 0 t.gtid).freeSlot key).unwait t.part t.gtid).moveFence t.gtid).withdrawRest t.gtid
      let v : Saved := { gtid := t.gtid, capid := t.capid, task := { t with draining := none }, va := va, byCaldera := byCaldera, hold := hold
                         iv := n, cmds := cs, since := t.draining.getD s1.cycle, core := if byCaldera then some (coreOf key) else none }
      .saved (s1.modPart t.part fun p => { p with saved := p.saved ++ [v] }) img.length

/-- Save the task of a slot: it stops first, and its save waits for what 06:R108 and 07:R128 have it wait for. -/
def saveSlot (s : State) (key va : Nat) (byCaldera hold : Bool) : SaveOut :=
  let s := s.stopForSave key
  if s.saveReady key (s.taskAt key) then s.saveStopped key va byCaldera hold else .wait s

/-! ### Restoring a slot (18:R288, 21:R337) -/

/-- A task whose unit no core of the partition admits any more takes its home from where it is put (02:R26). -/
def rehome (s : State) (part key : Nat) (t : Task) : Task :=
  match s.partOf? part with
  | none => t
  | some p => if p.cores.any (s.admits t) then t else { t with home := coreOf key }

/-- The resume point is a boundary the image's status admits (21:R337). -/
def resumeOk (s : State) (t : Task) : Bool :=
  match (s.codeOf? t).bind fun c => c.boundary? t.resumePoint.toNat with
  | none => false
  | some b => !t.fpend || b.kind == 2

/-- Every delivery of an image is one the package still owes, or one that has landed since (18:R405). -/
def deliveriesKnown (s : State) (part : Nat) (b : List Byte) : Bool :=
  let g : Word := BitVec.ofNat 64 (leNat ((b.drop 8).take 8))
  let have_ := s.pendingOf part g
  (List.range (leNat ((b.drop 0x4B0).take 2))).all fun i =>
    let d := (b.drop (0x4B8 + 16 * i)).take 16
    (have_.any fun x => x.bytes == d) || s.net.landed.any fun l => l.owner == g &&
      (match l.dst with
        | .s r => leNat (d.take 2) == 256 * r.toNat
        | .v r => leNat (d.take 2) == 1 + 256 * r.toNat
        | .m _ => false)

/-- The task of a GTID is in a slot, a deque or a steal. -/
def alive (s : State) (g : Word) : Bool :=
  (s.keyOf? g).isSome || (s.deques.any fun e => e.2.entries.any fun t => t.gtid == g) || s.cald.steals.any fun x => x.task.gtid == g

/-- Put a saved context into a slot: it takes its tokens back, its commands return to their queues, its entry leaves the table,
and it re-evaluates its wait. -/
def putBack (s : State) (key : Nat) (v : Saved) (t : Task) : State :=
  let s := s.takeTokens key t
  let s := s.modPart t.part fun p => { p with saved := p.saved.filter fun x => x.gtid != v.gtid }
  let s := { s with cald := { s.cald with
    work := s.cald.work.filter fun w => w.work != Work.saved v.gtid
    asked := s.cald.asked.map fun (a : Asked) => if a.gtid == v.gtid then { a with key := key } else a } }
  (s.occupy key { t with owed := false, bodygen := ((s.capsule? t.part t.capid).map (·.bodygen)).getD t.bodygen } 5).giveCmds key v.cmds

/-- What restoring a saved context gives: a code, or wait, or the task as it will run. -/
inductive RestOut
  | code (c : Nat)
  | wait (s : State)
  | go (v : Saved) (t : Task)
  deriving DecidableEq, Repr

/-- The body a task runs is current; else its build is started (21:R336). -/
def bodyFor (s : State) (part capid : Nat) : Bool × State :=
  match s.capsule? part capid with
  | none => (false, s)
  | some c => if c.current then (true, s) else (false, s.modCapsule part capid Capsule.startBuild)

/-- Check an image against the table and the slot it is to take (18:R288). A task whose unit does not admit the slot answers as one whose
tile does not (assumption 90, DESIGN CHOICE: the spec gives no code for it). -/
def restoreCheck (s : State) (part key : Nat) (b : List Byte) : RestOut :=
  let iv := (b.drop 0x30).take 12
  let g : Word := BitVec.ofNat 64 (leNat ((b.drop 8).take 8))
  if !slotFormOk b || !tagOk (s.worldKey (s.worldOfPart part) "seal") iv b 0x20 || !s.deliveriesKnown part b then .code 5
  else match ((s.partOf? part).map (·.saved)).bind fun l => l.find? fun v => v.gtid == g && v.iv == leNat iv with
    | none => .code 6
    | some v =>
      let t := s.rehome part key (v.task.ofImage b)
      let t := if v.go then { t with stopped := false } else t
      if s.alive g then .code 6
      else if !s.admits t (coreOf key) then .code 7
      else if !s.resumeOk t then .code 5
      else
        let (ok, s) := s.bodyFor part t.capid
        if ok && s.tokensFor key t then .go v t else .wait s

/-- The image at an address as an instruction of a core reads it, through the port of its cluster (18:R282). -/
def portSlotImage (s : State) (part core va : Nat) : Except VaFail (List Byte × State) :=
  match s.portRead part core va 8 with
  | .error e => .error e
  | .ok (h, s) => s.portRead part core va (max 8 (min (leNat ((h.drop 4).take 4)) 16383))

/-- The image at an address as Caldera reads it; its length comes from its header. -/
def readSlotImage (s : State) (part va : Nat) : Except VaFail (List Byte) :=
  match s.vaRead part va 8 with
  | .error e => .error e
  | .ok h => s.vaRead part va (max 8 (min (leNat ((h.drop 4).take 4)) 16383))

/-! ### The four instructions (18:R282) -/

/-- The code and length a context instruction answers. -/
def ctxWord (code len : Nat) : Word := word64 [(8, code), (24, 0), (32, if code = 0 then len else 0)]

/-- Park the current task until Caldera answers (row 12). -/
def ask (s : State) (d : Reg) (len : Nat) (q : Ask) (reply : Option Word) : State :=
  let t := s.task
  let a : Asked := { key := s.cur, gtid := t.gtid, part := t.part, dst := d, len := len, ask := q, reply := reply }
  let s := { s with cald := { s.cald with asked := s.cald.asked ++ [a] } }
  s.park 12 .event

/-- The segment of an image (18:R282). -/
def imageSeg (s : State) (g : BitVec 3) (n : Nat) (need : Need) : Except Exc Nat :=
  match s.check g 0 n need [4] 1 [] with
  | .error e => .error { e with addr := 0 }
  | .ok (_, a) => .ok a

/-- The slot a context instruction names: its key, where the partition owns it and it is not the executing one. -/
def namedSlot (s : State) (a : Asked) (slot : Word) : Option Nat :=
  match s.partOf? a.part with
  | none => none
  | some p =>
    let k := coreOf a.key * 16 + slot.toNat
    if slot.toNat < 16 && ownsSlot p k && k != a.key then some k else none

/-- The directory still moves a page of the image. -/
def pageWaits (s : State) (a : Asked) : Bool := a.page.any fun v => (s.dirEntry a.part v).waiters.any fun w => w.gtid == a.gtid

/-- An image cannot be reached: where a page of it has its home in the host the request waits for the directory; else code 0x08 (18:R282,
19:R306). -/
def imageFails (s : State) (a : Asked) (acc : Nat) (e : VaFail) : AskOut :=
  match e.why with
  | some _ => .reply (ctxWord 8 0) s
  | none =>
    let s := s.dirAttach a.part e.va ⟨a.gtid, acc, none, none, e.va⟩
    .wait { s with cald := { s.cald with asked := s.cald.asked.map fun x => if x == a then { a with page := some (e.va / 4096) } else x } }

/-- A save of a slot. Where its image cannot be written, the target goes on as though it had never stopped. -/
def ctxsaveStep (s : State) (a : Asked) (slot : Word) (va : Nat) : AskOut :=
  match s.namedSlot a slot with
  | none => .reply (ctxWord 2 0) s
  | some k =>
    match mapGet s.slots k with
    | none => .reply (ctxWord 1 0) s
    | some t =>
      if t.gang.isSome then .reply (ctxWord 3 0) s
      else match s.saveSlot k va false false with
        | .wait s => .wait s
        | .saved s len => .reply (ctxWord 0 len) s
        | .gone s => .reply (ctxWord 1 0) s
        | .failed s e => match e.why with
          | none => s.imageFails a 2 e
          | some _ => .reply (ctxWord 8 0) (s.unstop k)

/-- Another restore that was issued earlier and waits names this image, or the slot. -/
def earlierRest (s : State) (a : Asked) (same : Asked → Word → Nat → Bool) : Bool :=
  (s.cald.asked.takeWhile fun x => x != a).any fun x => x.reply.isNone && match x.ask with
    | .ctxrest y v => same x y v
    | _ => false

/-- A restore of a slot. The image and its entry in the table are looked at before the slot (18:R288); of several restores of one image the
first that issued goes ahead (22:R340), and one that names the slot earlier has claimed it. A core that a resize takes away waits to lose
its tasks first (20:R325). -/
def ctxrestStep (s : State) (a : Asked) (slot : Word) (va : Nat) : AskOut :=
  match s.namedSlot a slot, s.partOf? a.part with
  | some k, some p =>
    if losing p (coreOf k) || s.earlierRest a (fun x _ v => x.part == a.part && v == va) then .wait s
    else match s.portSlotImage a.part (coreOf a.key) va with
      | .error e => s.imageFails a 1 e
      | .ok (b, s) =>
        let taken := (mapGet s.slots k).isSome || s.kernelIn k || s.stealTo k
          || s.earlierRest a fun x y _ => coreOf x.key * 16 + y.toNat == k
        match s.restoreCheck a.part k b with
        | .code c => .reply (ctxWord (if taken && c == 7 then 1 else c) 0) s
        | .wait s' => if taken then .reply (ctxWord 1 0) s else .wait s'
        | .go v t => if taken then .reply (ctxWord 1 0) s else .reply (ctxWord 0 b.length) (s.putBack k v t)
  | _, _ => .reply (ctxWord 2 0) s

/-- A save of the executing tile (18:R286). -/
def tileSaveStep (s : State) (a : Asked) (va : Nat) : AskOut :=
  let core := coreOf a.key
  if s.tileBusy a.part (tileOf core) a.key then .reply (ctxWord 4 0) s
  else
    let (img, s) := s.sealTile a.part ((s.vtileOf? a.part core).getD 0)
    match s.portWrite a.part core va img with
    | .error e => s.imageFails a 2 e
    | .ok s => .reply (ctxWord 0 img.length) s

/-- The image of a tile at an address, at most the longest an image can be. -/
def readTileImage (s : State) (part core va : Nat) : Except VaFail (List Byte × State) :=
  match s.portRead part core va 64 with
  | .error e => .error e
  | .ok (h, s) => s.portRead part core va (max 64 (min (leNat ((h.drop 4).take 4)) 3407872))

def tileRestStep (s : State) (a : Asked) (va : Nat) : AskOut :=
  let core := coreOf a.key
  if s.tileBusy a.part (tileOf core) a.key then .reply (ctxWord 4 0) s
  else match s.readTileImage a.part core va with
    | .error e => s.imageFails a 1 e
    | .ok (b, s) =>
      match readTile b with
      | none => .reply (ctxWord 5 0) s
      | some x =>
        if !tagOk (s.worldKey (s.worldOfPart a.part) "seal") ((b.drop 48).take 12) b 32 then .reply (ctxWord 5 0) s
        else if s.vtileOf? a.part core != some x.vt then .reply (ctxWord 7 0) s
        else .reply (ctxWord 0 b.length) (s.loadTile a.part x)

def ctxOp (s : State) (f : Form) (d : Reg) (srcs : List (RegId × Bool)) (g : BitVec 3) (n : Nat) (need : Need) (q : Task → Nat → Ask) :
    State :=
  s.privileged (s.plain f [] srcs fun t =>
    match s.imageSeg g n need with
    | .error e => s.trap e
    | .ok va => s.toWrite [.s d] (s.ask d f.bytes (q t va) none))

/-! ### `halt` (18:R292) -/

/-- Let a stopped task go, or go for one instruction. A parked instruction is issued again, unless it waits for a reply or has been
announced (27:R377, R381, 07:R128). -/
def goTask (s : State) (g : Word) (step : Bool) : State :=
  let woke := match s.keyOf? g with
    | none => none
    | some k => match (s.taskAt k).run with
      | .resident => none
      | .parked row _ => if s.rewaits (s.taskAt k) = .resident then some (k, row) else none
  let s := s.modTask g fun t => { t with stopped := false, stepping := step, run := s.rewaits t }
  match woke with
  | none => s
  | some (k, row) => s.recordSched k 2 row g

/-- A stop message is on its way to this task. -/
def stopComing (s : State) (g : Word) : Bool := s.dbg.stops.any fun x => x.2.gtid == g

/-- The others of them than the executing task. -/
def inCluster (s : State) (part cluster : Nat) (me : Word) : List Word :=
  ((s.clusterTasks part cluster).map (·.gtid)).filter (· != me)

/-- Issue the stops or goes of an operation: the code where it is known at once. -/
def haltStart (s : State) (t : Task) (g : Word) (op : Nat) : Option Nat × State :=
  let cl := clusterOf (coreOf s.cur)
  if op = 3 then
    (none, ((s.inCluster t.part cl t.gtid).filter fun h => !((s.running? t.part h).any (·.stopped))).foldl (fun s h => s.sendStop h cHALT_REQ) s)
  else if op = 4 then
    (some 0, ((s.inCluster t.part cl t.gtid).filter fun h => (s.running? t.part h).any (·.stopped)).foldl (fun s h => s.goTask h false) s)
  else if g = t.gtid then (some 4, s)
  else match s.running? t.part g with
    | none => (some 1, s)
    | some x =>
      if op = 0 then if x.stopped then (some 3, s) else (none, s.sendStop g cHALT_REQ)
      else if !x.stopped then (some 2, s)
      else (some 0, s.goTask g (op == 2))

/-- The stops a `halt` sent have all taken effect. -/
def haltDone (s : State) (a : Asked) (g : Word) (op : Nat) : Bool :=
  if op = 3 then !((s.inCluster a.part (clusterOf (coreOf a.key)) a.gtid).any s.stopComing) else !s.stopComing g

end State

def execCtxsave (f : Form) (d a : Reg) (ea : Bool) (g : BitVec 3) (s : State) : Out :=
  .next (s.ctxOp f d [(.s a, ea)] g 16384 { wr := true } fun t va => .ctxsave (t.getS a) va)

def execCtxsaveTile (f : Form) (d : Reg) (g : BitVec 3) (s : State) : Out :=
  .next (s.ctxOp f d [] g 3407872 { wr := true } fun _ va => .ctxsaveTile va)

def execCtxrest (f : Form) (d a : Reg) (ea : Bool) (g : BitVec 3) (s : State) : Out :=
  .next (s.ctxOp f d [(.s a, ea)] g 16384 { rd := true } fun t va => .ctxrest (t.getS a) va)

def execCtxrestTile (f : Form) (d : Reg) (g : BitVec 3) (s : State) : Out :=
  .next (s.ctxOp f d [] g 3407872 { rd := true } fun _ va => .ctxrestTile va)

def execHalt (f : Form) (d a : Reg) (ea : Bool) (op : BitVec 3) (s : State) : Out :=
  .next (s.privileged (
    if 5 ≤ op.toNat then s.trapC cRESERVED_FIELD
    else s.plain f [.s d] [(.s a, ea)] fun t =>
      let g := t.getS a
      let r := s.haltStart t g op.toNat
      r.2.ask d f.bytes (.halt g op.toNat) (r.1.map (BitVec.ofNat 64))))

end Sys2Proof.Machine
end

