-- ==== Sys2Proof/Machine/Packet.lean ====
section
/-! DEFINITION. Launch and unload packets: layout, checks and acceptance (20:R312 to R314, 21:R334, R336). -/

namespace Sys2Proof.Machine

/-- A packet of 256 bytes (20:R313). -/
structure Packet where
  type : Nat
  flags : Nat
  ctl : Nat
  nroot : Nat
  capid : Nat
  entry : Nat
  vtile0 : Nat
  doneaddr : Nat
  args : List Nat
  seg : Vector VWord 8
  doneval : Nat
  rest : Nat
  deriving DecidableEq, Repr

namespace Packet

def read (b : List Byte) : Packet :=
  let n (o k : Nat) : Nat := leNat ((b.drop o).take k)
  { type := n 0 1, flags := n 1 1, ctl := n 2 1, nroot := n 4 4, capid := n 8 8, entry := n 16 4, vtile0 := n 20 4
    doneaddr := n 24 8, args := (List.range 4).map fun i => n (32 + 8 * i) 8
    seg := Vector.ofFn fun (i : Fin 8) => BitVec.ofNat 128 (n (64 + 16 * i.val) 16), doneval := n 192 8, rest := n 200 56 }

def gang (p : Packet) : Bool := p.flags % 2 == 1
def tile (p : Packet) : Bool := p.flags / 2 % 2 == 1
def argidx (p : Packet) : Bool := p.flags / 4 % 2 == 1
def serial (p : Packet) : Bool := p.flags / 8 % 2 == 1
def tper2 (p : Packet) : Bool := p.flags / 16 % 2 == 1
def domain (p : Packet) : BitVec 2 := BitVec.ofNat 2 p.ctl
def prio (p : Packet) : Nat := p.ctl / 16 % 4

/-- The virtual tile of root i. -/
def vtile (p : Packet) (i : Nat) : Nat := p.vtile0 + (if p.tper2 then i / 2 else i)

/-- A field outside its range, or a reserved one set (20:R313, R314). -/
def malformed (p : Packet) : Bool :=
  p.type != 1 || decide (32 ≤ p.flags) || p.ctl / 4 % 4 != 0 || decide (64 ≤ p.ctl) || p.nroot == 0 || decide (16384 < p.nroot)
    || (!p.tile && p.vtile0 != 0) || p.doneaddr % 8 != 0 || decide (2 ^ 52 ≤ p.doneaddr) || p.rest != 0

/-- An unload packet is zero but for its `type`, `capid` and `status` (21:R334). -/
def unloadBad (b : List Byte) : Bool := ((b.drop 1).take 2 ++ (b.drop 4).take 4 ++ b.drop 16).any (· != 0)

end Packet

namespace State

/-- Slots a partition owns in all. -/
def slotCount (p : Partition) : Nat := p.cores.length * popCount p.slots.toNat 16

/-- The status of a launch packet: the lowest that applies (20:R314). `step` says that the step queue launches it (assumption 64, DEDUCED). -/
def packetStatus (s : State) (part q : Nat) (k : Packet) : Nat :=
  match s.partOf? part with
  | none => 0x80
  | some p =>
    let c := p.capsules.find? fun c => c.capid == k.capid
    let e := c.bind fun c => c.entries.find? fun e => e.off == k.entry
    if k.malformed then 0x80
    else if k.gang && decide (slotCount p < k.nroot) then 0x81
    else if (k.tile && decide (s.tilesOf part ≤ k.vtile (k.nroot - 1))) || (e.any fun e => e.bound != k.tile) then 0x82
    else if c.isSome && e.isNone then 0x83
    else if !(c.any fun c => c.holds q && c.code != 4 && decide (c.featver ≤ featverMax)) then 0x84
    else if k.seg.toList.any fun g => (segWriteBad (s.tilesOf part) g).isSome then 0x85
    else 1

/-- Root i of a packet, before it is placed (20:R313). -/
def rootTask (part : Nat) (k : Packet) (id : Nat) (step : Option Nat) (sched : Bool) (i : Nat) : Task :=
  let args := if k.argidx then k.args.take 3 ++ [(k.args[3]?.getD 0 + i) % 2 ^ 64] else k.args
  { freshTask 0 part k.capid 0 k.entry args k.seg with
    domain := k.domain, prio := k.prio, launch := some id, root := true, step := step, sched := sched
    tile := if k.tile then some (k.vtile i) else none
    gang := if k.gang then some id else none, grank := if k.gang then i else 0xFFFF, gsize := if k.gang then k.nroot else 0 }

/-- Supervisor capsules run their tasks at supervisor privilege (17:R265; assumption 17, DESIGN CHOICE). -/
def taskPriv (s : State) (part capid : Nat) : Priv :=
  if ((s.partOf? part).bind (·.supCap)) == some capid then .supervisor else .task

/-- Queue the roots of an accepted packet. Its number gives its launch queue back: number mod 8. -/
def acceptLaunch (s : State) (part q : Nat) (k : Packet) (step : Option Nat) (sched : Bool) : Nat × State :=
  let id := s.cald.idCtr * 8 + q
  let pv := s.taskPriv part k.capid
  let ts := (List.range k.nroot).map fun i => { rootTask part k id step sched i with priv := pv }
  let mk (w : Work) : QueuedWork := { part := part, prio := k.prio, requeued := false, since := s.cycle, work := w }
  let items := if k.gang then [mk (.gang q id ts)] else ts.map fun t => mk (.root q id t)
  let l : Launch := { id := id, part := part, queue := q, domain := k.domain, live := k.nroot, doneaddr := k.doneaddr
                      doneval := BitVec.ofNat 64 k.doneval }
  let s := { s with cald := { s.cald with
    idCtr := s.cald.idCtr + 1, work := s.cald.work ++ items, launches := s.cald.launches ++ [l] } }
  (id, s.modCapsule part k.capid Capsule.startBuild)

/-- The base of a launch queue's ring. -/
def launchRing (s : State) (part q : Nat) : Option Nat := (s.partOf? part).bind fun p => mapGet p.launchRings q

/-- Every root of the queue's previous packet has retired (20:R314). -/
def queueDone (s : State) (part q : Nat) : Bool :=
  match (s.partOf? part).bind fun p => mapGet p.lastPacket q with
  | none => true
  | some id => !(s.cald.launches.any fun l => l.id == id && decide (0 < l.live))

/-- A packet of a queue has been taken: its launch, where it made one. -/
def noteLast (s : State) (part q : Nat) (id : Option Nat) : State :=
  s.modPart part fun p => { p with lastPacket := match id with
    | some n => mapSet p.lastPacket q n
    | none => mapErase p.lastPacket q }

/-- Packets of a queue are taken: its partition runs, and its virtual device, where some are bound, is the resident one
(20:R317; assumption 32, DESIGN CHOICE: device d owns launch queue d). -/
def deviceOn (p : Partition) (q : Nat) : Bool := p.vdevs.isEmpty || p.resident == some q

def takesPackets (s : State) (part q : Nat) : Bool :=
  match s.partOf? part with
  | none => false
  | some p => !p.stopped && deviceOn p q

/-- The packet at the head of a launch queue, with the address of its status byte and the ring's `head`. -/
def headPacket (s : State) (part q : Nat) : Option (List Byte × Nat × Nat × Nat) :=
  match s.launchRing part q with
  | none => none
  | some base => (s.ringHead part base 256).map fun r =>
      (r.1, ringAt base + 64 + r.2 % ringSize base * 256 + 3, base, r.2)

/-- Write a packet's status, then advance `head`. -/
def answerPacket (s : State) (part : Nat) (at_ base h st : Nat) : State :=
  ((s.writeVa part at_ (leBytes 1 st)).getD s).ringTake part base h

/-- Take a launch packet (20:R314). -/
def takeLaunch (s : State) (part q : Nat) : State :=
  match s.headPacket part q with
  | none => s
  | some (b, at_, base, h) =>
    let k := Packet.read b
    if k.type = 2 ∨ !s.takesPackets part q ∨ (k.type = 1 ∧ k.serial ∧ !s.queueDone part q) then s
    else
      let st := s.packetStatus part q k
      let s := if st = 1 then
          let r := s.acceptLaunch part q k none false
          r.2.noteLast part q (some r.1)
        else s.noteLast part q none
      s.answerPacket part at_ base h st

/-- The step queue runs on this capsule's reference in queue 0 (21:R334). -/
def stepHolds (s : State) (part q capid : Nat) : Bool :=
  q == 0 && (((s.partOf? part).bind (·.stepq)).any fun x => (Packet.read x.root).capid == capid)

/-- Take an unload packet (21:R334). -/
def takeUnload (s : State) (part q : Nat) : State :=
  match s.headPacket part q with
  | none => s
  | some (b, at_, base, h) =>
    let k := Packet.read b
    if k.type ≠ 2 ∨ !s.takesPackets part q then s
    else
      let c := s.capsule? part k.capid
      let s := s.noteLast part q none
      if Packet.unloadBad b then s.answerPacket part at_ base h 0x80
      else if s.stepHolds part q k.capid || !(c.any fun c => c.holds q) then s.answerPacket part at_ base h 0x84
      else (s.modCapsule part k.capid fun c => c.dropRef q).answerPacket part at_ base h 1

/-- Every root has retired: the done word is stored (20:R314). -/
def launchEnds (s : State) (id : Nat) : State :=
  match s.cald.launches.find? fun l => l.id == id with
  | none => s
  | some l =>
    if l.live ≠ 0 then s
    else
      let s := if l.doneaddr = 0 then s else (s.writeVa l.part l.doneaddr (leBytes 8 l.doneval.toNat)).getD s
      { s with cald := { s.cald with launches := s.cald.launches.filter fun x => x.id != id } }

/-- The ring lies in host memory, so that it is re-read (25:R365). -/
def ringInHost (s : State) (part base : Nat) : Bool :=
  match s.walkRange part (ringAt base) 1 16 with
  | .ok (p :: _) => decide (hostBase ≤ p.addr)
  | _ => false

/-- A ring a partition's Caldera consumes: launch queues 0 to 7, and 8 for the admission ring. -/
def consumedRing (s : State) (part ring : Nat) : Option Nat :=
  if ring < 8 then s.launchRing part ring else if ring = 8 then ((s.partOf? part).bind (·.stepq)).map (·.adm) else none

/-- Consume a record of a ring: a packet, or the news of a pending admission, for which the step queue waits (20:R318). -/
def consume (s : State) (part ring : Nat) : State :=
  if ring < 8 then
    match s.headPacket part ring with
    | none => s
    | some (b, _, _, _) => if (Packet.read b).type = 2 then s.takeUnload part ring else s.takeLaunch part ring
  else
    match (s.partOf? part).bind (·.stepq) with
    | none => s
    | some x =>
      match s.ringState part x.adm with
      | some (_, t) => s.modPart part fun p => { p with stepq := some { x with admTail := t } }
      | none => s

end State

def execLaunchPacket (part q : Nat) (s : State) : Out := .next (s.takeLaunch part q)
def execUnloadPacket (part q : Nat) (s : State) : Out := .next (s.takeUnload part q)
def execLaunchDone (launch : Nat) (s : State) : Out := .next (s.launchEnds launch)

/-- Caldera sees the tail of a ring it watches change. -/
def execRingTailWatch (part ring : Nat) (s : State) : Out :=
  .next (match s.consumedRing part ring with
    | none => s
    | some base => if s.ringInHost part base then s else s.consume part ring)

end Sys2Proof.Machine
end

