-- ==== Sys2Proof/Machine/Caldera.lean ====
section
/-! DEFINITION. Caldera: placement, gangs and their reservations, virtual devices, pre-emption and restore (20:R315 to R317,
R320 to R324, 16:R264). -/

namespace Sys2Proof.Machine

/-- Cycles of 1 ms. -/
def cyclesPerMs : Nat := 1000 * cyclesPerUs

namespace State

/-! ### Choosing slots (20:R315) -/

/-- Of the keys a number is given for, the group with most entries; ties go to the lower number. -/
def fullest (f : Nat → Nat) (free : List Nat) : Option Nat :=
  free.foldl (fun m k =>
    let n := (free.filter fun j => f j == f k).length
    match m with
    | none => some (f k)
    | some g =>
      let mg := (free.filter fun j => f j == g).length
      if mg < n ∨ (mg = n ∧ f k < g) then some (f k) else some g) none

/-- The lowest free slot of the core with most, in the cluster with most, in the die with most. -/
def pickUnbound (free : List Nat) : Option Nat :=
  match fullest (fun k => dieOf (coreOf k)) free with
  | none => none
  | some d =>
    let l := free.filter fun k => dieOf (coreOf k) == d
    match fullest (fun k => clusterOf (coreOf k)) l with
    | none => none
    | some c =>
      let l := l.filter fun k => clusterOf (coreOf k) == c
      match fullest coreOf l with
      | none => none
      | some c => (l.filter fun k => coreOf k == c).foldl (fun m k => some (match m with
        | none => k
        | some x => min x k)) none

/-- The lowest slot of a core among some. -/
def onCore (free : List Nat) (core : Nat) : Option Nat :=
  (free.filter fun k => coreOf k == core).foldl (fun m k => some (match m with
    | none => k
    | some x => min x k)) none

/-- A slot for a root: of its tile's stage core or else compute core, or where R315 sends an unbound one. -/
def pickFor (p : Partition) (free : List Nat) (t : Task) : Option Nat :=
  match t.tile with
  | none => pickUnbound free
  | some vt => match mapGet p.vmap vt with
    | none => none
    | some tile => (onCore free (tile * 2)).orElse fun _ => onCore free (tile * 2 + 1)

/-- Slots for every member of a gang, in rank order; two tile tasks of one coordinate take the stage and the compute core
(16:R264). -/
def pickGang (p : Partition) (free : List Nat) (ts : List Task) : Option (List Nat) :=
  match ts with
  | [a, b] =>
    if a.tile.isSome && a.tile == b.tile then
      match (a.tile.bind (mapGet p.vmap)) with
      | none => none
      | some tile => match onCore free (tile * 2), onCore free (tile * 2 + 1) with
        | some x, some y => some [x, y]
        | _, _ => none
    else pickEach p free ts
  | _ => pickEach p free ts
where
  pickEach (p : Partition) (free : List Nat) : List Task → Option (List Nat)
    | [] => some []
    | t :: r => match pickFor p free t with
      | none => none
      | some k => (pickEach p (free.filter (· != k)) r).map (k :: ·)

/-- The free slots of a partition, but for those a reservation holds. -/
def freeSlots (s : State) (part : Nat) (p : Partition) : List Nat :=
  (slotsOf p).filter fun k => s.slotFree part k && !s.reservedFor k

/-! ### Placing -/

/-- The tile image of a task's device goes back before a task of that device takes a slot of the tile (20:R317, R323; assumption 60,
DESIGN CHOICE). -/
def tileFirst (s : State) (part key : Nat) (t : Task) : State :=
  match s.vtileOf? part (coreOf key) with
  | none => s
  | some vt =>
    let d := s.deviceIn part t.launch
    match mapGet (s.vtile part vt).saved d with
    | none => s
    | some b =>
      let s := match readTile b with
        | none => s
        | some x => s.loadTile part x
      s.modVTile part vt fun v => { v with saved := mapErase v.saved d }

/-- Place a task in a slot; a root of a launch is created now (02:R18, R26). -/
def placeTask (s : State) (key : Nat) (g : Option Word) (t : Task) : State :=
  let t := { t with gtid := g.getD t.gtid }
  let s := s.tileFirst t.part key t
  let gen := ((s.capsule? t.part t.capid).map (·.bodygen)).getD 0
  s.occupy key { t with home := if g.isSome then coreOf key else t.home, bodygen := gen } 0

def dropWork (s : State) (w : QueuedWork) : State := { s with cald := { s.cald with work := s.cald.work.erase w } }

/-- Place the members of a gang: consecutive numbers from the die of rank 0 (02:R18). -/
def placeGang (s : State) (part id : Nat) (ts : List Task) (keys : List Nat) : State :=
  let die := dieOf (coreOf (keys.head?.getD 0))
  let r := ts.foldl (fun (acc : List Word × State) _ => let x := acc.2.newGtid die; (acc.1 ++ [x.1], x.2)) ([], s)
  let g : Gang := { part := part, size := ts.length, live := List.range ts.length, members := r.1 }
  let s := { r.2 with cald := { r.2.cald with gangs := mapSet r.2.cald.gangs id g } }
  (ts.zip (keys.zip r.1)).foldl (fun s x => s.placeTask x.2.1 (some x.2.2) x.1) s

/-- The launch of an item of work; none for what Caldera put back itself. -/
def launchOf (w : QueuedWork) : Option Nat := match w.work with
  | .root q _ t => if q < 8 then t.launch else none
  | .gang _ _ ts => ts.head?.bind (·.launch)
  | _ => none

/-- The virtual device an item belongs to. -/
def itemDevice (s : State) (w : QueuedWork) : Option Nat := match w.work with
  | .root _ _ t => t.launch.map queueOf
  | .gang q _ _ => some q
  | .saved g => ((((s.partOf? w.part).map (·.saved)).getD []).find? fun v => v.gtid == g).bind fun v => v.task.launch.map queueOf
  | .kernel _ _ _ => none

/-- The item at the head of one priority's packets: the packet already begun, else the first of the next queue in turn. -/
def packetHead (s : State) (part prio : Nat) (l : List QueuedWork) : Option QueuedWork :=
  let last := mapGet s.cald.lastQueue (part * 4 + prio)
  match l.find? fun w => launchOf w == last && last.isSome with
  | some w => some w
  | none =>
    let q0 := (last.map queueOf).getD 7
    ((List.range 8).map fun i => (q0 + 1 + i) % 8).findSome? fun q =>
      l.find? fun w => (launchOf w).map queueOf == some q

def isKernel (w : QueuedWork) : Bool := match w.work with
  | .kernel _ _ _ => true
  | _ => false

/-- The items of a partition that may be placed: those of its resident device, where devices are bound. -/
def items (s : State) (part : Nat) (p : Partition) : List QueuedWork :=
  s.cald.work.filter fun w => w.part == part && !w.held && match s.itemDevice w with
    | none => true
    | some d => p.vdevs.isEmpty || p.resident == some d

/-- Items that wait for no other: engine kernels (20:R320), and a gang that holds a reservation (20:R316). During a resize only kernels
are placed (20:R325; assumption 62, DEDUCED). -/
def urgent (s : State) (part : Nat) (p : Partition) : List QueuedWork :=
  (s.items part p).filter isKernel
    ++ if p.resizing.isSome then [] else (s.items part p).filter fun w => !w.reserved.isEmpty

/-- The rest in Caldera's order: by priority, requeued work first, then the packet whose turn it is (20:R315; assumption 58, DEDUCED). -/
def placeOrder (s : State) (part : Nat) (p : Partition) : List QueuedWork :=
  if p.resizing.isSome then []
  else
    let mine := (s.items part p).filter fun w => !isKernel w
    [3, 2, 1, 0].flatMap fun n =>
      (mine.filter fun w => w.prio == n && w.requeued) ++ (s.packetHead part n (mine.filter fun w => w.prio == n && !w.requeued)).toList

/-- The free slots a task may return to: those its unit and its tile admit (02:R26, 20:R323). -/
def homeSlots (s : State) (part : Nat) (t : Task) (free : List Nat) : List Nat :=
  free.filter fun k => s.admits (s.rehome part k t) (coreOf k)

/-- A slot that an engine kernel may take (20:R320). -/
def kernelSlot (s : State) (p : Partition) (tile key : Nat) : Bool :=
  clusterOf (coreOf key) == clusterOf (tile * 2) && (mapGet s.slots key).isNone && !s.kernelIn key && !s.stealTo key && !s.claimed key
    && !losing p (coreOf key)

/-- The slots an item's reservation holds, once they are free; those `f` finds without one. -/
def reservedOr (s : State) (part : Nat) (w : QueuedWork) (f : Option (List Nat)) : Option (List Nat) :=
  if w.reserved.isEmpty then f else if w.reserved.all fun k => s.slotFree part k then some w.reserved else none

/-- Where an item goes, if it fits now. -/
def fits (s : State) (part : Nat) (p : Partition) (w : QueuedWork) : Option (List Nat) :=
  let free := s.freeSlots part p
  match w.work with
  | .kernel tile _ _ => (((slotsOf p).filter (s.kernelSlot p tile)).foldl (fun m k => some (match m with
      | none => k
      | some x => min x k)) none).map fun k => [k]
  | .root q _ t =>
    if !(s.bodyFor part t.capid).1 then none
    else if q < 8 then (pickFor p free t).map fun k => [k]
    else (s.homeSlots part t free).head?.map fun k => [k]
  | .gang _ _ ts =>
    if !(ts.all fun t => (s.bodyFor part t.capid).1) then none else s.reservedOr part w (pickGang p free ts)
  | .saved _ => none

/-- A saved gang comes back whole; other saved tasks alone (20:R323). Held ones wait for `requeue`. -/
def savedGroup (s : State) (part : Nat) (p : Partition) (v : Saved) : Option (List Saved) :=
  match v.task.gang with
  | none => if v.hold then none else some [v]
  | some id =>
    let l := p.saved.filter fun x => x.task.gang == some id
    let live := ((mapGet s.cald.gangs id).map (·.live.length)).getD 0
    if l.length == live && (l.all fun x => x.byCaldera && !x.hold && x.task.part == part) then some l else none

/-- The first free slot of each. -/
def eachHome (s : State) (part : Nat) (free : List Nat) : List Saved → Option (List Nat)
  | [] => some []
  | v :: r => match (s.homeSlots part v.task free).head? with
    | none => none
    | some k => (eachHome s part (free.filter (· != k)) r).map (k :: ·)

/-- Slots for a group that is to be restored. A gang of two tile tasks of one coordinate comes back as it was first placed, and the one that is
left of such a gang to the kind of core it had (16:R264; assumption 98, DEDUCED). -/
def restoreSlots (s : State) (part : Nat) (p : Partition) (free : List Nat) (l : List Saved) : Option (List Nat) :=
  match l with
  | [a, b] =>
    if a.task.gsize == 2 && a.task.tile.isSome && a.task.tile == b.task.tile then
      match a.task.tile.bind (mapGet p.vmap) with
      | none => none
      | some tile =>
        let swap := decide (b.task.grank < a.task.grank)
        let at_ (v : Saved) (other : Bool) : Option Nat := onCore (s.homeSlots part v.task free) (tile * 2 + ofBool other)
        match at_ a swap, at_ b (!swap) with
        | some x, some y => some [x, y]
        | _, _ => none
    else s.eachHome part free l
  | [v] =>
    if v.task.gsize == 2 && v.task.tile.isSome then
      match v.task.tile.bind (mapGet p.vmap) with
      | none => none
      | some tile => (onCore (s.homeSlots part v.task free) (tile * 2 + v.task.home % 2)).map fun k => [k]
    else s.eachHome part free l
  | _ => s.eachHome part free l

/-- Hold saved tasks whose images do not check, and take them out of the queue. -/
def holdSaved (s : State) (part : Nat) (l : List Saved) : State :=
  let mine (g : Word) : Bool := l.any fun v => v.gtid == g
  let out (w : QueuedWork) : Bool := match w.work with
    | .saved g => mine g
    | _ => false
  let s := s.modPart part fun q => { q with saved := q.saved.map fun (x : Saved) => if mine x.gtid then { x with hold := true } else x }
  { s with cald := { s.cald with work := s.cald.work.filter fun w => !out w } }

/-- What reading a saved task's image back into a slot gives; none where it cannot be read. -/
def recheck (s : State) (part key : Nat) (v : Saved) : Option RestOut :=
  ((s.readSlotImage part v.va).toOption).map (s.restoreCheck part key)

/-- Restore one saved task, if it may be now. -/
def restoreOne (s : State) (part key : Nat) (v : Saved) : Option State :=
  match s.recheck part key v with
  | some (.go v t) => some ((s.tileFirst part key t).putBack key v t)
  | _ => none

/-- Restore a group whole (20:R323). Where an image does not check, the group is held (assumption 56, DESIGN CHOICE). -/
def restoreGroup (s : State) (part : Nat) (l : List Saved) (ks : List Nat) : Option State :=
  let fails (x : Saved × Nat) : Bool := match s.recheck part x.2 x.1 with
    | some (.code _) => true
    | _ => false
  if (l.zip ks).any fails then some (s.holdSaved part l)
  else (l.zip ks).foldl (fun (m : Option State) x => m.bind fun s => s.restoreOne part x.2 x.1) (some s)

/-- Restore the saved task, or gang, of an item, where it fits. -/
def restoreItem (s : State) (part : Nat) (p : Partition) (w : QueuedWork) : Option State :=
  match w.work with
  | .saved g =>
    match p.saved.find? fun v => v.gtid == g with
    | none => some (s.dropWork w)
    | some v => (s.savedGroup part p v).bind fun l =>
        (s.reservedOr part w (s.restoreSlots part p (s.freeSlots part p) l)).bind fun ks => s.restoreGroup part l ks
  | _ => none

/-- Place an item that fits. -/
def placeItem (s : State) (part : Nat) (w : QueuedWork) (ks : List Nat) : State :=
  let s := s.dropWork w
  let s := match launchOf w with
    | some l => { s with cald := { s.cald with lastQueue := mapSet s.cald.lastQueue (part * 4 + w.prio) l } }
    | none => s
  let key := ks.head?.getD 0
  match w.work with
  | .kernel tile _ order => s.modCmd tile order fun c => { c with kernel := some (some key) }
  | .root q _ t =>
    if q < 8 then
      let (g, s) := s.newGtid (dieOf (coreOf key))
      s.placeTask key (some g) t
    else s.placeTask key none (s.rehome part key t)
  | .gang _ id ts => s.placeGang part id ts ks
  | .saved _ => s

/-- An item of a gang: while it does not fit, work behind it in its priority waits (20:R315). -/
def isGang (p : Partition) (w : QueuedWork) : Bool := match w.work with
  | .gang _ _ _ => true
  | .saved g => p.saved.any fun v => v.gtid == g && v.task.gang.isSome
  | _ => false

/-- The state with an item placed or restored, if it fits. -/
def tryItem (s : State) (part : Nat) (p : Partition) (w : QueuedWork) : Option State :=
  match s.fits part p w with
  | some ks => some (s.placeItem part w ks)
  | none => s.restoreItem part p w

/-- The first item that fits and the state with it placed. A task that does not fit is passed over; a gang holds its priority back. -/
def firstFit (s : State) (part : Nat) (p : Partition) (held : List Nat) : List QueuedWork → Option (QueuedWork × State)
  | [] => none
  | w :: r =>
    if held.contains w.prio then firstFit s part p held r
    else match s.tryItem part p w with
      | some t => some (w, t)
      | none => firstFit s part p (if isGang p w then w.prio :: held else held) r

/-- What Caldera places next. -/
def nextItem (s : State) (part : Nat) : Option (QueuedWork × State) :=
  match s.partOf? part with
  | none => none
  | some p => ((s.urgent part p).findSome? fun w => (s.tryItem part p w).map fun t => (w, t)).orElse fun _ =>
      s.firstFit part p [] (s.placeOrder part p)

def isSaved (w : QueuedWork) : Bool := match w.work with
  | .saved _ => true
  | _ => false

/-- Place the next item, unless it is a saved task. -/
def placeOne (s : State) (part : Nat) : State :=
  match s.nextItem part with
  | some (w, t) => if isSaved w then s else t
  | none => s

/-- Restore the next item, if it is a saved task. -/
def restoreFirst (s : State) (part : Nat) : State :=
  match s.nextItem part with
  | some (w, t) => if isSaved w then t else s
  | none => s

/-- The body of a task that waits for Caldera's restore, saved or taken from a deque, is built first where it is not current; no build starts
while an activation waits (21:R333, R336). -/
def restoreBuilds (s : State) (part : Nat) : State :=
  match s.partOf? part with
  | none => s
  | some p =>
    if s.mgmt.activationDue then s
    else
      let s := (p.saved.filter fun v => v.byCaldera && !v.hold).foldl (fun s v => (s.bodyFor part v.capid).2) s
      (s.cald.work.filterMap fun w => match w.work with
        | .root q _ t => if w.part == part && 8 ≤ q && !w.held then some t else none
        | _ => none).foldl (fun s t => (s.bodyFor part t.capid).2) s

/-! ### Idle slots and steals (02:R27 to R29) -/

/-- Pop the bottom entry, or the aged top entry, of the own core's deque. -/
def popOwn (s : State) (part key : Nat) : Option State :=
  let c := coreOf key
  match s.agedTop part c, s.deque part c with
  | some t, l => some (((s.setDeque part c l.dropLast).tileFirst part key t).occupy key t 0)
  | none, t :: r => some (((s.setDeque part c r).tileFirst part key t).occupy key t 0)
  | none, [] => none

/-- An idle slot's search (02:R27): its own deque, then steals; the placements of step 5 are Caldera's. -/
def searchSlot (s : State) (key : Nat) : State :=
  match s.idlePart key with
  | none => s
  | some part =>
    match s.popOwn part key, s.partOf? part with
    | some s', _ => s'
    | none, some p => (s.stealFor p part key).getD s
    | none, none => s

/-- A steal ends with the task in the thief's slot. -/
def stealEnds (s : State) (key : Nat) : State :=
  match s.cald.steals.find? fun x => x.key == key with
  | none => s
  | some x =>
    let s := { s with cald := { s.cald with steals := s.cald.steals.filter fun y => y.key != key } }
    (s.tileFirst x.task.part key x.task).occupy key x.task (if x.stolen then 7 else 0)

/-! ### Gang reservations (20:R316) -/

/-- Slots that a gang could be placed in: those of the partition that are not about to be lost (20:R325). -/
def gangSlots (s : State) (p : Partition) : List Nat :=
  (slotsOf p).filter fun k => !losing p (coreOf k) && !s.mgmt.barred.getLsbD (dieOf (coreOf k))

/-- A reservation that names a slot which is no longer to be had is dropped; its gang chooses again (20:R316, R325). -/
def dropReserved (s : State) (part : Nat) (p : Partition) : State :=
  let bad (w : QueuedWork) : Bool := w.part == part && w.reserved.any fun k => !(s.gangSlots p).contains k
  { s with cald := { s.cald with work := s.cald.work.map fun w => if bad w then { w with reserved := [], reservedAt := none } else w } }

/-- The first gang that has waited 1 ms takes the set it would use if every slot were free. -/
def reserveGang (s : State) (part : Nat) : State :=
  match s.partOf? part with
  | none => s
  | some p =>
    let s := s.dropReserved part p
    if (s.cald.work.any fun w => w.part == part && !w.reserved.isEmpty) then s
    else
      let late (w : QueuedWork) : Bool := w.part == part && decide (w.since + cyclesPerMs ≤ s.cycle)
      match s.cald.work.findSome? fun w => match w.work with
        | .gang _ _ ts => if late w then (pickGang p (s.gangSlots p) ts).map fun ks => (w, ks) else none
        | .saved g => if late w && isGang p w then
            (((p.saved.find? fun v => v.gtid == g).bind (s.savedGroup part p)).bind (s.restoreSlots part p (s.gangSlots p))).map fun ks => (w, ks)
          else none
        | _ => none with
      | none => s
      | some (w, ks) => { s with cald := { s.cald with work := s.cald.work.map fun x =>
          if x == w then { x with reserved := ks, reservedAt := some s.cycle } else x } }

/-- The whole gang of a task, else the task. -/
def gangWords (s : State) (t : Task) : List Word := match s.gangOf? t with
  | none => [t.gtid]
  | some g => g.members

/-- Ask for the tasks that hold a reservation's set and have been resident 1 ms or longer, 4 ms after it was made. -/
def reservePreempt (s : State) (part : Nat) : State :=
  match s.cald.work.find? fun w => w.part == part && match w.reservedAt with
    | some c => decide (c + 4 * cyclesPerMs ≤ s.cycle)
    | none => false with
  | none => s
  | some w =>
    let old := (s.residents part).filter fun e => w.reserved.contains e.1 && decide (e.2.since + cyclesPerMs ≤ s.cycle)
    let s := { s with cald := { s.cald with work := s.cald.work.map fun x => if x == w then { x with reservedAt := none } else x } }
    let gs := (old.flatMap fun e => s.gangWords e.2).eraseDups
    if gs.isEmpty then s else s.requestPreempt part false gs

/-! ### Virtual devices (20:R317) -/

/-- The device has work: its launch queue is not empty, or it has queued, held or resident tasks; one that is being stolen is resident. -/
def deviceWork (s : State) (part : Nat) (p : Partition) (d : Nat) : Bool :=
  let mine (t : Task) : Bool := t.launch.map queueOf == some d
  (match s.launchRing part d with
    | some base => ((s.ringState part base).map (·.1)).any (0 < ·)
    | none => false)
    || (s.cald.work.any fun w => w.part == part && s.itemDevice w == some d)
    || (p.saved.any fun v => mine v.task)
    || ((s.residents part).any fun e => mine e.2)
    || (s.deques.any fun e => e.2.entries.any fun t => t.part == part && mine t)
    || s.cald.steals.any fun x => x.task.part == part && mine x.task

/-- The credits after a slice boundary and the next device (assumption 59, DESIGN CHOICE). -/
def sliceStep (s : State) (part : Nat) (p : Partition) : Map VDev × Option Nat :=
  let z : Int := p.slice * cyclesPerUs
  let withWork := p.vdevs.filter fun e => s.deviceWork part p e.1
  let sum : Int := ((withWork.map fun (e : Nat × VDev) => e.2.weight).sum : Nat)
  let upd (e : Nat × VDev) : Nat × VDev :=
    let has := s.deviceWork part p e.1
    let c := if e.2.hadWork then e.2.credit else min e.2.credit z
    let c := if has then min (c + z * e.2.weight / sum) (2 * z) else min c z
    let c := if p.resident == some e.1 then max (c - ((s.cycle - p.sliceStart : Nat) : Int)) (-2 * z) else c
    (e.1, { e.2 with credit := c, hadWork := has })
  let ds := p.vdevs.map upd
  let best := (ds.filter (·.2.hadWork)).foldl (fun (m : Option (Nat × VDev)) e => match m with
    | none => some e
    | some x => if x.2.credit < e.2.credit then some e else some x) none
  (ds, best.map (·.1))

/-- A slice has ended and no switch is under way. -/
def sliceDue (s : State) (part : Nat) (p : Partition) : Bool :=
  !p.vdevs.isEmpty && !p.switching && decide (p.sliceStart + p.slice * cyclesPerUs ≤ s.cycle) && !(s.cald.preempts.any fun x => x.part == part)

/-- Tasks of a partition in slots, in deques and on their way to a thief. -/
def liveTasks (s : State) (part : Nat) : List Task :=
  ((s.residents part).map (·.2)) ++ (s.deques.flatMap fun (e : Nat × Deque) => e.2.entries.filter (·.part == part))
    ++ (s.cald.steals.map (·.task)).filter (·.part == part)

/-- A saved task of the resident device is restored next (20:R317). -/
def restorePends (s : State) (part : Nat) : Bool := (s.nextItem part).any fun x => isSaved x.1

/-- The tasks of the old device are gone and those of the next one are back, as far as they fit; the next slice begins (20:R317). -/
def switchEnds (s : State) (part : Nat) : State :=
  if (s.cald.preempts.any fun x => x.part == part) || s.restorePends part then s
  else s.modPart part fun p => { p with switching := false, sliceStart := s.cycle }

def sliceEnds (s : State) (part : Nat) : State :=
  match s.partOf? part with
  | none => s
  | some p =>
    if p.switching then s.switchEnds part
    else if !s.sliceDue part p then s
    else
      let r := s.sliceStep part p
      let old := p.resident
      let s := s.modPart part fun p => { p with vdevs := r.1, sliceStart := s.cycle, resident := r.2.orElse fun _ => p.resident }
      if r.2.isNone || r.2 == old then s
      else
        let gs := ((s.liveTasks part).filter fun t => t.launch.map queueOf == old).map (·.gtid)
        let s := s.modPart part fun p => { p with switching := true }
        if gs.isEmpty then s else s.requestPreempt part false gs

/-! ### Pre-emption (20:R321, R322, R324) -/

/-- The lowest free place of the save area. -/
def savePlace (p : Partition) : Nat :=
  let used (i : Nat) : Bool := p.saved.any fun v => v.byCaldera && v.va == p.saveArea + 16384 * i
  p.saveArea + 16384 * (((List.range (p.saved.length + 1)).find? fun i => !used i).getD 0)

/-- A task saved by Caldera is requeued at its launch's priority, unless it is held (20:R323). -/
def requeue1 (s : State) (part : Nat) (g : Word) (prio : Nat) : State :=
  let w : QueuedWork := { part := part, prio := prio, requeued := true, since := s.cycle, work := .saved g }
  { s with cald := { s.cald with work := s.cald.work ++ [w] } }

/-- A request concerns this task. -/
def asksFor (r : Preempt) (t : Task) : Bool :=
  t.part == r.part && (r.gtids.isEmpty || r.gtids.contains t.gtid) && !r.failed.contains t.gtid

/-- The image of a task cannot be written to the save area: while the directory moves a page of the area the task stays stopped; else it resumes
as though it had never been stopped, and the request passes it over (18:R283; assumption 96, DEDUCED). -/
def saveFails (s : State) (r : Preempt) (key : Nat) (e : VaFail) : State :=
  let g := (s.taskAt key).gtid
  match e.why with
  | none =>
    let s := s.stopForSave key
    if (s.dirEntry r.part (e.va / 4096)).waiters.any (fun w => w.gtid == g) then s
    else s.dirAttach r.part e.va ⟨g, 2, none, none, e.va⟩
  | some _ =>
    let more (x : Preempt) : Preempt := if x == r then { x with failed := g :: x.failed } else x
    let s := s.unstop key
    { s with cald := { s.cald with preempts := s.cald.preempts.map more } }

/-- Save the task of a slot for a request, once it may be saved and its image can be written. -/
def preemptSlot (s : State) (r : Preempt) (key : Nat) : State :=
  let t := s.taskAt key
  match s.partOf? r.part with
  | none => s
  | some p => match s.saveSlot key (savePlace p) true r.hold with
    | .saved s _ => if r.hold then s else s.requeue1 r.part t.gtid t.prio
    | .wait s => s
    | .gone s => s
    | .failed _ e => s.saveFails r key e

/-- The stores of a task of a deque that were accepted have been performed: it may leave its core (06:R108). -/
def storesDone (s : State) (g : Word) : Bool := !(s.net.accs.any fun a => a.owner == g && a.pending && !a.op.reads && a.queue?.isSome)

/-- Save a task of a deque that `preempt` holds: in the save area, if its image can be written. -/
def holdQueued (s : State) (part : Nat) (t : Task) : Option State :=
  match s.partOf? part with
  | none => none
  | some p =>
    let w := s.worldOfPart part
    let (n, s) := s.nextIv w
    let iv := leBytes 12 n
    let gen := ((s.capsule? t.part t.capid).map (·.bodygen)).getD 0
    let img := withTag (s.worldKey w "seal") iv (slotBytes t gen (s.pendingOf t.part t.gtid) [] iv (zeros 16)) 0x20
    let va := savePlace p
    let v : Saved := { gtid := t.gtid, capid := t.capid, task := t, va := va, byCaldera := true, hold := true, iv := n, since := s.cycle }
    ((s.vaWrite part va img).toOption).map fun s => s.modPart part fun p => { p with saved := p.saved ++ [v] }

/-- Queued and yielded tasks go to Caldera's queue once their accepted stores are performed (06:R108); one that is held waits in the save
area (20:R324, 02:R30). -/
def preemptDeque (s : State) (r : Preempt) : State :=
  let l := s.deque r.part r.core
  let goes (t : Task) : Bool := asksFor r t && s.storesDone t.gtid
  let out := l.filter goes
  if out.isEmpty then s
  else
    let s := s.setDeque r.part r.core (l.filter fun t => !goes t)
    out.foldl (fun s t =>
      if r.hold then (s.holdQueued r.part t).getD (s.pushTop r.core t)
      else
        let w : QueuedWork := { part := r.part, prio := t.prio, requeued := true, since := s.cycle, work := .root 8 0 t }
        { s with cald := { s.cald with work := s.cald.work ++ [w] } }) s

/-- A steal to a slot of the core completes first (20:R324). -/
def preemptWaits (s : State) (r : Preempt) : Bool :=
  s.cald.steals.any fun x => coreOf x.key == r.core && asksFor r x.task

/-- `ms.caps.res` (03:R63). -/
def capsRes (tiles : Nat) (cores : List Nat) (slots : BitVec 16) (stk : BitVec 8) : Word :=
  word64 [(21, 0), (8, stk.toNat), (5, popCount slots.toNat 16), (4, (cores.map dieOf).eraseDups.length)
          , (8, (cores.map clusterOf).eraseDups.length), (10, tiles), (8, featverMax)]

/-- `ms.caps.io` (03:R63). -/
def capsIo (mainmem tier2 : Nat) (host : BitVec 2) (eth : BitVec 8) (fabric : BitVec 24) : Word :=
  word64 [(9, 0), (10, mainmem), (11, tier2), (2, host.toNat), (8, eth.toNat), (24, fabric.toNat)]

/-- The two words of a capability record, as the host's reply holds them (25:R372). -/
def capsReply (part : Nat) (res io : Word) : List Byte := leBytes 8 part ++ leBytes 8 res.toNat ++ leBytes 8 io.toNat

/-- The tiles that back coordinates 0, 1, …: a coordinate keeps its tile where it can (20:R325; assumption 62, DEDUCED). -/
def remap (old : Map Nat) (tiles : List Nat) : Map Nat :=
  let kept := old.filter fun e => decide (e.1 < tiles.length) && tiles.contains e.2
  let spare := tiles.filter fun t => !(kept.any fun e => e.2 == t)
  let open_ := (List.range tiles.length).filter fun i => (mapGet kept i).isNone
  (open_.zip spare).foldl (fun m e => mapSet m e.1 e.2) kept

/-- Nothing of a partition is left on the cores that a resize takes away: no task, no steal, no command of theirs (20:R322, R325). -/
def lostEmpty (s : State) (part : Nat) (p : Partition) : Bool :=
  let lost := p.cores.filter (losing p)
  !(s.slots.any fun e => e.2.part == part && lost.contains (coreOf e.1))
    && !(s.cald.steals.any fun x => x.task.part == part && lost.contains (coreOf x.key))
    && lost.all fun c => (s.tile (tileOf c)).queues.toList.all fun q => q.all fun d => d.part != part || d.core != c

/-- The TLB entries of a partition that a resize drops: those on clusters, or dies, that it does not keep (19:R297). -/
def dropTlb (part : Nat) (kept : List Nat) (m : Map (List TlbEntry)) : Map (List TlbEntry) :=
  m.map fun (e : Nat × List TlbEntry) => if kept.contains e.1 then e else (e.1, e.2.filter fun x => x.part != part)

/-- The end of a resize, once its tasks have been pre-empted and its lost cores are empty: its cores, the tiles that back its coordinates, its
TLB entries, its capability record (20:R325). A task that stays resident on a kept core runs on, over the memory of the coordinate its
tile then backs (assumption 62, DEDUCED). -/
def resizeEnds (s : State) (part : Nat) : State :=
  match s.partOf? part with
  | none => s
  | some p =>
    match p.resizing with
    | none => s
    | some cores =>
      if (s.cald.preempts.any fun x => x.part == part) || !s.lostEmpty part p then s
      else
        let vmap := remap p.vmap (cores.map tileOf).eraseDups
        let s := s.modPart part fun p => { p with
          cores := cores, vmap := vmap, resizing := none, capsRes := capsRes vmap.length cores p.slots p.stackMask }
        let s := s.answerReq 3 1 (capsReply part (capsRes vmap.length cores p.slots p.stackMask) p.capsIo)
        { s with mmu := { s.mmu with
          tlb1 := dropTlb part (cores.map clusterOf) s.mmu.tlb1, tlb2 := dropTlb part (cores.map dieOf) s.mmu.tlb2 } }

/-- A pre-emption request reaches its core: every named task stops at its next boundary and is saved, or keeps the request (20:R321). -/
def preemptArrives (s : State) (part core : Nat) : State :=
  match s.cald.preempts.find? fun r => r.part == part && r.core == core with
  | none => s
  | some r =>
    let keys := (s.slots.filter fun e => coreOf e.1 == core && asksFor r e.2).map (·.1)
    let s := (keys.foldl (fun s k => s.preemptSlot ((s.cald.preempts.find? fun x => x.part == part && x.core == core).getD r) k) s).preemptDeque r
    let r := (s.cald.preempts.find? fun x => x.part == part && x.core == core).getD r
    let left := (s.slots.any fun e => coreOf e.1 == core && asksFor r e.2) || (s.deque part core).any (asksFor r)
    if left || s.preemptWaits r then s
    else State.resizeEnds { s with cald := { s.cald with preempts := s.cald.preempts.erase r } } part

/-- A started gather or copy of a saved task that has not ended 50 µs after its save (20:R322). -/
def lateCmd (s : State) (tile q : Nat) : Option Cmd :=
  if q ≠ 1 ∧ q ≠ 2 then none
  else ((s.tile tile).queues.toList[q]?.getD []).find? fun c =>
    Cmd.running c && c.kernel.isNone && (((s.partOf? c.part).map (·.saved)).getD []).any fun v =>
      v.gtid == c.owner && v.byCaldera && decide (v.since + 50 * cyclesPerUs ≤ s.cycle)

/-- The device whose tasks a pre-emption took from a tile, where the image of that tile is still to be written and no command of the partition
is left there (20:R317, R322). -/
def tileDue (s : State) (part vt : Nat) : Option Nat :=
  match s.partOf? part with
  | none => none
  | some p => match mapGet p.vmap vt with
    | none => none
    | some tile =>
      ((p.saved.find? fun v => v.core.map tileOf == some tile).map fun v => s.deviceIn part v.task.launch).filter fun d =>
        (mapGet (s.vtile part vt).saved d).isNone && !s.tileBusy part tile (16 * 1024 * 16)

def saveTileImage (s : State) (part vt : Nat) : State :=
  match s.tileDue part vt with
  | none => s
  | some d =>
    let (img, s) := s.sealTile part vt
    let s := s.modVTile part vt fun v => { v with saved := mapSet v.saved d img }
    let left (p : Partition) (v : Saved) : Saved := if v.core.map tileOf == mapGet p.vmap vt then { v with core := none } else v
    s.modPart part fun p => { p with saved := p.saved.map (left p) }

end State

/-- An idle slot takes the yielded top entry that has waited more than 1,024 cycles (02:R27). -/
def execYieldAgeLimit (key : Nat) (s : State) : Out :=
  .next (match s.idlePart key with
    | none => s
    | some part =>
      match s.agedTop part (coreOf key) with
      | none => s
      | some t => ((s.setDeque part (coreOf key) (s.deque part (coreOf key)).dropLast).tileFirst part key t).occupy key t 0)

def execIdleSlotSearch (key : Nat) (s : State) : Out := .next (s.searchSlot key)
def execStealComplete (key : Nat) (s : State) : Out := .next (s.stealEnds key)

/-- Placement; a resize that is over ends first. -/
def execCalderaPlacement (part : Nat) (s : State) : Out := .next ((s.resizeEnds part).placeOne part)
def execCalderaRestore (part : Nat) (s : State) : Out := .next ((s.restoreBuilds part).restoreFirst part)
def execGangReservation (part : Nat) (s : State) : Out := .next (s.reserveGang part)
def execReservationPreempt (part : Nat) (s : State) : Out := .next (s.reservePreempt part)
def execSliceBoundary (part : Nat) (s : State) : Out := .next (s.sliceEnds part)
def execPreemptRequestArrival (part core : Nat) (s : State) : Out := .next (s.preemptArrives part core)

def execPreemptEngineAbort (tile q : Nat) (s : State) : Out :=
  .next (match s.lateCmd tile q with
    | none => s
    | some c => s.abortCmd tile c.order)

def execTileImageSave (part vtile : Nat) (s : State) : Out := .next (s.saveTileImage part vtile)

end Sys2Proof.Machine
end

