-- ==== Sys2Proof/Machine/Control.lean ====
section
/-! DEFINITION. Branches, calls, loops and the control minors that end, yield or wait (11:R177 to R181, R194, 13:R236). -/

namespace Sys2Proof.Machine

namespace State

/-- The offset of a branch in bytes (11:R179). -/
def branchBytes (off : BitVec 20) : Word := off.signExtend 64 * 4

/-- A register target must be a landing point of the running capsule, or nothing happens but ILLEGAL_TARGET (11:R177, R402). -/
def landing (s : State) (target : Word) (k : State) : State :=
  if ((s.codeOf? s.task).map (·.lands target)).getD false then k else s.trap { cause := cILLEGAL_TARGET, addr := target }

/-- Jump to a register target. -/
def jump (s : State) (t : Task) (target : Word) : State := s.landing target (s.branch t target)

/-- A target in the text of the running capsule is a boundary of it, or the instruction that the `fmt` of a boundary prefixes, which then
runs without a prefix (12:R201). -/
def branchOk (s : State) (target : Word) : Bool :=
  match s.codeOf? s.task with
  | none => true
  | some c => decide (c.len ≤ target.toNat) || (c.boundary? target.toNat).isSome || c.prefixed target.toNat

/-- Outside the text, the fetch at a direct target faults (11:R178). A target inside the text that no fetch reaches raises ILLEGAL_TARGET
with no effect (11:R402; assumption 79, DEDUCED). -/
def inText (s : State) (target : Word) (k : State) : State :=
  if s.branchOk target then k else s.trap { cause := cILLEGAL_TARGET, addr := target }

/-- Take a direct branch. -/
def direct (s : State) (t : Task) (target : Word) : State := s.inText target (s.branch t target)

end State

def execBr (off : BitVec 20) (g : Guard) (s : State) : Out :=
  .next (s.plainG g 4 [] [] fun t => s.direct t (t.pc + State.branchBytes off))

/-- A branch that never branches (10:R166). -/
def execNop (s : State) : Out := .next (s.plainG ⟨0, true⟩ 4 [] [] fun _ => s)

def execCall (off : BitVec 20) (g : Guard) (s : State) : Out :=
  .next (s.plainG g 4 [] [] fun t =>
    let pc := t.pc + State.branchBytes off
    s.inText pc (s.toWrite [.s 31] (s.branch (t.writeS s.cycle 31 (t.pc + 4) 1) pc)))

/-- The counter counts down and the branch is taken while it is not zero; a count of zero falls through (11:R181). -/
def execLoop (f : Form) (d : Reg) (ea : Bool) (off : BitVec 13) (s : State) : Out :=
  .next (s.plain f [.s d] [(.s d, ea)] fun t =>
    let n := t.getS d
    let t' := t.writeS s.cycle d (if n = 0 then 0 else n - 1) 1
    if n = 0 ∨ n - 1 = 0 then s.completeWith t' f.bytes
    else s.direct t' (t.pc + off.signExtend 64 * 4))

def execJr (f : Form) (a : Reg) (ea : Bool) (s : State) : Out :=
  .next (s.plain f [] [(.s a, ea)] fun t => s.jump t (t.getS a))

/-- The target is read before the link is written (11:R180). -/
def execCallr (o : UnArgs) (s : State) : Out :=
  .next (s.plain o.f [] [(.s o.a, o.ea)] fun t =>
    let pc := t.getS o.a
    s.landing pc (s.toWrite [.s o.d] (s.branch (t.writeS s.cycle o.d (t.pc + BitVec.ofNat 64 o.f.bytes) 1) pc)))

def execRet (f : Form) (ea : Bool) (s : State) : Out :=
  .next (s.plain f [] [(.s 31, ea)] fun t => s.jump t (t.getS 31))

/-- Retire the task once its outstanding work has ended; until then it stays parked in `tend` (02:R35). -/
def execTend (f : Form) (s : State) : Out :=
  .next (s.plain f [] [] fun t => if s.outstanding t.gtid then s.park 7 .drained else s.retire s.cur 0)

def execHintYield (f : Form) (s : State) : Out := .next (s.plain f [] [] fun _ => (s.complete f.bytes).hintYield)

/-- A gang member and a task whose core's deque is full stay resident (13:R236, 02:R32). -/
def execYield (f : Form) (s : State) : Out :=
  .next (s.plain f [] [] fun t =>
    if s.canYield then s.yieldTask { t with pc := t.pc + BitVec.ofNat 64 f.bytes }
    else (s.complete f.bytes).hintYield)

/-- Arrive at the gang barrier with a release, wait parked until it completes, and go on (02:R33, 13:R236). An arrival
behind an access that is not performed is held (07:R119). -/
def execGbar (f : Form) (s : State) : Out :=
  .next (s.plain f [] [] fun t =>
    match t.gang with
    | none => s.trapC cNOT_IN_GANG
    | some id =>
      if t.atBarrier then
        if t.barriers ≤ ((mapGet s.cald.gangs id).map (·.completed)).getD t.barriers then
          s.completeWith { t with atBarrier := false } f.bytes
        else s.park 6 (.barrier t.barriers)
      else
        let t := { t with atBarrier := true, barriers := t.barriers + 1 }
        let s := s.setTask t
        let s := s.afterAll t s.cur (.arrive id t.grank) (s.arriveAt id t.grank)
        if t.barriers ≤ ((mapGet s.cald.gangs id).map (·.completed)).getD 0 then
          s.completeWith { t with atBarrier := false } f.bytes
        else s.park 6 (.barrier t.barriers))

end Sys2Proof.Machine
end

