-- ==== Sys2Proof/Machine/StepQueue.lean ====
section
/-! DEFINITION. The step queue: descriptors, the step and pool instructions, admission and retirement of sequences (02:R43 to
R45, 14:R254 to R261, 20:R318, R319). -/

namespace Sys2Proof.Machine

/-- STEP_USE and STEP_INDEX share a cause (17:R270). -/
def stepUse : Exc := { cause := cSTEP }
def stepIndex : Exc := { cause := cSTEP, detail := 1 }

namespace StepQ

def pgsize (x : StepQ) : Nat := 2 ^ x.pglog
def freePages (x : StepQ) : Nat := x.npages - x.used.length

/-- The r-th free page, counted from 0. -/
def nthFree (x : StepQ) (r : Nat) : Nat := x.used.foldl (fun k u => if u ≤ k then k + 1 else k) r

/-- The page an address names, if it is an aligned page of the pool (14:R261). -/
def pageOf (x : StepQ) (a : Nat) : Option Nat :=
  if x.pool ≤ a ∧ (a - x.pool) % x.pgsize = 0 ∧ (a - x.pool) / x.pgsize < x.npages then some ((a - x.pool) / x.pgsize) else none

/-- Slots live after the step: those of the descriptor that have not been retired, and those admitted (02:R44, R45). -/
def nextLive (x : StepQ) : List Nat := (x.desc.map (·.1)).filter (fun i => !x.retired.contains i) ++ x.admitted.map (·.1)

/-- Address of a slot's page list (14:R259). -/
def listAt (x : StepQ) (slot : Nat) : Nat := x.plarea + 32768 * slot

end StepQ

namespace State

def stepq? (s : State) (part : Nat) : Option StepQ := (s.partOf? part).bind (·.stepq)
def putStepq (s : State) (part : Nat) (x : StepQ) : State := s.modPart part fun p => { p with stepq := some x }

/-- Take one free page; which one the spec leaves open (14:R261). -/
def takePage (s : State) (x : StepQ) : Nat × StepQ × State :=
  let k := x.nthFree ((Config.freeWord s.freeCtr).toNat % x.freePages)
  (x.pool + k * x.pgsize, { x with used := insNat x.used k }, s.tick)

/-! ### Reading the descriptor (14:R255, R256) -/

def descField (x : StepQ) (sel a : Nat) : Nat :=
  match sel with
  | 0 => x.stepno
  | 1 => x.desc.length
  | 2 => (x.desc.filter fun e => e.1 / 64 == a).foldl (fun n e => n + 2 ^ (e.1 % 64)) 0
  | 3 => ((mapGet x.desc a).map (·.len)).getD 0
  | 4 => if (mapGet x.desc a).isSome then x.listAt a else 0
  | 5 => x.cring
  | 6 => x.pgsize
  | _ => x.pgfree

/-- The step queue of a task that belongs to a step. -/
def stepOf (s : State) (t : Task) : Option StepQ := if t.step.isSome then s.stepq? t.part else none

def stepgetOp (s : State) (f : Form) (d : Reg) (sel : BitVec 3) (a : Reg) (ea : Bool) : State :=
  let n := sel.toNat
  s.plain f [] (if 2 ≤ n ∧ n ≤ 4 then [(.s a, ea)] else []) fun t =>
    match s.stepOf t with
    | none => s.trap stepUse
    | some x =>
      let i := if 2 ≤ n ∧ n ≤ 4 then (t.getS a).toNat else 0
      if (n = 2 ∧ 15 < i) ∨ 1023 < i then s.trap stepIndex
      else s.toWrite [.s d] (s.completeWith (t.writeS s.cycle d (BitVec.ofNat 64 (descField x n i)) 3) f.bytes)

/-- Bit j: slot b + j is live and has the token of lane j in its stop set (14:R256). -/
def stopBits (x : StepQ) (v : VWord) (b : Nat) : Nat :=
  (List.range 4).foldl (fun n j =>
    let hit := match mapGet x.desc (b + j) with
      | none => false
      | some q => decide (b + j < 1024) && q.stops.contains (v.extractLsb' (32 * j) 32)
    n + ofBool hit * 2 ^ j) 0

def stoptestOp (s : State) (o : TwoArgs) : State :=
  s.plain o.f [] [(.v o.a, o.ea), (.s o.b, o.eb)] fun t =>
    match s.stepOf t with
    | none => s.trap stepUse
    | some x =>
      s.toWrite [.s o.d] (s.completeWith (t.writeS s.cycle o.d (BitVec.ofNat 64 (stopBits x (t.getV o.a) (t.getS o.b).toNat)) 3) o.f.bytes)

/-! ### Completion records (14:R258, 17:R275) -/

/-- Records the completion ring can take now; nothing passes a held record. -/
def ringRoom (s : State) (part base : Nat) : Nat :=
  if ((s.partOf? part).map (·.qheld.isEmpty)).getD false then
    match s.ringState part base with
    | none => 0
    | some (n, _) => ringSize base - n
  else 0

/-- The completion record of a sequence (14:R258). Its serial counts it too, and the completion records of the partition alone (assumption 114, DESIGN
CHOICE). -/
def postDone (s : State) (part : Nat) (x : StepQ) (seqid : Word) (slot why len pages : Nat) : State :=
  let n := (((s.partOf? part).map (·.cserial)).getD 0 + 1) % 2 ^ 64
  let rec_ := wordBytes seqid ++ leBytes 4 x.stepno ++ leBytes 2 slot ++ leBytes 1 why ++ leBytes 1 0 ++ leBytes 4 len
    ++ leBytes 4 pages ++ leBytes 8 n
  let s := s.modPart part fun p => { p with cserial := n }
  match s.ringPut part x.cring rec_ with
  | some (s, _) => s
  | none => s

/-! ### `seqret` (14:R257) -/

/-- A page list as it stands in memory: up to its first zero, at most 4,096 entries (14:R255), or to a fault. -/
def readList (s : State) (part va : Nat) : Nat → List Nat × Option VaFail
  | 0 => ([], none)
  | n + 1 => match s.vaRead part va 8 with
    | .error e => ([], some e)
    | .ok b =>
      if leNat b = 0 then ([], none)
      else
        let r := readList s part (va + 8) n
        (leNat b :: r.1, r.2)

/-- A fault that Caldera met, if it did, is the partition's (19:R304; assumption 52, DEDUCED). -/
def vaFaultIf (s : State) (part : Nat) (e : Option VaFail) : State := match e with
  | some e => s.vaFault part e
  | none => s

/-- Return the pages of a list; one that is free already, or no page of the pool, is skipped. -/
def givePages (x : StepQ) (l : List Nat) : StepQ × Nat :=
  l.foldl (fun r a => match r.1.pageOf a with
    | none => r
    | some k => if r.1.used.contains k then ({ r.1 with used := r.1.used.filter (· != k) }, r.2 + 1) else r) (x, 0)

def retireSeq (s : State) (part why slot : Nat) : State :=
  match s.stepq? part with
  | none => s
  | some x => match mapGet x.desc slot with
    | none => s
    | some q =>
      let l := s.readList part (x.listAt slot) 4096
      let r := givePages x l.1
      let x := { r.1 with retired := insNat x.retired slot }
      ((s.putStepq part x).postDone part x q.seqid slot why q.len r.2).vaFaultIf part l.2

/-- The reply word of the step instructions (14:R257). -/
def stepWord (code already done : Nat) : Word := word64 [(16, done), (16, already), (8, code)]

/-- The asking task, in its slot or saved, has this property. -/
def asker (s : State) (a : Asked) (p : Task → Bool) : Bool :=
  ((s.slots.map (·.2)) ++ (((s.partOf? a.part).map (·.saved)).getD []).map (·.task)).any fun t => t.gtid == a.gtid && p t

def seqretStep (s : State) (a : Asked) (base mask : Word) (why : Nat) : AskOut :=
  if s.unperformed a.gtid then .wait s
  else match s.stepq? a.part, s.asker a (·.step.isSome) with
    | some x, true =>
      let slots := (setBits mask.toNat 64).map (base.toNat + ·) |>.filter (· < 1024)
      let todo := slots.filter fun i => (mapGet x.desc i).isSome && !x.retired.contains i
      let already := slots.length - todo.length
      if s.ringRoom a.part x.cring < todo.length then .wait s
      else .reply (stepWord (ofBool (already ≠ 0)) already todo.length) (todo.foldl (fun s i => s.retireSeq a.part why i) s)
    | _, _ => .reply (stepWord 4 0 0) s

/-! ### `seqadm` (14:R259, 20:R319) -/

structure AdmEntry where
  seqid : Word
  pages : Nat
  len0 : Nat
  stops : List (BitVec 32)
  bad : Bool
  deriving DecidableEq, Repr

def readAdm (b : List Byte) : AdmEntry :=
  let n (o k : Nat) : Nat := leNat ((b.drop o).take k)
  { seqid := BitVec.ofNat 64 (n 0 8), pages := n 8 4, len0 := n 12 4
    stops := (List.range (min (n 16 1) 8)).map fun i => BitVec.ofNat 32 (n (20 + 4 * i) 4)
    bad := n 8 4 == 0 || decide (4096 < n 8 4) || decide (8 < n 16 1) || n 17 3 != 0 || n 52 12 != 0 }

/-- Take pages for a sequence and write its list, which ends with a zero below 4,096 entries. -/
def takePages (s : State) (x : StepQ) : Nat → List Nat × StepQ × State
  | 0 => ([], x, s)
  | n + 1 =>
    let (a, x, s) := s.takePage x
    let (l, x, s) := takePages s x n
    (a :: l, x, s)

/-- How admission stops: a code, or it waits for the completion ring. -/
def admitLoop (s : State) (part : Nat) (want done : Nat) : Nat → Option (Nat × Nat × State)
  | 0 => some (0, done, s)
  | fuel + 1 =>
    match s.stepq? part with
    | none => some (0, done, s)
    | some x =>
      if want ≤ done then some (0, done, s)
      else match s.ringHead part x.adm 64 with
        | none => some (0, done, s)
        | some (b, h) =>
          let e := readAdm b
          if e.bad then
            if s.ringRoom part x.cring = 0 then none
            else admitLoop ((s.postDone part x e.seqid 0xFFFF 3 0 0).ringTake part x.adm h) part want done fuel
          else match (List.range 1024).find? fun i => !x.nextLive.contains i with
            | none => some (3, done, s)
            | some slot =>
              if x.freePages < e.pages then some (2, done, s)
              else
                let (l, x, s) := s.takePages x e.pages
                let x := { x with admitted := mapSet x.admitted slot { seqid := e.seqid, len := e.len0, stops := e.stops } }
                let bytes := l.flatMap (leBytes 8) ++ (if l.length < 4096 then leBytes 8 0 else [])
                let s := s.putStepq part x
                let s := match s.vaWrite part (x.listAt slot) bytes with
                  | .ok s => s
                  | .error e => s.vaFault part e
                admitLoop (s.ringTake part x.adm h) part want (done + 1) fuel

def seqadmStep (s : State) (a : Asked) (n : Word) : AskOut :=
  match s.stepq? a.part with
  | none => .reply (stepWord 5 0 0) s
  | some x =>
    if !s.asker a (·.sched) then .reply (stepWord 5 0 0) s
    else match s.admitLoop a.part n.toNat 0 (ringSize x.adm + 1) with
      | none => .wait s
      | some (code, done, s) => .reply (stepWord code 0 done) s

/-! ### The pool (14:R261) -/

def poolTakeStep (s : State) (a : Asked) : AskOut :=
  match s.stepq? a.part with
  | none => .reply 0 s
  | some x =>
    if x.freePages = 0 then .reply 0 s
    else
      let (p, x, s) := s.takePage x
      .reply (BitVec.ofNat 64 p) (s.putStepq a.part x)

/-- A page that may be returned: a page of the pool in use. -/
def givable (s : State) (part : Nat) (pa : Word) : Option Nat :=
  (s.stepq? part).bind fun x => (x.pageOf pa.toNat).filter fun k => x.used.contains k

def poolGiveStep (s : State) (a : Asked) (pa : Word) : AskOut :=
  if s.unperformed a.gtid then .wait s
  else match s.stepq? a.part, s.givable a.part pa with
    | some x, some k => .reply 0 (s.putStepq a.part { x with used := x.used.filter (· != k) })
    | _, _ => .refuse

/-! ### Steps (02:R43) -/

/-- A task of a partition's step that has not retired, wherever it is. -/
def stepLive (s : State) (part : Nat) (sched : Bool) : Bool :=
  let is (t : Task) : Bool := t.part == part && t.step.isSome && t.sched == sched
  (s.slots.any fun e => is e.2) || (s.deques.any fun e => e.2.entries.any is) || (s.cald.steals.any fun x => is x.task)
    || (((s.partOf? part).map (·.saved)).getD []).any (fun v => is v.task)
    || s.cald.work.any fun w => match w.work with
      | .root _ _ t => is t
      | .gang _ _ ts => ts.any is
      | _ => false

/-- Launch the roots of the step whose descriptor has been built. -/
def launchStep (s : State) (part : Nat) (x : StepQ) : State :=
  let k := Packet.read x.root
  if s.packetStatus part 0 k = 1 then
    let r := s.acceptLaunch part 0 k (some x.stepno) false
    r.2.putStepq part { x with phase := .running r.1 }
  else s.putStepq part { x with phase := .running 0 }

/-- The length of a sequence that stays live: the spec does not say by how much a step lengthens it. -/
def nextSeqs (s : State) (x : StepQ) : Map Seq × State :=
  let keep := x.desc.filter fun e => !x.retired.contains e.1
  let r := keep.foldl (fun (acc : Map Seq × State) e =>
    (acc.1 ++ [(e.1, { e.2 with len := (Config.freeWord acc.2.freeCtr).toNat % 2 ^ 32 })], acc.2.tick)) ([], s)
  (x.admitted.foldl (fun m e => mapSet m e.1 e.2) r.1, r.2)

/-- Build the next descriptor when the scheduler task has retired, and launch the step. -/
def buildStep (s : State) (part : Nat) : State :=
  match s.stepq? part with
  | none => s
  | some x =>
    if x.phase != .scheduling || s.stepLive part true then s
    else
      let (d, s) := s.nextSeqs x
      s.launchStep part { x with stepno := x.stepno + 1, desc := d, retired := [], admitted := [], pgfree := x.freePages }

/-- Admission entries Caldera has seen. -/
def admPending (s : State) (part : Nat) (x : StepQ) : Nat :=
  match s.vaNat part (ringAt x.adm) 8 with
  | none => 0
  | some h => (x.admTail + 2 ^ 64 - h) % 2 ^ 64

/-- Start the scheduler task when every task of the step has retired; with nothing live and nothing to admit, wait for the
admission ring (20:R318). It takes the step packet's arguments and segments (assumption 61, DESIGN CHOICE). -/
def startScheduler (s : State) (part : Nat) : State :=
  match s.stepq? part with
  | none => s
  | some x =>
    if x.phase == .scheduling || s.stepLive part false then s
    else if x.nextLive.isEmpty && s.admPending part x == 0 then s.putStepq part { x with phase := .idle }
    else
      let k := Packet.read x.root
      let k := { k with entry := x.sched, flags := 0, vtile0 := 0, nroot := 1 }
      let r := s.acceptLaunch part 0 k (some x.stepno) true
      r.2.putStepq part { x with phase := .scheduling }

/-! ### `stepcfg` (20:R318) -/

def stepcfg (s : State) (t : Task) (arg : Word) : State × Nat × Nat :=
  match s.readVa t.part arg.toNat 320, s.partOf? t.part with
  | some b, some p =>
    let n (o k : Nat) : Nat := leNat ((b.drop o).take k)
    let k := Packet.read b
    let schedOk := (p.capsules.find? fun c => c.capid == k.capid).any fun c => c.entries.any fun e => e.off == n 256 4 && !e.bound
    if n 260 4 ≠ 0 ∨ n 277 3 ≠ 0 ∨ n 304 16 ≠ 0 ∨ n 272 4 = 0 ∨ 2 ^ 24 < n 272 4 ∨ n 276 1 < 12 ∨ 21 < n 276 1
        ∨ n 264 8 % 2 ^ n 276 1 ≠ 0 ∨ !ringOk (n 280 8) ∨ !ringOk (n 288 8) ∨ n 296 8 % 4096 ≠ 0 ∨ k.serial ∨ k.doneaddr ≠ 0
        ∨ s.packetStatus t.part 0 k ≠ 1 ∨ !schedOk then (s, 2, 0)
    else if p.stepq.isSome then (s, 3, 0)
    else
      let x : StepQ := { root := b.take 256, sched := n 256 4, pool := n 264 8, npages := n 272 4, pglog := n 276 1, adm := n 280 8
                         cring := n 288 8, plarea := n 296 8, pgfree := n 272 4
                         admTail := ((s.ringState t.part (n 280 8)).map (·.2)).getD 0 }
      let s := s.modPart t.part fun p => { p with cring := some x.cring }
      (s.launchStep t.part x, 0, 0)
  | _, _ => (s, 2, 0)

end State

def execStepget (f : Form) (d : Reg) (sel : BitVec 3) (a : Reg) (ea : Bool) (s : State) : Out := .next (s.stepgetOp f d sel a ea)
def execStoptest (o : TwoArgs) (s : State) : Out := .next (s.stoptestOp o)

def execSeqret (o : TwoArgs) (why : BitVec 2) (s : State) : Out :=
  .next (s.plain o.f [.s o.d] [(.s o.a, o.ea), (.s o.b, o.eb)] fun t =>
    s.ask o.d o.f.bytes (.seqret (t.getS o.b) (t.getS o.a) why) none)

def execSeqadm (o : UnArgs) (s : State) : Out :=
  .next (s.plain o.f [.s o.d] [(.s o.a, o.ea)] fun t => s.ask o.d o.f.bytes (.seqadm (t.getS o.a)) none)

def execPoolTake (f : Form) (d : Reg) (s : State) : Out :=
  .next (s.plain f [] [] fun t =>
    if (s.stepq? t.part).isNone then s.trap stepUse else s.toWrite [.s d] (s.ask d f.bytes .poolTake none))

def execPoolGive (f : Form) (a : Reg) (ea : Bool) (s : State) : Out :=
  .next (s.plain f [] [(.s a, ea)] fun t =>
    if (s.stepq? t.part).isNone then s.trap stepUse else s.ask 0 f.bytes (.poolGive (t.getS a)) none)

def execStepDescriptorBuild (part : Nat) (s : State) : Out := .next (s.buildStep part)
def execStepSchedulerStart (part : Nat) (s : State) : Out := .next (s.startScheduler part)
def execStepcfg (s : State) : Out := .next (s.service 0x17 s.stepcfg)

/-! ### Replies (14:R254) -/

namespace State

/-- What Caldera does with a request; one whose image's page is on its way waits for it. -/
def askStep (s : State) (a : Asked) : AskOut :=
  if s.pageWaits a then .wait s
  else match a.ask with
    | .seqret mask base why => s.seqretStep a base mask why.toNat
    | .seqadm n => s.seqadmStep a n
    | .poolTake => s.poolTakeStep a
    | .poolGive pa => s.poolGiveStep a pa
    | .ctxsave slot va => s.ctxsaveStep a slot va
    | .ctxsaveTile va => s.tileSaveStep a va
    | .ctxrest slot va => s.ctxrestStep a slot va
    | .ctxrestTile va => s.tileRestStep a va
    | .halt g op => if s.haltDone a g op then .reply 0 s else .wait s

/-- The reply reaches its task: it is written with latency 1 and the instruction completes (14:R254). -/
def giveReply (s : State) (key : Nat) (a : Asked) (w : Word) : State :=
  let t := s.taskAt key
  let s := { s with cald := { s.cald with asked := s.cald.asked.erase a } }
  let s := s.putTask key ({ t with run := .resident }.writeS s.cycle a.dst w 1)
  let s := s.recordSched key 2 12 t.gtid
  ((s.at_ key).complete a.len).at_ s.cur

/-- A page that cannot be returned: POOL_ADDR, with its task out of its wait (14:R261). -/
def refuseGive (s : State) (key : Nat) (a : Asked) (pa : Word) : State :=
  let s := { s with cald := { s.cald with asked := s.cald.asked.erase a } }
  let s := (s.putTask key { s.taskAt key with run := .resident }).recordSched key 2 12 a.gtid
  ((s.at_ key).trap { cause := cPOOL_ADDR, addr := pa }).at_ s.cur

/-- The request of a slot's task; else one of a task that was saved from it and has no reply yet. -/
def askedAt (s : State) (key : Nat) : Option Asked :=
  (s.cald.asked.find? fun a => a.key == key && (mapGet s.slots key).any fun t => t.gtid == a.gtid).orElse fun _ =>
    s.cald.asked.find? fun a => a.key == key && a.reply.isNone

def replyAt (s : State) (key : Nat) : State :=
  match s.askedAt key with
  | none => s
  | some a =>
    let here := (mapGet s.slots key).any fun t => t.gtid == a.gtid
    match a.reply with
    | some w => if here then s.giveReply key a w else s
    | none =>
      match s.askStep a with
      | .reply w s =>
        let r := { a with reply := some w }
        let s := { s with cald := { s.cald with asked := s.cald.asked.map fun x => if x == a then r else x } }
        if here then s.giveReply key r w else s
      | .wait s => s
      | .refuse =>
        match a.ask with
        | .poolGive pa => if here then s.refuseGive key a pa else s
        | _ => s

end State

def execCalderaReply (key : Nat) (s : State) : Out := .next (s.replyAt key)

end Sys2Proof.Machine
end

