-- ==== Sys2Proof/Machine/Services.lean ====
section
/-! DEFINITION. The firmware services 0x00 to 0x16 that `fwcall` runs (18:R281, 20:R310, R311). Codes: 0x00 done, 0x02 bad
argument, 0x03 refused for this partition. -/

namespace Sys2Proof.Machine

namespace State

/-- A service whose argument must be zero, or one that sets a field of the partition. -/
def answerZero (s : State) (arg : Word) (result : Nat) : State × Nat × Nat := if arg = 0 then (s, 0, result) else (s, 2, 0)

def setIn (s : State) (t : Task) (ok : Bool) (f : Partition → Partition) : State × Nat × Nat :=
  if ok then (s.modPart t.part f, 0, 0) else (s, 2, 0)

/-! ### 0x00 to 0x06 -/

/-- `settvseg`: a slot whose task is in its handler takes the segment at its return, since `ms.tvseg` holds the task's g7 until
then; an empty slot keeps it for its next task. -/
def settvseg (s : State) (t : Task) (arg : Word) : State × Nat × Nat :=
  let x := t.getG (arg.setWidth 3)
  let space := (segOf x).space
  if 8 ≤ arg.toNat ∨ (space ≠ 1 ∧ space ≠ 4) then (s, 2, 0)
  else match s.partOf? t.part with
    | none => (s, 2, 0)
    | some p =>
      let give (s : State) (k : Nat) : State := match mapGet s.slots k with
        | none => { s with slotTv := mapSet s.slotTv k (((mapGet s.slotTv k).getD (0, 0)).1, x) }
        | some u =>
          if u.inHandler then s.putTask k { u with tvNext := some x } else s.putTask k { u with tr := { u.tr with vseg := x } }
      ((slotsOf p).foldl give s, 0, 0)

/-- `termclrall`: every term-counter set of the partition (05:R94). -/
def termclrall (s : State) (t : Task) : State :=
  { s with counters := s.counters.map fun (e : Nat × Counters) => if e.1 / 1024 == t.part then (e.1, e.2.clearTerms s.cycle) else e }

/-- Bits 49:30 of the region's base and its size in GiB, as bits 63:8 of sD (25:R364, R366). -/
def hdmbase (s : State) (arg : Word) : State × Nat × Nat :=
  if 2 ≤ arg.toNat then (s, 2, 0)
  else
    let r := ((s.hl.hdm.toList[arg.toNat]?).getD 0).toNat
    (s, 0, field r 0 9 + field r 30 20 * 2 ^ 22)

/-! ### 0x10 to 0x16 -/

def setptroot (s : State) (t : Task) (arg : Word) : State × Nat × Nat :=
  let a := arg.toNat
  s.setIn t (a % 65536 == 0 && decide (a < mainBytes) && s.granuleWorld a == s.worldOfPart t.part && !s.sealedOff a) fun p => { p with ptroot := a }

/-- `setfring`: records that wait for a ring are posted; their numbers go on (19:R302). -/
def setfring (s : State) (t : Task) (arg : Word) : State × Nat × Nat :=
  if ringOk arg.toNat then
    ((s.modPart t.part fun p => { p with fring := some arg.toNat }).postHeld t.part, 0, 0)
  else (s, 2, 0)

/-- Members of a group: the entries before the first zero one, of the 512 a list holds. Bits of an entry outside 18:0 and 41:32 are not
looked at, but for whether it is zero (20:R311; assumption 86, DESIGN CHOICE: the spec gives them no meaning and no code). -/
def groupList (b : List Byte) : Nat → List (Nat × Nat)
  | 0 => []
  | n + 1 =>
    let x := leNat (b.take 8)
    if x = 0 then [] else (field x 0 19, field x 32 10) :: groupList (b.drop 8) n

def collgrp (s : State) (t : Task) (arg : Word) : State × Nat × Nat :=
  let a := arg.toNat
  if field a 8 4 ≠ 0 then (s, 2, 0)
  else match s.readVa t.part (a / 4096 * 4096) 4096 with
    | none => (s, 2, 0)
    | some b => s.setIn t true fun p => { p with groups := mapSet p.groups (a % 256) (groupList b 512) }

/-- The core a running task of the partition is on: its slot's, its deque's, or the one a steal takes it to. -/
def coreOfTask (s : State) (part : Nat) (g : Word) : Option Nat :=
  match s.keyOf? g with
  | some k => some (coreOf k)
  | none =>
    match s.deques.find? fun e => e.1 / 1024 == part && e.2.entries.any fun t => t.gtid == g with
    | some e => some (e.1 % 1024)
    | none => (s.cald.steals.find? fun x => x.task.gtid == g).map fun x => coreOf x.key

/-- Hold a task of a deque that has been given back to Caldera's queue: it goes to the save area. -/
def holdGiven (s : State) (part : Nat) (g : Word) : State × Nat × Nat :=
  match s.cald.work.findSome? fun w => match w.work with
    | .root 8 _ x => if w.part == part && x.gtid == g then some (w, x) else none
    | _ => none with
  | none => (s, 2, 0)
  | some (w, x) => match (s.dropWork w).holdQueued part x with
    | none => (s, 2, 0)
    | some s => (s, 0, 0)

/-- `preempt`: a task that Caldera has saved already is held where it is (assumption 68, DEDUCED). -/
def preemptSvc (s : State) (t : Task) (g : Word) : State × Nat × Nat :=
  match s.running? t.part g, s.coreOfTask t.part g with
  | some x, some c =>
    if x.gang.isSome then (s, 3, 0)
    else
      let r : Preempt := ⟨t.part, c, s.cycle, true, [g], []⟩
      ({ s with cald := { s.cald with preempts := s.cald.preempts ++ [r] } }, 0, 0)
  | _, _ =>
    match (((s.partOf? t.part).map (·.saved)).getD []).find? fun v => v.gtid == g && v.byCaldera with
    | none => s.holdGiven t.part g
    | some v =>
      if v.task.gang.isSome then (s, 3, 0)
      else
        let s := s.modPart t.part fun p => { p with
          saved := p.saved.map fun (x : Saved) => if x.gtid == g then { x with hold := true } else x }
        ({ s with cald := { s.cald with work := s.cald.work.filter fun w => w.work != Work.saved g } }, 0, 0)

/-- `requeue`: a task that `preempt` holds goes to Caldera's queue; one whose save is still to come is held no longer. -/
def requeueSvc (s : State) (t : Task) (g : Word) : State × Nat × Nat :=
  match (((s.partOf? t.part).map (·.saved)).getD []).find? fun v => v.gtid == g && v.byCaldera && v.hold with
  | some v =>
    let s := s.modPart t.part fun p => { p with
      saved := p.saved.map fun (x : Saved) => if x.gtid == g then { x with hold := false } else x }
    (s.requeue1 t.part g v.task.prio, 0, 0)
  | none =>
    if (s.cald.preempts.any fun r => r.part == t.part && r.hold && r.gtids == [g]) then
      let free (r : Preempt) : Preempt := if r.part == t.part && r.hold && r.gtids == [g] then { r with hold := false } else r
      ({ s with cald := { s.cald with preempts := s.cald.preempts.map free } }, 0, 0)
    else (s, 2, 0)

end State

def execFwver (s : State) : Out := .next (s.service 0x00 fun _ a => s.answerZero a (s.fwver % 2 ^ 32))
def execSetpol (s : State) : Out :=
  .next (s.service 0x01 fun t a => s.setIn t (decide (a.toNat < 2)) fun p => { p with polNext := a == 1 })
def execDonate (s : State) : Out :=
  .next (s.service 0x02 fun t a => s.setIn t (decide (a.toNat < 2)) fun p => { p with donateNext := a == 1 })
def execSettvseg (s : State) : Out := .next (s.service 0x03 s.settvseg)
def execTermclrall (s : State) : Out := .next (s.service 0x04 fun t a => if a = 0 then (s.termclrall t, 0, 0) else (s, 2, 0))
def execTime (s : State) : Out := .next (s.service 0x05 fun _ a => s.answerZero a (s.cycle % 2 ^ 56))
def execHdmbase (s : State) : Out := .next (s.service 0x06 fun _ a => s.hdmbase a)

/-- A leaf that is being taken away waits by the largest lease in force since (19:R299). -/
def DirEntry.raise (l : Nat) (e : DirEntry) : DirEntry := match e.st with
  | .moving false => { e with lmax := max e.lmax l }
  | _ => e

/-- A running translation keeps the lease it started with (19:R298). -/
def execSetlease (s : State) : Out :=
  .next (s.service 0x10 fun t a => s.setIn t (decide (1 ≤ a.toNat) && decide (a.toNat ≤ 1000)) fun p => { p with
    lease := a.toNat, dir := p.dir.map fun (d : Nat × DirEntry) => (d.1, d.2.raise a.toNat) })
def execSetptroot (s : State) : Out := .next (s.service 0x11 s.setptroot)
def execSetfring (s : State) : Out := .next (s.service 0x12 s.setfring)
def execSetdeadline (s : State) : Out :=
  .next (s.service 0x13 fun t a => s.setIn t (decide (1 ≤ a.toNat) && decide (a.toNat ≤ 1000)) fun p => { p with
    deadline := a.toNat })
def execCollgrp (s : State) : Out := .next (s.service 0x14 s.collgrp)
def execPreempt (s : State) : Out := .next (s.service 0x15 s.preemptSvc)
def execRequeue (s : State) : Out := .next (s.service 0x16 s.requeueSvc)

end Sys2Proof.Machine
end

