-- ==== Sys2Proof/Machine/Trust.lean ====
section
/-! DEFINITION. Trust services and events: key handles (23:R359, R360), trust domains (23:R352 to R357), attestation and SPDM
(23:R350, R351, R353, 27:R375), the page rebuild (23:R349). -/

namespace Sys2Proof.Machine

namespace State

/-! ### Key handles (23:R359, R360) -/

def handleWord (world : BitVec 4) (serial idx : Nat) : Nat := packFields [(8, idx), (20, serial), (4, world.toNat)]

/-- A handle's serial counts the handles of its world, so that no two live handles of a world are alike (23:R359). -/
def keyload (s : State) (t : Task) (arg : Word) : State × Nat × Nat :=
  match s.readVa t.part arg.toNat 64, s.partOf? t.part with
  | some b, some p =>
    let serial := (mapGet s.keySerials p.world.toNat).getD 0
    let n (o k : Nat) : Nat := leNat ((b.drop o).take k)
    match Crypto.unwrap (s.worldKey p.world "wrap") (b.take 40) with
    | none => (s, 2, 0)
    | some key =>
      if 8 ≤ n 40 1 ∨ n 41 3 ≠ 0 ∨ n 48 16 ≠ 0 then (s, 2, 0)
      else match (List.range 256).find? fun i => !((mapGet p.keys i).any fun k => !k.dropped) with
        | none => (s, 3, 0)
        | some i =>
          let k : KeyHandle := { serial := serial % 2 ^ 20, key := key, use := BitVec.ofNat 3 (n 40 1), fixed := (b.drop 44).take 4 }
          let s := { s with keySerials := mapSet s.keySerials p.world.toNat (serial + 1) }
          (s.modPart t.part fun p => { p with keys := mapSet p.keys i k }, 0, handleWord p.world k.serial i)
  | _, _ => (s, 2, 0)

/-- The live handle a number names. -/
def handleOf (s : State) (part : Nat) (h : Word) : Option KeyHandle :=
  match s.partOf? part with
  | none => none
  | some p => (mapGet p.keys (h.toNat % 256)).filter fun k => !k.dropped && h.toNat == handleWord p.world k.serial (h.toNat % 256)

def keydrop (s : State) (t : Task) (h : Word) : State × Nat × Nat :=
  match s.handleOf t.part h with
  | none => (s, 2, 0)
  | some k => s.setIn t true fun p => { p with keys := mapSet p.keys (h.toNat % 256) { k with dropped := true } }

def keyctr (s : State) (t : Task) (h : Word) : State × Nat × Nat :=
  match s.handleOf t.part h with
  | none => (s, 2, 0)
  | some k => (s, 0, k.counter % 2 ^ 56)

/-! ### `pgrebuild` (23:R349) -/

/-- The page is written with zeros and its poison is cleared before the writes are seen. -/
def pgrebuild (s : State) (t : Task) (arg : Word) : State × Nat × Nat :=
  let va := arg.toNat
  if va % 4096 ≠ 0 then (s, 2, 0)
  else match (if 2 ^ 52 < va + 4096 then .error ⟨va, none⟩ else s.walkRange t.part va 2 4096) with
    | .error _ => (s, 2, 0)
    | .ok ps =>
      if s.closed t.part ps then (s, 2, 0)
      else
        let s := s.writePieces ps (List.replicate 4096 0)
        (ps.foldl (fun s p => s.cleanPage p.addr) s, 0, 0)

/-! ### Losing members (23:R356, R357) -/

/-- Packages that a started copy command still exchanges requests with. -/
def cmdPeers (s : State) (c : Cmd) : List Nat :=
  let side (x : Side) (acc : Nat) : List Piece := if x.ext && x.space == 4 then s.openPages c.part (x.addr + c.moved) (x.len - c.moved) acc else []
  match c.moving, c.sides with
  | true, [x, y] => (side x 1 ++ side y 2).filterMap fun p => s.pkgAt p.addr
  | _, _ => []

/-- The access has no response yet: it has not been performed, or its response is on its way. -/
def awaited (a : Acc) : Bool := a.pending || match a.st with
  | .performed _ => true
  | _ => false

/-- Tasks of a world with requests, of their own or of a copy command, that wait for a response of a package. -/
def talksTo (s : State) (w : BitVec 4) (src : Nat) : List Word :=
  let hits (ps : List Piece) : Bool := ps.any fun p => s.pkgAt p.addr == some src
  ((s.net.accs.filter fun a => awaited a && s.worldOfPart a.part == w && hits a.pieces).map (·.owner))
    ++ ((s.net.scOps.filter fun o => s.worldOfPart o.part == w && hits o.pieces).map (·.owner))
    ++ ((s.runningCmds.filter fun e => s.worldOfPart e.2.part == w && (s.cmdPeers e.2).contains src).map (·.2.owner))

/-- Requests that wait on a lost member end with DOMAIN_LOST, as do the tasks whose copy commands exchange with it; its collectives end when
their engine looks again (23:R356, 17:R274). -/
def endRequests (s : State) (k : Nat) (m : Nat) : State :=
  let w := s.worldOfPart k
  let hit (a : Acc) : Bool := awaited a && s.worldOfPart a.part == w && (a.pieces.any fun p => s.pkgAt p.addr == some m)
  let cmds := ((s.runningCmds.filter fun e => CmdWord.queue e.2.word == 2 && s.worldOfPart e.2.part == w && (s.cmdPeers e.2).contains m).map
    (·.2.owner)).eraseDups
  let s := (s.net.accs.filter hit).foldl (fun s a => s.accRefused a cDOMAIN_LOST) s
  cmds.foldl (fun s g => s.addDueTo g { cause := cDOMAIN_LOST, cycle := s.cycle }) s

def loseMember (s : State) (k : Nat) (m : Nat) : State :=
  match s.domain? k with
  | none => s
  | some d => (s.setDomain k { d with joined := d.joined.filter (· != m), lost := insNat d.lost m }).endRequests k m

/-! ### The barrier (23:R356) -/

/-- Every request this package sent to members has its response, and its collectives with them have completed. -/
def ownDrained (s : State) (k : Nat) (d : Domain) : Bool :=
  let w := s.worldOfPart k
  !((d.members.filter (· != s.pkgNo.toNat)).any fun m => !(s.talksTo w m).isEmpty)
    && !(s.runningCmds.any fun e => CmdWord.queue e.2.word == 3 && s.worldOfPart e.2.part == w)

/-- A new key is installed and every tuple counts from 0 again. -/
def Domain.install (d : Domain) (gen : Nat) (key : List Byte) (now : Nat) : Domain :=
  { d with st := .keyed, gen := gen, key := key, sendSeq := [], recvSeq := [], early := [], broken := [], ready := [], keyBy := d.coord
           since := now }

/-- OPEN: the members are those not lost, and parked requests go on. -/
def Domain.openUp (d : Domain) (now : Nat) : Domain := { d with st := .opened, since := now, lastBeat := now, drained := [], ready := [] }

/-- A fresh key (23:R353). -/
def drawKey (s : State) : List Byte × State := (Crypto.beBytes 32 (Config.freeKey s.freeCtr).toNat, s.tick)

/-- The coordinator goes on once every member has sent DRAINED, and again once every member has sent READY. -/
def coordinate (s : State) (k : Nat) : State :=
  match s.domain? k with
  | none => s
  | some d =>
    let me := s.pkgNo.toNat
    if d.coord ≠ me then s
    else
      let others := d.joined.filter (· != me)
      if d.st = .drained && others.all d.drained.contains then
        let (key, s) := s.drawKey
        let s := s.setDomain k (Domain.install d d.nextGen key s.cycle)
        let s := others.foldl (fun s m => s.post (.key m key)) s
        if others.isEmpty then s.modDomain k fun d => Domain.openUp d s.cycle else s
      else if d.st = .keyed && others.all d.ready.contains then
        (s.controlAll k others .opened).modDomain k fun d => Domain.openUp d s.cycle
      else s

/-- BARRIER comes over the session with the coordinator (23:R357). -/
def domBarrier (s : State) (k src gen : Nat) : State :=
  match s.domain? k with
  | none => s
  | some d =>
    if d.coord = s.pkgNo.toNat || src != d.coord then s
    else if d.st = .joining then s.setDomain k { d with nextGen := gen, since := s.cycle }
    else if gen ≠ nextGeneration d.gen then s
    else s.setDomain k { d with st := .draining, nextGen := gen, since := s.cycle }

def domDrained (s : State) (k m : Nat) : State :=
  match s.domain? k with
  | none => s
  | some d =>
    let me := s.pkgNo.toNat
    if m = me then
      if d.st = .draining && s.ownDrained k d then
        (((s.control k d.coord .drained).modDomain k fun d => { d with st := .drained, since := s.cycle })).coordinate k
      else s
    else if d.coord = me && d.joined.contains m && (d.st == .draining || d.st == .drained) then
      (s.setDomain k { d with drained := insNat d.drained m }).coordinate k
    else s

/-- The key comes over the session with the coordinator: that of the barrier's generation, or, from a coordinator that has begun the domain
anew, that of generation 1 (23:R353, R357; assumption 65, DEDUCED). -/
def domKeyed (s : State) (k src : Nat) (key : List Byte) : State :=
  match s.domain? k with
  | none => s
  | some d =>
    let anew := d.st == .opened && d.keyBy != d.coord
    if d.coord = s.pkgNo.toNat || src != d.coord || !(d.st == .drained || d.st == .joining || anew) then s
    else
      let s := s.setDomain k (Domain.install d (if anew then 1 else max 1 d.nextGen) key s.cycle)
      s.control k d.coord .ready

def domReady (s : State) (k m : Nat) : State :=
  match s.domain? k with
  | none => s
  | some d =>
    if d.coord = s.pkgNo.toNat && d.st == .keyed && d.joined.contains m then
      (s.setDomain k { d with ready := insNat d.ready m }).coordinate k
    else s

def domOpened (s : State) (k src : Nat) : State :=
  match s.domain? k with
  | none => s
  | some d =>
    if d.coord = s.pkgNo.toNat || src != d.coord || d.st != .keyed then s
    else s.setDomain k { Domain.openUp d s.cycle with joined := d.members.filter fun m => !d.lost.contains m }

/-- 2 ms after BARRIER the members that have not sent DRAINED are lost, and the barrier starts again without them. -/
def barrierLate (s : State) (k : Nat) : Bool :=
  match s.domain? k with
  | none => false
  | some d => d.coord == s.pkgNo.toNat && (d.st == .draining || d.st == .drained) && decide (d.barrierAt + 2 * cyclesPerMs ≤ s.cycle)
      && d.joined.any fun m => m != s.pkgNo.toNat && !d.drained.contains m

def barrierTimeout (s : State) (k : Nat) : State :=
  if !s.barrierLate k then s
  else match s.domain? k with
    | none => s
    | some d => ((d.joined.filter fun m => m != s.pkgNo.toNat && !d.drained.contains m).foldl (fun s m => s.loseMember k m) s).raiseBarrier k

/-! ### Joining (23:R352, R353, R357) -/

/-- Package numbers of a descriptor's members. -/
def memberList (b : List Byte) : Nat → List Nat
  | 0 => []
  | n + 1 => leNat (b.take 8) :: memberList (b.drop 8) n

def rising : List Nat → Bool
  | a :: b :: r => decide (a < b) && rising (b :: r)
  | _ => true

/-- `domset`: a first descriptor begins a join; another one of the same domain changes its members, and the coordinator raises
the barrier where a member goes, or once every new member has joined (assumption 65, DEDUCED). -/
def domset (s : State) (t : Task) (arg : Word) : State × Nat × Nat :=
  match s.readVa t.part arg.toNat 64 with
  | none => (s, 2, 0)
  | some h =>
    let n (o k : Nat) : Nat := leNat ((h.drop o).take k)
    let cnt := n 4 4
    if n 0 2 = 0 ∨ n 2 2 ≠ 0 ∨ cnt < 2 ∨ 524288 < cnt ∨ n 56 8 ≠ 0 then (s, 2, 0)
    else match s.readVa t.part (arg.toNat + 64) (8 * cnt) with
      | none => (s, 2, 0)
      | some l =>
        let ms := memberList l cnt
        let me := s.pkgNo.toNat
        if !rising ms || ms.any (fun m => decide (2 ^ 19 ≤ m)) || !ms.contains me then (s, 2, 0)
        else
          let low := ms.head?.getD me
          let fresh : Domain := { id := n 0 2, members := ms, meas := (h.drop 8).take 48, digest := Crypto.sha384 (h ++ l), coord := low
                                  joined := [me], since := s.cycle }
          match s.domainAt t.part with
          | none => (s.setDomain t.part fresh, 0, 0)
          | some (k, d) =>
            if d.id ≠ fresh.id then (s, 3, 0)
            else
              let d' := { d with members := ms, meas := fresh.meas, digest := fresh.digest
                                 coord := if ms == d.members then d.coord else low, joined := d.joined.filter ms.contains }
              let s := s.setDomain k d'
              let gone := d.joined.any fun m => !ms.contains m
              (if d'.coord = me && d.st != .joining && ms != d.members && (gone || ms.all d'.joined.contains) then s.raiseBarrier k else s, 0, 0)

/-- Codes of the requests that the coordinator sends each member, in their order: GET_VERSION, GET_CAPABILITIES, NEGOTIATE_ALGORITHMS,
GET_CERTIFICATE, CHALLENGE, GET_MEASUREMENTS, KEY_EXCHANGE, FINISH (23:R353; the numbers are SPDM 1.3's: assumption 103, PRESUMED). -/
def spdmRequests : List Nat := [0x84, 0xE1, 0xE3, 0x82, 0x83, 0xE0, 0xE4, 0xE5]

/-- What a member's measurements must be (23:R353). -/
def measured (d : Domain) (r : JoinReport) : Bool := r.meas == d.meas && r.digest == d.digest

/-- The requests a member is sent: none after the first it fails, and none after the sixth where its measurements differ. -/
def exchanged (d : Domain) (r : JoinReport) : List Nat := spdmRequests.take (min (r.answered + 1) (if measured d r then 8 else 6))

def joinOk (d : Domain) (r : JoinReport) : Bool := decide (8 ≤ r.answered) && measured d r

/-- The coordinator has run its exchanges with members, one at a time, in their order. The members that have joined open the domain, or come
in at a barrier; a successor's members come back to it (23:R353, R357). -/
def joinEnds (s : State) (k : Nat) (l : List JoinReport) : State :=
  match s.domain? k with
  | none => s
  | some d =>
    let me := s.pkgNo.toNat
    if d.coord ≠ me then s
    else
      let l := l.filter fun r => r.member != me && d.members.contains r.member
      let s := l.foldl (fun s r => (exchanged d r).foldl (fun s c => s.post (.spdm r.member c)) s) s
      let ok := (l.filter (joinOk d)).map (·.member)
      if d.rejoin.isSome then
        let d := { d with rejoined := (ok.filter d.joined.contains).foldl insNat d.rejoined }
        if d.joined.all d.rejoined.contains then (s.setDomain k { d with rejoin := none, rejoined := [] }).raiseBarrier k else s.setDomain k d
      else
        let joined := ok.foldl insNat d.joined
        match d.st with
        | .joining =>
          let (key, s) := s.drawKey
          let s := s.setDomain k (Domain.install { d with joined := joined } 1 key s.cycle)
          let others := joined.filter (· != me)
          let s := others.foldl (fun s m => s.post (.key m key)) s
          (s.controlAll k others .opened).modDomain k fun d => Domain.openUp d s.cycle
        | _ => if joined == d.joined then s else (s.setDomain k { d with joined := joined }).raiseBarrier k

/-- The successor is the lowest joined member but the old coordinator; it joins the others anew (23:R357). -/
def succeed (s : State) (k : Nat) : State :=
  match s.domain? k with
  | none => s
  | some d =>
    let me := s.pkgNo.toNat
    let left := d.joined.filter (· != d.coord)
    let next := left.foldl min (left.headD me)
    let d' : Domain := { d with joined := left, coord := next, lastBeat := s.cycle, since := s.cycle
                                rejoin := if next = me then some s.cycle else none, rejoined := if next = me then [me] else [] }
    let s := (s.setDomain k { d' with lost := insNat d.lost d.coord }).endRequests k d.coord
    if next = me && left == [me] then s.joinEnds k [] else s

/-- No answer for 2 ms, or 2 ms in a barrier step without a message. -/
def coordinatorGone (s : State) (k : Nat) : Bool :=
  match s.domain? k with
  | none => false
  | some d => d.coord != s.pkgNo.toNat && d.st != .joining
      && (decide (d.lastBeat + 2 * cyclesPerMs ≤ s.cycle) || (d.barrier && decide (d.since + 2 * cyclesPerMs ≤ s.cycle)))

/-- A leaving coordinator names its successor. -/
def successorNamed (s : State) (k src m : Nat) : State :=
  match s.domain? k with
  | none => s
  | some d =>
    if d.coord = s.pkgNo.toNat || src != d.coord || !d.joined.contains m || m == d.coord then s
    else
      let me := s.pkgNo.toNat
      let d' : Domain := { d with joined := d.joined.filter (· != d.coord), coord := m, lost := insNat d.lost d.coord
                                  lastBeat := s.cycle, rejoin := if m = me then some s.cycle else none, rejoined := if m = me then [me] else [] }
      let s := (s.setDomain k d').endRequests k d.coord
      if m = me && d'.joined == [me] then s.joinEnds k [] else s

/-- A member that has not joined its successor within 10 ms is lost. -/
def rejoinLate (s : State) (k m : Nat) : Bool :=
  match s.domain? k with
  | none => false
  | some d => (match d.rejoin with
      | some c => decide (c + 10 * cyclesPerMs ≤ s.cycle)
      | none => false) && d.joined.contains m && !d.rejoined.contains m

/-- `domleave` (23:R357, R360): a coordinator names its successor, the lowest joined member, to every member first; another member tells the
joined ones that it leaves. The barrier without this package is the others' (assumption 65, DEDUCED). -/
def domleave (s : State) (t : Task) (arg : Word) : State × Nat × Nat :=
  match s.domainAt t.part with
  | none => (s, 2, 0)
  | some (k, d) =>
    if d.id ≠ arg.toNat then (s, 2, 0)
    else
      let others := d.joined.filter (· != s.pkgNo.toNat)
      let c : Control := if d.coord = s.pkgNo.toNat then .successor (others.foldl min (others.headD 0)) else .leave
      ((s.controlAll k others c).modPart k fun p => { p with domain := none }, 0, 0)

/-- A member has left: the coordinator raises a barrier without it. -/
def memberLeaves (s : State) (k m : Nat) : State :=
  match s.domain? k with
  | none => s
  | some d =>
    if m = d.coord || !d.members.contains m then s
    else
      let s := s.setDomain k { d with members := d.members.filter (· != m), joined := d.joined.filter (· != m) }
      if d.coord = s.pkgNo.toNat then s.raiseBarrier k else s

/-- `domstat`. -/
def domstat (s : State) (t : Task) (arg : Word) : State × Nat × Nat :=
  if arg.toNat = 0 ∨ 65536 ≤ arg.toNat then (s, 2, 0)
  else match (s.domainAt t.part).filter fun d => d.2.id == arg.toNat with
    | none => (s, 0, 0)
    | some (_, d) =>
      let st := match d.st with
        | .joining => 1
        | .opened => 3
        | _ => 2
      (s, 0, packFields [(8, st), (16, d.gen), (24, d.joined.length)])

/-! ### Messages of a domain (23:R354, R355) -/

/-- Fields of the 96-bit nonce. -/
structure Nonce where
  gen : Nat
  src : Nat
  dst : Nat
  ch : Nat
  seq : Nat
  deriving DecidableEq, Repr

def nonceOf (x : Nat) : Nonce := ⟨field x 80 16, field x 61 19, field x 42 19, field x 40 2, field x 0 40⟩

/-- The contexts with traffic on a tuple from `src` are quarantined (23:R355): those with requests that wait for a response on
channel 1, those with a `coll.ar` whose group has the member on channel 2. -/
def tupleBreaks (s : State) (k src ch : Nat) (c : BitVec 6) : State :=
  let w := s.worldOfPart k
  let due : Due := { cause := c, cycle := s.cycle }
  let cmds := s.runningCmds.filter fun e => CmdWord.queue e.2.word == 3 && CmdWord.eop e.2.word == 3 && s.worldOfPart e.2.part == w
      && ((s.groupOf e.2.part (CmdWord.aux e.2.word 1)).any fun m => m.1 == src)
  let gs := (if ch = 1 then s.talksTo w src else if ch = 2 then cmds.map (·.2.owner) else []).eraseDups
  let s := gs.foldl (fun s g => s.addDueTo g due) s
  match s.domain? k with
  | none => s
  | some d => (s.setDomain k { d with broken := insNat d.broken (tupleKey src ch) }).askBarrier k

/-- A request from another package at this package's memory: its status, the bytes it answers with, and the state. It is refused by world, else
performed in one step (25:R370, 23:R342). The host driver's access to the memory of world 0, and to the sealed images in it, arrives as such a
request of world 0 (23:R341; assumption 106, DESIGN CHOICE). Kind 0 loads, 1 stores, 2 is an atomic: operation, operand and compared value. -/
def fabricAnswer (s : State) (world : BitVec 4) (kind pa len : Nat) (data : List Byte) : Nat × List Byte × State :=
  if !backed pa || !backed (pa + len - 1) || len = 0 || decide (2 < kind) then (2, [], s)
  else if s.granuleWorld pa != world || s.granuleWorld (pa + len - 1) != world || s.sealedOff pa || s.sealedOff (pa + len - 1) then (1, [], s)
  else if s.poisonMeets [⟨pa, len, 3⟩] || (kind != 1 && s.macMeets [⟨pa, len, 3⟩]) then (3, [], s)
  else match kind with
    | 0 => (0, memRead s.mem pa len, s)
    | 1 => (0, [], s.store pa (data.take len))
    | _ =>
      let n (o : Nat) : Nat := leNat ((data.drop o).take len)
      let old := s.loadNat pa len
      (0, leBytes len old, s.storeNat pa len (amoNew (8 * len) (leNat (data.take 1)) old (n 1) (n (1 + len))))

def fabricServe (s : State) (world : BitVec 4) (kind pa len : Nat) (data : List Byte) : State :=
  let r := s.fabricAnswer world kind pa len data
  r.2.2.reply 0 0x400 r.1 r.2.1

/-- The coordinator answers a member's heartbeat; a member takes the coordinator's answer. -/
def takeBeat (s : State) (k m : Nat) : State :=
  match s.domain? k with
  | none => s
  | some d =>
    if d.coord = s.pkgNo.toNat then (if d.joined.contains m then s.control k m .heartbeat else s)
    else if m = d.coord then s.setDomain k { d with lastBeat := s.cycle } else s

/-- What a control message of a member asks for (23:R355 to R357, 27:R384). -/
def controlled (s : State) (k src : Nat) : Control → State
  | .barrier g => s.domBarrier k src g
  | .drained => s.domDrained k src
  | .ready => s.domReady k src
  | .opened => s.domOpened k src
  | .heartbeat => s.takeBeat k src
  | .rekey => if (s.domain? k).map (·.coord) = some s.pkgNo.toNat then s.askBarrier k else s
  | .leave => s.memberLeaves k src
  | .successor m => s.successorNamed k src m
  | .trigger id action count ocore ocycle =>
    let cores := if action = 3 then [0] else ((s.partOf? k).map (·.cores)).getD []
    { s with agenda := s.agenda ++ cores.map fun c => Instr.triggerArrival c k id action count (BitVec.ofNat 19 src) ocore ocycle }

/-- A domain message is accepted under the next number of its tuple, or breaks it. A request is performed and its response sent; a response or
a collective beat is delivered by the event that ends its access, which does not count it again; a control message has its effect. -/
def domainMessage (s : State) (k : Nat) (b : List Byte) : State :=
  match s.domain? k with
  | none => s
  | some d =>
    let x := nonceOf (leNat (b.take 12))
    let kind := leNat ((b.drop 12).take 1)
    let n := 16 * leNat ((b.drop 13).take 1)
    if b.length ≠ 32 + n ∨ 256 < n ∨ leNat ((b.drop 14).take 2) ≠ d.id ∨ x.dst ≠ s.pkgNo.toNat ∨ !d.members.contains x.src
        ∨ d.broken.contains (tupleKey x.src x.ch) then s
    else if x.gen ≠ d.gen then s.tupleBreaks k x.src x.ch cSEQ_FAULT
    else match Crypto.gcmOpen d.key (b.take 12) (b.take 16) ((b.drop 16).take n) (b.drop (16 + n)) with
      | none => s.tupleBreaks k x.src x.ch cINTEGRITY
      | some pt =>
        if x.seq ≠ (mapGet d.recvSeq (tupleKey x.src x.ch)).getD 0 then s.tupleBreaks k x.src x.ch cSEQ_FAULT
        else
          let s := s.setDomain k { d with recvSeq := mapSet d.recvSeq (tupleKey x.src x.ch) (x.seq + 1) }
          if kind < 3 then
            let q := Config.requestOf kind pt
            let r := s.fabricAnswer (s.worldOfPart k) kind q.1 q.2.1 q.2.2
            r.2.2.sendDomain k x.src 1 3 (Config.payload 3 r.1 r.2.1.length r.2.1)
          else if kind < 5 then s.modDomain k fun d => { d with early := mapMod d.early (tupleKey x.src x.ch) 0 fun n => n + 1 }
          else match Config.controlOf pt with
            | none => s
            | some c => s.controlled k x.src c

/-! ### Attestation (23:R350, R351) -/

/-- The next LMS index: a block of 1,024 is reserved before its first index is used. None is left after 2^40. -/
def nextLms (s : State) : Option Nat × State :=
  let m := s.mgmt
  if m.lmsNext < m.lmsEnd then (some m.lmsNext, { s with mgmt := { m with lmsNext := m.lmsNext + 1 } })
  else if m.lmsEnd + 1024 ≤ 2 ^ 40 then
    (some m.lmsEnd, { s with mgmt := { m with lmsNext := m.lmsEnd + 1, lmsEnd := m.lmsEnd + 1024 } })
  else (none, s)

/-- Both signatures of a message: ECDSA, LMS length, LMS; a length of 0 where no index is left (23:R351, 27:R389). -/
def signed (s : State) (m : List Byte) : List Byte × State :=
  let e := Crypto.beBytes 96 (Config.ecdsaSign m).toNat
  match s.nextLms with
  | (none, s) => (e ++ leBytes 4 0, s)
  | (some i, s) =>
    let l := Config.lmsSign i m
    (e ++ leBytes 4 l.length ++ l, s)

/-! ### SPDM (23:R353, 27:R375): the device as responder -/

def session? (s : State) (n : Nat) : Option Session := mapGet s.sessions n

/-- Move an exchange on from one of the phases it may stand at, or answer ERROR (assumption 69, PRESUMED). -/
def spdm (s : State) (n : Nat) (okFrom : SpdmPhase → Bool) (next : SpdmPhase) (f : State → State) : State :=
  match s.session? n with
  | none => s.reply n 0x7F 4 []
  | some x =>
    if okFrom x.phase then f { s with sessions := mapSet s.sessions n { x with phase := next } } else s.reply n 0x7F 4 []

/-- A response that carries both signatures; without an index the request fails with status 0x03 (23:R351). -/
def signedReply (s : State) (n code : Nat) (m : List Byte) : State :=
  match s.nextLms with
  | (none, s) => s.reply n 0x7F 3 []
  | (some i, s) =>
    let e := Crypto.beBytes 96 (Config.ecdsaSign m).toNat
    (s.reply n code 0 (m ++ e)).reply n 0x7E 0 (Config.lmsSign i m)

/-- A world 0 session of the host driver, or a debugger's of its world (27:R375). -/
def world0 (s : State) (n : Nat) : Bool := (s.session? n).any fun x => x.phase == .secured && x.world == 0

/-- The transcript that a signature covers: the session and the device's measurement (assumption 15, DESIGN CHOICE). -/
def transcript (s : State) (n : Nat) : List Byte := leBytes 4 n ++ Config.measurement s.fwver

/-! ### The end of a debugger (27:R375) -/

def modDbg (s : State) (part : Nat) (f : PartDebug → PartDebug) : State := s.modPart part fun p => { p with dbg := f p.dbg }

/-- A go for the whole partition: its cores' captured rings record again (27:R384). -/
def unhold (s : State) (part : Nat) : State :=
  match s.partOf? part with
  | none => s
  | some p => p.cores.foldl (fun s c => s.modCore c fun k => { k with recorder := { k.recorder with capture := none } }) s

/-- A go that leaves no task of the partition stopped is one for the whole partition. -/
def goDone (s : State) (part : Nat) : State := if (s.allTasks part).any (·.stopped) then s else s.unhold part

/-- The debugger leaves: its stops are released as a go, those of saved tasks when they come back (27:R375). -/
def detach (s : State) (part : Nat) : State :=
  match s.partOf? part with
  | none => s
  | some p =>
    let s := s.modPart part fun p => { p with
      saved := p.saved.map fun (v : Saved) => if p.dbg.stops.contains v.gtid then { v with go := true } else v }
    let s := p.dbg.stops.foldl (fun s g => if (s.allTasks part).any (fun t => t.gtid == g && t.stopped) then s.goTask g false else s) s
    let s := { s with dbg := { s.dbg with stops := s.dbg.stops.filter fun x => !p.dbg.stops.contains x.2.gtid } }
    (s.modDbg part fun d => { d with session := none, records := [], stops := [] }).unhold part

/-- A session ends, or a new one takes its place: it is attached to nothing any more (27:R375). -/
def detachAll (s : State) (session : Nat) : State :=
  (s.parts.filter fun e => e.2.dbg.session == some session).foldl (fun s e => s.detach e.1) s

end State

def execKeyload (s : State) : Out := .next (s.service 0x60 s.keyload)
def execKeydrop (s : State) : Out := .next (s.service 0x61 s.keydrop)
def execKeyctr (s : State) : Out := .next (s.service 0x62 s.keyctr)
def execDomset (s : State) : Out := .next (s.service 0x63 s.domset)
def execDomleave (s : State) : Out := .next (s.service 0x64 s.domleave)
def execDomstat (s : State) : Out := .next (s.service 0x65 s.domstat)
def execPgrebuild (s : State) : Out := .next (s.service 0x66 s.pgrebuild)

def execDomainJoin (part : Nat) (okMembers : List JoinReport) (s : State) : Out := .next (s.joinEnds part okMembers)
def execDomainMessageReceive (part : Nat) (bytes : List Byte) (s : State) : Out := .next (s.domainMessage part bytes)
def execBarrier (part : FromPeer) (gen : Nat) (s : State) : Out := .next (s.domBarrier part.part part.member gen)
def execDrained (part member : Nat) (s : State) : Out := .next (s.domDrained part member)
def execDomainKey (part : FromPeer) (key : List Byte) (s : State) : Out := .next (s.domKeyed part.part part.member key)
def execReady (part member : Nat) (s : State) : Out := .next (s.domReady part member)
def execDomOpen (part : FromPeer) (s : State) : Out := .next (s.domOpened part.part part.member)
def execBarrierDrainTimeout (part : Nat) (s : State) : Out := .next (s.barrierTimeout part)

/-- A member's heartbeat, every 250 µs. -/
def execHeartbeat (part : Nat) (s : State) : Out :=
  .next (match s.domain? part with
    | none => s
    | some d =>
      if d.coord = s.pkgNo.toNat || d.st == .joining || decide (s.cycle < d.beatSent + 250 * cyclesPerUs) then s
      else (s.control part d.coord .heartbeat).modDomain part fun d => { d with beatSent := s.cycle })

def execHeartbeatReceive (part member : Nat) (s : State) : Out := .next (s.takeBeat part member)

def execCoordinatorLost (part : Nat) (s : State) : Out := .next (if s.coordinatorGone part then s.succeed part else s)
def execSuccessorMessage (part : FromPeer) (member : Nat) (s : State) : Out := .next (s.successorNamed part.part part.member member)

def execSuccessorJoinTimeout (part member : Nat) (s : State) : Out :=
  .next (if s.rejoinLate part member then (s.loseMember part member).joinEnds part [] else s)

/-- `GET_VERSION` starts an exchange anew. -/
def execGetVersion (session : Nat) (s : State) : Out :=
  .next (State.reply { s.detachAll session with sessions := mapSet s.sessions session { phase := .version } } session 0x04 0 [0x00, 0x13])

def execGetCapabilities (session : Nat) (s : State) : Out :=
  .next (s.spdm session (· == .version) .capabilities fun s => s.reply session 0x61 0 [])

/-- ECDSA P-384, SHA-384, secp384r1 and AES-256-GCM are chosen. -/
def execNegotiateAlgorithms (session : Nat) (s : State) : Out :=
  .next (s.spdm session (· == .capabilities) .algorithms fun s => s.reply session 0x63 0 [])

/-- The certificates, with both signatures over them: each answer takes an index (23:R351). -/
def execGetCertificate (session : Nat) (s : State) : Out :=
  .next (s.spdm session (· == .algorithms) .certificate fun s =>
    if s.nextLms.1.isNone then s.reply session 0x7F 3 []
    else
      let (sig, s) := s.signed Config.certificates
      s.reply session 0x02 0 (Config.certificates ++ sig))

/-- The LMS signature follows as a vendor-defined response. -/
def execChallenge (session : Nat) (s : State) : Out :=
  .next (s.spdm session (· == .certificate) .challenged fun s => s.signedReply session 0x03 (s.transcript session))

def execGetMeasurements (session : Nat) (s : State) : Out :=
  .next (s.spdm session (· == .challenged) .measured fun s => s.signedReply session 0x60 (Config.measurement s.fwver))

def execKeyExchange (session : Nat) (s : State) : Out :=
  .next (s.spdm session (fun p => p == .challenged || p == .measured) .exchanged fun s => s.reply session 0x64 0 [])

def execFinish (session : Nat) (s : State) : Out :=
  .next (s.spdm session (· == .exchanged) .secured fun s => s.reply session 0x65 0 [])

/-- A debugger's session of a world: the key it shows is the one the world secret gives (27:R375). -/
def execPskExchange (session : Nat) (world : BitVec 4) (psk : List Byte) (s : State) : Out :=
  .next (match s.session? session with
    | none => s.reply session 0x7F 4 []
    | some x =>
      if x.phase != .algorithms || !(s.worlds.any fun (w : World) => w.id == world) || psk != s.worldKey world "dbg" then s.reply session 0x7F 4 []
      else
        let y := { x with phase := .secured, world := world, debugger := true }
        State.reply { s with sessions := mapSet s.sessions session y } session 0x66 0 [])

end Sys2Proof.Machine
end

