-- ==== Sys2Proof/Machine/Debug.lean ====
section
/-! DEFINITION. Debug requests, stops, triggers, samples, freezes and tephra records (27:R375 to R393, R406). -/

namespace Sys2Proof.Machine

namespace State

/-! ### Requests (27:R376) -/

/-- A debug request: 0x01 for an op outside the table, refused (0x03) outside the session's world or without attachment, else `f` gives its status
and data (assumption 70, DESIGN CHOICE). -/
def dbgReq (s : State) (h : DebugHead) (part op : Nat) (attachedOnly : Bool) (f : Partition → State × Nat × List Byte) : State :=
  let say (s : State) (status : Nat) (data : List Byte) : State := s.debugReply h.session part h.id (0x200 + op) status data
  match s.session? h.session, h.other with
  | none, _ => say s 3 []
  | some _, some o => s.debugReply h.session part h.id (0x200 + o.toNat) 1 []
  | some x, none =>
    match s.partOf? part with
    | none => say s 2 []
    | some p =>
      if x.phase != .secured || p.world != x.world || (attachedOnly && p.dbg.session != some h.session) then say s 3 []
      else
        let r := f p
        say r.1 r.2.1 r.2.2

/-- The payload of the response to a debug request (27:R376). -/
def debugBytes (r : Reply) : List Byte :=
  leBytes 1 (r.code - 0x200) ++ leBytes 1 r.status ++ leBytes 2 r.part ++ leBytes 4 r.id.toNat ++ r.data

def dbgStop1 (s : State) (part : Nat) (g : Word) : State :=
  (s.sendStop g cHALT_REQ).modDbg part fun d => { d with stops := g :: d.stops }

def dbgGo1 (s : State) (part : Nat) (g : Word) : State :=
  (s.goTask g false).modDbg part fun d => { d with stops := d.stops.filter (· != g) }

/-- Stop, go and step of one task; the data hold the code that `halt` would give (18:R292). -/
def dbgTask (s : State) (part : Nat) (g : Word) (op : Nat) : State × Nat × List Byte :=
  match s.running? part g with
  | none => (s, 2, [1])
  | some t =>
    match op with
    | 0 => if t.stopped then (s, 0, [3]) else (s.dbgStop1 part g, 0, [0])
    | 1 => if t.stopped then ((s.dbgGo1 part g).goDone part, 0, [0]) else (s, 0, [2])
    | _ => if t.stopped then ((s.goTask g true).modDbg part fun d => { d with stops := g :: d.stops }, 0, [0]) else (s, 0, [2])

/-- The cluster of a request with `halt` op 3 or 4: that of the core which holds the task it names (assumption 70, DESIGN CHOICE). -/
def clusterOfTask (s : State) (part : Nat) (g : Word) : Option Nat :=
  (s.running? part g).bind fun _ => (s.ringKey? g).map fun k => clusterOf (coreOf k)

/-! ### Registers and memory (27:R376, R382, R393) -/

/-- Registers of a file: 0 s, 1 v, 2 p, 3 m, 4 g. -/
def fileSize (file : Nat) : Nat := if file < 2 then 32 else if file < 5 then 8 else 0

def regOf (file index : Nat) : Option RegId :=
  match file with
  | 0 => some (.s (BitVec.ofNat 5 index))
  | 1 => some (.v (BitVec.ofNat 5 index))
  | 3 => some (.m (BitVec.ofNat 3 index))
  | _ => none

/-- The contents of a register. -/
def peek (t : Task) (file index : Nat) : VWord :=
  match file with
  | 0 => (t.getS (BitVec.ofNat 5 index)).setWidth 128
  | 1 => t.getV (BitVec.ofNat 5 index)
  | 2 => (t.getP (BitVec.ofNat 3 index)).setWidth 128
  | 3 => t.getM (BitVec.ofNat 3 index)
  | _ => t.getG (BitVec.ofNat 3 index)

/-- A task whose registers a debugger may read: stopped, or saved (21:R338). -/
def readable? (s : State) (part : Nat) (g : Word) : Option Task :=
  ((s.running? part g).filter (·.stopped)).orElse fun _ =>
    (((s.partOf? part).bind fun p => p.saved.find? fun v => v.gtid == g).map (·.task))

def readReg (s : State) (part : Nat) (g : Word) (file index : Nat) : State × Nat × List Byte :=
  match s.readable? part g with
  | none => (s, 2, [])
  | some t =>
    if fileSize file ≤ index then (s, 2, [])
    else
      let full := match regOf file index with
        | none => true
        | some r => t.full r
      (s, 0, leBytes 16 (peek t file index).toNat ++ leBytes 1 (ofBool full))

/-- The message whose delivery a register of a task awaits: the first for it in its core's inbox, else the first on its way. -/
def msgFor? (s : State) (g : Word) (r : RegId) : Option Nat :=
  let for_ (m : Msg) : Bool := m.dst == g && !m.mute && r == .m m.mreg
  (((s.everyTask.find? fun t => t.gtid == g).bind fun t => t.inbox.find? for_).orElse fun _ => s.net.msgs.find? for_).map (·.tag)

/-- A register awaits a delivery: of an s or v register its empty bit says so, of an m register a message for it (03:R48, R53). -/
def awaits (s : State) (t : Task) (r : RegId) : Bool := !t.full r && match r with
  | .m _ => (s.msgFor? t.gtid r).isSome
  | _ => true

/-- Deliveries on their way to a register are discarded when they arrive (assumption 71, DEDUCED). -/
def muteReg (s : State) (g : Word) (r : RegId) : State :=
  let acc (a : Acc) : Acc := if a.owner == g && a.dst == some r then { a with dst := none } else a
  let sfu (x : SfuReq) : SfuReq := if x.owner == g && r == .v x.dst then { x with mute := true } else x
  let cmd (c : Cmd) : Cmd := if c.owner == g && r == .s (CmdWord.tok c.word) then { c with mute := true } else c
  let join (j : Joiner) : Joiner := if j.gtid == g && r == .s j.dst then { j with mute := true } else j
  let msg (n : Option Nat) (m : Msg) : Msg := if n == some m.tag then { m with mute := true } else m
  let cap (c : Capsule) : Capsule := { c with joiners := c.joiners.map join }
  let got := s.msgFor? g r
  let s := s.modTask g fun t => { t with inbox := t.inbox.filter fun (m : Msg) => got != some m.tag }
  { s with
    parts := s.parts.map fun (e : Nat × Partition) => (e.1, { e.2 with capsules := e.2.capsules.map cap })
    net := { s.net with msgs := s.net.msgs.map (msg got), accs := s.net.accs.map acc, sfu := s.net.sfu.map sfu
                        landed := s.net.landed.filter fun l => !(l.owner == g && l.dst == r) }
    tiles := s.tiles.map fun (e : Nat × Tile) => (e.1, { e.2 with queues := e.2.queues.map fun (q : List Cmd) => q.map cmd }) }

/-- A write fills an empty register and discards its delivery; s0 and p0 ignore it, and the reserved bits of a segment stay zero. -/
def poke (t : Task) (file index : Nat) (x : VWord) : Task :=
  match file with
  | 0 => t.deliver (.s (BitVec.ofNat 5 index)) x false
  | 1 => t.deliver (.v (BitVec.ofNat 5 index)) x false
  | 2 => t.putP (BitVec.ofNat 3 index) (x.setWidth 16)
  | 3 => t.deliver (.m (BitVec.ofNat 3 index)) x false
  | _ => t.putG (BitVec.ofNat 3 index) (segClean x)

def writeReg (s : State) (part : Nat) (g : Word) (file index : Nat) (x : VWord) : State × Nat × List Byte :=
  match s.running? part g with
  | none => (s, 2, [])
  | some t =>
    if !t.stopped || decide (fileSize file ≤ index) then (s, 2, [])
    else
      let s := match regOf file index with
        | some r => if s.awaits t r then (s.muteReg g r).record ((s.ringKey? g).getD (t.home * 16)) 0xB 0 g (regPay r) else s
        | none => s
      (s.modTask g fun t => poke t file index x, 0, [])

def readTileMem (s : State) (part : Nat) (p : Partition) (vt addr len : Nat) : State × Nat × List Byte :=
  if (mapGet p.vmap vt).isNone || addr % 8 != 0 || len % 8 != 0 || decide (len < 8) || decide (64 < len)
      || decide (popCount p.spBanks.toNat 16 * 2 ^ 17 < addr + len) then (s, 2, [])
  else
    let a := spBase part vt + addr
    (s, 0, memRead s.mem a len ++ leBytes 1 (packFields ((List.range (len / 8)).map fun i => (1, ofBool (s.feFull (a + 8 * i))))))

/-! ### Stop messages (27:R380, R383, R392) -/

def dropStop (s : State) (i : Nat) : State := { s with dbg := { s.dbg with stops := s.dbg.stops.eraseIdx i } }

/-- A task in no slot stops where it is, with its stop record (27:R377, R387; assumption 97, DESIGN CHOICE). -/
def stopAway (s : State) (t : Task) (cause : BitVec 6) (skid : Nat) : State :=
  if t.stopped then s
  else
    let pay := packFields [(32, (standsAt t).toNat), (8, min skid 255)]
    let key := (s.ringKey? t.gtid).getD (t.home * 16)
    let s := (s.modTask t.gtid fun t => { t with stopped := true, stepping := false }).record key 0xA (cause.toNat % 8) t.gtid pay
    let s := s.modPart t.part fun p =>
      if p.dbg.session.isSome && debuggers cause then { p with dbg := { p.dbg with stops := t.gtid :: p.dbg.stops } } else p
    s.postStop t.part (recWord 0xA (s.worldOfCore (coreOf key)).toNat (slotOf key) (cause.toNat % 8) t.gtid s.cycle pay)

/-- A stop reaches its task at a boundary; at its core the memory record of a match goes first. One that is being stolen takes it where it arrives,
one that is saved when it is back; one that has retired takes none (27:R383). -/
def stopArrives (s : State) (core i : Nat) : State :=
  match s.dbg.stops[i]? with
  | none => s
  | some (c, m) =>
    if c ≠ core then s
    else
      let taken (k : Nat) : State := match m.note with
        | some w => (s.dropStop i).modCore (coreOf k) fun x => { x with recorder := x.recorder.put s.cycle w }
        | none => s.dropStop i
      match s.keyOf? m.gtid, s.everyTask.find? fun t => t.gtid == m.gtid with
      | some k, some t =>
        if t.stopped then taken k
        else if !s.atBoundary t then s
        else (taken k).stopTask k m.cause (t.nissued - m.base)
      | none, some t =>
        if (s.deques.any fun e => e.2.entries.any fun t => t.gtid == m.gtid) then (taken (core * 16)).stopAway t m.cause (t.nissued - m.base) else s
      | _, none => taken (core * 16)

/-! ### Triggers (27:R384) -/

/-- The two records of a trigger. -/
def triggerRecords (world : BitVec 4) (id : BitVec 4) (action : BitVec 2) (opkg : BitVec 19) (ocore : BitVec 10) (ocycle now : Nat) : List VWord :=
  [recWord 0x8 world.toNat 0 id.toNat 0 now (packFields [(9, 0), (2, action.toNat), (10, ocore.toNat), (19, opkg.toNat)]),
    BitVec.ofNat 128 (packFields [(64, ocycle), (60, 0), (4, 9)])]

def triggerAt (s : State) (core part : Nat) (id : BitVec 4) (action : BitVec 2) (count : Nat) (opkg : BitVec 19) (ocore : BitVec 10)
    (ocycle : Nat) : State :=
  if action = 3 then
    -- a freeze of another package, whose count is its cause, reaches every core of this one (27:R388)
    if s.dbg.freeze.isSome then s else s.spreadFreeze ⟨count, opkg.toNat, ocore.toNat, ocycle⟩
  else
    let recs := triggerRecords (s.worldOfCore core) id action opkg ocore ocycle s.cycle
    let cap (r : Recorder) : Recorder := if action = 1 then { r with capture := none } else r
    let s := s.modCore core fun k => { k with recorder := recs.foldl (fun r w => r.put s.cycle w) (cap k.recorder) }
    if action = 1 then s.modCore core fun k => { k with recorder := { k.recorder with capture := some count } }
    else if action = 2 && s.attached part then
      ((s.tasksOn part (· == core)).filter (!·.stopped)).foldl (fun s t => match s.keyOf? t.gtid with
        | some k => if s.atBoundary t then s.stopTask k cTRIGGER 0 else s.sendStop t.gtid cTRIGGER
        | none => s.sendStop t.gtid cTRIGGER) s
    else s

/-! ### Issue samples (27:R386, R387) -/

/-- The partition whose sample is due on a core: each that owns cycles of it has one every 2^k cycles, in the first of its cycles of the frame
(assumption 63, DEDUCED). -/
def sampleDue (s : State) (core : Nat) : Option Nat :=
  match s.ownerOf core (s.cycle % 16) with
  | none => none
  | some p =>
    let k := ((s.partOf? p).map (·.dbg.period)).getD 12
    let first := !((List.range (s.cycle % 16)).any fun i => s.ownerOf core i == some p)
    if s.cycle % 2 ^ k < 16 ∧ first ∧ (s.core core).samples ≠ s.cycle + 1 then some p else none

def sampleAt (s : State) (core : Nat) : State :=
  match s.sampleDue core with
  | none => s
  | some p =>
    let mine := (s.residents p).filter fun e => coreOf e.1 == core
    let did := mine.find? fun e => e.2.lastIssue == some s.cycle
    let cur := ((s.counts p core).current).bind fun n => mine.find? fun e => slotOf e.1 == n
    let named := did.orElse fun _ => cur
    let off := ((cur.orElse fun _ => did).map fun e => (standsAt e.2).toNat).getD 0
    let w := recWord 0x1 (s.worldOfCore core).toNat ((named.map fun e => slotOf e.1).getD 0) (ofBool did.isNone)
      ((named.map fun e => e.2.gtid).getD 0) s.cycle (packFields [(32, off), (8, (s.readyOn core p).length)])
    s.modCore core fun k =>
      if 4 ≤ k.recorder.queued s.cycle then { k with samples := s.cycle + 1, recorder := { k.recorder with dropped := k.recorder.dropped + 1 } }
      else { k with samples := s.cycle + 1, recorder := k.recorder.put s.cycle w }

/-! ### Freezes (27:R388) -/

/-- The trailer of ten records. -/
def trailerOf (s : State) (core : Nat) (z : Freeze) (dropped : Nat) : List VWord :=
  let g (i : Nat) : Nat := ((mapGet s.slots (core * 16 + i)).map (·.gtid.toNat)).getD 0
  BitVec.ofNat 128 (packFields [(64, s.cycle), (64, z.cycle)])
    :: BitVec.ofNat 128 (packFields [(19, z.opkg), (10, z.ocore), (6, z.cause), (29, 0), (32, dropped)])
    :: (List.range 8).map fun j => BitVec.ofNat 128 (g (2 * j) + g (2 * j + 1) * 2 ^ 64)

/-- At the origin core the freeze arrives in its own cycle, elsewhere in a later one. -/
def freezeDueAt (s : State) (core : Nat) : Option Freeze :=
  ((s.core core).recorder.freezeDue).filter fun z =>
    z.opkg != s.pkgNo.toNat || (if z.ocore = core then decide (z.cycle ≤ s.cycle) else decide (z.cycle < s.cycle))

/-- The freeze goes to the other packages of the trust domain of its origin's world (27:R384, R388). -/
def freezeAbroad (s : State) (z : Freeze) : State :=
  (s.parts.filter fun e => e.2.world == s.worldOfCore z.ocore).foldl (fun s e => match e.2.domain with
    | none => s
    | some d => s.controlAll e.1 d.joined (.trigger 0 3 z.cause (BitVec.ofNat 10 z.ocore) z.cycle)) s

def freezeAt (s : State) (core : Nat) : State :=
  match s.freezeDueAt core with
  | none => s
  | some z =>
    let s := s.modCore core fun k => { k with
      recorder := { k.recorder with freezeDue := none, frozen := some (s.trailerOf core z k.recorder.dropped) } }
    if z.opkg = s.pkgNo.toNat && z.ocore = core then s.freezeAbroad z else s

/-! ### Tephra records and views (27:R389, R390) -/

def recBytes (w : VWord) : List Byte := leBytes 16 w.toNat

/-- The buffer of a core: 4,096 records, oldest first, the unused ones zero, and the trailer. -/
def TephraCore.bytes (c : TephraCore) : List Byte :=
  c.ring.flatMap recBytes ++ List.replicate (16 * (4096 - c.ring.length)) 0 ++ c.trailer.flatMap recBytes

def Tephra.header (t : Tephra) (view : Nat) : List Byte :=
  leBytes 4 0xCA957E01 ++ leBytes 4 t.fwver ++ leBytes 8 t.origin ++ leBytes 3 t.pkg ++ leBytes 2 t.ocore ++ leBytes 1 t.cause
    ++ leBytes 1 view ++ leBytes 1 0 ++ leBytes 4 t.cores.length ++ leBytes 36 0
    ++ leBytes 128 ((t.cores.map fun c => 2 ^ c.core).sum) ++ leBytes 64 0

def Tephra.body (t : Tephra) (view : Nat) : List Byte := Tephra.header t view ++ t.cores.flatMap TephraCore.bytes

/-- A record of another world as a view shows it. -/
def redact (keys : Map (List Byte)) (w : BitVec 4) (r : VWord) : VWord :=
  let kind := field r.toNat 124 4
  let owner : BitVec 4 := BitVec.ofNat 4 (field r.toNat 120 4)
  if owner = w then r
  else
    let pay := if kind = 2 ∨ kind = 3 then
        Crypto.beNat ((Crypto.hmac ((mapGet keys owner.toNat).getD []) (leBytes 5 (field r.toNat 0 40) ++ [owner.setWidth 8])).take 5)
      else 0
    recWord kind owner.toNat 0 0 0 (field r.toNat 40 32) pay

/-- A core's buffer as world `w` sees it. -/
def viewCore (keys : Map (List Byte)) (w : BitVec 4) (c : TephraCore) : TephraCore :=
  { c with ring := c.ring.map (redact keys w)
           trailer := if c.world = w then c.trailer else c.trailer.take 2 ++ (c.trailer.drop 2).map fun _ => 0 }

def viewOf (w : BitVec 4) (t : Tephra) : List Byte := Tephra.body { t with cores := t.cores.map (viewCore t.keys w) } w.toNat

/-- The record keys of the worlds (23:R343), which a record keeps so that its views stay as they are (27:R391). -/
def recordKeys (s : State) : Map (List Byte) := (List.range 16).map fun w => (w, s.worldKey (BitVec.ofNat 4 w) "rec")

/-- Every ring on its way to be frozen has been: Caldera gathers them in core order into one signed record, and each core starts a
new ring. A record not yet released stays (27:R389). -/
def gatherReady (s : State) : Bool := s.dbg.freeze.isSome && !(s.cores.any fun e => e.2.recorder.freezeDue.isSome)

/-- The log keeps a record's header and the digest of all of it (27:R389, 29:R396), 48 bytes a log record. -/
def logFreeze (s : State) (b : List Byte) : State :=
  let bytes := b.take 256 ++ Crypto.sha384 b
  (List.range 7).foldl (fun s i => s.logPut 8 0 ((bytes.drop (48 * i)).take 48)) s

def gatherRings (s : State) : State :=
  match s.dbg.freeze with
  | none => s
  | some z =>
    if !s.gatherReady then s
    else
      let take (e : Nat × Core) : Option TephraCore :=
        (e.2.recorder.frozen).map fun tr => { core := e.1, world := s.worldOfCore e.1, ring := e.2.recorder.ring, trailer := tr }
      let t : Tephra := { fwver := s.fwver, origin := z.cycle, pkg := z.opkg, ocore := z.ocore, cause := z.cause
                          cores := s.cores.filterMap take, sig := [], keys := s.recordKeys }
      let s := { s with cores := s.cores.map fun (e : Nat × Core) => if e.2.recorder.frozen.isSome then (e.1, { e.2 with recorder := {} }) else e
                        dbg := { s.dbg with freeze := none } }
      match s.dbg.tephra with
      | some _ => s
      | none =>
        let b := Tephra.body t 0xFF
        let r := s.signed b
        State.logFreeze { r.2 with dbg := { r.2.dbg with tephra := some { t with sig := r.1 } } } (b ++ r.1)

/-- A chunk of a world's view, with its signatures: they are made once for each world and record. -/
def readView (s : State) (w : BitVec 4) (t : Tephra) (chunk : Nat) : State × Nat × List Byte :=
  let b := viewOf w t
  let give (s : State) (sig : List Byte) : State × Nat × List Byte :=
    let all := b ++ sig
    if all.length ≤ 4096 * chunk then (s, 2, []) else (s, 0, (all.drop (4096 * chunk)).take 4096)
  match mapGet t.sigs w.toNat with
  | some sig => give s sig
  | none =>
    match s.nextLms with
    | (none, s) => (s, 3, [])
    | (some i, s) =>
      let l := Config.lmsSign i b
      let sig := Crypto.beBytes 96 (Config.ecdsaSign b).toNat ++ leBytes 4 l.length ++ l
      give { s with dbg := { s.dbg with tephra := some { t with sigs := mapSet t.sigs w.toNat sig } } } sig

/-- The view of a live ring, of any core of the package: as a record of that core alone, its trailer zero (assumption 72, DESIGN
CHOICE). -/
def liveRing (s : State) (p : Partition) (core : Nat) : State × Nat × List Byte :=
  if !s.corePresent core then (s, 2, [])
  else
    let c : TephraCore := { core := core, world := s.worldOfCore core, ring := (s.core core).recorder.ring, trailer := List.replicate 10 0 }
    let x : Tephra := { fwver := s.fwver, origin := s.cycle, pkg := s.pkgNo.toNat, ocore := core, cause := 0, cores := [c], sig := []
                        keys := s.recordKeys }
    let b := viewOf p.world x
    match s.nextLms with
    | (none, s) => (s, 3, [])
    | (some i, s) =>
      let l := Config.lmsSign i b
      (s, 0, b ++ Crypto.beBytes 96 (Config.ecdsaSign b).toNat ++ leBytes 4 l.length ++ l)

end State

/-! ### The requests -/

def execDebugAttach (head : DebugHead) (part : Nat) (s : State) : Out :=
  .next (s.dbgReq head part 0x01 false fun p =>
    if (p.dbg.session.isSome && p.dbg.session != some head.session)
        || (s.parts.any fun e => e.1 != part && e.2.dbg.session == some head.session) then (s, 3, [])
    else (s.modDbg part fun d => { d with session := some head.session }, 0, []))

def execDebugDetach (head : DebugHead) (part : Nat) (s : State) : Out :=
  .next (s.dbgReq head part 0x02 true fun _ => (s.detach part, 0, []))

def execSetBreakpoint (head : DebugHead) (part b capid : Nat) (off : BitVec 32) (gtid : Word) (action : Nat) (trigId : BitVec 4) (trigAction : BitVec 2)
    (s : State) : Out :=
  .next (s.dbgReq head part 0x03 true fun _ =>
    if 8 ≤ b then (s, 2, [])
    else if off = 0xFFFFFFFF then (s.modDbg part fun d => { d with breaks := mapErase d.breaks b }, 0, [])
    else if 4 < action ∨ trigAction = 3 then (s, 2, [])
    else (s.modDbg part fun d => { d with breaks := mapSet d.breaks b ⟨capid, off.toNat, gtid, action, trigId, trigAction⟩ }, 0, []))

/-- The range of a watchpoint is aligned and lies in its memory (27:R379). -/
def watchRangeOk (p : Partition) (kind vtile addr k : Nat) : Bool :=
  decide (3 ≤ k) && decide (k ≤ 12) && addr % 2 ^ k == 0 && (match kind with
    | 2 => decide (addr + 2 ^ k ≤ 2 ^ 52)
    | _ => (mapGet p.vmap vtile).isSome && decide (addr + 2 ^ k ≤ if kind = 0 then 2 ^ 21 else 2 ^ 20))

def execSetWatchpoint (head : DebugHead) (part w kind vtile addr k : Nat) (mask : BitVec 5) (gtid : Word) (action : Nat) (trigId : BitVec 4)
    (trigAction : BitVec 2) (s : State) : Out :=
  .next (s.dbgReq head part 0x04 true fun p =>
    if 4 ≤ w then (s, 2, [])
    else if mask = 0 then (s.modDbg part fun d => { d with watches := mapErase d.watches w }, 0, [])
    else if 2 < kind ∨ 4 < action ∨ trigAction = 3 ∨ !watchRangeOk p kind vtile addr k then (s, 2, [])
    else (s.modDbg part fun d => { d with watches := mapSet d.watches w ⟨kind, vtile, addr, k, mask, gtid, action, trigId, trigAction⟩ }, 0, []))

def execDebugStop (head : DebugHead) (part : Nat) (gtid : Word) (s : State) : Out :=
  .next (s.dbgReq head part 0x05 true fun _ => s.dbgTask part gtid 0)
def execDebugGo (head : DebugHead) (part : Nat) (gtid : Word) (s : State) : Out := .next (s.dbgReq head part 0x05 true fun _ => s.dbgTask part gtid 1)
def execDebugStep (head : DebugHead) (part : Nat) (gtid : Word) (s : State) : Out :=
  .next (s.dbgReq head part 0x05 true fun _ => s.dbgTask part gtid 2)

def execDebugStopCluster (head : DebugHead) (part : Nat) (gtid : Word) (s : State) : Out :=
  .next (s.dbgReq head part 0x05 true fun _ => match s.clusterOfTask part gtid with
    | none => (s, 2, [])
    | some cluster => (((s.clusterTasks part cluster).filter (!·.stopped)).foldl (fun s t => s.dbgStop1 part t.gtid) s, 0, []))

def execDebugGoCluster (head : DebugHead) (part : Nat) (gtid : Word) (s : State) : Out :=
  .next (s.dbgReq head part 0x05 true fun _ => match s.clusterOfTask part gtid with
    | none => (s, 2, [])
    | some cluster => ((((s.clusterTasks part cluster).filter (·.stopped)).foldl (fun s t => s.dbgGo1 part t.gtid) s).goDone part, 0, []))

def execDebugStopPartition (head : DebugHead) (part : Nat) (s : State) : Out :=
  .next (s.dbgReq head part 0x05 true fun _ =>
    (((s.allTasks part).filter (!·.stopped)).foldl (fun s t => s.dbgStop1 part t.gtid) s, 0, []))

def execReadRegister (head : DebugHead) (part : Nat) (gtid : Word) (file index : Nat) (s : State) : Out :=
  .next (s.dbgReq head part 0x06 true fun _ => s.readReg part gtid file index)

def execWriteRegister (head : DebugHead) (part : Nat) (gtid : Word) (file index : Nat) (value : BitVec 128) (s : State) : Out :=
  .next (s.dbgReq head part 0x07 true fun _ => s.writeReg part gtid file index value)

def execReadTileMemory (head : DebugHead) (part vtile addr len : Nat) (s : State) : Out :=
  .next (s.dbgReq head part 0x08 true fun p => s.readTileMem part p vtile addr len)

/-- A trigger that a request sends has its partition's lowest core as its origin. -/
def execSendTrigger (head : DebugHead) (part id action count : Nat) (s : State) : Out :=
  .next (s.dbgReq head part 0x09 true fun p =>
    if 16 ≤ id ∨ 3 ≤ action ∨ 4096 ≤ count then (s, 2, [])
    else (s.sendTriggerTo part (p.cores.headD 0) (BitVec.ofNat 4 id) (BitVec.ofNat 2 action) count, 0, []))

def execSetSamplePeriod (head : DebugHead) (part k : Nat) (s : State) : Out :=
  .next (s.dbgReq head part 0x0A true fun _ =>
    if k < 6 ∨ 20 < k then (s, 2, []) else (s.modDbg part fun d => { d with period := k }, 0, []))

def execZeroDelayAccumulators (head : DebugHead) (part core : Nat) (s : State) : Out :=
  .next (s.dbgReq head part 0x0B true fun p =>
    if core = 0xFFFF then (p.cores.foldl (fun s c => s.modCounts part c fun k => { k with delays := [] }) s, 0, [])
    else if p.cores.contains core then (s.modCounts part core fun k => { k with delays := [] }, 0, [])
    else (s, 2, []))

def execReadLiveRing (head : DebugHead) (part core : Nat) (s : State) : Out := .next (s.dbgReq head part 0x0C true fun p => s.liveRing p core)

/-- The next stop record, at once where one is kept; else the reply waits for one. -/
def execWaitForEvent (head : DebugHead) (part : Nat) (s : State) : Out :=
  .next (
    let free (x : Session) (p : Partition) : Bool :=
      x.phase == .secured && p.world == x.world && p.dbg.session == some head.session && p.dbg.records.isEmpty
    match s.session? head.session, s.partOf? part with
    | some x, some p =>
      if free x p && head.other.isNone then
        { s with sessions := mapSet s.sessions head.session { x with waiting := x.waiting ++ [(part, s.cycle, head.id)] } }
      else s.dbgReq head part 0x0D true fun p =>
        (s.modDbg part fun d => { d with records := d.records.drop 1 }, 0, (p.dbg.records.take 1).flatMap fun r => leBytes 16 r.toNat)
    | _, _ => s.dbgReq head part 0x0D true fun _ => (s, 0, []))

/-- After 100 ms the reply holds no record. -/
def State.waitOver (s : State) (part : Nat) (w : Nat × Nat × BitVec 32) : Bool := w.1 == part && decide (w.2.1 + 100 * cyclesPerMs ≤ s.cycle)

def execWaitForEventTimeout (session part : Nat) (s : State) : Out :=
  .next (match s.session? session with
    | none => s
    | some x =>
      let ends := x.waiting.filter (s.waitOver part)
      if ends.isEmpty then s
      else ends.foldl (fun s w => s.debugReply session part w.2.2 0x20D 0 [])
        { s with sessions := mapSet s.sessions session { x with waiting := x.waiting.filter fun w => !s.waitOver part w } })

/-- A request that names no partition. -/
def State.tephraReq (s : State) (h : DebugHead) (op : Nat) (f : Session → State × Nat × List Byte) : State :=
  match s.session? h.session, h.other with
  | none, _ => s.debugReply h.session 0 h.id (0x200 + op) 3 []
  | some _, some o => s.debugReply h.session 0 h.id (0x200 + o.toNat) 1 []
  | some x, none =>
    let r := if x.phase != .secured then (s, 3, []) else f x
    r.1.debugReply h.session 0 h.id (0x200 + op) r.2.1 r.2.2

def execReadTephra (head : DebugHead) (chunk : Nat) (s : State) : Out :=
  .next (s.tephraReq head 0x0E fun x => match s.dbg.tephra with
    | none => (s, 2, [])
    | some t => s.readView x.world t chunk)

def execReleaseTephra (head : DebugHead) (s : State) : Out :=
  .next (s.tephraReq head 0x0F fun _ =>
    if s.world0 head.session then ({ s with dbg := { s.dbg with tephra := none } }, 0, []) else (s, 3, []))

/-- Every partition the session is attached to is detached. -/
def execDebugSessionEnd (session : Nat) (s : State) : Out :=
  .next { s.detachAll session with sessions := mapErase s.sessions session }

/-! ### The events -/

def execStopMessageArrival (core i : Nat) (s : State) : Out := .next (s.stopArrives core i)
def execTriggerArrival (core part : Nat) (id : BitVec 4) (action : BitVec 2) (count : Nat) (opkg : BitVec 19) (ocore : BitVec 10) (ocycle : Nat)
    (s : State) : Out := .next (s.triggerAt core part id action count opkg ocore ocycle)
def execIssueSample (core : Nat) (s : State) : Out := .next (s.sampleAt core)
def execFreezeArrival (core : Nat) (s : State) : Out := .next (s.freezeAt core)
def execRingGather (s : State) : Out := .next s.gatherRings

end Sys2Proof.Machine
end

