-- ==== Sys2Proof/Machine/HostSide.lean ====
section
/-! DEFINITION. The host driver's rings and requests, partitions and worlds, links and the fabric (20:R309, R325, 23:R341, R347,
R348, R358, 25:R363 to R372, 26:R374). -/

namespace Sys2Proof.Machine

namespace State

/-! ### The host's registers (25:R366, R367) -/

/-- A request whose code is none of the table's gets status 0x80 (25:R367). What its other records ask for arrives as the row of
each request. -/
def serveUnknown (s : State) : State :=
  match s.reqHead with
  | none => s
  | some (a, _) =>
    let c := memNat s.mem a 1
    if 1 ≤ c ∧ c ≤ 6 then s else s.answerReq c 0x80 []

/-- A ring base may be written: the ring in force holds no record that is not consumed, and the new one fits R312. -/
def baseWrite (s : State) (old new : Word) : Word :=
  let b := hostBase + ringAt old.toNat
  let used := old != 0 && s.loadNat b 8 != s.loadNat (b + 8) 8
  if used || !ringOk new.toNat then old else new

/-! ### Partitions (20:R309, R325, 25:R367, R372) -/

/-- A die is present, not barred, and its core has not failed (29:R395, R400, 20:R325). -/
def coreUsable (s : State) (c : Nat) : Bool :=
  decide (c < 1024) && s.mgmt.start.dies.getLsbD (dieOf c) && !s.mgmt.barred.getLsbD (dieOf c) && !s.mgmt.failedCores.contains c

/-- Tiles that are fused off are absent: a grant leaves their cores out (01:R8, 25:R372). -/
def present (s : State) (cores : List Nat) : List Nat := cores.filter fun c => !s.mgmt.fused.contains (tileOf c)

/-- The cores may belong to a partition with these slots, but for what partition `me` owns itself: one world, and no slot or bank
that another partition has, or is to have after a resize under way. -/
def coresFree (s : State) (me : Nat) (cores : List Nat) (slots spb asb : BitVec 16) (world : BitVec 4) : Bool :=
  !cores.isEmpty && rising cores && cores.all s.coreUsable && (cores.all fun c => s.worldOfCore c == world)
    && !(s.parts.any fun e => e.1 != me && ((e.2.slots &&& slots != 0 && (held e.2).any cores.contains)
      || ((e.2.spBanks &&& spb != 0 || e.2.asBanks &&& asb != 0) && ((held e.2).map tileOf).any (cores.map tileOf).contains)))
where
  held (p : Partition) : List Nat := p.cores ++ p.resizing.getD []

/-- GiB units of memory that no partition has, in a range of `n` units from `base`. -/
def freeGiB (s : State) (base n : Nat) : List Nat :=
  ((List.range n).map fun i => base + i * 2 ^ 30).filter fun a => !(s.parts.any fun e => inRanges e.2.ranges a)

/-- Main memory comes from the granted stacks, 64 GiB each, lowest addresses first (assumption 24, DESIGN CHOICE), but for the code arena, which
lies outside every grant (21:R330). -/
def freeMain (s : State) (stk : BitVec 8) : List Nat :=
  ((setBits stk.toNat 8).flatMap fun i => s.freeGiB (i * 2 ^ 36) 64).filter fun a => decide (a < arenaBase)

/-- Second-tier memory of the controllers that are present, 192 GiB each (29:R400; assumption 76, DESIGN CHOICE); what host links expose is granted
with them (25:R364; assumption 84, DESIGN CHOICE). -/
def freeTier2 (s : State) : List Nat :=
  (s.freeGiB tier2Base 1536).filter fun a => !s.inHdm a && !s.mgmt.tierOut.getLsbD ((a - tier2Base) / 2 ^ 30 / 192)

/-- The arguments of a create request that can be granted (assumption 73, DESIGN CHOICE). -/
def createOk (s : State) (r : CreateReq) : Bool :=
  decide (r.part < 64) && (s.partOf? r.part).isNone && !s.mgmt.recoveryForm && !s.mgmt.halted && !s.mgmt.startDue
    && r.slots != 0 && r.spBanks != 0 && s.coresFree r.part (s.present r.cores) r.slots r.spBanks r.asBanks r.world
    && (r.host == 0 || !s.mgmt.hostOut) && r.stackMask &&& ~~~s.mgmt.start.stackMask == 0 && r.fabric &&& ~~~s.mgmt.start.fabric == 0
    && decide (r.mainmem ≤ (s.freeMain r.stackMask).length) && decide (r.tier2 ≤ s.freeTier2.length)
    && decide (1 ≤ r.lease) && decide (r.lease ≤ 1000)
    && ([r.capMatrix, r.capGather, r.capCopy].all fun n => decide (1 ≤ n) && decide (n ≤ 4)) && decide (1 ≤ r.capSfu) && decide (r.capSfu ≤ 8)
    && decide (r.dequeExt ≤ 4096) && decide (r.launchRings.length ≤ 8) && r.launchRings.all ringOk && r.saveArea % 4096 == 0

/-- Level of a die: its own sensor's, and those of the module (sensors 8 to 10). -/
def dieLevel (v : Vector Sensor 11) (die : Nat) : Nat :=
  (v.toList.zipIdx.filter fun e => e.2 == die || decide (8 ≤ e.2)).foldl (fun m e => max m e.1.level) 0

/-- Capacity of a pool at a level. -/
def capacityAt (created level : Nat) : Nat := match level with
  | 0 => created
  | 1 => (created + 1) / 2
  | _ => 1

/-- A pool for each class in each cluster the partition spans (05:R96), at the capacity of its die's level (29:R395; assumption 99, DEDUCED). -/
def poolsOf (v : Vector Sensor 11) (cores : List Nat) (caps : List Nat) : Map Pool :=
  ((cores.map clusterOf).eraseDups).foldl (fun m c =>
    caps.zipIdx.foldl (fun m e => mapSet m (c * 4 + e.2) { created := e.1, capacity := capacityAt e.1 (dieLevel v (c / 16)) }) m) []

/-- The partition a create request makes: its memory, its coordinates, its capability record. -/
def madePart (s : State) (r : CreateReq) : Partition :=
  let cores := s.present r.cores
  let tiles := (cores.map tileOf).eraseDups
  let caps := [r.capMatrix, r.capGather, r.capCopy, r.capSfu]
  { cores := cores, slots := r.slots, spBanks := r.spBanks, asBanks := r.asBanks, stackMask := r.stackMask
    mainmem := r.mainmem, tier2 := r.tier2, host := r.host, eth := r.eth, fabric := r.fabric, world := r.world
    saveArea := r.saveArea, vmap := tiles.zipIdx.map fun e => (e.2, e.1)
    ranges := (((s.freeMain r.stackMask).take r.mainmem) ++ (s.freeTier2.take r.tier2)).map fun a => (a, 2 ^ 30)
    lease := r.lease, capsRes := capsRes tiles.length cores r.slots r.stackMask
    capsIo := capsIo r.mainmem r.tier2 r.host r.eth r.fabric
    capacity := #v[r.capMatrix, r.capGather, r.capCopy, r.capSfu], pools := poolsOf s.mgmt.sensors cores caps, dequeExt := r.dequeExt
    launchRings := r.launchRings.zipIdx.map fun e => (e.2, e.1), frames := r.frames }

/-- Memory goes to a partition: what another world had in it is gone, and it reads zero under the keys of its world (23:R343, R344; assumption
105, DESIGN CHOICE). -/
def grant (s : State) (p : Partition) : State :=
  let w := p.world.toNat
  p.ranges.foldl (fun s r =>
    let s := if (mapGet s.memWorld (r.1 / 2 ^ 30)).getD w = w then s else { s with mem := memClear s.mem r.1 (r.1 + r.2) }
    { s with memWorld := mapSet s.memWorld (r.1 / 2 ^ 30) w }) s

def createPart (s : State) (r : CreateReq) : State :=
  if !s.createOk r then s.answerReq 1 0x80 []
  else
    let p := s.madePart r
    let s := s.grant p
    let s := { s with parts := mapSet s.parts r.part p, counters := s.counters.filter fun e => e.1 / 1024 != r.part }
    s.answerReq 1 1 (capsReply r.part p.capsRes p.capsIo)

/-- Everything of a partition is gone: its tasks end without a handler, its memory in the tiles is cleared. -/
def destroyPart (s : State) (part : Nat) : State :=
  let drop {α : Type} (f : α → Nat) (l : List α) : List α := l.filter fun x => f x != part
  let dropMap {α : Type} (m : Map α) : Map α := m.filter fun e => e.1 / 1024 != part
  let tlb (m : Map (List TlbEntry)) : Map (List TlbEntry) := m.map fun (e : Nat × List TlbEntry) => (e.1, drop (·.part) e.2)
  let feHere (a : Nat) : Bool := decide (2 ^ 61 ≤ a) && decide (a < 2 ^ 62) && (placeOf a).1 == part
  { s with
    slots := s.slots.filter fun e => e.2.part != part
    deques := dropMap s.deques, counters := dropMap s.counters, vtiles := dropMap s.vtiles
    tiles := s.tiles.map fun (e : Nat × Tile) => (e.1, { e.2 with queues := e.2.queues.map fun (q : List Cmd) => drop (·.part) q })
    parts := mapErase s.parts part
    mem := memClear (memClear s.mem (spBase part 0) (spBase (part + 1) 0)) (asBase part 0) (asBase (part + 1) 0)
    feEmpty := s.feEmpty.filter fun a => !feHere a
    net := { s.net with accs := drop (·.part) s.net.accs, helds := drop (·.part) s.net.helds, scOps := drop (·.part) s.net.scOps
                        sfu := drop (·.part) s.net.sfu }
    mmu := { s.mmu with tlb1 := tlb s.mmu.tlb1, tlb2 := tlb s.mmu.tlb2, walks := drop (·.part) s.mmu.walks, faults := drop (·.part) s.mmu.faults }
    cald := { s.cald with
      work := drop (·.part) s.cald.work, gangs := s.cald.gangs.filter fun e => e.2.part != part, launches := drop (·.part) s.cald.launches
      preempts := drop (·.part) s.cald.preempts, asked := drop (·.part) s.cald.asked, lastQueue := s.cald.lastQueue.filter fun e => e.1 / 4 != part
      steals := s.cald.steals.filter fun x => x.task.part != part }
    sessions := s.sessions.map fun (e : Nat × Session) => (e.1, { e.2 with waiting := e.2.waiting.filter fun w => w.1 != part }) }

/-- A resize pre-empts the tasks of lost cores first, each gang of theirs as a whole (02:R32); it ends when they have been saved and the cores
are empty (20:R325). -/
def resizePart (s : State) (part : Nat) (cores : List Nat) : State :=
  match s.partOf? part with
  | none => s.answerReq 3 0x80 []
  | some p =>
    let cores := s.present cores
    if p.resizing.isSome || !s.coresFree part cores p.slots p.spBanks p.asBanks p.world then s.answerReq 3 0x80 []
    else
      let lost := p.cores.filter fun c => !cores.contains c
      let gangs := (((s.residents part).filter fun e => lost.contains (coreOf e.1) && e.2.gang.isSome).flatMap fun e => s.gangWords e.2).eraseDups
      let kept : List Preempt := if gangs.isEmpty then [] else (p.cores.filter cores.contains).map fun c => ⟨part, c, s.cycle, false, gangs, []⟩
      let new : List Preempt := (lost.map fun c => ⟨part, c, s.cycle, false, [], []⟩) ++ kept
      let pools := p.pools ++ (poolsOf s.mgmt.sensors cores p.capacity.toList).filter fun e => (mapGet p.pools e.1).isNone
      let s := s.modPart part fun p => { p with resizing := some cores, pools := pools.foldl (fun m e => mapSet m e.1 e.2) [] }
      let s := s.takeTurn 3
      State.resizeEnds { s with cald := { s.cald with preempts := s.cald.preempts ++ new } } part

/-- Bind a virtual device: the first becomes resident (20:R317). -/
def bindDevice (s : State) (part dev weight slice : Nat) : State :=
  if (s.partOf? part).isNone || decide (8 ≤ dev) || weight == 0 || decide (255 < weight) || decide (slice < 100) || decide (100000 < slice) then
    s.answerReq 4 0x80 []
  else
    (s.modPart part fun p => { p with
      vdevs := mapSet p.vdevs dev { weight := weight }, slice := slice, resident := p.resident.orElse fun _ => some dev
      sliceStart := if p.resident.isNone then s.cycle else p.sliceStart }).answerReq 4 1 []

/-! ### Worlds (23:R341) -/

/-- Nothing of the old world stays on a die: latches, semaphores, queue entries, TLB entries and recorder buffers. Its tile memory
has gone with its partitions. -/
def scrub (s : State) (die : Nat) : State :=
  let off {α : Type} (f : Nat → Nat) (m : Map α) : Map α := m.filter fun e => f e.1 != die
  { s with
    tiles := off (· / 64) s.tiles
    mmu := { s.mmu with tlb1 := off (· / 16) s.mmu.tlb1, tlb2 := mapErase s.mmu.tlb2 die }
    cores := s.cores.map fun (e : Nat × Core) => if dieOf e.1 == die then (e.1, { e.2 with recorder := {} }) else e }

/-- A world no die belongs to any more is destroyed: its keys are gone, and with them what its memory holds (23:R343). -/
def pruneWorlds (s : State) : State :=
  let live (w : Nat) : Bool := s.worldOf.toList.any fun x => x.toNat == w
  { s with
    worlds := s.worlds.filter fun w => live w.id.toNat
    memWorld := s.memWorld.map fun (e : Nat × Nat) => (e.1, if live e.2 then e.2 else 16) }

/-- The secret comes over a secured session of the tenant (23:R343). -/
def tenantSession (s : State) (n : Nat) : Bool := (s.session? n).any fun x => x.phase == .secured && !x.debugger

def createWorld (s : State) (die : Nat) (world : BitVec 4) (secret : TenantSecret) (capKeys : List Byte) : State :=
  let same (w : World) : Bool := w.id == world && !(w.secret == secret.bytes && w.capKeys == capKeys)
  if 8 ≤ die ∨ !s.mgmt.start.dies.getLsbD die ∨ secret.bytes.length ≠ 32 ∨ !s.tenantSession secret.session
      ∨ (s.parts.any fun e => e.2.cores.any fun c => dieOf c == die) ∨ s.worlds.any same then s.answerReq 6 0x80 []
  else
    let s := s.scrub die
    let s := { s with worldOf := s.worldOf.setIfInBounds die world }
    let s := if s.worlds.any (fun (w : World) => w.id == world) then s
      else { s with worlds := s.worlds ++ [{ id := world, secret := secret.bytes, capKeys := capKeys }] }
    s.pruneWorlds.answerReq 6 1 []

/-! ### Memory errors (23:R347, R348) -/

/-- Bytes an error takes: its line's page, or what lies beneath its node; level 1 counts 8 lines. -/
def errorRange (pa level : Nat) : Nat × Nat :=
  let n := if level = 0 then 4096 else max 4096 (512 * 8 ^ (level - 1))
  (pa / n * n, n)

def poisonPages (s : State) (pa level : Nat) : State :=
  let r := errorRange pa level
  { s with poison := (List.range (r.2 / 4096)).foldl (fun l i => insNat l (r.1 / 4096 + i)) s.poison }

/-- Tasks whose access meets the failed line, or what lies beneath a failed node: reads that are still to be served there (17:R274). -/
def metFailure (s : State) (pa level : Nat) : List Word :=
  let r := if level = 0 then (pa / 64 * 64, 64) else errorRange pa level
  let hits (ps : List Piece) : Bool := ps.any fun p => decide (p.addr < r.1 + r.2) && decide (r.1 < p.addr + p.len)
  (((s.net.accs.filter fun a => a.st == .flying && a.op.reads && hits a.pieces).map (·.owner))
    ++ (s.net.scOps.filter fun o => o.op.reads && match o.place with
      | .ext _ _ _ ps => hits ps
      | .tile _ _ _ => false).map (·.owner)).eraseDups

/-- An error that cannot be corrected: tasks it meets, pages it poisons, and a report to each partition (23:R347, R348). -/
def pageError (s : State) (pa level : Nat) : State :=
  let met := s.metFailure pa level
  let s := (met.foldl (fun s g => s.addDueTo g { cause := cUNCORRECTABLE, cycle := s.cycle }) s).poisonPages pa level
  { s with agenda := s.agenda ++ s.parts.map fun (e : Nat × Partition) => Instr.poisonReport e.1 (pa / 64 * 64 + level % 64) }

/-- An error that cannot be corrected in the arena, outside every body, meets Caldera's own firmware: a fatal cause in no world (17:R276, 29:R397;
assumption 107, DESIGN CHOICE). -/
def firmwareError (s : State) (pa : Nat) : State :=
  if pa < arenaBase ∨ arenaBase + arenaBytes ≤ pa ∨ s.arenaUsed.any fun u => decide (u.1 ≤ pa) && decide (pa < u.1 + u.2) then s
  else
    let s := (s.raiseFreeze 0 cUNCORRECTABLE 0).logPut 2 0 [cUNCORRECTABLE.setWidth 8]
    let s := { s with mgmt := { s.mgmt with recoverDue := s.mgmt.recoverDue.filter Option.isSome ++ [none] } }
    s.postEvent (eventRecord 3 0 (BitVec.ofNat 64 cUNCORRECTABLE.toNat) 0 0)

/-- Virtual pages of a table that map a byte range of physical memory, rising. -/
def mappedFrom (s : State) (lo n va pa : Nat) : Nat → List Nat
  | 0 => (List.range 512).flatMap fun i =>
    let e := pteOf (s.loadNat (pa + 8 * i) 8)
    if e.v && !pteBad e 0 && decide (lo < e.pa + 4096) && decide (e.pa < lo + n) then [(va + i * 4096) / 4096] else []
  | lvl + 1 => (List.range (if lvl = 2 then 8192 else 512)).flatMap fun i =>
    let e := pteOf (s.loadNat (pa + 8 * i) 8)
    let size := 2 ^ (12 + 9 * (lvl + 1))
    let v := va + i * size
    if !e.v || pteBad e (lvl + 1) then []
    else if e.leaf then
      if e.pa < lo + n ∧ lo < e.pa + size then
        ((List.range (n / 4096)).filter fun k => decide (e.pa ≤ lo + k * 4096) && decide (lo + k * 4096 < e.pa + size)).map fun k =>
          (v + (lo + k * 4096 - e.pa)) / 4096
      else []
    else mappedFrom s lo n v e.pa lvl

def mappedPages (s : State) (part lo n : Nat) : List Nat := s.mappedFrom lo n 0 (((s.partOf? part).map (·.ptroot)).getD 0) 3

/-- Runs of consecutive pages: first page and length, at most 4,096. -/
def pageRuns : List Nat → List (Nat × Nat) → List (Nat × Nat)
  | [], acc => acc.reverse
  | v :: r, (f, n) :: acc => if v = f + n ∧ n < 4096 then pageRuns r ((f, n + 1) :: acc) else pageRuns r ((v, 1) :: (f, n) :: acc)
  | v :: r, [] => pageRuns r [(v, 1)]

/-- One unit of a report. -/
def reportUnit (pa : Nat) (runs : List (Nat × Nat)) : List Byte :=
  leBytes 2 0x5C0D ++ leBytes 2 runs.length ++ leBytes 4 0 ++ leBytes 8 pa
    ++ runs.flatMap fun r => leBytes 8 (r.2 - 1 + r.1 * 4096)

/-- Write the reports of a failure into a partition's area, at most 510 runs each, and announce each one. -/
def reportUnits (s : State) (part pa : Nat) (runs : List (Nat × Nat)) : Nat → State
  | 0 => s
  | n + 1 =>
    if runs.isEmpty then s
    else
      let b := reportUnit pa (runs.take 510)
      let r := s.toArea part b
      let w := s.worldOfPart part
      let rec_ := leBytes 8 0 ++ leBytes 1 0x38 ++ leBytes 1 w.toNat ++ leBytes 1 (2 * ofBool r.1.isNone) ++ leBytes 1 0
        ++ leBytes 4 (if r.1.isSome then b.length else 0) ++ leBytes 8 (r.1.getD 0) ++ leBytes 8 s.cycle
      (r.2.postRecord part rec_).reportUnits part pa (runs.drop 510) n

/-- The poison report of a failure for a partition; bits 5:0 of the address hold the level of a tree node. -/
def poisonReported (s : State) (part a : Nat) : State :=
  let pa := a / 64 * 64
  let r := errorRange pa (a % 64)
  let runs := pageRuns (s.mappedPages part r.1 r.2) []
  s.reportUnits part pa runs (runs.length / 510 + 1)

/-! ### Links (23:R358, 25:R363, R368 to R371) -/

/-- Contexts of a partition with traffic to the host are quarantined (23:R358). -/
def hostTraffic (s : State) (part : Nat) : List Word :=
  ((s.net.accs.filter fun a => a.part == part && a.pending && toHost a.pieces).map (·.owner)
    ++ (s.net.scOps.filter fun o => o.part == part && toHost o.pieces).map (·.owner)
    ++ (s.runningCmds.filter fun e => e.2.part == part && !(s.cmdHost e.2).isEmpty).map (·.2.owner)).eraseDups

def ideFails (s : State) (part link : Nat) : State :=
  match s.partOf? part with
  | none => s
  | some p =>
    if p.tdisp.toList[link]? ≠ some Tdisp.run then s
    else
      let s := s.modPart part fun p => { p with tdisp := p.tdisp.setIfInBounds link .error }
      if s.hostLink? part = some link then
        (s.hostTraffic part).foldl (fun s g => s.addDueTo g { cause := cINTEGRITY, cycle := s.cycle }) s
      else s

/-- A fabric request outside a trust domain that has had no response for 1 ms (25:R371). -/
def fabricLate (s : State) (a : Acc) : Bool :=
  a.pending && (a.pieces.any fun p => decide (p.addr < hostBase) && inWindow p.addr) && (s.peersOf a.part a.pieces).isEmpty
    && decide (a.issued + cyclesPerMs ≤ s.cycle)

/-- A connection to a peer breaks: domain members on it are lost, and their barrier follows (25:R369, 23:R356). -/
def peerLost (s : State) (peer : Nat) : State :=
  (s.parts.filter fun e => e.2.domain.any fun d => d.joined.contains peer && peer != s.pkgNo.toNat).foldl (fun s e =>
    match (s.partOf? e.1).bind (·.domain) with
    | none => s
    | some d => if d.coord = peer then s.succeed e.1 else (s.loseMember e.1 peer).askBarrier e.1) s

/-! ### A core fails (20:R325) -/

/-- A task that is lost with its core: no image, a record marked lost (17:R275). -/
def loseTask (s : State) (t : Task) : State :=
  s.postRecord t.part (quarRecord t cUNCORRECTABLE (s.worldOfPart t.part) true false 0 0 s.cycle)

/-- A failed core loses its tasks: those in its slots and its deque, and those on their way to it. It leaves its partition, whose capability
record stands until the host resizes it (03:R63, 20:R325); a resize under way goes on without it. -/
def coreFails (s : State) (core : Nat) : State :=
  let keys := (s.slots.filter fun e => coreOf e.1 == core).map (·.1)
  let s := keys.foldl (fun s k =>
    let t := s.taskAt k
    ((s.markGang t { cause := cUNCORRECTABLE, cycle := s.cycle }).loseTask t).retire k cUNCORRECTABLE.toNat) s
  let ts := ((s.deques.filter fun e => e.1 % 1024 == core).flatMap fun (e : Nat × Deque) => e.2.entries)
    ++ (s.cald.steals.filter fun x => coreOf x.key == core).map (·.task)
  let s := { s with
    deques := s.deques.filter fun e => e.1 % 1024 != core
    cald := { s.cald with steals := s.cald.steals.filter fun x => coreOf x.key != core } }
  let s := ts.foldl (fun s t => (s.loseTask t).ended t (core * 16)) s
  let less (p : Partition) : Partition :=
    { p with cores := p.cores.filter (· != core), resizing := p.resizing.map fun l => l.filter (· != core) }
  { s with
    mgmt := { s.mgmt with failedCores := insNat s.mgmt.failedCores core }
    parts := s.parts.map fun (e : Nat × Partition) => (e.1, less e.2)
    cald := { s.cald with preempts := s.cald.preempts.filter fun r => r.core != core } }

end State

/-! ### Rings -/

/-- A ring in host memory is read again: 0 is the request ring, others are 1 + partition × 16 + ring (25:R365, R367). -/
def execRingWatchReread (ring : Nat) (s : State) : Out :=
  .next (if ring = 0 then s.serveUnknown
    else match s.consumedRing ((ring - 1) / 16) ((ring - 1) % 16) with
      | none => s
      | some base => if s.ringInHost ((ring - 1) / 16) base then s.consume ((ring - 1) / 16) ((ring - 1) % 16) else s)

/-- Room in the completion ring (9) or the fault ring (10): held records are posted (17:R275, 19:R302). -/
def execRingSpaceFreed (part ring : Nat) (s : State) : Out :=
  .next (if ring = 9 then s.postQheld part (((s.partOf? part).map (·.qheld.length)).getD 0)
    else if ring = 10 then s.postHeld part else s)

/-! ### Host requests -/

def State.destroyAsked (s : State) (part : Nat) : State :=
  if (s.partOf? part).isNone then s.answerReq 2 0x80 [] else (s.destroyPart part).answerReq 2 1 []

def execCreatePartition (r : CreateReq) (s : State) : Out := .next (s.inTurn (.create r) fun s => s.createPart r)
def execDestroyPartition (part : Nat) (s : State) : Out := .next (s.inTurn (.destroy part) fun s => s.destroyAsked part)
def execResizePartition (part : Nat) (cores : List Nat) (s : State) : Out := .next (s.inTurn (.resize part cores) fun s => s.resizePart part cores)
def execBindVirtualDevice (part dev weight slice : Nat) (s : State) : Out :=
  .next (s.inTurn (.bind part dev weight slice) fun s => s.bindDevice part dev weight slice)
def execCreateWorld (die : Nat) (world : BitVec 4) (secret : TenantSecret) (capKeys : List Byte) (s : State) : Out :=
  .next (s.inTurn (.world die world secret capKeys) fun s => s.createWorld die world secret capKeys)

/-- The first of the requests that wait whose turn has come (25:R367). -/
def State.serveNext (s : State) : Out :=
  .next (match s.hl.queued.find? fun i => !s.ringBusy (State.requestCode i) with
    | none => s
    | some i =>
      let s := { s with hl := { s.hl with queued := s.hl.queued.erase i } }
      match i with
      | .create r => s.createPart r
      | .destroy part => s.destroyAsked part
      | .resize part cores => s.resizePart part cores
      | .bind part dev weight slice => s.bindDevice part dev weight slice
      | .fault part vpage => s.dirHostFault part vpage
      | .world die world secret keys => s.createWorld die world secret keys)

def execHlReqringWrite (base : Word) (s : State) : Out := .next { s with hl := { s.hl with reqring := s.baseWrite s.hl.reqring base } }
def execHlEvringWrite (base : Word) (s : State) : Out := .next { s with hl := { s.hl with evring := s.baseWrite s.hl.evring base } }

/-- `hl.status` is write-one-to-clear, the ring bases have rows of their own, and the rest is read-only (00:R3, 25:R366). -/
def execRegisterWrite (offset : Nat) (value : Word) (s : State) : Out :=
  match offset with
  | 0x08 => execHlReqringWrite value s
  | 0x10 => execHlEvringWrite value s
  | 0x18 => .next { s with hl := { s.hl with status := s.hl.status &&& ~~~value } }
  | _ => .next s

/-! ### Memory errors, links, the fabric -/

/-- What cannot be corrected poisons pages; a MAC that fails twice marks its line, and each read that meets it raises INTEGRITY (23:R345). -/
def execUncorrectableError (pa : Nat) (treeLevel : MemError) (s : State) : Out :=
  .next (match treeLevel with
    | .mac => { s with macBad := insNat s.macBad (pa / 64) }
    | .line => (s.pageError pa 0).firmwareError pa
    | .node level => (s.pageError pa level).firmwareError pa)

def execPoisonReport (part pa : Nat) (s : State) : Out := .next (s.poisonReported part pa)

/-- The host takes a line of the HDM-DB region: the snoop returns what it wrote, and each `waddr` that waits on the line looks again, to park
again where its condition is false (26:R374, 13:R230). -/
def execHostOwnershipRequest (pa : Nat) (data : List Byte) (s : State) : Out :=
  .next (if s.inHdm pa && pa % 64 == 0 && data.length == 64 then
      (s.slots.filter fun e => match e.2.run with
        | .parked _ (.watch a n _ _ _) => decide (a < pa + 64) && decide (pa < a + n)
        | _ => false).foldl (fun s e => s.wakeNow e.1) (s.store pa data)
    else s)

def execIdeIntegrityFailure (part link : Nat) (s : State) : Out := .next (s.ideFails part link)

/-- The host locks a granted interface, which returns it to RUN, and marks pages confidential (23:R358). -/
def execLockInterface (part : Nat) (link : LinkLock) (s : State) : Out :=
  .next (s.modPart part fun p =>
    if p.host.getLsbD link.link then { p with tdisp := p.tdisp.setIfInBounds link.link .run, hostMarked := link.pages } else p)

def execFabricRequest (world : BitVec 4) (kind pa len : Nat) (data : List Byte) (s : State) : Out := .next (s.fabricServe world kind pa len data)

def execFabricRequestTimeout (tag : Nat) (s : State) : Out :=
  .next (match s.accOf? tag with
    | none => s
    | some a => if s.fabricLate a then s.accFails a false else s)

def execFabricLinkFailure (link : Nat) (s : State) : Out :=
  .next { s with fabricUp := s.fabricUp &&& ~~~((1 : BitVec 24) <<< link) }

def execTransportLoss (peer : Nat) (s : State) : Out := .next (s.peerLost peer)

/-- A host link changes state: event record type 2, and `hl.status` bit 1 for a degraded link (25:R363, R366, R368). -/
def execLinkStateChange (link : Nat) (up : Bool) (width : Nat) (s : State) : Out :=
  .next (
    let l : HostLink := { (s.links.toList[link]?).getD {} with up := up, width := width }
    let s := { s with links := s.links.setIfInBounds link l }
    let s := if up && decide (width < 16) then { s with hl := { s.hl with status := s.hl.status ||| 2 } } else s
    s.postEvent (State.eventRecord 2 0 (BitVec.ofNat 64 link) (BitVec.ofNat 64 (ofBool up)) (BitVec.ofNat 64 width)))

def execCoreFailure (core : Nat) (s : State) : Out := .next (s.coreFails core)

end Sys2Proof.Machine
end

