-- ==== Sys2Proof/Machine/Scalar.lean ====
section
/-! DEFINITION. Scalar arithmetic, compares, predicate logic, status reads and segments (11:R182 to R193). -/

namespace Sys2Proof.Machine

namespace State

/-- A two-source scalar instruction: reads sA and b, writes sD := f a b with its latency (11:R174, R182). -/
def alu (s : State) (o : AluArgs) (litSigned : Bool) (lat : Nat) (f : Word → Word → Word) : State :=
  s.plain o.f [.s o.d] ((.s o.a, o.ea) :: o.b.reads) fun t =>
    s.completeWith (t.writeS s.cycle o.d (f (t.getS o.a) (o.b.val t litSigned)) lat) o.f.bytes

/-- A divide: a divisor of 0 raises DIVIDE_ZERO and leaves sD unchanged (11:R187). -/
def divide (s : State) (o : AluArgs) (litSigned : Bool) (f : Word → Word → Word) : State :=
  s.plain o.f [] ((.s o.a, o.ea) :: o.b.reads) fun t =>
    if o.b.val t litSigned = 0 then s.trapC cDIVIDE_ZERO
    else s.toWrite [.s o.d] (s.completeWith (t.writeS s.cycle o.d (f (t.getS o.a) (o.b.val t litSigned)) 20) o.f.bytes)

/-- A one-source scalar instruction (11:R185). -/
def unary (s : State) (o : UnArgs) (f : Word → Word) : State :=
  s.plain o.f [.s o.d] [(.s o.a, o.ea)] fun t =>
    s.completeWith (t.writeS s.cycle o.d (f (t.getS o.a)) 1) o.f.bytes

/-- An immediate instruction (11:R184). -/
def aluImm (s : State) (o : ImmArgs) (signed : Bool) (f : Word → Word → Word) : State :=
  s.plain o.f [.s o.d] [(.s o.a, o.ea)] fun t =>
    s.completeWith (t.writeS s.cycle o.d (f (t.getS o.a) (o.imm.val signed)) 1) o.f.bytes

/-- A compare writes every bit of pD with its result (11:R188). -/
def cmp (s : State) (o : CmpArgs) (c : Cond) : State :=
  s.plain o.f [] ((.s o.a, o.ea) :: o.b.reads) fun t =>
    s.completeWith (t.writeP s.cycle o.p (spread (c.holds (t.getS o.a) (o.b.val t c.signed))) 1) o.f.bytes

def cmpImm (s : State) (o : CmpImmArgs) (c : Cond) : State :=
  s.plain o.f [] [(.s o.a, o.ea)] fun t =>
    s.completeWith (t.writeP s.cycle o.p (spread (c.holds (t.getS o.a) (o.imm.val c.signed))) 1) o.f.bytes

/-- A predicate instruction writes bit i of pD only where guard bit i is 1 (11:R189). -/
def pred (s : State) (f : Form) (d : BitVec 3) (r : Task → PWord) : State :=
  let t := s.task
  if t.fpend then s.trapC cFORMAT
  else
    let gb := t.guardBits f.guard
    s.completeWith (t.writeP s.cycle d ((r t &&& gb) ||| (t.getP d &&& ~~~gb)) 1) f.bytes

end State

/-! ### Two-source minors (11:R182, R183, R185, R186) -/

def execAdd (o : AluArgs) (sat uns : Bool) (s : State) : Out := .next (s.alu o true 1 (addVal sat uns))
def execSub (o : AluArgs) (sat uns : Bool) (s : State) : Out := .next (s.alu o true 1 (subVal sat uns))
def execAnd (o : AluArgs) (s : State) : Out := .next (s.alu o false 1 (fun a b => a &&& b))
def execOr (o : AluArgs) (s : State) : Out := .next (s.alu o false 1 (fun a b => a ||| b))
def execXor (o : AluArgs) (s : State) : Out := .next (s.alu o false 1 (fun a b => a ^^^ b))
def execAndn (o : AluArgs) (s : State) : Out := .next (s.alu o false 1 (fun a b => a &&& ~~~b))
def execOrn (o : AluArgs) (s : State) : Out := .next (s.alu o false 1 (fun a b => a ||| ~~~b))
def execShl (o : AluArgs) (s : State) : Out := .next (s.alu o false 1 shlVal)
def execShr (o : AluArgs) (s : State) : Out := .next (s.alu o false 1 shrVal)
def execSra (o : AluArgs) (s : State) : Out := .next (s.alu o false 1 sraVal)
def execRol (o : AluArgs) (s : State) : Out := .next (s.alu o false 1 rolVal)
def execRor (o : AluArgs) (s : State) : Out := .next (s.alu o false 1 rorVal)
def execMin (o : AluArgs) (s : State) : Out := .next (s.alu o true 1 minVal)
def execMax (o : AluArgs) (s : State) : Out := .next (s.alu o true 1 maxVal)
def execMinu (o : AluArgs) (s : State) : Out := .next (s.alu o false 1 minuVal)
def execMaxu (o : AluArgs) (s : State) : Out := .next (s.alu o false 1 maxuVal)
def execClz (o : UnArgs) (s : State) : Out := .next (s.unary o clzVal)
def execCtz (o : UnArgs) (s : State) : Out := .next (s.unary o ctzVal)
def execPopc (o : UnArgs) (s : State) : Out := .next (s.unary o popcVal)
def execSext (o : AluArgs) (s : State) : Out := .next (s.alu o false 1 sextVal)
def execZext (o : AluArgs) (s : State) : Out := .next (s.alu o false 1 zextVal)
def execBext (o : AluArgs) (s : State) : Out := .next (s.alu o false 1 bextVal)
/-- `bins` reads sD after its other sources, and writes it (11:R186). -/
def execBins (o : AluArgs) (s : State) : Out :=
  .next (s.plain o.f [] ((.s o.a, o.ea) :: o.b.reads ++ [(.s o.d, false)]) fun t =>
    s.completeWith (t.writeS s.cycle o.d (binsVal (t.getS o.d) (t.getS o.a) (o.b.val t false)) 1) o.f.bytes)
def execSh1add (o : AluArgs) (s : State) : Out := .next (s.alu o true 1 (shNaddVal 1))
def execSh2add (o : AluArgs) (s : State) : Out := .next (s.alu o true 1 (shNaddVal 2))
def execSh3add (o : AluArgs) (s : State) : Out := .next (s.alu o true 1 (shNaddVal 3))
def execSh4add (o : AluArgs) (s : State) : Out := .next (s.alu o true 1 (shNaddVal 4))

/-! ### Multiply and divide (11:R187) -/

def execMul (o : AluArgs) (s : State) : Out := .next (s.alu o true 3 (fun a b => a * b))
def execMulh (o : AluArgs) (s : State) : Out := .next (s.alu o true 3 mulhVal)
def execMulhu (o : AluArgs) (s : State) : Out := .next (s.alu o false 3 mulhuVal)
def execMulhsu (o : AluArgs) (s : State) : Out := .next (s.alu o false 3 mulhsuVal)
def execDiv (o : AluArgs) (s : State) : Out := .next (s.divide o true divVal)
def execDivu (o : AluArgs) (s : State) : Out := .next (s.divide o false divuVal)
def execRem (o : AluArgs) (s : State) : Out := .next (s.divide o true remVal)
def execRemu (o : AluArgs) (s : State) : Out := .next (s.divide o false remuVal)

/-! ### Compares and immediates (11:R184, R188) -/

def execCmpEq (o : CmpArgs) (s : State) : Out := .next (s.cmp o .eq)
def execCmpNe (o : CmpArgs) (s : State) : Out := .next (s.cmp o .ne)
def execCmpLt (o : CmpArgs) (s : State) : Out := .next (s.cmp o .lt)
def execCmpGe (o : CmpArgs) (s : State) : Out := .next (s.cmp o .ge)
def execCmpLtu (o : CmpArgs) (s : State) : Out := .next (s.cmp o .ltu)
def execCmpGeu (o : CmpArgs) (s : State) : Out := .next (s.cmp o .geu)
def execAddi (o : ImmArgs) (s : State) : Out := .next (s.aluImm o true (fun a b => a + b))
def execAndi (o : ImmArgs) (s : State) : Out := .next (s.aluImm o false (fun a b => a &&& b))
def execOri (o : ImmArgs) (s : State) : Out := .next (s.aluImm o false (fun a b => a ||| b))
def execXori (o : ImmArgs) (s : State) : Out := .next (s.aluImm o false (fun a b => a ^^^ b))
def execShli (o : ImmArgs) (s : State) : Out := .next (s.aluImm o false shlVal)
def execShri (o : ImmArgs) (s : State) : Out := .next (s.aluImm o false shrVal)
def execSrai (o : ImmArgs) (s : State) : Out := .next (s.aluImm o false sraVal)
def execCmpiEq (o : CmpImmArgs) (s : State) : Out := .next (s.cmpImm o .eq)
def execCmpiNe (o : CmpImmArgs) (s : State) : Out := .next (s.cmpImm o .ne)
def execCmpiLt (o : CmpImmArgs) (s : State) : Out := .next (s.cmpImm o .lt)
def execCmpiGe (o : CmpImmArgs) (s : State) : Out := .next (s.cmpImm o .ge)
def execCmpiuLtu (o : CmpImmArgs) (s : State) : Out := .next (s.cmpImm o .ltu)
def execCmpiuGeu (o : CmpImmArgs) (s : State) : Out := .next (s.cmpImm o .geu)

/-! ### Predicates (11:R189) -/

def execPand (o : PredArgs) (s : State) : Out := .next (s.pred o.f o.d (fun t => t.getP o.a &&& t.getP o.b))
def execPor (o : PredArgs) (s : State) : Out := .next (s.pred o.f o.d (fun t => t.getP o.a ||| t.getP o.b))
def execPxor (o : PredArgs) (s : State) : Out := .next (s.pred o.f o.d (fun t => t.getP o.a ^^^ t.getP o.b))
def execPnot (o : PredUn) (s : State) : Out := .next (s.pred o.f o.d (fun t => ~~~(t.getP o.a)))
def execPmov (o : PredUn) (s : State) : Out := .next (s.pred o.f o.d (fun t => t.getP o.a))

/-! ### Segments (11:R192, R193) -/

/-- The segment `gnarrow` derives, or none where the offset lies past the limit: an invalid one keeps base and limit, the
others move by b and never widen, and rights drop as the mask says (11:R192). -/
def narrow (old : VWord) (b : Nat) (c : Option Nat) (drop : BitVec 4) : Option VWord :=
  let x := segOf old
  let keepBits : Nat := field old.toNat 104 24 &&& (2 ^ 24 - 1 - field drop.toNat 0 4 * 2 ^ 16)
  let mk (base limit : Nat) : VWord := BitVec.ofNat 128 (limit + base % 2 ^ 52 * 2 ^ 52 + keepBits * 2 ^ 104)
  if x.space = 0 then some (mk x.base x.limit)
  else if x.limit < b then none
  else
    let len := x.limit - b
    some (mk (x.base + b) (match c with
      | none => len
      | some c => min len c))

def execGnarrow (f : Form) (d a : BitVec 3) (b : Reg) (eb : Bool) (c : Reg) (ec : Bool) (drop : BitVec 4) (s : State) : Out :=
  .next (s.plain f [] ((.s b, eb) :: (if c = 0 then [] else [(.s c, ec)])) fun t =>
    match narrow (t.getG a) (t.getS b).toNat (if c = 0 then none else some (t.getS c).toNat) drop with
    | none => s.trap { cause := cSEGMENT_BOUND, seg := some a, addr := t.getS b }
    | some g => s.completeWith (t.putG d g) f.bytes)

def execGrd (f : Form) (d : Reg) (a : BitVec 3) (hi : Bool) (s : State) : Out :=
  .next (s.plain f [.s d] [] fun t =>
    s.completeWith (t.writeS s.cycle d
      (if hi then (t.getG a).extractLsb' 64 64 else (t.getG a).extractLsb' 0 64) 1) f.bytes)

end Sys2Proof.Machine
end

