-- ==== Sys2Proof/Machine/Start.lean ====
section
/-! DEFINITION. The management controller and start-up (29): sensors, the log, recovery, firmware update, the start steps. -/

namespace Sys2Proof.Machine

/-! ### Start steps (29:R400, R401) -/

/-- What step i of a start ends as: 1 done, 2 failed, 3 skipped, 4 alternate done, 5 alternate failed. `alt` says that its main form has
failed in this chain of starts. -/
def stepOutcome (skip alt : Bool) (i : Nat) (fail : Bool) : Nat :=
  if skip then 3 else if alt ∧ 3 ≤ i ∧ i ≤ 8 then (if fail then 5 else 4) else if fail then 2 else 1

/-- The outcomes of steps i onward; after a failure the rest is not run. -/
def stepsFrom (skips alts : BitVec 9) (fail : Nat → Bool) (i : Nat) : Nat → List Nat
  | 0 => []
  | n + 1 =>
    let r := stepOutcome (skips.getLsbD (i - 1)) (alts.getLsbD (i - 1)) i (fail i)
    if r = 2 ∨ r = 5 then r :: List.replicate n 0 else r :: stepsFrom skips alts fail (i + 1) n

/-- Parts of a step, numbered step × 32 + part, that have failed (assumption 76, DESIGN CHOICE). -/
def partsOf (parts : List Nat) (step : Nat) : Nat := ((parts.filter fun x => x / 32 == step).map fun x => 2 ^ (x % 32)).foldl (· ||| ·) 0

/-- What is present after a step: all but the parts that failed where it failed or took its alternate form, none where it was
skipped or not run. -/
def presentMask (all : Nat) (st : Nat) (parts : List Nat) (step : Nat) : Nat :=
  match st with
  | 1 => all
  | 2 => all - (all &&& partsOf parts step)
  | 4 => all - (all &&& partsOf parts step)
  | _ => 0

def startRecordOf (fwver kind : Nat) (steps : List Nat) (parts : List Nat) : StartRecord :=
  let st (i : Nat) : Nat := (steps[i - 1]?).getD 0
  { fwver := fwver, kind := kind, steps := Vector.ofFn fun i => st (i.val + 1)
    stackMask := BitVec.ofNat 8 (presentMask 0xFF (st 3) parts 3)
    dies := BitVec.ofNat 8 (presentMask 0xFF (st 6) parts 6)
    fabric := BitVec.ofNat 24 (presentMask 0xFFFFFF (st 7) parts 7) }

/-- The 32 bytes of a start-step record. -/
def StartRecord.bytes (r : StartRecord) : List Byte :=
  leBytes 4 r.fwver ++ leBytes 1 r.kind ++ r.steps.toList.flatMap (leBytes 1) ++ leBytes 1 r.stackMask.toNat ++ leBytes 1 r.dies.toNat
    ++ leBytes 3 r.fabric.toNat ++ leBytes 13 0

/-- A start is complete when every step has ended done, in its alternate form, or skipped. -/
def StartRecord.complete (r : StartRecord) : Bool := r.steps.toList.all fun x => x == 1 || x == 3 || x == 4

/-- Links after step 8: at x8 or x4 where the alternate form trained them so (parts 0 and 1 at x8, 2 and 3 at x4), down where the
step was skipped or not run. -/
def startLinks (cfg : Vector LinkCfg 2) (st : Nat) (parts : List Nat) : Vector HostLink 2 :=
  let m := partsOf parts 8
  Vector.ofFn fun i =>
    let l : HostLink := { cxl := cfg[i].cxl }
    match st with
    | 1 => { l with up := true, width := 16 }
    | 4 => { l with up := true, width := if m.testBit (i.val + 2) then 4 else if m.testBit i.val then 8 else 16 }
    | _ => { l with up := false }

/-- A region that a link may expose: in CXL mode, 0 to 256 GiB of second-tier memory from a 1 GiB boundary (25:R364). -/
def regionOk (c : LinkCfg) : Bool :=
  c.cxl && decide (c.gib ≤ 256) && c.base % 2 ^ 30 == 0 && decide (tier2Base ≤ c.base)
    && decide (c.base + c.gib * 2 ^ 30 ≤ tier2Base + 1536 * 2 ^ 30)

/-- The two links' configuration from what the controller is given: a region that a link may not expose, or that overlaps the other link's, is
none (assumption 84, DESIGN CHOICE). -/
def linkCfgOf (l : List LinkCfg) : Vector LinkCfg 2 :=
  let one (i : Nat) : LinkCfg :=
    let c := l[i]?.getD {}
    if regionOk c then c else { c with base := 0, gib := 0 }
  let a := one 0
  let b := one 1
  let apart := a.gib == 0 || decide (a.base + a.gib * 2 ^ 30 ≤ b.base) || decide (b.base + b.gib * 2 ^ 30 ≤ a.base)
  #v[a, if apart then b else { b with base := 0, gib := 0 }]

/-- `hl.hdm` of a link that is up (25:R366). -/
def hdmOf (cfg : Vector LinkCfg 2) (links : Vector HostLink 2) : Vector Word 2 :=
  Vector.ofFn fun i => if links[i].up then BitVec.ofNat 64 (cfg[i].base + cfg[i].gib) else 0

namespace State

/-- The LMS indices of a block that were not used are given up (23:R351). -/
def lmsAbandon (s : State) : State := { s with mgmt := { s.mgmt with lmsNext := s.mgmt.lmsEnd } }

/-- At a start the log is told how few LMS indices are left (23:R351). -/
def lmsStart (s : State) : State :=
  let s := s.lmsAbandon
  if 2 ^ 40 - s.mgmt.lmsEnd < 2 ^ 20 then s.logPut 9 0 [] else s

/-- The compute side as a start leaves it before its steps: nothing of the old one but what lies outside it. The controller runs on through a
warm reset, with its update and an activation that is due (29:R397, R398). Retained SRAM survives
a warm reset and the restart after a failed step, not a cold start (27:R389; assumption 74, DESIGN CHOICE). -/
def bare (s : State) (cold : Bool) : State :=
  { State.reset with
    pkgNo := s.pkgNo, freeCtr := s.freeCtr, tagCtr := s.tagCtr, granules := s.granules, ethUp := s.ethUp, replies := s.replies
    mem := s.mem.filter fun c => decide (hostBase ≤ c.1) && decide (c.1 < 2 ^ 61)
    links := s.links, sessions := if cold then [] else s.sessions
    dbg := { tephra := if cold then none else s.dbg.tephra }
    mgmt := { s.mgmt with recoverDue := [], activationDue := s.mgmt.activationDue && !cold, update := if cold then none else s.mgmt.update
                          imageValid := s.mgmt.imageValid && !(cold && s.mgmt.update.isSome), own := s.ownTime, counting := false
                          halted := false, recoveryForm := false, startDue := false
                          retained := if cold then [] else s.mgmt.retained, failedCores := if cold then [] else s.mgmt.failedCores
                          sensors := if cold then Vector.replicate 11 {} else s.mgmt.sensors, barred := if cold then 0 else s.mgmt.barred } }

/-- One start: its steps, its record, and what follows from it. The links train as they are configured, in a mode and with a region that stay
until the next cold start (25:R363, R364). A start that fails is followed by one of kind 3, or, where the image is not valid, by the recovery
form (29:R399, R400). -/
def start (s : State) (kind : Nat) (failed parts : List Nat) (cfg : Vector LinkCfg 2) : State :=
  let s := (s.bare (kind == 0)).lmsStart
  let fail (i : Nat) : Bool := failed.contains i || (i == 2 && !s.mgmt.imageValid)
  let alts := if kind = 3 then s.mgmt.alts else 0
  let steps := stepsFrom s.mgmt.skips alts fail 1 9
  let r := startRecordOf s.mgmt.imageVer kind steps parts
  let st (i : Nat) : Nat := (steps[i - 1]?).getD 0
  let s := s.logPut 7 0 r.bytes
  let done := r.complete
  let links := startLinks cfg (st 8) parts
  let degraded := links.toList.any fun l => l.up && decide (l.width < 16)
  let bits (k : Nat) : BitVec 9 := BitVec.ofNat 9 (((List.range 9).map fun i => if st (i + 1) = k then 2 ^ i else 0).sum)
  { s with
    fwver := r.fwver, fabricUp := r.fabric, links := links
    hl := { id := if done then BitVec.ofNat 64 (0x9D3E0 + r.fwver % 65536 * 2 ^ 32) else 0x9D3E0, status := if degraded then 2 else 0
            hdm := hdmOf cfg links }
    dbg := if st 4 = 4 then {} else s.dbg
    mgmt := { s.mgmt with
      start := r, linkCfg := cfg, skips := s.mgmt.skips ||| bits 5, alts := alts ||| bits 2
      failSteps := if kind = 0 then failed else s.mgmt.failSteps, failParts := parts
      tierOut := BitVec.ofNat 8 (0xFF - presentMask 0xFF (st 5) parts 5), hostOut := st 8 != 1 && st 8 != 4
      counting := done, halted := st 1 == 2 || st 9 == 2
      startDue := (List.range 7).any fun i => st (i + 2) == 2 || st (i + 2) == 5
      nextKind := if st 2 == 2 then 2 else 3 } }

/-- The recovery form's start (29:R399): it is step 2's alternate form. Only the controller and the physical function are up. -/
def recoveryStart (s : State) : State :=
  let s := (s.bare false).lmsStart
  let r : StartRecord := { fwver := s.mgmt.imageVer, kind := 2, steps := #v[1, 4, 0, 0, 0, 0, 0, 0, 0], stackMask := 0, dies := 0, fabric := 0 }
  let s := s.logPut 7 0 r.bytes
  { s with
    fabricUp := 0, links := s.mgmt.linkCfg.map fun c => { up := true, cxl := c.cxl }, hl := { id := 0x9D3E0 }
    mgmt := { s.mgmt with start := r, recoveryForm := true, hostOut := true, tierOut := 0xFF, counting := false } }

/-- The start that the controller owes. A cold start that follows the recovery form finds the steps and parts as they were. -/
def nextStart (s : State) (failed parts : List Nat) : State :=
  if !s.mgmt.startDue then s
  else if s.mgmt.nextKind = 2 then s.recoveryStart
  else s.start s.mgmt.nextKind failed parts s.mgmt.linkCfg

/-- A warm reset, unless the module is halted until a cold start (29:R400). -/
def warmReset (s : State) : State := if s.mgmt.halted then s else s.start 1 s.mgmt.failSteps s.mgmt.failParts s.mgmt.linkCfg

/-! ### Sensors (29:R394, R395, 05:R99) -/

/-- Thresholds of levels 1 to 3 of a sensor and the margin, in tenths of its unit. -/
def sensorLimits (sensor : Nat) : List Nat × Nat :=
  if sensor < 8 then ([950, 1000, 1050], 30)
  else match sensor with
    | 8 => ([26600, 28000, 30000], 500)
    | 9 => ([400, 450, 500], 20)
    | _ => ([20, 15, 10], 1)

/-- A reading `sum / n` has crossed the threshold of level l: it is at it or beyond, and for the flow below it (assumption 93, DEDUCED). -/
def levelEntered (sensor sum n l : Nat) : Bool :=
  let t := (sensorLimits sensor).1[l - 1]?.getD 0
  if sensor = 10 then decide (sum < t * n) else decide (t * n ≤ sum)

/-- A reading lies on the other side of that threshold by the margin. -/
def levelCleared (sensor sum n l : Nat) : Bool :=
  let t := (sensorLimits sensor).1[l - 1]?.getD 0
  let m := (sensorLimits sensor).2
  if sensor = 10 then decide ((t + m) * n ≤ sum) else decide (sum + m * n ≤ t * n)

/-- What a sample makes of a sensor's reading: its samples of the last 100 ms, the level it lies in, and the highest level it is not clear
of. Module power is the mean of those samples. -/
def sensorReading (old : Sensor) (x : Sample) : List Nat × Nat × Nat :=
  let recent := if x.sensor = 8 then (x.value :: old.recent).take 100 else []
  let sum := if x.sensor = 8 then recent.sum else x.value
  let n := if x.sensor = 8 then recent.length else 1
  (recent, ([3, 2, 1].find? (levelEntered x.sensor sum n)).getD 0, ([3, 2, 1].find? fun l => !levelCleared x.sensor sum n l).getD 0)

/-- Level of a sensor after a sample: the sample's own, or a level not yet left. -/
def sensorNext (x : Sensor) (level marginLevel : Nat) : Sensor :=
  let below : Vector Nat 3 := Vector.ofFn fun i => if marginLevel < i.val + 1 then x.below[i] + 1 else 0
  let keeps (l : Nat) : Bool := decide (l ≤ x.level) && decide (below.toList[l - 1]?.getD 0 < 5)
  { level := max level ([3, 2, 1].find? keeps |>.getD 0), below := below, recent := x.recent }

/-- Put every pool at the capacity of its die's level. -/
def setCapacities (s : State) : State :=
  let pool (e : Nat × Pool) : Nat × Pool := (e.1, { e.2 with capacity := capacityAt e.2.created (dieLevel s.mgmt.sensors (e.1 / 4 / 16)) })
  { s with parts := s.parts.map fun (e : Nat × Partition) => (e.1, { e.2 with pools := e.2.pools.map pool }) }

/-- Every task on the affected dies, or on its way to them, is quarantined. -/
def heatQuarantine (s : State) (sensor : Nat) : State :=
  let c := if sensor < 8 then cTHERMAL else cPOWER_ALARM
  let on (core : Nat) : Bool := decide (8 ≤ sensor) || dieOf core == sensor
  let d : Due := { cause := c, cycle := s.cycle }
  let hit (t : Task) : Task := { t with due := t.due ++ [d] }
  { s with
    slots := s.slots.map fun (e : Nat × Task) => if on (coreOf e.1) then (e.1, hit e.2) else e
    deques := s.deques.map fun (e : Nat × Deque) => if on (e.1 % 1024) then (e.1, ⟨e.2.entries.map hit⟩) else e
    cald := { s.cald with steals := s.cald.steals.map fun (x : Steal) => if on (coreOf x.key) then { x with task := hit x.task } else x }
    mgmt := { s.mgmt with barred := s.mgmt.barred ||| (if sensor < 8 then (1 : BitVec 8) <<< sensor else 0xFF) } }

def sampleSensor (s : State) (x : Sample) : State :=
  match s.mgmt.sensors.toList[x.sensor]? with
  | none => s
  | some old =>
    let r := sensorReading old x
    let new := sensorNext { old with recent := r.1 } r.2.1 r.2.2
    let s := { s with mgmt := { s.mgmt with sensors := s.mgmt.sensors.setIfInBounds x.sensor new } }
    if new.level = old.level then s
    else
      let s := s.logPut 5 0 [BitVec.ofNat 8 x.sensor, BitVec.ofNat 8 new.level]
      if new.level = 3 then s.heatQuarantine x.sensor else s

/-- Dies stay barred until every sensor has left level 2. -/
def sampleAll (s : State) (l : List Sample) : State :=
  let s := (l.foldl sampleSensor s).setCapacities
  if s.mgmt.sensors.toList.all fun x => decide (x.level < 2) then { s with mgmt := { s.mgmt with barred := 0 } } else s

/-! ### The log (29:R396) -/

def LogRec.bytes (r : LogRec) : List Byte :=
  leBytes 1 r.kind ++ leBytes 1 r.world.toNat ++ leBytes 6 0 ++ leBytes 8 r.time ++ r.payload ++ List.replicate (48 - r.payload.length) 0

/-! ### Recovery (29:R397) -/

/-- It waits for the end of the gather. -/
def recoverReady (s : State) : Bool := !s.mgmt.recoverDue.isEmpty && s.dbg.freeze.isNone

/-- Recovery: the package's is a warm reset; a world's quarantines what is left of it (17:R276), destroys its partitions and clears its
dies. -/
def recover (s : State) : State :=
  match s.mgmt.recoverDue with
  | [] => s
  | x :: rest =>
    if !s.recoverReady then s
    else
      let s := { s with mgmt := { s.mgmt with recoverDue := rest } }
      match x with
      | none => s.warmReset
      | some w =>
        let s := s.quarantineWorld w
        let ps := (s.parts.filter fun e => e.2.world == w).map (·.1)
        let s := ps.foldl (fun s p => (s.destroyPart p).postEvent (eventRecord 3 p 0 0 0)) s
        ((List.range 8).filter fun d => s.worldOf.toList[d]? == some w).foldl scrub s

/-! ### Firmware update (29:R398, R399) -/

/-- What is wrong with an image at steps 1 and 2 of an update: the step, and the reason that the log keeps: 1 its size, 2 a signature, 3 its
version (assumption 75, DESIGN CHOICE). -/
def imageFault (s : State) (image : List Byte) : Option (Nat × Nat) :=
  if 2 ^ 25 < image.length then some (1, 1)
  else if !Config.imageOk image then some (2, 2)
  else if Config.imageVersion image < s.mgmt.minVersion then some (2, 3)
  else none

/-- A refused or failed update is logged: the step, and the reason. -/
def updateFails (s : State) (step reason : Nat) : State :=
  let s := s.logPut 6 0 [BitVec.ofNat 8 step, BitVec.ofNat 8 reason]
  { s with mgmt := { s.mgmt with update := none } }

/-- Step 3 begins: the image is written over the stored one. -/
def writeBegins (s : State) (image : List Byte) (ok : Bool) : State :=
  let s := (s.logPut 6 0 [1]).logPut 6 0 [2]
  { s with mgmt := { s.mgmt with update := some { version := Config.imageVersion image, ok := ok } } }

def startUpdate (s : State) (session : Nat) (image : List Byte) (ok : Bool) : State :=
  if !s.world0 session then s.reply session 0x320 3 []
  else if s.mgmt.update.isSome || s.mgmt.activationDue || s.mgmt.recoveryForm then s.reply session 0x320 3 []
  else match s.imageFault image with
    | some e => (s.updateFails e.1 e.2).reply session 0x320 2 []
    | none => (s.writeBegins image ok).reply session 0x320 0 []

/-- Step 3 ends with the image verified, or in place of it the running one: reason 4. The recovery form then cold-starts (29:R399). -/
def writeEnds (s : State) (u : Update) : State :=
  if !u.ok then s.updateFails 3 4
  else
    let s := s.logPut 6 0 [3]
    if s.mgmt.recoveryForm then
      { s with mgmt := { s.mgmt with update := none, imageValid := true, imageVer := u.version, startDue := true, nextKind := 0 } }
    else { s with mgmt := { s.mgmt with update := none, activationDue := true, imageVer := u.version } }

/-- A build is under way (21:R333). -/
def building (s : State) : Bool := s.parts.any fun e => e.2.capsules.any fun c => match c.st with
  | .rebuilding => true
  | .unloadPending _ b => b
  | _ => false

/-- Every task has been pre-empted. -/
def allSaved (s : State) : Bool := s.slots.isEmpty && s.cald.preempts.isEmpty && s.cald.steals.isEmpty && s.deques.isEmpty

/-- Step 4: after every build, every task is pre-empted; then the bodies are void and the new firmware runs. -/
def activate (s : State) : State :=
  if !s.mgmt.recoverDue.isEmpty || s.dbg.freeze.isSome || s.building then s
  else if !s.allSaved then
    if s.cald.preempts.isEmpty then s.parts.foldl (fun s e => s.requestPreempt e.1 false []) s else s
  else
    let void (c : Capsule) : Capsule := match c.st with
      | .built => { c with st := .voided }
      | .unloadPending _ b => { c with st := .unloadPending false b }
      | _ => c
    let s := (s.logPut 6 0 [4]).lmsAbandon
    let v := s.mgmt.imageVer
    { s with
      fwver := v, hl := { s.hl with id := BitVec.ofNat 64 (s.hl.id.toNat % 2 ^ 32 + v % 65536 * 2 ^ 32) }
      parts := s.parts.map fun (e : Nat × Partition) => (e.1, { e.2 with capsules := e.2.capsules.map void })
      mgmt := { s.mgmt with activationDue := false } }

/-- The recovery form takes one good image and writes it. -/
def recoverImage (s : State) (image : RecoveryImage) : State :=
  if !s.mgmt.recoveryForm || s.mgmt.update.isSome || s.mgmt.startDue then s
  else match s.imageFault image.bytes with
    | some e => s.updateFails e.1 e.2
    | none => s.writeBegins image.bytes image.ok

/-- Power is lost: everything volatile goes, and a write of an image under way leaves none that is valid: reason 5. -/
def powerOff (s : State) : State :=
  let s := if s.mgmt.update.isSome then s.logPut 6 0 [3, 5] else s
  let s := s.bare true
  { s with mgmt := { s.mgmt with halted := true, lmsNext := s.mgmt.lmsEnd } }

end State

def execSensorSample (samples : List Sample) (s : State) : Out := .next (s.sampleAll samples)

/-- 64 records a chunk, oldest first, to a session of world 0. -/
def execLogRead (session chunk : Nat) (s : State) : Out :=
  .next (if !s.world0 session then s.reply session 0x310 3 []
    else
      let l := (s.mgmt.log.drop (64 * chunk)).take 64
      if l.isEmpty then s.reply session 0x310 2 [] else s.reply session 0x310 0 (l.flatMap State.LogRec.bytes))

def execStartRecordRead (session : Nat) (s : State) : Out := .next (s.reply session 0x311 0 s.mgmt.start.bytes)

/-- Skipped steps run again at the next start. -/
def execStartRecordClear (session : Nat) (s : State) : Out :=
  .next (if s.world0 session then
      State.reply { s with mgmt := { s.mgmt with skips := 0, start := { s.mgmt.start with steps := Vector.replicate 9 0 } } } session 0x312 0 []
    else s.reply session 0x312 3 [])

def execRecovery (s : State) : Out := .next s.recover
def execFirmwareUpdate (session : Nat) (image : List Byte) (ok : Bool) (s : State) : Out := .next (s.startUpdate session image ok)

/-- The write of step 3 ends, or an activation that is due goes on. -/
def execFirmwareActivation (s : State) : Out :=
  .next (match s.mgmt.update with
    | some u => s.writeEnds u
    | none => if s.mgmt.activationDue then s.activate else s)

def execColdStart (failed : List Nat) (parts : StartParts) (s : State) : Out := .next (s.start 0 failed parts.failed (linkCfgOf parts.links))
def execWarmReset (s : State) : Out := .next s.warmReset

def execFailedStepRestart (failed parts : List Nat) (s : State) : Out := .next (s.nextStart failed parts)

def execRecoveryForm (image : RecoveryImage) (s : State) : Out := .next (s.recoverImage image)
def execPowerLoss (s : State) : Out := .next s.powerOff

end Sys2Proof.Machine
end

