-- ==== Sys2Proof/Machine/Dispatch.lean ====
section
/-! DEFINITION. One arm for each constructor of `Instr`: the direct call of its meaning. -/

namespace Sys2Proof.Machine

def exec (i : Instr) (s : State) : Host.Outcome State Fault Refusal :=
  match i with
  | .br off g => Sys2Proof.Machine.execBr off g s
  | .nop => Sys2Proof.Machine.execNop s
  | .call off g => Sys2Proof.Machine.execCall off g s
  | .loop f d ea off => Sys2Proof.Machine.execLoop f d ea off s
  | .jr f a ea => Sys2Proof.Machine.execJr f a ea s
  | .callr o => Sys2Proof.Machine.execCallr o s
  | .ret f ea => Sys2Proof.Machine.execRet f ea s
  | .tend f => Sys2Proof.Machine.execTend f s
  | .hintYield f => Sys2Proof.Machine.execHintYield f s
  | .yield f => Sys2Proof.Machine.execYield f s
  | .gbar f => Sys2Proof.Machine.execGbar f s
  | .add o sat uns => Sys2Proof.Machine.execAdd o sat uns s
  | .sub o sat uns => Sys2Proof.Machine.execSub o sat uns s
  | .and o => Sys2Proof.Machine.execAnd o s
  | .or o => Sys2Proof.Machine.execOr o s
  | .xor o => Sys2Proof.Machine.execXor o s
  | .andn o => Sys2Proof.Machine.execAndn o s
  | .orn o => Sys2Proof.Machine.execOrn o s
  | .shl o => Sys2Proof.Machine.execShl o s
  | .shr o => Sys2Proof.Machine.execShr o s
  | .sra o => Sys2Proof.Machine.execSra o s
  | .rol o => Sys2Proof.Machine.execRol o s
  | .ror o => Sys2Proof.Machine.execRor o s
  | .min o => Sys2Proof.Machine.execMin o s
  | .max o => Sys2Proof.Machine.execMax o s
  | .minu o => Sys2Proof.Machine.execMinu o s
  | .maxu o => Sys2Proof.Machine.execMaxu o s
  | .clz o => Sys2Proof.Machine.execClz o s
  | .ctz o => Sys2Proof.Machine.execCtz o s
  | .popc o => Sys2Proof.Machine.execPopc o s
  | .sext o => Sys2Proof.Machine.execSext o s
  | .zext o => Sys2Proof.Machine.execZext o s
  | .bext o => Sys2Proof.Machine.execBext o s
  | .bins o => Sys2Proof.Machine.execBins o s
  | .sh1add o => Sys2Proof.Machine.execSh1add o s
  | .sh2add o => Sys2Proof.Machine.execSh2add o s
  | .sh3add o => Sys2Proof.Machine.execSh3add o s
  | .sh4add o => Sys2Proof.Machine.execSh4add o s
  | .mul o => Sys2Proof.Machine.execMul o s
  | .mulh o => Sys2Proof.Machine.execMulh o s
  | .mulhu o => Sys2Proof.Machine.execMulhu o s
  | .mulhsu o => Sys2Proof.Machine.execMulhsu o s
  | .div o => Sys2Proof.Machine.execDiv o s
  | .divu o => Sys2Proof.Machine.execDivu o s
  | .rem o => Sys2Proof.Machine.execRem o s
  | .remu o => Sys2Proof.Machine.execRemu o s
  | .cmpEq o => Sys2Proof.Machine.execCmpEq o s
  | .cmpNe o => Sys2Proof.Machine.execCmpNe o s
  | .cmpLt o => Sys2Proof.Machine.execCmpLt o s
  | .cmpGe o => Sys2Proof.Machine.execCmpGe o s
  | .cmpLtu o => Sys2Proof.Machine.execCmpLtu o s
  | .cmpGeu o => Sys2Proof.Machine.execCmpGeu o s
  | .addi o => Sys2Proof.Machine.execAddi o s
  | .andi o => Sys2Proof.Machine.execAndi o s
  | .ori o => Sys2Proof.Machine.execOri o s
  | .xori o => Sys2Proof.Machine.execXori o s
  | .shli o => Sys2Proof.Machine.execShli o s
  | .shri o => Sys2Proof.Machine.execShri o s
  | .srai o => Sys2Proof.Machine.execSrai o s
  | .cmpiEq o => Sys2Proof.Machine.execCmpiEq o s
  | .cmpiNe o => Sys2Proof.Machine.execCmpiNe o s
  | .cmpiLt o => Sys2Proof.Machine.execCmpiLt o s
  | .cmpiGe o => Sys2Proof.Machine.execCmpiGe o s
  | .cmpiuLtu o => Sys2Proof.Machine.execCmpiuLtu o s
  | .cmpiuGeu o => Sys2Proof.Machine.execCmpiuGeu o s
  | .rdms f d num => Sys2Proof.Machine.execRdms f d num s
  | .wrms f a ea num => Sys2Proof.Machine.execWrms f a ea num s
  | .gnarrow f d a b eb c ec drop => Sys2Proof.Machine.execGnarrow f d a b eb c ec drop s
  | .grd f d a hi => Sys2Proof.Machine.execGrd f d a hi s
  | .pand o => Sys2Proof.Machine.execPand o s
  | .por o => Sys2Proof.Machine.execPor o s
  | .pxor o => Sys2Proof.Machine.execPxor o s
  | .pnot o => Sys2Proof.Machine.execPnot o s
  | .pmov o => Sys2Proof.Machine.execPmov o s
  | .vwhile g ty d a ea b eb => Sys2Proof.Machine.execVwhile g ty d a ea b eb s
  | .pcnt ty d a => Sys2Proof.Machine.execPcnt ty d a s
  | .vmov o => Sys2Proof.Machine.execVmov o s
  | .vbcast o => Sys2Proof.Machine.execVbcast o s
  | .vins o => Sys2Proof.Machine.execVins o s
  | .vext o => Sys2Proof.Machine.execVext o s
  | .vperm o => Sys2Proof.Machine.execVperm o s
  | .vsel o => Sys2Proof.Machine.execVsel o s
  | .vintVadd o => Sys2Proof.Machine.execVintVadd o s
  | .vintVsub o => Sys2Proof.Machine.execVintVsub o s
  | .vintVmul o => Sys2Proof.Machine.execVintVmul o s
  | .vintVmulh o => Sys2Proof.Machine.execVintVmulh o s
  | .vintVmin o => Sys2Proof.Machine.execVintVmin o s
  | .vintVmax o => Sys2Proof.Machine.execVintVmax o s
  | .vintVand o => Sys2Proof.Machine.execVintVand o s
  | .vintVor o => Sys2Proof.Machine.execVintVor o s
  | .vintVxor o => Sys2Proof.Machine.execVintVxor o s
  | .vintVandn o => Sys2Proof.Machine.execVintVandn o s
  | .vintVshl o => Sys2Proof.Machine.execVintVshl o s
  | .vintVshr o => Sys2Proof.Machine.execVintVshr o s
  | .vintVsra o => Sys2Proof.Machine.execVintVsra o s
  | .vintVabs o => Sys2Proof.Machine.execVintVabs o s
  | .vintVneg o => Sys2Proof.Machine.execVintVneg o s
  | .vintVcmpEq o => Sys2Proof.Machine.execVintVcmpEq o s
  | .vintVcmpNe o => Sys2Proof.Machine.execVintVcmpNe o s
  | .vintVcmpLt o => Sys2Proof.Machine.execVintVcmpLt o s
  | .vintVcmpLe o => Sys2Proof.Machine.execVintVcmpLe o s
  | .vdot4 o => Sys2Proof.Machine.execVdot4 o s
  | .vintVsum o => Sys2Proof.Machine.execVintVsum o s
  | .vfpVadd o => Sys2Proof.Machine.execVfpVadd o s
  | .vfpVsub o => Sys2Proof.Machine.execVfpVsub o s
  | .vfpVmul o => Sys2Proof.Machine.execVfpVmul o s
  | .vfpVmin o => Sys2Proof.Machine.execVfpVmin o s
  | .vfpVmax o => Sys2Proof.Machine.execVfpVmax o s
  | .vfpVabs o => Sys2Proof.Machine.execVfpVabs o s
  | .vfpVneg o => Sys2Proof.Machine.execVfpVneg o s
  | .vfpVcmpEq o => Sys2Proof.Machine.execVfpVcmpEq o s
  | .vfpVcmpNe o => Sys2Proof.Machine.execVfpVcmpNe o s
  | .vfpVcmpLt o => Sys2Proof.Machine.execVfpVcmpLt o s
  | .vfpVcmpLe o => Sys2Proof.Machine.execVfpVcmpLe o s
  | .vfpVsum o => Sys2Proof.Machine.execVfpVsum o s
  | .vfma o => Sys2Proof.Machine.execVfma o s
  | .vfms o => Sys2Proof.Machine.execVfms o s
  | .vfnma o => Sys2Proof.Machine.execVfnma o s
  | .vfnms o => Sys2Proof.Machine.execVfnms o s
  | .fmt w => Sys2Proof.Machine.execFmt w s
  | .cvt o => Sys2Proof.Machine.execCvt o s
  | .cvtMx o => Sys2Proof.Machine.execCvtMx o s
  | .sfuExp o => Sys2Proof.Machine.execSfuExp o s
  | .sfuLog o => Sys2Proof.Machine.execSfuLog o s
  | .sfuRcp o => Sys2Proof.Machine.execSfuRcp o s
  | .sfuRsqrt o => Sys2Proof.Machine.execSfuRsqrt o s
  | .sfuSqrt o => Sys2Proof.Machine.execSfuSqrt o s
  | .sfuSin o => Sys2Proof.Machine.execSfuSin o s
  | .sfuCos o => Sys2Proof.Machine.execSfuCos o s
  | .sfuTanh o => Sys2Proof.Machine.execSfuTanh o s
  | .sfuSigm o => Sys2Proof.Machine.execSfuSigm o s
  | .ldD8 o => Sys2Proof.Machine.execLdD8 o s
  | .ldD16 o => Sys2Proof.Machine.execLdD16 o s
  | .ldD32 o => Sys2Proof.Machine.execLdD32 o s
  | .ldD64 o => Sys2Proof.Machine.execLdD64 o s
  | .ldD128 o => Sys2Proof.Machine.execLdD128 o s
  | .stD4 o => Sys2Proof.Machine.execStD4 o s
  | .stD8 o => Sys2Proof.Machine.execStD8 o s
  | .stD16 o => Sys2Proof.Machine.execStD16 o s
  | .stD32 o => Sys2Proof.Machine.execStD32 o s
  | .stD64 o => Sys2Proof.Machine.execStD64 o s
  | .stD128 o => Sys2Proof.Machine.execStD128 o s
  | .ldfe o => Sys2Proof.Machine.execLdfe o s
  | .ldfeTake o => Sys2Proof.Machine.execLdfeTake o s
  | .stfe o => Sys2Proof.Machine.execStfe o s
  | .qld o => Sys2Proof.Machine.execQld o s
  | .qst o => Sys2Proof.Machine.execQst o s
  | .amoD32 o => Sys2Proof.Machine.execAmoD32 o s
  | .amoD64 o => Sys2Proof.Machine.execAmoD64 o s
  | .fork f m t => Sys2Proof.Machine.execFork f m t s
  | .join o => Sys2Proof.Machine.execJoin o s
  | .waddr o => Sys2Proof.Machine.execWaddr o s
  | .fence f o => Sys2Proof.Machine.execFence f o s
  | .qwait f sel => Sys2Proof.Machine.execQwait f sel s
  | .send f a ea b eb => Sys2Proof.Machine.execSend f a ea b eb s
  | .recv f d a ea => Sys2Proof.Machine.execRecv f d a ea s
  | .recvKeep f d a ea => Sys2Proof.Machine.execRecvKeep f d a ea s
  | .mwait f a ea => Sys2Proof.Machine.execMwait f a ea s
  | .tcmd f a ea b eb => Sys2Proof.Machine.execTcmd f a ea b eb s
  | .semSig f n => Sys2Proof.Machine.execSemSig f n s
  | .semWait f n => Sys2Proof.Machine.execSemWait f n s
  | .pwrAcq f cls n => Sys2Proof.Machine.execPwrAcq f cls n s
  | .pwrRel f cls n => Sys2Proof.Machine.execPwrRel f cls n s
  | .termrd f d num => Sys2Proof.Machine.execTermrd f d num s
  | .stepget f d sel a ea => Sys2Proof.Machine.execStepget f d sel a ea s
  | .stoptest o => Sys2Proof.Machine.execStoptest o s
  | .seqret o why => Sys2Proof.Machine.execSeqret o why s
  | .seqadm o => Sys2Proof.Machine.execSeqadm o s
  | .poolTake f d => Sys2Proof.Machine.execPoolTake f d s
  | .poolGive f a ea => Sys2Proof.Machine.execPoolGive f a ea s
  | .trap f imm => Sys2Proof.Machine.execTrap f imm s
  | .trapret f => Sys2Proof.Machine.execTrapret f s
  | .gwrite f d a ea b eb => Sys2Proof.Machine.execGwrite f d a ea b eb s
  | .ctxsave f d a ea g => Sys2Proof.Machine.execCtxsave f d a ea g s
  | .ctxsaveTile f d g => Sys2Proof.Machine.execCtxsaveTile f d g s
  | .ctxrest f d a ea g => Sys2Proof.Machine.execCtxrest f d a ea g s
  | .ctxrestTile f d g => Sys2Proof.Machine.execCtxrestTile f d g s
  | .rebuild o => Sys2Proof.Machine.execRebuild o s
  | .recmark f a ea tag => Sys2Proof.Machine.execRecmark f a ea tag s
  | .bkpt f code => Sys2Proof.Machine.execBkpt f code s
  | .halt f d a ea op => Sys2Proof.Machine.execHalt f d a ea op s
  | .fwcall o => Sys2Proof.Machine.execFwcall o s
  | .termclr f => Sys2Proof.Machine.execTermclr f s
  | .mm tile => Sys2Proof.Machine.execMm tile s
  | .gath tile => Sys2Proof.Machine.execGath tile s
  | .copy tile => Sys2Proof.Machine.execCopy tile s
  | .copyCin tile => Sys2Proof.Machine.execCopyCin tile s
  | .copyDec tile => Sys2Proof.Machine.execCopyDec tile s
  | .copyEnc tile => Sys2Proof.Machine.execCopyEnc tile s
  | .collPut tile => Sys2Proof.Machine.execCollPut tile s
  | .collAdd tile => Sys2Proof.Machine.execCollAdd tile s
  | .collAr tile => Sys2Proof.Machine.execCollAr tile s
  | .queueFence tile => Sys2Proof.Machine.execQueueFence tile s
  | .engineCommandComplete tile q => Sys2Proof.Machine.execEngineCommandComplete tile q s
  | .engineDeadlineExpiry tile q => Sys2Proof.Machine.execEngineDeadlineExpiry tile q s
  | .registerDelivery tag how => Sys2Proof.Machine.execRegisterDelivery tag how s
  | .messageArrival tag => Sys2Proof.Machine.execMessageArrival tag s
  | .taskWake key => Sys2Proof.Machine.execTaskWake key s
  | .slotOverdue core => Sys2Proof.Machine.execSlotOverdue core s
  | .issueRunLimit core => Sys2Proof.Machine.execIssueRunLimit core s
  | .yieldAgeLimit key => Sys2Proof.Machine.execYieldAgeLimit key s
  | .idleSlotSearch key => Sys2Proof.Machine.execIdleSlotSearch key s
  | .stealComplete key => Sys2Proof.Machine.execStealComplete key s
  | .calderaPlacement part => Sys2Proof.Machine.execCalderaPlacement part s
  | .gangReservation part => Sys2Proof.Machine.execGangReservation part s
  | .reservationPreempt part => Sys2Proof.Machine.execReservationPreempt part s
  | .sliceBoundary part => Sys2Proof.Machine.execSliceBoundary part s
  | .launchPacket part q => Sys2Proof.Machine.execLaunchPacket part q s
  | .unloadPacket part q => Sys2Proof.Machine.execUnloadPacket part q s
  | .launchDone launch => Sys2Proof.Machine.execLaunchDone launch s
  | .ringTailWatch part ring => Sys2Proof.Machine.execRingTailWatch part ring s
  | .ringWatchReread ring => Sys2Proof.Machine.execRingWatchReread ring s
  | .ringSpaceFreed part ring => Sys2Proof.Machine.execRingSpaceFreed part ring s
  | .stepDescriptorBuild part => Sys2Proof.Machine.execStepDescriptorBuild part s
  | .stepSchedulerStart part => Sys2Proof.Machine.execStepSchedulerStart part s
  | .calderaReply key => Sys2Proof.Machine.execCalderaReply key s
  | .releasePerformed tag => Sys2Proof.Machine.execReleasePerformed tag s
  | .queuedStoreAccept tag how => Sys2Proof.Machine.execQueuedStoreAccept tag how s
  | .remoteAccessRequest tag => Sys2Proof.Machine.execRemoteAccessRequest tag s
  | .remoteNibbleStore tag => Sys2Proof.Machine.execRemoteNibbleStore tag s
  | .waddrRecheck key => Sys2Proof.Machine.execWaddrRecheck key s
  | .pageWalk idx => Sys2Proof.Machine.execPageWalk idx s
  | .faultReply part idx => Sys2Proof.Machine.execFaultReply part idx s
  | .leaseExpiry cluster idx => Sys2Proof.Machine.execLeaseExpiry cluster idx s
  | .migrationMoveComplete part vpage ok => Sys2Proof.Machine.execMigrationMoveComplete part vpage ok s
  | .hysteresisExpiry part vpage => Sys2Proof.Machine.execHysteresisExpiry part vpage s
  | .atsInvalidateTimeout link idx => Sys2Proof.Machine.execAtsInvalidateTimeout link idx s
  | .atsInvalidateCompletion link idx => Sys2Proof.Machine.execAtsInvalidateCompletion link idx s
  | .preemptRequestArrival part core => Sys2Proof.Machine.execPreemptRequestArrival part core s
  | .preemptEngineAbort tile q => Sys2Proof.Machine.execPreemptEngineAbort tile q s
  | .tileImageSave part vtile => Sys2Proof.Machine.execTileImageSave part vtile s
  | .calderaRestore part => Sys2Proof.Machine.execCalderaRestore part s
  | .trapEntry key => Sys2Proof.Machine.execTrapEntry key s
  | .quarantine key cause => Sys2Proof.Machine.execQuarantine key cause s
  | .breakAddr key => Sys2Proof.Machine.execBreakAddr key s
  | .stopMessageArrival core idx => Sys2Proof.Machine.execStopMessageArrival core idx s
  | .triggerArrival core part id action count opkg ocore ocycle => Sys2Proof.Machine.execTriggerArrival core part id action count opkg ocore ocycle s
  | .issueSample core => Sys2Proof.Machine.execIssueSample core s
  | .freezeArrival core => Sys2Proof.Machine.execFreezeArrival core s
  | .waitForEventTimeout session part => Sys2Proof.Machine.execWaitForEventTimeout session part s
  | .buildComplete part capid => Sys2Proof.Machine.execBuildComplete part capid s
  | .poisonReport part pa => Sys2Proof.Machine.execPoisonReport part pa s
  | .fwver => Sys2Proof.Machine.execFwver s
  | .setpol => Sys2Proof.Machine.execSetpol s
  | .donate => Sys2Proof.Machine.execDonate s
  | .settvseg => Sys2Proof.Machine.execSettvseg s
  | .termclrall => Sys2Proof.Machine.execTermclrall s
  | .time => Sys2Proof.Machine.execTime s
  | .hdmbase => Sys2Proof.Machine.execHdmbase s
  | .setlease => Sys2Proof.Machine.execSetlease s
  | .setptroot => Sys2Proof.Machine.execSetptroot s
  | .setfring => Sys2Proof.Machine.execSetfring s
  | .setdeadline => Sys2Proof.Machine.execSetdeadline s
  | .collgrp => Sys2Proof.Machine.execCollgrp s
  | .preempt => Sys2Proof.Machine.execPreempt s
  | .requeue => Sys2Proof.Machine.execRequeue s
  | .stepcfg => Sys2Proof.Machine.execStepcfg s
  | .capinst => Sys2Proof.Machine.execCapinst s
  | .capref => Sys2Proof.Machine.execCapref s
  | .capdel => Sys2Proof.Machine.execCapdel s
  | .capstat => Sys2Proof.Machine.execCapstat s
  | .ctxdrop => Sys2Proof.Machine.execCtxdrop s
  | .capexp => Sys2Proof.Machine.execCapexp s
  | .keyload => Sys2Proof.Machine.execKeyload s
  | .keydrop => Sys2Proof.Machine.execKeydrop s
  | .keyctr => Sys2Proof.Machine.execKeyctr s
  | .domset => Sys2Proof.Machine.execDomset s
  | .domleave => Sys2Proof.Machine.execDomleave s
  | .domstat => Sys2Proof.Machine.execDomstat s
  | .pgrebuild => Sys2Proof.Machine.execPgrebuild s
  | .scTakeEffect => Sys2Proof.Machine.execScTakeEffect s
  | .leaseWithdrawal tag => Sys2Proof.Machine.execLeaseWithdrawal tag s
  | .directoryDeviceFault part vpage => Sys2Proof.Machine.execDirectoryDeviceFault part vpage s
  | .atsInvalidateRequest link lo hi => Sys2Proof.Machine.execAtsInvalidateRequest link lo hi s
  | .ringGather => Sys2Proof.Machine.execRingGather s
  | .debugAttach head part => Sys2Proof.Machine.execDebugAttach head part s
  | .debugDetach head part => Sys2Proof.Machine.execDebugDetach head part s
  | .setBreakpoint head part b capid off gtid action trigId trigAction => Sys2Proof.Machine.execSetBreakpoint head part b capid off gtid action trigId trigAction s
  | .setWatchpoint head part w kind vtile addr k mask gtid action trigId trigAction => Sys2Proof.Machine.execSetWatchpoint head part w kind vtile addr k mask gtid action trigId trigAction s
  | .debugStop head part gtid => Sys2Proof.Machine.execDebugStop head part gtid s
  | .debugGo head part gtid => Sys2Proof.Machine.execDebugGo head part gtid s
  | .debugStep head part gtid => Sys2Proof.Machine.execDebugStep head part gtid s
  | .debugStopCluster head part gtid => Sys2Proof.Machine.execDebugStopCluster head part gtid s
  | .debugGoCluster head part gtid => Sys2Proof.Machine.execDebugGoCluster head part gtid s
  | .debugStopPartition head part => Sys2Proof.Machine.execDebugStopPartition head part s
  | .readRegister head part gtid file index => Sys2Proof.Machine.execReadRegister head part gtid file index s
  | .writeRegister head part gtid file index value => Sys2Proof.Machine.execWriteRegister head part gtid file index value s
  | .readTileMemory head part vtile addr len => Sys2Proof.Machine.execReadTileMemory head part vtile addr len s
  | .sendTrigger head part id action count => Sys2Proof.Machine.execSendTrigger head part id action count s
  | .setSamplePeriod head part k => Sys2Proof.Machine.execSetSamplePeriod head part k s
  | .zeroDelayAccumulators head part core => Sys2Proof.Machine.execZeroDelayAccumulators head part core s
  | .readLiveRing head part core => Sys2Proof.Machine.execReadLiveRing head part core s
  | .waitForEvent head part => Sys2Proof.Machine.execWaitForEvent head part s
  | .readTephra head chunk => Sys2Proof.Machine.execReadTephra head chunk s
  | .releaseTephra head => Sys2Proof.Machine.execReleaseTephra head s
  | .debugSessionEnd session => Sys2Proof.Machine.execDebugSessionEnd session s
  | .createPartition r => Sys2Proof.Machine.execCreatePartition r s
  | .destroyPartition part => Sys2Proof.Machine.execDestroyPartition part s
  | .resizePartition part cores => Sys2Proof.Machine.execResizePartition part cores s
  | .bindVirtualDevice part dev weight slice => Sys2Proof.Machine.execBindVirtualDevice part dev weight slice s
  | .directoryHostFault part vpage => Sys2Proof.Machine.execDirectoryHostFault part vpage s
  | .createWorld die world secret capKeys => Sys2Proof.Machine.execCreateWorld die world secret capKeys s
  | .hlReqringWrite base => Sys2Proof.Machine.execHlReqringWrite base s
  | .hlEvringWrite base => Sys2Proof.Machine.execHlEvringWrite base s
  | .registerWrite offset value => Sys2Proof.Machine.execRegisterWrite offset value s
  | .logRead session chunk => Sys2Proof.Machine.execLogRead session chunk s
  | .startRecordRead session => Sys2Proof.Machine.execStartRecordRead session s
  | .startRecordClear session => Sys2Proof.Machine.execStartRecordClear session s
  | .sensorSample samples => Sys2Proof.Machine.execSensorSample samples s
  | .recovery => Sys2Proof.Machine.execRecovery s
  | .firmwareUpdate session image ok => Sys2Proof.Machine.execFirmwareUpdate session image ok s
  | .firmwareActivation => Sys2Proof.Machine.execFirmwareActivation s
  | .coldStart failed parts => Sys2Proof.Machine.execColdStart failed parts s
  | .warmReset => Sys2Proof.Machine.execWarmReset s
  | .failedStepRestart failed parts => Sys2Proof.Machine.execFailedStepRestart failed parts s
  | .recoveryForm image => Sys2Proof.Machine.execRecoveryForm image s
  | .powerLoss => Sys2Proof.Machine.execPowerLoss s
  | .uncorrectableError pa treeLevel => Sys2Proof.Machine.execUncorrectableError pa treeLevel s
  | .hostOwnershipRequest pa data => Sys2Proof.Machine.execHostOwnershipRequest pa data s
  | .ideIntegrityFailure part link => Sys2Proof.Machine.execIdeIntegrityFailure part link s
  | .fabricRequestTimeout tag => Sys2Proof.Machine.execFabricRequestTimeout tag s
  | .fabricLinkFailure link => Sys2Proof.Machine.execFabricLinkFailure link s
  | .transportLoss peer => Sys2Proof.Machine.execTransportLoss peer s
  | .linkStateChange link up width => Sys2Proof.Machine.execLinkStateChange link up width s
  | .domainJoin part okMembers => Sys2Proof.Machine.execDomainJoin part okMembers s
  | .getVersion session => Sys2Proof.Machine.execGetVersion session s
  | .getCapabilities session => Sys2Proof.Machine.execGetCapabilities session s
  | .negotiateAlgorithms session => Sys2Proof.Machine.execNegotiateAlgorithms session s
  | .getCertificate session => Sys2Proof.Machine.execGetCertificate session s
  | .challenge session => Sys2Proof.Machine.execChallenge session s
  | .getMeasurements session => Sys2Proof.Machine.execGetMeasurements session s
  | .keyExchange session => Sys2Proof.Machine.execKeyExchange session s
  | .finish session => Sys2Proof.Machine.execFinish session s
  | .pskExchange session world psk => Sys2Proof.Machine.execPskExchange session world psk s
  | .domainMessageReceive part bytes => Sys2Proof.Machine.execDomainMessageReceive part bytes s
  | .barrier part gen => Sys2Proof.Machine.execBarrier part gen s
  | .drained part member => Sys2Proof.Machine.execDrained part member s
  | .domainKey part key => Sys2Proof.Machine.execDomainKey part key s
  | .ready part member => Sys2Proof.Machine.execReady part member s
  | .domOpen part => Sys2Proof.Machine.execDomOpen part s
  | .barrierDrainTimeout part => Sys2Proof.Machine.execBarrierDrainTimeout part s
  | .heartbeat part => Sys2Proof.Machine.execHeartbeat part s
  | .heartbeatReceive part member => Sys2Proof.Machine.execHeartbeatReceive part member s
  | .coordinatorLost part => Sys2Proof.Machine.execCoordinatorLost part s
  | .successorMessage part member => Sys2Proof.Machine.execSuccessorMessage part member s
  | .successorJoinTimeout part member => Sys2Proof.Machine.execSuccessorJoinTimeout part member s
  | .frameBoundary => Sys2Proof.Machine.execFrameBoundary s
  | .lockInterface part link => Sys2Proof.Machine.execLockInterface part link s
  | .fabricRequest world kind pa len data => Sys2Proof.Machine.execFabricRequest world kind pa len data s
  | .coreFailure core => Sys2Proof.Machine.execCoreFailure core s

end Sys2Proof.Machine
end

