-- ==== Sys2Proof/Machine/Issue.lean ====
section
/-! DEFINITION. Which slot of a core issues and what it performs, and which event comes when no core issues in a cycle any more
(02:R36 to R40, 17:R272, 20:R310; assumption 2, DESIGN CHOICE). -/

namespace Sys2Proof.Machine

namespace State

/-! ### Choosing a slot (02:R38, R39) -/

/-- What a core does with an owned cycle: a task that finds a register empty parks, an event of its barrel policy comes, or a slot issues. -/
inductive Pick
  | event (i : Instr)
  | parks (key : Nat)
  | slot (key : Nat)
  deriving DecidableEq, Repr

/-- Round-robin: the first ready slot after the one that last issued, wrapping. -/
def pickRound (l : List (Nat × Task)) (last : Option Nat) : Option Nat :=
  let after := match last with
    | none => []
    | some n => l.filter fun e => decide (n < slotOf e.1)
  ((after ++ l).head?).map (·.1)

/-- Greedy-then-oldest. -/
def pickGreedy (s : State) (core part : Nat) (l : List (Nat × Task)) (k : Counters) : Option Pick :=
  match oldest (l.filter overdue) with
  | some e => some (if k.current == some (slotOf e.1) then .slot e.1 else .event (.slotOverdue core))
  | none =>
    match l.find? fun e => k.current == some (slotOf e.1) with
    | none => (oldest l).map fun e => .slot e.1
    | some c =>
      if 64 ≤ k.runCount then some (.event (.issueRunLimit core))
      else if s.hinted core part k then some (.slot (((oldest (l.filter fun e => e.1 != c.1)).getD c).1))
      else some (.slot c.1)

/-- Perform a turn at the current slot. -/
def perform1 (s : State) (key : Nat) : Turn → Out
  | .trust c => exec (.quarantine key c) s
  | .due => exec (.trapEntry key) s
  | .call i => exec i s
  | .back => exec (.trapret .w32) s
  | .bound => .next (s.trap { cause := cFETCH_BOUND, addr := s.task.pc })
  | .stopAt => exec (.breakAddr key) s
  | .bad e => .next (s.trapC e.cause)
  | .instr i => exec i s

/-- The task has parked on an empty register. -/
def foundEmpty (s : State) (key : Nat) : Bool :=
  match (s.taskAt key).run with
  | .parked 1 (.full _) => true
  | .parked 3 (.full _) => true
  | _ => false

/-- The instruction of a slot finds a register empty: the slot is not ready, and its task parks without an issue (02:R38; assumption 2, DESIGN
CHOICE). One that fills in this cycle is not found empty: the attempt takes the cycle, and the instruction issues again (03:R51). -/
def findsEmpty (s : State) (key : Nat) : Bool :=
  match s.turnOf (s.taskAt key) with
  | .instr i => match exec i (s.at_ key) with
    | .next t => t.foundEmpty key
    | _ => false
  | _ => false

/-- What a core does in the current cycle; none where nothing of it may issue. -/
def pick (s : State) (core : Nat) : Option Pick :=
  match s.cyclePart core with
  | none => none
  | some part =>
    -- a core whose record queue holds no room issues nothing (27:R386)
    if 64 ≤ (s.core core).recorder.queued s.cycle then none
    else
    let l := s.readyOn core part
    let k := s.counts part core
    match l.find? fun e => s.findsEmpty e.1 with
    | some e => some (.parks e.1)
    | none => if ((s.partOf? part).map (·.pol)).getD false then (pickRound l k.lastSlot).map .slot else s.pickGreedy core part l k

/-! ### Issue -/

/-- The accounts of an issue: wait counts, the current slot, its run, the cycle of its last issue, the instructions it has issued
(02:R38, R39, 10:R173, 27:R380). -/
def issued (s : State) (key : Nat) : State :=
  let t := s.taskAt key
  let c := coreOf key
  let others := (s.readyOn c t.part).filter fun e => e.1 != key
  let s := others.foldl (fun s e => s.putTask e.1 { e.2 with waitCount := e.2.waitCount + 1 }) s
  let s := s.putTask key { t with lastIssue := some s.cycle, waitCount := 0, nissued := t.nissued + 1 }
  let s := s.modCounts t.part c fun k => { k with
    current := some (slotOf key), runCount := if k.current == some (slotOf key) then k.runCount + 1 else 1
    lastSlot := some (slotOf key), hint := none }
  let late (x : Nat × StopMsg) : Nat × StopMsg :=
    if x.2.gtid == t.gtid && x.2.cycle == s.cycle && x.2.cause != cWATCH then (x.1, { x.2 with base := x.2.base + 1 }) else x
  { s with turn := c + 1, dbg := { s.dbg with stops := s.dbg.stops.map late } }

/-- Whether the turn takes the core's issue cycle: a quarantine and a breakpoint take none. -/
def takesCycle : Turn → Bool
  | .trust _ => false
  | .stopAt => false
  | _ => true

/-- The slot of a core has its turn. -/
def slotTurn (s : State) (key : Nat) : Out :=
  let s := s.at_ key
  let t := s.turnOf s.task
  if takesCycle t then (s.issued key).perform1 key t
  else
    match s.perform1 key t with
    | .next s' => .next (if s'.taskAt key = s.taskAt key then { s' with turn := coreOf key + 1 } else s')
    | o => o

/-- Serve a core. -/
def serve (s : State) : Pick → Out
  | .event i => exec i s
  | .parks k => (s.at_ k).perform1 k (s.turnOf (s.taskAt k))
  | .slot k => s.slotTurn k

/-- Cores from the current turn on that hold tasks, ascending. -/
def busyCores (s : State) : List Nat := ((s.slots.map fun (e : Nat × Task) => coreOf e.1).filter fun c => decide (s.turn ≤ c)).eraseDups

/-- The next core with something to do in this cycle. -/
def nextPick (s : State) : Option Pick := s.busyCores.findSome? s.pick

/-! ### Events (assumption 2, DESIGN CHOICE) -/

/-- Every number below the length of a list. -/
def indices {α : Type} (l : List α) : List Nat := List.range l.length

/-- The slots whose requests Caldera serves, in its order: savers of one slot by their own slots (18:R283), restores in the order in which they
issued, cores and slots ascending within a cycle (22:R340). -/
def askOrder (s : State) : List Nat :=
  let rest (a : Asked) : Bool := match a.ask with
    | .ctxrest _ _ => true
    | _ => false
  ((s.cald.asked.filter fun a => !rest a).foldl (fun (l : List Nat) (a : Asked) => insNat l a.key) [])
    ++ ((s.cald.asked.filter rest).map (·.key)).eraseDups

/-- The engines of a tile take up what they may, in the order of 06:R103, the matrix engine last; then the queue-fence entries. -/
def engineStarts (s : State) : List (State → Out) :=
  s.tiles.flatMap fun (e : Nat × Tile) =>
    let t := e.1
    if e.2.queues.toList.all List.isEmpty then []
    else [exec (.gath t), exec (.copy t), exec (.copyCin t), exec (.copyDec t), exec (.copyEnc t), exec (.collPut t), exec (.collAdd t),
        exec (.collAr t), exec (.mm t), exec (.queueFence t)]

/-- What ends the wait of a command, or a command, of the engine queues of the tiles. -/
def engineEvents (s : State) : List (State → Out) :=
  s.tiles.flatMap fun (e : Nat × Tile) =>
    let t := e.1
    if e.2.queues.toList.all List.isEmpty then []
    else ((List.range 4).map fun q => exec (.engineDeadlineExpiry t q)) ++ [exec (.preemptEngineAbort t 1), exec (.preemptEngineAbort t 2)]

/-- What arrives in a cycle comes before its issues, so that a read of a register that fills in it finds the delivery (03:R51, 17:R272):
results, messages, completions and starts of commands, codes of builds, and Caldera's replies. -/
def arrivals (s : State) : List (State → Out) :=
  (s.net.accs.map fun (a : Acc) => exec (.registerDelivery a.tag .arrive))
    ++ (s.net.sfu.map fun (r : SfuReq) => exec (.registerDelivery r.tag .arrive))
    ++ (s.net.msgs.map fun (m : Msg) => exec (.messageArrival m.tag))
    ++ (s.slots.flatMap fun (e : Nat × Task) => e.2.inbox.map fun (m : Msg) => exec (.messageArrival m.tag))
    ++ (s.tiles.flatMap fun (e : Nat × Tile) =>
      if e.2.queues.toList.all List.isEmpty then [] else (List.range 4).map fun q => exec (.engineCommandComplete e.1 q))
    ++ (s.parts.flatMap fun (e : Nat × Partition) => e.2.capsules.map fun (c : Capsule) => exec (.buildComplete e.1 c.capid))
    ++ s.engineStarts ++ s.engineEvents
    ++ s.askOrder.map fun k => exec (.calderaReply k)

/-- A request that nothing holds back any more leaves its core's port (27:R385). -/
def portLeft (s : State) (tag : Nat) : State := match s.accOf? tag with
  | none => s
  | some a => s.leavePort a

/-- Accesses and SC operations under way. -/
def netEvents (s : State) : List (State → Out) :=
  execScTakeEffect
    :: (s.net.helds.map fun (h : Held) => exec (.releasePerformed h.tag))
    ++ s.net.accs.flatMap fun (a : Acc) =>
      [fun s => .next (s.portLeft a.tag), execLeaseWithdrawal a.tag, exec (.remoteAccessRequest a.tag), exec (.remoteNibbleStore a.tag),
        exec (.registerDelivery a.tag .perform),
        exec (.queuedStoreAccept a.tag .perform), execFabricRequestTimeout a.tag]

/-- Leases that have run out in a level of the TLBs. -/
def deadEntries (now base : Nat) (m : Map (List TlbEntry)) : List (State → Out) :=
  m.flatMap fun (e : Nat × List TlbEntry) =>
    (e.2.zipIdx.filter fun x => decide (x.1.expiry ≤ now)).map fun x => exec (.leaseExpiry (base + e.1) x.2)

/-- Walks, faults, leases, the directory, invalidations. -/
def mmuEvents (s : State) : List (State → Out) :=
  ((indices s.mmu.walks).map fun i => exec (.pageWalk i))
    ++ ((indices s.mmu.faults).flatMap fun i => s.parts.map fun (e : Nat × Partition) => exec (.faultReply e.1 i))
    ++ deadEntries s.cycle 0 s.mmu.tlb1 ++ deadEntries s.cycle 128 s.mmu.tlb2
    ++ (s.parts.flatMap fun (e : Nat × Partition) => e.2.dir.flatMap fun (d : Nat × DirEntry) =>
      [execDirectoryDeviceFault e.1 d.1, exec (.migrationMoveComplete e.1 d.1 true), exec (.hysteresisExpiry e.1 d.1)])
    ++ [0, 1].flatMap fun l => (indices ((mapGet s.mmu.invals l).getD [])).flatMap fun i =>
      [exec (.atsInvalidateTimeout l i), exec (.atsInvalidateCompletion l i)]

/-- Tasks in slots: wakes, re-reads every 2 µs, quarantines of those that do not issue; stops. -/
def taskEvents (s : State) : List (State → Out) :=
  ((indices s.dbg.stops).flatMap fun i => (s.dbg.stops[i]?).toList.map fun x => exec (.stopMessageArrival x.1 i))
    ++ (s.slots.flatMap fun (e : Nat × Task) =>
      (if (e.2.run != .resident || e.2.stopped || e.2.draining.isSome) then (e.2.due.filter Due.freezes).map fun d => exec (.quarantine e.1 d.cause) else [])
        ++ (if e.2.run == .resident && !e.2.owed then [] else
          [exec (.taskWake e.1)] ++ if s.cycle % 3400 = 0 then [exec (.waddrRecheck e.1)] else []))

/-- Caldera: rings, launches, pre-emption, placement, the step queue, builds. -/
def calderaEvents (s : State) : List (State → Out) :=
  (s.cald.launches.map fun (l : Launch) => exec (.launchDone l.id))
    ++ (s.cald.preempts.map fun (r : Preempt) => exec (.preemptRequestArrival r.part r.core))
    ++ (s.cald.steals.map fun (x : Steal) => exec (.stealComplete x.key))
    ++ (s.parts.flatMap fun (e : Nat × Partition) =>
      let p := e.1
      ((if (s.deques.any fun d => d.1 / 1024 == p) then (slotsOf e.2).map fun k => exec (.idleSlotSearch k) else [])
        ++ (e.2.vmap.map fun (v : Nat × Nat) => exec (.tileImageSave p v.1))
        ++ ((List.range 9).map fun r => exec (.ringTailWatch p r))
        ++ (if s.cycle % 3400 = 0 then (List.range 9).map fun r => exec (.ringWatchReread (1 + p * 16 + r)) else [])
        ++ [exec (.ringSpaceFreed p 9), exec (.ringSpaceFreed p 10), exec (.stepDescriptorBuild p), exec (.stepSchedulerStart p),
            exec (.sliceBoundary p), exec (.gangReservation p), exec (.reservationPreempt p), exec (.calderaRestore p), exec (.calderaPlacement p)]))
    ++ if s.cycle % 3400 = 0 then [exec (.ringWatchReread 0)] else []

/-- Trust domains, debug and management. -/
def slowEvents (s : State) : List (State → Out) :=
  (s.parts.flatMap fun (e : Nat × Partition) => match e.2.domain with
      | none => []
      | some d => [execDrained e.1 s.pkgNo.toNat, execBarrierDrainTimeout e.1, execCoordinatorLost e.1, execHeartbeat e.1]
          ++ d.joined.map fun m => execSuccessorJoinTimeout e.1 m)
    ++ (s.sessions.flatMap fun (e : Nat × Session) => e.2.waiting.map fun (w : Nat × Nat × BitVec 32) => exec (.waitForEventTimeout e.1 w.1))
    ++ (if s.cycle % 64 < 16 then (s.parts.flatMap fun (e : Nat × Partition) => e.2.cores).map fun c => exec (.issueSample c) else [])
    ++ (if s.dbg.freeze.isSome then (List.range 1024).map fun c => exec (.freezeArrival c) else [])
    ++ [State.serveNext, execRingGather, execRecovery, execFirmwareActivation,
      execFailedStepRestart (if s.mgmt.nextKind = 0 then s.mgmt.failSteps else []) s.mgmt.failParts]

def events (s : State) : List (State → Out) :=
  s.netEvents ++ s.mmuEvents ++ s.taskEvents ++ s.calderaEvents ++ s.slowEvents

/-- What an event brings about; none where it changes nothing. -/
def outcome (s : State) (f : State → Out) : Option Out :=
  match f s with
  | .next t => if t = { s with cur := t.cur } then none else some (.next t)
  | o => some o

/-- No core issues any more in this cycle: the first event that brings something about does so in it; with none, the next cycle
begins with what arrives in it. -/
def betweenIssues (s : State) : Out :=
  let s := { s with turn := 1024 }
  (s.events.findSome? s.outcome).getD (.next { s with cycle := s.cycle + 1, turn := 2048 })

/-- A policy or donate bit is to take effect at this frame boundary (20:R310). -/
def frameChange (s : State) : Bool :=
  s.turn == 0 && s.cycle % 16 == 0 && s.parts.any fun e => e.2.pol != e.2.polNext || e.2.donate != e.2.donateNext

/-- The frame boundary, the next core to issue, the rest. -/
def issueTurn (s : State) : Out :=
  if s.frameChange then exec .frameBoundary s
  else match s.nextPick with
    | some p => s.serve p
    | none => s.betweenIssues

/-- One step of the package: events that other events have brought about, what arrives in the cycle, then its issues and the rest. -/
def advance (s : State) : Out :=
  match s.agenda with
  | i :: r => exec i { s with agenda := r }
  | [] =>
    if s.turn < 2048 then s.issueTurn
    else (s.arrivals.findSome? s.outcome).getD (({ s with turn := 0 } : State).issueTurn)

/-! ### An instruction in place of a load (assumption 33, DESIGN CHOICE) -/

/-- A partition of one core that owns its sixteen slots and runs a capsule at the head of the code arena. -/
def fetchPart (len : Nat) : Partition :=
  { cores := [0], slots := 0xFFFF, spBanks := 0xFFFF, asBanks := 0xFFFF, stackMask := 0, mainmem := 0, tier2 := 0, host := 0, eth := 0, fabric := 0
    world := 0, saveArea := 0, vmap := [(0, 0)], capacity := #v[4, 4, 4, 8], pools := poolsOf (Vector.replicate 11 {}) [0] [4, 4, 4, 8]
    capsules := [{ capid := 1, world := 0, featver := 1, st := .built, base := arenaBase, len := len
                   rmap := [⟨0, 0, true⟩, ⟨4, 0, true⟩, ⟨8, 0, true⟩], entries := [⟨0, false, 0⟩] }] }

/-- A task of that capsule at portable offset 0, resident in slot 0 of core 0. -/
def fetchTask : Task := { gtid := 1, part := 0, capid := 1, stamp := 1 }

/-- The state in which the next step fetches these bytes: `text` stands at the base of a capsule that slot 0 of core 0 runs. -/
def withText (s : State) (text : List Byte) : State :=
  { s with
    agenda := [], turn := 0
    mem := memWrite s.mem arenaBase text
    parts := [(0, fetchPart text.length)]
    slots := [(0, fetchTask)]
    net := {}, mmu := {}, cald := { s.cald with stampCtr := 1 } }

end State

end Sys2Proof.Machine
end

