-- ==== Sys2Proof/Machine/Step.lean ====
section
/-! DEFINITION. One step of the package, and an instruction placed where the next step fetches. -/

namespace Sys2Proof.Machine

/-- One step: an event, or one instruction of one slot (assumption 2, DESIGN CHOICE). -/
def step (s : State) : Host.Outcome State Fault Refusal := s.advance

/-- The instruction of `w` stands where the next step fetches. A program reaches a partition through an installed capsule and a
launch, which the package does not do by itself after reset: this stands for that load (assumption 33, DESIGN CHOICE). -/
def State.withFetchWord (s : State) (nbits w : Nat) : State := s.withText (leBytes 12 (w % 2 ^ nbits))

end Sys2Proof.Machine
end

