-- ==== Sys2Proof/Safety.lean ====
section
/-! DEFINITION. What the statements speak about: when an instruction is performed, the state it leaves where it only completes,
the invariant of the machine's memory, and reading a state. -/

namespace Sys2Proof

open Machine

/-- Guard and length in bytes of an instruction that uses bit 0 of its guard and asks for nothing before it: scalar, memory, control,
engine and unprivileged system instructions (10:R166). -/
def Instr.guarded : Instr → Option (Guard × Nat)
  | .br _ g | .call _ g => some (g, 4)
  | .loop f _ _ _ | .jr f _ _ | .ret f _ | .tend f | .hintYield f | .yield f | .gbar f => some (f.guard, f.bytes)
  | .callr o => some (o.f.guard, o.f.bytes)
  | .add o _ _ | .sub o _ _ => some (o.f.guard, o.f.bytes)
  | .and o | .or o | .xor o | .andn o | .orn o | .shl o | .shr o | .sra o | .rol o | .ror o | .min o | .max o | .minu o | .maxu o
  | .sext o | .zext o | .bext o | .bins o | .sh1add o | .sh2add o | .sh3add o | .sh4add o | .mul o | .mulh o | .mulhu o | .mulhsu o
  | .div o | .divu o | .rem o | .remu o => some (o.f.guard, o.f.bytes)
  | .clz o | .ctz o | .popc o => some (o.f.guard, o.f.bytes)
  | .cmpEq o | .cmpNe o | .cmpLt o | .cmpGe o | .cmpLtu o | .cmpGeu o => some (o.f.guard, o.f.bytes)
  | .addi o | .andi o | .ori o | .xori o | .shli o | .shri o | .srai o => some (o.f.guard, o.f.bytes)
  | .cmpiEq o | .cmpiNe o | .cmpiLt o | .cmpiGe o | .cmpiuLtu o | .cmpiuGeu o => some (o.f.guard, o.f.bytes)
  | .gnarrow f _ _ _ _ _ _ _ | .grd f _ _ _ => some (f.guard, f.bytes)
  | .vins o | .vext o => some (o.f.guard, o.f.bytes)
  | .ldD8 o | .ldD16 o | .ldD32 o | .ldD64 o | .ldD128 o => some (o.f.guard, o.f.bytes)
  | .stD4 o | .stD8 o | .stD16 o | .stD32 o | .stD64 o | .stD128 o => some (o.f.guard, o.f.bytes)
  | .ldfe o | .ldfeTake o | .join o => some (o.f.guard, o.f.bytes)
  | .stfe o => some (o.f.guard, o.f.bytes)
  | .qld o | .qst o => some (o.f.guard, o.f.bytes)
  | .amoD32 o | .amoD64 o => some (o.f.guard, o.f.bytes)
  | .fork f _ _ | .fence f _ | .qwait f _ | .send f _ _ _ _ | .recv f _ _ _ | .recvKeep f _ _ _ | .mwait f _ _ => some (f.guard, f.bytes)
  | .waddr o => some (o.f.guard, o.f.bytes)
  | .tcmd f _ _ _ _ | .semSig f _ | .semWait f _ | .pwrAcq f _ _ | .pwrRel f _ _ | .termrd f _ _ => some (f.guard, f.bytes)
  | .stepget f _ _ _ _ | .poolTake f _ | .poolGive f _ _ => some (f.guard, f.bytes)
  | .stoptest o | .seqret o _ => some (o.f.guard, o.f.bytes)
  | .seqadm o => some (o.f.guard, o.f.bytes)
  | .trap f _ | .recmark f _ _ _ | .bkpt f _ => some (f.guard, f.bytes)
  | _ => none

/-- Guard and length of `rdms` and of the supervisor's instructions, where what they ask for before the prefix and the guard holds: the
number names a register the level may read, or any register; the level is above the task's; `fwcall` runs at the supervisor's (10:R170, 11:R190,
R191, 18:R277 to R293). -/
def Instr.checked (t : Task) : Instr → Option (Guard × Nat)
  | .rdms f _ n =>
      if (if n.toNat < 0x200 then taskRegOk n.toNat else (sysReadLevel n.toNat).any fun l => decide (l ≤ t.priv.level)) then
        some (f.guard, f.bytes) else none
  | .wrms f _ _ n => if t.priv ≠ .task ∧ State.msAssigned n.toNat = true then some (f.guard, f.bytes) else none
  | .trapret f | .termclr f | .gwrite f _ _ _ _ _ | .ctxsave f _ _ _ _ | .ctxsaveTile f _ _ | .ctxrest f _ _ _ _ | .ctxrestTile f _ _ =>
      if t.priv ≠ .task then some (f.guard, f.bytes) else none
  | .halt f _ _ _ op => if t.priv ≠ .task ∧ op.toNat < 5 then some (f.guard, f.bytes) else none
  | .rebuild o => if t.priv ≠ .task then some (o.f.guard, o.f.bytes) else none
  | .fwcall o => if t.priv = .supervisor then some (o.f.guard, o.f.bytes) else none
  | _ => none

/-- Vector, predicate and move instructions that take no format prefix and whose guard works lane by lane or bit by bit
(03:R60, 12:R199). -/
def Instr.laned : Instr → Bool
  | .pand _ | .por _ | .pxor _ | .pnot _ | .pmov _ | .vwhile _ _ _ _ _ _ _ | .pcnt _ _ _ => true
  | .vmov _ | .vbcast _ | .vperm _ | .vsel _ | .cvtMx _ => true
  | .vintVadd _ | .vintVsub _ | .vintVmul _ | .vintVmulh _ | .vintVmin _ | .vintVmax _ | .vintVand _ | .vintVor _ | .vintVxor _
  | .vintVandn _ | .vintVshl _ | .vintVshr _ | .vintVsra _ | .vintVabs _ | .vintVneg _ | .vintVcmpEq _ | .vintVcmpNe _
  | .vintVcmpLt _ | .vintVcmpLe _ | .vdot4 _ | .vintVsum _ => true
  | _ => false

/-- Instructions only the supervisor may run (10:R170, 18:R277 to R293). -/
def Instr.isPrivileged : Instr → Bool
  | .wrms _ _ _ _ | .trapret _ | .gwrite _ _ _ _ _ _ | .ctxsave _ _ _ _ _ | .ctxsaveTile _ _ _ | .ctxrest _ _ _ _ _ | .ctxrestTile _ _ _
  | .rebuild _ | .halt _ _ _ _ _ | .fwcall _ | .termclr _ => true
  | _ => false

end Sys2Proof

namespace Sys2Proof.Machine

/-- The step goes on to a next state. -/
def Goes (o : Out) (t : State) : Prop := o = .next t

/-- The step goes on. -/
def Completes (o : Out) : Prop := ∃ t, o = .next t

/-- A register that can be read: full, and not marked by a failed delivery (03:R49, 17:R271). -/
def Task.holds (t : Task) (r : RegId) : Bool := t.full r && !t.err r

/-- The registers of an instruction let the current task run it whatever its guard: no destination awaits a delivery (03:R50),
every source can be read (03:R49), none of them fills in this very cycle (03:R51), and no debugger steps the task (27:R381). -/
def State.readable (s : State) (dsts srcs : List RegId) : Bool :=
  dsts.all s.task.full && srcs.all s.task.holds && !(srcs ++ dsts).any (s.task.fresh s.cycle) && !s.task.stepping

/-- The current task performs an instruction under this guard with these destinations and sources: no prefix is pending (03:R60),
bit 0 of the guard is true (10:R166), and its registers let it run. -/
def State.performsG (s : State) (g : Guard) (dsts srcs : List RegId) : Bool :=
  !s.task.fpend && s.task.guard0 g && s.readable dsts srcs

/-- The same, with the guard of the instruction's form. -/
def State.performs (s : State) (f : Form) (dsts srcs : List RegId) : Bool := s.performsG f.guard dsts srcs

/-- The current task runs a vector instruction that takes no prefix: none is pending (12:R199), and its registers let it run; its
guard works lane by lane (12:R196). -/
def State.vperforms (s : State) (dsts srcs : List RegId) : Bool := !s.task.fpend && s.readable dsts srcs

/-- A landing point of the code the current task runs (11:R177). -/
def State.landsAt (s : State) (pc : Word) : Bool :=
  match s.codeOf? s.task with
  | none => false
  | some c => c.lands pc

/-- A trap of the task in the current slot enters its supervisor's handler: it runs at task privilege, `ms.tvec` is a landing
point of the supervisor capsule (17:R273), and no debugger steps it. -/
def State.handled (s : State) : Bool :=
  s.task.priv == .task && !s.task.stepping &&
    match s.supCapsule? s.task.part with
    | none => false
    | some c => c.lands s.task.tr.vec

/-- The state after an instruction that leaves the current task as `t` and goes on with the next one, `len` bytes further: nothing
else of the machine changes. -/
def State.after (s : State) (t : Task) (len : Nat) : State :=
  s.setTask { t with pc := s.task.pc + BitVec.ofNat 64 len, fpend := false, fmtword := 0, skipBreak := false }

/-- The state after a taken branch to `pc`, which holds its slot out of issue for two cycles (10:R173). -/
def State.branched (s : State) (t : Task) (pc : Word) : State :=
  s.setTask { t with pc := pc, fpend := false, fmtword := 0, skipBreak := false, holdUntil := s.cycle + 3 }

/-- A vector instruction goes on with the next one and writes vD with latency `lat`: an active element becomes the low bits of
`el`, the others keep their value, and nothing else of the machine changes (12:R196). -/
def State.lanes (s : State) (f : Form) (ty : BitVec 5) (d : Reg) (lat : Nat) (o : Out) (el : Nat → Nat) : Prop :=
  ∃ r, o = .next (s.after (s.task.writeV s.cycle d r lat) f.bytes) ∧ ∀ i, i < lanesOf ty →
    elem r ty i = if active (s.task.guardBits f.guard) ty i then el i % 2 ^ elemBits ty else elem (s.task.getV d) ty i

/-- The same for a predicate: the bits of an active element take its truth value (12:R203, R209). -/
def State.flagged (s : State) (f : Form) (ty : BitVec 5) (p : BitVec 3) (lat : Nat) (o : Out) (c : Nat → Bool) : Prop :=
  ∃ x : PWord, o = .next (s.after (s.task.writeP s.cycle p x lat) f.bytes) ∧ ∀ j, j < 16 →
    x.getLsbD j = if active (s.task.guardBits f.guard) ty (j * 8 / elemBits ty) then c (j * 8 / elemBits ty) else (s.task.getP p).getLsbD j

/-- The task after an instruction that goes on with the next one. -/
def State.goneOn (s : State) (t : Task) (len : Nat) : Task :=
  { t with pc := s.task.pc + BitVec.ofNat 64 len, fpend := false, fmtword := 0, skipBreak := false }

/-- A task that is parked at a row after it has gone on: its instruction is complete (12:R216). -/
def State.leftParked (s : State) (t : Task) (len row : Nat) (w : Wake) : Task := { s.goneOn t len with run := .parked row w }

/-- Beside the current task, an instruction has changed nothing but recorders and the note of a bank's use (06:R103, 27:R386). -/
def State.sameBut (s u : State) : Prop :=
  u = { s with slots := u.slots, cores := u.cores, tiles := u.tiles } ∧ (∀ k, k ≠ s.cur → u.taskAt k = s.taskAt k)
    ∧ ∀ k, (u.tile k).queues = (s.tile k).queues ∧ (u.tile k).accepted = (s.tile k).accepted

/-- The same for an instruction that may also write tile memory and full/empty bits, and then marks what it wrote (18:R286). -/
def State.sameButMemory (s u : State) : Prop :=
  State.sameBut { s with mem := u.mem, feEmpty := u.feEmpty, vtiles := u.vtiles } u
    ∧ ∀ p vt, (u.vtile p vt).sems = (s.vtile p vt).sems ∧ (u.vtile p vt).waiters = (s.vtile p vt).waiters

/-- The same for an instruction that also sends a request: its tag is the next one (assumption 4, DESIGN CHOICE). -/
def State.sent (s u : State) (net : Net) : Prop :=
  State.sameBut { s with net := net, tagCtr := s.tagCtr + 1 } u

/-- The network with one more request of the current task, to this place (assumption 4, DESIGN CHOICE: the next tag is its tag). It leaves the
core's port at once unless it is held back at its source (27:R385). -/
def State.withAcc (s : State) (place : Place) (op : AccOp) (dst : Option RegId) (acq rel : Bool) (scope : BitVec 4)
    (lease : Option Nat := none) (extra : Nat := 0) (waits : Bool := false) (carry : List Nat := []) : Net :=
  let a : Acc := { tag := s.tagCtr, owner := s.task.gtid, key := s.cur, part := s.task.part, op := op, place := place, dst := dst
                   acq := acq, rel := rel, scope := scope, issued := s.cycle, leaseEnd := lease, nissue := s.task.nissued, waits := waits
                   extra := extra, carry := carry, offset := (standsAt s.task).toNat, sup := s.task.priv != Priv.task }
  { s.net with accs := s.net.accs ++ [{ a with left := if s.heldBack a then none else some s.cycle }] }

/-- The network with one more operation of the current task announced to the sequencer (07:R127). -/
def State.announced (s : State) (place : Place) (op : AccOp) (dst : Option RegId) (len : Nat) (m : MemOp) (far : Bool) : Net :=
  let o : ScOp := { tag := s.tagCtr, owner := s.task.gtid, key := s.cur, part := s.task.part, cycle := s.cycle, op := op, place := place
                    dst := dst, len := len, pinc := m.bumpBy, far := far, nissue := s.task.nissued, offset := (standsAt s.task).toNat }
  { s.net with scOps := s.net.scOps ++ [o] }

/-- A destination register awaits its delivery. -/
def Task.awaits (t : Task) : Option RegId → Task
  | none => t
  | some r => t.markEmpty r

/-- Memory address of a byte of a tile segment (06:R100 to R102). -/
def State.tileMem (s : State) (x : Segment) (a : Nat) : Nat := State.tileAddr s.task.part (x.space == 2 || x.space == 6) (s.tileOfSeg x) a

/-- An access to this tile's memory goes on at once: nothing of the task's that it must follow is under way (07:R115, R120), and no
watchpoint covers it (27:R379). -/
def State.atOnce (s : State) (x : Segment) (a n mask : Nat) : Prop :=
  x.space ≤ 2 ∧ s.localWaits s.task (x.space == 2 || x.space == 6) a n = false
    ∧ s.watchHits s.task.part (ofBool (x.space == 2 || x.space == 6)) s.here a n mask s.task.gtid = []

/-- Accesses in this cycle so far to the bank that holds a byte of this tile's memory: each delays the next one by 2 cycles (06:R103). -/
def State.bankUses (s : State) (acc : Bool) (a : Nat) : Nat :=
  ((s.tile (tileOf (coreOf s.cur))).bankUse.filter fun u => u == (s.cycle, acc, s.bankOf s.task.part acc a)).length

/-- The current task stands in a firmware call of this service, which has not run yet (18:R281). -/
def State.calls (s : State) (n : Nat) (arg : Word) : Prop := ∃ k d, s.task.fwCall = some ⟨k, arg, d, none⟩ ∧ k.toNat = n

/-- A service has run: `v` is the machine as it leaves it, and the call holds its code in bits 7:0 and its result above them
(18:R281). -/
def State.served (s v : State) (code result : Nat) : State :=
  v.setTask { v.task with fwCall := s.task.fwCall.map fun c => { c with result := some (BitVec.ofNat 64 (code + result % 2 ^ 56 * 2 ^ 8)) } }

/-- Partition `part` becomes `p`. -/
def State.putPart (s : State) (part : Nat) (p : Partition) : State := { s with parts := mapSet s.parts part p }

/-- A secured session is attached to a partition `p` of its world (27:R375, R376). -/
def State.debugs (s : State) (session part : Nat) (p : Partition) : Prop :=
  ∃ x, mapGet s.sessions session = some x ∧ x.phase = .secured ∧ s.partOf? part = some p ∧ p.world = x.world ∧ p.dbg.session = some session

/-- The host's request of this code is answered with this status (25:R367). -/
def State.told (s u : State) (code status : Nat) : Prop := ∃ r, u.replies = s.replies ++ [r] ∧ r.code = 0x300 + code ∧ r.status = status

/-- Keys strictly rising from `lo`: the canonical form of a map. -/
def risingFrom {α : Type} (lo : Nat) : Map α → Bool
  | [] => true
  | (k, _) :: r => decide (lo ≤ k) && risingFrom (k + 1) r

def rising {α : Type} (m : Map α) : Bool := risingFrom 0 m

/-- The canonical form of memory: equal memories are equal data. -/
def State.memOk (s : State) : Prop := Mem.wf s.mem = true

end Sys2Proof.Machine
end

