-- ==== Sys2Proof/Certificates/Slice0/Obligations.lean ====
section
/-! DEFINITION. The statements for the provers. -/

open Sys2Proof Sys2Proof.Machine

/-! ### Scalar instructions -/

/-- 11:R182: the bitwise, minimum, maximum and address minors, and `add` and `sub` where they do not saturate, write their result to sD with
latency 1 and change nothing else; the literal of the 96-bit form is sign-extended for the arithmetic ones and zero-extended for the others.
11:R183: with `sat`, the exact sum or difference saturates to the i64 range, or with `uns` to the n64 range. 11:R182: the shift amount is
the whole unsigned value of b; a shift by 64 or more gives 0, or the copies of the sign; a rotate takes it modulo 64. 11:R184: the immediate majors, with the immediate sign-extended for `addi` and zero-extended for the others. -/
def Obligations.ScalarResults : Prop :=
  ((∀ (s : State) (o : AluArgs) (uns : Bool), s.performs o.f [.s o.d] (.s o.a :: o.b.reads.map (·.1)) = true →
      let a := s.task.getS o.a
      let bs := o.b.val s.task true
      let bz := o.b.val s.task false
      let w (x : Word) : Out := .next (s.after (s.task.writeS s.cycle o.d x 1) o.f.bytes)
      exec (.add o false uns) s = w (a + bs) ∧ exec (.sub o false uns) s = w (a - bs)
      ∧ exec (.and o) s = w (a &&& bz) ∧ exec (.or o) s = w (a ||| bz) ∧ exec (.xor o) s = w (a ^^^ bz)
      ∧ exec (.andn o) s = w (a &&& ~~~bz) ∧ exec (.orn o) s = w (a ||| ~~~bz)
      ∧ exec (.min o) s = w (if bs.toInt < a.toInt then bs else a) ∧ exec (.max o) s = w (if bs.toInt < a.toInt then a else bs)
      ∧ exec (.minu o) s = w (if bz.toNat < a.toNat then bz else a) ∧ exec (.maxu o) s = w (if bz.toNat < a.toNat then a else bz)
      ∧ exec (.sh1add o) s = w (a * 2 + bs) ∧ exec (.sh2add o) s = w (a * 4 + bs)
      ∧ exec (.sh3add o) s = w (a * 8 + bs) ∧ exec (.sh4add o) s = w (a * 16 + bs))
    ∧ (∀ (s : State) (o : AluArgs), s.performs o.f [.s o.d] (.s o.a :: o.b.reads.map (·.1)) = true →
      let a := s.task.getS o.a
      let b := o.b.val s.task true
      let w (x : Word) : Out := .next (s.after (s.task.writeS s.cycle o.d x 1) o.f.bytes)
      (∃ x : Word, exec (.add o true false) s = w x ∧ x.toInt = max (-(2 ^ 63)) (min (2 ^ 63 - 1) (a.toInt + b.toInt)))
      ∧ (∃ x : Word, exec (.sub o true false) s = w x ∧ x.toInt = max (-(2 ^ 63)) (min (2 ^ 63 - 1) (a.toInt - b.toInt)))
      ∧ (∃ x : Word, exec (.add o true true) s = w x ∧ x.toNat = min (2 ^ 64 - 1) (a.toNat + b.toNat))
      ∧ (∃ x : Word, exec (.sub o true true) s = w x ∧ x.toNat = a.toNat - b.toNat))
    ∧ (∀ (s : State) (o : AluArgs), s.performs o.f [.s o.d] (.s o.a :: o.b.reads.map (·.1)) = true →
      let a := s.task.getS o.a
      let n := (o.b.val s.task false).toNat
      let w (x : Word) : Out := .next (s.after (s.task.writeS s.cycle o.d x 1) o.f.bytes)
      exec (.shl o) s = w (a <<< n) ∧ exec (.shr o) s = w (a >>> n) ∧ exec (.sra o) s = w (a.sshiftRight n)
      ∧ exec (.rol o) s = w (a <<< (n % 64) ||| a >>> (64 - n % 64)) ∧ exec (.ror o) s = w (a >>> (n % 64) ||| a <<< (64 - n % 64))))
  ∧ (∀ (s : State) (o : ImmArgs), s.performs o.f [.s o.d] [.s o.a] = true →
      let a := s.task.getS o.a
      let z := o.imm.val false
      let w (x : Word) : Out := .next (s.after (s.task.writeS s.cycle o.d x 1) o.f.bytes)
      exec (.addi o) s = w (a + o.imm.val true) ∧ exec (.andi o) s = w (a &&& z) ∧ exec (.ori o) s = w (a ||| z)
      ∧ exec (.xori o) s = w (a ^^^ z) ∧ exec (.shli o) s = w (a <<< z.toNat) ∧ exec (.shri o) s = w (a >>> z.toNat)
      ∧ exec (.srai o) s = w (a.sshiftRight z.toNat))

/-- 11:R185, R186: counts, extensions and bit fields, bit by bit; `bins` reads sD too, whose error mark raises DELIVERY_ERROR (17:R271). 11:R187: products with latency 3; quotients and remainders, truncated toward zero, with latency 20; a divisor of 0 raises
DIVIDE_ZERO, the quotient of −2⁶³ and −1 wraps and its remainder is 0. -/
def Obligations.BitFieldsAndDivision : Prop :=
  ((∀ (s : State) (o : UnArgs), s.performs o.f [.s o.d] [.s o.a] = true →
      let a := s.task.getS o.a
      let w (x : Word) : Out := .next (s.after (s.task.writeS s.cycle o.d x 1) o.f.bytes)
      (∃ x : Word, exec (.clz o) s = w x ∧ (∀ j, 64 - x.toNat ≤ j → a.getLsbD j = false)
        ∧ (if a = 0 then x.toNat = 64 else x.toNat < 64 ∧ a.getLsbD (63 - x.toNat) = true))
      ∧ (∃ x : Word, exec (.ctz o) s = w x ∧ (∀ j, j < x.toNat → a.getLsbD j = false)
        ∧ (if a = 0 then x.toNat = 64 else x.toNat < 64 ∧ a.getLsbD x.toNat = true))
      ∧ ∃ x : Word, exec (.popc o) s = w x ∧ x.toNat = ((List.range 64).filter a.getLsbD).length)
    ∧ ∀ (s : State) (o : AluArgs), s.performs o.f [.s o.d] (.s o.a :: o.b.reads.map (·.1)) = true →
      let a := s.task.getS o.a
      let c := o.b.val s.task false
      let d := s.task.getS o.d
      let n := min c.toNat 64
      let f := c.toNat % 128
      let k := min (c.toNat / 256 % 128) 64
      let w (x : Word) : Out := .next (s.after (s.task.writeS s.cycle o.d x 1) o.f.bytes)
      (∃ x : Word, exec (.sext o) s = w x ∧ ∀ i, i < 64 → x.getLsbD i = if i < n then a.getLsbD i else decide (0 < n) && a.getLsbD (n - 1))
      ∧ (∃ x : Word, exec (.zext o) s = w x ∧ ∀ i, i < 64 → x.getLsbD i = (decide (i < n) && a.getLsbD i))
      ∧ (∃ x : Word, exec (.bext o) s = w x ∧ ∀ i, i < 64 → x.getLsbD i = (decide (i < k) && a.getLsbD (f + i)))
      ∧ if s.task.err (.s o.d) = true then exec (.bins o) s = .next (s.trapSource cDELIVERY_ERROR)
        else ∃ x : Word, exec (.bins o) s = w x ∧ ∀ i, i < 64 → x.getLsbD i = if f ≤ i ∧ i < f + k then a.getLsbD (i - f) else d.getLsbD i)
  ∧ (∀ (s : State) (o : AluArgs), s.performs o.f [.s o.d] (.s o.a :: o.b.reads.map (·.1)) = true →
      let a := s.task.getS o.a
      let bs := o.b.val s.task true
      let bz := o.b.val s.task false
      let w (x : Word) (l : Nat) : Out := .next (s.after (s.task.writeS s.cycle o.d x l) o.f.bytes)
      let dz : Out := .next (s.trapC cDIVIDE_ZERO)
      exec (.mul o) s = w (a * bs) 3
      ∧ (∃ x : Word, exec (.mulh o) s = w x 3 ∧ x.toInt = a.toInt * bs.toInt / 2 ^ 64)
      ∧ (∃ x : Word, exec (.mulhu o) s = w x 3 ∧ x.toNat = a.toNat * bz.toNat / 2 ^ 64)
      ∧ (∃ x : Word, exec (.mulhsu o) s = w x 3 ∧ x.toInt = a.toInt * bz.toNat / 2 ^ 64)
      ∧ (if bs = 0 then exec (.div o) s = dz ∧ exec (.rem o) s = dz
        else exec (.div o) s = w (BitVec.ofInt 64 (a.toInt.tdiv bs.toInt)) 20
          ∧ ∃ x : Word, exec (.rem o) s = w x 20 ∧ x.toInt = a.toInt.tmod bs.toInt)
      ∧ (if bz = 0 then exec (.divu o) s = dz ∧ exec (.remu o) s = dz
        else exec (.divu o) s = w (BitVec.ofNat 64 (a.toNat / bz.toNat)) 20
          ∧ exec (.remu o) s = w (BitVec.ofNat 64 (a.toNat % bz.toNat)) 20))

/-- 11:R188: a compare writes every bit of pD with its one result, and changes nothing else; literals are zero-extended for the
unsigned conditions and sign-extended for the others. 11:R189: bit i of pD is written with the result only where guard bit i is 1, whatever bit 0 of the guard is. -/
def Obligations.CompareAndPredicateResults : Prop :=
  ((∀ (s : State) (o : CmpArgs), s.performs o.f [] (.s o.a :: o.b.reads.map (·.1)) = true →
      let a := s.task.getS o.a
      let bs := o.b.val s.task true
      let bz := o.b.val s.task false
      let w (c : Bool) : Out := .next (s.after (s.task.writeP s.cycle o.p (if c then 0xFFFF else 0) 1) o.f.bytes)
      exec (.cmpEq o) s = w (a == bs) ∧ exec (.cmpNe o) s = w (a != bs) ∧ exec (.cmpLt o) s = w (decide (a.toInt < bs.toInt))
      ∧ exec (.cmpGe o) s = w (decide (a.toInt ≥ bs.toInt)) ∧ exec (.cmpLtu o) s = w (decide (a.toNat < bz.toNat)) ∧ exec (.cmpGeu o) s = w (decide (a.toNat ≥ bz.toNat)))
    ∧ ∀ (s : State) (o : CmpImmArgs), s.performs o.f [] [.s o.a] = true →
      let a := s.task.getS o.a
      let bs := o.imm.val true
      let bz := o.imm.val false
      let w (c : Bool) : Out := .next (s.after (s.task.writeP s.cycle o.p (if c then 0xFFFF else 0) 1) o.f.bytes)
      exec (.cmpiEq o) s = w (a == bs) ∧ exec (.cmpiNe o) s = w (a != bs) ∧ exec (.cmpiLt o) s = w (decide (a.toInt < bs.toInt))
      ∧ exec (.cmpiGe o) s = w (decide (a.toInt ≥ bs.toInt)) ∧ exec (.cmpiuLtu o) s = w (decide (a.toNat < bz.toNat))
      ∧ exec (.cmpiuGeu o) s = w (decide (a.toNat ≥ bz.toNat)))
  ∧ (∀ (s : State) (o : PredArgs) (u : PredUn), s.task.fpend = false → s.task.stepping = false →
      let p (r : BitVec 3) := s.task.getP r
      (∃ x : PWord, exec (.pand o) s = .next (s.after (s.task.writeP s.cycle o.d x 1) o.f.bytes)
        ∧ ∀ i, i < 16 → x.getLsbD i = if (s.task.guardBits o.f.guard).getLsbD i then (p o.a).getLsbD i && (p o.b).getLsbD i else (p o.d).getLsbD i)
      ∧ (∃ x : PWord, exec (.por o) s = .next (s.after (s.task.writeP s.cycle o.d x 1) o.f.bytes)
        ∧ ∀ i, i < 16 → x.getLsbD i = if (s.task.guardBits o.f.guard).getLsbD i then (p o.a).getLsbD i || (p o.b).getLsbD i else (p o.d).getLsbD i)
      ∧ (∃ x : PWord, exec (.pxor o) s = .next (s.after (s.task.writeP s.cycle o.d x 1) o.f.bytes)
        ∧ ∀ i, i < 16 → x.getLsbD i = if (s.task.guardBits o.f.guard).getLsbD i then (p o.a).getLsbD i != (p o.b).getLsbD i else (p o.d).getLsbD i)
      ∧ (∃ x : PWord, exec (.pnot u) s = .next (s.after (s.task.writeP s.cycle u.d x 1) u.f.bytes)
        ∧ ∀ i, i < 16 → x.getLsbD i = if (s.task.guardBits u.f.guard).getLsbD i then !(p u.a).getLsbD i else (p u.d).getLsbD i)
      ∧ (∃ x : PWord, exec (.pmov u) s = .next (s.after (s.task.writeP s.cycle u.d x 1) u.f.bytes)
        ∧ ∀ i, i < 16 → x.getLsbD i = if (s.task.guardBits u.f.guard).getLsbD i then (p u.a).getLsbD i else (p u.d).getLsbD i))

/-! ### Control, and what every instruction shares -/

/-- 11:R178, R179, R181: a branch goes to the pc plus four times its offset, a call writes the following pc to s31 first; `nop` never
branches; `loop` counts down, branches while the count is not zero, and leaves a zero count at zero. A target inside the text that is neither a
boundary nor the instruction a boundary's `fmt` prefixes (12:R201) raises ILLEGAL_TARGET with no effect. 11:R177, R180: an indirect jump goes to its register's value where that is a landing point of
the running capsule; anywhere else it has no effect and raises ILLEGAL_TARGET with the target as its address. The target is read before the
link is written.
The model's choices it rests on: assumption 79. -/
def Obligations.BranchResults : Prop :=
  (∀ s : State,
    let pc := s.task.pc
    let inText (x : Word) : Prop := ∃ c, s.codeOf? s.task = some c ∧ x.toNat < c.len ∧ ∀ b ∈ c.rmap, b.off ≠ x.toNat ∧ (b.kind = 2 → b.off + 8 ≠ x.toNat)
    let go (t : Task) (x : Word) (o : Out) : Prop :=
      (¬inText x → o = .next (s.branched t x)) ∧ (inText x → o = .next (s.trap { cause := cILLEGAL_TARGET, addr := x }))
    (∀ (off : BitVec 20) (g : Guard), s.performsG g [] [] = true →
      go s.task (pc + off.signExtend 64 * 4) (exec (.br off g) s))
    ∧ (∀ (off : BitVec 20) (g : Guard), s.performsG g [.s 31] [] = true →
      go (s.task.writeS s.cycle 31 (pc + 4) 1) (pc + off.signExtend 64 * 4) (exec (.call off g) s))
    ∧ (s.task.fpend = false → s.task.stepping = false → exec .nop s = .next (s.after s.task 4))
    ∧ ∀ (f : Form) (d : Reg) (ea : Bool) (off : BitVec 13), s.performs f [.s d] [.s d] = true →
      let n := s.task.getS d
      if n = 0 ∨ n = 1 then exec (.loop f d ea off) s = .next (s.after (s.task.writeS s.cycle d 0 1) f.bytes)
      else go (s.task.writeS s.cycle d (n - 1) 1) (pc + off.signExtend 64 * 4) (exec (.loop f d ea off) s))
  ∧ ((∀ (s : State) (f : Form) (a : Reg) (ea : Bool), s.performs f [] [.s a] = true →
    let pc := s.task.getS a
    exec (.jr f a ea) s = .next (if s.landsAt pc then s.branched s.task pc else s.trap { cause := cILLEGAL_TARGET, addr := pc }))
  ∧ (∀ (s : State) (o : UnArgs), s.performs o.f [.s o.d] [.s o.a] = true →
    let pc := s.task.getS o.a
    exec (.callr o) s = .next (
      if s.landsAt pc then s.branched (s.task.writeS s.cycle o.d (s.task.pc + BitVec.ofNat 64 o.f.bytes) 1) pc
      else s.trap { cause := cILLEGAL_TARGET, addr := pc }))
  ∧ ∀ (s : State) (f : Form) (ea : Bool), s.performs f [] [.s 31] = true →
    let pc := s.task.getS 31
    exec (.ret f ea) s = .next (if s.landsAt pc then s.branched s.task pc else s.trap { cause := cILLEGAL_TARGET, addr := pc }))

/-- 10:R166: with bit 0 of its guard false, an instruction performs nothing, reads no source and parks on nothing: only the pc
moves on, and all of the machine is otherwise as it was. 03:R60: `fmt` notes its word for the next instruction; with a prefix pending, a second `fmt` and every instruction that cannot accept a
format raise FORMAT and do nothing else; `rdms` of a register its level may read, and the supervisor's instructions at their level, do the same
after their own checks (10:R170). 17:R265, 10:R170: at task privilege every privileged instruction raises PRIVILEGE, whatever its
guard and operands. -/
def Obligations.GuardsPrefixesAndPrivilege : Prop :=
  (∀ (s : State) (i : Instr) (g : Guard) (n : Nat), i.guarded = some (g, n) → s.task.fpend = false → s.task.stepping = false →
      s.task.guard0 g = false → exec i s = .next (s.after s.task n))
  ∧ ((∀ s : State,
      (∀ w : BitVec 32, s.task.fpend = false →
        exec (.fmt w) s = .next (s.setTask { s.task with fpend := true, fmtword := w, fmtPc := s.task.pc, pc := s.task.pc + 8 }))
      ∧ (s.task.fpend = true → ∀ i : Instr, ((∃ w, i = .fmt w) ∨ i = .nop ∨ i.guarded.isSome ∨ i.laned) → exec i s = .next (s.trapC cFORMAT)))
    ∧ (∀ (s : State) (i : Instr), i.isPrivileged = true → s.task.priv = .task → exec i s = .next (s.trapC cPRIVILEGE)))
  ∧ ∀ (s : State) (i : Instr) (g : Guard) (n : Nat), i.checked s.task = some (g, n) → s.task.stepping = false →
    (s.task.fpend = true → exec i s = .next (s.trapC cFORMAT))
    ∧ (s.task.fpend = false → s.task.guard0 g = false → exec i s = .next (s.after s.task n))

/-- 03:R49 to R51, 09:R156, 17:R271, R272, 02:R36: how `add` reads its registers. The sources come first, in field order: a marked one raises
DELIVERY_ERROR, an empty one whose bit is set EMPTY_REG. Then the first empty register, a source or the destination, parks the task at row 1.
A register that fills in this very cycle raises nothing and parks nothing: the instruction issues again. A task that parks keeps its pc and
every register.
The model's choices it rests on: assumption 16. -/
def Obligations.EmptyRegisters : Prop :=
  ∀ (s : State) (o : AluArgs) (b : Reg) (eb sat uns : Bool), o.b = .reg b eb → s.task.fpend = false → s.task.guard0 o.f.guard = true →
    let t := s.task
    let fresh (r : RegId) : Bool := t.fresh s.cycle r
    let marked (r : RegId) : Bool := t.err r && !fresh r
    let empty (r : RegId) (e : Bool) : Bool := !t.full r && e && !fresh r
    let x := exec (.add o sat uns) s
    (marked (.s o.a) = true → x = .next (s.trapSource cDELIVERY_ERROR))
    ∧ (marked (.s o.a) = false → empty (.s o.a) o.ea = true → x = .next (s.trapSource cEMPTY_REG))
    ∧ (marked (.s o.a) = false → empty (.s o.a) o.ea = false →
      (marked (.s b) = true → x = .next (s.trapSource cDELIVERY_ERROR))
      ∧ (marked (.s b) = false → empty (.s b) eb = true → x = .next (s.trapSource cEMPTY_REG))
      ∧ (marked (.s b) = false → empty (.s b) eb = false →
        (∀ r, [RegId.s o.a, .s b, .s o.d].find? (fun r => !t.full r) = some r → x = .next (s.park 1 (.full r)))
        ∧ ((∀ r ∈ [RegId.s o.a, .s b, .s o.d], t.full r = true) → (∃ r ∈ [RegId.s o.a, .s b, .s o.d], fresh r = true) → x = .next s)))
    ∧ ∀ r, t.stepping = false → (s.park 1 (.full r)).task = { t with run := .parked 1 (.full r) } ∧ (s.park 1 (.full r)).mem = s.mem

/-- 03:R47: s0 reads zero and is always full, p0 reads all ones; a write to either leaves every register as it was, and no other
register changes with one that is written. -/
def Obligations.FixedRegisters : Prop :=
  ∀ (t : Task) (now lat : Nat) (x : Word) (y : PWord),
    t.getS 0 = 0 ∧ t.full (.s 0) = true ∧ t.getP 0 = BitVec.allOnes 16 ∧ t.writeS now 0 x lat = t ∧ t.writeP now 0 y lat = t
    ∧ t.markEmpty (.s 0) = t
    ∧ (∀ r q : Reg, q ≠ 0 → (t.writeS now q x lat).getS r = if r = q then x else t.getS r)
    ∧ ∀ r q : BitVec 3, q ≠ 0 → (t.writeP now q y lat).getP r = if r = q then y else t.getP r

/-! ### Status registers, segments and system instructions -/

/-- 11:R190, 17:R267, 03:R58 to R60: `rdms` reads the register its number names with latency 1, the ones of the trap state at supervisor
privilege; a read of `ms.aerr` clears it; a number that names no register raises RESERVED_FIELD, and one above the task's level PRIVILEGE.
11:R191, 17:R267, R268: `wrms` at supervisor privilege writes the trap state's registers, `ms.tcause` and `ms.tstatus` but for their reserved bits (00:R4), and is ignored for a register the level may not write; an unassigned number raises RESERVED_FIELD. -/
def Obligations.StatusRegisters : Prop :=
  (∀ (s : State) (f : Form) (d : Reg), s.performs f [.s d] [] = true →
      let t := s.task
      let w (t : Task) (x : Word) : Out := .next (s.after (t.writeS s.cycle d x 1) f.bytes)
      (∀ e ∈ [(1, t.gtid), (2, BitVec.ofNat 64 (t.tile.getD 0x3FF)), (3, BitVec.ofNat 64 t.grank), (4, BitVec.ofNat 64 t.gsize), (8, (128 : Word)),
          (0x20, 16), (0x22, 4), (0x28, 4), (0x2A, 8)], exec (.rdms f d (BitVec.ofNat 13 e.1)) s = w t e.2)
      ∧ (∀ n ∈ [5, 9, 0x38, 0x180, 0x205, 0x212, 0x312, 0x1FFF], exec (.rdms f d (BitVec.ofNat 13 n)) s = .next (s.trapC cRESERVED_FIELD))
      ∧ (t.priv = .task → ∀ n ∈ [0x200, 0x204, 0x20B, 0x300, 0x311], exec (.rdms f d (BitVec.ofNat 13 n)) s = .next (s.trapC cPRIVILEGE))
      ∧ (t.priv = .supervisor →
        (∀ e ∈ [(0x200, t.tr.cause), (0x201, t.tr.pc), (0x202, t.tr.addr), (0x203, t.tr.status), (0x208, t.tr.vec), (0x209, t.tr.vseg.setWidth 64),
            (0x20A, (t.tr.vseg >>> 64).setWidth 64)], exec (.rdms f d (BitVec.ofNat 13 e.1)) s = w t e.2)
        ∧ exec (.rdms f d 0x204) s = w { t with tr := { t.tr with aerr := 0 } } t.tr.aerr
        ∧ ∀ n ∈ [0x300, 0x308, 0x311], exec (.rdms f d (BitVec.ofNat 13 n)) s = .next (s.trapC cPRIVILEGE)))
  ∧ (∀ (s : State) (f : Form) (a : Reg) (ea : Bool), s.performs f [] [.s a] = true → s.task.priv = .supervisor →
      let t := s.task
      let x := s.task.getS a
      let w (t : Task) : Out := .next (s.after t f.bytes)
      (∀ e ∈ [(0x201, { t with tr := { t.tr with pc := x } }), (0x202, { t with tr := { t.tr with addr := x } }),
          (0x208, { t with tr := { t.tr with vec := x } })], exec (.wrms f a ea (BitVec.ofNat 13 e.1)) s = w e.2)
      ∧ (∃ y : Word, exec (.wrms f a ea 0x203) s = w { t with tr := { t.tr with status := y } }
        ∧ ∀ i, y.getLsbD i = (x.getLsbD i && decide (i < 48 ∧ i ≠ 3 ∧ i ≠ 6 ∧ i ≠ 10 ∧ i ≠ 11 ∧ i ≠ 16 ∧ i ≠ 17 ∧ i ≠ 18)))
      ∧ (∃ y : Word, exec (.wrms f a ea 0x200) s = w { t with tr := { t.tr with cause := y } }
        ∧ ∀ i, y.getLsbD i = (x.getLsbD i && (decide (i = 63) || decide (32 ≤ i ∧ i < 40) || decide (8 ≤ i ∧ i < 12) || decide (i < 6))))
      ∧ (∀ n ∈ [1, 0x20, 0x100, 0x204, 0x209, 0x20A, 0x210, 0x300, 0x308, 0x311], exec (.wrms f a ea (BitVec.ofNat 13 n)) s = w t)
      ∧ ∀ n ∈ [5, 0x180, 0x205, 0x212, 0x312], exec (.wrms f a ea (BitVec.ofNat 13 n)) s = .next (s.trapC cRESERVED_FIELD))

/-- 11:R192, R193, 18:R280: reading, narrowing and writing segments. `grd` reads the half its selector names, and a selector above 1 is reserved. A narrowed segment keeps space and target, moves its base by b,
keeps no right the mask drops, and never has a greater limit; an offset above the limit raises SEGMENT_BOUND. `gwrite` refuses what
18:R280 lists and else writes both halves in one step.
The model's choices it rests on: assumption 43. -/
def Obligations.SegmentResults : Prop :=
  (∀ (s : State) (f : Form) (d : Reg) (a : BitVec 3) (hi : Bool), s.performs f [.s d] [] = true →
    exec (.grd f d a hi) s = .next (s.after (s.task.writeS s.cycle d
      (if hi then (s.task.getG a >>> 64).setWidth 64 else (s.task.getG a).setWidth 64) 1) f.bytes))
  ∧ (∀ r : Raw, r.major = 0x13 → r.len ≠ .l96 → let x := RFields.read r.body
    x.minor = 1 → if 1 < x.b.toNat then decodeRaw r = .error .reservedField
      else ∀ i, decodeRaw r = .ok i → i = .grd r.form x.d (x.a.setWidth 3) (x.b == 1))
  ∧ (∀ (s : State) (f : Form) (d a : BitVec 3) (b : Reg) (eb : Bool) (c : Reg) (ec : Bool) (drop : BitVec 4),
    s.performs f [] (.s b :: if c = 0 then [] else [.s c]) = true →
    let x := segOf (s.task.getG a)
    let o := (s.task.getS b).toNat
    if x.space ≠ 0 ∧ x.limit < o then
      exec (.gnarrow f d a b eb c ec drop) s = .next (s.trap { cause := cSEGMENT_BOUND, seg := some a, addr := s.task.getS b })
    else ∃ g, exec (.gnarrow f d a b eb c ec drop) s = .next (s.after (s.task.putG d g) f.bytes)
      ∧ segOf g = { x with
        rd := x.rd && !drop.getLsbD 3, wr := x.wr && !drop.getLsbD 2, at_ := x.at_ && !drop.getLsbD 1, en := x.en && !drop.getLsbD 0
        base := if x.space = 0 then x.base else (x.base + o) % 2 ^ 52
        limit := if x.space = 0 then x.limit else if c = 0 then x.limit - o else min (x.limit - o) (s.task.getS c).toNat })
  ∧ ∀ (s : State) (f : Form) (d : BitVec 3) (a : Reg) (ea : Bool) (b : Reg) (eb : Bool), s.performs f [] [.s a, .s b] = true →
    s.task.priv = .supervisor →
    let g : VWord := s.task.getS b ++ s.task.getS a
    let x := segOf g
    let remote := x.space = 3 ∨ x.space = 6
    exec (.gwrite f d a ea b eb) s = .next (
      if 7 ≤ x.space ∨ g.toNat / 2 ^ 104 % 64 ≠ 0 ∨ (remote ∧ s.tilesOf s.task.part ≤ x.target) ∨ (¬remote ∧ x.target ≠ 0) then
        s.trap { cause := cSEGMENT_INVALID, seg := some d }
      else if x.space ≠ 0 ∧ spaceBound x.space < x.base + x.limit then
        s.trap { cause := cSEGMENT_BOUND, seg := some d, addr := BitVec.ofNat 64 x.limit }
      else s.after (s.task.putG d g) f.bytes)

/-- 17:R273: a trap taken at task privilege enters the supervisor's handler: status, cause, return point and address are saved, g7 is
exchanged with `ms.tvseg`, the prefix is cleared, the level raised and the pc goes to `ms.tvec`, as a taken branch. Every other
register, memory and every other slot stay as they were. A cause of the debug or the trust family is not taken so.
The model's choices it rests on: assumption 38. -/
def Obligations.SupervisorEntry : Prop :=
  ∀ (s : State) (e : Exc), s.handled = true → isTrustCause e.cause = false → isDebugCause e.cause = false →
    let t := s.task
    let u := s.trap e
    u.task = { t.putG 7 t.tr.vseg with
        tr := { t.tr with cause := e.word, pc := if t.fpend then t.fmtPc else t.pc, addr := e.addr, status := s.statusOf t (coreOf s.cur), vseg := t.getG 7 }
        fpend := false, fmtword := 0, priv := .supervisor, inHandler := true, pc := t.tr.vec, run := .resident
        codeBase := none, codeBound := none, holdUntil := s.cycle + 3, skipBreak := false }
    ∧ u.mem = s.mem ∧ u.feEmpty = s.feEmpty ∧ u.net = s.net ∧ ∀ k, k ≠ s.cur → u.taskAt k = s.taskAt k

/-- 18:R278, R291, 17:R268: `trap` raises SYSCALL with its immediate as detail, after it completes: the return point is the next instruction.
`bkpt` with no debugger attached raises BKPT with its code at its own address. 18:R290, R293, 14:R253, 05:R94, 27:R387: `recmark` writes one record with its tag and the low 32 bits of sA and changes nothing else;
`termclr` zeroes the term counters of its partition on the tile's compute core; what commands count in its own cycle comes after it, and a second one of that cycle finds nothing else to clear. -/
def Obligations.SoftwareTrapsAndRecords : Prop :=
  (∀ (s : State) (f : Form), s.performs f [] [] = true → s.handled = true →
      (∀ n : BitVec 8, ∃ u, exec (.trap f n) s = .next u ∧ u.task.pc = s.task.tr.vec ∧ u.task.priv = .supervisor
        ∧ u.task.tr.pc = s.task.pc + BitVec.ofNat 64 f.bytes ∧ u.task.tr.cause = BitVec.ofNat 64 (7 + n.toNat * 2 ^ 32) ∧ u.task.tr.addr = 0
        ∧ u.task.s = s.task.s ∧ u.task.v = s.task.v ∧ u.task.p = s.task.p ∧ u.task.m = s.task.m ∧ u.mem = s.mem)
      ∧ (((s.partOf? s.task.part).bind (·.dbg.session)) = none → ∀ n : BitVec 5, ∃ u, exec (.bkpt f n) s = .next u
        ∧ u.task.pc = s.task.tr.vec ∧ u.task.priv = .supervisor ∧ u.task.tr.pc = s.task.pc
        ∧ u.task.tr.cause = BitVec.ofNat 64 (0x30 + n.toNat * 2 ^ 32) ∧ u.task.s = s.task.s ∧ u.mem = s.mem))
  ∧ (∀ (s : State) (f : Form),
      (∀ (a : Reg) (ea : Bool) (tag : BitVec 5), s.performs f [] [.s a] = true →
        exec (.recmark f a ea tag) s = .next ((s.record s.cur 7 0 s.task.gtid ((s.task.getS a).toNat % 2 ^ 32 + tag.toNat * 2 ^ 35)).after s.task f.bytes))
      ∧ (s.performs f [] [] = true → s.task.priv = .supervisor → ∃ u : State, exec (.termclr f) s = .next (u.after s.task f.bytes)
        ∧ (let k := s.counts s.task.part (computeOf (coreOf s.cur))
          if k.clearedAt = some s.cycle then u.counts s.task.part (computeOf (coreOf s.cur)) = k
          else ∀ i, (u.counts s.task.part (computeOf (coreOf s.cur))).term s.cycle i = if k.addedAt = s.cycle then (mapGet k.added i).getD 0 else 0)
        ∧ { u with counters := s.counters } = s))

/-- 14:R253: `termrd` reads the counter 0x100 + imm of the tile's compute core for the partition, what `rdms` of that number reads, with
latency 1; the numbers from 0x34 read zero. Whether a read comes before or after the counts of its own cycle 11:R190 leaves open: that they do
not show yet is the model's choice (assumption 108, DESIGN CHOICE). Its A field and bit 18 are zero, its immediate is at most 0x3F, and it has no 96-bit form.
The model's choices it rests on: assumption 108. -/
def Obligations.TermCounterReads : Prop :=
  (∀ (s : State) (f : Form) (d : Reg) (n : BitVec 6), s.performs f [.s d] [] = true →
    (let k := s.counts s.task.part (computeOf (coreOf s.cur))
     exec (.termrd f d n) s = .next (s.after (s.task.writeS s.cycle d (if 0x34 ≤ n.toNat then 0
        else (mapGet k.terms n.toNat).getD 0 + if k.addedAt = s.cycle then 0 else (mapGet k.added n.toNat).getD 0) 1) f.bytes))
    ∧ (n.toNat < 0x34 → exec (.termrd f d n) s = exec (.rdms f d (BitVec.ofNat 13 (0x100 + n.toNat))) s))
  ∧ (∀ r : Raw, r.major = 0x39 → let x := IFields.read r.body
    (r.len = .l96 → decodeRaw r = .error .illegalOpcode)
    ∧ (r.len ≠ .l96 → x.a ≠ 0 ∨ x.ea = true → decodeRaw r = .error .reservedField)
    ∧ (r.len ≠ .l96 → x.a = 0 → x.ea = false → (Ext.read r.hi).unusedBad {} = false →
      decodeRaw r = if 63 < x.imm.toNat then .error .illegalImm else .ok (.termrd r.form x.d (x.imm.setWidth 6))))
  ∧ decodeTableWord 32 0x019004E4 = some (.termrd .w32 4 0x32)


/-- 17:R273, 18:R279, R281: `trapret` at supervisor privilege goes to the return point where the resume map has it, a kind-2 entry with a
prefix pending; it restores the prefix and the level and exchanges g7; a return point the map has not is ILLEGAL_TARGET. At firmware
privilege it gives a `fwcall` its result and returns to the supervisor by the firmware copies, whose return point the supervisor capsule
must have in the same way. `fwcall` saves its return point and enters firmware.
The model's choices it rests on: assumption 17. -/
def Obligations.TrapReturn : Prop :=
  (∀ (s : State) (f : Form), s.performs f [] [] = true → s.task.priv = .supervisor →
    let t := s.task
    let fp := t.tr.status.getLsbD 0
    match (s.capsule? t.part t.capid).bind fun c => c.rmap.find? fun b => b.off == t.tr.pc.toNat with
    | none => exec (.trapret f) s = .next (s.trap { cause := cILLEGAL_TARGET, addr := t.tr.pc })
    | some b =>
      if fp = true ∧ b.kind ≠ 2 then exec (.trapret f) s = .next (s.trap { cause := cILLEGAL_TARGET, addr := t.tr.pc })
      else exec (.trapret f) s = .next (s.setTask { t.putG 7 t.tr.vseg with
        tr := { t.tr with vseg := t.tvNext.getD (t.getG 7) }
        inHandler := false, tvNext := none, priv := .task, fpend := fp, fmtword := if fp then (t.tr.status >>> 16).setWidth 32 else 0
        codeBase := none, codeBound := none
        fmtPc := t.tr.pc, skipBreak := false, holdUntil := s.cycle + 3, pc := if fp then t.tr.pc + 8 else t.tr.pc }))
  ∧ (∀ (s : State) (f : Form) (n arg r : Word) (d : Reg), s.performs f [] [] = true → s.task.priv = .firmware →
    s.task.fwCall = some ⟨n, arg, d, some r⟩ →
    let t : Task := { s.task with priv := .supervisor, fwCall := none }
    let fp := t.fw.status.getLsbD 0
    let bad : Out := .next ((s.setTask t).trap { cause := cILLEGAL_TARGET, addr := t.fw.pc })
    match (s.supCapsule? t.part).bind fun c => c.rmap.find? fun b => b.off == t.fw.pc.toNat with
    | none => exec (.trapret f) s = bad
    | some b =>
      if fp = true ∧ b.kind ≠ 2 then exec (.trapret f) s = bad
      else exec (.trapret f) s = .next (s.setTask { t.writeS s.cycle d r 1 with
        fpend := fp, fmtword := if fp then (t.fw.status >>> 16).setWidth 32 else 0
        fmtPc := t.fw.pc, skipBreak := false, holdUntil := s.cycle + 3, pc := if fp then t.fw.pc + 8 else t.fw.pc }))
  ∧ ∀ (s : State) (o : TwoArgs), s.performs o.f [.s o.d] [.s o.a, .s o.b] = true → s.task.priv = .supervisor →
    let n := s.task.getS o.a
    ∃ r, exec (.fwcall o) s = .next (s.branched { s.task with
        priv := .firmware, fw := { s.task.fw with pc := s.task.pc + BitVec.ofNat 64 o.f.bytes }, fwCall := some ⟨n, s.task.getS o.b, o.d, r⟩ } s.task.pc)
      ∧ (256 ≤ n.toNat → r = some 2) ∧ (n.toNat < 256 → knownService n.toNat = false → r = some 1)
      ∧ (n.toNat < 256 → knownService n.toNat = true → r = none)

/-! ### Vectors -/

/-- 12:R196, R202: the integer vector minors, element by element: exact arithmetic on elements that are signed for i types and unsigned for
n types, wrapped to the width or saturated to the type under `sat`; bitwise operations; shifts by the whole unsigned element of b.
The model's choices it rests on: assumption 20. -/
def Obligations.VectorIntegerResults : Prop :=
  (∀ (s : State) (o : VArgs), isInt o.ty = true → s.vperforms [] (.v o.a :: o.b.vreads.map (·.1) ++ [.v o.d]) = true →
    let w := elemBits o.ty
    let a (i : Nat) : Nat := elem (s.task.getV o.a) o.ty i
    let b (signed : Bool) (i : Nat) : Nat := vintB s.task signed o.ty i o.b
    let n (x : Nat) : Int := if isSigned o.ty ∧ 2 ^ (w - 1) ≤ x then (x : Int) - 2 ^ w else x
    let lo : Int := if isSigned o.ty then -(2 ^ (w - 1)) else 0
    let hi : Int := if isSigned o.ty then 2 ^ (w - 1) - 1 else 2 ^ w - 1
    let z (x : Int) : Nat := ((if o.sat then max lo (min hi x) else x) % 2 ^ w).toNat
    let A (i : Nat) : Int := n (a i)
    let B (i : Nat) : Int := n (b (isSigned o.ty) i)
    let r (x : Out) (el : Nat → Nat) : Prop := s.lanes o.f o.ty o.d 2 x el
    r (exec (.vintVadd o) s) (fun i => z (A i + B i)) ∧ r (exec (.vintVsub o) s) (fun i => z (A i - B i))
    ∧ r (exec (.vintVmul o) s) (fun i => z (A i * B i))
    ∧ (o.sat = false → r (exec (.vintVmulh o) s) (fun i => z (A i * B i / 2 ^ w)))
    ∧ (o.sat = false → r (exec (.vintVmin o) s) (fun i => z (min (A i) (B i))) ∧ r (exec (.vintVmax o) s) (fun i => z (max (A i) (B i))))
    ∧ r (exec (.vintVand o) s) (fun i => a i &&& b false i) ∧ r (exec (.vintVor o) s) (fun i => a i ||| b false i)
    ∧ r (exec (.vintVxor o) s) (fun i => a i ^^^ b false i)
    ∧ r (exec (.vintVandn o) s) (fun i => (BitVec.ofNat w (a i) &&& ~~~BitVec.ofNat w (b false i)).toNat)
    ∧ r (exec (.vintVshl o) s) (fun i => z (A i * 2 ^ b false i))
    ∧ r (exec (.vintVshr o) s) (fun i => a i / 2 ^ b false i)
    ∧ r (exec (.vintVsra o) s) (fun i => (A i / 2 ^ b false i % 2 ^ w).toNat))
  ∧ (∀ (s : State) (o : VUn), isInt o.ty = true → isSigned o.ty = true → s.vperforms [] [.v o.a, .v o.d] = true →
    let w := elemBits o.ty
    let A (i : Nat) : Int := signOf (elem (s.task.getV o.a) o.ty i) w
    let z (x : Int) : Nat := ((if o.sat then min (2 ^ (w - 1) - 1) x else x) % 2 ^ w).toNat
    s.lanes o.f o.ty o.d 2 (exec (.vintVabs o) s) (fun i => z (A i).natAbs)
    ∧ s.lanes o.f o.ty o.d 2 (exec (.vintVneg o) s) (fun i => z (-A i)))
  ∧ ∀ (s : State) (o : VCmp), isInt o.ty = true → s.vperforms [] (.v o.a :: o.b.vreads.map (·.1)) = true →
    let n (x : Nat) : Int := if isSigned o.ty ∧ 2 ^ (elemBits o.ty - 1) ≤ x then (x : Int) - 2 ^ elemBits o.ty else x
    let A (i : Nat) : Int := n (elem (s.task.getV o.a) o.ty i)
    let B (i : Nat) : Int := n (vintB s.task (isSigned o.ty) o.ty i o.b)
    let r (x : Out) (c : Nat → Bool) : Prop := s.flagged o.f o.ty o.p 2 x c
    r (exec (.vintVcmpEq o) s) (fun i => A i == B i) ∧ r (exec (.vintVcmpNe o) s) (fun i => A i != B i)
    ∧ r (exec (.vintVcmpLt o) s) (fun i => decide (A i < B i)) ∧ r (exec (.vintVcmpLe o) s) (fun i => decide (A i ≤ B i))

/-- 12:R204, R205, R209 to R211: `vdot4` adds the exact dot product of four bytes to each 32-bit element whose first byte is active, and reduces the
sum once; `vsum` leaves the exact sum of the active elements, reduced once, in element 0 and zero in the others. `vwhile` compares the exact a + i with b; `pcnt` counts active elements; moves copy
elements, with bits 7:6 clear for E3M2 and E2M3, in the index of `vperm` too.
The model's choices it rests on: assumption 82. -/
def Obligations.VectorReductionsAndMoves : Prop :=
  ((∀ (s : State) (o : VArgs), o.ty = 0 ∨ o.ty = 4 → s.vperforms [] (.v o.a :: o.b.vreads.map (·.1) ++ [.v o.d]) = true →
      let A (i : Nat) : Int := intOf o.ty (elem (s.task.getV o.a) o.ty i)
      let B (i : Nat) : Int := intOf o.ty (vintB s.task (isSigned o.ty) o.ty i o.b)
      let T : BitVec 5 := if o.ty = 0 then 2 else 6
      let dot (j : Nat) : Int := A (4 * j) * B (4 * j) + A (4 * j + 1) * B (4 * j + 1) + A (4 * j + 2) * B (4 * j + 2) + A (4 * j + 3) * B (4 * j + 3)
      ∃ r, exec (.vdot4 o) s = .next (s.after (s.task.writeV s.cycle o.d r 2) o.f.bytes) ∧ ∀ j, j < 4 →
        elem r T j = if (s.task.guardBits o.f.guard).getLsbD (4 * j) then
          reduce T o.sat (intOf T (elem (s.task.getV o.d) T j) + dot j) else elem (s.task.getV o.d) T j)
    ∧ ∀ (s : State) (o : VUn), isInt o.ty = true → s.vperforms [] [.v o.a, .v o.d] = true →
      let act := (List.range (lanesOf o.ty)).filter (active (s.task.guardBits o.f.guard) o.ty)
      ∃ r, exec (.vintVsum o) s = .next (s.after (s.task.writeV s.cycle o.d r 2) o.f.bytes) ∧ ∀ i, i < lanesOf o.ty →
        elem r o.ty i = if i = 0 then reduce o.ty o.sat (act.map fun k => intOf o.ty (elem (s.task.getV o.a) o.ty k)).sum else 0)
  ∧ ((∀ (s : State) (g : Guard) (ty : BitVec 5) (d : BitVec 3) (a : Reg) (ea : Bool) (b : Reg) (eb : Bool), isElem ty = true →
      s.vperforms [] [.s a, .s b] = true →
      s.flagged (.w64 g) ty d 1 (exec (.vwhile g ty d a ea b eb) s) fun i => decide ((s.task.getS a).toNat + i < (s.task.getS b).toNat))
    ∧ (∀ (s : State) (ty : BitVec 5) (d : Reg) (a : BitVec 3), s.vperforms [.s d] [] = true →
      exec (.pcnt ty d a) s = .next (s.after (s.task.writeS s.cycle d
        (BitVec.ofNat 64 ((List.range (lanesOf ty)).filter fun i => (s.task.getP a).getLsbD (i * elemBits ty / 8)).length) 1) 8))
    ∧ (∀ (s : State) (o : VUn), let mv (x : Nat) : Nat := if o.ty ∈ [0x0D, 0x0E, 0x13, 0x14] then x % 64 else x
      (s.vperforms [] [.v o.a, .v o.d] = true → s.lanes o.f o.ty o.d 2 (exec (.vmov o) s) fun i => mv (elem (s.task.getV o.a) o.ty i))
      ∧ (s.vperforms [] [.s o.a, .v o.d] = true → s.lanes o.f o.ty o.d 2 (exec (.vbcast o) s) fun _ => mv (s.task.getS o.a).toNat))
    ∧ (∀ (s : State) (o : VMovArgs), s.vperforms [] [.v o.a, .v o.b, .v o.d] = true →
      let mv (x : Nat) : Nat := if o.ty ∈ [0x0D, 0x0E, 0x13, 0x14] then x % 64 else x
      let a (i : Nat) : Nat := elem (s.task.getV o.a) o.ty i
      let b (i : Nat) : Nat := elem (s.task.getV o.b) o.ty i
      s.lanes o.f o.ty o.d 2 (exec (.vperm o) s) (fun i => if mv (b i) < lanesOf o.ty then mv (a (mv (b i))) else 0)
      ∧ ∃ r, exec (.vsel o) s = .next (s.after (s.task.writeV s.cycle o.d r 2) o.f.bytes) ∧ ∀ i, i < lanesOf o.ty →
        elem r o.ty i = mv (if active (s.task.guardBits o.f.guard) o.ty i then a i else b i))
    ∧ ∀ (s : State) (o : VIdxArgs), o.k.toNat < lanesOf o.ty →
      let mv (x : Nat) : Nat := if o.ty ∈ [0x0D, 0x0E, 0x13, 0x14] then x % 64 else x
      (s.performs o.f [] [.s o.a, .v o.d] = true → ∃ r, exec (.vins o) s = .next (s.after (s.task.writeV s.cycle o.d r 2) o.f.bytes)
        ∧ ∀ i, i < lanesOf o.ty → elem r o.ty i =
          if i = o.k.toNat then mv (s.task.getS o.a).toNat % 2 ^ elemBits o.ty else elem (s.task.getV o.d) o.ty i)
      ∧ (s.performs o.f [.s o.d] [.v o.a] = true → ∃ x : Word, exec (.vext o) s = .next (s.after (s.task.writeS s.cycle o.d x 2) o.f.bytes)
        ∧ (isSigned o.ty = false → x.toNat = mv (elem (s.task.getV o.a) o.ty o.k.toNat))
        ∧ (isSigned o.ty = true → x.toInt = signOf (elem (s.task.getV o.a) o.ty o.k.toNat) (elemBits o.ty))))

/-- 12:R206, R207, 04:R71 to R73: floating-point minors with no prefix: the exact operation, rounded once; minimum and maximum, absolute
value and negation; compares; and the exact sum of the active elements, rounded once, in element 0.
The model's choices it rests on: assumption 112. -/
def Obligations.VectorFloatResults : Prop :=
  (∀ (s : State) (o : VFArgs), s.vperforms [] (.v o.a :: o.b.vreads.map (·.1) ++ [.v o.d]) = true →
    let a (i : Nat) : FVal := elemValue o.ty 0x7F (elem (s.task.getV o.a) o.ty i)
    let b (i : Nat) : FVal := match o.b with
      | .reg b _ => elemValue o.ty 0x7F (elem (s.task.getV b) o.ty i)
      | .fi x => (if o.ty = 9 then f16 else bf16).decode x.toNat
      | .lit l => elemValue o.ty 0x7F (roundTo o.ty 0 true (f32.decode l.toNat)).bits
    let r (x : Out) (v : Nat → FVal) : Prop := s.lanes o.f o.ty o.d 4 x fun i => (roundTo o.ty o.rnd o.sat (v i)).bits
    r (exec (.vfpVadd o) s) (fun i => (a i).add o.rnd (b i)) ∧ r (exec (.vfpVsub o) s) (fun i => (a i).add o.rnd (b i).neg)
    ∧ r (exec (.vfpVmul o) s) (fun i => (a i).mul (b i)) ∧ r (exec (.vfpVmin o) s) (fun i => (a i).min (b i))
    ∧ r (exec (.vfpVmax o) s) (fun i => (a i).max (b i)))
  ∧ (∀ (s : State) (o : VUn), s.vperforms [] [.v o.a, .v o.d] = true →
    let a (i : Nat) : FVal := elemValue o.ty 0x7F (elem (s.task.getV o.a) o.ty i)
    let r (x : Out) (v : Nat → FVal) : Prop := s.lanes o.f o.ty o.d 4 x fun i => (roundTo o.ty o.rnd o.sat (v i)).bits
    r (exec (.vfpVabs o) s) (fun i => (a i).abs) ∧ r (exec (.vfpVneg o) s) (fun i => (a i).neg)
    ∧ ∃ x, exec (.vfpVsum o) s = .next (s.after (s.task.writeV s.cycle o.d x 4) o.f.bytes) ∧ ∀ i, i < lanesOf o.ty →
      elem x o.ty i = if i = 0 then (roundTo o.ty o.rnd o.sat (fsum o.rnd
        (((List.range (lanesOf o.ty)).filter (active (s.task.guardBits o.f.guard) o.ty)).map a))).bits % 2 ^ elemBits o.ty else 0)
  ∧ (∀ (s : State) (o : VFCmp), isFp o.ty = true → s.vperforms [] (.v o.a :: o.b.vreads.map (·.1)) = true →
    let a (i : Nat) : FVal := elemValue o.ty 0x7F (elem (s.task.getV o.a) o.ty i)
    let b (i : Nat) : FVal := fpB s.task o.ty i o.b
    let r (x : Out) (c : Nat → Bool) : Prop := s.flagged o.f o.ty o.p 2 x c
    r (exec (.vfpVcmpEq o) s) (fun i => (a i).eqv (b i)) ∧ r (exec (.vfpVcmpNe o) s) (fun i => !(a i).eqv (b i))
    ∧ r (exec (.vfpVcmpLt o) s) (fun i => (a i).lt (b i)) ∧ r (exec (.vfpVcmpLe o) s) (fun i => (a i).lt (b i) || (a i).eqv (b i)))
  ∧ ∀ (s : State) (o : VFma), s.vperforms [] [.v o.a, .v o.b, .v o.c, .v o.d] = true →
    let p (i : Nat) : FVal := (elemValue o.ty 0x7F (elem (s.task.getV o.a) o.ty i)).mul (elemValue o.ty 0x7F (elem (s.task.getV o.b) o.ty i))
    let c (i : Nat) : FVal := elemValue o.ty 0x7F (elem (s.task.getV o.c) o.ty i)
    let r (x : Out) (v : Nat → FVal) : Prop := s.lanes o.f o.ty o.d 4 x fun i => (roundTo o.ty o.rnd o.sat (v i)).bits
    r (exec (.vfma o) s) (fun i => (p i).add o.rnd (c i)) ∧ r (exec (.vfms o) s) (fun i => (p i).add o.rnd (c i).neg)
    ∧ r (exec (.vfnma o) s) (fun i => (p i).neg.add o.rnd (c i).neg) ∧ r (exec (.vfnms o) s) (fun i => (p i).neg.add o.rnd (c i))

/-- 04:R67, R71, R73: in every format, an encoding that is no NaN is the rounding of its own value, in every mode and with or without
saturation; a NaN rounds to the format's canonical one; the order of values has no NaN in it. 04:R68: an E8M0 encoding e from 0 to 254 has the
value 2^(e − 127), and 0xFF is NaN; none is a zero or an infinity. -/
def Obligations.EncodingsRoundToThemselves : Prop :=
  (∀ f ∈ [f32, f16, bf16, e5m2, e4m3, e3m2, e2m3, e2m1], ∀ (x : Nat) (rnd : Rnd) (sat : Bool), x < 2 ^ (1 + f.eb + f.mb) →
    (f.decode x ≠ .nan → (f.round rnd sat (f.decode x)).bits = x)
    ∧ (f.decode x = .nan → (f.round rnd sat (f.decode x)).bits = f.nan ∧ f.hasNan = true)
    ∧ ∀ v, FVal.lt .nan v = false ∧ FVal.lt v .nan = false ∧ FVal.eqv .nan v = false)
  ∧ ∀ sc e : Nat, e < 256 → elemValue 0x10 sc e = (if e = 255 then .nan else .fin false 1 ((e : Int) - 127))
    ∧ ∀ neg exp, elemValue 0x10 sc e ≠ .inf neg ∧ elemValue 0x10 sc e ≠ .fin neg 0 exp

/-- 12:R199, R200, R206: under a prefix that overrides source A with an allowed format, `vadd` and `vfma` read A's elements in that format
from the part the prefix names, an MX format under the scale it gives, and the prefix is gone afterwards; an override that is no
widening raises FORMAT. -/
def Obligations.PrefixedOperands : Prop :=
  let word (s : State) (fa : BitVec 5) (part sv : Nat) : Prop := s.task.fpend = true ∧ part < 4 ∧ sv < 256 ∧
    s.task.fmtword = BitVec.ofNat 32 (2 ^ 31 + fa.toNat * 2 ^ 26 + part * 2 ^ 18 + (if isMx fa then 2 else 0) * 2 ^ 16 + (if isMx fa then sv else 0) * 8)
  let a (s : State) (ty : BitVec 5) (r : Reg) (fa : BitVec 5) (part sv i : Nat) : FVal :=
    elemValue fa (if isMx fa then sv else 0x7F) (elem (s.task.getV r) fa (i + part * lanesOf ty))
  let allowed (ty fa : BitVec 5) (part : Nat) : Prop := widens ty fa = true ∧ part * lanesOf ty + lanesOf ty ≤ lanesOf fa
  (∀ (s : State) (o : VFArgs) (b : Reg) (eb : Bool) (fa : BitVec 5) (part sv : Nat), o.b = .reg b eb → isFp o.ty = true → word s fa part sv →
    s.readable [] [.v o.a, .v b, .v o.d] = true →
    if allowed o.ty fa part then
      s.lanes o.f o.ty o.d 4 (exec (.vfpVadd o) s) fun i => (roundTo o.ty o.rnd o.sat
        ((a s o.ty o.a fa part sv i).add o.rnd (elemValue o.ty 0x7F (elem (s.task.getV b) o.ty i)))).bits
    else exec (.vfpVadd o) s = .next (s.trapC cFORMAT))
  ∧ ∀ (s : State) (o : VFma) (fa : BitVec 5) (part sv : Nat), isFp o.ty = true → word s fa part sv →
    s.readable [] [.v o.a, .v o.b, .v o.c, .v o.d] = true →
    if allowed o.ty fa part then
      s.lanes o.f o.ty o.d 4 (exec (.vfma o) s) fun i => (roundTo o.ty o.rnd o.sat
        (((a s o.ty o.a fa part sv i).mul (elemValue o.ty 0x7F (elem (s.task.getV o.b) o.ty i))).add o.rnd
          (elemValue o.ty 0x7F (elem (s.task.getV o.c) o.ty i)))).bits
    else exec (.vfma o) s = .next (s.trapC cFORMAT)

/-! ### Conversions and special functions -/

/-- 12:R212, R213, R197: `cvt` with no prefix converts element by element: the source from a group of registers or from part q of one, rounded
once to a floating-point or MX element format, or to an integer with saturation, or from integer to integer as `sat` says. With a count
register named, it receives the clamps and underflows of the active elements, for the destinations that count them.
The model's choices it rests on: assumption 47. -/
def Obligations.ConvertResults : Prop :=
  ∀ (s : State) (o : CvtArgs),
    s.vperforms (match o.cnt with | some c => [.s c] | none => []) (((List.range (cvtGroup o.dt o.st)).map fun i => .v (o.a + BitVec.ofNat 5 i)) ++ [.v o.d]) = true →
    let ns := lanesOf o.st
    let nd := lanesOf o.dt
    let x (i : Nat) : Nat := if ns ≤ nd then elem (s.task.getV (o.a + BitVec.ofNat 5 (i / ns))) o.st (i % ns) else elem (s.task.getV o.a) o.st (i + o.q.toNat * nd)
    let y (i : Nat) : Rounded :=
      if isInt o.dt = true ∧ isInt o.st = true then ⟨reduce o.dt o.sat (intOf o.st (x i)), false, false⟩
      else if isInt o.dt = true then
        let w := elemBits o.dt
        let lo : Int := if isSigned o.dt then -(2 ^ (w - 1)) else 0
        let hi : Int := if isSigned o.dt then 2 ^ (w - 1) - 1 else 2 ^ w - 1
        ⟨(roundInt o.rnd lo hi (elemValue o.st 0x7F (x i)) % 2 ^ w).toNat, false, false⟩
      else roundTo o.dt o.rnd o.sat (elemValue o.st 0x7F (x i))
    let act := (List.range nd).filter (active (s.task.guardBits o.f.guard) o.dt)
    let count (p : Rounded → Bool) : Nat := (act.filter fun i => p (y i)).length
    ∃ r, (∀ i, i < nd → elem r o.dt i = if active (s.task.guardBits o.f.guard) o.dt i then (y i).bits % 2 ^ elemBits o.dt
        else elem (s.task.getV o.d) o.dt i)
      ∧ exec (.cvt o) s = .next (s.after (match o.cnt with
        | none => s.task.writeV s.cycle o.d r 3
        | some c => (s.task.writeV s.cycle o.d r 3).writeS s.cycle c
            (if counted o.dt then BitVec.ofNat 64 (count (·.under) + count (·.clamp) * 2 ^ 8) else 0) 3) o.f.bytes)

/-- 12:R213, R214, 04:R74 to R78: `cvt.mx` quantises 32 values to one MX block under one scale, which goes to vD, or to vD and vD + 1, with
the scale and the counts in its s register. A block with an infinity or a NaN has the scale 0xFF, zero elements and no counts; one of zeros
the scale 0 and zeros. Otherwise standard mode takes the binade of the largest magnitude, less the format's greatest exponent, bounded to −127
and 127; balanced mode takes one less where that is above −127 and clamps and underflows fewer of the 32 elements. Each active element is the
value divided by the scale, rounded once with saturation, and it alone is counted. Bit i of the guard governs elements i and 16 + i of a block
that fills two registers. 12:R215, R216, 05:R97, 02:R36: a special-function instruction with a token to draw, or one that the task holds, goes
on with the next instruction, empties vD and parks the task on it at row 4; the request it leaves carries, for each active element, the
function's value rounded once where the model decides it, and the old element elsewhere. Nothing of memory changes. The table gives each
function's value at the infinities and the zeros; a NaN gives a NaN.
The model's choices it rests on: assumptions 22, 23, 45, 83. -/
def Obligations.QuantisationAndSpecialFunctions : Prop :=
  ((∀ (s : State) (o : CvtMxArgs), s.vperforms [.s o.c]
        (((List.range (mxGroup o.st)).map fun i => .v (o.a + BitVec.ofNat 5 i)) ++ .v o.d :: if o.dt = 0x15 then [] else [.v (o.d + 1)]) = true →
      let ns := lanesOf o.st
      let vals := (List.range 32).map fun i => elemValue o.st 0x7F (elem (s.task.getV (o.a + BitVec.ofNat 5 (i / ns))) o.st (i % ns))
      let per := if o.dt = 0x15 then 32 else 16
      let b := mxQuantise o.dt o.rnd o.bal vals fun i => active (s.task.guardBits o.f.guard) o.dt (i % per)
      ∃ r q, exec (.cvtMx o) s = .next (s.after
          ((if o.dt = 0x15 then s.task.writeV s.cycle o.d r 3 else (s.task.writeV s.cycle o.d r 3).writeV s.cycle (o.d + 1) q 3).writeS s.cycle o.c
            (BitVec.ofNat 64 (b.under + b.clamps * 2 ^ 8 + b.scale * 2 ^ 16)) 3) o.f.bytes)
        ∧ ∀ i, i < lanesOf o.dt → elem r o.dt i = (if active (s.task.guardBits o.f.guard) o.dt i then (b.elems[i]?.getD 0) % 2 ^ elemBits o.dt
            else elem (s.task.getV o.d) o.dt i)
          ∧ elem q o.dt i = if active (s.task.guardBits o.f.guard) o.dt i then (b.elems[16 + i]?.getD 0) % 2 ^ elemBits o.dt
            else elem (s.task.getV (o.d + 1)) o.dt i)
    ∧ ∀ e ∈ [(0x11, (15 : Int)), (0x12, 8), (0x13, 4), (0x14, 2), (0x15, 2), (0x16, 0)],
      ∀ (rnd : Rnd) (bal : Bool) (vals : List FVal) (act : Nat → Bool), vals.length = 32 →
      let ty := BitVec.ofNat 5 e.1
      let b := mxQuantise ty rnd bal vals act
      ((∃ v ∈ vals, v = .nan ∨ ∃ n, v = .inf n) → b.scale = 0xFF ∧ (∀ i, i < 32 → b.elems[i]? = some 0) ∧ b.clamps = 0 ∧ b.under = 0)
      ∧ ((∀ v ∈ vals, ∃ n k, v = .fin n 0 k) → b.scale = 0 ∧ b.clamps = 0 ∧ b.under = 0
        ∧ ∀ (i : Nat) (v : FVal), vals[i]? = some v → b.elems[i]? = some (roundTo ty rnd true v).bits)
      ∧ ∀ l : Int, (∀ v ∈ vals, v.isFin = true) → (∃ v ∈ vals, log2Of v = some l) → (∀ v ∈ vals, ∀ m, log2Of v = some m → m ≤ l) →
        let k := max (-127) (min 127 (l - e.2))
        let R (k : Int) (i : Nat) : Rounded := roundTo ty rnd true ((vals[i]?.getD .nan).scale (-k))
        let lost (k : Int) : Nat := ((List.range 32).filter fun i => (R k i).clamp).length + ((List.range 32).filter fun i => (R k i).under).length
        let q := if bal = true ∧ -127 < k ∧ lost (k - 1) < lost k then k - 1 else k
        b.scale = (q + 127).toNat ∧ b.clamps = ((List.range 32).filter fun i => act i && (R q i).clamp).length
        ∧ b.under = ((List.range 32).filter fun i => act i && (R q i).under).length
        ∧ ∀ i, i < 32 → act i = true → b.elems[i]? = some (R q i).bits)
  ∧ (∀ (s : State) (o : VUn), s.vperforms [] [.v o.a, .v o.d] = true →
      let t := s.task
      let k := State.poolKey (coreOf s.cur) 3
      s.holdsFree t 3 = true ∨ (0 < s.poolFree t.part k ∧ s.firstInPool t k = true) →
      ∀ e ∈ [(Instr.sfuExp o, SfuFn.exp), (.sfuLog o, .log), (.sfuRcp o, .rcp), (.sfuRsqrt o, .rsqrt), (.sfuSqrt o, .sqrt), (.sfuSin o, .sin),
          (.sfuCos o, .cos), (.sfuTanh o, .tanh), (.sfuSigm o, .sigm)],
        ∃ (u : State) (r : SfuReq), exec e.1 s = .next u ∧ u.task = s.leftParked (t.markEmpty (.v o.d)) o.f.bytes 4 (.full (.v o.d))
          ∧ u.mem = s.mem ∧ u.net = { s.net with sfu := s.net.sfu ++ [r] } ∧ r.owner = t.gtid ∧ r.dst = o.d ∧ r.tag = s.tagCtr
          ∧ r.drawn = !s.holdsFree t 3
          ∧ ∀ i, i < lanesOf o.ty → if active (t.guardBits o.f.guard) o.ty i then
              ∀ n, sfuRound o.ty o.rnd o.sat (sfuValue e.2 (elemValue o.ty 0x7F (elem (t.getV o.a) o.ty i))) = some n → elem r.value o.ty i = n % 2 ^ elemBits o.ty
            else elem r.value o.ty i = elem (t.getV o.d) o.ty i)
  ∧ ∀ (n : Bool) (m : Nat) (k : Int),
    let z : FVal := .fin false 0 0
    let one : FVal := .fin false 1 0
    let at_ (f : SfuFn) (x v : FVal) : Prop := sfuValue f x = .exact v
    (∀ f, at_ f .nan .nan)
    ∧ at_ .exp (.inf true) z ∧ at_ .exp (.inf false) (.inf false) ∧ at_ .exp (.fin n 0 k) one
    ∧ at_ .log (.inf true) .nan ∧ at_ .log (.inf false) (.inf false) ∧ at_ .log (.fin n 0 k) (.inf true) ∧ (m ≠ 0 → at_ .log (.fin true m k) .nan)
    ∧ at_ .rcp (.inf n) (.fin n 0 0) ∧ at_ .rcp (.fin n 0 k) (.inf n)
    ∧ at_ .rsqrt (.inf true) .nan ∧ at_ .rsqrt (.inf false) z ∧ at_ .rsqrt (.fin n 0 k) (.inf n) ∧ (m ≠ 0 → at_ .rsqrt (.fin true m k) .nan)
    ∧ at_ .sqrt (.inf true) .nan ∧ at_ .sqrt (.inf false) (.inf false) ∧ at_ .sqrt (.fin n 0 k) (.fin n 0 0) ∧ (m ≠ 0 → at_ .sqrt (.fin true m k) .nan)
    ∧ at_ .sin (.inf n) .nan ∧ at_ .sin (.fin n 0 k) (.fin n 0 0) ∧ at_ .cos (.inf n) .nan ∧ at_ .cos (.fin n 0 k) one
    ∧ at_ .tanh (.inf n) (.fin n 1 0) ∧ at_ .tanh (.fin n 0 k) (.fin n 0 0)
    ∧ at_ .sigm (.inf true) z ∧ at_ .sigm (.inf false) one ∧ at_ .sigm (.fin n 0 k) (.fin false 1 (-1))

/-! ### Memory instructions -/

/-- 13:R220, R223, R235, 10:R173: a load from this tile's memory reads its bytes, lowest address first, extends them as it says, and goes on
with a latency of 5, and 2 more for each access its bank has served in the cycle (06:R103); `ldfe`, `ldfe.take` and `join` read a full word of eight bytes, and `take` leaves it
empty. The increment is made; memory and every other part of the machine stay as they were. -/
def Obligations.LocalLoads : Prop :=
  (∀ (s : State) (o : LdArgs) (x : Segment) (a : Nat), o.o.ord ≠ 3 →
    ∀ e ∈ [(1, false, Instr.ldD8 o), (2, false, .ldD16 o), (4, false, .ldD32 o), (8, false, .ldD64 o), (16, true, .ldD128 o)],
      let n := e.1
      s.performs o.f [if e.2.1 then .v o.t else .s o.t] (o.m.reads.map (·.1)) = true →
      s.check o.m.seg (o.m.offset s.task).toNat n { rd := true } [1, 2, 3, 6] n [4, 16] = .ok (x, a) → s.atOnce x a n 1 →
      let raw := leNat (memRead s.mem (s.tileMem x a) n)
      let lat := 5 + 2 * s.bankUses (x.space == 2 || x.space == 6) a
      ∃ u, exec e.2.2 s = .next u ∧ s.sameBut u
        ∧ u.task = s.goneOn (if e.2.1 then (o.m.bump s.task).writeV s.cycle o.t (BitVec.ofNat 128 raw) lat
          else (o.m.bump s.task).writeS s.cycle o.t (if o.sx then (BitVec.ofNat (8 * n) raw).signExtend 64 else BitVec.ofNat 64 raw) lat) o.f.bytes)
  ∧ ∀ (s : State) (o : FeArgs) (x : Segment) (a : Nat), s.performs o.f [.s o.t] (o.m.reads.map (·.1)) = true →
    s.check o.m.seg (o.m.offset s.task).toNat 8 { rd := true } [1, 3] 8 [] = .ok (x, a) → s.feFull (s.tileMem x a) = true →
    ∀ e ∈ [(1, false, Instr.ldfe o), (9, true, .ldfeTake o), (1, false, .join o)], s.atOnce x a 8 e.1 →
      let lat := 5 + 2 * s.bankUses false a
      ∃ u, exec e.2.2 s = .next u ∧ s.sameButMemory u ∧ u.mem = s.mem ∧ (e.2.1 = false → u.vtiles = s.vtiles)
        ∧ (∀ b, u.feFull b = (s.feFull b && !(e.2.1 && b == s.tileMem x a)))
        ∧ u.task = s.goneOn ((o.m.bump s.task).writeS s.cycle o.t (BitVec.ofNat 64 (leNat (memRead s.mem (s.tileMem x a) 8))) lat) o.f.bytes

/-- 13:R221 to R223, 07:R119, 14:R249: a store to this tile's memory writes its bytes, lowest address first, and no other byte; `st.d4` replaces
one nibble of a byte, counting its offset in nibbles; `stfe` fills its word. A byte hidden by a running decryption keeps its value. -/
def Obligations.LocalStores : Prop :=
  (∀ (s : State) (o : StArgs) (x : Segment) (a : Nat), s.memOk → o.o.ord ≠ 3 → (o.o.ord = 1 → s.releaseWaits s.task.gtid = false) →
    ∀ e ∈ [(1, false, Instr.stD8 o), (2, false, .stD16 o), (4, false, .stD32 o), (8, false, .stD64 o), (16, true, .stD128 o)],
      let n := e.1
      s.performs o.f [] ((o.m.reads.map (·.1)) ++ [if e.2.1 then .v o.t else .s o.t]) = true →
      s.check o.m.seg (o.m.offset s.task).toNat n { wr := true } [1, 2, 3, 6] n [4, 16] = .ok (x, a) → s.atOnce x a n 2 →
      let d := if e.2.1 then (s.task.getV o.t).toNat else (s.task.getS o.t).toNat
      let at_ := s.tileMem x a
      ∃ u, exec e.2.2 s = .next u ∧ s.sameButMemory u ∧ u.feEmpty = s.feEmpty ∧ u.task = s.goneOn (o.m.bump s.task) o.f.bytes
        ∧ ∀ b, memGet u.mem b = if at_ ≤ b ∧ b < at_ + n ∧ s.hiddenAt b = false then BitVec.ofNat 8 (d / 256 ^ (b - at_)) else memGet s.mem b)
  ∧ (∀ (s : State) (o : StArgs) (x : Segment) (a : Nat), s.memOk → (o.o.ord = 1 → s.releaseWaits s.task.gtid = false) →
    s.performs o.f [] ((o.m.reads.map (·.1)) ++ [.s o.t]) = true →
    s.check o.m.seg ((o.m.offset s.task).toNat / 2) 1 { wr := true } [1, 2, 3, 6] 1 [] = .ok (x, a) → s.atOnce x a 1 2 →
    let d := (s.task.getS o.t).toNat % 16
    let old := (memGet s.mem (s.tileMem x a)).toNat
    ∃ u, exec (.stD4 o) s = .next u ∧ s.sameButMemory u ∧ u.feEmpty = s.feEmpty ∧ u.task = s.goneOn (o.m.bump s.task) o.f.bytes
      ∧ ∀ b, memGet u.mem b = if b = s.tileMem x a ∧ s.hiddenAt b = false then
          BitVec.ofNat 8 (if (o.m.offset s.task).toNat % 2 = 1 then old % 16 + d * 16 else old / 16 * 16 + d) else memGet s.mem b)
  ∧ ∀ (s : State) (o : StfeArgs) (x : Segment) (a : Nat), s.memOk → s.performs o.f [] ((o.m.reads.map (·.1)) ++ [.s o.t]) = true →
    s.check o.m.seg (o.m.offset s.task).toNat 8 { wr := true } [1, 3] 8 [] = .ok (x, a) → s.releaseWaits s.task.gtid = false →
    (o.wfe = true → s.feFull (s.tileMem x a) = false) → s.atOnce x a 8 10 →
    let at_ := s.tileMem x a
    ∃ u, exec (.stfe o) s = .next u ∧ s.sameButMemory u ∧ u.task = s.goneOn (o.m.bump s.task) o.f.bytes
      ∧ (∀ b, u.feFull b = (s.feFull b || b == at_))
      ∧ ∀ b, memGet u.mem b = if at_ ≤ b ∧ b < at_ + 8 ∧ s.hiddenAt b = false then BitVec.ofNat 8 ((s.task.getS o.t).toNat / 256 ^ (b - at_))
        else memGet s.mem b

/-- 13:R227: an atomic on this tile's memory reads the old word into sD and writes the new one, in one step: swap, add, and, or, exclusive or,
signed and unsigned minimum and maximum, and compare-and-swap against sD. -/
def Obligations.LocalAtomics : Prop :=
  ∀ (s : State) (o : AmoArgs) (x : Segment) (a : Nat), s.memOk → o.o.ord ≠ 3 → o.queue = 0 → (o.o.ord = 1 → s.releaseWaits s.task.gtid = false) →
    ∀ e ∈ [(4, Instr.amoD32 o), (8, .amoD64 o)],
      let n := e.1
      s.performs o.f [.s o.t] ((o.m.reads.map (·.1)) ++ [.s o.c] ++ if o.op = 9 then [.s o.t] else []) = true →
      s.check o.m.seg (o.m.offset s.task).toNat n { at_ := true } [1, 2, 3, 4, 6] n [4] = .ok (x, a) → s.atOnce x a n 4 →
      let at_ := s.tileMem x a
      let old := leNat (memRead s.mem at_ n)
      let c := (s.task.getS o.c).toNat % 2 ^ (8 * n)
      let S (y : Nat) : Int := (BitVec.ofNat (8 * n) y).toInt
      let new := match o.op.toNat with
        | 0 => c
        | 1 => (old + c) % 2 ^ (8 * n)
        | 2 => old &&& c
        | 3 => old ||| c
        | 4 => old ^^^ c
        | 5 => if S old ≤ S c then old else c
        | 6 => if S old ≤ S c then c else old
        | 7 => min old c
        | 8 => max old c
        | _ => if old = (s.task.getS o.t).toNat % 2 ^ (8 * n) then c else old
      let lat := 5 + 2 * s.bankUses (x.space == 2 || x.space == 6) a
      ∃ u, exec e.2 s = .next u ∧ s.sameButMemory u ∧ u.feEmpty = s.feEmpty
        ∧ u.task = s.goneOn ((o.m.bump s.task).writeS s.cycle o.t (BitVec.ofNat 64 old) lat) o.f.bytes
        ∧ ∀ b, memGet u.mem b = if at_ ≤ b ∧ b < at_ + n ∧ s.hiddenAt b = false then BitVec.ofNat 8 (new / 256 ^ (b - at_)) else memGet s.mem b

/-- 13:R220, R221, R223, R227, R235, 06:R105: an access to another tile's memory goes on at once: it leaves a request to that tile's agent with
what it does, its place, its order and its scope, the one written or the narrowest that contains the tile (07:R123), and a load's, an atomic's or a
full/empty read's destination awaits the answer. `join` empties its destination too and parks until the answer arrives, which fills it and completes
the instruction. The yielding forms outside a gang stay at their instruction until the answer arrives, and then complete with it, with zero and an
error mark where the path ended it (17:R271), or yield where the word was empty.
The model's choices it rests on: assumptions 4, 34, 43. -/
def Obligations.RemoteAccesses : Prop :=
  (∀ (s : State) (x : Segment) (a : Nat), 3 ≤ x.space →
    let place : Place := .tile (x.space == 6) x.target a
    let scope (sn : Bool) (n : BitVec 4) : BitVec 4 := if sn = true then n else s.farScope s.task x.target
    let sent (w : Out) (m : MemOp) (len : Nat) (op : AccOp) (dst : Option RegId) (acq rel : Bool) (n : BitVec 4) : Prop :=
      ∃ u, w = .next u ∧ s.sent u (s.withAcc place op dst acq rel n) ∧ u.task = s.goneOn ((m.bump s.task).awaits dst) len
    (∀ o : LdArgs, o.o.ord ≠ 3 →
      ∀ e ∈ [(1, false, Instr.ldD8 o), (2, false, .ldD16 o), (4, false, .ldD32 o), (8, false, .ldD64 o), (16, true, .ldD128 o)],
        s.performs o.f [if e.2.1 then .v o.t else .s o.t] (o.m.reads.map (·.1)) = true →
        s.check o.m.seg (o.m.offset s.task).toNat e.1 { rd := true } [1, 2, 3, 6] e.1 [4, 16] = .ok (x, a) →
        sent (exec e.2.2 s) o.m o.f.bytes (.load e.1 o.sx) (if e.2.1 then some (.v o.t) else if o.t = 0 then none else some (.s o.t)) (o.o.ord == 2) false (scope o.o.sn o.o.scope))
    ∧ (∀ o : StArgs, o.o.ord ≠ 3 →
      ∀ e ∈ [(1, false, Instr.stD8 o), (2, false, .stD16 o), (4, false, .stD32 o), (8, false, .stD64 o), (16, true, .stD128 o)],
        s.performs o.f [] ((o.m.reads.map (·.1)) ++ [if e.2.1 then .v o.t else .s o.t]) = true →
        s.check o.m.seg (o.m.offset s.task).toNat e.1 { wr := true } [1, 2, 3, 6] e.1 [4, 16] = .ok (x, a) →
        sent (exec e.2.2 s) o.m o.f.bytes (.store e.1 ((if e.2.1 then (s.task.getV o.t).toNat else (s.task.getS o.t).toNat) % 2 ^ (8 * e.1))) none
          false (o.o.ord == 1) (scope o.o.sn o.o.scope))
    ∧ (∀ o : StArgs, s.performs o.f [] ((o.m.reads.map (·.1)) ++ [.s o.t]) = true →
      s.check o.m.seg ((o.m.offset s.task).toNat / 2) 1 { wr := true } [1, 2, 3, 6] 1 [] = .ok (x, a) →
      sent (exec (.stD4 o) s) o.m o.f.bytes (.nibble ((o.m.offset s.task).toNat % 2 == 1) ((s.task.getS o.t).toNat % 16)) none false (o.o.ord == 1)
        (scope o.o.sn o.o.scope))
    ∧ (∀ o : AmoArgs, o.o.ord ≠ 3 → o.queue = 0 → x.space ≠ 4 → ∀ e ∈ [(32, Instr.amoD32 o), (64, .amoD64 o)],
      s.performs o.f [.s o.t] ((o.m.reads.map (·.1)) ++ [.s o.c] ++ if o.op = 9 then [.s o.t] else []) = true →
      s.check o.m.seg (o.m.offset s.task).toNat (e.1 / 8) { at_ := true } [1, 2, 3, 4, 6] (e.1 / 8) [4] = .ok (x, a) →
      sent (exec e.2 s) o.m o.f.bytes (.amo e.1 o.op.toNat ((s.task.getS o.c).toNat % 2 ^ e.1) ((s.task.getS o.t).toNat % 2 ^ e.1))
        (if o.t = 0 then none else some (.s o.t)) (o.o.ord == 2) (o.o.ord == 1) (scope o.o.sn o.o.scope))
    ∧ (∀ o : StfeArgs, s.performs o.f [] ((o.m.reads.map (·.1)) ++ [.s o.t]) = true →
      s.check o.m.seg (o.m.offset s.task).toNat 8 { wr := true } [1, 3] 8 [] = .ok (x, a) →
      sent (exec (.stfe o) s) o.m o.f.bytes (.feStore o.wfe (s.task.getS o.t).toNat) none false true (scope o.sn o.scope))
    ∧ ∀ o : FeArgs, s.performs o.f [.s o.t] (o.m.reads.map (·.1)) = true →
      s.check o.m.seg (o.m.offset s.task).toNat 8 { rd := true } [1, 3] 8 [] = .ok (x, a) →
      let t := s.task
      let dst := if o.t = 0 then none else some (.s o.t)
      let asks (w : Out) (op : AccOp) (n : BitVec 4) : Prop := ∃ u, w = .next u
        ∧ s.sent u (s.withAcc place op dst true false n (waits := true)) ∧ u.task = { t with run := .parked 2 (.response s.tagCtr) }
      let ends (w : Out) (r : Acc) : Prop :=
        (∀ v, r.st = .answered v → if v < 2 ^ 64 then
            w = .next (State.after (s.dropAcc r.tag) ((o.m.bump t).writeS s.cycle o.t (BitVec.ofNat 64 v) 1) o.f.bytes)
          else w = .next ((s.dropAcc r.tag).yieldNow t))
        ∧ ∀ b, r.st = .failed b → w = .next (State.after (s.dropAcc r.tag)
            (((o.m.bump (State.noteErr t (State.accErrAddr r) (State.placeSub r))).writeS s.cycle o.t 0 1).setErr (.s o.t)) o.f.bytes)
      let plain : Prop := t.gang ≠ none ∨ o.y = false
      let joining (take : Bool) : Option Acc := s.waitedFor t.gtid (.feRead take) x.target a
      let wide : BitVec 4 := if o.sn = true then o.scope else 5
      let takes (i : Instr) (take : Bool) (n : BitVec 4) : Prop := joining take = none →
        (s.waitedFor t.gtid (.feProbe take) x.target a = none → asks (exec i s) (.feProbe take) n)
        ∧ ∀ r, s.waitedFor t.gtid (.feProbe take) x.target a = some r → ends (exec i s) r
      (plain → (joining false = none → sent (exec (.ldfe o) s) o.m o.f.bytes (.feRead false) dst true false (scope o.sn o.scope))
        ∧ (joining true = none → sent (exec (.ldfeTake o) s) o.m o.f.bytes (.feRead true) dst true false (scope o.sn o.scope))
        ∧ (joining false = none → ∃ u, exec (.join o) s = .next u
          ∧ s.sent u (s.withAcc place (.feRead false) dst true false wide (waits := true)
              (carry := o.f.bytes :: if o.m.pinc = true then [o.m.ptr.toNat, o.m.disp.val.toNat] else []))
          ∧ u.task = { t.markEmpty (.s o.t) with run := .parked 2 (.response s.tagCtr) }))
      ∧ (∀ r, joining false = some r → ∃ u, exec (.join o) s = .next u ∧ s.sameBut u ∧ u.task = { t with run := .parked 2 (.response r.tag) })
      ∧ (¬ plain → takes (.ldfe o) false (scope o.sn o.scope) ∧ takes (.ldfeTake o) true (scope o.sn o.scope) ∧ takes (.join o) false wide))
  ∧ ∀ (s : State) (r : Acc) (k len v vt a : Nat), s.net.sfu = [] → s.accOf? r.tag = some r → r.waits = true → r.op = .feRead false →
    r.place = .tile false vt a → r.dead = false → r.st = .performed v → r.issued + 24 + r.extra ≤ s.cycle → s.keyOf? r.owner = some k →
    let t := s.taskAt k
    t.run = .parked 2 (.response r.tag) → t.stopped = false → t.stepping = false →
    ∀ bump : Option (Reg × Word), r.carry = len :: (match bump with | some (p, d) => [p.toNat, d.toNat] | none => []) →
      ∃ u, exec (.registerDelivery r.tag .arrive) s = .next u
        ∧ let w := match bump with
            | some (p, d) => t.putS p (t.getS p + d)
            | none => t
          u.taskAt k = { (match r.dst with
              | some d => w.deliver d (BitVec.ofNat 128 v) false
              | none => w) with
            run := .resident, holdUntil := max t.holdUntil (s.cycle + 1), pc := t.pc + BitVec.ofNat 64 len, fpend := false, fmtword := 0
            skipBreak := false }

/-- 13:R225, R227, 06:R100, R106, R107, R110, 07:R123: an access to external memory is translated; a miss starts a walk and leaves the instruction to issue
again; else it takes an entry of its queue, with its pieces and its ordering on pages of an ordered kind, and goes on, its destination
awaiting the answer; a translation that the die's TLB gives adds 24 cycles (19:R297), and the lease bounds the access (19:R299). While the
trust domain's barrier runs, without a free entry in the queue's share, and as a release behind accesses not yet performed, it waits; with order `sc` it is announced (07:R127).
The model's choices it rests on: assumptions 4, 116. -/
def Obligations.QueuedAccesses : Prop :=
  ∀ (s : State) (x : Segment) (a : Nat),
    let queued (w : Out) (o : Order) (m : MemOp) (len n q acc : Nat) (op : AccOp) (dst : Option RegId) : Prop :=
      (∀ va, s.extPieces s.task x.space a n acc = .miss va → ∃ u, w = .next u ∧ u = { s with mmu := { s.mmu with walks := u.mmu.walks } }
        ∧ ∃ k ∈ u.mmu.walks, k.gtid = s.task.gtid ∧ k.va / 4096 = va / 4096 ∧ k.acc = acc)
      ∧ ∀ ps, s.extPieces s.task x.space a n acc = .pieces ps →
        let caches (u : State) : State := { s with mmu := { s.mmu with tlb1 := u.mmu.tlb1, atc := u.mmu.atc } }
        let marked := ps.any orderedPiece
        let waits (row : Nat) (k : Wake) : Prop := ∃ u, w = .next u ∧ State.sameBut (caches u) u ∧ u.task = { s.task with run := .parked row k }
        if s.domainHolds s.task.part ps = true then waits 10 .domain
        else if s.queueRoom s.task.part (coreOf s.cur) q = false then waits 10 (.queueShare q)
        else if o.ord = 3 then
          if s.unperformed s.task.gtid = true ∨ s.acqPending s.task.gtid = true then waits 9 (.performed false)
          else ∃ u, w = .next u ∧ State.sent (caches u) u (s.announced (.ext x.space q a ps) op dst len m false)
            ∧ u.task = { s.task with run := .parked 9 (.sc s.tagCtr) }
        else if o.ord = 1 ∧ marked = true ∧ s.unperformed s.task.gtid = true then waits 9 (.performed false)
        else (x.space = 4 → s.watchHits s.task.part 2 0 a n (State.accMask op) s.task.gtid = []) →
          ∃ u, w = .next u ∧ State.sent (caches u) u (s.withAcc (.ext x.space q a ps) op dst (o.ord == 2 && marked) (o.ord == 1 && marked)
              (if o.sn = true then o.scope else if x.space = 5 then 6 else 5)
              (lease := if x.space = 4 then s.leaseOf s.task.part (coreOf s.cur) a n acc else none)
              (extra := if x.space = 4 then s.tlbDelay s.task.part (coreOf s.cur) a n acc else 0))
            ∧ u.task = s.goneOn ((m.bump s.task).awaits dst) len
    (∀ o : QArgs,
      let isV := o.size == 4
      let n := 2 ^ o.size.toNat
      let r : RegId := if isV then .v o.t else .s o.t
      (s.performs o.f [r] (o.m.reads.map (·.1)) = true →
        s.check o.m.seg (o.m.offset s.task).toNat n { rd := true } (if o.o.ord = 3 then [4] else [4, 5]) 1 [] = .ok (x, a) →
        queued (exec (.qld o) s) o.o o.m o.f.bytes n o.queue.toNat 1 (.load n false) (if isV then some r else if o.t = 0 then none else some r))
      ∧ (s.performs o.f [] ((o.m.reads.map (·.1)) ++ [r]) = true →
        s.check o.m.seg (o.m.offset s.task).toNat n { wr := true } (if o.o.ord = 3 then [4] else [4, 5]) 1 [] = .ok (x, a) →
        queued (exec (.qst o) s) o.o o.m o.f.bytes n o.queue.toNat 2
          (.store n ((if isV then (s.task.getV o.t).toNat else (s.task.getS o.t).toNat) % 2 ^ (8 * n))) none))
    ∧ ∀ o : AmoArgs, x.space = 4 → ∀ e ∈ [(32, Instr.amoD32 o), (64, .amoD64 o)],
      s.performs o.f [.s o.t] ((o.m.reads.map (·.1)) ++ [.s o.c] ++ if o.op = 9 then [.s o.t] else []) = true →
      s.check o.m.seg (o.m.offset s.task).toNat (e.1 / 8) { at_ := true } [1, 2, 3, 4, 6] (e.1 / 8) [4] = .ok (x, a) →
      queued (exec e.2 s) o.o o.m o.f.bytes (e.1 / 8) o.queue.toNat 4
        (.amo e.1 o.op.toNat ((s.task.getS o.c).toNat % 2 ^ e.1) ((s.task.getS o.t).toNat % 2 ^ e.1)) (if o.t = 0 then none else some (.s o.t))

/-- 07:R127, R128: a load, a store or an atomic of order `sc` waits until all of the task's earlier accesses are performed, then announces itself and parks; the
operation of the oldest window takes effect once its announcement has been everywhere for its time, and its instruction completes then; one to
another tile's memory leaves its answer on that path.
The model's choices it rests on: assumption 4. -/
def Obligations.SequentialOperations : Prop :=
  (∀ (s : State) (x : Segment) (a : Nat),
    let announced (w : Out) (m : MemOp) (len : Nat) (op : AccOp) (dst : Option RegId) : Prop :=
      if s.unperformed s.task.gtid = true ∨ s.acqPending s.task.gtid = true then
        ∃ u, w = .next u ∧ s.sameBut u ∧ u.task = { s.task with run := .parked 9 (.performed false) }
      else ∃ u, w = .next u
        ∧ s.sent u (s.announced (.tile (x.space == 2 || x.space == 6) (s.tileOfSeg x) a) op dst len m (decide (2 < x.space)))
        ∧ u.task = { s.task with run := .parked 9 (.sc s.tagCtr) }
    let reg (r : Reg) : Option RegId := if r = 0 then none else some (.s r)
    (∀ o : LdArgs, o.o.ord = 3 →
      ∀ e ∈ [(1, false, Instr.ldD8 o), (2, false, .ldD16 o), (4, false, .ldD32 o), (8, false, .ldD64 o), (16, true, .ldD128 o)],
      s.performs o.f [if e.2.1 then .v o.t else .s o.t] (o.m.reads.map (·.1)) = true →
      s.check o.m.seg (o.m.offset s.task).toNat e.1 { rd := true } [1, 2, 3, 6] e.1 [4, 16] = .ok (x, a) →
      announced (exec e.2.2 s) o.m o.f.bytes (.load e.1 o.sx) (if e.2.1 then some (.v o.t) else reg o.t))
    ∧ (∀ o : StArgs, o.o.ord = 3 →
      ∀ e ∈ [(1, false, Instr.stD8 o), (2, false, .stD16 o), (4, false, .stD32 o), (8, false, .stD64 o), (16, true, .stD128 o)],
      s.performs o.f [] ((o.m.reads.map (·.1)) ++ [if e.2.1 then .v o.t else .s o.t]) = true →
      s.check o.m.seg (o.m.offset s.task).toNat e.1 { wr := true } [1, 2, 3, 6] e.1 [4, 16] = .ok (x, a) →
      announced (exec e.2.2 s) o.m o.f.bytes
        (.store e.1 ((if e.2.1 then (s.task.getV o.t).toNat else (s.task.getS o.t).toNat) % 2 ^ (8 * e.1))) none)
    ∧ ∀ o : AmoArgs, o.o.ord = 3 → o.queue = 0 → x.space ≠ 4 → ∀ e ∈ [(32, Instr.amoD32 o), (64, .amoD64 o)],
      s.performs o.f [.s o.t] ((o.m.reads.map (·.1)) ++ [.s o.c] ++ if o.op = 9 then [.s o.t] else []) = true →
      s.check o.m.seg (o.m.offset s.task).toNat (e.1 / 8) { at_ := true } [1, 2, 3, 4, 6] (e.1 / 8) [4] = .ok (x, a) →
      announced (exec e.2 s) o.m o.f.bytes (.amo e.1 o.op.toNat ((s.task.getS o.c).toNat % 2 ^ e.1) ((s.task.getS o.t).toNat % 2 ^ e.1)) (reg o.t))
  ∧ ∀ (s : State) (o : ScOp) (vt a n d : Nat) (acc : Bool), s.net.scOps = [o] → o.place = .tile acc vt a → o.op = .store n d → o.dst = none →
    let t := s.taskAt o.key
    t.gtid = o.owner → t.part = o.part → t.stepping = false → t.stopped = false → t.run = .parked 9 (.sc o.tag) → (o.far = true → s.tileAway o.part vt o.owner = false) →
    s.watchHits o.part (ofBool acc) vt a n 2 o.owner = [] →
    if s.cycle < 32 * (o.cycle / 32) + 128 then exec .scTakeEffect s = .next s
    else ∃ u, exec .scTakeEffect s = .next u
      ∧ (if o.far = true then ∃ r v, u.net = { s.net with scOps := [], accs := s.net.accs ++ [r] } ∧ r.owner = o.owner ∧ r.place = o.place
          ∧ r.op = o.op ∧ r.dst = none ∧ r.st = .performed v
        else u.net = { s.net with scOps := [] })
      ∧ u.mem = (s.coreStore (State.tileAddr o.part acc vt a) n d).mem
      ∧ u.taskAt o.key = { (match o.pinc with
          | some (r, y) => t.putS r (t.getS r + y)
          | none => t) with
          run := .resident, holdUntil := max t.holdUntil (s.cycle + 1), pc := t.pc + BitVec.ofNat 64 o.len, fpend := false, fmtword := 0
          skipBreak := false }

/-- 13:R234, 02:R17, R18, R21, R24, R26: `fork` reads its descriptor, counts the child in its join counter, empties the counter's word, and pushes at the
bottom of the core's deque a task that starts at the entry with the four arguments, the parent's segments, binding, launch and step (a
scheduler's children are in no step, 02:R43), a domain no wider than the parent's, and the die's next identifier, which the parent receives.
With a counter in another tile it sends the count there as a release and parks until the home has counted; then it pushes the child that
its descriptor named when it was checked.
The model's choices it rests on: assumptions 43, 78. -/
def Obligations.ForkedTasks : Prop :=
  ∀ (s : State) (f : Form) (m : MemOp) (d : Reg) (y x : Segment) (a c : Nat) (code : Capsule), s.memOk → s.performs f [.s d] (m.reads.map (·.1)) = true →
    s.check m.seg (m.offset s.task).toNat 48 { rd := true } [1] 16 [] = .ok (y, a) →
    s.codeOf? s.task = some code → s.dequeRoom s.task.part (coreOf s.cur) = true →
    let t := s.task
    let base := s.tileMem y a
    let born (w : Nat → Nat) (at_ : Nat) (u : State) : Prop := ∃ child, exec (.fork f m d) s = .next u
      ∧ u.deque t.part (coreOf s.cur) = child :: s.deque t.part (coreOf s.cur)
      ∧ u.task = s.goneOn ((m.bump t).writeS s.cycle d child.gtid 1) f.bytes
      ∧ child.gtid = BitVec.ofNat 64 ((s.cald.serials.toList[dieOf (coreOf s.cur)]?.getD 0) % 2 ^ 42 + dieOf (coreOf s.cur) % 8 * 2 ^ 42 + s.pkgNo.toNat * 2 ^ 45)
      ∧ child.pc = BitVec.ofNat 64 (w 0 % 2 ^ 32) ∧ child.g = t.g ∧ child.part = t.part ∧ child.capid = code.capid ∧ child.tile = t.tile ∧ child.launch = t.launch
      ∧ child.step = (if t.sched = true then none else t.step) ∧ child.gang = none ∧ child.join = some at_ ∧ child.run = .resident
      ∧ child.domain = BitVec.ofNat 2 (min (w 0 / 2 ^ 32 % 4) t.domain.toNat)
      ∧ (∀ i, i < 4 → child.getS (BitVec.ofNat 5 (i + 1)) = BitVec.ofNat 64 (w (2 + i)))
    let w (i : Nat) : Nat := leNat (memRead s.mem (base + 8 * i) 8)
    (s.forkWaits t.gtid base = none → s.localWaits t false a 48 = false → w 0 < 2 ^ 37 → code.lands (BitVec.ofNat 64 (w 0 % 2 ^ 32)) = true →
      s.check (BitVec.ofNat 3 (w 0 / 2 ^ 34)) (w 1) 8 { rd := true, wr := true } [1, 3] 8 [] = .ok (x, c) →
      if x.space = 3 then ∃ u, exec (.fork f m d) s = .next u ∧ u.task = { t with run := .parked 9 (.response s.tagCtr) }
        ∧ s.sent u (s.withAcc (.tile false x.target c) .count (if d = 0 then none else some (.s d)) false true 5 (waits := true)
            (carry := base :: (List.range 6).map w))
      else s.releaseWaits t.gtid = false → s.watchHits t.part 0 s.here a 48 1 t.gtid = [] →
        s.watchHits t.part 0 s.here c 8 (State.accMask .count) t.gtid = [] →
        let at_ := s.tileMem x c
        let count := (leNat (memRead s.mem at_ 8) + 1) % 2 ^ 64
        ∃ u, born w at_ u ∧ (∀ b, u.feFull b = (s.feFull b && b != at_))
          ∧ ∀ b, memGet u.mem b = if at_ ≤ b ∧ b < at_ + 8 ∧ s.hiddenAt b = false then BitVec.ofNat 8 (count / 256 ^ (b - at_)) else memGet s.mem b)
    ∧ ∀ r vt v, s.forkWaits t.gtid base = some r → r.st = .answered v → r.place = .tile false vt c → r.carry.length = 7 →
      (∀ w b n k, s.watchHits t.part 0 w b n k t.gtid = []) → ∃ u, born (fun i => r.carry[i + 1]?.getD 0) (State.tileAddr r.part false vt c) u ∧ u.mem = s.mem ∧ u.feEmpty = s.feEmpty

/-- 13:R230, R224, 02:R42: `waddr` completes with the word it names, in a tile, in memory it translates, or of the host, when it holds what
the condition says of sT (unequal, equal, or not less as a signed difference), with a latency of 5 and what the accesses before it cost at a
tile's bank (06:R103); otherwise it parks at row 5 on the word it has seen, or
yields by its `y` form. A translation that misses starts a walk and leaves it to issue again, and the trust domain's barrier holds it.
The model's choices it rests on: assumptions 44, 116. -/
def Obligations.WatchedWords : Prop :=
  ∀ (s : State) (o : WaddrArgs) (x : Segment) (a : Nat), s.performs o.f [.s o.t] ((o.m.reads.map (·.1)) ++ [.s o.t]) = true →
    let t := s.task
    let n := if o.d64 then 8 else 4
    s.check o.m.seg (o.m.offset t).toNat n { rd := true } [1, 3, 4, 5] n [] = .ok (x, a) →
    (∀ va, s.watchPieces t x a n = .miss va → ∃ u, exec (.waddr o) s = .next u ∧ u = { s with mmu := { s.mmu with walks := u.mmu.walks } }
      ∧ ∃ k ∈ u.mmu.walks, k.gtid = t.gtid ∧ k.va / 4096 = va / 4096 ∧ k.acc = 1)
    ∧ ∀ ps, s.watchPieces t x a n = .pieces ps → (4 ≤ x.space → State.unbacked? ps = none) → s.watchWaits t x a n ps = false →
      if 4 ≤ x.space ∧ s.domainHolds t.part ps = true then
        ∃ u, exec (.waddr o) s = .next u ∧ s.sameBut u ∧ u.task = { t with run := .parked 10 .domain }
      else (4 ≤ x.space → s.readRefused t.part a ps = none) →
        let v := leNat (s.takeBytes ps).1
        let c := (t.getS o.t).toNat % 2 ^ (8 * n)
        let holds : Prop := match o.cond.toNat with
          | 0 => v ≠ c
          | 1 => v = c
          | _ => 0 ≤ (BitVec.ofNat (8 * n) v - BitVec.ofNat (8 * n) c).toInt
        let bank : Nat × State := if x.space ≤ 3 then (s.takeBytes ps).2.tileBank t.part (s.tileOfSeg x) false a else (0, (s.takeBytes ps).2)
        (x.space = 1 ∨ x.space = 3 → v = leNat (memRead s.mem (s.tileMem x a) n))
        ∧ (holds → (∀ m w b k l, s.watchHits t.part m w b k l t.gtid = []) → ∃ u, exec (.waddr o) s = .next u ∧ State.sameBut { s with freeCtr := u.freeCtr } u
          ∧ u.task = s.goneOn ((o.m.bump t).writeS s.cycle o.t (BitVec.ofNat 64 v) (5 + bank.1)) o.f.bytes)
        ∧ (¬ holds → o.y = false ∨ t.gang ≠ none → ∃ u, exec (.waddr o) s = .next u ∧ State.sameBut { s with freeCtr := u.freeCtr } u
          ∧ u.task = { t with run := .parked 5 (.watch ((ps.head?.map (·.addr)).getD 0) n v o.cond c) })
        ∧ (¬ holds → o.y = true → t.gang = none → exec (.waddr o) s = .next (bank.2.yieldNow t))

/-! ### Fences, yields and barriers -/

/-- 07:R124, 13:R226, R228: an acquire fence waits for the task's loads, any other fence for all its accesses, `qwait` for the task's requests in the
queue it names; with nothing to wait for each only goes on. 13:R236, 02:R24, R32, R35, R38: `tend` waits parked for the task's outstanding work, then frees its slot and takes 1 from its join counter, filling the
word at zero, by a request to its tile's agent where the counter lies in another tile (06:R109), or leaves that held while a store of its own has not been performed (07:R119); `yield` moves the task, with its tokens owed to it (05:R98), behind the deque's others; a gang's member, and a task with no room, stays, as after `hint.yield`, which
under greedy-then-oldest gives the slot's turn away.
The model's choices it rests on: assumption 19. -/
def Obligations.FencesWaitsAndYields : Prop :=
  (∀ (s : State) (f : Form), s.performs f [] [] = true →
      let waits (o : Out) (w : Wake) : Prop := ∃ u, o = .next u ∧ s.sameBut u ∧ u.task = { s.task with run := .parked 9 w }
      let mine (a : Acc) : Bool := a.owner == s.task.gtid
      (∀ o : Order, o.ord = 2 → if ∃ a ∈ s.net.accs, mine a = true ∧ a.pending = true ∧ a.op.reads = true then waits (exec (.fence f o) s) (.performed true)
        else exec (.fence f o) s = .next (s.after s.task f.bytes))
      ∧ (∀ o : Order, o.ord ≠ 2 → if (∃ a ∈ s.net.accs, mine a = true ∧ a.pending = true) ∨ ∃ h ∈ s.net.helds, h.owner = s.task.gtid then
          waits (exec (.fence f o) s) (.performed false)
        else exec (.fence f o) s = .next (s.after s.task f.bytes))
      ∧ ∀ q : BitVec 5, if ∃ a ∈ s.net.accs, mine a = true ∧ a.queue? = some q.toNat then waits (exec (.qwait f q) s) (.queueIdle q.toNat)
        else exec (.qwait f q) s = .next (s.after s.task f.bytes))
  ∧ (∀ (s : State) (f : Form), s.performs f [] [] = true →
      let t := s.task
      let hinted (o : Out) : Prop := ∃ u, o = .next u ∧ u.task = s.goneOn t f.bytes ∧ u = { s.after t f.bytes with counters := u.counters }
        ∧ (s.counts t.part (coreOf s.cur) = u.counts t.part (coreOf s.cur) ∨ (u.counts t.part (coreOf s.cur)).hint = some s.cycle)
        ∧ ((s.partOf? t.part).map (·.pol) ≠ some true → (u.counts t.part (coreOf s.cur)).hint = some s.cycle)
      (if s.outstanding t.gtid = true then ∃ u, exec (.tend f) s = .next u ∧ s.sameBut u ∧ u.task = { t with run := .parked 7 .drained }
        else s.memOk → ∃ u, exec (.tend f) s = .next u ∧ mapGet u.slots s.cur = none
          ∧ if s.unperformed t.gtid = true then u.mem = s.mem ∧ ∀ a, t.join = some a → ∃ h ∈ u.net.helds, h.owner = t.gtid ∧ h.op = .uncount a
          else match t.join with
            | none => u.mem = s.mem ∧ u.feEmpty = s.feEmpty
            | some a => let n := (leNat (memRead s.mem a 8) + (2 ^ 64 - 1)) % 2 ^ 64
              let vt := (State.placeOf a).2.1
              (s.vtileOf? t.part (coreOf s.cur) = some vt → (∀ d, mapGet (s.vtile t.part vt).saved d = none) → leNat (memRead u.mem a 8) = n
                ∧ (∀ b, b < a ∨ a + 8 ≤ b → memGet u.mem b = memGet s.mem b) ∧ ∀ b, u.feFull b = (s.feFull b || (n == 0 && b == a)))
              ∧ (s.vtileOf? t.part (coreOf s.cur) ≠ some vt → u.mem = s.mem ∧ u.feEmpty = s.feEmpty ∧ ∃ x ∈ u.net.accs, x.owner = t.gtid
                ∧ x.op = .uncount ∧ x.place = .tile false vt (State.placeOf a).2.2.1))
      ∧ hinted (exec (.hintYield f) s)
      ∧ if t.gang = none ∧ s.dequeRoom t.part (coreOf s.cur) = true then
          ∃ u w, exec (.yield f) s = .next u ∧ mapGet u.slots s.cur = none ∧ u.deque t.part (coreOf s.cur) = s.deque t.part (coreOf s.cur) ++ [w]
            ∧ w = { t with pc := t.pc + BitVec.ofNat 64 f.bytes, yieldedAt := some s.cycle, lastIssue := none, holdUntil := 0, waitCount := 0, lats := []
                           owed := t.owed || t.tokens.toList.any fun n => decide (0 < n) }
        else hinted (exec (.yield f) s))

/-- 02:R33, 13:R236, 07:R141: a member of a gang whose accesses are performed arrives at the barrier; the last one completes it and goes on, the
others wait parked at row 6 and go on once it has completed; an arrival behind an access not performed is held (07:R119); outside a gang `gbar` raises NOT_IN_GANG. -/
def Obligations.GangBarrier : Prop :=
  ∀ (s : State) (f : Form), s.performs f [] [] = true →
    let t := s.task
    (t.gang = none → exec (.gbar f) s = .next (s.trapC cNOT_IN_GANG))
    ∧ ∀ id g, t.gang = some id → mapGet s.cald.gangs id = some g →
      (t.atBarrier = true → if t.barriers ≤ g.completed then exec (.gbar f) s = .next (s.after { t with atBarrier := false } f.bytes)
        else ∃ u, exec (.gbar f) s = .next u ∧ s.sameBut u ∧ u.task = { t with run := .parked 6 (.barrier t.barriers) })
      ∧ (t.atBarrier = false → s.unperformed t.gtid = true → g.completed = t.barriers → ∃ u h, exec (.gbar f) s = .next u
        ∧ s.sent u { s.net with helds := s.net.helds ++ [h] } ∧ h.owner = t.gtid ∧ h.op = .arrive id t.grank
        ∧ u.task = { t with barriers := t.barriers + 1, atBarrier := true, run := .parked 6 (.barrier (t.barriers + 1)) })
      ∧ (t.atBarrier = false → s.unperformed t.gtid = false → g.completed = t.barriers →
        if ∀ r ∈ g.live, r = t.grank ∨ r ∈ g.arrived then
          ∃ u, exec (.gbar f) s = .next u ∧ u.task = s.goneOn { t with barriers := t.barriers + 1, atBarrier := false } f.bytes
            ∧ (mapGet u.cald.gangs id).map (fun x => (x.completed, x.arrived)) = some (t.barriers + 1, [])
        else ∃ u, exec (.gbar f) s = .next u ∧ u.task = { t with barriers := t.barriers + 1, atBarrier := true, run := .parked 6 (.barrier (t.barriers + 1)) }
            ∧ ∃ x, mapGet u.cald.gangs id = some x ∧ x.completed = g.completed ∧ ∀ r, r ∈ x.arrived ↔ r = t.grank ∨ r ∈ g.arrived)

/-! ### Messages, semaphores, tokens and commands -/

/-- 13:R231 to R233, 03:R53: `send` to a rank of the gang puts a message for that member into the network, or is refused with MSG_TARGET; `recv` takes the
register's message and empties it, `recv.keep` leaves it, `mwait` only waits for one, and each parks at row 3 on an empty register. A
message that arrives for an empty register, with none of its source core and channel waiting before it on its core, fills the register and wakes a task that waits for it.
The model's choices it rests on: assumptions 4, 51, 113. -/
def Obligations.GangMessages : Prop :=
  (∀ (s : State) (f : Form) (a b : Reg) (ea eb : Bool), s.performs f [] [.v a, .s b] = true →
    let t := s.task
    let w := t.getS b
    if w.toNat / 2 ^ 14 % 2 ^ 6 ≠ 0 ∨ w.toNat / 2 ^ 24 ≠ 0 ∨ t.gang = none ∨ t.gsize ≤ w.toNat % 2 ^ 14 then exec (.send f a ea b eb) s = .next (s.trapC cMSG_TARGET)
    else ∀ g dst, (t.gang.bind fun id => mapGet s.cald.gangs id) = some g → g.members[w.toNat % 2 ^ 14]? = some dst →
      s.sendRoom (coreOf s.cur) (w.toNat / 2 ^ 23 % 2) = true → s.releaseWaits t.gtid = false →
      ∃ u m, exec (.send f a ea b eb) s = .next u ∧ s.sent u { s.net with msgs := s.net.msgs ++ [m] } ∧ u.task = s.goneOn t f.bytes
        ∧ m.tag = s.tagCtr ∧ m.src = t.gtid ∧ m.srcRank = t.grank ∧ m.dst = dst ∧ m.dstRank = w.toNat % 2 ^ 14 ∧ m.ch = w.toNat / 2 ^ 23 % 2
        ∧ m.mreg = BitVec.ofNat 3 (w.toNat / 2 ^ 20) ∧ m.data = t.getV a)
  ∧ (∀ (s : State) (f : Form) (d : Reg) (a : BitVec 3) (ea : Bool),
    let t := s.task
    let waits (o : Out) : Prop := ∃ u, o = .next u ∧ s.sameBut u ∧ u.task = { t with run := .parked 3 (.full (.m a)) }
    (s.performs f [.v d] [.m a] = true →
      (let u := s.after ((t.writeV s.cycle d (t.getM a) 1).setFull (.m a) false) f.bytes
       exec (.recv f d a ea) s = .next (u.drainInbox (coreOf s.cur) (s.inboxOf (coreOf s.cur)).length)
        ∧ (s.inboxOf (coreOf s.cur) = [] → exec (.recv f d a ea) s = .next u))
      ∧ exec (.recvKeep f d a ea) s = .next (s.after (t.writeV s.cycle d (t.getM a) 1) f.bytes))
    ∧ (s.performs f [] [.m a] = true → exec (.mwait f a ea) s = .next (s.after t f.bytes))
    ∧ (ea = false → t.full (.m a) = false → s.performs f [.v d] [] = true →
      waits (exec (.recv f d a ea) s) ∧ waits (exec (.recvKeep f d a ea) s) ∧ waits (exec (.mwait f a ea) s)))
  ∧ ∀ (s : State) (m : Msg) (l : List Msg) (k : Nat), s.net.msgs = m :: l → s.keyOf? m.dst = some k → (∀ x ∈ l, x.tag ≠ m.tag) → m.mute = false →
    let t := s.taskAt k
    t.stopped = false →
    t.full (.m m.mreg) = false → (∀ x ∈ s.inboxOf (coreOf k), ¬ (x.2.tag < m.tag ∧ x.2.srcCore = m.srcCore ∧ x.2.ch = m.ch)) →
    ∃ u, exec (.messageArrival m.tag) s = .next u ∧ u.net = { s.net with msgs := l } ∧ (u.taskAt k).getM m.mreg = m.data ∧ (u.taskAt k).full (.m m.mreg) = true
      ∧ (u.taskAt k).run = (if t.run = .parked 3 (.full (.m m.mreg)) then .resident else (u.taskAt k).run) ∧ ∀ j, j ≠ k → u.taskAt j = s.taskAt j

/-- 14:R242, R243, R252, 05:R97, R98: `sem.sig` adds 1 and raises SEM_OVERFLOW at 65,535; `sem.wait` takes 1 in its turn, and otherwise joins the waiters and
parks at row 8; `pwr.acq` draws its tokens from the cluster's pool in its turn and adds them to what the task holds, and `pwr.rel` gives
them back, but for those that operations in progress still need; more than the pool was made with, or than the task holds, is refused.
The model's choices it rests on: assumption 45. -/
def Obligations.SemaphoresAndTokens : Prop :=
  (∀ (s : State) (f : Form) (n : BitVec 3), s.performs f [] [] = true →
    let t := s.task
    let v := s.semCount t.part s.here n.toNat
    let counted (o : Out) (c : Nat) : Prop := ∃ u, o = .next u ∧ u = { s.after t f.bytes with vtiles := u.vtiles } ∧ u.semCount t.part s.here n.toNat = c
      ∧ ∀ p vt k, (p * 1024 + vt ≠ t.part * 1024 + s.here ∨ k ≠ n.toNat) → u.semCount p vt k = s.semCount p vt k
    (if 65535 ≤ v then exec (.semSig f n) s = .next (s.trapC cSEM_OVERFLOW)
      else s.releaseWaits t.gtid = false → counted (exec (.semSig f n) s) (v + 1))
    ∧ if 0 < v ∧ s.semTurn t.part s.here n.toNat t.gtid = true then counted (exec (.semWait f n) s) (v - 1)
      else ∃ u, exec (.semWait f n) s = .next u ∧ u.task = { t with run := .parked 8 (.sem n.toNat) } ∧ u.mem = s.mem
        ∧ ∀ k, u.semCount t.part s.here k = s.semCount t.part s.here k)
  ∧ ∀ (s : State) (f : Form) (cls : BitVec 2) (n : BitVec 5) (p : Partition) (q : Pool), s.performs f [] [] = true →
    let t := s.task
    let k := State.poolKey (coreOf s.cur) cls.toNat
    let held := t.tokens.toList[cls.toNat]?.getD 0
    s.partOf? t.part = some p → mapGet p.pools k = some q →
    let drawn (o : Out) (use h : Nat) : Prop := ∃ u, o = .next u ∧ u.task = s.goneOn { t with tokens := t.tokens.setIfInBounds cls.toNat h } f.bytes
      ∧ (u.pool t.part k).inUse = use ∧ (u.pool t.part k).capacity = q.capacity ∧ u.mem = s.mem
    (if q.created < held + n.toNat then exec (.pwrAcq f cls n) s = .next (s.trapC cPOWER_EXCESS)
      else if n.toNat ≤ q.capacity - q.inUse ∧ (q.waiters = [] ∨ q.waiters.head? = some (.task t.gtid)) then
        drawn (exec (.pwrAcq f cls n) s) (q.inUse + n.toNat) (held + n.toNat)
      else ∃ u, exec (.pwrAcq f cls n) s = .next u ∧ u.task = { t with run := .parked 11 (.tokens cls.toNat n.toNat) }
        ∧ PoolWaiter.task t.gtid ∈ (u.pool t.part k).waiters ∧ (u.pool t.part k).inUse = q.inUse)
    ∧ if held < n.toNat then exec (.pwrRel f cls n) s = .next (s.trapC cPOWER_RELEASE)
      else drawn (exec (.pwrRel f cls n) s) (q.inUse - min n.toNat (held - s.covered t.gtid cls.toNat)) (held - n.toNat)

/-! ### Step queue, contexts and requests to Caldera -/

/-- 14:R254 to R256: `stepget` and `stoptest` outside a step raise STEP, an index above its limit raises STEP with detail 1; else they write, with
latency 3, the field of the step descriptor, or the bits of the live slots whose stop set has the lane's token. -/
def Obligations.StepReads : Prop :=
  (∀ (s : State) (f : Form) (d a : Reg) (ea : Bool) (sel : BitVec 3), s.performs f [.s d] (if sel = 2 ∨ sel = 3 ∨ sel = 4 then [.s a] else []) = true →
    let t := s.task
    let i := (t.getS a).toNat
    match s.stepOf t with
    | none => exec (.stepget f d sel a ea) s = .next (s.trap { cause := cSTEP })
    | some x =>
      if (sel = 2 ∧ 15 < i) ∨ ((sel = 3 ∨ sel = 4) ∧ 1023 < i) then exec (.stepget f d sel a ea) s = .next (s.trap { cause := cSTEP, detail := 1 })
      else ∃ n, exec (.stepget f d sel a ea) s = .next (s.after (t.writeS s.cycle d (BitVec.ofNat 64 n) 3) f.bytes)
        ∧ (sel = 0 → n = x.stepno) ∧ (sel = 1 → n = x.desc.length)
        ∧ (sel = 2 → rising x.desc = true → ∀ j, j < 64 → n.testBit j = (mapGet x.desc (64 * i + j)).isSome)
        ∧ (sel = 3 → n = match mapGet x.desc i with
          | some q => q.len
          | none => 0)
        ∧ (sel = 4 → n = match mapGet x.desc i with
          | some _ => x.plarea + 32768 * i
          | none => 0)
        ∧ (sel = 5 → n = x.cring) ∧ (sel = 6 → n = 2 ^ x.pglog) ∧ (sel = 7 → n = x.pgfree))
  ∧ ∀ (s : State) (o : TwoArgs), s.performs o.f [.s o.d] [.v o.a, .s o.b] = true →
    let b := (s.task.getS o.b).toNat
    match s.stepOf s.task with
    | none => exec (.stoptest o) s = .next (s.trap { cause := cSTEP })
    | some x => ∃ n, exec (.stoptest o) s = .next (s.after (s.task.writeS s.cycle o.d (BitVec.ofNat 64 n) 3) o.f.bytes) ∧ n < 16
      ∧ ∀ j, j < 4 → (n.testBit j = true ↔ b + j < 1024 ∧ ∃ q, mapGet x.desc (b + j) = some q ∧ (s.task.getV o.a).extractLsb' (32 * j) 32 ∈ q.stops)

/-- 14:R254, R257, R259, R261, 18:R282, R289, R292: the instructions that ask Caldera send their operands and park at row 12 until the reply; `halt` stops a
running task, lets a stopped one go, and knows at once that its target is itself or is not there; `rebuild` answers at once for a body that
is built, deleted, or cannot be, and otherwise joins the build with its register empty.
The model's choices it rests on: assumption 56. -/
def Obligations.CalderaRequests : Prop :=
  ∀ s : State,
    let t := s.task
    let asks (o : Out) (len : Nat) (d : Reg) (q : Ask) : Prop := ∃ u, o = .next u ∧ u.task = { t with run := .parked 12 .event }
      ∧ State.sameBut { s with cald := { s.cald with asked := s.cald.asked ++ [⟨s.cur, t.gtid, t.part, d, len, q, none, none⟩] } } u
    (∀ (o : TwoArgs) (why : BitVec 2), s.performs o.f [.s o.d] [.s o.a, .s o.b] = true →
      asks (exec (.seqret o why) s) o.f.bytes o.d (.seqret (t.getS o.b) (t.getS o.a) why))
    ∧ (∀ o : UnArgs, s.performs o.f [.s o.d] [.s o.a] = true → asks (exec (.seqadm o) s) o.f.bytes o.d (.seqadm (t.getS o.a)))
    ∧ (∀ (f : Form) (d : Reg), s.performs f [.s d] [] = true →
      if s.stepq? t.part = none then exec (.poolTake f d) s = .next (s.trap { cause := cSTEP }) else asks (exec (.poolTake f d) s) f.bytes d .poolTake)
    ∧ (∀ (f : Form) (a : Reg) (ea : Bool), s.performs f [] [.s a] = true →
      if s.stepq? t.part = none then exec (.poolGive f a ea) s = .next (s.trap { cause := cSTEP })
      else asks (exec (.poolGive f a ea) s) f.bytes 0 (.poolGive (t.getS a)))
    ∧ (t.priv ≠ .task → ∀ (f : Form) (d a : Reg) (ea : Bool) (g : BitVec 3) (x : Segment) (va : Nat),
      (s.performs f [.s d] [.s a] = true → s.check g 0 16384 { wr := true } [4] 1 [] = .ok (x, va) →
        asks (exec (.ctxsave f d a ea g) s) f.bytes d (.ctxsave (t.getS a) va))
      ∧ (s.performs f [.s d] [.s a] = true → s.check g 0 16384 { rd := true } [4] 1 [] = .ok (x, va) →
        asks (exec (.ctxrest f d a ea g) s) f.bytes d (.ctxrest (t.getS a) va))
      ∧ (s.performs f [.s d] [] = true → s.check g 0 3407872 { wr := true } [4] 1 [] = .ok (x, va) →
        asks (exec (.ctxsaveTile f d g) s) f.bytes d (.ctxsaveTile va))
      ∧ (s.performs f [.s d] [] = true → s.check g 0 3407872 { rd := true } [4] 1 [] = .ok (x, va) →
        asks (exec (.ctxrestTile f d g) s) f.bytes d (.ctxrestTile va)))
    ∧ (t.priv ≠ .task → ∀ (f : Form) (d a : Reg) (ea : Bool), s.performs f [.s d] [.s a] = true →
      let h := t.getS a
      let answers (op : BitVec 3) (r : Option Word) (v : State) : Prop := ∃ u, exec (.halt f d a ea op) s = .next u
        ∧ u.task = { t with run := .parked 12 .event } ∧ u.cald.asked = s.cald.asked ++ [⟨s.cur, t.gtid, t.part, d, f.bytes, .halt h op.toNat, r, none⟩]
        ∧ u.dbg = v.dbg ∧ ∀ k, k ≠ s.cur → u.taskAt k = v.taskAt k
      (h = t.gtid → answers 0 (some 4) s ∧ answers 1 (some 4) s ∧ answers 2 (some 4) s)
      ∧ (h ≠ t.gtid → s.running? t.part h = none → answers 0 (some 1) s ∧ answers 1 (some 1) s ∧ answers 2 (some 1) s)
      ∧ ∀ k x, h ≠ t.gtid → s.keyOf? h = some k → k ≠ s.cur → s.taskAt k = x → s.running? t.part h = some x → (∀ y ∈ s.slots, y.2.gtid = h → y.1 = k) →
        if x.stopped = true then answers 0 (some 3) s ∧ (∃ u, exec (.halt f d a ea 1) s = .next u ∧ (u.taskAt k).stopped = false ∧ (u.taskAt k).stepping = false)
          ∧ ∃ u, exec (.halt f d a ea 2) s = .next u ∧ (u.taskAt k).stopped = false ∧ (u.taskAt k).stepping = true
        else answers 1 (some 2) s ∧ answers 2 (some 2) s
          ∧ answers 0 none { s with dbg := { s.dbg with stops := s.dbg.stops ++ [(coreOf k, { gtid := h, cause := cHALT_REQ, cycle := s.cycle, base := x.nissued })] } })
    ∧ (t.priv ≠ .task → ∀ o : UnArgs, s.performs o.f [.s o.d] [.s o.a] = true →
      let gives (n : Nat) : Prop := ∃ u, exec (.rebuild o) s = .next u ∧ u.task.pc = t.pc + BitVec.ofNat 64 o.f.bytes
        ∧ (o.d ≠ 0 → u.task.getS o.d = BitVec.ofNat 64 n) ∧ u.task.full (.s o.d) = true
      match s.capsule? t.part (t.getS o.a).toNat with
      | none => gives (if ((s.partOf? t.part).bind fun p => mapGet p.deleted (t.getS o.a).toNat).isSome = true then 4 else 2)
      | some c => match c.st with
        | .unloadPending _ _ => gives 4
        | .built => gives 1
        | _ => if featverMax < c.featver then gives 3
          else ∃ u, exec (.rebuild o) s = .next u ∧ u.task = s.goneOn (t.markEmpty (.s o.d)) o.f.bytes
            ∧ (u.capsule? t.part (t.getS o.a).toNat).map (·.joiners) = some (c.joiners ++ [⟨t.gtid, o.d, s.cur, false, false⟩]))

/-- 14:R254, R257, R259 to R261, 18:R282, R287, R288, R292: a reply reaches the task that asked, with latency 1, and its instruction completes. `pool.take`
gets a page that was free, or 0; `pool.give` frees its page; `seqret` retires the live slots it names and counts the others; `seqadm` admits
none when none is pending; `ctxsave` frees the slot it saves, and `ctxrest` fills one.
The model's choices it rests on: assumptions 3, 56, 90. -/
def Obligations.CalderaReplies : Prop :=
  ∀ (s : State) (k : Nat) (a : Asked) (t : Task), s.cald.asked = [a] → a.key = k → mapGet s.slots k = some t → t.gtid = a.gtid → t.stepping = false → a.part = t.part → a.page = none →
    let done (w : Word) (v : State) : Prop := v.cald.asked = [] ∧ v.taskAt k = { ({ t with run := .resident }.writeS v.cycle a.dst w 1) with
      pc := t.pc + BitVec.ofNat 64 a.len, fpend := false, fmtword := 0, skipBreak := false }
    (∀ w, a.reply = some w → ∃ v, exec (.calderaReply k) s = .next v ∧ done w v ∧ v.mem = s.mem)
    ∧ (a.reply = none → ∀ x, s.stepq? t.part = some x →
      (a.ask = .poolTake → if x.npages ≤ x.used.length then ∃ v, exec (.calderaReply k) s = .next v ∧ done 0 v
        else ∃ v n, exec (.calderaReply k) s = .next v ∧ done (BitVec.ofNat 64 (x.pool + n * 2 ^ x.pglog)) v
          ∧ v.stepq? t.part = some { x with used := insNat x.used n }
          ∧ (x.used.Pairwise (· < ·) → (∀ u ∈ x.used, u < x.npages) → n ∉ x.used ∧ n < x.npages))
      ∧ (∀ pa n, a.ask = .poolGive pa → s.unperformed t.gtid = false → x.pageOf pa.toNat = some n → n ∈ x.used →
        ∃ v, exec (.calderaReply k) s = .next v ∧ done 0 v ∧ v.stepq? t.part = some { x with used := x.used.filter (· != n) })
      ∧ (∀ mask base why, a.ask = .seqret mask base why → s.unperformed t.gtid = false → t.step.isSome = true →
        let named := ((List.range 64).filter fun j => mask.getLsbD j).map (base.toNat + ·) |>.filter (· < 1024)
        let live := named.filter fun i => (mapGet x.desc i).isSome && !x.retired.contains i
        live.length ≤ s.ringRoom t.part x.cring →
        ∃ v y, exec (.calderaReply k) s = .next v
          ∧ done (BitVec.ofNat 64 (live.length + (named.length - live.length) * 2 ^ 16 + (if live.length < named.length then 1 else 0) * 2 ^ 32)) v
          ∧ v.stepq? t.part = some y ∧ y.desc = x.desc ∧ ∀ i, i ∈ y.retired ↔ i ∈ x.retired ∨ i ∈ live)
      ∧ ∀ n, a.ask = .seqadm n → t.sched = true → s.ringHead t.part x.adm 64 = none → ∃ v, exec (.calderaReply k) s = .next v ∧ done 0 v)
    ∧ (a.reply = none → ∀ slot va j x, a.ask = .ctxsave slot va → s.namedSlot a slot = some j → mapGet s.slots j = some x → x.gang = none →
      ∀ w n, s.saveSlot j va false false = .saved w n → ∃ v, exec (.calderaReply k) s = .next v ∧ mapGet v.slots j = none
        ∧ (v.taskAt k).getS a.dst = (if a.dst = 0 then 0 else BitVec.ofNat 64 (n % 2 ^ 32 * 2 ^ 32)) ∧ (v.taskAt k).run = .resident)
    ∧ (a.reply = none → ∀ slot va j b x y r, a.ask = .ctxrest slot va → s.namedSlot a slot = some j → mapGet s.slots j = none → s.kernelIn j = false → s.stealTo j = false →
      (s.partOf? t.part).map (fun p => State.losing p (coreOf j)) = some false → s.portSlotImage t.part (coreOf k) va = .ok (b, r) → r.restoreCheck t.part j b = .go x y →
      (∀ q ∈ s.net.accs, q.owner = y.gtid → q.joins = false) →
      ∃ v, exec (.calderaReply k) s = .next v ∧ (v.taskAt j).gtid = y.gtid ∧ (v.taskAt j).pc = y.pc ∧ (v.taskAt k).run = .resident)

/-! ### Engines -/

/-- 14:R238, R239, 10:R171, R172, 03:R54: `tcmd` checks its word, then the core's role, then its token register; it waits for a token that is empty
and for room in the queue; else the command stands at the end of its queue with the word, its owner and its sequence number, and the
token awaits its completion. -/
def Obligations.CommandAcceptance : Prop :=
  ∀ (s : State) (f : Form) (a b : Reg) (ea eb : Bool), s.performs f [] [.v a, .v b] = true →
    let t := s.task
    let w : CmdWord := t.getV b ++ t.getV a
    let q := w.toNat / 2 ^ 8 % 8
    let tok : Reg := BitVec.ofNat 5 (w.toNat / 2 ^ 31)
    let tile := tileOf (coreOf s.cur)
    if wordOk w = false ∨ opOk t.g w = false then exec (.tcmd f a ea b eb) s = .next (s.trap { cause := cBAD_COMMAND, detail := q })
    else if q < 4 ∧ (isStage (coreOf s.cur) = true ↔ q = 0) then exec (.tcmd f a ea b eb) s = .next (s.trap { cause := cENGINE_ROLE, detail := q })
    else if tok = 0 then exec (.tcmd f a ea b eb) s = .next (s.trapC cTOKEN_REG)
    else if t.full (.s tok) = false then
      ∃ u, exec (.tcmd f a ea b eb) s = .next u ∧ s.sameBut u ∧ u.task = { t with run := .parked 1 (.full (.s tok)) }
    else t.fresh s.cycle (.s tok) = false → s.acqPending t.gtid = false → s.heldLocal t.gtid = false → ∀ p, s.partOf? t.part = some p →
      let room : Prop := ∀ k, k < 4 → ((q < 4 ∧ k = q) ∨ (q = 4 ∧ w.getLsbD (44 + k) = true)) → s.engineRoom t.part tile k = true
      (room → ∃ u c, exec (.tcmd f a ea b eb) s = .next u ∧ u.task = s.goneOn (t.markEmpty (.s tok)) f.bytes
          ∧ (∀ k, k < 5 → (u.tile tile).queues.toList[k]?.getD [] = (s.tile tile).queues.toList[k]?.getD [] ++ if k = q then [c] else [])
          ∧ c.word = w ∧ c.owner = t.gtid ∧ c.part = t.part ∧ c.gs = t.g ∧ c.vtile = s.here ∧ c.core = coreOf s.cur ∧ c.order = (s.tile tile).accepted
          ∧ c.seq = ((mapGet p.seqs (s.here * 8 + q)).getD 0) % 2 ^ 16 ∧ c.st = .queued ∧ u.mem = s.mem)
      ∧ (¬ room → ∃ u k, exec (.tcmd f a ea b eb) s = .next u ∧ s.sameBut u ∧ u.task = { t with run := .parked 10 (.engineShare k) } ∧ s.engineRoom t.part tile k = false)

/-- 14:R238 to R240, R242, R245 to R250, 05:R97: the command at the head of its queue starts, and its queue holds it as running, when no earlier
queue-fence entry, no barrier, no wait of its own and no earlier command holds it and a token covers it, or is drawn; its result is that of
its opcode. Copies and `coll.put` between ranges of a tile move them whole; `coll.add` brings its elements to add at its end; unequal lengths
give code 7. A side that a descriptor names makes the command move its range in parts. An `mm` without its latch gives code 6, and one of
i8 elements the sums of their products; a gather leaves its latch invalid from its start; `copy.cin` of a malformed header gives code 8;
`copy.dec` and `copy.enc` without a key handle that serves give code 9, a decryption zeroes its destination at once, and its tag decides whether
the plaintext follows; `coll.ar` of a group of one gives its own elements, and of no member's code 11. A slot that fails its check ends the
command unstarted with code 4 and the slot in its token.
The model's choices it rests on: assumptions 36, 40, 41, 88. -/
def Obligations.CommandStarts : Prop :=
  ∀ (s : State) (tile : Nat) (c : Cmd) (l : List Cmd),
    ∀ e ∈ [(0, 1, Instr.mm tile), (1, 1, .gath tile), (2, 1, .copy tile), (2, 2, .copyCin tile), (2, 3, .copyDec tile), (2, 4, .copyEnc tile), (3, 1, .collPut tile),
      (3, 2, .collAdd tile), (3, 3, .collAr tile)],
    let q := e.1
    let w := c.word
    let queue (u : State) (k : Nat) : List Cmd := (u.tile tile).queues.toList[k]?.getD []
    let n := s.semCount c.part c.vtile (CmdWord.swait w)
    let waits : Prop := CmdWord.swen w = true ∧ c.semDone = false
    CmdWord.queue w = q → CmdWord.eop w = e.2.1 → queue s q = c :: l → c.st = .queued → c.abort = false →
    (∀ d ∈ l, d.st = .queued ∧ d.order ≠ c.order) → (∀ k, k < 5 → k ≠ q → ∀ d ∈ queue s k, d.order ≠ c.order) →
    s.fenced tile q c = false → s.domainWaits c = false →
    (waits → 0 < n ∧ (((s.vtile c.part c.vtile).waiters.toList[CmdWord.swait w]?).getD []).head?.getD (.cmd c.order) = .cmd c.order) →
    match [1, 2, 3].find? fun i => (State.slotRange c i).fails with
    | some i => ∃ u, exec e.2.2 s = .next u ∧ queue u q = l ∧ u.mem = s.mem
        ∧ ∀ k, s.keyOf? c.owner = some k → c.mute = false → c.dead = false → CmdWord.ssen w = false → CmdWord.tok w ≠ 0 →
          (u.taskAt k).full (.s (CmdWord.tok w)) = true
          ∧ (u.taskAt k).getS (CmdWord.tok w) = BitVec.ofNat 64 (4 + q * 2 ^ 8 + c.seq % 2 ^ 16 * 2 ^ 16 + i * 2 ^ 32)
    | none =>
      let pool := State.poolKey (2 * tile) q
      let covered : Bool := match s.keyOf? c.owner with
        | some k => s.holdsFree (s.taskAt k) q && tileOf (coreOf k) / 4 == tile / 4
        | none => false
      let served : Prop := c.kernel = none ∧ s.sharedUse tile c < 8
      s.scored tile c = false →
      (q < 3 → covered = false → 0 < s.poolFree c.part pool ∧ (s.pool c.part pool).waiters.head?.getD (.cmd tile c.order) = .cmd tile c.order) →
      ∃ u d, exec e.2.2 s = .next u ∧ queue u q = d :: l ∧ d.word = w ∧ d.order = c.order ∧ d.owner = c.owner ∧ d.st = .started s.cycle
        ∧ (q < 3 → d.drawn = !covered ∧ s.poolFree c.part pool = u.poolFree c.part pool + if covered then 0 else 1)
        ∧ (waits → u.semCount c.part c.vtile (CmdWord.swait w) = n - 1)
        ∧ (e.2.1 ≠ 3 ∨ q ≠ 2 → u.mem = s.mem)
        ∧ let R := d.result
          let r1 := State.slotRange c 1
          let r2 := State.slotRange c 2
          let r3 := State.slotRange c 3
          let bytes (r : Range) : List Byte := memRead s.mem r.mem r.len
          let moving (x y : Side) : Prop := d.moving = true ∧ d.sides = [x, y] ∧ d.moved = c.moved ∧ (served → d.held = false) ∧ (¬ served → c.kernel = none → d.held = true)
          let x := s.sideOf c 1 State.rdNeed
          let y := s.sideOf c 2 (if e.2.1 = 2 then State.rwNeed else State.wrNeed)
          let z := s.sideOf c 2 State.wrNeed
          let span (r : Range) : Side := { ext := false, len := r.len, addr := r.mem, space := r.space }
          -- copy, coll.put and coll.add
          ((q = 2 ∧ e.2.1 = 1) ∨ (q = 3 ∧ e.2.1 ≤ 2) → x.2 = [] → (if q = 3 then y else z).2 = [] →
            let to_ := (if q = 3 then y else z).1
            let part := if q = 3 then collBytes (CmdWord.td w) else 1
            if x.1.len ≠ to_.len ∨ x.1.len % part ≠ 0 then R.code = 7
            else if x.1.ext = true ∨ to_.ext = true then moving x.1 to_
            else R.code = 0 ∧ R.detail = x.1.len ∧ (if q = 3 ∧ e.2.1 = 2 then R.writes = [] ∧ R.adds = some (CmdWord.td w, to_.addr, memRead s.mem x.1.addr x.1.len)
              else R.writes = [(to_.addr, memRead s.mem x.1.addr x.1.len)]))
          -- mm
          ∧ (q = 0 → CmdWord.flag w 0 = true → ((s.vtile c.part c.vtile).latches.toList[State.lsel w]?).getD none = none →
            R.code = 6 ∧ R.detail = State.lsel w ∧ R.writes = [])
          ∧ (q = 0 → CmdWord.flag w 0 = false → CmdWord.flag w 2 = true → CmdWord.ta w = 0 → CmdWord.tb w = 0 →
            let N := CmdWord.cols w
            let K := CmdWord.depth w
            r1.len = CmdWord.rows w * K → r2.len = N * K →
            R.code = 0 ∧ R.endCycle = s.cycle + 16 + R.detail ∧ ∃ bs, R.writes = [(r3.mem, bs)] ∧ bs.length = 4 * (CmdWord.rows w * N)
            ∧ ∀ i j, i < CmdWord.rows w → j < N →
              let v : Int := ((List.range K).map fun k => (memGet s.mem (r1.mem + i * K + k)).toInt * (memGet s.mem (r2.mem + j * K + k)).toInt).sum
              leNat ((bs.drop (4 * (i * N + j))).take 4) = (f32.round 0 false (.fin (decide (v < 0)) v.natAbs 0)).bits)
          -- gath
          ∧ (q = 1 → ((u.vtile c.part c.vtile).latches.toList[State.lsel w]?).getD none = none ∧ R.writes = [])
          -- copy.cin
          ∧ (q = 2 → e.2.1 = 2 → x.2 = [] → (x.1.ext = true → moving x.1 (span r2))
            ∧ (x.1.ext = false → cinderHeader (bytes r1).toArray = none → R.code = 8 ∧ R.detail = 0xFFFFFFFF ∧ R.writes = []))
          -- copy.dec
          ∧ (q = 2 → e.2.1 = 3 → x.2 = [] → x.1.len = r2.len →
            let b := memRead s.mem r3.mem 64
            let p := State.paramOf b
            match s.keyOfHandle c.part p.key 0 with
            | none => R.code = 9 ∧ R.detail = 3 ∧ u.mem = s.mem
            | some k => p.bad = false →
              (s.memOk → ∀ a, memGet u.mem a = if r2.mem ≤ a ∧ a < r2.mem + r2.len then 0 else memGet s.mem a)
              ∧ (x.1.ext = true → moving x.1 (span r2) ∧ d.param = b ++ k.key)
              ∧ (x.1.ext = false → match Crypto.gcmOpen k.key p.iv p.aad (memRead u.mem r1.mem r1.len) p.tag with
                | none => R.code = 2 ∧ R.writes = []
                | some pt => R.code = 0 ∧ R.detail = r2.len ∧ R.writes = [(r2.mem, pt)]))
          -- copy.enc
          ∧ (q = 2 → e.2.1 = 4 → z.2 = [] → z.1.len = r1.len →
            let p := State.paramOf (memRead s.mem r3.mem 64)
            match s.keyOfHandle c.part p.key 1 with
            | none => R.code = 9 ∧ R.detail = 3
            | some k => p.bad = false → k.use.getLsbD 2 = false →
              let o := Crypto.gcmSeal k.key p.iv p.aad (bytes r1)
              if z.1.ext = true then moving (span r1) z.1 ∧ d.bytes = o.1 ∧ R.writes = [(r3.mem, o.2)]
              else R.code = 0 ∧ R.detail = r1.len ∧ R.writes = [(z.1.addr, o.1), (r3.mem, o.2)])
          -- coll.ar
          ∧ (q = 3 → e.2.1 = 3 → served →
            let g := s.groupOf c.part (CmdWord.aux w 1)
            let uneven : Prop := r1.len % collBytes (CmdWord.td w) ≠ 0
            if (s.pkgNo.toNat, c.vtile) ∉ g then R.code = if uneven then 7 else 11
            else g = [(s.pkgNo.toNat, c.vtile)] →
              if uneven then R.code = 7
              else if s.tileThere c.part c.vtile = false then R.code = 11
              else CmdWord.td w = 2 → R.code = 0 ∧ R.detail = r1.len ∧ R.writes = [(r1.mem, bytes r1)])

/-- 14:R240 to R242, R251, 03:R54, 05:R93, 07:R130, R132, 20:R320: a command that has run to its end stores its data, signals its semaphore, fills its token with the
status word, returns its token and leaves its queue; `coll.add` then adds its elements to what the range holds; a queue-fence entry does so once
every earlier command of the queues it names has completed, whatever stands before it; a command whose external part no shared engine accepts within the deadline goes to Caldera as a kernel ahead of all other work.
The model's choices it rests on: assumption 41. -/
def Obligations.CommandEnds : Prop :=
  (∀ (s : State) (tile q k : Nat) (c : Cmd) (l : List Cmd), s.memOk → q < 4 → (s.tile tile).queues.toList[q]?.getD [] = c :: l →
    CmdWord.queue c.word = q → c.st ≠ .queued → c.held = false → c.moving = false → s.writesOpen c = true → c.result.endCycle ≤ s.cycle → c.mute = false → c.dead = false → s.keyOf? c.owner = some k →
    CmdWord.tok c.word ≠ 0 → (∀ d ∈ l, d.order ≠ c.order) → (∀ b, s.hiddenBut (fun d => d.order == c.order && d.core == c.core) b = false) →
    let r := c.result
    let n := s.semCount c.part c.vtile (CmdWord.ssig c.word)
    ∃ u, exec (.engineCommandComplete tile q) s = .next u ∧ (u.tile tile).queues.toList[q]?.getD [] = l
      ∧ (∀ a bs, r.adds = none → r.writes = [(a, bs)] → memRead u.mem a bs.length = bs ∧ ∀ b, b < a ∨ a + bs.length ≤ b → memGet u.mem b = memGet s.mem b)
      ∧ (r.adds = none → u.mem = r.writes.foldl (fun m x => memWrite m x.1 x.2) s.mem)
      ∧ (∀ a bs, r.writes = [] → r.adds = some (2, a, bs) → bs.length % 4 = 0 →
        (∀ i, i < bs.length / 4 → leNat (memRead u.mem (a + 4 * i) 4) = (leNat (memRead s.mem (a + 4 * i) 4) + leNat ((bs.drop (4 * i)).take 4)) % 2 ^ 32)
        ∧ ∀ b, b < a ∨ a + bs.length ≤ b → memGet u.mem b = memGet s.mem b)
      ∧ (∀ i x, i < 2 → r.latch = some (i, x) → (u.vtile c.part c.vtile).latches.toList[i]? = some (some x))
      ∧ (q < 3 → c.drawn = true → c.waitFrom = none → (s.taskAt k).owed = false →
        (u.pool c.part (State.poolKey (2 * tile) q)).inUse = (s.pool c.part (State.poolKey (2 * tile) q)).inUse - 1)
      ∧ (CmdWord.ssen c.word = true → n < 65535 → u.semCount c.part c.vtile (CmdWord.ssig c.word) = n + 1)
      ∧ (u.taskAt k).full (.s (CmdWord.tok c.word)) = true
      ∧ (u.taskAt k).getS (CmdWord.tok c.word) = (if CmdWord.ssen c.word = true ∧ 65535 ≤ n ∧ r.code = 0 then
          BitVec.ofNat 64 (12 + q * 2 ^ 8 + c.seq % 2 ^ 16 * 2 ^ 16 + CmdWord.ssig c.word * 2 ^ 32)
        else BitVec.ofNat 64 (r.code % 2 ^ 8 + q * 2 ^ 8 + c.seq % 2 ^ 16 * 2 ^ 16 + r.detail % 2 ^ 32 * 2 ^ 32)))
  ∧ (∀ (s : State) (tile k : Nat) (f : Cmd) (l r : List Cmd), (s.tile tile).queues.toList[4]?.getD [] = l ++ f :: r → f.mute = false → f.dead = false → f.abort = false →
    CmdWord.swen f.word = false → CmdWord.ssen f.word = false → CmdWord.queue f.word = 4 → CmdWord.tok f.word ≠ 0 → s.keyOf? f.owner = some k →
    (∀ d ∈ l ++ r, d.order ≠ f.order ∧ s.fenceReady tile d = false) → (∀ q, q < 4 → f.word.getLsbD (44 + q) = true → ∀ d ∈ (s.tile tile).queues.toList[q]?.getD [], f.order < d.order) →
    ∃ u, exec (.queueFence tile) s = .next u ∧ (u.tile tile).queues.toList[4]?.getD [] = l ++ r ∧ u.mem = s.mem
      ∧ (u.taskAt k).full (.s (CmdWord.tok f.word)) = true ∧ (u.taskAt k).getS (CmdWord.tok f.word) = BitVec.ofNat 64 (4 * 2 ^ 8 + f.seq % 2 ^ 16 * 2 ^ 16))
  ∧ ∀ (s : State) (tile q o : Nat) (c : Cmd) (l r : List Cmd), (s.tile tile).queues.toList[q]?.getD [] = l ++ c :: r →
    (∀ d ∈ l, d.st = .queued ∨ d.offered = none) → c.st ≠ .queued → c.kernel = none → c.offered = some o →
    o + (((s.partOf? c.part).map (·.deadline)).getD 20) * cyclesPerUs ≤ s.cycle →
    ∃ u w, exec (.engineDeadlineExpiry tile q) s = .next u ∧ u.cald.work = w :: s.cald.work ∧ w.part = c.part ∧ w.prio = 3 ∧ w.work = .kernel tile q c.order

/-! ### What happens to accesses, deliveries and waits -/

/-- 06:R105, R111, R117, 13:R222, R223: a remote request that may be performed is performed at its agent in one step, or waits there for its word; only a
nibble store is the business of the nibble row. A request to a tile whose image is kept waits (20:R322). 03:R48, R52, 06:R107, R108, 17:R271, 12:R216: an answer that arrives leaves the network and fills its register, at a task wherever it is, and a failed
one marks it; a queued load or store on memory of the package is performed there, byte by byte; an SFU result fills its vector register.
The model's choices it rests on: assumptions 34, 48. -/
def Obligations.RequestsAndDeliveries : Prop :=
  (∀ (s : State) (r : Acc) (acc : Bool) (vt w : Nat), s.accOf? r.tag = some r → r.place = .tile acc vt w → r.st = .flying → s.mayPerform r = true →
      let at_ := State.tileAddr r.part acc vt w
      s.tileAway r.part vt r.owner = false → s.waiterFirst r at_ = false → s.watchHits r.part (ofBool acc) vt w r.op.size (State.accMask r.op) r.owner = [] →
      let nibble : Bool := match r.op with
        | .nibble _ _ => true
        | _ => false
      let mine : Instr := if nibble then .remoteNibbleStore r.tag else .remoteAccessRequest r.tag
      let other : Instr := if nibble then .remoteAccessRequest r.tag else .remoteNibbleStore r.tag
      exec other s = .next s
      ∧ match s.perform at_ r.op with
        | some (v, t) => ∃ u extra, exec mine s = .next u ∧ u.accOf? r.tag = some { r with st := .performed v, extra := r.extra + extra } ∧ u.mem = t.mem ∧ u.feEmpty = t.feEmpty ∧ u.slots = s.slots
        | none => s.agentWaiting r < 64 → ∃ u, exec mine s = .next u ∧ u.accOf? r.tag = some { r with st := .waiting } ∧ u.mem = s.mem ∧ u.feEmpty = s.feEmpty)
  ∧ ((∀ (s : State) (a : Acc) (d : Reg) (v k : Nat), s.accOf? a.tag = some a → (∀ r ∈ s.net.sfu, r.tag ≠ a.tag) → a.st = .performed v → a.dst = some (.s d) → d ≠ 0 → a.dead = false →
      a.waits = false → s.queueFirst a = true → a.issued + s.latencyOf a + a.extra ≤ s.cycle → s.keyOf? a.owner = some k →
      ∃ u, exec (.registerDelivery a.tag .arrive) s = .next u ∧ u.accOf? a.tag = none ∧ (u.taskAt k).full (.s d) = true ∧ (u.taskAt k).getS d = BitVec.ofNat 64 v
        ∧ u.mem = s.mem ∧ (∀ j, j ≠ k → u.taskAt j = s.taskAt j) ∧ ∀ q, q ≠ d → (u.taskAt k).getS q = (s.taskAt k).getS q)
    ∧ (∀ (s : State) (a : Acc) (d : Reg) (x : Bool) (k : Nat), s.accOf? a.tag = some a → (∀ r ∈ s.net.sfu, r.tag ≠ a.tag) → a.dst = some (.s d) → d ≠ 0 → a.dead = false → a.waits = false →
      a.st = .failed x → s.queueFirst a = true → a.issued + s.latencyOf a + a.extra ≤ s.cycle → s.keyOf? a.owner = some k →
      ∃ u, exec (.registerDelivery a.tag .arrive) s = .next u ∧ u.accOf? a.tag = none ∧ (u.taskAt k).full (.s d) = true ∧ (u.taskAt k).err (.s d) = true)
    ∧ (∀ (s : State) (a : Acc), s.accOf? a.tag = some a → (∀ r ∈ s.net.sfu, r.tag ≠ a.tag) → a.st = .flying → a.op.reads = true → a.waits = false →
      ∃ u, exec (.registerDelivery a.tag .abort) s = .next u ∧ u.accOf? a.tag = some { a with st := .failed false } ∧ u.mem = s.mem ∧ u.slots = s.slots)
    ∧ (∀ (s : State) (a : Acc) (space q va n : Nat) (p : Piece), s.memOk → s.accOf? a.tag = some a → (∀ r ∈ s.net.sfu, r.tag ≠ a.tag) → a.place = .ext space q va [p] → p.len = n →
      a.st = .flying → s.mayPerform a = true → backed p.addr = true → inWindow p.addr = false → p.addr < hostBase → s.domainAt a.part = none → s.foreign a.part [p] = false →
      s.poisonMeets [p] = false →
      (∀ sx, a.op = .load n sx → s.macMeets [p] = false → ∃ u, exec (.registerDelivery a.tag .perform) s = .next u
        ∧ u.accOf? a.tag = some { a with st := .performed (extLoad n sx (leNat (memRead s.mem p.addr n))) } ∧ u.mem = s.mem)
      ∧ ∀ d, a.op = .store n d → ∃ u, exec (.queuedStoreAccept a.tag .perform) s = .next u ∧ u.accOf? a.tag = none
        ∧ ∀ b, memGet u.mem b = if p.addr ≤ b ∧ b < p.addr + n then BitVec.ofNat 8 (d / 256 ^ (b - p.addr)) else memGet s.mem b)
    ∧ ∀ (s : State) (r : SfuReq) (k : Nat), s.net.sfu.find? (·.tag == r.tag) = some r → r.last + 24 ≤ s.cycle → r.mute = false → r.dead = false → s.keyOf? r.owner = some k →
      ∃ u, exec (.registerDelivery r.tag .arrive) s = .next u ∧ (u.taskAt k).full (.v r.dst) = true ∧ (u.taskAt k).getV r.dst = r.value ∧ u.mem = s.mem
        ∧ ∀ x ∈ u.net.sfu, x.tag ≠ r.tag)

/-- 02:R36, R40, 07:R119, 13:R230, R243, 19:R299: a parked task whose wake condition holds is let back into the rotation with nothing else of it changed, and
no other is, and one that is owed tokens takes them once the pools have them (05:R98); a re-read wakes a task that watches a word; a held release is performed once everything before it is; a queued request whose
lease no longer covers it, 4 µs after its end, is translated again at its core's port, and waits on a fault record where that faults.
The model's choices it rests on: assumptions 26, 77. -/
def Obligations.WakesAndReleases : Prop :=
  (∀ (s : State) (k row : Nat) (w : Wake),
    let t := s.taskAt k
    let woken : Task := { t with run := .resident, holdUntil := max t.holdUntil (s.cycle + 1) }
    (t.run = .resident → exec (.waddrRecheck k) s = .next s
      ∧ (t.owed = false ∨ s.tokensFor k t = false → exec (.taskWake k) s = .next s)
      ∧ (t.owed = true → s.tokensFor k t = true → exec (.taskWake k) s = .next ((s.takeTokens k t).putTask k { t with owed := false })))
    ∧ (t.run = .parked row w → t.owed = false → if t.stopped = false ∧ s.wakeReady k t w = true then ∃ u, exec (.taskWake k) s = .next u ∧ u.taskAt k = woken
          ∧ (∀ j, j ≠ k → u.taskAt j = s.taskAt j) ∧ u = { s with slots := u.slots, cores := u.cores }
        else exec (.taskWake k) s = .next s)
    ∧ ∀ a n v c x, t.run = .parked row (.watch a n v c x) → ∃ u, exec (.waddrRecheck k) s = .next u ∧ u.mem = s.mem
        ∧ u.taskAt k = if t.stopped = true then { t with run := .parked row .kept } else woken)
  ∧ (∀ (s : State) (h : Held) (l : List Held), s.memOk → s.net.helds = h :: l → (∀ x ∈ l, x.tag ≠ h.tag) → s.heldAway h = false →
    (∀ a ∈ s.net.accs, a.owner = h.owner → h.tag ≤ a.tag) → (∀ x ∈ l, x.owner = h.owner → h.tag ≤ x.tag) →
    (∀ vt acc a n d, h.op = .store vt acc a n d → s.watchHits h.part (ofBool acc) vt a n 2 h.owner = [] →
      let at_ := State.tileAddr h.part acc vt a
      ∃ u, exec (.releasePerformed h.tag) s = .next u ∧ u.net = { s.net with helds := l }
        ∧ ∀ b, memGet u.mem b = if at_ ≤ b ∧ b < at_ + n ∧ s.hiddenAt b = false then BitVec.ofNat 8 (d / 256 ^ (b - at_)) else memGet s.mem b)
    ∧ (∀ vt n, h.op = .signal vt n → n < 8 → s.semCount h.part vt n < 65535 →
      ∃ u, exec (.releasePerformed h.tag) s = .next u ∧ u.net = { s.net with helds := l } ∧ u.semCount h.part vt n = s.semCount h.part vt n + 1 ∧ u.mem = s.mem)
    ∧ ∀ m, h.op = .send m → ∃ u, exec (.releasePerformed h.tag) s = .next u ∧ u.mem = s.mem
      ∧ u.net = { s.net with helds := l, msgs := s.net.msgs ++ [{ m with tag := s.tagCtr }] } ∧ u.tagCtr = s.tagCtr + 1)
  ∧ ∀ (s : State) (a : Acc) (space q va : Nat) (ps : List Piece), s.accOf? a.tag = some a → a.place = .ext space q va ps → a.st = .flying →
    let n := (ps.map (·.len)).sum
    let acc := if a.op.reads then (if a.op.writes then 4 else 1) else 2
    (s.leaseOk a.leaseEnd = true ↔ ∀ c, a.leaseEnd = some c → s.cycle ≤ c + 4 * 1700)
    ∧ (s.leaseOk a.leaseEnd = true ∨ s.faultPends a.tag = true → exec (.leaseWithdrawal a.tag) s = .next s)
    ∧ (s.leaseOk a.leaseEnd = false → s.faultPends a.tag = false →
      (∀ x v, s.piecesFor a.part (coreOf a.key) va n acc = .ok (x, v) → ∃ u, exec (.leaseWithdrawal a.tag) s = .next u ∧ u.mem = s.mem
        ∧ u.accOf? a.tag = some { a with place := .ext space q va x, leaseEnd := v.leaseOf a.part (coreOf a.key) va n acc })
      ∧ ∀ f c b, s.piecesFor a.part (coreOf a.key) va n acc = .error f → f.why = some c → (s.partOf? a.part).bind (·.fring) = some b →
        a.sup = false → ∃ u, exec (.leaseWithdrawal a.tag) s = .next u ∧ u.accOf? a.tag = some a ∧ u.faultPends a.tag = true
          ∧ ∃ x ∈ u.mmu.faults, State.sameFault x a.part f.va acc = true)

/-! ### Translation -/

/-- 19:R294, R295, R297: a walk through four tables of a task's partition installs the page's entry, with its lease, in the TLB of the task's cluster and of its
die; an invalid entry on the way raises PAGE_UNMAPPED at the task's next boundary where the partition has no fault ring.
The model's choices it rests on: assumptions 24, 34, 105. -/
def Obligations.PageWalks : Prop :=
  ∀ (s : State) (w : Walk) (l : List Walk) (p : Partition), s.mmu.walks = w :: l → s.partOf? w.part = some p → (s.taskAt w.key).gtid = w.gtid → (s.taskAt w.key).priv = .task → w.sup = false →
    w.since + 720 ≤ s.cycle →
    let entry (at_ : Nat) : Nat := leNat (memRead s.mem at_ 8)
    let ok (at_ : Nat) : Prop := at_ < mainBytes ∧ s.granuleWorld at_ = p.world ∧ s.sealedOff at_ = false ∧ s.poisoned at_ = false
    let next (e : Nat) : Nat := e / 2 ^ 12 % 2 ^ 38 * 2 ^ 12
    let node (e : Nat) : Prop := e.testBit 63 = true ∧ e / 2 ^ 61 % 4 = 0 ∧ e.testBit 57 = false ∧ e / 2 ^ 55 % 4 ≠ 3 ∧ e / 2 ^ 50 % 32 = 0
    let a3 := p.ptroot + 8 * (w.va / 2 ^ 39 % 8192)
    let e3 := entry a3
    let a2 := next e3 + 8 * (w.va / 2 ^ 30 % 512)
    let e2 := entry a2
    let a1 := next e2 + 8 * (w.va / 2 ^ 21 % 512)
    let e1 := entry a1
    let a0 := next e1 + 8 * (w.va / 2 ^ 12 % 512)
    let e0 := entry a0
    ok a3 →
    (node e3 → ok a2 → node e2 → ok a1 → node e1 → ok a0 →
      e0.testBit 63 = true → e0.testBit 57 = true → e0 / 2 ^ 61 % 4 ≠ 3 → e0 / 2 ^ 55 % 4 = 0 → e0 / 2 ^ 50 % 32 = 0 →
      (w.acc = 1 ∧ e0.testBit 60 = true) ∨ (w.acc = 2 ∧ e0.testBit 59 = true) ∨ (w.acc = 4 ∧ e0.testBit 58 = true) → next e0 < mainBytes →
      ∃ u x, exec (.pageWalk 0) s = .next u ∧ u = { s with mmu := u.mmu } ∧ u.mmu.walks = l
        ∧ x ∈ (mapGet u.mmu.tlb1 w.cluster).getD [] ∧ x ∈ (mapGet u.mmu.tlb2 (dieOf (w.cluster * 8))).getD []
        ∧ x.part = w.part ∧ x.vbase = w.va / 4096 * 4096 ∧ x.size = 4096 ∧ x.pbase = next e0 ∧ x.kind = e0 / 2 ^ 61 % 4
        ∧ x.expiry = s.cycle + p.lease * 1700)
    ∧ (e3.testBit 63 = false → s.dirMoving w.part w.va = false → p.fring = none → ∃ u x, exec (.pageWalk 0) s = .next u ∧ u.mmu.walks = l
      ∧ (u.taskAt w.key).due = (s.taskAt w.key).due ++ [x] ∧ x.cause = cPAGE_UNMAPPED ∧ x.addr = BitVec.ofNat 64 (w.va % 2 ^ 52) ∧ x.seg = some w.seg)

/-- 19:R297 to R308: a fault's reply retries its accesses or fails them with its cause; a dead TLB entry is dropped and a live one kept; a device fault
moves a host page into a frame, a host fault, in its turn, moves a device page out after the quiet time of the longest lease in force since, the
device's request of a cycle first; no page moves where no host link is up, or a mark refuses it (23:R358), and the move's end wakes who waits; the
timer of a page ends after 100 µs; an invalidation drops the cached pages it covers, ends the requests under them after 50 µs, and answers when none is left.
The model's choices it rests on: assumptions 25, 54, 84, 91. -/
def Obligations.TranslationEvents : Prop :=
  (∀ (s : State) (part i va k row reply c : Nat) (f : FaultRec) (w : Waiter), s.replyOf part i = some (f, reply, c) → f.waiters = [w] → w.va = va →
    f.va / 4096 = va / 4096 → w.acc < 8 → w.tag = none → s.keyOf? w.gtid = some k → (s.taskAt k).run = .parked row (.page va w.acc) → (s.taskAt k).stopped = false →
    ∃ u, exec (.faultReply part i) s = .next u ∧ (u.taskAt k).run = .resident ∧ (∀ x ∈ u.mmu.faults, State.sameFault x f.part f.va f.acc = false)
      ∧ if reply = 1 then (u.taskAt k).due = (s.taskAt k).due
        else ∃ d, (u.taskAt k).due = (s.taskAt k).due ++ [d] ∧ d.cause.toNat = (if reply = 2 ∧ 0x18 ≤ c ∧ c ≤ 0x1E then c else cPAGE_UNMAPPED.toNat)
          ∧ d.addr = BitVec.ofNat 64 (va % 2 ^ 52))
  ∧ (∀ (s : State) (cl i : Nat) (x : TlbEntry), cl < 128 → ((mapGet s.mmu.tlb1 cl).getD [])[i]? = some x →
    ∃ u, exec (.leaseExpiry cl i) s = .next u ∧ u = { s with mmu := { s.mmu with tlb1 := u.mmu.tlb1 } }
      ∧ (mapGet u.mmu.tlb1 cl).getD [] = if x.expiry ≤ s.cycle then ((mapGet s.mmu.tlb1 cl).getD []).eraseIdx i else (mapGet s.mmu.tlb1 cl).getD [])
  ∧ (∀ (s : State) (part page : Nat) (p : Partition), s.partOf? part = some p →
    let e := s.dirEntry part page
    (e.timer = none → exec (.hysteresisExpiry part page) s = .next s)
    ∧ (∀ c, e.timer = some c → if s.cycle < c + 100 * 1700 then exec (.hysteresisExpiry part page) s = .next s
        else ∃ u, exec (.hysteresisExpiry part page) s = .next u ∧ u.dirEntry part page = { e with timer := none, loser := none } ∧ u.mem = s.mem)
    ∧ (e.asked = true → e.timer = none → e.st = .host → ∀ f r a, p.frames = f :: r → s.leafOf? part page = some a → s.hostOpen part (s.hostPage a) = true →
      ∃ u, exec (.directoryDeviceFault part page) s = .next u ∧ (u.dirEntry part page).st = .moving true ∧ (u.dirEntry part page).frame = f
        ∧ (u.dirEntry part page).asked = false ∧ (u.dirEntry part page).waiters = e.waiters ∧ (u.partOf? part).map (·.frames) = some r ∧ u.mem = s.mem)
    ∧ (e.asked = true → e.timer = none → e.st = .host → ∀ f r a w k row, p.frames = f :: r → s.leafOf? part page = some a →
      s.hostOpen part (s.hostPage a) = false →
      e.waiters = [w] → w.va / 4096 = page → w.acc < 8 → w.tag = none → s.keyOf? w.gtid = some k → (s.taskAt k).run = .parked row (.page w.va w.acc) →
      ∃ u d, exec (.directoryDeviceFault part page) s = .next u ∧ (u.dirEntry part page).st = .host ∧ (u.dirEntry part page).waiters = []
        ∧ (u.taskAt k).due = (s.taskAt k).due ++ [d] ∧ d.cause = cHOST_ABORT ∧ d.addr = BitVec.ofNat 64 (w.va % 2 ^ 52))
    ∧ (s.ringBusy 5 = true → exec (.directoryHostFault part page) s = .next { s with hl := { s.hl with queued := s.hl.queued ++ [.fault part page] } })
    ∧ (e.asked = true → e.timer = none → e.st = .host → ∀ f r a, p.frames = f :: r → s.leafOf? part page = some a → s.hostOpen part (s.hostPage a) = true →
      s.reqHead = none → s.endingWalks part page = [] →
      ∃ u x, exec (.directoryHostFault part page) s = .next u ∧ (u.dirEntry part page).st = .moving true ∧ (u.dirEntry part page).loser = some false
        ∧ (u.dirEntry part page).timer = some s.cycle ∧ u.replies = s.replies ++ [x] ∧ x.data = leBytes 8 1 ++ leBytes 8 f)
    ∧ (e.asked = false → e.timer = none → e.st = .host → s.reqHead = none → s.endingWalks part page = [] →
      ∃ u r, exec (.directoryHostFault part page) s = .next u ∧ u = { s with replies := s.replies ++ [r] } ∧ r.data = List.replicate 16 0)
    ∧ (e.asked = false → e.timer = none → e.st = .device → s.reqHead = none → s.endingWalks part page = [] → ∃ u, exec (.directoryHostFault part page) s = .next u ∧ (u.dirEntry part page).st = .moving false
        ∧ (u.dirEntry part page).since = s.cycle ∧ (u.dirEntry part page).lmax = p.lease ∧ u.replies = s.replies ∧ u.mem = (s.writeLeaf part page false 0 e.frame).mem)
    ∧ (e.st = .moving true → s.hostOpen part e.hostPa = true → ∃ u, exec (.migrationMoveComplete part page true) s = .next u ∧ (u.dirEntry part page).st = .device ∧ (u.dirEntry part page).waiters = []
        ∧ u.mem = ((s.copyPage (hostBase + e.hostPa) e.frame).writeLeaf part page true 0 e.frame).mem)
    ∧ (e.st = .moving true → s.hostOpen part e.hostPa = false → ∀ ok, ∃ u, exec (.migrationMoveComplete part page ok) s = .next u ∧ (u.dirEntry part page).st = .host
        ∧ (u.dirEntry part page).waiters = [] ∧ (u.partOf? part).map (·.frames) = some (insNat p.frames e.frame))
    ∧ (e.st = .moving false → if s.cycle < e.since + (e.lmax + 4) * 1700 then ∀ ok, exec (.migrationMoveComplete part page ok) s = .next s
        else (s.hostOpen part e.hostPa = true → ∃ u, exec (.migrationMoveComplete part page true) s = .next u ∧ (u.dirEntry part page).st = .host ∧ (u.dirEntry part page).hostWaits = 0
            ∧ u.replies.length = s.replies.length + e.hostWaits)
          ∧ ∃ u, exec (.migrationMoveComplete part page false) s = .next u ∧ (u.dirEntry part page).st = .device ∧ (u.dirEntry part page).hostWaits = 0
            ∧ u.replies.length = s.replies.length + e.hostWaits ∧ ∀ r ∈ u.replies.drop s.replies.length, leNat (r.data.take 8) = 2))
  ∧ ∀ (s : State) (link lo hi i : Nat) (v : AtsInval),
    (∃ u x, exec (.atsInvalidateRequest link lo hi) s = .next u ∧ (mapGet u.mmu.invals link).getD [] = (mapGet s.mmu.invals link).getD [] ++ [x] ∧ x.lo = lo ∧ x.hi = hi
      ∧ x.since = s.cycle ∧ (∀ p, p ∈ (mapGet u.mmu.atc link).getD [] ↔ p ∈ (mapGet s.mmu.atc link).getD [] ∧ ¬ (p * 4096 < hi ∧ lo < p * 4096 + 4096)) ∧ u.mem = s.mem)
    ∧ (s.invalOf? link i = some v →
      (s.cycle < v.since + 50 * 1700 → exec (.atsInvalidateTimeout link i) s = .next s)
      ∧ (v.since + 50 * 1700 ≤ s.cycle → ∀ a, v.tags = [a.tag] → v.cmds = [] → s.accOf? a.tag = some a → a.st = .flying → a.op.reads = true → a.waits = false →
        ∃ u, exec (.atsInvalidateTimeout link i) s = .next u ∧ u.accOf? a.tag = some { a with st := .failed false })
      ∧ if s.atsDrained v = true then ∃ u r, exec (.atsInvalidateCompletion link i) s = .next u ∧ (mapGet u.mmu.invals link).getD [] = ((mapGet s.mmu.invals link).getD []).eraseIdx i
          ∧ u.replies = s.replies ++ [r] ∧ r.session = link ∧ r.code = 0x100 ∧ u.mem = s.mem
        else exec (.atsInvalidateCompletion link i) s = .next s)

/-! ### Slots, Caldera and the issue frame -/

/-- 02:R27, R29, R38, 20:R310, R315 to R317: an overdue slot, the oldest, becomes the current one; after 64 issues in a row the oldest other ready slot
does; an idle slot takes the yielded top entry that has waited more than 1,024 cycles, else the bottom of its core's deque, else the top entry of
another core that admits it, which a steal brings to the slot; Caldera gives a root its number and its slot; a gang that has waited 1 ms has its set
reserved, of the slots that are not about to be lost, and 4 ms later the tasks that hold it are asked for; a slice ends with the credits of its devices counted, and after a switch the next begins when the old device's tasks are gone and the next one's are back; the policy and donate bits
take effect at a frame boundary.
The model's choices it rests on: assumptions 7, 46, 58, 59, 89. -/
def Obligations.SchedulerEvents : Prop :=
  (∀ (s : State) (core part : Nat) (x : Nat × Task), s.cyclePart core = some part → x ∈ s.readyOn core part →
    let k := s.counts part core
    (64 ≤ x.2.waitCount → ∃ (u : State) (e : Nat × Task), exec (.slotOverdue core) s = .next u ∧ u = { s with counters := u.counters } ∧ e ∈ s.readyOn core part
      ∧ 64 ≤ e.2.waitCount ∧ e.2.stamp ≤ x.2.stamp ∧ u.counts part core = { k with current := some (slotOf e.1), runCount := 0, hint := none })
    ∧ (64 ≤ k.runCount → k.current ≠ some (slotOf x.1) →
      ∃ (u : State) (e : Nat × Task), exec (.issueRunLimit core) s = .next u ∧ u = { s with counters := u.counters } ∧ e ∈ s.readyOn core part
        ∧ k.current ≠ some (slotOf e.1) ∧ e.2.stamp ≤ x.2.stamp ∧ u.counts part core = { k with current := some (slotOf e.1), runCount := 0, hint := none }))
  ∧ (∀ (s : State) (key part : Nat), s.idlePart key = some part →
    let core := coreOf key
    let taken (o : Out) (t : Task) (l : List Task) : Prop := ∃ u, o = .next u ∧ u.deque part core = l ∧ (u.taskAt key).gtid = t.gtid ∧ (u.taskAt key).pc = t.pc
      ∧ (u.taskAt key).since = s.cycle ∧ ((∀ vt, s.vtileOf? part core = some vt → mapGet (s.vtile part vt).saved (s.deviceIn part t.launch) = none) →
        u.mem = s.mem ∧ (s.net.landed = [] → u.parts = s.parts))
    (∀ t, s.agedTop part core = some t → taken (exec (.yieldAgeLimit key) s) t (s.deque part core).dropLast
      ∧ taken (exec (.idleSlotSearch key) s) t (s.deque part core).dropLast)
    ∧ (s.agedTop part core = none → exec (.yieldAgeLimit key) s = .next s ∧ ∀ t l, s.deque part core = t :: l → taken (exec (.idleSlotSearch key) s) t l)
    ∧ ∀ p v, s.deque part core = [] → s.partOf? part = some p → v ∈ p.cores → v ≠ core → clusterOf v = clusterOf core → 1 ≤ s.widest part →
      (s.stealable part core v).isSome = true →
      ∃ u x n, exec (.idleSlotSearch key) s = .next u ∧ u.cald.steals = s.cald.steals ++ [x] ∧ x.key = key ∧ x.since = s.cycle
        ∧ s.stealable part core n = some x.task ∧ u.deque part n = (s.deque part n).dropLast ∧ (u.core core).lastVictim = n ∧ u.slots = s.slots)
  ∧ (∀ (s : State) (key : Nat) (x : Steal), (s.cald.steals.find? fun y => y.key == key) = some x →
    ∃ u, exec (.stealComplete key) s = .next u ∧ (u.taskAt key).gtid = x.task.gtid ∧ (u.taskAt key).pc = x.task.pc ∧ (∀ y ∈ u.cald.steals, y.key ≠ key)
      ∧ ((∀ vt, s.vtileOf? x.task.part (coreOf key) = some vt → mapGet (s.vtile x.task.part vt).saved (s.deviceIn x.task.part x.task.launch) = none) → u.mem = s.mem))
  ∧ (∀ (s : State) (part k q id : Nat) (p : Partition) (t : Task) (w : QueuedWork) (l : List QueuedWork), s.partOf? part = some p → s.urgent part p = [] → p.resizing = none →
    s.placeOrder part p = w :: l → w.work = .root q id t → q < 8 → s.fits part p w = some [k] →
    ∃ u, exec (.calderaPlacement part) s = .next u ∧ u.cald.work = s.cald.work.erase w ∧ (u.taskAt k).pc = t.pc ∧ (u.taskAt k).home = coreOf k
      ∧ (u.taskAt k).gtid = (s.newGtid (dieOf (coreOf k))).1 ∧ (u.taskAt k).since = s.cycle)
  ∧ (∀ (s : State) (part q id : Nat) (p : Partition) (ts : List Task) (ks : List Nat) (w : QueuedWork) (l : List QueuedWork), s.partOf? part = some p →
    s.cald.work = w :: l → (∀ x ∈ s.cald.work, x.part = part → x.reserved = []) → w.work = .gang q id ts → w.part = part → w.since + 1700000 ≤ s.cycle →
    State.pickGang p (s.gangSlots p) ts = some ks →
    ∃ u, exec (.gangReservation part) s = .next u ∧ u = { s with cald := { s.cald with work := u.cald.work } }
      ∧ u.cald.work.head? = some { w with reserved := ks, reservedAt := some s.cycle })
  ∧ (∀ (s : State) (part k c : Nat) (p : Partition) (t : Task) (w : QueuedWork) (l : List QueuedWork), s.partOf? part = some p → s.cald.work = w :: l → w.part = part →
    w.reservedAt = some c → c + 4 * 1700000 ≤ s.cycle → k ∈ w.reserved → (k, t) ∈ s.residents part → t.since + 1700000 ≤ s.cycle → t.gang = none →
    ∃ u, exec (.reservationPreempt part) s = .next u ∧ u = { s with cald := { s.cald with work := u.cald.work, preempts := u.cald.preempts } }
      ∧ u.cald.work.head? = some { w with reservedAt := none }
      ∧ ∀ core ∈ p.cores, ∃ r ∈ u.cald.preempts, r.part = part ∧ r.core = core ∧ r.hold = false ∧ t.gtid ∈ r.gtids)
  ∧ (∀ (s : State) (part : Nat) (p : Partition), s.partOf? part = some p →
    if p.switching = true then
      if s.cald.preempts.any (fun x => x.part == part) = true ∨ s.restorePends part = true then exec (.sliceBoundary part) s = .next s
      else exec (.sliceBoundary part) s = .next (s.putPart part { p with switching := false, sliceStart := s.cycle })
    else if s.sliceDue part p = false then exec (.sliceBoundary part) s = .next s
    else ∃ u q, exec (.sliceBoundary part) s = .next u ∧ u.partOf? part = some q ∧ q.sliceStart = s.cycle ∧ u.slots = s.slots ∧ u.mem = s.mem
      ∧ { q with vdevs := p.vdevs, sliceStart := p.sliceStart, resident := p.resident, switching := p.switching } = p
      ∧ ∀ d x, p.vdevs = [(d, x)] → p.resident = some d → x.weight ≠ 0 → s.deviceWork part p d = true →
        let z : Int := p.slice * 1700
        let c := min ((if x.hadWork then x.credit else min x.credit z) + z) (2 * z)
        q.vdevs = [(d, { x with credit := max (c - ((s.cycle - p.sliceStart : Nat) : Int)) (-2 * z), hadWork := true })])
  ∧ ∀ s : State, if s.cycle % 16 = 0 then ∃ u, exec .frameBoundary s = .next u ∧ u = { s with parts := u.parts }
      ∧ ∀ part p, s.partOf? part = some p → u.partOf? part = some { p with pol := p.polNext, donate := p.donateNext }
    else exec .frameBoundary s = .next s

/-- 20:R312 to R314, R318, 21:R333, R334, 02:R43, 17:R275, 19:R302, 25:R365, R367: the packet at the head of a launch queue is answered with the lowest status that applies
and accepted with 0x01; an unload packet drops a reference; a launch whose roots have retired stores its done word; a watched ring hands its record on;
freed room takes held records; a step's scheduler starts when the step's tasks have retired, and the next descriptor is built when it has; a build that ends
gives the capsule a current body and its waiting tasks their code.
The model's choices it rests on: assumptions 46, 52, 61. -/
def Obligations.LaunchEvents : Prop :=
  (∀ (s : State) (part q at_ base h : Nat) (b : List Byte), s.headPacket part q = some (b, at_, base, h) →
    let k := Packet.read b
    (k.type ≠ 2 → s.takesPackets part q = true → (k.type = 1 → k.serial = true → s.queueDone part q = true) →
      if s.packetStatus part q k = 1 then
        ∃ (v : State) (l : Launch), exec (.launchPacket part q) s = .next (v.answerPacket part at_ base h 1) ∧ v.cald.launches = s.cald.launches ++ [l]
          ∧ (∀ p, v.partOf? part = some p → mapGet p.lastPacket q = some l.id)
          ∧ l.part = part ∧ l.queue = q ∧ l.live = k.nroot ∧ l.doneaddr = k.doneaddr ∧ l.doneval = BitVec.ofNat 64 k.doneval ∧ l.domain = k.domain
          ∧ v.cald.work.length = s.cald.work.length + (if k.gang then 1 else k.nroot) ∧ v.mem = s.mem ∧ v.slots = s.slots
      else exec (.launchPacket part q) s = .next ((s.noteLast part q none).answerPacket part at_ base h (s.packetStatus part q k)))
    ∧ (k.type = 1 → k.serial = true → s.queueDone part q = false → exec (.launchPacket part q) s = .next s)
    ∧ (k.type = 2 → s.takesPackets part q = true → exec (.launchPacket part q) s = .next s ∧ exec (.unloadPacket part q) s = .next (
        let w := s.noteLast part q none
        if Packet.unloadBad b = true then w.answerPacket part at_ base h 0x80
        else match s.capsule? part k.capid with
          | none => w.answerPacket part at_ base h 0x84
          | some c => if s.stepHolds part q k.capid = true ∨ c.holds q = false then w.answerPacket part at_ base h 0x84
            else (w.modCapsule part k.capid fun c => c.dropRef q).answerPacket part at_ base h 1))
    ∧ (∀ a, q < 8 → s.launchRing part q = some a →
      (s.ringInHost part a = false → exec (.ringTailWatch part q) s = if k.type = 2 then exec (.unloadPacket part q) s else exec (.launchPacket part q) s)
      ∧ (s.ringInHost part a = true → exec (.ringTailWatch part q) s = .next s
        ∧ exec (.ringWatchReread (1 + part * 16 + q)) s = if k.type = 2 then exec (.unloadPacket part q) s else exec (.launchPacket part q) s)))
  ∧ (∀ (s : State) (id : Nat) (l : Launch), (s.cald.launches.find? fun x => x.id == id) = some l →
    (l.live ≠ 0 → exec (.launchDone id) s = .next s)
    ∧ (l.live = 0 → l.doneaddr = 0 → exec (.launchDone id) s = .next { s with cald := { s.cald with launches := s.cald.launches.filter fun x => x.id != id } })
    ∧ ∀ v, l.live = 0 → l.doneaddr ≠ 0 → s.writeVa l.part l.doneaddr (leBytes 8 l.doneval.toNat) = some v →
      exec (.launchDone id) s = .next { v with cald := { s.cald with launches := s.cald.launches.filter fun x => x.id != id } })
  ∧ (∀ (s : State) (a h c : Nat), s.memOk → s.reqHead = some (a, h) → leNat (memRead s.mem a 1) = c → c = 0 ∨ 6 < c →
    ∃ u r, exec (.ringWatchReread 0) s = .next u ∧ u.replies = s.replies ++ [r] ∧ r.code = 0x300 + c ∧ r.status = 0x80 ∧ memGet u.mem (a + 1) = 0x80
      ∧ leNat (memRead u.mem (hostBase + State.ringAt s.hl.reqring.toNat) 8) = (h + 1) % 2 ^ 64)
  ∧ (∀ (s v : State) (part base i : Nat) (p : Partition), s.partOf? part = some p →
    (∀ r, p.qheld = [r] → p.cring = some base → s.ringPut part base r = some (v, i) →
      ∃ u, exec (.ringSpaceFreed part 9) s = .next u ∧ u.partOf? part = some { p with qheld := [] } ∧ u.mem = v.mem)
    ∧ ∀ f, s.mmu.faults = [f] → f.part = part → f.idx = none → p.fring = some base →
      s.ringPut part base (State.faultBytes f ((p.ftail + 1) % 2 ^ 32)) = some (v, i) →
      ∃ u, exec (.ringSpaceFreed part 10) s = .next u ∧ u.mmu.faults = [{ f with idx := some i, base := base }] ∧ u.partOf? part = some { p with ftail := (p.ftail + 1) % 2 ^ 32 }
        ∧ u.mem = v.mem)
  ∧ (∀ (s : State) (part : Nat) (x : StepQ), s.stepq? part = some x →
    (∀ n t, s.ringInHost part x.adm = false → s.ringState part x.adm = some (n, t) →
      ∃ u, exec (.ringTailWatch part 8) s = .next u ∧ u.stepq? part = some { x with admTail := t } ∧ u.mem = s.mem)
    ∧ (x.phase = .scheduling → s.stepLive part true = false → rising x.admitted = true →
      ∃ u y id, exec (.stepDescriptorBuild part) s = .next u ∧ u.stepq? part = some y ∧ y.stepno = x.stepno + 1 ∧ y.phase = .running id ∧ y.retired = []
        ∧ y.admitted = [] ∧ y.pgfree = x.npages - x.used.length ∧ y.used = x.used ∧ u.mem = s.mem
        ∧ (∀ i d, mapGet x.admitted i = some d → mapGet y.desc i = some d)
        ∧ ∀ i, mapGet x.admitted i = none → if x.retired.contains i then mapGet y.desc i = none
          else (mapGet y.desc i).map (fun d => (d.seqid, d.stops)) = (mapGet x.desc i).map (fun d => (d.seqid, d.stops)))
    ∧ (x.phase ≠ .scheduling → s.stepLive part false = false →
      if x.nextLive = [] ∧ s.admPending part x = 0 then
        ∃ u, exec (.stepSchedulerStart part) s = .next u ∧ u.stepq? part = some { x with phase := .idle } ∧ u.cald = s.cald
      else ∃ u l, exec (.stepSchedulerStart part) s = .next u ∧ u.stepq? part = some { x with phase := .scheduling } ∧ u.cald.launches = s.cald.launches ++ [l]
        ∧ l.part = part ∧ l.live = 1 ∧ u.mem = s.mem))
  ∧ ∀ (s : State) (part capid : Nat) (c : Capsule), s.capsule? part capid = some c →
    (c.st = .built ∨ c.st = .voided → exec (.buildComplete part capid) s = .next s)
    ∧ (c.st = .rebuilding → c.joiners = [] → c.featver ≤ 1 → ∃ u, exec (.buildComplete part capid) s = .next u
      ∧ u.capsule? part capid = some { c with st := .built, bodygen := c.bodygen + 1 } ∧ u.mem = s.mem ∧ u.slots = s.slots)
    ∧ ∀ j r k, c.st = .rebuilding → c.joiners = [j] → j.dst = r → r ≠ 0 → j.mute = false → j.dead = false → s.keyOf? j.gtid = some k → ∃ u, exec (.buildComplete part capid) s = .next u
      ∧ u.capsule? part capid = some (if 1 < c.featver then { c with st := .voided, joiners := [] } else { c with st := .built, bodygen := c.bodygen + 1, joiners := [] })
      ∧ (u.taskAt k).full (.s r) = true ∧ (u.taskAt k).getS r = if 1 < c.featver then 3 else 0

/-! ### Pre-emption, traps, debugging and failures as they arrive -/

/-- 20:R321 to R323, 21:R336, 17:R272 to R275, 29:R397, 23:R348, 20:R325: a request reaches its core and saves each task there that stands at a boundary, which leaves its slot
for Caldera's queue; a saved task's late command is ended with status 0x01; the image of an emptied tile goes to Caldera for the device its tasks belong to; a saved task comes back where it fits;
a cause that is due is taken at its slot; a frozen context leaves its slot, and no other does; a report names the pages a failure has poisoned; a core that
has failed holds no task and belongs to no partition.
The model's choices it rests on: assumptions 52, 55, 56, 57, 58, 60. -/
def Obligations.PreemptionEvents : Prop :=
  (∀ (s : State) (part core : Nat) (p : Partition) (r : Preempt), (s.cald.preempts.find? fun r => r.part == part && r.core == core) = some r → s.partOf? part = some p →
    p.resizing = none → s.deque part core = [] → s.cald.steals = [] →
    ((∀ e ∈ s.slots, coreOf e.1 = core → State.asksFor r e.2 = false) →
      exec (.preemptRequestArrival part core) s = .next { s with cald := { s.cald with preempts := s.cald.preempts.erase r } })
    ∧ ∀ k t v n, mapGet s.slots k = some t → (s.slots.filter fun e => coreOf e.1 == core && State.asksFor r e.2).map (·.1) = [k] → t.due = [] →
      (∀ c, s.fetchTurn { t with draining := c } ≠ .bound) →
      s.saveSlot k (State.savePlace p) true r.hold = .saved v n →
      ∃ u x, exec (.preemptRequestArrival part core) s = .next u ∧ mapGet u.slots k = none ∧ u.cald.preempts = s.cald.preempts.erase r ∧ u.mem = v.mem
        ∧ (u.partOf? part).map (·.saved) = some (p.saved ++ [x]) ∧ x.gtid = t.gtid ∧ x.task = { t with draining := none } ∧ x.va = State.savePlace p
        ∧ x.byCaldera = true ∧ x.hold = r.hold
        ∧ u.cald.work = s.cald.work ++ if r.hold then [] else
            [{ part := part, prio := t.prio, requeued := true, since := s.cycle, work := .saved t.gtid }])
  ∧ (∀ (s : State) (part core k : Nat) (p : Partition) (r : Preempt) (t : Task), (s.cald.preempts.find? fun r => r.part == part && r.core == core) = some r →
    s.partOf? part = some p → mapGet s.slots k = some t → (s.slots.filter fun e => coreOf e.1 == core && State.asksFor r e.2).map (·.1) = [k] →
    s.deque part core = [] → t.draining = none → t.fwCall = none →
    (s.net.scOps.any fun o => coreOf o.key == coreOf k && decide (o.cycle ≤ s.cycle)) = true
      ∨ (s.net.accs.any fun a => a.owner == t.gtid && a.pending && !a.op.reads && a.queue?.isSome) = true →
    exec (.preemptRequestArrival part core) s = .next (s.putTask k { t with draining := some s.cycle }))
  ∧ (∀ (s : State) (tile q : Nat), (s.lateCmd tile q = none → exec (.preemptEngineAbort tile q) s = .next s)
    ∧ ∀ c, s.lateCmd tile q = some c → ∃ u, exec (.preemptEngineAbort tile q) s = .next u ∧ u.mem = s.mem ∧ u.slots = s.slots
      ∧ ∃ d ∈ (u.tile tile).queues.toList[q]?.getD [], d.order = c.order ∧ d.result.code = 1 ∧ d.result.writes = [] ∧ d.result.endCycle = s.cycle ∧ d.held = false ∧ d.moving = false)
  ∧ (∀ (s : State) (part vt : Nat), match s.tileDue part vt with
    | some d => ∃ u b, exec (.tileImageSave part vt) s = .next u ∧ mapGet (u.vtile part vt).saved d = some b ∧ u.mem = s.mem ∧ u.slots = s.slots
    | none => exec (.tileImageSave part vt) s = .next s)
  ∧ (∀ (s : State) (part k : Nat) (p : Partition) (v x : Saved) (w : QueuedWork) (b : List Byte) (t : Task), s.partOf? part = some p → p.saved = [v] →
    v.byCaldera = true → v.hold = false → v.task.gang = none → s.restoreBuilds part = s → s.urgent part p = [] → s.placeOrder part p = [w] →
    w.work = .saved v.gtid → w.reserved = [] → s.restoreSlots part p (s.freeSlots part p) [v] = some [k] → s.readSlotImage part v.va = .ok b →
    s.restoreCheck part k b = .go x t → t.part = part →
    ∃ u, exec (.calderaRestore part) s = .next u ∧ (u.taskAt k).gtid = t.gtid ∧ (u.taskAt k).pc = t.pc ∧ (u.partOf? part).map (·.saved) = some []
      ∧ ∀ y ∈ u.cald.work, y.work ≠ .saved v.gtid)
  ∧ (∀ (s : State) (key : Nat) (d : Due) (c : Capsule),
    let t := s.taskAt key
    (t.due = [] → exec (.trapEntry key) s = .next s)
    ∧ (t.due = [d] → d.freezes = false → isDebugCause d.cause = false → t.stopped = false → t.stepping = false → t.priv = .task → s.supCapsule? t.part = some c →
      c.lands t.tr.vec = true → ∃ u, exec (.trapEntry key) s = .next u ∧ (u.taskAt key).pc = t.tr.vec ∧ (u.taskAt key).priv = .supervisor ∧ (u.taskAt key).due = []
        ∧ (u.taskAt key).tr.pc = (if t.fpend then t.fmtPc else t.pc) ∧ (u.taskAt key).tr.addr = (if d.cause = cDELIVERY_ERROR then t.tr.aerr else d.addr)
        ∧ (u.taskAt key).tr.cause = Exc.word { cause := d.cause, detail := d.detail, seg := d.seg, async := decide (d.cause = cDELIVERY_ERROR ∨ d.cause = cSEM_OVERFLOW) }
        ∧ (u.taskAt key).s = t.s ∧ (u.taskAt key).v = t.v ∧ u.mem = s.mem))
  ∧ (∀ (s : State) (key : Nat) (cause : BitVec 6) (t : Task), mapGet s.slots key = some t → t.gang = none →
    if (t.due.any fun d => d.freezes && d.cause == cause) = true ∧ s.atBoundary t = true then
      ∃ u, exec (.quarantine key cause) s = .next u ∧ mapGet u.slots key = none ∧ ∀ k, k ≠ key → u.taskAt k = s.taskAt k
    else exec (.quarantine key cause) s = .next s)
  ∧ (∀ (s : State) (part pa : Nat), let r := State.errorRange (pa / 64 * 64) (pa % 64)
    (s.mappedPages part r.1 r.2 = [] → exec (.poisonReport part pa) s = .next s)
    ∧ ∀ page a v, s.mappedPages part r.1 r.2 = [page] → s.toArea part (leBytes 2 0x5C0D ++ leBytes 2 1 ++ leBytes 4 0 ++ leBytes 8 (pa / 64 * 64) ++ leBytes 8 (page * 4096)) = (some a, v) →
      exec (.poisonReport part pa) s = .next (v.postRecord part (leBytes 8 0 ++ leBytes 1 0x38 ++ leBytes 1 (s.worldOfPart part).toNat ++ leBytes 1 0 ++ leBytes 1 0 ++ leBytes 4 24
        ++ leBytes 8 a ++ leBytes 8 s.cycle)))
  ∧ ∀ (s : State) (core : Nat), ∃ u, exec (.coreFailure core) s = .next u ∧ (∀ e ∈ u.slots, coreOf e.1 ≠ core) ∧ core ∈ u.mgmt.failedCores
    ∧ (∀ r ∈ u.cald.preempts, r.core ≠ core)
    ∧ ∀ part p, s.partOf? part = some p → ∃ q, u.partOf? part = some q ∧ q.cores = p.cores.filter (· != core) ∧ q.vmap = p.vmap

/-- 27:R378, R380, R383, R384, R386 to R389, R376: a breakpoint that matches stops its task where it stands, or sends a trigger; a stop message stops its task at a boundary;
a trigger leaves two records, and starts a capture or stops a core's tasks as its action says; one that freezes is on its way to every core; a sample records what the core does, and is lost where four records are queued; a freeze ends a ring with its
trailer of ten records; when every ring is frozen one record gathers them, and new rings begin; a request that has waited 100 ms for an event has an empty answer.
The model's choices it rests on: assumptions 63, 70, 72. -/
def Obligations.DebugEvents : Prop :=
  (∀ (s : State) (key : Nat) (b : Breakpoint) (c : Capsule),
    let t := s.taskAt key
    s.codeOf? t = some c → (s.breakHits t c.capid t.pc.toNat = [] → exec (.breakAddr key) s = .next s)
      ∧ (s.breakHits t c.capid t.pc.toNat = [b] → ∃ u, exec (.breakAddr key) s = .next u ∧ u.mem = s.mem ∧ (u.taskAt key).skipBreak = true ∧ (u.taskAt key).pc = t.pc
        ∧ (b.action ≠ 4 → (u.taskAt key).stopped = true ∧ u.agenda = s.agenda)
        ∧ (b.action = 4 → (u.taskAt key).stopped = t.stopped ∧ u.agenda.length = s.agenda.length + (((s.partOf? t.part).map (·.cores.length)).getD 0))))
  ∧ (∀ (s : State) (core i k : Nat) (m : StopMsg) (t : Task), s.dbg.stops[i]? = some (core, m) → s.keyOf? m.gtid = some k →
    (s.everyTask.find? fun t => t.gtid == m.gtid) = some t → s.taskAt k = t →
    let gone : State := { s with dbg := { s.dbg with stops := s.dbg.stops.eraseIdx i } }
    (t.stopped = false → s.atBoundary t = false → exec (.stopMessageArrival core i) s = .next s)
    ∧ (t.stopped = true → exec (.stopMessageArrival core i) s = .next (match m.note with
        | none => gone
        | some w => gone.modCore (coreOf k) fun x => { x with recorder := x.recorder.put s.cycle w }))
    ∧ (t.stopped = false → s.atBoundary t = true → ∃ u, exec (.stopMessageArrival core i) s = .next u ∧ u.dbg.stops = s.dbg.stops.eraseIdx i
      ∧ u.taskAt k = { t with stopped := true, stepping := false } ∧ (∀ j, j ≠ k → u.taskAt j = s.taskAt j) ∧ u.mem = s.mem))
  ∧ (∀ (s : State) (core part count n : Nat) (id : BitVec 4) (action : BitVec 2) (opkg : BitVec 19) (oc : BitVec 10),
    let r := (s.core core).recorder
    let i : Instr := .triggerArrival core part id action count opkg oc n
    (action = 3 → s.dbg.freeze.isSome = true → exec i s = .next s)
    ∧ (action = 3 → s.dbg.freeze = none → let z : Freeze := ⟨count, opkg.toNat, oc.toNat, n⟩
      ∃ u, exec i s = .next u ∧ u = { s with cores := u.cores, dbg := { s.dbg with freeze := some z } }
        ∧ ∀ c, s.corePresent c = true → (u.core c).recorder.freezeDue = some z)
    ∧ (action ≠ 3 → action ≠ 2 → r.frozen = none → r.capture = none → r.ring.length ≤ 4094 → ∃ u a b, exec i s = .next u ∧ u = { s with cores := u.cores }
      ∧ (u.core core).recorder = { r with ring := r.ring ++ [a, b], capture := if action = 1 then some count else none, backlog := r.queued s.cycle + 2, backAt := s.cycle }
      ∧ a.toNat / 2 ^ 124 = 8 ∧ a.toNat / 2 ^ 40 % 2 ^ 32 = s.cycle % 2 ^ 32 ∧ b.toNat / 2 ^ 124 = 9 ∧ b.toNat % 2 ^ 64 = n % 2 ^ 64)
    ∧ ∀ k t, action = 2 → s.attached part = true → s.tasksOn part (· == core) = [t] → s.keyOf? t.gtid = some k → s.taskAt k = t → t.stopped = false →
      ∃ u, exec i s = .next u ∧ u.mem = s.mem ∧ if s.atBoundary t = true then (u.taskAt k).stopped = true ∧ (u.taskAt k).pc = t.pc
        else u.taskAt k = t ∧ u.dbg.stops.length = s.dbg.stops.length + 1)
  ∧ (∀ (s : State) (core p : Nat),
    (s.sampleDue core = none → exec (.issueSample core) s = .next s)
    ∧ (s.sampleDue core = some p → ∃ u, exec (.issueSample core) s = .next u ∧ u = { s with cores := u.cores } ∧ (u.core core).samples = s.cycle + 1
      ∧ if 4 ≤ (s.core core).recorder.queued s.cycle then (u.core core).recorder = { (s.core core).recorder with dropped := (s.core core).recorder.dropped + 1 }
        else ∃ w, (u.core core).recorder = (s.core core).recorder.put s.cycle w ∧ w.toNat / 2 ^ 124 = 1 ∧ w.toNat / 2 ^ 40 % 2 ^ 32 = s.cycle % 2 ^ 32))
  ∧ (∀ (s : State) (core : Nat), (s.freezeDueAt core = none → exec (.freezeArrival core) s = .next s)
    ∧ ∀ z, s.freezeDueAt core = some z → ∃ u tr, exec (.freezeArrival core) s = .next u ∧ u.mem = s.mem ∧ u.slots = s.slots ∧ tr.length = 10
      ∧ (z.opkg ≠ s.pkgNo.toNat ∨ z.ocore ≠ core → u = { s with cores := u.cores })
      ∧ (u.core core).recorder = { (s.core core).recorder with freezeDue := none, frozen := some tr })
  ∧ (∀ (s : State) (z : Freeze), s.dbg.freeze = some z → if (∃ e ∈ s.cores, e.2.recorder.freezeDue ≠ none) then exec .ringGather s = .next s
    else s.dbg.tephra = none → ∃ u t, exec .ringGather s = .next u ∧ u.dbg.freeze = none ∧ u.dbg.tephra = some t ∧ t.origin = z.cycle ∧ t.pkg = z.opkg ∧ t.ocore = z.ocore
      ∧ t.cause = z.cause ∧ t.fwver = s.fwver ∧ u.mem = s.mem ∧ u.slots = s.slots ∧ (∀ e ∈ u.cores, e.2.recorder.frozen = none)
      ∧ ∀ e ∈ s.cores, ∀ tr, e.2.recorder.frozen = some tr → ∃ c ∈ t.cores, c.core = e.1 ∧ c.ring = e.2.recorder.ring ∧ c.trailer = tr)
  ∧ ∀ (s : State) (session part c : Nat) (id : BitVec 32) (x : Session), mapGet s.sessions session = some x → x.waiting = [(part, c, id)] →
    exec (.waitForEventTimeout session part) s = .next (if s.cycle < c + 100 * 1700000 then s else
      { s with sessions := mapSet s.sessions session { x with waiting := [] }, replies := s.replies ++ [{ session := session, code := 0x20D, status := 0, part := part, id := id }] })

/-! ### Firmware services -/

/-- 18:R281, 20:R310, R311, 25:R366, 05:R94: the services that report or set a partition's policy, its trap segments, its counters, its translation, its deadlines, its
groups and its held tasks. Each gives the call code 0x00 and its result, or 0x02 for an argument it does not take and 0x03 where it refuses, and then changes nothing.
The model's choices it rests on: assumptions 68, 105. -/
def Obligations.PartitionServices : Prop :=
  ∀ (s : State) (arg : Word) (p : Partition),
    let part := s.task.part
    let a := arg.toNat
    let bad (c : Nat) : Out := .next (s.served s c 0)
    let set (q : Partition) : Out := .next (s.served (s.putPart part q) 0 0)
    s.partOf? part = some p →
    (s.calls 0x00 arg → exec .fwver s = if arg = 0 then .next (s.served s 0 (s.fwver % 2 ^ 32)) else bad 2)
    ∧ (s.calls 0x05 arg → exec .time s = if arg = 0 then .next (s.served s 0 s.cycle) else bad 2)
    ∧ (s.calls 0x06 arg → exec .hdmbase s = if 2 ≤ a then bad 2 else
        let r := ((s.hl.hdm.toList[a]?).getD 0).toNat
        .next (s.served s 0 (r % 2 ^ 9 + r / 2 ^ 30 % 2 ^ 20 * 2 ^ 22)))
    ∧ (s.calls 0x01 arg → exec .setpol s = if a < 2 then set { p with polNext := a == 1 } else bad 2)
    ∧ (s.calls 0x02 arg → exec .donate s = if a < 2 then set { p with donateNext := a == 1 } else bad 2)
    ∧ (s.calls 0x03 arg → let x := s.task.getG (BitVec.ofNat 3 a)
      if 8 ≤ a ∨ ((segOf x).space ≠ 1 ∧ (segOf x).space ≠ 4) then exec .settvseg s = bad 2
      else ∃ v, exec .settvseg s = .next (s.served v 0 0) ∧ v = { s with slots := v.slots, slotTv := v.slotTv } ∧ ∀ k ∈ State.slotsOf p, match mapGet s.slots k with
        | none => (mapGet v.slotTv k).map (·.2) = some x
        | some u => mapGet v.slots k = some (if u.inHandler then { u with tvNext := some x } else { u with tr := { u.tr with vseg := x } }))
    ∧ (s.calls 0x04 arg → if arg ≠ 0 then exec .termclrall s = bad 2 else ∃ v, exec .termclrall s = .next (s.served v 0 0) ∧ v = { s with counters := v.counters }
      ∧ ∀ q c, c < 1024 → let k := s.counts q c
        if q = part ∧ k.clearedAt ≠ some s.cycle then (v.counts q c).terms = (if k.addedAt = s.cycle then k.added else []) ∧ (v.counts q c).added = []
          ∧ { v.counts q c with terms := k.terms, added := k.added, clearedAt := k.clearedAt } = k
        else v.counts q c = k)
    ∧ (s.calls 0x10 arg → exec .setlease s = if 1 ≤ a ∧ a ≤ 1000 then set { p with lease := a, dir := p.dir.map fun d => (d.1, d.2.raise a) } else bad 2)
    ∧ (s.calls 0x11 arg → exec .setptroot s = if a % 65536 = 0 ∧ a < 2 ^ 39 ∧ s.granuleWorld a = p.world ∧ s.sealedOff a = false then set { p with ptroot := a } else bad 2)
    ∧ (s.calls 0x12 arg → if 12 ≤ a % 4096 then exec .setfring s = bad 2 else ∃ v, exec .setfring s = .next (s.served v 0 0)
      ∧ (v.partOf? part).bind (·.fring) = some a ∧ v.slots = s.slots ∧ (s.mmu.faults = [] → v = s.putPart part { p with fring := some a }))
    ∧ (s.calls 0x13 arg → exec .setdeadline s = if 1 ≤ a ∧ a ≤ 1000 then set { p with deadline := a } else bad 2)
    ∧ (s.calls 0x14 arg → exec .collgrp s = match s.readVa part (a / 4096 * 4096) 4096 with
      | some b => if a / 2 ^ 8 % 16 = 0 then set { p with groups := mapSet p.groups (a % 256) (State.groupList b 512) } else bad 2
      | none => bad 2)
    ∧ (s.calls 0x15 arg → ∀ x, s.running? part arg = some x → ∀ c, s.coreOfTask part arg = some c → exec .preempt s = if x.gang.isSome then bad 3 else
        .next (s.served { s with cald := { s.cald with preempts := s.cald.preempts ++ [⟨part, c, s.cycle, true, [arg], []⟩] } } 0 0))
    ∧ (s.calls 0x16 arg → (∀ v, (p.saved.find? fun v => v.gtid == arg && v.byCaldera && v.hold) = some v → exec .requeue s = .next (s.served
        { s.putPart part { p with saved := p.saved.map fun x => if x.gtid == arg then { x with hold := false } else x } with
          cald := { s.cald with work := s.cald.work ++ [{ part := part, prio := v.task.prio, requeued := true, since := s.cycle, work := .saved arg }] } } 0 0))
      ∧ ((∀ v ∈ p.saved, v.gtid = arg → v.byCaldera = false ∨ v.hold = false) → s.cald.preempts = [] → exec .requeue s = bad 2))

/-- 21:R331 to R336, 20:R318, 18:R281: the services of capsules and of the step queue. An image that a check refuses gives 0x03 with the check's number; one that is
installed has its text in the arena. A reference is taken and dropped by queue, with the reasons of 21:R331.
The model's choices it rests on: assumptions 15, 17, 28, 92. -/
def Obligations.CapsuleServices : Prop :=
  ∀ (s : State) (arg : Word) (p : Partition),
    let part := s.task.part
    let a := arg.toNat
    let bad (c r : Nat) : Out := .next (s.served s c r)
    s.partOf? part = some p →
    (s.calls 0x17 arg → ∀ b, s.readVa part a 320 = some b →
      let n (o k : Nat) : Nat := leNat ((b.drop o).take k)
      let k := Packet.read b
      let schedOk := (p.capsules.find? fun c => c.capid == k.capid).any fun c => c.entries.any fun e => e.off == n 256 4 && !e.bound
      n 260 4 = 0 → n 277 3 = 0 → n 304 16 = 0 → 1 ≤ n 272 4 → n 272 4 ≤ 2 ^ 24 → 12 ≤ n 276 1 → n 276 1 ≤ 21 → n 264 8 % 2 ^ n 276 1 = 0 → n 280 8 % 4096 < 12 →
      n 288 8 % 4096 < 12 → n 296 8 % 4096 = 0 → k.serial = false → k.doneaddr = 0 → s.packetStatus part 0 k = 1 → schedOk = true →
      if p.stepq.isSome then exec .stepcfg s = bad 3 0 else ∃ v x id, exec .stepcfg s = .next (s.served v 0 0) ∧ v.stepq? part = some x ∧ x.root = b.take 256 ∧ x.sched = n 256 4
        ∧ x.pool = n 264 8 ∧ x.npages = n 272 4 ∧ x.pglog = n 276 1 ∧ x.adm = n 280 8 ∧ x.cring = n 288 8 ∧ x.plarea = n 296 8 ∧ x.stepno = 0 ∧ x.desc = [] ∧ x.used = []
        ∧ x.phase = .running id ∧ v.cald.launches.length = s.cald.launches.length + 1 ∧ v.mem = s.mem)
    ∧ (s.calls 0x40 arg → (a % 4096 ≠ 0 → exec .capinst s = bad 2 0) ∧ (a % 4096 = 0 → a < 2 ^ 52 → ∀ b, s.readImage part a = some b → match s.installCheck p b with
      | .error r => exec .capinst s = bad 3 r
      | .ok c => ∃ v, exec .capinst s = .next (s.served v 0 c.code) ∧ v.partOf? part = some { p with
          capsules := p.capsules ++ [c], deleted := mapErase p.deleted c.capid, supCap := some (p.supCap.getD c.capid) }
        ∧ v.mem = memWrite s.mem c.base (Image.bytes c.image (Image.read c.image).text)))
    ∧ (s.calls 0x41 arg → ∀ c, s.capsule? part (a % 2 ^ 40) = some c → a < 2 ^ 44 →
      let q := a / 2 ^ 40 % 8
      exec .capref s =
        if arg.getLsbD 43 = true then (if c.refs.getLsbD q = true then .next (s.served (s.modCapsule part (a % 2 ^ 40) fun c => c.dropRef q) 0 0) else bad 3 10)
        else if c.code = 4 then bad 3 6 else if c.refs.getLsbD q = true then bad 3 10
        else .next (s.served (s.modCapsule part (a % 2 ^ 40) fun c => { c with refs := c.refs ||| ((1 : BitVec 8) <<< q) }) 0 0))
    ∧ (s.calls 0x42 arg → (s.capsule? part a = none → exec .capdel s = if (mapGet p.deleted a).isSome = true then bad 3 6 else bad 2 0) ∧ ∀ c, s.capsule? part a = some c → exec .capdel s =
        if c.code ≠ 4 then bad 3 6 else if s.capLive part a = true then bad 3 7 else if s.savedOf part a ≠ 0 then bad 3 8
        else .next (s.served (s.putPart part { p with
          capsules := p.capsules.filter fun x => x.capid != a, deleted := mapSet p.deleted a c.bodygen, supCap := p.supCap.filter (· != a) }) 0 0))
    ∧ (s.calls 0x43 arg → (s.capsule? part a = none → exec .capstat s = match mapGet p.deleted a with
        | some g => bad 0 (5 + g % 2 ^ 28 * 2 ^ 28)
        | none => bad 2 0) ∧ ∀ c, s.capsule? part a = some c →
        exec .capstat s = bad 0 (c.code + c.refs.toNat * 2 ^ 4 + min (s.savedOf part a) 65535 * 2 ^ 12 + c.bodygen % 2 ^ 28 * 2 ^ 28))
    ∧ (s.calls 0x44 arg → ((∀ v ∈ p.saved, v.gtid ≠ arg) → exec .ctxdrop s = bad 2 0) ∧ ∀ v, (p.saved.find? fun v => v.gtid == arg) = some v →
        ∃ u, exec .ctxdrop s = .next (s.served u 0 0) ∧ (u.partOf? part).map (·.saved) = some (p.saved.filter fun x => x.gtid != arg)
          ∧ (∀ w ∈ u.cald.work, w.work ≠ .saved arg) ∧ u.slots = s.slots)
    ∧ (s.calls 0x45 arg → ∀ b c v, s.readVa part a 16 = some b → s.capsule? part (leNat (b.take 8)) = some c →
        let to_ := leNat (b.drop 8)
        to_ % 4096 = 0 → to_ + 2 ^ 26 ≤ 2 ^ 52 → s.writeVa part to_ (s.exported c) = some v →
        exec .capexp s = .next (s.served { v with freeCtr := v.freeCtr + 1 } 0 (s.exported c).length))

/-- 23:R349, R352, R353, R356, R359, R360: the trust services. A key is unwrapped into the lowest free handle, whose number carries its world and a serial of that world; a dropped handle names nothing
any more; a first domain descriptor begins a join with the lowest member as coordinator, and so does another list; a package that leaves tells every joined member; a page that is rebuilt reads zero and is poisoned no more.
The model's choices it rests on: assumptions 65, 101. -/
def Obligations.TrustServices : Prop :=
  ∀ (s : State) (arg : Word) (p : Partition),
    let part := s.task.part
    let a := arg.toNat
    let bad (c : Nat) : Out := .next (s.served s c 0)
    let set (q : Partition) : Out := .next (s.served (s.putPart part q) 0 0)
    let free (i : Nat) : Prop := ∀ k, mapGet p.keys i = some k → k.dropped = true
    let live (k : KeyHandle) : Prop := mapGet p.keys (a % 256) = some k ∧ k.dropped = false ∧ a = a % 256 + k.serial % 2 ^ 20 * 2 ^ 8 + p.world.toNat * 2 ^ 28
    s.partOf? part = some p →
    (s.calls 0x60 arg → ∀ b, s.readVa part a 64 = some b →
      let n (o k : Nat) : Nat := leNat ((b.drop o).take k)
      (Crypto.unwrap (s.worldKey p.world "wrap") (b.take 40) = none → exec .keyload s = bad 2)
      ∧ ∀ key, Crypto.unwrap (s.worldKey p.world "wrap") (b.take 40) = some key → n 40 1 < 8 → n 41 3 = 0 → n 48 16 = 0 →
        ((∀ i, i < 256 → ¬ free i) → exec .keyload s = bad 3)
        ∧ ∀ i, i < 256 → free i → (∀ j, j < i → ¬ free j) → let serial := (mapGet s.keySerials p.world.toNat).getD 0
          exec .keyload s = .next (s.served { s.putPart part { p with
              keys := mapSet p.keys i { serial := serial % 2 ^ 20, key := key, use := BitVec.ofNat 3 (n 40 1), fixed := (b.drop 44).take 4 } } with
            keySerials := mapSet s.keySerials p.world.toNat (serial + 1) } 0 (i + serial % 2 ^ 20 * 2 ^ 8 + p.world.toNat * 2 ^ 28)))
    ∧ (s.calls 0x61 arg → (∀ k, live k → exec .keydrop s = set { p with keys := mapSet p.keys (a % 256) { k with dropped := true } })
      ∧ ((∀ k, ¬ live k) → exec .keydrop s = bad 2))
    ∧ (s.calls 0x62 arg → (∀ k, live k → exec .keyctr s = .next (s.served s 0 k.counter)) ∧ ((∀ k, ¬ live k) → exec .keyctr s = bad 2))
    ∧ (s.calls 0x63 arg → ∀ h l, s.readVa part a 64 = some h →
      let n (o k : Nat) : Nat := leNat ((h.drop o).take k)
      let ms := State.memberList l (n 4 4)
      n 0 2 ≠ 0 → n 2 2 = 0 → 2 ≤ n 4 4 → n 4 4 ≤ 524288 → n 56 8 = 0 → s.readVa part (a + 64) (8 * n 4 4) = some l → State.rising ms = true → (∀ m ∈ ms, m < 2 ^ 19) →
      s.pkgNo.toNat ∈ ms →
      (s.domainAt part = none → ∃ d, exec .domset s = set { p with domain := some d } ∧ d.id = n 0 2 ∧ d.members = ms ∧ d.coord = ms.headD 0 ∧ d.joined = [s.pkgNo.toNat]
        ∧ d.st = .joining ∧ d.gen = 0)
      ∧ ∀ k d, s.domainAt part = some (k, d) → if d.id ≠ n 0 2 then exec .domset s = bad 3
        else ∃ v e, exec .domset s = .next (s.served v 0 0) ∧ (v.partOf? k).bind (·.domain) = some e ∧ e.id = d.id ∧ e.members = ms ∧ e.coord = if ms = d.members then d.coord else ms.headD 0)
    ∧ (s.calls 0x64 arg → (s.domainAt part = none → exec .domleave s = bad 2) ∧ ∀ k d, s.domainAt part = some (k, d) → if d.id ≠ a then exec .domleave s = bad 2
        else ∃ v, exec .domleave s = .next (s.served v 0 0) ∧ (v.partOf? k).bind (·.domain) = none
          ∧ v = { s with parts := v.parts, net := { s.net with out := v.net.out } }
          ∧ (s.domain? k = some d → v.net.out.length = s.net.out.length + (d.joined.filter (· != s.pkgNo.toNat)).length))
    ∧ (s.calls 0x65 arg → (a = 0 ∨ 65536 ≤ a → exec .domstat s = bad 2) ∧ (1 ≤ a → a < 65536 → (s.domainAt part = none → exec .domstat s = bad 0)
      ∧ ∀ k d, s.domainAt part = some (k, d) → exec .domstat s = if d.id ≠ a then bad 0 else
          .next (s.served s 0 ((if d.st = .joining then 1 else if d.st = .opened then 3 else 2) + d.gen % 2 ^ 16 * 2 ^ 8 + d.joined.length % 2 ^ 24 * 2 ^ 24))))
    ∧ (s.calls 0x66 arg → (a % 4096 ≠ 0 → exec .pgrebuild s = bad 2) ∧ (2 ^ 52 ≤ a → exec .pgrebuild s = bad 2)
      ∧ ∀ x, s.memOk → a % 4096 = 0 → a < 2 ^ 52 → s.walkRange part a 2 4096 = .ok [x] → x.len = 4096 → s.closed part [x] = false →
      ∃ v, exec .pgrebuild s = .next (s.served v 0 0) ∧ v.poison = s.poison.filter (· != x.addr / 4096) ∧ v.slots = s.slots
        ∧ ∀ b, memGet v.mem b = if x.addr ≤ b ∧ b < x.addr + 4096 then 0 else memGet s.mem b)

/-! ### The debugger, the host and management -/

/-- 27:R375 to R386, R390 to R393: the debug requests. Outside a secured session each is refused with status 0x03, and one with an op of no row has 0x01; a session attaches to one partition; an attached session of the partition's world sets and
clears breakpoints and watchpoints, stops, steps and lets tasks go, reads the registers of a stopped or saved task and writes those of a stopped one, reads tile memory, sends triggers, sets the sample period, zeroes delay accumulators,
and takes stop records; a session that ends leaves nothing attached.
The model's choices it rests on: assumptions 70, 71, 72. -/
def Obligations.DebugRequests : Prop :=
  (∀ (s : State) (h : DebugHead) (part x y z n : Nat) (g : Word) (m : BitVec 5) (o : BitVec 32) (d : BitVec 4) (e : BitVec 2) (v : BitVec 128),
    let all := [(1, part, Instr.debugAttach h part), (2, part, .debugDetach h part), (3, part, .setBreakpoint h part x y o g z d e),
      (4, part, .setWatchpoint h part x y z n z m g y d e), (5, part, .debugStop h part g), (5, part, .debugGo h part g), (5, part, .debugStep h part g),
      (5, part, .debugStopCluster h part g), (5, part, .debugGoCluster h part g), (5, part, .debugStopPartition h part), (6, part, .readRegister h part g x y),
      (7, part, .writeRegister h part g x y v), (8, part, .readTileMemory h part x y z), (9, part, .sendTrigger h part x y z), (10, part, .setSamplePeriod h part x),
      (11, part, .zeroDelayAccumulators h part x), (12, part, .readLiveRing h part x), (13, part, .waitForEvent h part), (14, 0, .readTephra h x), (15, 0, .releaseTephra h)]
    (mapGet s.sessions h.session = none → ∀ i ∈ all, exec i.2.2 s = .next (s.debugReply h.session i.2.1 h.id (0x200 + i.1) 3 []))
    ∧ ∀ y op, mapGet s.sessions h.session = some y → h.other = some op → ∀ i ∈ all, exec i.2.2 s = .next (s.debugReply h.session i.2.1 h.id (0x200 + op.toNat) 1 []))
  ∧ (∀ (s : State) (h : DebugHead) (part : Nat) (x : Session) (p : Partition), mapGet s.sessions h.session = some x → x.phase = .secured → h.other = none → s.partOf? part = some p →
    p.world = x.world → exec (.debugAttach h part) s = .next (
      if (p.dbg.session = none ∨ p.dbg.session = some h.session) ∧ ∀ e ∈ s.parts, e.1 ≠ part → e.2.dbg.session ≠ some h.session then
        (s.putPart part { p with dbg := { p.dbg with session := some h.session } }).debugReply h.session part h.id 0x201 0 []
      else s.debugReply h.session part h.id 0x201 3 []))
  ∧ (∀ (s : State) (h : DebugHead) (part : Nat) (p : Partition), s.debugs h.session part p → h.other = none →
    let answer (v : State) (op st : Nat) (data : List Byte) : Out := .next (v.debugReply h.session part h.id (0x200 + op) st data)
    let with_ (d : PartDebug) : State := s.putPart part { p with dbg := d }
    (∃ u r, exec (.debugDetach h part) s = .next u ∧ u.replies = s.replies ++ [r] ∧ r.status = 0 ∧ u.mem = s.mem
      ∧ (u.partOf? part).map (fun q => (q.dbg.session, q.dbg.records, q.dbg.stops)) = some (none, [], [])
      ∧ ∀ k t, mapGet s.slots k = some t → t.part = part → t.gtid ∈ p.dbg.stops → (u.taskAt k).stopped = false)
    ∧ (∀ b capid off g action id ta, exec (.setBreakpoint h part b capid off g action id ta) s =
        if 8 ≤ b then answer s 3 2 [] else if off = BitVec.allOnes 32 then answer (with_ { p.dbg with breaks := mapErase p.dbg.breaks b }) 3 0 []
        else if 4 < action ∨ ta = 3 then answer s 3 2 [] else answer (with_ { p.dbg with breaks := mapSet p.dbg.breaks b ⟨capid, off.toNat, g, action, id, ta⟩ }) 3 0 [])
    ∧ (∀ w kind vt a k mask g action id ta, exec (.setWatchpoint h part w kind vt a k mask g action id ta) s =
        if 4 ≤ w then answer s 4 2 [] else if mask = 0 then answer (with_ { p.dbg with watches := mapErase p.dbg.watches w }) 4 0 []
        else if kind ≤ 2 ∧ action ≤ 4 ∧ ta ≠ 3 ∧ 3 ≤ k ∧ k ≤ 12 ∧ a % 2 ^ k = 0 ∧ (kind = 2 → a + 2 ^ k ≤ 2 ^ 52) ∧ (kind ≠ 2 → (mapGet p.vmap vt).isSome = true)
            ∧ (kind = 0 → a + 2 ^ k ≤ 2 ^ 21) ∧ (kind = 1 → a + 2 ^ k ≤ 2 ^ 20) then
          answer (with_ { p.dbg with watches := mapSet p.dbg.watches w ⟨kind, vt, a, k, mask, g, action, id, ta⟩ }) 4 0 [] else answer s 4 2 [])
    ∧ (∀ g, s.running? part g = none → ∀ i ∈ [Instr.debugStop h part g, .debugGo h part g, .debugStep h part g], exec i s = answer s 5 2 [1])
    ∧ (∀ g k t, s.running? part g = some t → s.keyOf? g = some k → mapGet s.slots k = some t →
      let run : Run := match t.run with
        | .parked 12 .event => if ∃ a ∈ s.cald.asked, a.gtid = g then t.run else .resident
        | .parked 9 (.sc tag) => if ∃ o ∈ s.net.scOps, o.tag = tag then t.run else .resident
        | .parked _ .kept => .resident
        | .parked 12 w => .parked 12 w
        | .parked 4 w => .parked 4 w
        | _ => .resident
      let done (i : Instr) (f : Task) : Prop := ∃ u r, exec i s = .next u ∧ u.replies = s.replies ++ [r] ∧ r.status = 0 ∧ r.data = [0] ∧ u.taskAt k = f ∧ u.mem = s.mem
      (t.stopped = false → exec (.debugGo h part g) s = answer s 5 0 [2] ∧ exec (.debugStep h part g) s = answer s 5 0 [2]
        ∧ done (.debugStop h part g) t ∧ ∃ u, exec (.debugStop h part g) s = .next u
          ∧ u.dbg.stops = s.dbg.stops ++ [(coreOf k, { gtid := g, cause := cHALT_REQ, cycle := s.cycle, base := t.nissued })])
      ∧ (t.stopped = true → exec (.debugStop h part g) s = answer s 5 0 [3] ∧ done (.debugGo h part g) { t with stopped := false, stepping := false, run := run }
        ∧ done (.debugStep h part g) { t with stopped := false, stepping := true, run := run }))
    ∧ (∀ g, (s.running? part g = none → exec (.debugStopCluster h part g) s = answer s 5 2 [] ∧ exec (.debugGoCluster h part g) s = answer s 5 2 [])
      ∧ ∀ k t, s.running? part g = some t → s.keyOf? g = some k → let cl := clusterOf (coreOf k)
        ∃ u v r, exec (.debugStopCluster h part g) s = .next u ∧ u.replies = s.replies ++ [r] ∧ r.status = 0 ∧ r.id = h.id
          ∧ (∀ e ∈ s.residents part, clusterOf (coreOf e.1) = cl → e.2.stopped = false → ∃ m ∈ u.dbg.stops, m.2.gtid = e.2.gtid)
          ∧ exec (.debugGoCluster h part g) s = .next v ∧ v.replies = s.replies ++ [r]
          ∧ ∀ e ∈ s.residents part, clusterOf (coreOf e.1) = cl → mapGet s.slots e.1 = some e.2 → (v.taskAt e.1).stopped = false)
    ∧ (∃ u r, exec (.debugStopPartition h part) s = .next u ∧ u.replies = s.replies ++ [r] ∧ r.status = 0
      ∧ ∀ e ∈ s.residents part, e.2.stopped = false → ∃ m ∈ u.dbg.stops, m.2.gtid = e.2.gtid)
    ∧ (∀ g t i, (s.running? part g = some t ∧ t.stopped = true) ∨ (s.running? part g = none ∧ ∃ v, (p.saved.find? fun v => v.gtid == g) = some v ∧ v.task = t) →
      let reads (file : Nat) (x : Nat) (full : Bool) : Prop := exec (.readRegister h part g file i) s = answer s 6 0 (leBytes 16 x ++ leBytes 1 (ofBool full))
      (i < 32 → reads 0 (t.getS (BitVec.ofNat 5 i)).toNat (t.full (.s (BitVec.ofNat 5 i))) ∧ reads 1 (t.getV (BitVec.ofNat 5 i)).toNat (t.full (.v (BitVec.ofNat 5 i))))
      ∧ (i < 8 → reads 2 (t.getP (BitVec.ofNat 3 i)).toNat true ∧ reads 3 (t.getM (BitVec.ofNat 3 i)).toNat (t.full (.m (BitVec.ofNat 3 i)))
        ∧ reads 4 (t.getG (BitVec.ofNat 3 i)).toNat true)
      ∧ (∀ file x, 5 ≤ file ∨ 32 ≤ i → exec (.readRegister h part g file i) s = answer s 6 2 [] ∧ exec (.writeRegister h part g file i x) s = answer s 7 2 []))
    ∧ (∀ g t k i x, s.running? part g = some t → t.stopped = true → s.keyOf? g = some k → mapGet s.slots k = some t → 1 ≤ i → i < 32 →
      let r : Reg := BitVec.ofNat 5 i
      (∃ u, exec (.writeRegister h part g 0 i x) s = .next u ∧ (u.taskAt k).getS r = x.setWidth 64 ∧ (u.taskAt k).full (.s r) = true
        ∧ (∀ q, q ≠ r → (u.taskAt k).getS q = t.getS q) ∧ u.mem = s.mem ∧ (t.full (.s r) = false → ∀ a ∈ u.net.accs, a.owner = g → a.dst ≠ some (.s r)))
      ∧ ∃ u, exec (.writeRegister h part g 1 i x) s = .next u ∧ (u.taskAt k).getV r = x ∧ (u.taskAt k).full (.v r) = true ∧ (u.taskAt k).s = t.s ∧ u.mem = s.mem)
    ∧ (∀ vt a len, exec (.readTileMemory h part vt a len) s =
        if (mapGet p.vmap vt).isSome = true ∧ a % 8 = 0 ∧ len % 8 = 0 ∧ 8 ≤ len ∧ len ≤ 64 ∧ a + len ≤ popCount p.spBanks.toNat 16 * 2 ^ 17 then
          answer s 8 0 (memRead s.mem (spBase part vt + a) len
            ++ leBytes 1 (packFields ((List.range (len / 8)).map fun i => (1, ofBool (s.feFull (spBase part vt + a + 8 * i))))))
        else answer s 8 2 [])
    ∧ (∀ id action count, if id < 16 ∧ action < 3 ∧ count < 4096 then ∃ u, exec (.sendTrigger h part id action count) s = answer u 9 0 []
          ∧ u.agenda = s.agenda ++ p.cores.map (fun c =>
            .triggerArrival c part (BitVec.ofNat 4 id) (BitVec.ofNat 2 action) count s.pkgNo (BitVec.ofNat 10 (p.cores.headD 0)) s.cycle)
          ∧ u.slots = s.slots ∧ u.mem = s.mem ∧ (s.domainAt part = none → u = { s with agenda := u.agenda })
        else exec (.sendTrigger h part id action count) s = answer s 9 2 [])
    ∧ (∀ k, exec (.setSamplePeriod h part k) s = if 6 ≤ k ∧ k ≤ 20 then answer (with_ { p.dbg with period := k }) 10 0 [] else answer s 10 2 [])
    ∧ (∀ c, c ≠ 0xFFFF → exec (.zeroDelayAccumulators h part c) s = if c ∈ p.cores then answer (s.modCounts part c fun k => { k with delays := [] }) 11 0 [] else answer s 11 2 [])
    ∧ (∃ u, exec (.zeroDelayAccumulators h part 0xFFFF) s = .next u ∧ ∀ c ∈ p.cores, u.counts part c = { s.counts part c with delays := [] })
    ∧ (∀ c, let here : Prop := c < 1024 ∧ s.mgmt.start.dies.getLsbD (dieOf c) = true ∧ tileOf c ∉ s.mgmt.fused
      (¬ here → exec (.readLiveRing h part c) s = answer s 12 2 []) ∧ (here → ∃ u r, exec (.readLiveRing h part c) s = .next u
        ∧ u.replies = s.replies ++ [r] ∧ r.code = 0x20C ∧ u.cores = s.cores ∧ ((s.nextLms).1.isSome = true → r.status = 0 ∧ 65696 ≤ r.data.length)))
    ∧ (∀ r l, p.dbg.records = r :: l → exec (.waitForEvent h part) s = answer (with_ { p.dbg with records := l }) 13 0 (leBytes 16 r.toNat))
    ∧ (p.dbg.records = [] → ∀ x, mapGet s.sessions h.session = some x →
      exec (.waitForEvent h part) s = .next { s with sessions := mapSet s.sessions h.session { x with waiting := x.waiting ++ [(part, s.cycle, h.id)] } }))
  ∧ (∀ (s : State) (h : DebugHead) (x : Session), mapGet s.sessions h.session = some x → x.phase = .secured → h.other = none →
    let answer (v : State) (op st : Nat) (data : List Byte) : Out := .next (v.debugReply h.session 0 h.id (0x200 + op) st data)
    (s.dbg.tephra = none → ∀ c, exec (.readTephra h c) s = answer s 14 2 [])
    ∧ (∀ t sig c, s.dbg.tephra = some t → mapGet t.sigs x.world.toNat = some sig →
      let all := State.viewOf x.world t ++ sig
      exec (.readTephra h c) s = if all.length ≤ 4096 * c then answer s 14 2 [] else answer s 14 0 ((all.drop (4096 * c)).take 4096))
    ∧ exec (.releaseTephra h) s = if x.world = 0 then answer { s with dbg := { s.dbg with tephra := none } } 15 0 [] else answer s 15 3 [])
  ∧ ∀ (s : State) (session : Nat), ∃ u, exec (.debugSessionEnd session) s = .next u ∧ mapGet u.sessions session = none
    ∧ ∀ part p, u.partOf? part = some p → p.dbg.session ≠ some session

/-- 20:R309, R317, R325, 23:R341, R342, R347, R358, 25:R363, R366, R367, R369 to R371, 26:R374: what the host and the links do. A request that keeps its rules makes, ends, resizes or binds what it names and
gets status 0x01; any other gets 0x80 and changes no partition; one whose turn on the request ring has not come waits. Nothing of a destroyed partition stays, its tile memory reads zero.
The model's choices it rests on: assumptions 24, 39, 73, 76, 84, 105. -/
def Obligations.HostRequests : Prop :=
  (∀ (s : State) (r : CreateReq) (part dev weight slice die : Nat) (cores : List Nat) (w : BitVec 4) (secret : TenantSecret) (keys : List Byte),
    ∀ e ∈ [(1, Instr.createPartition r, HostRequest.create r), (2, .destroyPartition part, .destroy part), (3, .resizePartition part cores, .resize part cores),
      (4, .bindVirtualDevice part dev weight slice, .bind part dev weight slice), (6, .createWorld die w secret keys, .world die w secret keys)],
      s.ringBusy e.1 = true → exec e.2.1 s = .next { s with hl := { s.hl with queued := s.hl.queued ++ [e.2.2] } })
  ∧ (∀ (s : State) (r : CreateReq), s.ringBusy 1 = false → if s.createOk r = true then
      ∃ u p, exec (.createPartition r) s = .next u ∧ s.told u 1 1 ∧ u.partOf? r.part = some p ∧ p.cores = s.present r.cores ∧ p.slots = r.slots ∧ p.spBanks = r.spBanks ∧ p.asBanks = r.asBanks
        ∧ p.world = r.world ∧ p.lease = r.lease ∧ p.host = r.host ∧ p.vmap.map (·.1) = List.range p.vmap.length ∧ p.vmap.map (·.2) = (p.cores.map tileOf).eraseDups ∧ (∀ c ∈ r.cores, c ∈ p.cores ↔ tileOf c ∉ s.mgmt.fused) ∧ p.saved = []
        ∧ p.capacity.toList = [r.capMatrix, r.capGather, r.capCopy, r.capSfu] ∧ p.ranges.length = r.mainmem + r.tier2 ∧ (∀ q, q ≠ r.part → u.partOf? q = s.partOf? q) ∧ u.slots = s.slots
    else ∃ u, exec (.createPartition r) s = .next u ∧ s.told u 1 0x80 ∧ u.parts = s.parts ∧ u.slots = s.slots)
  ∧ (∀ (s : State) (part : Nat), s.ringBusy 2 = false → (s.partOf? part = none → ∃ u, exec (.destroyPartition part) s = .next u ∧ s.told u 2 0x80 ∧ u.parts = s.parts ∧ u.slots = s.slots)
    ∧ ∀ p, s.partOf? part = some p → ∃ u, exec (.destroyPartition part) s = .next u ∧ s.told u 2 1 ∧ u.partOf? part = none ∧ (∀ q, q ≠ part → u.partOf? q = s.partOf? q)
      ∧ (∀ e ∈ u.slots, e ∈ s.slots ∧ e.2.part ≠ part) ∧ (∀ e ∈ s.slots, e.2.part ≠ part → e ∈ u.slots)
      ∧ ∀ a, (spBase part 0 ≤ a ∧ a < spBase (part + 1) 0) ∨ (asBase part 0 ≤ a ∧ a < asBase (part + 1) 0) → memGet u.mem a = 0)
  ∧ (∀ (s : State) (part : Nat) (cores : List Nat), s.ringBusy 3 = false → (s.partOf? part = none → ∃ u, exec (.resizePartition part cores) s = .next u ∧ s.told u 3 0x80 ∧ u.parts = s.parts)
    ∧ ∀ p, s.partOf? part = some p → let cs := s.present cores
      if p.resizing ≠ none ∨ s.coresFree part cs p.slots p.spBanks p.asBanks p.world = false then
        ∃ u, exec (.resizePartition part cores) s = .next u ∧ s.told u 3 0x80 ∧ u.parts = s.parts
      else (∀ x ∈ s.cald.preempts, x.part ≠ part) → ∃ u q, exec (.resizePartition part cores) s = .next u ∧ u.partOf? part = some q ∧ u.slots = s.slots
        ∧ if ∀ c ∈ p.cores, c ∈ cs then q.cores = cs ∧ q.resizing = none ∧ s.told u 3 1
          else q.cores = p.cores ∧ q.resizing = some cs ∧ u.replies = s.replies
            ∧ (∀ c ∈ p.cores, c ∉ cs → ∃ x ∈ u.cald.preempts, x.part = part ∧ x.core = c ∧ x.gtids = [] ∧ x.hold = false)
            ∧ ∀ e ∈ s.residents part, coreOf e.1 ∈ p.cores → coreOf e.1 ∉ cs → ∀ g, s.gangOf? e.2 = some g → e.2.gang.isSome = true → ∀ m ∈ g.members,
              ∀ c ∈ p.cores, c ∈ cs → ∃ x ∈ u.cald.preempts, x.part = part ∧ x.core = c ∧ m ∈ x.gtids ∧ x.hold = false)
  ∧ (∀ (s : State) (part dev weight slice : Nat), s.ringBusy 4 = false → ∃ u, exec (.bindVirtualDevice part dev weight slice) s = .next u ∧
      if s.partOf? part ≠ none ∧ dev < 8 ∧ 1 ≤ weight ∧ weight ≤ 255 ∧ 100 ≤ slice ∧ slice ≤ 100000 then s.told u 4 1
        ∧ ∃ q, u.partOf? part = some q ∧ mapGet q.vdevs dev = some { weight := weight } ∧ q.slice = slice ∧ q.resident ≠ none
      else s.told u 4 0x80 ∧ u.parts = s.parts)
  ∧ (∀ (s : State) (die : Nat) (w : BitVec 4) (secret : TenantSecret) (keys : List Byte), s.ringBusy 6 = false → ∃ u, exec (.createWorld die w secret keys) s = .next u ∧ u.parts = s.parts ∧
      if 8 ≤ die ∨ s.mgmt.start.dies.getLsbD die = false ∨ secret.bytes.length ≠ 32
          ∨ (¬ ∃ x, mapGet s.sessions secret.session = some x ∧ x.phase = .secured ∧ x.debugger = false) ∨ (∃ e ∈ s.parts, ∃ c ∈ e.2.cores, dieOf c = die)
          ∨ (∃ x ∈ s.worlds, x.id = w ∧ ¬ (x.secret = secret.bytes ∧ x.capKeys = keys)) then s.told u 6 0x80 ∧ u.worldOf = s.worldOf ∧ u.worlds = s.worlds
      else s.told u 6 1 ∧ u.worldOf.toList[die]? = some w ∧ (∃ x ∈ u.worlds, x.id = w) ∧ (∀ x ∈ u.worlds, x.id = w → x.secret = secret.bytes ∧ x.capKeys = keys)
        ∧ (∀ x ∈ u.worlds, x.id ∈ u.worldOf.toList) ∧ ∀ e ∈ u.cores, dieOf e.1 = die → e.2.recorder = {})
  ∧ (∀ (s : State) (base : Word),
    let held (old : Word) : Prop := old ≠ 0 ∧ s.loadNat (hostBase + State.ringAt old.toNat) 8 ≠ s.loadNat (hostBase + State.ringAt old.toNat + 8) 8
    (∀ i ∈ [Instr.hlReqringWrite base, .registerWrite 0x08 base], (held s.hl.reqring ∨ 12 ≤ base.toNat % 4096 → exec i s = .next s)
      ∧ (¬ held s.hl.reqring → base.toNat % 4096 < 12 → exec i s = .next { s with hl := { s.hl with reqring := base } }))
    ∧ (∀ i ∈ [Instr.hlEvringWrite base, .registerWrite 0x10 base], (held s.hl.evring ∨ 12 ≤ base.toNat % 4096 → exec i s = .next s)
      ∧ (¬ held s.hl.evring → base.toNat % 4096 < 12 → exec i s = .next { s with hl := { s.hl with evring := base } }))
    ∧ exec (.registerWrite 0x18 base) s = .next { s with hl := { s.hl with status := s.hl.status &&& ~~~base } }
    ∧ ∀ o, o ≠ 0x08 → o ≠ 0x10 → o ≠ 0x18 → exec (.registerWrite o base) s = .next s)
  ∧ (∀ (s : State) (pa : Nat) (data : List Byte), if s.inHdm pa = true ∧ pa % 64 = 0 ∧ data.length = 64 then
      s.memOk → (∀ e ∈ s.slots, mapGet s.slots e.1 = some e.2) → ∃ u, exec (.hostOwnershipRequest pa data) s = .next u
        ∧ (∀ k t, mapGet s.slots k = some t → match t.run with
          | .parked row (.watch a n _ _ _) => u.taskAt k = if a < pa + 64 ∧ pa < a + n then
              (if t.stopped = true then { t with run := .parked row .kept } else { t with run := .resident, holdUntil := max t.holdUntil (s.cycle + 1) }) else t
          | _ => u.taskAt k = t)
        ∧ ∀ b, memGet u.mem b = if pa ≤ b ∧ b < pa + 64 then data[b - pa]?.getD 0 else memGet s.mem b
    else exec (.hostOwnershipRequest pa data) s = .next s)
  ∧ (∀ (s : State) (part link : Nat) (p : Partition), s.partOf? part = some p →
    (if p.tdisp.toList[link]? = some .run then ∃ u q, exec (.ideIntegrityFailure part link) s = .next u ∧ u.partOf? part = some q ∧ q.tdisp.toList[link]? = some .error ∧ u.mem = s.mem
        ∧ (s.hostLink? part = some link → ∀ k t, mapGet s.slots k = some t → t.gtid ∈ s.hostTraffic part → ∃ d ∈ (u.taskAt k).due, d.cause = cINTEGRITY)
        ∧ (s.hostLink? part ≠ some link → u.slots = s.slots)
      else exec (.ideIntegrityFailure part link) s = .next s)
    ∧ (link < 2 → ∀ pages, ∃ u q, exec (.lockInterface part ⟨link, pages⟩) s = .next u ∧ u.partOf? part = some q ∧ u = { s with parts := u.parts }
      ∧ if p.host.getLsbD link = true then q.tdisp.toList[link]? = some .run ∧ q.hostMarked = pages else q = p))
  ∧ (∀ (s : State) (a : Acc), s.accOf? a.tag = some a → (s.fabricLate a = false → exec (.fabricRequestTimeout a.tag) s = .next s)
    ∧ (s.fabricLate a = true → a.op.reads = true → a.waits = false → ∃ u, exec (.fabricRequestTimeout a.tag) s = .next u ∧ u.accOf? a.tag = some { a with st := .failed false } ∧ u.mem = s.mem))
  ∧ (∀ (s : State) (link peer : Nat) (up : Bool) (width : Nat),
    exec (.fabricLinkFailure link) s = .next { s with fabricUp := s.fabricUp &&& ~~~((1 : BitVec 24) <<< link) }
    ∧ (∃ u, exec (.transportLoss peer) s = .next u ∧ ∀ k p d, s.partOf? k = some p → p.domain = some d → peer ∈ d.joined → peer ≠ s.pkgNo.toNat → (∀ e ∈ s.parts, e.1 = k → e.2 = p) →
        ∃ e, (u.partOf? k).bind (·.domain) = some e ∧ peer ∉ e.joined ∧ peer ∈ e.lost)
    ∧ (link < 2 → ∃ u l, exec (.linkStateChange link up width) s = .next u ∧ s.links.toList[link]? = some l ∧ u.links.toList[link]? = some { l with up := up, width := width }
      ∧ u.slots = s.slots ∧ (up = true → width < 16 → u.hl.status.getLsbD 1 = true)))
  ∧ ∀ (s : State) (w : BitVec 4) (pa len : Nat) (data : List Byte), 1 ≤ len → backed pa = true → backed (pa + len - 1) = true →
    let mine : Prop := s.granuleWorld pa = w ∧ s.granuleWorld (pa + len - 1) = w ∧ s.sealedOff pa = false ∧ s.sealedOff (pa + len - 1) = false
    (¬ mine → ∀ kind, kind ≤ 2 → exec (.fabricRequest w kind pa len data) s = .next (s.reply 0 0x400 1 []))
    ∧ (mine → s.poisonMeets [⟨pa, len, 3⟩] = false →
      (∀ kind ∈ [0, 2], s.macMeets [⟨pa, len, 3⟩] = true → exec (.fabricRequest w kind pa len data) s = .next (s.reply 0 0x400 3 []))
      ∧ (s.macMeets [⟨pa, len, 3⟩] = false → exec (.fabricRequest w 0 pa len data) s = .next (s.reply 0 0x400 0 (memRead s.mem pa len)))
      ∧ (s.memOk → ∃ u, exec (.fabricRequest w 1 pa len data) s = .next u ∧ u.replies = s.replies ++ [{ session := 0, code := 0x400, status := 0 }]
        ∧ ∀ b, memGet u.mem b = if pa ≤ b ∧ b < pa + min len data.length then data[b - pa]?.getD 0 else memGet s.mem b)
      ∧ (s.macMeets [⟨pa, len, 3⟩] = false → ∃ u, exec (.fabricRequest w 2 pa len data) s = .next u ∧ u.replies = s.replies ++ [{ session := 0, code := 0x400, status := 0, data := leBytes len (leNat (memRead s.mem pa len)) }]
        ∧ (s.memOk → len ≤ 8 → leNat (memRead u.mem pa len)
            = amoNew (8 * len) (leNat (data.take 1)) (leNat (memRead s.mem pa len)) (leNat ((data.drop 1).take len)) (leNat ((data.drop (1 + len)).take len)) % 2 ^ (8 * len))))

/-- 29:R394 to R401, 05:R99, 23:R347, R350, 27:R389: management. A session of world 0 reads the log and clears the start record, and gives the device a new image, which is checked, written
and then activated once every task is saved; a sample moves its sensor's level, with the capacities of the pools, and at level 3 quarantines the die; recovery takes
the partitions of the world that failed; a start leaves no partition and no task, keeps host memory, and records how each step ended.
The model's choices it rests on: assumptions 15, 74, 75, 76, 84, 93, 104, 107. -/
def Obligations.ManagementEvents : Prop :=
  (∀ (s : State) (n c : Nat) (image : List Byte) (ok : Bool),
    (s.world0 n = false → exec (.logRead n c) s = .next (s.reply n 0x310 3 []) ∧ exec (.startRecordClear n) s = .next (s.reply n 0x312 3 [])
      ∧ exec (.firmwareUpdate n image ok) s = .next (s.reply n 0x320 3 []))
    ∧ exec (.startRecordRead n) s = .next (s.reply n 0x311 0 (leBytes 4 s.mgmt.start.fwver ++ leBytes 1 s.mgmt.start.kind ++ s.mgmt.start.steps.toList.flatMap (leBytes 1)
        ++ leBytes 1 s.mgmt.start.stackMask.toNat ++ leBytes 1 s.mgmt.start.dies.toNat ++ leBytes 3 s.mgmt.start.fabric.toNat ++ leBytes 13 0))
    ∧ (s.world0 n = true →
      (∃ x, exec (.logRead n c) s = .next { s with replies := s.replies ++ [x] } ∧ if s.mgmt.log.length ≤ 64 * c then x.status = 2 ∧ x.data = []
        else x.status = 0 ∧ x.data = ((s.mgmt.log.drop (64 * c)).take 64).flatMap State.LogRec.bytes)
      ∧ (∃ u, exec (.startRecordClear n) s = .next u ∧ u.mgmt.skips = 0 ∧ u.mgmt.start.steps = Vector.replicate 9 0 ∧ u.replies = s.replies ++ [{ session := n, code := 0x312, status := 0 }])
      ∧ ∃ u x, exec (.firmwareUpdate n image ok) s = .next u ∧ u.replies = s.replies ++ [x] ∧ u.parts = s.parts
        ∧ if s.mgmt.update ≠ none ∨ s.mgmt.activationDue = true ∨ s.mgmt.recoveryForm = true then x.status = 3 ∧ u.mgmt = s.mgmt
          else if image.length ≤ 2 ^ 25 ∧ Config.imageOk image = true ∧ s.mgmt.minVersion ≤ Config.imageVersion image then
            x.status = 0 ∧ u.mgmt.update = some { version := Config.imageVersion image, ok := ok } ∧ u.fwver = s.fwver
          else x.status = 2 ∧ u.mgmt.update = none))
  ∧ (∀ (s : State) (x : Update), s.mgmt.update = some x → ∃ u, exec .firmwareActivation s = .next u ∧ u.mgmt.update = none ∧ u.fwver = s.fwver ∧ u.parts = s.parts
    ∧ if x.ok = false then u.mgmt.activationDue = s.mgmt.activationDue ∧ u.mgmt.imageVer = s.mgmt.imageVer
      else u.mgmt.imageVer = x.version ∧ if s.mgmt.recoveryForm = true then u.mgmt.imageValid = true ∧ u.mgmt.startDue = true ∧ u.mgmt.nextKind = 0 else u.mgmt.activationDue = true)
  ∧ (∀ s : State, s.mgmt.update = none →
    (s.mgmt.activationDue = false → exec .firmwareActivation s = .next s)
    ∧ (s.mgmt.activationDue = true → s.mgmt.recoverDue = [] → s.dbg.freeze = none → s.building = false →
      (s.allSaved = true → ∃ u, exec .firmwareActivation s = .next u ∧ u.fwver = s.mgmt.imageVer ∧ u.mgmt.activationDue = false ∧ (∀ e ∈ u.parts, ∀ c ∈ e.2.capsules, c.st ≠ .built)
        ∧ (u.hl.id >>> 32).toNat = s.mgmt.imageVer % 65536 ∧ u.mem = s.mem)
      ∧ (s.allSaved = false → s.cald.preempts = [] → ∃ u, exec .firmwareActivation s = .next u ∧ u.fwver = s.fwver ∧ u.slots = s.slots
        ∧ ∀ part p, s.partOf? part = some p → (part, p) ∈ s.parts → ∀ c ∈ p.cores, ∃ r ∈ u.cald.preempts, r.part = part ∧ r.core = c ∧ r.hold = false ∧ r.gtids = [])))
  ∧ (∀ (s : State) (x : Sample) (old : Sensor), s.mgmt.sensors.toList[x.sensor]? = some old → old.level ≤ 3 →
    let r := State.sensorReading old x
    let level := r.2.1
    let at_ (a b c : Nat) : Nat := if c ≤ x.value then 3 else if b ≤ x.value then 2 else if a ≤ x.value then 1 else 0
    (x.sensor < 8 → level = at_ 950 1000 1050) ∧ (x.sensor = 9 → level = at_ 400 450 500)
    ∧ (x.sensor = 10 → level = if x.value < 10 then 3 else if x.value < 15 then 2 else if x.value < 20 then 1 else 0)
    ∧ (x.sensor = 8 → r.1 = (x.value :: old.recent).take 100 ∧ ∀ p ∈ [(1, 26600), (2, 28000), (3, 30000)], p.1 ≤ level ↔ p.2 * r.1.length ≤ r.1.sum)
    ∧ ∃ u new, exec (.sensorSample [x]) s = .next u ∧ u.mgmt.sensors.toList[x.sensor]? = some new ∧ level ≤ new.level ∧ new.level ≤ max level old.level ∧ u.mem = s.mem
      ∧ (∀ e ∈ u.parts, ∀ q ∈ e.2.pools, q.2.capacity = State.capacityAt q.2.created (State.dieLevel u.mgmt.sensors (q.1 / 64)))
      ∧ (level = 3 → old.level < 3 → ∀ k t, mapGet s.slots k = some t → (8 ≤ x.sensor ∨ dieOf (coreOf k) = x.sensor) →
        ∃ d ∈ (u.taskAt k).due, d.cause = if x.sensor < 8 then cTHERMAL else cPOWER_ALARM)
      ∧ (level = 3 → old.level < 3 → x.sensor < 8 → u.mgmt.barred.getLsbD x.sensor = true))
  ∧ (∀ s : State, (s.mgmt.recoverDue = [] ∨ s.dbg.freeze ≠ none → exec .recovery s = .next s)
    ∧ (s.dbg.freeze = none → ∀ w l, s.mgmt.recoverDue = some w :: l → ∃ u, exec .recovery s = .next u ∧ u.mgmt.recoverDue = l ∧ (∀ e ∈ u.parts, e.2.world ≠ w)
      ∧ ∀ part p, s.partOf? part = some p → (∀ e ∈ s.parts, e.1 = part → e.2.world ≠ w) → p.saved = [] → (∀ c ∈ p.capsules, c.joiners = []) → (∀ d ∈ p.dir, d.2.waiters = []) →
        u.partOf? part = some p)
    ∧ (s.dbg.freeze = none → ∀ l, s.mgmt.recoverDue = none :: l → s.mgmt.halted = false → ∃ u, exec .recovery s = .next u ∧ u.parts = [] ∧ u.slots = [] ∧ u.mgmt.start.kind = 1))
  ∧ (∀ (s : State),
    let ends (o : Out) (kind : Nat) (steps : List Nat) : Prop := ∃ u, o = .next u ∧ u.parts = [] ∧ u.slots = [] ∧ u.net = {} ∧ u.cald = {} ∧ u.agenda = [] ∧ u.mgmt.start.kind = kind
      ∧ u.mgmt.start.steps.toList = steps ∧ u.fwver = s.mgmt.imageVer ∧ u.replies = s.replies
      ∧ (∀ a, a < hostBase → memGet u.mem a = 0) ∧ ∀ a, hostBase ≤ a → a < 2 ^ 61 → memGet u.mem a = memGet s.mem a
    s.mgmt.skips = 0 → s.mgmt.imageValid = true → s.mgmt.update = none → ∀ cfg,
    (ends (exec (.coldStart [] { links := cfg }) s) 0 (List.replicate 9 1)
      ∧ (s.mgmt.halted = false → s.mgmt.failSteps = [] → ends (exec .warmReset s) 1 (List.replicate 9 1))
      ∧ ∀ i, 1 ≤ i → i ≤ 9 → ends (exec (.coldStart [i] { links := cfg }) s) 0 (List.replicate (i - 1) 1 ++ [2] ++ List.replicate (9 - i) 0)
        ∧ ∃ u, exec (.coldStart [i] { links := cfg }) s = .next u ∧ u.mgmt.startDue = decide (2 ≤ i ∧ i ≤ 8) ∧ u.mgmt.nextKind = (if i = 2 then 2 else 3) ∧ u.mgmt.recoveryForm = false
          ∧ u.mgmt.halted = decide (i = 1 ∨ i = 9) ∧ u.mgmt.failSteps = [i] ∧ (3 ≤ i → i ≤ 8 → u.mgmt.alts = (1 : BitVec 9) <<< (i - 1)))
    ∧ (let l := linkCfgOf cfg
      ∃ u, exec (.coldStart [] { links := cfg }) s = .next u ∧ u.mgmt.linkCfg = l ∧ u.links = l.map (fun c => { up := true, width := 16, cxl := c.cxl })
        ∧ u.hl.hdm = l.map (fun c => BitVec.ofNat 64 (c.base + c.gib)) ∧ ∀ c ∈ l.toList, c.gib = 0 ∨ regionOk c = true)
    ∧ ∀ i, 3 ≤ i → i ≤ 8 → s.mgmt.startDue = true → s.mgmt.nextKind = 3 → s.mgmt.alts = (1 : BitVec 9) <<< (i - 1) →
      ends (exec (.failedStepRestart [] []) s) 3 (List.replicate (i - 1) 1 ++ [4] ++ List.replicate (9 - i) 1)
      ∧ ends (exec (.failedStepRestart [i] []) s) 3 (List.replicate (i - 1) 1 ++ [5] ++ List.replicate (9 - i) 0)
      ∧ ∃ u, exec (.failedStepRestart [i] []) s = .next u ∧ u.mgmt.startDue = true ∧ u.mgmt.nextKind = 3 ∧ u.mgmt.skips.getLsbD (i - 1) = true)
  ∧ (∀ s : State, (s.mgmt.halted = true → exec .warmReset s = .next s)
    ∧ (s.mgmt.startDue = true → s.mgmt.nextKind = 2 → ∀ l r, ∃ u, exec (.failedStepRestart l r) s = .next u ∧ u.mgmt.start.kind = 2 ∧ u.mgmt.start.steps.toList = [1, 4, 0, 0, 0, 0, 0, 0, 0]
      ∧ u.mgmt.recoveryForm = true ∧ u.parts = [] ∧ u.slots = [] ∧ ∀ x ∈ u.links.toList, x.up = true))
  ∧ (∀ (s : State) (l : List Nat), s.mgmt.startDue = false → exec (.failedStepRestart l l) s = .next s)
  ∧ (∀ (s : State) (image : RecoveryImage), (s.mgmt.recoveryForm = false ∨ s.mgmt.update ≠ none ∨ s.mgmt.startDue = true → exec (.recoveryForm image) s = .next s)
    ∧ (s.mgmt.recoveryForm = true → s.mgmt.update = none → s.mgmt.startDue = false → ∃ u, exec (.recoveryForm image) s = .next u ∧ u.mgmt.recoveryForm = true ∧ u.parts = s.parts
      ∧ u.mgmt.update = if image.bytes.length ≤ 2 ^ 25 ∧ Config.imageOk image.bytes = true ∧ s.mgmt.minVersion ≤ Config.imageVersion image.bytes then
          some { version := Config.imageVersion image.bytes, ok := image.ok } else none)
    ∧ ∃ u, exec .powerLoss s = .next u ∧ u.parts = [] ∧ u.slots = [] ∧ u.mgmt.halted = true ∧ u.mgmt.imageValid = (s.mgmt.imageValid && s.mgmt.update.isNone)
      ∧ u.mgmt.lmsNext = s.mgmt.lmsEnd ∧ u.mgmt.retained = [])
  ∧ ∀ (s : State) (pa : Nat), exec (.uncorrectableError pa .mac) s = .next { s with macBad := insNat s.macBad (pa / 64) }
    ∧ ∀ level, ∀ f ∈ (if level = 0 then [MemError.line, .node 0] else [.node level]),
    let arena : Prop := arenaBase ≤ pa ∧ pa < arenaBase + arenaBytes ∧ ∀ x ∈ s.arenaUsed, pa < x.1 ∨ x.1 + x.2 ≤ pa
    (arena → ∃ u, exec (.uncorrectableError pa f) s = .next u ∧ u.mgmt.recoverDue = s.mgmt.recoverDue.filter Option.isSome ++ [none] ∧ pa / 4096 ∈ u.poison ∧ (s.dbg.freeze = none → u.dbg.freeze ≠ none))
    ∧ (¬ arena → ∃ u, exec (.uncorrectableError pa f) s = .next u ∧ u.mem = s.mem ∧ u.cycle = s.cycle
    ∧ (s.metFailure pa level = [] → u = { s with poison := u.poison, agenda := u.agenda })
    ∧ (∀ k t, mapGet s.slots k = some t → t.gtid ∈ s.metFailure pa level → ∃ d ∈ (u.taskAt k).due, d.cause = cUNCORRECTABLE)
    ∧ (∀ k t, mapGet s.slots k = some t → t.gtid ∉ s.metFailure pa level → u.taskAt k = t)
    ∧ u.agenda = s.agenda ++ s.parts.map (fun e => .poisonReport e.1 (pa / 64 * 64 + level % 64)) ∧ pa / 4096 ∈ u.poison ∧ (∀ x ∈ s.poison, x ∈ u.poison)
    ∧ (level = 0 → ∀ x ∈ u.poison, x ∈ s.poison ∨ x = pa / 4096))

/-! ### Attestation and trust domains -/

/-- 23:R350, R351, R353, 27:R375: the device's side of an SPDM exchange: each request moves a session from the phase before it and is answered; in any other phase it is refused and moves
nothing. The certificates, a challenge and the measurements carry both signatures and use one index each; without one they fail. A debugger shows the key of its world.
The model's choices it rests on: assumptions 15, 69. -/
def Obligations.AttestationSessions : Prop :=
  (∀ (s : State) (n : Nat), ∃ u r, exec (.getVersion n) s = .next u ∧ mapGet u.sessions n = some { phase := .version } ∧ u.replies = s.replies ++ [r] ∧ r.status = 0
    ∧ (∀ k p, u.partOf? k = some p → p.dbg.session ≠ some n) ∧ ((∀ e ∈ s.parts, e.2.dbg.session ≠ some n) → u = { s with sessions := u.sessions, replies := u.replies }))
  ∧ (∀ (s : State) (n : Nat) (x : Session), mapGet s.sessions n = some x →
    (∀ e ∈ [(SpdmPhase.version, Instr.getCapabilities n, SpdmPhase.capabilities), (.capabilities, .negotiateAlgorithms n, .algorithms),
        (.challenged, .keyExchange n, .exchanged), (.measured, .keyExchange n, .exchanged), (.exchanged, .finish n, .secured)],
      x.phase = e.1 → ∃ u r, exec e.2.1 s = .next u ∧ mapGet u.sessions n = some { x with phase := e.2.2 } ∧ u.replies = s.replies ++ [r] ∧ r.session = n ∧ r.status = 0
        ∧ u = { s with sessions := u.sessions, replies := u.replies })
    ∧ (x.phase = .algorithms → ∃ u, exec (.getCertificate n) s = .next u ∧ mapGet u.sessions n = some { x with phase := .certificate } ∧ match (s.nextLms).1 with
        | none => u.replies = s.replies ++ [{ session := n, code := 0x7F, status := 3 }]
        | some i => ∃ a e, u.replies = s.replies ++ [a] ∧ a.status = 0 ∧ u.mgmt.lmsNext = i + 1
          ∧ a.data = Config.certificates ++ e ++ leBytes 4 (Config.lmsSign i Config.certificates).length ++ Config.lmsSign i Config.certificates ∧ e.length = 96)
    ∧ (∀ e ∈ [(SpdmPhase.certificate, Instr.challenge n, SpdmPhase.challenged), (.challenged, .getMeasurements n, .measured)], x.phase = e.1 →
      ∃ u, exec e.2.1 s = .next u ∧ mapGet u.sessions n = some { x with phase := e.2.2 } ∧ match (s.nextLms).1 with
        | none => u.replies = s.replies ++ [{ session := n, code := 0x7F, status := 3 }]
        | some i => ∃ a b, u.replies = s.replies ++ [a, b] ∧ a.status = 0 ∧ b.status = 0 ∧ u.mgmt.lmsNext = i + 1 ∧ ∃ m, b.data = Config.lmsSign i m)
    ∧ (∀ e ∈ [(SpdmPhase.version, Instr.getCapabilities n), (.capabilities, .negotiateAlgorithms n), (.algorithms, .getCertificate n), (.certificate, .challenge n),
        (.challenged, .getMeasurements n), (.exchanged, .finish n)], x.phase ≠ e.1 → exec e.2 s = .next (s.reply n 0x7F 4 []))
    ∧ (x.phase ≠ .challenged → x.phase ≠ .measured → exec (.keyExchange n) s = .next (s.reply n 0x7F 4 []))
    ∧ ∀ w psk, exec (.pskExchange n w psk) s = .next (if x.phase = .algorithms ∧ (∃ y ∈ s.worlds, y.id = w) ∧ psk = s.worldKey w "dbg" then
        State.reply { s with sessions := mapSet s.sessions n { x with phase := .secured, world := w, debugger := true } } n 0x66 0 [] else s.reply n 0x7F 4 []))
  ∧ ∀ s : State, match (s.nextLms).1 with
    | none => 2 ^ 40 < s.mgmt.lmsEnd + 1024
    | some i => s.mgmt.lmsNext ≤ i ∨ s.mgmt.lmsEnd ≤ s.mgmt.lmsNext

/-- 23:R352 to R357: the barrier of a trust domain and its members. A member takes the coordinator's messages and nobody else's: it drains, says so, takes the new key, says it is ready and
goes on when the domain opens; the coordinator sends the key once every member has drained, and opens once every member is ready; members that are late are lost and the barrier starts again; a
coordinator that has no answer is succeeded by the lowest joined member; a member joins only with the measurements and the descriptor that the domain states; a message under a wrong generation
breaks its tuple. What is sent is sealed under the next number of its tuple.
The model's choices it rests on: assumptions 3, 65, 101, 103. -/
def Obligations.DomainEvents : Prop :=
  ∀ (s : State) (k : Nat) (p : Partition) (d : Domain), s.partOf? k = some p → p.domain = some d →
    let me := s.pkgNo.toNat
    let told (m : Nat) (e : Domain) : Domain := { e with sendSeq := mapSet e.sendSeq (4 * m + 3) (e.nextSeq m 3 + 1) }
    let mail (m : Nat) (c : Control) (e : Domain) : Outgoing := .message m (e.seal me m 3 5 (e.nextSeq m 3) (Config.controlPayload c))
    let next (i : Instr) (e : Domain) (out : List Outgoing) : Prop := exec i s = .next { s.putPart k { p with domain := some e } with net := { s.net with out := s.net.out ++ out } }
    let same (i : Instr) : Prop := exec i s = .next s
    let some_ (i : Instr) (q : State → Domain → Prop) : Prop := ∃ u e, exec i s = .next u ∧ (u.partOf? k).bind (·.domain) = some e ∧ q u e
    (∀ g src, (d.coord = me ∨ src ≠ d.coord → same (.barrier ⟨k, src⟩ g) ∧ same (.domOpen ⟨k, src⟩) ∧ (∀ key, same (.domainKey ⟨k, src⟩ key)) ∧ ∀ m, same (.successorMessage ⟨k, src⟩ m)))
    ∧ (∀ g, d.coord ≠ me → if d.st = .joining then next (.barrier ⟨k, d.coord⟩ g) { d with nextGen := g, since := s.cycle } []
      else if g = d.gen % 65535 + 1 then next (.barrier ⟨k, d.coord⟩ g) { d with st := .draining, nextGen := g, since := s.cycle } [] else same (.barrier ⟨k, d.coord⟩ g))
    ∧ (d.coord ≠ me → if d.st = .draining ∧ s.ownDrained k d = true then next (.drained k me) { told d.coord d with st := .drained, since := s.cycle } [mail d.coord .drained d]
      else same (.drained k me))
    ∧ (∀ m, d.coord = me → m ≠ me → m ∈ d.joined → (d.st = .draining ∨ d.st = .drained ∧ ∃ x ∈ d.joined, x ≠ me ∧ x ≠ m ∧ x ∉ d.drained) →
      next (.drained k m) { d with drained := insNat d.drained m } [])
    ∧ (∀ m, d.coord = me → m ≠ me → m ∈ d.joined → d.st = .drained → (∀ x ∈ d.joined, x ≠ me → x = m ∨ x ∈ d.drained) →
      some_ (.drained k m) fun u e => e.st = .keyed ∧ e.gen = d.nextGen ∧ e.sendSeq = [] ∧ e.recvSeq = [] ∧ e.broken = [] ∧ e.ready = [] ∧ u.mem = s.mem
        ∧ u.net.out = s.net.out ++ (d.joined.filter (· != me)).map fun x => .key x e.key)
    ∧ (∀ key, d.coord ≠ me → let anew : Prop := d.st = .opened ∧ d.keyBy ≠ d.coord
      if d.st = .drained ∨ d.st = .joining ∨ anew then some_ (.domainKey ⟨k, d.coord⟩ key) fun u e => e.st = .keyed ∧ e.key = key ∧ (anew → e.gen = 1) ∧ (¬ anew → e.gen = max 1 d.nextGen)
          ∧ e.recvSeq = [] ∧ e.broken = [] ∧ e.keyBy = d.coord ∧ u.net.out = s.net.out ++ [mail d.coord .ready { e with sendSeq := [] }] ∧ e.sendSeq = [(4 * d.coord + 3, 1)]
      else same (.domainKey ⟨k, d.coord⟩ key))
    ∧ (∀ m, d.coord = me → d.st = .keyed → m ∈ d.joined →
      ((∃ x ∈ d.joined, x ≠ me ∧ x ≠ m ∧ x ∉ d.ready) → next (.ready k m) { d with ready := insNat d.ready m } [])
      ∧ ((∀ x ∈ d.joined, x ≠ me → x = m ∨ x ∈ d.ready) → some_ (.ready k m) fun u e =>
        e = { d with st := .opened, since := s.cycle, lastBeat := s.cycle, drained := [], ready := [], sendSeq := e.sendSeq } ∧ u.mem = s.mem
        ∧ (d.joined.Nodup → u.net.out = s.net.out ++ (d.joined.filter (· != me)).map fun x => mail x .opened d)))
    ∧ (d.coord ≠ me → if d.st = .keyed then next (.domOpen ⟨k, d.coord⟩) { d with st := .opened, since := s.cycle, lastBeat := s.cycle, drained := [], ready := [], joined := d.members.filter fun m => !d.lost.contains m } []
      else same (.domOpen ⟨k, d.coord⟩))
    ∧ (s.barrierLate k = false → same (.barrierDrainTimeout k))
    ∧ (s.barrierLate k = true → some_ (.barrierDrainTimeout k) fun _ e => e.st = .draining ∧ e.nextGen = d.gen % 65535 + 1 ∧ e.drained = [] ∧ e.barrierAt = s.cycle
        ∧ ∀ m ∈ d.joined, if m = me ∨ m ∈ d.drained then m ∈ e.joined else m ∉ e.joined ∧ m ∈ e.lost)
    ∧ (if d.coord = me ∨ d.st = .joining ∨ s.cycle < d.beatSent + 250 * 1700 then same (.heartbeat k) else next (.heartbeat k) { told d.coord d with beatSent := s.cycle } [mail d.coord .heartbeat d])
    ∧ (∀ m, (d.coord = me → m ∈ d.joined → m ≠ me → next (.heartbeatReceive k m) (told m d) [mail m .heartbeat d]) ∧ (d.coord = me → m ∉ d.joined ∨ m = me → same (.heartbeatReceive k m))
      ∧ (d.coord ≠ me → m = d.coord → next (.heartbeatReceive k m) { d with lastBeat := s.cycle } []) ∧ (d.coord ≠ me → m ≠ d.coord → same (.heartbeatReceive k m)))
    ∧ (s.coordinatorGone k = false → same (.coordinatorLost k))
    ∧ (s.coordinatorGone k = true → me ∈ d.joined → some_ (.coordinatorLost k) fun _ e => e.coord ∈ d.joined ∧ e.coord ≠ d.coord ∧ (∀ m ∈ d.joined, m ≠ d.coord → e.coord ≤ m)
        ∧ d.coord ∈ e.lost ∧ d.coord ∉ e.joined)
    ∧ (∀ m, d.coord ≠ me → m ∉ d.joined ∨ m = d.coord → same (.successorMessage ⟨k, d.coord⟩ m))
    ∧ (∀ m, d.coord ≠ me → m ∈ d.joined → m ≠ d.coord → some_ (.successorMessage ⟨k, d.coord⟩ m) fun _ e => e.coord = m ∧ d.coord ∈ e.lost ∧ d.coord ∉ e.joined)
    ∧ (∀ m, s.rejoinLate k m = false → same (.successorJoinTimeout k m))
    ∧ (∀ m, s.rejoinLate k m = true → some_ (.successorJoinTimeout k m) fun _ e => m ∉ e.joined ∧ m ∈ e.lost)
    ∧ (∀ l, d.coord ≠ me → same (.domainJoin k l))
    ∧ (∀ l : List JoinReport, d.coord = me → d.rejoin = none → d.st = .joining → some_ (.domainJoin k l) fun u e => e.st = .opened ∧ e.gen = 1 ∧ e.id = d.id ∧ e.recvSeq = [] ∧ u.slots = s.slots
        ∧ (∀ m, m ∈ e.joined ↔ m ∈ d.joined ∨ ∃ r ∈ l, r.member = m ∧ m ≠ me ∧ m ∈ d.members ∧ 8 ≤ r.answered ∧ r.meas = d.meas ∧ r.digest = d.digest)
        ∧ ∀ m ∈ e.joined, m ≠ me → .key m e.key ∈ u.net.out)
    ∧ ∀ b, let x := State.nonceOf (leNat (b.take 12))
      let n := 16 * (leNat ((b.drop 13).take 1))
      let kind := leNat ((b.drop 12).take 1)
      let key := 4 * x.src + x.ch
      let well : Prop := b.length = 32 + n ∧ n ≤ 256 ∧ leNat ((b.drop 14).take 2) = d.id ∧ x.dst = me ∧ x.src ∈ d.members ∧ key ∉ d.broken
      let opens := Crypto.gcmOpen d.key (b.take 12) (b.take 16) ((b.drop 16).take n) (b.drop (16 + n))
      let taken := { d with recvSeq := mapSet d.recvSeq key (x.seq + 1) }
      (¬ well → same (.domainMessageReceive k b))
      ∧ (well → x.gen ≠ d.gen ∨ opens = none ∨ x.seq ≠ (mapGet d.recvSeq key).getD 0 →
        some_ (.domainMessageReceive k b) fun u e => key ∈ e.broken ∧ u.mem = s.mem)
      ∧ (well → x.gen = d.gen → x.seq = (mapGet d.recvSeq key).getD 0 → ∀ pt, opens = some pt →
        (kind < 3 → some_ (.domainMessageReceive k b) fun u e => mapGet e.recvSeq key = some (x.seq + 1) ∧ e.broken = d.broken ∧ u.slots = s.slots
          ∧ (x.src ≠ me → ∃ m, .message x.src m ∈ u.net.out))
        ∧ (kind = 3 ∨ kind = 4 → next (.domainMessageReceive k b) { taken with early := mapMod d.early key 0 fun n => n + 1 } [])
        ∧ (5 ≤ kind → Config.controlOf pt = none → next (.domainMessageReceive k b) taken []))

/-! ### Encodings, steps, reset, memory -/

/-- 10:R158 to R170, 03:R49: every well-formed encoded instruction has words, of one, two or three in number, and the decoder reads exactly
it from their bytes, whatever follows; and what the decoder reads from any bytes is well formed and encodes to the words it read, but for
bits 23 and 24 of the first, where an empty-behaviour bit beside an unused field is ignored: no other bit of an encoding is dropped.
The model's choices it rests on: assumption 42. -/
def Obligations.EncodingRoundTrip : Prop :=
  (∀ i : Instr, i.wf = true → (encode i).length ∈ [1, 2, 3]
    ∧ ∀ rest, decode (bytesOfWords (encode i) ++ rest) = .ok (i, 4 * (encode i).length))
  ∧ ∀ bs i n, decode bs = .ok (i, n) → i.wf = true ∧ n ≤ bs.length
    ∧ ∃ x y r, encode i = x :: r ∧ wordsOfBytes (bs.take n) = y :: r ∧ ∀ k, k ≠ 23 → k ≠ 24 → x.getLsbD k = y.getLsbD k

/-- 10:R158, R166, R168, R171, 11:R193, R194, 12:R198, R206, R212, 13:R227, R234, R235, 14:R238, R255, 18:R278, R280: words the spec
writes out, read by the decoder. A word of page 1 and one of an unassigned major are illegal; a set field that an entry leaves unused is
reserved; a type it does not take is FORMAT. -/
def Obligations.DecodeWords : Prop :=
  let w (nbits x : Nat) (i : Instr) : Prop := decodeTableWord nbits x = some i
  let r (x : Nat) (e : DecErr) : Prop := decode (leBytes 12 x) = .error e
  w 32 0x00000804 .nop ∧ w 32 0x00200520 (.addi ⟨.w32, 5, 0, false, .i13 4⟩) ∧ w 32 0xFFE8A50C (.loop .w32 5 false 0x1FFD)
  ∧ w 32 0x0020E714 (.add ⟨.w32, 7, 7, false, .reg 8 false⟩ false false) ∧ w 32 0x00005008 (.call 5 ⟨0, false⟩)
  ∧ w 96 0x00000010000000002601_0817 (.sext ⟨.w96 ⟨0, false⟩, 8, 8, false, .lit 16⟩)
  ∧ w 32 0x0848878C (.ldD64 ⟨.w32, ⟨1, 4, false, true, .i8 8⟩, 7, ⟨0, false, 0⟩, false⟩)
  ∧ w 64 0x318000020020_49BA (.qld ⟨.w64 ⟨2, false⟩, ⟨4, 2, false, false, .i8 0⟩, 9, false, ⟨2, false, 0⟩, 1, 3⟩)
  ∧ w 64 0xAAA40000000000FA (.fmt 0xAAA40000)
  ∧ w 64 0x8000C0C00020086A (.cvt ⟨.w64 ⟨0, false⟩, 0x0C, 8, 0, false, 0, some 12, 8, 0, false⟩)
  ∧ w 64 0x10001000000800C6 (.amoD64 ⟨.w64 ⟨0, false⟩, ⟨1, 0, false, false, .i8 0⟩, 0, false, ⟨0, false, 0⟩, 0, 1, 1, false⟩)
  ∧ w 32 0x100807C8 (.fork .w32 ⟨1, 0, false, false, .i8 16⟩ 7) ∧ w 32 0x000C40E0 (.tcmd .w32 2 false 3 false)
  ∧ w 32 0x021845EC (.stoptest ⟨.w32, 5, 2, false, 6, false⟩) ∧ w 32 0x0000A0F0 (.trap .w32 5)
  ∧ w 32 0x041483F0 (.gwrite .w32 3 4 false 5 false) ∧ w 64 0x10000000061006F2 (.ctxsaveTile (.w64 ⟨0, false⟩) 6 4)
  ∧ r 0x00000001 .illegalOpcode ∧ r 0x000000FC .illegalOpcode ∧ r 0x00000110 .reservedField ∧ r 0x71800002002049BA .reservedField
  ∧ r 0x000000C00118A466 .format

/-- 00:R5: the byte of a value's bits 8i + 7 to 8i stands at the i-th address, lowest first; a value reads back as it was stored; and the
words of an instruction stand in ascending order, the one with its length bits first. -/
def Obligations.ByteOrder : Prop :=
  (∀ (m : Mem) (a n x : Nat), Mem.wf m = true →
    (∀ i, i < n → (memGet (memPut m a n x) (a + i)).toNat = x / 2 ^ (8 * i) % 256) ∧ memNat (memPut m a n x) a n = x % 2 ^ (8 * n))
  ∧ (∀ ws, wordsOfBytes (bytesOfWords ws) = ws)
  ∧ ∀ i : Instr, i.wf = true → ∃ b r, bytesOfWords (encode i) = b :: r
    ∧ (encode i).length = if b.toNat % 4 = 2 then 2 else if b.toNat % 4 = 3 then 3 else 1

/-- 10:R158, R170, 17:R266, R272, 02:R36 to R40: where nothing is on the agenda, the cycle's arrivals are over, no policy change is due and a slot has the turn, whose
task has no firmware call and no trap outstanding, one step performs the instruction that the bytes at its pc decode to, in the state with the
issue accounted for; bytes that the decoder refuses raise that refusal's cause, and a pc past the text, or an instruction cut off by its
end, FETCH_BOUND. An instruction that finds a register empty parks without an issue (assumption 2). An encoded well-formed instruction
placed where the step after reset fetches is so performed (assumption 33).
The model's choices it rests on: assumptions 2, 33. -/
def Obligations.StepRunsDecoded : Prop :=
  let run (s : State) (key : Nat) (f : State → Out) : Out := if s.nextPick = some (.parks key) then f (s.at_ key) else f ((s.at_ key).issued key)
  (∀ (s : State) (key : Nat) (c : Capsule), s.agenda = [] → s.turn < 2048 → s.frameChange = false → s.nextPick = some (.slot key) ∨ s.nextPick = some (.parks key) →
    let t := s.taskAt key
    let bytes := s.codeBytes t c t.pc.toNat
    let bound := State.codeBoundOf t c
    t.fwCall = none → t.due = [] → s.codeOf? t = some c →
    (t.codeBase = none → t.codeBound = none → bound = c.len ∧ bytes = memRead s.mem (c.base + t.pc.toNat) (min 12 (c.len - t.pc.toNat)))
    ∧ (t.pc.toNat < bound → s.breakHits t c.capid t.pc.toNat = [] →
      (∀ i n, decode bytes = .ok (i, n) → step s = run s key (exec i))
      ∧ ∀ e, e ≠ .short → decode bytes = .error e → step s = run s key (fun u => .next (u.trapC e.cause)))
    ∧ (bound ≤ t.pc.toNat ∨ decode bytes = .error .short → step s = run s key (fun u => .next (u.trap { cause := cFETCH_BOUND, addr := u.task.pc }))))
  ∧ (∀ s : State, s.agenda = [] → 2048 ≤ s.turn → (∀ f ∈ s.arrivals, s.outcome f = none) → step s = step { s with turn := 0 })
  ∧ ∀ i : Instr, i.wf = true → let s := State.reset.withText (bytesOfWords (encode i))
    (s.nextPick = some (.slot 0) ∨ s.nextPick = some (.parks 0)) ∧ step s = run s 0 (exec i)

/-- 29:R400, 06:R104, assumptions 1, 8: the machine after a complete cold start: no partition, no task, no world, no session; every byte of
memory reads 0 and every word's bit is full; every start step done. Its step advances the cycle and nothing else.
The model's choices it rests on: assumptions 1, 8. -/
def Obligations.ResetState : Prop :=
  let s := State.reset
  s.memOk ∧ s.parts = [] ∧ s.slots = [] ∧ s.deques = [] ∧ s.worlds = [] ∧ s.sessions = []
  ∧ (∀ a, memGet s.mem a = 0 ∧ s.feFull a = true) ∧ s.mgmt.start.steps.toList = List.replicate 9 1
  ∧ step s = .next { s with cycle := 1, turn := 2048 }

/-- Assumption 8: a step keeps memory's canonical form, whatever it performs: addresses strictly rising, and no listed byte equal to what
an unlisted one reads as. Equal memories are then equal data.
The model's choices it rests on: assumption 8. -/
def Obligations.MemoryStaysCanonical : Prop := ∀ s t : State, s.memOk → step s = .next t → t.memOk
end

