-- ==== Sys2Proof/Laws/State.lean ====
section
/-! SUPPORT. What each plain update of the state and of a task leaves alone, field by field, so that no proof unfolds a record
update. -/

namespace Sys2Proof.Machine

namespace State

variable (s : State)


@[simp] theorem setTask_agenda (x : Task) : (s.setTask x).agenda = s.agenda := rfl
@[simp] theorem setTask_cur (x : Task) : (s.setTask x).cur = s.cur := rfl
@[simp] theorem setTask_turn (x : Task) : (s.setTask x).turn = s.turn := rfl
@[simp] theorem setTask_cycle (x : Task) : (s.setTask x).cycle = s.cycle := rfl
@[simp] theorem setTask_freeCtr (x : Task) : (s.setTask x).freeCtr = s.freeCtr := rfl
@[simp] theorem setTask_tagCtr (x : Task) : (s.setTask x).tagCtr = s.tagCtr := rfl
@[simp] theorem setTask_pkgNo (x : Task) : (s.setTask x).pkgNo = s.pkgNo := rfl
@[simp] theorem setTask_fwver (x : Task) : (s.setTask x).fwver = s.fwver := rfl
@[simp] theorem setTask_worldOf (x : Task) : (s.setTask x).worldOf = s.worldOf := rfl
@[simp] theorem setTask_mem (x : Task) : (s.setTask x).mem = s.mem := rfl
@[simp] theorem setTask_feEmpty (x : Task) : (s.setTask x).feEmpty = s.feEmpty := rfl
@[simp] theorem setTask_poison (x : Task) : (s.setTask x).poison = s.poison := rfl
@[simp] theorem setTask_cores (x : Task) : (s.setTask x).cores = s.cores := rfl
@[simp] theorem setTask_deques (x : Task) : (s.setTask x).deques = s.deques := rfl
@[simp] theorem setTask_counters (x : Task) : (s.setTask x).counters = s.counters := rfl
@[simp] theorem setTask_slotTv (x : Task) : (s.setTask x).slotTv = s.slotTv := rfl
@[simp] theorem setTask_tiles (x : Task) : (s.setTask x).tiles = s.tiles := rfl
@[simp] theorem setTask_vtiles (x : Task) : (s.setTask x).vtiles = s.vtiles := rfl
@[simp] theorem setTask_parts (x : Task) : (s.setTask x).parts = s.parts := rfl
@[simp] theorem setTask_net (x : Task) : (s.setTask x).net = s.net := rfl
@[simp] theorem setTask_mmu (x : Task) : (s.setTask x).mmu = s.mmu := rfl
@[simp] theorem setTask_cald (x : Task) : (s.setTask x).cald = s.cald := rfl
@[simp] theorem setTask_worlds (x : Task) : (s.setTask x).worlds = s.worlds := rfl
@[simp] theorem setTask_hl (x : Task) : (s.setTask x).hl = s.hl := rfl
@[simp] theorem setTask_links (x : Task) : (s.setTask x).links = s.links := rfl
@[simp] theorem setTask_fabricUp (x : Task) : (s.setTask x).fabricUp = s.fabricUp := rfl
@[simp] theorem setTask_granules (x : Task) : (s.setTask x).granules = s.granules := rfl
@[simp] theorem setTask_ethUp (x : Task) : (s.setTask x).ethUp = s.ethUp := rfl
@[simp] theorem setTask_sessions (x : Task) : (s.setTask x).sessions = s.sessions := rfl
@[simp] theorem setTask_dbg (x : Task) : (s.setTask x).dbg = s.dbg := rfl
@[simp] theorem setTask_mgmt (x : Task) : (s.setTask x).mgmt = s.mgmt := rfl
@[simp] theorem setTask_replies (x : Task) : (s.setTask x).replies = s.replies := rfl

@[simp] theorem putTask_agenda (k : Nat) (x : Task) : (s.putTask k x).agenda = s.agenda := rfl
@[simp] theorem putTask_cur (k : Nat) (x : Task) : (s.putTask k x).cur = s.cur := rfl
@[simp] theorem putTask_turn (k : Nat) (x : Task) : (s.putTask k x).turn = s.turn := rfl
@[simp] theorem putTask_cycle (k : Nat) (x : Task) : (s.putTask k x).cycle = s.cycle := rfl
@[simp] theorem putTask_freeCtr (k : Nat) (x : Task) : (s.putTask k x).freeCtr = s.freeCtr := rfl
@[simp] theorem putTask_tagCtr (k : Nat) (x : Task) : (s.putTask k x).tagCtr = s.tagCtr := rfl
@[simp] theorem putTask_pkgNo (k : Nat) (x : Task) : (s.putTask k x).pkgNo = s.pkgNo := rfl
@[simp] theorem putTask_fwver (k : Nat) (x : Task) : (s.putTask k x).fwver = s.fwver := rfl
@[simp] theorem putTask_worldOf (k : Nat) (x : Task) : (s.putTask k x).worldOf = s.worldOf := rfl
@[simp] theorem putTask_mem (k : Nat) (x : Task) : (s.putTask k x).mem = s.mem := rfl
@[simp] theorem putTask_feEmpty (k : Nat) (x : Task) : (s.putTask k x).feEmpty = s.feEmpty := rfl
@[simp] theorem putTask_poison (k : Nat) (x : Task) : (s.putTask k x).poison = s.poison := rfl
@[simp] theorem putTask_cores (k : Nat) (x : Task) : (s.putTask k x).cores = s.cores := rfl
@[simp] theorem putTask_deques (k : Nat) (x : Task) : (s.putTask k x).deques = s.deques := rfl
@[simp] theorem putTask_counters (k : Nat) (x : Task) : (s.putTask k x).counters = s.counters := rfl
@[simp] theorem putTask_slotTv (k : Nat) (x : Task) : (s.putTask k x).slotTv = s.slotTv := rfl
@[simp] theorem putTask_tiles (k : Nat) (x : Task) : (s.putTask k x).tiles = s.tiles := rfl
@[simp] theorem putTask_vtiles (k : Nat) (x : Task) : (s.putTask k x).vtiles = s.vtiles := rfl
@[simp] theorem putTask_parts (k : Nat) (x : Task) : (s.putTask k x).parts = s.parts := rfl
@[simp] theorem putTask_net (k : Nat) (x : Task) : (s.putTask k x).net = s.net := rfl
@[simp] theorem putTask_mmu (k : Nat) (x : Task) : (s.putTask k x).mmu = s.mmu := rfl
@[simp] theorem putTask_cald (k : Nat) (x : Task) : (s.putTask k x).cald = s.cald := rfl
@[simp] theorem putTask_worlds (k : Nat) (x : Task) : (s.putTask k x).worlds = s.worlds := rfl
@[simp] theorem putTask_hl (k : Nat) (x : Task) : (s.putTask k x).hl = s.hl := rfl
@[simp] theorem putTask_links (k : Nat) (x : Task) : (s.putTask k x).links = s.links := rfl
@[simp] theorem putTask_fabricUp (k : Nat) (x : Task) : (s.putTask k x).fabricUp = s.fabricUp := rfl
@[simp] theorem putTask_granules (k : Nat) (x : Task) : (s.putTask k x).granules = s.granules := rfl
@[simp] theorem putTask_ethUp (k : Nat) (x : Task) : (s.putTask k x).ethUp = s.ethUp := rfl
@[simp] theorem putTask_sessions (k : Nat) (x : Task) : (s.putTask k x).sessions = s.sessions := rfl
@[simp] theorem putTask_dbg (k : Nat) (x : Task) : (s.putTask k x).dbg = s.dbg := rfl
@[simp] theorem putTask_mgmt (k : Nat) (x : Task) : (s.putTask k x).mgmt = s.mgmt := rfl
@[simp] theorem putTask_replies (k : Nat) (x : Task) : (s.putTask k x).replies = s.replies := rfl

@[simp] theorem at_agenda (k : Nat) : (s.at_ k).agenda = s.agenda := rfl
@[simp] theorem at_turn (k : Nat) : (s.at_ k).turn = s.turn := rfl
@[simp] theorem at_cycle (k : Nat) : (s.at_ k).cycle = s.cycle := rfl
@[simp] theorem at_freeCtr (k : Nat) : (s.at_ k).freeCtr = s.freeCtr := rfl
@[simp] theorem at_tagCtr (k : Nat) : (s.at_ k).tagCtr = s.tagCtr := rfl
@[simp] theorem at_pkgNo (k : Nat) : (s.at_ k).pkgNo = s.pkgNo := rfl
@[simp] theorem at_fwver (k : Nat) : (s.at_ k).fwver = s.fwver := rfl
@[simp] theorem at_worldOf (k : Nat) : (s.at_ k).worldOf = s.worldOf := rfl
@[simp] theorem at_mem (k : Nat) : (s.at_ k).mem = s.mem := rfl
@[simp] theorem at_feEmpty (k : Nat) : (s.at_ k).feEmpty = s.feEmpty := rfl
@[simp] theorem at_poison (k : Nat) : (s.at_ k).poison = s.poison := rfl
@[simp] theorem at_slots (k : Nat) : (s.at_ k).slots = s.slots := rfl
@[simp] theorem at_cores (k : Nat) : (s.at_ k).cores = s.cores := rfl
@[simp] theorem at_deques (k : Nat) : (s.at_ k).deques = s.deques := rfl
@[simp] theorem at_counters (k : Nat) : (s.at_ k).counters = s.counters := rfl
@[simp] theorem at_slotTv (k : Nat) : (s.at_ k).slotTv = s.slotTv := rfl
@[simp] theorem at_tiles (k : Nat) : (s.at_ k).tiles = s.tiles := rfl
@[simp] theorem at_vtiles (k : Nat) : (s.at_ k).vtiles = s.vtiles := rfl
@[simp] theorem at_parts (k : Nat) : (s.at_ k).parts = s.parts := rfl
@[simp] theorem at_net (k : Nat) : (s.at_ k).net = s.net := rfl
@[simp] theorem at_mmu (k : Nat) : (s.at_ k).mmu = s.mmu := rfl
@[simp] theorem at_cald (k : Nat) : (s.at_ k).cald = s.cald := rfl
@[simp] theorem at_worlds (k : Nat) : (s.at_ k).worlds = s.worlds := rfl
@[simp] theorem at_hl (k : Nat) : (s.at_ k).hl = s.hl := rfl
@[simp] theorem at_links (k : Nat) : (s.at_ k).links = s.links := rfl
@[simp] theorem at_fabricUp (k : Nat) : (s.at_ k).fabricUp = s.fabricUp := rfl
@[simp] theorem at_granules (k : Nat) : (s.at_ k).granules = s.granules := rfl
@[simp] theorem at_ethUp (k : Nat) : (s.at_ k).ethUp = s.ethUp := rfl
@[simp] theorem at_sessions (k : Nat) : (s.at_ k).sessions = s.sessions := rfl
@[simp] theorem at_dbg (k : Nat) : (s.at_ k).dbg = s.dbg := rfl
@[simp] theorem at_mgmt (k : Nat) : (s.at_ k).mgmt = s.mgmt := rfl
@[simp] theorem at_replies (k : Nat) : (s.at_ k).replies = s.replies := rfl

@[simp] theorem modCore_agenda (k : Nat) (f : Core → Core) : (s.modCore k f).agenda = s.agenda := rfl
@[simp] theorem modCore_cur (k : Nat) (f : Core → Core) : (s.modCore k f).cur = s.cur := rfl
@[simp] theorem modCore_turn (k : Nat) (f : Core → Core) : (s.modCore k f).turn = s.turn := rfl
@[simp] theorem modCore_cycle (k : Nat) (f : Core → Core) : (s.modCore k f).cycle = s.cycle := rfl
@[simp] theorem modCore_freeCtr (k : Nat) (f : Core → Core) : (s.modCore k f).freeCtr = s.freeCtr := rfl
@[simp] theorem modCore_tagCtr (k : Nat) (f : Core → Core) : (s.modCore k f).tagCtr = s.tagCtr := rfl
@[simp] theorem modCore_pkgNo (k : Nat) (f : Core → Core) : (s.modCore k f).pkgNo = s.pkgNo := rfl
@[simp] theorem modCore_fwver (k : Nat) (f : Core → Core) : (s.modCore k f).fwver = s.fwver := rfl
@[simp] theorem modCore_worldOf (k : Nat) (f : Core → Core) : (s.modCore k f).worldOf = s.worldOf := rfl
@[simp] theorem modCore_mem (k : Nat) (f : Core → Core) : (s.modCore k f).mem = s.mem := rfl
@[simp] theorem modCore_feEmpty (k : Nat) (f : Core → Core) : (s.modCore k f).feEmpty = s.feEmpty := rfl
@[simp] theorem modCore_poison (k : Nat) (f : Core → Core) : (s.modCore k f).poison = s.poison := rfl
@[simp] theorem modCore_slots (k : Nat) (f : Core → Core) : (s.modCore k f).slots = s.slots := rfl
@[simp] theorem modCore_deques (k : Nat) (f : Core → Core) : (s.modCore k f).deques = s.deques := rfl
@[simp] theorem modCore_counters (k : Nat) (f : Core → Core) : (s.modCore k f).counters = s.counters := rfl
@[simp] theorem modCore_slotTv (k : Nat) (f : Core → Core) : (s.modCore k f).slotTv = s.slotTv := rfl
@[simp] theorem modCore_tiles (k : Nat) (f : Core → Core) : (s.modCore k f).tiles = s.tiles := rfl
@[simp] theorem modCore_vtiles (k : Nat) (f : Core → Core) : (s.modCore k f).vtiles = s.vtiles := rfl
@[simp] theorem modCore_parts (k : Nat) (f : Core → Core) : (s.modCore k f).parts = s.parts := rfl
@[simp] theorem modCore_net (k : Nat) (f : Core → Core) : (s.modCore k f).net = s.net := rfl
@[simp] theorem modCore_mmu (k : Nat) (f : Core → Core) : (s.modCore k f).mmu = s.mmu := rfl
@[simp] theorem modCore_cald (k : Nat) (f : Core → Core) : (s.modCore k f).cald = s.cald := rfl
@[simp] theorem modCore_worlds (k : Nat) (f : Core → Core) : (s.modCore k f).worlds = s.worlds := rfl
@[simp] theorem modCore_hl (k : Nat) (f : Core → Core) : (s.modCore k f).hl = s.hl := rfl
@[simp] theorem modCore_links (k : Nat) (f : Core → Core) : (s.modCore k f).links = s.links := rfl
@[simp] theorem modCore_fabricUp (k : Nat) (f : Core → Core) : (s.modCore k f).fabricUp = s.fabricUp := rfl
@[simp] theorem modCore_granules (k : Nat) (f : Core → Core) : (s.modCore k f).granules = s.granules := rfl
@[simp] theorem modCore_ethUp (k : Nat) (f : Core → Core) : (s.modCore k f).ethUp = s.ethUp := rfl
@[simp] theorem modCore_sessions (k : Nat) (f : Core → Core) : (s.modCore k f).sessions = s.sessions := rfl
@[simp] theorem modCore_dbg (k : Nat) (f : Core → Core) : (s.modCore k f).dbg = s.dbg := rfl
@[simp] theorem modCore_mgmt (k : Nat) (f : Core → Core) : (s.modCore k f).mgmt = s.mgmt := rfl
@[simp] theorem modCore_replies (k : Nat) (f : Core → Core) : (s.modCore k f).replies = s.replies := rfl

@[simp] theorem modTile_agenda (k : Nat) (f : Tile → Tile) : (s.modTile k f).agenda = s.agenda := rfl
@[simp] theorem modTile_cur (k : Nat) (f : Tile → Tile) : (s.modTile k f).cur = s.cur := rfl
@[simp] theorem modTile_turn (k : Nat) (f : Tile → Tile) : (s.modTile k f).turn = s.turn := rfl
@[simp] theorem modTile_cycle (k : Nat) (f : Tile → Tile) : (s.modTile k f).cycle = s.cycle := rfl
@[simp] theorem modTile_freeCtr (k : Nat) (f : Tile → Tile) : (s.modTile k f).freeCtr = s.freeCtr := rfl
@[simp] theorem modTile_tagCtr (k : Nat) (f : Tile → Tile) : (s.modTile k f).tagCtr = s.tagCtr := rfl
@[simp] theorem modTile_pkgNo (k : Nat) (f : Tile → Tile) : (s.modTile k f).pkgNo = s.pkgNo := rfl
@[simp] theorem modTile_fwver (k : Nat) (f : Tile → Tile) : (s.modTile k f).fwver = s.fwver := rfl
@[simp] theorem modTile_worldOf (k : Nat) (f : Tile → Tile) : (s.modTile k f).worldOf = s.worldOf := rfl
@[simp] theorem modTile_mem (k : Nat) (f : Tile → Tile) : (s.modTile k f).mem = s.mem := rfl
@[simp] theorem modTile_feEmpty (k : Nat) (f : Tile → Tile) : (s.modTile k f).feEmpty = s.feEmpty := rfl
@[simp] theorem modTile_poison (k : Nat) (f : Tile → Tile) : (s.modTile k f).poison = s.poison := rfl
@[simp] theorem modTile_slots (k : Nat) (f : Tile → Tile) : (s.modTile k f).slots = s.slots := rfl
@[simp] theorem modTile_cores (k : Nat) (f : Tile → Tile) : (s.modTile k f).cores = s.cores := rfl
@[simp] theorem modTile_deques (k : Nat) (f : Tile → Tile) : (s.modTile k f).deques = s.deques := rfl
@[simp] theorem modTile_counters (k : Nat) (f : Tile → Tile) : (s.modTile k f).counters = s.counters := rfl
@[simp] theorem modTile_slotTv (k : Nat) (f : Tile → Tile) : (s.modTile k f).slotTv = s.slotTv := rfl
@[simp] theorem modTile_vtiles (k : Nat) (f : Tile → Tile) : (s.modTile k f).vtiles = s.vtiles := rfl
@[simp] theorem modTile_parts (k : Nat) (f : Tile → Tile) : (s.modTile k f).parts = s.parts := rfl
@[simp] theorem modTile_net (k : Nat) (f : Tile → Tile) : (s.modTile k f).net = s.net := rfl
@[simp] theorem modTile_mmu (k : Nat) (f : Tile → Tile) : (s.modTile k f).mmu = s.mmu := rfl
@[simp] theorem modTile_cald (k : Nat) (f : Tile → Tile) : (s.modTile k f).cald = s.cald := rfl
@[simp] theorem modTile_worlds (k : Nat) (f : Tile → Tile) : (s.modTile k f).worlds = s.worlds := rfl
@[simp] theorem modTile_hl (k : Nat) (f : Tile → Tile) : (s.modTile k f).hl = s.hl := rfl
@[simp] theorem modTile_links (k : Nat) (f : Tile → Tile) : (s.modTile k f).links = s.links := rfl
@[simp] theorem modTile_fabricUp (k : Nat) (f : Tile → Tile) : (s.modTile k f).fabricUp = s.fabricUp := rfl
@[simp] theorem modTile_granules (k : Nat) (f : Tile → Tile) : (s.modTile k f).granules = s.granules := rfl
@[simp] theorem modTile_ethUp (k : Nat) (f : Tile → Tile) : (s.modTile k f).ethUp = s.ethUp := rfl
@[simp] theorem modTile_sessions (k : Nat) (f : Tile → Tile) : (s.modTile k f).sessions = s.sessions := rfl
@[simp] theorem modTile_dbg (k : Nat) (f : Tile → Tile) : (s.modTile k f).dbg = s.dbg := rfl
@[simp] theorem modTile_mgmt (k : Nat) (f : Tile → Tile) : (s.modTile k f).mgmt = s.mgmt := rfl
@[simp] theorem modTile_replies (k : Nat) (f : Tile → Tile) : (s.modTile k f).replies = s.replies := rfl

@[simp] theorem modVTile_agenda (p v : Nat) (f : VTile → VTile) : (s.modVTile p v f).agenda = s.agenda := rfl
@[simp] theorem modVTile_cur (p v : Nat) (f : VTile → VTile) : (s.modVTile p v f).cur = s.cur := rfl
@[simp] theorem modVTile_turn (p v : Nat) (f : VTile → VTile) : (s.modVTile p v f).turn = s.turn := rfl
@[simp] theorem modVTile_cycle (p v : Nat) (f : VTile → VTile) : (s.modVTile p v f).cycle = s.cycle := rfl
@[simp] theorem modVTile_freeCtr (p v : Nat) (f : VTile → VTile) : (s.modVTile p v f).freeCtr = s.freeCtr := rfl
@[simp] theorem modVTile_tagCtr (p v : Nat) (f : VTile → VTile) : (s.modVTile p v f).tagCtr = s.tagCtr := rfl
@[simp] theorem modVTile_pkgNo (p v : Nat) (f : VTile → VTile) : (s.modVTile p v f).pkgNo = s.pkgNo := rfl
@[simp] theorem modVTile_fwver (p v : Nat) (f : VTile → VTile) : (s.modVTile p v f).fwver = s.fwver := rfl
@[simp] theorem modVTile_worldOf (p v : Nat) (f : VTile → VTile) : (s.modVTile p v f).worldOf = s.worldOf := rfl
@[simp] theorem modVTile_mem (p v : Nat) (f : VTile → VTile) : (s.modVTile p v f).mem = s.mem := rfl
@[simp] theorem modVTile_feEmpty (p v : Nat) (f : VTile → VTile) : (s.modVTile p v f).feEmpty = s.feEmpty := rfl
@[simp] theorem modVTile_poison (p v : Nat) (f : VTile → VTile) : (s.modVTile p v f).poison = s.poison := rfl
@[simp] theorem modVTile_slots (p v : Nat) (f : VTile → VTile) : (s.modVTile p v f).slots = s.slots := rfl
@[simp] theorem modVTile_cores (p v : Nat) (f : VTile → VTile) : (s.modVTile p v f).cores = s.cores := rfl
@[simp] theorem modVTile_deques (p v : Nat) (f : VTile → VTile) : (s.modVTile p v f).deques = s.deques := rfl
@[simp] theorem modVTile_counters (p v : Nat) (f : VTile → VTile) : (s.modVTile p v f).counters = s.counters := rfl
@[simp] theorem modVTile_slotTv (p v : Nat) (f : VTile → VTile) : (s.modVTile p v f).slotTv = s.slotTv := rfl
@[simp] theorem modVTile_tiles (p v : Nat) (f : VTile → VTile) : (s.modVTile p v f).tiles = s.tiles := rfl
@[simp] theorem modVTile_parts (p v : Nat) (f : VTile → VTile) : (s.modVTile p v f).parts = s.parts := rfl
@[simp] theorem modVTile_net (p v : Nat) (f : VTile → VTile) : (s.modVTile p v f).net = s.net := rfl
@[simp] theorem modVTile_mmu (p v : Nat) (f : VTile → VTile) : (s.modVTile p v f).mmu = s.mmu := rfl
@[simp] theorem modVTile_cald (p v : Nat) (f : VTile → VTile) : (s.modVTile p v f).cald = s.cald := rfl
@[simp] theorem modVTile_worlds (p v : Nat) (f : VTile → VTile) : (s.modVTile p v f).worlds = s.worlds := rfl
@[simp] theorem modVTile_hl (p v : Nat) (f : VTile → VTile) : (s.modVTile p v f).hl = s.hl := rfl
@[simp] theorem modVTile_links (p v : Nat) (f : VTile → VTile) : (s.modVTile p v f).links = s.links := rfl
@[simp] theorem modVTile_fabricUp (p v : Nat) (f : VTile → VTile) : (s.modVTile p v f).fabricUp = s.fabricUp := rfl
@[simp] theorem modVTile_granules (p v : Nat) (f : VTile → VTile) : (s.modVTile p v f).granules = s.granules := rfl
@[simp] theorem modVTile_ethUp (p v : Nat) (f : VTile → VTile) : (s.modVTile p v f).ethUp = s.ethUp := rfl
@[simp] theorem modVTile_sessions (p v : Nat) (f : VTile → VTile) : (s.modVTile p v f).sessions = s.sessions := rfl
@[simp] theorem modVTile_dbg (p v : Nat) (f : VTile → VTile) : (s.modVTile p v f).dbg = s.dbg := rfl
@[simp] theorem modVTile_mgmt (p v : Nat) (f : VTile → VTile) : (s.modVTile p v f).mgmt = s.mgmt := rfl
@[simp] theorem modVTile_replies (p v : Nat) (f : VTile → VTile) : (s.modVTile p v f).replies = s.replies := rfl

@[simp] theorem setDeque_agenda (p c : Nat) (l : List Task) : (s.setDeque p c l).agenda = s.agenda := rfl
@[simp] theorem setDeque_cur (p c : Nat) (l : List Task) : (s.setDeque p c l).cur = s.cur := rfl
@[simp] theorem setDeque_turn (p c : Nat) (l : List Task) : (s.setDeque p c l).turn = s.turn := rfl
@[simp] theorem setDeque_cycle (p c : Nat) (l : List Task) : (s.setDeque p c l).cycle = s.cycle := rfl
@[simp] theorem setDeque_freeCtr (p c : Nat) (l : List Task) : (s.setDeque p c l).freeCtr = s.freeCtr := rfl
@[simp] theorem setDeque_tagCtr (p c : Nat) (l : List Task) : (s.setDeque p c l).tagCtr = s.tagCtr := rfl
@[simp] theorem setDeque_pkgNo (p c : Nat) (l : List Task) : (s.setDeque p c l).pkgNo = s.pkgNo := rfl
@[simp] theorem setDeque_fwver (p c : Nat) (l : List Task) : (s.setDeque p c l).fwver = s.fwver := rfl
@[simp] theorem setDeque_worldOf (p c : Nat) (l : List Task) : (s.setDeque p c l).worldOf = s.worldOf := rfl
@[simp] theorem setDeque_mem (p c : Nat) (l : List Task) : (s.setDeque p c l).mem = s.mem := rfl
@[simp] theorem setDeque_feEmpty (p c : Nat) (l : List Task) : (s.setDeque p c l).feEmpty = s.feEmpty := rfl
@[simp] theorem setDeque_poison (p c : Nat) (l : List Task) : (s.setDeque p c l).poison = s.poison := rfl
@[simp] theorem setDeque_slots (p c : Nat) (l : List Task) : (s.setDeque p c l).slots = s.slots := rfl
@[simp] theorem setDeque_cores (p c : Nat) (l : List Task) : (s.setDeque p c l).cores = s.cores := rfl
@[simp] theorem setDeque_counters (p c : Nat) (l : List Task) : (s.setDeque p c l).counters = s.counters := rfl
@[simp] theorem setDeque_slotTv (p c : Nat) (l : List Task) : (s.setDeque p c l).slotTv = s.slotTv := rfl
@[simp] theorem setDeque_tiles (p c : Nat) (l : List Task) : (s.setDeque p c l).tiles = s.tiles := rfl
@[simp] theorem setDeque_vtiles (p c : Nat) (l : List Task) : (s.setDeque p c l).vtiles = s.vtiles := rfl
@[simp] theorem setDeque_parts (p c : Nat) (l : List Task) : (s.setDeque p c l).parts = s.parts := rfl
@[simp] theorem setDeque_net (p c : Nat) (l : List Task) : (s.setDeque p c l).net = s.net := rfl
@[simp] theorem setDeque_mmu (p c : Nat) (l : List Task) : (s.setDeque p c l).mmu = s.mmu := rfl
@[simp] theorem setDeque_cald (p c : Nat) (l : List Task) : (s.setDeque p c l).cald = s.cald := rfl
@[simp] theorem setDeque_worlds (p c : Nat) (l : List Task) : (s.setDeque p c l).worlds = s.worlds := rfl
@[simp] theorem setDeque_hl (p c : Nat) (l : List Task) : (s.setDeque p c l).hl = s.hl := rfl
@[simp] theorem setDeque_links (p c : Nat) (l : List Task) : (s.setDeque p c l).links = s.links := rfl
@[simp] theorem setDeque_fabricUp (p c : Nat) (l : List Task) : (s.setDeque p c l).fabricUp = s.fabricUp := rfl
@[simp] theorem setDeque_granules (p c : Nat) (l : List Task) : (s.setDeque p c l).granules = s.granules := rfl
@[simp] theorem setDeque_ethUp (p c : Nat) (l : List Task) : (s.setDeque p c l).ethUp = s.ethUp := rfl
@[simp] theorem setDeque_sessions (p c : Nat) (l : List Task) : (s.setDeque p c l).sessions = s.sessions := rfl
@[simp] theorem setDeque_dbg (p c : Nat) (l : List Task) : (s.setDeque p c l).dbg = s.dbg := rfl
@[simp] theorem setDeque_mgmt (p c : Nat) (l : List Task) : (s.setDeque p c l).mgmt = s.mgmt := rfl
@[simp] theorem setDeque_replies (p c : Nat) (l : List Task) : (s.setDeque p c l).replies = s.replies := rfl

@[simp] theorem modCounts_agenda (p c : Nat) (f : Counters → Counters) : (s.modCounts p c f).agenda = s.agenda := rfl
@[simp] theorem modCounts_cur (p c : Nat) (f : Counters → Counters) : (s.modCounts p c f).cur = s.cur := rfl
@[simp] theorem modCounts_turn (p c : Nat) (f : Counters → Counters) : (s.modCounts p c f).turn = s.turn := rfl
@[simp] theorem modCounts_cycle (p c : Nat) (f : Counters → Counters) : (s.modCounts p c f).cycle = s.cycle := rfl
@[simp] theorem modCounts_freeCtr (p c : Nat) (f : Counters → Counters) : (s.modCounts p c f).freeCtr = s.freeCtr := rfl
@[simp] theorem modCounts_tagCtr (p c : Nat) (f : Counters → Counters) : (s.modCounts p c f).tagCtr = s.tagCtr := rfl
@[simp] theorem modCounts_pkgNo (p c : Nat) (f : Counters → Counters) : (s.modCounts p c f).pkgNo = s.pkgNo := rfl
@[simp] theorem modCounts_fwver (p c : Nat) (f : Counters → Counters) : (s.modCounts p c f).fwver = s.fwver := rfl
@[simp] theorem modCounts_worldOf (p c : Nat) (f : Counters → Counters) : (s.modCounts p c f).worldOf = s.worldOf := rfl
@[simp] theorem modCounts_mem (p c : Nat) (f : Counters → Counters) : (s.modCounts p c f).mem = s.mem := rfl
@[simp] theorem modCounts_feEmpty (p c : Nat) (f : Counters → Counters) : (s.modCounts p c f).feEmpty = s.feEmpty := rfl
@[simp] theorem modCounts_poison (p c : Nat) (f : Counters → Counters) : (s.modCounts p c f).poison = s.poison := rfl
@[simp] theorem modCounts_slots (p c : Nat) (f : Counters → Counters) : (s.modCounts p c f).slots = s.slots := rfl
@[simp] theorem modCounts_cores (p c : Nat) (f : Counters → Counters) : (s.modCounts p c f).cores = s.cores := rfl
@[simp] theorem modCounts_deques (p c : Nat) (f : Counters → Counters) : (s.modCounts p c f).deques = s.deques := rfl
@[simp] theorem modCounts_slotTv (p c : Nat) (f : Counters → Counters) : (s.modCounts p c f).slotTv = s.slotTv := rfl
@[simp] theorem modCounts_tiles (p c : Nat) (f : Counters → Counters) : (s.modCounts p c f).tiles = s.tiles := rfl
@[simp] theorem modCounts_vtiles (p c : Nat) (f : Counters → Counters) : (s.modCounts p c f).vtiles = s.vtiles := rfl
@[simp] theorem modCounts_parts (p c : Nat) (f : Counters → Counters) : (s.modCounts p c f).parts = s.parts := rfl
@[simp] theorem modCounts_net (p c : Nat) (f : Counters → Counters) : (s.modCounts p c f).net = s.net := rfl
@[simp] theorem modCounts_mmu (p c : Nat) (f : Counters → Counters) : (s.modCounts p c f).mmu = s.mmu := rfl
@[simp] theorem modCounts_cald (p c : Nat) (f : Counters → Counters) : (s.modCounts p c f).cald = s.cald := rfl
@[simp] theorem modCounts_worlds (p c : Nat) (f : Counters → Counters) : (s.modCounts p c f).worlds = s.worlds := rfl
@[simp] theorem modCounts_hl (p c : Nat) (f : Counters → Counters) : (s.modCounts p c f).hl = s.hl := rfl
@[simp] theorem modCounts_links (p c : Nat) (f : Counters → Counters) : (s.modCounts p c f).links = s.links := rfl
@[simp] theorem modCounts_fabricUp (p c : Nat) (f : Counters → Counters) : (s.modCounts p c f).fabricUp = s.fabricUp := rfl
@[simp] theorem modCounts_granules (p c : Nat) (f : Counters → Counters) : (s.modCounts p c f).granules = s.granules := rfl
@[simp] theorem modCounts_ethUp (p c : Nat) (f : Counters → Counters) : (s.modCounts p c f).ethUp = s.ethUp := rfl
@[simp] theorem modCounts_sessions (p c : Nat) (f : Counters → Counters) : (s.modCounts p c f).sessions = s.sessions := rfl
@[simp] theorem modCounts_dbg (p c : Nat) (f : Counters → Counters) : (s.modCounts p c f).dbg = s.dbg := rfl
@[simp] theorem modCounts_mgmt (p c : Nat) (f : Counters → Counters) : (s.modCounts p c f).mgmt = s.mgmt := rfl
@[simp] theorem modCounts_replies (p c : Nat) (f : Counters → Counters) : (s.modCounts p c f).replies = s.replies := rfl

@[simp] theorem tick_agenda : (s.tick).agenda = s.agenda := rfl
@[simp] theorem tick_cur : (s.tick).cur = s.cur := rfl
@[simp] theorem tick_turn : (s.tick).turn = s.turn := rfl
@[simp] theorem tick_cycle : (s.tick).cycle = s.cycle := rfl
@[simp] theorem tick_tagCtr : (s.tick).tagCtr = s.tagCtr := rfl
@[simp] theorem tick_pkgNo : (s.tick).pkgNo = s.pkgNo := rfl
@[simp] theorem tick_fwver : (s.tick).fwver = s.fwver := rfl
@[simp] theorem tick_worldOf : (s.tick).worldOf = s.worldOf := rfl
@[simp] theorem tick_mem : (s.tick).mem = s.mem := rfl
@[simp] theorem tick_feEmpty : (s.tick).feEmpty = s.feEmpty := rfl
@[simp] theorem tick_poison : (s.tick).poison = s.poison := rfl
@[simp] theorem tick_slots : (s.tick).slots = s.slots := rfl
@[simp] theorem tick_cores : (s.tick).cores = s.cores := rfl
@[simp] theorem tick_deques : (s.tick).deques = s.deques := rfl
@[simp] theorem tick_counters : (s.tick).counters = s.counters := rfl
@[simp] theorem tick_slotTv : (s.tick).slotTv = s.slotTv := rfl
@[simp] theorem tick_tiles : (s.tick).tiles = s.tiles := rfl
@[simp] theorem tick_vtiles : (s.tick).vtiles = s.vtiles := rfl
@[simp] theorem tick_parts : (s.tick).parts = s.parts := rfl
@[simp] theorem tick_net : (s.tick).net = s.net := rfl
@[simp] theorem tick_mmu : (s.tick).mmu = s.mmu := rfl
@[simp] theorem tick_cald : (s.tick).cald = s.cald := rfl
@[simp] theorem tick_worlds : (s.tick).worlds = s.worlds := rfl
@[simp] theorem tick_hl : (s.tick).hl = s.hl := rfl
@[simp] theorem tick_links : (s.tick).links = s.links := rfl
@[simp] theorem tick_fabricUp : (s.tick).fabricUp = s.fabricUp := rfl
@[simp] theorem tick_granules : (s.tick).granules = s.granules := rfl
@[simp] theorem tick_ethUp : (s.tick).ethUp = s.ethUp := rfl
@[simp] theorem tick_sessions : (s.tick).sessions = s.sessions := rfl
@[simp] theorem tick_dbg : (s.tick).dbg = s.dbg := rfl
@[simp] theorem tick_mgmt : (s.tick).mgmt = s.mgmt := rfl
@[simp] theorem tick_replies : (s.tick).replies = s.replies := rfl

@[simp] theorem setFe_agenda (a : Nat) (b : Bool) : (s.setFe a b).agenda = s.agenda := rfl
@[simp] theorem setFe_cur (a : Nat) (b : Bool) : (s.setFe a b).cur = s.cur := rfl
@[simp] theorem setFe_turn (a : Nat) (b : Bool) : (s.setFe a b).turn = s.turn := rfl
@[simp] theorem setFe_cycle (a : Nat) (b : Bool) : (s.setFe a b).cycle = s.cycle := rfl
@[simp] theorem setFe_freeCtr (a : Nat) (b : Bool) : (s.setFe a b).freeCtr = s.freeCtr := rfl
@[simp] theorem setFe_tagCtr (a : Nat) (b : Bool) : (s.setFe a b).tagCtr = s.tagCtr := rfl
@[simp] theorem setFe_pkgNo (a : Nat) (b : Bool) : (s.setFe a b).pkgNo = s.pkgNo := rfl
@[simp] theorem setFe_fwver (a : Nat) (b : Bool) : (s.setFe a b).fwver = s.fwver := rfl
@[simp] theorem setFe_worldOf (a : Nat) (b : Bool) : (s.setFe a b).worldOf = s.worldOf := rfl
@[simp] theorem setFe_mem (a : Nat) (b : Bool) : (s.setFe a b).mem = s.mem := rfl
@[simp] theorem setFe_poison (a : Nat) (b : Bool) : (s.setFe a b).poison = s.poison := rfl
@[simp] theorem setFe_slots (a : Nat) (b : Bool) : (s.setFe a b).slots = s.slots := rfl
@[simp] theorem setFe_cores (a : Nat) (b : Bool) : (s.setFe a b).cores = s.cores := rfl
@[simp] theorem setFe_deques (a : Nat) (b : Bool) : (s.setFe a b).deques = s.deques := rfl
@[simp] theorem setFe_counters (a : Nat) (b : Bool) : (s.setFe a b).counters = s.counters := rfl
@[simp] theorem setFe_slotTv (a : Nat) (b : Bool) : (s.setFe a b).slotTv = s.slotTv := rfl
@[simp] theorem setFe_tiles (a : Nat) (b : Bool) : (s.setFe a b).tiles = s.tiles := rfl
@[simp] theorem setFe_vtiles (a : Nat) (b : Bool) : (s.setFe a b).vtiles = s.vtiles := rfl
@[simp] theorem setFe_parts (a : Nat) (b : Bool) : (s.setFe a b).parts = s.parts := rfl
@[simp] theorem setFe_net (a : Nat) (b : Bool) : (s.setFe a b).net = s.net := rfl
@[simp] theorem setFe_mmu (a : Nat) (b : Bool) : (s.setFe a b).mmu = s.mmu := rfl
@[simp] theorem setFe_cald (a : Nat) (b : Bool) : (s.setFe a b).cald = s.cald := rfl
@[simp] theorem setFe_worlds (a : Nat) (b : Bool) : (s.setFe a b).worlds = s.worlds := rfl
@[simp] theorem setFe_hl (a : Nat) (b : Bool) : (s.setFe a b).hl = s.hl := rfl
@[simp] theorem setFe_links (a : Nat) (b : Bool) : (s.setFe a b).links = s.links := rfl
@[simp] theorem setFe_fabricUp (a : Nat) (b : Bool) : (s.setFe a b).fabricUp = s.fabricUp := rfl
@[simp] theorem setFe_granules (a : Nat) (b : Bool) : (s.setFe a b).granules = s.granules := rfl
@[simp] theorem setFe_ethUp (a : Nat) (b : Bool) : (s.setFe a b).ethUp = s.ethUp := rfl
@[simp] theorem setFe_sessions (a : Nat) (b : Bool) : (s.setFe a b).sessions = s.sessions := rfl
@[simp] theorem setFe_dbg (a : Nat) (b : Bool) : (s.setFe a b).dbg = s.dbg := rfl
@[simp] theorem setFe_mgmt (a : Nat) (b : Bool) : (s.setFe a b).mgmt = s.mgmt := rfl
@[simp] theorem setFe_replies (a : Nat) (b : Bool) : (s.setFe a b).replies = s.replies := rfl

@[simp] theorem reply_agenda (n c st : Nat) (d : List Byte) : (s.reply n c st d).agenda = s.agenda := rfl
@[simp] theorem reply_cur (n c st : Nat) (d : List Byte) : (s.reply n c st d).cur = s.cur := rfl
@[simp] theorem reply_turn (n c st : Nat) (d : List Byte) : (s.reply n c st d).turn = s.turn := rfl
@[simp] theorem reply_cycle (n c st : Nat) (d : List Byte) : (s.reply n c st d).cycle = s.cycle := rfl
@[simp] theorem reply_freeCtr (n c st : Nat) (d : List Byte) : (s.reply n c st d).freeCtr = s.freeCtr := rfl
@[simp] theorem reply_tagCtr (n c st : Nat) (d : List Byte) : (s.reply n c st d).tagCtr = s.tagCtr := rfl
@[simp] theorem reply_pkgNo (n c st : Nat) (d : List Byte) : (s.reply n c st d).pkgNo = s.pkgNo := rfl
@[simp] theorem reply_fwver (n c st : Nat) (d : List Byte) : (s.reply n c st d).fwver = s.fwver := rfl
@[simp] theorem reply_worldOf (n c st : Nat) (d : List Byte) : (s.reply n c st d).worldOf = s.worldOf := rfl
@[simp] theorem reply_mem (n c st : Nat) (d : List Byte) : (s.reply n c st d).mem = s.mem := rfl
@[simp] theorem reply_feEmpty (n c st : Nat) (d : List Byte) : (s.reply n c st d).feEmpty = s.feEmpty := rfl
@[simp] theorem reply_poison (n c st : Nat) (d : List Byte) : (s.reply n c st d).poison = s.poison := rfl
@[simp] theorem reply_slots (n c st : Nat) (d : List Byte) : (s.reply n c st d).slots = s.slots := rfl
@[simp] theorem reply_cores (n c st : Nat) (d : List Byte) : (s.reply n c st d).cores = s.cores := rfl
@[simp] theorem reply_deques (n c st : Nat) (d : List Byte) : (s.reply n c st d).deques = s.deques := rfl
@[simp] theorem reply_counters (n c st : Nat) (d : List Byte) : (s.reply n c st d).counters = s.counters := rfl
@[simp] theorem reply_slotTv (n c st : Nat) (d : List Byte) : (s.reply n c st d).slotTv = s.slotTv := rfl
@[simp] theorem reply_tiles (n c st : Nat) (d : List Byte) : (s.reply n c st d).tiles = s.tiles := rfl
@[simp] theorem reply_vtiles (n c st : Nat) (d : List Byte) : (s.reply n c st d).vtiles = s.vtiles := rfl
@[simp] theorem reply_parts (n c st : Nat) (d : List Byte) : (s.reply n c st d).parts = s.parts := rfl
@[simp] theorem reply_net (n c st : Nat) (d : List Byte) : (s.reply n c st d).net = s.net := rfl
@[simp] theorem reply_mmu (n c st : Nat) (d : List Byte) : (s.reply n c st d).mmu = s.mmu := rfl
@[simp] theorem reply_cald (n c st : Nat) (d : List Byte) : (s.reply n c st d).cald = s.cald := rfl
@[simp] theorem reply_worlds (n c st : Nat) (d : List Byte) : (s.reply n c st d).worlds = s.worlds := rfl
@[simp] theorem reply_hl (n c st : Nat) (d : List Byte) : (s.reply n c st d).hl = s.hl := rfl
@[simp] theorem reply_links (n c st : Nat) (d : List Byte) : (s.reply n c st d).links = s.links := rfl
@[simp] theorem reply_fabricUp (n c st : Nat) (d : List Byte) : (s.reply n c st d).fabricUp = s.fabricUp := rfl
@[simp] theorem reply_granules (n c st : Nat) (d : List Byte) : (s.reply n c st d).granules = s.granules := rfl
@[simp] theorem reply_ethUp (n c st : Nat) (d : List Byte) : (s.reply n c st d).ethUp = s.ethUp := rfl
@[simp] theorem reply_sessions (n c st : Nat) (d : List Byte) : (s.reply n c st d).sessions = s.sessions := rfl
@[simp] theorem reply_dbg (n c st : Nat) (d : List Byte) : (s.reply n c st d).dbg = s.dbg := rfl
@[simp] theorem reply_mgmt (n c st : Nat) (d : List Byte) : (s.reply n c st d).mgmt = s.mgmt := rfl

@[simp] theorem record_agenda (k kd sub : Nat) (g : Word) (pay : Nat) : (s.record k kd sub g pay).agenda = s.agenda := rfl
@[simp] theorem record_cur (k kd sub : Nat) (g : Word) (pay : Nat) : (s.record k kd sub g pay).cur = s.cur := rfl
@[simp] theorem record_turn (k kd sub : Nat) (g : Word) (pay : Nat) : (s.record k kd sub g pay).turn = s.turn := rfl
@[simp] theorem record_cycle (k kd sub : Nat) (g : Word) (pay : Nat) : (s.record k kd sub g pay).cycle = s.cycle := rfl
@[simp] theorem record_freeCtr (k kd sub : Nat) (g : Word) (pay : Nat) : (s.record k kd sub g pay).freeCtr = s.freeCtr := rfl
@[simp] theorem record_tagCtr (k kd sub : Nat) (g : Word) (pay : Nat) : (s.record k kd sub g pay).tagCtr = s.tagCtr := rfl
@[simp] theorem record_pkgNo (k kd sub : Nat) (g : Word) (pay : Nat) : (s.record k kd sub g pay).pkgNo = s.pkgNo := rfl
@[simp] theorem record_fwver (k kd sub : Nat) (g : Word) (pay : Nat) : (s.record k kd sub g pay).fwver = s.fwver := rfl
@[simp] theorem record_worldOf (k kd sub : Nat) (g : Word) (pay : Nat) : (s.record k kd sub g pay).worldOf = s.worldOf := rfl
@[simp] theorem record_mem (k kd sub : Nat) (g : Word) (pay : Nat) : (s.record k kd sub g pay).mem = s.mem := rfl
@[simp] theorem record_feEmpty (k kd sub : Nat) (g : Word) (pay : Nat) : (s.record k kd sub g pay).feEmpty = s.feEmpty := rfl
@[simp] theorem record_poison (k kd sub : Nat) (g : Word) (pay : Nat) : (s.record k kd sub g pay).poison = s.poison := rfl
@[simp] theorem record_slots (k kd sub : Nat) (g : Word) (pay : Nat) : (s.record k kd sub g pay).slots = s.slots := rfl
@[simp] theorem record_deques (k kd sub : Nat) (g : Word) (pay : Nat) : (s.record k kd sub g pay).deques = s.deques := rfl
@[simp] theorem record_counters (k kd sub : Nat) (g : Word) (pay : Nat) : (s.record k kd sub g pay).counters = s.counters := rfl
@[simp] theorem record_slotTv (k kd sub : Nat) (g : Word) (pay : Nat) : (s.record k kd sub g pay).slotTv = s.slotTv := rfl
@[simp] theorem record_tiles (k kd sub : Nat) (g : Word) (pay : Nat) : (s.record k kd sub g pay).tiles = s.tiles := rfl
@[simp] theorem record_vtiles (k kd sub : Nat) (g : Word) (pay : Nat) : (s.record k kd sub g pay).vtiles = s.vtiles := rfl
@[simp] theorem record_parts (k kd sub : Nat) (g : Word) (pay : Nat) : (s.record k kd sub g pay).parts = s.parts := rfl
@[simp] theorem record_net (k kd sub : Nat) (g : Word) (pay : Nat) : (s.record k kd sub g pay).net = s.net := rfl
@[simp] theorem record_mmu (k kd sub : Nat) (g : Word) (pay : Nat) : (s.record k kd sub g pay).mmu = s.mmu := rfl
@[simp] theorem record_cald (k kd sub : Nat) (g : Word) (pay : Nat) : (s.record k kd sub g pay).cald = s.cald := rfl
@[simp] theorem record_worlds (k kd sub : Nat) (g : Word) (pay : Nat) : (s.record k kd sub g pay).worlds = s.worlds := rfl
@[simp] theorem record_hl (k kd sub : Nat) (g : Word) (pay : Nat) : (s.record k kd sub g pay).hl = s.hl := rfl
@[simp] theorem record_links (k kd sub : Nat) (g : Word) (pay : Nat) : (s.record k kd sub g pay).links = s.links := rfl
@[simp] theorem record_fabricUp (k kd sub : Nat) (g : Word) (pay : Nat) : (s.record k kd sub g pay).fabricUp = s.fabricUp := rfl
@[simp] theorem record_granules (k kd sub : Nat) (g : Word) (pay : Nat) : (s.record k kd sub g pay).granules = s.granules := rfl
@[simp] theorem record_ethUp (k kd sub : Nat) (g : Word) (pay : Nat) : (s.record k kd sub g pay).ethUp = s.ethUp := rfl
@[simp] theorem record_sessions (k kd sub : Nat) (g : Word) (pay : Nat) : (s.record k kd sub g pay).sessions = s.sessions := rfl
@[simp] theorem record_dbg (k kd sub : Nat) (g : Word) (pay : Nat) : (s.record k kd sub g pay).dbg = s.dbg := rfl
@[simp] theorem record_mgmt (k kd sub : Nat) (g : Word) (pay : Nat) : (s.record k kd sub g pay).mgmt = s.mgmt := rfl
@[simp] theorem record_replies (k kd sub : Nat) (g : Word) (pay : Nat) : (s.record k kd sub g pay).replies = s.replies := rfl

@[simp] theorem recordSched_agenda (k sub row : Nat) (g : Word) : (s.recordSched k sub row g).agenda = s.agenda := rfl
@[simp] theorem recordSched_cur (k sub row : Nat) (g : Word) : (s.recordSched k sub row g).cur = s.cur := rfl
@[simp] theorem recordSched_turn (k sub row : Nat) (g : Word) : (s.recordSched k sub row g).turn = s.turn := rfl
@[simp] theorem recordSched_cycle (k sub row : Nat) (g : Word) : (s.recordSched k sub row g).cycle = s.cycle := rfl
@[simp] theorem recordSched_freeCtr (k sub row : Nat) (g : Word) : (s.recordSched k sub row g).freeCtr = s.freeCtr := rfl
@[simp] theorem recordSched_tagCtr (k sub row : Nat) (g : Word) : (s.recordSched k sub row g).tagCtr = s.tagCtr := rfl
@[simp] theorem recordSched_pkgNo (k sub row : Nat) (g : Word) : (s.recordSched k sub row g).pkgNo = s.pkgNo := rfl
@[simp] theorem recordSched_fwver (k sub row : Nat) (g : Word) : (s.recordSched k sub row g).fwver = s.fwver := rfl
@[simp] theorem recordSched_worldOf (k sub row : Nat) (g : Word) : (s.recordSched k sub row g).worldOf = s.worldOf := rfl
@[simp] theorem recordSched_mem (k sub row : Nat) (g : Word) : (s.recordSched k sub row g).mem = s.mem := rfl
@[simp] theorem recordSched_feEmpty (k sub row : Nat) (g : Word) : (s.recordSched k sub row g).feEmpty = s.feEmpty := rfl
@[simp] theorem recordSched_poison (k sub row : Nat) (g : Word) : (s.recordSched k sub row g).poison = s.poison := rfl
@[simp] theorem recordSched_slots (k sub row : Nat) (g : Word) : (s.recordSched k sub row g).slots = s.slots := rfl
@[simp] theorem recordSched_deques (k sub row : Nat) (g : Word) : (s.recordSched k sub row g).deques = s.deques := rfl
@[simp] theorem recordSched_counters (k sub row : Nat) (g : Word) : (s.recordSched k sub row g).counters = s.counters := rfl
@[simp] theorem recordSched_slotTv (k sub row : Nat) (g : Word) : (s.recordSched k sub row g).slotTv = s.slotTv := rfl
@[simp] theorem recordSched_tiles (k sub row : Nat) (g : Word) : (s.recordSched k sub row g).tiles = s.tiles := rfl
@[simp] theorem recordSched_vtiles (k sub row : Nat) (g : Word) : (s.recordSched k sub row g).vtiles = s.vtiles := rfl
@[simp] theorem recordSched_parts (k sub row : Nat) (g : Word) : (s.recordSched k sub row g).parts = s.parts := rfl
@[simp] theorem recordSched_net (k sub row : Nat) (g : Word) : (s.recordSched k sub row g).net = s.net := rfl
@[simp] theorem recordSched_mmu (k sub row : Nat) (g : Word) : (s.recordSched k sub row g).mmu = s.mmu := rfl
@[simp] theorem recordSched_cald (k sub row : Nat) (g : Word) : (s.recordSched k sub row g).cald = s.cald := rfl
@[simp] theorem recordSched_worlds (k sub row : Nat) (g : Word) : (s.recordSched k sub row g).worlds = s.worlds := rfl
@[simp] theorem recordSched_hl (k sub row : Nat) (g : Word) : (s.recordSched k sub row g).hl = s.hl := rfl
@[simp] theorem recordSched_links (k sub row : Nat) (g : Word) : (s.recordSched k sub row g).links = s.links := rfl
@[simp] theorem recordSched_fabricUp (k sub row : Nat) (g : Word) : (s.recordSched k sub row g).fabricUp = s.fabricUp := rfl
@[simp] theorem recordSched_granules (k sub row : Nat) (g : Word) : (s.recordSched k sub row g).granules = s.granules := rfl
@[simp] theorem recordSched_ethUp (k sub row : Nat) (g : Word) : (s.recordSched k sub row g).ethUp = s.ethUp := rfl
@[simp] theorem recordSched_sessions (k sub row : Nat) (g : Word) : (s.recordSched k sub row g).sessions = s.sessions := rfl
@[simp] theorem recordSched_dbg (k sub row : Nat) (g : Word) : (s.recordSched k sub row g).dbg = s.dbg := rfl
@[simp] theorem recordSched_mgmt (k sub row : Nat) (g : Word) : (s.recordSched k sub row g).mgmt = s.mgmt := rfl
@[simp] theorem recordSched_replies (k sub row : Nat) (g : Word) : (s.recordSched k sub row g).replies = s.replies := rfl

@[simp] theorem modPart_agenda (p : Nat) (f : Partition → Partition) : (s.modPart p f).agenda = s.agenda := by unfold modPart; split <;> rfl
@[simp] theorem modPart_cur (p : Nat) (f : Partition → Partition) : (s.modPart p f).cur = s.cur := by unfold modPart; split <;> rfl
@[simp] theorem modPart_turn (p : Nat) (f : Partition → Partition) : (s.modPart p f).turn = s.turn := by unfold modPart; split <;> rfl
@[simp] theorem modPart_cycle (p : Nat) (f : Partition → Partition) : (s.modPart p f).cycle = s.cycle := by unfold modPart; split <;> rfl
@[simp] theorem modPart_freeCtr (p : Nat) (f : Partition → Partition) : (s.modPart p f).freeCtr = s.freeCtr := by unfold modPart; split <;> rfl
@[simp] theorem modPart_tagCtr (p : Nat) (f : Partition → Partition) : (s.modPart p f).tagCtr = s.tagCtr := by unfold modPart; split <;> rfl
@[simp] theorem modPart_pkgNo (p : Nat) (f : Partition → Partition) : (s.modPart p f).pkgNo = s.pkgNo := by unfold modPart; split <;> rfl
@[simp] theorem modPart_fwver (p : Nat) (f : Partition → Partition) : (s.modPart p f).fwver = s.fwver := by unfold modPart; split <;> rfl
@[simp] theorem modPart_worldOf (p : Nat) (f : Partition → Partition) : (s.modPart p f).worldOf = s.worldOf := by unfold modPart; split <;> rfl
@[simp] theorem modPart_mem (p : Nat) (f : Partition → Partition) : (s.modPart p f).mem = s.mem := by unfold modPart; split <;> rfl
@[simp] theorem modPart_feEmpty (p : Nat) (f : Partition → Partition) : (s.modPart p f).feEmpty = s.feEmpty := by unfold modPart; split <;> rfl
@[simp] theorem modPart_poison (p : Nat) (f : Partition → Partition) : (s.modPart p f).poison = s.poison := by unfold modPart; split <;> rfl
@[simp] theorem modPart_slots (p : Nat) (f : Partition → Partition) : (s.modPart p f).slots = s.slots := by unfold modPart; split <;> rfl
@[simp] theorem modPart_cores (p : Nat) (f : Partition → Partition) : (s.modPart p f).cores = s.cores := by unfold modPart; split <;> rfl
@[simp] theorem modPart_deques (p : Nat) (f : Partition → Partition) : (s.modPart p f).deques = s.deques := by unfold modPart; split <;> rfl
@[simp] theorem modPart_counters (p : Nat) (f : Partition → Partition) : (s.modPart p f).counters = s.counters := by unfold modPart; split <;> rfl
@[simp] theorem modPart_slotTv (p : Nat) (f : Partition → Partition) : (s.modPart p f).slotTv = s.slotTv := by unfold modPart; split <;> rfl
@[simp] theorem modPart_tiles (p : Nat) (f : Partition → Partition) : (s.modPart p f).tiles = s.tiles := by unfold modPart; split <;> rfl
@[simp] theorem modPart_vtiles (p : Nat) (f : Partition → Partition) : (s.modPart p f).vtiles = s.vtiles := by unfold modPart; split <;> rfl
@[simp] theorem modPart_net (p : Nat) (f : Partition → Partition) : (s.modPart p f).net = s.net := by unfold modPart; split <;> rfl
@[simp] theorem modPart_mmu (p : Nat) (f : Partition → Partition) : (s.modPart p f).mmu = s.mmu := by unfold modPart; split <;> rfl
@[simp] theorem modPart_cald (p : Nat) (f : Partition → Partition) : (s.modPart p f).cald = s.cald := by unfold modPart; split <;> rfl
@[simp] theorem modPart_worlds (p : Nat) (f : Partition → Partition) : (s.modPart p f).worlds = s.worlds := by unfold modPart; split <;> rfl
@[simp] theorem modPart_hl (p : Nat) (f : Partition → Partition) : (s.modPart p f).hl = s.hl := by unfold modPart; split <;> rfl
@[simp] theorem modPart_links (p : Nat) (f : Partition → Partition) : (s.modPart p f).links = s.links := by unfold modPart; split <;> rfl
@[simp] theorem modPart_fabricUp (p : Nat) (f : Partition → Partition) : (s.modPart p f).fabricUp = s.fabricUp := by unfold modPart; split <;> rfl
@[simp] theorem modPart_granules (p : Nat) (f : Partition → Partition) : (s.modPart p f).granules = s.granules := by unfold modPart; split <;> rfl
@[simp] theorem modPart_ethUp (p : Nat) (f : Partition → Partition) : (s.modPart p f).ethUp = s.ethUp := by unfold modPart; split <;> rfl
@[simp] theorem modPart_sessions (p : Nat) (f : Partition → Partition) : (s.modPart p f).sessions = s.sessions := by unfold modPart; split <;> rfl
@[simp] theorem modPart_dbg (p : Nat) (f : Partition → Partition) : (s.modPart p f).dbg = s.dbg := by unfold modPart; split <;> rfl
@[simp] theorem modPart_mgmt (p : Nat) (f : Partition → Partition) : (s.modPart p f).mgmt = s.mgmt := by unfold modPart; split <;> rfl
@[simp] theorem modPart_replies (p : Nat) (f : Partition → Partition) : (s.modPart p f).replies = s.replies := by unfold modPart; split <;> rfl

@[simp] theorem dirty_agenda (a n : Nat) : (s.dirty a n).agenda = s.agenda := by unfold dirty; split <;> rfl
@[simp] theorem dirty_cur (a n : Nat) : (s.dirty a n).cur = s.cur := by unfold dirty; split <;> rfl
@[simp] theorem dirty_turn (a n : Nat) : (s.dirty a n).turn = s.turn := by unfold dirty; split <;> rfl
@[simp] theorem dirty_cycle (a n : Nat) : (s.dirty a n).cycle = s.cycle := by unfold dirty; split <;> rfl
@[simp] theorem dirty_freeCtr (a n : Nat) : (s.dirty a n).freeCtr = s.freeCtr := by unfold dirty; split <;> rfl
@[simp] theorem dirty_tagCtr (a n : Nat) : (s.dirty a n).tagCtr = s.tagCtr := by unfold dirty; split <;> rfl
@[simp] theorem dirty_pkgNo (a n : Nat) : (s.dirty a n).pkgNo = s.pkgNo := by unfold dirty; split <;> rfl
@[simp] theorem dirty_fwver (a n : Nat) : (s.dirty a n).fwver = s.fwver := by unfold dirty; split <;> rfl
@[simp] theorem dirty_worldOf (a n : Nat) : (s.dirty a n).worldOf = s.worldOf := by unfold dirty; split <;> rfl
@[simp] theorem dirty_mem (a n : Nat) : (s.dirty a n).mem = s.mem := by unfold dirty; split <;> rfl
@[simp] theorem dirty_feEmpty (a n : Nat) : (s.dirty a n).feEmpty = s.feEmpty := by unfold dirty; split <;> rfl
@[simp] theorem dirty_poison (a n : Nat) : (s.dirty a n).poison = s.poison := by unfold dirty; split <;> rfl
@[simp] theorem dirty_slots (a n : Nat) : (s.dirty a n).slots = s.slots := by unfold dirty; split <;> rfl
@[simp] theorem dirty_cores (a n : Nat) : (s.dirty a n).cores = s.cores := by unfold dirty; split <;> rfl
@[simp] theorem dirty_deques (a n : Nat) : (s.dirty a n).deques = s.deques := by unfold dirty; split <;> rfl
@[simp] theorem dirty_counters (a n : Nat) : (s.dirty a n).counters = s.counters := by unfold dirty; split <;> rfl
@[simp] theorem dirty_slotTv (a n : Nat) : (s.dirty a n).slotTv = s.slotTv := by unfold dirty; split <;> rfl
@[simp] theorem dirty_tiles (a n : Nat) : (s.dirty a n).tiles = s.tiles := by unfold dirty; split <;> rfl
@[simp] theorem dirty_parts (a n : Nat) : (s.dirty a n).parts = s.parts := by unfold dirty; split <;> rfl
@[simp] theorem dirty_net (a n : Nat) : (s.dirty a n).net = s.net := by unfold dirty; split <;> rfl
@[simp] theorem dirty_mmu (a n : Nat) : (s.dirty a n).mmu = s.mmu := by unfold dirty; split <;> rfl
@[simp] theorem dirty_cald (a n : Nat) : (s.dirty a n).cald = s.cald := by unfold dirty; split <;> rfl
@[simp] theorem dirty_worlds (a n : Nat) : (s.dirty a n).worlds = s.worlds := by unfold dirty; split <;> rfl
@[simp] theorem dirty_hl (a n : Nat) : (s.dirty a n).hl = s.hl := by unfold dirty; split <;> rfl
@[simp] theorem dirty_links (a n : Nat) : (s.dirty a n).links = s.links := by unfold dirty; split <;> rfl
@[simp] theorem dirty_fabricUp (a n : Nat) : (s.dirty a n).fabricUp = s.fabricUp := by unfold dirty; split <;> rfl
@[simp] theorem dirty_granules (a n : Nat) : (s.dirty a n).granules = s.granules := by unfold dirty; split <;> rfl
@[simp] theorem dirty_ethUp (a n : Nat) : (s.dirty a n).ethUp = s.ethUp := by unfold dirty; split <;> rfl
@[simp] theorem dirty_sessions (a n : Nat) : (s.dirty a n).sessions = s.sessions := by unfold dirty; split <;> rfl
@[simp] theorem dirty_dbg (a n : Nat) : (s.dirty a n).dbg = s.dbg := by unfold dirty; split <;> rfl
@[simp] theorem dirty_mgmt (a n : Nat) : (s.dirty a n).mgmt = s.mgmt := by unfold dirty; split <;> rfl
@[simp] theorem dirty_replies (a n : Nat) : (s.dirty a n).replies = s.replies := by unfold dirty; split <;> rfl

@[simp] theorem store_agenda (a : Nat) (b : List Byte) : (s.store a b).agenda = s.agenda := by simp [store]
@[simp] theorem store_cur (a : Nat) (b : List Byte) : (s.store a b).cur = s.cur := by simp [store]
@[simp] theorem store_turn (a : Nat) (b : List Byte) : (s.store a b).turn = s.turn := by simp [store]
@[simp] theorem store_cycle (a : Nat) (b : List Byte) : (s.store a b).cycle = s.cycle := by simp [store]
@[simp] theorem store_freeCtr (a : Nat) (b : List Byte) : (s.store a b).freeCtr = s.freeCtr := by simp [store]
@[simp] theorem store_tagCtr (a : Nat) (b : List Byte) : (s.store a b).tagCtr = s.tagCtr := by simp [store]
@[simp] theorem store_pkgNo (a : Nat) (b : List Byte) : (s.store a b).pkgNo = s.pkgNo := by simp [store]
@[simp] theorem store_fwver (a : Nat) (b : List Byte) : (s.store a b).fwver = s.fwver := by simp [store]
@[simp] theorem store_worldOf (a : Nat) (b : List Byte) : (s.store a b).worldOf = s.worldOf := by simp [store]
@[simp] theorem store_feEmpty (a : Nat) (b : List Byte) : (s.store a b).feEmpty = s.feEmpty := by simp [store]
@[simp] theorem store_poison (a : Nat) (b : List Byte) : (s.store a b).poison = s.poison := by simp [store]
@[simp] theorem store_slots (a : Nat) (b : List Byte) : (s.store a b).slots = s.slots := by simp [store]
@[simp] theorem store_cores (a : Nat) (b : List Byte) : (s.store a b).cores = s.cores := by simp [store]
@[simp] theorem store_deques (a : Nat) (b : List Byte) : (s.store a b).deques = s.deques := by simp [store]
@[simp] theorem store_counters (a : Nat) (b : List Byte) : (s.store a b).counters = s.counters := by simp [store]
@[simp] theorem store_slotTv (a : Nat) (b : List Byte) : (s.store a b).slotTv = s.slotTv := by simp [store]
@[simp] theorem store_tiles (a : Nat) (b : List Byte) : (s.store a b).tiles = s.tiles := by simp [store]
@[simp] theorem store_parts (a : Nat) (b : List Byte) : (s.store a b).parts = s.parts := by simp [store]
@[simp] theorem store_net (a : Nat) (b : List Byte) : (s.store a b).net = s.net := by simp [store]
@[simp] theorem store_mmu (a : Nat) (b : List Byte) : (s.store a b).mmu = s.mmu := by simp [store]
@[simp] theorem store_cald (a : Nat) (b : List Byte) : (s.store a b).cald = s.cald := by simp [store]
@[simp] theorem store_worlds (a : Nat) (b : List Byte) : (s.store a b).worlds = s.worlds := by simp [store]
@[simp] theorem store_hl (a : Nat) (b : List Byte) : (s.store a b).hl = s.hl := by simp [store]
@[simp] theorem store_links (a : Nat) (b : List Byte) : (s.store a b).links = s.links := by simp [store]
@[simp] theorem store_fabricUp (a : Nat) (b : List Byte) : (s.store a b).fabricUp = s.fabricUp := by simp [store]
@[simp] theorem store_granules (a : Nat) (b : List Byte) : (s.store a b).granules = s.granules := by simp [store]
@[simp] theorem store_ethUp (a : Nat) (b : List Byte) : (s.store a b).ethUp = s.ethUp := by simp [store]
@[simp] theorem store_sessions (a : Nat) (b : List Byte) : (s.store a b).sessions = s.sessions := by simp [store]
@[simp] theorem store_dbg (a : Nat) (b : List Byte) : (s.store a b).dbg = s.dbg := by simp [store]
@[simp] theorem store_mgmt (a : Nat) (b : List Byte) : (s.store a b).mgmt = s.mgmt := by simp [store]
@[simp] theorem store_replies (a : Nat) (b : List Byte) : (s.store a b).replies = s.replies := by simp [store]
@[simp] theorem store_mem (a : Nat) (b : List Byte) : (s.store a b).mem = memWrite s.mem a b := by simp [store]

end State

namespace Task

variable (t : Task)


@[simp] theorem putS_gtid (r : Reg) (x : Word) : (t.putS r x).gtid = t.gtid := by unfold putS; split <;> rfl
@[simp] theorem putS_part (r : Reg) (x : Word) : (t.putS r x).part = t.part := by unfold putS; split <;> rfl
@[simp] theorem putS_capid (r : Reg) (x : Word) : (t.putS r x).capid = t.capid := by unfold putS; split <;> rfl
@[simp] theorem putS_bodygen (r : Reg) (x : Word) : (t.putS r x).bodygen = t.bodygen := by unfold putS; split <;> rfl
@[simp] theorem putS_pc (r : Reg) (x : Word) : (t.putS r x).pc = t.pc := by unfold putS; split <;> rfl
@[simp] theorem putS_v (r : Reg) (x : Word) : (t.putS r x).v = t.v := by unfold putS; split <;> rfl
@[simp] theorem putS_p (r : Reg) (x : Word) : (t.putS r x).p = t.p := by unfold putS; split <;> rfl
@[simp] theorem putS_m (r : Reg) (x : Word) : (t.putS r x).m = t.m := by unfold putS; split <;> rfl
@[simp] theorem putS_g (r : Reg) (x : Word) : (t.putS r x).g = t.g := by unfold putS; split <;> rfl
@[simp] theorem putS_sFull (r : Reg) (x : Word) : (t.putS r x).sFull = t.sFull := by unfold putS; split <;> rfl
@[simp] theorem putS_vFull (r : Reg) (x : Word) : (t.putS r x).vFull = t.vFull := by unfold putS; split <;> rfl
@[simp] theorem putS_mFull (r : Reg) (x : Word) : (t.putS r x).mFull = t.mFull := by unfold putS; split <;> rfl
@[simp] theorem putS_vErr (r : Reg) (x : Word) : (t.putS r x).vErr = t.vErr := by unfold putS; split <;> rfl
@[simp] theorem putS_fpend (r : Reg) (x : Word) : (t.putS r x).fpend = t.fpend := by unfold putS; split <;> rfl
@[simp] theorem putS_fmtword (r : Reg) (x : Word) : (t.putS r x).fmtword = t.fmtword := by unfold putS; split <;> rfl
@[simp] theorem putS_fmtPc (r : Reg) (x : Word) : (t.putS r x).fmtPc = t.fmtPc := by unfold putS; split <;> rfl
@[simp] theorem putS_priv (r : Reg) (x : Word) : (t.putS r x).priv = t.priv := by unfold putS; split <;> rfl
@[simp] theorem putS_domain (r : Reg) (x : Word) : (t.putS r x).domain = t.domain := by unfold putS; split <;> rfl
@[simp] theorem putS_tile (r : Reg) (x : Word) : (t.putS r x).tile = t.tile := by unfold putS; split <;> rfl
@[simp] theorem putS_gang (r : Reg) (x : Word) : (t.putS r x).gang = t.gang := by unfold putS; split <;> rfl
@[simp] theorem putS_grank (r : Reg) (x : Word) : (t.putS r x).grank = t.grank := by unfold putS; split <;> rfl
@[simp] theorem putS_gsize (r : Reg) (x : Word) : (t.putS r x).gsize = t.gsize := by unfold putS; split <;> rfl
@[simp] theorem putS_home (r : Reg) (x : Word) : (t.putS r x).home = t.home := by unfold putS; split <;> rfl
@[simp] theorem putS_prio (r : Reg) (x : Word) : (t.putS r x).prio = t.prio := by unfold putS; split <;> rfl
@[simp] theorem putS_launch (r : Reg) (x : Word) : (t.putS r x).launch = t.launch := by unfold putS; split <;> rfl
@[simp] theorem putS_root (r : Reg) (x : Word) : (t.putS r x).root = t.root := by unfold putS; split <;> rfl
@[simp] theorem putS_step (r : Reg) (x : Word) : (t.putS r x).step = t.step := by unfold putS; split <;> rfl
@[simp] theorem putS_sched (r : Reg) (x : Word) : (t.putS r x).sched = t.sched := by unfold putS; split <;> rfl
@[simp] theorem putS_join (r : Reg) (x : Word) : (t.putS r x).join = t.join := by unfold putS; split <;> rfl
@[simp] theorem putS_tokens (r : Reg) (x : Word) : (t.putS r x).tokens = t.tokens := by unfold putS; split <;> rfl
@[simp] theorem putS_tr (r : Reg) (x : Word) : (t.putS r x).tr = t.tr := by unfold putS; split <;> rfl
@[simp] theorem putS_inHandler (r : Reg) (x : Word) : (t.putS r x).inHandler = t.inHandler := by unfold putS; split <;> rfl
@[simp] theorem putS_tvNext (r : Reg) (x : Word) : (t.putS r x).tvNext = t.tvNext := by unfold putS; split <;> rfl
@[simp] theorem putS_fw (r : Reg) (x : Word) : (t.putS r x).fw = t.fw := by unfold putS; split <;> rfl
@[simp] theorem putS_fqarea (r : Reg) (x : Word) : (t.putS r x).fqarea = t.fqarea := by unfold putS; split <;> rfl
@[simp] theorem putS_fwBase (r : Reg) (x : Word) : (t.putS r x).fwBase = t.fwBase := by unfold putS; split <;> rfl
@[simp] theorem putS_fwBound (r : Reg) (x : Word) : (t.putS r x).fwBound = t.fwBound := by unfold putS; split <;> rfl
@[simp] theorem putS_codeBase (r : Reg) (x : Word) : (t.putS r x).codeBase = t.codeBase := by unfold putS; split <;> rfl
@[simp] theorem putS_codeBound (r : Reg) (x : Word) : (t.putS r x).codeBound = t.codeBound := by unfold putS; split <;> rfl
@[simp] theorem putS_fwCall (r : Reg) (x : Word) : (t.putS r x).fwCall = t.fwCall := by unfold putS; split <;> rfl
@[simp] theorem putS_run (r : Reg) (x : Word) : (t.putS r x).run = t.run := by unfold putS; split <;> rfl
@[simp] theorem putS_barriers (r : Reg) (x : Word) : (t.putS r x).barriers = t.barriers := by unfold putS; split <;> rfl
@[simp] theorem putS_atBarrier (r : Reg) (x : Word) : (t.putS r x).atBarrier = t.atBarrier := by unfold putS; split <;> rfl
@[simp] theorem putS_due (r : Reg) (x : Word) : (t.putS r x).due = t.due := by unfold putS; split <;> rfl
@[simp] theorem putS_inbox (r : Reg) (x : Word) : (t.putS r x).inbox = t.inbox := by unfold putS; split <;> rfl
@[simp] theorem putS_stopped (r : Reg) (x : Word) : (t.putS r x).stopped = t.stopped := by unfold putS; split <;> rfl
@[simp] theorem putS_stepping (r : Reg) (x : Word) : (t.putS r x).stepping = t.stepping := by unfold putS; split <;> rfl
@[simp] theorem putS_skipBreak (r : Reg) (x : Word) : (t.putS r x).skipBreak = t.skipBreak := by unfold putS; split <;> rfl
@[simp] theorem putS_nissued (r : Reg) (x : Word) : (t.putS r x).nissued = t.nissued := by unfold putS; split <;> rfl
@[simp] theorem putS_stamp (r : Reg) (x : Word) : (t.putS r x).stamp = t.stamp := by unfold putS; split <;> rfl
@[simp] theorem putS_since (r : Reg) (x : Word) : (t.putS r x).since = t.since := by unfold putS; split <;> rfl
@[simp] theorem putS_yieldedAt (r : Reg) (x : Word) : (t.putS r x).yieldedAt = t.yieldedAt := by unfold putS; split <;> rfl
@[simp] theorem putS_lastIssue (r : Reg) (x : Word) : (t.putS r x).lastIssue = t.lastIssue := by unfold putS; split <;> rfl
@[simp] theorem putS_holdUntil (r : Reg) (x : Word) : (t.putS r x).holdUntil = t.holdUntil := by unfold putS; split <;> rfl
@[simp] theorem putS_waitCount (r : Reg) (x : Word) : (t.putS r x).waitCount = t.waitCount := by unfold putS; split <;> rfl
@[simp] theorem putS_lats (r : Reg) (x : Word) : (t.putS r x).lats = t.lats := by unfold putS; split <;> rfl
@[simp] theorem putS_held (r : Reg) (x : Word) : (t.putS r x).held = t.held := by unfold putS; split <;> rfl
@[simp] theorem putS_fills (r : Reg) (x : Word) : (t.putS r x).fills = t.fills := by unfold putS; split <;> rfl
@[simp] theorem putS_fillCycle (r : Reg) (x : Word) : (t.putS r x).fillCycle = t.fillCycle := by unfold putS; split <;> rfl
@[simp] theorem putS_owed (r : Reg) (x : Word) : (t.putS r x).owed = t.owed := by unfold putS; split <;> rfl
@[simp] theorem putS_draining (r : Reg) (x : Word) : (t.putS r x).draining = t.draining := by unfold putS; split <;> rfl

@[simp] theorem putV_gtid (r : Reg) (x : VWord) : (t.putV r x).gtid = t.gtid := rfl
@[simp] theorem putV_part (r : Reg) (x : VWord) : (t.putV r x).part = t.part := rfl
@[simp] theorem putV_capid (r : Reg) (x : VWord) : (t.putV r x).capid = t.capid := rfl
@[simp] theorem putV_bodygen (r : Reg) (x : VWord) : (t.putV r x).bodygen = t.bodygen := rfl
@[simp] theorem putV_pc (r : Reg) (x : VWord) : (t.putV r x).pc = t.pc := rfl
@[simp] theorem putV_s (r : Reg) (x : VWord) : (t.putV r x).s = t.s := rfl
@[simp] theorem putV_p (r : Reg) (x : VWord) : (t.putV r x).p = t.p := rfl
@[simp] theorem putV_m (r : Reg) (x : VWord) : (t.putV r x).m = t.m := rfl
@[simp] theorem putV_g (r : Reg) (x : VWord) : (t.putV r x).g = t.g := rfl
@[simp] theorem putV_sFull (r : Reg) (x : VWord) : (t.putV r x).sFull = t.sFull := rfl
@[simp] theorem putV_vFull (r : Reg) (x : VWord) : (t.putV r x).vFull = t.vFull := rfl
@[simp] theorem putV_mFull (r : Reg) (x : VWord) : (t.putV r x).mFull = t.mFull := rfl
@[simp] theorem putV_sErr (r : Reg) (x : VWord) : (t.putV r x).sErr = t.sErr := rfl
@[simp] theorem putV_fpend (r : Reg) (x : VWord) : (t.putV r x).fpend = t.fpend := rfl
@[simp] theorem putV_fmtword (r : Reg) (x : VWord) : (t.putV r x).fmtword = t.fmtword := rfl
@[simp] theorem putV_fmtPc (r : Reg) (x : VWord) : (t.putV r x).fmtPc = t.fmtPc := rfl
@[simp] theorem putV_priv (r : Reg) (x : VWord) : (t.putV r x).priv = t.priv := rfl
@[simp] theorem putV_domain (r : Reg) (x : VWord) : (t.putV r x).domain = t.domain := rfl
@[simp] theorem putV_tile (r : Reg) (x : VWord) : (t.putV r x).tile = t.tile := rfl
@[simp] theorem putV_gang (r : Reg) (x : VWord) : (t.putV r x).gang = t.gang := rfl
@[simp] theorem putV_grank (r : Reg) (x : VWord) : (t.putV r x).grank = t.grank := rfl
@[simp] theorem putV_gsize (r : Reg) (x : VWord) : (t.putV r x).gsize = t.gsize := rfl
@[simp] theorem putV_home (r : Reg) (x : VWord) : (t.putV r x).home = t.home := rfl
@[simp] theorem putV_prio (r : Reg) (x : VWord) : (t.putV r x).prio = t.prio := rfl
@[simp] theorem putV_launch (r : Reg) (x : VWord) : (t.putV r x).launch = t.launch := rfl
@[simp] theorem putV_root (r : Reg) (x : VWord) : (t.putV r x).root = t.root := rfl
@[simp] theorem putV_step (r : Reg) (x : VWord) : (t.putV r x).step = t.step := rfl
@[simp] theorem putV_sched (r : Reg) (x : VWord) : (t.putV r x).sched = t.sched := rfl
@[simp] theorem putV_join (r : Reg) (x : VWord) : (t.putV r x).join = t.join := rfl
@[simp] theorem putV_tokens (r : Reg) (x : VWord) : (t.putV r x).tokens = t.tokens := rfl
@[simp] theorem putV_tr (r : Reg) (x : VWord) : (t.putV r x).tr = t.tr := rfl
@[simp] theorem putV_inHandler (r : Reg) (x : VWord) : (t.putV r x).inHandler = t.inHandler := rfl
@[simp] theorem putV_tvNext (r : Reg) (x : VWord) : (t.putV r x).tvNext = t.tvNext := rfl
@[simp] theorem putV_fw (r : Reg) (x : VWord) : (t.putV r x).fw = t.fw := rfl
@[simp] theorem putV_fqarea (r : Reg) (x : VWord) : (t.putV r x).fqarea = t.fqarea := rfl
@[simp] theorem putV_fwBase (r : Reg) (x : VWord) : (t.putV r x).fwBase = t.fwBase := rfl
@[simp] theorem putV_fwBound (r : Reg) (x : VWord) : (t.putV r x).fwBound = t.fwBound := rfl
@[simp] theorem putV_codeBase (r : Reg) (x : VWord) : (t.putV r x).codeBase = t.codeBase := rfl
@[simp] theorem putV_codeBound (r : Reg) (x : VWord) : (t.putV r x).codeBound = t.codeBound := rfl
@[simp] theorem putV_fwCall (r : Reg) (x : VWord) : (t.putV r x).fwCall = t.fwCall := rfl
@[simp] theorem putV_run (r : Reg) (x : VWord) : (t.putV r x).run = t.run := rfl
@[simp] theorem putV_barriers (r : Reg) (x : VWord) : (t.putV r x).barriers = t.barriers := rfl
@[simp] theorem putV_atBarrier (r : Reg) (x : VWord) : (t.putV r x).atBarrier = t.atBarrier := rfl
@[simp] theorem putV_due (r : Reg) (x : VWord) : (t.putV r x).due = t.due := rfl
@[simp] theorem putV_inbox (r : Reg) (x : VWord) : (t.putV r x).inbox = t.inbox := rfl
@[simp] theorem putV_stopped (r : Reg) (x : VWord) : (t.putV r x).stopped = t.stopped := rfl
@[simp] theorem putV_stepping (r : Reg) (x : VWord) : (t.putV r x).stepping = t.stepping := rfl
@[simp] theorem putV_skipBreak (r : Reg) (x : VWord) : (t.putV r x).skipBreak = t.skipBreak := rfl
@[simp] theorem putV_nissued (r : Reg) (x : VWord) : (t.putV r x).nissued = t.nissued := rfl
@[simp] theorem putV_stamp (r : Reg) (x : VWord) : (t.putV r x).stamp = t.stamp := rfl
@[simp] theorem putV_since (r : Reg) (x : VWord) : (t.putV r x).since = t.since := rfl
@[simp] theorem putV_yieldedAt (r : Reg) (x : VWord) : (t.putV r x).yieldedAt = t.yieldedAt := rfl
@[simp] theorem putV_lastIssue (r : Reg) (x : VWord) : (t.putV r x).lastIssue = t.lastIssue := rfl
@[simp] theorem putV_holdUntil (r : Reg) (x : VWord) : (t.putV r x).holdUntil = t.holdUntil := rfl
@[simp] theorem putV_waitCount (r : Reg) (x : VWord) : (t.putV r x).waitCount = t.waitCount := rfl
@[simp] theorem putV_lats (r : Reg) (x : VWord) : (t.putV r x).lats = t.lats := rfl
@[simp] theorem putV_held (r : Reg) (x : VWord) : (t.putV r x).held = t.held := rfl
@[simp] theorem putV_fills (r : Reg) (x : VWord) : (t.putV r x).fills = t.fills := rfl
@[simp] theorem putV_fillCycle (r : Reg) (x : VWord) : (t.putV r x).fillCycle = t.fillCycle := rfl
@[simp] theorem putV_owed (r : Reg) (x : VWord) : (t.putV r x).owed = t.owed := rfl
@[simp] theorem putV_draining (r : Reg) (x : VWord) : (t.putV r x).draining = t.draining := rfl

@[simp] theorem putP_gtid (r : BitVec 3) (x : PWord) : (t.putP r x).gtid = t.gtid := by unfold putP; split <;> rfl
@[simp] theorem putP_part (r : BitVec 3) (x : PWord) : (t.putP r x).part = t.part := by unfold putP; split <;> rfl
@[simp] theorem putP_capid (r : BitVec 3) (x : PWord) : (t.putP r x).capid = t.capid := by unfold putP; split <;> rfl
@[simp] theorem putP_bodygen (r : BitVec 3) (x : PWord) : (t.putP r x).bodygen = t.bodygen := by unfold putP; split <;> rfl
@[simp] theorem putP_pc (r : BitVec 3) (x : PWord) : (t.putP r x).pc = t.pc := by unfold putP; split <;> rfl
@[simp] theorem putP_s (r : BitVec 3) (x : PWord) : (t.putP r x).s = t.s := by unfold putP; split <;> rfl
@[simp] theorem putP_v (r : BitVec 3) (x : PWord) : (t.putP r x).v = t.v := by unfold putP; split <;> rfl
@[simp] theorem putP_m (r : BitVec 3) (x : PWord) : (t.putP r x).m = t.m := by unfold putP; split <;> rfl
@[simp] theorem putP_g (r : BitVec 3) (x : PWord) : (t.putP r x).g = t.g := by unfold putP; split <;> rfl
@[simp] theorem putP_sFull (r : BitVec 3) (x : PWord) : (t.putP r x).sFull = t.sFull := by unfold putP; split <;> rfl
@[simp] theorem putP_vFull (r : BitVec 3) (x : PWord) : (t.putP r x).vFull = t.vFull := by unfold putP; split <;> rfl
@[simp] theorem putP_mFull (r : BitVec 3) (x : PWord) : (t.putP r x).mFull = t.mFull := by unfold putP; split <;> rfl
@[simp] theorem putP_sErr (r : BitVec 3) (x : PWord) : (t.putP r x).sErr = t.sErr := by unfold putP; split <;> rfl
@[simp] theorem putP_vErr (r : BitVec 3) (x : PWord) : (t.putP r x).vErr = t.vErr := by unfold putP; split <;> rfl
@[simp] theorem putP_fpend (r : BitVec 3) (x : PWord) : (t.putP r x).fpend = t.fpend := by unfold putP; split <;> rfl
@[simp] theorem putP_fmtword (r : BitVec 3) (x : PWord) : (t.putP r x).fmtword = t.fmtword := by unfold putP; split <;> rfl
@[simp] theorem putP_fmtPc (r : BitVec 3) (x : PWord) : (t.putP r x).fmtPc = t.fmtPc := by unfold putP; split <;> rfl
@[simp] theorem putP_priv (r : BitVec 3) (x : PWord) : (t.putP r x).priv = t.priv := by unfold putP; split <;> rfl
@[simp] theorem putP_domain (r : BitVec 3) (x : PWord) : (t.putP r x).domain = t.domain := by unfold putP; split <;> rfl
@[simp] theorem putP_tile (r : BitVec 3) (x : PWord) : (t.putP r x).tile = t.tile := by unfold putP; split <;> rfl
@[simp] theorem putP_gang (r : BitVec 3) (x : PWord) : (t.putP r x).gang = t.gang := by unfold putP; split <;> rfl
@[simp] theorem putP_grank (r : BitVec 3) (x : PWord) : (t.putP r x).grank = t.grank := by unfold putP; split <;> rfl
@[simp] theorem putP_gsize (r : BitVec 3) (x : PWord) : (t.putP r x).gsize = t.gsize := by unfold putP; split <;> rfl
@[simp] theorem putP_home (r : BitVec 3) (x : PWord) : (t.putP r x).home = t.home := by unfold putP; split <;> rfl
@[simp] theorem putP_prio (r : BitVec 3) (x : PWord) : (t.putP r x).prio = t.prio := by unfold putP; split <;> rfl
@[simp] theorem putP_launch (r : BitVec 3) (x : PWord) : (t.putP r x).launch = t.launch := by unfold putP; split <;> rfl
@[simp] theorem putP_root (r : BitVec 3) (x : PWord) : (t.putP r x).root = t.root := by unfold putP; split <;> rfl
@[simp] theorem putP_step (r : BitVec 3) (x : PWord) : (t.putP r x).step = t.step := by unfold putP; split <;> rfl
@[simp] theorem putP_sched (r : BitVec 3) (x : PWord) : (t.putP r x).sched = t.sched := by unfold putP; split <;> rfl
@[simp] theorem putP_join (r : BitVec 3) (x : PWord) : (t.putP r x).join = t.join := by unfold putP; split <;> rfl
@[simp] theorem putP_tokens (r : BitVec 3) (x : PWord) : (t.putP r x).tokens = t.tokens := by unfold putP; split <;> rfl
@[simp] theorem putP_tr (r : BitVec 3) (x : PWord) : (t.putP r x).tr = t.tr := by unfold putP; split <;> rfl
@[simp] theorem putP_inHandler (r : BitVec 3) (x : PWord) : (t.putP r x).inHandler = t.inHandler := by unfold putP; split <;> rfl
@[simp] theorem putP_tvNext (r : BitVec 3) (x : PWord) : (t.putP r x).tvNext = t.tvNext := by unfold putP; split <;> rfl
@[simp] theorem putP_fw (r : BitVec 3) (x : PWord) : (t.putP r x).fw = t.fw := by unfold putP; split <;> rfl
@[simp] theorem putP_fqarea (r : BitVec 3) (x : PWord) : (t.putP r x).fqarea = t.fqarea := by unfold putP; split <;> rfl
@[simp] theorem putP_fwBase (r : BitVec 3) (x : PWord) : (t.putP r x).fwBase = t.fwBase := by unfold putP; split <;> rfl
@[simp] theorem putP_fwBound (r : BitVec 3) (x : PWord) : (t.putP r x).fwBound = t.fwBound := by unfold putP; split <;> rfl
@[simp] theorem putP_codeBase (r : BitVec 3) (x : PWord) : (t.putP r x).codeBase = t.codeBase := by unfold putP; split <;> rfl
@[simp] theorem putP_codeBound (r : BitVec 3) (x : PWord) : (t.putP r x).codeBound = t.codeBound := by unfold putP; split <;> rfl
@[simp] theorem putP_fwCall (r : BitVec 3) (x : PWord) : (t.putP r x).fwCall = t.fwCall := by unfold putP; split <;> rfl
@[simp] theorem putP_run (r : BitVec 3) (x : PWord) : (t.putP r x).run = t.run := by unfold putP; split <;> rfl
@[simp] theorem putP_barriers (r : BitVec 3) (x : PWord) : (t.putP r x).barriers = t.barriers := by unfold putP; split <;> rfl
@[simp] theorem putP_atBarrier (r : BitVec 3) (x : PWord) : (t.putP r x).atBarrier = t.atBarrier := by unfold putP; split <;> rfl
@[simp] theorem putP_due (r : BitVec 3) (x : PWord) : (t.putP r x).due = t.due := by unfold putP; split <;> rfl
@[simp] theorem putP_inbox (r : BitVec 3) (x : PWord) : (t.putP r x).inbox = t.inbox := by unfold putP; split <;> rfl
@[simp] theorem putP_stopped (r : BitVec 3) (x : PWord) : (t.putP r x).stopped = t.stopped := by unfold putP; split <;> rfl
@[simp] theorem putP_stepping (r : BitVec 3) (x : PWord) : (t.putP r x).stepping = t.stepping := by unfold putP; split <;> rfl
@[simp] theorem putP_skipBreak (r : BitVec 3) (x : PWord) : (t.putP r x).skipBreak = t.skipBreak := by unfold putP; split <;> rfl
@[simp] theorem putP_nissued (r : BitVec 3) (x : PWord) : (t.putP r x).nissued = t.nissued := by unfold putP; split <;> rfl
@[simp] theorem putP_stamp (r : BitVec 3) (x : PWord) : (t.putP r x).stamp = t.stamp := by unfold putP; split <;> rfl
@[simp] theorem putP_since (r : BitVec 3) (x : PWord) : (t.putP r x).since = t.since := by unfold putP; split <;> rfl
@[simp] theorem putP_yieldedAt (r : BitVec 3) (x : PWord) : (t.putP r x).yieldedAt = t.yieldedAt := by unfold putP; split <;> rfl
@[simp] theorem putP_lastIssue (r : BitVec 3) (x : PWord) : (t.putP r x).lastIssue = t.lastIssue := by unfold putP; split <;> rfl
@[simp] theorem putP_holdUntil (r : BitVec 3) (x : PWord) : (t.putP r x).holdUntil = t.holdUntil := by unfold putP; split <;> rfl
@[simp] theorem putP_waitCount (r : BitVec 3) (x : PWord) : (t.putP r x).waitCount = t.waitCount := by unfold putP; split <;> rfl
@[simp] theorem putP_lats (r : BitVec 3) (x : PWord) : (t.putP r x).lats = t.lats := by unfold putP; split <;> rfl
@[simp] theorem putP_held (r : BitVec 3) (x : PWord) : (t.putP r x).held = t.held := by unfold putP; split <;> rfl
@[simp] theorem putP_fills (r : BitVec 3) (x : PWord) : (t.putP r x).fills = t.fills := by unfold putP; split <;> rfl
@[simp] theorem putP_fillCycle (r : BitVec 3) (x : PWord) : (t.putP r x).fillCycle = t.fillCycle := by unfold putP; split <;> rfl
@[simp] theorem putP_owed (r : BitVec 3) (x : PWord) : (t.putP r x).owed = t.owed := by unfold putP; split <;> rfl
@[simp] theorem putP_draining (r : BitVec 3) (x : PWord) : (t.putP r x).draining = t.draining := by unfold putP; split <;> rfl

@[simp] theorem putM_gtid (r : BitVec 3) (x : VWord) : (t.putM r x).gtid = t.gtid := rfl
@[simp] theorem putM_part (r : BitVec 3) (x : VWord) : (t.putM r x).part = t.part := rfl
@[simp] theorem putM_capid (r : BitVec 3) (x : VWord) : (t.putM r x).capid = t.capid := rfl
@[simp] theorem putM_bodygen (r : BitVec 3) (x : VWord) : (t.putM r x).bodygen = t.bodygen := rfl
@[simp] theorem putM_pc (r : BitVec 3) (x : VWord) : (t.putM r x).pc = t.pc := rfl
@[simp] theorem putM_s (r : BitVec 3) (x : VWord) : (t.putM r x).s = t.s := rfl
@[simp] theorem putM_v (r : BitVec 3) (x : VWord) : (t.putM r x).v = t.v := rfl
@[simp] theorem putM_p (r : BitVec 3) (x : VWord) : (t.putM r x).p = t.p := rfl
@[simp] theorem putM_g (r : BitVec 3) (x : VWord) : (t.putM r x).g = t.g := rfl
@[simp] theorem putM_sFull (r : BitVec 3) (x : VWord) : (t.putM r x).sFull = t.sFull := rfl
@[simp] theorem putM_vFull (r : BitVec 3) (x : VWord) : (t.putM r x).vFull = t.vFull := rfl
@[simp] theorem putM_mFull (r : BitVec 3) (x : VWord) : (t.putM r x).mFull = t.mFull := rfl
@[simp] theorem putM_sErr (r : BitVec 3) (x : VWord) : (t.putM r x).sErr = t.sErr := rfl
@[simp] theorem putM_vErr (r : BitVec 3) (x : VWord) : (t.putM r x).vErr = t.vErr := rfl
@[simp] theorem putM_fpend (r : BitVec 3) (x : VWord) : (t.putM r x).fpend = t.fpend := rfl
@[simp] theorem putM_fmtword (r : BitVec 3) (x : VWord) : (t.putM r x).fmtword = t.fmtword := rfl
@[simp] theorem putM_fmtPc (r : BitVec 3) (x : VWord) : (t.putM r x).fmtPc = t.fmtPc := rfl
@[simp] theorem putM_priv (r : BitVec 3) (x : VWord) : (t.putM r x).priv = t.priv := rfl
@[simp] theorem putM_domain (r : BitVec 3) (x : VWord) : (t.putM r x).domain = t.domain := rfl
@[simp] theorem putM_tile (r : BitVec 3) (x : VWord) : (t.putM r x).tile = t.tile := rfl
@[simp] theorem putM_gang (r : BitVec 3) (x : VWord) : (t.putM r x).gang = t.gang := rfl
@[simp] theorem putM_grank (r : BitVec 3) (x : VWord) : (t.putM r x).grank = t.grank := rfl
@[simp] theorem putM_gsize (r : BitVec 3) (x : VWord) : (t.putM r x).gsize = t.gsize := rfl
@[simp] theorem putM_home (r : BitVec 3) (x : VWord) : (t.putM r x).home = t.home := rfl
@[simp] theorem putM_prio (r : BitVec 3) (x : VWord) : (t.putM r x).prio = t.prio := rfl
@[simp] theorem putM_launch (r : BitVec 3) (x : VWord) : (t.putM r x).launch = t.launch := rfl
@[simp] theorem putM_root (r : BitVec 3) (x : VWord) : (t.putM r x).root = t.root := rfl
@[simp] theorem putM_step (r : BitVec 3) (x : VWord) : (t.putM r x).step = t.step := rfl
@[simp] theorem putM_sched (r : BitVec 3) (x : VWord) : (t.putM r x).sched = t.sched := rfl
@[simp] theorem putM_join (r : BitVec 3) (x : VWord) : (t.putM r x).join = t.join := rfl
@[simp] theorem putM_tokens (r : BitVec 3) (x : VWord) : (t.putM r x).tokens = t.tokens := rfl
@[simp] theorem putM_tr (r : BitVec 3) (x : VWord) : (t.putM r x).tr = t.tr := rfl
@[simp] theorem putM_inHandler (r : BitVec 3) (x : VWord) : (t.putM r x).inHandler = t.inHandler := rfl
@[simp] theorem putM_tvNext (r : BitVec 3) (x : VWord) : (t.putM r x).tvNext = t.tvNext := rfl
@[simp] theorem putM_fw (r : BitVec 3) (x : VWord) : (t.putM r x).fw = t.fw := rfl
@[simp] theorem putM_fqarea (r : BitVec 3) (x : VWord) : (t.putM r x).fqarea = t.fqarea := rfl
@[simp] theorem putM_fwBase (r : BitVec 3) (x : VWord) : (t.putM r x).fwBase = t.fwBase := rfl
@[simp] theorem putM_fwBound (r : BitVec 3) (x : VWord) : (t.putM r x).fwBound = t.fwBound := rfl
@[simp] theorem putM_codeBase (r : BitVec 3) (x : VWord) : (t.putM r x).codeBase = t.codeBase := rfl
@[simp] theorem putM_codeBound (r : BitVec 3) (x : VWord) : (t.putM r x).codeBound = t.codeBound := rfl
@[simp] theorem putM_fwCall (r : BitVec 3) (x : VWord) : (t.putM r x).fwCall = t.fwCall := rfl
@[simp] theorem putM_run (r : BitVec 3) (x : VWord) : (t.putM r x).run = t.run := rfl
@[simp] theorem putM_barriers (r : BitVec 3) (x : VWord) : (t.putM r x).barriers = t.barriers := rfl
@[simp] theorem putM_atBarrier (r : BitVec 3) (x : VWord) : (t.putM r x).atBarrier = t.atBarrier := rfl
@[simp] theorem putM_due (r : BitVec 3) (x : VWord) : (t.putM r x).due = t.due := rfl
@[simp] theorem putM_inbox (r : BitVec 3) (x : VWord) : (t.putM r x).inbox = t.inbox := rfl
@[simp] theorem putM_stopped (r : BitVec 3) (x : VWord) : (t.putM r x).stopped = t.stopped := rfl
@[simp] theorem putM_stepping (r : BitVec 3) (x : VWord) : (t.putM r x).stepping = t.stepping := rfl
@[simp] theorem putM_skipBreak (r : BitVec 3) (x : VWord) : (t.putM r x).skipBreak = t.skipBreak := rfl
@[simp] theorem putM_nissued (r : BitVec 3) (x : VWord) : (t.putM r x).nissued = t.nissued := rfl
@[simp] theorem putM_stamp (r : BitVec 3) (x : VWord) : (t.putM r x).stamp = t.stamp := rfl
@[simp] theorem putM_since (r : BitVec 3) (x : VWord) : (t.putM r x).since = t.since := rfl
@[simp] theorem putM_yieldedAt (r : BitVec 3) (x : VWord) : (t.putM r x).yieldedAt = t.yieldedAt := rfl
@[simp] theorem putM_lastIssue (r : BitVec 3) (x : VWord) : (t.putM r x).lastIssue = t.lastIssue := rfl
@[simp] theorem putM_holdUntil (r : BitVec 3) (x : VWord) : (t.putM r x).holdUntil = t.holdUntil := rfl
@[simp] theorem putM_waitCount (r : BitVec 3) (x : VWord) : (t.putM r x).waitCount = t.waitCount := rfl
@[simp] theorem putM_lats (r : BitVec 3) (x : VWord) : (t.putM r x).lats = t.lats := rfl
@[simp] theorem putM_held (r : BitVec 3) (x : VWord) : (t.putM r x).held = t.held := rfl
@[simp] theorem putM_fills (r : BitVec 3) (x : VWord) : (t.putM r x).fills = t.fills := rfl
@[simp] theorem putM_fillCycle (r : BitVec 3) (x : VWord) : (t.putM r x).fillCycle = t.fillCycle := rfl
@[simp] theorem putM_owed (r : BitVec 3) (x : VWord) : (t.putM r x).owed = t.owed := rfl
@[simp] theorem putM_draining (r : BitVec 3) (x : VWord) : (t.putM r x).draining = t.draining := rfl

@[simp] theorem putG_gtid (r : BitVec 3) (x : VWord) : (t.putG r x).gtid = t.gtid := rfl
@[simp] theorem putG_part (r : BitVec 3) (x : VWord) : (t.putG r x).part = t.part := rfl
@[simp] theorem putG_capid (r : BitVec 3) (x : VWord) : (t.putG r x).capid = t.capid := rfl
@[simp] theorem putG_bodygen (r : BitVec 3) (x : VWord) : (t.putG r x).bodygen = t.bodygen := rfl
@[simp] theorem putG_pc (r : BitVec 3) (x : VWord) : (t.putG r x).pc = t.pc := rfl
@[simp] theorem putG_s (r : BitVec 3) (x : VWord) : (t.putG r x).s = t.s := rfl
@[simp] theorem putG_v (r : BitVec 3) (x : VWord) : (t.putG r x).v = t.v := rfl
@[simp] theorem putG_p (r : BitVec 3) (x : VWord) : (t.putG r x).p = t.p := rfl
@[simp] theorem putG_m (r : BitVec 3) (x : VWord) : (t.putG r x).m = t.m := rfl
@[simp] theorem putG_sFull (r : BitVec 3) (x : VWord) : (t.putG r x).sFull = t.sFull := rfl
@[simp] theorem putG_vFull (r : BitVec 3) (x : VWord) : (t.putG r x).vFull = t.vFull := rfl
@[simp] theorem putG_mFull (r : BitVec 3) (x : VWord) : (t.putG r x).mFull = t.mFull := rfl
@[simp] theorem putG_sErr (r : BitVec 3) (x : VWord) : (t.putG r x).sErr = t.sErr := rfl
@[simp] theorem putG_vErr (r : BitVec 3) (x : VWord) : (t.putG r x).vErr = t.vErr := rfl
@[simp] theorem putG_fpend (r : BitVec 3) (x : VWord) : (t.putG r x).fpend = t.fpend := rfl
@[simp] theorem putG_fmtword (r : BitVec 3) (x : VWord) : (t.putG r x).fmtword = t.fmtword := rfl
@[simp] theorem putG_fmtPc (r : BitVec 3) (x : VWord) : (t.putG r x).fmtPc = t.fmtPc := rfl
@[simp] theorem putG_priv (r : BitVec 3) (x : VWord) : (t.putG r x).priv = t.priv := rfl
@[simp] theorem putG_domain (r : BitVec 3) (x : VWord) : (t.putG r x).domain = t.domain := rfl
@[simp] theorem putG_tile (r : BitVec 3) (x : VWord) : (t.putG r x).tile = t.tile := rfl
@[simp] theorem putG_gang (r : BitVec 3) (x : VWord) : (t.putG r x).gang = t.gang := rfl
@[simp] theorem putG_grank (r : BitVec 3) (x : VWord) : (t.putG r x).grank = t.grank := rfl
@[simp] theorem putG_gsize (r : BitVec 3) (x : VWord) : (t.putG r x).gsize = t.gsize := rfl
@[simp] theorem putG_home (r : BitVec 3) (x : VWord) : (t.putG r x).home = t.home := rfl
@[simp] theorem putG_prio (r : BitVec 3) (x : VWord) : (t.putG r x).prio = t.prio := rfl
@[simp] theorem putG_launch (r : BitVec 3) (x : VWord) : (t.putG r x).launch = t.launch := rfl
@[simp] theorem putG_root (r : BitVec 3) (x : VWord) : (t.putG r x).root = t.root := rfl
@[simp] theorem putG_step (r : BitVec 3) (x : VWord) : (t.putG r x).step = t.step := rfl
@[simp] theorem putG_sched (r : BitVec 3) (x : VWord) : (t.putG r x).sched = t.sched := rfl
@[simp] theorem putG_join (r : BitVec 3) (x : VWord) : (t.putG r x).join = t.join := rfl
@[simp] theorem putG_tokens (r : BitVec 3) (x : VWord) : (t.putG r x).tokens = t.tokens := rfl
@[simp] theorem putG_tr (r : BitVec 3) (x : VWord) : (t.putG r x).tr = t.tr := rfl
@[simp] theorem putG_inHandler (r : BitVec 3) (x : VWord) : (t.putG r x).inHandler = t.inHandler := rfl
@[simp] theorem putG_tvNext (r : BitVec 3) (x : VWord) : (t.putG r x).tvNext = t.tvNext := rfl
@[simp] theorem putG_fw (r : BitVec 3) (x : VWord) : (t.putG r x).fw = t.fw := rfl
@[simp] theorem putG_fqarea (r : BitVec 3) (x : VWord) : (t.putG r x).fqarea = t.fqarea := rfl
@[simp] theorem putG_fwBase (r : BitVec 3) (x : VWord) : (t.putG r x).fwBase = t.fwBase := rfl
@[simp] theorem putG_fwBound (r : BitVec 3) (x : VWord) : (t.putG r x).fwBound = t.fwBound := rfl
@[simp] theorem putG_codeBase (r : BitVec 3) (x : VWord) : (t.putG r x).codeBase = t.codeBase := rfl
@[simp] theorem putG_codeBound (r : BitVec 3) (x : VWord) : (t.putG r x).codeBound = t.codeBound := rfl
@[simp] theorem putG_fwCall (r : BitVec 3) (x : VWord) : (t.putG r x).fwCall = t.fwCall := rfl
@[simp] theorem putG_run (r : BitVec 3) (x : VWord) : (t.putG r x).run = t.run := rfl
@[simp] theorem putG_barriers (r : BitVec 3) (x : VWord) : (t.putG r x).barriers = t.barriers := rfl
@[simp] theorem putG_atBarrier (r : BitVec 3) (x : VWord) : (t.putG r x).atBarrier = t.atBarrier := rfl
@[simp] theorem putG_due (r : BitVec 3) (x : VWord) : (t.putG r x).due = t.due := rfl
@[simp] theorem putG_inbox (r : BitVec 3) (x : VWord) : (t.putG r x).inbox = t.inbox := rfl
@[simp] theorem putG_stopped (r : BitVec 3) (x : VWord) : (t.putG r x).stopped = t.stopped := rfl
@[simp] theorem putG_stepping (r : BitVec 3) (x : VWord) : (t.putG r x).stepping = t.stepping := rfl
@[simp] theorem putG_skipBreak (r : BitVec 3) (x : VWord) : (t.putG r x).skipBreak = t.skipBreak := rfl
@[simp] theorem putG_nissued (r : BitVec 3) (x : VWord) : (t.putG r x).nissued = t.nissued := rfl
@[simp] theorem putG_stamp (r : BitVec 3) (x : VWord) : (t.putG r x).stamp = t.stamp := rfl
@[simp] theorem putG_since (r : BitVec 3) (x : VWord) : (t.putG r x).since = t.since := rfl
@[simp] theorem putG_yieldedAt (r : BitVec 3) (x : VWord) : (t.putG r x).yieldedAt = t.yieldedAt := rfl
@[simp] theorem putG_lastIssue (r : BitVec 3) (x : VWord) : (t.putG r x).lastIssue = t.lastIssue := rfl
@[simp] theorem putG_holdUntil (r : BitVec 3) (x : VWord) : (t.putG r x).holdUntil = t.holdUntil := rfl
@[simp] theorem putG_waitCount (r : BitVec 3) (x : VWord) : (t.putG r x).waitCount = t.waitCount := rfl
@[simp] theorem putG_lats (r : BitVec 3) (x : VWord) : (t.putG r x).lats = t.lats := rfl
@[simp] theorem putG_held (r : BitVec 3) (x : VWord) : (t.putG r x).held = t.held := rfl
@[simp] theorem putG_fills (r : BitVec 3) (x : VWord) : (t.putG r x).fills = t.fills := rfl
@[simp] theorem putG_fillCycle (r : BitVec 3) (x : VWord) : (t.putG r x).fillCycle = t.fillCycle := rfl
@[simp] theorem putG_owed (r : BitVec 3) (x : VWord) : (t.putG r x).owed = t.owed := rfl
@[simp] theorem putG_draining (r : BitVec 3) (x : VWord) : (t.putG r x).draining = t.draining := rfl

@[simp] theorem late_gtid (c n l : Nat) : (t.late c n l).gtid = t.gtid := rfl
@[simp] theorem late_part (c n l : Nat) : (t.late c n l).part = t.part := rfl
@[simp] theorem late_capid (c n l : Nat) : (t.late c n l).capid = t.capid := rfl
@[simp] theorem late_bodygen (c n l : Nat) : (t.late c n l).bodygen = t.bodygen := rfl
@[simp] theorem late_pc (c n l : Nat) : (t.late c n l).pc = t.pc := rfl
@[simp] theorem late_s (c n l : Nat) : (t.late c n l).s = t.s := rfl
@[simp] theorem late_v (c n l : Nat) : (t.late c n l).v = t.v := rfl
@[simp] theorem late_p (c n l : Nat) : (t.late c n l).p = t.p := rfl
@[simp] theorem late_m (c n l : Nat) : (t.late c n l).m = t.m := rfl
@[simp] theorem late_g (c n l : Nat) : (t.late c n l).g = t.g := rfl
@[simp] theorem late_sFull (c n l : Nat) : (t.late c n l).sFull = t.sFull := rfl
@[simp] theorem late_vFull (c n l : Nat) : (t.late c n l).vFull = t.vFull := rfl
@[simp] theorem late_mFull (c n l : Nat) : (t.late c n l).mFull = t.mFull := rfl
@[simp] theorem late_sErr (c n l : Nat) : (t.late c n l).sErr = t.sErr := rfl
@[simp] theorem late_vErr (c n l : Nat) : (t.late c n l).vErr = t.vErr := rfl
@[simp] theorem late_fpend (c n l : Nat) : (t.late c n l).fpend = t.fpend := rfl
@[simp] theorem late_fmtword (c n l : Nat) : (t.late c n l).fmtword = t.fmtword := rfl
@[simp] theorem late_fmtPc (c n l : Nat) : (t.late c n l).fmtPc = t.fmtPc := rfl
@[simp] theorem late_priv (c n l : Nat) : (t.late c n l).priv = t.priv := rfl
@[simp] theorem late_domain (c n l : Nat) : (t.late c n l).domain = t.domain := rfl
@[simp] theorem late_tile (c n l : Nat) : (t.late c n l).tile = t.tile := rfl
@[simp] theorem late_gang (c n l : Nat) : (t.late c n l).gang = t.gang := rfl
@[simp] theorem late_grank (c n l : Nat) : (t.late c n l).grank = t.grank := rfl
@[simp] theorem late_gsize (c n l : Nat) : (t.late c n l).gsize = t.gsize := rfl
@[simp] theorem late_home (c n l : Nat) : (t.late c n l).home = t.home := rfl
@[simp] theorem late_prio (c n l : Nat) : (t.late c n l).prio = t.prio := rfl
@[simp] theorem late_launch (c n l : Nat) : (t.late c n l).launch = t.launch := rfl
@[simp] theorem late_root (c n l : Nat) : (t.late c n l).root = t.root := rfl
@[simp] theorem late_step (c n l : Nat) : (t.late c n l).step = t.step := rfl
@[simp] theorem late_sched (c n l : Nat) : (t.late c n l).sched = t.sched := rfl
@[simp] theorem late_join (c n l : Nat) : (t.late c n l).join = t.join := rfl
@[simp] theorem late_tokens (c n l : Nat) : (t.late c n l).tokens = t.tokens := rfl
@[simp] theorem late_tr (c n l : Nat) : (t.late c n l).tr = t.tr := rfl
@[simp] theorem late_inHandler (c n l : Nat) : (t.late c n l).inHandler = t.inHandler := rfl
@[simp] theorem late_tvNext (c n l : Nat) : (t.late c n l).tvNext = t.tvNext := rfl
@[simp] theorem late_fw (c n l : Nat) : (t.late c n l).fw = t.fw := rfl
@[simp] theorem late_fqarea (c n l : Nat) : (t.late c n l).fqarea = t.fqarea := rfl
@[simp] theorem late_fwBase (c n l : Nat) : (t.late c n l).fwBase = t.fwBase := rfl
@[simp] theorem late_fwBound (c n l : Nat) : (t.late c n l).fwBound = t.fwBound := rfl
@[simp] theorem late_codeBase (c n l : Nat) : (t.late c n l).codeBase = t.codeBase := rfl
@[simp] theorem late_codeBound (c n l : Nat) : (t.late c n l).codeBound = t.codeBound := rfl
@[simp] theorem late_fwCall (c n l : Nat) : (t.late c n l).fwCall = t.fwCall := rfl
@[simp] theorem late_run (c n l : Nat) : (t.late c n l).run = t.run := rfl
@[simp] theorem late_barriers (c n l : Nat) : (t.late c n l).barriers = t.barriers := rfl
@[simp] theorem late_atBarrier (c n l : Nat) : (t.late c n l).atBarrier = t.atBarrier := rfl
@[simp] theorem late_due (c n l : Nat) : (t.late c n l).due = t.due := rfl
@[simp] theorem late_inbox (c n l : Nat) : (t.late c n l).inbox = t.inbox := rfl
@[simp] theorem late_stopped (c n l : Nat) : (t.late c n l).stopped = t.stopped := rfl
@[simp] theorem late_stepping (c n l : Nat) : (t.late c n l).stepping = t.stepping := rfl
@[simp] theorem late_skipBreak (c n l : Nat) : (t.late c n l).skipBreak = t.skipBreak := rfl
@[simp] theorem late_nissued (c n l : Nat) : (t.late c n l).nissued = t.nissued := rfl
@[simp] theorem late_stamp (c n l : Nat) : (t.late c n l).stamp = t.stamp := rfl
@[simp] theorem late_since (c n l : Nat) : (t.late c n l).since = t.since := rfl
@[simp] theorem late_yieldedAt (c n l : Nat) : (t.late c n l).yieldedAt = t.yieldedAt := rfl
@[simp] theorem late_lastIssue (c n l : Nat) : (t.late c n l).lastIssue = t.lastIssue := rfl
@[simp] theorem late_holdUntil (c n l : Nat) : (t.late c n l).holdUntil = t.holdUntil := rfl
@[simp] theorem late_waitCount (c n l : Nat) : (t.late c n l).waitCount = t.waitCount := rfl
@[simp] theorem late_held (c n l : Nat) : (t.late c n l).held = t.held := rfl
@[simp] theorem late_fills (c n l : Nat) : (t.late c n l).fills = t.fills := rfl
@[simp] theorem late_fillCycle (c n l : Nat) : (t.late c n l).fillCycle = t.fillCycle := rfl
@[simp] theorem late_owed (c n l : Nat) : (t.late c n l).owed = t.owed := rfl
@[simp] theorem late_draining (c n l : Nat) : (t.late c n l).draining = t.draining := rfl

@[simp] theorem writeS_gtid (n : Nat) (r : Reg) (x : Word) (l : Nat) : (t.writeS n r x l).gtid = t.gtid := by unfold writeS; split <;> simp
@[simp] theorem writeS_part (n : Nat) (r : Reg) (x : Word) (l : Nat) : (t.writeS n r x l).part = t.part := by unfold writeS; split <;> simp
@[simp] theorem writeS_capid (n : Nat) (r : Reg) (x : Word) (l : Nat) : (t.writeS n r x l).capid = t.capid := by unfold writeS; split <;> simp
@[simp] theorem writeS_bodygen (n : Nat) (r : Reg) (x : Word) (l : Nat) : (t.writeS n r x l).bodygen = t.bodygen := by unfold writeS; split <;> simp
@[simp] theorem writeS_pc (n : Nat) (r : Reg) (x : Word) (l : Nat) : (t.writeS n r x l).pc = t.pc := by unfold writeS; split <;> simp
@[simp] theorem writeS_v (n : Nat) (r : Reg) (x : Word) (l : Nat) : (t.writeS n r x l).v = t.v := by unfold writeS; split <;> simp
@[simp] theorem writeS_p (n : Nat) (r : Reg) (x : Word) (l : Nat) : (t.writeS n r x l).p = t.p := by unfold writeS; split <;> simp
@[simp] theorem writeS_m (n : Nat) (r : Reg) (x : Word) (l : Nat) : (t.writeS n r x l).m = t.m := by unfold writeS; split <;> simp
@[simp] theorem writeS_g (n : Nat) (r : Reg) (x : Word) (l : Nat) : (t.writeS n r x l).g = t.g := by unfold writeS; split <;> simp
@[simp] theorem writeS_sFull (n : Nat) (r : Reg) (x : Word) (l : Nat) : (t.writeS n r x l).sFull = t.sFull := by unfold writeS; split <;> simp
@[simp] theorem writeS_vFull (n : Nat) (r : Reg) (x : Word) (l : Nat) : (t.writeS n r x l).vFull = t.vFull := by unfold writeS; split <;> simp
@[simp] theorem writeS_mFull (n : Nat) (r : Reg) (x : Word) (l : Nat) : (t.writeS n r x l).mFull = t.mFull := by unfold writeS; split <;> simp
@[simp] theorem writeS_vErr (n : Nat) (r : Reg) (x : Word) (l : Nat) : (t.writeS n r x l).vErr = t.vErr := by unfold writeS; split <;> simp
@[simp] theorem writeS_fpend (n : Nat) (r : Reg) (x : Word) (l : Nat) : (t.writeS n r x l).fpend = t.fpend := by unfold writeS; split <;> simp
@[simp] theorem writeS_fmtword (n : Nat) (r : Reg) (x : Word) (l : Nat) : (t.writeS n r x l).fmtword = t.fmtword := by unfold writeS; split <;> simp
@[simp] theorem writeS_fmtPc (n : Nat) (r : Reg) (x : Word) (l : Nat) : (t.writeS n r x l).fmtPc = t.fmtPc := by unfold writeS; split <;> simp
@[simp] theorem writeS_priv (n : Nat) (r : Reg) (x : Word) (l : Nat) : (t.writeS n r x l).priv = t.priv := by unfold writeS; split <;> simp
@[simp] theorem writeS_domain (n : Nat) (r : Reg) (x : Word) (l : Nat) : (t.writeS n r x l).domain = t.domain := by unfold writeS; split <;> simp
@[simp] theorem writeS_tile (n : Nat) (r : Reg) (x : Word) (l : Nat) : (t.writeS n r x l).tile = t.tile := by unfold writeS; split <;> simp
@[simp] theorem writeS_gang (n : Nat) (r : Reg) (x : Word) (l : Nat) : (t.writeS n r x l).gang = t.gang := by unfold writeS; split <;> simp
@[simp] theorem writeS_grank (n : Nat) (r : Reg) (x : Word) (l : Nat) : (t.writeS n r x l).grank = t.grank := by unfold writeS; split <;> simp
@[simp] theorem writeS_gsize (n : Nat) (r : Reg) (x : Word) (l : Nat) : (t.writeS n r x l).gsize = t.gsize := by unfold writeS; split <;> simp
@[simp] theorem writeS_home (n : Nat) (r : Reg) (x : Word) (l : Nat) : (t.writeS n r x l).home = t.home := by unfold writeS; split <;> simp
@[simp] theorem writeS_prio (n : Nat) (r : Reg) (x : Word) (l : Nat) : (t.writeS n r x l).prio = t.prio := by unfold writeS; split <;> simp
@[simp] theorem writeS_launch (n : Nat) (r : Reg) (x : Word) (l : Nat) : (t.writeS n r x l).launch = t.launch := by unfold writeS; split <;> simp
@[simp] theorem writeS_root (n : Nat) (r : Reg) (x : Word) (l : Nat) : (t.writeS n r x l).root = t.root := by unfold writeS; split <;> simp
@[simp] theorem writeS_step (n : Nat) (r : Reg) (x : Word) (l : Nat) : (t.writeS n r x l).step = t.step := by unfold writeS; split <;> simp
@[simp] theorem writeS_sched (n : Nat) (r : Reg) (x : Word) (l : Nat) : (t.writeS n r x l).sched = t.sched := by unfold writeS; split <;> simp
@[simp] theorem writeS_join (n : Nat) (r : Reg) (x : Word) (l : Nat) : (t.writeS n r x l).join = t.join := by unfold writeS; split <;> simp
@[simp] theorem writeS_tokens (n : Nat) (r : Reg) (x : Word) (l : Nat) : (t.writeS n r x l).tokens = t.tokens := by unfold writeS; split <;> simp
@[simp] theorem writeS_tr (n : Nat) (r : Reg) (x : Word) (l : Nat) : (t.writeS n r x l).tr = t.tr := by unfold writeS; split <;> simp
@[simp] theorem writeS_inHandler (n : Nat) (r : Reg) (x : Word) (l : Nat) : (t.writeS n r x l).inHandler = t.inHandler := by unfold writeS; split <;> simp
@[simp] theorem writeS_tvNext (n : Nat) (r : Reg) (x : Word) (l : Nat) : (t.writeS n r x l).tvNext = t.tvNext := by unfold writeS; split <;> simp
@[simp] theorem writeS_fw (n : Nat) (r : Reg) (x : Word) (l : Nat) : (t.writeS n r x l).fw = t.fw := by unfold writeS; split <;> simp
@[simp] theorem writeS_fqarea (n : Nat) (r : Reg) (x : Word) (l : Nat) : (t.writeS n r x l).fqarea = t.fqarea := by unfold writeS; split <;> simp
@[simp] theorem writeS_fwBase (n : Nat) (r : Reg) (x : Word) (l : Nat) : (t.writeS n r x l).fwBase = t.fwBase := by unfold writeS; split <;> simp
@[simp] theorem writeS_fwBound (n : Nat) (r : Reg) (x : Word) (l : Nat) : (t.writeS n r x l).fwBound = t.fwBound := by unfold writeS; split <;> simp
@[simp] theorem writeS_codeBase (n : Nat) (r : Reg) (x : Word) (l : Nat) : (t.writeS n r x l).codeBase = t.codeBase := by unfold writeS; split <;> simp
@[simp] theorem writeS_codeBound (n : Nat) (r : Reg) (x : Word) (l : Nat) : (t.writeS n r x l).codeBound = t.codeBound := by unfold writeS; split <;> simp
@[simp] theorem writeS_fwCall (n : Nat) (r : Reg) (x : Word) (l : Nat) : (t.writeS n r x l).fwCall = t.fwCall := by unfold writeS; split <;> simp
@[simp] theorem writeS_run (n : Nat) (r : Reg) (x : Word) (l : Nat) : (t.writeS n r x l).run = t.run := by unfold writeS; split <;> simp
@[simp] theorem writeS_barriers (n : Nat) (r : Reg) (x : Word) (l : Nat) : (t.writeS n r x l).barriers = t.barriers := by unfold writeS; split <;> simp
@[simp] theorem writeS_atBarrier (n : Nat) (r : Reg) (x : Word) (l : Nat) : (t.writeS n r x l).atBarrier = t.atBarrier := by unfold writeS; split <;> simp
@[simp] theorem writeS_due (n : Nat) (r : Reg) (x : Word) (l : Nat) : (t.writeS n r x l).due = t.due := by unfold writeS; split <;> simp
@[simp] theorem writeS_inbox (n : Nat) (r : Reg) (x : Word) (l : Nat) : (t.writeS n r x l).inbox = t.inbox := by unfold writeS; split <;> simp
@[simp] theorem writeS_stopped (n : Nat) (r : Reg) (x : Word) (l : Nat) : (t.writeS n r x l).stopped = t.stopped := by unfold writeS; split <;> simp
@[simp] theorem writeS_stepping (n : Nat) (r : Reg) (x : Word) (l : Nat) : (t.writeS n r x l).stepping = t.stepping := by unfold writeS; split <;> simp
@[simp] theorem writeS_skipBreak (n : Nat) (r : Reg) (x : Word) (l : Nat) : (t.writeS n r x l).skipBreak = t.skipBreak := by unfold writeS; split <;> simp
@[simp] theorem writeS_nissued (n : Nat) (r : Reg) (x : Word) (l : Nat) : (t.writeS n r x l).nissued = t.nissued := by unfold writeS; split <;> simp
@[simp] theorem writeS_stamp (n : Nat) (r : Reg) (x : Word) (l : Nat) : (t.writeS n r x l).stamp = t.stamp := by unfold writeS; split <;> simp
@[simp] theorem writeS_since (n : Nat) (r : Reg) (x : Word) (l : Nat) : (t.writeS n r x l).since = t.since := by unfold writeS; split <;> simp
@[simp] theorem writeS_yieldedAt (n : Nat) (r : Reg) (x : Word) (l : Nat) : (t.writeS n r x l).yieldedAt = t.yieldedAt := by unfold writeS; split <;> simp
@[simp] theorem writeS_lastIssue (n : Nat) (r : Reg) (x : Word) (l : Nat) : (t.writeS n r x l).lastIssue = t.lastIssue := by unfold writeS; split <;> simp
@[simp] theorem writeS_holdUntil (n : Nat) (r : Reg) (x : Word) (l : Nat) : (t.writeS n r x l).holdUntil = t.holdUntil := by unfold writeS; split <;> simp
@[simp] theorem writeS_waitCount (n : Nat) (r : Reg) (x : Word) (l : Nat) : (t.writeS n r x l).waitCount = t.waitCount := by unfold writeS; split <;> simp
@[simp] theorem writeS_held (n : Nat) (r : Reg) (x : Word) (l : Nat) : (t.writeS n r x l).held = t.held := by unfold writeS; split <;> simp
@[simp] theorem writeS_fills (n : Nat) (r : Reg) (x : Word) (l : Nat) : (t.writeS n r x l).fills = t.fills := by unfold writeS; split <;> simp
@[simp] theorem writeS_fillCycle (n : Nat) (r : Reg) (x : Word) (l : Nat) : (t.writeS n r x l).fillCycle = t.fillCycle := by unfold writeS; split <;> simp
@[simp] theorem writeS_owed (n : Nat) (r : Reg) (x : Word) (l : Nat) : (t.writeS n r x l).owed = t.owed := by unfold writeS; split <;> simp
@[simp] theorem writeS_draining (n : Nat) (r : Reg) (x : Word) (l : Nat) : (t.writeS n r x l).draining = t.draining := by unfold writeS; split <;> simp

@[simp] theorem writeV_gtid (n : Nat) (r : Reg) (x : VWord) (l : Nat) : (t.writeV n r x l).gtid = t.gtid := rfl
@[simp] theorem writeV_part (n : Nat) (r : Reg) (x : VWord) (l : Nat) : (t.writeV n r x l).part = t.part := rfl
@[simp] theorem writeV_capid (n : Nat) (r : Reg) (x : VWord) (l : Nat) : (t.writeV n r x l).capid = t.capid := rfl
@[simp] theorem writeV_bodygen (n : Nat) (r : Reg) (x : VWord) (l : Nat) : (t.writeV n r x l).bodygen = t.bodygen := rfl
@[simp] theorem writeV_pc (n : Nat) (r : Reg) (x : VWord) (l : Nat) : (t.writeV n r x l).pc = t.pc := rfl
@[simp] theorem writeV_s (n : Nat) (r : Reg) (x : VWord) (l : Nat) : (t.writeV n r x l).s = t.s := rfl
@[simp] theorem writeV_p (n : Nat) (r : Reg) (x : VWord) (l : Nat) : (t.writeV n r x l).p = t.p := rfl
@[simp] theorem writeV_m (n : Nat) (r : Reg) (x : VWord) (l : Nat) : (t.writeV n r x l).m = t.m := rfl
@[simp] theorem writeV_g (n : Nat) (r : Reg) (x : VWord) (l : Nat) : (t.writeV n r x l).g = t.g := rfl
@[simp] theorem writeV_sFull (n : Nat) (r : Reg) (x : VWord) (l : Nat) : (t.writeV n r x l).sFull = t.sFull := rfl
@[simp] theorem writeV_vFull (n : Nat) (r : Reg) (x : VWord) (l : Nat) : (t.writeV n r x l).vFull = t.vFull := rfl
@[simp] theorem writeV_mFull (n : Nat) (r : Reg) (x : VWord) (l : Nat) : (t.writeV n r x l).mFull = t.mFull := rfl
@[simp] theorem writeV_sErr (n : Nat) (r : Reg) (x : VWord) (l : Nat) : (t.writeV n r x l).sErr = t.sErr := rfl
@[simp] theorem writeV_fpend (n : Nat) (r : Reg) (x : VWord) (l : Nat) : (t.writeV n r x l).fpend = t.fpend := rfl
@[simp] theorem writeV_fmtword (n : Nat) (r : Reg) (x : VWord) (l : Nat) : (t.writeV n r x l).fmtword = t.fmtword := rfl
@[simp] theorem writeV_fmtPc (n : Nat) (r : Reg) (x : VWord) (l : Nat) : (t.writeV n r x l).fmtPc = t.fmtPc := rfl
@[simp] theorem writeV_priv (n : Nat) (r : Reg) (x : VWord) (l : Nat) : (t.writeV n r x l).priv = t.priv := rfl
@[simp] theorem writeV_domain (n : Nat) (r : Reg) (x : VWord) (l : Nat) : (t.writeV n r x l).domain = t.domain := rfl
@[simp] theorem writeV_tile (n : Nat) (r : Reg) (x : VWord) (l : Nat) : (t.writeV n r x l).tile = t.tile := rfl
@[simp] theorem writeV_gang (n : Nat) (r : Reg) (x : VWord) (l : Nat) : (t.writeV n r x l).gang = t.gang := rfl
@[simp] theorem writeV_grank (n : Nat) (r : Reg) (x : VWord) (l : Nat) : (t.writeV n r x l).grank = t.grank := rfl
@[simp] theorem writeV_gsize (n : Nat) (r : Reg) (x : VWord) (l : Nat) : (t.writeV n r x l).gsize = t.gsize := rfl
@[simp] theorem writeV_home (n : Nat) (r : Reg) (x : VWord) (l : Nat) : (t.writeV n r x l).home = t.home := rfl
@[simp] theorem writeV_prio (n : Nat) (r : Reg) (x : VWord) (l : Nat) : (t.writeV n r x l).prio = t.prio := rfl
@[simp] theorem writeV_launch (n : Nat) (r : Reg) (x : VWord) (l : Nat) : (t.writeV n r x l).launch = t.launch := rfl
@[simp] theorem writeV_root (n : Nat) (r : Reg) (x : VWord) (l : Nat) : (t.writeV n r x l).root = t.root := rfl
@[simp] theorem writeV_step (n : Nat) (r : Reg) (x : VWord) (l : Nat) : (t.writeV n r x l).step = t.step := rfl
@[simp] theorem writeV_sched (n : Nat) (r : Reg) (x : VWord) (l : Nat) : (t.writeV n r x l).sched = t.sched := rfl
@[simp] theorem writeV_join (n : Nat) (r : Reg) (x : VWord) (l : Nat) : (t.writeV n r x l).join = t.join := rfl
@[simp] theorem writeV_tokens (n : Nat) (r : Reg) (x : VWord) (l : Nat) : (t.writeV n r x l).tokens = t.tokens := rfl
@[simp] theorem writeV_tr (n : Nat) (r : Reg) (x : VWord) (l : Nat) : (t.writeV n r x l).tr = t.tr := rfl
@[simp] theorem writeV_inHandler (n : Nat) (r : Reg) (x : VWord) (l : Nat) : (t.writeV n r x l).inHandler = t.inHandler := rfl
@[simp] theorem writeV_tvNext (n : Nat) (r : Reg) (x : VWord) (l : Nat) : (t.writeV n r x l).tvNext = t.tvNext := rfl
@[simp] theorem writeV_fw (n : Nat) (r : Reg) (x : VWord) (l : Nat) : (t.writeV n r x l).fw = t.fw := rfl
@[simp] theorem writeV_fqarea (n : Nat) (r : Reg) (x : VWord) (l : Nat) : (t.writeV n r x l).fqarea = t.fqarea := rfl
@[simp] theorem writeV_fwBase (n : Nat) (r : Reg) (x : VWord) (l : Nat) : (t.writeV n r x l).fwBase = t.fwBase := rfl
@[simp] theorem writeV_fwBound (n : Nat) (r : Reg) (x : VWord) (l : Nat) : (t.writeV n r x l).fwBound = t.fwBound := rfl
@[simp] theorem writeV_codeBase (n : Nat) (r : Reg) (x : VWord) (l : Nat) : (t.writeV n r x l).codeBase = t.codeBase := rfl
@[simp] theorem writeV_codeBound (n : Nat) (r : Reg) (x : VWord) (l : Nat) : (t.writeV n r x l).codeBound = t.codeBound := rfl
@[simp] theorem writeV_fwCall (n : Nat) (r : Reg) (x : VWord) (l : Nat) : (t.writeV n r x l).fwCall = t.fwCall := rfl
@[simp] theorem writeV_run (n : Nat) (r : Reg) (x : VWord) (l : Nat) : (t.writeV n r x l).run = t.run := rfl
@[simp] theorem writeV_barriers (n : Nat) (r : Reg) (x : VWord) (l : Nat) : (t.writeV n r x l).barriers = t.barriers := rfl
@[simp] theorem writeV_atBarrier (n : Nat) (r : Reg) (x : VWord) (l : Nat) : (t.writeV n r x l).atBarrier = t.atBarrier := rfl
@[simp] theorem writeV_due (n : Nat) (r : Reg) (x : VWord) (l : Nat) : (t.writeV n r x l).due = t.due := rfl
@[simp] theorem writeV_inbox (n : Nat) (r : Reg) (x : VWord) (l : Nat) : (t.writeV n r x l).inbox = t.inbox := rfl
@[simp] theorem writeV_stopped (n : Nat) (r : Reg) (x : VWord) (l : Nat) : (t.writeV n r x l).stopped = t.stopped := rfl
@[simp] theorem writeV_stepping (n : Nat) (r : Reg) (x : VWord) (l : Nat) : (t.writeV n r x l).stepping = t.stepping := rfl
@[simp] theorem writeV_skipBreak (n : Nat) (r : Reg) (x : VWord) (l : Nat) : (t.writeV n r x l).skipBreak = t.skipBreak := rfl
@[simp] theorem writeV_nissued (n : Nat) (r : Reg) (x : VWord) (l : Nat) : (t.writeV n r x l).nissued = t.nissued := rfl
@[simp] theorem writeV_stamp (n : Nat) (r : Reg) (x : VWord) (l : Nat) : (t.writeV n r x l).stamp = t.stamp := rfl
@[simp] theorem writeV_since (n : Nat) (r : Reg) (x : VWord) (l : Nat) : (t.writeV n r x l).since = t.since := rfl
@[simp] theorem writeV_yieldedAt (n : Nat) (r : Reg) (x : VWord) (l : Nat) : (t.writeV n r x l).yieldedAt = t.yieldedAt := rfl
@[simp] theorem writeV_lastIssue (n : Nat) (r : Reg) (x : VWord) (l : Nat) : (t.writeV n r x l).lastIssue = t.lastIssue := rfl
@[simp] theorem writeV_holdUntil (n : Nat) (r : Reg) (x : VWord) (l : Nat) : (t.writeV n r x l).holdUntil = t.holdUntil := rfl
@[simp] theorem writeV_waitCount (n : Nat) (r : Reg) (x : VWord) (l : Nat) : (t.writeV n r x l).waitCount = t.waitCount := rfl
@[simp] theorem writeV_held (n : Nat) (r : Reg) (x : VWord) (l : Nat) : (t.writeV n r x l).held = t.held := rfl
@[simp] theorem writeV_fills (n : Nat) (r : Reg) (x : VWord) (l : Nat) : (t.writeV n r x l).fills = t.fills := rfl
@[simp] theorem writeV_fillCycle (n : Nat) (r : Reg) (x : VWord) (l : Nat) : (t.writeV n r x l).fillCycle = t.fillCycle := rfl
@[simp] theorem writeV_owed (n : Nat) (r : Reg) (x : VWord) (l : Nat) : (t.writeV n r x l).owed = t.owed := rfl
@[simp] theorem writeV_draining (n : Nat) (r : Reg) (x : VWord) (l : Nat) : (t.writeV n r x l).draining = t.draining := rfl

@[simp] theorem writeP_gtid (n : Nat) (r : BitVec 3) (x : PWord) (l : Nat) : (t.writeP n r x l).gtid = t.gtid := by unfold writeP; split <;> simp
@[simp] theorem writeP_part (n : Nat) (r : BitVec 3) (x : PWord) (l : Nat) : (t.writeP n r x l).part = t.part := by unfold writeP; split <;> simp
@[simp] theorem writeP_capid (n : Nat) (r : BitVec 3) (x : PWord) (l : Nat) : (t.writeP n r x l).capid = t.capid := by unfold writeP; split <;> simp
@[simp] theorem writeP_bodygen (n : Nat) (r : BitVec 3) (x : PWord) (l : Nat) : (t.writeP n r x l).bodygen = t.bodygen := by unfold writeP; split <;> simp
@[simp] theorem writeP_pc (n : Nat) (r : BitVec 3) (x : PWord) (l : Nat) : (t.writeP n r x l).pc = t.pc := by unfold writeP; split <;> simp
@[simp] theorem writeP_s (n : Nat) (r : BitVec 3) (x : PWord) (l : Nat) : (t.writeP n r x l).s = t.s := by unfold writeP; split <;> simp
@[simp] theorem writeP_v (n : Nat) (r : BitVec 3) (x : PWord) (l : Nat) : (t.writeP n r x l).v = t.v := by unfold writeP; split <;> simp
@[simp] theorem writeP_m (n : Nat) (r : BitVec 3) (x : PWord) (l : Nat) : (t.writeP n r x l).m = t.m := by unfold writeP; split <;> simp
@[simp] theorem writeP_g (n : Nat) (r : BitVec 3) (x : PWord) (l : Nat) : (t.writeP n r x l).g = t.g := by unfold writeP; split <;> simp
@[simp] theorem writeP_sFull (n : Nat) (r : BitVec 3) (x : PWord) (l : Nat) : (t.writeP n r x l).sFull = t.sFull := by unfold writeP; split <;> simp
@[simp] theorem writeP_vFull (n : Nat) (r : BitVec 3) (x : PWord) (l : Nat) : (t.writeP n r x l).vFull = t.vFull := by unfold writeP; split <;> simp
@[simp] theorem writeP_mFull (n : Nat) (r : BitVec 3) (x : PWord) (l : Nat) : (t.writeP n r x l).mFull = t.mFull := by unfold writeP; split <;> simp
@[simp] theorem writeP_sErr (n : Nat) (r : BitVec 3) (x : PWord) (l : Nat) : (t.writeP n r x l).sErr = t.sErr := by unfold writeP; split <;> simp
@[simp] theorem writeP_vErr (n : Nat) (r : BitVec 3) (x : PWord) (l : Nat) : (t.writeP n r x l).vErr = t.vErr := by unfold writeP; split <;> simp
@[simp] theorem writeP_fpend (n : Nat) (r : BitVec 3) (x : PWord) (l : Nat) : (t.writeP n r x l).fpend = t.fpend := by unfold writeP; split <;> simp
@[simp] theorem writeP_fmtword (n : Nat) (r : BitVec 3) (x : PWord) (l : Nat) : (t.writeP n r x l).fmtword = t.fmtword := by unfold writeP; split <;> simp
@[simp] theorem writeP_fmtPc (n : Nat) (r : BitVec 3) (x : PWord) (l : Nat) : (t.writeP n r x l).fmtPc = t.fmtPc := by unfold writeP; split <;> simp
@[simp] theorem writeP_priv (n : Nat) (r : BitVec 3) (x : PWord) (l : Nat) : (t.writeP n r x l).priv = t.priv := by unfold writeP; split <;> simp
@[simp] theorem writeP_domain (n : Nat) (r : BitVec 3) (x : PWord) (l : Nat) : (t.writeP n r x l).domain = t.domain := by unfold writeP; split <;> simp
@[simp] theorem writeP_tile (n : Nat) (r : BitVec 3) (x : PWord) (l : Nat) : (t.writeP n r x l).tile = t.tile := by unfold writeP; split <;> simp
@[simp] theorem writeP_gang (n : Nat) (r : BitVec 3) (x : PWord) (l : Nat) : (t.writeP n r x l).gang = t.gang := by unfold writeP; split <;> simp
@[simp] theorem writeP_grank (n : Nat) (r : BitVec 3) (x : PWord) (l : Nat) : (t.writeP n r x l).grank = t.grank := by unfold writeP; split <;> simp
@[simp] theorem writeP_gsize (n : Nat) (r : BitVec 3) (x : PWord) (l : Nat) : (t.writeP n r x l).gsize = t.gsize := by unfold writeP; split <;> simp
@[simp] theorem writeP_home (n : Nat) (r : BitVec 3) (x : PWord) (l : Nat) : (t.writeP n r x l).home = t.home := by unfold writeP; split <;> simp
@[simp] theorem writeP_prio (n : Nat) (r : BitVec 3) (x : PWord) (l : Nat) : (t.writeP n r x l).prio = t.prio := by unfold writeP; split <;> simp
@[simp] theorem writeP_launch (n : Nat) (r : BitVec 3) (x : PWord) (l : Nat) : (t.writeP n r x l).launch = t.launch := by unfold writeP; split <;> simp
@[simp] theorem writeP_root (n : Nat) (r : BitVec 3) (x : PWord) (l : Nat) : (t.writeP n r x l).root = t.root := by unfold writeP; split <;> simp
@[simp] theorem writeP_step (n : Nat) (r : BitVec 3) (x : PWord) (l : Nat) : (t.writeP n r x l).step = t.step := by unfold writeP; split <;> simp
@[simp] theorem writeP_sched (n : Nat) (r : BitVec 3) (x : PWord) (l : Nat) : (t.writeP n r x l).sched = t.sched := by unfold writeP; split <;> simp
@[simp] theorem writeP_join (n : Nat) (r : BitVec 3) (x : PWord) (l : Nat) : (t.writeP n r x l).join = t.join := by unfold writeP; split <;> simp
@[simp] theorem writeP_tokens (n : Nat) (r : BitVec 3) (x : PWord) (l : Nat) : (t.writeP n r x l).tokens = t.tokens := by unfold writeP; split <;> simp
@[simp] theorem writeP_tr (n : Nat) (r : BitVec 3) (x : PWord) (l : Nat) : (t.writeP n r x l).tr = t.tr := by unfold writeP; split <;> simp
@[simp] theorem writeP_inHandler (n : Nat) (r : BitVec 3) (x : PWord) (l : Nat) : (t.writeP n r x l).inHandler = t.inHandler := by unfold writeP; split <;> simp
@[simp] theorem writeP_tvNext (n : Nat) (r : BitVec 3) (x : PWord) (l : Nat) : (t.writeP n r x l).tvNext = t.tvNext := by unfold writeP; split <;> simp
@[simp] theorem writeP_fw (n : Nat) (r : BitVec 3) (x : PWord) (l : Nat) : (t.writeP n r x l).fw = t.fw := by unfold writeP; split <;> simp
@[simp] theorem writeP_fqarea (n : Nat) (r : BitVec 3) (x : PWord) (l : Nat) : (t.writeP n r x l).fqarea = t.fqarea := by unfold writeP; split <;> simp
@[simp] theorem writeP_fwBase (n : Nat) (r : BitVec 3) (x : PWord) (l : Nat) : (t.writeP n r x l).fwBase = t.fwBase := by unfold writeP; split <;> simp
@[simp] theorem writeP_fwBound (n : Nat) (r : BitVec 3) (x : PWord) (l : Nat) : (t.writeP n r x l).fwBound = t.fwBound := by unfold writeP; split <;> simp
@[simp] theorem writeP_codeBase (n : Nat) (r : BitVec 3) (x : PWord) (l : Nat) : (t.writeP n r x l).codeBase = t.codeBase := by unfold writeP; split <;> simp
@[simp] theorem writeP_codeBound (n : Nat) (r : BitVec 3) (x : PWord) (l : Nat) : (t.writeP n r x l).codeBound = t.codeBound := by unfold writeP; split <;> simp
@[simp] theorem writeP_fwCall (n : Nat) (r : BitVec 3) (x : PWord) (l : Nat) : (t.writeP n r x l).fwCall = t.fwCall := by unfold writeP; split <;> simp
@[simp] theorem writeP_run (n : Nat) (r : BitVec 3) (x : PWord) (l : Nat) : (t.writeP n r x l).run = t.run := by unfold writeP; split <;> simp
@[simp] theorem writeP_barriers (n : Nat) (r : BitVec 3) (x : PWord) (l : Nat) : (t.writeP n r x l).barriers = t.barriers := by unfold writeP; split <;> simp
@[simp] theorem writeP_atBarrier (n : Nat) (r : BitVec 3) (x : PWord) (l : Nat) : (t.writeP n r x l).atBarrier = t.atBarrier := by unfold writeP; split <;> simp
@[simp] theorem writeP_due (n : Nat) (r : BitVec 3) (x : PWord) (l : Nat) : (t.writeP n r x l).due = t.due := by unfold writeP; split <;> simp
@[simp] theorem writeP_inbox (n : Nat) (r : BitVec 3) (x : PWord) (l : Nat) : (t.writeP n r x l).inbox = t.inbox := by unfold writeP; split <;> simp
@[simp] theorem writeP_stopped (n : Nat) (r : BitVec 3) (x : PWord) (l : Nat) : (t.writeP n r x l).stopped = t.stopped := by unfold writeP; split <;> simp
@[simp] theorem writeP_stepping (n : Nat) (r : BitVec 3) (x : PWord) (l : Nat) : (t.writeP n r x l).stepping = t.stepping := by unfold writeP; split <;> simp
@[simp] theorem writeP_skipBreak (n : Nat) (r : BitVec 3) (x : PWord) (l : Nat) : (t.writeP n r x l).skipBreak = t.skipBreak := by unfold writeP; split <;> simp
@[simp] theorem writeP_nissued (n : Nat) (r : BitVec 3) (x : PWord) (l : Nat) : (t.writeP n r x l).nissued = t.nissued := by unfold writeP; split <;> simp
@[simp] theorem writeP_stamp (n : Nat) (r : BitVec 3) (x : PWord) (l : Nat) : (t.writeP n r x l).stamp = t.stamp := by unfold writeP; split <;> simp
@[simp] theorem writeP_since (n : Nat) (r : BitVec 3) (x : PWord) (l : Nat) : (t.writeP n r x l).since = t.since := by unfold writeP; split <;> simp
@[simp] theorem writeP_yieldedAt (n : Nat) (r : BitVec 3) (x : PWord) (l : Nat) : (t.writeP n r x l).yieldedAt = t.yieldedAt := by unfold writeP; split <;> simp
@[simp] theorem writeP_lastIssue (n : Nat) (r : BitVec 3) (x : PWord) (l : Nat) : (t.writeP n r x l).lastIssue = t.lastIssue := by unfold writeP; split <;> simp
@[simp] theorem writeP_holdUntil (n : Nat) (r : BitVec 3) (x : PWord) (l : Nat) : (t.writeP n r x l).holdUntil = t.holdUntil := by unfold writeP; split <;> simp
@[simp] theorem writeP_waitCount (n : Nat) (r : BitVec 3) (x : PWord) (l : Nat) : (t.writeP n r x l).waitCount = t.waitCount := by unfold writeP; split <;> simp
@[simp] theorem writeP_held (n : Nat) (r : BitVec 3) (x : PWord) (l : Nat) : (t.writeP n r x l).held = t.held := by unfold writeP; split <;> simp
@[simp] theorem writeP_fills (n : Nat) (r : BitVec 3) (x : PWord) (l : Nat) : (t.writeP n r x l).fills = t.fills := by unfold writeP; split <;> simp
@[simp] theorem writeP_fillCycle (n : Nat) (r : BitVec 3) (x : PWord) (l : Nat) : (t.writeP n r x l).fillCycle = t.fillCycle := by unfold writeP; split <;> simp
@[simp] theorem writeP_owed (n : Nat) (r : BitVec 3) (x : PWord) (l : Nat) : (t.writeP n r x l).owed = t.owed := by unfold writeP; split <;> simp
@[simp] theorem writeP_draining (n : Nat) (r : BitVec 3) (x : PWord) (l : Nat) : (t.writeP n r x l).draining = t.draining := by unfold writeP; split <;> simp

end Task

end Sys2Proof.Machine
end

