-- ==== Sys2Proof/Laws/Memory.lean ====
section
/-! SUPPORT. Maps and memory: a read after a write, what a write leaves alone, and that every operation over memory keeps its
canonical form. -/

namespace Sys2Proof.Machine

/-! ### Maps -/

@[simp] theorem mapGet_mapSet_self {α : Type} (m : Map α) (k : Nat) (a : α) : mapGet (mapSet m k a) k = some a := by
  induction m with
  | nil => simp [mapSet, mapGet]
  | cons e r ih =>
    obtain ⟨x, b⟩ := e
    simp only [mapSet]
    split
    · next h => simp [mapGet, Nat.ne_of_lt h, ih]
    · split <;> simp [mapGet]

@[simp] theorem mapGet_mapSet_ne {α : Type} (m : Map α) {k j : Nat} (h : j ≠ k) (a : α) : mapGet (mapSet m k a) j = mapGet m j := by
  induction m with
  | nil => simp [mapSet, mapGet, h.symm]
  | cons e r ih =>
    obtain ⟨x, b⟩ := e
    simp only [mapSet]
    split
    · simp only [mapGet, ih]
    · split
      · next hx => subst hx; simp [mapGet, h.symm]
      · simp [mapGet, h.symm]

theorem mapGet_mapErase {α : Type} (m : Map α) (k j : Nat) : mapGet (mapErase m k) j = if j = k then none else mapGet m j := by
  induction m with
  | nil => simp [mapErase, mapGet]
  | cons e r ih =>
    obtain ⟨x, b⟩ := e
    simp only [mapErase, List.filter_cons] at *
    by_cases hx : x = k
    · subst hx
      simp only [bne_self_eq_false, Bool.false_eq_true, if_false, ih, mapGet]
      by_cases hj : j = x
      · simp [hj]
      · simp [hj, Ne.symm hj]
    · simp only [bne_iff_ne, ne_eq, hx, not_false_eq_true, if_true, mapGet, ih]
      by_cases hj : x = j
      · subst hj; simp [hx]
      · simp [hj]

/-! ### Bytes -/

theorem Mem.wfFrom_mono {lo lo' : Nat} (h : lo' ≤ lo) : ∀ {m : Mem}, Mem.wfFrom lo m = true → Mem.wfFrom lo' m = true
  | [], _ => rfl
  | (a, b) :: r, w => by
    simp only [Mem.wfFrom, Bool.and_eq_true, decide_eq_true_eq] at *
    exact ⟨⟨by omega, w.1.2⟩, w.2⟩

theorem memGet_below {lo a : Nat} (h : a < lo) : ∀ {m : Mem}, Mem.wfFrom lo m = true → memGet m a = fillByte
  | [], _ => rfl
  | (x, b) :: r, w => by
    simp only [Mem.wfFrom, Bool.and_eq_true, decide_eq_true_eq] at w
    have : x ≠ a := by omega
    simp only [memGet, this, if_false]
    exact memGet_below (lo := x + 1) (by omega) w.2

theorem memSet_wfFrom {lo a : Nat} (b : Byte) (h : lo ≤ a) :
    ∀ {m : Mem}, Mem.wfFrom lo m = true → Mem.wfFrom lo (memSet m a b) = true
  | [], _ => by
    simp only [memSet]
    split
    · rfl
    · next hb => simp [Mem.wfFrom, h, hb]
  | (x, c) :: r, w => by
    simp only [Mem.wfFrom, Bool.and_eq_true, decide_eq_true_eq] at w
    simp only [memSet]
    split
    · next hx =>
      simp only [Mem.wfFrom, Bool.and_eq_true, decide_eq_true_eq]
      exact ⟨w.1, memSet_wfFrom b (by omega) w.2⟩
    · split
      · next hx =>
        subst hx
        split
        · exact Mem.wfFrom_mono (by omega) w.2
        · next hb => simp [Mem.wfFrom, w.1.1, hb, w.2]
      · split
        · simp [Mem.wfFrom, w.1, w.2]
        · next hb =>
          simp only [Mem.wfFrom, Bool.and_eq_true, decide_eq_true_eq]
          exact ⟨⟨h, by simp [hb]⟩, ⟨by omega, w.1.2⟩, w.2⟩

theorem memGet_memSet_self {lo a : Nat} (b : Byte) : ∀ {m : Mem}, Mem.wfFrom lo m = true → memGet (memSet m a b) a = b
  | [], _ => by
    simp only [memSet]
    split
    · next hb => simp [memGet, hb]
    · simp [memGet]
  | (x, c) :: r, w => by
    simp only [Mem.wfFrom, Bool.and_eq_true, decide_eq_true_eq] at w
    simp only [memSet]
    split
    · next hx => simp [memGet, Nat.ne_of_lt hx, memGet_memSet_self b w.2]
    · split
      · next hx =>
        subst hx
        split
        · next hb => rw [hb]; exact memGet_below (by omega) w.2
        · simp [memGet]
      · next h1 h2 =>
        split
        · next hb =>
          simp only [memGet, h2, if_false, hb]
          exact memGet_below (lo := x + 1) (by omega) w.2
        · simp [memGet]

/-- A write of one byte leaves every other byte alone. -/
theorem memGet_memSet_ne {a a' : Nat} (b : Byte) (h : a' ≠ a) : ∀ {m : Mem}, memGet (memSet m a b) a' = memGet m a'
  | [] => by
    simp only [memSet]
    split <;> simp [memGet, h.symm]
  | (x, c) :: r => by
    simp only [memSet]
    split
    · simp only [memGet, memGet_memSet_ne b h]
    · split
      · next hx => subst hx; split <;> simp [memGet, h.symm]
      · split <;> simp [memGet, h.symm]

theorem memSet_wf {m : Mem} (a : Nat) (b : Byte) (w : Mem.wf m = true) : Mem.wf (memSet m a b) = true :=
  memSet_wfFrom b (Nat.zero_le a) w

theorem memWrite_wf (bs : List Byte) : ∀ {m : Mem} (a : Nat), Mem.wf m = true → Mem.wf (memWrite m a bs) = true := by
  induction bs with
  | nil => intro m a w; exact w
  | cons b r ih => intro m a w; exact ih (a + 1) (memSet_wf a b w)

/-- A write leaves every byte outside its range alone. -/
theorem memGet_memWrite_out (bs : List Byte) :
    ∀ {m : Mem} {a a' : Nat}, (a' < a ∨ a + bs.length ≤ a') → memGet (memWrite m a bs) a' = memGet m a' := by
  induction bs with
  | nil => intro m a a' _; rfl
  | cons b r ih =>
    intro m a a' h
    simp only [List.length_cons] at h
    rw [memWrite, ih (by omega), memGet_memSet_ne b (by omega)]

/-- A byte reads as the write left it. -/
theorem memGet_memWrite_in (bs : List Byte) :
    ∀ {m : Mem} {a i : Nat}, Mem.wf m = true → (h : i < bs.length) → memGet (memWrite m a bs) (a + i) = bs[i] := by
  induction bs with
  | nil => intro m a i _ h; simp at h
  | cons b r ih =>
    intro m a i w h
    cases i with
    | zero =>
      rw [memWrite, memGet_memWrite_out r (by omega)]
      exact memGet_memSet_self b w
    | succ j =>
      have := ih (m := memSet m a b) (a := a + 1) (i := j) (memSet_wf a b w) (by simpa using h)
      rw [memWrite, show a + (j + 1) = a + 1 + j from by omega, this]
      simp

/-- What a write stored is what a read gives. -/
theorem memRead_memWrite (bs : List Byte) {m : Mem} (a : Nat) (w : Mem.wf m = true) : memRead (memWrite m a bs) a bs.length = bs := by
  apply List.ext_getElem (by simp [memRead])
  intro i h1 h2
  simp only [memRead, List.getElem_map, List.getElem_range]
  exact memGet_memWrite_in bs w h2

theorem filter_wfFrom (p : Host.Cell → Bool) : ∀ {lo : Nat} {m : Mem}, Mem.wfFrom lo m = true → Mem.wfFrom lo (m.filter p) = true
  | _, [], _ => rfl
  | lo, (a, b) :: r, w => by
    simp only [Mem.wfFrom, Bool.and_eq_true, decide_eq_true_eq] at w
    simp only [List.filter_cons]
    split
    · simp only [Mem.wfFrom, Bool.and_eq_true, decide_eq_true_eq]
      exact ⟨w.1, filter_wfFrom p w.2⟩
    · exact Mem.wfFrom_mono (by omega) (filter_wfFrom p w.2)

theorem memClear_wf {m : Mem} (lo hi : Nat) (w : Mem.wf m = true) : Mem.wf (memClear m lo hi) = true := filter_wfFrom _ w

theorem memGet_filter (p : Host.Cell → Bool) (a : Nat) :
    ∀ {m : Mem}, (∀ b, p (a, b) = true) → memGet (m.filter p) a = memGet m a
  | [], _ => rfl
  | (x, b) :: r, h => by
    simp only [List.filter_cons]
    by_cases hx : x = a
    · subst hx; simp [h b, memGet]
    · split
      · simp only [memGet, hx, if_false, memGet_filter p a h]
      · simp only [memGet, hx, if_false, memGet_filter p a h]

/-- Clearing a range leaves every byte outside it alone. -/
theorem memGet_memClear_out (m : Mem) {lo hi a : Nat} (h : a < lo ∨ hi ≤ a) : memGet (memClear m lo hi) a = memGet m a :=
  memGet_filter _ a (fun _ => by simpa using h)

/-! ### The state's memory -/

namespace State

variable (s : State)

@[simp] theorem task_setTask (t : Task) : (s.setTask t).task = t := by simp [task, setTask, putTask, taskAt]

@[simp] theorem taskAt_putTask_self (k : Nat) (t : Task) : (s.putTask k t).taskAt k = t := by simp [putTask, taskAt]

theorem taskAt_putTask_ne {k j : Nat} (h : j ≠ k) (t : Task) : (s.putTask k t).taskAt j = s.taskAt j := by
  simp [putTask, taskAt, h]

@[simp] theorem setTask_setTask (t u : Task) : (s.setTask t).setTask u = s.setTask u := by
  have go {α : Type} (m : Map α) (k : Nat) (a b : α) : mapSet (mapSet m k a) k b = mapSet m k b := by
    induction m with
    | nil => simp [mapSet]
    | cons e r ih =>
      obtain ⟨x, c⟩ := e
      by_cases h : x < k
      · simp [mapSet, h, ih]
      · by_cases h2 : x = k
        · subst h2; simp [mapSet]
        · simp [mapSet, h, h2]
  simp [setTask, putTask, go]

/-- A store keeps memory canonical. -/
theorem store_memWf (a : Nat) (bs : List Byte) (w : Mem.wf s.mem = true) : Mem.wf (s.store a bs).mem = true := by
  simpa using memWrite_wf bs a w

/-- A store leaves every byte outside its range alone. -/
theorem store_out (a a' : Nat) (bs : List Byte) (h : a' < a ∨ a + bs.length ≤ a') :
    memGet (s.store a bs).mem a' = memGet s.mem a' := by simpa using memGet_memWrite_out bs h

end State

theorem reset_mem_wf : Mem.wf State.reset.mem = true := rfl

end Sys2Proof.Machine
end

