-- ==== Sys2Proof/Laws/Frame.lean ====
section
/-! SUPPORT. What the shared operations of encoded instructions can do: the frame of an instruction, completion, branches and
the scalar, compare and predicate forms. -/

namespace Sys2Proof.Machine

namespace State

variable {s : State}

/-! ### Tasks under operations that change other parts of the machine -/

@[simp] theorem taskAt_record (j k kind sub : Nat) (g : Word) (pay : Nat) : (s.record k kind sub g pay).taskAt j = s.taskAt j := rfl
@[simp] theorem taskAt_recordSched (j k sub row : Nat) (g : Word) : (s.recordSched k sub row g).taskAt j = s.taskAt j := rfl
@[simp] theorem taskAt_modTile (j k : Nat) (f : Tile → Tile) : (s.modTile k f).taskAt j = s.taskAt j := rfl
@[simp] theorem taskAt_modVTile (j p vt : Nat) (f : VTile → VTile) : (s.modVTile p vt f).taskAt j = s.taskAt j := rfl
@[simp] theorem taskAt_modCore (j c : Nat) (f : Core → Core) : (s.modCore c f).taskAt j = s.taskAt j := rfl
@[simp] theorem taskAt_modCounts (j p c : Nat) (f : Counters → Counters) : (s.modCounts p c f).taskAt j = s.taskAt j := rfl
@[simp] theorem taskAt_setDeque (j p c : Nat) (l : List Task) : (s.setDeque p c l).taskAt j = s.taskAt j := rfl
@[simp] theorem taskAt_modPart (j p : Nat) (f : Partition → Partition) : (s.modPart p f).taskAt j = s.taskAt j := by
  unfold modPart; split <;> rfl
@[simp] theorem task_record (k kind sub : Nat) (g : Word) (pay : Nat) : (s.record k kind sub g pay).task = s.task := rfl
@[simp] theorem task_recordSched (k sub row : Nat) (g : Word) : (s.recordSched k sub row g).task = s.task := rfl
@[simp] theorem task_modTile (k : Nat) (f : Tile → Tile) : (s.modTile k f).task = s.task := rfl
@[simp] theorem task_modVTile (p vt : Nat) (f : VTile → VTile) : (s.modVTile p vt f).task = s.task := rfl
@[simp] theorem task_modCore (c : Nat) (f : Core → Core) : (s.modCore c f).task = s.task := rfl
@[simp] theorem task_modCounts (p c : Nat) (f : Counters → Counters) : (s.modCounts p c f).task = s.task := rfl
@[simp] theorem task_setDeque (p c : Nat) (l : List Task) : (s.setDeque p c l).task = s.task := rfl
@[simp] theorem task_modPart (p : Nat) (f : Partition → Partition) : (s.modPart p f).task = s.task := by
  unfold modPart; split <;> rfl
@[simp] theorem task_dirty (a n : Nat) : (s.dirty a n).task = s.task := by unfold dirty; split <;> rfl
@[simp] theorem task_store (a : Nat) (bs : List Byte) : (s.store a bs).task = s.task := by simp [store]; rfl

/-- A task that parks keeps everything but its run state; the recorder notes it (02:R36, 27:R387). -/
theorem park_eq {row : Nat} {w : Wake} (h : s.task.stepping = false) :
    s.park row w = (s.setTask { s.task with run := .parked row w }).recordSched s.cur 1 row s.task.gtid := by
  simp [park, h]

theorem park_task {row : Nat} {w : Wake} (h : s.task.stepping = false) : (s.park row w).task = { s.task with run := .parked row w } := by
  simp [park_eq h]

theorem park_mem {row : Nat} {w : Wake} (h : s.task.stepping = false) : (s.park row w).mem = s.mem := by
  simp [park_eq h]

/-- The registers let the task read them (03:R49 to R51). -/
theorem readable_iff {dsts srcs : List RegId} :
    s.readable dsts srcs = true ↔ (∀ r ∈ dsts, s.task.full r = true)
      ∧ (∀ r ∈ srcs, s.task.full r = true ∧ s.task.err r = false) ∧ (srcs ++ dsts).any (s.task.fresh s.cycle) = false
      ∧ s.task.stepping = false := by
  simp only [readable, Task.holds, Bool.and_eq_true, List.all_eq_true, Bool.not_eq_true', and_assoc]

theorem performsG_iff {g : Guard} {dsts srcs : List RegId} :
    s.performsG g dsts srcs = true ↔ s.task.fpend = false ∧ s.task.guard0 g = true ∧ s.readable dsts srcs = true := by
  simp [performsG, and_assoc]

theorem vperforms_iff {dsts srcs : List RegId} :
    s.vperforms dsts srcs = true ↔ s.task.fpend = false ∧ s.readable dsts srcs = true := by
  simp [vperforms]

theorem readable_stepping {dsts srcs : List RegId} (h : s.readable dsts srcs = true) : s.task.stepping = false :=
  (readable_iff.1 h).2.2.2

theorem vperforms_stepping {dsts srcs : List RegId} (h : s.vperforms dsts srcs = true) : s.task.stepping = false :=
  readable_stepping (vperforms_iff.1 h).2

theorem performs_stepping {f : Form} {dsts srcs : List RegId} (h : s.performs f dsts srcs = true) : s.task.stepping = false :=
  readable_stepping (performsG_iff.1 h).2.2

/-- What need not be full for the reads need not be fresh either (09:R157). -/
theorem readable_reads {dsts srcs : List RegId} (h : s.readable dsts srcs = true) : s.readable [] srcs = true := by
  obtain ⟨-, h2, h3, h4⟩ := readable_iff.1 h
  rw [List.any_append, Bool.or_eq_false_iff] at h3
  exact readable_iff.2 ⟨by simp, h2, by simpa using h3.1, h4⟩

theorem performs_reads {f : Form} {dsts srcs : List RegId} (h : s.performs f dsts srcs = true) : s.performs f [] srcs = true := by
  obtain ⟨h1, h2, h3⟩ := performsG_iff.1 h
  exact performsG_iff.2 ⟨h1, h2, readable_reads h3⟩

/-- A destination that can be written lets the instruction complete (09:R157). -/
theorem toWrite_full {dsts srcs : List RegId} {k : State} (h : s.readable dsts srcs = true) : s.toWrite dsts k = k := by
  obtain ⟨h1, -, h3, -⟩ := readable_iff.1 h
  have hf : dsts.find? (fun r => !s.task.full r) = none := List.find?_eq_none.2 fun r hr => by simp [h1 r hr]
  have hn : dsts.any (s.task.fresh s.cycle) = false := by
    rw [List.any_append] at h3; exact (Bool.or_eq_false_iff.1 h3).2
  simp [toWrite, hf, hn]

theorem gateTrap_none {now : Nat} {t : Task} : ∀ {srcs : List (RegId × Bool)},
    (∀ r ∈ srcs.map (·.1), t.full r = true ∧ t.err r = false) → gateTrap now t srcs = none
  | [], _ => rfl
  | (r, eb) :: l, h => by
    simp only [List.map_cons, List.mem_cons, forall_eq_or_imp] at h
    simp [gateTrap, h.1.1, h.1.2, gateTrap_none h.2]

/-- Registers that can be read let the body run. -/
theorem gate_ok {dsts : List RegId} {srcs : List (RegId × Bool)} (h : s.readable dsts (srcs.map (·.1)) = true) :
    gate s.cycle s.task dsts srcs = .ok := by
  obtain ⟨hd, hs, hf, -⟩ := readable_iff.1 h
  have h1 : (srcs.map (·.1) ++ dsts).find? (fun r => !s.task.full r) = none := by
    rw [List.find?_eq_none]
    intro r hr
    rcases List.mem_append.1 hr with hr | hr
    · simp [(hs r hr).1]
    · simp [hd r hr]
  simp [gate, gateTrap_none hs, h1, hf]

/-- A performed instruction runs its body. -/
theorem plainG_performs {g : Guard} {len : Nat} {dsts : List RegId} {srcs : List (RegId × Bool)} {body : Task → State}
    (h : s.performsG g dsts (srcs.map (·.1)) = true) : s.plainG g len dsts srcs body = body s.task := by
  obtain ⟨h1, h2, h3⟩ := performsG_iff.1 h
  simp [plainG, h1, h2, gate_ok h3]

theorem vplain_performs {dsts : List RegId} {srcs : List (RegId × Bool)} {body : Task → State}
    (h : s.vperforms dsts (srcs.map (·.1)) = true) : s.vplain dsts srcs body = body s.task := by
  obtain ⟨h1, h2⟩ := vperforms_iff.1 h
  simp [vplain, h1, gate_ok h2]

/-- A performed instruction runs its body. -/
theorem plain_performs {f : Form} {dsts : List RegId} {srcs : List (RegId × Bool)} {body : Task → State}
    (h : s.performs f dsts (srcs.map (·.1)) = true) : s.plain f dsts srcs body = body s.task := plainG_performs h

/-- A false guard performs nothing: the instruction only completes (10:R166). -/
theorem plain_false {f : Form} {dsts : List RegId} {srcs : List (RegId × Bool)} {body : Task → State}
    (h1 : s.task.fpend = false) (h2 : s.task.guard0 f.guard = false) : s.plain f dsts srcs body = s.complete f.bytes := by
  simp [plain, plainG, h1, h2]

/-- A pending prefix is accepted by no plain instruction (03:R60). -/
theorem plain_prefix {f : Form} {dsts : List RegId} {srcs : List (RegId × Bool)} {body : Task → State}
    (h1 : s.task.fpend = true) : s.plain f dsts srcs body = s.trapC cFORMAT := by
  simp [plain, plainG, h1]

/-- Completion outside a debugger's step. -/
theorem completeWith_after {t : Task} {len : Nat} (h : t.stepping = false) (hp : t.pc = s.task.pc) :
    s.completeWith t len = s.after t len := by
  simp [completeWith, complete, finish, after, h, hp]

theorem complete_after {len : Nat} (h : s.task.stepping = false) : s.complete len = s.after s.task len := by
  simp [complete, finish, after, h]

theorem branch_branched {t : Task} {pc : Word} (h : t.stepping = false) : s.branch t pc = s.branched t pc := by
  simp [branch, finish, branched, h]

theorem jump_lands {t : Task} {pc : Word} (h : s.landsAt pc = true) (ht : t.stepping = false) :
    s.jump t pc = s.branched t pc := by
  have : ((s.codeOf? s.task).map (·.lands pc)).getD false = true := by
    unfold landsAt at h; revert h; cases s.codeOf? s.task <;> simp
  rw [jump, landing, if_pos this, branch_branched ht]

theorem jump_refused {t : Task} {pc : Word} (h : s.landsAt pc = false) :
    s.jump t pc = s.trap { cause := cILLEGAL_TARGET, addr := pc } := by
  have : ((s.codeOf? s.task).map (·.lands pc)).getD false = false := by
    unfold landsAt at h; revert h; cases s.codeOf? s.task <;> simp
  rw [jump, landing, this]; rfl

/-! ### Scalar forms -/

theorem alu_performs {o : AluArgs} {b : Bool} {n : Nat} {f : Word → Word → Word}
    (h : s.performs o.f [.s o.d] (.s o.a :: o.b.reads.map (·.1)) = true) :
    s.alu o b n f = s.after (s.task.writeS s.cycle o.d (f (s.task.getS o.a) (o.b.val s.task b)) n) o.f.bytes := by
  rw [alu, plain_performs (by simpa using h), completeWith_after] <;> simp [performs_stepping h]

theorem divide_performs {o : AluArgs} {b : Bool} {f : Word → Word → Word}
    (h : s.performs o.f [.s o.d] (.s o.a :: o.b.reads.map (·.1)) = true) (hz : o.b.val s.task b ≠ 0) :
    s.divide o b f = s.after (s.task.writeS s.cycle o.d (f (s.task.getS o.a) (o.b.val s.task b)) 20) o.f.bytes := by
  rw [divide, plain_performs (by simpa using performs_reads h), if_neg hz, toWrite_full (performsG_iff.1 h).2.2, completeWith_after] <;>
    simp [performs_stepping h]

theorem divide_zero {o : AluArgs} {b : Bool} {f : Word → Word → Word}
    (h : s.performs o.f [.s o.d] (.s o.a :: o.b.reads.map (·.1)) = true) (hz : o.b.val s.task b = 0) :
    s.divide o b f = s.trapC cDIVIDE_ZERO := by
  rw [divide, plain_performs (by simpa using performs_reads h), if_pos hz]

theorem unary_performs {o : UnArgs} {f : Word → Word} (h : s.performs o.f [.s o.d] [.s o.a] = true) :
    s.unary o f = s.after (s.task.writeS s.cycle o.d (f (s.task.getS o.a)) 1) o.f.bytes := by
  rw [unary, plain_performs (by simpa using h), completeWith_after] <;> simp [performs_stepping h]

theorem aluImm_performs {o : ImmArgs} {b : Bool} {f : Word → Word → Word} (h : s.performs o.f [.s o.d] [.s o.a] = true) :
    s.aluImm o b f = s.after (s.task.writeS s.cycle o.d (f (s.task.getS o.a) (o.imm.val b)) 1) o.f.bytes := by
  rw [aluImm, plain_performs (by simpa using h), completeWith_after] <;> simp [performs_stepping h]

theorem cmp_performs {o : CmpArgs} {c : Cond} (h : s.performs o.f [] (.s o.a :: o.b.reads.map (·.1)) = true) :
    s.cmp o c = s.after (s.task.writeP s.cycle o.p (spread (c.holds (s.task.getS o.a) (o.b.val s.task c.signed))) 1) o.f.bytes := by
  rw [cmp, plain_performs (by simpa using h), completeWith_after] <;> simp [performs_stepping h]

theorem cmpImm_performs {o : CmpImmArgs} {c : Cond} (h : s.performs o.f [] [.s o.a] = true) :
    s.cmpImm o c = s.after (s.task.writeP s.cycle o.p (spread (c.holds (s.task.getS o.a) (o.imm.val c.signed))) 1) o.f.bytes := by
  rw [cmpImm, plain_performs (by simpa using h), completeWith_after] <;> simp [performs_stepping h]

end State

/-! ### Registers -/

namespace Task

variable (t : Task)

@[simp] theorem getS_zero : t.getS 0#5 = 0 := by simp [getS]
@[simp] theorem getP_zero : t.getP 0#3 = BitVec.allOnes 16 := by simp [getP]
@[simp] theorem putS_zero (x : Word) : t.putS 0 x = t := by simp [putS]
@[simp] theorem putP_zero (x : PWord) : t.putP 0 x = t := by simp [putP]

theorem getS_putS_self {r : Reg} (h : r ≠ 0) (x : Word) : (t.putS r x).getS r = x := by
  unfold getS putS
  rw [if_neg h, if_neg h]
  simp

theorem getS_putS_ne {r q : Reg} (h : q ≠ r) (x : Word) : (t.putS r x).getS q = t.getS q := by
  have : r.toNat ≠ q.toNat := fun e => h (BitVec.eq_of_toNat_eq e.symm)
  unfold getS putS
  by_cases hr : r = 0
  · rw [if_pos hr]
  · rw [if_neg hr]; simp [this]

@[simp] theorem getV_putV_self (r : Reg) (x : VWord) : (t.putV r x).getV r = x := by simp [getV, putV]

theorem getV_putV_ne {r q : Reg} (h : q ≠ r) (x : VWord) : (t.putV r x).getV q = t.getV q := by
  have : r.toNat ≠ q.toNat := fun e => h (BitVec.eq_of_toNat_eq e.symm)
  simp [getV, putV, this]

theorem getP_putP_self {r : BitVec 3} (h : r ≠ 0) (x : PWord) : (t.putP r x).getP r = x := by
  unfold getP putP
  rw [if_neg h, if_neg h]
  simp

theorem getP_putP_ne {r q : BitVec 3} (h : q ≠ r) (x : PWord) : (t.putP r x).getP q = t.getP q := by
  have : r.toNat ≠ q.toNat := fun e => h (BitVec.eq_of_toNat_eq e.symm)
  unfold getP putP
  by_cases hr : r = 0
  · rw [if_pos hr]
  · rw [if_neg hr]; simp [this]

end Task

end Sys2Proof.Machine
end

