-- ==== Sys2Proof/Laws/Access.lean ====
section
/-! SUPPORT. What the memory accesses of the current task can do: remote requests, announcements, queued requests and local
accesses. -/

namespace Sys2Proof.Machine

variable {s : State}

/-! ### Tasks under the updates of an access -/

section
variable (t : Task) (m : MemOp) (r : RegId) (b : Bool)

@[simp] theorem bump_gtid : (m.bump t).gtid = t.gtid := by
  unfold MemOp.bump Task.putS; split <;> (try split) <;> rfl
@[simp] theorem bump_part : (m.bump t).part = t.part := by
  unfold MemOp.bump Task.putS; split <;> (try split) <;> rfl
@[simp] theorem bump_pc : (m.bump t).pc = t.pc := by
  unfold MemOp.bump Task.putS; split <;> (try split) <;> rfl
@[simp] theorem bump_stepping : (m.bump t).stepping = t.stepping := by
  unfold MemOp.bump Task.putS; split <;> (try split) <;> rfl
@[simp] theorem bump_nissued : (m.bump t).nissued = t.nissued := by
  unfold MemOp.bump Task.putS; split <;> (try split) <;> rfl
@[simp] theorem setFull_pc : (t.setFull r b).pc = t.pc := by
  cases r
  all_goals simp only [Task.setFull] <;> (try split) <;> rfl
@[simp] theorem setFull_stepping : (t.setFull r b).stepping = t.stepping := by
  cases r
  all_goals simp only [Task.setFull] <;> (try split) <;> rfl
@[simp] theorem setFull_gtid : (t.setFull r b).gtid = t.gtid := by
  cases r
  all_goals simp only [Task.setFull] <;> (try split) <;> rfl
@[simp] theorem markEmpty_pc : (t.markEmpty r).pc = t.pc := setFull_pc t r false
@[simp] theorem markEmpty_stepping : (t.markEmpty r).stepping = t.stepping := setFull_stepping t r false
@[simp] theorem markEmpty_gtid : (t.markEmpty r).gtid = t.gtid := setFull_gtid t r false
@[simp] theorem awaits_pc (d : Option RegId) : (t.awaits d).pc = t.pc := by cases d <;> simp [Task.awaits]
@[simp] theorem awaits_stepping (d : Option RegId) : (t.awaits d).stepping = t.stepping := by cases d <;> simp [Task.awaits]
end

namespace State

/-! ### What changes beside the task -/

/-- Only the current slot's task, recorders and the note of a bank's use differ. -/
theorem sameBut_slots {u : State} {x : Map Task} (h : u = { s with slots := x, cores := u.cores }) (hx : ∀ k, k ≠ s.cur → mapGet x k = mapGet s.slots k) :
    s.sameBut u := by
  refine ⟨?_, fun k hk => ?_, fun k => ?_⟩
  · rw [h]
  · rw [h]; simp only [taskAt]; rw [hx k hk]
  · rw [h]; exact ⟨rfl, rfl⟩

theorem sameBut_after (t : Task) (len : Nat) (c : Map Core) : s.sameBut { s.after t len with cores := c } :=
  sameBut_slots (x := (s.after t len).slots) rfl fun _ hk => mapGet_mapSet_ne _ hk _

theorem sameBut_setTask (t : Task) (c : Map Core) : s.sameBut { s.setTask t with cores := c } :=
  sameBut_slots (x := (s.setTask t).slots) rfl fun _ hk => mapGet_mapSet_ne _ hk _

/-- A sampled record changes only its recorder (27:R386). -/
theorem sampled_eq (t : Task) {w : State → State} (hw : ∀ s, ∃ c, w s = { s with cores := c }) : ∃ c, s.sampled t w = { s with cores := c } := by
  unfold sampled
  simp only
  split
  · exact ⟨_, rfl⟩
  · split
    · exact ⟨_, rfl⟩
    · obtain ⟨c, h⟩ := hw (s.modCore (coreOf s.cur) fun x => { x with recorder := { x.recorder with memCount := (s.core (coreOf s.cur)).recorder.memCount + 1 } })
      exact ⟨c, h⟩

/-- A remote request goes on at once (13:R220, R221). -/
theorem remoteSend_eq {t : Task} {x : Segment} {a len : Nat} {op : AccOp} {dst : Option RegId} {acq rel : Bool} {scope : BitVec 4}
    (h : t.stepping = false) (hp : t.pc = s.task.pc) (hg : t.gtid = s.task.gtid) (hq : t.part = s.task.part) :
    ∃ c, s.remoteSend t x a len op dst acq rel scope
      = { s.after (t.awaits dst) len with net := s.withAcc (.tile (x.space == 6) x.target a) op dst acq rel scope, tagCtr := s.tagCtr + 1, cores := c } := by
  unfold remoteSend
  simp only
  obtain ⟨c, hc⟩ := sampled_eq (s := s.sendAcc fun tag => { tag := tag, owner := t.gtid, key := s.cur, part := t.part, op := op, place := .tile (x.space == 6) x.target a, dst := dst, acq := acq, rel := rel, scope := scope, issued := s.cycle })
    t (w := fun s' => s'.recordTile s'.cur t.gtid op (x.space == 6) x.target a) (fun _ => ⟨_, rfl⟩)
  rw [hc]
  refine ⟨c, ?_⟩
  cases dst with
  | none =>
    rw [completeWith_after h (by rw [hp]; rfl)]
    simp only [after, setTask, putTask, sendAcc, withAcc, hg, hq, Task.awaits]; rfl
  | some r =>
    rw [completeWith_after (by simp [h]) (by rw [markEmpty_pc, hp]; rfl)]
    simp only [after, setTask, putTask, sendAcc, withAcc, hg, hq, Task.awaits]; rfl

theorem remoteSend_sent {t : Task} {x : Segment} {a len : Nat} {op : AccOp} {dst : Option RegId} {acq rel : Bool} {scope : BitVec 4}
    (h : t.stepping = false) (hp : t.pc = s.task.pc) (hg : t.gtid = s.task.gtid) (hq : t.part = s.task.part) :
    s.sent (s.remoteSend t x a len op dst acq rel scope) (s.withAcc (.tile (x.space == 6) x.target a) op dst acq rel scope)
      ∧ (s.remoteSend t x a len op dst acq rel scope).task = s.goneOn (t.awaits dst) len := by
  obtain ⟨c, hc⟩ := remoteSend_eq (s := s) (x := x) (a := a) (len := len) (op := op) (dst := dst) (acq := acq) (rel := rel) (scope := scope) h hp hg hq
  rw [hc]
  refine ⟨sameBut_slots (x := (s.after (t.awaits dst) len).slots) rfl fun _ hk => mapGet_mapSet_ne _ hk _, ?_⟩
  exact task_setTask (s := s) _

/-- A request that its instruction waits for (13:R235). -/
theorem remoteWait_sent {x : Segment} {a row : Nat} {op : AccOp} {dst : Option RegId} {acq rel : Bool} {scope : BitVec 4} {carry : List Nat}
    (h : s.task.stepping = false) :
    s.sent (s.remoteWait s.task x a row op dst acq rel scope carry)
        (s.withAcc (.tile (x.space == 6) x.target a) op dst acq rel scope (waits := true) (carry := carry))
      ∧ (s.remoteWait s.task x a row op dst acq rel scope carry).task = { s.task with run := .parked row (.response s.tagCtr) } := by
  unfold remoteWait
  simp only
  obtain ⟨c, hc⟩ := sampled_eq (s := s.sendAcc fun tag => { tag := tag, owner := s.task.gtid, key := s.cur, part := s.task.part, op := op, place := .tile (x.space == 6) x.target a, dst := dst, acq := acq, rel := rel, scope := scope, issued := s.cycle, waits := true, carry := carry })
    s.task (w := fun s' => s'.recordTile s'.cur s.task.gtid op (x.space == 6) x.target a) (fun _ => ⟨_, rfl⟩)
  rw [hc, park_eq (by exact h)]
  refine ⟨sameBut_slots (x := (s.setTask { s.task with run := .parked row (.response s.tagCtr) }).slots) rfl fun _ hk => mapGet_mapSet_ne _ hk _, ?_⟩
  rw [task_recordSched, task_setTask]; rfl

theorem announceRecord_eq (t : Task) (op : AccOp) (place : Place) (far : Bool) : ∃ c, s.announceRecord t op place far = { s with cores := c } := by
  unfold announceRecord
  cases place with
  | tile acc vt a =>
    cases far
    · exact ⟨_, rfl⟩
    · exact sampled_eq _ fun _ => ⟨_, rfl⟩
  | ext p q va ps => exact sampled_eq _ fun _ => ⟨_, rfl⟩

/-- An SC operation waits for what is before it, or announces itself and parks (07:R127). -/
theorem announce_sent {op : AccOp} {place : Place} {dst : Option RegId} {len : Nat} {m : MemOp} {far : Bool} (h : s.task.stepping = false)
    (h1 : s.unperformed s.task.gtid = false) (h2 : s.acqPending s.task.gtid = false) :
    s.sent (s.announce s.task op place dst len m far) (s.announced place op dst len m far)
      ∧ (s.announce s.task op place dst len m far).task = { s.task with run := .parked 9 (.sc s.tagCtr) } := by
  unfold announce
  rw [if_neg (by simp [h1, h2])]
  simp only
  obtain ⟨c, hc⟩ := announceRecord_eq (s := { s with tagCtr := s.tagCtr + 1, net := s.announced place op dst len m far }) s.task op place far
  unfold announced at hc ⊢
  simp only at hc ⊢
  rw [hc, park_eq (by exact h)]
  refine ⟨sameBut_slots (x := (s.setTask { s.task with run := .parked 9 (.sc s.tagCtr) }).slots) rfl fun _ hk => mapGet_mapSet_ne _ hk _, ?_⟩
  rw [task_recordSched, task_setTask]; rfl

theorem park_sameBut {row : Nat} {w : Wake} (h : s.task.stepping = false) : s.sameBut (s.park row w) := by
  rw [park_eq h]; exact sameBut_setTask _ _

/-! ### Local accesses -/

theorem length_leBytes : ∀ n x, (leBytes n x).length = n
  | 0, _ => rfl
  | n + 1, x => by simp [leBytes, length_leBytes n]

theorem getElem_leBytes : ∀ (n x i : Nat) (h : i < (leBytes n x).length), (leBytes n x)[i] = BitVec.ofNat 8 (x / 256 ^ i)
  | 0, _, _, h => by simp [leBytes] at h
  | n + 1, x, 0, _ => by simp [leBytes]
  | n + 1, x, i + 1, h => by
    have := getElem_leBytes n (x / 256) i (by simpa [leBytes] using h)
    simp only [leBytes, List.getElem_cons_succ, this, Nat.div_div_eq_div_mul, Nat.pow_succ, Nat.mul_comm]


/-- Each access that the bank serves before it costs 2 cycles (06:R103). -/
theorem bankCost_eq (acc : Bool) (a : Nat) : ∃ tl, s.bankCost acc a = (2 * s.bankUses acc a, { s with tiles := tl })
    ∧ ∀ k, (State.tile { s with tiles := tl } k).queues = (s.tile k).queues ∧ (State.tile { s with tiles := tl } k).accepted = (s.tile k).accepted := by
  unfold bankCost bankAt
  refine ⟨_, Prod.ext ?_ rfl, fun k => ?_⟩
  · simp only [bankUses, List.filter_filter]
    congr 2
    refine List.filter_congr fun u _ => ?_
    by_cases h : u = (s.cycle, acc, s.bankOf s.task.part acc a)
    · subst h; simp
    · simp [h]
  · simp only [tile, mapMod]
    by_cases h : k = tileOf (coreOf s.cur)
    · subst h; simp
    · simp [mapGet_mapSet_ne _ h]

/-- An instruction whose accesses no watchpoint covers just completes (27:R379). -/
theorem completeWatched_none {t : Task} {len : Nat} {l : List Seen} (h : ∀ x ∈ l, s.seenHits t x = []) :
    s.completeWatched t len l = s.completeWith t len := by
  have : l.flatMap (s.seenHits t) = [] := List.flatMap_eq_nil_iff.2 h
  simp [completeWatched, this]

/-- A local access that no watchpoint covers completes with a latency of 5 and its bank's delay (10:R173, 06:R103). -/
theorem localDo_eq {acc : Bool} {vt a len v : Nat} {op : AccOp} {f : Task → Nat → Nat → Task} {m : Mem} {fe : List Nat} {vts : Map VTile}
    (h : s.perform (tileAddr s.task.part acc vt a) op = some (v, { s with mem := m, feEmpty := fe, vtiles := vts }))
    (hf : ∀ l, (f s.task v l).stepping = false ∧ (f s.task v l).pc = s.task.pc ∧ (f s.task v l).gtid = s.task.gtid ∧ (f s.task v l).part = s.task.part)
    (hw : s.watchHits s.task.part (ofBool acc) vt a op.size (accMask op) s.task.gtid = []) :
    ∃ lat tl, lat = 5 + 2 * s.bankUses acc a ∧ s.localDo acc vt a len op f = { s.after (f s.task v lat) len with mem := m, feEmpty := fe, vtiles := vts, tiles := tl }
      ∧ ∀ k, (State.tile { s with tiles := tl } k).queues = (s.tile k).queues ∧ (State.tile { s with tiles := tl } k).accepted = (s.tile k).accepted := by
  unfold localDo
  simp only [h]
  obtain ⟨tl, hb, hq⟩ := bankCost_eq (s := { s with mem := m, feEmpty := fe, vtiles := vts }) acc a
  rw [hb]
  obtain ⟨x, hx⟩ : ∃ x, x = 2 * s.bankUses acc a := ⟨_, rfl⟩
  rw [show 2 * bankUses { s with mem := m, feEmpty := fe, vtiles := vts } acc a = x from hx.symm]
  rw [← hx]
  obtain ⟨h1, h2, h3, h4⟩ := hf (5 + x)
  refine ⟨5 + x, tl, rfl, ?_, hq⟩
  simp only
  have e : State.seenHits { s with mem := m, feEmpty := fe, vtiles := vts, tiles := tl } (f s.task v (5 + x)) (ofBool acc, vt, a, op) = [] := by
    simp only [seenHits, h3, h4]; exact hw
  rw [localEnds, completeWatched_none (by simpa using e), completeWith_after h1 (by rw [h2]; rfl)]
  rfl

theorem sameButMemory_of {t : Task} {len : Nat} {m : Mem} {fe : List Nat} {vts : Map VTile} {tl : Map Tile}
    (hq : ∀ k, (State.tile { s with tiles := tl } k).queues = (s.tile k).queues ∧ (State.tile { s with tiles := tl } k).accepted = (s.tile k).accepted)
    (hv : ∀ p vt, (State.vtile { s with vtiles := vts } p vt).sems = (s.vtile p vt).sems ∧ (State.vtile { s with vtiles := vts } p vt).waiters = (s.vtile p vt).waiters) :
    s.sameButMemory { s.after t len with mem := m, feEmpty := fe, vtiles := vts, tiles := tl } := by
  refine ⟨⟨rfl, fun k hk => ?_, fun k => hq k⟩, hv⟩
  exact congrArg (fun o : Option Task => o.getD {}) (mapGet_mapSet_ne _ hk _)

theorem modVTile_eq (p vt : Nat) (f : VTile → VTile) (hf : ∀ x, (f x).sems = x.sems ∧ (f x).waiters = x.waiters) :
    ∃ vts, s.modVTile p vt f = { s with vtiles := vts }
      ∧ ∀ q w, (State.vtile { s with vtiles := vts } q w).sems = (s.vtile q w).sems ∧ (State.vtile { s with vtiles := vts } q w).waiters = (s.vtile q w).waiters := by
  refine ⟨mapMod s.vtiles (p * 1024 + vt) {} f, rfl, fun q w => ?_⟩
  simp only [vtile, mapMod]
  by_cases h : q * 1024 + w = p * 1024 + vt
  · rw [h, mapGet_mapSet_self]; exact hf _
  · rw [mapGet_mapSet_ne _ h]; exact ⟨rfl, rfl⟩

/-- Marking regions dirty leaves semaphores alone. -/
theorem dirty_eq (a n : Nat) : ∃ vts, s.dirty a n = { s with vtiles := vts }
    ∧ ∀ p vt, (State.vtile { s with vtiles := vts } p vt).sems = (s.vtile p vt).sems ∧ (State.vtile { s with vtiles := vts } p vt).waiters = (s.vtile p vt).waiters := by
  unfold dirty
  split
  · exact ⟨s.vtiles, rfl, fun _ _ => ⟨rfl, rfl⟩⟩
  · exact modVTile_eq _ _ _ fun _ => ⟨rfl, rfl⟩

theorem store_eq (a : Nat) (bs : List Byte) : ∃ vts, s.store a bs = { s with mem := memWrite s.mem a bs, vtiles := vts }
    ∧ ∀ p vt, (State.vtile { s with vtiles := vts } p vt).sems = (s.vtile p vt).sems ∧ (State.vtile { s with vtiles := vts } p vt).waiters = (s.vtile p vt).waiters := by
  obtain ⟨v, h1, h2⟩ := dirty_eq (s := { s with mem := memWrite s.mem a bs }) a bs.length
  exact ⟨v, h1, h2⟩

/-- A core's store leaves the bytes hidden by a running decryption and writes the others, lowest address first (14:R249, 13:R221). -/
theorem coreStore_eq (a n x : Nat) : ∃ m vts, s.coreStore a n x = { s with mem := m, vtiles := vts }
    ∧ (∀ p vt, (State.vtile { s with vtiles := vts } p vt).sems = (s.vtile p vt).sems ∧ (State.vtile { s with vtiles := vts } p vt).waiters = (s.vtile p vt).waiters)
    ∧ (Mem.wf s.mem = true → Mem.wf m = true ∧ ∀ b, memGet m b = if a ≤ b ∧ b < a + n ∧ s.hiddenAt b = false then BitVec.ofNat 8 (x / 256 ^ (b - a)) else memGet s.mem b) := by
  unfold coreStore
  obtain ⟨v, h1, h2⟩ := store_eq (s := s) a ((leBytes n x).zipIdx.map fun e => if s.hiddenAt (a + e.2) then memGet s.mem (a + e.2) else e.1)
  refine ⟨_, v, h1, h2, fun w => ⟨memWrite_wf _ _ w, fun b => ?_⟩⟩
  have hl : ((leBytes n x).zipIdx.map fun e => if s.hiddenAt (a + e.2) then memGet s.mem (a + e.2) else e.1).length = n := by
    simp [length_leBytes]
  by_cases hb : a ≤ b ∧ b < a + n
  · obtain ⟨i, rfl⟩ := Nat.exists_eq_add_of_le hb.1
    have hi : i < n := by omega
    rw [memGet_memWrite_in _ w (by rw [hl]; exact hi)]
    simp only [List.getElem_map, List.getElem_zipIdx, getElem_leBytes, Nat.zero_add, Nat.add_sub_cancel_left]
    by_cases hh : s.hiddenAt (a + i) <;> simp [hh, hi]
  · rw [memGet_memWrite_out _ (by rw [hl]; omega), if_neg (by tauto)]

/-! ### Translating at a cluster's port -/

theorem pageFor_mmu {part core va acc : Nat} {e : TlbEntry} {u : State} (h : s.pageFor part core va acc = .ok (e, u)) : ∃ m, u = { s with mmu := m } := by
  unfold pageFor at h
  split at h
  · cases h; unfold tlbRefill; split
    · exact ⟨s.mmu, rfl⟩
    · split
      · exact ⟨s.mmu, rfl⟩
      · exact ⟨_, rfl⟩
  · split at h <;> cases h
    exact ⟨_, rfl⟩

/-- Translating a range changes the TLBs and nothing else. -/
theorem piecesFor_mmu {part core va n acc : Nat} {ps : List Piece} {u : State} (h : s.piecesFor part core va n acc = .ok (ps, u)) : ∃ m, u = { s with mmu := m } := by
  have key : ∀ (l : List (Nat × Nat)) (r : Except VaFail (List Piece × State)), (∀ x, r = .ok x → ∃ m, x.2 = { s with mmu := m }) →
      ∀ x, l.foldl (fun r p => match r with
        | .error c => .error c
        | .ok (ps, s) => match s.pageFor part core p.1 acc with
          | .error c => .error c
          | .ok (e, s) => .ok (ps ++ [pieceAt e p], s)) r = .ok x → ∃ m, x.2 = { s with mmu := m } := by
    intro l
    induction l with
    | nil => exact fun r hr x hx => hr x hx
    | cons p l ih =>
      intro r hr x hx
      refine ih _ ?_ x hx
      intro y hy
      dsimp only at hy
      split at hy
      · cases hy
      · obtain ⟨m, hm⟩ := hr _ rfl
        split at hy
        · cases hy
        · rename_i hp
          cases hy
          obtain ⟨m', rfl⟩ := pageFor_mmu hp
          exact ⟨m', by simp only at hm; rw [hm]⟩
  exact key _ _ (fun x hx => by cases hx; exact ⟨s.mmu, rfl⟩) _ h

theorem portPieces_mmu {part core va acc n : Nat} {ps : List Piece} {u : State} (h : s.portPieces part core va acc n = .ok (ps, u)) : ∃ m, u = { s with mmu := m } := by
  unfold portPieces at h
  split at h
  · cases h
  · split at h
    · cases h
    · rename_i hp
      obtain ⟨m, rfl⟩ := piecesFor_mmu hp
      simp only [Except.map] at h
      split at h <;> cases h
      exact ⟨m, rfl⟩

end State

end Sys2Proof.Machine
end

