-- ==== Sys2Proof/Laws/Encoding.lean ====
section
/-! SUPPORT. Fields and words are read back as they were written: what the round trip of each instruction rests on. -/

namespace Sys2Proof

theorem bitAt_toNat {n k : Nat} {b : Bool} (h : n / 2 ^ k % 2 = b.toNat) : bitAt n k = b := by
  unfold bitAt; rw [h]; cases b <;> rfl

theorem bitsAt_toNat {n lo w : Nat} {v : BitVec w} (h : n / 2 ^ lo % 2 ^ w = v.toNat) : bitsAt n lo w = v :=
  BitVec.eq_of_toNat_eq (by simpa [bitsAt] using h)

theorem RFields.read_word (f : RFields) : RFields.read f.word = f := by
  obtain ⟨d, a, b, ea, eb, m⟩ := f
  have := d.isLt; have := a.isLt; have := b.isLt; have := m.isLt
  have := ea.toNat_le; have := eb.toNat_le
  simp only [RFields.read, RFields.word, packFields, RFields.mk.injEq]
  refine ⟨bitsAt_toNat ?_, bitsAt_toNat ?_, bitsAt_toNat ?_, bitAt_toNat ?_, bitAt_toNat ?_, bitsAt_toNat ?_⟩ <;> simp <;> omega

theorem IFields.read_word (f : IFields) : IFields.read f.word = f := by
  obtain ⟨d, a, ea, m⟩ := f
  have := d.isLt; have := a.isLt; have := m.isLt; have := ea.toNat_le
  simp only [IFields.read, IFields.word, packFields, IFields.mk.injEq]
  refine ⟨bitsAt_toNat ?_, bitsAt_toNat ?_, bitAt_toNat ?_, bitsAt_toNat ?_⟩ <;> simp <;> omega

theorem BFields.read_word (f : BFields) : BFields.read f.word = f := by
  obtain ⟨d, ea, m⟩ := f
  have := d.isLt; have := m.isLt; have := ea.toNat_le
  simp only [BFields.read, BFields.word, packFields, BFields.mk.injEq]
  refine ⟨bitsAt_toNat ?_, bitAt_toNat ?_, bitsAt_toNat ?_⟩ <;> simp <;> omega

theorem MFields.read_word (f : MFields) : MFields.read f.word = f := by
  obtain ⟨t, a, ea, g, pi, et, m⟩ := f
  have := t.isLt; have := a.isLt; have := g.isLt; have := m.isLt
  have := ea.toNat_le; have := pi.toNat_le; have := et.toNat_le
  simp only [MFields.read, MFields.word, packFields, MFields.mk.injEq]
  refine ⟨bitsAt_toNat ?_, bitsAt_toNat ?_, bitAt_toNat ?_, bitsAt_toNat ?_, bitAt_toNat ?_, bitAt_toNat ?_, bitsAt_toNat ?_⟩ <;> simp <;> omega

theorem Ext.read_word (f : Ext) : Ext.read f.word = f := by
  obtain ⟨p, pn, ty, rnd, sat, c, ec, sc, o, q, sn, x⟩ := f
  have := p.isLt; have := ty.isLt; have := rnd.isLt; have := c.isLt; have := sc.isLt; have := o.isLt; have := q.isLt; have := x.isLt
  have := pn.toNat_le; have := sat.toNat_le; have := ec.toNat_le; have := sn.toNat_le
  simp only [Ext.read, Ext.word, packFields, Ext.mk.injEq]
  refine ⟨bitsAt_toNat ?_, bitAt_toNat ?_, bitsAt_toNat ?_, bitsAt_toNat ?_, bitAt_toNat ?_, bitsAt_toNat ?_, bitAt_toNat ?_, bitsAt_toNat ?_,
    bitsAt_toNat ?_, bitsAt_toNat ?_, bitAt_toNat ?_, bitsAt_toNat ?_⟩ <;> simp <;> omega

theorem Ext.fi_withFi (e : Ext) (x : BitVec 16) : (e.withFi x).fi = x := by
  apply BitVec.eq_of_toNat_eq
  have := x.isLt
  have hb : ∀ n k, (bitAt n k).toNat = n / 2 ^ k % 2 := by
    intro n k; unfold bitAt; have : n / 2 ^ k % 2 = 0 ∨ n / 2 ^ k % 2 = 1 := by omega
    rcases this with h | h <;> rw [h] <;> rfl
  simp only [Ext.fi, Ext.withFi, packFields, bitsAt, hb, BitVec.toNat_ofNat]
  simp; omega

theorem Ext.read_zero : Ext.read 0#32 = {} := by decide

/-- The extension word of a form, read back. -/
def Form.ext (f : Form) (e : Ext) : Ext :=
  match f with
  | .w32 => {}
  | .w64 g | .w96 g => { e with pred := g.pred, pneg := g.neg }

theorem Form.read_hi (f : Form) (e : Ext) : Ext.read (f.hi e) = f.ext e := by
  cases f <;> simp only [Form.hi, Form.ext, Ext.read_word]
  exact Ext.read_zero

theorem form_mk (f : Form) (m : BitVec 6) (b : BitVec 24) (e : Ext) (l : BitVec 32) : Raw.form ⟨f.len, m, b, f.hi e, l⟩ = f := by
  cases f <;> simp [Raw.form, Form.len, Form.read_hi, Form.ext]

theorem decodeRaw_ok {r : Raw} {i : Instr} (h : decodeShape r = .ok i) (ho : i.operandErr.isNone = true) : decodeRaw r = .ok i := by
  unfold decodeRaw; rw [h]; cases hx : i.operandErr with
  | none => simp [hx]
  | some x => simp [hx] at ho

theorem Instr.wf_form {i : Instr} (h : i.wf = true) : i.formOk = true := by
  simp only [Instr.wf, Bool.and_eq_true] at h; exact h.1.1

theorem Instr.wf_operand {i : Instr} (h : i.wf = true) : i.operandErr.isNone = true := by
  simp only [Instr.wf, Bool.and_eq_true] at h; exact h.1.2

theorem Instr.wf_reserved {i : Instr} (h : i.wf = true) : i.reservedBad = false := by
  have := Instr.wf_operand h
  unfold Instr.operandErr at this
  cases hr : i.reservedBad with
  | false => rfl
  | true => simp [hr] at this

theorem form32 (m : BitVec 6) (b : BitVec 24) (h l : BitVec 32) : Raw.form ⟨.l32, m, b, h, l⟩ = .w32 := rfl
theorem form64 (m : BitVec 6) (b : BitVec 24) (g : Guard) (e : Ext) (l : BitVec 32) : Raw.form ⟨.l64, m, b, Form.hi (.w64 g) e, l⟩ = .w64 g := form_mk (.w64 g) m b e l
theorem form96 (m : BitVec 6) (b : BitVec 24) (g : Guard) (e : Ext) (l : BitVec 32) : Raw.form ⟨.l96, m, b, Form.hi (.w96 g) e, l⟩ = .w96 g := form_mk (.w96 g) m b e l
theorem withFi_fields (e : Ext) (x : BitVec 16) : (e.withFi x).xmod = 1 ∧ (e.withFi x).ty = e.ty ∧ (e.withFi x).rnd = e.rnd ∧ (e.withFi x).sat = e.sat := ⟨rfl, rfl, rfl, rfl⟩
theorem fi_mk (e : Ext) (x : BitVec 16) (p : BitVec 3) (pn : Bool) (ty : BitVec 5) (rnd : BitVec 2) (sat : Bool) (xm : BitVec 4) :
    Ext.fi ⟨p, pn, ty, rnd, sat, (e.withFi x).srcc, (e.withFi x).ebc, (e.withFi x).scope, (e.withFi x).ord, (e.withFi x).queue, (e.withFi x).sn, xm⟩ = x := Ext.fi_withFi e x
theorem two_cases (x : BitVec 2) : x = 0 ∨ x = 1 ∨ x = 2 ∨ x = 3 := by revert x; decide
theorem low3_setWidth (x : BitVec 3) : low3 (x.setWidth 5) = x := by
  revert x; decide
theorem idx3Bad_setWidth (x : BitVec 3) : idx3Bad (x.setWidth 5) = false := by revert x; decide

end Sys2Proof
end

