-- ==== Sys2Proof/Laws/Values.lean ====
section
/-! SUPPORT. What the values of Flags.lean are, bit by bit or as exact numbers. -/

namespace Sys2Proof.Machine

theorem minVal_eq (a b : Word) : minVal a b = if b.toInt < a.toInt then b else a := by
  unfold minVal; split <;> split <;> first | rfl | omega

theorem maxVal_eq (a b : Word) : maxVal a b = if b.toInt < a.toInt then a else b := by
  unfold maxVal; split <;> split <;> first | rfl | omega

theorem minuVal_eq (a b : Word) : minuVal a b = if b.toNat < a.toNat then b else a := by
  unfold minuVal; split <;> split <;> first | rfl | omega

theorem maxuVal_eq (a b : Word) : maxuVal a b = if b.toNat < a.toNat then a else b := by
  unfold maxuVal; split <;> split <;> first | rfl | omega

theorem shlVal_eq (a b : Word) : shlVal a b = a <<< b.toNat := by
  unfold shlVal; split
  · next h => ext i hi; simp; omega
  · rfl

theorem shrVal_eq (a b : Word) : shrVal a b = a >>> b.toNat := by
  unfold shrVal; split
  · next h => ext i hi; simp; rw [BitVec.getLsbD_of_ge]; omega
  · rfl

theorem sraVal_eq (a b : Word) : sraVal a b = a.sshiftRight b.toNat := by
  unfold sraVal; split
  · next h =>
    ext i hi
    have h2 : ¬ b.toNat + i < 64 := by omega
    rw [BitVec.getElem_sshiftRight, dif_neg h2]
    split
    · next hm => rw [BitVec.getElem_allOnes, hm]
    · next hm => simpa using hm
  · rfl

theorem rolVal_eq (a b : Word) : rolVal a b = a <<< (b.toNat % 64) ||| a >>> (64 - b.toNat % 64) := by
  simp [rolVal, BitVec.rotateLeft_def]

theorem rorVal_eq (a b : Word) : rorVal a b = a >>> (b.toNat % 64) ||| a <<< (64 - b.toNat % 64) := by
  simp [rorVal, BitVec.rotateRight_def]

theorem shNaddVal_eq (n : Nat) (a b : Word) : shNaddVal n a b = a * BitVec.ofNat 64 (2 ^ n) + b := by
  have : a <<< n = a * BitVec.ofNat 64 (2 ^ n) := by
    apply BitVec.eq_of_toNat_eq; simp [Nat.shiftLeft_eq]
  rw [shNaddVal, this]

theorem toInt_ofInt {x : Int} (h1 : -(2 ^ 63) ≤ x) (h2 : x < 2 ^ 63) : (BitVec.ofInt 64 x).toInt = x := by
  rw [BitVec.toInt_ofInt, Int.bmod_def]; omega

theorem toInt_bounds (a : Word) : -(2 ^ 63) ≤ a.toInt ∧ a.toInt < 2 ^ 63 := by
  have h := BitVec.toInt_lt (x := a); have h' := BitVec.le_toInt (x := a)
  constructor <;> simpa using by assumption

theorem satI64_toInt (x : Int) : (satI64 x).toInt = max (-(2 ^ 63)) (min (2 ^ 63 - 1) x) := by
  unfold satI64 clampInt i64Min i64Max
  split
  · rw [toInt_ofInt] <;> omega
  · split <;> rw [toInt_ofInt] <;> omega

theorem satN64_toNat (x : Int) : ((satN64 x).toNat : Int) = max 0 (min (2 ^ 64 - 1) x) := by
  unfold satN64 clampInt n64Max
  have key : ∀ y : Int, 0 ≤ y → y < 2 ^ 64 → ((BitVec.ofInt 64 y).toNat : Int) = y := by
    intro y h1 h2; rw [BitVec.toNat_ofInt]; omega
  split
  · rw [key] <;> omega
  · split <;> rw [key] <;> omega

theorem mulhVal_toInt (a b : Word) : (mulhVal a b).toInt = a.toInt * b.toInt / 2 ^ 64 := by
  obtain ⟨h1, h2⟩ := toInt_bounds a
  obtain ⟨h3, h4⟩ := toInt_bounds b
  have hp : a.toInt * b.toInt ≤ 2 ^ 126 := by nlinarith
  have hm : -(2 ^ 126) ≤ a.toInt * b.toInt := by nlinarith
  exact toInt_ofInt (by omega) (by omega)

theorem mulhsuVal_toInt (a b : Word) : (mulhsuVal a b).toInt = a.toInt * b.toNat / 2 ^ 64 := by
  obtain ⟨h1, h2⟩ := toInt_bounds a
  have h3 : (0 : Int) ≤ b.toNat := Int.natCast_nonneg _
  have h4 : (b.toNat : Int) < 2 ^ 64 := by exact_mod_cast b.isLt
  have hp : a.toInt * b.toNat < 2 ^ 127 := by nlinarith
  have hm : -(2 ^ 127) ≤ a.toInt * b.toNat := by nlinarith
  exact toInt_ofInt (by omega) (by omega)

theorem mulhuVal_toNat (a b : Word) : (mulhuVal a b).toNat = a.toNat * b.toNat / 2 ^ 64 := by
  have h : a.toNat * b.toNat / 2 ^ 64 < 2 ^ 64 := by
    rw [Nat.div_lt_iff_lt_mul (by norm_num)]
    have h1 := a.isLt; have h2 := b.isLt
    exact Nat.mul_lt_mul'' h1 h2
  simp only [mulhuVal, BitVec.toNat_ofNat, Nat.mod_eq_of_lt h]

theorem remVal_toInt (a b : Word) : (remVal a b).toInt = a.toInt.tmod b.toInt := by
  obtain ⟨h1, h2⟩ := toInt_bounds a
  obtain ⟨h3, h4⟩ := toInt_bounds b
  have hr : remVal a b = BitVec.ofInt 64 (a.toInt.tmod b.toInt) := by
    rw [Int.tmod_def]
    apply BitVec.eq_of_toInt_eq
    simp only [remVal, divVal, BitVec.toInt_sub, BitVec.toInt_mul, BitVec.toInt_ofInt]
    simp
  rw [hr]
  have h5 := Int.natAbs_tmod a.toInt b.toInt
  by_cases hb : b.toInt = 0
  · rw [hb, Int.tmod_zero]; exact toInt_ofInt h1 h2
  · have h6 : (a.toInt.natAbs % b.toInt.natAbs) < b.toInt.natAbs := Nat.mod_lt _ (by omega)
    exact toInt_ofInt (by omega) (by omega)

theorem remuVal_eq (a b : Word) : remuVal a b = BitVec.ofNat 64 (a.toNat % b.toNat) := by
  have h1 := Nat.div_add_mod a.toNat b.toNat
  have ha := a.isLt
  have hq : a.toNat / b.toNat < 2 ^ 64 := lt_of_le_of_lt (Nat.div_le_self _ _) ha
  have hb : BitVec.ofNat 64 (b.toNat * (a.toNat / b.toNat)) = b * divuVal a b := by
    rw [BitVec.ofNat_mul]; simp [divuVal]
  have : a = b * divuVal a b + BitVec.ofNat 64 (a.toNat % b.toNat) := by
    rw [← hb, ← BitVec.ofNat_add, h1]; simp
  rw [remuVal]
  conv_lhs => lhs; rw [this]
  abel

/-! ### Counts -/

theorem leadZeros_le (x : Nat) : ∀ n, leadZeros x n ≤ n
  | 0 => Nat.le_refl 0
  | n + 1 => by have := leadZeros_le x n; unfold leadZeros; split <;> omega

theorem leadZeros_above (x : Nat) : ∀ n j, n - leadZeros x n ≤ j → j < n → x.testBit j = false
  | 0, j, _, h => by omega
  | n + 1, j, h, hj => by
    unfold leadZeros at h
    split at h
    · omega
    · next hn =>
      by_cases he : j = n
      · subst he; simp [Nat.testBit_eq_decide_div_mod_eq, hn]
      · exact leadZeros_above x n j (by omega) (by omega)

theorem leadZeros_hit (x : Nat) : ∀ n, leadZeros x n < n → x.testBit (n - 1 - leadZeros x n) = true
  | 0, h => by omega
  | n + 1, h => by
    unfold leadZeros at h ⊢
    split
    · next hn => simp [Nat.testBit_eq_decide_div_mod_eq, hn]
    · next hn =>
      rw [if_neg hn] at h
      have := leadZeros_hit x n (by omega)
      rwa [show n + 1 - 1 - (1 + leadZeros x n) = n - 1 - leadZeros x n from by omega]

theorem trailZeros_le (x : Nat) : ∀ n, trailZeros x n ≤ n := by
  intro n
  induction n generalizing x with
  | zero => exact Nat.le_refl 0
  | succ n ih => have := ih (x / 2); unfold trailZeros; split <;> omega

theorem trailZeros_below (n : Nat) : ∀ x j, j < trailZeros x n → x.testBit j = false := by
  induction n with
  | zero => intro x j h; simp [trailZeros] at h
  | succ n ih =>
    intro x j h
    unfold trailZeros at h
    split at h
    · omega
    · next hx =>
      cases j with
      | zero => simpa [Nat.testBit_zero] using hx
      | succ j => rw [Nat.testBit_succ]; exact ih (x / 2) j (by omega)

theorem trailZeros_hit (n : Nat) : ∀ x, trailZeros x n < n → x.testBit (trailZeros x n) = true := by
  induction n with
  | zero => intro x h; omega
  | succ n ih =>
    intro x h
    unfold trailZeros at h ⊢
    split
    · next hx => simpa [Nat.testBit_zero] using hx
    · next hx =>
      rw [if_neg hx] at h
      rw [Nat.add_comm, Nat.testBit_succ]
      exact ih (x / 2) (by omega)

/-! ### Bits -/

theorem bit_ofNat (x i : Nat) : (BitVec.ofNat 64 x).getLsbD i = (decide (i < 64) && x.testBit i) := by
  rw [BitVec.getLsbD_ofNat]

theorem bit_toNat (a : Word) (i : Nat) : a.toNat.testBit i = a.getLsbD i := rfl

theorem zextVal_bit (a b : Word) {i : Nat} (hi : i < 64) :
    (zextVal a b).getLsbD i = (decide (i < min b.toNat 64) && a.getLsbD i) := by
  rw [zextVal, bit_ofNat, Nat.testBit_mod_two_pow, bit_toNat]
  simp [hi]

theorem sextVal_bit (a b : Word) {i : Nat} (hi : i < 64) : (sextVal a b).getLsbD i =
    if i < min b.toNat 64 then a.getLsbD i else decide (0 < min b.toNat 64) && a.getLsbD (min b.toNat 64 - 1) := by
  rw [sextVal, show (BitVec.ofInt 64 (BitVec.ofNat (min b.toNat 64) a.toNat).toInt)
    = (BitVec.ofNat (min b.toNat 64) a.toNat).signExtend 64 from rfl, BitVec.getLsbD_signExtend]
  generalize hw : min b.toNat 64 = w
  have hw64 : w ≤ 64 := by omega
  rw [BitVec.getLsbD_ofNat, bit_toNat]
  by_cases h : i < w
  · simp [h, hi]
  · simp only [h, if_false, hi, decide_true, Bool.true_and]
    rw [BitVec.msb_eq_getLsbD_last, BitVec.getLsbD_ofNat, bit_toNat]
    by_cases h0 : 0 < w
    · simp [h0]
    · simp [show w = 0 from by omega]

theorem bextVal_bit (a c : Word) {i : Nat} (hi : i < 64) : (bextVal a c).getLsbD i =
    (decide (i < min (c.toNat / 256 % 128) 64) && a.getLsbD (c.toNat % 128 + i)) := by
  unfold bextVal ctlOff ctlWidth
  generalize min (c.toNat / 256 % 128) 64 = k
  generalize c.toNat % 128 = f
  by_cases h : 64 ≤ f ∨ k = 0
  · rw [if_pos h]
    rcases h with h | h
    · simp [BitVec.getLsbD_of_ge a (f + i) (by omega)]
    · simp [h]
  · rw [if_neg h, bit_ofNat, Nat.testBit_mod_two_pow, Nat.testBit_div_two_pow, Nat.add_comm, bit_toNat]
    by_cases h2 : f + i < 64
    · have : (i < min k (64 - f)) ↔ i < k := by omega
      simp [hi, this]
    · simp [BitVec.getLsbD_of_ge a (f + i) (by omega)]

theorem testBit_field (n lo w i : Nat) : (field n lo w).testBit i = (decide (i < w) && n.testBit (i + lo)) := by
  rw [field, Nat.testBit_mod_two_pow, Nat.testBit_div_two_pow]

theorem field_le (n lo w : Nat) : field n lo w * 2 ^ lo ≤ n :=
  le_trans (Nat.mul_le_mul_right _ (Nat.mod_le _ _)) (Nat.div_mul_le_self n (2 ^ lo))

/-- A number with a field replaced, bit by bit. -/
theorem testBit_setField (n lo w x i : Nat) :
    (setField n lo w x).testBit i = if lo ≤ i ∧ i < lo + w then x.testBit (i - lo) else n.testBit i := by
  have hl : n % 2 ^ lo < 2 ^ lo := Nat.mod_lt _ (by positivity)
  have hx : x % 2 ^ w < 2 ^ w := Nat.mod_lt _ (by positivity)
  have hn : n = 2 ^ lo * (2 ^ w * (n / 2 ^ lo / 2 ^ w) + n / 2 ^ lo % 2 ^ w) + n % 2 ^ lo := by
    rw [Nat.div_add_mod (n / 2 ^ lo) (2 ^ w), Nat.div_add_mod n (2 ^ lo)]
  have hs : setField n lo w x = 2 ^ lo * (2 ^ w * (n / 2 ^ lo / 2 ^ w) + x % 2 ^ w) + n % 2 ^ lo := by
    have hf : field n lo w * 2 ^ lo ≤ n := field_le n lo w
    unfold setField
    unfold field at *
    zify [hf]
    have hz : (n : Int) = 2 ^ lo * (2 ^ w * ((n / 2 ^ lo / 2 ^ w : Nat) : Int) + ((n / 2 ^ lo % 2 ^ w : Nat) : Int)) + ((n % 2 ^ lo : Nat) : Int) := by
      exact_mod_cast hn
    push_cast at *
    linear_combination hz
  rw [hs, Nat.testBit_two_pow_mul_add _ hl]
  by_cases h1 : i < lo
  · have : ¬(lo ≤ i ∧ i < lo + w) := by omega
    rw [if_pos h1, if_neg this, Nat.testBit_mod_two_pow]; simp [h1]
  · rw [if_neg h1, Nat.testBit_two_pow_mul_add _ hx]
    by_cases h2 : i - lo < w
    · have : lo ≤ i ∧ i < lo + w := by omega
      rw [if_pos h2, if_pos this, Nat.testBit_mod_two_pow]; simp [h2]
    · have : ¬(lo ≤ i ∧ i < lo + w) := by omega
      rw [if_neg h2, if_neg this, Nat.testBit_div_two_pow, Nat.testBit_div_two_pow]
      congr 1; omega

theorem binsVal_bit (d a c : Word) {i : Nat} (hi : i < 64) : (binsVal d a c).getLsbD i =
    if c.toNat % 128 ≤ i ∧ i < c.toNat % 128 + min (c.toNat / 256 % 128) 64 then a.getLsbD (i - c.toNat % 128) else d.getLsbD i := by
  unfold binsVal ctlOff ctlWidth
  generalize min (c.toNat / 256 % 128) 64 = k
  generalize c.toNat % 128 = f
  by_cases hf : f < 64 ∧ 0 < k
  · rw [if_pos hf, bit_ofNat, testBit_setField]
    simp only [hi, decide_true, Bool.true_and, bit_toNat]
    by_cases h : f ≤ i ∧ i < f + k
    · rw [if_pos h, if_pos (by omega)]
    · rw [if_neg h, if_neg (by omega)]
  · rw [if_neg hf, if_neg (by omega)]

end Sys2Proof.Machine
end

