-- ==== Sys2Proof/Laws/Lanes.lean ====
section
/-! SUPPORT. Vectors lane by lane: elements of what a vector instruction writes (12:R196, R203). -/

namespace Sys2Proof.Machine

theorem elem_lt (v : VWord) (ty : BitVec 5) (i : Nat) : elem v ty i < 2 ^ elemBits ty := Nat.mod_lt _ (Nat.two_pow_pos _)

/-- Lanes fill a register and no more. -/
theorem lanes_fit (ty : BitVec 5) : lanesOf ty * elemBits ty ≤ 128 := by
  revert ty; decide

theorem lane_fits {ty : BitVec 5} {i : Nat} (h : i < lanesOf ty) : i * elemBits ty + elemBits ty ≤ 128 := by
  have := lanes_fit ty
  have h1 : (i + 1) * elemBits ty ≤ lanesOf ty * elemBits ty := Nat.mul_le_mul_right _ h
  rw [Nat.add_mul, Nat.one_mul] at h1
  omega

theorem elem_putElem {ty : BitVec 5} {i j : Nat} (v : VWord) (x : Nat) (hi : i < lanesOf ty) (hj : j < lanesOf ty) :
    elem (putElem v ty i x) ty j = if j = i then x % 2 ^ elemBits ty else elem v ty j := by
  have fi := lane_fits hi
  have fj := lane_fits hj
  have hsep : j ≠ i → j * elemBits ty + elemBits ty ≤ i * elemBits ty ∨ i * elemBits ty + elemBits ty ≤ j * elemBits ty := by
    intro h
    rcases Nat.lt_or_gt_of_ne h with h | h
    · left; have : (j + 1) * elemBits ty ≤ i * elemBits ty := Nat.mul_le_mul_right _ h
      rw [Nat.add_mul, Nat.one_mul] at this; exact this
    · right; have : (i + 1) * elemBits ty ≤ j * elemBits ty := Nat.mul_le_mul_right _ h
      rw [Nat.add_mul, Nat.one_mul] at this; exact this
  apply Nat.eq_of_testBit_eq
  intro k
  unfold elem putElem
  simp only [testBit_field, BitVec.toNat_ofNat, Nat.testBit_mod_two_pow, testBit_setField]
  by_cases hk : k < elemBits ty
  · have h128 : k + j * elemBits ty < 128 := by omega
    simp only [hk, h128, decide_true, Bool.true_and]
    by_cases hji : j = i
    · subst hji
      simp only [if_true, Nat.testBit_mod_two_pow, hk, decide_true, Bool.true_and]
      rw [if_pos (by omega), Nat.add_sub_cancel]
    · have hs := hsep hji
      simp only [hji, if_false, hk, decide_true, Bool.true_and, testBit_field]
      rw [if_neg (by omega)]
  · simp only [hk, decide_false, Bool.false_and]
    by_cases hji : j = i
    · simp [hji, Nat.testBit_mod_two_pow, hk]
    · simp [hji, testBit_field, hk]

theorem elem_fold {ty : BitVec 5} (act : Nat → Bool) (f : Nat → Nat) (d : VWord) {j : Nat} (hj : j < lanesOf ty) : ∀ n, n ≤ lanesOf ty →
    elem ((List.range n).foldl (fun acc i => if act i then putElem acc ty i (f i) else acc) d) ty j =
      if j < n ∧ act j then f j % 2 ^ elemBits ty else elem d ty j
  | 0, _ => by simp
  | n + 1, hn => by
    rw [List.range_succ, List.foldl_append, List.foldl_cons, List.foldl_nil]
    have ih := elem_fold act f d hj n (by omega)
    by_cases ha : act n = true
    · rw [if_pos ha, elem_putElem _ _ (by omega) hj, ih]
      by_cases hjn : j = n
      · subst hjn; simp [ha]
      · rw [if_neg hjn]
        have : (j < n + 1 ∧ act j = true) ↔ (j < n ∧ act j = true) := by constructor <;> rintro ⟨h1, h2⟩ <;> exact ⟨by omega, h2⟩
        simp only [this]
    · rw [if_neg ha, ih]
      by_cases hjn : j = n
      · subst hjn; simp [ha]
      · have : (j < n + 1 ∧ act j = true) ↔ (j < n ∧ act j = true) := by constructor <;> rintro ⟨h1, h2⟩ <;> exact ⟨by omega, h2⟩
        simp only [this]

/-- The merging rule, element by element. -/
theorem elem_lanewise (gb : PWord) (ty : BitVec 5) (d : VWord) (f : Nat → Nat) {i : Nat} (hi : i < lanesOf ty) :
    elem (lanewise gb ty d f) ty i = if active gb ty i then f i % 2 ^ elemBits ty else elem d ty i := by
  unfold lanewise
  rw [elem_fold _ _ _ hi _ (Nat.le_refl _)]
  simp [hi]

theorem elem_wholeLanes (ty : BitVec 5) (f : Nat → Nat) {i : Nat} (hi : i < lanesOf ty) :
    elem (wholeLanes ty f) ty i = f i % 2 ^ elemBits ty := by
  have := elem_fold (ty := ty) (fun _ => true) f 0 hi _ (Nat.le_refl _)
  simpa [wholeLanes, hi] using this

theorem elem_zero (ty : BitVec 5) (i : Nat) : elem 0 ty i = 0 := by simp [elem, field]

/-- Bits of a lane in a predicate. -/
theorem laneMask_bit (ty : BitVec 5) (i : Nat) {j : Nat} (hj : j < 16) :
    (laneMask ty i).getLsbD j = (decide (laneBit ty i ≤ j) && decide (j < laneBit ty i + max 1 (elemBits ty / 8))) := by
  unfold laneMask
  rw [BitVec.getLsbD_ofNat]
  simp only [hj, decide_true, Bool.true_and, Nat.testBit_mul_two_pow, Nat.testBit_two_pow_sub_one]
  by_cases h : laneBit ty i ≤ j
  · simp only [h, decide_true, Bool.true_and]
    rw [decide_eq_decide]; omega
  · simp [h]

theorem setLane_bit (p : PWord) (ty : BitVec 5) (i : Nat) (b : Bool) {j : Nat} (hj : j < 16) :
    (setLane p ty i b).getLsbD j = if laneBit ty i ≤ j ∧ j < laneBit ty i + max 1 (elemBits ty / 8) then b else p.getLsbD j := by
  unfold setLane
  cases b
  · have : (p &&& ~~~laneMask ty i).getLsbD j = (p.getLsbD j && !(laneMask ty i).getLsbD j) := by
      simp [hj]
    simp only [Bool.false_eq_true, if_false, this, laneMask_bit ty i hj]
    by_cases h1 : laneBit ty i ≤ j <;> by_cases h2 : j < laneBit ty i + max 1 (elemBits ty / 8) <;> simp [h1, h2]
  · have : (p ||| laneMask ty i).getLsbD j = (p.getLsbD j || (laneMask ty i).getLsbD j) := by
      simp
    simp only [if_true, this, laneMask_bit ty i hj]
    by_cases h1 : laneBit ty i ≤ j <;> by_cases h2 : j < laneBit ty i + max 1 (elemBits ty / 8) <;> simp [h1, h2]

/-- The lane a predicate bit belongs to, for elements of a byte or more. -/
theorem lane_of_bit {ty : BitVec 5} (hw : 8 ≤ elemBits ty) (i j : Nat) :
    (laneBit ty i ≤ j ∧ j < laneBit ty i + max 1 (elemBits ty / 8)) ↔ i = j * 8 / elemBits ty := by
  have h : elemBits ty = 8 ∨ elemBits ty = 16 ∨ elemBits ty = 32 ∨ elemBits ty = 64 := by
    revert hw; revert ty; decide
  unfold laneBit
  rcases h with h | h | h | h <;> rw [h] <;> omega

theorem laneFlags_bit (gb : PWord) (ty : BitVec 5) (p : PWord) (f : Nat → Bool) (hw : 8 ≤ elemBits ty) {j : Nat} (hj : j < 16)
    (hl : j * 8 / elemBits ty < lanesOf ty) : (laneFlags gb ty p f).getLsbD j =
      if active gb ty (j * 8 / elemBits ty) then f (j * 8 / elemBits ty) else p.getLsbD j := by
  have key : ∀ n, ((List.range n).foldl (fun acc i => if active gb ty i then setLane acc ty i (f i) else acc) p).getLsbD j =
      if j * 8 / elemBits ty < n ∧ active gb ty (j * 8 / elemBits ty) then f (j * 8 / elemBits ty) else p.getLsbD j := by
    intro n
    induction n with
    | zero => simp
    | succ n ih =>
      rw [List.range_succ, List.foldl_append, List.foldl_cons, List.foldl_nil]
      by_cases hn : n = j * 8 / elemBits ty
      · by_cases ha : active gb ty n = true
        · rw [if_pos ha, setLane_bit _ _ _ _ hj, if_pos ((lane_of_bit hw n j).2 hn), ← hn]
          simp [ha]
        · rw [if_neg ha, ih, ← hn]; simp [ha]
      · have e : (j * 8 / elemBits ty < n + 1 ∧ active gb ty (j * 8 / elemBits ty) = true) ↔
            (j * 8 / elemBits ty < n ∧ active gb ty (j * 8 / elemBits ty) = true) := by
          constructor <;> rintro ⟨h1, h2⟩ <;> exact ⟨by omega, h2⟩
        by_cases ha : active gb ty n = true
        · rw [if_pos ha, setLane_bit _ _ _ _ hj, if_neg (fun h => hn ((lane_of_bit hw n j).1 h)), ih]
          simp only [e]
        · rw [if_neg ha, ih]; simp only [e]
  rw [laneFlags, key]
  simp [hl]

/-! ### Prefixes -/

theorem prefix_none {t : Task} (h : t.fpend = false) : t.prefix_ = ⟨false, 0, false, 0, 0, 0, 0, 0⟩ := by
  simp [Task.prefix_, h, prefixOf, bitsAt, field]

theorem scaleX_none {t : Task} (h : t.fpend = false) : t.scaleX = 0x7F := by simp [Task.scaleX, prefix_none h]

theorem prefixOk_none {t : Task} (h : t.fpend = false) (ty : BitVec 5) (b : Bool) : prefixOk t ty b = true := by simp [prefixOk, h]

theorem fpElem_none (t : Task) (ty : BitVec 5) (k : Nat) (v : VWord) (i : Nat) : fpElem t ty none k v i = elemValue ty 0x7F (elem v ty i) := rfl

theorem fpA_none {t : Task} (h : t.fpend = false) (ty : BitVec 5) (a : Reg) (i : Nat) : fpA t ty a i = elemValue ty 0x7F (elem (t.getV a) ty i) := by
  simp [fpA, prefix_none h, fpElem]

theorem fpReg_none {t : Task} (h : t.fpend = false) (ty : BitVec 5) (b : Reg) (i : Nat) : fpReg t ty b i = elemValue ty 0x7F (elem (t.getV b) ty i) := by
  simp [fpReg, prefix_none h, fpElem]

namespace State

variable {s : State}

/-- A vector instruction that accepts the prefix runs its body once its registers let it. -/
theorem fplain_readable {dsts : List RegId} {srcs : List (RegId × Bool)} {body : Task → State}
    (h : s.readable dsts ((srcs ++ s.task.prefix_.reads).map (·.1)) = true) : s.fplain true dsts srcs body = body s.task := by
  simp [fplain, gate_ok h]

theorem fplain_refused {dsts : List RegId} {srcs : List (RegId × Bool)} {body : Task → State} : s.fplain false dsts srcs body = s.trapC cFORMAT := by
  simp [fplain]

/-- With no prefix pending. -/
theorem fplain_performs {ok : Bool} {dsts : List RegId} {srcs : List (RegId × Bool)} {body : Task → State} (hok : ok = true)
    (h : s.vperforms dsts (srcs.map (·.1)) = true) : s.fplain ok dsts srcs body = body s.task := by
  obtain ⟨h1, h2⟩ := vperforms_iff.1 h
  rw [hok, fplain_readable]
  simpa [prefix_none h1, Prefix.reads] using h2

/-- What a lane-by-lane instruction leaves. -/
theorem lanes_of {f : Form} {ty : BitVec 5} {d : Reg} {lat : Nat} {g el : Nat → Nat} (hst : s.task.stepping = false)
    (he : ∀ i, i < lanesOf ty → g i % 2 ^ elemBits ty = el i % 2 ^ elemBits ty) :
    s.lanes f ty d lat (.next (s.completeWith (s.task.writeV s.cycle d (lanewise (s.task.guardBits f.guard) ty (s.task.getV d) g) lat) f.bytes)) el := by
  refine ⟨_, by rw [completeWith_after (by simpa using hst) (by simp)], ?_⟩
  intro i hi
  rw [elem_lanewise _ _ _ _ hi, he i hi]

theorem flagged_of {f : Form} {ty : BitVec 5} {p : BitVec 3} {lat : Nat} {c : Nat → Bool} (hst : s.task.stepping = false)
    (hw : 8 ≤ elemBits ty) (hl : lanesOf ty * elemBits ty = 128) :
    s.flagged f ty p lat (.next (s.completeWith (s.task.writeP s.cycle p (laneFlags (s.task.guardBits f.guard) ty (s.task.getP p) c) lat) f.bytes)) c := by
  refine ⟨_, by rw [completeWith_after (by simpa using hst) (by simp)], ?_⟩
  intro j hj
  have h : elemBits ty = 8 ∨ elemBits ty = 16 ∨ elemBits ty = 32 ∨ elemBits ty = 64 := by
    clear hl; revert hw; revert ty; decide
  exact laneFlags_bit _ _ _ _ hw hj (by rcases h with h | h | h | h <;> rw [h] at hl ⊢ <;> omega)

end State

end Sys2Proof.Machine
end

