-- ==== Sys2Proof/Laws/PerInstr.lean ====
section
/-! SUPPORT. What is said of every instruction, one lemma per constructor: `RoundTrip`, that a well-formed instruction has a word group
from which the decoder reads exactly it (10:R158 to R170). A service, engine command or event has no encoding and is not well formed. -/

set_option linter.unusedSimpArgs false
set_option linter.unnecessarySeqFocus false

namespace Sys2Proof.Laws.RoundTrip

def Statement (i : Instr) : Prop := i.wf = true → ∃ r, i.toRaw = some r ∧ decodeRaw r = .ok i

theorem of_shape {i : Instr} {r : Raw} (hr : i.toRaw = some r) (h : i.formOk = true → i.reservedBad = false → decodeShape r = .ok i) :
    Statement i :=
  fun w => ⟨r, hr, decodeRaw_ok (h (Instr.wf_form w) (Instr.wf_reserved w)) (Instr.wf_operand w)⟩

theorem shape03 (r : Raw) (h : r.major = 0x03) :
    decodeShape r = decodeI64 r (IFields.read r.body) (Ext.read r.hi) := by
  obtain ⟨l, m, b, hi, lit⟩ := r
  subst h; rfl

theorem shape04 (r : Raw) (h : r.major = 0x04) :
    decodeShape r = decodeControl r (RFields.read r.body) (Ext.read r.hi) := by
  obtain ⟨l, m, b, hi, lit⟩ := r
  subst h; rfl

theorem shape05 (r : Raw) (h : r.major = 0x05) :
    decodeShape r = decodeAlu r (RFields.read r.body) (Ext.read r.hi) := by
  obtain ⟨l, m, b, hi, lit⟩ := r
  subst h; rfl

theorem shape06 (r : Raw) (h : r.major = 0x06) :
    decodeShape r = decodeMul r (RFields.read r.body) (Ext.read r.hi) := by
  obtain ⟨l, m, b, hi, lit⟩ := r
  subst h; rfl

theorem shape07 (r : Raw) (h : r.major = 0x07) :
    decodeShape r = decodeCmp r (RFields.read r.body) (Ext.read r.hi) := by
  obtain ⟨l, m, b, hi, lit⟩ := r
  subst h; rfl

theorem shape08 (r : Raw) (h : r.major = 0x08) :
    decodeShape r = decodeImm r (IFields.read r.body) (Ext.read r.hi) := by
  obtain ⟨l, m, b, hi, lit⟩ := r
  subst h; rfl

theorem shape09 (r : Raw) (h : r.major = 0x09) :
    decodeShape r = decodeImm r (IFields.read r.body) (Ext.read r.hi) := by
  obtain ⟨l, m, b, hi, lit⟩ := r
  subst h; rfl

theorem shape0a (r : Raw) (h : r.major = 0x0a) :
    decodeShape r = decodeImm r (IFields.read r.body) (Ext.read r.hi) := by
  obtain ⟨l, m, b, hi, lit⟩ := r
  subst h; rfl

theorem shape0b (r : Raw) (h : r.major = 0x0b) :
    decodeShape r = decodeImm r (IFields.read r.body) (Ext.read r.hi) := by
  obtain ⟨l, m, b, hi, lit⟩ := r
  subst h; rfl

theorem shape0c (r : Raw) (h : r.major = 0x0c) :
    decodeShape r = decodeImm r (IFields.read r.body) (Ext.read r.hi) := by
  obtain ⟨l, m, b, hi, lit⟩ := r
  subst h; rfl

theorem shape0d (r : Raw) (h : r.major = 0x0d) :
    decodeShape r = decodeImm r (IFields.read r.body) (Ext.read r.hi) := by
  obtain ⟨l, m, b, hi, lit⟩ := r
  subst h; rfl

theorem shape0e (r : Raw) (h : r.major = 0x0e) :
    decodeShape r = decodeImm r (IFields.read r.body) (Ext.read r.hi) := by
  obtain ⟨l, m, b, hi, lit⟩ := r
  subst h; rfl

theorem shape0f (r : Raw) (h : r.major = 0x0f) :
    decodeShape r = decodeImm r (IFields.read r.body) (Ext.read r.hi) := by
  obtain ⟨l, m, b, hi, lit⟩ := r
  subst h; rfl

theorem shape10 (r : Raw) (h : r.major = 0x10) :
    decodeShape r = decodeImm r (IFields.read r.body) (Ext.read r.hi) := by
  obtain ⟨l, m, b, hi, lit⟩ := r
  subst h; rfl

theorem shape11 (r : Raw) (h : r.major = 0x11) :
    decodeShape r = decodeI64 r (IFields.read r.body) (Ext.read r.hi) := by
  obtain ⟨l, m, b, hi, lit⟩ := r
  subst h; rfl

theorem shape12 (r : Raw) (h : r.major = 0x12) :
    decodeShape r = decodeI64 r (IFields.read r.body) (Ext.read r.hi) := by
  obtain ⟨l, m, b, hi, lit⟩ := r
  subst h; rfl

theorem shape13 (r : Raw) (h : r.major = 0x13) :
    decodeShape r = decodeSegment r (RFields.read r.body) (Ext.read r.hi) := by
  obtain ⟨l, m, b, hi, lit⟩ := r
  subst h; rfl

theorem shape18 (r : Raw) (h : r.major = 0x18) :
    decodeShape r = decodeVint r (RFields.read r.body) (Ext.read r.hi) := by
  obtain ⟨l, m, b, hi, lit⟩ := r
  subst h; rfl

theorem shape19 (r : Raw) (h : r.major = 0x19) :
    decodeShape r = decodeVfp r (RFields.read r.body) (Ext.read r.hi) := by
  obtain ⟨l, m, b, hi, lit⟩ := r
  subst h; rfl

theorem shape1a (r : Raw) (h : r.major = 0x1a) :
    decodeShape r = decodeVcvt r (RFields.read r.body) (Ext.read r.hi) := by
  obtain ⟨l, m, b, hi, lit⟩ := r
  subst h; rfl

theorem shape1b (r : Raw) (h : r.major = 0x1b) :
    decodeShape r = decodeVpred r (RFields.read r.body) (Ext.read r.hi) := by
  obtain ⟨l, m, b, hi, lit⟩ := r
  subst h; rfl

theorem shape1c (r : Raw) (h : r.major = 0x1c) :
    decodeShape r = decodeVmov r (RFields.read r.body) (Ext.read r.hi) := by
  obtain ⟨l, m, b, hi, lit⟩ := r
  subst h; rfl

theorem shape1d (r : Raw) (h : r.major = 0x1d) :
    decodeShape r = decodeSfu r (RFields.read r.body) (Ext.read r.hi) := by
  obtain ⟨l, m, b, hi, lit⟩ := r
  subst h; rfl

theorem shape20 (r : Raw) (h : r.major = 0x20) :
    decodeShape r = decodeMem r (MFields.read r.body) (Ext.read r.hi) := by
  obtain ⟨l, m, b, hi, lit⟩ := r
  subst h; rfl

theorem shape21 (r : Raw) (h : r.major = 0x21) :
    decodeShape r = decodeMem r (MFields.read r.body) (Ext.read r.hi) := by
  obtain ⟨l, m, b, hi, lit⟩ := r
  subst h; rfl

theorem shape22 (r : Raw) (h : r.major = 0x22) :
    decodeShape r = decodeMem r (MFields.read r.body) (Ext.read r.hi) := by
  obtain ⟨l, m, b, hi, lit⟩ := r
  subst h; rfl

theorem shape23 (r : Raw) (h : r.major = 0x23) :
    decodeShape r = decodeMem r (MFields.read r.body) (Ext.read r.hi) := by
  obtain ⟨l, m, b, hi, lit⟩ := r
  subst h; rfl

theorem shape24 (r : Raw) (h : r.major = 0x24) :
    decodeShape r = decodeMem r (MFields.read r.body) (Ext.read r.hi) := by
  obtain ⟨l, m, b, hi, lit⟩ := r
  subst h; rfl

theorem shape25 (r : Raw) (h : r.major = 0x25) :
    decodeShape r = decodeMem r (MFields.read r.body) (Ext.read r.hi) := by
  obtain ⟨l, m, b, hi, lit⟩ := r
  subst h; rfl

theorem shape26 (r : Raw) (h : r.major = 0x26) :
    decodeShape r = decodeMem r (MFields.read r.body) (Ext.read r.hi) := by
  obtain ⟨l, m, b, hi, lit⟩ := r
  subst h; rfl

theorem shape27 (r : Raw) (h : r.major = 0x27) :
    decodeShape r = decodeMem r (MFields.read r.body) (Ext.read r.hi) := by
  obtain ⟨l, m, b, hi, lit⟩ := r
  subst h; rfl

theorem shape28 (r : Raw) (h : r.major = 0x28) :
    decodeShape r = decodeMem r (MFields.read r.body) (Ext.read r.hi) := by
  obtain ⟨l, m, b, hi, lit⟩ := r
  subst h; rfl

theorem shape29 (r : Raw) (h : r.major = 0x29) :
    decodeShape r = decodeMem r (MFields.read r.body) (Ext.read r.hi) := by
  obtain ⟨l, m, b, hi, lit⟩ := r
  subst h; rfl

theorem shape2a (r : Raw) (h : r.major = 0x2a) :
    decodeShape r = decodeMem r (MFields.read r.body) (Ext.read r.hi) := by
  obtain ⟨l, m, b, hi, lit⟩ := r
  subst h; rfl

theorem shape2b (r : Raw) (h : r.major = 0x2b) :
    decodeShape r = decodeMem r (MFields.read r.body) (Ext.read r.hi) := by
  obtain ⟨l, m, b, hi, lit⟩ := r
  subst h; rfl

theorem shape2c (r : Raw) (h : r.major = 0x2c) :
    decodeShape r = decodeMem r (MFields.read r.body) (Ext.read r.hi) := by
  obtain ⟨l, m, b, hi, lit⟩ := r
  subst h; rfl

theorem shape2d (r : Raw) (h : r.major = 0x2d) :
    decodeShape r = decodeMem r (MFields.read r.body) (Ext.read r.hi) := by
  obtain ⟨l, m, b, hi, lit⟩ := r
  subst h; rfl

theorem shape2e (r : Raw) (h : r.major = 0x2e) :
    decodeShape r = decodeMem r (MFields.read r.body) (Ext.read r.hi) := by
  obtain ⟨l, m, b, hi, lit⟩ := r
  subst h; rfl

theorem shape2f (r : Raw) (h : r.major = 0x2f) :
    decodeShape r = decodeMem r (MFields.read r.body) (Ext.read r.hi) := by
  obtain ⟨l, m, b, hi, lit⟩ := r
  subst h; rfl

theorem shape30 (r : Raw) (h : r.major = 0x30) :
    decodeShape r = decodeMem r (MFields.read r.body) (Ext.read r.hi) := by
  obtain ⟨l, m, b, hi, lit⟩ := r
  subst h; rfl

theorem shape31 (r : Raw) (h : r.major = 0x31) :
    decodeShape r = decodeMem r (MFields.read r.body) (Ext.read r.hi) := by
  obtain ⟨l, m, b, hi, lit⟩ := r
  subst h; rfl

theorem shape32 (r : Raw) (h : r.major = 0x32) :
    decodeShape r = decodeMem r (MFields.read r.body) (Ext.read r.hi) := by
  obtain ⟨l, m, b, hi, lit⟩ := r
  subst h; rfl

theorem shape33 (r : Raw) (h : r.major = 0x33) :
    decodeShape r = decodeMem r (MFields.read r.body) (Ext.read r.hi) := by
  obtain ⟨l, m, b, hi, lit⟩ := r
  subst h; rfl

theorem shape34 (r : Raw) (h : r.major = 0x34) :
    decodeShape r = decodeMem r (MFields.read r.body) (Ext.read r.hi) := by
  obtain ⟨l, m, b, hi, lit⟩ := r
  subst h; rfl

theorem shape35 (r : Raw) (h : r.major = 0x35) :
    decodeShape r = decodeSync r (RFields.read r.body) (Ext.read r.hi) := by
  obtain ⟨l, m, b, hi, lit⟩ := r
  subst h; rfl

theorem shape38 (r : Raw) (h : r.major = 0x38) :
    decodeShape r = decodeEng r (RFields.read r.body) (Ext.read r.hi) := by
  obtain ⟨l, m, b, hi, lit⟩ := r
  subst h; rfl

theorem shape39 (r : Raw) (h : r.major = 0x39) :
    decodeShape r = decodeI64 r (IFields.read r.body) (Ext.read r.hi) := by
  obtain ⟨l, m, b, hi, lit⟩ := r
  subst h; rfl

theorem shape3b (r : Raw) (h : r.major = 0x3b) :
    decodeShape r = decodeStep r (RFields.read r.body) (Ext.read r.hi) := by
  obtain ⟨l, m, b, hi, lit⟩ := r
  subst h; rfl

theorem shape3c (r : Raw) (h : r.major = 0x3c) :
    decodeShape r = decodeSys r (RFields.read r.body) (Ext.read r.hi) := by
  obtain ⟨l, m, b, hi, lit⟩ := r
  subst h; rfl

theorem br (off : BitVec 20) (g : Guard) : Statement (.br off g) := fun w => by
  obtain ⟨p, n⟩ := g
  refine ⟨_, rfl, decodeRaw_ok ?_ (Instr.wf_operand w)⟩
  have hb : (p == 0 && n && off == 0) = false := by
    cases n
    · simp
    · have hn : (!(Instr.br off ⟨p, true⟩ == .br 0 ⟨0, true⟩)) = true := by
        simp only [Instr.wf, Bool.and_eq_true] at w; exact w.2
      by_cases hp : p = 0 <;> by_cases ho : off = 0 <;> simp_all
  change (if (BFields.read _).pred == 0 && (BFields.read _).neg && (BFields.read _).off == 0 then _ else _) = _
  simp only [BFields.read_word, hb]
  rfl

theorem nop : Statement .nop := fun _ => ⟨_, rfl, by decide⟩

theorem call (off : BitVec 20) (g : Guard) : Statement (.call off g) := fun w => by
  obtain ⟨p, n⟩ := g
  refine ⟨_, rfl, decodeRaw_ok ?_ (Instr.wf_operand w)⟩
  change Except.ok (Instr.call (BFields.read _).off ⟨(BFields.read _).pred, (BFields.read _).neg⟩) = _
  simp only [BFields.read_word]

theorem loop (f : Form) (d : Reg) (ea : Bool) (off : BitVec 13) : Statement (.loop f d ea off) := of_shape rfl fun h hr => by
  have h : (!f.is96) = true := h
  rw [shape03 _ rfl]
  cases f <;> first | exact absurd h Bool.false_ne_true | simp_all [decodeI64, keep, Form.read_hi, form32, form64, form96, Form.ext, Ext.unusedBad, Form.len, Form.is32, Form.is64, Form.is96, encI, IFields.read_word]

theorem jr (f : Form) (a : Reg) (ea : Bool) : Statement (.jr f a ea) := of_shape rfl fun h hr => by
  have h : (!f.is96) = true := h
  rw [shape04 _ rfl]
  cases f <;> first | exact absurd h Bool.false_ne_true | simp_all [decodeControl, keep, Form.read_hi, form32, form64, form96, Form.ext, Ext.unusedBad, Form.len, Form.is32, Form.is64, Form.is96, enc0, encR, RFields.read_word]

theorem callr (o : UnArgs) : Statement (.callr o) := of_shape rfl fun h hr => by
  have h : (!o.f.is96) = true := h
  rw [shape04 _ rfl]
  obtain ⟨f, d, a, ea⟩ := o
  cases f <;> first | exact absurd h Bool.false_ne_true | simp_all [decodeControl, keep, Form.read_hi, form32, form64, form96, Form.ext, Ext.unusedBad, Form.len, Form.is32, Form.is64, Form.is96, encUn, encR, RFields.read_word]

theorem ret (f : Form) (ea : Bool) : Statement (.ret f ea) := of_shape rfl fun h hr => by
  have h : (!f.is96) = true := h
  rw [shape04 _ rfl]
  cases f <;> first | exact absurd h Bool.false_ne_true | simp_all [decodeControl, keep, Form.read_hi, form32, form64, form96, Form.ext, Ext.unusedBad, Form.len, Form.is32, Form.is64, Form.is96, enc0, encR, RFields.read_word]

theorem tend (f : Form) : Statement (.tend f) := of_shape rfl fun h hr => by
  have h : (!f.is96) = true := h
  rw [shape04 _ rfl]
  cases f <;> first | exact absurd h Bool.false_ne_true | simp_all [decodeControl, keep, Form.read_hi, form32, form64, form96, Form.ext, Ext.unusedBad, Form.len, Form.is32, Form.is64, Form.is96, enc0, encR, RFields.read_word]

theorem hintYield (f : Form) : Statement (.hintYield f) := of_shape rfl fun h hr => by
  have h : (!f.is96) = true := h
  rw [shape04 _ rfl]
  cases f <;> first | exact absurd h Bool.false_ne_true | simp_all [decodeControl, keep, Form.read_hi, form32, form64, form96, Form.ext, Ext.unusedBad, Form.len, Form.is32, Form.is64, Form.is96, enc0, encR, RFields.read_word]

theorem yield (f : Form) : Statement (.yield f) := of_shape rfl fun h hr => by
  have h : (!f.is96) = true := h
  rw [shape04 _ rfl]
  cases f <;> first | exact absurd h Bool.false_ne_true | simp_all [decodeControl, keep, Form.read_hi, form32, form64, form96, Form.ext, Ext.unusedBad, Form.len, Form.is32, Form.is64, Form.is96, enc0, encR, RFields.read_word]

theorem gbar (f : Form) : Statement (.gbar f) := of_shape rfl fun h hr => by
  have h : (!f.is96) = true := h
  rw [shape04 _ rfl]
  cases f <;> first | exact absurd h Bool.false_ne_true | simp_all [decodeControl, keep, Form.read_hi, form32, form64, form96, Form.ext, Ext.unusedBad, Form.len, Form.is32, Form.is64, Form.is96, enc0, encR, RFields.read_word]

theorem add (o : AluArgs) (sat : Bool) (uns : Bool) : Statement (.add o sat uns) := of_shape rfl fun h hr => by
  have h : (o.b.fits o.f && (!o.f.is32 || (!sat && !uns))) = true := h
  have hr : (uns && !sat) = false := hr
  rw [shape05 _ rfl]
  obtain ⟨f, d, a, ea, b⟩ := o
  cases f <;> cases b <;> cases uns <;> first | exact absurd h Bool.false_ne_true | simp_all [decodeAlu, keep, Form.read_hi, form32, form64, form96, Form.ext, Ext.unusedBad, Form.len, Form.is32, Form.is64, Form.is96, encAlu, encR, RFields.read_word, rSrc, rSrcBad, Src.reg5, Src.eb, Src.litWord, Src.fits]

theorem sub (o : AluArgs) (sat : Bool) (uns : Bool) : Statement (.sub o sat uns) := of_shape rfl fun h hr => by
  have h : (o.b.fits o.f && (!o.f.is32 || (!sat && !uns))) = true := h
  have hr : (uns && !sat) = false := hr
  rw [shape05 _ rfl]
  obtain ⟨f, d, a, ea, b⟩ := o
  cases f <;> cases b <;> cases uns <;> first | exact absurd h Bool.false_ne_true | simp_all [decodeAlu, keep, Form.read_hi, form32, form64, form96, Form.ext, Ext.unusedBad, Form.len, Form.is32, Form.is64, Form.is96, encAlu, encR, RFields.read_word, rSrc, rSrcBad, Src.reg5, Src.eb, Src.litWord, Src.fits]

theorem and (o : AluArgs) : Statement (.and o) := of_shape rfl fun h hr => by
  have h : (o.b.fits o.f) = true := h
  rw [shape05 _ rfl]
  obtain ⟨f, d, a, ea, b⟩ := o
  cases f <;> cases b <;> first | exact absurd h Bool.false_ne_true | simp_all [decodeAlu, keep, Form.read_hi, form32, form64, form96, Form.ext, Ext.unusedBad, Form.len, Form.is32, Form.is64, Form.is96, encAlu, encR, RFields.read_word, rSrc, rSrcBad, Src.reg5, Src.eb, Src.litWord, Src.fits]

theorem or (o : AluArgs) : Statement (.or o) := of_shape rfl fun h hr => by
  have h : (o.b.fits o.f) = true := h
  rw [shape05 _ rfl]
  obtain ⟨f, d, a, ea, b⟩ := o
  cases f <;> cases b <;> first | exact absurd h Bool.false_ne_true | simp_all [decodeAlu, keep, Form.read_hi, form32, form64, form96, Form.ext, Ext.unusedBad, Form.len, Form.is32, Form.is64, Form.is96, encAlu, encR, RFields.read_word, rSrc, rSrcBad, Src.reg5, Src.eb, Src.litWord, Src.fits]

theorem xor (o : AluArgs) : Statement (.xor o) := of_shape rfl fun h hr => by
  have h : (o.b.fits o.f) = true := h
  rw [shape05 _ rfl]
  obtain ⟨f, d, a, ea, b⟩ := o
  cases f <;> cases b <;> first | exact absurd h Bool.false_ne_true | simp_all [decodeAlu, keep, Form.read_hi, form32, form64, form96, Form.ext, Ext.unusedBad, Form.len, Form.is32, Form.is64, Form.is96, encAlu, encR, RFields.read_word, rSrc, rSrcBad, Src.reg5, Src.eb, Src.litWord, Src.fits]

theorem andn (o : AluArgs) : Statement (.andn o) := of_shape rfl fun h hr => by
  have h : (o.b.fits o.f) = true := h
  rw [shape05 _ rfl]
  obtain ⟨f, d, a, ea, b⟩ := o
  cases f <;> cases b <;> first | exact absurd h Bool.false_ne_true | simp_all [decodeAlu, keep, Form.read_hi, form32, form64, form96, Form.ext, Ext.unusedBad, Form.len, Form.is32, Form.is64, Form.is96, encAlu, encR, RFields.read_word, rSrc, rSrcBad, Src.reg5, Src.eb, Src.litWord, Src.fits]

theorem orn (o : AluArgs) : Statement (.orn o) := of_shape rfl fun h hr => by
  have h : (o.b.fits o.f) = true := h
  rw [shape05 _ rfl]
  obtain ⟨f, d, a, ea, b⟩ := o
  cases f <;> cases b <;> first | exact absurd h Bool.false_ne_true | simp_all [decodeAlu, keep, Form.read_hi, form32, form64, form96, Form.ext, Ext.unusedBad, Form.len, Form.is32, Form.is64, Form.is96, encAlu, encR, RFields.read_word, rSrc, rSrcBad, Src.reg5, Src.eb, Src.litWord, Src.fits]

theorem shl (o : AluArgs) : Statement (.shl o) := of_shape rfl fun h hr => by
  have h : (o.b.fits o.f) = true := h
  rw [shape05 _ rfl]
  obtain ⟨f, d, a, ea, b⟩ := o
  cases f <;> cases b <;> first | exact absurd h Bool.false_ne_true | simp_all [decodeAlu, keep, Form.read_hi, form32, form64, form96, Form.ext, Ext.unusedBad, Form.len, Form.is32, Form.is64, Form.is96, encAlu, encR, RFields.read_word, rSrc, rSrcBad, Src.reg5, Src.eb, Src.litWord, Src.fits]

theorem shr (o : AluArgs) : Statement (.shr o) := of_shape rfl fun h hr => by
  have h : (o.b.fits o.f) = true := h
  rw [shape05 _ rfl]
  obtain ⟨f, d, a, ea, b⟩ := o
  cases f <;> cases b <;> first | exact absurd h Bool.false_ne_true | simp_all [decodeAlu, keep, Form.read_hi, form32, form64, form96, Form.ext, Ext.unusedBad, Form.len, Form.is32, Form.is64, Form.is96, encAlu, encR, RFields.read_word, rSrc, rSrcBad, Src.reg5, Src.eb, Src.litWord, Src.fits]

theorem sra (o : AluArgs) : Statement (.sra o) := of_shape rfl fun h hr => by
  have h : (o.b.fits o.f) = true := h
  rw [shape05 _ rfl]
  obtain ⟨f, d, a, ea, b⟩ := o
  cases f <;> cases b <;> first | exact absurd h Bool.false_ne_true | simp_all [decodeAlu, keep, Form.read_hi, form32, form64, form96, Form.ext, Ext.unusedBad, Form.len, Form.is32, Form.is64, Form.is96, encAlu, encR, RFields.read_word, rSrc, rSrcBad, Src.reg5, Src.eb, Src.litWord, Src.fits]

theorem rol (o : AluArgs) : Statement (.rol o) := of_shape rfl fun h hr => by
  have h : (o.b.fits o.f) = true := h
  rw [shape05 _ rfl]
  obtain ⟨f, d, a, ea, b⟩ := o
  cases f <;> cases b <;> first | exact absurd h Bool.false_ne_true | simp_all [decodeAlu, keep, Form.read_hi, form32, form64, form96, Form.ext, Ext.unusedBad, Form.len, Form.is32, Form.is64, Form.is96, encAlu, encR, RFields.read_word, rSrc, rSrcBad, Src.reg5, Src.eb, Src.litWord, Src.fits]

theorem ror (o : AluArgs) : Statement (.ror o) := of_shape rfl fun h hr => by
  have h : (o.b.fits o.f) = true := h
  rw [shape05 _ rfl]
  obtain ⟨f, d, a, ea, b⟩ := o
  cases f <;> cases b <;> first | exact absurd h Bool.false_ne_true | simp_all [decodeAlu, keep, Form.read_hi, form32, form64, form96, Form.ext, Ext.unusedBad, Form.len, Form.is32, Form.is64, Form.is96, encAlu, encR, RFields.read_word, rSrc, rSrcBad, Src.reg5, Src.eb, Src.litWord, Src.fits]

theorem min (o : AluArgs) : Statement (.min o) := of_shape rfl fun h hr => by
  have h : (o.b.fits o.f) = true := h
  rw [shape05 _ rfl]
  obtain ⟨f, d, a, ea, b⟩ := o
  cases f <;> cases b <;> first | exact absurd h Bool.false_ne_true | simp_all [decodeAlu, keep, Form.read_hi, form32, form64, form96, Form.ext, Ext.unusedBad, Form.len, Form.is32, Form.is64, Form.is96, encAlu, encR, RFields.read_word, rSrc, rSrcBad, Src.reg5, Src.eb, Src.litWord, Src.fits]

theorem max (o : AluArgs) : Statement (.max o) := of_shape rfl fun h hr => by
  have h : (o.b.fits o.f) = true := h
  rw [shape05 _ rfl]
  obtain ⟨f, d, a, ea, b⟩ := o
  cases f <;> cases b <;> first | exact absurd h Bool.false_ne_true | simp_all [decodeAlu, keep, Form.read_hi, form32, form64, form96, Form.ext, Ext.unusedBad, Form.len, Form.is32, Form.is64, Form.is96, encAlu, encR, RFields.read_word, rSrc, rSrcBad, Src.reg5, Src.eb, Src.litWord, Src.fits]

theorem minu (o : AluArgs) : Statement (.minu o) := of_shape rfl fun h hr => by
  have h : (o.b.fits o.f) = true := h
  rw [shape05 _ rfl]
  obtain ⟨f, d, a, ea, b⟩ := o
  cases f <;> cases b <;> first | exact absurd h Bool.false_ne_true | simp_all [decodeAlu, keep, Form.read_hi, form32, form64, form96, Form.ext, Ext.unusedBad, Form.len, Form.is32, Form.is64, Form.is96, encAlu, encR, RFields.read_word, rSrc, rSrcBad, Src.reg5, Src.eb, Src.litWord, Src.fits]

theorem maxu (o : AluArgs) : Statement (.maxu o) := of_shape rfl fun h hr => by
  have h : (o.b.fits o.f) = true := h
  rw [shape05 _ rfl]
  obtain ⟨f, d, a, ea, b⟩ := o
  cases f <;> cases b <;> first | exact absurd h Bool.false_ne_true | simp_all [decodeAlu, keep, Form.read_hi, form32, form64, form96, Form.ext, Ext.unusedBad, Form.len, Form.is32, Form.is64, Form.is96, encAlu, encR, RFields.read_word, rSrc, rSrcBad, Src.reg5, Src.eb, Src.litWord, Src.fits]

theorem clz (o : UnArgs) : Statement (.clz o) := of_shape rfl fun h hr => by
  have h : (!o.f.is96) = true := h
  rw [shape05 _ rfl]
  obtain ⟨f, d, a, ea⟩ := o
  cases f <;> first | exact absurd h Bool.false_ne_true | simp_all [decodeAlu, keep, Form.read_hi, form32, form64, form96, Form.ext, Ext.unusedBad, Form.len, Form.is32, Form.is64, Form.is96, encUn, encR, RFields.read_word]

theorem ctz (o : UnArgs) : Statement (.ctz o) := of_shape rfl fun h hr => by
  have h : (!o.f.is96) = true := h
  rw [shape05 _ rfl]
  obtain ⟨f, d, a, ea⟩ := o
  cases f <;> first | exact absurd h Bool.false_ne_true | simp_all [decodeAlu, keep, Form.read_hi, form32, form64, form96, Form.ext, Ext.unusedBad, Form.len, Form.is32, Form.is64, Form.is96, encUn, encR, RFields.read_word]

theorem popc (o : UnArgs) : Statement (.popc o) := of_shape rfl fun h hr => by
  have h : (!o.f.is96) = true := h
  rw [shape05 _ rfl]
  obtain ⟨f, d, a, ea⟩ := o
  cases f <;> first | exact absurd h Bool.false_ne_true | simp_all [decodeAlu, keep, Form.read_hi, form32, form64, form96, Form.ext, Ext.unusedBad, Form.len, Form.is32, Form.is64, Form.is96, encUn, encR, RFields.read_word]

theorem sext (o : AluArgs) : Statement (.sext o) := of_shape rfl fun h hr => by
  have h : (o.b.fits o.f) = true := h
  rw [shape05 _ rfl]
  obtain ⟨f, d, a, ea, b⟩ := o
  cases f <;> cases b <;> first | exact absurd h Bool.false_ne_true | simp_all [decodeAlu, keep, Form.read_hi, form32, form64, form96, Form.ext, Ext.unusedBad, Form.len, Form.is32, Form.is64, Form.is96, encAlu, encR, RFields.read_word, rSrc, rSrcBad, Src.reg5, Src.eb, Src.litWord, Src.fits]

theorem zext (o : AluArgs) : Statement (.zext o) := of_shape rfl fun h hr => by
  have h : (o.b.fits o.f) = true := h
  rw [shape05 _ rfl]
  obtain ⟨f, d, a, ea, b⟩ := o
  cases f <;> cases b <;> first | exact absurd h Bool.false_ne_true | simp_all [decodeAlu, keep, Form.read_hi, form32, form64, form96, Form.ext, Ext.unusedBad, Form.len, Form.is32, Form.is64, Form.is96, encAlu, encR, RFields.read_word, rSrc, rSrcBad, Src.reg5, Src.eb, Src.litWord, Src.fits]

theorem bext (o : AluArgs) : Statement (.bext o) := of_shape rfl fun h hr => by
  have h : (o.b.fits o.f) = true := h
  rw [shape05 _ rfl]
  obtain ⟨f, d, a, ea, b⟩ := o
  cases f <;> cases b <;> first | exact absurd h Bool.false_ne_true | simp_all [decodeAlu, keep, Form.read_hi, form32, form64, form96, Form.ext, Ext.unusedBad, Form.len, Form.is32, Form.is64, Form.is96, encAlu, encR, RFields.read_word, rSrc, rSrcBad, Src.reg5, Src.eb, Src.litWord, Src.fits]

theorem bins (o : AluArgs) : Statement (.bins o) := of_shape rfl fun h hr => by
  have h : (o.b.fits o.f) = true := h
  rw [shape05 _ rfl]
  obtain ⟨f, d, a, ea, b⟩ := o
  cases f <;> cases b <;> first | exact absurd h Bool.false_ne_true | simp_all [decodeAlu, keep, Form.read_hi, form32, form64, form96, Form.ext, Ext.unusedBad, Form.len, Form.is32, Form.is64, Form.is96, encAlu, encR, RFields.read_word, rSrc, rSrcBad, Src.reg5, Src.eb, Src.litWord, Src.fits]

theorem sh1add (o : AluArgs) : Statement (.sh1add o) := of_shape rfl fun h hr => by
  have h : (o.b.fits o.f) = true := h
  rw [shape05 _ rfl]
  obtain ⟨f, d, a, ea, b⟩ := o
  cases f <;> cases b <;> first | exact absurd h Bool.false_ne_true | simp_all [decodeAlu, keep, Form.read_hi, form32, form64, form96, Form.ext, Ext.unusedBad, Form.len, Form.is32, Form.is64, Form.is96, encAlu, encR, RFields.read_word, rSrc, rSrcBad, Src.reg5, Src.eb, Src.litWord, Src.fits]

theorem sh2add (o : AluArgs) : Statement (.sh2add o) := of_shape rfl fun h hr => by
  have h : (o.b.fits o.f) = true := h
  rw [shape05 _ rfl]
  obtain ⟨f, d, a, ea, b⟩ := o
  cases f <;> cases b <;> first | exact absurd h Bool.false_ne_true | simp_all [decodeAlu, keep, Form.read_hi, form32, form64, form96, Form.ext, Ext.unusedBad, Form.len, Form.is32, Form.is64, Form.is96, encAlu, encR, RFields.read_word, rSrc, rSrcBad, Src.reg5, Src.eb, Src.litWord, Src.fits]

theorem sh3add (o : AluArgs) : Statement (.sh3add o) := of_shape rfl fun h hr => by
  have h : (o.b.fits o.f) = true := h
  rw [shape05 _ rfl]
  obtain ⟨f, d, a, ea, b⟩ := o
  cases f <;> cases b <;> first | exact absurd h Bool.false_ne_true | simp_all [decodeAlu, keep, Form.read_hi, form32, form64, form96, Form.ext, Ext.unusedBad, Form.len, Form.is32, Form.is64, Form.is96, encAlu, encR, RFields.read_word, rSrc, rSrcBad, Src.reg5, Src.eb, Src.litWord, Src.fits]

theorem sh4add (o : AluArgs) : Statement (.sh4add o) := of_shape rfl fun h hr => by
  have h : (o.b.fits o.f) = true := h
  rw [shape05 _ rfl]
  obtain ⟨f, d, a, ea, b⟩ := o
  cases f <;> cases b <;> first | exact absurd h Bool.false_ne_true | simp_all [decodeAlu, keep, Form.read_hi, form32, form64, form96, Form.ext, Ext.unusedBad, Form.len, Form.is32, Form.is64, Form.is96, encAlu, encR, RFields.read_word, rSrc, rSrcBad, Src.reg5, Src.eb, Src.litWord, Src.fits]

theorem mul (o : AluArgs) : Statement (.mul o) := of_shape rfl fun h hr => by
  have h : (o.b.fits o.f) = true := h
  rw [shape06 _ rfl]
  obtain ⟨f, d, a, ea, b⟩ := o
  cases f <;> cases b <;> first | exact absurd h Bool.false_ne_true | simp_all [decodeMul, keep, Form.read_hi, form32, form64, form96, Form.ext, Ext.unusedBad, Form.len, Form.is32, Form.is64, Form.is96, encAlu, encR, RFields.read_word, rSrc, rSrcBad, Src.reg5, Src.eb, Src.litWord, Src.fits]

theorem mulh (o : AluArgs) : Statement (.mulh o) := of_shape rfl fun h hr => by
  have h : (o.b.fits o.f) = true := h
  rw [shape06 _ rfl]
  obtain ⟨f, d, a, ea, b⟩ := o
  cases f <;> cases b <;> first | exact absurd h Bool.false_ne_true | simp_all [decodeMul, keep, Form.read_hi, form32, form64, form96, Form.ext, Ext.unusedBad, Form.len, Form.is32, Form.is64, Form.is96, encAlu, encR, RFields.read_word, rSrc, rSrcBad, Src.reg5, Src.eb, Src.litWord, Src.fits]

theorem mulhu (o : AluArgs) : Statement (.mulhu o) := of_shape rfl fun h hr => by
  have h : (o.b.fits o.f) = true := h
  rw [shape06 _ rfl]
  obtain ⟨f, d, a, ea, b⟩ := o
  cases f <;> cases b <;> first | exact absurd h Bool.false_ne_true | simp_all [decodeMul, keep, Form.read_hi, form32, form64, form96, Form.ext, Ext.unusedBad, Form.len, Form.is32, Form.is64, Form.is96, encAlu, encR, RFields.read_word, rSrc, rSrcBad, Src.reg5, Src.eb, Src.litWord, Src.fits]

theorem mulhsu (o : AluArgs) : Statement (.mulhsu o) := of_shape rfl fun h hr => by
  have h : (o.b.fits o.f) = true := h
  rw [shape06 _ rfl]
  obtain ⟨f, d, a, ea, b⟩ := o
  cases f <;> cases b <;> first | exact absurd h Bool.false_ne_true | simp_all [decodeMul, keep, Form.read_hi, form32, form64, form96, Form.ext, Ext.unusedBad, Form.len, Form.is32, Form.is64, Form.is96, encAlu, encR, RFields.read_word, rSrc, rSrcBad, Src.reg5, Src.eb, Src.litWord, Src.fits]

theorem div (o : AluArgs) : Statement (.div o) := of_shape rfl fun h hr => by
  have h : (o.b.fits o.f) = true := h
  rw [shape06 _ rfl]
  obtain ⟨f, d, a, ea, b⟩ := o
  cases f <;> cases b <;> first | exact absurd h Bool.false_ne_true | simp_all [decodeMul, keep, Form.read_hi, form32, form64, form96, Form.ext, Ext.unusedBad, Form.len, Form.is32, Form.is64, Form.is96, encAlu, encR, RFields.read_word, rSrc, rSrcBad, Src.reg5, Src.eb, Src.litWord, Src.fits]

theorem divu (o : AluArgs) : Statement (.divu o) := of_shape rfl fun h hr => by
  have h : (o.b.fits o.f) = true := h
  rw [shape06 _ rfl]
  obtain ⟨f, d, a, ea, b⟩ := o
  cases f <;> cases b <;> first | exact absurd h Bool.false_ne_true | simp_all [decodeMul, keep, Form.read_hi, form32, form64, form96, Form.ext, Ext.unusedBad, Form.len, Form.is32, Form.is64, Form.is96, encAlu, encR, RFields.read_word, rSrc, rSrcBad, Src.reg5, Src.eb, Src.litWord, Src.fits]

theorem rem (o : AluArgs) : Statement (.rem o) := of_shape rfl fun h hr => by
  have h : (o.b.fits o.f) = true := h
  rw [shape06 _ rfl]
  obtain ⟨f, d, a, ea, b⟩ := o
  cases f <;> cases b <;> first | exact absurd h Bool.false_ne_true | simp_all [decodeMul, keep, Form.read_hi, form32, form64, form96, Form.ext, Ext.unusedBad, Form.len, Form.is32, Form.is64, Form.is96, encAlu, encR, RFields.read_word, rSrc, rSrcBad, Src.reg5, Src.eb, Src.litWord, Src.fits]

theorem remu (o : AluArgs) : Statement (.remu o) := of_shape rfl fun h hr => by
  have h : (o.b.fits o.f) = true := h
  rw [shape06 _ rfl]
  obtain ⟨f, d, a, ea, b⟩ := o
  cases f <;> cases b <;> first | exact absurd h Bool.false_ne_true | simp_all [decodeMul, keep, Form.read_hi, form32, form64, form96, Form.ext, Ext.unusedBad, Form.len, Form.is32, Form.is64, Form.is96, encAlu, encR, RFields.read_word, rSrc, rSrcBad, Src.reg5, Src.eb, Src.litWord, Src.fits]

theorem cmpEq (o : CmpArgs) : Statement (.cmpEq o) := of_shape rfl fun h hr => by
  have h : (o.b.fits o.f) = true := h
  rw [shape07 _ rfl]
  obtain ⟨f, p, a, ea, b⟩ := o
  cases f <;> cases b <;> first | exact absurd h Bool.false_ne_true | simp_all [decodeCmp, keep, Form.read_hi, form32, form64, form96, Form.ext, Ext.unusedBad, Form.len, Form.is32, Form.is64, Form.is96, encCmp, encR, RFields.read_word, rSrc, rSrcBad, Src.reg5, Src.eb, Src.litWord, Src.fits, low3_setWidth, idx3Bad_setWidth]

theorem cmpNe (o : CmpArgs) : Statement (.cmpNe o) := of_shape rfl fun h hr => by
  have h : (o.b.fits o.f) = true := h
  rw [shape07 _ rfl]
  obtain ⟨f, p, a, ea, b⟩ := o
  cases f <;> cases b <;> first | exact absurd h Bool.false_ne_true | simp_all [decodeCmp, keep, Form.read_hi, form32, form64, form96, Form.ext, Ext.unusedBad, Form.len, Form.is32, Form.is64, Form.is96, encCmp, encR, RFields.read_word, rSrc, rSrcBad, Src.reg5, Src.eb, Src.litWord, Src.fits, low3_setWidth, idx3Bad_setWidth]

theorem cmpLt (o : CmpArgs) : Statement (.cmpLt o) := of_shape rfl fun h hr => by
  have h : (o.b.fits o.f) = true := h
  rw [shape07 _ rfl]
  obtain ⟨f, p, a, ea, b⟩ := o
  cases f <;> cases b <;> first | exact absurd h Bool.false_ne_true | simp_all [decodeCmp, keep, Form.read_hi, form32, form64, form96, Form.ext, Ext.unusedBad, Form.len, Form.is32, Form.is64, Form.is96, encCmp, encR, RFields.read_word, rSrc, rSrcBad, Src.reg5, Src.eb, Src.litWord, Src.fits, low3_setWidth, idx3Bad_setWidth]

theorem cmpGe (o : CmpArgs) : Statement (.cmpGe o) := of_shape rfl fun h hr => by
  have h : (o.b.fits o.f) = true := h
  rw [shape07 _ rfl]
  obtain ⟨f, p, a, ea, b⟩ := o
  cases f <;> cases b <;> first | exact absurd h Bool.false_ne_true | simp_all [decodeCmp, keep, Form.read_hi, form32, form64, form96, Form.ext, Ext.unusedBad, Form.len, Form.is32, Form.is64, Form.is96, encCmp, encR, RFields.read_word, rSrc, rSrcBad, Src.reg5, Src.eb, Src.litWord, Src.fits, low3_setWidth, idx3Bad_setWidth]

theorem cmpLtu (o : CmpArgs) : Statement (.cmpLtu o) := of_shape rfl fun h hr => by
  have h : (o.b.fits o.f) = true := h
  rw [shape07 _ rfl]
  obtain ⟨f, p, a, ea, b⟩ := o
  cases f <;> cases b <;> first | exact absurd h Bool.false_ne_true | simp_all [decodeCmp, keep, Form.read_hi, form32, form64, form96, Form.ext, Ext.unusedBad, Form.len, Form.is32, Form.is64, Form.is96, encCmp, encR, RFields.read_word, rSrc, rSrcBad, Src.reg5, Src.eb, Src.litWord, Src.fits, low3_setWidth, idx3Bad_setWidth]

theorem cmpGeu (o : CmpArgs) : Statement (.cmpGeu o) := of_shape rfl fun h hr => by
  have h : (o.b.fits o.f) = true := h
  rw [shape07 _ rfl]
  obtain ⟨f, p, a, ea, b⟩ := o
  cases f <;> cases b <;> first | exact absurd h Bool.false_ne_true | simp_all [decodeCmp, keep, Form.read_hi, form32, form64, form96, Form.ext, Ext.unusedBad, Form.len, Form.is32, Form.is64, Form.is96, encCmp, encR, RFields.read_word, rSrc, rSrcBad, Src.reg5, Src.eb, Src.litWord, Src.fits, low3_setWidth, idx3Bad_setWidth]

theorem addi (o : ImmArgs) : Statement (.addi o) := of_shape rfl fun h hr => by
  have h : (o.imm.fits o.f) = true := h
  rw [shape08 _ rfl]
  obtain ⟨f, d, a, ea, imm⟩ := o
  cases f <;> cases imm <;> first | exact absurd h Bool.false_ne_true | simp_all [decodeImm, keep, Form.read_hi, form32, form64, form96, Form.ext, Ext.unusedBad, Form.len, Form.is32, Form.is64, Form.is96, encImm, encI, IFields.read_word, iImm, iImmBad, Imm.imm13, Imm.litWord, Imm.fits]

theorem andi (o : ImmArgs) : Statement (.andi o) := of_shape rfl fun h hr => by
  have h : (o.imm.fits o.f) = true := h
  rw [shape09 _ rfl]
  obtain ⟨f, d, a, ea, imm⟩ := o
  cases f <;> cases imm <;> first | exact absurd h Bool.false_ne_true | simp_all [decodeImm, keep, Form.read_hi, form32, form64, form96, Form.ext, Ext.unusedBad, Form.len, Form.is32, Form.is64, Form.is96, encImm, encI, IFields.read_word, iImm, iImmBad, Imm.imm13, Imm.litWord, Imm.fits]

theorem ori (o : ImmArgs) : Statement (.ori o) := of_shape rfl fun h hr => by
  have h : (o.imm.fits o.f) = true := h
  rw [shape0a _ rfl]
  obtain ⟨f, d, a, ea, imm⟩ := o
  cases f <;> cases imm <;> first | exact absurd h Bool.false_ne_true | simp_all [decodeImm, keep, Form.read_hi, form32, form64, form96, Form.ext, Ext.unusedBad, Form.len, Form.is32, Form.is64, Form.is96, encImm, encI, IFields.read_word, iImm, iImmBad, Imm.imm13, Imm.litWord, Imm.fits]

theorem xori (o : ImmArgs) : Statement (.xori o) := of_shape rfl fun h hr => by
  have h : (o.imm.fits o.f) = true := h
  rw [shape0b _ rfl]
  obtain ⟨f, d, a, ea, imm⟩ := o
  cases f <;> cases imm <;> first | exact absurd h Bool.false_ne_true | simp_all [decodeImm, keep, Form.read_hi, form32, form64, form96, Form.ext, Ext.unusedBad, Form.len, Form.is32, Form.is64, Form.is96, encImm, encI, IFields.read_word, iImm, iImmBad, Imm.imm13, Imm.litWord, Imm.fits]

theorem shli (o : ImmArgs) : Statement (.shli o) := of_shape rfl fun h hr => by
  have h : (o.imm.fits o.f) = true := h
  rw [shape0c _ rfl]
  obtain ⟨f, d, a, ea, imm⟩ := o
  cases f <;> cases imm <;> first | exact absurd h Bool.false_ne_true | simp_all [decodeImm, keep, Form.read_hi, form32, form64, form96, Form.ext, Ext.unusedBad, Form.len, Form.is32, Form.is64, Form.is96, encImm, encI, IFields.read_word, iImm, iImmBad, Imm.imm13, Imm.litWord, Imm.fits]

theorem shri (o : ImmArgs) : Statement (.shri o) := of_shape rfl fun h hr => by
  have h : (o.imm.fits o.f) = true := h
  rw [shape0d _ rfl]
  obtain ⟨f, d, a, ea, imm⟩ := o
  cases f <;> cases imm <;> first | exact absurd h Bool.false_ne_true | simp_all [decodeImm, keep, Form.read_hi, form32, form64, form96, Form.ext, Ext.unusedBad, Form.len, Form.is32, Form.is64, Form.is96, encImm, encI, IFields.read_word, iImm, iImmBad, Imm.imm13, Imm.litWord, Imm.fits]

theorem srai (o : ImmArgs) : Statement (.srai o) := of_shape rfl fun h hr => by
  have h : (o.imm.fits o.f) = true := h
  rw [shape0e _ rfl]
  obtain ⟨f, d, a, ea, imm⟩ := o
  cases f <;> cases imm <;> first | exact absurd h Bool.false_ne_true | simp_all [decodeImm, keep, Form.read_hi, form32, form64, form96, Form.ext, Ext.unusedBad, Form.len, Form.is32, Form.is64, Form.is96, encImm, encI, IFields.read_word, iImm, iImmBad, Imm.imm13, Imm.litWord, Imm.fits]

theorem cmpiEq (o : CmpImmArgs) : Statement (.cmpiEq o) := of_shape rfl fun h hr => by
  have h : (o.imm.fits o.f) = true := h
  rw [shape0f _ rfl]
  have h1 : ∀ p : BitVec 3, (BitVec.ofNat 5 (p.toNat + 8 * 0)).toNat / 8 = 0 := by decide
  have h2 : ∀ p : BitVec 3, low3 (BitVec.ofNat 5 (p.toNat + 8 * 0)) = p := by decide
  obtain ⟨f, p, a, ea, imm⟩ := o
  simp only [encCmpImm, encI, IFields.read_word, Form.read_hi, decodeImm, h1, h2]
  cases f <;> cases imm <;> first | exact absurd h Bool.false_ne_true | simp_all [keep, Form.read_hi, form32, form64, form96, Form.ext, Ext.unusedBad, Form.len, Form.is32, Form.is64, Form.is96, iImm, iImmBad, Imm.imm13, Imm.litWord, Imm.fits]

theorem cmpiNe (o : CmpImmArgs) : Statement (.cmpiNe o) := of_shape rfl fun h hr => by
  have h : (o.imm.fits o.f) = true := h
  rw [shape0f _ rfl]
  have h1 : ∀ p : BitVec 3, (BitVec.ofNat 5 (p.toNat + 8 * 1)).toNat / 8 = 1 := by decide
  have h2 : ∀ p : BitVec 3, low3 (BitVec.ofNat 5 (p.toNat + 8 * 1)) = p := by decide
  obtain ⟨f, p, a, ea, imm⟩ := o
  simp only [encCmpImm, encI, IFields.read_word, Form.read_hi, decodeImm, h1, h2]
  cases f <;> cases imm <;> first | exact absurd h Bool.false_ne_true | simp_all [keep, Form.read_hi, form32, form64, form96, Form.ext, Ext.unusedBad, Form.len, Form.is32, Form.is64, Form.is96, iImm, iImmBad, Imm.imm13, Imm.litWord, Imm.fits]

theorem cmpiLt (o : CmpImmArgs) : Statement (.cmpiLt o) := of_shape rfl fun h hr => by
  have h : (o.imm.fits o.f) = true := h
  rw [shape0f _ rfl]
  have h1 : ∀ p : BitVec 3, (BitVec.ofNat 5 (p.toNat + 8 * 2)).toNat / 8 = 2 := by decide
  have h2 : ∀ p : BitVec 3, low3 (BitVec.ofNat 5 (p.toNat + 8 * 2)) = p := by decide
  obtain ⟨f, p, a, ea, imm⟩ := o
  simp only [encCmpImm, encI, IFields.read_word, Form.read_hi, decodeImm, h1, h2]
  cases f <;> cases imm <;> first | exact absurd h Bool.false_ne_true | simp_all [keep, Form.read_hi, form32, form64, form96, Form.ext, Ext.unusedBad, Form.len, Form.is32, Form.is64, Form.is96, iImm, iImmBad, Imm.imm13, Imm.litWord, Imm.fits]

theorem cmpiGe (o : CmpImmArgs) : Statement (.cmpiGe o) := of_shape rfl fun h hr => by
  have h : (o.imm.fits o.f) = true := h
  rw [shape0f _ rfl]
  have h1 : ∀ p : BitVec 3, (BitVec.ofNat 5 (p.toNat + 8 * 3)).toNat / 8 = 3 := by decide
  have h2 : ∀ p : BitVec 3, low3 (BitVec.ofNat 5 (p.toNat + 8 * 3)) = p := by decide
  obtain ⟨f, p, a, ea, imm⟩ := o
  simp only [encCmpImm, encI, IFields.read_word, Form.read_hi, decodeImm, h1, h2]
  cases f <;> cases imm <;> first | exact absurd h Bool.false_ne_true | simp_all [keep, Form.read_hi, form32, form64, form96, Form.ext, Ext.unusedBad, Form.len, Form.is32, Form.is64, Form.is96, iImm, iImmBad, Imm.imm13, Imm.litWord, Imm.fits]

theorem cmpiuLtu (o : CmpImmArgs) : Statement (.cmpiuLtu o) := of_shape rfl fun h hr => by
  have h : (o.imm.fits o.f) = true := h
  rw [shape10 _ rfl]
  have h1 : ∀ p : BitVec 3, (BitVec.ofNat 5 (p.toNat + 8 * 0)).toNat / 8 = 0 := by decide
  have h2 : ∀ p : BitVec 3, low3 (BitVec.ofNat 5 (p.toNat + 8 * 0)) = p := by decide
  obtain ⟨f, p, a, ea, imm⟩ := o
  simp only [encCmpImm, encI, IFields.read_word, Form.read_hi, decodeImm, h1, h2]
  cases f <;> cases imm <;> first | exact absurd h Bool.false_ne_true | simp_all [keep, Form.read_hi, form32, form64, form96, Form.ext, Ext.unusedBad, Form.len, Form.is32, Form.is64, Form.is96, iImm, iImmBad, Imm.imm13, Imm.litWord, Imm.fits]

theorem cmpiuGeu (o : CmpImmArgs) : Statement (.cmpiuGeu o) := of_shape rfl fun h hr => by
  have h : (o.imm.fits o.f) = true := h
  rw [shape10 _ rfl]
  have h1 : ∀ p : BitVec 3, (BitVec.ofNat 5 (p.toNat + 8 * 1)).toNat / 8 = 1 := by decide
  have h2 : ∀ p : BitVec 3, low3 (BitVec.ofNat 5 (p.toNat + 8 * 1)) = p := by decide
  obtain ⟨f, p, a, ea, imm⟩ := o
  simp only [encCmpImm, encI, IFields.read_word, Form.read_hi, decodeImm, h1, h2]
  cases f <;> cases imm <;> first | exact absurd h Bool.false_ne_true | simp_all [keep, Form.read_hi, form32, form64, form96, Form.ext, Ext.unusedBad, Form.len, Form.is32, Form.is64, Form.is96, iImm, iImmBad, Imm.imm13, Imm.litWord, Imm.fits]

theorem rdms (f : Form) (d : Reg) (num : BitVec 13) : Statement (.rdms f d num) := of_shape rfl fun h hr => by
  have h : (!f.is96) = true := h
  rw [shape11 _ rfl]
  cases f <;> first | exact absurd h Bool.false_ne_true | simp_all [decodeI64, keep, Form.read_hi, form32, form64, form96, Form.ext, Ext.unusedBad, Form.len, Form.is32, Form.is64, Form.is96, encI, IFields.read_word]

theorem wrms (f : Form) (a : Reg) (ea : Bool) (num : BitVec 13) : Statement (.wrms f a ea num) := of_shape rfl fun h hr => by
  have h : (!f.is96) = true := h
  rw [shape12 _ rfl]
  cases f <;> first | exact absurd h Bool.false_ne_true | simp_all [decodeI64, keep, Form.read_hi, form32, form64, form96, Form.ext, Ext.unusedBad, Form.len, Form.is32, Form.is64, Form.is96, encI, IFields.read_word]

theorem gnarrow (f : Form) (d : BitVec 3) (a : BitVec 3) (b : Reg) (eb : Bool) (c : Reg) (ec : Bool) (drop : BitVec 4) : Statement (.gnarrow f d a b eb c ec drop) := of_shape rfl fun h hr => by
  have h : (!f.is96 && (!f.is32 || (c == 0 && !ec && drop == 0))) = true := h
  rw [shape13 _ rfl]
  cases f <;> first | exact absurd h Bool.false_ne_true | simp_all [decodeSegment, keep, Form.read_hi, form32, form64, form96, Form.ext, Ext.unusedBad, Form.len, Form.is32, Form.is64, Form.is96, encR, RFields.read_word, low3_setWidth, idx3Bad_setWidth]

theorem grd (f : Form) (d : Reg) (a : BitVec 3) (hi : Bool) : Statement (.grd f d a hi) := of_shape rfl fun h hr => by
  have h : (!f.is96) = true := h
  rw [shape13 _ rfl]
  cases f <;> cases hi <;> first | exact absurd h Bool.false_ne_true | simp_all [decodeSegment, keep, Form.read_hi, form32, form64, form96, Form.ext, Ext.unusedBad, Form.len, Form.is32, Form.is64, Form.is96, enc0, encR, RFields.read_word, low3_setWidth, idx3Bad_setWidth]

theorem pand (o : PredArgs) : Statement (.pand o) := of_shape rfl fun h hr => by
  have h : (!o.f.is96) = true := h
  rw [shape1b _ rfl]
  obtain ⟨f, d, a, b⟩ := o
  cases f <;> first | exact absurd h Bool.false_ne_true | simp_all [decodeVpred, keep, Form.read_hi, form32, form64, form96, Form.ext, Ext.unusedBad, Form.len, Form.is32, Form.is64, Form.is96, encPred, encR, RFields.read_word, low3_setWidth, idx3Bad_setWidth]

theorem por (o : PredArgs) : Statement (.por o) := of_shape rfl fun h hr => by
  have h : (!o.f.is96) = true := h
  rw [shape1b _ rfl]
  obtain ⟨f, d, a, b⟩ := o
  cases f <;> first | exact absurd h Bool.false_ne_true | simp_all [decodeVpred, keep, Form.read_hi, form32, form64, form96, Form.ext, Ext.unusedBad, Form.len, Form.is32, Form.is64, Form.is96, encPred, encR, RFields.read_word, low3_setWidth, idx3Bad_setWidth]

theorem pxor (o : PredArgs) : Statement (.pxor o) := of_shape rfl fun h hr => by
  have h : (!o.f.is96) = true := h
  rw [shape1b _ rfl]
  obtain ⟨f, d, a, b⟩ := o
  cases f <;> first | exact absurd h Bool.false_ne_true | simp_all [decodeVpred, keep, Form.read_hi, form32, form64, form96, Form.ext, Ext.unusedBad, Form.len, Form.is32, Form.is64, Form.is96, encPred, encR, RFields.read_word, low3_setWidth, idx3Bad_setWidth]

theorem pnot (o : PredUn) : Statement (.pnot o) := of_shape rfl fun h hr => by
  have h : (!o.f.is96) = true := h
  rw [shape1b _ rfl]
  obtain ⟨f, d, a⟩ := o
  cases f <;> first | exact absurd h Bool.false_ne_true | simp_all [decodeVpred, keep, Form.read_hi, form32, form64, form96, Form.ext, Ext.unusedBad, Form.len, Form.is32, Form.is64, Form.is96, encPredUn, encR, RFields.read_word, low3_setWidth, idx3Bad_setWidth]

theorem pmov (o : PredUn) : Statement (.pmov o) := of_shape rfl fun h hr => by
  have h : (!o.f.is96) = true := h
  rw [shape1b _ rfl]
  obtain ⟨f, d, a⟩ := o
  cases f <;> first | exact absurd h Bool.false_ne_true | simp_all [decodeVpred, keep, Form.read_hi, form32, form64, form96, Form.ext, Ext.unusedBad, Form.len, Form.is32, Form.is64, Form.is96, encPredUn, encR, RFields.read_word, low3_setWidth, idx3Bad_setWidth]

theorem vwhile (g : Guard) (ty : BitVec 5) (d : BitVec 3) (a : Reg) (ea : Bool) (b : Reg) (eb : Bool) : Statement (.vwhile g ty d a ea b eb) := of_shape rfl fun h hr => by
  have h : (true) = true := h
  have hr : (tyResv ty) = false := hr
  rw [shape1b _ rfl]
  obtain ⟨pred, neg⟩ := g
   <;> first | exact absurd h Bool.false_ne_true | simp_all [decodeVpred, keep, Form.read_hi, form32, form64, form96, Form.ext, Ext.unusedBad, Form.len, Form.is32, Form.is64, Form.is96, encR, RFields.read_word, low3_setWidth, idx3Bad_setWidth]

theorem pcnt (ty : BitVec 5) (d : Reg) (a : BitVec 3) : Statement (.pcnt ty d a) := of_shape rfl fun h hr => by
  have h : (true) = true := h
  have hr : (tyResv ty) = false := hr
  rw [shape1b _ rfl]
   <;> first | exact absurd h Bool.false_ne_true | simp_all [decodeVpred, keep, Form.read_hi, form32, form64, form96, Form.ext, Ext.unusedBad, Form.len, Form.is32, Form.is64, Form.is96, encR, RFields.read_word, low3_setWidth, idx3Bad_setWidth]

theorem vmov (o : VUn) : Statement (.vmov o) := of_shape rfl fun h hr => by
  have h : (!o.f.is96 && (!o.f.is32 || o.ty == 4)) = true := h
  have hr : (tyResv o.ty || o.sat || o.rnd != 0) = false := hr
  rw [shape1c _ rfl]
  obtain ⟨f, ty, rnd, sat, d, a, ea⟩ := o
  cases f <;> first | exact absurd h Bool.false_ne_true | simp_all [decodeVmov, keep, Form.read_hi, form32, form64, form96, Form.ext, Ext.unusedBad, Form.len, Form.is32, Form.is64, Form.is96, encVUn, encR, RFields.read_word, tyField]

theorem vbcast (o : VUn) : Statement (.vbcast o) := of_shape rfl fun h hr => by
  have h : (!o.f.is96 && (!o.f.is32 || o.ty == 6)) = true := h
  have hr : (tyResv o.ty || o.sat || o.rnd != 0) = false := hr
  rw [shape1c _ rfl]
  obtain ⟨f, ty, rnd, sat, d, a, ea⟩ := o
  cases f <;> first | exact absurd h Bool.false_ne_true | simp_all [decodeVmov, keep, Form.read_hi, form32, form64, form96, Form.ext, Ext.unusedBad, Form.len, Form.is32, Form.is64, Form.is96, encVUn, encR, RFields.read_word, tyField]

theorem vins (o : VIdxArgs) : Statement (.vins o) := of_shape rfl fun h hr => by
  have h : (!o.f.is96 && (!o.f.is32 || o.ty == 6)) = true := h
  have hr : (tyResv o.ty) = false := hr
  rw [shape1c _ rfl]
  obtain ⟨f, ty, d, a, ea, k⟩ := o
  cases f <;> first | exact absurd h Bool.false_ne_true | simp_all [decodeVmov, keep, Form.read_hi, form32, form64, form96, Form.ext, Ext.unusedBad, Form.len, Form.is32, Form.is64, Form.is96, encVIdx, encR, RFields.read_word, tyField]

theorem vext (o : VIdxArgs) : Statement (.vext o) := of_shape rfl fun h hr => by
  have h : (!o.f.is96 && (!o.f.is32 || o.ty == 6)) = true := h
  have hr : (tyResv o.ty) = false := hr
  rw [shape1c _ rfl]
  obtain ⟨f, ty, d, a, ea, k⟩ := o
  cases f <;> first | exact absurd h Bool.false_ne_true | simp_all [decodeVmov, keep, Form.read_hi, form32, form64, form96, Form.ext, Ext.unusedBad, Form.len, Form.is32, Form.is64, Form.is96, encVIdx, encR, RFields.read_word, tyField]

theorem vperm (o : VMovArgs) : Statement (.vperm o) := of_shape rfl fun h hr => by
  have h : (!o.f.is96 && (!o.f.is32 || o.ty == 4)) = true := h
  have hr : (tyResv o.ty) = false := hr
  rw [shape1c _ rfl]
  obtain ⟨f, ty, d, a, ea, b, eb⟩ := o
  cases f <;> first | exact absurd h Bool.false_ne_true | simp_all [decodeVmov, keep, Form.read_hi, form32, form64, form96, Form.ext, Ext.unusedBad, Form.len, Form.is32, Form.is64, Form.is96, encVMov, encR, RFields.read_word, tyField]

theorem vsel (o : VMovArgs) : Statement (.vsel o) := of_shape rfl fun h hr => by
  have h : (!o.f.is96 && (!o.f.is32 || o.ty == 4)) = true := h
  have hr : (tyResv o.ty) = false := hr
  rw [shape1c _ rfl]
  obtain ⟨f, ty, d, a, ea, b, eb⟩ := o
  cases f <;> first | exact absurd h Bool.false_ne_true | simp_all [decodeVmov, keep, Form.read_hi, form32, form64, form96, Form.ext, Ext.unusedBad, Form.len, Form.is32, Form.is64, Form.is96, encVMov, encR, RFields.read_word, tyField]

theorem vintVadd (o : VArgs) : Statement (.vintVadd o) := of_shape rfl fun h hr => by
  have h : (!o.f.is32 && o.b.fits o.f) = true := h
  have hr : (tyResv o.ty) = false := hr
  rw [shape18 _ rfl]
  obtain ⟨f, ty, sat, d, a, ea, b⟩ := o
  cases f <;> cases b <;> first | exact absurd h Bool.false_ne_true | simp_all [decodeVint, keep, Form.read_hi, form32, form64, form96, Form.ext, Ext.unusedBad, Form.len, Form.is32, Form.is64, Form.is96, encV, encR, RFields.read_word, rSrc, rSrcBad, Src.reg5, Src.eb, Src.litWord, Src.fits]

theorem vintVsub (o : VArgs) : Statement (.vintVsub o) := of_shape rfl fun h hr => by
  have h : (!o.f.is32 && o.b.fits o.f) = true := h
  have hr : (tyResv o.ty) = false := hr
  rw [shape18 _ rfl]
  obtain ⟨f, ty, sat, d, a, ea, b⟩ := o
  cases f <;> cases b <;> first | exact absurd h Bool.false_ne_true | simp_all [decodeVint, keep, Form.read_hi, form32, form64, form96, Form.ext, Ext.unusedBad, Form.len, Form.is32, Form.is64, Form.is96, encV, encR, RFields.read_word, rSrc, rSrcBad, Src.reg5, Src.eb, Src.litWord, Src.fits]

theorem vintVmul (o : VArgs) : Statement (.vintVmul o) := of_shape rfl fun h hr => by
  have h : (!o.f.is32 && o.b.fits o.f) = true := h
  have hr : (tyResv o.ty) = false := hr
  rw [shape18 _ rfl]
  obtain ⟨f, ty, sat, d, a, ea, b⟩ := o
  cases f <;> cases b <;> first | exact absurd h Bool.false_ne_true | simp_all [decodeVint, keep, Form.read_hi, form32, form64, form96, Form.ext, Ext.unusedBad, Form.len, Form.is32, Form.is64, Form.is96, encV, encR, RFields.read_word, rSrc, rSrcBad, Src.reg5, Src.eb, Src.litWord, Src.fits]

theorem vintVmulh (o : VArgs) : Statement (.vintVmulh o) := of_shape rfl fun h hr => by
  have h : (!o.f.is32 && o.b.fits o.f) = true := h
  have hr : (tyResv o.ty || o.sat) = false := hr
  rw [shape18 _ rfl]
  obtain ⟨f, ty, sat, d, a, ea, b⟩ := o
  cases f <;> cases b <;> first | exact absurd h Bool.false_ne_true | simp_all [decodeVint, keep, Form.read_hi, form32, form64, form96, Form.ext, Ext.unusedBad, Form.len, Form.is32, Form.is64, Form.is96, encV, encR, RFields.read_word, rSrc, rSrcBad, Src.reg5, Src.eb, Src.litWord, Src.fits]

theorem vintVmin (o : VArgs) : Statement (.vintVmin o) := of_shape rfl fun h hr => by
  have h : (!o.f.is32 && o.b.fits o.f) = true := h
  have hr : (tyResv o.ty || o.sat) = false := hr
  rw [shape18 _ rfl]
  obtain ⟨f, ty, sat, d, a, ea, b⟩ := o
  cases f <;> cases b <;> first | exact absurd h Bool.false_ne_true | simp_all [decodeVint, keep, Form.read_hi, form32, form64, form96, Form.ext, Ext.unusedBad, Form.len, Form.is32, Form.is64, Form.is96, encV, encR, RFields.read_word, rSrc, rSrcBad, Src.reg5, Src.eb, Src.litWord, Src.fits]

theorem vintVmax (o : VArgs) : Statement (.vintVmax o) := of_shape rfl fun h hr => by
  have h : (!o.f.is32 && o.b.fits o.f) = true := h
  have hr : (tyResv o.ty || o.sat) = false := hr
  rw [shape18 _ rfl]
  obtain ⟨f, ty, sat, d, a, ea, b⟩ := o
  cases f <;> cases b <;> first | exact absurd h Bool.false_ne_true | simp_all [decodeVint, keep, Form.read_hi, form32, form64, form96, Form.ext, Ext.unusedBad, Form.len, Form.is32, Form.is64, Form.is96, encV, encR, RFields.read_word, rSrc, rSrcBad, Src.reg5, Src.eb, Src.litWord, Src.fits]

theorem vintVand (o : VArgs) : Statement (.vintVand o) := of_shape rfl fun h hr => by
  have h : (!o.f.is32 && o.b.fits o.f) = true := h
  have hr : (tyResv o.ty || o.sat) = false := hr
  rw [shape18 _ rfl]
  obtain ⟨f, ty, sat, d, a, ea, b⟩ := o
  cases f <;> cases b <;> first | exact absurd h Bool.false_ne_true | simp_all [decodeVint, keep, Form.read_hi, form32, form64, form96, Form.ext, Ext.unusedBad, Form.len, Form.is32, Form.is64, Form.is96, encV, encR, RFields.read_word, rSrc, rSrcBad, Src.reg5, Src.eb, Src.litWord, Src.fits]

theorem vintVor (o : VArgs) : Statement (.vintVor o) := of_shape rfl fun h hr => by
  have h : (!o.f.is32 && o.b.fits o.f) = true := h
  have hr : (tyResv o.ty || o.sat) = false := hr
  rw [shape18 _ rfl]
  obtain ⟨f, ty, sat, d, a, ea, b⟩ := o
  cases f <;> cases b <;> first | exact absurd h Bool.false_ne_true | simp_all [decodeVint, keep, Form.read_hi, form32, form64, form96, Form.ext, Ext.unusedBad, Form.len, Form.is32, Form.is64, Form.is96, encV, encR, RFields.read_word, rSrc, rSrcBad, Src.reg5, Src.eb, Src.litWord, Src.fits]

theorem vintVxor (o : VArgs) : Statement (.vintVxor o) := of_shape rfl fun h hr => by
  have h : (!o.f.is32 && o.b.fits o.f) = true := h
  have hr : (tyResv o.ty || o.sat) = false := hr
  rw [shape18 _ rfl]
  obtain ⟨f, ty, sat, d, a, ea, b⟩ := o
  cases f <;> cases b <;> first | exact absurd h Bool.false_ne_true | simp_all [decodeVint, keep, Form.read_hi, form32, form64, form96, Form.ext, Ext.unusedBad, Form.len, Form.is32, Form.is64, Form.is96, encV, encR, RFields.read_word, rSrc, rSrcBad, Src.reg5, Src.eb, Src.litWord, Src.fits]

theorem vintVandn (o : VArgs) : Statement (.vintVandn o) := of_shape rfl fun h hr => by
  have h : (!o.f.is32 && o.b.fits o.f) = true := h
  have hr : (tyResv o.ty || o.sat) = false := hr
  rw [shape18 _ rfl]
  obtain ⟨f, ty, sat, d, a, ea, b⟩ := o
  cases f <;> cases b <;> first | exact absurd h Bool.false_ne_true | simp_all [decodeVint, keep, Form.read_hi, form32, form64, form96, Form.ext, Ext.unusedBad, Form.len, Form.is32, Form.is64, Form.is96, encV, encR, RFields.read_word, rSrc, rSrcBad, Src.reg5, Src.eb, Src.litWord, Src.fits]

theorem vintVshl (o : VArgs) : Statement (.vintVshl o) := of_shape rfl fun h hr => by
  have h : (!o.f.is32 && o.b.fits o.f) = true := h
  have hr : (tyResv o.ty) = false := hr
  rw [shape18 _ rfl]
  obtain ⟨f, ty, sat, d, a, ea, b⟩ := o
  cases f <;> cases b <;> first | exact absurd h Bool.false_ne_true | simp_all [decodeVint, keep, Form.read_hi, form32, form64, form96, Form.ext, Ext.unusedBad, Form.len, Form.is32, Form.is64, Form.is96, encV, encR, RFields.read_word, rSrc, rSrcBad, Src.reg5, Src.eb, Src.litWord, Src.fits]

theorem vintVshr (o : VArgs) : Statement (.vintVshr o) := of_shape rfl fun h hr => by
  have h : (!o.f.is32 && o.b.fits o.f) = true := h
  have hr : (tyResv o.ty || o.sat) = false := hr
  rw [shape18 _ rfl]
  obtain ⟨f, ty, sat, d, a, ea, b⟩ := o
  cases f <;> cases b <;> first | exact absurd h Bool.false_ne_true | simp_all [decodeVint, keep, Form.read_hi, form32, form64, form96, Form.ext, Ext.unusedBad, Form.len, Form.is32, Form.is64, Form.is96, encV, encR, RFields.read_word, rSrc, rSrcBad, Src.reg5, Src.eb, Src.litWord, Src.fits]

theorem vintVsra (o : VArgs) : Statement (.vintVsra o) := of_shape rfl fun h hr => by
  have h : (!o.f.is32 && o.b.fits o.f) = true := h
  have hr : (tyResv o.ty || o.sat) = false := hr
  rw [shape18 _ rfl]
  obtain ⟨f, ty, sat, d, a, ea, b⟩ := o
  cases f <;> cases b <;> first | exact absurd h Bool.false_ne_true | simp_all [decodeVint, keep, Form.read_hi, form32, form64, form96, Form.ext, Ext.unusedBad, Form.len, Form.is32, Form.is64, Form.is96, encV, encR, RFields.read_word, rSrc, rSrcBad, Src.reg5, Src.eb, Src.litWord, Src.fits]

theorem vintVabs (o : VUn) : Statement (.vintVabs o) := of_shape rfl fun h hr => by
  have h : (o.f.is64) = true := h
  have hr : (tyResv o.ty || o.rnd != 0) = false := hr
  rw [shape18 _ rfl]
  obtain ⟨f, ty, rnd, sat, d, a, ea⟩ := o
  cases f <;> first | exact absurd h Bool.false_ne_true | simp_all [decodeVint, keep, Form.read_hi, form32, form64, form96, Form.ext, Ext.unusedBad, Form.len, Form.is32, Form.is64, Form.is96, encVUn, encR, RFields.read_word]

theorem vintVneg (o : VUn) : Statement (.vintVneg o) := of_shape rfl fun h hr => by
  have h : (o.f.is64) = true := h
  have hr : (tyResv o.ty || o.rnd != 0) = false := hr
  rw [shape18 _ rfl]
  obtain ⟨f, ty, rnd, sat, d, a, ea⟩ := o
  cases f <;> first | exact absurd h Bool.false_ne_true | simp_all [decodeVint, keep, Form.read_hi, form32, form64, form96, Form.ext, Ext.unusedBad, Form.len, Form.is32, Form.is64, Form.is96, encVUn, encR, RFields.read_word]

theorem vintVcmpEq (o : VCmp) : Statement (.vintVcmpEq o) := of_shape rfl fun h hr => by
  have h : (!o.f.is32 && o.b.fits o.f) = true := h
  have hr : (tyResv o.ty) = false := hr
  rw [shape18 _ rfl]
  obtain ⟨f, ty, p, a, ea, b⟩ := o
  cases f <;> cases b <;> first | exact absurd h Bool.false_ne_true | simp_all [decodeVint, keep, Form.read_hi, form32, form64, form96, Form.ext, Ext.unusedBad, Form.len, Form.is32, Form.is64, Form.is96, encVCmp, encR, RFields.read_word, rSrc, rSrcBad, Src.reg5, Src.eb, Src.litWord, Src.fits, low3_setWidth, idx3Bad_setWidth]

theorem vintVcmpNe (o : VCmp) : Statement (.vintVcmpNe o) := of_shape rfl fun h hr => by
  have h : (!o.f.is32 && o.b.fits o.f) = true := h
  have hr : (tyResv o.ty) = false := hr
  rw [shape18 _ rfl]
  obtain ⟨f, ty, p, a, ea, b⟩ := o
  cases f <;> cases b <;> first | exact absurd h Bool.false_ne_true | simp_all [decodeVint, keep, Form.read_hi, form32, form64, form96, Form.ext, Ext.unusedBad, Form.len, Form.is32, Form.is64, Form.is96, encVCmp, encR, RFields.read_word, rSrc, rSrcBad, Src.reg5, Src.eb, Src.litWord, Src.fits, low3_setWidth, idx3Bad_setWidth]

theorem vintVcmpLt (o : VCmp) : Statement (.vintVcmpLt o) := of_shape rfl fun h hr => by
  have h : (!o.f.is32 && o.b.fits o.f) = true := h
  have hr : (tyResv o.ty) = false := hr
  rw [shape18 _ rfl]
  obtain ⟨f, ty, p, a, ea, b⟩ := o
  cases f <;> cases b <;> first | exact absurd h Bool.false_ne_true | simp_all [decodeVint, keep, Form.read_hi, form32, form64, form96, Form.ext, Ext.unusedBad, Form.len, Form.is32, Form.is64, Form.is96, encVCmp, encR, RFields.read_word, rSrc, rSrcBad, Src.reg5, Src.eb, Src.litWord, Src.fits, low3_setWidth, idx3Bad_setWidth]

theorem vintVcmpLe (o : VCmp) : Statement (.vintVcmpLe o) := of_shape rfl fun h hr => by
  have h : (!o.f.is32 && o.b.fits o.f) = true := h
  have hr : (tyResv o.ty) = false := hr
  rw [shape18 _ rfl]
  obtain ⟨f, ty, p, a, ea, b⟩ := o
  cases f <;> cases b <;> first | exact absurd h Bool.false_ne_true | simp_all [decodeVint, keep, Form.read_hi, form32, form64, form96, Form.ext, Ext.unusedBad, Form.len, Form.is32, Form.is64, Form.is96, encVCmp, encR, RFields.read_word, rSrc, rSrcBad, Src.reg5, Src.eb, Src.litWord, Src.fits, low3_setWidth, idx3Bad_setWidth]

theorem vdot4 (o : VArgs) : Statement (.vdot4 o) := of_shape rfl fun h hr => by
  have h : (!o.f.is32 && o.b.fits o.f) = true := h
  have hr : (tyResv o.ty) = false := hr
  rw [shape18 _ rfl]
  obtain ⟨f, ty, sat, d, a, ea, b⟩ := o
  cases f <;> cases b <;> first | exact absurd h Bool.false_ne_true | simp_all [decodeVint, keep, Form.read_hi, form32, form64, form96, Form.ext, Ext.unusedBad, Form.len, Form.is32, Form.is64, Form.is96, encV, encR, RFields.read_word, rSrc, rSrcBad, Src.reg5, Src.eb, Src.litWord, Src.fits]

theorem vintVsum (o : VUn) : Statement (.vintVsum o) := of_shape rfl fun h hr => by
  have h : (o.f.is64) = true := h
  have hr : (tyResv o.ty || o.rnd != 0) = false := hr
  rw [shape18 _ rfl]
  obtain ⟨f, ty, rnd, sat, d, a, ea⟩ := o
  cases f <;> first | exact absurd h Bool.false_ne_true | simp_all [decodeVint, keep, Form.read_hi, form32, form64, form96, Form.ext, Ext.unusedBad, Form.len, Form.is32, Form.is64, Form.is96, encVUn, encR, RFields.read_word]

theorem vfpVadd (o : VFArgs) : Statement (.vfpVadd o) := of_shape rfl fun h hr => by
  have h : (o.b.fits o.f) = true := h
  have hr : (tyResv o.ty) = false := hr
  rw [shape19 _ rfl]
  obtain ⟨f, ty, rnd, sat, d, a, ea, b⟩ := o
  cases f <;> cases b <;> first | exact absurd h Bool.false_ne_true | simp_all [decodeVfp, keep, Form.read_hi, form32, form64, form96, Form.ext, Ext.unusedBad, Form.len, Form.is32, Form.is64, Form.is96, encVF, encR, RFields.read_word, FSrc.reg5, FSrc.eb, FSrc.litWord, FSrc.ext, FSrc.fits, vfpSrc, vfpBad, withFi_fields, fi_mk]

theorem vfpVsub (o : VFArgs) : Statement (.vfpVsub o) := of_shape rfl fun h hr => by
  have h : (o.b.fits o.f) = true := h
  have hr : (tyResv o.ty) = false := hr
  rw [shape19 _ rfl]
  obtain ⟨f, ty, rnd, sat, d, a, ea, b⟩ := o
  cases f <;> cases b <;> first | exact absurd h Bool.false_ne_true | simp_all [decodeVfp, keep, Form.read_hi, form32, form64, form96, Form.ext, Ext.unusedBad, Form.len, Form.is32, Form.is64, Form.is96, encVF, encR, RFields.read_word, FSrc.reg5, FSrc.eb, FSrc.litWord, FSrc.ext, FSrc.fits, vfpSrc, vfpBad, withFi_fields, fi_mk]

theorem vfpVmul (o : VFArgs) : Statement (.vfpVmul o) := of_shape rfl fun h hr => by
  have h : (o.b.fits o.f) = true := h
  have hr : (tyResv o.ty) = false := hr
  rw [shape19 _ rfl]
  obtain ⟨f, ty, rnd, sat, d, a, ea, b⟩ := o
  cases f <;> cases b <;> first | exact absurd h Bool.false_ne_true | simp_all [decodeVfp, keep, Form.read_hi, form32, form64, form96, Form.ext, Ext.unusedBad, Form.len, Form.is32, Form.is64, Form.is96, encVF, encR, RFields.read_word, FSrc.reg5, FSrc.eb, FSrc.litWord, FSrc.ext, FSrc.fits, vfpSrc, vfpBad, withFi_fields, fi_mk]

theorem vfpVmin (o : VFArgs) : Statement (.vfpVmin o) := of_shape rfl fun h hr => by
  have h : (o.b.fits o.f) = true := h
  have hr : (tyResv o.ty || o.sat || o.rnd != 0) = false := hr
  rw [shape19 _ rfl]
  obtain ⟨f, ty, rnd, sat, d, a, ea, b⟩ := o
  cases f <;> cases b <;> first | exact absurd h Bool.false_ne_true | simp_all [decodeVfp, keep, Form.read_hi, form32, form64, form96, Form.ext, Ext.unusedBad, Form.len, Form.is32, Form.is64, Form.is96, encVF, encR, RFields.read_word, FSrc.reg5, FSrc.eb, FSrc.litWord, FSrc.ext, FSrc.fits, vfpSrc, vfpBad, withFi_fields, fi_mk]

theorem vfpVmax (o : VFArgs) : Statement (.vfpVmax o) := of_shape rfl fun h hr => by
  have h : (o.b.fits o.f) = true := h
  have hr : (tyResv o.ty || o.sat || o.rnd != 0) = false := hr
  rw [shape19 _ rfl]
  obtain ⟨f, ty, rnd, sat, d, a, ea, b⟩ := o
  cases f <;> cases b <;> first | exact absurd h Bool.false_ne_true | simp_all [decodeVfp, keep, Form.read_hi, form32, form64, form96, Form.ext, Ext.unusedBad, Form.len, Form.is32, Form.is64, Form.is96, encVF, encR, RFields.read_word, FSrc.reg5, FSrc.eb, FSrc.litWord, FSrc.ext, FSrc.fits, vfpSrc, vfpBad, withFi_fields, fi_mk]

theorem vfpVabs (o : VUn) : Statement (.vfpVabs o) := of_shape rfl fun h hr => by
  have h : (o.f.is64) = true := h
  have hr : (tyResv o.ty || o.sat || o.rnd != 0) = false := hr
  rw [shape19 _ rfl]
  obtain ⟨f, ty, rnd, sat, d, a, ea⟩ := o
  cases f <;> first | exact absurd h Bool.false_ne_true | simp_all [decodeVfp, keep, Form.read_hi, form32, form64, form96, Form.ext, Ext.unusedBad, Form.len, Form.is32, Form.is64, Form.is96, encVUn, encR, RFields.read_word]

theorem vfpVneg (o : VUn) : Statement (.vfpVneg o) := of_shape rfl fun h hr => by
  have h : (o.f.is64) = true := h
  have hr : (tyResv o.ty || o.sat || o.rnd != 0) = false := hr
  rw [shape19 _ rfl]
  obtain ⟨f, ty, rnd, sat, d, a, ea⟩ := o
  cases f <;> first | exact absurd h Bool.false_ne_true | simp_all [decodeVfp, keep, Form.read_hi, form32, form64, form96, Form.ext, Ext.unusedBad, Form.len, Form.is32, Form.is64, Form.is96, encVUn, encR, RFields.read_word]

theorem vfpVcmpEq (o : VFCmp) : Statement (.vfpVcmpEq o) := of_shape rfl fun h hr => by
  have h : (o.b.fits o.f) = true := h
  have hr : (tyResv o.ty) = false := hr
  rw [shape19 _ rfl]
  obtain ⟨f, ty, p, a, ea, b⟩ := o
  cases f <;> cases b <;> first | exact absurd h Bool.false_ne_true | simp_all [decodeVfp, keep, Form.read_hi, form32, form64, form96, Form.ext, Ext.unusedBad, Form.len, Form.is32, Form.is64, Form.is96, encVFCmp, encR, RFields.read_word, FSrc.reg5, FSrc.eb, FSrc.litWord, FSrc.ext, FSrc.fits, vfpSrc, vfpBad, withFi_fields, fi_mk, low3_setWidth, idx3Bad_setWidth]

theorem vfpVcmpNe (o : VFCmp) : Statement (.vfpVcmpNe o) := of_shape rfl fun h hr => by
  have h : (o.b.fits o.f) = true := h
  have hr : (tyResv o.ty) = false := hr
  rw [shape19 _ rfl]
  obtain ⟨f, ty, p, a, ea, b⟩ := o
  cases f <;> cases b <;> first | exact absurd h Bool.false_ne_true | simp_all [decodeVfp, keep, Form.read_hi, form32, form64, form96, Form.ext, Ext.unusedBad, Form.len, Form.is32, Form.is64, Form.is96, encVFCmp, encR, RFields.read_word, FSrc.reg5, FSrc.eb, FSrc.litWord, FSrc.ext, FSrc.fits, vfpSrc, vfpBad, withFi_fields, fi_mk, low3_setWidth, idx3Bad_setWidth]

theorem vfpVcmpLt (o : VFCmp) : Statement (.vfpVcmpLt o) := of_shape rfl fun h hr => by
  have h : (o.b.fits o.f) = true := h
  have hr : (tyResv o.ty) = false := hr
  rw [shape19 _ rfl]
  obtain ⟨f, ty, p, a, ea, b⟩ := o
  cases f <;> cases b <;> first | exact absurd h Bool.false_ne_true | simp_all [decodeVfp, keep, Form.read_hi, form32, form64, form96, Form.ext, Ext.unusedBad, Form.len, Form.is32, Form.is64, Form.is96, encVFCmp, encR, RFields.read_word, FSrc.reg5, FSrc.eb, FSrc.litWord, FSrc.ext, FSrc.fits, vfpSrc, vfpBad, withFi_fields, fi_mk, low3_setWidth, idx3Bad_setWidth]

theorem vfpVcmpLe (o : VFCmp) : Statement (.vfpVcmpLe o) := of_shape rfl fun h hr => by
  have h : (o.b.fits o.f) = true := h
  have hr : (tyResv o.ty) = false := hr
  rw [shape19 _ rfl]
  obtain ⟨f, ty, p, a, ea, b⟩ := o
  cases f <;> cases b <;> first | exact absurd h Bool.false_ne_true | simp_all [decodeVfp, keep, Form.read_hi, form32, form64, form96, Form.ext, Ext.unusedBad, Form.len, Form.is32, Form.is64, Form.is96, encVFCmp, encR, RFields.read_word, FSrc.reg5, FSrc.eb, FSrc.litWord, FSrc.ext, FSrc.fits, vfpSrc, vfpBad, withFi_fields, fi_mk, low3_setWidth, idx3Bad_setWidth]

theorem vfpVsum (o : VUn) : Statement (.vfpVsum o) := of_shape rfl fun h hr => by
  have h : (o.f.is64) = true := h
  have hr : (tyResv o.ty) = false := hr
  rw [shape19 _ rfl]
  obtain ⟨f, ty, rnd, sat, d, a, ea⟩ := o
  cases f <;> first | exact absurd h Bool.false_ne_true | simp_all [decodeVfp, keep, Form.read_hi, form32, form64, form96, Form.ext, Ext.unusedBad, Form.len, Form.is32, Form.is64, Form.is96, encVUn, encR, RFields.read_word]

theorem vfma (o : VFma) : Statement (.vfma o) := of_shape rfl fun h hr => by
  have h : (o.f.is64) = true := h
  have hr : (tyResv o.ty) = false := hr
  rw [shape19 _ rfl]
  obtain ⟨f, ty, rnd, sat, d, a, ea, b, eb, c, ec⟩ := o
  cases f <;> first | exact absurd h Bool.false_ne_true | simp_all [decodeVfp, keep, Form.read_hi, form32, form64, form96, Form.ext, Ext.unusedBad, Form.len, Form.is32, Form.is64, Form.is96, encFma, encR, RFields.read_word]

theorem vfms (o : VFma) : Statement (.vfms o) := of_shape rfl fun h hr => by
  have h : (o.f.is64) = true := h
  have hr : (tyResv o.ty) = false := hr
  rw [shape19 _ rfl]
  obtain ⟨f, ty, rnd, sat, d, a, ea, b, eb, c, ec⟩ := o
  cases f <;> first | exact absurd h Bool.false_ne_true | simp_all [decodeVfp, keep, Form.read_hi, form32, form64, form96, Form.ext, Ext.unusedBad, Form.len, Form.is32, Form.is64, Form.is96, encFma, encR, RFields.read_word]

theorem vfnma (o : VFma) : Statement (.vfnma o) := of_shape rfl fun h hr => by
  have h : (o.f.is64) = true := h
  have hr : (tyResv o.ty) = false := hr
  rw [shape19 _ rfl]
  obtain ⟨f, ty, rnd, sat, d, a, ea, b, eb, c, ec⟩ := o
  cases f <;> first | exact absurd h Bool.false_ne_true | simp_all [decodeVfp, keep, Form.read_hi, form32, form64, form96, Form.ext, Ext.unusedBad, Form.len, Form.is32, Form.is64, Form.is96, encFma, encR, RFields.read_word]

theorem vfnms (o : VFma) : Statement (.vfnms o) := of_shape rfl fun h hr => by
  have h : (o.f.is64) = true := h
  have hr : (tyResv o.ty) = false := hr
  rw [shape19 _ rfl]
  obtain ⟨f, ty, rnd, sat, d, a, ea, b, eb, c, ec⟩ := o
  cases f <;> first | exact absurd h Bool.false_ne_true | simp_all [decodeVfp, keep, Form.read_hi, form32, form64, form96, Form.ext, Ext.unusedBad, Form.len, Form.is32, Form.is64, Form.is96, encFma, encR, RFields.read_word]

theorem fmt (w : BitVec 32) : Statement (.fmt w) := of_shape rfl fun _ _ => rfl

theorem cvt (o : CvtArgs) : Statement (.cvt o) := of_shape rfl fun h hr => by
  have h : (o.f.is64) = true := h
  have hr : (tyResv o.dt || tyResv o.st || groupBad o.a (cvtGroup o.dt o.st)) = false := hr
  rw [shape1a _ rfl]
  obtain ⟨f, dt, st, rnd, sat, q, cnt, d, a, ea⟩ := o
  rcases two_cases q with rfl | rfl | rfl | rfl <;> (
    cases f <;> cases cnt <;> first | exact absurd h Bool.false_ne_true | simp_all [decodeVcvt, keep, Form.read_hi, form32, form64, form96, Form.ext, Ext.unusedBad, Form.len, Form.is32, Form.is64, Form.is96, encR, RFields.read_word])

theorem cvtMx (o : CvtMxArgs) : Statement (.cvtMx o) := of_shape rfl fun h hr => by
  have h : (o.f.is64) = true := h
  have hr : (tyResv o.dt || tyResv o.st || groupBad o.a (mxGroup o.st) || (isMx o.dt && o.dt != 0x15 && groupBad o.d 2)) = false := hr
  rw [shape1a _ rfl]
  obtain ⟨f, dt, st, rnd, sat, bal, c, d, a, ea⟩ := o
  cases f <;> cases bal <;> first | exact absurd h Bool.false_ne_true | simp_all [decodeVcvt, keep, Form.read_hi, form32, form64, form96, Form.ext, Ext.unusedBad, Form.len, Form.is32, Form.is64, Form.is96, encR, RFields.read_word]

theorem sfuExp (o : VUn) : Statement (.sfuExp o) := of_shape rfl fun h hr => by
  have h : (o.f.is64) = true := h
  have hr : (tyResv o.ty) = false := hr
  rw [shape1d _ rfl]
  obtain ⟨f, ty, rnd, sat, d, a, ea⟩ := o
  cases f <;> first | exact absurd h Bool.false_ne_true | simp_all [decodeSfu, keep, Form.read_hi, form32, form64, form96, Form.ext, Ext.unusedBad, Form.len, Form.is32, Form.is64, Form.is96, encVUn, encR, RFields.read_word]

theorem sfuLog (o : VUn) : Statement (.sfuLog o) := of_shape rfl fun h hr => by
  have h : (o.f.is64) = true := h
  have hr : (tyResv o.ty) = false := hr
  rw [shape1d _ rfl]
  obtain ⟨f, ty, rnd, sat, d, a, ea⟩ := o
  cases f <;> first | exact absurd h Bool.false_ne_true | simp_all [decodeSfu, keep, Form.read_hi, form32, form64, form96, Form.ext, Ext.unusedBad, Form.len, Form.is32, Form.is64, Form.is96, encVUn, encR, RFields.read_word]

theorem sfuRcp (o : VUn) : Statement (.sfuRcp o) := of_shape rfl fun h hr => by
  have h : (o.f.is64) = true := h
  have hr : (tyResv o.ty) = false := hr
  rw [shape1d _ rfl]
  obtain ⟨f, ty, rnd, sat, d, a, ea⟩ := o
  cases f <;> first | exact absurd h Bool.false_ne_true | simp_all [decodeSfu, keep, Form.read_hi, form32, form64, form96, Form.ext, Ext.unusedBad, Form.len, Form.is32, Form.is64, Form.is96, encVUn, encR, RFields.read_word]

theorem sfuRsqrt (o : VUn) : Statement (.sfuRsqrt o) := of_shape rfl fun h hr => by
  have h : (o.f.is64) = true := h
  have hr : (tyResv o.ty) = false := hr
  rw [shape1d _ rfl]
  obtain ⟨f, ty, rnd, sat, d, a, ea⟩ := o
  cases f <;> first | exact absurd h Bool.false_ne_true | simp_all [decodeSfu, keep, Form.read_hi, form32, form64, form96, Form.ext, Ext.unusedBad, Form.len, Form.is32, Form.is64, Form.is96, encVUn, encR, RFields.read_word]

theorem sfuSqrt (o : VUn) : Statement (.sfuSqrt o) := of_shape rfl fun h hr => by
  have h : (o.f.is64) = true := h
  have hr : (tyResv o.ty) = false := hr
  rw [shape1d _ rfl]
  obtain ⟨f, ty, rnd, sat, d, a, ea⟩ := o
  cases f <;> first | exact absurd h Bool.false_ne_true | simp_all [decodeSfu, keep, Form.read_hi, form32, form64, form96, Form.ext, Ext.unusedBad, Form.len, Form.is32, Form.is64, Form.is96, encVUn, encR, RFields.read_word]

theorem sfuSin (o : VUn) : Statement (.sfuSin o) := of_shape rfl fun h hr => by
  have h : (o.f.is64) = true := h
  have hr : (tyResv o.ty) = false := hr
  rw [shape1d _ rfl]
  obtain ⟨f, ty, rnd, sat, d, a, ea⟩ := o
  cases f <;> first | exact absurd h Bool.false_ne_true | simp_all [decodeSfu, keep, Form.read_hi, form32, form64, form96, Form.ext, Ext.unusedBad, Form.len, Form.is32, Form.is64, Form.is96, encVUn, encR, RFields.read_word]

theorem sfuCos (o : VUn) : Statement (.sfuCos o) := of_shape rfl fun h hr => by
  have h : (o.f.is64) = true := h
  have hr : (tyResv o.ty) = false := hr
  rw [shape1d _ rfl]
  obtain ⟨f, ty, rnd, sat, d, a, ea⟩ := o
  cases f <;> first | exact absurd h Bool.false_ne_true | simp_all [decodeSfu, keep, Form.read_hi, form32, form64, form96, Form.ext, Ext.unusedBad, Form.len, Form.is32, Form.is64, Form.is96, encVUn, encR, RFields.read_word]

theorem sfuTanh (o : VUn) : Statement (.sfuTanh o) := of_shape rfl fun h hr => by
  have h : (o.f.is64) = true := h
  have hr : (tyResv o.ty) = false := hr
  rw [shape1d _ rfl]
  obtain ⟨f, ty, rnd, sat, d, a, ea⟩ := o
  cases f <;> first | exact absurd h Bool.false_ne_true | simp_all [decodeSfu, keep, Form.read_hi, form32, form64, form96, Form.ext, Ext.unusedBad, Form.len, Form.is32, Form.is64, Form.is96, encVUn, encR, RFields.read_word]

theorem sfuSigm (o : VUn) : Statement (.sfuSigm o) := of_shape rfl fun h hr => by
  have h : (o.f.is64) = true := h
  have hr : (tyResv o.ty) = false := hr
  rw [shape1d _ rfl]
  obtain ⟨f, ty, rnd, sat, d, a, ea⟩ := o
  cases f <;> first | exact absurd h Bool.false_ne_true | simp_all [decodeSfu, keep, Form.read_hi, form32, form64, form96, Form.ext, Ext.unusedBad, Form.len, Form.is32, Form.is64, Form.is96, encVUn, encR, RFields.read_word]

theorem ldD8 (o : LdArgs) : Statement (.ldD8 o) := of_shape rfl fun h hr => by
  have h : (o.m.disp.fits o.f && o.o.plain32 o.f && (!o.f.is32 || !o.sx)) = true := h
  have hr : (memBad o.m o.t true || orderBad o.o true false true) = false := hr
  rw [shape20 _ rfl]
  obtain ⟨f, ⟨seg, ptr, ea, pinc, disp⟩, t, ⟨ord, sn, scope⟩, sx⟩ := o
  cases f <;> cases disp <;> cases sx <;> first | exact absurd h Bool.false_ne_true | simp_all [decodeMem, keep, Form.read_hi, form32, form64, form96, Form.ext, Ext.unusedBad, Form.len, Form.is32, Form.is64, Form.is96, encLd, encM, MFields.read_word, mOp, mOpBad, Disp.imm8, Disp.litWord, Disp.fits, Order.ext, Order.plain32]

theorem ldD16 (o : LdArgs) : Statement (.ldD16 o) := of_shape rfl fun h hr => by
  have h : (o.m.disp.fits o.f && o.o.plain32 o.f && (!o.f.is32 || !o.sx)) = true := h
  have hr : (memBad o.m o.t true || orderBad o.o true false true) = false := hr
  rw [shape21 _ rfl]
  obtain ⟨f, ⟨seg, ptr, ea, pinc, disp⟩, t, ⟨ord, sn, scope⟩, sx⟩ := o
  cases f <;> cases disp <;> cases sx <;> first | exact absurd h Bool.false_ne_true | simp_all [decodeMem, keep, Form.read_hi, form32, form64, form96, Form.ext, Ext.unusedBad, Form.len, Form.is32, Form.is64, Form.is96, encLd, encM, MFields.read_word, mOp, mOpBad, Disp.imm8, Disp.litWord, Disp.fits, Order.ext, Order.plain32]

theorem ldD32 (o : LdArgs) : Statement (.ldD32 o) := of_shape rfl fun h hr => by
  have h : (o.m.disp.fits o.f && o.o.plain32 o.f && (!o.f.is32 || !o.sx)) = true := h
  have hr : (memBad o.m o.t true || orderBad o.o true false true) = false := hr
  rw [shape22 _ rfl]
  obtain ⟨f, ⟨seg, ptr, ea, pinc, disp⟩, t, ⟨ord, sn, scope⟩, sx⟩ := o
  cases f <;> cases disp <;> cases sx <;> first | exact absurd h Bool.false_ne_true | simp_all [decodeMem, keep, Form.read_hi, form32, form64, form96, Form.ext, Ext.unusedBad, Form.len, Form.is32, Form.is64, Form.is96, encLd, encM, MFields.read_word, mOp, mOpBad, Disp.imm8, Disp.litWord, Disp.fits, Order.ext, Order.plain32]

theorem ldD64 (o : LdArgs) : Statement (.ldD64 o) := of_shape rfl fun h hr => by
  have h : (o.m.disp.fits o.f && o.o.plain32 o.f && (!o.f.is32 || !o.sx)) = true := h
  have hr : (memBad o.m o.t true || orderBad o.o true false true || o.sx) = false := hr
  rw [shape23 _ rfl]
  obtain ⟨f, ⟨seg, ptr, ea, pinc, disp⟩, t, ⟨ord, sn, scope⟩, sx⟩ := o
  cases f <;> cases disp <;> cases sx <;> first | exact absurd h Bool.false_ne_true | simp_all [decodeMem, keep, Form.read_hi, form32, form64, form96, Form.ext, Ext.unusedBad, Form.len, Form.is32, Form.is64, Form.is96, encLd, encM, MFields.read_word, mOp, mOpBad, Disp.imm8, Disp.litWord, Disp.fits, Order.ext, Order.plain32]

theorem ldD128 (o : LdArgs) : Statement (.ldD128 o) := of_shape rfl fun h hr => by
  have h : (o.m.disp.fits o.f && o.o.plain32 o.f && (!o.f.is32 || !o.sx)) = true := h
  have hr : (memBad o.m o.t false || orderBad o.o true false true || o.sx) = false := hr
  rw [shape24 _ rfl]
  obtain ⟨f, ⟨seg, ptr, ea, pinc, disp⟩, t, ⟨ord, sn, scope⟩, sx⟩ := o
  cases f <;> cases disp <;> cases sx <;> first | exact absurd h Bool.false_ne_true | simp_all [decodeMem, keep, Form.read_hi, form32, form64, form96, Form.ext, Ext.unusedBad, Form.len, Form.is32, Form.is64, Form.is96, encLd, encM, MFields.read_word, mOp, mOpBad, Disp.imm8, Disp.litWord, Disp.fits, Order.ext, Order.plain32]

theorem stD4 (o : StArgs) : Statement (.stD4 o) := of_shape rfl fun h hr => by
  have h : (o.m.disp.fits o.f && o.o.plain32 o.f) = true := h
  have hr : (memBad o.m o.t true || orderBad o.o false true false) = false := hr
  rw [shape25 _ rfl]
  obtain ⟨f, ⟨seg, ptr, ea, pinc, disp⟩, t, et, ⟨ord, sn, scope⟩⟩ := o
  cases f <;> cases disp <;> first | exact absurd h Bool.false_ne_true | simp_all [decodeMem, keep, Form.read_hi, form32, form64, form96, Form.ext, Ext.unusedBad, Form.len, Form.is32, Form.is64, Form.is96, encSt, encM, MFields.read_word, mOp, mOpBad, Disp.imm8, Disp.litWord, Disp.fits, Order.ext, Order.plain32]

theorem stD8 (o : StArgs) : Statement (.stD8 o) := of_shape rfl fun h hr => by
  have h : (o.m.disp.fits o.f && o.o.plain32 o.f) = true := h
  have hr : (memBad o.m o.t true || orderBad o.o false true true) = false := hr
  rw [shape26 _ rfl]
  obtain ⟨f, ⟨seg, ptr, ea, pinc, disp⟩, t, et, ⟨ord, sn, scope⟩⟩ := o
  cases f <;> cases disp <;> first | exact absurd h Bool.false_ne_true | simp_all [decodeMem, keep, Form.read_hi, form32, form64, form96, Form.ext, Ext.unusedBad, Form.len, Form.is32, Form.is64, Form.is96, encSt, encM, MFields.read_word, mOp, mOpBad, Disp.imm8, Disp.litWord, Disp.fits, Order.ext, Order.plain32]

theorem stD16 (o : StArgs) : Statement (.stD16 o) := of_shape rfl fun h hr => by
  have h : (o.m.disp.fits o.f && o.o.plain32 o.f) = true := h
  have hr : (memBad o.m o.t true || orderBad o.o false true true) = false := hr
  rw [shape27 _ rfl]
  obtain ⟨f, ⟨seg, ptr, ea, pinc, disp⟩, t, et, ⟨ord, sn, scope⟩⟩ := o
  cases f <;> cases disp <;> first | exact absurd h Bool.false_ne_true | simp_all [decodeMem, keep, Form.read_hi, form32, form64, form96, Form.ext, Ext.unusedBad, Form.len, Form.is32, Form.is64, Form.is96, encSt, encM, MFields.read_word, mOp, mOpBad, Disp.imm8, Disp.litWord, Disp.fits, Order.ext, Order.plain32]

theorem stD32 (o : StArgs) : Statement (.stD32 o) := of_shape rfl fun h hr => by
  have h : (o.m.disp.fits o.f && o.o.plain32 o.f) = true := h
  have hr : (memBad o.m o.t true || orderBad o.o false true true) = false := hr
  rw [shape28 _ rfl]
  obtain ⟨f, ⟨seg, ptr, ea, pinc, disp⟩, t, et, ⟨ord, sn, scope⟩⟩ := o
  cases f <;> cases disp <;> first | exact absurd h Bool.false_ne_true | simp_all [decodeMem, keep, Form.read_hi, form32, form64, form96, Form.ext, Ext.unusedBad, Form.len, Form.is32, Form.is64, Form.is96, encSt, encM, MFields.read_word, mOp, mOpBad, Disp.imm8, Disp.litWord, Disp.fits, Order.ext, Order.plain32]

theorem stD64 (o : StArgs) : Statement (.stD64 o) := of_shape rfl fun h hr => by
  have h : (o.m.disp.fits o.f && o.o.plain32 o.f) = true := h
  have hr : (memBad o.m o.t true || orderBad o.o false true true) = false := hr
  rw [shape29 _ rfl]
  obtain ⟨f, ⟨seg, ptr, ea, pinc, disp⟩, t, et, ⟨ord, sn, scope⟩⟩ := o
  cases f <;> cases disp <;> first | exact absurd h Bool.false_ne_true | simp_all [decodeMem, keep, Form.read_hi, form32, form64, form96, Form.ext, Ext.unusedBad, Form.len, Form.is32, Form.is64, Form.is96, encSt, encM, MFields.read_word, mOp, mOpBad, Disp.imm8, Disp.litWord, Disp.fits, Order.ext, Order.plain32]

theorem stD128 (o : StArgs) : Statement (.stD128 o) := of_shape rfl fun h hr => by
  have h : (o.m.disp.fits o.f && o.o.plain32 o.f) = true := h
  have hr : (memBad o.m o.t false || orderBad o.o false true true) = false := hr
  rw [shape2a _ rfl]
  obtain ⟨f, ⟨seg, ptr, ea, pinc, disp⟩, t, et, ⟨ord, sn, scope⟩⟩ := o
  cases f <;> cases disp <;> first | exact absurd h Bool.false_ne_true | simp_all [decodeMem, keep, Form.read_hi, form32, form64, form96, Form.ext, Ext.unusedBad, Form.len, Form.is32, Form.is64, Form.is96, encSt, encM, MFields.read_word, mOp, mOpBad, Disp.imm8, Disp.litWord, Disp.fits, Order.ext, Order.plain32]

theorem ldfe (o : FeArgs) : Statement (.ldfe o) := of_shape rfl fun h hr => by
  have h : (o.m.disp.fits o.f && (!o.f.is32 || (!o.sn && o.scope == 0 && !o.y))) = true := h
  have hr : (memBad o.m o.t true || scopeBad o.sn o.scope) = false := hr
  rw [shape2b _ rfl]
  obtain ⟨f, ⟨seg, ptr, ea, pinc, disp⟩, t, sn, scope, y⟩ := o
  cases f <;> cases disp <;> cases y <;> first | exact absurd h Bool.false_ne_true | simp_all [decodeMem, keep, Form.read_hi, form32, form64, form96, Form.ext, Ext.unusedBad, Form.len, Form.is32, Form.is64, Form.is96, encFe, encM, MFields.read_word, mOp, mOpBad, Disp.imm8, Disp.litWord, Disp.fits, Order.ext, Order.plain32]

theorem ldfeTake (o : FeArgs) : Statement (.ldfeTake o) := of_shape rfl fun h hr => by
  have h : (o.m.disp.fits o.f && (!o.f.is32 || (!o.sn && o.scope == 0 && !o.y))) = true := h
  have hr : (memBad o.m o.t true || scopeBad o.sn o.scope) = false := hr
  rw [shape2c _ rfl]
  obtain ⟨f, ⟨seg, ptr, ea, pinc, disp⟩, t, sn, scope, y⟩ := o
  cases f <;> cases disp <;> cases y <;> first | exact absurd h Bool.false_ne_true | simp_all [decodeMem, keep, Form.read_hi, form32, form64, form96, Form.ext, Ext.unusedBad, Form.len, Form.is32, Form.is64, Form.is96, encFe, encM, MFields.read_word, mOp, mOpBad, Disp.imm8, Disp.litWord, Disp.fits, Order.ext, Order.plain32]

theorem stfe (o : StfeArgs) : Statement (.stfe o) := of_shape rfl fun h hr => by
  have h : (o.m.disp.fits o.f && (!o.f.is32 || (!o.sn && o.scope == 0 && !o.wfe))) = true := h
  have hr : (memBad o.m o.t true || scopeBad o.sn o.scope) = false := hr
  rw [shape2d _ rfl]
  obtain ⟨f, ⟨seg, ptr, ea, pinc, disp⟩, t, et, sn, scope, wfe⟩ := o
  cases f <;> cases disp <;> cases wfe <;> first | exact absurd h Bool.false_ne_true | simp_all [decodeMem, keep, Form.read_hi, form32, form64, form96, Form.ext, Ext.unusedBad, Form.len, Form.is32, Form.is64, Form.is96, encM, MFields.read_word, mOp, mOpBad, Disp.imm8, Disp.litWord, Disp.fits, Order.ext, Order.plain32]

theorem qld (o : QArgs) : Statement (.qld o) := of_shape rfl fun h hr => by
  have h : (o.m.disp.fits o.f && !o.f.is32) = true := h
  have hr : (memBad o.m o.t (decide (o.size.toNat < 4)) || orderBad o.o true false true || decide (3 < o.queue.toNat) || decide (4 < o.size.toNat) || o.et) = false := hr
  rw [shape2e _ rfl]
  obtain ⟨f, ⟨seg, ptr, ea, pinc, disp⟩, t, et, ⟨ord, sn, scope⟩, queue, size⟩ := o
  cases f <;> cases disp <;> first | exact absurd h Bool.false_ne_true | simp_all [decodeMem, keep, Form.read_hi, form32, form64, form96, Form.ext, Ext.unusedBad, Form.len, Form.is32, Form.is64, Form.is96, encQ, encM, MFields.read_word, mOp, mOpBad, Disp.imm8, Disp.litWord, Disp.fits, Order.ext, Order.plain32]

theorem qst (o : QArgs) : Statement (.qst o) := of_shape rfl fun h hr => by
  have h : (o.m.disp.fits o.f && !o.f.is32) = true := h
  have hr : (memBad o.m o.t (decide (o.size.toNat < 4)) || orderBad o.o false true true || decide (o.queue.toNat < 4) || decide (5 < o.queue.toNat) || decide (4 < o.size.toNat)) = false := hr
  rw [shape2f _ rfl]
  obtain ⟨f, ⟨seg, ptr, ea, pinc, disp⟩, t, et, ⟨ord, sn, scope⟩, queue, size⟩ := o
  cases f <;> cases disp <;> first | exact absurd h Bool.false_ne_true | simp_all [decodeMem, keep, Form.read_hi, form32, form64, form96, Form.ext, Ext.unusedBad, Form.len, Form.is32, Form.is64, Form.is96, encQ, encM, MFields.read_word, mOp, mOpBad, Disp.imm8, Disp.litWord, Disp.fits, Order.ext, Order.plain32]

theorem amoD32 (o : AmoArgs) : Statement (.amoD32 o) := of_shape rfl fun h hr => by
  have h : (o.m.disp.fits o.f && !o.f.is32) = true := h
  have hr : (memBad o.m o.t true || orderBad o.o true true true || decide (3 < o.queue.toNat) || decide (9 < o.op.toNat) || (o.et && o.op != 9)) = false := hr
  rw [shape30 _ rfl]
  obtain ⟨f, ⟨seg, ptr, ea, pinc, disp⟩, t, et, ⟨ord, sn, scope⟩, queue, op, c, ec⟩ := o
  cases f <;> cases disp <;> first | exact absurd h Bool.false_ne_true | simp_all [decodeMem, keep, Form.read_hi, form32, form64, form96, Form.ext, Ext.unusedBad, Form.len, Form.is32, Form.is64, Form.is96, encAmo, encM, MFields.read_word, mOp, mOpBad, Disp.imm8, Disp.litWord, Disp.fits, Order.ext, Order.plain32]

theorem amoD64 (o : AmoArgs) : Statement (.amoD64 o) := of_shape rfl fun h hr => by
  have h : (o.m.disp.fits o.f && !o.f.is32) = true := h
  have hr : (memBad o.m o.t true || orderBad o.o true true true || decide (3 < o.queue.toNat) || decide (9 < o.op.toNat) || (o.et && o.op != 9)) = false := hr
  rw [shape31 _ rfl]
  obtain ⟨f, ⟨seg, ptr, ea, pinc, disp⟩, t, et, ⟨ord, sn, scope⟩, queue, op, c, ec⟩ := o
  cases f <;> cases disp <;> first | exact absurd h Bool.false_ne_true | simp_all [decodeMem, keep, Form.read_hi, form32, form64, form96, Form.ext, Ext.unusedBad, Form.len, Form.is32, Form.is64, Form.is96, encAmo, encM, MFields.read_word, mOp, mOpBad, Disp.imm8, Disp.litWord, Disp.fits, Order.ext, Order.plain32]

theorem fork (f : Form) (m : MemOp) (t : Reg) : Statement (.fork f m t) := of_shape rfl fun h hr => by
  have h : (m.disp.fits f) = true := h
  have hr : (memBad m t true) = false := hr
  rw [shape32 _ rfl]
  obtain ⟨seg, ptr, ea, pinc, disp⟩ := m
  cases f <;> cases disp <;> first | exact absurd h Bool.false_ne_true | simp_all [decodeMem, keep, Form.read_hi, form32, form64, form96, Form.ext, Ext.unusedBad, Form.len, Form.is32, Form.is64, Form.is96, encM, MFields.read_word, mOp, mOpBad, Disp.imm8, Disp.litWord, Disp.fits, Order.ext, Order.plain32]

theorem join (o : FeArgs) : Statement (.join o) := of_shape rfl fun h hr => by
  have h : (o.m.disp.fits o.f && (!o.f.is32 || (!o.sn && o.scope == 0 && !o.y))) = true := h
  have hr : (memBad o.m o.t true || o.sn || o.scope != 0) = false := hr
  rw [shape33 _ rfl]
  obtain ⟨f, ⟨seg, ptr, ea, pinc, disp⟩, t, sn, scope, y⟩ := o
  cases f <;> cases disp <;> cases y <;> first | exact absurd h Bool.false_ne_true | simp_all [decodeMem, keep, Form.read_hi, form32, form64, form96, Form.ext, Ext.unusedBad, Form.len, Form.is32, Form.is64, Form.is96, encFe, encM, MFields.read_word, mOp, mOpBad, Disp.imm8, Disp.litWord, Disp.fits, Order.ext, Order.plain32]

theorem waddr (o : WaddrArgs) : Statement (.waddr o) := of_shape rfl fun h hr => by
  have h : (o.m.disp.fits o.f && (!o.f.is32 || (!o.sn && o.scope == 0 && o.cond == 0 && !o.d64 && !o.y))) = true := h
  have hr : (memBad o.m o.t true || scopeBad o.sn o.scope || o.cond == 3) = false := hr
  rw [shape34 _ rfl]
  obtain ⟨f, ⟨seg, ptr, ea, pinc, disp⟩, t, et, sn, scope, cond, d64, y⟩ := o
  rcases two_cases cond with rfl | rfl | rfl | rfl <;> (
    cases f <;> cases disp <;> cases d64 <;> cases y <;> first | exact absurd h Bool.false_ne_true | simp_all [decodeMem, keep, Form.read_hi, form32, form64, form96, Form.ext, Ext.unusedBad, Form.len, Form.is32, Form.is64, Form.is96, encM, MFields.read_word, mOp, mOpBad, Disp.imm8, Disp.litWord, Disp.fits, Order.ext, Order.plain32])

theorem fence (f : Form) (o : Order) : Statement (.fence f o) := of_shape rfl fun h hr => by
  have h : (!f.is96 && o.plain32 f) = true := h
  have hr : (o.ord == 3 || scopeBad o.sn o.scope) = false := hr
  rw [shape35 _ rfl]
  obtain ⟨ord, sn, scope⟩ := o
  cases f <;> first | exact absurd h Bool.false_ne_true | simp_all [decodeSync, keep, Form.read_hi, form32, form64, form96, Form.ext, Ext.unusedBad, Form.len, Form.is32, Form.is64, Form.is96, encR, RFields.read_word, Order.ext, Order.plain32, low3_setWidth, idx3Bad_setWidth]

theorem qwait (f : Form) (sel : BitVec 5) : Statement (.qwait f sel) := of_shape rfl fun h hr => by
  have h : (!f.is96) = true := h
  have hr : (decide (5 < sel.toNat)) = false := hr
  rw [shape35 _ rfl]
  cases f <;> first | exact absurd h Bool.false_ne_true | simp_all [decodeSync, keep, Form.read_hi, form32, form64, form96, Form.ext, Ext.unusedBad, Form.len, Form.is32, Form.is64, Form.is96, enc0, encR, RFields.read_word, Order.ext, Order.plain32, low3_setWidth, idx3Bad_setWidth]

theorem send (f : Form) (a : Reg) (ea : Bool) (b : Reg) (eb : Bool) : Statement (.send f a ea b eb) := of_shape rfl fun h hr => by
  have h : (!f.is96) = true := h
  rw [shape35 _ rfl]
  cases f <;> first | exact absurd h Bool.false_ne_true | simp_all [decodeSync, keep, Form.read_hi, form32, form64, form96, Form.ext, Ext.unusedBad, Form.len, Form.is32, Form.is64, Form.is96, enc0, encR, RFields.read_word, Order.ext, Order.plain32, low3_setWidth, idx3Bad_setWidth]

theorem recv (f : Form) (d : Reg) (a : BitVec 3) (ea : Bool) : Statement (.recv f d a ea) := of_shape rfl fun h hr => by
  have h : (!f.is96) = true := h
  rw [shape35 _ rfl]
  cases f <;> first | exact absurd h Bool.false_ne_true | simp_all [decodeSync, keep, Form.read_hi, form32, form64, form96, Form.ext, Ext.unusedBad, Form.len, Form.is32, Form.is64, Form.is96, enc0, encR, RFields.read_word, Order.ext, Order.plain32, low3_setWidth, idx3Bad_setWidth]

theorem recvKeep (f : Form) (d : Reg) (a : BitVec 3) (ea : Bool) : Statement (.recvKeep f d a ea) := of_shape rfl fun h hr => by
  have h : (!f.is96) = true := h
  rw [shape35 _ rfl]
  cases f <;> first | exact absurd h Bool.false_ne_true | simp_all [decodeSync, keep, Form.read_hi, form32, form64, form96, Form.ext, Ext.unusedBad, Form.len, Form.is32, Form.is64, Form.is96, enc0, encR, RFields.read_word, Order.ext, Order.plain32, low3_setWidth, idx3Bad_setWidth]

theorem mwait (f : Form) (a : BitVec 3) (ea : Bool) : Statement (.mwait f a ea) := of_shape rfl fun h hr => by
  have h : (!f.is96) = true := h
  rw [shape35 _ rfl]
  cases f <;> first | exact absurd h Bool.false_ne_true | simp_all [decodeSync, keep, Form.read_hi, form32, form64, form96, Form.ext, Ext.unusedBad, Form.len, Form.is32, Form.is64, Form.is96, enc0, encR, RFields.read_word, Order.ext, Order.plain32, low3_setWidth, idx3Bad_setWidth]

theorem tcmd (f : Form) (a : Reg) (ea : Bool) (b : Reg) (eb : Bool) : Statement (.tcmd f a ea b eb) := of_shape rfl fun h hr => by
  have h : (!f.is96) = true := h
  rw [shape38 _ rfl]
  cases f <;> first | exact absurd h Bool.false_ne_true | simp_all [decodeEng, keep, Form.read_hi, form32, form64, form96, Form.ext, Ext.unusedBad, Form.len, Form.is32, Form.is64, Form.is96, enc0, encR, RFields.read_word, low3_setWidth, idx3Bad_setWidth]

theorem semSig (f : Form) (n : BitVec 3) : Statement (.semSig f n) := of_shape rfl fun h hr => by
  have h : (!f.is96) = true := h
  rw [shape38 _ rfl]
  cases f <;> first | exact absurd h Bool.false_ne_true | simp_all [decodeEng, keep, Form.read_hi, form32, form64, form96, Form.ext, Ext.unusedBad, Form.len, Form.is32, Form.is64, Form.is96, enc0, encR, RFields.read_word, low3_setWidth, idx3Bad_setWidth]

theorem semWait (f : Form) (n : BitVec 3) : Statement (.semWait f n) := of_shape rfl fun h hr => by
  have h : (!f.is96) = true := h
  rw [shape38 _ rfl]
  cases f <;> first | exact absurd h Bool.false_ne_true | simp_all [decodeEng, keep, Form.read_hi, form32, form64, form96, Form.ext, Ext.unusedBad, Form.len, Form.is32, Form.is64, Form.is96, enc0, encR, RFields.read_word, low3_setWidth, idx3Bad_setWidth]

theorem pwrAcq (f : Form) (cls : BitVec 2) (n : BitVec 5) : Statement (.pwrAcq f cls n) := of_shape rfl fun h hr => by
  have h : (!f.is96) = true := h
  rw [shape38 _ rfl]
  rcases two_cases cls with rfl | rfl | rfl | rfl <;> (
    cases f <;> first | exact absurd h Bool.false_ne_true | simp_all [decodeEng, keep, Form.read_hi, form32, form64, form96, Form.ext, Ext.unusedBad, Form.len, Form.is32, Form.is64, Form.is96, enc0, encR, RFields.read_word, low3_setWidth, idx3Bad_setWidth])

theorem pwrRel (f : Form) (cls : BitVec 2) (n : BitVec 5) : Statement (.pwrRel f cls n) := of_shape rfl fun h hr => by
  have h : (!f.is96) = true := h
  rw [shape38 _ rfl]
  rcases two_cases cls with rfl | rfl | rfl | rfl <;> (
    cases f <;> first | exact absurd h Bool.false_ne_true | simp_all [decodeEng, keep, Form.read_hi, form32, form64, form96, Form.ext, Ext.unusedBad, Form.len, Form.is32, Form.is64, Form.is96, enc0, encR, RFields.read_word, low3_setWidth, idx3Bad_setWidth])

theorem termrd (f : Form) (d : Reg) (num : BitVec 6) : Statement (.termrd f d num) := of_shape rfl fun h hr => by
  have h : (!f.is96) = true := h
  rw [shape39 _ rfl]
  have hn := num.isLt
  cases f <;> first | exact absurd h Bool.false_ne_true | simp_all [decodeI64, keep, Form.read_hi, form32, form64, form96, Form.ext, Ext.unusedBad, Form.len, Form.is32, Form.is64, Form.is96, encI, IFields.read_word]
  all_goals omega

theorem stepget (f : Form) (d : Reg) (sel : BitVec 3) (a : Reg) (ea : Bool) : Statement (.stepget f d sel a ea) := of_shape rfl fun h hr => by
  have h : (!f.is96) = true := h
  have hr : (!(sel == 2 || sel == 3 || sel == 4) && a != 0) = false := hr
  rw [shape3b _ rfl]
  cases f <;> first | exact absurd h Bool.false_ne_true | simp_all [decodeStep, keep, Form.read_hi, form32, form64, form96, Form.ext, Ext.unusedBad, Form.len, Form.is32, Form.is64, Form.is96, enc0, encR, RFields.read_word, low3_setWidth, idx3Bad_setWidth]

theorem stoptest (o : TwoArgs) : Statement (.stoptest o) := of_shape rfl fun h hr => by
  have h : (!o.f.is96) = true := h
  rw [shape3b _ rfl]
  obtain ⟨f, d, a, ea, b, eb⟩ := o
  cases f <;> first | exact absurd h Bool.false_ne_true | simp_all [decodeStep, keep, Form.read_hi, form32, form64, form96, Form.ext, Ext.unusedBad, Form.len, Form.is32, Form.is64, Form.is96, encTwo, encR, RFields.read_word, low3_setWidth, idx3Bad_setWidth]

theorem seqret (o : TwoArgs) (why : BitVec 2) : Statement (.seqret o why) := of_shape rfl fun h hr => by
  have h : (!o.f.is96 && (!o.f.is32 || why == 0)) = true := h
  rw [shape3b _ rfl]
  obtain ⟨f, d, a, ea, b, eb⟩ := o
  rcases two_cases why with rfl | rfl | rfl | rfl <;> (
    cases f <;> first | exact absurd h Bool.false_ne_true | simp_all [decodeStep, keep, Form.read_hi, form32, form64, form96, Form.ext, Ext.unusedBad, Form.len, Form.is32, Form.is64, Form.is96, encTwo, encR, RFields.read_word, low3_setWidth, idx3Bad_setWidth])

theorem seqadm (o : UnArgs) : Statement (.seqadm o) := of_shape rfl fun h hr => by
  have h : (!o.f.is96) = true := h
  rw [shape3b _ rfl]
  obtain ⟨f, d, a, ea⟩ := o
  cases f <;> first | exact absurd h Bool.false_ne_true | simp_all [decodeStep, keep, Form.read_hi, form32, form64, form96, Form.ext, Ext.unusedBad, Form.len, Form.is32, Form.is64, Form.is96, encUn, encR, RFields.read_word, low3_setWidth, idx3Bad_setWidth]

theorem poolTake (f : Form) (d : Reg) : Statement (.poolTake f d) := of_shape rfl fun h hr => by
  have h : (!f.is96) = true := h
  rw [shape3b _ rfl]
  cases f <;> first | exact absurd h Bool.false_ne_true | simp_all [decodeStep, keep, Form.read_hi, form32, form64, form96, Form.ext, Ext.unusedBad, Form.len, Form.is32, Form.is64, Form.is96, enc0, encR, RFields.read_word, low3_setWidth, idx3Bad_setWidth]

theorem poolGive (f : Form) (a : Reg) (ea : Bool) : Statement (.poolGive f a ea) := of_shape rfl fun h hr => by
  have h : (!f.is96) = true := h
  rw [shape3b _ rfl]
  cases f <;> first | exact absurd h Bool.false_ne_true | simp_all [decodeStep, keep, Form.read_hi, form32, form64, form96, Form.ext, Ext.unusedBad, Form.len, Form.is32, Form.is64, Form.is96, enc0, encR, RFields.read_word, low3_setWidth, idx3Bad_setWidth]

theorem trap (f : Form) (imm : BitVec 8) : Statement (.trap f imm) := of_shape rfl fun h hr => by
  have h : (!f.is96) = true := h
  rw [shape3c _ rfl]
  have hi : ∀ x : BitVec 8, idx3Bad (BitVec.ofNat 5 (x.toNat / 32)) = false ∧ BitVec.ofNat 8 (x.toNat % 32 + 32 * (x.toNat / 32 % 32)) = x := by decide
  cases f <;> first | exact absurd h Bool.false_ne_true | simp_all [decodeSys, keep, Form.read_hi, form32, form64, form96, Form.ext, Ext.unusedBad, Form.len, Form.is32, Form.is64, Form.is96, enc0, encR, RFields.read_word, low3_setWidth, idx3Bad_setWidth]

theorem trapret (f : Form) : Statement (.trapret f) := of_shape rfl fun h hr => by
  have h : (!f.is96) = true := h
  rw [shape3c _ rfl]
  cases f <;> first | exact absurd h Bool.false_ne_true | simp_all [decodeSys, keep, Form.read_hi, form32, form64, form96, Form.ext, Ext.unusedBad, Form.len, Form.is32, Form.is64, Form.is96, enc0, encR, RFields.read_word, low3_setWidth, idx3Bad_setWidth]

theorem gwrite (f : Form) (d : BitVec 3) (a : Reg) (ea : Bool) (b : Reg) (eb : Bool) : Statement (.gwrite f d a ea b eb) := of_shape rfl fun h hr => by
  have h : (!f.is96) = true := h
  rw [shape3c _ rfl]
  cases f <;> first | exact absurd h Bool.false_ne_true | simp_all [decodeSys, keep, Form.read_hi, form32, form64, form96, Form.ext, Ext.unusedBad, Form.len, Form.is32, Form.is64, Form.is96, enc0, encR, RFields.read_word, low3_setWidth, idx3Bad_setWidth]

theorem ctxsave (f : Form) (d : Reg) (a : Reg) (ea : Bool) (g : BitVec 3) : Statement (.ctxsave f d a ea g) := of_shape rfl fun h hr => by
  have h : (!f.is96) = true := h
  rw [shape3c _ rfl]
  cases f <;> first | exact absurd h Bool.false_ne_true | simp_all [decodeSys, keep, Form.read_hi, form32, form64, form96, Form.ext, Ext.unusedBad, Form.len, Form.is32, Form.is64, Form.is96, enc0, encR, RFields.read_word, low3_setWidth, idx3Bad_setWidth]

theorem ctxsaveTile (f : Form) (d : Reg) (g : BitVec 3) : Statement (.ctxsaveTile f d g) := of_shape rfl fun h hr => by
  have h : (f.is64) = true := h
  rw [shape3c _ rfl]
  cases f <;> first | exact absurd h Bool.false_ne_true | simp_all [decodeSys, keep, Form.read_hi, form32, form64, form96, Form.ext, Ext.unusedBad, Form.len, Form.is32, Form.is64, Form.is96, encR, RFields.read_word, low3_setWidth, idx3Bad_setWidth]

theorem ctxrest (f : Form) (d : Reg) (a : Reg) (ea : Bool) (g : BitVec 3) : Statement (.ctxrest f d a ea g) := of_shape rfl fun h hr => by
  have h : (!f.is96) = true := h
  rw [shape3c _ rfl]
  cases f <;> first | exact absurd h Bool.false_ne_true | simp_all [decodeSys, keep, Form.read_hi, form32, form64, form96, Form.ext, Ext.unusedBad, Form.len, Form.is32, Form.is64, Form.is96, enc0, encR, RFields.read_word, low3_setWidth, idx3Bad_setWidth]

theorem ctxrestTile (f : Form) (d : Reg) (g : BitVec 3) : Statement (.ctxrestTile f d g) := of_shape rfl fun h hr => by
  have h : (f.is64) = true := h
  rw [shape3c _ rfl]
  cases f <;> first | exact absurd h Bool.false_ne_true | simp_all [decodeSys, keep, Form.read_hi, form32, form64, form96, Form.ext, Ext.unusedBad, Form.len, Form.is32, Form.is64, Form.is96, encR, RFields.read_word, low3_setWidth, idx3Bad_setWidth]

theorem rebuild (o : UnArgs) : Statement (.rebuild o) := of_shape rfl fun h hr => by
  have h : (!o.f.is96) = true := h
  rw [shape3c _ rfl]
  obtain ⟨f, d, a, ea⟩ := o
  cases f <;> first | exact absurd h Bool.false_ne_true | simp_all [decodeSys, keep, Form.read_hi, form32, form64, form96, Form.ext, Ext.unusedBad, Form.len, Form.is32, Form.is64, Form.is96, encUn, encR, RFields.read_word, low3_setWidth, idx3Bad_setWidth]

theorem recmark (f : Form) (a : Reg) (ea : Bool) (tag : BitVec 5) : Statement (.recmark f a ea tag) := of_shape rfl fun h hr => by
  have h : (!f.is96) = true := h
  rw [shape3c _ rfl]
  cases f <;> first | exact absurd h Bool.false_ne_true | simp_all [decodeSys, keep, Form.read_hi, form32, form64, form96, Form.ext, Ext.unusedBad, Form.len, Form.is32, Form.is64, Form.is96, enc0, encR, RFields.read_word, low3_setWidth, idx3Bad_setWidth]

theorem bkpt (f : Form) (code : BitVec 5) : Statement (.bkpt f code) := of_shape rfl fun h hr => by
  have h : (!f.is96) = true := h
  rw [shape3c _ rfl]
  cases f <;> first | exact absurd h Bool.false_ne_true | simp_all [decodeSys, keep, Form.read_hi, form32, form64, form96, Form.ext, Ext.unusedBad, Form.len, Form.is32, Form.is64, Form.is96, enc0, encR, RFields.read_word, low3_setWidth, idx3Bad_setWidth]

theorem halt (f : Form) (d : Reg) (a : Reg) (ea : Bool) (op : BitVec 3) : Statement (.halt f d a ea op) := of_shape rfl fun h hr => by
  have h : (!f.is96) = true := h
  have hr : (decide (4 < op.toNat)) = false := hr
  rw [shape3c _ rfl]
  cases f <;> first | exact absurd h Bool.false_ne_true | simp_all [decodeSys, keep, Form.read_hi, form32, form64, form96, Form.ext, Ext.unusedBad, Form.len, Form.is32, Form.is64, Form.is96, enc0, encR, RFields.read_word, low3_setWidth, idx3Bad_setWidth]

theorem fwcall (o : TwoArgs) : Statement (.fwcall o) := of_shape rfl fun h hr => by
  have h : (!o.f.is96) = true := h
  rw [shape3c _ rfl]
  obtain ⟨f, d, a, ea, b, eb⟩ := o
  cases f <;> first | exact absurd h Bool.false_ne_true | simp_all [decodeSys, keep, Form.read_hi, form32, form64, form96, Form.ext, Ext.unusedBad, Form.len, Form.is32, Form.is64, Form.is96, encTwo, encR, RFields.read_word, low3_setWidth, idx3Bad_setWidth]

theorem termclr (f : Form) : Statement (.termclr f) := of_shape rfl fun h hr => by
  have h : (!f.is96) = true := h
  rw [shape3c _ rfl]
  cases f <;> first | exact absurd h Bool.false_ne_true | simp_all [decodeSys, keep, Form.read_hi, form32, form64, form96, Form.ext, Ext.unusedBad, Form.len, Form.is32, Form.is64, Form.is96, enc0, encR, RFields.read_word, low3_setWidth, idx3Bad_setWidth]

theorem mm (tile : Nat) : Statement (.mm tile) := fun h => absurd h Bool.false_ne_true

theorem gath (tile : Nat) : Statement (.gath tile) := fun h => absurd h Bool.false_ne_true

theorem copy (tile : Nat) : Statement (.copy tile) := fun h => absurd h Bool.false_ne_true

theorem copyCin (tile : Nat) : Statement (.copyCin tile) := fun h => absurd h Bool.false_ne_true

theorem copyDec (tile : Nat) : Statement (.copyDec tile) := fun h => absurd h Bool.false_ne_true

theorem copyEnc (tile : Nat) : Statement (.copyEnc tile) := fun h => absurd h Bool.false_ne_true

theorem collPut (tile : Nat) : Statement (.collPut tile) := fun h => absurd h Bool.false_ne_true

theorem collAdd (tile : Nat) : Statement (.collAdd tile) := fun h => absurd h Bool.false_ne_true

theorem collAr (tile : Nat) : Statement (.collAr tile) := fun h => absurd h Bool.false_ne_true

theorem queueFence (tile : Nat) : Statement (.queueFence tile) := fun h => absurd h Bool.false_ne_true

theorem engineCommandComplete (tile : Nat) (q : Nat) : Statement (.engineCommandComplete tile q) := fun h => absurd h Bool.false_ne_true

theorem engineDeadlineExpiry (tile : Nat) (q : Nat) : Statement (.engineDeadlineExpiry tile q) := fun h => absurd h Bool.false_ne_true

theorem registerDelivery (tag : Nat) (how : Arrival) : Statement (.registerDelivery tag how) := fun h => absurd h Bool.false_ne_true

theorem messageArrival (tag : Nat) : Statement (.messageArrival tag) := fun h => absurd h Bool.false_ne_true

theorem taskWake (key : Nat) : Statement (.taskWake key) := fun h => absurd h Bool.false_ne_true

theorem slotOverdue (core : Nat) : Statement (.slotOverdue core) := fun h => absurd h Bool.false_ne_true

theorem issueRunLimit (core : Nat) : Statement (.issueRunLimit core) := fun h => absurd h Bool.false_ne_true

theorem yieldAgeLimit (key : Nat) : Statement (.yieldAgeLimit key) := fun h => absurd h Bool.false_ne_true

theorem idleSlotSearch (key : Nat) : Statement (.idleSlotSearch key) := fun h => absurd h Bool.false_ne_true

theorem stealComplete (key : Nat) : Statement (.stealComplete key) := fun h => absurd h Bool.false_ne_true

theorem calderaPlacement (part : Nat) : Statement (.calderaPlacement part) := fun h => absurd h Bool.false_ne_true

theorem gangReservation (part : Nat) : Statement (.gangReservation part) := fun h => absurd h Bool.false_ne_true

theorem reservationPreempt (part : Nat) : Statement (.reservationPreempt part) := fun h => absurd h Bool.false_ne_true

theorem sliceBoundary (part : Nat) : Statement (.sliceBoundary part) := fun h => absurd h Bool.false_ne_true

theorem launchPacket (part : Nat) (q : Nat) : Statement (.launchPacket part q) := fun h => absurd h Bool.false_ne_true

theorem unloadPacket (part : Nat) (q : Nat) : Statement (.unloadPacket part q) := fun h => absurd h Bool.false_ne_true

theorem launchDone (launch : Nat) : Statement (.launchDone launch) := fun h => absurd h Bool.false_ne_true

theorem ringTailWatch (part : Nat) (ring : Nat) : Statement (.ringTailWatch part ring) := fun h => absurd h Bool.false_ne_true

theorem ringWatchReread (ring : Nat) : Statement (.ringWatchReread ring) := fun h => absurd h Bool.false_ne_true

theorem ringSpaceFreed (part : Nat) (ring : Nat) : Statement (.ringSpaceFreed part ring) := fun h => absurd h Bool.false_ne_true

theorem stepDescriptorBuild (part : Nat) : Statement (.stepDescriptorBuild part) := fun h => absurd h Bool.false_ne_true

theorem stepSchedulerStart (part : Nat) : Statement (.stepSchedulerStart part) := fun h => absurd h Bool.false_ne_true

theorem calderaReply (key : Nat) : Statement (.calderaReply key) := fun h => absurd h Bool.false_ne_true

theorem releasePerformed (tag : Nat) : Statement (.releasePerformed tag) := fun h => absurd h Bool.false_ne_true

theorem queuedStoreAccept (tag : Nat) (how : Arrival) : Statement (.queuedStoreAccept tag how) := fun h => absurd h Bool.false_ne_true

theorem remoteAccessRequest (tag : Nat) : Statement (.remoteAccessRequest tag) := fun h => absurd h Bool.false_ne_true

theorem remoteNibbleStore (tag : Nat) : Statement (.remoteNibbleStore tag) := fun h => absurd h Bool.false_ne_true

theorem waddrRecheck (key : Nat) : Statement (.waddrRecheck key) := fun h => absurd h Bool.false_ne_true

theorem pageWalk (i : Nat) : Statement (.pageWalk i) := fun h => absurd h Bool.false_ne_true

theorem faultReply (part : Nat) (i : Nat) : Statement (.faultReply part i) := fun h => absurd h Bool.false_ne_true

theorem leaseExpiry (cluster : Nat) (i : Nat) : Statement (.leaseExpiry cluster i) := fun h => absurd h Bool.false_ne_true

theorem migrationMoveComplete (part : Nat) (vpage : Nat) (ok : Bool) : Statement (.migrationMoveComplete part vpage ok) := fun h => absurd h Bool.false_ne_true

theorem hysteresisExpiry (part : Nat) (vpage : Nat) : Statement (.hysteresisExpiry part vpage) := fun h => absurd h Bool.false_ne_true

theorem atsInvalidateTimeout (link : Nat) (i : Nat) : Statement (.atsInvalidateTimeout link i) := fun h => absurd h Bool.false_ne_true

theorem atsInvalidateCompletion (link : Nat) (i : Nat) : Statement (.atsInvalidateCompletion link i) := fun h => absurd h Bool.false_ne_true

theorem preemptRequestArrival (part : Nat) (core : Nat) : Statement (.preemptRequestArrival part core) := fun h => absurd h Bool.false_ne_true

theorem preemptEngineAbort (tile : Nat) (q : Nat) : Statement (.preemptEngineAbort tile q) := fun h => absurd h Bool.false_ne_true

theorem tileImageSave (part : Nat) (vtile : Nat) : Statement (.tileImageSave part vtile) := fun h => absurd h Bool.false_ne_true

theorem calderaRestore (part : Nat) : Statement (.calderaRestore part) := fun h => absurd h Bool.false_ne_true

theorem trapEntry (key : Nat) : Statement (.trapEntry key) := fun h => absurd h Bool.false_ne_true

theorem quarantine (key : Nat) (cause : BitVec 6) : Statement (.quarantine key cause) := fun h => absurd h Bool.false_ne_true

theorem breakAddr (key : Nat) : Statement (.breakAddr key) := fun h => absurd h Bool.false_ne_true

theorem stopMessageArrival (core : Nat) (i : Nat) : Statement (.stopMessageArrival core i) := fun h => absurd h Bool.false_ne_true

theorem triggerArrival (core part : Nat) (id : BitVec 4) (action : BitVec 2) (count : Nat) (opkg : BitVec 19) (ocore : BitVec 10) (ocycle : Nat) : Statement (.triggerArrival core part id action count opkg ocore ocycle) := fun h => absurd h Bool.false_ne_true

theorem issueSample (core : Nat) : Statement (.issueSample core) := fun h => absurd h Bool.false_ne_true

theorem freezeArrival (core : Nat) : Statement (.freezeArrival core) := fun h => absurd h Bool.false_ne_true

theorem waitForEventTimeout (session part : Nat) : Statement (.waitForEventTimeout session part) := fun h => absurd h Bool.false_ne_true

theorem buildComplete (part : Nat) (capid : Nat) : Statement (.buildComplete part capid) := fun h => absurd h Bool.false_ne_true

theorem poisonReport (part : Nat) (pa : Nat) : Statement (.poisonReport part pa) := fun h => absurd h Bool.false_ne_true

theorem fwver : Statement (.fwver) := fun h => absurd h Bool.false_ne_true

theorem setpol : Statement (.setpol) := fun h => absurd h Bool.false_ne_true

theorem donate : Statement (.donate) := fun h => absurd h Bool.false_ne_true

theorem settvseg : Statement (.settvseg) := fun h => absurd h Bool.false_ne_true

theorem termclrall : Statement (.termclrall) := fun h => absurd h Bool.false_ne_true

theorem time : Statement (.time) := fun h => absurd h Bool.false_ne_true

theorem hdmbase : Statement (.hdmbase) := fun h => absurd h Bool.false_ne_true

theorem setlease : Statement (.setlease) := fun h => absurd h Bool.false_ne_true

theorem setptroot : Statement (.setptroot) := fun h => absurd h Bool.false_ne_true

theorem setfring : Statement (.setfring) := fun h => absurd h Bool.false_ne_true

theorem setdeadline : Statement (.setdeadline) := fun h => absurd h Bool.false_ne_true

theorem collgrp : Statement (.collgrp) := fun h => absurd h Bool.false_ne_true

theorem preempt : Statement (.preempt) := fun h => absurd h Bool.false_ne_true

theorem requeue : Statement (.requeue) := fun h => absurd h Bool.false_ne_true

theorem stepcfg : Statement (.stepcfg) := fun h => absurd h Bool.false_ne_true

theorem capinst : Statement (.capinst) := fun h => absurd h Bool.false_ne_true

theorem capref : Statement (.capref) := fun h => absurd h Bool.false_ne_true

theorem capdel : Statement (.capdel) := fun h => absurd h Bool.false_ne_true

theorem capstat : Statement (.capstat) := fun h => absurd h Bool.false_ne_true

theorem ctxdrop : Statement (.ctxdrop) := fun h => absurd h Bool.false_ne_true

theorem capexp : Statement (.capexp) := fun h => absurd h Bool.false_ne_true

theorem keyload : Statement (.keyload) := fun h => absurd h Bool.false_ne_true

theorem keydrop : Statement (.keydrop) := fun h => absurd h Bool.false_ne_true

theorem keyctr : Statement (.keyctr) := fun h => absurd h Bool.false_ne_true

theorem domset : Statement (.domset) := fun h => absurd h Bool.false_ne_true

theorem domleave : Statement (.domleave) := fun h => absurd h Bool.false_ne_true

theorem domstat : Statement (.domstat) := fun h => absurd h Bool.false_ne_true

theorem pgrebuild : Statement (.pgrebuild) := fun h => absurd h Bool.false_ne_true

theorem scTakeEffect : Statement (.scTakeEffect) := fun h => absurd h Bool.false_ne_true

theorem leaseWithdrawal (tag : Nat) : Statement (.leaseWithdrawal tag) := fun h => absurd h Bool.false_ne_true

theorem directoryDeviceFault (part : Nat) (vpage : Nat) : Statement (.directoryDeviceFault part vpage) := fun h => absurd h Bool.false_ne_true

theorem atsInvalidateRequest (link : Nat) (lo hi : Nat) : Statement (.atsInvalidateRequest link lo hi) := fun h => absurd h Bool.false_ne_true

theorem ringGather : Statement (.ringGather) := fun h => absurd h Bool.false_ne_true

theorem debugAttach (head : DebugHead) (part : Nat) : Statement (.debugAttach head part) := fun h => absurd h Bool.false_ne_true

theorem debugDetach (head : DebugHead) (part : Nat) : Statement (.debugDetach head part) := fun h => absurd h Bool.false_ne_true

theorem setBreakpoint (head : DebugHead) (part : Nat) (b : Nat) (capid : Nat) (off : BitVec 32) (gtid : Word) (action : Nat) (trigId : BitVec 4) (trigAction : BitVec 2) : Statement (.setBreakpoint head part b capid off gtid action trigId trigAction) := fun h => absurd h Bool.false_ne_true

theorem setWatchpoint (head : DebugHead) (part : Nat) (w : Nat) (kind : Nat) (vtile : Nat) (addr : Nat) (k : Nat) (mask : BitVec 5) (gtid : Word) (action : Nat) (trigId : BitVec 4) (trigAction : BitVec 2) : Statement (.setWatchpoint head part w kind vtile addr k mask gtid action trigId trigAction) := fun h => absurd h Bool.false_ne_true

theorem debugStop (head : DebugHead) (part : Nat) (gtid : Word) : Statement (.debugStop head part gtid) := fun h => absurd h Bool.false_ne_true

theorem debugGo (head : DebugHead) (part : Nat) (gtid : Word) : Statement (.debugGo head part gtid) := fun h => absurd h Bool.false_ne_true

theorem debugStep (head : DebugHead) (part : Nat) (gtid : Word) : Statement (.debugStep head part gtid) := fun h => absurd h Bool.false_ne_true

theorem debugStopCluster (head : DebugHead) (part : Nat) (gtid : Word) : Statement (.debugStopCluster head part gtid) := fun h => absurd h Bool.false_ne_true

theorem debugGoCluster (head : DebugHead) (part : Nat) (gtid : Word) : Statement (.debugGoCluster head part gtid) := fun h => absurd h Bool.false_ne_true

theorem debugStopPartition (head : DebugHead) (part : Nat) : Statement (.debugStopPartition head part) := fun h => absurd h Bool.false_ne_true

theorem readRegister (head : DebugHead) (part : Nat) (gtid : Word) (file : Nat) (index : Nat) : Statement (.readRegister head part gtid file index) := fun h => absurd h Bool.false_ne_true

theorem writeRegister (head : DebugHead) (part : Nat) (gtid : Word) (file : Nat) (index : Nat) (value : BitVec 128) : Statement (.writeRegister head part gtid file index value) := fun h => absurd h Bool.false_ne_true

theorem readTileMemory (head : DebugHead) (part : Nat) (vtile : Nat) (addr : Nat) (len : Nat) : Statement (.readTileMemory head part vtile addr len) := fun h => absurd h Bool.false_ne_true

theorem sendTrigger (head : DebugHead) (part : Nat) (id : Nat) (action : Nat) (count : Nat) : Statement (.sendTrigger head part id action count) := fun h => absurd h Bool.false_ne_true

theorem setSamplePeriod (head : DebugHead) (part : Nat) (k : Nat) : Statement (.setSamplePeriod head part k) := fun h => absurd h Bool.false_ne_true

theorem zeroDelayAccumulators (head : DebugHead) (part : Nat) (core : Nat) : Statement (.zeroDelayAccumulators head part core) := fun h => absurd h Bool.false_ne_true

theorem readLiveRing (head : DebugHead) (part : Nat) (core : Nat) : Statement (.readLiveRing head part core) := fun h => absurd h Bool.false_ne_true

theorem waitForEvent (head : DebugHead) (part : Nat) : Statement (.waitForEvent head part) := fun h => absurd h Bool.false_ne_true

theorem readTephra (head : DebugHead) (chunk : Nat) : Statement (.readTephra head chunk) := fun h => absurd h Bool.false_ne_true

theorem releaseTephra (head : DebugHead) : Statement (.releaseTephra head) := fun h => absurd h Bool.false_ne_true

theorem debugSessionEnd (session : Nat) : Statement (.debugSessionEnd session) := fun h => absurd h Bool.false_ne_true

theorem createPartition (r : CreateReq) : Statement (.createPartition r) := fun h => absurd h Bool.false_ne_true

theorem destroyPartition (part : Nat) : Statement (.destroyPartition part) := fun h => absurd h Bool.false_ne_true

theorem resizePartition (part : Nat) (cores : List Nat) : Statement (.resizePartition part cores) := fun h => absurd h Bool.false_ne_true

theorem bindVirtualDevice (part : Nat) (dev : Nat) (weight : Nat) (slice : Nat) : Statement (.bindVirtualDevice part dev weight slice) := fun h => absurd h Bool.false_ne_true

theorem directoryHostFault (part : Nat) (vpage : Nat) : Statement (.directoryHostFault part vpage) := fun h => absurd h Bool.false_ne_true

theorem createWorld (die : Nat) (world : BitVec 4) (secret : TenantSecret) (capKeys : List Byte) : Statement (.createWorld die world secret capKeys) := fun h => absurd h Bool.false_ne_true

theorem hlReqringWrite (base : Word) : Statement (.hlReqringWrite base) := fun h => absurd h Bool.false_ne_true

theorem hlEvringWrite (base : Word) : Statement (.hlEvringWrite base) := fun h => absurd h Bool.false_ne_true

theorem registerWrite (offset : Nat) (value : Word) : Statement (.registerWrite offset value) := fun h => absurd h Bool.false_ne_true

theorem logRead (session : Nat) (chunk : Nat) : Statement (.logRead session chunk) := fun h => absurd h Bool.false_ne_true

theorem startRecordRead (session : Nat) : Statement (.startRecordRead session) := fun h => absurd h Bool.false_ne_true

theorem startRecordClear (session : Nat) : Statement (.startRecordClear session) := fun h => absurd h Bool.false_ne_true

theorem sensorSample (samples : List Sample) : Statement (.sensorSample samples) := fun h => absurd h Bool.false_ne_true

theorem recovery : Statement (.recovery) := fun h => absurd h Bool.false_ne_true

theorem firmwareUpdate (session : Nat) (image : List Byte) (ok : Bool) : Statement (.firmwareUpdate session image ok) := fun h => absurd h Bool.false_ne_true

theorem firmwareActivation : Statement (.firmwareActivation) := fun h => absurd h Bool.false_ne_true

theorem coldStart (failed : List Nat) (parts : StartParts) : Statement (.coldStart failed parts) := fun h => absurd h Bool.false_ne_true

theorem warmReset : Statement (.warmReset) := fun h => absurd h Bool.false_ne_true

theorem failedStepRestart (failed : List Nat) (parts : List Nat) : Statement (.failedStepRestart failed parts) := fun h => absurd h Bool.false_ne_true

theorem recoveryForm (image : RecoveryImage) : Statement (.recoveryForm image) := fun h => absurd h Bool.false_ne_true

theorem powerLoss : Statement (.powerLoss) := fun h => absurd h Bool.false_ne_true

theorem uncorrectableError (pa : Nat) (treeLevel : MemError) : Statement (.uncorrectableError pa treeLevel) := fun h => absurd h Bool.false_ne_true

theorem hostOwnershipRequest (pa : Nat) (data : List Byte) : Statement (.hostOwnershipRequest pa data) := fun h => absurd h Bool.false_ne_true

theorem ideIntegrityFailure (part : Nat) (link : Nat) : Statement (.ideIntegrityFailure part link) := fun h => absurd h Bool.false_ne_true

theorem fabricRequestTimeout (tag : Nat) : Statement (.fabricRequestTimeout tag) := fun h => absurd h Bool.false_ne_true

theorem fabricLinkFailure (link : Nat) : Statement (.fabricLinkFailure link) := fun h => absurd h Bool.false_ne_true

theorem transportLoss (peer : Nat) : Statement (.transportLoss peer) := fun h => absurd h Bool.false_ne_true

theorem linkStateChange (link : Nat) (up : Bool) (width : Nat) : Statement (.linkStateChange link up width) := fun h => absurd h Bool.false_ne_true

theorem domainJoin (part : Nat) (okMembers : List JoinReport) : Statement (.domainJoin part okMembers) := fun h => absurd h Bool.false_ne_true

theorem getVersion (session : Nat) : Statement (.getVersion session) := fun h => absurd h Bool.false_ne_true

theorem getCapabilities (session : Nat) : Statement (.getCapabilities session) := fun h => absurd h Bool.false_ne_true

theorem negotiateAlgorithms (session : Nat) : Statement (.negotiateAlgorithms session) := fun h => absurd h Bool.false_ne_true

theorem getCertificate (session : Nat) : Statement (.getCertificate session) := fun h => absurd h Bool.false_ne_true

theorem challenge (session : Nat) : Statement (.challenge session) := fun h => absurd h Bool.false_ne_true

theorem getMeasurements (session : Nat) : Statement (.getMeasurements session) := fun h => absurd h Bool.false_ne_true

theorem keyExchange (session : Nat) : Statement (.keyExchange session) := fun h => absurd h Bool.false_ne_true

theorem finish (session : Nat) : Statement (.finish session) := fun h => absurd h Bool.false_ne_true

theorem pskExchange (session : Nat) (world : BitVec 4) (psk : List Byte) : Statement (.pskExchange session world psk) := fun h => absurd h Bool.false_ne_true

theorem domainMessageReceive (part : Nat) (bytes : List Byte) : Statement (.domainMessageReceive part bytes) := fun h => absurd h Bool.false_ne_true

theorem barrier (part : FromPeer) (gen : Nat) : Statement (.barrier part gen) := fun h => absurd h Bool.false_ne_true

theorem drained (part : Nat) (member : Nat) : Statement (.drained part member) := fun h => absurd h Bool.false_ne_true

theorem domainKey (part : FromPeer) (key : List Byte) : Statement (.domainKey part key) := fun h => absurd h Bool.false_ne_true

theorem ready (part : Nat) (member : Nat) : Statement (.ready part member) := fun h => absurd h Bool.false_ne_true

theorem domOpen (part : FromPeer) : Statement (.domOpen part) := fun h => absurd h Bool.false_ne_true

theorem barrierDrainTimeout (part : Nat) : Statement (.barrierDrainTimeout part) := fun h => absurd h Bool.false_ne_true

theorem heartbeat (part : Nat) : Statement (.heartbeat part) := fun h => absurd h Bool.false_ne_true

theorem heartbeatReceive (part : Nat) (member : Nat) : Statement (.heartbeatReceive part member) := fun h => absurd h Bool.false_ne_true

theorem coordinatorLost (part : Nat) : Statement (.coordinatorLost part) := fun h => absurd h Bool.false_ne_true

theorem successorMessage (part : FromPeer) (member : Nat) : Statement (.successorMessage part member) := fun h => absurd h Bool.false_ne_true

theorem successorJoinTimeout (part : Nat) (member : Nat) : Statement (.successorJoinTimeout part member) := fun h => absurd h Bool.false_ne_true

theorem frameBoundary : Statement (.frameBoundary) := fun h => absurd h Bool.false_ne_true

theorem lockInterface (part : Nat) (link : LinkLock) : Statement (.lockInterface part link) := fun h => absurd h Bool.false_ne_true

theorem fabricRequest (world : BitVec 4) (kind : Nat) (pa : Nat) (len : Nat) (data : List Byte) : Statement (.fabricRequest world kind pa len data) := fun h => absurd h Bool.false_ne_true

theorem coreFailure (core : Nat) : Statement (.coreFailure core) := fun h => absurd h Bool.false_ne_true

end Sys2Proof.Laws.RoundTrip
end

