-- ==== Sys2Proof/Laws/Traps.lean ====
section
/-! SUPPORT. What taking an exception at task privilege does where its supervisor handles it (17:R273). -/

namespace Sys2Proof.Machine

namespace State

variable {s : State}

theorem handled_iff : s.handled = true ↔ s.task.priv = .task ∧ s.task.stepping = false
    ∧ ((s.supCapsule? s.task.part).map (·.lands s.task.tr.vec)).getD false = true := by
  unfold handled
  cases s.supCapsule? s.task.part <;> simp [and_assoc]

/-- The records that go ahead of an entry. -/
def trapRecords (s : State) (e : Exc) (pc : Word) : State :=
  (s.record s.cur 0x5 0 s.task.gtid (packFields [(34, pc.toNat % 2 ^ 32), (6, e.cause.toNat)])).recordTrapAddr e

/-- Records change the recorders of cores alone. -/
theorem recordTrapAddr_eq (e : Exc) : ∃ c, s.recordTrapAddr e = { s with cores := c } := by
  unfold recordTrapAddr
  split
  · exact ⟨_, rfl⟩
  · split
    · split <;> exact ⟨_, rfl⟩
    · exact ⟨_, rfl⟩

theorem trapRecords_eq (e : Exc) (pc : Word) : ∃ c, s.trapRecords e pc = { s with cores := c } := by
  obtain ⟨c, h⟩ := recordTrapAddr_eq (s := s.record s.cur 0x5 0 s.task.gtid (packFields [(34, pc.toNat % 2 ^ 32), (6, e.cause.toNat)])) e
  exact ⟨c, h⟩

/-- The task a handled trap leaves. -/
def entered (s : State) (e : Exc) (pc : Word) : Task :=
  { s.task.putG 7 s.task.tr.vseg with
    tr := { s.task.tr with cause := e.word, pc := s.returnPoint pc, addr := e.addr, status := s.statusOf s.task (coreOf s.cur), vseg := s.task.getG 7 }
    fpend := false, fmtword := 0, priv := .supervisor, inHandler := true, pc := s.task.tr.vec, run := .resident
    codeBase := none, codeBound := none, holdUntil := s.cycle + 3, skipBreak := false }

/-- A handled exception: records, the task leaves the waits it stood in, then the entry, and nothing else changes. -/
theorem takeAt_handled {e : Exc} {pc : Word} (h : s.handled = true) (h1 : isTrustCause e.cause = false)
    (h2 : isDebugCause e.cause = false ∨ e.cause = cBKPT ∧ (s.partOf? s.task.part).bind (·.dbg.session) = none) :
    ∃ c, s.takeAt e pc = (({ s with cores := c } : State).unwait s.task.part s.task.gtid).setTask (s.entered e pc) := by
  obtain ⟨hp, hst, hl⟩ := handled_iff.1 h
  obtain ⟨c, hc⟩ := s.trapRecords_eq e (s.returnPoint pc)
  refine ⟨c, ?_⟩
  unfold trapRecords at hc
  have hp' : ({ s with cores := c } : State).task.priv = .task := hp
  have hl' : ((({ s with cores := c } : State).supCapsule? s.task.part).map (·.lands s.task.tr.vec)).getD false = true := hl
  have h2' : (isDebugCause e.cause && (e.cause != cBKPT || (((s.partOf? s.task.part).map (·.dbg.session.isSome)).getD false))) = false := by
    rcases h2 with h | ⟨h, h'⟩
    · simp [h]
    · revert h'; cases s.partOf? s.task.part <;> simp +contextual [h]
  simp only [takeAt, h1, h2', hst, hp, hc, hl', Bool.false_eq_true, if_false, if_true]
  have ht : ({ s with cores := c } : State).task = s.task := rfl
  unfold enterSupervisor entered returnPoint
  simp only [ht]
  simp [hst, Task.putG]
  rfl

theorem trap_handled {e : Exc} (h : s.handled = true) (h1 : isTrustCause e.cause = false) (h2 : isDebugCause e.cause = false) :
    ∃ c, s.trap e = (({ s with cores := c } : State).unwait s.task.part s.task.gtid).setTask (s.entered e s.task.pc) :=
  takeAt_handled h h1 (.inl h2)

end State

end Sys2Proof.Machine
end

