-- ==== Sys2Proof/Tests/Slice0.lean ====
section
/-! SUPPORT. The model's own tests: ill-formed terms that are refused, words read by the decoder, results the spec gives, and for every
statement with hypotheses a state and operands that meet them. -/

open Sys2Proof Sys2Proof.Machine
set_option maxRecDepth 4000
-- the tests are checked one after another, which takes less memory
set_option Elab.async false

namespace Sys2Proof.Tests

/-! ### Small states -/

/-- A task of the capsule that `withText` installs, with some scalar registers set. -/
def task (s : List (Nat × Word)) : Task :=
  { gtid := 1, part := 0, capid := 1, stamp := 1, s := s.foldl (fun v e => v.setIfInBounds e.1 e.2) (Vector.replicate 32 0) }

/-- The machine with that task in slot 0 of core 0. -/
def at_ (t : Task) : State := { State.reset.withText [] with slots := [(0, t)] }

/-- A vector register of a task. -/
def vr (t : Task) (l : List (Nat × VWord)) : Task := { t with v := l.foldl (fun v e => v.setIfInBounds e.1 e.2) t.v }

/-- A segment with every right, its limit as given (03:R55). -/
def segW (space target base limit : Nat) : VWord := BitVec.ofNat 128 (space * 2 ^ 124 + 15 * 2 ^ 120 + target * 2 ^ 110 + base * 2 ^ 52 + limit)

/-- A task with segments. -/
def sg (t : Task) (l : List (Nat × VWord)) : Task := { t with g := l.foldl (fun v e => v.setIfInBounds e.1 e.2) t.g }

/-- The partition of `withText` with a text of 12 bytes. -/
def part0 : Partition := State.fetchPart 12

/-- The machine with a task in slot 0 and a partition. -/
def atP (p : Partition) (t : Task) : State := { at_ t with parts := [(0, p)] }

/-- The same at supervisor privilege's reach: capsule 1 is the supervisor capsule, whose offset 0 is a landing point. -/
def sup (t : Task) : State := atP { part0 with supCap := some 1 } t

/-- What an instruction leaves in registers and elsewhere. -/
def sOf (r : Reg) : Out → Option Word
  | .next u => some (u.task.getS r)
  | _ => none
def vOf (r : Reg) : Out → Option VWord
  | .next u => some (u.task.getV r)
  | _ => none
def pOf (r : BitVec 3) : Out → Option PWord
  | .next u => some (u.task.getP r)
  | _ => none
def causeOf : Out → Option Word
  | .next u => some u.task.tr.cause
  | _ => none
def stateOf (s : State) : Out → State
  | .next u => u
  | _ => s

/-! ### Ill-formed terms are refused -/

/-- Check 2 of 10:R170: `uns` without `sat`; a pointer register that is also T under post-increment; a displacement beside a pointer
register; scope 0xA; an acquire on a store; queue 4 for a load; a format word with a set low bit; a reserved element type. -/
theorem test_refuses_reserved : ∀ i ∈ ([.add ⟨.w64 ⟨0, false⟩, 1, 2, false, .reg 3 false⟩ false true,
    .ldD64 ⟨.w32, ⟨1, 4, false, true, .i8 8⟩, 4, ⟨0, false, 0⟩, false⟩, .ldD64 ⟨.w32, ⟨1, 4, false, false, .i8 8⟩, 7, ⟨0, false, 0⟩, false⟩,
    .fence (.w64 ⟨0, false⟩) ⟨0, true, 10⟩, .stD64 ⟨.w64 ⟨0, false⟩, ⟨1, 4, false, false, .i8 0⟩, 7, false, ⟨2, false, 0⟩⟩,
    .qld ⟨.w64 ⟨0, false⟩, ⟨1, 4, false, false, .i8 0⟩, 7, false, ⟨0, false, 0⟩, 4, 3⟩, .fmt 1,
    .vintVadd ⟨.w64 ⟨0, false⟩, 0x18, false, 1, 2, false, .reg 3 false⟩] : List Instr), i.reservedBad = true ∧ i.wf = false := by decide

/-- Check 3: a shift by 64; a width of 65; a control value with bit 7 set; an element number beyond the type's; a byte literal that is not
its own low byte; a post-increment of 4,096; no token. -/
theorem test_refuses_immediates : ∀ i ∈ ([.shl ⟨.w96 ⟨0, false⟩, 1, 2, false, .lit 64⟩, .sext ⟨.w96 ⟨0, false⟩, 1, 2, false, .lit 65⟩,
    .bext ⟨.w96 ⟨0, false⟩, 1, 2, false, .lit 0x80⟩, .vext ⟨.w64 ⟨0, false⟩, 6, 1, 2, false, 4⟩,
    .vintVadd ⟨.w96 ⟨0, false⟩, 0, false, 1, 2, false, .lit 200⟩, .ldD64 ⟨.w96 ⟨0, false⟩, ⟨1, 4, false, true, .lit 4096⟩, 7, ⟨0, false, 0⟩, false⟩,
    .pwrAcq .w32 0 0] : List Instr), i.immBad = true ∧ i.wf = false := by decide

/-- The type part of check 5: a floating-point type for `vint`, an integer one for `vfp`, a destination of 0x10 for `cvt`. -/
theorem test_refuses_types : ∀ i ∈ ([.vintVadd ⟨.w64 ⟨0, false⟩, 8, false, 1, 2, false, .reg 3 false⟩,
    .vfpVadd ⟨.w64 ⟨0, false⟩, 6, 0, false, 1, 2, false, .reg 3 false⟩, .cvt ⟨.w64 ⟨0, false⟩, 0x10, 8, 0, false, 0, none, 1, 4, false⟩,
    .vintVabs ⟨.w64 ⟨0, false⟩, 4, 0, false, 1, 2, false⟩] : List Instr), i.formatBad = true ∧ i.wf = false := by decide

/-- Operands a form cannot hold: a literal in 32 bits, saturation in 32 bits, a type other than the default in 32 bits; and the word of
`nop` under another name. -/
theorem test_refuses_forms : (∀ i ∈ ([.add ⟨.w32, 1, 2, false, .lit 5⟩ false false, .add ⟨.w32, 1, 2, false, .reg 3 false⟩ true false,
    .vmov ⟨.w32, 6, 0, false, 1, 2, false⟩, .br 0 ⟨0, true⟩] : List Instr), i.wf = false) ∧ Instr.formOk (.coreFailure 0) = false := by decide

/-- 11:R182, R183, R185, R186: major 0x05, R format. -/
theorem test_decode_alu : ∀ e ∈ ([
    (32, 0x008C4114, .add ⟨.w32, 1, 2, true, .reg 3 false⟩ false false),
    (32, 0x028C4114, .sub ⟨.w32, 1, 2, true, .reg 3 false⟩ false false),
    (32, 0x048C4114, .and ⟨.w32, 1, 2, true, .reg 3 false⟩),
    (32, 0x068C4114, .or ⟨.w32, 1, 2, true, .reg 3 false⟩),
    (32, 0x088C4114, .xor ⟨.w32, 1, 2, true, .reg 3 false⟩),
    (32, 0x0A8C4114, .andn ⟨.w32, 1, 2, true, .reg 3 false⟩),
    (32, 0x0C8C4114, .orn ⟨.w32, 1, 2, true, .reg 3 false⟩),
    (32, 0x0E8C4114, .shl ⟨.w32, 1, 2, true, .reg 3 false⟩),
    (32, 0x108C4114, .shr ⟨.w32, 1, 2, true, .reg 3 false⟩),
    (32, 0x128C4114, .sra ⟨.w32, 1, 2, true, .reg 3 false⟩),
    (32, 0x148C4114, .rol ⟨.w32, 1, 2, true, .reg 3 false⟩),
    (32, 0x168C4114, .ror ⟨.w32, 1, 2, true, .reg 3 false⟩),
    (32, 0x188C4114, .min ⟨.w32, 1, 2, true, .reg 3 false⟩),
    (32, 0x1A8C4114, .max ⟨.w32, 1, 2, true, .reg 3 false⟩),
    (32, 0x1C8C4114, .minu ⟨.w32, 1, 2, true, .reg 3 false⟩),
    (32, 0x1E8C4114, .maxu ⟨.w32, 1, 2, true, .reg 3 false⟩),
    (32, 0x2718A414, .sext ⟨.w32, 4, 5, false, .reg 6 true⟩),
    (32, 0x2918A414, .zext ⟨.w32, 4, 5, false, .reg 6 true⟩),
    (32, 0x2B18A414, .bext ⟨.w32, 4, 5, false, .reg 6 true⟩),
    (32, 0x2D18A414, .bins ⟨.w32, 4, 5, false, .reg 6 true⟩),
    (32, 0x3118A414, .sh1add ⟨.w32, 4, 5, false, .reg 6 true⟩),
    (32, 0x3318A414, .sh2add ⟨.w32, 4, 5, false, .reg 6 true⟩),
    (32, 0x3518A414, .sh3add ⟨.w32, 4, 5, false, .reg 6 true⟩),
    (32, 0x3718A414, .sh4add ⟨.w32, 4, 5, false, .reg 6 true⟩),
    (32, 0x20810714, .clz ⟨.w32, 7, 8, true⟩),
    (32, 0x22810714, .ctz ⟨.w32, 7, 8, true⟩),
    (32, 0x24810714, .popc ⟨.w32, 7, 8, true⟩),
    (64, 0x1000080A010C4116, .add ⟨.w64 ⟨2, true⟩, 1, 2, false, .reg 3 true⟩ true true),
    (96, 0x000000100000000A26004117, .sext ⟨.w96 ⟨2, true⟩, 1, 2, false, .lit 16⟩)] : List (Nat × Nat × Instr)), decodeTableWord e.1 e.2.1 = some e.2.2 := by decide

/-- 11:R187: major 0x06, R format. -/
theorem test_decode_mul : ∀ e ∈ ([
    (32, 0x01AD4918, .mul ⟨.w32, 9, 10, true, .reg 11 true⟩),
    (32, 0x03AD4918, .mulh ⟨.w32, 9, 10, true, .reg 11 true⟩),
    (32, 0x05AD4918, .mulhu ⟨.w32, 9, 10, true, .reg 11 true⟩),
    (32, 0x07AD4918, .mulhsu ⟨.w32, 9, 10, true, .reg 11 true⟩),
    (32, 0x09AD4918, .div ⟨.w32, 9, 10, true, .reg 11 true⟩),
    (32, 0x0BAD4918, .divu ⟨.w32, 9, 10, true, .reg 11 true⟩),
    (32, 0x0DAD4918, .rem ⟨.w32, 9, 10, true, .reg 11 true⟩),
    (32, 0x0FAD4918, .remu ⟨.w32, 9, 10, true, .reg 11 true⟩)] : List (Nat × Nat × Instr)), decodeTableWord e.1 e.2.1 = some e.2.2 := by decide

/-- 11:R188: major 0x07, R format; majors 0x0F and 0x10, I format, the condition in bits 12:11. -/
theorem test_decode_cmp : ∀ e ∈ ([
    (32, 0x012D451C, .cmpEq ⟨.w32, 5, 10, false, .reg 11 true⟩),
    (32, 0x032D451C, .cmpNe ⟨.w32, 5, 10, false, .reg 11 true⟩),
    (32, 0x052D451C, .cmpLt ⟨.w32, 5, 10, false, .reg 11 true⟩),
    (32, 0x072D451C, .cmpGe ⟨.w32, 5, 10, false, .reg 11 true⟩),
    (32, 0x092D451C, .cmpLtu ⟨.w32, 5, 10, false, .reg 11 true⟩),
    (32, 0x0B2D451C, .cmpGeu ⟨.w32, 5, 10, false, .reg 11 true⟩),
    (32, 0xFFF5853C, .cmpiEq ⟨.w32, 5, 12, true, .i13 0x1FFE⟩),
    (32, 0xFFF58D3C, .cmpiNe ⟨.w32, 5, 12, true, .i13 0x1FFE⟩),
    (32, 0xFFF5953C, .cmpiLt ⟨.w32, 5, 12, true, .i13 0x1FFE⟩),
    (32, 0xFFF59D3C, .cmpiGe ⟨.w32, 5, 12, true, .i13 0x1FFE⟩),
    (32, 0xFFF58540, .cmpiuLtu ⟨.w32, 5, 12, true, .i13 0x1FFE⟩),
    (32, 0xFFF58D40, .cmpiuGeu ⟨.w32, 5, 12, true, .i13 0x1FFE⟩)] : List (Nat × Nat × Instr)), decodeTableWord e.1 e.2.1 = some e.2.2 := by decide

/-- 11:R184: majors 0x08 to 0x0E, I format. -/
theorem test_decode_imm : ∀ e ∈ ([
    (32, 0x008C4120, .addi ⟨.w32, 1, 2, true, .i13 17⟩),
    (32, 0x008C4124, .andi ⟨.w32, 1, 2, true, .i13 17⟩),
    (32, 0x008C4128, .ori ⟨.w32, 1, 2, true, .i13 17⟩),
    (32, 0x008C412C, .xori ⟨.w32, 1, 2, true, .i13 17⟩),
    (32, 0x008C4130, .shli ⟨.w32, 1, 2, true, .i13 17⟩),
    (32, 0x008C4134, .shri ⟨.w32, 1, 2, true, .i13 17⟩),
    (32, 0x008C4138, .srai ⟨.w32, 1, 2, true, .i13 17⟩),
    (96, 0x12345678000000030000412B, .ori ⟨.w96 ⟨3, false⟩, 1, 2, false, .lit 0x12345678⟩)] : List (Nat × Nat × Instr)), decodeTableWord e.1 e.2.1 = some e.2.2 := by decide

/-- 11:R166, R179 to R181, R194, 13:R236: majors 0x01 to 0x04. -/
theorem test_decode_control : ∀ e ∈ ([
    (32, 0xFFFFCB04, .br 0xFFFFC ⟨3, true⟩),
    (32, 0x00000804, .nop),
    (32, 0x00005108, .call 5 ⟨1, false⟩),
    (32, 0xFFECA50C, .loop .w32 5 true 0x1FFD),
    (32, 0x0080A010, .jr .w32 5 true),
    (32, 0x0200BF10, .callr ⟨.w32, 31, 5, false⟩),
    (32, 0x0483E010, .ret .w32 true),
    (32, 0x06000010, .tend .w32),
    (32, 0x08000010, .hintYield .w32),
    (32, 0x0A000010, .yield .w32),
    (32, 0x0C000010, .gbar .w32),
    (64, 0x0000000A06000012, .tend (.w64 ⟨2, true⟩))] : List (Nat × Nat × Instr)), decodeTableWord e.1 e.2.1 = some e.2.2 := by decide

/-- 11:R190 to R193, 14:R253: majors 0x11 to 0x13 and 0x39. -/
theorem test_decode_status : ∀ e ∈ ([
    (32, 0x00180344, .rdms .w32 3 3),
    (32, 0x10448048, .wrms .w32 4 true 0x208),
    (32, 0x019004E4, .termrd .w32 4 0x32),
    (32, 0x0204444C, .grd .w32 4 2 true),
    (64, 0x400260000114434E, .gnarrow (.w64 ⟨0, false⟩) 3 2 5 true 6 true 4)] : List (Nat × Nat × Instr)), decodeTableWord e.1 e.2.1 = some e.2.2 := by decide

/-- 11:R189, 12:R209, R210: major 0x1B. -/
theorem test_decode_vpred : ∀ e ∈ ([
    (64, 0x0000008A008C416E, .vwhile ⟨2, true⟩ 8 1 2 true 3 false),
    (32, 0x020C416C, .pand ⟨.w32, 1, 2, 3⟩),
    (32, 0x040C416C, .por ⟨.w32, 1, 2, 3⟩),
    (32, 0x060C416C, .pxor ⟨.w32, 1, 2, 3⟩),
    (32, 0x0800416C, .pnot ⟨.w32, 1, 2⟩),
    (32, 0x0A00416C, .pmov ⟨.w32, 1, 2⟩),
    (64, 0x000000800C00246E, .pcnt 8 4 1)] : List (Nat × Nat × Instr)), decodeTableWord e.1 e.2.1 = some e.2.2 := by decide

/-- 12:R211: major 0x1C; the types at 32 bits are those of 10:R162. -/
theorem test_decode_vmov : ∀ e ∈ ([
    (32, 0x00804170, .vmov ⟨.w32, 4, 0, false, 1, 2, true⟩),
    (32, 0x02804170, .vbcast ⟨.w32, 6, 0, false, 1, 2, true⟩),
    (32, 0x040C4170, .vins ⟨.w32, 6, 1, 2, false, 3⟩),
    (32, 0x060C4170, .vext ⟨.w32, 6, 1, 2, false, 3⟩),
    (32, 0x090C4170, .vperm ⟨.w32, 4, 1, 2, false, 3, true⟩),
    (32, 0x0B0C4170, .vsel ⟨.w32, 4, 1, 2, false, 3, true⟩),
    (64, 0x0000015A00004172, .vmov ⟨.w64 ⟨2, true⟩, 0x15, 0, false, 1, 2, false⟩)] : List (Nat × Nat × Instr)), decodeTableWord e.1 e.2.1 = some e.2.2 := by decide

/-- 12:R202 to R205: major 0x18. -/
theorem test_decode_vint : ∀ e ∈ ([
    (64, 0x0000002A008C4162, .vintVadd ⟨.w64 ⟨2, true⟩, 2, false, 1, 2, true, .reg 3 false⟩),
    (64, 0x0000002A028C4162, .vintVsub ⟨.w64 ⟨2, true⟩, 2, false, 1, 2, true, .reg 3 false⟩),
    (64, 0x0000002A048C4162, .vintVmul ⟨.w64 ⟨2, true⟩, 2, false, 1, 2, true, .reg 3 false⟩),
    (64, 0x0000002A068C4162, .vintVmulh ⟨.w64 ⟨2, true⟩, 2, false, 1, 2, true, .reg 3 false⟩),
    (64, 0x0000002A088C4162, .vintVmin ⟨.w64 ⟨2, true⟩, 2, false, 1, 2, true, .reg 3 false⟩),
    (64, 0x0000002A0A8C4162, .vintVmax ⟨.w64 ⟨2, true⟩, 2, false, 1, 2, true, .reg 3 false⟩),
    (64, 0x0000002A0C8C4162, .vintVand ⟨.w64 ⟨2, true⟩, 2, false, 1, 2, true, .reg 3 false⟩),
    (64, 0x0000002A0E8C4162, .vintVor ⟨.w64 ⟨2, true⟩, 2, false, 1, 2, true, .reg 3 false⟩),
    (64, 0x0000002A108C4162, .vintVxor ⟨.w64 ⟨2, true⟩, 2, false, 1, 2, true, .reg 3 false⟩),
    (64, 0x0000002A128C4162, .vintVandn ⟨.w64 ⟨2, true⟩, 2, false, 1, 2, true, .reg 3 false⟩),
    (64, 0x0000002A148C4162, .vintVshl ⟨.w64 ⟨2, true⟩, 2, false, 1, 2, true, .reg 3 false⟩),
    (64, 0x0000002A168C4162, .vintVshr ⟨.w64 ⟨2, true⟩, 2, false, 1, 2, true, .reg 3 false⟩),
    (64, 0x0000002A188C4162, .vintVsra ⟨.w64 ⟨2, true⟩, 2, false, 1, 2, true, .reg 3 false⟩),
    (64, 0x000008101A804162, .vintVabs ⟨.w64 ⟨0, false⟩, 1, 0, true, 1, 2, true⟩),
    (64, 0x000008101C804162, .vintVneg ⟨.w64 ⟨0, false⟩, 1, 0, true, 1, 2, true⟩),
    (64, 0x000008102A804162, .vintVsum ⟨.w64 ⟨0, false⟩, 1, 0, true, 1, 2, true⟩),
    (64, 0x00000060200C4562, .vintVcmpEq ⟨.w64 ⟨0, false⟩, 6, 5, 2, false, .reg 3 false⟩),
    (64, 0x00000060220C4562, .vintVcmpNe ⟨.w64 ⟨0, false⟩, 6, 5, 2, false, .reg 3 false⟩),
    (64, 0x00000060240C4562, .vintVcmpLt ⟨.w64 ⟨0, false⟩, 6, 5, 2, false, .reg 3 false⟩),
    (64, 0x00000060260C4562, .vintVcmpLe ⟨.w64 ⟨0, false⟩, 6, 5, 2, false, .reg 3 false⟩),
    (64, 0x00000040280C4162, .vdot4 ⟨.w64 ⟨0, false⟩, 4, false, 1, 2, false, .reg 3 false⟩),
    (96, 0xFFFFFFFF0000082000004163, .vintVadd ⟨.w96 ⟨0, false⟩, 2, true, 1, 2, false, .lit 0xFFFFFFFF⟩)] : List (Nat × Nat × Instr)), decodeTableWord e.1 e.2.1 = some e.2.2 := by decide

/-- 12:R206 to R208: major 0x19; `vmul.f32 v2, v2, 0.5` and `vmul.f32 v2, v2, 0.1`. -/
theorem test_decode_vfp : ∀ e ∈ ([
    (64, 0x00000A8A008C4166, .vfpVadd ⟨.w64 ⟨2, true⟩, 8, 1, true, 1, 2, true, .reg 3 false⟩),
    (64, 0x00000A8A028C4166, .vfpVsub ⟨.w64 ⟨2, true⟩, 8, 1, true, 1, 2, true, .reg 3 false⟩),
    (64, 0x00000A8A048C4166, .vfpVmul ⟨.w64 ⟨2, true⟩, 8, 1, true, 1, 2, true, .reg 3 false⟩),
    (64, 0x00000090080C4166, .vfpVmin ⟨.w64 ⟨0, false⟩, 9, 0, false, 1, 2, false, .reg 3 false⟩),
    (64, 0x000000900A0C4166, .vfpVmax ⟨.w64 ⟨0, false⟩, 9, 0, false, 1, 2, false, .reg 3 false⟩),
    (64, 0x000000A01A004166, .vfpVabs ⟨.w64 ⟨0, false⟩, 10, 0, false, 1, 2, false⟩),
    (64, 0x000000A01C004166, .vfpVneg ⟨.w64 ⟨0, false⟩, 10, 0, false, 1, 2, false⟩),
    (64, 0x00000CA02A004166, .vfpVsum ⟨.w64 ⟨0, false⟩, 10, 2, true, 1, 2, false⟩),
    (64, 0x00000080200C4566, .vfpVcmpEq ⟨.w64 ⟨0, false⟩, 8, 5, 2, false, .reg 3 false⟩),
    (64, 0x00000080220C4566, .vfpVcmpNe ⟨.w64 ⟨0, false⟩, 8, 5, 2, false, .reg 3 false⟩),
    (64, 0x00000080240C4566, .vfpVcmpLt ⟨.w64 ⟨0, false⟩, 8, 5, 2, false, .reg 3 false⟩),
    (64, 0x00000080260C4566, .vfpVcmpLe ⟨.w64 ⟨0, false⟩, 8, 5, 2, false, .reg 3 false⟩),
    (64, 0x00024080408C4166, .vfma ⟨.w64 ⟨0, false⟩, 8, 0, false, 1, 2, true, 3, false, 4, true⟩),
    (64, 0x00024080428C4166, .vfms ⟨.w64 ⟨0, false⟩, 8, 0, false, 1, 2, true, 3, false, 4, true⟩),
    (64, 0x00024080448C4166, .vfnma ⟨.w64 ⟨0, false⟩, 8, 0, false, 1, 2, true, 3, false, 4, true⟩),
    (64, 0x00024080468C4166, .vfnms ⟨.w64 ⟨0, false⟩, 8, 0, false, 1, 2, true, 3, false, 4, true⟩),
    (64, 0x13F0008004004266, .vfpVmul ⟨.w64 ⟨0, false⟩, 8, 0, false, 2, 2, false, .fi 0x3F00⟩),
    (96, 0x3DCCCCCD0000008004004267, .vfpVmul ⟨.w96 ⟨0, false⟩, 8, 0, false, 2, 2, false, .lit 0x3DCCCCCD⟩)] : List (Nat × Nat × Instr)), decodeTableWord e.1 e.2.1 = some e.2.2 := by decide

/-- 12:R198, R212 to R215: `fmt a=bf16, b=bf16, q1`, `cvt.e4m3 v8, v0, f32, s12`, `cvt.mx.mxe2m1.bal v8, v0, f32, s12` as the spec writes them; major 0x1D. -/
theorem test_decode_convert : ∀ e ∈ ([
    (64, 0xAAA40000000000FA, .fmt 0xAAA40000),
    (64, 0x8000C0C00020086A, .cvt ⟨.w64 ⟨0, false⟩, 0x0C, 8, 0, false, 0, some 12, 8, 0, false⟩),
    (64, 0x1000C1500220086A, .cvtMx ⟨.w64 ⟨0, false⟩, 0x15, 8, 0, false, true, 12, 8, 0, false⟩),
    (64, 0x00000E8A00804176, .sfuExp ⟨.w64 ⟨2, true⟩, 8, 3, true, 1, 2, true⟩),
    (64, 0x00000E8A02804176, .sfuLog ⟨.w64 ⟨2, true⟩, 8, 3, true, 1, 2, true⟩),
    (64, 0x00000E8A04804176, .sfuRcp ⟨.w64 ⟨2, true⟩, 8, 3, true, 1, 2, true⟩),
    (64, 0x00000E8A06804176, .sfuRsqrt ⟨.w64 ⟨2, true⟩, 8, 3, true, 1, 2, true⟩),
    (64, 0x00000E8A08804176, .sfuSqrt ⟨.w64 ⟨2, true⟩, 8, 3, true, 1, 2, true⟩),
    (64, 0x00000E8A0A804176, .sfuSin ⟨.w64 ⟨2, true⟩, 8, 3, true, 1, 2, true⟩),
    (64, 0x00000E8A0C804176, .sfuCos ⟨.w64 ⟨2, true⟩, 8, 3, true, 1, 2, true⟩),
    (64, 0x00000E8A0E804176, .sfuTanh ⟨.w64 ⟨2, true⟩, 8, 3, true, 1, 2, true⟩),
    (64, 0x00000E8A10804176, .sfuSigm ⟨.w64 ⟨2, true⟩, 8, 3, true, 1, 2, true⟩)] : List (Nat × Nat × Instr)), decodeTableWord e.1 e.2.1 = some e.2.2 := by decide

/-- 10:R160, R161, R170, 13:R219 to R235: majors 0x20 to 0x34, M format; four of them as the spec writes them. -/
theorem test_decode_memory : ∀ e ∈ ([
    (32, 0x001C8780, .ldD8 ⟨.w32, ⟨3, 4, true, false, .i8 0⟩, 7, ⟨0, false, 0⟩, false⟩),
    (32, 0x001C8784, .ldD16 ⟨.w32, ⟨3, 4, true, false, .i8 0⟩, 7, ⟨0, false, 0⟩, false⟩),
    (32, 0x001C8788, .ldD32 ⟨.w32, ⟨3, 4, true, false, .i8 0⟩, 7, ⟨0, false, 0⟩, false⟩),
    (32, 0x001C878C, .ldD64 ⟨.w32, ⟨3, 4, true, false, .i8 0⟩, 7, ⟨0, false, 0⟩, false⟩),
    (32, 0x001C8790, .ldD128 ⟨.w32, ⟨3, 4, true, false, .i8 0⟩, 7, ⟨0, false, 0⟩, false⟩),
    (32, 0x009C8794, .stD4 ⟨.w32, ⟨3, 4, true, false, .i8 0⟩, 7, true, ⟨0, false, 0⟩⟩),
    (32, 0x009C8798, .stD8 ⟨.w32, ⟨3, 4, true, false, .i8 0⟩, 7, true, ⟨0, false, 0⟩⟩),
    (32, 0x009C879C, .stD16 ⟨.w32, ⟨3, 4, true, false, .i8 0⟩, 7, true, ⟨0, false, 0⟩⟩),
    (32, 0x009C87A0, .stD32 ⟨.w32, ⟨3, 4, true, false, .i8 0⟩, 7, true, ⟨0, false, 0⟩⟩),
    (32, 0x009C87A4, .stD64 ⟨.w32, ⟨3, 4, true, false, .i8 0⟩, 7, true, ⟨0, false, 0⟩⟩),
    (32, 0x009C87A8, .stD128 ⟨.w32, ⟨3, 4, true, false, .i8 0⟩, 7, true, ⟨0, false, 0⟩⟩),
    (64, 0x1894000AF858878A, .ldD32 ⟨.w64 ⟨2, true⟩, ⟨3, 4, false, true, .i8 0xF8⟩, 7, ⟨2, true, 5⟩, true⟩),
    (96, 0x0000100000400000009807A7, .stD64 ⟨.w96 ⟨0, false⟩, ⟨3, 0, false, false, .lit 0x1000⟩, 7, true, ⟨1, false, 0⟩⟩),
    (64, 0x8810000A001C87AE, .ldfe ⟨.w64 ⟨2, true⟩, ⟨3, 4, true, false, .i8 0⟩, 7, true, 4, true⟩),
    (64, 0x8810000A001C87B2, .ldfeTake ⟨.w64 ⟨2, true⟩, ⟨3, 4, true, false, .i8 0⟩, 7, true, 4, true⟩),
    (64, 0x1810000A009C87B6, .stfe ⟨.w64 ⟨2, true⟩, ⟨3, 4, true, false, .i8 0⟩, 7, true, true, 4, true⟩),
    (64, 0x31800002002049BA, .qld ⟨.w64 ⟨2, false⟩, ⟨4, 2, false, false, .i8 0⟩, 9, false, ⟨2, false, 0⟩, 1, 3⟩),
    (64, 0x45400000009C87BE, .qst ⟨.w64 ⟨0, false⟩, ⟨3, 4, true, false, .i8 0⟩, 7, true, ⟨1, false, 0⟩, 5, 4⟩),
    (64, 0x92C28000009C87C2, .amoD32 ⟨.w64 ⟨0, false⟩, ⟨3, 4, true, false, .i8 0⟩, 7, true, ⟨3, false, 0⟩, 2, 9, 8, true⟩),
    (64, 0x10001000000800C6, .amoD64 ⟨.w64 ⟨0, false⟩, ⟨1, 0, false, false, .i8 0⟩, 0, false, ⟨0, false, 0⟩, 0, 1, 1, false⟩),
    (32, 0x100807C8, .fork .w32 ⟨1, 0, false, false, .i8 16⟩ 7),
    (32, 0x080800CC, .join ⟨.w32, ⟨1, 0, false, false, .i8 8⟩, 0, false, 0, false⟩),
    (64, 0xE8100000009C87D2, .waddr ⟨.w64 ⟨0, false⟩, ⟨3, 4, true, false, .i8 0⟩, 7, true, true, 4, 2, true, true⟩),
    (32, 0x0848878C, .ldD64 ⟨.w32, ⟨1, 4, false, true, .i8 8⟩, 7, ⟨0, false, 0⟩, false⟩)] : List (Nat × Nat × Instr)), decodeTableWord e.1 e.2.1 = some e.2.2 := by decide

/-- 13:R226, R228, R232, R233, 14:R238, R242, R252, R255 to R261: majors 0x35, 0x38 and 0x3B; `fence`, `tcmd v2, v3`, `sem.sig 1`, `sem.wait 1`, `pwr.acq matrix, 2`, `pwr.rel matrix, 2`, `stepget s4, nact` and `stoptest s5, v2, s6` as the spec writes them. -/
theorem test_decode_sync : ∀ e ∈ ([
    (32, 0x000000D4, .fence .w32 ⟨0, false, 0⟩),
    (64, 0x089C000A000000D6, .fence (.w64 ⟨2, true⟩) ⟨2, true, 7⟩),
    (32, 0x021000D4, .qwait .w32 4),
    (32, 0x049060D4, .send .w32 3 true 4 false),
    (32, 0x068045D4, .recv .w32 5 2 true),
    (32, 0x088045D4, .recvKeep .w32 5 2 true),
    (32, 0x0A8040D4, .mwait .w32 2 true),
    (32, 0x000C40E0, .tcmd .w32 2 false 3 false),
    (32, 0x020400E0, .semSig .w32 1),
    (32, 0x040400E0, .semWait .w32 1),
    (32, 0x060002E0, .pwrAcq .w32 0 2),
    (32, 0x080002E0, .pwrRel .w32 0 2),
    (32, 0x000404EC, .stepget .w32 4 1 0 false),
    (32, 0x021845EC, .stoptest ⟨.w32, 5, 2, false, 6, false⟩),
    (64, 0x20000000050C41EE, .seqret ⟨.w64 ⟨0, false⟩, 1, 2, false, 3, true⟩ 2),
    (32, 0x068041EC, .seqadm ⟨.w32, 1, 2, true⟩),
    (32, 0x080001EC, .poolTake .w32 1),
    (32, 0x0A8040EC, .poolGive .w32 2 true)] : List (Nat × Nat × Instr)), decodeTableWord e.1 e.2.1 = some e.2.2 := by decide

/-- 18:R277 to R293: major 0x3C, as the spec writes them. -/
theorem test_decode_system : ∀ e ∈ ([
    (32, 0x0000A0F0, .trap .w32 5),
    (32, 0x001FE0F0, .trap .w32 255),
    (32, 0x020000F0, .trapret .w32),
    (32, 0x041483F0, .gwrite .w32 3 4 false 5 false),
    (32, 0x061046F0, .ctxsave .w32 6 2 false 4),
    (64, 0x10000000061006F2, .ctxsaveTile (.w64 ⟨0, false⟩) 6 4),
    (32, 0x081046F0, .ctxrest .w32 6 2 false 4),
    (64, 0x10000000081006F2, .ctxrestTile (.w64 ⟨0, false⟩) 6 4),
    (32, 0x0A00E4F0, .rebuild ⟨.w32, 4, 7, false⟩),
    (32, 0x0C2460F0, .recmark .w32 3 false 9),
    (32, 0x0E0C00F0, .bkpt .w32 3),
    (32, 0x100C05F0, .halt .w32 5 0 false 3),
    (32, 0x120825F0, .fwcall ⟨.w32, 5, 1, false, 2, false⟩),
    (32, 0x140000F0, .termclr .w32)] : List (Nat × Nat × Instr)), decodeTableWord e.1 e.2.1 = some e.2.2 := by decide

/-- 11 and 28: the words of the two listings. -/
theorem test_decode_listings : ∀ e ∈ ([
    (32, 0x00200520, .addi ⟨.w32, 5, 0, false, .i13 4⟩),
    (32, 0x00005008, .call 5 ⟨0, false⟩),
    (32, 0x0020E714, .add ⟨.w32, 7, 7, false, .reg 8 false⟩ false false),
    (32, 0xFFE8A50C, .loop .w32 5 false 0x1FFD),
    (32, 0x8000C928, .ori ⟨.w32, 9, 6, false, .i13 0x1000⟩),
    (32, 0x2A242814, .bext ⟨.w32, 8, 1, false, .reg 9 false⟩),
    (96, 0x000000100000000026010817, .sext ⟨.w96 ⟨0, false⟩, 8, 8, false, .lit 16⟩),
    (32, 0x0403E010, .ret .w32 false),
    (32, 0x00180344, .rdms .w32 3 3),
    (32, 0x0000613C, .cmpiEq ⟨.w32, 1, 3, false, .i13 0⟩),
    (64, 0x10002001001006C6, .amoD64 ⟨.w64 ⟨1, false⟩, ⟨2, 0, false, false, .i8 0⟩, 6, false, ⟨0, false, 0⟩, 0, 1, 2, false⟩),
    (32, 0xFFF8210C, .loop .w32 1 false 0x1FFF),
    (32, 0x0600C814, .or ⟨.w32, 8, 6, false, .reg 0 false⟩),
    (32, 0x0C000010, .gbar .w32),
    (32, 0x06000010, .tend .w32)] : List (Nat × Nat × Instr)), decodeTableWord e.1 e.2.1 = some e.2.2 := by decide

/-! ### Scalar results the spec gives -/

def r3 : AluArgs := ⟨.w64 ⟨0, false⟩, 1, 2, false, .reg 3 false⟩
def ab (x y : Word) : State := at_ (task [(1, 0x1111), (2, x), (3, y)])

/-- 11:R183 saturates to the ends of i64 and n64. -/
theorem test_saturates : sOf 1 (exec (.add r3 true true) (ab 0xFFFFFFFFFFFFFFF0 0x20)) = some 0xFFFFFFFFFFFFFFFF
    ∧ sOf 1 (exec (.add r3 true false) (ab 0x7FFFFFFFFFFFFFFF 1)) = some 0x7FFFFFFFFFFFFFFF
    ∧ sOf 1 (exec (.sub r3 true false) (ab 0x8000000000000000 1)) = some 0x8000000000000000
    ∧ sOf 1 (exec (.sub r3 true true) (ab 3 5)) = some 0 ∧ sOf 1 (exec (.add r3 false false) (ab 0xFFFFFFFFFFFFFFF0 0x20)) = some 0x10 := by decide

/-- 11:R182: a shift by the width or more; a rotate modulo 64. -/
theorem test_shifts : sOf 1 (exec (.shl r3) (ab 1 64)) = some 0 ∧ sOf 1 (exec (.sra r3) (ab 0x8000000000000000 200)) = some 0xFFFFFFFFFFFFFFFF
    ∧ sOf 1 (exec (.shr r3) (ab 0x8000000000000000 63)) = some 1 ∧ sOf 1 (exec (.rol r3) (ab 0x8000000000000001 65)) = some 3
    ∧ sOf 1 (exec (.ror r3) (ab 3 1)) = some 0x8000000000000001 := by decide

/-- 11:R187: quotients truncate toward zero; −2⁶³ by −1 wraps with remainder 0; a divisor of 0 raises DIVIDE_ZERO. -/
theorem test_divides : sOf 1 (exec (.div r3) (ab 0xFFFFFFFFFFFFFFF9 2)) = some 0xFFFFFFFFFFFFFFFD
    ∧ sOf 1 (exec (.rem r3) (ab 0xFFFFFFFFFFFFFFF9 2)) = some 0xFFFFFFFFFFFFFFFF ∧ sOf 1 (exec (.remu r3) (ab 7 2)) = some 1
    ∧ sOf 1 (exec (.div r3) (ab 0x8000000000000000 0xFFFFFFFFFFFFFFFF)) = some 0x8000000000000000
    ∧ sOf 1 (exec (.rem r3) (ab 0x8000000000000000 0xFFFFFFFFFFFFFFFF)) = some 0
    ∧ causeOf (exec (.divu r3) (sup (task [(2, 7)]))) = some (BitVec.setWidth 64 cDIVIDE_ZERO) := by decide

/-- 11:R186: a field of width 0, one that meets the top, and one of 64 bits. -/
theorem test_fields : sOf 1 (exec (.bext r3) (ab 0xFFFF 0x0004)) = some 0 ∧ sOf 1 (exec (.bext r3) (ab 0x123456789ABCDEF0 0x0804)) = some 0xEF
    ∧ sOf 1 (exec (.bins r3) (ab 0xAB 0x0808)) = some 0xAB11 ∧ sOf 1 (exec (.bext r3) (ab 0x123456789ABCDEF0 0x4000)) = some 0x123456789ABCDEF0
    ∧ sOf 1 (exec (.sext r3) (ab 0x1F0 8)) = some 0xFFFFFFFFFFFFFFF0 ∧ sOf 1 (exec (.clz ⟨.w32, 1, 2, false⟩) (ab 1 0)) = some 63
    ∧ sOf 1 (exec (.ctz ⟨.w32, 1, 2, false⟩) (ab 0 0)) = some 64 := by decide

/-- 11:R187: the high halves of −1 by −1, signed, unsigned and mixed. -/
theorem test_high_products : let m : Word := 0xFFFFFFFFFFFFFFFF
    sOf 1 (exec (.mulh r3) (ab m m)) = some 0 ∧ sOf 1 (exec (.mulhu r3) (ab m m)) = some 0xFFFFFFFFFFFFFFFE
    ∧ sOf 1 (exec (.mulhsu r3) (ab m m)) = some m := by decide

/-- 11:R188: a compare writes all sixteen bits; −1 is less than 1 as a signed number and greater as an unsigned one. -/
theorem test_compares : let c : CmpArgs := ⟨.w32, 1, 2, false, .reg 3 false⟩
    pOf 1 (exec (.cmpLt c) (ab 0xFFFFFFFFFFFFFFFF 1)) = some 0xFFFF ∧ pOf 1 (exec (.cmpLtu c) (ab 0xFFFFFFFFFFFFFFFF 1)) = some 0 := by decide

/-- 11:R181: `loop` with a count of 0, 1 and 2 (offset −1 word). -/
theorem test_loop : let at4 (n : Word) : State := at_ { task [(5, n)] with pc := 8 }
    let r (n : Word) : Word × Word := let u := stateOf State.reset (exec (.loop .w32 5 false 0x1FFF) (at4 n)); (u.task.pc, u.task.getS 5)
    r 0 = (12, 0) ∧ r 1 = (12, 0) ∧ r 2 = (4, 1) := by decide

/-! ### Vector results the spec gives -/

def g0 : Form := .w64 ⟨0, false⟩

/-- 12:R202: `vadd.i8` of 100 and 50, wrapped and saturated; `vabs.i16.sat` of −32,768; 03:R61, 12:R196: only the elements under a guard. -/
theorem test_vector_integers : let t := vr (task []) [(1, 0x1111), (2, 0x8064), (3, 0x0032)]
    vOf 1 (exec (.vintVadd ⟨g0, 0, false, 1, 2, false, .reg 3 false⟩) (at_ t)) = some 0x8096
    ∧ vOf 1 (exec (.vintVadd ⟨g0, 0, true, 1, 2, false, .reg 3 false⟩) (at_ t)) = some 0x807F
    ∧ vOf 1 (exec (.vintVabs ⟨g0, 1, 0, true, 1, 2, false⟩) (at_ (vr (task []) [(2, 0x8000)]))) = some 0x7FFF
    ∧ vOf 1 (exec (.vintVadd ⟨.w64 ⟨1, false⟩, 0, false, 1, 2, false, .reg 3 false⟩) (at_ { t with p := t.p.setIfInBounds 1 1 })) = some 0x1196 := by decide

/-- 12:R205: the exact sum of the active elements, reduced once; 12:R204: the dot product of four bytes. -/
theorem test_reductions : vOf 1 (exec (.vintVsum ⟨g0, 0, 0, true, 1, 2, false⟩) (at_ (vr (task []) [(1, 7), (2, 0x9C64_6464)]))) = some 0x7F
    ∧ vOf 1 (exec (.vdot4 ⟨g0, 0, false, 1, 2, false, .reg 3 false⟩) (at_ (vr (task []) [(1, 5), (2, 0x04FE_0201), (3, 0x0303_0303)]))) = some 0x14 := by decide

/-- 03:R64: the last of ten iterations, with 36 and 37. 12:R211: an index beyond the register gives zero. -/
theorem test_predicates_and_moves : pOf 1 (exec (.vwhile ⟨0, false⟩ 2 1 6 false 7 false) (at_ (task [(6, 36), (7, 37)]))) = some 0x000F
    ∧ sOf 4 (exec (.pcnt 8 4 0) (at_ (task []))) = some 4
    ∧ vOf 1 (exec (.vperm ⟨g0, 6, 1, 2, false, 3, false⟩) (at_ (vr (task []) [(2, 0x44_00000033_00000022_00000011), (3, 0x00000009_00000000_00000001_00000003)])))
      = some 0x00000000_00000011_00000022_00000044 := by decide

/-- 12:R200: the worked example of `fmt a=bf16, b=bf16, q1` and `vfma.f32 v4, v5, v6, v4`. -/
theorem test_prefixed_fma : let t := vr (task []) [(5, 0x40403F00C0003FC00000000000000000), (6, 0x3F80C0803E8040000000000000000000), (4, 0x3F8000003F8000003F8000003F800000)]
    vOf 4 (exec (.vfma ⟨g0, 8, 0, false, 4, 5, false, 6, false, 4, false⟩) (at_ { t with fpend := true, fmtword := 0xAAA40000 }))
      = some 0x40800000BF8000003F00000040800000 := by decide

def cvtT : Task := vr (task []) [(0, 0x43EB000043E60000C02000003F800000), (1, 0x7F8000007FC000003A83126F39800000),
  (2, 0x000000003E99999A4040000080000000), (8, 0x55555555555555555555555555555555)]

/-- 12:R213: the worked example of `cvt.e4m3 v8, v0, f32, s12`, whole and with p1 = 0x00FF. -/
theorem test_cvt : vOf 8 (exec (.cvt ⟨g0, 0x0C, 8, 0, false, 0, some 12, 8, 0, false⟩) (at_ cvtT)) = some 0x00000000002A44807E7F01007E7EC238
    ∧ sOf 12 (exec (.cvt ⟨g0, 0x0C, 8, 0, false, 0, some 12, 8, 0, false⟩) (at_ cvtT)) = some 0x0201
    ∧ vOf 8 (exec (.cvt ⟨.w64 ⟨1, false⟩, 0x0C, 8, 0, false, 0, some 12, 8, 0, false⟩) (at_ { cvtT with p := cvtT.p.setIfInBounds 1 0x00FF })) = some 0x55555555555555557E7F01007E7EC238
    ∧ sOf 12 (exec (.cvt ⟨.w64 ⟨1, false⟩, 0x0C, 8, 0, false, 0, some 12, 8, 0, false⟩) (at_ { cvtT with p := cvtT.p.setIfInBounds 1 0x00FF })) = some 0x0201 := by decide

def mxT : Task := vr (task []) [(0, 0xBEE666663E99999A3ECCCCCD41500000), (1, 0x3E4CCCCD)]

/-- 04:R77, R78, 12:R214: the block of the worked example, balanced and standard. -/
theorem test_cvt_mx : vOf 8 (exec (.cvtMx ⟨g0, 0x15, 8, 0, false, true, 12, 8, 0, false⟩) (at_ mxT)) = some 0x9117
    ∧ sOf 12 (exec (.cvtMx ⟨g0, 0x15, 8, 0, false, true, 12, 8, 0, false⟩) (at_ mxT)) = some 0x007F0101
    ∧ vOf 8 (exec (.cvtMx ⟨g0, 0x15, 8, 0, false, false, 12, 8, 0, false⟩) (at_ mxT)) = some 0x8007
    ∧ sOf 12 (exec (.cvtMx ⟨g0, 0x15, 8, 0, false, false, 12, 8, 0, false⟩) (at_ mxT)) = some 0x00800004 := by decide

/-- 04:R71, R73, R74: the E4M3 neighbours of 448 under `rne`, and 2⁻¹² under `rup` and `rne`. -/
theorem test_rounding : let f (x : Nat) (r : Rnd) : Rounded := e4m3.round r false (f32.decode x)
    f 0x43E60000 0 = ⟨0x7E, false, false⟩ ∧ f 0x43E80000 0 = ⟨0x7E, false, false⟩ ∧ f 0x43EB0000 0 = ⟨0x7E, true, false⟩
    ∧ f 0x39800000 2 = ⟨0x01, false, false⟩ ∧ f 0x39800000 0 = ⟨0x00, false, true⟩ := by decide

/-! ### Memory, control and traps -/

/-- A task with the scratchpad window in g1. -/
def mt (s : List (Nat × Word)) : Task := sg (task s) [(1, segW 1 0 0 0xFFFF)]
def withMem (s : State) (off : Nat) (bs : List Byte) : State := { s with mem := memWrite s.mem (spBase 0 0 + off) bs }
def m1 (d : BitVec 8) : MemOp := ⟨1, 0, false, false, .i8 d⟩
def spNat (o : Out) (off n : Nat) : Option Nat :=
  match o with
  | .next u => some (leNat (memRead u.mem (spBase 0 0 + off) n))
  | _ => none

/-- 13:R221: `st.d4 [g1 + s4], s7` with s4 = 0x801 and s7 = 5 writes the high nibble of byte 0x400. -/
theorem test_nibble_store : spNat (exec (.stD4 ⟨.w32, ⟨1, 4, false, false, .i8 0⟩, 7, false, ⟨0, false, 0⟩⟩) (withMem (at_ (mt [(4, 0x801), (7, 5)])) 0x400 [0xAB])) 0x400 1
    = some 0x5B := by decide

/-- 13:R220: a byte is zero-extended, or sign-extended; R221: bytes are stored lowest first; R219: an offset past the limit faults. -/
theorem test_loads_and_stores : let s := withMem (at_ (mt [(7, 0x0102030405060788)])) 16 [0x80, 0x01]
    sOf 5 (exec (.ldD8 ⟨g0, m1 16, 5, ⟨0, false, 0⟩, false⟩) s) = some 0x80 ∧ sOf 5 (exec (.ldD8 ⟨g0, m1 16, 5, ⟨0, false, 0⟩, true⟩) s) = some 0xFFFFFFFFFFFFFF80
    ∧ sOf 5 (exec (.ldD16 ⟨g0, m1 16, 5, ⟨0, false, 0⟩, true⟩) s) = some 0x180
    ∧ spNat (exec (.stD16 ⟨g0, m1 20, 7, false, ⟨0, false, 0⟩⟩) s) 20 4 = some 0x0788
    ∧ causeOf (exec (.ldD64 ⟨g0, ⟨1, 4, false, false, .i8 0⟩, 5, ⟨0, false, 0⟩, false⟩) (sup (mt [(4, 0xFFF9)]))) ≠ some 0 := by decide

/-- 13:R227: an atomic reads the old word and writes the new one; the unsigned minimum; a compare that fails writes nothing new. -/
theorem test_atomics : let s := withMem (at_ (mt [(5, 7), (6, 0xFFFFFFFFFFFFFFFF)])) 8 [5]
    let o (op : BitVec 4) (c : Reg) : AmoArgs := ⟨g0, m1 8, 5, false, ⟨0, false, 0⟩, 0, op, c, false⟩
    spNat (exec (.amoD64 (o 1 6)) s) 8 8 = some 4 ∧ sOf 5 (exec (.amoD64 (o 1 6)) s) = some 5 ∧ spNat (exec (.amoD64 (o 7 6)) s) 8 8 = some 5
    ∧ spNat (exec (.amoD64 (o 5 6)) s) 8 8 = some 0xFFFFFFFFFFFFFFFF ∧ spNat (exec (.amoD64 (o 9 6)) s) 8 8 = some 5 := by decide

/-- 13:R234, R235: the first `fork` of the worked example: the parent's s7, the counter, and the child's pc and argument. -/
theorem test_fork : let s0 := withMem (at_ (mt [(2, 30)])) 16 (leBytes 8 0x400000000 ++ leBytes 8 8 ++ leBytes 8 30)
    let s := { s0 with cald := { s0.cald with serials := s0.cald.serials.setIfInBounds 0 0x101 } }
    let o := exec (.fork .w32 (m1 16) 7) s
    sOf 7 o = some 0x101 ∧ spNat o 8 8 = some 1 ∧ ((stateOf s o).deque 0 0).map (fun t => (t.gtid, t.pc, t.getS 1)) = [(0x101, 0, 30)]
      ∧ (stateOf s o).feFull (spBase 0 0 + 8) = false := by decide

/-- 13:R230: with `sge`, 0xFFFF_FFFE in sT and 1 in the word, the difference is 3 and the condition holds; `eq` parks at row 5. -/
theorem test_waddr : let s := withMem (at_ (mt [(5, 0xFFFFFFFE)])) 32 [1]
    sOf 5 (exec (.waddr ⟨g0, m1 32, 5, false, false, 0, 2, false, false⟩) s) = some 1
    ∧ (stateOf s (exec (.waddr ⟨g0, m1 32, 5, false, false, 0, 1, false, false⟩) s)).task.run = .parked 5 (.watch (spBase 0 0 + 32) 4 1 1 0xFFFFFFFE) := by decide

/-- 14:R256: slots 4, 5 and 7 live, with the stop sets {2}, {2, 77} and {}; v2 holds tokens 2, 77, 2 and 2 from lane 0, and s6 is 4. -/
theorem test_stoptest : let q (l : List (BitVec 32)) : Seq := ⟨1, 1, l⟩
    let x : StepQ := { root := [], sched := 0, pool := 0, npages := 0, pglog := 0, adm := 0, cring := 0, plarea := 0, phase := .running 1, desc := [(4, q [2]), (5, q [2, 77]), (7, q [])] }
    let t : Task := vr (task [(6, 4)]) [(2, 0x00000002000000020000004D00000002)]
    sOf 5 (exec (.stoptest ⟨.w32, 5, 2, false, 6, false⟩) (atP { part0 with stepq := some x } { t with step := some 1 })) = some 3 := by decide

/-- 18:R278, 17:R273: `trap 5` enters the handler with cause 7, detail 5 and the next pc. -/
theorem test_trap : let s := sup { task [] with pc := 0x40 }
    let u := stateOf s (exec (.trap .w32 5) s)
    u.task.tr.cause = 0x500000007 ∧ u.task.tr.pc = 0x44 ∧ u.task.pc = 0 ∧ u.task.priv = .supervisor := by decide

/-- 10:R166: with its guard false an instruction does nothing; 03:R49: an empty source with its bit set raises EMPTY_REG. -/
theorem test_guards_and_empty : sOf 1 (exec (.add ⟨.w64 ⟨0, true⟩, 1, 2, false, .reg 3 false⟩ false false) (ab 1 2)) = some 0x1111
    ∧ causeOf (exec (.add ⟨.w32, 1, 2, true, .reg 3 false⟩ false false) (sup { task [] with sFull := ~~~4 })) = some (BitVec.setWidth 64 cEMPTY_REG) := by decide

/-! Page tables: virtual pages 0 to 15 of partition 0 at 0x30000, and a ring of sixteen records at virtual 0xF000 -/

def node (n : Nat) : List Byte := leBytes 8 (2 ^ 63 + n)
def leafs (pa n : Nat) : List Byte := (List.range n).flatMap fun i => leBytes 8 (2 ^ 63 + 7 * 2 ^ 58 + 2 ^ 57 + (pa + 4096 * i))
def tables : Mem := memWrite (memWrite (memWrite (memWrite [] 0x10000 (node 0x20000)) 0x20000 (node 0x21000)) 0x21000 (node 0x22000)) 0x22000 (leafs 0x30000 16)
def partP : Partition := { part0 with ptroot := 0x10000, saveArea := 0x4000, stackMask := 0xFF }
def onPages (p : Partition) (t : Task) : State := { atP p t with mem := tables }

/-! ### States and operands that meet the hypotheses of the statements -/

def rl : AluArgs := ⟨.w96 ⟨0, false⟩, 1, 2, false, .lit 0xFFFFFFFF⟩
def meetsAlu (s : State) (o : AluArgs) : Bool := s.performs o.f [.s o.d] (.s o.a :: o.b.reads.map (·.1))

theorem test_meets_ScalarResults : meetsAlu (ab 5 7) r3 = true ∧ meetsAlu (ab 5 64) rl = true ∧ meetsAlu (ab 0x8000000000000000 0xFFFFFFFFFFFFFFFF) r3 = true
    ∧ (ab 1 1).performs .w32 [.s 0] [.s 2] = true := by decide

theorem test_meets_BitFieldsAndDivision : (ab 0 0).performs .w32 [.s 1] [.s 2] = true ∧ meetsAlu (ab 5 0x4040) r3 = true ∧ meetsAlu (ab 5 0) r3 = true
    ∧ (ab 5 0).task.getS 3 = 0 ∧ (ab 5 7).task.getS 3 ≠ 0 := by decide

theorem test_meets_CompareAndPredicateResults : (ab 5 7).performs .w32 [] [.s 2, .s 3] = true ∧ (ab 5 7).performs (.w96 ⟨0, true⟩) [] [.s 2] = false
    ∧ (ab 5 7).performs (.w96 ⟨0, false⟩) [] [.s 2] = true ∧ (ab 5 7).task.fpend = false ∧ (ab 5 7).task.stepping = false := by decide

theorem test_meets_BranchResults : let s := at_ (task [(5, 2), (6, 12), (31, 0)])
    let w := atP (State.fetchPart 16) (task [])
    s.performsG ⟨0, false⟩ [] [] = true ∧ s.performsG ⟨0, false⟩ [.s 31] [] = true ∧ s.task.fpend = false ∧ s.task.stepping = false
    ∧ s.performs .w32 [.s 5] [.s 5] = true ∧ s.performs .w32 [.s 31] [.s 5] = true ∧ s.performs .w32 [] [.s 31] = true
    ∧ s.landsAt (s.task.getS 31) = true ∧ s.landsAt (s.task.getS 6) = false
    ∧ (s.codeOf? s.task).map (fun c => decide (12 < c.len)) = some false ∧ w.performsG ⟨0, false⟩ [] [] = true
    ∧ (w.codeOf? w.task).map (fun c => (decide (12 < c.len), c.rmap.all fun b => b.off != 12)) = some (true, true) := by decide

theorem test_meets_GuardsPrefixesAndPrivilege : let s := at_ (task [])
    s.task.guard0 ⟨1, false⟩ = false ∧ s.task.guard0 ⟨0, true⟩ = false ∧ Instr.guarded (.add r3 false false) = some (⟨0, false⟩, 8) ∧ s.task.fpend = false
    ∧ s.task.stepping = false ∧ s.task.priv = .task ∧ Instr.isPrivileged (.termclr .w32) = true
    ∧ (at_ { task [] with fpend := true }).task.fpend = true ∧ Instr.laned (.vsel ⟨.w32, 4, 1, 2, false, 3, false⟩) = true := by decide

def emptyT (f e : BitVec 32) : Task := { task [] with sFull := f, sErr := e }
theorem test_meets_EmptyRegisters : let t := emptyT (~~~2) 0
    let e := emptyT (BitVec.allOnes 32) 4
    let a := emptyT (~~~4) 0
    let b := emptyT (~~~12) 0
    (t.full (.s 1) = false) ∧ (e.full (.s 1) = true ∧ e.err (.s 2) = true) ∧ (a.full (.s 1) = true ∧ a.full (.s 2) = false ∧ a.err (.s 2) = false ∧ a.err (.s 3) = false ∧ a.full (.s 3) = true)
    ∧ (b.full (.s 1) = true ∧ b.full (.s 2) = false ∧ b.full (.s 3) = false) ∧ r3.b = .reg 3 false ∧ (at_ t).task.fpend = false
    ∧ (at_ t).task.guard0 r3.f.guard = true ∧ (at_ t).task.stepping = false := by decide

theorem test_meets_FixedRegisters : (31 : Reg) ≠ 0 ∧ (1 : Reg) ≠ 0 ∧ (7 : BitVec 3) ≠ 0 := by decide

theorem test_meets_StatusRegisters : let t := at_ (task [])
    let s := at_ { task [(4, 1)] with priv := .supervisor }
    t.performs .w32 [.s 1] [] = true ∧ t.task.priv = .task ∧ s.performs .w32 [.s 1] [] = true ∧ s.performs .w32 [] [.s 4] = true ∧ s.task.priv = .supervisor := by decide

def gT (l a b : Word) : State := at_ { sg (task [(2, l), (3, a), (4, b)]) [(1, segW 1 0 64 0xFF), (2, segW 3 1 0 0xFF)] with priv := .supervisor }
def gWord (g : VWord) : State := gT 0 (g.setWidth 64) ((g >>> 64).setWidth 64)
theorem test_meets_SegmentResults : (gT 0 0 0).performs .w32 [.s 1] [] = true
    ∧ (∀ n : Nat, n < 3 → let r : Raw := ⟨.l32, 0x13, BitVec.ofNat 24 (4 + 2 * 2 ^ 5 + n * 2 ^ 10 + 2 ^ 17), 0, 0⟩; r.len ≠ .l96 ∧ (RFields.read r.body).minor = 1 ∧ (RFields.read r.body).b.toNat = n)
    ∧ (gT 0xFF 0 0).performs .w32 [] [.s 2] = true ∧ (gT 0x100 0x10 0).performs g0 [] [.s 2, .s 3] = true
    ∧ (segOf ((gT 0x100 0 0).task.getG 1)).limit < 0x100 ∧ ¬ (segOf ((gT 0xFF 0 0).task.getG 1)).limit < 0xFF ∧ (segOf ((gT 0 0 0).task.getG 0)).space = 0
    ∧ (gT 0 0 0).performs .w32 [] [.s 3, .s 4] = true ∧ (gT 0 0 0).task.priv = .supervisor
    ∧ (let g : VWord := segW 7 0 0 0; 7 ≤ (segOf g).space) ∧ (let g : VWord := segW 3 1 0 0; (gWord g).tilesOf 0 ≤ (segOf g).target)
    ∧ (let g : VWord := segW 1 1 0 0; (segOf g).target ≠ 0) ∧ (let g : VWord := segW 1 0 0 0x200001; spaceBound 1 < (segOf g).base + (segOf g).limit)
    ∧ (let g : VWord := segW 1 0 0 0x200000; ¬ spaceBound 1 < (segOf g).base + (segOf g).limit) ∧ (segW 1 0 0 0).toNat / 2 ^ 104 % 64 = 0 := by decide

theorem test_meets_SupervisorEntry : (sup (task [])).handled = true ∧ isTrustCause cDIVIDE_ZERO = false ∧ isDebugCause cDIVIDE_ZERO = false
    ∧ (sup { task [] with fpend := true }).handled = true := by decide

theorem test_meets_SoftwareTrapsAndRecords : let s := sup (task [(3, 5)])
    s.performs .w32 [] [] = true ∧ s.handled = true ∧ ((s.partOf? s.task.part).bind (·.dbg.session)) = none ∧ s.performs .w32 [] [.s 3] = true
    ∧ (sup { task [] with priv := .supervisor }).performs .w32 [] [] = true := by decide

theorem test_meets_TermCounterReads : (at_ (task [])).performs .w32 [.s 4] [] = true ∧ (0x33 : BitVec 6).toNat < 0x34 ∧ ¬ (0x34 : BitVec 6).toNat < 0x34 := by decide

def retT (k : Task) : State := sup { k with priv := .supervisor }
theorem test_meets_TrapReturn : let a := retT (task [])
    let b := retT { task [] with tr := { pc := 12 } }
    let c := retT { task [] with tr := { status := 1 } }
    let f := retT (task [])
    (∀ s ∈ [a, b, c], s.performs .w32 [] [] = true ∧ s.task.priv = .supervisor)
    ∧ (((a.capsule? 0 1).bind fun c => c.rmap.find? fun b => b.off == 0).map (·.kind)) = some 0 ∧ ((b.capsule? 0 1).bind fun c => c.rmap.find? fun b => b.off == 12) = none
    ∧ c.task.tr.status.getLsbD 0 = true
    ∧ (let s := sup { task [] with priv := .firmware, fwCall := some ⟨5, 0, 3, some 0⟩ }; s.performs .w32 [] [] = true ∧ s.task.priv = .firmware ∧ s.task.fwCall = some ⟨5, 0, 3, some 0⟩)
    ∧ f.performs .w32 [.s 3] [.s 1, .s 2] = true ∧ knownService 5 = true ∧ knownService 0xFF = false := by decide

/-! Vectors -/
theorem test_meets_VectorIntegerResults : let s := at_ (task [])
    s.vperforms [.v 1] [.v 2, .v 3] = true ∧ s.vperforms [.v 1] [.v 2] = true ∧ s.vperforms [] [.v 2, .v 3] = true
    ∧ (∀ ty ∈ ([0, 1, 2, 3, 4, 5, 6, 7] : List (BitVec 5)), isInt ty = true) ∧ isSigned 3 = true ∧ isSigned 4 = false := by decide

theorem test_meets_VectorReductionsAndMoves : let s := at_ (task [(6, 36), (7, 37)])
    s.vperforms [.v 1] [.v 2, .v 3] = true ∧ s.vperforms [.v 1] [.v 2] = true ∧ s.vperforms [] [.s 6, .s 7] = true ∧ s.vperforms [.s 4] [] = true
    ∧ s.vperforms [.v 1] [.s 6] = true ∧ isElem 0x16 = true ∧ (3 : BitVec 5).toNat < lanesOf 6 ∧ s.performs .w32 [.v 1] [.s 6] = true
    ∧ s.performs .w32 [.s 1] [.v 2] = true := by decide

theorem test_meets_VectorFloatResults : let s := at_ (task [])
    s.vperforms [.v 1] [.v 2, .v 3] = true ∧ s.vperforms [.v 1] [.v 2] = true ∧ s.vperforms [] [.v 2, .v 3] = true ∧ isFp 8 = true ∧ isFp 0x0A = true
    ∧ s.vperforms [.v 4] [.v 5, .v 6, .v 4] = true := by decide

theorem test_meets_EncodingsRoundToThemselves : e4m3.decode 0x7E ≠ .nan ∧ 0x7E < 2 ^ (1 + e4m3.eb + e4m3.mb) ∧ e4m3.decode 0x7F = .nan
    ∧ 0x7F < 2 ^ (1 + e4m3.eb + e4m3.mb) ∧ e2m1.decode 0xF ≠ .nan := by decide
theorem test_meets_EncodingsRoundToThemselves_scale : (0 : Nat) < 256 ∧ (254 : Nat) < 256 ∧ (255 : Nat) < 256 := by decide

def prefixed (fa part sv : Nat) : State :=
  at_ { task [] with fpend := true, fmtword := BitVec.ofNat 32 (2 ^ 31 + fa * 2 ^ 26 + part * 2 ^ 18 + (if isMx (BitVec.ofNat 5 fa) then 2 else 0) * 2 ^ 16
    + (if isMx (BitVec.ofNat 5 fa) then sv else 0) * 8) }
theorem test_meets_PrefixedOperands : (prefixed 0x0A 1 0).task.fmtword = 0xA8040000 ∧ (prefixed 0x0A 1 0).task.fpend = true ∧ isFp 8 = true
    ∧ (prefixed 0x0A 1 0).readable [.v 1] [.v 2, .v 3] = true ∧ widens 8 0x0A = true ∧ 1 * lanesOf 8 + lanesOf 8 ≤ lanesOf 0x0A
    ∧ ¬ (2 * lanesOf 8 + lanesOf 8 ≤ lanesOf 0x0A) ∧ widens 9 8 = false ∧ isMx 0x12 = true ∧ widens 8 0x12 = true
    ∧ (prefixed 0x12 3 0xFF).readable [.v 1] [.v 2, .v 3] = true := by decide

theorem test_meets_ConvertResults : let s := at_ cvtT
    s.vperforms [.v 8, .s 12] ((List.range (cvtGroup 0x0C 8)).map fun i => .v (0 + BitVec.ofNat 5 i)) = true ∧ cvtGroup 0x0C 8 = 4
    ∧ s.vperforms [.v 8] ((List.range (cvtGroup 2 0)).map fun i => .v (0 + BitVec.ofNat 5 i)) = true ∧ cvtGroup 2 0 = 1 := by decide

def sfuT : State := atP { part0 with pools := [(3, { created := 8, capacity := 8 })] } (task [])
theorem test_meets_QuantisationAndSpecialFunctions : let s := at_ mxT
    s.vperforms ([.v 8] ++ [.s 12]) ((List.range (mxGroup 8)).map fun i => .v (0 + BitVec.ofNat 5 i)) = true ∧ mxExp 0x15 [(f32.decode 0x41500000)] = some 1
    ∧ (∀ v ∈ [f32.decode 0x41500000], v.isFin = true) ∧ f32.decode 0x7F800000 = .inf false
    ∧ sfuT.vperforms [.v 1] [.v 2] = true ∧ 0 < sfuT.poolFree 0 (State.poolKey 0 3) ∧ sfuT.firstInPool sfuT.task (State.poolKey 0 3) = true
    ∧ (let h := atP part0 { task [] with tokens := #v[0, 0, 0, 1] }; h.holdsFree h.task 3 = true) := by decide

/-! Memory -/

def x1 : Segment := segOf (segW 1 0 0 0xFFFF)
def x2 : Segment := segOf (segW 3 0 0 0xFFFF)
def x4 : Segment := segOf (segW 4 0 0 (2 ^ 40))
def mtc : Task := sg (task [(4, 0x801), (5, 9), (6, 3), (7, 5)]) [(1, segW 1 0 0 0xFFFF), (2, segW 3 0 0 0xFFFF), (4, segW 4 0 0 (2 ^ 40))]
def ms : State := at_ mtc

theorem test_meets_LocalLoads : ms.performs g0 [.s 5] ((m1 16).reads.map (·.1)) = true ∧ ms.performs g0 [.v 5] ((m1 16).reads.map (·.1)) = true
    ∧ (m1 16).offset ms.task = 16 ∧ ms.check 1 16 8 { rd := true } [1, 2, 3, 6] 8 [4, 16] = .ok (x1, 16) ∧ ms.check 1 (0xFFFF - 1) 1 { rd := true } [1, 2, 3, 6] 1 [4, 16] = .ok (x1, 0xFFFE)
    ∧ ms.atOnce x1 16 8 1 ∧ ms.atOnce x1 16 8 9 ∧ ms.check 1 16 8 { rd := true } [1, 3] 8 [] = .ok (x1, 16) ∧ ms.feFull (ms.tileMem x1 16) = true := by
  unfold State.atOnce; decide

theorem test_meets_LocalStores : let e := { ms with feEmpty := [spBase 0 0 + 16] }
    ms.memOk ∧ ms.releaseWaits ms.task.gtid = false ∧ ms.performs g0 [] ((m1 16).reads.map (·.1) ++ [.s 7]) = true ∧ ms.performs g0 [] ((m1 16).reads.map (·.1) ++ [.v 7]) = true
    ∧ ms.check 1 16 16 { wr := true } [1, 2, 3, 6] 16 [4, 16] = .ok (x1, 16) ∧ ms.atOnce x1 16 16 2 ∧ ms.check 1 0x400 1 { wr := true } [1, 2, 3, 6] 1 [] = .ok (x1, 0x400)
    ∧ ms.atOnce x1 0x400 1 2 ∧ ms.check 1 16 8 { wr := true } [1, 3] 8 [] = .ok (x1, 16) ∧ ms.atOnce x1 16 8 10 ∧ e.feFull (e.tileMem x1 16) = false ∧ e.atOnce x1 16 8 10 := by
  unfold State.atOnce State.memOk; decide

theorem test_meets_LocalAtomics : ms.memOk ∧ ms.releaseWaits ms.task.gtid = false ∧ ms.performs g0 [.s 5] ((m1 16).reads.map (·.1) ++ [.s 6] ++ [.s 5]) = true
    ∧ ms.check 1 16 8 { at_ := true } [1, 2, 3, 4, 6] 8 [4] = .ok (x1, 16) ∧ ms.check 1 20 4 { at_ := true } [1, 2, 3, 4, 6] 4 [4] = .ok (x1, 20) ∧ ms.atOnce x1 16 8 4 := by
  unfold State.atOnce State.memOk; decide

def acc0 (op : AccOp) (place : Place) (dst : Option RegId) (st : AccState) : Acc := { tag := 7, owner := 1, key := 0, part := 0, op := op, place := place, dst := dst, st := st }
theorem test_meets_RemoteAccesses : let a : Acc := { acc0 (.feRead false) (.tile false 0 16) none (.answered 9) with waits := true }
    let w := { ms with net := { ms.net with accs := [a] } }
    3 ≤ x2.space ∧ x2.space ≠ 4 ∧ ms.performs g0 [.s 5] ((m1 16).reads.map (·.1)) = true ∧ ms.check 2 16 8 { rd := true } [1, 2, 3, 6] 8 [4, 16] = .ok (x2, 16)
    ∧ ms.performs g0 [] ((m1 16).reads.map (·.1) ++ [.s 7]) = true ∧ ms.check 2 16 8 { wr := true } [1, 2, 3, 6] 8 [4, 16] = .ok (x2, 16)
    ∧ ms.check 2 0x400 1 { wr := true } [1, 2, 3, 6] 1 [] = .ok (x2, 0x400) ∧ ms.check 2 16 8 { at_ := true } [1, 2, 3, 4, 6] 8 [4] = .ok (x2, 16)
    ∧ ms.check 2 16 8 { wr := true } [1, 3] 8 [] = .ok (x2, 16) ∧ ms.check 2 16 8 { rd := true } [1, 3] 8 [] = .ok (x2, 16)
    ∧ ms.waitedFor ms.task.gtid (.feRead false) 0 16 = none ∧ w.waitedFor w.task.gtid (.feRead false) 0 16 = some a := by decide

def tlbE : TlbEntry := { part := 0, vbase := 0x1000, size := 4096, pbase := 0x2000, kind := 0, r := true, w := true, a := true, mig := 0, expiry := 1000 }
def msX : State := { ms with mmu := { ms.mmu with tlb1 := [(0, [tlbE])] } }
def msF : State := { msX with parts := [(0, { part0 with slots := 1 })], net := { msX.net with accs := [acc0 (.load 8 false) (.ext 4 3 0x1000 [⟨0x2000, 8, 0⟩]) none .flying] } }
theorem test_meets_QueuedAccesses : x4.space = 4 ∧ ms.performs g0 [.s 5] ((⟨4, 0, false, false, .i8 0⟩ : MemOp).reads.map (·.1)) = true
    ∧ msX.check 4 0x1008 8 { rd := true } [4, 5] 1 [] = .ok (x4, 0x1008) ∧ msX.check 4 0x1008 8 { wr := true } [4, 5] 1 [] = .ok (x4, 0x1008)
    ∧ msX.check 4 0x1008 8 { at_ := true } [1, 2, 3, 4, 6] 8 [4] = .ok (x4, 0x1008) ∧ ms.extPieces ms.task 4 0x1008 8 1 = .miss 0x1008
    ∧ msX.extPieces msX.task 4 0x1008 8 1 = .pieces [⟨0x2008, 8, 0⟩] ∧ msX.domainHolds 0 [⟨0x2008, 8, 0⟩] = false ∧ msX.queueRoom 0 0 3 = true
    ∧ msX.unperformed 1 = false ∧ msX.watchHits 0 2 0 0x1008 8 2 1 = []
    ∧ msF.queueRoom 0 0 3 = false ∧ msF.extPieces msF.task 4 0x1008 8 1 = .pieces [⟨0x2008, 8, 0⟩] ∧ msF.performs g0 [.s 5] ((m1 0).reads.map (·.1)) = true := by
  decide +kernel

theorem test_meets_SequentialOperations : let o : ScOp := { tag := 7, owner := 1, key := 0, part := 0, cycle := 40, op := .store 8 5, place := .tile false 0 16, dst := none, len := 8, pinc := none }
    let s := { ms with net := { ms.net with scOps := [o] }, cycle := 160 }
    ms.performs g0 [.s 5] ((m1 16).reads.map (·.1)) = true ∧ ms.check 1 16 8 { rd := true } [1, 2, 3, 6] 8 [4, 16] = .ok (x1, 16)
    ∧ ms.performs g0 [] ((m1 16).reads.map (·.1) ++ [.s 7]) = true ∧ ms.check 1 16 8 { wr := true } [1, 2, 3, 6] 8 [4, 16] = .ok (x1, 16)
    ∧ ms.check 1 16 8 { at_ := true } [1, 2, 3, 4, 6] 8 [4] = .ok (x1, 16) ∧ x1.space ≠ 4 ∧ s.net.scOps = [o] ∧ (s.taskAt o.key).gtid = o.owner
    ∧ (s.taskAt o.key).stepping = false ∧ s.watchHits 0 (ofBool false) 0 16 8 2 1 = [] ∧ ¬ s.cycle < 32 * (o.cycle / 32) + 128 ∧ 159 < 32 * (o.cycle / 32) + 128 := by decide

def forkS : State := withMem ms 16 (leBytes 8 0x400000000 ++ leBytes 8 8 ++ leBytes 8 30)
theorem test_meets_ForkedTasks : forkS.memOk ∧ forkS.performs .w32 [.s 7] ((m1 16).reads.map (·.1)) = true ∧ forkS.check 1 16 48 { rd := true } [1] 16 [] = .ok (x1, 16)
    ∧ forkS.localWaits forkS.task false 16 48 = false ∧ leNat (memRead forkS.mem (forkS.tileMem x1 16) 8) = 0x400000000
    ∧ leNat (memRead forkS.mem (forkS.tileMem x1 16 + 8) 8) = 8 ∧ 0x400000000 < 2 ^ 37 ∧ 0x400000000 / 2 ^ 34 = 1 ∧ (forkS.codeOf? forkS.task).any (fun c => c.lands 0) = true
    ∧ forkS.check 1 8 8 { rd := true, wr := true } [1, 3] 8 [] = .ok (x1, 8) ∧ x1.space = 1 ∧ forkS.dequeRoom 0 0 = true ∧ forkS.releaseWaits 1 = false := by
  unfold State.memOk; decide

theorem test_meets_WatchedWords : ms.performs g0 [] ((m1 16).reads.map (·.1) ++ [.s 5]) = true ∧ ms.check 1 16 8 { rd := true } [1, 3, 4, 5] 8 [] = .ok (x1, 16)
    ∧ ms.check 1 16 4 { rd := true } [1, 3, 4, 5] 4 [] = .ok (x1, 16) ∧ ms.localWaits ms.task false 16 8 = false ∧ leNat (memRead ms.mem (ms.tileMem x1 16) 8) = 0
    ∧ (ms.task.getS 5).toNat = 9 ∧ ¬ (0 ≤ (BitVec.ofNat 64 0 - BitVec.ofNat 64 9).toInt) ∧ 0 ≤ (BitVec.ofNat 32 1 - BitVec.ofNat 32 0xFFFFFFFE).toInt := by decide

/-! Fences, gangs, messages, semaphores, tokens -/

theorem test_meets_FencesWaitsAndYields : let r := { ms with net := { ms.net with accs := [acc0 (.load 8 false) (.tile false 0 16) (some (.s 9)) .flying] } }
    let j := at_ { mtc with join := some (spBase 0 0 + 8) }
    let g := at_ { mtc with gang := some 1 }
    ms.performs g0 [] [] = true ∧ ms.outstanding 1 = false ∧ ms.unperformed 1 = false ∧ ms.memOk ∧ r.performs g0 [] [] = true ∧ r.outstanding 1 = true
    ∧ j.performs g0 [] [] = true ∧ j.task.join = some (spBase 0 0 + 8) ∧ j.outstanding 1 = false
    ∧ ms.task.gang = none ∧ ms.task.priv = .task ∧ ms.dequeRoom 0 0 = true ∧ g.performs g0 [] [] = true ∧ g.task.gang ≠ none
    ∧ (ms.partOf? 0).map (·.pol) ≠ some true := by
  unfold State.memOk; decide

def gangS (g : Gang) (t : Task) : State := let s := at_ { t with gang := some 1, grank := 0, gsize := 2 }; { s with cald := { s.cald with gangs := [(1, g)] } }
theorem test_meets_GangBarrier : let g : Gang := { part := 0, size := 2, live := [0, 1], members := [1, 2] }
    let a := gangS g mtc
    let l := gangS { g with arrived := [1] } mtc
    let w := gangS g { mtc with atBarrier := true, barriers := 1 }
    let d := gangS { g with completed := 1 } { mtc with atBarrier := true, barriers := 1 }
    ms.performs .w32 [] [] = true ∧ ms.task.gang = none
    ∧ a.performs .w32 [] [] = true ∧ a.task.gang = some 1 ∧ mapGet a.cald.gangs 1 = some g ∧ a.task.atBarrier = false ∧ a.unperformed 1 = false ∧ g.completed = a.task.barriers
    ∧ ¬ (∀ r ∈ g.live, r = a.task.grank ∨ r ∈ g.arrived) ∧ (∀ r ∈ g.live, r = l.task.grank ∨ r ∈ [1]) ∧ l.performs .w32 [] [] = true
    ∧ w.performs .w32 [] [] = true ∧ w.task.atBarrier = true ∧ ¬ (w.task.barriers ≤ 0) ∧ d.performs .w32 [] [] = true ∧ d.task.barriers ≤ 1 := by decide

def msg0 : Msg := { tag := 5, src := 2, srcCore := 0, srcRank := 1, gang := 1, dst := 1, dstKey := 0, dstRank := 0, ch := 0, mreg := 3, data := 42 }
theorem test_meets_GangMessages : let g : Gang := { part := 0, size := 2, live := [0, 1], members := [1, 2] }
    let s := gangS g { task [(6, 0x300001), (7, 2)] with mFull := 1 }
    let m := { s with net := { s.net with msgs := [msg0] } }
    s.performs .w32 [] [.v 2, .s 6] = true ∧ (s.task.getS 6).toNat % 2 ^ 14 = 1 ∧ s.task.gsize ≤ (s.task.getS 7).toNat % 2 ^ 14 ∧ s.performs .w32 [] [.v 2, .s 7] = true
    ∧ (s.task.gang.bind fun id => mapGet s.cald.gangs id) = some g ∧ g.members[1]? = some 2 ∧ s.sendRoom 0 0 = true ∧ s.releaseWaits 1 = false
    ∧ s.performs .w32 [.v 1] [.m 0] = true ∧ s.task.inbox = [] ∧ s.performs .w32 [] [.m 0] = true ∧ s.task.full (.m 1) = false ∧ s.performs .w32 [.v 1] [] = true
    ∧ m.net.msgs = [msg0] ∧ m.keyOf? msg0.dst = some 0 ∧ (m.taskAt 0).full (.m 3) = false ∧ (m.taskAt 0).inbox = [] := by decide

def pool0 (use : Nat) (w : List PoolWaiter) : Pool := { created := 4, capacity := 4, inUse := use, waiters := w }
def poolS (q : Pool) (held : Nat) : State := atP { part0 with pools := [(0, q)] } { task [] with tokens := #v[held, 0, 0, 0] }
def semS (n : Nat) (w : List SemWaiter) : State := { ms with vtiles := [(0, { sems := #v[n, 0, 0, 0, 0, 0, 0, 0], waiters := #v[w, [], [], [], [], [], [], []] })] }
theorem test_meets_SemaphoresAndTokens : (semS 65535 []).performs .w32 [] [] = true ∧ 65535 ≤ (semS 65535 []).semCount 0 (semS 65535 []).here 0
    ∧ (semS 65534 []).semCount 0 (semS 65534 []).here 0 = 65534 ∧ (semS 65534 []).releaseWaits 1 = false
    ∧ (semS 1 [.task 1]).semTurn 0 0 0 1 = true ∧ (semS 1 [.task 2]).semTurn 0 0 0 1 = false ∧ (semS 0 []).semCount 0 0 0 = 0
    ∧ (∀ q ∈ [pool0 0 [], pool0 2 [.task 1], pool0 4 []], (poolS q 1).performs .w32 [] [] = true)
    ∧ ((poolS (pool0 2 []) 1).partOf? 0).isSome = true ∧ mapGet [(0, pool0 2 [])] (State.poolKey 0 0) = some (pool0 2 []) ∧ (poolS (pool0 2 []) 1).covered 1 0 = 0
    ∧ 4 < 1 + 4 ∧ 3 ≤ 4 - 1 ∧ ¬ (3 ≤ 4 - 2) := by decide

/-! Steps and requests to Caldera -/

def seq0 (n : Nat) : Seq := { seqid := BitVec.ofNat 64 n, len := 5, stops := [2] }
def stepq0 : StepQ := { root := [], sched := 0, pool := 0x40000, npages := 2, pglog := 12, adm := 0x8000, cring := 0x9000, plarea := 0, phase := .running 1, desc := [(0, seq0 7), (1023, seq0 8)], used := [1] }
def stepP : Partition := { partP with stepq := some stepq0 }
def stepT : Task := { vr (task [(2, 15), (3, 16), (4, 1023), (5, 1024)]) [] with step := some 1 }
theorem test_meets_StepReads : let s := onPages stepP stepT
    let n := onPages stepP (task [])
    s.performs .w32 [.s 1] [.s 2] = true ∧ s.performs .w32 [.s 1] [] = true ∧ s.stepOf s.task = some stepq0 ∧ n.stepOf n.task = none ∧ n.performs .w32 [.s 1] [] = true
    ∧ ¬ 15 < (s.task.getS 2).toNat ∧ 15 < (s.task.getS 3).toNat ∧ ¬ 1023 < (s.task.getS 4).toNat ∧ 1023 < (s.task.getS 5).toNat ∧ rising stepq0.desc = true
    ∧ s.performs .w32 [.s 1] [.v 2, .s 3] = true := by decide +kernel

def supT : Task := { sg (task [(2, 1), (3, 2), (4, 9)]) [(4, segW 4 0 0 (2 ^ 40))] with priv := .supervisor }
def two (t : Task) : State := { atP { part0 with supCap := some 1 } supT with slots := [(0, supT), (1, t)] }
def withCap (st : CapState) (fv : Nat) : State :=
  atP { part0 with supCap := some 1, capsules := part0.capsules ++ [{ capid := 9, world := 0, featver := fv, st := st, base := 0, len := 0, rmap := [], entries := [] }] } supT
theorem test_meets_CalderaRequests : let s := two { task [] with gtid := 2 }
    let h := two { task [] with gtid := 2, stopped := true }
    s.performs .w32 [.s 5] [.s 2, .s 3] = true ∧ s.performs .w32 [.s 5] [.s 2] = true ∧ s.performs .w32 [.s 5] [] = true ∧ s.performs .w32 [] [.s 2] = true
    ∧ s.stepq? s.task.part = none ∧ (atP stepP supT).stepq? 0 ≠ none ∧ s.task.priv ≠ .task
    ∧ s.check 4 0 16384 { wr := true } [4] 1 [] = .ok (x4, 0) ∧ s.check 4 0 3407872 { rd := true } [4] 1 [] = .ok (x4, 0)
    ∧ s.task.getS 2 = s.task.gtid ∧ s.task.getS 4 ≠ s.task.gtid ∧ s.running? 0 (s.task.getS 4) = none
    ∧ s.keyOf? 2 = some 1 ∧ 1 ≠ s.cur ∧ s.running? 0 2 = some (s.taskAt 1) ∧ (∀ y ∈ s.slots, y.2.gtid = 2 → y.1 = 1) ∧ (s.taskAt 1).stopped = false
    ∧ h.running? 0 2 = some (h.taskAt 1) ∧ (h.taskAt 1).stopped = true
    ∧ s.capsule? 0 9 = none ∧ ((withCap (.unloadPending false false) 1).capsule? 0 9).isSome = true ∧ ((withCap .built 1).capsule? 0 9).isSome = true
    ∧ ((withCap .voided 2).capsule? 0 9).any (fun c => featverMax < c.featver) = true ∧ ((withCap .voided 1).capsule? 0 9).any (fun c => featverMax < c.featver) = false := by
  decide +kernel

def asked0 (q : Ask) (r : Option Word) : Asked := { key := 0, gtid := 1, part := 0, dst := 5, len := 4, ask := q, reply := r }
def askS (p : Partition) (q : Ask) (r : Option Word) (t : Task) : State :=
  let s := { onPages p t with slots := [(0, { t with run := .parked 12 .event }), (1, { task [] with gtid := 2 })] }
  { s with cald := { s.cald with asked := [asked0 q r] } }
def isSaved : SaveOut → Bool
  | .saved _ _ => true
  | _ => false
theorem test_meets_CalderaReplies : let r := askS stepP .poolTake (some 3) stepT
    let f := askS { stepP with stepq := some { stepq0 with used := [0, 1] } } .poolTake none stepT
    let m := askS stepP (.seqret 3 1022 1) none stepT
    let a := askS stepP (.seqadm 1) none { stepT with sched := true }
    let v := askS partP (.ctxsave 1 0x4000) none { task [] with priv := .supervisor }
    (∃ t, r.cald.asked = [asked0 .poolTake (some 3)] ∧ mapGet r.slots 0 = some t ∧ t.gtid = 1 ∧ t.stepping = false ∧ t.part = 0)
    ∧ f.stepq? 0 = some { stepq0 with used := [0, 1] } ∧ ¬ (stepq0.npages ≤ stepq0.used.length) ∧ stepq0.npages ≤ [0, 1].length
    ∧ stepq0.pageOf 0x41000 = some 1 ∧ 1 ∈ stepq0.used ∧ m.unperformed 1 = false ∧ (m.taskAt 0).step.isSome = true ∧ 1 ≤ m.ringRoom 0 stepq0.cring
    ∧ (a.taskAt 0).sched = true ∧ a.ringHead 0 stepq0.adm 64 = none
    ∧ v.namedSlot (asked0 (.ctxsave 1 0x4000) none) 1 = some 1 ∧ (mapGet v.slots 1).isSome = true ∧ (v.taskAt 1).gang = none ∧ v.atBoundary (v.taskAt 1) = true
    ∧ isSaved (v.saveSlot 1 0x4000 false false) = true := by
  refine ⟨⟨_, rfl, rfl, rfl, rfl, rfl⟩, ?_⟩
  decide +kernel

/-! Engines -/

def slotW (off n : Nat) (seg : Nat) : Nat := off + n * 2 ^ 22 + seg * 2 ^ 44 + 2 ^ 47
def cmdW (q e tok : Nat) (a b : Nat) : CmdWord := BitVec.ofNat 256 (e + q * 2 ^ 8 + tok * 2 ^ 31 + a * 2 ^ 64 + b * 2 ^ 128)
def copyW (tok : Nat) : CmdWord := cmdW 2 1 tok (slotW 0 32 1) (slotW 64 32 1)
def cmdT (w : CmdWord) (p : Partition) : State := atP p (sg (vr (task []) [(2, w.setWidth 128), (3, (w >>> 128).setWidth 128)]) [(1, segW 1 0 0 0xFFFF)])
theorem test_meets_CommandAcceptance : let s := cmdT (copyW 9) part0
    let w : CmdWord := s.task.getV 3 ++ s.task.getV 2
    s.performs .w32 [] [.v 2, .v 3] = true ∧ wordOk w = true ∧ opOk s.task.g w = true ∧ ¬ (2 < 4 ∧ (isStage (coreOf s.cur) = true ↔ 2 = 0)) ∧ s.task.full (.s 9) = true
    ∧ s.acqPending 1 = false ∧ s.heldLocal 1 = false ∧ (s.partOf? 0).isSome = true ∧ s.engineRoom 0 0 2 = true
    ∧ wordOk (copyW 9 ||| 1 <<< 60) = false ∧ (cmdT (copyW 0) part0).performs .w32 [] [.v 2, .v 3] = true
    ∧ ({ s.task with sFull := ~~~0x200 } : Task).full (.s 9) = false := by decide +kernel

def cmd0 (w : CmdWord) (n m : Nat) (st : CmdState) : Cmd :=
  { order := 3, part := 0, owner := 9, core := 0, vtile := 0, word := w, seq := 4, gs := Vector.replicate 8 0, st := st
    ranges := #v[{ present := true, space := 1, mem := spBase 0 0, len := n }, { present := true, space := 1, mem := spBase 0 0 + 64, len := m }, {}] }
def tileQ (q : Nat) (l : List Cmd) : Tile := { queues := (Vector.replicate 5 []).setIfInBounds q l }
def cmdS (q : Nat) (l : List Cmd) : State := { atP { part0 with pools := [(2, { created := 4, capacity := 4 })] } (task []) with tiles := [(0, tileQ q l)] }
theorem test_meets_CommandStarts : let c := cmd0 (copyW 9) 32 32 .queued
    let u := cmd0 (copyW 9) 32 16 .queued
    let f : Cmd := { c with dead := true, ranges := #v[{ fails := true }, {}, {}] }
    let s := cmdS 2 [c]
    let p := cmd0 (cmdW 3 1 9 (slotW 0 32 1) (slotW 64 32 1)) 32 32 .queued
    let g := cmdS 3 [p]
    CmdWord.queue c.word = 2 ∧ CmdWord.eop c.word = 1 ∧ (∀ k, k < 5 → (s.tile 0).queues.toList[k]?.getD [] = if k = 2 then [c] else []) ∧ c.st = .queued ∧ c.kernel = none
    ∧ c.abort = false ∧ CmdWord.swen c.word = false ∧ s.barrierRuns 0 = false ∧ s.keyOf? c.owner = none ∧ (State.slotRange f 1).fails = true ∧ CmdWord.ssen f.word = false
    ∧ (State.slotRange c 1).fails = false ∧ (State.slotRange c 2).fails = false ∧ (State.slotRange c 3).fails = false ∧ State.descSlot c.word 1 = false ∧ State.descSlot c.word 2 = false
    ∧ s.scored 0 c = false ∧ 0 < s.poolFree 0 (State.poolKey 0 2) ∧ (s.pool 0 (State.poolKey 0 2)).waiters = [] ∧ (State.slotRange c 1).len = (State.slotRange c 2).len
    ∧ (State.slotRange u 1).len ≠ (State.slotRange u 2).len ∧ (State.slotRange c 1).len % collBytes (CmdWord.td c.word) = 0 ∧ 2 ^ 61 ≤ (State.slotRange c 1).mem
    ∧ CmdWord.queue p.word = 3 ∧ (∀ k, k < 5 → (g.tile 0).queues.toList[k]?.getD [] = if k = 3 then [p] else []) ∧ g.scored 0 p = false ∧ g.sharedUse 0 p < 8 := by decide +kernel

theorem test_meets_CommandEnds : let r : CmdResult := { writes := [(spBase 0 0 + 64, [1, 2])], endCycle := 10 }
    let c : Cmd := { cmd0 (copyW 9) 32 32 (.started 0) with owner := 1, result := r }
    let s := { cmdS 2 [c] with cycle := 10 }
    let f : Cmd := { cmd0 (cmdW 4 0 9 0 0 ||| 0xF <<< 44) 0 0 .queued with owner := 1, order := 3 }
    let x := cmdS 4 [f]
    let k : Cmd := { cmd0 (cmdW 3 1 9 (slotW 0 32 1) (slotW 64 32 1)) 32 32 (.started 0) with offered := some 0, held := true }
    let d := { cmdS 3 [k] with cycle := 20 * 1700 }
    s.memOk ∧ (s.tile 0).queues.toList[2]?.getD [] = [c] ∧ CmdWord.queue c.word = 2 ∧ c.st ≠ .queued ∧ c.held = false ∧ c.result.endCycle ≤ s.cycle ∧ c.mute = false ∧ c.dead = false
    ∧ s.keyOf? c.owner = some 0 ∧ CmdWord.tok c.word ≠ 0
    ∧ (x.tile 0).queues.toList[4]?.getD [] = [f] ∧ CmdWord.queue f.word = 4 ∧ CmdWord.swen f.word = false ∧ CmdWord.ssen f.word = false ∧ CmdWord.tok f.word ≠ 0 ∧ x.keyOf? f.owner = some 0
    ∧ (∀ q, q < 4 → f.word.getLsbD (44 + q) = true ∧ (x.tile 0).queues.toList[q]?.getD [] = [])
    ∧ (d.tile 0).queues.toList[3]?.getD [] = [k] ∧ k.st ≠ .queued ∧ 0 + (((d.partOf? 0).map (·.deadline)).getD 20) * cyclesPerUs ≤ d.cycle := by
  unfold State.memOk; decide +kernel

/-! Requests, deliveries, wakes -/

def accS (a : Acc) (t : Task) : State := let s := { at_ t with cycle := 10000 }; { s with net := { s.net with accs := [a] } }
def notNibble : AccOp → Bool
  | .nibble _ _ => false
  | _ => true
theorem test_meets_RequestsAndDeliveries : let t := acc0 (.feRead false) (.tile false 0 16) (some (.s 5)) .flying
    let s := accS t mtc
    let e := { s with feEmpty := [State.tileAddr 0 false 0 16] }
    let p := { acc0 (.load 8 false) (.tile false 0 16) (some (.s 5)) (.performed 9) with issued := 0 }
    let d := accS p { mtc with sFull := ~~~0x20 }
    let f := accS { p with st := .failed false } { mtc with sFull := ~~~0x20 }
    let q := acc0 (.load 8 false) (.ext 4 0 0x1000 [⟨0x2000, 8, 0⟩]) none .flying
    let w := { accS q mtc with parts := [(0, partP)] }
    let x : SfuReq := { tag := 4, owner := 1, part := 0, cluster := 0, last := 0, used := 4, key := 0, dst := 3, value := 7 }
    let z := { w with net := { w.net with sfu := [x] } }
    s.accOf? 7 = some t ∧ s.mayPerform t = true ∧ s.waiterFirst t (State.tileAddr 0 false 0 16) = false
    ∧ s.watchHits 0 (ofBool false) 0 16 t.op.size (State.accMask t.op) 1 = [] ∧ notNibble t.op = true ∧ (s.perform (State.tileAddr 0 false 0 16) t.op).isSome = true
    ∧ s.tileAway 0 0 1 = false ∧ t.dead = false
    ∧ (e.perform (State.tileAddr 0 false 0 16) t.op).isSome = false ∧ e.agentWaiting t < 64
    ∧ d.accOf? 7 = some p ∧ d.net.sfu = [] ∧ d.queueFirst p = true ∧ p.issued + d.latencyOf p + p.extra ≤ d.cycle ∧ d.keyOf? 1 = some 0 ∧ f.queueFirst { p with st := .failed false } = true
    ∧ q.op.reads = true ∧ w.memOk ∧ w.accOf? 7 = some q ∧ w.mayPerform q = true ∧ backed 0x2000 = true ∧ inWindow 0x2000 = false ∧ 0x2000 < hostBase ∧ w.domainAt 0 = none
    ∧ w.foreign 0 [⟨0x2000, 8, 0⟩] = false ∧ w.poisonMeets [⟨0x2000, 8, 0⟩] = false
    ∧ z.net.sfu.find? (·.tag == 4) = some x ∧ x.last + 24 ≤ z.cycle ∧ z.keyOf? x.owner = some 0 := by
  unfold State.memOk; decide +kernel

def heldS (op : HeldOp) : State := let s := ms; { s with net := { s.net with helds := [{ tag := 6, owner := 1, key := 0, part := 0, op := op }] } }
theorem test_meets_WakesAndReleases : let r := at_ { mtc with run := .parked 1 (.full (.s 5)) }
    let n := at_ { mtc with run := .parked 1 (.full (.s 5)), sFull := ~~~0x20 }
    let h := heldS (.store 0 false 16 8 5)
    let a := { acc0 (.load 8 false) (.ext 4 0 0x4000 [⟨0x34000, 8, 0⟩]) none .flying with leaseEnd := some 0 }
    let o := onPages partP mtc
    let l := { o with cycle := 10000, net := { o.net with accs := [a] } }
    let m := { atP { partP with fring := some 0xA000 } mtc with mem := tables, cycle := 10000, net := { o.net with accs := [a] } }
    let w (free : Nat) : State := atP { part0 with pools := [(0, { created := 4, capacity := free })] } { mtc with tokens := #v[1, 0, 0, 0], owed := true }
    (ms.taskAt 0).run = .resident ∧ (r.taskAt 0).run = .parked 1 (.full (.s 5)) ∧ r.wakeReady 0 (r.taskAt 0) (.full (.s 5)) = true ∧ n.wakeReady 0 (n.taskAt 0) (.full (.s 5)) = false
    ∧ h.memOk ∧ h.net.accs = [] ∧ h.watchHits 0 (ofBool false) 0 16 8 2 1 = [] ∧ 0 < 8 ∧ h.semCount 0 0 0 < 65535
    ∧ l.accOf? 7 = some a ∧ l.leaseOk a.leaseEnd = false ∧ (l.piecesFor 0 0 0x4000 8 1).toOption.map (·.1) = some [⟨0x34000, 8, 0⟩] ∧ l.faultPends 7 = false
    ∧ { l with cycle := 6800 }.leaseOk a.leaseEnd = true ∧ { l with cycle := 6801 }.leaseOk a.leaseEnd = false
    ∧ (match m.piecesFor 0 0 0x40000 8 1 with | .error f => f.why == some cPAGE_UNMAPPED | _ => false) = true ∧ (m.partOf? 0).bind (·.fring) = some 0xA000
    ∧ m.keyOf? 1 = some 0 ∧ (m.taskAt 0).priv = .task
    ∧ (w 1).task.owed = true ∧ (w 1).tokensFor 0 (w 1).task = true ∧ (w 0).tokensFor 0 (w 0).task = false := by
  unfold State.memOk; decide +kernel

/-! Translation, scheduling, launches -/

def poke (s : State) (l : List (Nat × List Byte)) : State := { s with mem := l.foldl (fun m e => memWrite m e.1 e.2) s.mem }
def walk0 : Walk := { gtid := 1, key := 0, part := 0, cluster := 0, va := 0x4000, acc := 1, seg := 4 }
theorem test_meets_PageWalks : let s := { onPages partP (task []) with cycle := 720, mmu := { walks := [walk0] } }
    let n := { onPages { partP with ptroot := 0x50000 } (task []) with cycle := 720, mmu := { walks := [walk0] } }
    let entry (s : State) (table i : Nat) : Nat := leNat (memRead s.mem (table + 8 * i) 8)
    let next (e : Nat) : Nat := e / 2 ^ 12 % 2 ^ 38 * 2 ^ 12
    let e3 := entry s 0x10000 0
    let e0 := entry s 0x22000 4
    s.mmu.walks = [walk0] ∧ walk0.since + 720 ≤ s.cycle ∧ (s.partOf? 0).isSome = true ∧ (s.taskAt 0).gtid = 1 ∧ (s.taskAt 0).priv = .task ∧ 0x10000 < mainBytes ∧ s.granuleWorld 0x10000 = 0 ∧ s.poisoned 0x10000 = false
    ∧ (e3.testBit 63 = true ∧ e3 / 2 ^ 61 % 4 = 0 ∧ e3.testBit 57 = false ∧ e3 / 2 ^ 55 % 4 ≠ 3 ∧ e3 / 2 ^ 50 % 32 = 0) ∧ next e3 = 0x20000 ∧ next (entry s 0x20000 0) = 0x21000
    ∧ next (entry s 0x21000 0) = 0x22000 ∧ s.granuleWorld 0x22000 = 0 ∧ e0.testBit 63 = true ∧ e0.testBit 57 = true ∧ e0 / 2 ^ 61 % 4 ≠ 3 ∧ e0 / 2 ^ 55 % 4 = 0
    ∧ e0 / 2 ^ 50 % 32 = 0 ∧ e0.testBit 60 = true ∧ e0.testBit 59 = true ∧ e0.testBit 58 = true ∧ next e0 < mainBytes
    ∧ (entry n 0x50000 0).testBit 63 = false ∧ n.dirMoving 0 0x4000 = false ∧ (n.partOf? 0).bind (·.fring) = none := by decide +kernel

def fault0 (i : Option Nat) : FaultRec := { part := 0, va := 0x4000, acc := 1, prop := 0x18, idx := i, base := 0xA000, waiters := [⟨1, 1, some 4, none, 0x4000⟩] }
def dirS (e : DirEntry) : State := onPages { partP with dir := [(4, e)], frames := [0x60000, 0x61000] } (task [])
theorem test_meets_TranslationEvents : let q := { onPages { partP with fring := some 0xA000 } { task [] with run := .parked 0 (.page 0x4000 1) } with mmu := { faults := [fault0 (some 0)] } }
    let r1 := poke q [(0x3A058, [1, 0])]
    let r2 := poke q [(0x3A058, [2, 0x19])]
    let t := { onPages partP (task []) with cycle := 1000, mmu := { tlb1 := [(127, [{ tlbE with expiry := 1000 }, { tlbE with expiry := 1001 }])] } }
    let v : AtsInval := { lo := 0, hi := 0x5000, since := 0, tags := [7] }
    let a := acc0 (.load 8 false) (.ext 4 0 0x4000 [⟨hostBase, 8, 0⟩]) none .flying
    let i := { onPages partP (task []) with cycle := 50 * 1700, mmu := { invals := [(0, [v, { v with tags := [] }])] }, net := { accs := [a] } }
    (r1.replyOf 0 0).map (fun x => (x.1.waiters, x.2.1)) = some ([⟨1, 1, some 4, none, 0x4000⟩], 1) ∧ (r2.replyOf 0 0).map (·.2) = some (2, 0x19) ∧ r1.keyOf? 1 = some 0
    ∧ (r1.taskAt 0).run = .parked 0 (.page 0x4000 1) ∧ 127 < 128 ∧ (((mapGet t.mmu.tlb1 127).getD [])[0]?).map (·.expiry) = some 1000 ∧ 1000 ≤ t.cycle ∧ ¬ 1001 ≤ t.cycle
    ∧ (dirS {}).dirEntry 0 4 = {} ∧ (dirS { asked := true }).leafOf? 0 4 = some 0x22020 ∧ ((dirS {}).partOf? 0).map (·.frames) = some [0x60000, 0x61000]
    ∧ ((dirS { timer := some 0 }).dirEntry 0 4).timer = some 0 ∧ ((dirS { st := .device, frame := 0x60000 }).dirEntry 0 4).st = .device
    ∧ ((dirS { st := .moving true }).dirEntry 0 4).st = .moving true ∧ ((dirS { st := .moving false }).dirEntry 0 4).st = .moving false
    ∧ i.invalOf? 0 0 = some v ∧ v.since + 50 * 1700 ≤ i.cycle ∧ i.accOf? 7 = some a ∧ a.op.reads = true ∧ i.atsDrained v = false ∧ i.atsDrained { v with tags := [] } = true := by decide +kernel

def root0 : QueuedWork := { part := 0, prio := 0, requeued := false, since := 0, work := .root 0 0 { task [] with launch := some 0 } }
def gang0 : QueuedWork := { part := 0, prio := 0, requeued := false, since := 0, work := .gang 0 0 [task [], task []] }
def workS (w : QueuedWork) (c : Nat) : State := let s := { onPages partP (task []) with cycle := c }; { s with cald := { s.cald with work := [w] } }
theorem test_meets_SchedulerEvents : let s := at_ { task [] with waitCount := 64 }
    let b := { s with counters := [(0, { current := some 3, runCount := 64 })] }
    let y : Task := { task [] with gtid := 5, yieldedAt := some 0 }
    let d : State := { onPages partP (task []) with cycle := 1025, deques := [(0, ⟨[{ task [] with gtid := 4 }, y]⟩)] }
    let v : State := { onPages { partP with cores := [0, 2], slots := 3 } (task []) with
      slots := [(0, task []), (32, { task [] with gtid := 2 }), (33, { task [] with gtid := 3 })], deques := [(2, ⟨[{ task [] with gtid := 4, domain := 1 }]⟩)] }
    let v : State := { v with cald := { v.cald with launches := [{ id := 0, part := 0, queue := 0, domain := 1, live := 1, doneaddr := 0, doneval := 0 }] } }
    let x : Steal := { key := 1, since := 0, limit := 0, task := { task [] with gtid := 4 } }
    let p : Partition := { partP with vdevs := [(0, { weight := 1 })], resident := some 0 }
    let c : State := { onPages p { task [] with launch := some 0 } with cycle := 1700000 }
    s.cyclePart 0 = some 0 ∧ s.readyOn 0 0 = [(0, { task [] with waitCount := 64 })] ∧ 64 ≤ (b.counts 0 0).runCount ∧ (b.counts 0 0).current ≠ some 0 ∧ b.readyOn 0 0 ≠ []
    ∧ d.idlePart 1 = some 0 ∧ d.agedTop 0 0 = some y ∧ { d with cycle := 1024 }.agedTop 0 0 = none ∧ { d with cycle := 1024 }.idlePart 1 = some 0 ∧ d.deque 0 0 ≠ []
    ∧ v.idlePart 1 = some 0 ∧ v.agedTop 0 0 = none ∧ v.deque 0 0 = [] ∧ clusterOf 2 = clusterOf 0 ∧ 1 ≤ v.widest 0 ∧ (v.stealable 0 0 2).isSome = true
    ∧ ([x].find? fun y => y.key == 1) = some x
    ∧ (workS root0 0).placeOrder 0 partP = [root0] ∧ (workS root0 0).fits 0 partP root0 = some [1]
    ∧ gang0.since + 1700000 ≤ (workS gang0 1700000).cycle ∧ (State.pickGang partP (State.slotsOf partP) [task [], task []]).isSome = true
    ∧ (0, task []) ∈ (workS { gang0 with reserved := [0, 1], reservedAt := some 0 } 6800000).residents 0 ∧ 0 + 4 * 1700000 ≤ 6800000
    ∧ c.sliceDue 0 p = true ∧ (onPages partP (task [])).sliceDue 0 partP = false ∧ c.deviceWork 0 p 0 = true := by decide +kernel

def pkt (ty capid : Nat) : List Byte := leBytes 1 ty ++ leBytes 3 0 ++ leBytes 4 (if ty = 1 then 1 else 0) ++ leBytes 8 capid ++ zeros 240
def qP : Partition := { partP with launchRings := [(0, 0xA000)], capsules := partP.capsules.map fun c => { c with refs := 1 } }
def pktS (b : List Byte) : State := poke (onPages qP (task [])) [(0x3A008, [1]), (0x3A040, b)]
def launch0 (live done : Nat) : Launch := { id := 8, part := 0, queue := 0, domain := 0, live := live, doneaddr := done, doneval := 9 }
theorem test_meets_LaunchPackets : let s := pktS (pkt 1 1)
    let u := pktS (pkt 2 1)
    (s.headPacket 0 0).map (fun x => ((Packet.read x.1).type, x.2)) = some (1, 0xA043, 0xA000, 0) ∧ s.takesPackets 0 0 = true ∧ s.packetStatus 0 0 (Packet.read (pkt 1 1)) = 1
    ∧ s.packetStatus 0 0 (Packet.read (pkt 1 2)) = 0x84 ∧ (Packet.read (pkt 1 1)).serial = false ∧ s.queueDone 0 0 = true
    ∧ { atP { qP with lastPacket := [(0, 8)] } (task []) with cald := { s.cald with launches := [launch0 1 0] } }.queueDone 0 0 = false ∧ (u.headPacket 0 0).map (fun x => (Packet.read x.1).type) = some 2
    ∧ Packet.unloadBad (pkt 2 1) = false ∧ (u.capsule? 0 1).any (fun c => c.holds 0) = true ∧ u.stepHolds 0 0 1 = false ∧ s.launchRing 0 0 = some 0xA000 ∧ s.ringInHost 0 0xA000 = false := by
  decide +kernel

theorem test_meets_LaunchEvents : let h := poke (onPages qP (task [])) [(0x22050, leBytes 8 (2 ^ 63 + 7 * 2 ^ 58 + 2 ^ 57 + 2 ^ 49 + 0x7000))]
    let d := onPages partP (task [])
    let r := { d with hl := { d.hl with reqring := 0x1000 } }
    let r := poke r [(hostBase + 0x1008, [1]), (hostBase + 0x1040, [7])]
    let q := onPages { partP with cring := some 0xA000, qheld := [zeros 32] } (task [])
    let f := { onPages { partP with fring := some 0xA000 } (task []) with mmu := { faults := [fault0 none] } }
    let x : StepQ := { stepq0 with phase := .scheduling, adm := 0x8000, admitted := [(5, seq0 9)] }
    let g (st : CapState) (j : List Joiner) : Capsule := { capid := 9, world := 0, featver := 1, st := st, base := 0, len := 0, rmap := [], entries := [], joiners := j }
    let b := atP { part0 with capsules := [g .rebuilding []] } (task [])
    let j := atP { part0 with capsules := [g .rebuilding [⟨1, 5, 0, false, false⟩]] } (task [])
    ({ d with cald := { d.cald with launches := [launch0 0 0x5000] } }.cald.launches.find? fun x => x.id == 8) = some (launch0 0 0x5000)
    ∧ (d.writeVa 0 0x5000 (leBytes 8 9)).isSome = true ∧ (launch0 0 0x5000).doneaddr ≠ 0 ∧ (launch0 0 0).doneaddr = 0
    ∧ r.memOk ∧ r.reqHead = some (hostBase + 0x1040, 0) ∧ leNat (memRead r.mem (hostBase + 0x1040) 1) = 7
    ∧ (q.ringPut 0 0xA000 (zeros 32)).isSome = true ∧ ((q.partOf? 0).map (·.qheld)) = some [zeros 32] ∧ (q.partOf? 0).bind (·.cring) = some 0xA000
    ∧ f.mmu.faults = [fault0 none] ∧ (f.ringPut 0 0xA000 (State.faultBytes (fault0 none) 1)).isSome = true
    ∧ d.ringInHost 0 0x8000 = false ∧ d.ringState 0 0x8000 = some (0, 0) ∧ x.phase = .scheduling ∧ d.stepLive 0 true = false ∧ rising x.admitted = true
    ∧ (onPages { partP with stepq := some x } (task [])).stepq? 0 = some x ∧ stepq0.phase ≠ .scheduling ∧ d.stepLive 0 false = false ∧ stepq0.nextLive ≠ []
    ∧ ({ stepq0 with desc := [] } : StepQ).nextLive = [] ∧ d.admPending 0 stepq0 = 0
    ∧ b.capsule? 0 9 = some (g .rebuilding []) ∧ (g .rebuilding []).joiners = [] ∧ (g .rebuilding []).featver ≤ 1 ∧ j.capsule? 0 9 = some (g .rebuilding [⟨1, 5, 0, false, false⟩]) ∧ j.keyOf? 1 = some 0
    ∧ h.ringInHost 0 0xA000 = true ∧ h.launchRing 0 0 = some 0xA000 := by
  unfold State.memOk; decide +kernel

/-! Pre-emption, debugging, services -/

def req0 (hold : Bool) : Preempt := { part := 0, core := 0, since := 0, hold := hold, gtids := [] }
def preS (t : Task) : State := let s := onPages partP t; { s with cald := { s.cald with preempts := [req0 false] } }
theorem test_meets_PreemptionEvents : let s := preS (task [])
    let n := { s with slots := [] }
    let c : Cmd := { cmd0 (copyW 9) 32 32 (.started 0) with owner := 2, result := { endCycle := 100 } }
    let sv : Saved := { gtid := 2, capid := 1, task := { task [] with gtid := 2 }, va := 0x4000, byCaldera := true, core := some 0 }
    let l := { onPages { partP with saved := [sv] } (task []) with tiles := [(0, tileQ 2 [c])], cycle := 50 * 1700 }
    let h := sup { task [] with due := [{ cause := cDELIVERY_ERROR }] }
    let f := at_ { task [] with due := [{ cause := cINTEGRITY }] }
    let m := { onPages { partP with qarea := 0x8003 } (task []) with parts := [(0, { partP with qarea := 0x8003 })] }
    (s.cald.preempts.find? fun r => r.part == 0 && r.core == 0) = some (req0 false) ∧ (s.partOf? 0).map (·.resizing) = some none ∧ s.deque 0 0 = [] ∧ s.cald.steals = []
    ∧ n.cald.preempts = [req0 false] ∧ mapGet s.slots 0 = some (task []) ∧ State.asksFor (req0 false) (task []) = true ∧ s.atBoundary (task []) = true
    ∧ isSaved (s.saveSlot 0 (State.savePlace partP) true false) = true
    ∧ s.lateCmd 0 2 = none ∧ l.lateCmd 0 2 = some c
    ∧ s.tileDue 0 0 = none
    ∧ h.task.due = [{ cause := cDELIVERY_ERROR }] ∧ ({ cause := cDELIVERY_ERROR } : Due).freezes = false ∧ isDebugCause cDELIVERY_ERROR = false ∧ h.task.priv = .task
    ∧ (h.supCapsule? 0).any (fun c => c.lands h.task.tr.vec) = true
    ∧ (f.task.due.any fun d => d.freezes && d.cause == cINTEGRITY) = true ∧ f.atBoundary f.task = true ∧ f.task.gang = none
    ∧ (State.errorRange 0x34040 0) = (0x34000, 4096) ∧ (m.toArea 0 (leBytes 2 0x5C0D ++ leBytes 2 1 ++ leBytes 4 0 ++ leBytes 8 0x34040 ++ leBytes 8 0x4000)).1 = some 0x8000 := by decide +kernel

def brk0 (a : Nat) : Breakpoint := { capid := 1, off := 0, gtid := 0, action := a, trigId := 2, trigAction := 1 }
def dbgS (d : PartDebug) (t : Task) : State := atP { part0 with dbg := d } t
theorem test_meets_DebugEvents : let b := dbgS { session := some 1, breaks := [(0, brk0 0)] } (task [])
    let g := dbgS { session := some 1, breaks := [(0, brk0 4)] } (task [])
    let m : StopMsg := { gtid := 1, cause := cHALT_REQ, cycle := 0, base := 0 }
    let o : ScOp := { tag := 7, owner := 1, key := 0, part := 0, cycle := 0, op := .store 8 5, place := .tile false 0 16, dst := none, len := 8, pinc := none }
    let s := { at_ (task []) with dbg := { stops := [(0, m)] } }
    let w := { s with net := { s.net with scOps := [o] } }
    let z : Freeze := { cause := 0x38, opkg := 0, ocore := 0, cycle := 10 }
    let f (c : Nat) := { at_ (task []) with cycle := c, dbg := { freeze := some z }, cores := [(0, { recorder := { freezeDue := some z } })] }
    let y : Session := { phase := .secured, waiting := [(0, 0, 5)] }
    (b.codeOf? b.task).isSome = true ∧ (at_ (task [])).breakHits (task []) 1 0 = [] ∧ b.breakHits b.task 1 0 = [brk0 0] ∧ g.breakHits g.task 1 0 = [brk0 4]
    ∧ s.dbg.stops[0]? = some (0, m) ∧ s.keyOf? 1 = some 0 ∧ (s.taskAt 0).stopped = false ∧ s.atBoundary (s.taskAt 0) = true ∧ w.atBoundary (w.taskAt 0) = false
    ∧ (s.core 0).recorder.frozen = none ∧ (s.core 0).recorder.capture = none ∧ (s.core 0).recorder.ring.length ≤ 4094
    ∧ b.attached 0 = true ∧ (b.residents 0).filter (fun e => coreOf e.1 == 0) = [(0, task [])]
    ∧ { at_ (task []) with cycle := 16 }.sampleDue 0 = none ∧ { at_ (task []) with cycle := 4096 }.sampleDue 0 = some 0
    ∧ (f 9).freezeDueAt 0 = none ∧ (f 10).freezeDueAt 0 = some z ∧ (f 10).dbg.freeze = some z ∧ (f 10).dbg.tephra = none ∧ ¬ (∃ e ∈ s.cores, e.2.recorder.freezeDue ≠ none)
    ∧ mapGet [(3, y)] 3 = some y ∧ y.waiting = [(0, 0, 5)] := by decide +kernel

def callT (n : Word) (arg : Word) : Task := { task [] with priv := .firmware, fwCall := some ⟨n, arg, 5, none⟩ }
theorem test_meets_PartitionServices : let s := onPages partP (callT 0x14 0x4100)
    let h : Saved := { gtid := 2, capid := 1, task := { task [] with gtid := 2 }, va := 0x4000, byCaldera := true, hold := true }
    let q := onPages { partP with saved := [h] } (callT 0x16 2)
    let r := two { task [] with gtid := 2 }
    (at_ (callT 0x05 0)).calls 0x05 0 ∧ s.calls 0x14 0x4100 ∧ (s.partOf? 0).isSome = true ∧ (s.readVa 0 0x4000 4096).isSome = true
    ∧ (r.running? 0 2).isSome = true ∧ r.coreOfTask 0 2 = some 0 ∧ (r.running? 0 2).map (·.gang) = some none
    ∧ (([h].find? fun v => v.gtid == 2 && v.byCaldera && v.hold) = some h) ∧ (q.partOf? 0).map (·.saved) = some [h] ∧ s.cald.preempts = [] := by
  refine ⟨⟨_, _, rfl, rfl⟩, ⟨_, _, rfl, rfl⟩, ?_⟩
  decide +kernel

def stepImage : List Byte := pkt 1 1 ++ leBytes 4 0 ++ leBytes 4 0 ++ leBytes 8 0x40000 ++ leBytes 4 2 ++ leBytes 1 12 ++ leBytes 3 0 ++ leBytes 8 0x8000 ++ leBytes 8 0x9000 ++ leBytes 8 0xB000 ++ zeros 16
theorem test_meets_CapsuleServices : let s := poke (onPages qP (callT 0x17 0x5000)) [(0x35000, stepImage)]
    let n (o k : Nat) : Nat := leNat ((stepImage.drop o).take k)
    let v := onPages { qP with saved := [{ gtid := 2, capid := 1, task := { task [] with gtid := 2 }, va := 0x4000, byCaldera := true }] } (callT 0x44 2)
    let u := onPages { qP with capsules := qP.capsules.map fun c => { c with st := .unloadPending false false, refs := 0 } } (callT 0x42 1)
    let e := poke (onPages qP (callT 0x45 0x5000)) [(0x35000, [1]), (0x35008, leBytes 8 0x6000)]
    s.calls 0x17 0x5000 ∧ s.readVa 0 0x5000 320 = some stepImage ∧ n 260 4 = 0 ∧ n 277 3 = 0 ∧ n 304 16 = 0 ∧ n 272 4 = 2 ∧ n 276 1 = 12 ∧ n 264 8 % 2 ^ 12 = 0 ∧ n 280 8 % 4096 < 12
    ∧ n 288 8 % 4096 < 12 ∧ n 296 8 % 4096 = 0 ∧ (Packet.read stepImage).serial = false ∧ (Packet.read stepImage).doneaddr = 0 ∧ s.packetStatus 0 0 (Packet.read stepImage) = 1
    ∧ ((qP.capsules.find? fun c => c.capid == 1).any fun c => c.entries.any fun e => e.off == n 256 4 && !e.bound) = true
    ∧ (s.readImage 0 0x5000).isSome = true ∧ (s.capsule? 0 1).map (·.code) = some 1 ∧ (u.capsule? 0 1).map (·.code) = some 4 ∧ u.capLive 0 1 = true ∧ s.capsule? 0 9 = none
    ∧ (v.partOf? 0).map (fun p => p.saved.map (·.gtid)) = some [2] ∧ (e.readVa 0 0x5000 16).map (fun b => (leNat (b.take 8), leNat (b.drop 8))) = some (1, 0x6000) := by
  refine ⟨⟨_, _, rfl, rfl⟩, ?_⟩
  decide +kernel

def dom0 (c : Nat) (st : DomState) : Domain := { id := 7, members := [0, 3], meas := [], digest := [], coord := c, st := st, gen := 5, nextGen := 6, joined := [0, 3] }
def domHead : List Byte := leBytes 2 7 ++ leBytes 2 0 ++ leBytes 4 2 ++ zeros 56 ++ leBytes 8 0 ++ leBytes 8 3
theorem test_meets_TrustServices : let k : KeyHandle := { serial := 0, key := [], use := 1, fixed := [] }
    let s := onPages { partP with keys := [(1, k)] } (callT 0x61 1)
    let d := poke (onPages partP (callT 0x63 0x5000)) [(0x35000, domHead)]
    let h := (domHead.take 64)
    let n (o m : Nat) : Nat := leNat ((h.drop o).take m)
    let ms := State.memberList (domHead.drop 64) 2
    let j := poke (onPages { partP with domain := some (dom0 0 .opened) } (callT 0x63 0x5000)) [(0x35000, domHead)]
    let r := { onPages partP (callT 0x66 0x5000) with poison := [0x35] }
    s.calls 0x61 1 ∧ d.calls 0x63 0x5000 ∧ r.memOk ∧ mapGet [(1, k)] 1 = some k ∧ k.dropped = false ∧ 1 = 1 % 256 + k.serial % 2 ^ 20 * 2 ^ 8 + 0 * 2 ^ 28
    ∧ d.readVa 0 0x5000 64 = some h ∧ d.readVa 0 0x5040 16 = some (domHead.drop 64) ∧ n 0 2 ≠ 0 ∧ n 2 2 = 0 ∧ 2 ≤ n 4 4 ∧ n 4 4 ≤ 524288 ∧ n 56 8 = 0 ∧ ms = [0, 3]
    ∧ State.rising ms = true ∧ (∀ m ∈ ms, m < 2 ^ 19) ∧ d.pkgNo.toNat ∈ ms ∧ d.domainAt 0 = none ∧ (j.domainAt 0).map (·.2.id) = some 7
    ∧ r.walkRange 0 0x5000 2 4096 = .ok [⟨0x35000, 4096, 0⟩] ∧ r.closed 0 [⟨0x35000, 4096, 0⟩] = false ∧ (r.readVa 0 0x4000 64).isSome = true := by
  refine ⟨⟨_, _, rfl, rfl⟩, ⟨_, _, rfl, rfl⟩, ?_⟩
  unfold State.memOk; decide +kernel

def sess (w : BitVec 4) (p : SpdmPhase) : Session := { phase := p, world := w, debugger := true }
def dbgd (d : PartDebug) (t : Task) : State := { dbgS { d with session := some 3 } t with sessions := [(3, sess 0 .secured)] }
theorem test_meets_DebugRequests : let s := dbgd {} (task [])
    let h := dbgd { records := [5] } { task [] with stopped := true, sFull := ~~~2 }
    let x : Tephra := { fwver := 1, origin := 0, pkg := 0, ocore := 0, cause := 0, cores := [], sig := [], sigs := [(0, [1, 2])] }
    let t := { s with dbg := { tephra := some x } }
    s.debugs 3 0 { part0 with dbg := { session := some 3 } } ∧ mapGet (at_ (task [])).sessions 3 = none ∧ mapGet s.sessions 3 = some (sess 0 .secured) ∧ (s.partOf? 0).map (·.world) = some 0
    ∧ s.running? 0 9 = none ∧ s.running? 0 1 = some (task []) ∧ s.keyOf? 1 = some 0 ∧ (task []).stopped = false ∧ (h.running? 0 1).map (·.stopped) = some true
    ∧ (h.taskAt 0).full (.s 1) = false ∧ (∀ c ∈ part0.cores, clusterOf c ≠ 5) ∧ (∀ c ∈ part0.cores, clusterOf c = 0) ∧ (h.partOf? 0).map (·.dbg.records) = some [5]
    ∧ s.dbg.tephra = none ∧ t.dbg.tephra = some x ∧ mapGet x.sigs (0 : BitVec 4).toNat = some [1, 2] := by
  refine ⟨⟨_, rfl, rfl, rfl, rfl, rfl⟩, ?_⟩
  decide +kernel

/-! The host, management, attestation, domains, encodings, steps -/

def ask1 : CreateReq :=
  { part := 1, cores := [0, 1], slots := 3, spBanks := 3, asBanks := 1, stackMask := 1, mainmem := 2, tier2 := 1, host := 1, eth := 0, fabric := 0, world := 0
    lease := 5, capMatrix := 4, capGather := 2, capCopy := 2, capSfu := 8, dequeExt := 0, saveArea := 0x4000, launchRings := [0x8000], frames := [] }
def fab0 : Acc := { acc0 (.load 8 false) (.ext 4 0 0x4000 [⟨3 * 2 ^ 48, 8, 0⟩]) none .flying with tag := 9 }
theorem test_meets_HostRequests : let s := onPages partP (task [])
    let o := { State.reset with hl := { State.reset.hl with reqring := 0x5000 }, mem := [(hostBase + 0x5000, 1)] }
    let h := { State.reset with hl := { State.reset.hl with hdm := #v[BitVec.ofNat 64 (2 ^ 30 + 1), 0] } }
    let f := { at_ (task []) with net := { accs := [fab0] } }
    let l := { f with cycle := 1700000 }
    let i := { at_ (task []) with parts := [(0, { part0 with tdisp := #v[.run, .error], host := 1 })] }
    let d := atP { part0 with domain := some (dom0 0 .opened) } (task [])
    State.reset.createOk ask1 = true ∧ State.reset.createOk { ask1 with lease := 0 } = false ∧ (s.partOf? 0).isSome = true ∧ s.partOf? 1 = none
    ∧ s.coresFree 0 [0, 1] 0xFFFF 0xFFFF 0xFFFF 0 = true ∧ s.coresFree 0 [1] 0xFFFF 0xFFFF 0xFFFF 0 = true ∧ s.coresFree 0 [1, 0] 0xFFFF 0xFFFF 0xFFFF 0 = false ∧ s.cald.preempts = []
    ∧ o.loadNat (hostBase + State.ringAt 0x5000) 8 ≠ o.loadNat (hostBase + State.ringAt 0x5000 + 8) 8
    ∧ h.memOk ∧ h.inHdm (2 ^ 30) = true ∧ State.reset.inHdm (2 ^ 30) = false
    ∧ ((i.partOf? 0).map fun p => (p.tdisp.toList[0]?, p.tdisp.toList[1]?)) = some (some .run, some .error)
    ∧ f.accOf? 9 = some fab0 ∧ f.fabricLate fab0 = false ∧ l.fabricLate fab0 = true ∧ fab0.op.reads = true ∧ fab0.waits = false
    ∧ d.partOf? 0 = some { part0 with domain := some (dom0 0 .opened) } ∧ 3 ∈ (dom0 0 .opened).joined ∧ 3 ≠ d.pkgNo.toNat ∧ d.parts.all (fun e => e.1 == 0)
    ∧ backed 0x40000 = true ∧ s.granuleWorld 0x40000 = 0 ∧ s.poisonMeets [⟨0x40000, 8, 3⟩] = false := by unfold State.memOk; decide +kernel

theorem test_meets_ManagementEvents : let s := { State.reset with sessions := [(3, sess 0 .secured), (4, sess 5 .secured)] }
    let on (m : Mgmt) : State := { State.reset with mgmt := m }
    let m := State.reset.mgmt
    let st : StartRecord := { m.start with steps := Vector.ofFn fun i => if i.val < 2 then 1 else if i.val = 2 then 2 else 0 }
    let old : Sensor := { level := 2 }
    let a := { at_ (task []) with mgmt := { m with activationDue := true } }
    s.world0 3 = true ∧ s.world0 4 = false ∧ (on { m with update := some ⟨2, true⟩ }).mgmt.update = some ⟨2, true⟩
    ∧ (on { m with activationDue := true }).allSaved = true ∧ a.allSaved = false ∧ a.building = false ∧ a.cald.preempts = [] ∧ a.mgmt.recoverDue = [] ∧ a.dbg.freeze = none
    ∧ (on { m with sensors := Vector.replicate 11 old }).mgmt.sensors.toList[9]? = some old ∧ old.level ≤ 3
    ∧ (on { m with recoverDue := [some 5, none] }).mgmt.recoverDue = [some 5, none] ∧ m.skips = 0 ∧ m.imageValid = true ∧ (∀ x ∈ m.start.steps.toList, x ≠ 2)
    ∧ st.steps.toList = List.replicate 2 1 ++ [2] ++ List.replicate 6 0 ∧ (on { m with startDue := true, start := st }).mgmt.startDue = true
    ∧ m.startDue = false ∧ m.recoveryForm = false := by decide +kernel

theorem test_meets_AttestationSessions : let f (p : SpdmPhase) : State := { State.reset with sessions := [(3, sess 0 p)] }
    (∀ p ∈ [SpdmPhase.version, .capabilities, .algorithms, .certificate, .challenged, .measured, .exchanged, .secured], mapGet (f p).sessions 3 = some (sess 0 p))
    ∧ (State.reset.nextLms).1 = some 0 ∧ { State.reset with mgmt := { State.reset.mgmt with lmsNext := 2 ^ 40, lmsEnd := 2 ^ 40 } }.nextLms.1 = none := by decide +kernel

def member (c : Nat) (p : DomState) (j : List Nat) (f : Domain → Domain) : State := atP { part0 with domain := some (f { dom0 c p with joined := j }) } (task [])
theorem test_meets_DomainEvents : let s := member 0 .draining [0, 3, 4] id
    let w := { s with cycle := 2 * 1700000 }
    let g := { member 3 .opened [0, 3] id with cycle := 2 * 1700000 }
    let j := { member 0 .opened [0, 3] (fun d => { d with rejoin := some 0 }) with cycle := 10 * 1700000 }
    let n := (dom0 0 .opened)
    let b : List Byte := zeros 32
    (s.partOf? 0).bind (·.domain) = some { dom0 0 .draining with joined := [0, 3, 4] } ∧ s.pkgNo = 0
    ∧ s.ownDrained 0 (dom0 3 .draining) = true ∧ s.barrierLate 0 = false ∧ w.barrierLate 0 = true ∧ s.coordinatorGone 0 = false ∧ g.coordinatorGone 0 = true ∧ s.rejoinLate 0 3 = false ∧ j.rejoinLate 0 3 = true
    ∧ (∃ x ∈ [0, 3, 4], x ≠ 0 ∧ x ≠ 3 ∧ x ∉ n.drained) ∧ (∀ x ∈ n.joined, x ≠ 0 → x = 3 ∨ x ∈ n.drained) ∧ n.joined.Nodup ∧ 0 ∈ n.joined ∧ n.rejoin = none
    ∧ b.length = 32 + 16 * leNat ((b.drop 13).take 1) := by decide +kernel

theorem test_meets_EncodingRoundTrip : Instr.nop.wf = true ∧ (Instr.addi ⟨.w32, 5, 0, false, .i13 4⟩).wf = true
    ∧ decode (leBytes 4 0x804) = .ok (.nop, 4) := by decide +kernel

theorem test_meets_ByteOrder : Mem.wf [] = true ∧ Mem.wf [(5, 3), (9, 1)] = true ∧ Instr.nop.wf = true := by decide +kernel

theorem test_meets_StepRunsDecoded : let f (t : List Byte) : State := State.reset.withText t
    let w := leBytes 4 0x804
    let c (t : List Byte) : Option Capsule := (f t).codeOf? ((f t).taskAt 0)
    (∀ t ∈ [w, leBytes 4 1, w.take 2, []], (f t).agenda = [] ∧ (f t).frameChange = false ∧ (f t).nextPick = some (.slot 0)
      ∧ ((f t).taskAt 0).fwCall = none ∧ ((f t).taskAt 0).due = [] ∧ ∃ x, c t = some x ∧ x.len = t.length ∧ (f t).breakHits ((f t).taskAt 0) x.capid 0 = []
        ∧ (f t).codeBytes ((f t).taskAt 0) x 0 = t ∧ State.codeBoundOf ((f t).taskAt 0) x = t.length ∧ (f t).turn < 2048)
    ∧ decode w = .ok (.nop, 4) ∧ decode (leBytes 4 1) = .error .illegalOpcode ∧ decode (w.take 2) = .error .short := by
  intro f w c
  refine ⟨?_, by decide +kernel⟩
  intro t h
  simp only [List.mem_cons, List.not_mem_nil, or_false] at h
  obtain rfl | rfl | rfl | rfl := h <;> exact ⟨by decide +kernel, by decide +kernel, by decide +kernel, by decide +kernel, by decide +kernel, _, rfl, by decide +kernel⟩

theorem test_meets_MemoryStaysCanonical : State.reset.memOk ∧ (match step State.reset with | .next t => t.cycle == 1 | _ => false) = true := by
  unfold State.memOk; decide +kernel

/-! ### Further clauses of the same statements -/

def flyStore : Acc := acc0 (.store 8 5) (.ext 4 3 0x1000 [⟨0x34000, 8, 0⟩]) none .flying
def withAccs (s : State) (l : List Acc) : State := { s with net := { s.net with accs := l } }

/-- Memory cells of consecutive bytes. -/
def cells (a : Nat) : List Byte → Mem
  | [] => []
  | b :: r => (a, b) :: cells (a + 1) r
theorem memGet_cells (l : List Byte) : ∀ (a i : Nat) (h : i < l.length), memGet (cells a l) (a + i) = l[i] := by
  induction l with
  | nil => intro a i h; simp at h
  | cons b r ih =>
    intro a i h
    cases i with
    | zero => simp [cells, memGet]
    | succ j =>
      have := ih (a + 1) j (by simpa using h)
      simp only [cells, memGet, List.getElem_cons_succ]
      rw [if_neg (by omega), ← this]; congr 1; omega
theorem memGet_append (m n : Mem) (a : Nat) (h : m.all (fun e => decide (e.1 ≠ a)) = true) : memGet (m ++ n) a = memGet n a := by
  induction m with
  | nil => rfl
  | cons e r ih =>
    simp only [List.all_cons, Bool.and_eq_true, decide_eq_true_eq] at h
    obtain ⟨x, b⟩ := e
    simp only [List.cons_append, memGet]; rw [if_neg h.1, ih h.2]
theorem memRead_cells (m : Mem) (a n : Nat) (l : List Byte) (h : m.all (fun e => decide (e.1 < a)) = true) (hn : n ≤ l.length) : memRead (m ++ cells a l) a n = l.take n := by
  apply List.ext_getElem
  · simp [memRead, hn]
  · intro i h1 h2
    simp only [memRead, List.length_map, List.length_range] at h1
    simp only [memRead, List.getElem_map, List.getElem_range, List.getElem_take]
    rw [memGet_append, memGet_cells _ _ _ (by omega)]
    simp only [List.all_eq_true, decide_eq_true_eq] at h ⊢
    intro e he; have := h e he; omega

/-- A task's image under the key of world 0, and the image with its tag zero. -/
def bareImage : List Byte := slotBytes (task []) 0 [] [] (zeros 12) (zeros 16)
def sealKey : List Byte := State.reset.worldKey 0 "seal"
def sealTag : List Byte := imageTag sealKey (zeros 12) bareImage
def sealed : List Byte := slotBytes (task []) 0 [] [] (zeros 12) ((List.range 16).map fun i => sealTag.getD i 0)
theorem sealTag_length : sealTag.length = 16 := by decide +kernel
theorem sealed_length : sealed.length = 0x4B8 := by decide +kernel
theorem sealed_tag : tagOk sealKey (zeros 12) sealed 0x20 = true := by
  have ht : (List.range 16).map (fun i => sealTag.getD i 0) = sealTag := by
    apply List.ext_getElem
    · simp [sealTag_length]
    · intro i h1 h2; simp [List.getD, List.getElem?_eq_getElem h2]
  have h (x : List Byte) : slotBytes (task []) 0 [] [] (zeros 12) x = slotHead (task []) 0 0x4B8 ++ (x ++ slotTail (task []) [] [] (zeros 12)) :=
    List.append_assoc _ _ _
  have hp : (slotHead (task []) 0 0x4B8).length = 32 := by decide +kernel
  generalize slotHead (task []) 0 0x4B8 = pre at h hp
  generalize slotTail (task []) [] [] (zeros 12) = post at h
  have hb : bareImage = _ := h _
  have hs : sealed = _ := h _
  rw [ht] at hs
  have hz : (zeros 16).length = 16 := rfl
  have hd : patch (pre ++ (sealTag ++ post)) 0x20 (zeros 16) = bareImage := by
    rw [hb, patch, List.take_left' hp, hz, ← List.append_assoc pre sealTag, List.drop_left' (by simp [hp, sealTag_length]), List.append_assoc]
  rw [tagOk, hs, List.drop_left' hp, List.take_left' sealTag_length, hd]
  exact beq_self_eq_true _

def savedT : Saved := { gtid := 1, capid := 1, task := task [], va := 0x4000, byCaldera := true, core := some 0 }
/-- The machine with the sealed image at 0x4000 of partition 0, its task saved, tasks in slots, and what Caldera was asked. -/
def savedS (l : Map Task) (q : List Asked) : State :=
  let s := onPages { partP with saved := [savedT] } (task [])
  { s with slots := l, mem := tables ++ cells 0x34000 sealed
           cald := { s.cald with asked := q, work := [{ part := 0, prio := 0, requeued := true, since := 0, work := .saved 1 }] } }
theorem savedS_read (l : Map Task) (q : List Asked) (n : Nat) (hn : n ≤ 0x4B8) (k : Nat) (h : ((savedS l q).vaPieces 0 0x4000 1 n).toOption = some [⟨0x34000, n, k⟩]) :
    (savedS l q).vaRead 0 0x4000 n = .ok (sealed.take n) := by
  have h' : (savedS l q).vaPieces 0 0x4000 1 n = .ok [⟨0x34000, n, k⟩] := by
    cases hx : (savedS l q).vaPieces 0 0x4000 1 n with
    | error e => simp [hx, Except.toOption] at h
    | ok x => simpa [hx, Except.toOption] using h
  rw [State.vaRead, h']
  show Except.ok (memRead (tables ++ cells 0x34000 sealed) 0x34000 n ++ []) = _
  rw [List.append_nil, memRead_cells _ _ _ _ (by decide +kernel) (by rw [sealed_length]; exact hn)]
theorem savedS_image (l : Map Task) (q : List Asked) (k : Nat) (h : ∀ n ∈ [8, 0x4B8], ((savedS l q).vaPieces 0 0x4000 1 n).toOption = some [⟨0x34000, n, k⟩]) :
    (savedS l q).readSlotImage 0 0x4000 = .ok sealed := by
  have hl : max 8 (min (leNat (((sealed.take 8).drop 4).take 4)) 16383) = 0x4B8 := by decide +kernel
  rw [State.readSlotImage, savedS_read l q 8 (by omega) k (h 8 (by simp))]
  show (savedS l q).vaRead 0 0x4000 (max 8 (min (leNat (((sealed.take 8).drop 4).take 4)) 16383)) = _
  rw [hl, savedS_read l q 0x4B8 (by omega) k (h _ (by simp)), ← sealed_length, List.take_length]

/-- When a restore goes on. -/
theorem restoreCheck_go (s : State) (part key : Nat) (b : List Byte) (v : Saved)
    (ht : tagOk (s.worldKey (s.worldOfPart part) "seal") ((b.drop 0x30).take 12) b 0x20 = true)
    (hf : slotFormOk b = true ∧ s.deliveriesKnown part b = true)
    (hv : (((s.partOf? part).map (·.saved)).bind fun l => l.find? fun v => v.gtid == BitVec.ofNat 64 (leNat ((b.drop 8).take 8)) && v.iv == leNat ((b.drop 0x30).take 12)) = some v)
    (hg : v.go = false) (ha : s.alive (BitVec.ofNat 64 (leNat ((b.drop 8).take 8))) = false)
    (hr : s.admits (s.rehome part key (v.task.ofImage b)) (coreOf key) = true ∧ s.resumeOk (s.rehome part key (v.task.ofImage b)) = true)
    (hb : (s.bodyFor part (s.rehome part key (v.task.ofImage b)).capid).1 = true
      ∧ (s.bodyFor part (s.rehome part key (v.task.ofImage b)).capid).2.tokensFor key (s.rehome part key (v.task.ofImage b)) = true) :
    s.restoreCheck part key b = .go v (s.rehome part key (v.task.ofImage b)) := by
  simp [State.restoreCheck, ht, hf, hv, hg, ha, hr, hb]

def asker : Task := { task [] with gtid := 2, priv := .supervisor, run := .parked 12 .event }
def asksBack : Asked := { asked0 (.ctxrest 1 0x4000) none with gtid := 2 }
theorem savedS_go : ∀ e ∈ [([], []), ([(0, asker)], [asksBack])], ∀ k ∈ [0, 1],
    ∃ t, (savedS e.1 e.2).restoreCheck 0 k sealed = .go savedT t ∧ t.part = 0 ∧ (savedS e.1 e.2).readSlotImage 0 savedT.va = .ok sealed := by
  intro e he k hk
  refine ⟨_, restoreCheck_go _ _ _ _ _ ?_ ?_ ?_ rfl ?_ ?_ ?_, ?_, savedS_image e.1 e.2 0 ?_⟩
  · have h1 : (sealed.drop 0x30).take 12 = zeros 12 := by decide +kernel
    rw [h1]; exact sealed_tag
  all_goals revert k e; decide +kernel

theorem test_meets_PreemptionEvents_restored : let s := savedS [] []
    let p := { partP with saved := [savedT] }
    let w : QueuedWork := { part := 0, prio := 0, requeued := true, since := 0, work := .saved 1 }
    s.partOf? 0 = some p ∧ savedT.hold = false ∧ savedT.task.gang = none ∧ s.restoreBuilds 0 = s ∧ s.urgent 0 p = [] ∧ s.placeOrder 0 p = [w] ∧ w.reserved = []
    ∧ s.restoreSlots 0 p (s.freeSlots 0 p) [savedT] = some [0]
    ∧ ∃ t, s.readSlotImage 0 savedT.va = .ok sealed ∧ s.restoreCheck 0 0 sealed = .go savedT t ∧ t.part = 0 := by
  obtain ⟨t, h, ht, hr⟩ := savedS_go ([], []) (by simp) 0 (by simp)
  refine ⟨?_, ?_, ?_, rfl, ?_, ?_, ?_, ?_, t, hr, h, ht⟩ <;> decide +kernel

theorem test_meets_PreemptionEvents_waits : let s := preS (task [])
    let w := withAccs s [flyStore]
    s.task.due = [] ∧ ((w.slots.filter fun e => coreOf e.1 == 0 && State.asksFor (req0 false) e.2).map (·.1)) = [0] ∧ (task []).draining = none ∧ (task []).fwCall = none ∧ w.deque 0 0 = []
    ∧ (w.net.accs.any fun a => a.owner == 1 && a.pending && !a.op.reads && a.queue?.isSome) = true := by decide +kernel

/-- What reading through the port of a cluster leaves. -/
def through (s : State) (n : Nat) : State := match s.portPieces 0 0 0x4000 1 n with
  | .ok r => r.2
  | .error _ => s
theorem through_mem (s : State) (n : Nat) : (through s n).mem = s.mem := by
  unfold through
  split
  · rename_i h
    obtain ⟨m, hm⟩ := State.portPieces_mmu h
    rw [hm]
  · rfl
theorem portRead_cells (s : State) (n k : Nat) (hn : n ≤ 0x4B8) (hm : s.mem = tables ++ cells 0x34000 sealed)
    (h : ((s.portPieces 0 0 0x4000 1 n).toOption).map (·.1) = some [⟨0x34000, n, k⟩]) : s.portRead 0 0 0x4000 n = .ok (sealed.take n, through s n) := by
  have hu := through_mem s n
  cases hx : s.portPieces 0 0 0x4000 1 n with
  | error e => simp [hx, Except.toOption] at h
  | ok x =>
    obtain ⟨ps, u⟩ := x
    simp only [hx, Except.toOption, Option.map_some, Option.some.injEq] at h
    have ht : through s n = u := by simp only [through, hx]
    rw [ht] at hu ⊢
    subst h
    rw [State.portRead, hx]
    show Except.ok (memRead u.mem 0x34000 n ++ [], u) = _
    rw [List.append_nil, hu, hm, memRead_cells _ _ _ _ (by decide +kernel) (by rw [sealed_length]; exact hn)]
/-- The state in which Caldera has read the image for the asker. -/
def portedS : State := through (through (savedS [(0, asker)] [asksBack]) 8) 0x4B8
theorem ported_image : (savedS [(0, asker)] [asksBack]).portSlotImage 0 0 0x4000 = .ok (sealed, portedS) := by
  have hl : max 8 (min (leNat (((sealed.take 8).drop 4).take 4)) 16383) = 0x4B8 := by decide +kernel
  rw [State.portSlotImage, portRead_cells _ 8 0 (by omega) rfl (by decide +kernel)]
  show (through _ 8).portRead 0 0 0x4000 (max 8 (min (leNat (((sealed.take 8).drop 4).take 4)) 16383)) = _
  rw [hl, portRead_cells _ 0x4B8 0 (by omega) (through_mem _ _) (by decide +kernel), ← sealed_length, List.take_length, sealed_length]
  rfl
theorem ported_go : ∃ t, portedS.restoreCheck 0 1 sealed = .go savedT t := by
  refine ⟨_, restoreCheck_go _ _ _ _ _ ?_ ?_ ?_ rfl ?_ ?_ ?_⟩
  · have h1 : (sealed.drop 0x30).take 12 = zeros 12 := by decide +kernel
    rw [h1]; exact sealed_tag
  all_goals decide +kernel

theorem test_meets_CalderaReplies_restored : let s := savedS [(0, asker)] [asksBack]
    s.cald.asked = [asksBack] ∧ mapGet s.slots 0 = some asker ∧ asker.gtid = asksBack.gtid ∧ asker.stepping = false ∧ asksBack.part = asker.part ∧ asksBack.page = none ∧ asksBack.reply = none
    ∧ s.namedSlot asksBack 1 = some 1 ∧ mapGet s.slots 1 = none ∧ s.kernelIn 1 = false ∧ s.stealTo 1 = false ∧ (s.partOf? 0).map (fun p => State.losing p (coreOf 1)) = some false
    ∧ (∀ q ∈ s.net.accs, q.joins = false) ∧ ∃ t, s.portSlotImage 0 0 0x4000 = .ok (sealed, portedS) ∧ portedS.restoreCheck 0 1 sealed = .go savedT t := by
  obtain ⟨t, h⟩ := ported_go
  refine ⟨?_, ?_, ?_, ?_, ?_, ?_, ?_, ?_, ?_, ?_, ?_, ?_, ?_, t, ported_image, h⟩ <;> decide +kernel

/-- The command heads its queue and nothing holds it back. -/
def startable (s : State) (q e : Nat) (c : Cmd) : Bool :=
  CmdWord.queue c.word == q && CmdWord.eop c.word == e && (List.range 5).all (fun k => (s.tile 0).queues.toList[k]?.getD [] == if k = q then [c] else [])
  && c.st == .queued && !c.abort && !CmdWord.swen c.word && !s.fenced 0 q c && !s.domainWaits c && [1, 2, 3].all (fun i => !(State.slotRange c i).fails)
  && !s.scored 0 c && (decide (3 ≤ q) || decide (0 < s.poolFree 0 (State.poolKey 0 q)) && (s.pool 0 (State.poolKey 0 q)).waiters.isEmpty)
  && s.keyOf? c.owner == none && c.kernel.isNone && decide (s.sharedUse 0 c < 8)
def cmd3 (q e bits n m l : Nat) : Cmd :=
  { cmd0 (cmdW q e 0 0 0 ||| BitVec.ofNat 256 bits) n m .queued with
    gs := #v[0, segW 1 0 0 0xFFFF, 0, 0, segW 4 0 0 (2 ^ 40), 0, 0, 0]
    ranges := #v[{ present := true, space := 1, mem := spBase 0 0, len := n }, { present := true, space := 1, mem := spBase 0 0 + 64, len := m },
      { present := true, space := 1, mem := spBase 0 0 + 256, len := l }] }
/-- The command alone in its queue; scratchpad 0 holds a descriptor of 32 bytes at 0 and at 64, and a parameter block that names key 769 at 256. -/
def alone (q : Nat) (c : Cmd) (p : Partition) : State :=
  let d := leBytes 16 (32 * 2 ^ 64 + 4 * 2 ^ 96)
  { cmdS q [c] with
    parts := [(0, { p with pools := [0, 1, 2].map fun q => (State.poolKey 0 q, { created := 4, capacity := 4 }) })]
    mem := memWrite (memWrite (memWrite [] (spBase 0 0) d) (spBase 0 0 + 64) d) (spBase 0 0 + 284) (leBytes 4 769) }
def keyP (use : BitVec 3) : Partition := { part0 with keys := [(1, { serial := 3, key := List.replicate 32 0, use := use, fixed := [] })] }

theorem test_meets_CommandStarts_engines : let l := cmd3 0 1 (2 ^ 48) 32 32 0
    let i := cmd3 0 1 (2 ^ 50) 1024 1024 0
    let g := cmd3 1 1 0 32 32 0
    startable (alone 0 l part0) 0 1 l = true ∧ CmdWord.flag l.word 0 = true ∧ (((alone 0 l part0).vtile 0 0).latches.toList[State.lsel l.word]?).getD none = none
    ∧ startable (alone 0 i part0) 0 1 i = true ∧ CmdWord.flag i.word 0 = false ∧ CmdWord.flag i.word 2 = true ∧ CmdWord.ta i.word = 0 ∧ CmdWord.tb i.word = 0
    ∧ CmdWord.rows i.word * CmdWord.depth i.word = 1024 ∧ CmdWord.cols i.word * CmdWord.depth i.word = 1024
    ∧ startable (alone 1 g part0) 1 1 g = true ∧ (((alone 1 g part0).vtile 0 0).latches.toList[State.lsel g.word]?).getD none = none := by decide +kernel

theorem test_meets_CommandStarts_moves : let c := cmd3 2 1 (2 ^ 48) 16 32 0
    let i := cmd3 2 2 0 32 32 0
    let x := cmd3 2 2 (2 ^ 48) 16 32 0
    let side : Side := { ext := true, len := 32, addr := 0, space := 4 }
    startable (alone 2 c part0) 2 1 c = true ∧ (alone 2 c part0).sideOf c 1 State.rdNeed = (side, []) ∧ ((alone 2 c part0).sideOf c 2 State.wrNeed).1.len = 32
    ∧ startable (alone 2 i part0) 2 2 i = true ∧ ((alone 2 i part0).sideOf i 1 State.rdNeed).1.ext = false
    ∧ cinderHeader (memRead (alone 2 i part0).mem (State.slotRange i 1).mem 32).toArray = none
    ∧ startable (alone 2 x part0) 2 2 x = true ∧ (alone 2 x part0).sideOf x 1 State.rdNeed = (side, []) := by decide +kernel

theorem test_meets_CommandStarts_seals : let d := cmd3 2 3 0 32 32 64
    let x := cmd3 2 3 (2 ^ 48) 16 32 64
    let n := cmd3 2 4 0 32 32 64
    let z := cmd3 2 4 (2 ^ 49) 32 16 64
    let p := State.paramOf (memRead (alone 2 d part0).mem (State.slotRange d 3).mem 64)
    p.key = 769 ∧ p.bad = false ∧ startable (alone 2 d part0) 2 3 d = true ∧ ((alone 2 d part0).keyOfHandle 0 769 0).isSome = false
    ∧ startable (alone 2 d (keyP 1)) 2 3 d = true ∧ ((alone 2 d (keyP 1)).keyOfHandle 0 769 0).isSome = true
    ∧ startable (alone 2 x (keyP 1)) 2 3 x = true ∧ ((alone 2 x (keyP 1)).sideOf x 1 State.rdNeed).1.len = 32 ∧ (alone 2 d part0).memOk
    ∧ startable (alone 2 n part0) 2 4 n = true ∧ ((alone 2 n part0).keyOfHandle 0 769 1).isSome = false
    ∧ startable (alone 2 n (keyP 2)) 2 4 n = true ∧ ((alone 2 n (keyP 2)).keyOfHandle 0 769 1).map (·.use.getLsbD 2) = some false
    ∧ startable (alone 2 z (keyP 2)) 2 4 z = true ∧ (alone 2 z (keyP 2)).sideOf z 2 State.wrNeed = ({ ext := true, len := 32, addr := 0, space := 4 }, []) := by
  unfold State.memOk; decide +kernel

theorem test_meets_CommandStarts_reduces : let c := cmd3 3 3 (2 * 2 ^ 26) 32 0 0
    let s := alone 3 c { part0 with groups := [(0, [(0, 0)])] }
    startable (alone 3 c part0) 3 3 c = true ∧ (alone 3 c part0).groupOf 0 0 = [] ∧ startable s 3 3 c = true ∧ CmdWord.aux c.word 1 = 0 ∧ s.pkgNo.toNat = 0
    ∧ s.groupOf 0 0 = [(0, 0)] ∧ (s.physTile? 0 0).isSome = true ∧ CmdWord.td c.word = 2 ∧ (State.slotRange c 1).len % collBytes 2 = 0 := by decide +kernel

theorem test_meets_CommandEnds_adds : let c : Cmd := { cmd0 (copyW 9) 32 32 (.started 0) with owner := 1, result := { adds := some (2, spBase 0 0 + 64, leBytes 4 7), endCycle := 10 } }
    let f : Cmd := { cmd0 (cmdW 4 0 9 0 0 ||| 8 <<< 44) 0 0 .queued with owner := 1, order := 3 }
    let e : Cmd := { f with order := 2, word := f.word ||| 4 <<< 44 }
    let s := { cmdS 4 [e, f] with tiles := [(0, { tileQ 4 [e, f] with queues := (tileQ 4 [e, f]).queues.setIfInBounds 2 [{ c with order := 1 }] })] }
    c.moving = false ∧ (cmdS 2 [c]).writesOpen c = true ∧ c.result.writes = [] ∧ (s.tile 0).queues.toList[4]?.getD [] = [e, f] ∧ s.fenceReady 0 e = false ∧ e.order ≠ f.order
    ∧ ∀ q, q < 4 → f.word.getLsbD (44 + q) = true → (s.tile 0).queues.toList[q]?.getD [] = [] := by decide +kernel

theorem test_meets_ForkedTasks_remote : let s := withMem ms 16 (leBytes 8 0x800000000 ++ leBytes 8 8 ++ leBytes 8 30)
    let r : Acc := { acc0 .count (.tile false 0 8) (some (.s 7)) (.answered 0) with waits := true, carry := (spBase 0 0 + 16) :: List.replicate 6 0 }
    s.memOk ∧ s.performs .w32 [.s 7] ((m1 16).reads.map (·.1)) = true ∧ s.check 1 16 48 { rd := true } [1] 16 [] = .ok (x1, 16) ∧ s.forkWaits 1 (s.tileMem x1 16) = none
    ∧ s.check 2 8 8 { rd := true, wr := true } [1, 3] 8 [] = .ok (x2, 8) ∧ x2.space = 3 ∧ (withAccs s [r]).forkWaits 1 (s.tileMem x1 16) = some r ∧ r.carry.length = 7 := by
  unfold State.memOk; decide +kernel

theorem test_meets_RemoteAccesses_ends : let r (op : AccOp) (st : AccState) : Acc := { acc0 op (.tile false 0 16) none st with waits := true }
    ms.task.gang = none ∧ (withAccs ms [r (.feProbe true) (.answered (2 ^ 64))]).waitedFor 1 (.feProbe true) 0 16 = some (r (.feProbe true) (.answered (2 ^ 64)))
    ∧ (withAccs ms [r (.feRead false) (.failed false)]).waitedFor 1 (.feRead false) 0 16 = some (r (.feRead false) (.failed false)) := by decide

theorem test_meets_QueuedAccesses_waits : let s := { msX with parts := [(0, { partP with domain := some { dom0 0 .opened with st := .draining } })], granules := [(field (3 * 2 ^ 48) 30 18, ⟨3, 0, 1⟩)] }
    s.domainHolds 0 [⟨3 * 2 ^ 48, 8, 0⟩] = true ∧ s.domainHolds 0 [⟨0x2008, 8, 0⟩] = false ∧ (withAccs msX [flyStore]).unperformed 1 = true ∧ [(⟨0x2008, 8, 0⟩ : Piece)].any orderedPiece = true
    ∧ msX.leaseOf 0 0 0x1008 8 1 = some 1000 ∧ ms.tlbDelay 0 0 0x1008 8 1 = 24 := by decide +kernel

theorem test_meets_WatchedWords_memory : let s := { msX with parts := [(0, partP)] }
    let ps : List Piece := [⟨0x2008, 8, 0⟩]
    x4.space = 4 ∧ s.performs g0 [.s 5] ((m1 16).reads.map (·.1) ++ [.s 5]) = true ∧ s.check 4 0x1008 8 { rd := true } [1, 3, 4, 5] 8 [] = .ok (x4, 0x1008)
    ∧ ms.watchPieces ms.task x4 0x1008 8 = .miss 0x1008 ∧ s.watchPieces s.task x4 0x1008 8 = .pieces ps ∧ State.unbacked? ps = none ∧ s.watchWaits s.task x4 0x1008 8 ps = false
    ∧ s.domainHolds 0 ps = false ∧ s.readRefused 0 0x1008 ps = none := by decide +kernel

theorem test_meets_EmptyRegisters_fresh : let t : Task := { task [] with fills := [.s 1], sErr := 4 }
    t.fresh 0 (.s 1) = true ∧ t.full (.s 1) = true ∧ (at_ t).cycle = 0 ∧ t.fresh 0 (.s 2) = false ∧ t.err (.s 2) = true := by decide

theorem test_meets_HostRequests_links : let s := at_ (task [])
    let t := withAccs { s with parts := [(0, { part0 with host := 1, tdisp := #v[.run, .error] })], links := s.links.map fun l => { l with up := true } }
      [acc0 (.load 8 false) (.ext 4 0 0x4000 [⟨hostBase, 8, 0⟩]) none .flying]
    let f := { State.reset with mgmt := { State.reset.mgmt with fused := [0] } }
    t.hostLink? 0 = some 0 ∧ t.hostTraffic 0 = [1] ∧ (t.partOf? 0).map (·.tdisp.toList[0]?) = some (some .run) ∧ f.present [0, 1, 2, 3] = [2, 3] ∧ f.createOk { ask1 with cores := [0, 1, 2, 3] } = true := by
  decide +kernel

theorem test_meets_ManagementEvents_failures : let s := withAccs (at_ (task [])) [acc0 (.load 8 false) (.ext 4 0 0x4000 [⟨0x34000, 8, 0⟩]) none .flying]
    s.metFailure 0x34000 0 = [1] ∧ s.metFailure 0x35000 0 = [] ∧ (linkCfgOf [{ cxl := true, base := tier2Base, gib := 4 }]).toList.map (·.gib) = [4, 0] := by decide +kernel

theorem test_meets_DebugRequests_ring : let s := dbgd {} (task [])
    s.mgmt.start.dies.getLsbD (dieOf 0) = true ∧ tileOf 0 ∉ s.mgmt.fused ∧ ¬ 1024 < 1024 ∧ (s.nextLms).1.isSome = true := by decide +kernel

theorem test_meets_GangBarrier_held : let s := withAccs (gangS { part := 0, size := 2, live := [0, 1], members := [1, 2] } mtc) [flyStore]
    s.performs .w32 [] [] = true ∧ s.task.atBarrier = false ∧ s.unperformed 1 = true := by decide

theorem test_meets_FencesWaitsAndYields_held : let s := withAccs ms [acc0 (.store 8 5) (.tile false 0 16) none .flying]
    s.performs g0 [] [] = true ∧ s.memOk ∧ s.outstanding 1 = false ∧ s.unperformed 1 = true := by unfold State.memOk; decide

theorem test_meets_StepRunsDecoded_next : let s := { State.reset.withText [] with turn := 2048 }
    s.agenda = [] ∧ ∀ f ∈ s.arrivals, s.outcome f = none := by
  refine ⟨rfl, ?_⟩
  have h : ({ State.reset.withText [] with turn := 2048 } : State).arrivals.all (fun f => (({ State.reset.withText [] with turn := 2048 } : State).outcome f).isNone) = true := by decide +kernel
  simpa [List.all_eq_true] using h


theorem test_meets_ManagementEvents_sensors :
    ((State.sensorReading {} ⟨0, 949⟩).2.1 = 0 ∧ (State.sensorReading {} ⟨0, 950⟩).2.1 = 1 ∧ (State.sensorReading {} ⟨7, 1000⟩).2.1 = 2 ∧ (State.sensorReading {} ⟨7, 1050⟩).2.1 = 3)
    ∧ ((State.sensorReading {} ⟨9, 399⟩).2.1 = 0 ∧ (State.sensorReading {} ⟨9, 400⟩).2.1 = 1 ∧ (State.sensorReading {} ⟨10, 20⟩).2.1 = 0 ∧ (State.sensorReading {} ⟨10, 19⟩).2.1 = 1 ∧ (State.sensorReading {} ⟨10, 9⟩).2.1 = 3)
    ∧ (State.sensorReading { recent := [28000] } ⟨8, 25200⟩).2.1 = 1 ∧ (State.sensorReading {} ⟨8, 26599⟩).2.1 = 0
    ∧ (State.sensorReading {} ⟨0, 920⟩).2.2 = 0 ∧ (State.sensorReading {} ⟨0, 921⟩).2.2 = 1 := by decide +kernel

/-! ### The same of clauses on marks, watches, saved tiles and stopped tasks -/

def noWatch (s : State) : Prop := ∀ m w b k l, s.watchHits s.task.part m w b k l s.task.gtid = []

theorem test_meets_BitFieldsAndDivision_marked : let s := at_ { task [(2, 5), (3, 0x4040)] with sErr := 2 }
    s.performs r3.f [.s 1] [.s 2, .s 3] = true ∧ s.task.err (.s 1) = true := by decide

theorem test_meets_BranchResults_prefixed : let w := atP { State.fetchPart 24 with capsules := (State.fetchPart 24).capsules.map fun c => { c with rmap := [⟨0, 2, true⟩] } } (task [])
    (w.codeOf? w.task).map (fun c => (decide (12 < c.len), c.rmap.all fun b => b.off != 12 && (b.kind != 2 || b.off + 8 != 12), c.rmap.any fun b => b.kind == 2 && b.off + 8 == 8)) = some (true, true, true)
    ∧ w.performsG ⟨0, false⟩ [] [] = true := by decide

theorem test_meets_GuardsPrefixesAndPrivilege_checked : let s : Task := { task [] with priv := .supervisor }
    (∀ i ∈ [Instr.rdms .w32 4 0x200, .trapret .w32, .termclr .w32], i.checked s = some (⟨0, false⟩, 4)) ∧ (Instr.rdms (.w64 ⟨1, false⟩) 4 0).checked (task []) = some (⟨1, false⟩, 8)
    ∧ (task []).guard0 ⟨1, false⟩ = false ∧ s.stepping = false ∧ ({ s with fpend := true } : Task).fpend = true := by decide

theorem test_meets_PrefixedOperands_fma : (prefixed 0x0A 1 0).readable [] [.v 1, .v 2, .v 3, .v 4] = true ∧ (prefixed 0x0A 1 0).readable [] [.v 1, .v 2, .v 3] = true
    ∧ (prefixed 0x12 3 0xFF).readable [] [.v 1, .v 2, .v 3, .v 4] = true ∧ (3 : Nat) < 4 ∧ (0xFF : Nat) < 256 := by decide

theorem test_meets_RemoteAccesses_join : let r : Acc := { acc0 (.feRead false) (.tile false 0 16) (some (.s 5)) (.performed 9) with waits := true, carry := [4, 4, 8] }
    let s := { at_ { mtc with run := .parked 2 (.response 7), sFull := ~~~0x20 } with cycle := 100, net := { accs := [r] } }
    ms.waitedFor 1 (.feRead true) 0 16 = none ∧ s.net.sfu = [] ∧ s.accOf? 7 = some r ∧ r.waits = true ∧ r.dead = false ∧ r.issued + 24 + r.extra ≤ s.cycle ∧ s.keyOf? r.owner = some 0
    ∧ (s.taskAt 0).run = .parked 2 (.response r.tag) ∧ (s.taskAt 0).stopped = false ∧ (s.taskAt 0).stepping = false ∧ r.carry = 4 :: [(4 : Reg).toNat, (8 : Word).toNat] := by decide

theorem test_meets_SequentialOperations_effect : let o (far : Bool) : ScOp := { tag := 7, owner := 1, key := 0, part := 0, cycle := 40, op := .store 8 5, place := .tile false 0 16, dst := none, len := 8, pinc := none, far := far }
    let s (far : Bool) := { at_ { mtc with run := .parked 9 (.sc 7) } with cycle := 160, net := { scOps := [o far] } }
    ∀ f ∈ [true, false], (s f).net.scOps = [o f] ∧ ((s f).taskAt 0).gtid = 1 ∧ ((s f).taskAt 0).part = 0 ∧ ((s f).taskAt 0).stepping = false ∧ ((s f).taskAt 0).stopped = false
      ∧ ((s f).taskAt 0).run = .parked 9 (.sc 7) ∧ (s f).tileAway 0 0 1 = false ∧ (s f).watchHits 0 (ofBool false) 0 16 8 2 1 = [] ∧ ¬ (s f).cycle < 32 * (40 / 32) + 128 := by decide

theorem test_meets_ForkedTasks_watches : forkS.watchHits 0 0 forkS.here 16 48 1 1 = [] ∧ forkS.watchHits 0 0 forkS.here 8 8 (State.accMask .count) 1 = [] ∧ noWatch forkS :=
  ⟨rfl, rfl, fun _ _ _ _ _ => rfl⟩

theorem test_meets_WatchedWords_watches : noWatch ms ∧ noWatch { msX with parts := [(0, partP)] } := ⟨fun _ _ _ _ _ => rfl, fun _ _ _ _ _ => rfl⟩

theorem test_meets_FencesWaitsAndYields_counter : let j (a : Nat) := at_ { mtc with join := some a }
    (j (spBase 0 0 + 8)).vtileOf? 0 0 = some (State.placeOf (spBase 0 0 + 8)).2.1 ∧ (∀ d, mapGet ((j (spBase 0 0 + 8)).vtile 0 0).saved d = none)
    ∧ (j (spBase 0 3 + 8)).vtileOf? 0 0 ≠ some (State.placeOf (spBase 0 3 + 8)).2.1 ∧ (j (spBase 0 3 + 8)).outstanding 1 = false ∧ (j (spBase 0 3 + 8)).unperformed 1 = false :=
  ⟨by decide, fun _ => rfl, by decide, by decide, by decide⟩

theorem test_meets_GangMessages_arrival : let s := gangS { part := 0, size := 2, live := [0, 1], members := [1, 2] } (task [])
    msg0.mute = false ∧ (s.taskAt 0).stopped = false ∧ s.inboxOf 0 = [] := by decide

theorem test_meets_CommandAcceptance_fresh : (cmdT (copyW 9) part0).task.fresh 0 (.s 9) = false := by decide

theorem test_meets_CommandEnds_hidden : ∀ b, (cmdS 2 [cmd0 (copyW 9) 32 32 (.started 0)]).hiddenBut (fun d => d.order == 3 && d.core == 0) b = false := fun _ => rfl

theorem test_meets_CommandStarts_members : let c := cmd3 3 3 (2 * 2 ^ 26) 32 0 0
    let u := cmd3 3 3 (2 * 2 ^ 26) 30 0 0
    let p := { part0 with groups := [(0, [(0, 0)])] }
    (alone 3 c p).tileThere 0 0 = true ∧ (State.slotRange u 1).len % collBytes (CmdWord.td u.word) ≠ 0 ∧ startable (alone 3 u p) 3 3 u = true
    ∧ (alone 3 c { p with cores := [4] }).tileThere 0 0 = false ∧ startable (alone 3 c { p with cores := [4] }) 3 3 c = true := by decide +kernel

theorem test_meets_RequestsAndDeliveries_mac : (accS (acc0 (.load 8 false) (.ext 4 0 0x1000 [⟨0x2000, 8, 0⟩]) none .flying) mtc).macMeets [⟨0x2000, 8, 0⟩] = false := by decide

theorem test_meets_WakesAndReleases_kept : let s := at_ { mtc with run := .parked 5 (.watch 0x34000 8 0 0 9), stopped := true }
    (heldS (.store 0 false 16 8 5)).heldAway { tag := 6, owner := 1, key := 0, part := 0, op := .store 0 false 16 8 5 } = false
    ∧ (s.taskAt 0).run = .parked 5 (.watch 0x34000 8 0 0 9) ∧ (s.taskAt 0).stopped = true := by decide

theorem test_meets_PageWalks_task : walk0.sup = false ∧ ({ onPages partP (task []) with cycle := 720, mmu := { walks := [walk0] } } : State).sealedOff 0x10000 = false := by decide

/-- A page of the directory, of a partition whose host link is up. -/
def linkedS (e : DirEntry) : State :=
  let s := onPages { partP with dir := [(4, e)], frames := [0x60000, 0x61000], host := 1 } { task [] with run := .parked 0 (.page 0x4008 1) }
  { s with links := s.links.map fun l => { l with up := true } }
theorem test_meets_TranslationEvents_links : let w : Waiter := ⟨1, 1, some 4, none, 0x4008⟩
    let d := { dirS { asked := true, waiters := [w] } with slots := [(0, { task [] with run := .parked 0 (.page 0x4008 1) })] }
    let m := { dirS { st := .moving false, since := 0, lmax := 5 } with cycle := 9 * 1700 }
    let b := { linkedS {} with hl := { State.reset.hl with reqring := 0x5000 }, mem := (hostBase + 0x5008, 1) :: [(hostBase + 0x5040, 1)] }
    (∀ e ∈ [{ asked := true }, {}, { st := .device, frame := 0x60000 }, { st := .moving true, frame := 0x60000 }, ({ st := .moving false } : DirEntry)],
      (linkedS e).hostOpen 0 ((linkedS e).hostPage 0x22020) = true ∧ (linkedS e).hostOpen 0 e.hostPa = true ∧ (linkedS e).dirEntry 0 4 = e ∧ (linkedS e).reqHead = none ∧ (linkedS e).endingWalks 0 4 = [] ∧ (linkedS e).leafOf? 0 4 = some 0x22020
        ∧ ((linkedS e).taskAt 0).stopped = false)
    ∧ d.hostOpen 0 (d.hostPage 0x22020) = false ∧ (d.dirEntry 0 4).waiters = [w] ∧ w.va / 4096 = 4 ∧ w.acc < 8 ∧ w.tag = none ∧ d.keyOf? w.gtid = some 0 ∧ (d.taskAt 0).run = .parked 0 (.page w.va w.acc)
    ∧ d.leafOf? 0 4 = some 0x22020 ∧ (dirS { st := .moving true, frame := 0x60000 }).hostOpen 0 0 = false ∧ (m.dirEntry 0 4).since + ((m.dirEntry 0 4).lmax + 4) * 1700 ≤ m.cycle
    ∧ b.ringBusy 5 = true ∧ (dirS {}).ringBusy 5 = false ∧ (0x4000 : Nat) / 4096 = 0x4008 / 4096 := by decide +kernel

theorem test_meets_SchedulerEvents_images : let d : State := { onPages partP (task []) with cycle := 1025, deques := [(0, ⟨[{ task [] with gtid := 4 }]⟩)] }
    let x : Steal := { key := 1, since := 0, limit := 0, task := { task [] with gtid := 4 } }
    (∀ vt, d.vtileOf? 0 0 = some vt → mapGet (d.vtile 0 vt).saved (d.deviceIn 0 none) = none) ∧ mapGet (d.vtile 0 0).saved (d.deviceIn x.task.part x.task.launch) = none
    ∧ (State.pickGang partP ((workS gang0 1700000).gangSlots partP) [task [], task []]).isSome = true
    ∧ (onPages { partP with switching := true } (task [])).restorePends 0 = false := ⟨fun _ _ => rfl, by decide, by decide +kernel, by decide +kernel⟩

theorem test_meets_PreemptionEvents_images : let v : Saved := { gtid := 2, capid := 1, task := { task [] with gtid := 2 }, va := 0x4000, byCaldera := true, core := some 0 }
    let s := { onPages { partP with saved := [v] } (task []) with slots := [] }
    s.tileDue 0 0 = some 8 ∧ ∀ c, (preS (task [])).fetchTurn { task [] with draining := c } ≠ .bound := by
  refine ⟨by decide +kernel, fun c => ?_⟩
  have h (s : State) (t : Task) : s.fetchTurn { t with draining := c } = s.fetchTurn t := rfl
  rw [h]; decide +kernel

theorem test_meets_DebugEvents_messages : let m : StopMsg := { gtid := 1, cause := cHALT_REQ, cycle := 0, base := 0 }
    let s (t : Task) := { dbgS { session := some 1 } t with dbg := { stops := [(0, m)] } }
    let h := { task [] with stopped := true }
    (∀ t ∈ [task [], h], (s t).keyOf? 1 = some 0 ∧ ((s t).everyTask.find? fun t => t.gtid == m.gtid) = some t ∧ (s t).taskAt 0 = t) ∧ h.stopped = true ∧ m.note = none
    ∧ ({ m with note := some 5 } : StopMsg).note = some 5 ∧ (s (task [])).tasksOn 0 (· == 0) = [task []] ∧ (s (task [])).attached 0 = true ∧ (s (task [])).dbg.freeze = none
    ∧ (s (task [])).corePresent 0 = true ∧ ¬ 4 ≤ ((s (task [])).core 0).recorder.queued 0 ∧ 4 ≤ ({ backlog := 4 } : Recorder).queued 0
    ∧ (0 : Nat) ≠ (s (task [])).pkgNo.toNat + 1 := by decide +kernel

theorem test_meets_TrustServices_leaving : let s := onPages { partP with domain := some (dom0 0 .opened) } (callT 0x64 7)
    s.calls 0x64 7 ∧ s.domainAt 0 = some (0, dom0 0 .opened) ∧ (dom0 0 .opened).id = (7 : Word).toNat ∧ s.domain? 0 = some (dom0 0 .opened) :=
  ⟨⟨_, _, rfl, rfl⟩, by decide, by decide, by decide⟩

theorem test_meets_DebugRequests_heads : let v : Saved := { gtid := 9, capid := 1, task := { task [] with gtid := 9 }, va := 0x4000, byCaldera := true }
    let s := dbgd {} (task [])
    let h : DebugHead := { session := 3, id := 5 }
    let p : Partition := { part0 with dbg := { session := some 3 }, saved := [v] }
    let q := { s with parts := [(0, p)] }
    s.debugs h.session 0 { part0 with dbg := { session := some 3 } } ∧ q.debugs h.session 0 p ∧ h.other = none ∧ ({ h with other := some 0x77 } : DebugHead).other = some 0x77 ∧ mapGet s.sessions h.session = some (sess 0 .secured)
    ∧ (∀ e ∈ s.parts, e.1 ≠ 0 → e.2.dbg.session ≠ some h.session) ∧ q.running? 0 9 = none ∧ (p.saved.find? fun x => x.gtid == 9) = some v ∧ s.domainAt 0 = none := by
  refine ⟨⟨_, rfl, rfl, rfl, rfl, rfl⟩, ⟨_, rfl, rfl, rfl, rfl, rfl⟩, ?_⟩
  decide +kernel

theorem test_meets_HostRequests_turns : let s := onPages partP (task [])
    let b := { State.reset with hl := { State.reset.hl with reqring := 0x5000 }, mem := (hostBase + 0x5008, 1) :: [(hostBase + 0x5040, 7)] }
    let w := { State.reset with sessions := [(2, { phase := .secured, world := 0 })] }
    let a := { at_ { task [] with run := .parked 5 (.watch (2 ^ 30 + 8) 8 0 0 9) } with hl := { State.reset.hl with hdm := #v[BitVec.ofNat 64 (2 ^ 30 + 1), 0] } }
    let m := { s with macBad := [0x1000] }
    (∀ k ∈ [1, 2, 3, 4, 6], b.ringBusy k = true ∧ s.ringBusy k = false) ∧ mapGet w.sessions 2 = some { phase := .secured, world := 0 } ∧ w.mgmt.start.dies.getLsbD 3 = true
    ∧ a.inHdm (2 ^ 30) = true ∧ a.memOk ∧ (∀ e ∈ a.slots, mapGet a.slots e.1 = some e.2) ∧ (a.taskAt 0).run = .parked 5 (.watch (2 ^ 30 + 8) 8 0 0 9) ∧ 2 ^ 30 + 8 < 2 ^ 30 + 64
    ∧ s.sealedOff 0x40000 = false ∧ m.macMeets [⟨0x40000, 8, 3⟩] = true ∧ s.macMeets [⟨0x40000, 8, 3⟩] = false ∧ m.poisonMeets [⟨0x40000, 8, 3⟩] = false ∧ s.sealedOff arenaBase = true := by
  unfold State.memOk; decide +kernel

theorem test_meets_ManagementEvents_starts : let m := State.reset.mgmt
    let f := { m with startDue := true, nextKind := 3, alts := (1 : BitVec 9) <<< 3 }
    let r := { m with recoveryForm := true }
    m.update = none ∧ m.halted = false ∧ m.failSteps = [] ∧ m.skips = 0 ∧ m.imageValid = true ∧ f.alts = (1 : BitVec 9) <<< (4 - 1) ∧ f.startDue = true ∧ f.nextKind = 3 ∧ ({ f with nextKind := 2 } : Mgmt).nextKind = 2
    ∧ r.update = none ∧ r.startDue = false ∧ ({ r with update := some ⟨2, true⟩ } : Mgmt).recoveryForm = true ∧ ({ m with halted := true } : Mgmt).halted = true
    ∧ (∀ d ∈ part0.dir, d.2.waiters = []) ∧ (∀ x ∈ State.reset.arenaUsed, arenaBase < x.1 ∨ x.1 + x.2 ≤ arenaBase) ∧ ¬ arenaBase ≤ 0x34000 ∧ State.reset.dbg.freeze = none := by decide +kernel

theorem test_meets_AttestationSessions_attached : (∀ e ∈ (at_ (task [])).parts, e.2.dbg.session ≠ some 3) ∧ ((dbgd {} (task [])).partOf? 0).map (·.dbg.session) = some (some 3) := by decide

theorem test_meets_DomainEvents_senders : let d := dom0 3 .opened
    let r (n : Nat) : JoinReport := { member := 3, answered := n, meas := [], digest := [] }
    let b (kind : Nat) : List Byte := leBytes 12 (packFields [(40, 0), (2, 1), (19, 0), (19, 3), (16, 5)]) ++ leBytes 1 kind ++ leBytes 1 0 ++ leBytes 2 7 ++ zeros 16
    let x := State.nonceOf (leNat ((b 5).take 12))
    d.coord ≠ 0 ∧ d.keyBy ≠ d.coord ∧ (dom0 0 .opened).coord = 0 ∧ (∃ x ∈ (dom0 0 .keyed).joined, x ≠ 0 ∧ x ≠ 4 ∧ x ∉ (dom0 0 .keyed).ready) ∧ (∀ x ∈ (dom0 0 .keyed).joined, x ≠ 0 → x = 3 ∨ x ∈ (dom0 0 .keyed).ready)
    ∧ 8 ≤ (r 8).answered ∧ (r 8).meas = d.meas ∧ (r 8).digest = d.digest ∧ ¬ 8 ≤ (r 7).answered
    ∧ (∀ k ∈ [0, 3, 4, 5], (b k).length = 32 + 16 * leNat (((b k).drop 13).take 1) ∧ leNat (((b k).drop 12).take 1) = k ∧ leNat (((b k).drop 14).take 2) = d.id)
    ∧ x.dst = 0 ∧ x.src = 3 ∧ x.ch = 1 ∧ x.gen = d.gen ∧ x.seq = (mapGet d.recvSeq (4 * x.src + x.ch)).getD 0 ∧ 4 * x.src + x.ch ∉ d.broken ∧ x.src ∈ d.members := by decide +kernel

theorem test_meets_StepRunsDecoded_parks : let s := { State.reset.withText (leBytes 4 0x0020E714) with slots := [(0, { State.fetchTask with sFull := ~~~0x100 })] }
    s.agenda = [] ∧ s.turn < 2048 ∧ s.frameChange = false ∧ s.nextPick = some (.parks 0) ∧ (s.taskAt 0).fwCall = none ∧ (s.taskAt 0).due = [] ∧ (s.codeOf? (s.taskAt 0)).isSome = true
    ∧ (decode (leBytes 4 0x0020E714)).isOk = true := by decide +kernel

end Sys2Proof.Tests
end

section
/-! PROOFS. Byte order (00:R5): numbers as bytes, memory that holds them, and the words of an instruction. -/

namespace Sys2Proof

/-! ### Numbers as bytes -/

@[simp] theorem leNat_leBytes (n x : Nat) : leNat (leBytes n x) = x % 256 ^ n := by
  induction n generalizing x with
  | zero => simp [leBytes, leNat, Nat.mod_one]
  | succ n ih =>
    calc leNat (leBytes (n + 1) x)
        = x % 256 + 256 * (x / 256 % 256 ^ n) := by simp [leBytes, leNat, ih]
      _ = x % (256 * 256 ^ n) := Nat.mod_mul.symm
      _ = x % 256 ^ (n + 1) := by rw [Nat.pow_succ']

theorem pow_256_eq_two_pow (n : Nat) : 256 ^ n = 2 ^ (8 * n) := by rw [Nat.pow_mul]

/-! ### Words as bytes -/

theorem bytesOfWords_cons (w : IWord) (ws : List IWord) : bytesOfWords (w :: ws) = leBytes 4 w.toNat ++ bytesOfWords ws := rfl

theorem wordsOfBytes_leBytes_append (w : IWord) (bs : List Byte) : wordsOfBytes (leBytes 4 w.toNat ++ bs) = w :: wordsOfBytes bs := by
  have hw : BitVec.ofNat 32 (leNat (leBytes 4 w.toNat)) = w := by
    rw [leNat_leBytes, Nat.mod_eq_of_lt (show w.toNat < 256 ^ 4 from w.isLt), BitVec.ofNat_toNat, BitVec.setWidth_eq]
  exact congrArg (· :: wordsOfBytes bs) hw

theorem wordsOfBytes_bytesOfWords (ws : List IWord) : wordsOfBytes (bytesOfWords ws) = ws := by
  induction ws with
  | nil => rfl
  | cons w ws ih => rw [bytesOfWords_cons, wordsOfBytes_leBytes_append, ih]

/-! ### The length bits of an encoded instruction (10:R158) -/

theorem packFields_cons_mod (w v : Nat) (r : List (Nat × Nat)) : packFields ((w, v) :: r) % 2 ^ w = v % 2 ^ w := by
  simp [packFields]

theorem wordsOf_eq (w : IWord) : wordsOf w = if w.toNat % 4 = 2 then 2 else if w.toNat % 4 = 3 then 3 else 1 := by
  unfold wordsOf; split <;> simp_all

/-- Bits 1:0 of a packed word are those of its lowest field, 2 bits wide. -/
theorem lengthBits_packFields (v : Nat) (fs : List (Nat × Nat)) : (BitVec.ofNat 32 (packFields ((2, v) :: fs))).toNat % 4 = v % 4 := by
  rw [BitVec.toNat_ofNat, Nat.mod_mod_of_dvd _ (by decide)]
  exact packFields_cons_mod 2 v fs

theorem Raw.words_eq_cons (r : Raw) : ∃ ws, r.words = r.word0 :: ws := by
  obtain ⟨len, major, body, hi, lit⟩ := r
  cases len <;> exact ⟨_, rfl⟩

/-- The length bits of the first word count the words. -/
theorem Raw.length_words (r : Raw) : r.words.length = wordsOf r.word0 := by
  obtain ⟨len, major, body, hi, lit⟩ := r
  rw [wordsOf_eq]
  cases len <;> simp only [Raw.word0, lengthBits_packFields] <;> rfl

/-- Only an instruction of a form the encoder knows is well formed: a service, engine command or event is not. -/
theorem Instr.toRaw_isSome_or_not_formOk (i : Instr) : (i.toRaw.isSome || !i.formOk) = true := by
  cases i <;> rfl

theorem Instr.exists_toRaw {i : Instr} (h : i.wf = true) : ∃ r, i.toRaw = some r := by
  have := i.toRaw_isSome_or_not_formOk
  rw [Instr.wf_form h, Bool.not_true, Bool.or_false] at this
  exact Option.isSome_iff_exists.1 this

theorem encode_eq_words {i : Instr} {r : Raw} (h : i.toRaw = some r) : encode i = r.words := by
  unfold encode; rw [h]

/-- A well-formed instruction has a first word, and its length bits count the words. -/
theorem encode_eq_cons {i : Instr} (h : i.wf = true) : ∃ w ws, encode i = w :: ws ∧ (encode i).length = wordsOf w := by
  obtain ⟨r, hr⟩ := Instr.exists_toRaw h
  obtain ⟨ws, hws⟩ := r.words_eq_cons
  exact ⟨r.word0, ws, encode_eq_words hr ▸ hws, encode_eq_words hr ▸ r.length_words⟩

/-- The first byte of words is the low byte of the first word, so it holds that word's length bits. -/
theorem bytesOfWords_head (w : IWord) (ws : List IWord) : ∃ b r, bytesOfWords (w :: ws) = b :: r ∧ b.toNat % 4 = w.toNat % 4 := by
  refine ⟨BitVec.ofNat 8 w.toNat, _, rfl, ?_⟩
  rw [BitVec.toNat_ofNat, Nat.mod_mod_of_dvd _ (by decide)]

/-! ### Numbers in memory -/

namespace Machine

theorem memGet_memPut {m : Mem} {n i : Nat} (a x : Nat) (w : Mem.wf m = true) (h : i < n) :
    memGet (memPut m a n x) (a + i) = BitVec.ofNat 8 (x / 256 ^ i) := by
  have hi : i < (leBytes n x).length := by rwa [State.length_leBytes]
  rw [memPut, memGet_memWrite_in _ w hi, State.getElem_leBytes]

theorem memRead_memPut {m : Mem} (a n x : Nat) (w : Mem.wf m = true) : memRead (memPut m a n x) a n = leBytes n x := by
  have := memRead_memWrite (leBytes n x) a w
  rwa [State.length_leBytes] at this

theorem memNat_memPut {m : Mem} (a n x : Nat) (w : Mem.wf m = true) : memNat (memPut m a n x) a n = x % 256 ^ n := by
  rw [memNat, memRead_memPut a n x w, leNat_leBytes]

end Machine

/-! ### The statement -/

open Machine

/-- Settles O57: a number is stored as `leBytes` lists it, so it reads back; `wordsOfBytes` undoes `bytesOfWords` word by word; and the
length bits are the lowest field of an encoding's first word, so they stand in its first byte. -/
theorem byteOrder : Obligations.ByteOrder := by
  unfold Obligations.ByteOrder
  refine ⟨fun m a n x w => ⟨fun i h => ?_, ?_⟩, wordsOfBytes_bytesOfWords, fun i h => ?_⟩
  · rw [memGet_memPut a x w h, BitVec.toNat_ofNat, pow_256_eq_two_pow]
  · rw [memNat_memPut a n x w, pow_256_eq_two_pow]
  · obtain ⟨w, ws, hw, hlen⟩ := encode_eq_cons h
    obtain ⟨b, r, hb, hlow⟩ := bytesOfWords_head w ws
    exact ⟨b, r, hw ▸ hb, by rw [hlen, wordsOf_eq, hlow]⟩

end Sys2Proof
end

section
/-! PROOFS. Number formats (04:R67, R68, R71, R73): the fields of an encoding, its value, and the rounding of that value. -/

namespace Sys2Proof.Machine

/-! ### The fields of an encoding -/

/-- The sign bit of an encoding (04:R67). -/
def Fmt.signBit (f : Fmt) (x : Nat) : Bool := x / 2 ^ (f.eb + f.mb) % 2 == 1

/-- An encoding without its sign bit: the exponent field above the mantissa field (04:R67). -/
def Fmt.magBits (f : Fmt) (x : Nat) : Nat := x % 2 ^ (f.eb + f.mb)

variable {f : Fmt}

theorem Fmt.magBits_div (f : Fmt) (x : Nat) : f.magBits x / 2 ^ f.mb = x / 2 ^ f.mb % 2 ^ f.eb := by
  rw [Fmt.magBits, Nat.add_comm, Nat.pow_add, Nat.mod_mul_right_div_self]

theorem Fmt.magBits_mod (f : Fmt) (x : Nat) : f.magBits x % 2 ^ f.mb = x % 2 ^ f.mb :=
  Nat.mod_mod_of_dvd x (Nat.pow_dvd_pow 2 (Nat.le_add_left _ _))

theorem Fmt.magBits_lt (f : Fmt) (x : Nat) : f.magBits x < 2 ^ (f.eb + f.mb) := Nat.mod_lt _ (Nat.two_pow_pos _)

/-- Sign and magnitude make up an encoding that is no wider than its format. -/
theorem Fmt.signed_signBit_magBits {x : Nat} (h : x < 2 ^ (1 + f.eb + f.mb)) : f.signed (f.signBit x) (f.magBits x) = x := by
  have hs : x / 2 ^ (f.eb + f.mb) < 2 := Nat.div_lt_of_lt_mul (by rwa [← Nat.pow_succ, Nat.succ_eq_one_add, ← Nat.add_assoc])
  have hb : ofBool (f.signBit x) = x / 2 ^ (f.eb + f.mb) := by
    obtain h0 | h1 := Nat.le_one_iff_eq_zero_or_eq_one.1 (Nat.le_of_lt_succ hs)
    · rw [Fmt.signBit, h0]; rfl
    · rw [Fmt.signBit, h1]; rfl
  rw [Fmt.signed, hb, Fmt.magBits, Nat.mod_add_div']

/-! ### The value of an encoding -/

/-- The finite value that the exponent and mantissa fields in `g` stand for: subnormal below `2 ^ mb`, normal from there on (04:R67). -/
def Fmt.finVal (f : Fmt) (neg : Bool) (g : Nat) : FVal :=
  if g / 2 ^ f.mb = 0 then .fin neg (g % 2 ^ f.mb) (1 - (f.bias : Int) - f.mb)
  else .fin neg (g % 2 ^ f.mb + 2 ^ f.mb) ((g / 2 ^ f.mb : Nat) - (f.bias : Int) - f.mb)

/-- `maxBits` is the last magnitude that is finite: the next one is the infinity where the format has infinities, else its NaN, which is the
last magnitude, else there is none (04:R67). A format with infinities has NaNs. -/
def Fmt.Wf (f : Fmt) : Prop :=
  (f.infs = true → f.hasNan = true ∧ f.maxBits + 1 = (2 ^ f.eb - 1) * 2 ^ f.mb)
  ∧ (f.infs = false → f.maxBits + 1 = (if f.hasNan then f.nan else 2 ^ (f.eb + f.mb)) ∧ (f.hasNan = true → f.nan + 1 = 2 ^ (f.eb + f.mb)))

theorem wf_of_mem_formats : ∀ f ∈ [f32, f16, bf16, e5m2, e4m3, e3m2, e2m3, e2m1], f.Wf := by
  unfold Fmt.Wf; decide

/-- `decode` in terms of sign and magnitude. -/
theorem Fmt.decode_eq (f : Fmt) (x : Nat) : f.decode x =
    if f.infs = true ∧ f.magBits x / 2 ^ f.mb = 2 ^ f.eb - 1 then (if f.magBits x % 2 ^ f.mb = 0 then .inf (f.signBit x) else .nan)
    else if f.infs = false ∧ f.hasNan = true ∧ f.magBits x = f.nan then .nan
    else f.finVal (f.signBit x) (f.magBits x) := by
  simp only [Fmt.finVal, Fmt.magBits_div, Fmt.magBits_mod]
  simp [Fmt.decode, Fmt.signBit, Fmt.magBits, and_assoc]

/-- A magnitude whose exponent field is not all ones lies below the infinity. -/
theorem Fmt.magBits_lt_of_div_ne {x : Nat} (h : f.magBits x / 2 ^ f.mb ≠ 2 ^ f.eb - 1) : f.magBits x < (2 ^ f.eb - 1) * 2 ^ f.mb := by
  have hlt : f.magBits x / 2 ^ f.mb < 2 ^ f.eb := Nat.div_lt_of_lt_mul (by rw [← Nat.pow_add, Nat.add_comm]; exact f.magBits_lt x)
  exact (Nat.div_lt_iff_lt_mul (Nat.two_pow_pos _)).1 (by omega)

/-- What an encoding can stand for: a NaN, an infinity, or a finite value, whose magnitude is at most `maxBits`. -/
theorem Fmt.decode_cases (w : f.Wf) (x : Nat) :
    (f.decode x = .nan ∧ f.hasNan = true)
    ∨ (f.decode x = .inf (f.signBit x) ∧ f.infs = true ∧ f.magBits x = (2 ^ f.eb - 1) * 2 ^ f.mb)
    ∨ (f.decode x = f.finVal (f.signBit x) (f.magBits x) ∧ f.magBits x ≤ f.maxBits) := by
  obtain ⟨winf, wfin⟩ := w
  rw [f.decode_eq x]
  cases hi : f.infs with
  | true =>
    obtain ⟨hn, hmax⟩ := winf hi
    by_cases he : f.magBits x / 2 ^ f.mb = 2 ^ f.eb - 1
    · by_cases hm : f.magBits x % 2 ^ f.mb = 0
      · have hg := Nat.div_mul_cancel (Nat.dvd_of_mod_eq_zero hm)
        exact .inr (.inl ⟨by simp [he, hm], rfl, by rw [← hg, he]⟩)
      · exact .inl ⟨by simp [he, hm], hn⟩
    · have hlt := Fmt.magBits_lt_of_div_ne he
      exact .inr (.inr ⟨by simp [he], by omega⟩)
  | false =>
    obtain ⟨hmax, hlast⟩ := wfin hi
    have hlt := f.magBits_lt x
    cases hn : f.hasNan with
    | true =>
      simp only [hn, if_true] at hmax
      by_cases hg : f.magBits x = f.nan
      · exact .inl ⟨by simp [hg], rfl⟩
      · have := hlast hn
        exact .inr (.inr ⟨by simp [hg], by omega⟩)
    | false =>
      simp only [hn, Bool.false_eq_true, if_false] at hmax
      exact .inr (.inr ⟨by simp, by omega⟩)

theorem Fmt.finVal_ne_nan (f : Fmt) (neg : Bool) (g : Nat) : f.finVal neg g ≠ .nan := by
  unfold Fmt.finVal; split <;> exact FVal.noConfusion

/-! ### The rounding of a value the format holds -/

@[simp] theorem roundMag_self (rnd : Rnd) (neg : Bool) (m : Nat) (q : Int) : roundMag rnd neg m q q = m := by simp [roundMag]

theorem Fmt.round_inf (rnd : Rnd) (sat neg : Bool) (h : f.infs = true) :
    (f.round rnd sat (.inf neg)).bits = f.signed neg ((2 ^ f.eb - 1) * 2 ^ f.mb) := by simp [Fmt.round, h]

/-- A value whose exponent is that of the spacing it is rounded with is not changed: its mantissa `m` goes to the fields as it is. -/
theorem Fmt.round_of_spacing (rnd : Rnd) (sat neg : Bool) {m g : Nat} {e : Int} (h0 : m ≠ 0)
    (hq : max ((Nat.log2 m : Int) + e - f.mb) (1 - (f.bias : Int) - f.mb) = e)
    (hg : (if m < 2 ^ f.mb then m else (e - (1 - (f.bias : Int) - f.mb) + 1).toNat * 2 ^ f.mb + (m - 2 ^ f.mb)) = g) (hmax : g ≤ f.maxBits) :
    (f.round rnd sat (.fin neg m e)).bits = f.signed neg g := by
  simp only [Fmt.round, h0, if_false, hq, roundMag_self, hg, Nat.not_lt.2 hmax]

/-- A subnormal is a multiple of the smallest spacing, and a zero keeps its sign. -/
theorem Fmt.round_subnormal (rnd : Rnd) (sat neg : Bool) {m : Nat} (hm : m < 2 ^ f.mb) (hmax : m ≤ f.maxBits) :
    (f.round rnd sat (.fin neg m (1 - (f.bias : Int) - f.mb))).bits = f.signed neg m := by
  by_cases h0 : m = 0
  · simp [Fmt.round, h0]
  · have hlog : Nat.log2 m < f.mb := (Nat.log2_lt h0).2 hm
    exact Fmt.round_of_spacing rnd sat neg h0 (by omega) (if_pos hm) hmax

/-- A normal value has `mb + 1` significant bits, so its binade's spacing is its own last place. -/
theorem Fmt.round_normal (rnd : Rnd) (sat neg : Bool) {m e : Nat} (hm : m < 2 ^ f.mb) (he : e ≠ 0) (hmax : e * 2 ^ f.mb + m ≤ f.maxBits) :
    (f.round rnd sat (.fin neg (m + 2 ^ f.mb) (e - (f.bias : Int) - f.mb))).bits = f.signed neg (e * 2 ^ f.mb + m) := by
  have hlog : Nat.log2 (m + 2 ^ f.mb) = f.mb := (Nat.log2_eq_iff (by omega)).2 ⟨by omega, by omega⟩
  have hexp : ((e : Int) - f.bias - f.mb - (1 - (f.bias : Int) - f.mb) + 1).toNat = e := by omega
  refine Fmt.round_of_spacing rnd sat neg (by omega) (by omega) ?_ hmax
  rw [if_neg (by omega), hexp, Nat.add_sub_cancel]

/-- Every finite value that a format holds rounds to the fields it was read from. -/
theorem Fmt.round_finVal (rnd : Rnd) (sat neg : Bool) {g : Nat} (hmax : g ≤ f.maxBits) :
    (f.round rnd sat (f.finVal neg g)).bits = f.signed neg g := by
  have hm : g % 2 ^ f.mb < 2 ^ f.mb := Nat.mod_lt _ (Nat.two_pow_pos _)
  have hg := Nat.div_add_mod' g (2 ^ f.mb)
  unfold Fmt.finVal
  split
  next h0 =>
    rw [h0, Nat.zero_mul, Nat.zero_add] at hg
    rw [hg] at hm ⊢
    exact Fmt.round_subnormal rnd sat neg hm hmax
  next h0 =>
    rw [Fmt.round_normal rnd sat neg hm h0 (hg.symm ▸ hmax), hg]

/-- An encoding that is no NaN is the rounding of its own value. -/
theorem Fmt.round_decode (w : f.Wf) (rnd : Rnd) (sat : Bool) {x : Nat} (hx : x < 2 ^ (1 + f.eb + f.mb)) (h : f.decode x ≠ .nan) :
    (f.round rnd sat (f.decode x)).bits = x := by
  obtain ⟨hd, -⟩ | ⟨hd, hi, hg⟩ | ⟨hd, hg⟩ := Fmt.decode_cases w x
  · exact absurd hd h
  · rw [hd, Fmt.round_inf rnd sat _ hi, ← hg, Fmt.signed_signBit_magBits hx]
  · rw [hd, Fmt.round_finVal rnd sat _ hg, Fmt.signed_signBit_magBits hx]

theorem Fmt.hasNan_of_decode_eq_nan (w : f.Wf) {x : Nat} (h : f.decode x = .nan) : f.hasNan = true := by
  obtain ⟨-, hn⟩ | ⟨hd, -⟩ | ⟨hd, -⟩ := Fmt.decode_cases w x
  · exact hn
  · exact FVal.noConfusion (h.symm.trans hd)
  · exact absurd (hd.symm.trans h) (f.finVal_ne_nan _ _)

/-! ### NaN in the order of values, and the scale type -/

@[simp] theorem FVal.nan_lt (v : FVal) : FVal.lt .nan v = false := rfl

@[simp] theorem FVal.lt_nan (v : FVal) : FVal.lt v .nan = false := by cases v <;> rfl

@[simp] theorem FVal.nan_eqv (v : FVal) : FVal.eqv .nan v = false := rfl

/-- An element of type E8M0 takes no scale of its own (04:R68). -/
theorem elemValue_e8m0 (sc e : Nat) : elemValue 0x10 sc e = e8m0Value e := rfl

theorem e8m0Value_of_lt {e : Nat} (h : e < 256) : e8m0Value e = if e = 255 then .nan else .fin false 1 ((e : Int) - 127) := by
  rw [e8m0Value, Nat.mod_eq_of_lt h]

/-- E8M0 has no infinity and no zero (04:R68). -/
theorem e8m0Value_ne_inf_zero (e : Nat) (neg : Bool) (exp : Int) : e8m0Value e ≠ .inf neg ∧ e8m0Value e ≠ .fin neg 0 exp := by
  unfold e8m0Value; split <;> simp

/-! ### The statement -/

/-- Settles O17: an encoding is a NaN, an infinity or a finite value of at most `maxBits`, and rounding gives the last two back because a
format's own values are multiples of the spacing it rounds with. -/
theorem encodingsRoundToThemselves : Obligations.EncodingsRoundToThemselves := by
  unfold Obligations.EncodingsRoundToThemselves
  refine ⟨fun f hf x rnd sat hx => ?_, fun sc e he => ?_⟩
  · have w := wf_of_mem_formats f hf
    refine ⟨Fmt.round_decode w rnd sat hx, fun h => ⟨by rw [h, Fmt.round], Fmt.hasNan_of_decode_eq_nan w h⟩, fun v => ?_⟩
    exact ⟨FVal.nan_lt v, FVal.lt_nan v, FVal.nan_eqv v⟩
  · rw [elemValue_e8m0]
    exact ⟨e8m0Value_of_lt he, e8m0Value_ne_inf_zero e⟩

end Sys2Proof.Machine
end

section
/-! PROOFS. Vector reductions and moves (12:R204, R205, R209 to R211): `vdot4`, `vsum`, `vwhile`, `pcnt` and the moves. -/

namespace Sys2Proof.Machine

/-! ### A result in its type (04:R66) -/

theorem wrapTo_lt (w : Nat) (x : Int) : wrapTo w x < 2 ^ w := by
  have hpos : (0 : Int) < 2 ^ w := by positivity
  rw [wrapTo, Int.toNat_lt (Int.emod_nonneg _ hpos.ne')]
  exact_mod_cast Int.emod_lt_of_pos x hpos

theorem reduce_lt (ty : BitVec 5) (sat : Bool) (x : Int) : reduce ty sat x < 2 ^ elemBits ty := by
  unfold reduce
  split
  · exact wrapTo_lt _ _
  · split <;> exact wrapTo_lt _ _

@[simp] theorem reduce_mod (ty : BitVec 5) (sat : Bool) (x : Int) : reduce ty sat x % 2 ^ elemBits ty = reduce ty sat x :=
  Nat.mod_eq_of_lt (reduce_lt ty sat x)

/-! ### What a move keeps of an element (04:R69, 12:R211) -/

/-- An E3M2 or E2M3 element as it is read: bits 7:6 are ignored; an element of another type stays as it is (04:R69). -/
def readBits (ty : BitVec 5) (x : Nat) : Nat := if ty ∈ [0x0D, 0x0E, 0x13, 0x14] then x % 64 else x

/-- A move writes the element as it is read, in the width of its type. -/
theorem moved_eq (ty : BitVec 5) (x : Nat) : moved ty x = readBits ty x % 2 ^ elemBits ty := by
  have hty : [0x0D, 0x0E, 0x13, 0x14].contains ty.toNat = decide (ty ∈ [(0x0D : BitVec 5), 0x0E, 0x13, 0x14]) := by
    revert ty; decide
  by_cases h : ty ∈ [(0x0D : BitVec 5), 0x0E, 0x13, 0x14]
  · have hw : elemBits ty = 8 := by revert ty; decide
    rw [moved, hty, decide_eq_true h, if_pos rfl, readBits, if_pos h, hw]
    omega
  · rw [moved, hty, decide_eq_false h, if_neg Bool.false_ne_true, readBits, if_neg h]

theorem readBits_le (ty : BitVec 5) (x : Nat) : readBits ty x ≤ x := by
  unfold readBits
  split
  · exact Nat.mod_le _ _
  · exact Nat.le_refl x

theorem moved_mod (ty : BitVec 5) (x : Nat) : moved ty x % 2 ^ elemBits ty = readBits ty x % 2 ^ elemBits ty := by
  rw [moved_eq, Nat.mod_mod]

/-- An element already has the width of its type. -/
theorem moved_elem (ty : BitVec 5) (v : VWord) (i : Nat) : moved ty (elem v ty i) = readBits ty (elem v ty i) := by
  rw [moved_eq, Nat.mod_eq_of_lt (Nat.lt_of_le_of_lt (readBits_le _ _) (elem_lt v ty i))]

/-- No signed type is one of the six-bit types. -/
theorem readBits_of_isSigned {ty : BitVec 5} (h : isSigned ty = true) (x : Nat) : readBits ty x = x := by
  have : ty ∉ [(0x0D : BitVec 5), 0x0E, 0x13, 0x14] := by revert ty; decide
  rw [readBits, if_neg this]

theorem elemBits_bounds (ty : BitVec 5) : 0 < elemBits ty ∧ elemBits ty ≤ 64 := by revert ty; decide

theorem elem_lt_two_pow_64 (v : VWord) (ty : BitVec 5) (i : Nat) : elem v ty i < 2 ^ 64 :=
  Nat.lt_of_lt_of_le (elem_lt v ty i) (Nat.pow_le_pow_right (by decide) (elemBits_bounds ty).2)

/-- The signed value of an element fits in an s register. -/
theorem signOf_elem_bounds (v : VWord) (ty : BitVec 5) (i : Nat) :
    -(2 ^ 63) ≤ signOf (elem v ty i) (elemBits ty) ∧ signOf (elem v ty i) (elemBits ty) < 2 ^ 63 := by
  have hx := elem_lt v ty i
  obtain ⟨hpos, hle⟩ := elemBits_bounds ty
  obtain ⟨n, hn⟩ := Nat.exists_eq_add_one.2 hpos
  have hmax : 2 ^ n ≤ 2 ^ 63 := Nat.pow_le_pow_right (by decide) (by omega)
  rw [hn, Nat.pow_succ] at hx
  rw [signOf, hn, Nat.add_sub_cancel]
  zify at hx hmax
  split
  next hlow => zify at hlow; omega
  next hhigh => zify at hhigh; rw [pow_succ]; omega

/-! ### The frame of a vector instruction -/

namespace State

variable {s : State}

/-- A performed vector instruction goes on with the task its body leaves. -/
theorem vplain_next {dsts : List RegId} {srcs : List (RegId × Bool)} {w : Task → Task} {len : Nat}
    (h : s.vperforms dsts (srcs.map (·.1)) = true) (hst : (w s.task).stepping = s.task.stepping) (hpc : (w s.task).pc = s.task.pc) :
    (.next (s.vplain dsts srcs fun t => s.completeWith (w t) len) : Out) = .next (s.after (w s.task) len) := by
  rw [vplain_performs h, completeWith_after (hst.trans (vperforms_stepping h)) hpc]

/-- A performed instruction goes on with the task its body leaves. -/
theorem plain_next {f : Form} {dsts : List RegId} {srcs : List (RegId × Bool)} {w : Task → Task} {len : Nat}
    (h : s.performs f dsts (srcs.map (·.1)) = true) (hst : (w s.task).stepping = s.task.stepping) (hpc : (w s.task).pc = s.task.pc) :
    (.next (s.plain f dsts srcs fun t => s.completeWith (w t) len) : Out) = .next (s.after (w s.task) len) := by
  rw [plain_performs h, completeWith_after (hst.trans (performs_stepping h)) hpc]

/-- A vector instruction that writes vD leaves its result there and goes on. -/
theorem vmerge_next (d : Reg) (srcs : List (RegId × Bool)) {f : Form} {lat : Nat} {r : Task → VWord}
    (h : s.vperforms [] (srcs.map (·.1) ++ [.v d]) = true) :
    (.next (s.vmerge [d] srcs fun t => s.completeWith (t.writeV s.cycle d (r t) lat) f.bytes) : Out)
      = .next (s.after (s.task.writeV s.cycle d (r s.task) lat) f.bytes) :=
  vplain_next (by simpa using h) (by simp) (by simp)

/-- The same for one that writes lane by lane (12:R196). -/
theorem vmerge_lanes (d : Reg) (srcs : List (RegId × Bool)) {f : Form} {ty : BitVec 5} {lat : Nat} {g : Task → Nat → Nat} {el : Nat → Nat}
    (h : s.vperforms [] (srcs.map (·.1) ++ [.v d]) = true)
    (he : ∀ i, g s.task i % 2 ^ elemBits ty = el i % 2 ^ elemBits ty) :
    s.lanes f ty d lat (.next (s.vmerge [d] srcs fun t =>
      s.completeWith (t.writeV s.cycle d (lanewise (t.guardBits f.guard) ty (t.getV d) (g t)) lat) f.bytes)) el := by
  rw [vmerge, vplain_performs (by simpa using h)]
  exact lanes_of (vperforms_stepping h) fun i _ => he i

end State

/-! ### Reductions (12:R204, R205) -/

/-- The four products of `vdot4` and the accumulator, summed exactly. -/
theorem dotElem_eq (t : Task) (o : VArgs) (j : Nat) :
    let A (i : Nat) : Int := intOf o.ty (elem (t.getV o.a) o.ty i)
    let B (i : Nat) : Int := intOf o.ty (vintB t (isSigned o.ty) o.ty i o.b)
    dotElem t o j = intOf (dotAcc o.ty) (elem (t.getV o.d) (dotAcc o.ty) j)
      + (A (4 * j) * B (4 * j) + A (4 * j + 1) * B (4 * j + 1) + A (4 * j + 2) * B (4 * j + 2) + A (4 * j + 3) * B (4 * j + 3)) := by
  simp only [dotElem, List.range_succ, List.range_zero, List.nil_append, List.foldl_append, List.foldl_cons, List.foldl_nil, Nat.add_zero]
  ring

/-- Adding up the numbers of the elements that pass a test. -/
theorem foldl_add_if (p : Nat → Bool) (f : Nat → Int) (l : List Nat) :
    l.foldl (fun acc i => if p i then acc + f i else acc) 0 = ((l.filter p).map f).sum := by
  rw [List.sum_eq_foldl, List.foldl_map, List.foldl_filter]

theorem exec_vdot4 {s : State} {o : VArgs} (hty : o.ty = 0 ∨ o.ty = 4)
    (h : s.vperforms [] (.v o.a :: o.b.vreads.map (·.1) ++ [.v o.d]) = true) :
    ∃ r, exec (.vdot4 o) s = .next (s.after (s.task.writeV s.cycle o.d r 2) o.f.bytes) ∧ ∀ j, j < 4 →
      elem r (dotAcc o.ty) j = if (s.task.guardBits o.f.guard).getLsbD (4 * j) then
        reduce (dotAcc o.ty) o.sat (dotElem s.task o j) else elem (s.task.getV o.d) (dotAcc o.ty) j := by
  have hl : lanesOf (dotAcc o.ty) = 4 := by rcases hty with hty | hty <;> rw [hty] <;> rfl
  have hbit (j : Nat) : laneBit o.ty (4 * j) = 4 * j := by
    have hw : elemBits o.ty = 8 := by rcases hty with hty | hty <;> rw [hty] <;> rfl
    rw [laneBit, hw, Nat.mul_div_cancel _ (by decide)]
  refine ⟨_, State.vmerge_next o.d ((.v o.a, o.ea) :: o.b.vreads) h, fun j hj => ?_⟩
  rw [elem_fold _ _ _ (by omega) 4 (by omega)]
  simp [hj, active, hbit]

theorem exec_vintVsum {s : State} {o : VUn} (h : s.vperforms [] [.v o.a, .v o.d] = true) :
    ∃ r, exec (.vintVsum o) s = .next (s.after (s.task.writeV s.cycle o.d r 2) o.f.bytes) ∧ ∀ i, i < lanesOf o.ty →
      elem r o.ty i = if i = 0 then reduce o.ty o.sat
        (((List.range (lanesOf o.ty)).filter (active (s.task.guardBits o.f.guard) o.ty)).map fun k => intOf o.ty (elem (s.task.getV o.a) o.ty k)).sum else 0 := by
  refine ⟨_, State.vmerge_next o.d [(.v o.a, o.ea)] h, fun i hi => ?_⟩
  rw [elem_putElem _ _ (by omega) hi, reduce_mod, elem_zero, foldl_add_if]

/-! ### Predicates (12:R209, R210) -/

theorem lanes_fill {ty : BitVec 5} (h : isElem ty = true) : lanesOf ty * elemBits ty = 128 := by revert ty; decide

/-- `vwhile` visits the element a predicate bit belongs to: for E2M1, whose pairs share a bit, the even one. -/
theorem mem_whileLanes {ty : BitVec 5} (h : isElem ty = true) {j : Nat} (hj : j < 16) : j * 8 / elemBits ty ∈ whileLanes ty := by
  have hfill := lanes_fill h
  have hlt : j * 8 / elemBits ty < lanesOf ty := by
    rw [Nat.div_lt_iff_lt_mul (elemBits_bounds ty).1, hfill]; omega
  refine List.mem_filter.2 ⟨List.mem_range.2 hlt, ?_⟩
  by_cases h4 : elemBits ty = 4
  · simp only [h4, Bool.or_eq_true, beq_iff_eq]; omega
  · simp [h4]

/-- The element that `vwhile` visits for a predicate bit, in each width. -/
theorem whileLanes_bit {ty : BitVec 5} {i : Nat} (hi : i ∈ whileLanes ty) (j : Nat) :
    (laneBit ty i ≤ j ∧ j < laneBit ty i + max 1 (elemBits ty / 8)) ↔ i = j * 8 / elemBits ty := by
  by_cases h4 : elemBits ty = 4
  · have heven : i % 2 = 0 := by simpa [h4] using (List.mem_filter.1 hi).2
    rw [laneBit, h4]; omega
  · have hw : 8 ≤ elemBits ty := by clear hi; revert ty; decide
    exact lane_of_bit hw i j

/-- Flags set for the active elements of a list: a bit that element `k` alone of these governs takes the flag of `k`. -/
theorem foldl_setLane_bit {ty : BitVec 5} {j k : Nat} (hj : j < 16) (act c : Nat → Bool) (l : List Nat) (p : PWord)
    (hl : ∀ i ∈ l, (laneBit ty i ≤ j ∧ j < laneBit ty i + max 1 (elemBits ty / 8)) ↔ i = k) :
    (l.foldl (fun acc i => if act i then setLane acc ty i (c i) else acc) p).getLsbD j =
      if k ∈ l ∧ act k then c k else p.getLsbD j := by
  induction l generalizing p with
  | nil => simp
  | cons i l ih =>
    obtain ⟨hi, hl⟩ := List.forall_mem_cons.1 hl
    rw [List.foldl_cons, ih _ hl]
    have hp : (if act i then setLane p ty i (c i) else p).getLsbD j = if i = k ∧ act i then c i else p.getLsbD j := by
      by_cases ha : act i = true
      · simp only [ha, if_true, setLane_bit _ _ _ _ hj, hi, and_true]
      · simp [ha]
    rw [hp]
    by_cases hk : i = k
    · subst hk; by_cases ha : act i = true <;> simp [ha]
    · simp [hk, Ne.symm hk]

theorem exec_vwhile {s : State} (g : Guard) {ty : BitVec 5} (d : BitVec 3) {a : Reg} (ea : Bool) {b : Reg} (eb : Bool) (hty : isElem ty = true)
    (h : s.vperforms [] [.s a, .s b] = true) :
    s.flagged (.w64 g) ty d 1 (exec (.vwhile g ty d a ea b eb) s) fun i => decide ((s.task.getS a).toNat + i < (s.task.getS b).toNat) := by
  refine ⟨_, State.vplain_next (srcs := [(.s a, ea), (.s b, eb)]) h (by simp) (by simp), fun j hj => ?_⟩
  rw [foldl_setLane_bit hj _ _ _ _ fun i hi => whileLanes_bit hi j]
  exact if_congr (and_iff_right (mem_whileLanes hty hj)) rfl rfl

theorem exec_pcnt {s : State} (ty : BitVec 5) {d : Reg} (a : BitVec 3) (h : s.vperforms [.s d] [] = true) :
    exec (.pcnt ty d a) s = .next (s.after (s.task.writeS s.cycle d
      (BitVec.ofNat 64 ((List.range (lanesOf ty)).filter fun i => (s.task.getP a).getLsbD (i * elemBits ty / 8)).length) 1) 8) :=
  State.vplain_next (srcs := []) h (by simp) (by simp)

/-! ### Moves (12:R211) -/

theorem exec_vmov {s : State} {o : VUn} (h : s.vperforms [] [.v o.a, .v o.d] = true) :
    s.lanes o.f o.ty o.d 2 (exec (.vmov o) s) fun i => readBits o.ty (elem (s.task.getV o.a) o.ty i) :=
  State.vmerge_lanes o.d [(.v o.a, o.ea)] h fun _ => moved_mod _ _

theorem exec_vbcast {s : State} {o : VUn} (h : s.vperforms [] [.s o.a, .v o.d] = true) :
    s.lanes o.f o.ty o.d 2 (exec (.vbcast o) s) fun _ => readBits o.ty (s.task.getS o.a).toNat :=
  State.vmerge_lanes o.d [(.s o.a, o.ea)] h fun _ => moved_mod _ _

theorem exec_vperm {s : State} {o : VMovArgs} (h : s.vperforms [] [.v o.a, .v o.b, .v o.d] = true) :
    s.lanes o.f o.ty o.d 2 (exec (.vperm o) s) fun i =>
      if readBits o.ty (elem (s.task.getV o.b) o.ty i) < lanesOf o.ty then
        readBits o.ty (elem (s.task.getV o.a) o.ty (readBits o.ty (elem (s.task.getV o.b) o.ty i))) else 0 :=
  State.vmerge_lanes o.d [(.v o.a, o.ea), (.v o.b, o.eb)] h fun i => by simp only [moved_elem]

theorem exec_vsel {s : State} {o : VMovArgs} (h : s.vperforms [] [.v o.a, .v o.b, .v o.d] = true) :
    ∃ r, exec (.vsel o) s = .next (s.after (s.task.writeV s.cycle o.d r 2) o.f.bytes) ∧ ∀ i, i < lanesOf o.ty →
      elem r o.ty i = readBits o.ty (if active (s.task.guardBits o.f.guard) o.ty i then elem (s.task.getV o.a) o.ty i
        else elem (s.task.getV o.b) o.ty i) := by
  refine ⟨_, State.vmerge_next o.d [(.v o.a, o.ea), (.v o.b, o.eb)] h, fun i hi => ?_⟩
  rw [elem_wholeLanes _ _ hi, moved_mod, ← moved_eq, moved_elem]
  split <;> rfl

theorem exec_vins {s : State} {o : VIdxArgs} (hk : o.k.toNat < lanesOf o.ty) (h : s.performs o.f [] [.s o.a, .v o.d] = true) :
    ∃ r, exec (.vins o) s = .next (s.after (s.task.writeV s.cycle o.d r 2) o.f.bytes) ∧ ∀ i, i < lanesOf o.ty →
      elem r o.ty i = if i = o.k.toNat then readBits o.ty (s.task.getS o.a).toNat % 2 ^ elemBits o.ty else elem (s.task.getV o.d) o.ty i := by
  refine ⟨_, State.plain_next (srcs := [(.s o.a, o.ea), (.v o.d, false)]) h (by simp) (by simp), fun i hi => ?_⟩
  rw [elem_putElem _ _ hk hi, moved_mod]

/-- What `vext` writes: the element, sign-extended for a signed type and zero-extended for the others. -/
def extracted (ty : BitVec 5) (x : Nat) : Word :=
  if isSigned ty then BitVec.ofInt 64 (signOf x (elemBits ty)) else BitVec.ofNat 64 x

theorem extracted_toNat {ty : BitVec 5} (h : isSigned ty = false) (v : VWord) (i : Nat) :
    (extracted ty (moved ty (elem v ty i))).toNat = readBits ty (elem v ty i) := by
  have hlt := Nat.lt_of_le_of_lt (readBits_le ty _) (elem_lt_two_pow_64 v ty i)
  rw [extracted, h, if_neg Bool.false_ne_true, moved_elem, BitVec.toNat_ofNat, Nat.mod_eq_of_lt hlt]

theorem extracted_toInt {ty : BitVec 5} (h : isSigned ty = true) (v : VWord) (i : Nat) :
    (extracted ty (moved ty (elem v ty i))).toInt = signOf (elem v ty i) (elemBits ty) := by
  obtain ⟨hlo, hhi⟩ := signOf_elem_bounds v ty i
  rw [extracted, if_pos h, moved_elem, readBits_of_isSigned h, toInt_ofInt hlo hhi]

theorem exec_vext {s : State} {o : VIdxArgs} (h : s.performs o.f [.s o.d] [.v o.a] = true) :
    exec (.vext o) s = .next (s.after (s.task.writeS s.cycle o.d
      (extracted o.ty (moved o.ty (elem (s.task.getV o.a) o.ty o.k.toNat))) 2) o.f.bytes) :=
  State.plain_next (srcs := [(.v o.a, o.ea)]) h (by simp) (by simp)

/-! ### The statement -/

/-- Settles O15: each instruction runs its body on the registers it reads, and what the body writes is known element by element. -/
theorem vectorReductionsAndMoves : Obligations.VectorReductionsAndMoves := by
  unfold Obligations.VectorReductionsAndMoves
  refine ⟨⟨fun s o hty h => ?_, fun s o _ h => exec_vintVsum h⟩, fun s g ty d a ea b eb hty h => exec_vwhile g d ea eb hty h,
    fun s ty d a h => exec_pcnt ty a h, fun s o => ⟨exec_vmov, exec_vbcast⟩, fun s o h => ⟨exec_vperm h, exec_vsel h⟩,
    fun s o hk => ⟨exec_vins hk, fun h => ⟨_, exec_vext h, fun hs => extracted_toNat hs _ _, fun hs => extracted_toInt hs _ _⟩⟩⟩
  have hT : (if o.ty = 0 then 2 else 6 : BitVec 5) = dotAcc o.ty := by rcases hty with hty | hty <;> rw [hty] <;> rfl
  simp only [hT, ← dotElem_eq]
  exact exec_vdot4 hty h

end Sys2Proof.Machine
end

section
/-! PROOFS. Term counters (11:R190, 14:R253): what `termrd` and `rdms` read of them, and what the decoder refuses of major 0x39. -/

namespace Sys2Proof.Machine

/-! ### The reads -/

namespace State

variable {s : State}

/-- The numbers of the term counters name task registers (03:R58). -/
theorem taskRegOk_termCounter {n : Nat} (h : n < 0x40) : taskRegOk (0x100 + n) = true := by
  simp only [taskRegOk, Bool.or_eq_true, Bool.and_eq_true, decide_eq_true_eq]
  exact .inr ⟨by omega, by omega⟩

/-- The status register `0x100 + n` is term counter `n` (11:R190). -/
theorem msValue_termCounter (t : Task) {n : Nat} (h : n < 0x40) : s.msValue t (0x100 + n) = s.term n := by
  unfold msValue
  split
  case h_31 => rw [if_neg (by omega), if_neg (by omega), if_pos (by omega), Nat.add_sub_cancel_left]
  all_goals omega

theorem msRead_termCounter (t : Task) {n : Nat} (h : n < 0x40) : s.msRead t (0x100 + n) = .value (s.term n) := by
  rw [msRead, if_pos (by omega), if_pos (taskRegOk_termCounter h), msValue_termCounter t h]

end State

theorem toNat_termNumber (n : BitVec 6) : (BitVec.ofNat 13 (0x100 + n.toNat)).toNat = 0x100 + n.toNat := by
  rw [BitVec.toNat_ofNat, Nat.mod_eq_of_lt (by have := n.isLt; omega)]

/-- A performed `termrd` writes the counter with latency 1 and goes on (14:R253). -/
theorem exec_termrd {s : State} {f : Form} {d : Reg} (n : BitVec 6) (h : s.performs f [.s d] [] = true) :
    exec (.termrd f d n) s = .next (s.after (s.task.writeS s.cycle d (s.term n.toNat) 1) f.bytes) :=
  State.plain_next (srcs := []) h (by simp) (by simp)

theorem exec_rdms (f : Form) (d : Reg) (num : BitVec 13) (s : State) : exec (.rdms f d num) s = execRdms f d num s := rfl

/-- A performed `rdms` of a term counter's number does the same (11:R190). -/
theorem exec_rdms_termCounter {s : State} {f : Form} {d : Reg} (n : BitVec 6) (h : s.performs f [.s d] [] = true) :
    exec (.rdms f d (BitVec.ofNat 13 (0x100 + n.toNat))) s
      = .next (s.after (s.task.writeS s.cycle d (s.term n.toNat) 1) f.bytes) := by
  have hn : n.toNat < 0x40 := n.isLt
  simp only [exec_rdms, execRdms, toNat_termNumber, State.msRead_termCounter _ hn, State.msValue_termCounter _ hn,
    if_neg (show ¬ 0x100 + n.toNat = 0x204 by omega), if_neg (show ¬ 0x100 + n.toNat = 0x304 by omega)]
  exact State.plain_next (srcs := []) h (by simp) (by simp)

end Sys2Proof.Machine

/-! ### The decoder on major 0x39 -/

namespace Sys2Proof

theorem decodeRaw_error {r : Raw} {x : DecErr} (h : decodeShape r = .error x) : decodeRaw r = .error x := by
  rw [decodeRaw, h]

/-- The checks of `termrd` in their order: the length, then the reserved fields, then the immediate (10:R170, 14:R253). -/
theorem decodeShape_termrd {r : Raw} (h : r.major = 0x39) :
    decodeShape r = if r.len = .l96 then .error .illegalOpcode
      else if (Ext.read r.hi).unusedBad {} || (IFields.read r.body).a != 0 || (IFields.read r.body).ea then .error .reservedField
      else if 63 < (IFields.read r.body).imm.toNat then .error .illegalImm
      else .ok (.termrd r.form (IFields.read r.body).d ((IFields.read r.body).imm.setWidth 6)) := by
  rw [Laws.RoundTrip.shape39 r h, decodeI64, h]
  rfl

theorem decodeRaw_termrd_l96 {r : Raw} (h : r.major = 0x39) (hl : r.len = .l96) : decodeRaw r = .error .illegalOpcode :=
  decodeRaw_error (by rw [decodeShape_termrd h, if_pos hl])

theorem decodeRaw_termrd_reserved {r : Raw} (h : r.major = 0x39) (hl : r.len ≠ .l96)
    (hbad : (IFields.read r.body).a ≠ 0 ∨ (IFields.read r.body).ea = true) : decodeRaw r = .error .reservedField := by
  refine decodeRaw_error ?_
  rw [decodeShape_termrd h, if_neg hl, if_pos]
  obtain ha | he := hbad
  · rw [bne_iff_ne.2 ha, Bool.or_true, Bool.true_or]
  · rw [he, Bool.or_true]

theorem decodeRaw_termrd_imm {r : Raw} (h : r.major = 0x39) (hl : r.len ≠ .l96) (ha : (IFields.read r.body).a = 0)
    (he : (IFields.read r.body).ea = false) (hx : (Ext.read r.hi).unusedBad {} = false) :
    decodeRaw r = if 63 < (IFields.read r.body).imm.toNat then .error .illegalImm
      else .ok (.termrd r.form (IFields.read r.body).d ((IFields.read r.body).imm.setWidth 6)) := by
  have hs := decodeShape_termrd h
  rw [if_neg hl, if_neg (by rw [hx, ha, he]; decide)] at hs
  by_cases hi : 63 < (IFields.read r.body).imm.toNat
  · rw [if_pos hi] at hs ⊢
    exact decodeRaw_error hs
  · rw [if_neg hi] at hs ⊢
    exact decodeRaw_ok hs rfl

end Sys2Proof

/-! ### The statement -/

namespace Sys2Proof.Machine

/-- Settles O12: `termrd` and `rdms` write one value, `State.term`, which is by definition the counter without the counts of its own
cycle; the decoder refuses the length, the reserved fields and the immediate in this order. -/
theorem termCounterReads : Obligations.TermCounterReads := by
  unfold Obligations.TermCounterReads
  refine ⟨fun s f d n h => ⟨exec_termrd n h, fun _ => (exec_termrd n h).trans (exec_rdms_termCounter n h).symm⟩,
    fun r h => ⟨decodeRaw_termrd_l96 h, decodeRaw_termrd_reserved h, decodeRaw_termrd_imm h⟩, by decide⟩

end Sys2Proof.Machine
end

section
/-! PROOFS. The encoding (10:R158 to R170): words and word groups, that a well-formed instruction reads back from its words, and that
what the decoder reads has the words it was read from. -/

namespace Sys2Proof

/-! ### Bytes and words -/

theorem length_bytesOfWords (ws : List IWord) : (bytesOfWords ws).length = 4 * ws.length := by
  induction ws with
  | nil => rfl
  | cons w ws ih => simp [bytesOfWords_cons, Machine.State.length_leBytes, ih]; omega

theorem wordsOfBytes_append (ws : List IWord) (bs : List Byte) : wordsOfBytes (bytesOfWords ws ++ bs) = ws ++ wordsOfBytes bs := by
  induction ws with
  | nil => rfl
  | cons w ws ih => rw [bytesOfWords_cons, List.append_assoc, wordsOfBytes_leBytes_append, ih]; rfl

/-- Taking whole words of bytes takes the same number of words. -/
theorem wordsOfBytes_take (n : Nat) (bs : List Byte) : wordsOfBytes (bs.take (4 * n)) = (wordsOfBytes bs).take n := by
  induction n generalizing bs with
  | zero => simp [wordsOfBytes]
  | succ n ih =>
    match bs with
    | a :: b :: c :: d :: r =>
      have := ih r
      simp only [Nat.mul_succ, List.take_succ_cons, wordsOfBytes, this]
    | [] | [_] | [_, _] | [_, _, _] => simp [wordsOfBytes, Nat.mul_succ]

theorem length_wordsOfBytes : ∀ bs : List Byte, 4 * (wordsOfBytes bs).length ≤ bs.length
  | _ :: _ :: _ :: _ :: r => by have := length_wordsOfBytes r; simp only [wordsOfBytes, List.length_cons]; omega
  | [] | [_] | [_, _] | [_, _, _] => by simp [wordsOfBytes]

/-! ### Packed fields, bit by bit -/

theorem testBit_packFields_cons (w v : Nat) (r : List (Nat × Nat)) (j : Nat) :
    (packFields ((w, v) :: r)).testBit j = if j < w then v.testBit j else (packFields r).testBit (j - w) := by
  rw [packFields, Nat.add_comm, Nat.testBit_two_pow_mul_add _ (Nat.mod_lt _ (Nat.two_pow_pos w))]
  split <;> simp_all

theorem toNat_bitsAt (n lo w : Nat) : (bitsAt n lo w).toNat = n / 2 ^ lo % 2 ^ w := BitVec.toNat_ofNat _ _

theorem toNat_bitAt (n i : Nat) : (bitAt n i).toNat = n / 2 ^ i % 2 := by
  obtain h | h := Nat.mod_two_eq_zero_or_one (n / 2 ^ i) <;> simp [bitAt, h]

theorem RFields.word_read (n : BitVec 24) : (RFields.read n).word = n := by
  have := n.isLt
  apply BitVec.eq_of_toNat_eq
  simp only [RFields.word, RFields.read, packFields, toNat_bitsAt, toNat_bitAt, BitVec.toNat_ofNat]
  omega

theorem IFields.word_read (n : BitVec 24) : (IFields.read n).word = n := by
  have := n.isLt
  apply BitVec.eq_of_toNat_eq
  simp only [IFields.word, IFields.read, packFields, toNat_bitsAt, toNat_bitAt, BitVec.toNat_ofNat]
  omega

theorem BFields.word_read (n : BitVec 24) : (BFields.read n).word = n := by
  have := n.isLt
  apply BitVec.eq_of_toNat_eq
  simp only [BFields.word, BFields.read, packFields, toNat_bitsAt, toNat_bitAt, BitVec.toNat_ofNat]
  omega

theorem MFields.word_read (n : BitVec 24) : (MFields.read n).word = n := by
  have := n.isLt
  apply BitVec.eq_of_toNat_eq
  simp only [MFields.word, MFields.read, packFields, toNat_bitsAt, toNat_bitAt, BitVec.toNat_ofNat]
  omega

theorem Ext.word_read (n : BitVec 32) : (Ext.read n).word = n := by
  have := n.isLt
  apply BitVec.eq_of_toNat_eq
  simp only [Ext.word, Ext.read, packFields, toNat_bitsAt, toNat_bitAt, BitVec.toNat_ofNat]
  omega

/-- The empty-behaviour bits of an R form are bits 15 and 16 of its body (10:R160). -/
theorem RFields.word_bits (f : RFields) (ea eb : Bool) {j : Nat} (h15 : j ≠ 15) (h16 : j ≠ 16) :
    (RFields.word { f with ea := ea, eb := eb }).getLsbD j = f.word.getLsbD j := by
  simp only [RFields.word, BitVec.getLsbD_ofNat, testBit_packFields_cons]
  by_cases h : j < 15
  · simp only [show j - 5 - 5 < 5 by omega, if_true]
  · simp only [show ¬ j < 5 by omega, show ¬ j - 5 < 5 by omega, show ¬ j - 5 - 5 < 5 by omega, show ¬ j - 5 - 5 - 5 < 1 by omega,
      show ¬ j - 5 - 5 - 5 - 1 < 1 by omega, if_false]

/-! ### Word groups -/

/-- A word group in the form the decoder builds it in: absent words are zero. -/
def Raw.Canon (r : Raw) : Prop := (r.len = .l32 → r.hi = 0) ∧ (r.len ≠ .l96 → r.lit = 0)

/-- The length code in bits 1:0 (10:R158). -/
def Len.code : Len → Nat
  | .l32 => 0
  | .l64 => 2
  | .l96 => 3

theorem Raw.word0_eq (r : Raw) : r.word0 = BitVec.ofNat 32 (packFields [(2, r.len.code), (6, r.major.toNat), (24, r.body.toNat)]) := by
  obtain ⟨len, major, body, hi, lit⟩ := r
  cases len <;> rfl

theorem Raw.toNat_word0 (r : Raw) : r.word0.toNat = r.len.code + 4 * r.major.toNat + 256 * r.body.toNat := by
  have hl : r.len.code < 4 := by cases r.len <;> decide
  have := r.major.isLt; have := r.body.isLt
  simp only [Raw.word0_eq, packFields, BitVec.toNat_ofNat]
  omega

theorem rawOf_word0 (r : Raw) : rawOf r.len r.word0 r.hi r.lit = r := by
  have hl : r.len.code < 4 := by cases r.len <;> decide
  have := r.major.isLt; have := r.body.isLt
  have hm : bitsAt r.word0.toNat 2 6 = r.major := bitsAt_toNat (by rw [Raw.toNat_word0]; omega)
  have hb : bitsAt r.word0.toNat 8 24 = r.body := bitsAt_toNat (by rw [Raw.toNat_word0]; omega)
  rw [rawOf, hm, hb]

theorem word0_rawOf {len : Len} {w : IWord} (h : w.toNat % 4 = len.code) (hi lit : IWord) : (rawOf len w hi lit).word0 = w := by
  apply BitVec.eq_of_toNat_eq
  have hm : (rawOf len w hi lit).major.toNat = w.toNat / 4 % 64 := toNat_bitsAt _ _ _
  have hb : (rawOf len w hi lit).body.toNat = w.toNat / 256 % 2 ^ 24 := toNat_bitsAt _ _ _
  have := w.isLt
  rw [Raw.toNat_word0, hm, hb, show (rawOf len w hi lit).len = len from rfl, ← h]
  omega

theorem Raw.word0_mod (r : Raw) : r.word0.toNat % 4 = r.len.code := by
  have hl : r.len.code < 4 := by cases r.len <;> decide
  rw [Raw.toNat_word0]; omega

/-- The words of a group decode as the group. -/
theorem decodeWords_words {r : Raw} (c : r.Canon) (ws : List IWord) :
    decodeWords (r.words ++ ws) = (decodeRaw r).map (·, r.words.length) := by
  have hm := r.word0_mod
  have hr := rawOf_word0 r
  obtain ⟨c1, c2⟩ := c
  obtain ⟨len, major, body, hi, lit⟩ := r
  cases len
  · obtain rfl : hi = 0 := c1 rfl
    obtain rfl : lit = 0 := c2 nofun
    simp only [Raw.words, List.cons_append, decodeWords, hm, Len.code, hr]; rfl
  · obtain rfl : lit = 0 := c2 nofun
    simp only [Raw.words, List.cons_append, decodeWords, hm, Len.code, hr]; rfl
  · simp only [Raw.words, List.cons_append, decodeWords, hm, Len.code, hr]; rfl

/-- The words of a group of this length with this first word. -/
def Len.words (len : Len) (w hi lit : IWord) : List IWord :=
  match len with
  | .l32 => [w]
  | .l64 => [w, hi]
  | .l96 => [w, hi, lit]

theorem words_rawOf {len : Len} {w : IWord} (h : w.toNat % 4 = len.code) (hi lit : IWord) : (rawOf len w hi lit).words = len.words w hi lit := by
  have hw := word0_rawOf h hi lit
  cases len <;> simp only [Raw.words, Len.words, hw] <;> rfl

/-- What the decoder accepts are the words of a group that it accepts. -/
theorem decodeWords_ok {ws : List IWord} {i : Instr} {n : Nat} (h : decodeWords ws = .ok (i, n)) :
    ∃ r rest, r.Canon ∧ ws = r.words ++ rest ∧ n = r.words.length ∧ decodeRaw r = .ok i := by
  have inv {r : Raw} {k : Nat} (h : (decodeRaw r).map (·, k) = .ok (i, n)) : decodeRaw r = .ok i ∧ k = n := by
    cases hr : decodeRaw r with
    | error x => rw [hr] at h; cases h
    | ok j => rw [hr] at h; cases h; exact ⟨rfl, rfl⟩
  match ws, h with
  | w :: rest, h =>
    simp only [decodeWords] at h
    split at h
    next _ _ h0 =>
      obtain ⟨hr, hn⟩ := inv h
      have hw := words_rawOf (len := .l32) h0 0 0
      exact ⟨_, _, ⟨fun _ => rfl, fun _ => rfl⟩, by rw [hw]; rfl, by rw [hw]; exact hn.symm, hr⟩
    next => cases h
    next _ _ w1 rest h0 =>
      obtain ⟨hr, hn⟩ := inv h
      have hw := words_rawOf (len := .l64) h0 w1 0
      exact ⟨rawOf .l64 w w1 0, rest, ⟨nofun, fun _ => rfl⟩, by rw [hw]; rfl, by rw [hw]; exact hn.symm, hr⟩
    next _ _ w1 w2 rest h0 =>
      obtain ⟨hr, hn⟩ := inv h
      have hw := words_rawOf (len := .l96) h0 w1 w2
      exact ⟨rawOf .l96 w w1 w2, rest, ⟨nofun, fun h => absurd rfl h⟩, by rw [hw]; rfl, by rw [hw]; exact hn.symm, hr⟩
    next => cases h

/-! ### What the decoder reads -/

/-- `q` has the words of `r` but for bits 15 and 16 of the body, which are bits 23 and 24 of the first word. -/
structure Raw.Alike (q r : Raw) : Prop where
  len : q.len = r.len
  major : q.major = r.major
  hi : q.hi = if r.len = .l32 then 0 else r.hi
  lit : q.lit = if r.len = .l96 then r.lit else 0
  body : ∀ j, j ≠ 15 → j ≠ 16 → q.body.getLsbD j = r.body.getLsbD j

/-- The word group is one of this instruction, which has a form that can hold it. -/
structure Raw.Reads (r : Raw) (i : Instr) : Prop where
  formOk : r.Canon → i.formOk = true
  notNop : i ≠ .br 0 ⟨0, true⟩
  alike : ∃ q, i.toRaw = some q ∧ q.Alike r

theorem Raw.Reads.of_keep {r : Raw} {bad : Bool} {i j : Instr} (h : keep bad i = .ok j) (f : bad = false → r.Reads i) : r.Reads j := by
  cases bad <;> cases h; exact f rfl

/-- The extension word with the guard of `x`. -/
def Ext.under (x e : Ext) : Ext := { e with pred := x.pred, pneg := x.pneg }

theorem Raw.len_form (r : Raw) : r.form.len = r.len := by
  obtain ⟨len, major, body, hi, lit⟩ := r; cases len <;> rfl

theorem Raw.hi_form {r : Raw} {e : Ext} (h : (Ext.read r.hi).under e = Ext.read r.hi) : r.form.hi e = if r.len = .l32 then 0 else r.hi := by
  have hw := Ext.word_read r.hi
  rw [← h] at hw
  obtain ⟨len, major, body, hi, lit⟩ := r
  cases len
  · rfl
  · exact hw
  · exact hw

section
variable {r : Raw} {i : Instr} {M : BitVec 6} {m : BitVec 7} {d a b : BitVec 5} {ea eb : Bool} {e : Ext} {lit : BitVec 32}

theorem Raw.Reads.of_R_hi (ht : i.toRaw = some (encR M m r.form d a b ea eb e lit)) (hn : i ≠ .br 0 ⟨0, true⟩) (hM : r.major = M)
    (hm : (RFields.read r.body).minor.toNat = m.toNat) (hd : (RFields.read r.body).d = d) (ha : (RFields.read r.body).a = a) (hb : (RFields.read r.body).b = b)
    (he : r.form.hi e = if r.len = .l32 then 0 else r.hi) (hl : lit = if r.len = .l96 then r.lit else 0) (hf : r.Canon → i.formOk = true) : r.Reads i := by
  refine ⟨hf, hn, _, ht, r.len_form, hM.symm, he, hl, fun j h15 h16 => ?_⟩
  obtain rfl := BitVec.eq_of_toNat_eq hm
  subst hd ha hb
  exact ((RFields.read r.body).word_bits ea eb h15 h16).trans (by rw [RFields.word_read])

theorem Raw.Reads.of_R (ht : i.toRaw = some (encR M m r.form d a b ea eb e lit)) (hn : i ≠ .br 0 ⟨0, true⟩) (hM : r.major = M)
    (hm : (RFields.read r.body).minor.toNat = m.toNat) (hd : (RFields.read r.body).d = d) (ha : (RFields.read r.body).a = a) (hb : (RFields.read r.body).b = b)
    (he : (Ext.read r.hi).under e = Ext.read r.hi) (hl : lit = if r.len = .l96 then r.lit else 0) (hf : r.Canon → i.formOk = true) : r.Reads i :=
  .of_R_hi ht hn hM hm hd ha hb (Raw.hi_form he) hl hf

/-- At 32 bits there is no extension word. -/
theorem Raw.Reads.of_R_l32 (ht : i.toRaw = some (encR M m r.form d a b ea eb e 0)) (hn : i ≠ .br 0 ⟨0, true⟩) (hM : r.major = M)
    (hm : (RFields.read r.body).minor.toNat = m.toNat) (hd : (RFields.read r.body).d = d) (ha : (RFields.read r.body).a = a) (hb : (RFields.read r.body).b = b)
    (hl : r.len = .l32) (hf : r.Canon → i.formOk = true) : r.Reads i :=
  .of_R_hi ht hn hM hm hd ha hb (by rw [if_pos hl, Raw.form, hl]; rfl) (by rw [hl]; rfl) hf

end

/-! ### What the checks on unused fields leave -/

theorem low3_of_idx3Bad {x : BitVec 5} (h : idx3Bad x = false) : (low3 x).setWidth 5 = x := by revert x; decide

/-- The extension word with only the fields in use, and this modifier field. -/
def Ext.kept (e : Ext) (u : Use) (x : BitVec 4) : Ext :=
  { ty := if u.ty then e.ty else 0, rnd := if u.rnd then e.rnd else 0, sat := if u.sat then e.sat else false
    srcc := if u.c then e.srcc else 0, ebc := if u.c then e.ebc else false, scope := if u.sc then e.scope else 0
    sn := if u.sc then e.sn else false, ord := if u.ord then e.ord else 0, queue := if u.q then e.queue else 0, xmod := x }

theorem Ext.under_kept {e : Ext} {u : Use} {x : BitVec 4} (h : e.unusedBad u = false) (hx : x = e.xmod) : e.under (e.kept u x) = e := by
  obtain ⟨p, pn, ty, rnd, sat, c, ec, sc, o, q, sn, xm⟩ := e
  obtain ⟨uty, urnd, usat, uc, usc, uord, uq, uxm⟩ := u
  simp only [Ext.unusedBad, Bool.or_eq_false_iff, Bool.and_eq_false_imp, Bool.not_eq_true', bne_eq_false_iff_eq] at h
  obtain ⟨⟨⟨⟨⟨⟨⟨h1, h2⟩, h3⟩, h4⟩, h5⟩, h6⟩, h7⟩, -⟩ := h
  simp only [Ext.under, Ext.kept, Ext.mk.injEq, true_and, hx, and_true]
  refine ⟨?_, ?_, ?_, ?_, ?_, ?_, ?_, ?_, ?_⟩ <;> split <;> simp_all

theorem Ext.xmod_and {e : Ext} {u : Use} (h : e.unusedBad u = false) : e.xmod &&& ~~~u.xm = 0 := by
  simpa using (Bool.or_eq_false_iff.1 h).2

theorem xmod_of_and_0 {x : BitVec 4} (h : x &&& ~~~0 = 0) : 0 = x := by revert x; decide
theorem xmod_of_and_1 {x : BitVec 4} (h : x &&& ~~~1 = 0) : BitVec.ofNat 4 (x == 1).toNat = x := by revert x; decide
theorem xmod_of_and_1_ne {x : BitVec 4} (h : x &&& ~~~1 = 0) (h1 : ¬ (x == 1) = true) : 0 = x := by revert x; decide
theorem xmod_of_and_3 {x : BitVec 4} (h : x &&& ~~~3 = 0) : (x.setWidth 2).setWidth 4 = x := by revert x; decide
theorem xmod_of_and_8 {x : BitVec 4} (h : x &&& ~~~8 = 0) : BitVec.ofNat 4 (8 * (x == 8).toNat) = x := by revert x; decide
theorem xmod_of_bits (x : BitVec 4) : BitVec.ofNat 4 ((x.setWidth 2).toNat + 4 * (x.getLsbD 2).toNat + 8 * (x.getLsbD 3).toNat) = x := by revert x; decide

/-- An extension word of which nothing but the guard is used. -/
theorem Ext.under_plain {e : Ext} (h : e.unusedBad {} = false) : e.under {} = e := Ext.under_kept h (xmod_of_and_0 (Ext.xmod_and h))

/-- The 16-bit immediate, laid in again where it was read (10:R161). -/
theorem Ext.under_withFi {e : Ext} (h : e.xmod = 1) : e.under (Ext.withFi { ty := e.ty, rnd := e.rnd, sat := e.sat } e.fi) = e := by
  obtain ⟨p, pn, ty, rnd, sat, c, ec, sc, o, q, sn, xm⟩ := e
  obtain rfl : xm = 1 := h
  have := c.isLt; have := sc.isLt; have := o.isLt; have := q.isLt
  have := ec.toNat_le; have := sn.toNat_le
  simp only [Ext.under, Ext.withFi, Ext.fi, packFields, Ext.mk.injEq, true_and, and_true, BitVec.toNat_ofNat]
  refine ⟨bitsAt_toNat ?_, bitAt_toNat ?_, bitsAt_toNat ?_, bitsAt_toNat ?_, bitsAt_toNat ?_, bitAt_toNat ?_⟩ <;> simp <;> omega

theorem Raw.is96_form (r : Raw) : r.form.is96 = decide (r.len = .l96) := by
  obtain ⟨len, major, body, hi, lit⟩ := r; cases len <;> rfl
theorem Raw.is32_form (r : Raw) : r.form.is32 = decide (r.len = .l32) := by
  obtain ⟨len, major, body, hi, lit⟩ := r; cases len <;> rfl
theorem Raw.is64_form {r : Raw} (h : ¬ r.len = .l32) (h' : ¬ r.len = .l96) : r.form.is64 = true := by
  obtain ⟨len, major, body, hi, lit⟩ := r; cases len <;> first | rfl | contradiction

theorem Raw.form_of_l64 {r : Raw} (h : ¬ r.len = .l32) (h' : ¬ r.len = .l96) : r.form = .w64 ⟨(Ext.read r.hi).pred, (Ext.read r.hi).pneg⟩ := by
  obtain ⟨len, major, body, hi, lit⟩ := r; cases len <;> first | rfl | contradiction

theorem Raw.not_is96 {r : Raw} (h : ¬ r.len = .l96) : (!r.form.is96) = true := by rw [Raw.is96_form, decide_eq_false h]; rfl
theorem Raw.not_is32 {r : Raw} (h : ¬ r.len = .l32) : (!r.form.is32) = true := by rw [Raw.is32_form, decide_eq_false h]; rfl

theorem Raw.Canon.ext {r : Raw} (c : r.Canon) (h : r.len = .l32) : Ext.read r.hi = {} := by rw [c.1 h]; decide

/-- At 32 bits everything that the extension word would say is at its default (10:R162). -/
theorem Raw.Canon.default {r : Raw} (c : r.Canon) {p : Ext → Bool} (h : p {} = true) : (!r.form.is32 || p (Ext.read r.hi)) = true := by
  rw [Raw.is32_form]
  by_cases hl : r.len = .l32
  · rw [Raw.Canon.ext c hl, h, Bool.or_true]
  · rw [decide_eq_false hl]; rfl

/-! ### Sources that may be literals -/

section
variable {r : Raw} {f : RFields}

theorem rSrc_of_l96 (h : r.len = .l96) : rSrc r f = .lit r.lit := if_pos h
theorem rSrc_of_not_l96 (h : ¬ r.len = .l96) : rSrc r f = .reg f.b f.eb := if_neg h

theorem fits_rSrc (r : Raw) (f : RFields) : (rSrc r f).fits r.form = true := by
  by_cases h : r.len = .l96
  · rw [rSrc_of_l96 h, Src.fits, Raw.is96_form, decide_eq_true h]
  · rw [rSrc_of_not_l96 h]; exact Raw.not_is96 h

theorem litWord_rSrc (r : Raw) (f : RFields) : (rSrc r f).litWord = if r.len = .l96 then r.lit else 0 := by
  rw [rSrc]; split <;> rfl

theorem reg5_rSrc (h : rSrcBad r f = false) : f.b = (rSrc r f).reg5 := by
  by_cases hl : r.len = .l96
  · rw [rSrcBad, decide_eq_true hl, Bool.true_and, Bool.or_eq_false_iff, bne_eq_false_iff_eq] at h
    rw [rSrc_of_l96 hl]; exact h.1
  · rw [rSrc_of_not_l96 hl]; rfl

end

theorem iImm_of_l96 {r : Raw} {f : IFields} (h : r.len = .l96) : iImm r f = .lit r.lit := if_pos h
theorem iImm_of_not_l96 {r : Raw} {f : IFields} (h : ¬ r.len = .l96) : iImm r f = .i13 f.imm := if_neg h

theorem fits_iImm (r : Raw) (f : IFields) : (iImm r f).fits r.form = true := by
  by_cases h : r.len = .l96
  · rw [iImm_of_l96 h, Imm.fits, Raw.is96_form, decide_eq_true h]
  · rw [iImm_of_not_l96 h]; exact Raw.not_is96 h

theorem litWord_iImm (r : Raw) (f : IFields) : (iImm r f).litWord = if r.len = .l96 then r.lit else 0 := by
  rw [iImm]; split <;> rfl

theorem imm13_iImm {r : Raw} {f : IFields} (h : iImmBad r f = false) : f.imm = (iImm r f).imm13 := by
  by_cases hl : r.len = .l96
  · rw [iImmBad, decide_eq_true hl, Bool.true_and, bne_eq_false_iff_eq] at h
    rw [iImm_of_l96 hl]; exact h
  · rw [iImm_of_not_l96 hl]; rfl

theorem fits_mOp (r : Raw) (f : MFields) : (mOp r f).disp.fits r.form = true := by
  by_cases h : r.len = .l96
  · rw [mOp, if_pos h, Disp.fits, Raw.is96_form, decide_eq_true h]
  · rw [mOp, if_neg h]; exact Raw.not_is96 h

theorem litWord_mOp (r : Raw) (f : MFields) : (mOp r f).disp.litWord = if r.len = .l96 then r.lit else 0 := by
  rw [mOp]; split <;> rfl

theorem imm8_mOp {r : Raw} {f : MFields} (h : mOpBad r f = false) : f.imm = (mOp r f).disp.imm8 := by
  by_cases hl : r.len = .l96
  · rw [mOpBad, decide_eq_true hl, Bool.true_and, bne_eq_false_iff_eq] at h
    rw [mOp, if_pos hl]; exact h
  · rw [mOp, if_neg hl]; rfl

/-- What source B of a `vfp` minor leaves of the extension word, whatever its form (12:R208). -/
theorem vfpSrc_fields {r : Raw} {f : RFields} {e : Ext} {rs : Bool} (h : vfpBad r f e rs = false) :
    f.b = (vfpSrc r f e).reg5 ∧ e.under ((vfpSrc r f e).ext { ty := e.ty, rnd := if rs then e.rnd else 0, sat := if rs then e.sat else false }) = e := by
  have hrs : (if rs then e.rnd else 0) = e.rnd ∧ (if rs then e.sat else false) = e.sat := by
    have := (Bool.or_eq_false_iff.1 h).1
    cases rs <;> simp_all
  have h := (Bool.or_eq_false_iff.1 h).2
  rw [hrs.1, hrs.2]
  by_cases hl : r.len = .l96
  · rw [if_pos hl] at h
    simp only [Bool.or_eq_false_iff, bne_eq_false_iff_eq] at h
    rw [vfpSrc, if_pos hl]
    exact ⟨h.1.2, Ext.under_kept h.1.1 (xmod_of_and_0 (Ext.xmod_and h.1.1))⟩
  · rw [if_neg hl] at h
    by_cases hx : e.xmod.getLsbD 0 = true
    · simp only [if_pos hx, Bool.or_eq_false_iff, bne_eq_false_iff_eq] at h
      rw [vfpSrc, if_neg hl, if_pos hx]
      exact ⟨h.1.1, Ext.under_withFi h.2⟩
    · rw [if_neg hx] at h
      rw [vfpSrc, if_neg hl, if_neg hx]
      exact ⟨rfl, Ext.under_kept h (xmod_of_and_0 (Ext.xmod_and h))⟩

theorem litWord_vfpSrc (r : Raw) (f : RFields) (e : Ext) : (vfpSrc r f e).litWord = if r.len = .l96 then r.lit else 0 := by
  unfold vfpSrc; split
  · rfl
  · split <;> rfl

theorem fits_vfpSrc {r : Raw} (f : RFields) (e : Ext) (h : ¬ r.len = .l32) : (vfpSrc r f e).fits r.form = true := by
  by_cases hl : r.len = .l96
  · rw [vfpSrc, if_pos hl, FSrc.fits, Raw.is96_form, decide_eq_true hl]
  · rw [vfpSrc, if_neg hl]; split <;> exact Raw.is64_form h hl

/-! ### Instructions of the R format -/

section
variable {r : Raw} {i : Instr} {M : BitVec 6} {m : BitVec 7} {d a b : BitVec 5} {ea eb : Bool} {e : Ext}

/-- A word group without extension fields and literal. -/
theorem Raw.Reads.of_enc0 (ht : i.toRaw = some (enc0 M m r.form d a b ea eb)) (hf : i.formOk = !r.form.is96) (hn : i ≠ .br 0 ⟨0, true⟩)
    (hl : ¬ r.len = .l96) (hM : r.major = M) (hm : (RFields.read r.body).minor.toNat = m.toNat) (he : (Ext.read r.hi).unusedBad {} = false)
    (hd : (RFields.read r.body).d = d) (ha : (RFields.read r.body).a = a) (hb : (RFields.read r.body).b = b) : r.Reads i :=
  .of_R ht hn hM hm hd ha hb (Ext.under_plain he) (if_neg hl).symm fun _ => hf.trans (Raw.not_is96 hl)

/-- A word group whose source B is a register or a literal. -/
theorem Raw.Reads.of_src (ht : i.toRaw = some (encR M m r.form d a (rSrc r (RFields.read r.body)).reg5 ea (rSrc r (RFields.read r.body)).eb e
      (rSrc r (RFields.read r.body)).litWord)) (hn : i ≠ .br 0 ⟨0, true⟩)
    (hM : r.major = M) (hm : (RFields.read r.body).minor.toNat = m.toNat) (hs : rSrcBad r (RFields.read r.body) = false)
    (he : (Ext.read r.hi).under e = Ext.read r.hi) (hd : (RFields.read r.body).d = d) (ha : (RFields.read r.body).a = a)
    (hf : r.Canon → i.formOk = true) : r.Reads i :=
  .of_R ht hn hM hm hd ha (reg5_rSrc hs) he (litWord_rSrc r _) hf

end

/-- A word group of which the type is used, whose form at 32 bits has a type of its own (10:R162). -/
theorem Raw.Reads.of_typed {dflt : BitVec 5} (ht : i.toRaw = some (encR M m r.form d a b ea eb { ty := tyField r (Ext.read r.hi) dflt } 0))
    (hf : i.formOk = (!r.form.is96 && (!r.form.is32 || tyField r (Ext.read r.hi) dflt == dflt))) (hn : i ≠ .br 0 ⟨0, true⟩)
    (hl : ¬ r.len = .l96) (hM : r.major = M) (hm : (RFields.read r.body).minor.toNat = m.toNat) (he : (Ext.read r.hi).unusedBad { ty := true } = false)
    (hd : (RFields.read r.body).d = d) (ha : (RFields.read r.body).a = a) (hb : (RFields.read r.body).b = b) : r.Reads i := by
  have hform : r.Canon → i.formOk = true := fun _ => by
    rw [hf, Raw.not_is96 hl, Raw.is32_form, tyField]
    by_cases h : r.len = .l32 <;> simp [h]
  by_cases h : r.len = .l32
  · exact .of_R_l32 ht hn hM hm hd ha hb h hform
  · rw [tyField, if_neg h] at ht
    exact .of_R ht hn hM hm hd ha hb (Ext.under_kept he (xmod_of_and_0 (Ext.xmod_and he))) (if_neg hl).symm hform

theorem decodeControl_reads {r : Raw} {i : Instr} (hM : r.major = 0x04) (h : decodeControl r (RFields.read r.body) (Ext.read r.hi) = .ok i) : r.Reads i := by
  unfold decodeControl at h
  split at h
  · cases h
  next hl =>
    simp only at h
    split at h
    case h_8 => cases h
    all_goals
      refine .of_keep h fun hb => ?_
      simp only [Bool.or_eq_false_iff, bne_eq_false_iff_eq] at hb
    case h_1 hm => exact .of_enc0 rfl rfl nofun hl hM hm hb.1.1 hb.2 rfl hb.1.2
    case h_2 hm => exact .of_enc0 rfl rfl nofun hl hM hm hb.1 rfl rfl hb.2
    case h_3 hm => exact .of_enc0 rfl rfl nofun hl hM hm hb.1.1.1 hb.1.2 hb.2 hb.1.1.2
    case h_4 hm | h_5 hm | h_6 hm | h_7 hm => exact .of_enc0 rfl rfl nofun hl hM hm hb.1.1.1 hb.1.2 hb.2 hb.1.1.2

theorem decodeAlu_reads {r : Raw} {i : Instr} (hM : r.major = 0x05) (h : decodeAlu r (RFields.read r.body) (Ext.read r.hi) = .ok i) : r.Reads i := by
  unfold decodeAlu at h
  simp only at h
  split at h
  case h_28 => cases h
  case h_1 hm | h_2 hm =>
    refine .of_keep h fun hb => ?_
    rw [Bool.or_eq_false_iff] at hb
    exact .of_src rfl nofun hM hm hb.2 (Ext.under_kept hb.1 (xmod_of_and_1 (Ext.xmod_and hb.1))) rfl rfl fun c =>
      Bool.and_eq_true_iff.2 ⟨fits_rSrc _ _, c.default (p := fun e => !e.sat && !(e.xmod == 1)) rfl⟩
  case h_17 hm | h_18 hm | h_19 hm =>
    split at h
    · cases h
    next hl =>
      refine .of_keep h fun hb => ?_
      simp only [Bool.or_eq_false_iff, bne_eq_false_iff_eq] at hb
      exact .of_enc0 rfl rfl nofun hl hM hm hb.1 rfl rfl hb.2
  all_goals
    next hm =>
      refine .of_keep h fun hb => ?_
      rw [Bool.or_eq_false_iff] at hb
      exact .of_src rfl nofun hM hm hb.2 (Ext.under_plain hb.1) rfl rfl fun _ => fits_rSrc _ _


theorem decodeMul_reads {r : Raw} {i : Instr} (hM : r.major = 0x06) (h : decodeMul r (RFields.read r.body) (Ext.read r.hi) = .ok i) : r.Reads i := by
  unfold decodeMul at h
  simp only at h
  split at h
  case h_9 => cases h
  all_goals
    next hm =>
      refine .of_keep h fun hb => ?_
      rw [Bool.or_eq_false_iff] at hb
      exact .of_src rfl nofun hM hm hb.2 (Ext.under_plain hb.1) rfl rfl fun _ => fits_rSrc _ _

theorem decodeCmp_reads {r : Raw} {i : Instr} (hM : r.major = 0x07) (h : decodeCmp r (RFields.read r.body) (Ext.read r.hi) = .ok i) : r.Reads i := by
  unfold decodeCmp at h
  simp only at h
  split at h
  case h_7 => cases h
  all_goals
    next hm =>
      refine .of_keep h fun hb => ?_
      rw [Bool.or_eq_false_iff, Bool.or_eq_false_iff] at hb
      exact .of_src rfl nofun hM hm hb.1.2 (Ext.under_plain hb.1.1) (low3_of_idx3Bad hb.2).symm rfl fun _ => fits_rSrc _ _

theorem decodeSegment_reads {r : Raw} {i : Instr} (hM : r.major = 0x13) (h : decodeSegment r (RFields.read r.body) (Ext.read r.hi) = .ok i) :
    r.Reads i := by
  unfold decodeSegment at h
  split at h
  · cases h
  next hl =>
    split at h
    case h_3 => cases h
    case h_1 hm =>
      refine .of_keep h fun hb => ?_
      simp only [Bool.or_eq_false_iff] at hb
      obtain ⟨⟨⟨he, hd⟩, ha⟩, -⟩ := hb
      exact .of_R rfl nofun hM hm (low3_of_idx3Bad hd).symm (low3_of_idx3Bad ha).symm rfl (Ext.under_kept he rfl) (if_neg hl).symm fun c =>
        Bool.and_eq_true_iff.2 ⟨Raw.not_is96 hl, c.default (p := fun e => e.srcc == 0 && !e.ebc && e.xmod == 0) rfl⟩
    case h_2 hm =>
      refine .of_keep h fun hb => ?_
      simp only [Bool.or_eq_false_iff] at hb
      obtain ⟨⟨⟨⟨he, ha⟩, -⟩, -⟩, hb⟩ := hb
      have hsel {x : BitVec 5} (h : decide (1 < x.toNat) = false) : x = BitVec.ofNat 5 (x == 1).toNat := by revert x; decide
      exact .of_enc0 rfl rfl nofun hl hM hm he rfl (low3_of_idx3Bad ha).symm (hsel hb)

theorem decodeVpred_reads {r : Raw} {i : Instr} (hM : r.major = 0x1B) (h : decodeVpred r (RFields.read r.body) (Ext.read r.hi) = .ok i) :
    r.Reads i := by
  unfold decodeVpred at h
  split at h
  · cases h
  next hl =>
    simp only at h
    split at h
    case h_8 => cases h
    case h_1 hm =>
      split at h
      · cases h
      next hl' =>
        refine .of_keep h fun hb => ?_
        rw [Bool.or_eq_false_iff] at hb
        exact .of_R (m := 0x00) (by rw [Raw.form_of_l64 hl' hl]; rfl) nofun hM hm (low3_of_idx3Bad hb.2).symm rfl rfl (Ext.under_kept hb.1 (xmod_of_and_0 (Ext.xmod_and hb.1)))
          (if_neg hl).symm fun _ => rfl
    case h_7 hm =>
      split at h
      · cases h
      next hl' =>
        refine .of_keep h fun hb => ?_
        simp only [Bool.or_eq_false_iff, bne_eq_false_iff_eq] at hb
        obtain ⟨⟨⟨⟨⟨he, ha⟩, -⟩, hb⟩, hp⟩, hn⟩ := hb
        exact .of_R (m := 0x06) (by rw [Raw.form_of_l64 hl' hl, hp, hn]; rfl) nofun hM hm rfl (low3_of_idx3Bad ha).symm hb
          (Ext.under_kept he (xmod_of_and_0 (Ext.xmod_and he))) (if_neg hl).symm fun _ => rfl
    case h_2 hm | h_3 hm | h_4 hm =>
      refine .of_keep h fun hb => ?_
      simp only [Bool.or_eq_false_iff] at hb
      obtain ⟨⟨⟨⟨⟨he, hd⟩, ha⟩, -⟩, hb⟩, -⟩ := hb
      exact .of_enc0 rfl rfl nofun hl hM hm he (low3_of_idx3Bad hd).symm (low3_of_idx3Bad ha).symm (low3_of_idx3Bad hb).symm
    case h_5 hm | h_6 hm =>
      refine .of_keep h fun hb => ?_
      simp only [Bool.or_eq_false_iff, bne_eq_false_iff_eq] at hb
      obtain ⟨⟨⟨⟨he, hd⟩, ha⟩, -⟩, hb⟩ := hb
      exact .of_enc0 rfl rfl nofun hl hM hm he (low3_of_idx3Bad hd).symm (low3_of_idx3Bad ha).symm hb

theorem decodeVmov_reads {r : Raw} {i : Instr} (hM : r.major = 0x1C) (h : decodeVmov r (RFields.read r.body) (Ext.read r.hi) = .ok i) :
    r.Reads i := by
  unfold decodeVmov at h
  split at h
  · cases h
  next hl =>
    simp only at h
    split at h
    case h_7 => cases h
    case h_1 hm | h_2 hm =>
      refine .of_keep h fun hb => ?_
      simp only [Bool.or_eq_false_iff, bne_eq_false_iff_eq] at hb
      exact .of_typed rfl rfl nofun hl hM hm hb.1 rfl rfl hb.2
    case h_3 hm | h_4 hm =>
      exact .of_keep h fun hb => .of_typed rfl rfl nofun hl hM hm (Bool.or_eq_false_iff.1 hb).1 rfl rfl rfl
    case h_5 hm | h_6 hm => exact .of_keep h fun hb => .of_typed rfl rfl nofun hl hM hm hb rfl rfl rfl

theorem decodeVint_reads {r : Raw} {i : Instr} (hM : r.major = 0x18) (h : decodeVint r (RFields.read r.body) (Ext.read r.hi) = .ok i) :
    r.Reads i := by
  unfold decodeVint at h
  split at h
  · cases h
  next hl =>
    simp only at h
    split at h
    case h_22 => cases h
    case h_14 hm | h_15 hm | h_21 hm =>
      split at h
      · cases h
      next hl' =>
        refine .of_keep h fun hb => ?_
        simp only [Bool.or_eq_false_iff, bne_eq_false_iff_eq] at hb
        exact .of_R rfl nofun hM hm rfl rfl hb.2 (Ext.under_kept hb.1 (xmod_of_and_0 (Ext.xmod_and hb.1))) (if_neg hl').symm fun _ => Raw.is64_form hl hl'
    case h_16 hm | h_17 hm | h_18 hm | h_19 hm =>
      refine .of_keep h fun hb => ?_
      simp only [Bool.or_eq_false_iff] at hb
      obtain ⟨⟨he, hs⟩, hd⟩ := hb
      exact .of_src rfl nofun hM hm hs (Ext.under_kept he (xmod_of_and_0 (Ext.xmod_and he))) (low3_of_idx3Bad hd).symm rfl fun _ =>
        Bool.and_eq_true_iff.2 ⟨Raw.not_is32 hl, fits_rSrc _ _⟩
    all_goals
      next hm =>
        refine .of_keep h fun hb => ?_
        rw [Bool.or_eq_false_iff] at hb
        exact .of_src rfl nofun hM hm hb.2 (Ext.under_kept hb.1 (xmod_of_and_0 (Ext.xmod_and hb.1))) rfl rfl fun _ =>
          Bool.and_eq_true_iff.2 ⟨Raw.not_is32 hl, fits_rSrc _ _⟩

theorem decodeVfp_reads {r : Raw} {i : Instr} (hM : r.major = 0x19) (h : decodeVfp r (RFields.read r.body) (Ext.read r.hi) = .ok i) :
    r.Reads i := by
  unfold decodeVfp at h
  split at h
  · cases h
  next hl =>
    simp only at h
    split at h
    case h_17 => cases h
    case h_6 hm | h_7 hm | h_12 hm =>
      split at h
      · cases h
      next hl' =>
        refine .of_keep h fun hb => ?_
        simp only [Bool.or_eq_false_iff, bne_eq_false_iff_eq] at hb
        exact .of_R rfl nofun hM hm rfl rfl hb.2 (Ext.under_kept hb.1 (xmod_of_and_0 (Ext.xmod_and hb.1))) (if_neg hl').symm fun _ => Raw.is64_form hl hl'
    case h_13 hm | h_14 hm | h_15 hm | h_16 hm =>
      split at h
      · cases h
      next hl' =>
        refine .of_keep h fun hb => ?_
        exact .of_R rfl nofun hM hm rfl rfl rfl (Ext.under_kept hb (xmod_of_and_0 (Ext.xmod_and hb))) (if_neg hl').symm fun _ => Raw.is64_form hl hl'
    case h_8 hm | h_9 hm | h_10 hm | h_11 hm =>
      refine .of_keep h fun hb => ?_
      rw [Bool.or_eq_false_iff] at hb
      obtain ⟨hs, he⟩ := vfpSrc_fields hb.1
      exact .of_R rfl nofun hM hm (low3_of_idx3Bad hb.2).symm rfl hs he (litWord_vfpSrc _ _ _) fun _ => fits_vfpSrc _ _ hl
    all_goals
      next hm =>
        refine .of_keep h fun hb => ?_
        obtain ⟨hs, he⟩ := vfpSrc_fields hb
        exact .of_R rfl nofun hM hm rfl rfl hs he (litWord_vfpSrc _ _ _) fun _ => fits_vfpSrc _ _ hl

/-- The extension word of `cvt` and `cvt.mx` (12:R212, R214). -/
theorem Ext.under_cvt {e : Ext} {c : BitVec 5} {x : BitVec 4} (h : e.unusedBad { ty := true, rnd := true, sat := true, c := true, xm := 15 } = false)
    (hec : e.ebc = false) (hc : c = e.srcc) (hx : x = e.xmod) : e.under { ty := e.ty, rnd := e.rnd, sat := e.sat, srcc := c, xmod := x } = e := by
  have := Ext.under_kept h hx
  rw [Ext.kept, hec] at this
  rw [hc]; exact this

/-- A count register is named by bit 3 of the modifier, and is 0 where none is. -/
theorem cvt_count {b : Bool} {c : BitVec 5} (h : (!b && c != 0) = false) : (if b then some c else none).getD 0 = c := by
  cases b
  · exact (by simpa using h : c = 0).symm
  · rfl

theorem cvt_xmod {x : BitVec 4} (c : BitVec 5) (h : x.getLsbD 2 = false) :
    BitVec.ofNat 4 ((x.setWidth 2 : BitVec 2).toNat + 8 * (if x.getLsbD 3 then some c else none).isSome.toNat) = x := by
  have h3 : (if x.getLsbD 3 then some c else none).isSome = x.getLsbD 3 := by cases x.getLsbD 3 <;> rfl
  rw [h3]; clear h3; revert x; decide

theorem cvtMx_xmod {x : BitVec 4} (h : decide (1 < x.toNat) = false) : BitVec.ofNat 4 (x == 1).toNat = x := by revert x; decide

theorem decodeVcvt_reads {r : Raw} {i : Instr} (hM : r.major = 0x1A) (h : decodeVcvt r (RFields.read r.body) (Ext.read r.hi) = .ok i) :
    r.Reads i := by
  unfold decodeVcvt at h
  split at h
  · cases h
  next hl =>
    have hl : r.len = .l64 := Decidable.not_not.1 hl
    have h32 : ¬ r.len = .l32 := by rw [hl]; nofun
    have h96 : ¬ r.len = .l96 := by rw [hl]; nofun
    simp only at h
    split at h
    case h_3 => cases h
    case h_1 hm =>
      refine .of_keep h fun hb => ?_
      simp only [Bool.or_eq_false_iff] at hb
      obtain ⟨⟨⟨⟨he, -⟩, hec⟩, h2⟩, hcnt⟩ := hb
      exact .of_R rfl nofun hM hm rfl rfl rfl (Ext.under_cvt he hec (cvt_count hcnt) (cvt_xmod _ h2)) (if_neg h96).symm fun _ => Raw.is64_form h32 h96
    case h_2 hm =>
      refine .of_keep h fun hb => ?_
      simp only [Bool.or_eq_false_iff] at hb
      obtain ⟨⟨⟨he, -⟩, hec⟩, hx⟩ := hb
      exact .of_R rfl nofun hM hm rfl rfl rfl (Ext.under_cvt he hec rfl (cvtMx_xmod hx)) (if_neg h96).symm fun _ => Raw.is64_form h32 h96

theorem decodeSfu_reads {r : Raw} {i : Instr} (hM : r.major = 0x1D) (h : decodeSfu r (RFields.read r.body) (Ext.read r.hi) = .ok i) :
    r.Reads i := by
  unfold decodeSfu at h
  split at h
  · cases h
  next hl =>
    have hl : r.len = .l64 := Decidable.not_not.1 hl
    have h32 : ¬ r.len = .l32 := by rw [hl]; nofun
    have h96 : ¬ r.len = .l96 := by rw [hl]; nofun
    simp only at h
    split at h
    case h_10 => cases h
    all_goals
      next hm =>
        refine .of_keep h fun hb => ?_
        simp only [Bool.or_eq_false_iff, bne_eq_false_iff_eq] at hb
        exact .of_R rfl nofun hM hm rfl rfl hb.2 (Ext.under_kept hb.1 (xmod_of_and_0 (Ext.xmod_and hb.1))) (if_neg h96).symm fun _ => Raw.is64_form h32 h96

theorem decodeSync_reads {r : Raw} {i : Instr} (hM : r.major = 0x35) (h : decodeSync r (RFields.read r.body) (Ext.read r.hi) = .ok i) :
    r.Reads i := by
  unfold decodeSync at h
  split at h
  · cases h
  next hl =>
    simp only at h
    split at h
    case h_7 => cases h
    all_goals
      refine .of_keep h fun hb => ?_
      simp only [Bool.or_eq_false_iff, bne_eq_false_iff_eq] at hb
    case h_1 hm =>
      obtain ⟨⟨⟨he, hd⟩, ha⟩, hb⟩ := hb
      exact .of_R rfl nofun hM hm hd ha hb (Ext.under_kept he (xmod_of_and_0 (Ext.xmod_and he))) (if_neg hl).symm fun c =>
        Bool.and_eq_true_iff.2 ⟨Raw.not_is96 hl, c.default (p := fun e => e.ord == 0 && !e.sn && e.scope == 0) rfl⟩
    case h_2 hm => exact .of_enc0 rfl rfl nofun hl hM hm hb.1.1.1 hb.1.1.2 hb.1.2 rfl
    case h_3 hm => exact .of_enc0 rfl rfl nofun hl hM hm hb.1 hb.2 rfl rfl
    case h_4 hm | h_5 hm => exact .of_enc0 rfl rfl nofun hl hM hm hb.1.1 rfl (low3_of_idx3Bad hb.2).symm hb.1.2
    case h_6 hm => exact .of_enc0 rfl rfl nofun hl hM hm hb.1.1.1 hb.1.2 (low3_of_idx3Bad hb.2).symm hb.1.1.2

theorem low2_of_small {x : BitVec 5} (h : decide (3 < x.toNat) = false) : (x.setWidth 2 : BitVec 2).setWidth 5 = x := by revert x; decide

theorem decodeEng_reads {r : Raw} {i : Instr} (hM : r.major = 0x38) (h : decodeEng r (RFields.read r.body) (Ext.read r.hi) = .ok i) :
    r.Reads i := by
  unfold decodeEng at h
  split at h
  · cases h
  next hl =>
    simp only at h
    split at h
    case h_6 => cases h
    all_goals
      refine .of_keep h fun hb => ?_
      simp only [Bool.or_eq_false_iff, bne_eq_false_iff_eq] at hb
    case h_1 hm => exact .of_enc0 rfl rfl nofun hl hM hm hb.1 hb.2 rfl rfl
    case h_2 hm | h_3 hm => exact .of_enc0 rfl rfl nofun hl hM hm hb.1.1.1.1 hb.1.2 hb.1.1.1.2 (low3_of_idx3Bad hb.2).symm
    case h_4 hm | h_5 hm => exact .of_enc0 rfl rfl nofun hl hM hm hb.1.1.1 rfl hb.1.1.2 (low2_of_small hb.2).symm

theorem decodeStep_reads {r : Raw} {i : Instr} (hM : r.major = 0x3B) (h : decodeStep r (RFields.read r.body) (Ext.read r.hi) = .ok i) :
    r.Reads i := by
  unfold decodeStep at h
  split at h
  · cases h
  next hl =>
    simp only at h
    split at h
    case h_7 => cases h
    all_goals refine .of_keep h fun hb => ?_
    case h_2 hm => exact .of_enc0 rfl rfl nofun hl hM hm hb rfl rfl rfl
    case h_3 hm =>
      exact .of_R rfl nofun hM hm rfl rfl rfl (Ext.under_kept hb (xmod_of_and_3 (Ext.xmod_and hb))) (if_neg hl).symm fun c =>
        Bool.and_eq_true_iff.2 ⟨Raw.not_is96 hl, c.default (p := fun e => e.xmod.setWidth 2 == 0) rfl⟩
    all_goals simp only [Bool.or_eq_false_iff, bne_eq_false_iff_eq] at hb
    case h_1 hm => exact .of_enc0 rfl rfl nofun hl hM hm hb.1.1 rfl rfl (low3_of_idx3Bad hb.2).symm
    case h_4 hm => exact .of_enc0 rfl rfl nofun hl hM hm hb.1 rfl rfl hb.2
    case h_5 hm => exact .of_enc0 rfl rfl nofun hl hM hm hb.1.1 rfl hb.1.2 hb.2
    case h_6 hm => exact .of_enc0 rfl rfl nofun hl hM hm hb.1.1 hb.1.2 rfl hb.2

/-- The halves of `trap`'s immediate are the fields it is read from (18:R278). -/
theorem trap_imm {a b : BitVec 5} (h : idx3Bad b = false) :
    BitVec.ofNat 5 (BitVec.ofNat 8 (a.toNat + 32 * b.toNat)).toNat = a ∧ BitVec.ofNat 5 ((BitVec.ofNat 8 (a.toNat + 32 * b.toNat)).toNat / 32) = b := by
  have ha := a.isLt
  have hb : b.toNat ≤ 7 := by simpa [idx3Bad] using h
  rw [BitVec.toNat_ofNat, Nat.mod_eq_of_lt (by omega)]
  exact ⟨BitVec.eq_of_toNat_eq (by rw [BitVec.toNat_ofNat]; omega), BitVec.eq_of_toNat_eq (by rw [BitVec.toNat_ofNat]; omega)⟩

theorem decodeSys_reads {r : Raw} {i : Instr} (hM : r.major = 0x3C) (h : decodeSys r (RFields.read r.body) (Ext.read r.hi) = .ok i) : r.Reads i := by
  unfold decodeSys at h
  split at h
  · cases h
  next hl =>
    simp only at h
    split at h
    case h_12 => cases h
    case h_4 hm | h_5 hm =>
      split at h
      next hx =>
        have hx := eq_of_beq hx
        refine .of_keep h fun hb => ?_
        simp only [Bool.or_eq_false_iff, bne_eq_false_iff_eq] at hb
        obtain ⟨⟨⟨he, hb⟩, -⟩, ha⟩ := hb
        exact .of_R rfl nofun hM hm rfl ha (low3_of_idx3Bad hb).symm (Ext.under_kept he hx.symm) (if_neg hl).symm fun c =>
          Raw.is64_form (fun h => by rw [Raw.Canon.ext c h] at hx; exact absurd hx (by decide)) hl
      next hx =>
        refine .of_keep h fun hb => ?_
        simp only [Bool.or_eq_false_iff] at hb
        obtain ⟨⟨he, hb⟩, -⟩ := hb
        have hx : (0 : BitVec 4) = (Ext.read r.hi).xmod := xmod_of_and_1_ne (Ext.xmod_and he) hx
        exact .of_R rfl nofun hM hm rfl rfl (low3_of_idx3Bad hb).symm (Ext.under_kept he hx) (if_neg hl).symm fun _ => Raw.not_is96 hl
    all_goals
      refine .of_keep h fun hb => ?_
    case h_10 hm => exact .of_enc0 rfl rfl nofun hl hM hm hb rfl rfl rfl
    all_goals simp only [Bool.or_eq_false_iff, bne_eq_false_iff_eq] at hb
    case h_1 hm =>
      obtain ⟨⟨⟨⟨he, hd⟩, -⟩, -⟩, hb⟩ := hb
      exact .of_enc0 rfl rfl nofun hl hM hm he hd (trap_imm hb).1.symm (trap_imm hb).2.symm
    case h_2 hm | h_11 hm => exact .of_enc0 rfl rfl nofun hl hM hm hb.1.1.1 hb.1.1.2 hb.1.2 hb.2
    case h_3 hm => exact .of_enc0 rfl rfl nofun hl hM hm hb.1 (low3_of_idx3Bad hb.2).symm rfl rfl
    case h_6 hm => exact .of_enc0 rfl rfl nofun hl hM hm hb.1 rfl rfl hb.2
    case h_7 hm => exact .of_enc0 rfl rfl nofun hl hM hm hb.1.1 hb.1.2 rfl rfl
    case h_8 hm => exact .of_enc0 rfl rfl nofun hl hM hm hb.1.1.1 hb.1.1.2 hb.1.2 rfl
    case h_9 hm => exact .of_enc0 rfl rfl nofun hl hM hm hb.1.1 rfl rfl (low3_of_idx3Bad hb.2).symm

/-! ### Instructions of the I, M and B formats -/

section
variable {r : Raw} {i : Instr} {M : BitVec 6} {d a : BitVec 5} {ea : Bool}

theorem Raw.Reads.of_I {imm : BitVec 13} {lit : BitVec 32} (ht : i.toRaw = some (encI M r.form d a ea imm lit)) (hn : i ≠ .br 0 ⟨0, true⟩)
    (hM : r.major.toNat = M.toNat) (he : (Ext.read r.hi).unusedBad {} = false) (hd : (IFields.read r.body).d = d) (ha : (IFields.read r.body).a = a)
    (hea : (IFields.read r.body).ea = ea) (hi : (IFields.read r.body).imm = imm) (hl : lit = if r.len = .l96 then r.lit else 0)
    (hf : i.formOk = true) : r.Reads i := by
  refine ⟨fun _ => hf, hn, _, ht, r.len_form, (BitVec.eq_of_toNat_eq hM).symm, Raw.hi_form (Ext.under_plain he), hl, fun j _ _ => ?_⟩
  subst hd ha hea hi
  exact congrArg (·.getLsbD j) (IFields.word_read r.body)

theorem Raw.Reads.of_M {t : BitVec 5} {et : Bool} {e : Ext} (ht : i.toRaw = some (encM M r.form (mOp r (MFields.read r.body)) t et e)) (hn : i ≠ .br 0 ⟨0, true⟩)
    (hM : r.major.toNat = M.toNat) (hob : mOpBad r (MFields.read r.body) = false) (he : (Ext.read r.hi).under e = Ext.read r.hi)
    (htt : (MFields.read r.body).t = t) (het : (MFields.read r.body).et = et) (hf : r.Canon → i.formOk = true) : r.Reads i := by
  refine ⟨hf, hn, _, ht, r.len_form, (BitVec.eq_of_toNat_eq hM).symm, Raw.hi_form he, litWord_mOp r _, fun j _ _ => ?_⟩
  subst htt het
  rw [encM, ← imm8_mOp hob]
  exact congrArg (·.getLsbD j) (MFields.word_read r.body)

theorem Raw.Reads.of_B {g : BitVec 3} {n : Bool} {off : BitVec 20} (ht : i.toRaw = some ⟨.l32, M, BFields.word ⟨g, n, off⟩, 0, 0⟩) (hf : i.formOk = true)
    (hn : i ≠ .br 0 ⟨0, true⟩) (hl : r.len = .l32) (hM : r.major.toNat = M.toNat) (hb : BFields.read r.body = ⟨g, n, off⟩) : r.Reads i := by
  refine ⟨fun _ => hf, hn, _, ht, hl.symm, (BitVec.eq_of_toNat_eq hM).symm, (if_pos hl).symm, by rw [hl]; rfl, fun j _ _ => ?_⟩
  rw [← hb, BFields.word_read]

end

/-- The field of a compare's predicate holds its condition too (11:R188). -/
theorem cmpImm_field {x : BitVec 5} {c : Nat} (h : x.toNat / 8 = c) : x = BitVec.ofNat 5 ((low3 x).toNat + 8 * c) := by
  subst h; revert x; decide

theorem cmpImm_last {x : BitVec 5} (h0 : x.toNat / 8 ≠ 0) (h1 : x.toNat / 8 ≠ 1) (h2 : x.toNat / 8 ≠ 2) : x.toNat / 8 = 3 := by
  have := x.isLt; omega

theorem decodeImm_reads {r : Raw} {i : Instr} (h : decodeImm r (IFields.read r.body) (Ext.read r.hi) = .ok i) : r.Reads i := by
  have ok {j : Instr} (h : keep ((Ext.read r.hi).unusedBad {} || iImmBad r (IFields.read r.body)) j = .ok i)
      (f : (Ext.read r.hi).unusedBad {} = false → iImmBad r (IFields.read r.body) = false → r.Reads j) : r.Reads i :=
    .of_keep h fun hb => f (Bool.or_eq_false_iff.1 hb).1 (Bool.or_eq_false_iff.1 hb).2
  unfold decodeImm at h
  simp only at h
  split at h
  case h_10 => cases h
  case h_8 hM =>
    split at h
    case h_4 h0 h1 h2 =>
      have hc : (IFields.read r.body).d.toNat / 8 = 3 := cmpImm_last h0 h1 h2
      exact ok h fun he hi => .of_I rfl nofun hM he (cmpImm_field hc) rfl rfl (imm13_iImm hi) (litWord_iImm _ _) (fits_iImm _ _)
    all_goals
      next hc => exact ok h fun he hi => .of_I rfl nofun hM he (cmpImm_field hc) rfl rfl (imm13_iImm hi) (litWord_iImm _ _) (fits_iImm _ _)
  case h_9 hM =>
    split at h
    case h_3 => cases h
    all_goals
      next hc => exact ok h fun he hi => .of_I rfl nofun hM he (cmpImm_field hc) rfl rfl (imm13_iImm hi) (litWord_iImm _ _) (fits_iImm _ _)
  all_goals
    next hM => exact ok h fun he hi => .of_I rfl nofun hM he rfl rfl rfl (imm13_iImm hi) (litWord_iImm _ _) (fits_iImm _ _)

theorem termrd_imm {x : BitVec 13} (h : ¬ 63 < x.toNat) : x = (x.setWidth 6 : BitVec 6).setWidth 13 := by
  apply BitVec.eq_of_toNat_eq
  simp only [BitVec.toNat_setWidth]
  omega

theorem decodeI64_reads {r : Raw} {i : Instr} (h : decodeI64 r (IFields.read r.body) (Ext.read r.hi) = .ok i) : r.Reads i := by
  unfold decodeI64 at h
  split at h
  · cases h
  next hl =>
    simp only at h
    split at h
    case h_5 => cases h
    case h_4 hM =>
      split at h
      · cases h
      next hb =>
        split at h
        · cases h
        next hi =>
          cases h
          simp only [Bool.not_eq_true, Bool.or_eq_false_iff, bne_eq_false_iff_eq] at hb
          exact .of_I rfl nofun hM hb.1.1 rfl hb.1.2 hb.2 (termrd_imm hi) (if_neg hl).symm (Raw.not_is96 hl)
    all_goals
      refine .of_keep h fun hb => ?_
      simp only [Bool.or_eq_false_iff, bne_eq_false_iff_eq] at hb
    case h_1 hM => exact .of_I rfl nofun hM hb.1 rfl hb.2.symm rfl rfl (if_neg hl).symm (Raw.not_is96 hl)
    case h_2 hM => exact .of_I rfl nofun hM hb.1.1 rfl hb.1.2 hb.2 rfl (if_neg hl).symm (Raw.not_is96 hl)
    case h_3 hM => exact .of_I rfl nofun hM hb.1 hb.2 rfl rfl rfl (if_neg hl).symm (Raw.not_is96 hl)

theorem decodeMem_reads {r : Raw} {i : Instr} (h : decodeMem r (MFields.read r.body) (Ext.read r.hi) = .ok i) : r.Reads i := by
  have long {bad : Bool} {j : Instr} (h : (if r.len = .l32 then .error .illegalOpcode else keep bad j) = .ok i)
      (f : ¬ r.len = .l32 → bad = false → r.Reads j) : r.Reads i := by
    split at h
    · cases h
    next hl => exact .of_keep h (f hl)
  unfold decodeMem at h
  simp only at h
  split at h
  case h_22 => cases h
  case h_1 hM | h_2 hM | h_3 hM | h_4 hM | h_5 hM =>
    refine .of_keep h fun hb => ?_
    simp only [Bool.or_eq_false_iff] at hb
    obtain ⟨⟨hob, het⟩, he⟩ := hb
    exact .of_M rfl nofun hM hob (Ext.under_kept he (xmod_of_and_1 (Ext.xmod_and he))) rfl het fun c =>
      Bool.and_eq_true_iff.2 ⟨Bool.and_eq_true_iff.2 ⟨fits_mOp _ _, c.default (p := fun e => e.ord == 0 && !e.sn && e.scope == 0) rfl⟩,
        c.default (p := fun e => !(e.xmod == 1)) rfl⟩
  case h_6 hM | h_7 hM | h_8 hM | h_9 hM | h_10 hM | h_11 hM =>
    refine .of_keep h fun hb => ?_
    obtain ⟨hob, he⟩ := Bool.or_eq_false_iff.1 hb
    exact .of_M rfl nofun hM hob (Ext.under_kept he (xmod_of_and_0 (Ext.xmod_and he))) rfl rfl fun c =>
      Bool.and_eq_true_iff.2 ⟨fits_mOp _ _, c.default (p := fun e => e.ord == 0 && !e.sn && e.scope == 0) rfl⟩
  case h_12 hM | h_13 hM | h_20 hM =>
    refine .of_keep h fun hb => ?_
    simp only [Bool.or_eq_false_iff] at hb
    obtain ⟨⟨hob, het⟩, he⟩ := hb
    exact .of_M rfl nofun hM hob (Ext.under_kept he (xmod_of_and_8 (Ext.xmod_and he))) rfl het fun c =>
      Bool.and_eq_true_iff.2 ⟨fits_mOp _ _, c.default (p := fun e => !e.sn && e.scope == 0 && !(e.xmod == 8)) rfl⟩
  case h_14 hM =>
    refine .of_keep h fun hb => ?_
    obtain ⟨hob, he⟩ := Bool.or_eq_false_iff.1 hb
    exact .of_M rfl nofun hM hob (Ext.under_kept he (xmod_of_and_1 (Ext.xmod_and he))) rfl rfl fun c =>
      Bool.and_eq_true_iff.2 ⟨fits_mOp _ _, c.default (p := fun e => !e.sn && e.scope == 0 && !(e.xmod == 1)) rfl⟩
  case h_15 hM | h_16 hM | h_17 hM | h_18 hM =>
    refine long h fun hl hb => ?_
    obtain ⟨hob, he⟩ := Bool.or_eq_false_iff.1 hb
    exact .of_M rfl nofun hM hob (Ext.under_kept he rfl) rfl rfl fun _ => Bool.and_eq_true_iff.2 ⟨fits_mOp _ _, Raw.not_is32 hl⟩
  case h_19 hM =>
    refine .of_keep h fun hb => ?_
    simp only [Bool.or_eq_false_iff] at hb
    exact .of_M rfl nofun hM hb.1.1 (Ext.under_plain hb.2) rfl hb.1.2 fun _ => fits_mOp _ _
  case h_21 hM =>
    refine .of_keep h fun hb => ?_
    obtain ⟨hob, he⟩ := Bool.or_eq_false_iff.1 hb
    exact .of_M rfl nofun hM hob (Ext.under_kept he (xmod_of_bits _)) rfl rfl fun c =>
      Bool.and_eq_true_iff.2 ⟨fits_mOp _ _,
        c.default (p := fun e => !e.sn && e.scope == 0 && e.xmod.setWidth 2 == 0 && !e.xmod.getLsbD 2 && !e.xmod.getLsbD 3) rfl⟩

/-! ### All majors -/

theorem decodeShape_reads {r : Raw} {i : Instr} (h : decodeShape r = .ok i) : r.Reads i := by
  unfold decodeShape at h
  simp only at h
  split at h
  case h_1 hM =>
    split at h
    next hl =>
      split at h
      next hb =>
        cases h
        simp only [Bool.and_eq_true, beq_iff_eq] at hb
        obtain ⟨⟨hp, hn⟩, ho⟩ := hb
        exact .of_B rfl rfl nofun hl hM (by rw [← hp, ← hn, ← ho])
      next hb =>
        cases h
        refine .of_B rfl rfl (fun hi => ?_) hl hM rfl
        obtain ⟨ho, hp, hn⟩ := by simpa using hi
        exact hb (by rw [hp, hn, ho]; rfl)
    next => cases h
  case h_2 hM =>
    split at h
    next hl => cases h; exact .of_B rfl rfl nofun hl hM rfl
    next => cases h
  case h_3 | h_4 | h_5 | h_6 => exact decodeI64_reads h
  case h_7 hM => exact decodeControl_reads (BitVec.eq_of_toNat_eq hM) h
  case h_8 hM => exact decodeAlu_reads (BitVec.eq_of_toNat_eq hM) h
  case h_9 hM => exact decodeMul_reads (BitVec.eq_of_toNat_eq hM) h
  case h_10 hM => exact decodeCmp_reads (BitVec.eq_of_toNat_eq hM) h
  case h_20 hM => exact decodeSegment_reads (BitVec.eq_of_toNat_eq hM) h
  case h_21 hM => exact decodeVint_reads (BitVec.eq_of_toNat_eq hM) h
  case h_22 hM => exact decodeVfp_reads (BitVec.eq_of_toNat_eq hM) h
  case h_23 hM => exact decodeVcvt_reads (BitVec.eq_of_toNat_eq hM) h
  case h_24 hM => exact decodeVpred_reads (BitVec.eq_of_toNat_eq hM) h
  case h_25 hM => exact decodeVmov_reads (BitVec.eq_of_toNat_eq hM) h
  case h_26 hM => exact decodeSfu_reads (BitVec.eq_of_toNat_eq hM) h
  case h_48 hM => exact decodeSync_reads (BitVec.eq_of_toNat_eq hM) h
  case h_49 hM => exact decodeEng_reads (BitVec.eq_of_toNat_eq hM) h
  case h_50 hM => exact decodeStep_reads (BitVec.eq_of_toNat_eq hM) h
  case h_51 hM => exact decodeSys_reads (BitVec.eq_of_toNat_eq hM) h
  case h_52 hM =>
    split at h
    next hl =>
      refine .of_keep h fun hb => ?_
      refine ⟨fun _ => rfl, nofun, _, rfl, hl.symm, (BitVec.eq_of_toNat_eq hM).symm, by rw [hl]; rfl, by rw [hl]; rfl, fun j _ _ => ?_⟩
      rw [bne_eq_false_iff_eq.1 hb]
    next => cases h
  case h_53 => cases h
  case h_11 | h_12 | h_13 | h_14 | h_15 | h_16 | h_17 | h_18 | h_19 => exact decodeImm_reads h
  all_goals exact decodeMem_reads h

theorem decodeRaw_reads {r : Raw} {i : Instr} (h : decodeRaw r = .ok i) : r.Reads i ∧ i.operandErr.isNone = true := by
  unfold decodeRaw at h
  split at h
  · cases h
  next j hj =>
    split at h
    · cases h
    next ho => cases h; exact ⟨decodeShape_reads hj, by rw [ho]; rfl⟩

/-- What the decoder accepts from a group as it builds it is well formed. -/
theorem wf_of_decodeRaw {r : Raw} {i : Instr} (c : r.Canon) (h : decodeRaw r = .ok i) : i.wf = true := by
  obtain ⟨hr, ho⟩ := decodeRaw_reads h
  simp only [Instr.wf, hr.formOk c, ho, Bool.true_and, Bool.not_eq_true', beq_eq_false_iff_ne]
  exact hr.notNop

/-! ### The statement -/

/-- Each well-formed instruction has a word group that reads back: the model's own lemmas, one of each encoded instruction; no other
instruction is well formed. -/
theorem roundTrip (i : Instr) : Laws.RoundTrip.Statement i := by
  cases i with
  | br off g => exact Laws.RoundTrip.br off g
  | nop => exact Laws.RoundTrip.nop
  | call off g => exact Laws.RoundTrip.call off g
  | loop f d ea off => exact Laws.RoundTrip.loop f d ea off
  | jr f a ea => exact Laws.RoundTrip.jr f a ea
  | callr o => exact Laws.RoundTrip.callr o
  | ret f ea => exact Laws.RoundTrip.ret f ea
  | tend f => exact Laws.RoundTrip.tend f
  | hintYield f => exact Laws.RoundTrip.hintYield f
  | yield f => exact Laws.RoundTrip.yield f
  | gbar f => exact Laws.RoundTrip.gbar f
  | add o sat uns => exact Laws.RoundTrip.add o sat uns
  | sub o sat uns => exact Laws.RoundTrip.sub o sat uns
  | and o => exact Laws.RoundTrip.and o
  | or o => exact Laws.RoundTrip.or o
  | xor o => exact Laws.RoundTrip.xor o
  | andn o => exact Laws.RoundTrip.andn o
  | orn o => exact Laws.RoundTrip.orn o
  | shl o => exact Laws.RoundTrip.shl o
  | shr o => exact Laws.RoundTrip.shr o
  | sra o => exact Laws.RoundTrip.sra o
  | rol o => exact Laws.RoundTrip.rol o
  | ror o => exact Laws.RoundTrip.ror o
  | min o => exact Laws.RoundTrip.min o
  | max o => exact Laws.RoundTrip.max o
  | minu o => exact Laws.RoundTrip.minu o
  | maxu o => exact Laws.RoundTrip.maxu o
  | clz o => exact Laws.RoundTrip.clz o
  | ctz o => exact Laws.RoundTrip.ctz o
  | popc o => exact Laws.RoundTrip.popc o
  | sext o => exact Laws.RoundTrip.sext o
  | zext o => exact Laws.RoundTrip.zext o
  | bext o => exact Laws.RoundTrip.bext o
  | bins o => exact Laws.RoundTrip.bins o
  | sh1add o => exact Laws.RoundTrip.sh1add o
  | sh2add o => exact Laws.RoundTrip.sh2add o
  | sh3add o => exact Laws.RoundTrip.sh3add o
  | sh4add o => exact Laws.RoundTrip.sh4add o
  | mul o => exact Laws.RoundTrip.mul o
  | mulh o => exact Laws.RoundTrip.mulh o
  | mulhu o => exact Laws.RoundTrip.mulhu o
  | mulhsu o => exact Laws.RoundTrip.mulhsu o
  | div o => exact Laws.RoundTrip.div o
  | divu o => exact Laws.RoundTrip.divu o
  | rem o => exact Laws.RoundTrip.rem o
  | remu o => exact Laws.RoundTrip.remu o
  | cmpEq o => exact Laws.RoundTrip.cmpEq o
  | cmpNe o => exact Laws.RoundTrip.cmpNe o
  | cmpLt o => exact Laws.RoundTrip.cmpLt o
  | cmpGe o => exact Laws.RoundTrip.cmpGe o
  | cmpLtu o => exact Laws.RoundTrip.cmpLtu o
  | cmpGeu o => exact Laws.RoundTrip.cmpGeu o
  | addi o => exact Laws.RoundTrip.addi o
  | andi o => exact Laws.RoundTrip.andi o
  | ori o => exact Laws.RoundTrip.ori o
  | xori o => exact Laws.RoundTrip.xori o
  | shli o => exact Laws.RoundTrip.shli o
  | shri o => exact Laws.RoundTrip.shri o
  | srai o => exact Laws.RoundTrip.srai o
  | cmpiEq o => exact Laws.RoundTrip.cmpiEq o
  | cmpiNe o => exact Laws.RoundTrip.cmpiNe o
  | cmpiLt o => exact Laws.RoundTrip.cmpiLt o
  | cmpiGe o => exact Laws.RoundTrip.cmpiGe o
  | cmpiuLtu o => exact Laws.RoundTrip.cmpiuLtu o
  | cmpiuGeu o => exact Laws.RoundTrip.cmpiuGeu o
  | rdms f d num => exact Laws.RoundTrip.rdms f d num
  | wrms f a ea num => exact Laws.RoundTrip.wrms f a ea num
  | gnarrow f d a b eb c ec drop => exact Laws.RoundTrip.gnarrow f d a b eb c ec drop
  | grd f d a hi => exact Laws.RoundTrip.grd f d a hi
  | pand o => exact Laws.RoundTrip.pand o
  | por o => exact Laws.RoundTrip.por o
  | pxor o => exact Laws.RoundTrip.pxor o
  | pnot o => exact Laws.RoundTrip.pnot o
  | pmov o => exact Laws.RoundTrip.pmov o
  | vwhile g ty d a ea b eb => exact Laws.RoundTrip.vwhile g ty d a ea b eb
  | pcnt ty d a => exact Laws.RoundTrip.pcnt ty d a
  | vmov o => exact Laws.RoundTrip.vmov o
  | vbcast o => exact Laws.RoundTrip.vbcast o
  | vins o => exact Laws.RoundTrip.vins o
  | vext o => exact Laws.RoundTrip.vext o
  | vperm o => exact Laws.RoundTrip.vperm o
  | vsel o => exact Laws.RoundTrip.vsel o
  | vintVadd o => exact Laws.RoundTrip.vintVadd o
  | vintVsub o => exact Laws.RoundTrip.vintVsub o
  | vintVmul o => exact Laws.RoundTrip.vintVmul o
  | vintVmulh o => exact Laws.RoundTrip.vintVmulh o
  | vintVmin o => exact Laws.RoundTrip.vintVmin o
  | vintVmax o => exact Laws.RoundTrip.vintVmax o
  | vintVand o => exact Laws.RoundTrip.vintVand o
  | vintVor o => exact Laws.RoundTrip.vintVor o
  | vintVxor o => exact Laws.RoundTrip.vintVxor o
  | vintVandn o => exact Laws.RoundTrip.vintVandn o
  | vintVshl o => exact Laws.RoundTrip.vintVshl o
  | vintVshr o => exact Laws.RoundTrip.vintVshr o
  | vintVsra o => exact Laws.RoundTrip.vintVsra o
  | vintVabs o => exact Laws.RoundTrip.vintVabs o
  | vintVneg o => exact Laws.RoundTrip.vintVneg o
  | vintVcmpEq o => exact Laws.RoundTrip.vintVcmpEq o
  | vintVcmpNe o => exact Laws.RoundTrip.vintVcmpNe o
  | vintVcmpLt o => exact Laws.RoundTrip.vintVcmpLt o
  | vintVcmpLe o => exact Laws.RoundTrip.vintVcmpLe o
  | vdot4 o => exact Laws.RoundTrip.vdot4 o
  | vintVsum o => exact Laws.RoundTrip.vintVsum o
  | vfpVadd o => exact Laws.RoundTrip.vfpVadd o
  | vfpVsub o => exact Laws.RoundTrip.vfpVsub o
  | vfpVmul o => exact Laws.RoundTrip.vfpVmul o
  | vfpVmin o => exact Laws.RoundTrip.vfpVmin o
  | vfpVmax o => exact Laws.RoundTrip.vfpVmax o
  | vfpVabs o => exact Laws.RoundTrip.vfpVabs o
  | vfpVneg o => exact Laws.RoundTrip.vfpVneg o
  | vfpVcmpEq o => exact Laws.RoundTrip.vfpVcmpEq o
  | vfpVcmpNe o => exact Laws.RoundTrip.vfpVcmpNe o
  | vfpVcmpLt o => exact Laws.RoundTrip.vfpVcmpLt o
  | vfpVcmpLe o => exact Laws.RoundTrip.vfpVcmpLe o
  | vfpVsum o => exact Laws.RoundTrip.vfpVsum o
  | vfma o => exact Laws.RoundTrip.vfma o
  | vfms o => exact Laws.RoundTrip.vfms o
  | vfnma o => exact Laws.RoundTrip.vfnma o
  | vfnms o => exact Laws.RoundTrip.vfnms o
  | fmt w => exact Laws.RoundTrip.fmt w
  | cvt o => exact Laws.RoundTrip.cvt o
  | cvtMx o => exact Laws.RoundTrip.cvtMx o
  | sfuExp o => exact Laws.RoundTrip.sfuExp o
  | sfuLog o => exact Laws.RoundTrip.sfuLog o
  | sfuRcp o => exact Laws.RoundTrip.sfuRcp o
  | sfuRsqrt o => exact Laws.RoundTrip.sfuRsqrt o
  | sfuSqrt o => exact Laws.RoundTrip.sfuSqrt o
  | sfuSin o => exact Laws.RoundTrip.sfuSin o
  | sfuCos o => exact Laws.RoundTrip.sfuCos o
  | sfuTanh o => exact Laws.RoundTrip.sfuTanh o
  | sfuSigm o => exact Laws.RoundTrip.sfuSigm o
  | ldD8 o => exact Laws.RoundTrip.ldD8 o
  | ldD16 o => exact Laws.RoundTrip.ldD16 o
  | ldD32 o => exact Laws.RoundTrip.ldD32 o
  | ldD64 o => exact Laws.RoundTrip.ldD64 o
  | ldD128 o => exact Laws.RoundTrip.ldD128 o
  | stD4 o => exact Laws.RoundTrip.stD4 o
  | stD8 o => exact Laws.RoundTrip.stD8 o
  | stD16 o => exact Laws.RoundTrip.stD16 o
  | stD32 o => exact Laws.RoundTrip.stD32 o
  | stD64 o => exact Laws.RoundTrip.stD64 o
  | stD128 o => exact Laws.RoundTrip.stD128 o
  | ldfe o => exact Laws.RoundTrip.ldfe o
  | ldfeTake o => exact Laws.RoundTrip.ldfeTake o
  | stfe o => exact Laws.RoundTrip.stfe o
  | qld o => exact Laws.RoundTrip.qld o
  | qst o => exact Laws.RoundTrip.qst o
  | amoD32 o => exact Laws.RoundTrip.amoD32 o
  | amoD64 o => exact Laws.RoundTrip.amoD64 o
  | fork f m t => exact Laws.RoundTrip.fork f m t
  | join o => exact Laws.RoundTrip.join o
  | waddr o => exact Laws.RoundTrip.waddr o
  | fence f o => exact Laws.RoundTrip.fence f o
  | qwait f sel => exact Laws.RoundTrip.qwait f sel
  | send f a ea b eb => exact Laws.RoundTrip.send f a ea b eb
  | recv f d a ea => exact Laws.RoundTrip.recv f d a ea
  | recvKeep f d a ea => exact Laws.RoundTrip.recvKeep f d a ea
  | mwait f a ea => exact Laws.RoundTrip.mwait f a ea
  | tcmd f a ea b eb => exact Laws.RoundTrip.tcmd f a ea b eb
  | semSig f n => exact Laws.RoundTrip.semSig f n
  | semWait f n => exact Laws.RoundTrip.semWait f n
  | pwrAcq f cls n => exact Laws.RoundTrip.pwrAcq f cls n
  | pwrRel f cls n => exact Laws.RoundTrip.pwrRel f cls n
  | termrd f d num => exact Laws.RoundTrip.termrd f d num
  | stepget f d sel a ea => exact Laws.RoundTrip.stepget f d sel a ea
  | stoptest o => exact Laws.RoundTrip.stoptest o
  | seqret o why => exact Laws.RoundTrip.seqret o why
  | seqadm o => exact Laws.RoundTrip.seqadm o
  | poolTake f d => exact Laws.RoundTrip.poolTake f d
  | poolGive f a ea => exact Laws.RoundTrip.poolGive f a ea
  | trap f imm => exact Laws.RoundTrip.trap f imm
  | trapret f => exact Laws.RoundTrip.trapret f
  | gwrite f d a ea b eb => exact Laws.RoundTrip.gwrite f d a ea b eb
  | ctxsave f d a ea g => exact Laws.RoundTrip.ctxsave f d a ea g
  | ctxsaveTile f d g => exact Laws.RoundTrip.ctxsaveTile f d g
  | ctxrest f d a ea g => exact Laws.RoundTrip.ctxrest f d a ea g
  | ctxrestTile f d g => exact Laws.RoundTrip.ctxrestTile f d g
  | rebuild o => exact Laws.RoundTrip.rebuild o
  | recmark f a ea tag => exact Laws.RoundTrip.recmark f a ea tag
  | bkpt f code => exact Laws.RoundTrip.bkpt f code
  | halt f d a ea op => exact Laws.RoundTrip.halt f d a ea op
  | fwcall o => exact Laws.RoundTrip.fwcall o
  | termclr f => exact Laws.RoundTrip.termclr f
  | _ => exact fun h => absurd h Bool.false_ne_true

/-- The encoder's groups are as the decoder builds them, since the decoder reads them back. -/
theorem exists_toRaw_canon {i : Instr} (h : i.wf = true) : ∃ r, i.toRaw = some r ∧ r.Canon ∧ decodeRaw r = .ok i := by
  obtain ⟨r, hr, hd⟩ := roundTrip i h
  obtain ⟨q, hq, ha⟩ := (decodeRaw_reads hd).1.alike
  obtain rfl : q = r := Option.some.inj (hq.symm.trans hr)
  exact ⟨q, hr, ⟨fun hl => ha.hi.trans (if_pos hl), fun hl => ha.lit.trans (if_neg hl)⟩, hd⟩

theorem Raw.length_words_le (r : Raw) : r.words.length ∈ [1, 2, 3] := by
  obtain ⟨len, major, body, hi, lit⟩ := r
  cases len <;> simp [Raw.words]

theorem decode_bytesOfWords {r : Raw} {i : Instr} (c : r.Canon) (h : decodeRaw r = .ok i) (rest : List Byte) :
    decode (bytesOfWords r.words ++ rest) = .ok (i, 4 * r.words.length) := by
  have hn : ∃ k, r.words.length + k = 3 := by have := r.length_words_le; exact ⟨3 - r.words.length, by simp at this; omega⟩
  obtain ⟨k, hk⟩ := hn
  have hw : wordsOfBytes ((bytesOfWords r.words ++ rest).take 12) = r.words ++ wordsOfBytes (rest.take (4 * k)) := by
    rw [show 12 = 4 * 3 from rfl, wordsOfBytes_take, wordsOfBytes_append, ← hk, List.take_length_add_append, wordsOfBytes_take]
  rw [decode, hw, decodeWords_words c, h]
  rfl

/-- Groups that are alike have first words that agree but for bits 23 and 24, and the same words after it. -/
theorem Raw.Alike.words {q r : Raw} (h : q.Alike r) (c : r.Canon) :
    ∃ ws, q.words = q.word0 :: ws ∧ r.words = r.word0 :: ws ∧ ∀ k, k ≠ 23 → k ≠ 24 → q.word0.getLsbD k = r.word0.getLsbD k := by
  have hbits (k : Nat) (h23 : k ≠ 23) (h24 : k ≠ 24) : q.word0.getLsbD k = r.word0.getLsbD k := by
    have hb := h.body (k - 2 - 6) (by omega) (by omega)
    simp only [BitVec.getLsbD] at hb
    simp only [Raw.word0_eq, BitVec.getLsbD_ofNat, testBit_packFields_cons, h.len, h.major, hb]
  obtain ⟨hlen, -, hhi, hlit, -⟩ := h
  obtain ⟨c1, c2⟩ := c
  obtain ⟨len, major, body, hi, lit⟩ := r
  obtain ⟨len', major', body', hi', lit'⟩ := q
  obtain rfl : len' = len := hlen
  cases len'
  · exact ⟨[], rfl, rfl, hbits⟩
  · obtain rfl : hi' = hi := hhi
    exact ⟨[hi'], rfl, rfl, hbits⟩
  · obtain rfl : hi' = hi := hhi
    obtain rfl : lit' = lit := hlit
    exact ⟨[hi', lit'], rfl, rfl, hbits⟩

/-- The words a decoded instruction was read from. -/
theorem decode_ok {bs : List Byte} {i : Instr} {n : Nat} (h : decode bs = .ok (i, n)) :
    ∃ r, r.Canon ∧ decodeRaw r = .ok i ∧ n ≤ bs.length ∧ wordsOfBytes (bs.take n) = r.words := by
  unfold decode at h
  cases hd : decodeWords (wordsOfBytes (bs.take 12)) with
  | error x => rw [hd] at h; cases h
  | ok p =>
    obtain ⟨j, k⟩ := p
    rw [hd] at h; cases h
    obtain ⟨r, rest, c, hws, rfl, hr⟩ := decodeWords_ok hd
    rw [show 12 = 4 * 3 from rfl, wordsOfBytes_take] at hws
    have hk : r.words.length ≤ 3 := by have := r.length_words_le; simp at this; omega
    have hlen := congrArg List.length hws
    simp only [List.length_take, List.length_append] at hlen
    have := length_wordsOfBytes bs
    refine ⟨r, c, hr, by omega, ?_⟩
    rw [wordsOfBytes_take, ← Nat.min_eq_left hk, ← List.take_take, hws, List.take_left]

/-- Settles O55: the encoder's word group of a well-formed instruction is one the decoder builds and accepts; and each arm of the decoder
gives an instruction whose word group has the fields it was read from. -/
theorem encodingRoundTrip : Obligations.EncodingRoundTrip := by
  unfold Obligations.EncodingRoundTrip
  refine ⟨fun i h => ?_, fun bs i n h => ?_⟩
  · obtain ⟨r, hr, c, hd⟩ := exists_toRaw_canon h
    rw [encode_eq_words hr]
    exact ⟨r.length_words_le, decode_bytesOfWords c hd⟩
  · obtain ⟨r, c, hd, hn, hw⟩ := decode_ok h
    obtain ⟨q, hq, ha⟩ := (decodeRaw_reads hd).1.alike
    obtain ⟨ws, hqw, hrw, hbits⟩ := ha.words c
    exact ⟨wf_of_decodeRaw c hd, hn, _, _, ws, (encode_eq_words hq).trans hqw, hw.trans hrw, hbits⟩

end Sys2Proof
end

section
/-! PROOFS. Scalar instructions (11:R182 to R189): arithmetic, bit fields, products and divisions, compares and predicates. -/

namespace Sys2Proof.Machine

section
variable {s : State} {o : AluArgs}

/-- What a performed two-source instruction leaves, as the answer of a step. -/
theorem State.next_alu {sg : Bool} {lat : Nat} {f : Word → Word → Word} (h : s.performs o.f [.s o.d] (.s o.a :: o.b.reads.map (·.1)) = true) :
    (.next (s.alu o sg lat f) : Out) = .next (s.after (s.task.writeS s.cycle o.d (f (s.task.getS o.a) (o.b.val s.task sg)) lat) o.f.bytes) :=
  congrArg _ (State.alu_performs h)

theorem State.next_unary {o : UnArgs} {f : Word → Word} (h : s.performs o.f [.s o.d] [.s o.a] = true) :
    (.next (s.unary o f) : Out) = .next (s.after (s.task.writeS s.cycle o.d (f (s.task.getS o.a)) 1) o.f.bytes) :=
  congrArg _ (State.unary_performs h)

theorem State.next_aluImm {o : ImmArgs} {sg : Bool} {f : Word → Word → Word} (h : s.performs o.f [.s o.d] [.s o.a] = true) :
    (.next (s.aluImm o sg f) : Out) = .next (s.after (s.task.writeS s.cycle o.d (f (s.task.getS o.a) (o.imm.val sg)) 1) o.f.bytes) :=
  congrArg _ (State.aluImm_performs h)

theorem State.next_divide {sg : Bool} {f : Word → Word → Word} (h : s.performs o.f [.s o.d] (.s o.a :: o.b.reads.map (·.1)) = true)
    (hz : o.b.val s.task sg ≠ 0) :
    (.next (s.divide o sg f) : Out) = .next (s.after (s.task.writeS s.cycle o.d (f (s.task.getS o.a) (o.b.val s.task sg)) 20) o.f.bytes) :=
  congrArg _ (State.divide_performs h hz)

theorem State.next_divide_zero {sg : Bool} {f : Word → Word → Word} (h : s.performs o.f [.s o.d] (.s o.a :: o.b.reads.map (·.1)) = true)
    (hz : o.b.val s.task sg = 0) : (.next (s.divide o sg f) : Out) = .next (s.trapC cDIVIDE_ZERO) :=
  congrArg _ (State.divide_zero h hz)

end

/-! ### Arithmetic, shifts and immediates -/

/-- An unsigned difference that saturates stops at 0 (11:R183). -/
theorem satN64_sub_toNat (a b : Word) : (satN64 ((a.toNat : Int) - b.toNat)).toNat = a.toNat - b.toNat := by
  have := satN64_toNat ((a.toNat : Int) - b.toNat)
  have := a.isLt
  omega

theorem satN64_add_toNat (a b : Word) : (satN64 (a.toNat + b.toNat)).toNat = min (2 ^ 64 - 1) (a.toNat + b.toNat) := by
  have := satN64_toNat (a.toNat + b.toNat)
  omega

/-- Settles O1: each instruction writes the value that Flags.lean computes, and that is the stated one. -/
theorem scalarResults : Obligations.ScalarResults := by
  unfold Obligations.ScalarResults
  refine ⟨⟨fun s o uns h => ?_, fun s o h => ?_, fun s o h => ?_⟩, fun s o h => ?_⟩ <;> dsimp only
  · rw [← minVal_eq, ← maxVal_eq, ← minuVal_eq, ← maxuVal_eq]
    refine ⟨State.next_alu h, State.next_alu h, State.next_alu h, State.next_alu h, State.next_alu h, State.next_alu h, State.next_alu h,
      State.next_alu h, State.next_alu h, State.next_alu h, State.next_alu h, ?_, ?_, ?_, ?_⟩
    · exact (State.next_alu h).trans (by rw [shNaddVal_eq]; rfl)
    · exact (State.next_alu h).trans (by rw [shNaddVal_eq]; rfl)
    · exact (State.next_alu h).trans (by rw [shNaddVal_eq]; rfl)
    · exact (State.next_alu h).trans (by rw [shNaddVal_eq]; rfl)
  · exact ⟨⟨_, State.next_alu h, satI64_toInt _⟩, ⟨_, State.next_alu h, satI64_toInt _⟩, ⟨_, State.next_alu h, satN64_add_toNat _ _⟩,
      ⟨_, State.next_alu h, satN64_sub_toNat _ _⟩⟩
  · rw [← shlVal_eq, ← shrVal_eq, ← sraVal_eq, ← rolVal_eq, ← rorVal_eq]
    exact ⟨State.next_alu h, State.next_alu h, State.next_alu h, State.next_alu h, State.next_alu h⟩
  · rw [← shlVal_eq, ← shrVal_eq, ← sraVal_eq]
    exact ⟨State.next_aluImm h, State.next_aluImm h, State.next_aluImm h, State.next_aluImm h, State.next_aluImm h, State.next_aluImm h,
      State.next_aluImm h⟩

/-! ### Counts and bit fields -/

theorem clzVal_toNat (a : Word) : (clzVal a).toNat = leadZeros a.toNat 64 := by
  have := leadZeros_le a.toNat 64
  rw [clzVal, BitVec.toNat_ofNat, Nat.mod_eq_of_lt (by omega)]

theorem ctzVal_toNat (a : Word) : (ctzVal a).toNat = trailZeros a.toNat 64 := by
  have := trailZeros_le a.toNat 64
  rw [ctzVal, BitVec.toNat_ofNat, Nat.mod_eq_of_lt (by omega)]

theorem clzVal_above (a : Word) {j : Nat} (h : 64 - (clzVal a).toNat ≤ j) : a.getLsbD j = false := by
  rw [clzVal_toNat] at h
  by_cases hj : j < 64
  · exact leadZeros_above _ 64 j h hj
  · exact BitVec.getLsbD_of_ge a j (by omega)

theorem ctzVal_below (a : Word) {j : Nat} (h : j < (ctzVal a).toNat) : a.getLsbD j = false := by
  rw [ctzVal_toNat] at h
  exact trailZeros_below 64 _ j h

/-- A number that is not 0 has a bit that is 1. -/
theorem exists_bit {a : Word} (h : a ≠ 0) : ∃ i, i < 64 ∧ a.getLsbD i = true := by
  by_contra hn
  refine h (BitVec.eq_of_getLsbD_eq fun i hi => ?_)
  have := fun ht => hn ⟨i, hi, ht⟩
  simpa using this

theorem clzVal_hit (a : Word) : if a = 0 then (clzVal a).toNat = 64 else (clzVal a).toNat < 64 ∧ a.getLsbD (63 - (clzVal a).toNat) = true := by
  split
  next h => subst h; decide
  next h =>
    obtain ⟨i, hi, hb⟩ := exists_bit h
    have hlt : (clzVal a).toNat < 64 := by
      by_contra hn
      rw [clzVal_above a (j := i) (by omega)] at hb
      cases hb
    refine ⟨hlt, ?_⟩
    rw [clzVal_toNat] at hlt ⊢
    exact leadZeros_hit _ 64 hlt

theorem ctzVal_hit (a : Word) : if a = 0 then (ctzVal a).toNat = 64 else (ctzVal a).toNat < 64 ∧ a.getLsbD (ctzVal a).toNat = true := by
  split
  next h => subst h; decide
  next h =>
    obtain ⟨i, hi, hb⟩ := exists_bit h
    have hlt : (ctzVal a).toNat < 64 := by
      by_contra hn
      rw [ctzVal_below a (j := i) (by omega)] at hb
      cases hb
    refine ⟨hlt, ?_⟩
    rw [ctzVal_toNat] at hlt ⊢
    exact trailZeros_hit 64 _ hlt

theorem popcVal_toNat (a : Word) : (popcVal a).toNat = ((List.range 64).filter a.getLsbD).length := by
  have hle : popCount a.toNat 64 ≤ 64 := by
    have := List.length_filter_le (fun i => a.toNat / 2 ^ i % 2 == 1) (List.range 64)
    rwa [List.length_range] at this
  rw [popcVal, BitVec.toNat_ofNat, Nat.mod_eq_of_lt (by omega), popCount, setBits]
  refine congrArg List.length (List.filter_congr fun i _ => ?_)
  rw [BitVec.getLsbD, Nat.testBit_eq_decide_div_mod_eq]
  rfl

namespace State

variable {s : State}

/-- A destination that is read too, after the other sources. -/
theorem readable_snoc {d : RegId} {srcs : List RegId} (h : s.readable [d] srcs = true) (he : s.task.err d = false) :
    s.readable [] (srcs ++ [d]) = true := by
  obtain ⟨hd, hs, hf, hst⟩ := readable_iff.1 h
  refine readable_iff.2 ⟨nofun, fun r hr => ?_, by simpa using hf, hst⟩
  obtain hr | hr := List.mem_append.1 hr
  · exact hs r hr
  · rw [List.mem_singleton.1 hr]; exact ⟨hd d List.mem_cons_self, he⟩

/-- Sources that can be read before the others raise nothing. -/
theorem gateTrap_append {now : Nat} {t : Task} {srcs : List (RegId × Bool)} (l : List (RegId × Bool))
    (h : ∀ r ∈ srcs.map (·.1), t.full r = true ∧ t.err r = false) : gateTrap now t (srcs ++ l) = gateTrap now t l := by
  induction srcs with
  | nil => rfl
  | cons e r ih =>
    obtain ⟨he, hr⟩ := List.forall_mem_cons.1 h
    simp [gateTrap, he.1, he.2, ih hr]

end State

section
variable {s : State} {o : AluArgs} (h : s.performs o.f [.s o.d] (.s o.a :: o.b.reads.map (·.1)) = true)
include h

/-- `bins` reads sD after its other sources (11:R186). -/
theorem exec_bins (he : s.task.err (.s o.d) = false) : exec (.bins o) s = .next (s.after
    (s.task.writeS s.cycle o.d (binsVal (s.task.getS o.d) (s.task.getS o.a) (o.b.val s.task false)) 1) o.f.bytes) := by
  obtain ⟨hp, hg, hr⟩ := State.performsG_iff.1 h
  have hr : s.performs o.f [] _ = true := State.performsG_iff.2 ⟨hp, hg, State.readable_snoc hr he⟩
  exact State.plain_next (w := fun t => t.writeS s.cycle o.d (binsVal (t.getS o.d) (t.getS o.a) (o.b.val t false)) 1)
    (srcs := (.s o.a, o.ea) :: o.b.reads ++ [(.s o.d, false)]) (by simpa using hr) (by simp) (by simp)

/-- A marked sD is a source like any other (17:R271). -/
theorem exec_bins_marked (he : s.task.err (.s o.d) = true) : exec (.bins o) s = .next (s.trapSource cDELIVERY_ERROR) := by
  obtain ⟨hp, hg, hr⟩ := State.performsG_iff.1 h
  obtain ⟨-, hs, hf, -⟩ := State.readable_iff.1 hr
  have hnew : s.task.fresh s.cycle (.s o.d) = false := by simp_all
  have hgate : gate s.cycle s.task [] ((.s o.a, o.ea) :: o.b.reads ++ [(.s o.d, false)]) = .raise cDELIVERY_ERROR := by
    rw [gate, State.gateTrap_append _ (by simpa using hs), gateTrap, hnew, he]
    rfl
  show (.next (s.plainG _ _ _ _ _) : Out) = _
  simp only [State.plainG, hp, hg, hgate, Bool.not_true, Bool.false_eq_true, if_false]

end

/-- Settles O2: what is computed is known bit by bit or as an exact number, and the divisor is looked at before the result. -/
theorem bitFieldsAndDivision : Obligations.BitFieldsAndDivision := by
  unfold Obligations.BitFieldsAndDivision
  refine ⟨⟨fun s o h => ?_, fun s o h => ?_⟩, fun s o h => ?_⟩ <;> dsimp only
  · exact ⟨⟨_, State.next_unary h, fun j => clzVal_above _, clzVal_hit _⟩, ⟨_, State.next_unary h, fun j => ctzVal_below _, ctzVal_hit _⟩,
      ⟨_, State.next_unary h, popcVal_toNat _⟩⟩
  · refine ⟨⟨_, State.next_alu h, fun i => sextVal_bit _ _⟩, ⟨_, State.next_alu h, fun i => zextVal_bit _ _⟩, ⟨_, State.next_alu h, fun i => bextVal_bit _ _⟩, ?_⟩
    split
    next he => exact exec_bins_marked h he
    next he => exact ⟨_, exec_bins h (by simpa using he), fun i => binsVal_bit _ _ _⟩
  · refine ⟨State.next_alu h, ⟨_, State.next_alu h, mulhVal_toInt _ _⟩, ⟨_, State.next_alu h, mulhuVal_toNat _ _⟩, ⟨_, State.next_alu h, mulhsuVal_toInt _ _⟩, ?_, ?_⟩
    · split
      next hz => exact ⟨State.next_divide_zero h hz, State.next_divide_zero h hz⟩
      next hz => exact ⟨State.next_divide h hz, _, State.next_divide h hz, remVal_toInt _ _⟩
    · split
      next hz => exact ⟨State.next_divide_zero h hz, State.next_divide_zero h hz⟩
      next hz => exact ⟨State.next_divide h hz, (State.next_divide h hz).trans (by rw [remuVal_eq])⟩

end Sys2Proof.Machine
end

section
/-! PROOFS. Compares and predicates (11:R188, R189), branches (11:R177 to R181), and how registers are read (03:R47 to R51). -/

namespace Sys2Proof.Machine

/-! ### Compares and predicates (11:R188, R189) -/

theorem spread_eq (c : Bool) : spread c = if c then 0xFFFF else 0 := rfl

section
variable {s : State}

theorem State.next_cmp {o : CmpArgs} (c : Cond) (h : s.performs o.f [] (.s o.a :: o.b.reads.map (·.1)) = true) :
    (.next (s.cmp o c) : Out) = .next (s.after
      (s.task.writeP s.cycle o.p (if c.holds (s.task.getS o.a) (o.b.val s.task c.signed) then 0xFFFF else 0) 1) o.f.bytes) :=
  congrArg _ (State.cmp_performs h)

theorem State.next_cmpImm {o : CmpImmArgs} (c : Cond) (h : s.performs o.f [] [.s o.a] = true) :
    (.next (s.cmpImm o c) : Out) = .next (s.after
      (s.task.writeP s.cycle o.p (if c.holds (s.task.getS o.a) (o.imm.val c.signed) then 0xFFFF else 0) 1) o.f.bytes) :=
  congrArg _ (State.cmpImm_performs h)

/-- Predicate logic takes its result where the guard bit is 1 and keeps the old bit elsewhere (11:R189). -/
theorem State.next_pred {f : Form} {d : BitVec 3} {r : Task → PWord} {bit : Nat → Bool} (hp : s.task.fpend = false) (hst : s.task.stepping = false)
    (hr : ∀ i, i < 16 → (r s.task).getLsbD i = bit i) :
    ∃ x : PWord, (.next (s.pred f d r) : Out) = .next (s.after (s.task.writeP s.cycle d x 1) f.bytes)
      ∧ ∀ i, i < 16 → x.getLsbD i = if (s.task.guardBits f.guard).getLsbD i then bit i else (s.task.getP d).getLsbD i := by
  refine ⟨(r s.task &&& s.task.guardBits f.guard) ||| (s.task.getP d &&& ~~~s.task.guardBits f.guard), ?_, fun i hi => ?_⟩
  · simp only [State.pred, hp, Bool.false_eq_true, if_false]
    rw [State.completeWith_after (by simpa using hst) (by simp)]
  · rw [BitVec.getLsbD_or, BitVec.getLsbD_and, BitVec.getLsbD_and, BitVec.getLsbD_not, hr i hi]
    cases (s.task.guardBits f.guard).getLsbD i <;> simp [hi]

end

/-- Settles O3: a compare spreads its one result, and predicate logic merges under the guard. -/
theorem compareAndPredicateResults : Obligations.CompareAndPredicateResults := by
  unfold Obligations.CompareAndPredicateResults
  refine ⟨⟨fun s o h => ?_, fun s o h => ?_⟩, fun s o u hp hst => ?_⟩ <;> dsimp only
  · exact ⟨State.next_cmp .eq h, State.next_cmp .ne h, State.next_cmp .lt h, State.next_cmp .ge h, State.next_cmp .ltu h, State.next_cmp .geu h⟩
  · exact ⟨State.next_cmpImm .eq h, State.next_cmpImm .ne h, State.next_cmpImm .lt h, State.next_cmpImm .ge h, State.next_cmpImm .ltu h,
      State.next_cmpImm .geu h⟩
  · exact ⟨State.next_pred hp hst fun _ _ => BitVec.getLsbD_and, State.next_pred hp hst fun _ _ => BitVec.getLsbD_or,
      State.next_pred hp hst fun _ _ => BitVec.getLsbD_xor,
      State.next_pred hp hst fun i hi => by simp [hi], State.next_pred hp hst fun _ _ => rfl⟩

/-! ### Branches (11:R177 to R181) -/

/-- A target of a direct branch that lies inside the text, and neither at a boundary nor at the instruction that a boundary's `fmt`
prefixes (11:R178, 12:R201). -/
def State.InsideText (s : State) (x : Word) : Prop :=
  ∃ c, s.codeOf? s.task = some c ∧ x.toNat < c.len ∧ ∀ b ∈ c.rmap, b.off ≠ x.toNat ∧ (b.kind = 2 → b.off + 8 ≠ x.toNat)

theorem State.branchOk_iff {s : State} {x : Word} : s.branchOk x = true ↔ ¬s.InsideText x := by
  unfold State.branchOk State.InsideText
  split
  next h => simp [h]
  next c h =>
    rw [Bool.or_eq_true, Bool.or_eq_true, decide_eq_true_eq, Capsule.boundary?, List.find?_isSome, Capsule.prefixed, List.any_eq_true]
    constructor
    · rintro hok ⟨c', hc, hlt, hb⟩
      obtain rfl : c = c' := Option.some.inj (h.symm.trans hc)
      rcases hok with (hle | ⟨b, hm, he⟩) | ⟨b, hm, he⟩
      · omega
      · exact (hb b hm).1 (by simpa using he)
      · simp only [Bool.and_eq_true, beq_iff_eq] at he
        exact (hb b hm).2 he.1 he.2
    · intro hn
      by_contra hno
      simp only [not_or, not_exists, not_and, Bool.and_eq_true, beq_iff_eq, not_le] at hno
      exact hn ⟨c, h, hno.1.1, fun b hm => ⟨hno.1.2 b hm, hno.2 b hm⟩⟩

/-- A direct branch goes to its target, or traps without an effect where the target lies inside the text. -/
theorem State.inText_goes {s k : State} {x : Word} : (¬s.InsideText x → s.inText x k = k)
    ∧ (s.InsideText x → s.inText x k = s.trap { cause := cILLEGAL_TARGET, addr := x }) :=
  ⟨fun h => if_pos (branchOk_iff.2 h), fun h => if_neg fun hok => branchOk_iff.1 hok h⟩

theorem State.direct_goes {s : State} {t : Task} {x : Word} (ht : t.stepping = false) :
    (¬s.InsideText x → (.next (s.direct t x) : Out) = .next (s.branched t x))
      ∧ (s.InsideText x → (.next (s.direct t x) : Out) = .next (s.trap { cause := cILLEGAL_TARGET, addr := x })) :=
  ⟨fun h => congrArg _ ((inText_goes.1 h).trans (branch_branched ht)), fun h => congrArg _ (inText_goes.2 h)⟩

/-- A jump to a register's value. -/
theorem State.jump_eq {s : State} {t : Task} {pc : Word} (ht : t.stepping = false) :
    s.jump t pc = if s.landsAt pc then s.branched t pc else s.trap { cause := cILLEGAL_TARGET, addr := pc } := by
  split
  next h => exact jump_lands h ht
  next h => exact jump_refused (by simpa using h)

/-- The destination of a call is written only where its target is good, so one that awaits a delivery stands last (09:R157). -/
theorem performsG_dst {s : State} {g : Guard} {dsts srcs : List RegId} (h : s.performsG g dsts srcs = true) : s.performsG g [] srcs = true := by
  obtain ⟨hp, hg, hr⟩ := State.performsG_iff.1 h
  exact State.performsG_iff.2 ⟨hp, hg, State.readable_reads hr⟩

/-- `loop` keeps a count of 0, counts down, and branches while the new count is not 0 (11:R181). -/
theorem exec_loop {s : State} {f : Form} {d : Reg} {ea : Bool} {off : BitVec 13} (h : s.performs f [.s d] [.s d] = true) :
    exec (.loop f d ea off) s =
      if s.task.getS d = 0 ∨ s.task.getS d = 1 then .next (s.after (s.task.writeS s.cycle d 0 1) f.bytes)
      else .next (s.direct (s.task.writeS s.cycle d (s.task.getS d - 1) 1) (s.task.pc + off.signExtend 64 * 4)) := by
  have hst := State.performs_stepping h
  show (.next (s.plain f [.s d] [(.s d, ea)] _) : Out) = _
  rw [State.plain_performs (by simpa using h)]
  generalize s.task.getS d = n
  have hlast : n - 1 = 0 ↔ n = 1 := sub_eq_zero
  simp only [hlast]
  by_cases hn : n = 0 ∨ n = 1
  · have hz : (if n = 0 then 0 else n - 1) = 0 := by
      rcases hn with rfl | rfl
      · rfl
      · rfl
    rw [if_pos hn, if_pos hn, hz, State.completeWith_after (by simpa using hst) (by simp)]
  · rw [if_neg hn, if_neg hn, if_neg fun h0 => hn (.inl h0)]

/-- A call looks at its target, then writes its link (11:R179). -/
theorem exec_call {s : State} {off : BitVec 20} {g : Guard} (h : s.performsG g [.s 31] [] = true) :
    exec (.call off g) s = .next (s.direct (s.task.writeS s.cycle 31 (s.task.pc + 4) 1) (s.task.pc + off.signExtend 64 * 4)) := by
  show (.next (s.plainG g 4 [] [] _) : Out) = _
  rw [State.plainG_performs (by simpa using performsG_dst h)]
  dsimp only
  rw [State.toWrite_full (State.performsG_iff.1 h).2.2]
  rfl

theorem exec_callr {s : State} {o : UnArgs} (h : s.performs o.f [.s o.d] [.s o.a] = true) :
    exec (.callr o) s = .next (s.jump (s.task.writeS s.cycle o.d (s.task.pc + BitVec.ofNat 64 o.f.bytes) 1) (s.task.getS o.a)) := by
  show (.next (s.plain o.f [] _ _) : Out) = _
  rw [State.plain_performs (by simpa using State.performs_reads h)]
  dsimp only
  rw [State.toWrite_full (State.performsG_iff.1 h).2.2]
  rfl

/-- Settles O4: a direct target is looked at before the link is written, a register target against the landing points. -/
theorem branchResults : Obligations.BranchResults := by
  unfold Obligations.BranchResults
  refine ⟨fun s => ⟨fun off g h => ?_, fun off g h => ?_, fun hp hst => ?_, fun f d ea off h => ?_⟩, fun s f a ea h => ?_, fun s o h => ?_, fun s f ea h => ?_⟩
  · have hst := State.readable_stepping (State.performsG_iff.1 h).2.2
    show (_ → (.next (s.plainG g 4 [] [] _) : Out) = _) ∧ (_ → (.next (s.plainG g 4 [] [] _) : Out) = _)
    rw [State.plainG_performs (by simpa using h)]
    exact State.direct_goes hst
  · rw [exec_call h]
    exact State.direct_goes (by simpa using State.readable_stepping (State.performsG_iff.1 h).2.2)
  · have hg : s.task.guard0 ⟨0, true⟩ = false := by simp [Task.guard0]
    show (.next (s.plainG ⟨0, true⟩ 4 [] [] _) : Out) = _
    rw [State.plainG, hp, hg, ← State.complete_after hst]
    rfl
  · dsimp only
    rw [exec_loop h]
    split
    next hz => rfl
    next hz => exact State.direct_goes (by simpa using State.performs_stepping h)
  · exact congrArg _ ((State.plain_performs (by simpa using h)).trans (State.jump_eq (State.performs_stepping h)))
  · rw [exec_callr h]
    exact congrArg _ (State.jump_eq (by simpa using State.performs_stepping h))
  · exact congrArg _ ((State.plain_performs (by simpa using h)).trans (State.jump_eq (State.performs_stepping h)))

end Sys2Proof.Machine
end

section
/-! PROOFS. How registers are read (03:R47 to R51), and what guards, prefixes and privilege stop (10:R166, R170, 03:R60, 17:R265). -/

namespace Sys2Proof.Machine

/-! ### Reading registers -/

/-- What a source raises: its error mark first, then its emptiness where its bit is set; one that fills in this cycle raises nothing. -/
theorem State.gateTrap_cons (now : Nat) (t : Task) (r : RegId) (e : Bool) (l : List (RegId × Bool)) :
    gateTrap now t ((r, e) :: l) = if (t.err r && !t.fresh now r) = true then some cDELIVERY_ERROR
      else if (!t.full r && e && !t.fresh now r) = true then some cEMPTY_REG else gateTrap now t l := by
  rw [gateTrap]
  cases t.fresh now r <;> simp

/-- An instruction that is not stopped by a prefix or its guard asks its registers. -/
theorem State.plain_gate {s : State} {f : Form} {dsts : List RegId} {srcs : List (RegId × Bool)} {body : Task → State} (hp : s.task.fpend = false)
    (hg : s.task.guard0 f.guard = true) :
    s.plain f dsts srcs body = match gate s.cycle s.task dsts srcs with
      | .park r => s.parkOn r
      | .raise c => s.trapSource c
      | .again => s
      | .ok => body s.task := by
  have hf : ¬s.task.fpend = true := by simp [hp]
  have hn : ¬(!s.task.guard0 f.guard) = true := by simp [hg]
  exact (if_neg hf).trans (if_neg hn)

section
variable {s : State} {f : Form} {dsts : List RegId} {srcs : List (RegId × Bool)} {body : Task → State} (hp : s.task.fpend = false)
  (hg : s.task.guard0 f.guard = true)
include hp hg

theorem State.plain_raises {c : BitVec 6} (h : gateTrap s.cycle s.task srcs = some c) : s.plain f dsts srcs body = s.trapSource c := by
  rw [plain_gate hp hg, gate, h]

theorem State.plain_parks {r : RegId} (h : gateTrap s.cycle s.task srcs = none)
    (hf : (srcs.map (·.1) ++ dsts).find? (fun r => !s.task.full r) = some r) : s.plain f dsts srcs body = s.parkOn r := by
  rw [plain_gate hp hg, gate, h]
  simp only [hf]

theorem State.plain_again (h : gateTrap s.cycle s.task srcs = none) (hf : ∀ r ∈ srcs.map (·.1) ++ dsts, s.task.full r = true)
    (hn : ∃ r ∈ srcs.map (·.1) ++ dsts, s.task.fresh s.cycle r = true) : s.plain f dsts srcs body = s := by
  have hnone : (srcs.map (·.1) ++ dsts).find? (fun r => !s.task.full r) = none := List.find?_eq_none.2 fun r hr => by simp [hf r hr]
  rw [plain_gate hp hg, gate, h]
  simp only [hnone, List.any_eq_true.2 hn, if_true]

end

/-- Settles O6: the sources are asked in field order, then every register is looked at for emptiness. -/
theorem emptyRegisters : Obligations.EmptyRegisters := by
  unfold Obligations.EmptyRegisters
  intro s o b eb sat uns hb hp hg
  dsimp only
  have hx : exec (.add o sat uns) s = .next (s.plain o.f [.s o.d] [(.s o.a, o.ea), (.s b, eb)] fun t =>
      s.completeWith (t.writeS s.cycle o.d (addVal sat uns (t.getS o.a) (o.b.val t true)) 1) o.f.bytes) := by
    show (.next (s.alu o true 1 (addVal sat uns)) : Out) = _
    rw [State.alu, hb]
    rfl
  rw [hx]
  refine ⟨fun ha => ?_, fun ha he => ?_, fun ha he => ⟨fun hm => ?_, fun hm hr => ?_, fun hm hr => ⟨fun r hf => ?_, fun hf hn => ?_⟩⟩,
    fun r hst => ⟨State.park_task hst, State.park_mem hst⟩⟩
  · exact congrArg _ (State.plain_raises hp hg (by rw [State.gateTrap_cons, if_pos ha]))
  · exact congrArg _ (State.plain_raises hp hg (by simp [State.gateTrap_cons, ha, he]))
  · exact congrArg _ (State.plain_raises hp hg (by simp [State.gateTrap_cons, ha, he, hm]))
  · exact congrArg _ (State.plain_raises hp hg (by simp [State.gateTrap_cons, ha, he, hm, hr]))
  · have ht : gateTrap s.cycle s.task [(.s o.a, o.ea), (.s b, eb)] = none := by simp only [State.gateTrap_cons, ha, he, hm, hr]; rfl
    refine congrArg _ ((State.plain_parks hp hg ht hf).trans ?_)
    have hmem := List.mem_of_find?_eq_some hf
    simp only [List.mem_cons, List.not_mem_nil, or_false] at hmem
    rcases hmem with rfl | rfl | rfl <;> rfl
  · have ht : gateTrap s.cycle s.task [(.s o.a, o.ea), (.s b, eb)] = none := by simp only [State.gateTrap_cons, ha, he, hm, hr]; rfl
    exact congrArg _ (State.plain_again hp hg ht hf hn)

@[simp] theorem Task.getS_late (t : Task) (c n l : Nat) (r : Reg) : (t.late c n l).getS r = t.getS r := rfl
@[simp] theorem Task.getP_late (t : Task) (c n l : Nat) (r : BitVec 3) : (t.late c n l).getP r = t.getP r := rfl

/-- Settles O7: a write to s0 or p0 is none, and a vector of registers changes at its index alone. -/
theorem fixedRegisters : Obligations.FixedRegisters := by
  unfold Obligations.FixedRegisters
  intro t now lat x y
  refine ⟨t.getS_zero, rfl, t.getP_zero, rfl, rfl, rfl, fun r q hq => ?_, fun r q hq => ?_⟩
  · rw [Task.writeS, if_neg hq, Task.getS_late]
    split
    next h => rw [h, Task.getS_putS_self _ hq]
    next h => exact Task.getS_putS_ne _ h x
  · rw [Task.writeP, if_neg hq, Task.getP_late]
    split
    next h => rw [h, Task.getP_putP_self _ hq]
    next h => exact Task.getP_putP_ne _ h y

/-! ### Guards, prefixes and privilege -/

/-- What an instruction with a guard looks at before its registers: the prefix, then bit 0 of its guard (03:R60, 10:R166). -/
def State.guardedBy (s : State) (g : Guard) (n : Nat) (k : State) : State :=
  if s.task.fpend then s.trapC cFORMAT else if !s.task.guard0 g then s.complete n else k

theorem State.guardedBy_prefix {s k : State} {g : Guard} {n : Nat} (h : s.task.fpend = true) : s.guardedBy g n k = s.trapC cFORMAT := if_pos h

theorem State.guardedBy_false {s k : State} {g : Guard} {n : Nat} (hp : s.task.fpend = false) (hst : s.task.stepping = false) (hg : s.task.guard0 g = false) :
    s.guardedBy g n k = s.after s.task n := by
  rw [guardedBy, if_neg (by simp [hp]), if_pos (by simp [hg]), complete_after hst]

/-- An instruction that is stopped by a prefix or its guard looks at nothing else. -/
def State.Stops (s : State) (g : Guard) : Prop := s.task.fpend = true ∨ s.task.guard0 g = false

theorem exec_waddr_stops {s : State} {o : WaddrArgs} (h : s.Stops o.f.guard) : exec (.waddr o) s = .next (s.waitAddr o) := by
  have ha : s.watchAbsent o = none := if_pos (by rcases h with h | h <;> simp [h])
  show execWaddr o s = _
  rw [execWaddr, ha]

theorem exec_guarded {s : State} {i : Instr} {g : Guard} {n : Nat} (h : i.guarded = some (g, n)) (hs : s.Stops g) :
    ∃ k, exec i s = .next (s.guardedBy g n k) := by
  cases i with
  | waddr o => cases h; exact ⟨_, exec_waddr_stops hs⟩
  | _ => cases h <;> exact ⟨_, rfl⟩

/-- A vector or predicate instruction that takes no prefix looks at the prefix first. -/
theorem exec_laned {i : Instr} (h : i.laned = true) (s : State) :
    ∃ k, exec i s = .next (if s.task.fpend then s.trapC cFORMAT else k) := by
  cases i <;> cases h <;> exact ⟨_, rfl⟩

/-- A privileged instruction looks at the level first (10:R170). -/
theorem exec_isPrivileged {i : Instr} (h : i.isPrivileged = true) (s : State) : ∃ k, exec i s = .next (s.privileged k) := by
  cases i <;> cases h <;> exact ⟨_, rfl⟩

theorem State.privileged_above {s k : State} (h : s.task.priv ≠ .task) : s.privileged k = k := if_neg h

/-- A register that the level may read has a value (11:R190, 17:R267). -/
theorem State.msRead_value {s : State} {n : Nat}
    (h : (if n < 0x200 then taskRegOk n else (sysReadLevel n).any fun l => decide (l ≤ s.task.priv.level)) = true) :
    s.msRead s.task n = .value (s.msValue s.task n) := by
  rw [msRead]
  split
  next hn => rw [if_pos hn] at h; exact if_pos h
  next hn =>
    rw [if_neg hn] at h
    cases hl : sysReadLevel n with
    | none => rw [hl] at h; exact nomatch h
    | some l =>
      rw [hl] at h
      exact if_neg (by simpa using h)

/-- What a checked instruction asks before its frame holds, so it runs in it. -/
theorem exec_checked {s : State} {i : Instr} {g : Guard} {n : Nat} (h : i.checked s.task = some (g, n)) :
    ∃ k, exec i s = .next (s.guardedBy g n k) := by
  cases i with
  | rdms f d num =>
    obtain ⟨hok, hgn⟩ := Option.ite_none_right_eq_some.1 h
    cases hgn
    show ∃ k, execRdms f d num s = _
    simp only [execRdms, State.msRead_value hok]
    exact ⟨_, rfl⟩
  | wrms f a ea num =>
    obtain ⟨⟨hp, hok⟩, hgn⟩ := Option.ite_none_right_eq_some.1 h
    cases hgn
    show ∃ k, execWrms f a ea num s = _
    rw [execWrms, State.privileged_above hp, hok]
    exact ⟨_, rfl⟩
  | halt f d a ea op =>
    obtain ⟨⟨hp, hop⟩, hgn⟩ := Option.ite_none_right_eq_some.1 h
    cases hgn
    show ∃ k, execHalt f d a ea op s = _
    rw [execHalt, State.privileged_above hp, if_neg (by omega)]
    exact ⟨_, rfl⟩
  | fwcall o =>
    obtain ⟨hp, hgn⟩ := Option.ite_none_right_eq_some.1 h
    cases hgn
    show ∃ k, execFwcall o s = _
    rw [execFwcall, State.privileged_above (by simp [hp]), if_neg (by simp [hp])]
    exact ⟨_, rfl⟩
  | trapret | termclr | gwrite | ctxsave | ctxsaveTile | ctxrest | ctxrestTile | rebuild =>
    obtain ⟨hp, hgn⟩ := Option.ite_none_right_eq_some.1 h
    cases hgn
    exact ⟨_, congrArg _ (State.privileged_above hp)⟩
  | _ => cases h

/-- Settles O5: the prefix comes first, then the guard, and what is asked before them is the level alone. -/
theorem guardsPrefixesAndPrivilege : Obligations.GuardsPrefixesAndPrivilege := by
  unfold Obligations.GuardsPrefixesAndPrivilege
  refine ⟨fun s i g n h hp hst hg => ?_, ⟨fun s => ⟨fun w hp => ?_, fun hp i hi => ?_⟩, fun s i h hp => ?_⟩, fun s i g n h hst => ?_⟩
  · obtain ⟨k, hk⟩ := exec_guarded h (.inr hg)
    rw [hk, State.guardedBy_false hp hst hg]
  · show (.next (if s.task.fpend then _ else _) : Out) = _
    rw [if_neg (by simp [hp])]
    simp [State.finish]
  · rcases hi with ⟨w, rfl⟩ | rfl | hg | hl
    · exact congrArg _ (if_pos hp)
    · exact congrArg _ (if_pos hp)
    · obtain ⟨⟨g, n⟩, h⟩ := Option.isSome_iff_exists.1 hg
      obtain ⟨k, hk⟩ := exec_guarded h (.inl hp)
      rw [hk, State.guardedBy_prefix hp]
    · obtain ⟨k, hk⟩ := exec_laned hl s
      rw [hk, if_pos hp]
  · obtain ⟨k, hk⟩ := exec_isPrivileged h s
    rw [hk, State.privileged, if_pos hp]
  · obtain ⟨k, hk⟩ := exec_checked h
    exact ⟨fun hp => by rw [hk, State.guardedBy_prefix hp], fun hp hg => by rw [hk, State.guardedBy_false hp hst hg]⟩

end Sys2Proof.Machine
end

section
/-! PROOFS. Status registers, segments and system instructions (11:R190 to R193, 17:R267 to R273, 18:R278 to R293). -/

namespace Sys2Proof.Machine

/-! ### Status registers (11:R190, R191) -/

theorem toNat_num {n : Nat} (h : n < 0x2000) : (BitVec.ofNat 13 n).toNat = n := by
  rw [BitVec.toNat_ofNat, Nat.mod_eq_of_lt h]

section
variable {s : State} {f : Form}

/-- A read of a register that has a value writes it with latency 1; a read of `ms.aerr` clears it (11:R190, 17:R267). -/
theorem exec_rdms_value {d : Reg} {n : Nat} {x : Word} (h : s.performs f [.s d] [] = true) (hn : n < 0x2000) (hc : n ≠ 0x204) (hc' : n ≠ 0x304)
    (hv : s.msRead s.task n = .value x) (hx : s.msValue s.task n = x) :
    exec (.rdms f d (BitVec.ofNat 13 n)) s = .next (s.after (s.task.writeS s.cycle d x 1) f.bytes) := by
  simp only [exec_rdms, execRdms, toNat_num hn, hv, if_neg hc, if_neg hc']
  exact (State.plain_next (srcs := []) (w := fun t => t.writeS s.cycle d (s.msValue t n) 1) h (by simp) (by simp)).trans (by rw [hx])

theorem exec_rdms_raise {d : Reg} {n : Nat} {c : BitVec 6} (hn : n < 0x2000) (hv : s.msRead s.task n = .raise c) :
    exec (.rdms f d (BitVec.ofNat 13 n)) s = .next (s.trapC c) := by
  simp only [exec_rdms, execRdms, toNat_num hn, hv]

theorem msValue_aerr (t : Task) : s.msValue t 0x204 = t.tr.aerr := rfl

theorem exec_rdms_aerr {d : Reg} (h : s.performs f [.s d] [] = true) (hp : s.task.priv = .supervisor) :
    exec (.rdms f d 0x204) s = .next (s.after (({ s.task with tr := { s.task.tr with aerr := 0 } } : Task).writeS s.cycle d s.task.tr.aerr 1) f.bytes) := by
  have hv : s.msRead s.task 0x204 = .value s.task.tr.aerr := by
    rw [State.msRead, hp]; rfl
  simp only [exec_rdms, execRdms, show (0x204 : BitVec 13).toNat = 0x204 from rfl, hv, msValue_aerr, if_true]
  exact State.plain_next (srcs := []) (w := fun t => ({ t with tr := { t.tr with aerr := 0 } } : Task).writeS s.cycle d t.tr.aerr 1) h (by simp) (by simp)

/-- A write above task privilege of a number that names a register (11:R191). -/
theorem exec_wrms_assigned {a : Reg} {ea : Bool} {n : Nat} (h : s.performs f [] [.s a] = true) (hp : s.task.priv = .supervisor) (hn : n < 0x2000)
    (ha : State.msAssigned n = true) :
    exec (.wrms f a ea (BitVec.ofNat 13 n)) s = .next ((s.msWrite s.task n (s.task.getS a)).complete f.bytes) := by
  show execWrms f a ea (BitVec.ofNat 13 n) s = _
  rw [execWrms, State.privileged_above (by simp [hp]), toNat_num hn, ha, Bool.not_true, if_neg Bool.false_ne_true, State.plain_performs (by simpa using h)]

theorem exec_wrms_ignored {a : Reg} {ea : Bool} {n : Nat} (h : s.performs f [] [.s a] = true) (hp : s.task.priv = .supervisor) (hn : n < 0x2000)
    (ha : State.msAssigned n = true) (hw : s.msWrite s.task n (s.task.getS a) = s) :
    exec (.wrms f a ea (BitVec.ofNat 13 n)) s = .next (s.after s.task f.bytes) := by
  rw [exec_wrms_assigned h hp hn ha, hw, State.complete_after (State.performs_stepping h)]

theorem exec_wrms_writes {a : Reg} {ea : Bool} {n : Nat} {t : Task} (h : s.performs f [] [.s a] = true) (hp : s.task.priv = .supervisor) (hn : n < 0x2000)
    (ha : State.msAssigned n = true) (hw : s.msWrite s.task n (s.task.getS a) = s.setTask t) (hst : t.stepping = s.task.stepping) (hpc : t.pc = s.task.pc) :
    exec (.wrms f a ea (BitVec.ofNat 13 n)) s = .next (s.after t f.bytes) := by
  rw [exec_wrms_assigned h hp hn ha, hw, State.complete_after (by simp [hst, State.performs_stepping h])]
  simp [State.after, hpc]

theorem exec_wrms_unassigned {a : Reg} {ea : Bool} {n : Nat} (hp : s.task.priv = .supervisor) (hn : n < 0x2000) (ha : State.msAssigned n = false) :
    exec (.wrms f a ea (BitVec.ofNat 13 n)) s = .next (s.trapC cRESERVED_FIELD) := by
  show execWrms f a ea (BitVec.ofNat 13 n) s = _
  rw [execWrms, State.privileged_above (by simp [hp]), toNat_num hn, ha]
  rfl

end

/-- A table of numbers and values read: each number names a register that the level may read. -/
def State.ReadsAs (s : State) (l : List (Nat × Word)) : Prop :=
  ∀ e ∈ l, e.1 < 0x2000 ∧ e.1 ≠ 0x204 ∧ e.1 ≠ 0x304 ∧ s.msRead s.task e.1 = .value e.2 ∧ s.msValue s.task e.1 = e.2

/-- A table of numbers that raise one cause. -/
def State.ReadsRaise (s : State) (c : BitVec 6) (l : List Nat) : Prop := ∀ n ∈ l, n < 0x2000 ∧ s.msRead s.task n = .raise c

theorem readsAs_task (s : State) : s.ReadsAs [(1, s.task.gtid), (2, BitVec.ofNat 64 (s.task.tile.getD 0x3FF)), (3, BitVec.ofNat 64 s.task.grank),
    (4, BitVec.ofNat 64 s.task.gsize), (8, (128 : Word)), (0x20, 16), (0x22, 4), (0x28, 4), (0x2A, 8)] := by
  simp only [State.ReadsAs, List.forall_mem_cons]
  refine ⟨?_, ?_, ?_, ?_, ?_, ?_, ?_, ?_, ?_, nofun⟩ <;> exact ⟨by decide, by decide, by decide, rfl, rfl⟩

theorem readsAs_trap {s : State} (hp : s.task.priv = .supervisor) : s.ReadsAs [(0x200, s.task.tr.cause), (0x201, s.task.tr.pc), (0x202, s.task.tr.addr),
    (0x203, s.task.tr.status), (0x208, s.task.tr.vec), (0x209, s.task.tr.vseg.setWidth 64), (0x20A, (s.task.tr.vseg >>> 64).setWidth 64)] := by
  simp only [State.ReadsAs, List.forall_mem_cons, State.msRead, hp]
  refine ⟨?_, ?_, ?_, ?_, ?_, ?_, ?_, nofun⟩ <;> exact ⟨by decide, by decide, by decide, rfl, rfl⟩

theorem readsRaise_unassigned (s : State) : s.ReadsRaise cRESERVED_FIELD [5, 9, 0x38, 0x180, 0x205, 0x212, 0x312, 0x1FFF] := by
  simp only [State.ReadsRaise, List.forall_mem_cons]
  refine ⟨?_, ?_, ?_, ?_, ?_, ?_, ?_, ?_, nofun⟩ <;> exact ⟨by decide, rfl⟩

theorem readsRaise_privilege_task {s : State} (hp : s.task.priv = .task) : s.ReadsRaise cPRIVILEGE [0x200, 0x204, 0x20B, 0x300, 0x311] := by
  simp only [State.ReadsRaise, List.forall_mem_cons, State.msRead, hp]
  refine ⟨?_, ?_, ?_, ?_, ?_, nofun⟩ <;> exact ⟨by decide, rfl⟩

theorem readsRaise_privilege_supervisor {s : State} (hp : s.task.priv = .supervisor) : s.ReadsRaise cPRIVILEGE [0x300, 0x308, 0x311] := by
  simp only [State.ReadsRaise, List.forall_mem_cons, State.msRead, hp]
  refine ⟨?_, ?_, ?_, nofun⟩ <;> exact ⟨by decide, rfl⟩

theorem tstatusMask_bit (i : Nat) : tstatusMask.getLsbD i = decide (i < 48 ∧ i ≠ 3 ∧ i ≠ 6 ∧ i ≠ 10 ∧ i ≠ 11 ∧ i ≠ 16 ∧ i ≠ 17 ∧ i ≠ 18) := by
  by_cases hi : i < 64
  · revert i; decide
  · rw [BitVec.getLsbD_of_ge _ _ (by omega), eq_comm, decide_eq_false_iff_not]; omega

theorem tcauseMask_bit (i : Nat) :
    tcauseMask.getLsbD i = (decide (i = 63) || decide (32 ≤ i ∧ i < 40) || decide (8 ≤ i ∧ i < 12) || decide (i < 6)) := by
  by_cases hi : i < 64
  · revert i; decide
  · rw [BitVec.getLsbD_of_ge _ _ (by omega)]
    simp only [Bool.false_eq, Bool.or_eq_false_iff, decide_eq_false_iff_not]; omega

/-- A supervisor's write of a register it may not write changes nothing (11:R191). -/
theorem msWrite_ignored {s : State} (hp : s.task.priv = .supervisor) (x : Word) :
    ∀ n ∈ [1, 0x20, 0x100, 0x204, 0x209, 0x20A, 0x210, 0x300, 0x308, 0x311], n < 0x2000 ∧ State.msAssigned n = true ∧ s.msWrite s.task n x = s := by
  have hf : s.task.priv ≠ .firmware := by simp [hp]
  simp only [List.forall_mem_cons]
  refine ⟨?_, ?_, ?_, ?_, ?_, ?_, ?_, ?_, ?_, ?_, nofun⟩ <;> exact ⟨by decide, by decide, by simp [State.msWrite, hf]⟩

section
variable {s : State} {f : Form} {a : Reg} {ea : Bool} (h : s.performs f [] [.s a] = true) (hp : s.task.priv = .supervisor)
include h hp

theorem exec_wrms_tstatus : exec (.wrms f a ea 0x203) s
    = .next (s.after { s.task with tr := { s.task.tr with status := s.task.getS a &&& tstatusMask } } f.bytes) :=
  exec_wrms_writes (n := 0x203) h hp (by decide) (by decide) rfl rfl rfl

theorem exec_wrms_tcause : exec (.wrms f a ea 0x200) s
    = .next (s.after { s.task with tr := { s.task.tr with cause := s.task.getS a &&& tcauseMask } } f.bytes) :=
  exec_wrms_writes (n := 0x200) h hp (by decide) (by decide) rfl rfl rfl

end

/-- Settles O8: a table of what each number reads, and of what a write of it changes. -/
theorem statusRegisters : Obligations.StatusRegisters := by
  unfold Obligations.StatusRegisters
  refine ⟨fun s f d h => ?_, fun s f a ea h hp => ?_⟩ <;> dsimp only
  · refine ⟨fun e he => ?_, fun n hn => ?_, fun hp n hn => ?_, fun hp => ⟨fun e he => ?_, exec_rdms_aerr h hp, fun n hn => ?_⟩⟩
    · obtain ⟨hn, hc, hc', hv, hx⟩ := readsAs_task s e he
      exact exec_rdms_value h hn hc hc' hv hx
    · obtain ⟨hn, hv⟩ := readsRaise_unassigned s n hn
      exact exec_rdms_raise hn hv
    · obtain ⟨hn, hv⟩ := readsRaise_privilege_task hp n hn
      exact exec_rdms_raise hn hv
    · obtain ⟨hn, hc, hc', hv, hx⟩ := readsAs_trap hp e he
      exact exec_rdms_value h hn hc hc' hv hx
    · obtain ⟨hn, hv⟩ := readsRaise_privilege_supervisor hp n hn
      exact exec_rdms_raise hn hv
  · refine ⟨?_, ⟨_, exec_wrms_tstatus h hp, fun i => ?_⟩,
      ⟨_, exec_wrms_tcause h hp, fun i => ?_⟩, fun n hn => ?_, ?_⟩
    · simp only [List.forall_mem_cons]
      refine ⟨?_, ?_, ?_, List.forall_mem_nil _⟩ <;> exact exec_wrms_writes h hp (by decide) (by decide) rfl rfl rfl
    · rw [BitVec.getLsbD_and, tstatusMask_bit]
    · rw [BitVec.getLsbD_and, tcauseMask_bit]
    · obtain ⟨hlt, ha, hw⟩ := msWrite_ignored hp (s.task.getS a) n hn
      exact exec_wrms_ignored h hp hlt ha hw
    · simp only [List.forall_mem_cons]
      refine ⟨?_, ?_, ?_, ?_, ?_, List.forall_mem_nil _⟩ <;> exact exec_wrms_unassigned hp (by decide) (by decide)

end Sys2Proof.Machine
end

section
/-! PROOFS. System instructions: traps taken at task privilege, software traps, records and returns (17:R268 to R273, 18:R278 to R293). -/

namespace Sys2Proof.Machine

/-! ### Taking a trap (17:R273) -/

theorem State.modPart_eq (s : State) (k : Nat) (f : Partition → Partition) : ∃ p, s.modPart k f = { s with parts := p } := by
  unfold modPart
  split
  · exact ⟨_, rfl⟩
  · exact ⟨_, rfl⟩

/-- A task that waits no more changes waiters alone: those of semaphores and of pools. -/
theorem State.unwait_eq (s : State) (part : Nat) (g : Word) : ∃ v p, s.unwait part g = { s with vtiles := v, parts := p } := by
  unfold unwait
  obtain ⟨p, hp⟩ := State.modPart_eq _ part _
  exact ⟨_, p, hp⟩

/-- A handled trap leaves the task that has entered the handler, and writes recorders and waiters beside it. -/
theorem State.takeAt_handled_eq {s : State} {e : Exc} {pc : Word} (h : s.handled = true) (h1 : isTrustCause e.cause = false)
    (h2 : isDebugCause e.cause = false ∨ e.cause = cBKPT ∧ (s.partOf? s.task.part).bind (·.dbg.session) = none) :
    ∃ c v p, s.takeAt e pc = ({ s with cores := c, vtiles := v, parts := p } : State).setTask (s.entered e pc) := by
  obtain ⟨c, hc⟩ := takeAt_handled h h1 h2
  obtain ⟨v, p, hu⟩ := ({ s with cores := c } : State).unwait_eq s.task.part s.task.gtid
  exact ⟨c, v, p, hc.trans (by rw [hu])⟩

/-- Settles O10: the entry is the one of a handled trap, and what goes with it changes recorders and waiters alone. -/
theorem supervisorEntry : Obligations.SupervisorEntry := by
  unfold Obligations.SupervisorEntry
  intro s e h h1 h2
  obtain ⟨c, v, p, hu⟩ := State.takeAt_handled_eq (pc := s.task.pc) h h1 (.inl h2)
  dsimp only
  rw [State.trap, hu]
  exact ⟨State.task_setTask .., rfl, rfl, rfl, fun k hk => State.taskAt_putTask_ne _ hk _⟩

/-! ### Software traps and records (18:R278, R290, R291, R293) -/

/-- The cause word of an exception that logs no segment (17:R268). -/
theorem word_of_detail (c : BitVec 6) {d : Nat} (h : d < 256) (a : Word) (k : Nat) :
    ({ cause := c, detail := d, addr := a, sub := k } : Exc).word = BitVec.ofNat 64 (c.toNat + d * 2 ^ 32) := by
  have := c.isLt
  have hf : packFields [(6, c.toNat), (2, 0), (1, 0), (3, 0), (20, 0), (8, d), (23, 0), (1, 0)] = c.toNat + d * 2 ^ 32 := by
    simp only [packFields]
    omega
  rw [← hf]
  rfl

theorem exec_trap {s : State} {f : Form} (n : BitVec 8) (h : s.performs f [] [] = true) :
    exec (.trap f n) s = .next (s.takeAt { cause := cSYSCALL, detail := n.toNat } (s.task.pc + BitVec.ofNat 64 f.bytes)) :=
  congrArg Host.Outcome.next (State.plain_performs (srcs := []) h)

theorem exec_bkpt {s : State} {f : Form} (n : BitVec 5) (h : s.performs f [] [] = true) :
    exec (.bkpt f n) s = .next (s.takeAt { cause := cBKPT, detail := n.toNat } s.task.pc) :=
  congrArg Host.Outcome.next (State.plain_performs (srcs := []) h)

/-- Completion after an operation that leaves the task as it was. -/
theorem State.complete_of_task {s : State} (u : State) {len : Nat} (h : s.task.stepping = false) (hu : u.task = s.task) : u.complete len = u.after s.task len := by
  rw [complete_after (hu ▸ h), hu]

theorem counts_modCounts_self (s : State) (p c : Nat) (f : Counters → Counters) : (s.modCounts p c f).counts p c = f (s.counts p c) := by
  simp [State.counts, State.modCounts, mapMod]

/-- Settles O11: both traps are handled ones, `trap` with the next instruction as return point. -/
theorem softwareTrapsAndRecords : Obligations.SoftwareTrapsAndRecords := by
  unfold Obligations.SoftwareTrapsAndRecords
  refine ⟨fun s f h hh => ⟨fun n => ?_, fun hd n => ?_⟩, fun s f => ⟨fun a ea tag h => ?_, fun h hp => ?_⟩⟩
  · obtain ⟨c, v, p, hu⟩ := State.takeAt_handled_eq (e := { cause := cSYSCALL, detail := n.toNat }) (pc := s.task.pc + BitVec.ofNat 64 f.bytes) hh (show isTrustCause cSYSCALL = false by decide)
      (.inl (show isDebugCause cSYSCALL = false by decide))
    refine ⟨_, (exec_trap n h).trans (congrArg _ hu), ?_⟩
    rw [State.task_setTask]
    exact ⟨rfl, rfl, if_neg (by simp [(State.performsG_iff.1 h).1]), word_of_detail cSYSCALL n.isLt 0 0, rfl, rfl, rfl, rfl, rfl, rfl⟩
  · have hn : n.toNat < 256 := n.isLt.trans (by decide)
    obtain ⟨c, v, p, hu⟩ := State.takeAt_handled_eq (e := { cause := cBKPT, detail := n.toNat }) (pc := s.task.pc) hh (show isTrustCause cBKPT = false by decide) (.inr ⟨rfl, hd⟩)
    refine ⟨_, (exec_bkpt n h).trans (congrArg _ hu), ?_⟩
    rw [State.task_setTask]
    exact ⟨rfl, rfl, if_neg (by simp [(State.performsG_iff.1 h).1]), word_of_detail cBKPT hn 0 0, rfl, rfl⟩
  · have hpay : packFields [(32, (s.task.getS a).toNat), (3, 0), (5, tag.toNat)] = (s.task.getS a).toNat % 2 ^ 32 + tag.toNat * 2 ^ 35 := by
      have := tag.isLt
      simp only [packFields]
      omega
    refine congrArg _ ((State.plain_performs (by simpa using h)).trans ?_)
    rw [hpay, State.complete_of_task (s.record _ _ _ _ _) (State.performs_stepping h) rfl]
  · refine ⟨s.modCounts s.task.part (computeOf (coreOf s.cur)) fun c => c.clearTerms s.cycle, congrArg _ ((State.privileged_above (by simp [hp])).trans ((State.plain_performs h).trans (State.complete_of_task (s.modCounts _ _ _) (State.performs_stepping h) rfl))), ?_, rfl⟩
    dsimp only
    rw [counts_modCounts_self, Counters.clearTerms]
    split
    next hc => rfl
    next hc =>
      intro i
      simp only [Counters.term]
      split <;> simp [mapGet]

/-! ### Returns and firmware calls (18:R279, R281) -/

/-- A return goes to its point where the resume map has it, a prefix pending at a kind-2 entry only, and traps elsewhere (17:R273). -/
theorem State.returnTo_eq {s : State} {c : Option Capsule} {tr : TrapRegs} {u : Task} (hst : u.stepping = false) :
    s.returnTo c tr u = match c.bind fun c => c.rmap.find? fun b => b.off == tr.pc.toNat with
      | none => s.trap { cause := cILLEGAL_TARGET, addr := tr.pc }
      | some b =>
        if tr.status.getLsbD 0 = true ∧ b.kind ≠ 2 then s.trap { cause := cILLEGAL_TARGET, addr := tr.pc }
        else s.setTask { u with
          fpend := tr.status.getLsbD 0, fmtword := if tr.status.getLsbD 0 then (tr.status >>> 16).setWidth 32 else 0, fmtPc := tr.pc, skipBreak := false
          holdUntil := s.cycle + 3, pc := if tr.status.getLsbD 0 then tr.pc + 8 else tr.pc } := by
  have hw : tr.status.extractLsb' 16 32 = (tr.status >>> 16).setWidth 32 := rfl
  unfold returnTo Capsule.boundary?
  cases c.bind fun c => c.rmap.find? fun b => b.off == tr.pc.toNat with
  | none => rfl
  | some b =>
    have hk : (!tr.status.getLsbD 0 || b.kind == 2) = true ↔ ¬(tr.status.getLsbD 0 = true ∧ b.kind ≠ 2) := by
      cases tr.status.getLsbD 0 <;> simp
    simp only [Option.any_some, hst, Bool.false_eq_true, if_false, hk, hw]
    exact ite_not _ _ _

/-- The statement of a return, one case of its checks at a time. -/
theorem exec_returns {o : Out} {s : State} {c : Option Capsule} {tr : TrapRegs} {u : Task} (hst : u.stepping = false) (ho : o = .next (s.returnTo c tr u)) :
    match c.bind fun c => c.rmap.find? fun b => b.off == tr.pc.toNat with
    | none => o = .next (s.trap { cause := cILLEGAL_TARGET, addr := tr.pc })
    | some b =>
      if tr.status.getLsbD 0 = true ∧ b.kind ≠ 2 then o = .next (s.trap { cause := cILLEGAL_TARGET, addr := tr.pc })
      else o = .next (s.setTask { u with
        fpend := tr.status.getLsbD 0, fmtword := if tr.status.getLsbD 0 then (tr.status >>> 16).setWidth 32 else 0, fmtPc := tr.pc, skipBreak := false
        holdUntil := s.cycle + 3, pc := if tr.status.getLsbD 0 then tr.pc + 8 else tr.pc }) := by
  rw [State.returnTo_eq hst] at ho
  revert ho
  cases c.bind fun c => c.rmap.find? fun b => b.off == tr.pc.toNat with
  | none => exact id
  | some b =>
    intro ho
    dsimp only at ho ⊢
    split
    next hb => rw [ho, if_pos hb]
    next hb => rw [ho, if_neg hb]

theorem exec_trapret {s : State} {f : Form} (h : s.performs f [] [] = true) (hp : s.task.priv ≠ .task) :
    exec (.trapret f) s = .next (if s.task.priv = .firmware then s.fwReturn else s.trapReturn) :=
  congrArg Host.Outcome.next ((State.privileged_above hp).trans (State.plain_performs (srcs := []) h))

/-- Settles O13: both returns check the return point alike. -/
theorem trapReturn : Obligations.TrapReturn := by
  unfold Obligations.TrapReturn
  refine ⟨fun s f h hp => ?_, fun s f n arg r d h hp hc => ?_, fun s o h hp => ?_⟩
  · have hx : exec (.trapret f) s = .next s.trapReturn := (exec_trapret h (by simp [hp])).trans (congrArg _ (if_neg (by simp [hp])))
    rw [State.trapReturn] at hx
    exact exec_returns (by simpa [Task.putG] using State.performs_stepping h) hx
  · have hst : (({ s.task with priv := .supervisor, fwCall := none } : Task).writeS s.cycle d r 1).stepping = false := by
      simpa using State.performs_stepping h
    have hx := exec_returns hst ((exec_trapret h (by simp [hp])).trans (by rw [if_pos hp, State.fwReturn, hc]))
    rw [State.setTask_setTask] at hx
    exact hx
  · refine ⟨if 256 ≤ (s.task.getS o.a).toNat then some 2 else if knownService (s.task.getS o.a).toNat then none else some 1, ?_, ?_, ?_, ?_⟩
    · show execFwcall o s = _
      rw [execFwcall, State.privileged_above (by simp [hp]), if_neg (by simp [hp]), State.plain_performs (by simpa using h)]
      exact congrArg _ (State.branch_branched (State.performs_stepping h))
    · exact fun hn => if_pos hn
    · exact fun hn hk => by rw [if_neg (by omega), hk]; rfl
    · exact fun hn hk => by rw [if_neg (by omega), hk]; rfl

end Sys2Proof.Machine
end

section
/-! PROOFS. Segments: `grd`, `gnarrow` and `gwrite` (11:R192, R193, 18:R280). -/

namespace Sys2Proof.Machine

/-! ### Narrowing -/

/-- The bits of a narrowed segment that the mask leaves: space, rights, target and reserved bits (11:R192). -/
def keptBits (old : VWord) (drop : BitVec 4) : Nat := field old.toNat 104 24 &&& (2 ^ 24 - 1 - field drop.toNat 0 4 * 2 ^ 16)

/-- A segment of these parts. -/
def segWord (base limit keep : Nat) : VWord := BitVec.ofNat 128 (limit + base % 2 ^ 52 * 2 ^ 52 + keep * 2 ^ 104)

/-- The limit after a move by `b`, which a length may lower (11:R192). -/
def narrowedLimit (limit b : Nat) : Option Nat → Nat
  | none => limit - b
  | some c => min (limit - b) c

theorem narrow_eq (old : VWord) (b : Nat) (c : Option Nat) (drop : BitVec 4) :
    narrow old b c drop = if (segOf old).space = 0 then some (segWord (segOf old).base (segOf old).limit (keptBits old drop))
      else if (segOf old).limit < b then none
      else some (segWord ((segOf old).base + b) (narrowedLimit (segOf old).limit b c) (keptBits old drop)) := by
  cases c <;> rfl

theorem field_lt (n lo w : Nat) : field n lo w < 2 ^ w := Nat.mod_lt _ (Nat.two_pow_pos w)

/-- The mask drops the rights of its bits, and nothing else. -/
theorem testBit_keptBits (old : VWord) (drop : BitVec 4) {i : Nat} (hi : i < 24) :
    (keptBits old drop).testBit i = (old.getLsbD (104 + i) && !(decide (16 ≤ i) && drop.getLsbD (i - 16))) := by
  have hd : field drop.toNat 0 4 = drop.toNat := by
    rw [field, pow_zero, Nat.div_one, Nat.mod_eq_of_lt drop.isLt]
  have hlt : drop.toNat * 2 ^ 16 < 2 ^ 24 := by have := drop.isLt; omega
  rw [keptBits, Nat.testBit_and, testBit_field, hd, show 2 ^ 24 - 1 - drop.toNat * 2 ^ 16 = 2 ^ 24 - (drop.toNat * 2 ^ 16 + 1) by omega,
    Nat.testBit_two_pow_sub_succ hlt, Nat.testBit_mul_two_pow, decide_eq_true hi, Nat.add_comm i]
  rfl

theorem keptBits_lt (old : VWord) (drop : BitVec 4) : keptBits old drop < 2 ^ 24 :=
  Nat.lt_of_le_of_lt Nat.and_le_left (field_lt ..)

section
variable {base limit keep : Nat} (hl : limit < 2 ^ 52) (hk : keep < 2 ^ 24)
include hl hk

theorem segWord_toNat : (segWord base limit keep).toNat = limit + base % 2 ^ 52 * 2 ^ 52 + keep * 2 ^ 104 := by
  rw [segWord, BitVec.toNat_ofNat, Nat.mod_eq_of_lt]
  omega

theorem segWord_limit : (segOf (segWord base limit keep)).limit = limit := by
  simp only [segOf, field, segWord_toNat hl hk]
  omega

theorem segWord_base : (segOf (segWord base limit keep)).base = base % 2 ^ 52 := by
  simp only [segOf, field, segWord_toNat hl hk]
  omega

theorem segWord_high (i : Nat) : (segWord base limit keep).toNat.testBit (104 + i) = keep.testBit i := by
  rw [segWord_toNat hl hk, Nat.add_comm, Nat.mul_comm keep, Nat.testBit_two_pow_mul_add _ (by omega), if_neg (by omega), Nat.add_sub_cancel_left]

end

/-- Bits above the reserved ones, kept by the mask: a field of them keeps its value. -/
theorem field_narrowed {old : VWord} {drop : BitVec 4} {base limit lo w : Nat} (hl : limit < 2 ^ 52) (hlo : 104 ≤ lo) (hw : lo + w ≤ 128)
    (hm : ∀ i, lo ≤ i → i < lo + w → i < 120 ∨ 124 ≤ i) :
    field (segWord base limit (keptBits old drop)).toNat lo w = field old.toNat lo w := by
  refine Nat.eq_of_testBit_eq fun i => ?_
  rw [testBit_field, testBit_field]
  by_cases hi : i < w
  · obtain ⟨j, hj⟩ : ∃ j, i + lo = 104 + j := ⟨i + lo - 104, by omega⟩
    have hj24 : j < 24 := by omega
    rw [hj, segWord_high hl (keptBits_lt ..), testBit_keptBits _ _ hj24]
    have hd : (decide (16 ≤ j) && drop.getLsbD (j - 16)) = false := by
      rcases hm (i + lo) (by omega) (by omega) with h | h
      · rw [decide_eq_false (by omega), Bool.false_and]
      · rw [BitVec.getLsbD_of_ge _ _ (by omega), Bool.and_false]
    rw [hd, Bool.not_false, Bool.and_true]
    rfl
  · rw [decide_eq_false hi, Bool.false_and, Bool.false_and]

/-- What a narrowed segment reads as. -/
theorem segOf_narrowed {old : VWord} {drop : BitVec 4} {base limit : Nat} (hl : limit < 2 ^ 52) :
    segOf (segWord base limit (keptBits old drop)) = { segOf old with
      rd := (segOf old).rd && !drop.getLsbD 3, wr := (segOf old).wr && !drop.getLsbD 2, at_ := (segOf old).at_ && !drop.getLsbD 1
      en := (segOf old).en && !drop.getLsbD 0, base := base % 2 ^ 52, limit := limit } := by
  have hk := keptBits_lt old drop
  have hright (i : Nat) (h1 : i < 4) : (segWord base limit (keptBits old drop)).getLsbD (120 + i) = (old.getLsbD (120 + i) && !drop.getLsbD i) := by
    rw [BitVec.getLsbD, show 120 + i = 104 + (16 + i) by omega, segWord_high hl hk, testBit_keptBits _ _ (by omega), decide_eq_true (by omega),
      Bool.true_and, Nat.add_sub_cancel_left]
  have hb := segWord_base (base := base) hl hk
  have hlim := segWord_limit (base := base) hl hk
  simp only [segOf] at hb hlim ⊢
  rw [hb, hlim, field_narrowed hl (by omega) (by omega) (by omega), field_narrowed hl (by omega) (by omega) (by omega), hright 0 (by omega),
    hright 1 (by omega), hright 2 (by omega), hright 3 (by omega)]

/-! ### Reading and writing whole segments -/

theorem exec_gnarrow {s : State} {f : Form} {d a : BitVec 3} {b : Reg} {eb : Bool} {c : Reg} {ec : Bool} {drop : BitVec 4}
    (h : s.performs f [] (.s b :: if c = 0 then [] else [.s c]) = true) :
    exec (.gnarrow f d a b eb c ec drop) s = .next (
      match narrow (s.task.getG a) (s.task.getS b).toNat (if c = 0 then none else some (s.task.getS c).toNat) drop with
      | none => s.trap { cause := cSEGMENT_BOUND, seg := some a, addr := s.task.getS b }
      | some g => s.completeWith (s.task.putG d g) f.bytes) := by
  show (.next (s.plain f [] ((.s b, eb) :: _) _) : Out) = _
  have hsrc : (if c = 0 then ([] : List (RegId × Bool)) else [(.s c, ec)]).map (·.1) = if c = 0 then [] else [.s c] := by split <;> rfl
  exact congrArg _ (State.plain_performs (by rw [List.map_cons, hsrc]; exact h))

theorem segOf_limit_lt (g : VWord) : (segOf g).limit < 2 ^ 52 := field_lt ..

theorem segOf_base_lt (g : VWord) : (segOf g).base < 2 ^ 52 := field_lt ..

theorem narrowedLimit_lt {limit n : Nat} (h : limit < n) (b : Nat) (c : Option Nat) : narrowedLimit limit b c < n := by
  cases c with
  | none => exact Nat.lt_of_le_of_lt (Nat.sub_le ..) h
  | some c => exact Nat.lt_of_le_of_lt (Nat.min_le_left ..) (Nat.lt_of_le_of_lt (Nat.sub_le ..) h)

/-- The checks of 18:R280 on a whole segment. -/
theorem segWriteBad_eq (tiles : Nat) (g : VWord) :
    segWriteBad tiles g = if 7 ≤ (segOf g).space ∨ g.toNat / 2 ^ 104 % 64 ≠ 0 ∨ (((segOf g).space = 3 ∨ (segOf g).space = 6) ∧ tiles ≤ (segOf g).target)
        ∨ (¬((segOf g).space = 3 ∨ (segOf g).space = 6) ∧ (segOf g).target ≠ 0) then some (cSEGMENT_INVALID, 0)
      else if (segOf g).space ≠ 0 ∧ spaceBound (segOf g).space < (segOf g).base + (segOf g).limit then some (cSEGMENT_BOUND, BitVec.ofNat 64 (segOf g).limit)
      else none := by
  have hr : field g.toNat 104 6 = g.toNat / 2 ^ 104 % 64 := rfl
  unfold segWriteBad
  rw [hr]
  dsimp only
  split_ifs <;> first | rfl | tauto

theorem keep_ok {bad : Bool} {i j : Instr} (h : keep bad i = .ok j) : bad = false ∧ j = i := by
  unfold keep at h
  split at h
  · cases h
  next hb => cases h; exact ⟨by simpa using hb, rfl⟩

theorem decodeShape_of_decodeRaw {r : Raw} {i : Instr} (h : decodeRaw r = .ok i) : decodeShape r = .ok i := by
  unfold decodeRaw at h
  split at h
  · cases h
  next j hj =>
    split at h
    · cases h
    · cases h; exact hj

/-- The decoder on `grd` (11:R192). -/
theorem decodeShape_grd {r : Raw} (h : r.major = 0x13) (hl : r.len ≠ .l96) (hm : (RFields.read r.body).minor = 1) :
    decodeShape r = keep ((Ext.read r.hi).unusedBad {} || idx3Bad (RFields.read r.body).a || (RFields.read r.body).ea || (RFields.read r.body).eb
      || decide (1 < (RFields.read r.body).b.toNat)) (.grd r.form (RFields.read r.body).d (low3 (RFields.read r.body).a) ((RFields.read r.body).b == 1)) := by
  rw [Laws.RoundTrip.shape13 r h, decodeSegment, if_neg hl, hm]
  rfl

/-- Settles O9: a narrowed segment is known bit by bit, and `gwrite` runs its checks in the order of 18:R280. -/
theorem segmentResults : Obligations.SegmentResults := by
  unfold Obligations.SegmentResults
  refine ⟨fun s f d a hi h => ?_, fun r hmaj hl => ?_, fun s f d a b eb c ec drop h => ?_, fun s f d a ea b eb h hp => ?_⟩
  · have hx : exec (.grd f d a hi) s = _ := State.plain_next (srcs := []) h (by simp) (by simp)
    rw [hx]
    cases hi <;> rfl
  · intro x hm
    have hs := decodeShape_grd hmaj hl hm
    split
    next hb => exact decodeRaw_error (hs.trans (by rw [decide_eq_true hb, Bool.or_true]; rfl))
    next hb =>
      intro i hi
      obtain ⟨-, he⟩ := keep_ok (hs.symm.trans (decodeShape_of_decodeRaw hi))
      exact he
  · have hgo (g : VWord) : s.completeWith (s.task.putG d g) f.bytes = s.after (s.task.putG d g) f.bytes :=
      State.completeWith_after (State.performs_stepping h) rfl
    have hlim := segOf_limit_lt (s.task.getG a)
    dsimp only
    rw [exec_gnarrow h, narrow_eq]
    by_cases h0 : (segOf (s.task.getG a)).space = 0
    · rw [if_pos h0, if_neg fun hn => hn.1 h0]
      refine ⟨_, congrArg _ (hgo _), (segOf_narrowed hlim).trans ?_⟩
      rw [if_pos h0, if_pos h0, Nat.mod_eq_of_lt (segOf_base_lt _)]
    · rw [if_neg h0]
      by_cases ho : (segOf (s.task.getG a)).limit < (s.task.getS b).toNat
      · rw [if_pos ho, if_pos ⟨h0, ho⟩]
      · rw [if_neg ho, if_neg fun hn => ho hn.2]
        refine ⟨_, congrArg _ (hgo _), (segOf_narrowed (narrowedLimit_lt hlim ..)).trans ?_⟩
        rw [if_neg h0, if_neg h0]
        split <;> rfl
  · dsimp only
    have hx : exec (.gwrite f d a ea b eb) s = .next (match segWriteBad (s.tilesOf s.task.part) (s.task.getS b ++ s.task.getS a) with
        | some (c, l) => s.trap { cause := c, seg := some d, addr := l }
        | none => s.completeWith (s.task.putG d (s.task.getS b ++ s.task.getS a)) f.bytes) :=
      congrArg Host.Outcome.next ((State.privileged_above (by simp [hp])).trans (State.plain_performs (by simpa using h)))
    rw [hx, segWriteBad_eq]
    congr 1
    split_ifs
    · rfl
    · rfl
    · exact State.completeWith_after (State.performs_stepping h) rfl

end Sys2Proof.Machine
end

section
/-! PROOFS. The machine at reset, words the spec writes out, and the step that runs a decoded instruction (29:R400, 10:R158, 02:R36 to R40). -/

namespace Sys2Proof.Machine

/-- Settles O59. -/
theorem resetState : Obligations.ResetState := by
  unfold Obligations.ResetState
  exact ⟨rfl, rfl, rfl, rfl, rfl, rfl, fun a => ⟨rfl, rfl⟩, rfl, rfl⟩

/-- Settles O56. -/
theorem decodeWords : Obligations.DecodeWords := by
  unfold Obligations.DecodeWords
  decide

/-! ### A step of a slot -/

/-- The turn of a slot with no call and nothing due is its fetch (17:R272). -/
theorem turnOf_fetch {s : State} {t : Task} (hc : t.fwCall = none) (hd : t.due = []) : s.turnOf t = s.fetchTurn t := by
  simp [State.turnOf, hc, hd]

section
variable {s : State} {t : Task} {c : Capsule} (hc : s.codeOf? t = some c)
include hc

theorem fetchTurn_past (h : State.codeBoundOf t c ≤ t.pc.toNat ∨ decode (s.codeBytes t c t.pc.toNat) = .error .short) : s.fetchTurn t = .bound := by
  rcases h with h | h
  · simp [State.fetchTurn, hc, h]
  · simp [State.fetchTurn, hc, h]

theorem fetchTurn_instr {i : Instr} {n : Nat} (hb : t.pc.toNat < State.codeBoundOf t c) (hbr : s.breakHits t c.capid t.pc.toNat = [])
    (h : decode (s.codeBytes t c t.pc.toNat) = .ok (i, n)) : s.fetchTurn t = .instr i := by
  simp [State.fetchTurn, hc, hbr, h, Nat.not_le.2 hb]

theorem fetchTurn_bad {e : DecErr} (hb : t.pc.toNat < State.codeBoundOf t c) (hbr : s.breakHits t c.capid t.pc.toNat = [])
    (he : e ≠ .short) (h : decode (s.codeBytes t c t.pc.toNat) = .error e) : s.fetchTurn t = .bad e := by
  cases e <;> first | exact absurd rfl he | simp [State.fetchTurn, hc, hbr, h, Nat.not_le.2 hb]

end

/-- Where a slot has the turn, the step performs what its task fetches: with the issue accounted for, or without where it finds a register
empty (assumption 2). -/
theorem step_turn {s : State} {key : Nat} {u : Turn} (ha : s.agenda = []) (ht : s.turn < 2048) (hf : s.frameChange = false)
    (hp : s.nextPick = some (.slot key) ∨ s.nextPick = some (.parks key)) (hu : s.turnOf (s.taskAt key) = u) (hc : State.takesCycle u = true) :
    step s = if s.nextPick = some (.parks key) then (s.at_ key).perform1 key u else ((s.at_ key).issued key).perform1 key u := by
  have hu' : (s.at_ key).turnOf (s.at_ key).task = u := hu
  have hstep : step s = match s.nextPick with
      | some p => s.serve p
      | none => s.betweenIssues := by
    unfold step State.advance State.issueTurn
    rw [ha, hf]
    exact (if_pos ht).trans (if_neg Bool.false_ne_true)
  rw [hstep]
  rcases hp with hp | hp
  · rw [hp, if_neg (by simp)]
    show s.slotTurn key = _
    unfold State.slotTurn
    simp only [hu', hc, if_true]
  · rw [hp, if_pos rfl]
    show (s.at_ key).perform1 key (s.turnOf (s.taskAt key)) = _
    rw [hu]

/-- A cycle in which nothing arrives goes on with its first core. -/
theorem step_no_arrival {s : State} (ha : s.agenda = []) (ht : 2048 ≤ s.turn) (hn : ∀ f ∈ s.arrivals, s.outcome f = none) :
    step s = step { s with turn := 0 } := by
  have h1 : step s = ({ s with turn := 0 } : State).issueTurn := by
    unfold step State.advance
    rw [ha, if_neg (by omega), List.findSome?_eq_none_iff.2 hn]
    rfl
  have h2 : step { s with turn := 0 } = ({ s with turn := 0 } : State).issueTurn := by
    unfold step State.advance
    rw [show ({ s with turn := 0 } : State).agenda = [] from ha]
    rfl
  rw [h1, h2]

/-! ### The step after reset -/

/-- The task of a fetch is ready: it waits for nothing, and no operand of it is late. -/
theorem ready_withText (text : List Byte) : (State.reset.withText text).ready State.fetchTask = true := by
  have hops : ∀ u, (State.reset.withText text).operandsReady State.fetchTask u = true := by
    intro u
    cases u with
    | instr i => exact List.all_eq_true.2 fun _ _ => rfl
    | _ => rfl
  rw [State.ready, hops]
  rfl

theorem readyOn_withText (text : List Byte) : (State.reset.withText text).readyOn 0 0 = [(0, State.fetchTask)] := by
  show [(0, State.fetchTask)].filter (fun e => coreOf e.1 == 0 && e.2.part == 0 && (State.reset.withText text).ready e.2) = _
  rw [List.filter_cons_of_pos (by rw [ready_withText]; rfl)]
  rfl

theorem cyclePart_withText (text : List Byte) : (State.reset.withText text).cyclePart 0 = some 0 := by
  have ho : (State.reset.withText text).ownerOf 0 0 = some 0 := by
    simp [State.ownerOf, State.withText, State.ownsSlot, State.fetchPart, coreOf, slotOf]
  show (match (State.reset.withText text).ownerOf 0 0 with | none => none | some p => _) = _
  rw [ho]
  simp only [readyOn_withText]
  rfl

/-- After reset the only core with a task is the first, and its only task has the turn or parks. -/
theorem nextPick_withText (text : List Byte) :
    (State.reset.withText text).nextPick = some (.slot 0) ∨ (State.reset.withText text).nextPick = some (.parks 0) := by
  have hb : (State.reset.withText text).busyCores = [0] := rfl
  rw [State.nextPick, hb, List.findSome?_singleton, State.pick, cyclePart_withText]
  cases he : (State.reset.withText text).findsEmpty 0 with
  | true =>
    refine .inr ?_
    simp only [readyOn_withText, List.find?_cons, he]
    rfl
  | false =>
    refine .inl ?_
    simp only [readyOn_withText, List.find?_cons, he]
    rfl

/-- What the step after reset fetches is the text (assumption 33). -/
theorem codeBytes_withText {text : List Byte} (h : text.length ≤ 12) (c : Capsule) (hb : c.base = arenaBase) (hl : c.len = text.length) :
    (State.reset.withText text).codeBytes State.fetchTask c 0 = text := by
  have hn : min 12 (c.len - 0) = text.length := by omega
  show memRead (memWrite [] arenaBase text) (c.base + 0) (min 12 (c.len - 0)) = text
  rw [hn, hb]
  exact memRead_memWrite text arenaBase rfl

/-- Settles O58: the turn of a slot is what its task fetches, and the text after reset is what was encoded. -/
theorem stepRunsDecoded : Obligations.StepRunsDecoded := by
  unfold Obligations.StepRunsDecoded
  intro run
  have hslot : ∀ (s : State) (key : Nat) (c : Capsule), s.agenda = [] → s.turn < 2048 → s.frameChange = false →
      s.nextPick = some (.slot key) ∨ s.nextPick = some (.parks key) → (s.taskAt key).fwCall = none → (s.taskAt key).due = [] →
      s.codeOf? (s.taskAt key) = some c → ∀ u, s.fetchTurn (s.taskAt key) = u → State.takesCycle u = true → step s = run s key fun v => v.perform1 key u :=
    fun s key c ha ht hf hp hcall hdue hcode u hu htk => step_turn ha ht hf hp ((turnOf_fetch hcall hdue).trans hu) htk
  refine ⟨fun s key c ha ht hf hp => ?_, fun s => step_no_arrival, fun i hw => ?_⟩
  · intro t bytes bound hcall hdue hcode
    refine ⟨fun hb hd => ?_, fun hb hbr => ⟨fun i n hi => ?_, fun e he hi => ?_⟩, fun hb => ?_⟩
    · simp only [bound, bytes, State.codeBytes, State.codeBoundOf, State.codeBaseOf, hb, hd]
      exact ⟨rfl, rfl⟩
    · exact hslot s key c ha ht hf hp hcall hdue hcode _ (fetchTurn_instr hcode hb hbr hi) rfl
    · exact hslot s key c ha ht hf hp hcall hdue hcode _ (fetchTurn_bad hcode hb hbr he hi) rfl
    · exact hslot s key c ha ht hf hp hcall hdue hcode _ (fetchTurn_past hcode hb) rfl
  · intro s
    obtain ⟨hlen, hdec⟩ := encodingRoundTrip.1 i hw
    have hdec := hdec []
    rw [List.append_nil] at hdec
    have hl : (bytesOfWords (encode i)).length = 4 * (encode i).length := length_bytesOfWords _
    have hpos : 0 < (bytesOfWords (encode i)).length ∧ (bytesOfWords (encode i)).length ≤ 12 := by
      simp only [List.mem_cons, List.not_mem_nil, or_false] at hlen
      omega
    have hp := nextPick_withText (bytesOfWords (encode i))
    obtain ⟨c, hc, hb, hcl⟩ : ∃ c, s.codeOf? State.fetchTask = some c ∧ c.base = arenaBase ∧ c.len = (bytesOfWords (encode i)).length :=
      ⟨_, rfl, rfl, rfl⟩
    have hin : State.fetchTask.pc.toNat < State.codeBoundOf State.fetchTask c := hpos.1.trans_eq hcl.symm
    have hfetch : s.fetchTurn State.fetchTask = .instr i :=
      fetchTurn_instr hc hin rfl ((congrArg decode (codeBytes_withText hpos.2 c hb hcl)).trans hdec)
    exact ⟨hp, hslot s 0 c rfl (show 0 < 2048 by decide) rfl hp rfl rfl hc _ hfetch rfl⟩

end Sys2Proof.Machine
end

section
/-! PROOFS. Integer vector minors (12:R196, R202, R203): what each computes of its elements, and the frame it shares with the others. -/

namespace Sys2Proof.Machine

/-! ### Elements as numbers, and results in their type (12:R202, 04:R66) -/

theorem two_pow_pos_int (w : Nat) : (0 : Int) < 2 ^ w := by positivity

theorem intOf_eq (ty : BitVec 5) (x : Nat) :
    intOf ty x = if isSigned ty ∧ 2 ^ (elemBits ty - 1) ≤ x then (x : Int) - 2 ^ elemBits ty else x := by
  unfold intOf signOf
  by_cases hs : isSigned ty = true
  · by_cases hx : 2 ^ (elemBits ty - 1) ≤ x
    · rw [if_pos hs, if_neg (Nat.not_lt.2 hx), if_pos (And.intro hs hx)]
    · rw [if_pos hs, if_pos (Nat.not_le.1 hx), if_neg fun h => hx (And.right h)]
  · rw [if_neg hs, if_neg fun h => hs h.1]

/-- Bounds of a type (04:R66). -/
def typeMin (ty : BitVec 5) : Int := if isSigned ty then -(2 ^ (elemBits ty - 1)) else 0
def typeMax (ty : BitVec 5) : Int := if isSigned ty then 2 ^ (elemBits ty - 1) - 1 else 2 ^ elemBits ty - 1

theorem typeMin_le_typeMax (ty : BitVec 5) : typeMin ty ≤ typeMax ty := by
  have h1 := two_pow_pos_int (elemBits ty - 1)
  have h2 := two_pow_pos_int (elemBits ty)
  unfold typeMin typeMax
  split <;> omega

theorem clampInt_eq {lo hi : Int} (h : lo ≤ hi) (x : Int) : clampInt lo hi x = max lo (min hi x) := by
  unfold clampInt
  split
  · omega
  · split <;> omega

theorem reduce_eq (ty : BitVec 5) (sat : Bool) (x : Int) :
    reduce ty sat x = ((if sat then max (typeMin ty) (min (typeMax ty) x) else x) % 2 ^ elemBits ty).toNat := by
  have hb := typeMin_le_typeMax ty
  unfold reduce typeMin typeMax at *
  cases sat
  · rfl
  · by_cases hs : isSigned ty = true
    · simp only [hs, if_true] at hb ⊢
      rw [← clampInt_eq hb]
      rfl
    · simp only [hs, if_true] at hb ⊢
      rw [← clampInt_eq hb]
      rfl

theorem two_pow_elemBits (ty : BitVec 5) : (2 : Int) ^ elemBits ty = 2 * 2 ^ (elemBits ty - 1) := by
  obtain ⟨n, hn⟩ := Nat.exists_eq_add_one.2 (elemBits_bounds ty).1
  rw [hn, Nat.add_sub_cancel, pow_succ, mul_comm]

/-- An element lies within the bounds of its type. -/
theorem intOf_bounds (ty : BitVec 5) {x : Nat} (h : x < 2 ^ elemBits ty) : typeMin ty ≤ intOf ty x ∧ intOf ty x ≤ typeMax ty := by
  have hx : (x : Int) < 2 ^ elemBits ty := by exact_mod_cast h
  have hw := two_pow_elemBits ty
  rw [intOf_eq, typeMin, typeMax]
  have hc : 2 ^ (elemBits ty - 1) ≤ x ↔ (2 : Int) ^ (elemBits ty - 1) ≤ x := by exact_mod_cast Iff.rfl
  simp only [hc]
  by_cases hs : isSigned ty = true
  · simp only [hs, if_true, true_and]
    split <;> omega
  · simp only [hs, if_false, Bool.false_eq_true, false_and]
    omega

/-- An element and its number agree modulo 2^w. -/
theorem intOf_emod (ty : BitVec 5) (x : Nat) : intOf ty x % 2 ^ elemBits ty = (x : Int) % 2 ^ elemBits ty := by
  rw [intOf_eq]
  split
  · rw [Int.sub_emod, Int.emod_self, sub_zero, Int.emod_emod]
  · rfl

theorem toNat_emod_natCast (x w : Nat) : ((x : Int) % 2 ^ w).toNat = x % 2 ^ w := by
  rw [show (2 : Int) ^ w = ((2 ^ w : Nat) : Int) by push_cast; rfl, ← Int.natCast_mod, Int.toNat_natCast]

/-! ### Shifts -/

/-- A shift by the width or more loses every bit: what is left saturates alike. -/
theorem reduce_shift (ty : BitVec 5) {a : Nat} (b : Nat) (ha : a < 2 ^ elemBits ty) :
    reduce ty true (intOf ty a * 2 ^ min b (elemBits ty)) = reduce ty true (intOf ty a * 2 ^ b) := by
  rcases Nat.le_total b (elemBits ty) with hb | hb
  · rw [min_eq_left hb]
  · rw [min_eq_right hb, reduce_eq, reduce_eq, if_pos rfl, if_pos rfl]
    have hw := two_pow_pos_int (elemBits ty)
    have hp : (2 : Int) ^ elemBits ty ≤ 2 ^ b := pow_le_pow_right₀ (by decide) hb
    have hlo : -(2 ^ elemBits ty) ≤ typeMin ty := by
      have := two_pow_elemBits ty
      have := two_pow_pos_int (elemBits ty - 1)
      unfold typeMin; split <;> omega
    have hhi : typeMax ty ≤ 2 ^ elemBits ty := by
      have := two_pow_elemBits ty
      have := two_pow_pos_int (elemBits ty - 1)
      unfold typeMax; split <;> omega
    have hb' := typeMin_le_typeMax ty
    rcases lt_trichotomy (intOf ty a) 0 with h | h | h
    · have h1 : intOf ty a * 2 ^ elemBits ty ≤ typeMin ty := by nlinarith
      have h2 : intOf ty a * 2 ^ b ≤ typeMin ty := by nlinarith
      rw [max_eq_left (le_trans (min_le_right _ _) h1), max_eq_left (le_trans (min_le_right _ _) h2)]
    · rw [h, zero_mul, zero_mul]
    · have h1 : typeMax ty ≤ intOf ty a * 2 ^ elemBits ty := by nlinarith
      have h2 : typeMax ty ≤ intOf ty a * 2 ^ b := by nlinarith
      rw [min_eq_left h1, min_eq_left h2]

theorem vshlElem_eq (ty : BitVec 5) (sat : Bool) {a : Nat} (b : Nat) (ha : a < 2 ^ elemBits ty) :
    vshlElem ty sat a b = reduce ty sat (intOf ty a * 2 ^ b) := by
  unfold vshlElem
  cases sat
  · have hr : reduce ty false (intOf ty a * 2 ^ b) = a * 2 ^ b % 2 ^ elemBits ty := by
      rw [reduce_eq, if_neg Bool.false_ne_true, Int.mul_emod, intOf_emod, ← Int.mul_emod]
      exact_mod_cast toNat_emod_natCast (a * 2 ^ b) (elemBits ty)
    rw [hr]
    by_cases hb : elemBits ty ≤ b
    · rw [if_neg Bool.false_ne_true, if_pos hb, Nat.mod_eq_zero_of_dvd]
      exact Dvd.dvd.mul_left (Nat.pow_dvd_pow 2 hb) a
    · rw [if_neg Bool.false_ne_true, if_neg hb]
  · rw [if_pos rfl, reduce_shift ty b ha]

theorem vshrElem_eq (ty : BitVec 5) {a : Nat} (b : Nat) (ha : a < 2 ^ elemBits ty) : vshrElem ty a b = a / 2 ^ b := by
  unfold vshrElem
  split
  next hb => exact (Nat.div_eq_of_lt (Nat.lt_of_lt_of_le ha (Nat.pow_le_pow_right (by decide) hb))).symm
  next => rfl

/-- The sign is copied in: a shift by more than the width gives what one by the width gives. -/
theorem vsraElem_eq (ty : BitVec 5) {a : Nat} (b : Nat) (ha : a < 2 ^ elemBits ty) :
    vsraElem ty a b = (intOf ty a / 2 ^ b % 2 ^ elemBits ty).toNat := by
  unfold vsraElem wrapTo
  rcases Nat.le_total b (elemBits ty) with hb | hb
  · rw [min_eq_left hb]
  · rw [min_eq_right hb]
    obtain ⟨hlo, hhi⟩ := intOf_bounds ty ha
    have hw := two_pow_elemBits ty
    have hq := two_pow_pos_int (elemBits ty - 1)
    have hp : (2 : Int) ^ elemBits ty ≤ 2 ^ b := pow_le_pow_right₀ (by decide) hb
    have hl : -(2 ^ elemBits ty) ≤ intOf ty a := by unfold typeMin at hlo; split at hlo <;> omega
    have hu : intOf ty a < 2 ^ elemBits ty := by unfold typeMax at hhi; split at hhi <;> omega
    have hdiv (c : Int) (hc : (2 : Int) ^ elemBits ty ≤ c) : intOf ty a / c = if intOf ty a < 0 then -1 else 0 := by
      split
      next h => exact Int.ediv_eq_neg_one_of_neg_of_le h (by omega)
      next h => exact Int.ediv_eq_zero_of_lt (by omega) (by omega)
    rw [hdiv _ le_rfl, hdiv _ hp]

/-- `vandn` clears the bits of a that b has. -/
theorem andn_mod (w a b : Nat) : (a ^^^ (a &&& b)) % 2 ^ w = (BitVec.ofNat w a &&& ~~~BitVec.ofNat w b).toNat % 2 ^ w := by
  refine Nat.eq_of_testBit_eq fun i => ?_
  rw [Nat.testBit_mod_two_pow, Nat.testBit_mod_two_pow]
  by_cases hi : i < w
  · have hb : (BitVec.ofNat w a &&& ~~~BitVec.ofNat w b).toNat.testBit i = (BitVec.ofNat w a &&& ~~~BitVec.ofNat w b).getLsbD i := rfl
    rw [hb, BitVec.getLsbD_and, BitVec.getLsbD_not, BitVec.getLsbD_ofNat, BitVec.getLsbD_ofNat, Nat.testBit_xor, Nat.testBit_and]
    cases a.testBit i <;> cases b.testBit i <;> simp [hi]
  · simp [hi]

/-! ### The frames -/

namespace State

variable {s : State}

theorem vint2_lanes {o : VArgs} {sg : Bool} {f : Nat → Nat → Nat} {el : Nat → Nat}
    (h : s.vperforms [] (.v o.a :: o.b.vreads.map (·.1) ++ [.v o.d]) = true)
    (he : ∀ i, f (elem (s.task.getV o.a) o.ty i) (vintB s.task sg o.ty i o.b) % 2 ^ elemBits o.ty = el i % 2 ^ elemBits o.ty) :
    s.lanes o.f o.ty o.d 2 (.next (s.vint2 o sg f)) el :=
  vmerge_lanes o.d ((.v o.a, o.ea) :: o.b.vreads) h he

theorem vintArith_lanes {o : VArgs} {f : Int → Int → Int} (h : s.vperforms [] (.v o.a :: o.b.vreads.map (·.1) ++ [.v o.d]) = true) :
    s.lanes o.f o.ty o.d 2 (.next (s.vintArith o f)) fun i =>
      reduce o.ty o.sat (f (intOf o.ty (elem (s.task.getV o.a) o.ty i)) (intOf o.ty (vintB s.task (isSigned o.ty) o.ty i o.b))) :=
  vint2_lanes h fun _ => rfl

theorem vint1_lanes {o : VUn} {f : Int → Int} {el : Nat → Nat} (h : s.vperforms [] [.v o.a, .v o.d] = true)
    (he : ∀ i, reduce o.ty o.sat (f (intOf o.ty (elem (s.task.getV o.a) o.ty i))) = el i) :
    s.lanes o.f o.ty o.d 2 (.next (s.vint1 o f)) el :=
  vmerge_lanes o.d [(.v o.a, o.ea)] h fun i => congrArg (· % _) (he i)

theorem vintCmp_flagged {o : VCmp} {f : Int → Int → Bool} {c : Nat → Bool} (hty : isInt o.ty = true)
    (h : s.vperforms [] (.v o.a :: o.b.vreads.map (·.1)) = true)
    (hc : ∀ i, f (intOf o.ty (elem (s.task.getV o.a) o.ty i)) (intOf o.ty (vintB s.task (isSigned o.ty) o.ty i o.b)) = c i) :
    s.flagged o.f o.ty o.p 2 (.next (s.vintCmp o f)) c := by
  have hw : 8 ≤ elemBits o.ty ∧ lanesOf o.ty * elemBits o.ty = 128 := by
    revert hty; generalize o.ty = ty; revert ty; decide
  rw [vintCmp, vplain_performs (by simpa using h), ← funext hc]
  exact flagged_of (vperforms_stepping h) hw.1 hw.2

end State

/-- A magnitude or an opposite of a signed element saturates at the top alone. -/
theorem reduce_signed {ty : BitVec 5} (hs : isSigned ty = true) (sat : Bool) {x : Int} (hx : typeMin ty ≤ x) :
    reduce ty sat x = ((if sat then min (2 ^ (elemBits ty - 1) - 1) x else x) % 2 ^ elemBits ty).toNat := by
  have hmax : typeMax ty = 2 ^ (elemBits ty - 1) - 1 := if_pos hs
  have hb := typeMin_le_typeMax ty
  rw [reduce_eq, ← hmax, max_eq_right (le_min hb hx)]

/-- The result of an exact operation in its type, as the statement writes it out. -/
theorem reduce_eq_bounds (ty : BitVec 5) (sat : Bool) (x : Int) :
    reduce ty sat x = ((if sat then max (if isSigned ty then -(2 ^ (elemBits ty - 1)) else 0)
      (min (if isSigned ty then 2 ^ (elemBits ty - 1) - 1 else 2 ^ elemBits ty - 1) x) else x) % 2 ^ elemBits ty).toNat := reduce_eq ty sat x

/-- Settles O14: the frames leave a function of the elements, and that function is the stated one. -/
theorem vectorIntegerResults : Obligations.VectorIntegerResults := by
  unfold Obligations.VectorIntegerResults
  refine ⟨fun s o _ h => ?_, fun s o _ hs h => ?_, fun s o hty h => ?_⟩ <;> dsimp only
  · have ha (i : Nat) : elem (s.task.getV o.a) o.ty i < 2 ^ elemBits o.ty := elem_lt _ _ _
    simp only [← intOf_eq, ← reduce_eq_bounds]
    exact ⟨State.vintArith_lanes h, State.vintArith_lanes h, State.vintArith_lanes h, fun _ => State.vintArith_lanes h,
      fun _ => ⟨State.vintArith_lanes h, State.vintArith_lanes h⟩, State.vint2_lanes h fun _ => rfl, State.vint2_lanes h fun _ => rfl,
      State.vint2_lanes h fun _ => rfl, State.vint2_lanes h fun _ => andn_mod _ _ _,
      State.vint2_lanes h fun i => congrArg (· % _) (vshlElem_eq _ _ _ (ha i)), State.vint2_lanes h fun i => congrArg (· % _) (vshrElem_eq _ _ (ha i)),
      State.vint2_lanes h fun i => congrArg (· % _) (vsraElem_eq _ _ (ha i))⟩
  · have hint (i : Nat) : intOf o.ty (elem (s.task.getV o.a) o.ty i) = signOf (elem (s.task.getV o.a) o.ty i) (elemBits o.ty) := if_pos hs
    have hb (i : Nat) := intOf_bounds o.ty (elem_lt (s.task.getV o.a) o.ty i)
    have hlo : typeMin o.ty = -(2 ^ (elemBits o.ty - 1)) := if_pos hs
    have hhi : typeMax o.ty = 2 ^ (elemBits o.ty - 1) - 1 := if_pos hs
    have hp := two_pow_pos_int (elemBits o.ty - 1)
    simp only [← hint]
    refine ⟨State.vint1_lanes h fun i => ?_, State.vint1_lanes h fun i => ?_⟩
    · have habs : (if intOf o.ty (elem (s.task.getV o.a) o.ty i) < 0 then -intOf o.ty (elem (s.task.getV o.a) o.ty i)
          else intOf o.ty (elem (s.task.getV o.a) o.ty i)) = (intOf o.ty (elem (s.task.getV o.a) o.ty i)).natAbs := by split <;> omega
      rw [habs, reduce_signed hs o.sat (by omega)]
    · exact reduce_signed hs o.sat (by have := hb i; omega)
  · simp only [← intOf_eq]
    exact ⟨State.vintCmp_flagged hty h fun i => rfl, State.vintCmp_flagged hty h fun i => decide_not, State.vintCmp_flagged hty h fun _ => rfl,
      State.vintCmp_flagged hty h fun _ => rfl⟩

end Sys2Proof.Machine
end

section
/-! PROOFS. Floating-point vector minors, with and without a format prefix (12:R198 to R200, R206, R207). -/

namespace Sys2Proof.Machine

/-! ### The frames -/

namespace State

variable {s : State}

/-- A floating-point minor that merges lane by lane, once its prefix is accepted and its registers can be read. -/
theorem fmerge_lanes {d : Reg} {srcs : List (RegId × Bool)} {f : Form} {ty : BitVec 5} {lat : Nat} {g : Task → Nat → Nat} {el : Nat → Nat}
    (h : s.readable [] ((srcs ++ [(RegId.v d, false)] ++ s.task.prefix_.reads).map (·.1)) = true)
    (he : ∀ i, i < lanesOf ty → g s.task i % 2 ^ elemBits ty = el i % 2 ^ elemBits ty) :
    s.lanes f ty d lat (.next (s.fmerge true [d] [] srcs fun t =>
      s.completeWith (t.writeV s.cycle d (lanewise (t.guardBits f.guard) ty (t.getV d) (g t)) lat) f.bytes)) el := by
  have hf (body : Task → State) : s.fmerge true [d] [] srcs body = body s.task := fplain_readable (srcs := srcs ++ [(RegId.v d, false)]) h
  rw [hf]
  exact lanes_of (readable_stepping h) he

/-- With no prefix pending, the registers of the instruction are all it reads. -/
theorem readable_none {srcs : List (RegId × Bool)} {d : Reg} (h : s.vperforms [] (srcs.map (·.1) ++ [.v d]) = true) :
    s.readable [] ((srcs ++ [(RegId.v d, false)] ++ s.task.prefix_.reads).map (·.1)) = true := by
  obtain ⟨hp, hr⟩ := vperforms_iff.1 h
  simpa [prefix_none hp, Prefix.reads] using hr

theorem vperforms_fpend {dsts srcs : List RegId} (h : s.vperforms dsts srcs = true) : s.task.fpend = false := (vperforms_iff.1 h).1

end State

/-- Source B with no prefix (12:R208). -/
theorem fpB_none {t : Task} (h : t.fpend = false) (ty : BitVec 5) (i : Nat) (b : FSrc) :
    fpB t ty i b = match b with
      | .reg b _ => elemValue ty 0x7F (elem (t.getV b) ty i)
      | .fi x => (if ty = 9 then f16 else bf16).decode x.toNat
      | .lit l => elemValue ty 0x7F (roundTo ty 0 true (f32.decode l.toNat)).bits := by
  cases b with
  | reg b e => exact fpReg_none h ty b i
  | fi x =>
    have h9 : ty.toNat = 9 ↔ ty = 9 := by revert ty; decide
    simp only [fpB, h9]
    split <;> rfl
  | lit l => rfl

section
variable {s : State}

theorem vfp2_lanes {o : VFArgs} {f : FVal → FVal → FVal} (h : s.vperforms [] (.v o.a :: o.b.vreads.map (·.1) ++ [.v o.d]) = true) :
    s.lanes o.f o.ty o.d 4 (.next (s.vfp2 o f)) fun i =>
      (roundTo o.ty o.rnd o.sat (f (elemValue o.ty 0x7F (elem (s.task.getV o.a) o.ty i)) (fpB s.task o.ty i o.b))).bits := by
  have hp := State.vperforms_fpend h
  rw [State.vfp2, prefixOk_none hp]
  exact State.fmerge_lanes (State.readable_none (srcs := (.v o.a, o.ea) :: o.b.vreads) h) fun i _ => by rw [fpA_none hp]

theorem vfp1_lanes {o : VUn} {f : FVal → FVal} (h : s.vperforms [] [.v o.a, .v o.d] = true) :
    s.lanes o.f o.ty o.d 4 (.next (s.vfp1 o f)) fun i => (roundTo o.ty o.rnd o.sat (f (elemValue o.ty 0x7F (elem (s.task.getV o.a) o.ty i)))).bits := by
  have hp := State.vperforms_fpend h
  rw [State.vfp1, prefixOk_none hp]
  exact State.fmerge_lanes (State.readable_none (srcs := [(.v o.a, o.ea)]) h) fun i _ => by rw [fpA_none hp]

theorem vfma_lanes {o : VFma} {f : FVal → FVal → FVal} (h : s.vperforms [] [.v o.a, .v o.b, .v o.c, .v o.d] = true) :
    s.lanes o.f o.ty o.d 4 (.next (s.vfma o f)) fun i => (roundTo o.ty o.rnd o.sat
      (f ((elemValue o.ty 0x7F (elem (s.task.getV o.a) o.ty i)).mul (elemValue o.ty 0x7F (elem (s.task.getV o.b) o.ty i)))
        (elemValue o.ty 0x7F (elem (s.task.getV o.c) o.ty i)))).bits := by
  have hp := State.vperforms_fpend h
  rw [State.vfma, prefixOk_none hp]
  exact State.fmerge_lanes (State.readable_none (srcs := [(.v o.a, o.ea), (.v o.b, o.eb), (.v o.c, o.ec)]) h) fun i _ => by
    rw [fpA_none hp, fpReg_none hp]

theorem vfpCmp_flagged {o : VFCmp} {f : FVal → FVal → Bool} (hty : isFp o.ty = true) (h : s.vperforms [] (.v o.a :: o.b.vreads.map (·.1)) = true) :
    s.flagged o.f o.ty o.p 2 (.next (s.vfpCmp o f)) fun i => f (elemValue o.ty 0x7F (elem (s.task.getV o.a) o.ty i)) (fpB s.task o.ty i o.b) := by
  have hp := State.vperforms_fpend h
  have hw : 8 ≤ elemBits o.ty ∧ lanesOf o.ty * elemBits o.ty = 128 := by
    revert hty; generalize o.ty = ty; revert ty; decide
  have ha : (fun i => f (fpA s.task o.ty o.a i) (fpB s.task o.ty i o.b))
      = fun i => f (elemValue o.ty 0x7F (elem (s.task.getV o.a) o.ty i)) (fpB s.task o.ty i o.b) := funext fun i => by rw [fpA_none hp]
  rw [State.vfpCmp, State.fplain_performs (prefixOk_none hp _ _) (by simpa using h), ha]
  exact State.flagged_of (State.vperforms_stepping h) hw.1 hw.2

/-- `vsum` leaves the exact sum, rounded once, in element 0 and zero in the others (12:R207). -/
theorem exec_vfpVsum {o : VUn} (h : s.vperforms [] [.v o.a, .v o.d] = true) :
    ∃ x, exec (.vfpVsum o) s = .next (s.after (s.task.writeV s.cycle o.d x 4) o.f.bytes) ∧ ∀ i, i < lanesOf o.ty →
      elem x o.ty i = if i = 0 then (roundTo o.ty o.rnd o.sat (fsum o.rnd
        (((List.range (lanesOf o.ty)).filter (active (s.task.guardBits o.f.guard) o.ty)).map fun i =>
          elemValue o.ty 0x7F (elem (s.task.getV o.a) o.ty i)))).bits % 2 ^ elemBits o.ty else 0 := by
  have hp := State.vperforms_fpend h
  refine ⟨putElem 0 o.ty 0 (roundTo o.ty o.rnd o.sat (fsum o.rnd
    (((List.range (lanesOf o.ty)).filter (active (s.task.guardBits o.f.guard) o.ty)).map (fpA s.task o.ty o.a)))).bits, ?_, fun i hi => ?_⟩
  · show (.next (s.fmerge (prefixOk s.task o.ty false) [o.d] [] [(.v o.a, o.ea)] _) : Out) = _
    rw [State.fmerge, State.fplain_performs (prefixOk_none hp _ _) (by simpa using h), State.completeWith_after (by simpa using State.vperforms_stepping h) (by simp)]
  · have ha : fpA s.task o.ty o.a = fun i => elemValue o.ty 0x7F (elem (s.task.getV o.a) o.ty i) := funext fun i => fpA_none hp ..
    rw [elem_putElem _ _ (by omega) hi, elem_zero, ha]

end

/-- Settles O16: with no prefix the sources are read in the type of the instruction. -/
theorem vectorFloatResults : Obligations.VectorFloatResults := by
  unfold Obligations.VectorFloatResults
  refine ⟨fun s o h => ?_, fun s o h => ⟨vfp1_lanes h, vfp1_lanes h, exec_vfpVsum h⟩,
    fun s o hty h => ⟨vfpCmp_flagged hty h, vfpCmp_flagged hty h, vfpCmp_flagged hty h, vfpCmp_flagged hty h⟩,
    fun s o h => ⟨vfma_lanes h, vfma_lanes h, vfma_lanes h, vfma_lanes h⟩⟩
  have hb (i : Nat) := fpB_none (State.vperforms_fpend h) o.ty i o.b
  have key (f : FVal → FVal → FVal) := vfp2_lanes (f := f) h
  simp only [hb] at key
  exact ⟨key _, key _, key _, key _, key _⟩

/-! ### A prefix that overrides source A (12:R198 to R200) -/

/-- A pending prefix that overrides source A with format `fa` from part `part`, an MX format under the scale `sv`. -/
def Task.overridesA (t : Task) (fa : BitVec 5) (part sv : Nat) : Prop :=
  t.prefix_ = ⟨true, fa, false, 0, part, if isMx fa then 2 else 0, 0, if isMx fa then sv else 0⟩

/-- The fields of a prefix word (12:R198). -/
theorem prefixOf_word {fa part k v : Nat} (hfa : fa < 32) (hpart : part < 4) (hk : k < 4) (hv : v < 256) :
    prefixOf (BitVec.ofNat 32 (2 ^ 31 + fa * 2 ^ 26 + part * 2 ^ 18 + k * 2 ^ 16 + v * 8)) = ⟨true, BitVec.ofNat 5 fa, false, 0, part, k, 0, v⟩ := by
  have hn : (BitVec.ofNat 32 (2 ^ 31 + fa * 2 ^ 26 + part * 2 ^ 18 + k * 2 ^ 16 + v * 8)).toNat = 2 ^ 31 + fa * 2 ^ 26 + part * 2 ^ 18 + k * 2 ^ 16 + v * 8 := by
    rw [BitVec.toNat_ofNat, Nat.mod_eq_of_lt (by omega)]
  simp only [prefixOf, BitVec.getLsbD, bitsAt, field, hn, Nat.testBit_eq_decide_div_mod_eq, Prefix.mk.injEq, decide_eq_true_eq, decide_eq_false_iff_not]
  refine ⟨by omega, BitVec.eq_of_toNat_eq ?_, by omega, BitVec.eq_of_toNat_eq ?_, by omega, by omega, BitVec.eq_of_toNat_eq ?_, by omega⟩
  · rw [BitVec.toNat_ofNat, BitVec.toNat_ofNat]; omega
  · rw [BitVec.toNat_ofNat]; show _ = 0; omega
  · rw [BitVec.toNat_ofNat]; show _ = 0; omega

theorem overridesA_of_word {t : Task} {fa : BitVec 5} {part sv : Nat} (hp : t.fpend = true) (hpart : part < 4) (hsv : sv < 256)
    (hw : t.fmtword = BitVec.ofNat 32 (2 ^ 31 + fa.toNat * 2 ^ 26 + part * 2 ^ 18 + (if isMx fa then 2 else 0) * 2 ^ 16 + (if isMx fa then sv else 0) * 8)) :
    t.overridesA fa part sv := by
  unfold Task.overridesA Task.prefix_
  rw [if_pos hp, hw, prefixOf_word fa.isLt hpart (by split <;> decide) (by split <;> omega), BitVec.ofNat_toNat, BitVec.setWidth_eq]

section
variable {t : Task} {fa : BitVec 5} {part sv : Nat} (h : t.overridesA fa part sv)
include h

theorem prefixOk_overridesA (ty : BitVec 5) (b : Bool) (hp : t.fpend = true) : prefixOk t ty b = overrideOk ty fa part := by
  rw [prefixOk, show t.prefix_ = _ from h, hp]
  cases isMx fa <;> simp

theorem reads_overridesA : t.prefix_.reads = [] := by
  rw [show t.prefix_ = _ from h]
  exact if_neg (by dsimp only; split <;> decide)

theorem fpA_overridesA (ty : BitVec 5) (r : Reg) (i : Nat) :
    fpA t ty r i = elemValue fa (if isMx fa then sv else 0x7F) (elem (t.getV r) fa (i + part * lanesOf ty)) := by
  have hs : t.scaleX = if isMx fa then sv else 0x7F := by
    rw [Task.scaleX, show t.prefix_ = _ from h]
    cases isMx fa <;> rfl
  rw [fpA, show t.prefix_ = _ from h, ← hs]
  rfl

theorem fpReg_overridesA (ty : BitVec 5) (r : Reg) (i : Nat) : fpReg t ty r i = elemValue ty 0x7F (elem (t.getV r) ty i) := by
  rw [fpReg, show t.prefix_ = _ from h]
  rfl

end

theorem overrideOk_iff {ty fa : BitVec 5} {part : Nat} :
    overrideOk ty fa part = true ↔ widens ty fa = true ∧ part * lanesOf ty + lanesOf ty ≤ lanesOf fa := by
  rw [overrideOk, Bool.and_eq_true, decide_eq_true_eq]

/-- Settles O18: the prefix overrides source A alone, and its format is checked before anything is read. -/
theorem prefixedOperands : Obligations.PrefixedOperands := by
  unfold Obligations.PrefixedOperands
  intro word a allowed
  refine ⟨fun s o b eb fa part sv hb _ hw hr => ?_, fun s o fa part sv _ hw hr => ?_⟩
  · obtain ⟨hp, hpart, hsv, hword⟩ := hw
    have ho := overridesA_of_word hp hpart hsv hword
    have hok := prefixOk_overridesA ho o.ty (FSrc.isReg o.b) hp
    have hx : exec (.vfpVadd o) s = .next (s.vfp2 o (FVal.add o.rnd)) := rfl
    split
    next hal =>
      rw [hx, State.vfp2, hok, overrideOk_iff.2 hal, hb]
      refine State.fmerge_lanes (srcs := [(.v o.a, o.ea), (.v b, eb)]) (by rw [reads_overridesA ho]; exact hr) fun i _ => ?_
      rw [fpA_overridesA ho, fpB, fpReg_overridesA ho]
    next hal =>
      rw [hx, State.vfp2, hok, Bool.eq_false_iff.2 fun h => hal (overrideOk_iff.1 h), State.fmerge, State.fplain_refused]
  · obtain ⟨hp, hpart, hsv, hword⟩ := hw
    have ho := overridesA_of_word hp hpart hsv hword
    have hok := prefixOk_overridesA ho o.ty true hp
    have hx : exec (.vfma o) s = .next (s.vfma o (FVal.add o.rnd)) := rfl
    split
    next hal =>
      rw [hx, State.vfma, hok, overrideOk_iff.2 hal]
      refine State.fmerge_lanes (srcs := [(.v o.a, o.ea), (.v o.b, o.eb), (.v o.c, o.ec)]) (by rw [reads_overridesA ho]; exact hr) fun i _ => ?_
      rw [fpA_overridesA ho, fpReg_overridesA ho]
    next hal =>
      rw [hx, State.vfma, hok, Bool.eq_false_iff.2 fun h => hal (overrideOk_iff.1 h), State.fmerge, State.fplain_refused]

end Sys2Proof.Machine
end

section
/-! PROOFS. Conversions (12:R212, R213): what `cvt` computes of each element, and the word in which it counts. -/

namespace Sys2Proof.Machine

/-- The counts and the scale stand in fields of their own (12:R213). -/
theorem countWord_eq {scale clamps under : Nat} (hu : under < 64) (hc : clamps < 64) (hs : scale < 256) :
    countWord scale clamps under = BitVec.ofNat 64 (under + clamps * 2 ^ 8 + scale * 2 ^ 16) := by
  have hf : packFields [(6, under), (2, 0), (6, clamps), (2, 0), (8, scale)] = under + clamps * 2 ^ 8 + scale * 2 ^ 16 := by
    simp only [packFields]
    omega
  rw [countWord, word64, hf]

theorem lanesOf_le (ty : BitVec 5) : lanesOf ty ≤ 32 := by revert ty; decide

/-- Counts of elements of one register fit their fields. -/
theorem count_lt (ty : BitVec 5) (act p : Nat → Bool) : (((List.range (lanesOf ty)).filter act).filter p).length < 64 := by
  have h1 := List.length_filter_le p ((List.range (lanesOf ty)).filter act)
  have h2 := List.length_filter_le act (List.range (lanesOf ty))
  have h3 := lanesOf_le ty
  rw [List.length_range] at h2
  omega

section
variable {s : State} {o : CvtArgs}

theorem map_groupReads (r : Reg) (n : Nat) (e : Bool) : (groupReads r n e).map (·.1) = (List.range n).map fun i => .v (r + BitVec.ofNat 5 i) := by
  rw [groupReads, List.map_map]
  rfl

/-- The destination of the counts. -/
def cntDst (o : CvtArgs) : List RegId := match o.cnt with
  | some c => [.s c]
  | none => []

/-- The task that `cvt` leaves: its elements in vD, and its counts where a register is named for them. -/
def cvtTask (now : Nat) (t : Task) (o : CvtArgs) : Task :=
  let act := (List.range (lanesOf o.dt)).filter (active (t.guardBits o.f.guard) o.dt)
  let r := lanewise (t.guardBits o.f.guard) o.dt (t.getV o.d) fun i => (cvtOne t o i).bits
  match o.cnt with
  | some c => (t.writeV now o.d r 3).writeS now c (if counted o.dt then
      countWord 0 (act.filter fun i => (cvtOne t o i).clamp).length (act.filter fun i => (cvtOne t o i).under).length else 0) 3
  | none => t.writeV now o.d r 3

theorem cvtTask_stepping (now : Nat) (t : Task) (o : CvtArgs) : (cvtTask now t o).stepping = t.stepping := by
  unfold cvtTask
  cases o.cnt <;> simp

theorem cvtTask_pc (now : Nat) (t : Task) (o : CvtArgs) : (cvtTask now t o).pc = t.pc := by
  unfold cvtTask
  cases o.cnt <;> simp

theorem exec_cvt (h : s.vperforms (cntDst o) (((List.range (cvtGroup o.dt o.st)).map fun i => .v (o.a + BitVec.ofNat 5 i)) ++ [.v o.d]) = true) :
    exec (.cvt o) s = .next (s.after (cvtTask s.cycle s.task o) o.f.bytes) := by
  have hp := State.vperforms_fpend h
  have hok : cvtPrefixOk s.task o = true := by simp [cvtPrefixOk, hp]
  have hrun (body : Task → State) : s.fmerge true [o.d] (cntDst o) (groupReads o.a (cvtGroup o.dt o.st) o.ea) body = body s.task :=
    State.fplain_performs rfl (by simpa [map_groupReads] using h)
  show execCvt o s = _
  rw [execCvt, hok]
  have hend : s.completeWith (cvtTask s.cycle s.task o) o.f.bytes = s.after (cvtTask s.cycle s.task o) o.f.bytes :=
    State.completeWith_after (by rw [cvtTask_stepping, State.vperforms_stepping h]) (cvtTask_pc ..)
  refine congrArg _ ((hrun _).trans (Eq.trans ?_ hend))
  unfold cvtTask
  cases o.cnt <;> rfl

/-- With no prefix pending an MX source is read under the scale 1. -/
theorem cvtOne_none {t : Task} (hp : t.fpend = false) (i : Nat) :
    cvtOne t o i = if isInt o.dt = true ∧ isInt o.st = true then ⟨reduce o.dt o.sat (intOf o.st (cvtElem t o i)), false, false⟩
      else if isInt o.dt = true then
        ⟨(roundInt o.rnd (if isSigned o.dt then -(2 ^ (elemBits o.dt - 1)) else 0) (if isSigned o.dt then 2 ^ (elemBits o.dt - 1) - 1 else 2 ^ elemBits o.dt - 1)
          (elemValue o.st 0x7F (cvtElem t o i)) % 2 ^ elemBits o.dt).toNat, false, false⟩
      else roundTo o.dt o.rnd o.sat (elemValue o.st 0x7F (cvtElem t o i)) := by
  simp only [cvtOne, scaleX_none hp]
  by_cases hd : isInt o.dt = true
  · by_cases hs : isInt o.st = true
    · simp only [hd, hs, and_self, if_true]
    · simp only [hd, hs, and_false, if_true, if_false, Bool.false_eq_true]
      rfl
  · simp only [hd, false_and, if_false, Bool.false_eq_true]

end

/-- Settles O19. -/
theorem convertResults : Obligations.ConvertResults := by
  unfold Obligations.ConvertResults
  intro s o h ns nd x y act count
  have hy (i : Nat) : y i = cvtOne s.task o i := (cvtOne_none (State.vperforms_fpend h) i).symm
  refine ⟨lanewise (s.task.guardBits o.f.guard) o.dt (s.task.getV o.d) fun i => (cvtOne s.task o i).bits, fun i hi => ?_, ?_⟩
  · rw [elem_lanewise _ _ _ _ hi, hy]
  · have hc (p : Rounded → Bool) : count p = (act.filter fun i => p (cvtOne s.task o i)).length := by simp only [count, hy]
    rw [hc, hc, exec_cvt h, cvtTask, countWord_eq (count_lt ..) (count_lt ..) (by decide), Nat.zero_mul, Nat.add_zero]
    cases o.cnt <;> rfl

end Sys2Proof.Machine
end

section
/-! PROOFS. Quantisation to an MX block (12:R214, 04:R74 to R78) and the special functions (12:R215, R216). -/

namespace Sys2Proof.Machine

/-! ### Quantising a block (04:R74 to R78) -/

/-- The elements of a list with their indices, as a function of the index. -/
theorem zipIdx_eq_map {α : Type} (l : List α) (d : α) : l.zipIdx = (List.range l.length).map fun i => (l[i]?.getD d, i) := by
  refine List.ext_getElem (by simp) fun i h1 h2 => ?_
  simp only [List.length_zipIdx] at h1
  simp [h1]

/-- What quantising under 2^k gives of element i. -/
def mxElem (ty : BitVec 5) (rnd : Rnd) (vals : List FVal) (act : Nat → Bool) (k : Int) (i : Nat) : Rounded :=
  if act i then roundTo ty rnd true ((vals[i]?.getD .nan).scale (-k)) else ⟨0, false, false⟩

section
variable (ty : BitVec 5) (rnd : Rnd) (vals : List FVal) (act : Nat → Bool) (k : Int)

theorem mxUnder_eq : mxUnder ty rnd vals act k = ⟨(k + 127).toNat, (List.range vals.length).map fun i => (mxElem ty rnd vals act k i).bits,
    ((List.range vals.length).filter fun i => (mxElem ty rnd vals act k i).clamp).length,
    ((List.range vals.length).filter fun i => (mxElem ty rnd vals act k i).under).length⟩ := by
  rw [mxUnder, zipIdx_eq_map vals .nan]
  simp only [List.map_map, List.filter_map, List.length_map]
  rfl

/-- An inactive element is neither clamped nor an underflow. -/
theorem mxElem_clamp (i : Nat) : (mxElem ty rnd vals act k i).clamp = (act i && (roundTo ty rnd true ((vals[i]?.getD .nan).scale (-k))).clamp) := by
  unfold mxElem
  cases act i <;> rfl

theorem mxElem_under (i : Nat) : (mxElem ty rnd vals act k i).under = (act i && (roundTo ty rnd true ((vals[i]?.getD .nan).scale (-k))).under) := by
  unfold mxElem
  cases act i <;> rfl

end

/-- The largest of a list's members is what folding `max` over it gives. -/
theorem foldl_max_eq {x l : Int} {r : List Int} (hm : l ∈ x :: r) (hb : ∀ m ∈ x :: r, m ≤ l) : r.foldl max x = l := by
  induction r generalizing x with
  | nil => exact (List.mem_singleton.1 hm).symm
  | cons y r ih =>
    rw [List.foldl_cons]
    have hx : x ≤ l := hb x (by simp)
    have hy : y ≤ l := hb y (by simp)
    refine ih ?_ fun m hmem => ?_
    · rcases List.mem_cons.1 hm with rfl | hm
      · rw [max_eq_left hy]; exact List.mem_cons_self
      · rcases List.mem_cons.1 hm with rfl | hm
        · rw [max_eq_right hx]; exact List.mem_cons_self
        · exact List.mem_cons_of_mem _ hm
    · rcases List.mem_cons.1 hmem with rfl | hmem
      · exact max_le hx hy
      · exact hb m (by simp [hmem])

/-- The exponent of standard mode (04:R77). -/
theorem mxExp_eq {ty : BitVec 5} {vals : List FVal} {l : Int} (hm : ∃ v ∈ vals, log2Of v = some l) (hb : ∀ v ∈ vals, ∀ m, log2Of v = some m → m ≤ l) :
    mxExp ty vals = some (max (-127) (min 127 (l - emaxOf ty))) := by
  have hmem : l ∈ vals.filterMap log2Of := List.mem_filterMap.2 hm
  have hle : ∀ m ∈ vals.filterMap log2Of, m ≤ l := by
    intro m h
    obtain ⟨v, hv, hvm⟩ := List.mem_filterMap.1 h
    exact hb v hv m hvm
  unfold mxExp
  revert hmem hle
  cases vals.filterMap log2Of with
  | nil => exact fun h => nomatch h
  | cons x r =>
    intro hmem hle
    simp only [foldl_max_eq hmem hle]
    rw [clampInt_eq (by decide)]

theorem mxExp_zeros {ty : BitVec 5} {vals : List FVal} (h : ∀ v ∈ vals, ∃ n k, v = .fin n 0 k) : mxExp ty vals = none := by
  have hnil : vals.filterMap log2Of = [] := by
    refine List.filterMap_eq_nil_iff.2 fun v hv => ?_
    obtain ⟨n, k, rfl⟩ := h v hv
    rfl
  rw [mxExp, hnil]

section
variable {ty : BitVec 5} {rnd : Rnd} {bal : Bool} {vals : List FVal} {act : Nat → Bool}

theorem mxQuantise_special (h : ∃ v ∈ vals, v = .nan ∨ ∃ n, v = .inf n) : mxQuantise ty rnd bal vals act = ⟨0xFF, vals.map fun _ => 0, 0, 0⟩ := by
  have hall : vals.all FVal.isFin = false := by
    obtain ⟨v, hv, hs⟩ := h
    refine List.all_eq_false.2 ⟨v, hv, ?_⟩
    rcases hs with rfl | ⟨n, rfl⟩ <;> exact Bool.false_ne_true
  rw [mxQuantise, hall]
  rfl

theorem mxQuantise_zeros (h : ∀ v ∈ vals, ∃ n k, v = .fin n 0 k) :
    mxQuantise ty rnd bal vals act = ⟨0, vals.map fun v => (roundTo ty rnd true v).bits, 0, 0⟩ := by
  have hall : vals.all FVal.isFin = true := by
    refine List.all_eq_true.2 fun v hv => ?_
    obtain ⟨n, k, rfl⟩ := h v hv
    rfl
  rw [mxQuantise, hall, mxExp_zeros h]
  rfl

/-- How many elements quantising under 2^k clamps and underflows (04:R77). -/
def mxLost (ty : BitVec 5) (rnd : Rnd) (vals : List FVal) (k : Int) : Nat :=
  ((List.range vals.length).filter fun i => (mxElem ty rnd vals (fun _ => true) k i).clamp).length
    + ((List.range vals.length).filter fun i => (mxElem ty rnd vals (fun _ => true) k i).under).length

theorem mxQuantise_finite {k : Int} (hf : ∀ v ∈ vals, v.isFin = true) (hk : mxExp ty vals = some k) :
    mxQuantise ty rnd bal vals act
      = mxUnder ty rnd vals act (if bal = true ∧ -127 < k ∧ mxLost ty rnd vals (k - 1) < mxLost ty rnd vals k then k - 1 else k) := by
  have hq : (bal && decide (-127 < k) && decide (mxLost ty rnd vals (k - 1) < mxLost ty rnd vals k)) = true
      ↔ bal = true ∧ -127 < k ∧ mxLost ty rnd vals (k - 1) < mxLost ty rnd vals k := by
    simp [and_assoc]
  have hl (k : Int) : (mxUnder ty rnd vals (fun _ => true) k).clamps + (mxUnder ty rnd vals (fun _ => true) k).under = mxLost ty rnd vals k := by
    rw [mxUnder_eq]
    rfl
  rw [mxQuantise, List.all_eq_true.2 hf, hk]
  simp only [hl, hq, Bool.not_true, Bool.false_eq_true, if_false]

end

/-- The exponent of standard mode is bounded (04:R77). -/
theorem mxExp_bounds {ty : BitVec 5} {vals : List FVal} {k : Int} (h : mxExp ty vals = some k) : -127 ≤ k ∧ k ≤ 127 := by
  unfold mxExp at h
  split at h
  · cases h
  · have hc := clampInt_eq (lo := -127) (hi := 127) (by decide)
    rw [hc] at h
    cases h
    omega

theorem filter_range_le (p : Nat → Bool) (n : Nat) : ((List.range n).filter p).length ≤ n :=
  (List.length_filter_le p _).trans_eq List.length_range

/-- The scale and the counts of a block fit their fields. -/
theorem mxQuantise_bounds (ty : BitVec 5) (rnd : Rnd) (bal : Bool) (vals : List FVal) (act : Nat → Bool) :
    (mxQuantise ty rnd bal vals act).scale < 256 ∧ (mxQuantise ty rnd bal vals act).clamps ≤ vals.length
      ∧ (mxQuantise ty rnd bal vals act).under ≤ vals.length := by
  by_cases hf : ∀ v ∈ vals, v.isFin = true
  · cases hk : mxExp ty vals with
    | none =>
      rw [mxQuantise, List.all_eq_true.2 hf, hk]
      exact ⟨show 0 < 256 by decide, Nat.zero_le _, Nat.zero_le _⟩
    | some k =>
      have hb := mxExp_bounds hk
      rw [mxQuantise_finite hf hk, mxUnder_eq]
      refine ⟨?_, filter_range_le .., filter_range_le ..⟩
      dsimp only
      split <;> omega
  · rw [mxQuantise, Bool.eq_false_iff.2 fun h => hf (List.all_eq_true.1 h)]
    exact ⟨show 0xFF < 256 by decide, Nat.zero_le _, Nat.zero_le _⟩

section
variable {s : State} {o : CvtMxArgs}

/-- The values `cvt.mx` quantises: element i of its group of source registers (12:R214). -/
def mxVals (t : Task) (o : CvtMxArgs) : List FVal :=
  (List.range 32).map fun i => elemValue o.st 0x7F (elem (t.getV (o.a + BitVec.ofNat 5 (i / lanesOf o.st))) o.st (i % lanesOf o.st))

def mxBlockOf (t : Task) (o : CvtMxArgs) : MxBlock :=
  mxQuantise o.dt o.rnd o.bal (mxVals t o) fun i => active (t.guardBits o.f.guard) o.dt (i % mxPer o.dt)

/-- Elements of the block in the register `d`, from element `k` on. -/
def mxLanes (t : Task) (o : CvtMxArgs) (d : Reg) (k : Nat) : VWord :=
  lanewise (t.guardBits o.f.guard) o.dt (t.getV d) fun i => (mxBlockOf t o).elems[k + i]?.getD 0

theorem mxPer_eq (ty : BitVec 5) : mxPer ty = if ty = 0x15 then 32 else 16 := by revert ty; decide

/-- The task that `cvt.mx` leaves: its block in one or two registers, its scale and counts in `c`. -/
def mxTask (now : Nat) (t : Task) (o : CvtMxArgs) : Task :=
  (if mxPer o.dt == 16 then (t.writeV now o.d (mxLanes t o o.d 0) 3).writeV now (o.d + 1) (mxLanes t o (o.d + 1) 16) 3
    else t.writeV now o.d (mxLanes t o o.d 0) 3).writeS now o.c (countWord (mxBlockOf t o).scale (mxBlockOf t o).clamps (mxBlockOf t o).under) 3

theorem mxTask_stepping (now : Nat) (t : Task) (o : CvtMxArgs) : (mxTask now t o).stepping = t.stepping := by
  unfold mxTask
  split <;> simp

theorem mxTask_pc (now : Nat) (t : Task) (o : CvtMxArgs) : (mxTask now t o).pc = t.pc := by
  unfold mxTask
  split <;> simp

theorem mxLanes_zero (t : Task) (o : CvtMxArgs) :
    (lanewise (t.guardBits o.f.guard) o.dt (t.getV o.d) fun i => (mxBlockOf t o).elems[i]?.getD 0) = mxLanes t o o.d 0 := by
  simp only [mxLanes, Nat.zero_add]

theorem mxTwo (ty : BitVec 5) : (if (mxPer ty == 16) = true then [.v r] else []) = if ty = 0x15 then [] else [RegId.v r] := by
  revert ty
  have (ty : BitVec 5) : (mxPer ty == 16) = !decide (ty = 0x15) := by revert ty; decide
  intro ty
  rw [this]
  by_cases h : ty = 0x15 <;> simp [h]

theorem exec_cvtMx (h : s.vperforms [.s o.c]
      (((List.range (mxGroup o.st)).map fun i => .v (o.a + BitVec.ofNat 5 i)) ++ .v o.d :: if o.dt = 0x15 then [] else [.v (o.d + 1)]) = true) :
    exec (.cvtMx o) s = .next (s.after (mxTask s.cycle s.task o) o.f.bytes) := by
  have hp := State.vperforms_fpend h
  rw [← mxTwo] at h
  have hrun (body : Task → State) : s.fmerge true (o.d :: if (mxPer o.dt == 16) = true then [o.d + 1] else []) [.s o.c]
      (groupReads o.a (mxGroup o.st) o.ea) body = body s.task := by
    refine State.fplain_performs rfl ?_
    rw [List.map_append, map_groupReads]
    generalize hg : (mxPer o.dt == 16) = g at h ⊢
    cases g <;> exact h
  have hend : s.completeWith (mxTask s.cycle s.task o) o.f.bytes = s.after (mxTask s.cycle s.task o) o.f.bytes :=
    State.completeWith_after (by rw [mxTask_stepping, State.vperforms_stepping h]) (mxTask_pc ..)
  have hbody : execCvtMx o s = .next (s.fmerge true (o.d :: if (mxPer o.dt == 16) = true then [o.d + 1] else []) [.s o.c]
      (groupReads o.a (mxGroup o.st) o.ea) fun t => s.completeWith (mxTask s.cycle t o) o.f.bytes) := by
    refine congrArg Host.Outcome.next ((if_neg (by simp [hp])).trans ?_)
    refine congrArg (s.fmerge true _ [.s o.c] _) (funext fun t => ?_)
    simp only [mxTask, mxLanes, mxBlockOf, mxVals, Nat.zero_add]
  exact hbody.trans (congrArg _ ((hrun _).trans hend))

theorem length_mxVals (t : Task) (o : CvtMxArgs) : (mxVals t o).length = 32 := by rw [mxVals, List.length_map, List.length_range]

theorem elem_mxLanes (t : Task) (o : CvtMxArgs) (d : Reg) (k : Nat) {i : Nat} (hi : i < lanesOf o.dt) :
    elem (mxLanes t o d k) o.dt i = if active (t.guardBits o.f.guard) o.dt i then ((mxBlockOf t o).elems[k + i]?.getD 0) % 2 ^ elemBits o.dt
      else elem (t.getV d) o.dt i := elem_lanewise _ _ _ _ hi

/-- The word of the scale and the counts (12:R214). -/
theorem mxCountWord (t : Task) (o : CvtMxArgs) : countWord (mxBlockOf t o).scale (mxBlockOf t o).clamps (mxBlockOf t o).under
    = BitVec.ofNat 64 ((mxBlockOf t o).under + (mxBlockOf t o).clamps * 2 ^ 8 + (mxBlockOf t o).scale * 2 ^ 16) := by
  obtain ⟨hs, hc, hu⟩ := mxQuantise_bounds o.dt o.rnd o.bal (mxVals t o) fun i => active (t.guardBits o.f.guard) o.dt (i % mxPer o.dt)
  rw [length_mxVals] at hc hu
  exact countWord_eq (show (mxBlockOf t o).under < 64 from Nat.lt_of_le_of_lt hu (by decide))
    (show (mxBlockOf t o).clamps < 64 from Nat.lt_of_le_of_lt hc (by decide)) hs

/-- An active element of a finite block, under the exponent `k`. -/
theorem mxUnder_elem {ty : BitVec 5} {rnd : Rnd} {vals : List FVal} {act : Nat → Bool} {k : Int} {i : Nat} (hi : i < vals.length) (ha : act i = true) :
    (mxUnder ty rnd vals act k).elems[i]? = some (roundTo ty rnd true ((vals[i]?.getD .nan).scale (-k))).bits := by
  rw [mxUnder_eq, List.getElem?_map, List.getElem?_range hi, Option.map_some, mxElem, if_pos ha]

theorem mxElem_all (ty : BitVec 5) (rnd : Rnd) (vals : List FVal) (k : Int) (i : Nat) :
    mxElem ty rnd vals (fun _ => true) k i = roundTo ty rnd true ((vals[i]?.getD .nan).scale (-k)) := if_pos rfl

end

/-! ### Special functions (12:R215, R216) -/

namespace State
variable {s : State} {o : VUn} {f : SfuFn}

/-- The state in which a request is made: its token is drawn, or one that the task holds serves. -/
def sfuDrawn (s : State) (t : Task) : State :=
  if s.holdsFree t 3 then s else (s.poolServed t (poolKey (coreOf s.cur) 3)).poolDraw t.part (poolKey (coreOf s.cur) 3) 1

theorem sfuDrawn_eq (s : State) (t : Task) : ∃ p, s.sfuDrawn t = { s with parts := p } := by
  unfold sfuDrawn
  split
  · exact ⟨s.parts, rfl⟩
  · obtain ⟨p, hp⟩ := s.modPart_eq t.part _
    rw [poolServed, poolPut, hp, poolDraw, poolPut]
    exact (modPart_eq _ _ _).imp fun q hq => hq

/-- The request that a special-function instruction leaves. -/
def sfuReq (s : State) (t : Task) (o : VUn) (f : SfuFn) : SfuReq :=
  let r := (s.sfuDrawn t).sfuTake (clusterOf (coreOf s.cur)) (lanesOf o.ty)
  { tag := (s.sfuDrawn t).tagCtr, owner := t.gtid, part := t.part, cluster := clusterOf (coreOf s.cur), last := r.1, used := r.2
    key := (s.sfuDrawn t).cur, dst := o.d, value := (s.sfuDrawn t).sfuResult t o f, drawn := !s.holdsFree t 3 }

theorem sfuReq_tag (s : State) (t : Task) (o : VUn) (f : SfuFn) : (s.sfuReq t o f).tag = s.tagCtr := by
  obtain ⟨p, hp⟩ := s.sfuDrawn_eq t
  rw [sfuReq, hp]

/-- The state with the request on the ring. -/
def sfuAsked (s : State) (t : Task) (o : VUn) (f : SfuFn) : State :=
  { s.sfuDrawn t with tagCtr := (s.sfuDrawn t).tagCtr + 1, freeCtr := (s.sfuDrawn t).freeCtr + 1
                      net := { (s.sfuDrawn t).net with sfu := (s.sfuDrawn t).net.sfu ++ [s.sfuReq t o f] } }

theorem sfu_asks (h : s.vperforms [] [.v o.a, .v o.d] = true)
    (hd : s.holdsFree s.task 3 = true ∨ (0 < s.poolFree s.task.part (poolKey (coreOf s.cur) 3) ∧ s.firstInPool s.task (poolKey (coreOf s.cur) 3) = true)) :
    s.sfu o f = ((s.sfuAsked s.task o f).completeWith (s.task.markEmpty (.v o.d)) o.f.bytes).park 4 (.full (.v o.d)) := by
  have hok : prefixOk s.task o.ty false = true := by simp [prefixOk, vperforms_fpend h]
  have hw : (!s.holdsFree s.task 3 && !(decide (0 < s.poolFree s.task.part (poolKey (coreOf s.cur) 3)) && s.firstInPool s.task (poolKey (coreOf s.cur) 3)))
      = false := by
    rcases hd with hd | ⟨h1, h2⟩
    · simp [hd]
    · simp [h1, h2]
  rw [sfu, fmerge, fplain_performs hok h]
  exact if_neg (Bool.eq_false_iff.1 hw)

/-- A request on the ring: the task has gone on and waits for its result (02:R36). -/
theorem sfu_leaves (h : s.vperforms [] [.v o.a, .v o.d] = true)
    (hd : s.holdsFree s.task 3 = true ∨ (0 < s.poolFree s.task.part (poolKey (coreOf s.cur) 3) ∧ s.firstInPool s.task (poolKey (coreOf s.cur) 3) = true)) :
    (s.sfu o f).task = s.leftParked (s.task.markEmpty (.v o.d)) o.f.bytes 4 (.full (.v o.d)) ∧ (s.sfu o f).mem = s.mem
      ∧ (s.sfu o f).net = { s.net with sfu := s.net.sfu ++ [s.sfuReq s.task o f] } := by
  have hst := vperforms_stepping h
  obtain ⟨p, hp⟩ := s.sfuDrawn_eq s.task
  have htask : (s.sfuAsked s.task o f).task = s.task := by
    rw [sfuAsked, hp]
    rfl
  rw [sfu_asks h hd, completeWith_after (by simpa using hst) (by rw [htask]; simp), park_eq (by simp [after, hst])]
  refine ⟨?_, ?_, ?_⟩
  · rw [task_recordSched, task_setTask]
    simp [leftParked, goneOn, after, htask]
  · simp [after, sfuAsked, hp]
  · simp only [sfuAsked, hp]
    rfl

end State

section
variable {ty : BitVec 5} {rnd : Rnd} {bal : Bool} {vals : List FVal} {act : Nat → Bool}

/-- A block with an infinity or a NaN (04:R76). -/
theorem mx_special (hlen : vals.length = 32) (h : ∃ v ∈ vals, v = .nan ∨ ∃ n, v = .inf n) :
    (mxQuantise ty rnd bal vals act).scale = 0xFF ∧ (∀ i, i < 32 → (mxQuantise ty rnd bal vals act).elems[i]? = some 0)
      ∧ (mxQuantise ty rnd bal vals act).clamps = 0 ∧ (mxQuantise ty rnd bal vals act).under = 0 := by
  rw [mxQuantise_special h]
  refine ⟨rfl, fun i hi => ?_, rfl, rfl⟩
  rw [List.getElem?_map, List.getElem?_eq_getElem (hlen ▸ hi)]
  rfl

theorem mx_zeros (h : ∀ v ∈ vals, ∃ n k, v = .fin n 0 k) :
    (mxQuantise ty rnd bal vals act).scale = 0 ∧ (mxQuantise ty rnd bal vals act).clamps = 0 ∧ (mxQuantise ty rnd bal vals act).under = 0
      ∧ ∀ (i : Nat) (v : FVal), vals[i]? = some v → (mxQuantise ty rnd bal vals act).elems[i]? = some (roundTo ty rnd true v).bits := by
  rw [mxQuantise_zeros h]
  exact ⟨rfl, rfl, rfl, fun i v hv => by rw [List.getElem?_map, hv]; rfl⟩

/-- How many elements of a block of 32 are lost under 2^k. -/
theorem mxLost_eq (hlen : vals.length = 32) (k : Int) : mxLost ty rnd vals k
    = ((List.range 32).filter fun i => (roundTo ty rnd true ((vals[i]?.getD .nan).scale (-k))).clamp).length
      + ((List.range 32).filter fun i => (roundTo ty rnd true ((vals[i]?.getD .nan).scale (-k))).under).length := by
  simp only [mxLost, hlen, mxElem_all]

/-- What a finite block has under the exponent `q`. -/
theorem mxUnder_block (hlen : vals.length = 32) (q : Int) :
    (mxUnder ty rnd vals act q).scale = (q + 127).toNat
      ∧ (mxUnder ty rnd vals act q).clamps
        = ((List.range 32).filter fun i => act i && (roundTo ty rnd true ((vals[i]?.getD .nan).scale (-q))).clamp).length
      ∧ (mxUnder ty rnd vals act q).under
        = ((List.range 32).filter fun i => act i && (roundTo ty rnd true ((vals[i]?.getD .nan).scale (-q))).under).length
      ∧ ∀ i, i < 32 → act i = true → (mxUnder ty rnd vals act q).elems[i]? = some (roundTo ty rnd true ((vals[i]?.getD .nan).scale (-q))).bits := by
  refine ⟨by rw [mxUnder_eq], by simp only [mxUnder_eq, hlen, mxElem_clamp], by simp only [mxUnder_eq, hlen, mxElem_under],
    fun i hi ha => mxUnder_elem (hlen ▸ hi) ha⟩

end

/-- The greatest exponents of the element formats (04:R74). -/
theorem emaxOf_formats : ∀ e ∈ [(0x11, (15 : Int)), (0x12, 8), (0x13, 4), (0x14, 2), (0x15, 2), (0x16, 0)], emaxOf (BitVec.ofNat 5 e.1) = e.2 := by decide

/-- The request that a special-function instruction leaves, element by element (12:R216). -/
theorem State.sfuReq_value {s : State} {o : VUn} {f : SfuFn} (hp : s.task.fpend = false) {i : Nat} (hi : i < lanesOf o.ty) :
    if active (s.task.guardBits o.f.guard) o.ty i then
      ∀ n, sfuRound o.ty o.rnd o.sat (sfuValue f (elemValue o.ty 0x7F (elem (s.task.getV o.a) o.ty i))) = some n →
        elem (s.sfuReq s.task o f).value o.ty i = n % 2 ^ elemBits o.ty
    else elem (s.sfuReq s.task o f).value o.ty i = elem (s.task.getV o.d) o.ty i := by
  have he := elem_lanewise (s.task.guardBits o.f.guard) o.ty (s.task.getV o.d) (fun i =>
    (sfuRound o.ty o.rnd o.sat (sfuValue f (fpA s.task o.ty o.a i))).getD
      ((Config.freeVec (s.sfuDrawn s.task).freeCtr).toNat / 2 ^ (i * elemBits o.ty) % 2 ^ elemBits o.ty)) hi
  rw [fpA_none hp] at he
  split
  next ha =>
    intro n hn
    rw [hn, if_pos ha] at he
    exact he
  next ha =>
    rw [if_neg ha] at he
    exact he

/-- Each special-function instruction computes its function (12:R215). -/
theorem exec_sfu (s : State) (o : VUn) :
    ∀ e ∈ [(Instr.sfuExp o, SfuFn.exp), (.sfuLog o, .log), (.sfuRcp o, .rcp), (.sfuRsqrt o, .rsqrt), (.sfuSqrt o, .sqrt), (.sfuSin o, .sin),
      (.sfuCos o, .cos), (.sfuTanh o, .tanh), (.sfuSigm o, .sigm)], exec e.1 s = .next (s.sfu o e.2) := by
  simp only [List.forall_mem_cons]
  exact ⟨rfl, rfl, rfl, rfl, rfl, rfl, rfl, rfl, rfl, List.forall_mem_nil _⟩

/-- Settles O20. -/
theorem quantisationAndSpecialFunctions : Obligations.QuantisationAndSpecialFunctions := by
  unfold Obligations.QuantisationAndSpecialFunctions
  refine ⟨⟨fun s o h => ?_, fun e he rnd bal vals act hlen => ⟨mx_special hlen, mx_zeros, fun l hf hm hb => ?_⟩⟩, fun s o h hd e he => ?_,
    fun n m k => ?_⟩
  · refine ⟨mxLanes s.task o o.d 0, mxLanes s.task o (o.d + 1) 16, ?_, fun i hi => ⟨?_, ?_⟩⟩
    · rw [exec_cvtMx h, mxTask, mxCountWord]
      by_cases hd : o.dt = 0x15
      · simp only [mxBlockOf, mxVals, mxPer_eq, hd]
        rfl
      · simp only [mxBlockOf, mxVals, mxPer_eq, hd]
        rfl
    · have := elem_mxLanes s.task o o.d 0 hi
      rw [Nat.zero_add, mxBlockOf, mxPer_eq] at this
      exact this
    · have := elem_mxLanes s.task o (o.d + 1) 16 hi
      rw [mxBlockOf, mxPer_eq] at this
      exact this
  · have hk := mxExp_eq (ty := BitVec.ofNat 5 e.1) hm hb
    rw [emaxOf_formats e he] at hk
    have hq := mxQuantise_finite (rnd := rnd) (bal := bal) (act := act) hf hk
    simp only [mxLost_eq hlen] at hq
    intro k R lost q
    rw [show mxQuantise _ rnd bal vals act = mxUnder _ rnd vals act q from hq]
    exact mxUnder_block hlen q
  · obtain ⟨ht, hmem, hnet⟩ := State.sfu_leaves (f := e.2) h hd
    exact ⟨s.sfu o e.2, s.sfuReq s.task o e.2, exec_sfu s o e he, ht, hmem, hnet, rfl, rfl, State.sfuReq_tag .., rfl,
      fun i hi => State.sfuReq_value (State.vperforms_fpend h) hi⟩
  · intro z one at_
    have hneg (f : SfuFn) (hf : f = .log ∨ f = .rsqrt ∨ f = .sqrt) (hm : m ≠ 0) : at_ f (.fin true m k) .nan := by
      rcases hf with rfl | rfl | rfl <;> exact (if_neg hm).trans rfl
    exact ⟨fun f => rfl, rfl, rfl, rfl, rfl, rfl, rfl, hneg _ (.inl rfl), rfl, rfl, rfl, rfl, rfl, hneg _ (.inr (.inl rfl)), rfl, rfl, rfl,
      hneg _ (.inr (.inr rfl)), rfl, rfl, rfl, rfl, rfl, rfl, rfl, rfl, rfl⟩

end Sys2Proof.Machine
end

section
/-! PROOFS. The canonical form of memory is kept by every step (assumption 8). -/
namespace Sys2Proof.Machine

@[simp] theorem wf_memWrite {m : Mem} {a : Nat} {bs : List Byte} (hw : Mem.wf m = true) : Mem.wf (memWrite m a bs) = true := memWrite_wf bs a hw

@[simp] theorem wf_memClear {m : Mem} {lo hi : Nat} (hw : Mem.wf m = true) : Mem.wf (memClear m lo hi) = true := memClear_wf lo hi hw

/-! What an operation that may also wait, refuse or fail leaves: every state in it has a canonical memory. -/

def EngOut.Canon : EngOut → Prop
  | .done _ s => Mem.wf s.mem = true
  | .go _ s => Mem.wf s.mem = true
  | .wait => True

@[simp] theorem EngOut.canon_done {r : CmdResult} {s : State} : (EngOut.done r s).Canon ↔ Mem.wf s.mem = true := Iff.rfl
@[simp] theorem EngOut.canon_go {c : Cmd} {s : State} : (EngOut.go c s).Canon ↔ Mem.wf s.mem = true := Iff.rfl
@[simp] theorem EngOut.canon_wait : EngOut.wait.Canon := trivial

def Reach.Canon : Reach → Prop
  | .ok _ s => Mem.wf s.mem = true
  | _ => True

@[simp] theorem Reach.canon_ok {ps : List Piece} {s : State} : (Reach.ok ps s).Canon ↔ Mem.wf s.mem = true := Iff.rfl

def State.Home.Canon : State.Home → Prop
  | .done _ s => Mem.wf s.mem = true
  | _ => True

@[simp] theorem State.Home.canon_done {v : Nat} {s : State} : (State.Home.done v s).Canon ↔ Mem.wf s.mem = true := Iff.rfl

def SaveOut.Canon : SaveOut → Prop
  | .saved s _ => Mem.wf s.mem = true
  | .wait s => Mem.wf s.mem = true
  | .gone s => Mem.wf s.mem = true
  | .failed s _ => Mem.wf s.mem = true

@[simp] theorem SaveOut.canon_saved {n : Nat} {s : State} : (SaveOut.saved s n).Canon ↔ Mem.wf s.mem = true := Iff.rfl
@[simp] theorem SaveOut.canon_wait {s : State} : (SaveOut.wait s).Canon ↔ Mem.wf s.mem = true := Iff.rfl
@[simp] theorem SaveOut.canon_gone {s : State} : (SaveOut.gone s).Canon ↔ Mem.wf s.mem = true := Iff.rfl
@[simp] theorem SaveOut.canon_failed {s : State} {e : VaFail} : (SaveOut.failed s e).Canon ↔ Mem.wf s.mem = true := Iff.rfl

def AskOut.Canon : AskOut → Prop
  | .reply _ s => Mem.wf s.mem = true
  | .wait s => Mem.wf s.mem = true
  | .refuse => True

@[simp] theorem AskOut.canon_reply {w : Word} {s : State} : (AskOut.reply w s).Canon ↔ Mem.wf s.mem = true := Iff.rfl
@[simp] theorem AskOut.canon_wait {s : State} : (AskOut.wait s).Canon ↔ Mem.wf s.mem = true := Iff.rfl
@[simp] theorem AskOut.canon_refuse : AskOut.refuse.Canon := trivial

def State.RestOut.Canon : State.RestOut → Prop
  | .wait s => Mem.wf s.mem = true
  | _ => True

@[simp] theorem State.RestOut.canon_wait {s : State} : (State.RestOut.wait s).Canon ↔ Mem.wf s.mem = true := Iff.rfl
@[simp] theorem State.RestOut.canon_code {c : Nat} : (State.RestOut.code c).Canon := trivial
@[simp] theorem State.RestOut.canon_go {v : Saved} {t : Task} : (State.RestOut.go v t).Canon := trivial

/-- What a step leaves has a canonical memory. -/
def outCanon : Out → Prop
  | .next s => Mem.wf s.mem = true
  | _ => True

@[simp] theorem outCanon_next {s : State} : outCanon (.next s) ↔ Mem.wf s.mem = true := Iff.rfl
@[simp] theorem outCanon_fault {r : Fault} : outCanon (.fault r) := trivial
@[simp] theorem outCanon_refused {r : Refusal} : outCanon (.refused r) := trivial

theorem forall_mem_orElse {α : Type} {P : α → Prop} {o : Option α} {f : Unit → Option α} (ho : ∀ r ∈ o, P r) (hf : ∀ r ∈ f (), P r) :
    ∀ r ∈ o.orElse f, P r := by
  cases o with
  | none => exact hf
  | some a => exact ho

namespace State

@[simp] theorem mem_ite (c : Prop) [Decidable c] (a b : State) : (if c then a else b).mem = if c then a.mem else b.mem := apply_ite ..

@[simp] theorem mem_foldl {α : Type} {g : State → α → State} (hg : ∀ s x, (g s x).mem = s.mem) (l : List α) (s : State) : (l.foldl g s).mem = s.mem := by
  induction l generalizing s with
  | nil => rfl
  | cons x l ih => rw [List.foldl_cons, ih, hg]

@[simp] theorem memWf_ite {c : Prop} [Decidable c] {a b : Mem} :
    Mem.wf (if c then a else b) = true ↔ (c → Mem.wf a = true) ∧ (¬ c → Mem.wf b = true) := by
  split <;> simp [*]

@[simp] theorem memWf_foldl {α : Type} {g : State → α → State} (hg : ∀ s x, Mem.wf s.mem = true → Mem.wf (g s x).mem = true) (l : List α) {s : State}
    (hw : Mem.wf s.mem = true) : Mem.wf (l.foldl g s).mem = true := by
  induction l generalizing s with
  | nil => exact hw
  | cons x l ih => exact ih (hg s x hw)

variable {s : State}

/-! ### Machine/Ops -/

@[simp] theorem mem_debugReply (session : ℕ) (part : ℕ) (id : BitVec 32) (code : ℕ) (status : ℕ) (data : List Byte) : (s.debugReply session part id code status data).mem = s.mem := by simp [debugReply]

@[simp] theorem mem_postStop (part : ℕ) (r : VWord) : (s.postStop part r).mem = s.mem := by
  unfold postStop
  dsimp only
  repeat' split
  all_goals simp

@[simp] theorem mem_stopTask (key : ℕ) (cause : BitVec 6) (skid : ℕ) : (s.stopTask key cause skid).mem = s.mem := by simp [stopTask]

@[simp] theorem mem_finish (pc : Word) (prefixed : Bool) : (s.finish pc prefixed).mem = s.mem := by simp [finish]

@[simp] theorem mem_complete (len : ℕ) : (s.complete len).mem = s.mem := by simp [complete]

@[simp] theorem mem_completeWith (t : Task) (len : ℕ) : (s.completeWith t len).mem = s.mem := by simp [completeWith]

@[simp] theorem mem_branch (t : Task) (pc : Word) : (s.branch t pc).mem = s.mem := by simp [branch]

@[simp] theorem mem_park (row : ℕ) (w : Wake) : (s.park row w).mem = s.mem := by simp [park]

@[simp] theorem mem_parkOn (r : RegId) : (s.parkOn r).mem = s.mem := by simp [parkOn]

@[simp] theorem memWf_toWrite (hw : Mem.wf s.mem = true) (dsts : List RegId) (k : State) (h0 : Mem.wf k.mem = true) : Mem.wf (s.toWrite dsts k).mem = true := by
  unfold toWrite
  split <;> simp [hw, h0]

@[simp] theorem mem_poolPut (part : ℕ) (k : ℕ) (f : Pool → Pool) : (s.poolPut part k f).mem = s.mem := by simp [poolPut]

@[simp] theorem mem_poolReturn (part : ℕ) (k : ℕ) (n : ℕ) : (s.poolReturn part k n).mem = s.mem := by simp [poolReturn]

@[simp] theorem mem_poolDraw (part : ℕ) (k : ℕ) (n : ℕ) : (s.poolDraw part k n).mem = s.mem := by simp [poolDraw]

@[simp] theorem mem_keepTokens (g : Word) (cls : ℕ) (n : ℕ) : (s.keepTokens g cls n).mem = s.mem := by simp [keepTokens]

@[simp] theorem mem_giveTokens (part : ℕ) (g : Word) (core : ℕ) (cls : ℕ) (held : ℕ) (n : ℕ) : (s.giveTokens part g core cls held n).mem = s.mem := by simp [giveTokens]

@[simp] theorem mem_dropTokens (t : Task) (core : ℕ) : (s.dropTokens t core).mem = s.mem := by simp [dropTokens]

@[simp] theorem mem_moveFence (g : Word) : (s.moveFence g).mem = s.mem := by simp [moveFence]

@[simp] theorem memWf_storeNat (hw : Mem.wf s.mem = true) (a : ℕ) (n : ℕ) (x : ℕ) : Mem.wf (s.storeNat a n x).mem = true := by simp [storeNat, hw]

@[simp] theorem memWf_uncount (hw : Mem.wf s.mem = true) (a : ℕ) : Mem.wf (s.uncount a).mem = true := by simp [uncount, hw]

@[simp] theorem mem_bankAt (tile : ℕ) (now : ℕ) (acc : Bool) (bank : ℕ) : (s.bankAt tile now acc bank).2.mem = s.mem := by simp [bankAt]

@[simp] theorem mem_tileBank (part : ℕ) (vt : ℕ) (acc : Bool) (w : ℕ) : (s.tileBank part vt acc w).2.mem = s.mem := by
  unfold tileBank
  split <;> simp

@[simp] theorem memWf_sendUncount (hw : Mem.wf s.mem = true) (key : ℕ) (part : ℕ) (g : Word) (a : ℕ) : Mem.wf (s.sendUncount key part g a).mem = true := by simp [sendUncount, hw]

@[simp] theorem mem_freeSlot (key : ℕ) : (s.freeSlot key).mem = s.mem := by simp [freeSlot]

@[simp] theorem mem_orphanCmds (g : Word) : (s.orphanCmds g).mem = s.mem := by simp [orphanCmds]

@[simp] theorem mem_orphan (g : Word) : (s.orphan g).mem = s.mem := by simp [orphan]

@[simp] theorem mem_unwait (part : ℕ) (g : Word) : (s.unwait part g).mem = s.mem := by simp [unwait]

@[simp] theorem mem_leaveGang (id : ℕ) (rank : ℕ) : (s.leaveGang id rank).mem = s.mem := by
  unfold leaveGang
  split <;> simp

@[simp] theorem memWf_afterAll (hw : Mem.wf s.mem = true) (t : Task) (key : ℕ) (op : HeldOp) (now : State) (h0 : Mem.wf now.mem = true) : Mem.wf (s.afterAll t key op now).mem = true := by simp [afterAll, hw, h0]

@[simp] theorem mem_rootDone (t : Task) : (s.rootDone t).mem = s.mem := by
  unfold rootDone
  dsimp only
  repeat' split
  all_goals simp

@[simp] theorem memWf_ended (hw : Mem.wf s.mem = true) (t : Task) (key : ℕ) : Mem.wf (s.ended t key).mem = true := by
  unfold ended
  dsimp only
  repeat' split
  all_goals simp (disch := simp [hw]) [hw]

@[simp] theorem memWf_retire (hw : Mem.wf s.mem = true) (key : ℕ) (cause : ℕ) : Mem.wf (s.retire key cause).mem = true := by simp [retire, hw]

@[simp] theorem mem_arriveAt (id : ℕ) (rank : ℕ) : (s.arriveAt id rank).mem = s.mem := by
  unfold arriveAt
  split <;> simp

@[simp] theorem mem_pushBottom (core : ℕ) (t : Task) : (s.pushBottom core t).mem = s.mem := by simp [pushBottom]

@[simp] theorem mem_pushTop (core : ℕ) (t : Task) : (s.pushTop core t).mem = s.mem := by simp [pushTop]

@[simp] theorem mem_hintYield  : (s.hintYield).mem = s.mem := by simp [hintYield]

@[simp] theorem mem_yieldTask (t : Task) : (s.yieldTask t).mem = s.mem := by simp [yieldTask]

@[simp] theorem mem_logPut (kind : ℕ) (world : BitVec 4) (payload : List Byte) : (s.logPut kind world payload).mem = s.mem := by simp [logPut]

@[simp] theorem memWf_postEvent (hw : Mem.wf s.mem = true) (rec : List Byte) : Mem.wf (s.postEvent rec).mem = true := by simp [postEvent, hw]

@[simp] theorem mem_requestPreempt (part : ℕ) (hold : Bool) (gtids : List Word) : (s.requestPreempt part hold gtids).mem = s.mem := by
  unfold requestPreempt
  split <;> simp

@[simp] theorem memWf_spreadFreeze (hw : Mem.wf s.mem = true) (z : Freeze) : Mem.wf (s.spreadFreeze z).mem = true := by simp +contextual [spreadFreeze, hw]

@[simp] theorem memWf_raiseFreeze (hw : Mem.wf s.mem = true) (core : ℕ) (cause : BitVec 6) (world : BitVec 4) : Mem.wf (s.raiseFreeze core cause world).mem = true := by simp [raiseFreeze, hw]

@[simp] theorem mem_mapTasks (u : Task → Task) : (s.mapTasks u).mem = s.mem := by simp [mapTasks]

@[simp] theorem memWf_fatal (hw : Mem.wf s.mem = true) (core : ℕ) (cause : BitVec 6) : Mem.wf (s.fatal core cause).mem = true := by simp [fatal, hw]

@[simp] theorem memWf_toFirmware (hw : Mem.wf s.mem = true) (e : Exc) (retPc : Word) : Mem.wf (s.toFirmware e retPc).mem = true := by simp [toFirmware, hw]

@[simp] theorem mem_enterSupervisor (e : Exc) (retPc : Word) : (s.enterSupervisor e retPc).mem = s.mem := by simp [enterSupervisor]

@[simp] theorem mem_recordTrapAddr (e : Exc) : (s.recordTrapAddr e).mem = s.mem := by simp [recordTrapAddr]

@[simp] theorem memWf_takeAt (hw : Mem.wf s.mem = true) (e : Exc) (retPc : Word) : Mem.wf (s.takeAt e retPc).mem = true := by
  unfold takeAt
  dsimp only
  repeat' split
  all_goals simp [hw]

@[simp] theorem memWf_trap (hw : Mem.wf s.mem = true) (e : Exc) : Mem.wf (s.trap e).mem = true := by simp [trap, hw]

@[simp] theorem memWf_trapC (hw : Mem.wf s.mem = true) (c : BitVec 6) : Mem.wf (s.trapC c).mem = true := by simp [trapC, hw]

@[simp] theorem memWf_trapSource (hw : Mem.wf s.mem = true) (c : BitVec 6) : Mem.wf (s.trapSource c).mem = true := by simp [trapSource, hw]

@[simp] theorem memWf_plainG (hw : Mem.wf s.mem = true) (g : Guard) (len : ℕ) (dsts : List RegId) (srcs : List (RegId × Bool)) (body : Task → State) (hk0 : ∀ x0, Mem.wf (body x0).mem = true) : Mem.wf (s.plainG g len dsts srcs body).mem = true := by
  unfold plainG
  dsimp only
  repeat' split
  all_goals simp [hw, hk0]

@[simp] theorem memWf_plain (hw : Mem.wf s.mem = true) (f : Form) (dsts : List RegId) (srcs : List (RegId × Bool)) (body : Task → State) (hk0 : ∀ x0, Mem.wf (body x0).mem = true) : Mem.wf (s.plain f dsts srcs body).mem = true := by simp [plain, hw, hk0]

@[simp] theorem memWf_privileged (hw : Mem.wf s.mem = true) (body : State) (h0 : Mem.wf body.mem = true) : Mem.wf (s.privileged body).mem = true := by simp [privileged, hw, h0]

/-! ### Machine/VectorInt -/

@[simp] theorem memWf_vplain (hw : Mem.wf s.mem = true) (dsts : List RegId) (srcs : List (RegId × Bool)) (body : Task → State) (hk0 : ∀ x0, Mem.wf (body x0).mem = true) : Mem.wf (s.vplain dsts srcs body).mem = true := by
  unfold vplain
  dsimp only
  repeat' split
  all_goals simp [hw, hk0]

@[simp] theorem memWf_vmerge (hw : Mem.wf s.mem = true) (dsts : List Reg) (srcs : List (RegId × Bool)) (body : Task → State) (hk0 : ∀ x0, Mem.wf (body x0).mem = true) : Mem.wf (s.vmerge dsts srcs body).mem = true := by simp [vmerge, hw, hk0]

@[simp] theorem memWf_vint2 (hw : Mem.wf s.mem = true) (o : VArgs) (signedLit : Bool) (f : ℕ → ℕ → ℕ) : Mem.wf (s.vint2 o signedLit f).mem = true := by simp [vint2, hw]

@[simp] theorem memWf_vintArith (hw : Mem.wf s.mem = true) (o : VArgs) (f : ℤ → ℤ → ℤ) : Mem.wf (s.vintArith o f).mem = true := by simp [vintArith, hw]

@[simp] theorem memWf_vint1 (hw : Mem.wf s.mem = true) (o : VUn) (f : ℤ → ℤ) : Mem.wf (s.vint1 o f).mem = true := by simp [vint1, hw]

@[simp] theorem memWf_vintCmp (hw : Mem.wf s.mem = true) (o : VCmp) (f : ℤ → ℤ → Bool) : Mem.wf (s.vintCmp o f).mem = true := by simp [vintCmp, hw]

/-! ### Machine/VectorFloat -/

@[simp] theorem memWf_fplain (hw : Mem.wf s.mem = true) (ok : Bool) (dsts : List RegId) (srcs : List (RegId × Bool)) (body : Task → State) (hk0 : ∀ x0, Mem.wf (body x0).mem = true) : Mem.wf (s.fplain ok dsts srcs body).mem = true := by
  unfold fplain
  dsimp only
  repeat' split
  all_goals simp [hw, hk0]

@[simp] theorem memWf_fmerge (hw : Mem.wf s.mem = true) (ok : Bool) (vds : List Reg) (dsts : List RegId) (srcs : List (RegId × Bool)) (body : Task → State) (hk0 : ∀ x0, Mem.wf (body x0).mem = true) : Mem.wf (s.fmerge ok vds dsts srcs body).mem = true := by simp [fmerge, hw, hk0]

@[simp] theorem memWf_vfp2 (hw : Mem.wf s.mem = true) (o : VFArgs) (f : FVal → FVal → FVal) : Mem.wf (s.vfp2 o f).mem = true := by simp [vfp2, hw]

@[simp] theorem memWf_vfp1 (hw : Mem.wf s.mem = true) (o : VUn) (f : FVal → FVal) : Mem.wf (s.vfp1 o f).mem = true := by simp [vfp1, hw]

@[simp] theorem memWf_vfpCmp (hw : Mem.wf s.mem = true) (o : VFCmp) (f : FVal → FVal → Bool) : Mem.wf (s.vfpCmp o f).mem = true := by simp [vfpCmp, hw]

@[simp] theorem memWf_vfma (hw : Mem.wf s.mem = true) (o : VFma) (f : FVal → FVal → FVal) : Mem.wf (s.vfma o f).mem = true := by simp [vfma, hw]

/-! ### Machine/Sfu -/

@[simp] theorem mem_poolWait (t : Task) (k : ℕ) : (s.poolWait t k).mem = s.mem := by simp [poolWait]

@[simp] theorem mem_poolServed (t : Task) (k : ℕ) : (s.poolServed t k).mem = s.mem := by simp [poolServed]

@[simp] theorem memWf_sfu (hw : Mem.wf s.mem = true) (o : VUn) (f : SfuFn) : Mem.wf (s.sfu o f).mem = true := by simp [sfu, hw]

/-! ### Machine/Access -/

@[simp] theorem memWf_coreStore (hw : Mem.wf s.mem = true) (a : ℕ) (n : ℕ) (x : ℕ) : Mem.wf (s.coreStore a n x).mem = true := by simp [coreStore, hw]

theorem memWf_perform (hw : Mem.wf s.mem = true) (a : ℕ) (op : AccOp) {x : ℕ} {u : State} (hu : s.perform a op = some (x, u)) : Mem.wf u.mem = true := by
  cases op <;> grind [perform, memWf_coreStore, dirty_mem, setFe_mem, memWf_uncount]

@[simp] theorem mem_setDomain (part : ℕ) (d : Domain) : (s.setDomain part d).mem = s.mem := by simp [setDomain]

@[simp] theorem mem_modDomain (k : ℕ) (f : Domain → Domain) : (s.modDomain k f).mem = s.mem := by
  unfold modDomain
  split <;> simp

@[simp] theorem mem_post (o : Outgoing) : (s.post o).mem = s.mem := by simp [post]

@[simp] theorem mem_sendMsg (k : ℕ) (peer : ℕ) (ch : ℕ) (kind : ℕ) (payload : List Byte) : (s.sendMsg k peer ch kind payload).mem = s.mem := by
  unfold sendMsg
  split <;> simp

@[simp] theorem mem_control (k : ℕ) (peer : ℕ) (c : Control) : (s.control k peer c).mem = s.mem := by simp [control]

@[simp] theorem mem_controlAll (k : ℕ) (l : List ℕ) (c : Control) : (s.controlAll k l c).mem = s.mem := by simp [controlAll]

@[simp] theorem mem_raiseBarrier (k : ℕ) : (s.raiseBarrier k).mem = s.mem := by
  unfold raiseBarrier
  split <;> simp

@[simp] theorem mem_askBarrier (k : ℕ) : (s.askBarrier k).mem = s.mem := by
  unfold askBarrier
  split <;> simp

@[simp] theorem mem_sendDomain (k : ℕ) (peer : ℕ) (ch : ℕ) (kind : ℕ) (payload : List Byte) : (s.sendDomain k peer ch kind payload).mem = s.mem := by simp [sendDomain]

@[simp] theorem mem_askDomain (part kind : ℕ) (ps : List Piece) (data : List Byte) : (s.askDomain part kind ps data).mem = s.mem := by
  unfold askDomain
  split
  · rfl
  · refine List.foldlRecOn (motive := fun x : State × List Byte => x.1.mem = s.mem) _ _ rfl fun x hx q _ => ?_
    simpa using hx

@[simp] theorem mem_domainAnswers (part : ℕ) (ps : List Piece) : (s.domainAnswers part ps).mem = s.mem := by
  unfold domainAnswers
  repeat' split
  all_goals simp

@[simp] theorem mem_putAcc (a : Acc) : (s.putAcc a).mem = s.mem := by simp [putAcc]

@[simp] theorem mem_dropAcc (tag : ℕ) : (s.dropAcc tag).mem = s.mem := by simp [dropAcc]

@[simp] theorem mem_waitAcc (a : Acc) : (s.waitAcc a).mem = s.mem := by simp [waitAcc]

@[simp] theorem mem_sendAcc (f : ℕ → Acc) : (s.sendAcc f).mem = s.mem := by simp [sendAcc]

@[simp] theorem mem_leavePort (a : Acc) : (s.leavePort a).mem = s.mem := by simp [leavePort]

@[simp] theorem mem_hold (t : Task) (op : HeldOp) : (s.hold t op).mem = s.mem := by simp [hold]

@[simp] theorem mem_takeTokens (key : ℕ) (t : Task) : (s.takeTokens key t).mem = s.mem := by simp [takeTokens]

@[simp] theorem mem_payTokens (key : ℕ) : (s.payTokens key).mem = s.mem := by simp [payTokens]

@[simp] theorem mem_wakeUp (key : ℕ) : (s.wakeUp key).mem = s.mem := by
  unfold wakeUp
  dsimp only
  repeat' split
  all_goals simp

@[simp] theorem mem_wakeNow (key : ℕ) : (s.wakeNow key).mem = s.mem := by
  unfold wakeNow
  dsimp only
  repeat' split
  all_goals simp

@[simp] theorem mem_addDue (key : ℕ) (d : Due) : (s.addDue key d).mem = s.mem := by simp [addDue]

@[simp] theorem mem_modTask (g : Word) (f : Task → Task) : (s.modTask g f).mem = s.mem := by simp [modTask]

@[simp] theorem mem_addDueTo (g : Word) (d : Due) : (s.addDueTo g d).mem = s.mem := by simp [addDueTo]

@[simp] theorem mem_deliverTo (g : Word) (part : ℕ) (r : RegId) (tag : ℕ) (x : VWord) (err : Bool) (aerr : Word) (sub : optParam ℕ 0) : (s.deliverTo g part r tag x err aerr sub).mem = s.mem := by
  unfold deliverTo
  split <;> simp

@[simp] theorem mem_completeAt (key : ℕ) (len : ℕ) (f : Task → Task) : (s.completeAt key len f).mem = s.mem := by simp [completeAt]

@[simp] theorem mem_joinDone (key : ℕ) (a : Acc) : (s.joinDone key a).mem = s.mem := by
  unfold joinDone
  split <;> simp

@[simp] theorem mem_landAll (key : ℕ) : (s.landAll key).mem = s.mem := by simp [landAll]

@[simp] theorem mem_addDelay (a : Acc) : (s.addDelay a).mem = s.mem := by simp [addDelay]

@[simp] theorem mem_recordTile (key : ℕ) (g : Word) (op : AccOp) (acc : Bool) (vt : ℕ) (a : ℕ) : (s.recordTile key g op acc vt a).mem = s.mem := by simp [recordTile]

@[simp] theorem mem_recordExt (key : ℕ) (g : Word) (sub : ℕ) (va : ℕ) : (s.recordExt key g sub va).mem = s.mem := by simp [recordExt]

@[simp] theorem memWf_sampled (hw : Mem.wf s.mem = true) (t : Task) (write : State → State) (hk0 : ∀ x0, Mem.wf x0.mem = true → Mem.wf (write x0).mem = true) : Mem.wf (s.sampled t write).mem = true := by
  unfold sampled
  dsimp only
  repeat' split
  all_goals simp [hw, hk0]

@[simp] theorem mem_sendStop (g : Word) (cause : BitVec 6) (base : optParam (Option ℕ) Option.none) (note : optParam (Option VWord) Option.none) : (s.sendStop g cause base note).mem = s.mem := by
  unfold sendStop
  split <;> simp

@[simp] theorem mem_sendTriggerTo (part : ℕ) (core : ℕ) (id : BitVec 4) (action : BitVec 2) (count : ℕ) : (s.sendTriggerTo part core id action count).mem = s.mem := by
  unfold sendTriggerTo
  dsimp only
  repeat' split
  all_goals simp

@[simp] theorem mem_onMatch (m : Match) (cause : BitVec 6) (action : ℕ) (id : BitVec 4) (ta : BitVec 2) (now : Bool) (note : optParam (Option VWord) Option.none) : (s.onMatch m cause action id ta now note).mem = s.mem := by simp [onMatch]

@[simp] theorem memWf_watchNow (hw : Mem.wf s.mem = true) (m : Match) (hits : List Watchpoint) (write : State → State) (hk0 : ∀ x0, Mem.wf x0.mem = true → Mem.wf (write x0).mem = true) : Mem.wf (s.watchNow m hits write).mem = true := by simp [watchNow, hw, hk0]

@[simp] theorem mem_recordSeen (key : ℕ) (g : Word) (x : State.Seen) : (s.recordSeen key g x).mem = s.mem := by simp [recordSeen]

@[simp] theorem memWf_completeWatched (hw : Mem.wf s.mem = true) (t : Task) (len : ℕ) (l : List State.Seen) : Mem.wf (s.completeWatched t len l).mem = true := by simp [completeWatched, hw]

@[simp] theorem mem_watchAway (m : Match) (mem : ℕ) (vt : ℕ) (a : ℕ) (n : ℕ) (mask : ℕ) (kind : ℕ) (sub : ℕ) (pay : ℕ) : (s.watchAway m mem vt a n mask kind sub pay).mem = s.mem := by simp [watchAway]

@[simp] theorem mem_takeBytes (ps : List Piece) : (s.takeBytes ps).2.mem = s.mem := by simp [takeBytes]

@[simp] theorem mem_atcFill (part : ℕ) (ps : List Piece) : (s.atcFill part ps).mem = s.mem := by
  unfold atcFill
  split <;> simp

@[simp] theorem memWf_writePieces (hw : Mem.wf s.mem = true) (ps : List Piece) (bs : List Byte) : Mem.wf (s.writePieces ps bs).mem = true := by
  induction ps generalizing s bs with
  | nil => exact hw
  | cons p ps ih => exact ih (by simp [hw]) _

@[simp] theorem mem_tlbInstall (core : ℕ) (e : TlbEntry) : (s.tlbInstall core e).mem = s.mem := by simp [tlbInstall]

@[simp] theorem mem_tlbRefill (part : ℕ) (core : ℕ) (va : ℕ) (acc : ℕ) : (s.tlbRefill part core va acc).mem = s.mem := by
  unfold tlbRefill
  dsimp only
  repeat' split
  all_goals simp

theorem memWf_pageFor (hw : Mem.wf s.mem = true) (part : ℕ) (core : ℕ) (va : ℕ) (acc : ℕ) {x : TlbEntry} {u : State} (hu : s.pageFor part core va acc = .ok (x, u)) : Mem.wf u.mem = true := by grind [pageFor, mem_tlbRefill, mem_tlbInstall]

theorem memWf_piecesFor (hw : Mem.wf s.mem = true) (part core va n acc : ℕ) {x : List Piece} {u : State} (hu : s.piecesFor part core va n acc = .ok (x, u)) :
    Mem.wf u.mem = true := by
  unfold piecesFor at hu
  refine List.foldlRecOn (motive := fun r : Except VaFail (List Piece × State) => ∀ x u, r = .ok (x, u) → Mem.wf u.mem = true) _ _ ?_ ?_ x u hu
  · intro x u h
    cases h
    exact hw
  · intro r hr p _ x u h
    split at h
    · cases h
    next ps v =>
      split at h
      · cases h
      next e w hp =>
        cases h
        exact memWf_pageFor (hr _ _ rfl) _ _ _ _ hp

theorem memWf_vaWrite (hw : Mem.wf s.mem = true) (part va : ℕ) (bs : List Byte) {u : State} (hu : s.vaWrite part va bs = .ok u) : Mem.wf u.mem = true := by
  unfold vaWrite at hu
  cases hp : s.vaPieces part va 2 bs.length with
  | error e => simp [hp, Except.map] at hu
  | ok ps =>
    simp only [hp, Except.map, Except.ok.injEq] at hu
    rw [← hu]
    exact memWf_writePieces hw _ _

theorem memWf_portPieces (hw : Mem.wf s.mem = true) (part core va acc n : ℕ) {x : List Piece} {u : State}
    (hu : s.portPieces part core va acc n = .ok (x, u)) : Mem.wf u.mem = true := by
  unfold portPieces at hu
  split at hu
  · cases hu
  split at hu
  · cases hu
  next ps v h =>
    cases hs : v.shut part va ps with
    | error e => simp [hs, Except.map] at hu
    | ok qs =>
      simp only [hs, Except.map, Except.ok.injEq, Prod.mk.injEq] at hu
      rw [← hu.2]
      exact memWf_piecesFor hw _ _ _ _ _ h

theorem memWf_portRead (hw : Mem.wf s.mem = true) (part core va n : ℕ) {x : List Byte} {u : State} (hu : s.portRead part core va n = .ok (x, u)) :
    Mem.wf u.mem = true := by
  unfold portRead at hu
  cases hp : s.portPieces part core va 1 n with
  | error e => simp [hp, Except.map] at hu
  | ok r =>
    simp only [hp, Except.map, Except.ok.injEq, Prod.mk.injEq] at hu
    rw [← hu.2]
    exact memWf_portPieces hw _ _ _ _ _ hp

theorem memWf_portWrite (hw : Mem.wf s.mem = true) (part core va : ℕ) (bs : List Byte) {u : State} (hu : s.portWrite part core va bs = .ok u) :
    Mem.wf u.mem = true := by
  unfold portWrite at hu
  cases hp : s.portPieces part core va 2 bs.length with
  | error e => simp [hp, Except.map] at hu
  | ok r =>
    simp only [hp, Except.map, Except.ok.injEq] at hu
    rw [← hu]
    exact memWf_writePieces (memWf_portPieces hw _ _ _ _ _ hp) _ _

theorem memWf_writeVa (hw : Mem.wf s.mem = true) (part va : ℕ) (bs : List Byte) {u : State} (hu : s.writeVa part va bs = some u) : Mem.wf u.mem = true := by
  unfold writeVa at hu
  cases hp : s.vaWrite part va bs with
  | error e => simp [hp, Except.toOption] at hu
  | ok v =>
    simp only [hp, Except.toOption, Option.some.injEq] at hu
    rw [← hu]
    exact memWf_vaWrite hw _ _ _ hp

@[simp] theorem memWf_writeVa_getD (hw : Mem.wf s.mem = true) (part va : ℕ) (bs : List Byte) : Mem.wf ((s.writeVa part va bs).getD s).mem = true := by
  cases hu : s.writeVa part va bs with
  | none => exact hw
  | some u => exact memWf_writeVa hw _ _ _ hu

/-! ### Machine/Memory -/

@[simp] theorem mem_bankCost (acc : Bool) (a : ℕ) : (s.bankCost acc a).2.mem = s.mem := by simp [bankCost]

@[simp] theorem memWf_localEnds (hw : Mem.wf s.mem = true) (t : Task) (len : ℕ) (op : AccOp) (acc : Bool) (vt : ℕ) (a : ℕ) : Mem.wf (s.localEnds t len op acc vt a).mem = true := by simp [localEnds, hw]

@[simp] theorem memWf_localDo (hw : Mem.wf s.mem = true) (acc : Bool) (vt a len : Nat) (op : AccOp) (f : Task → Nat → Nat → Task) :
    Mem.wf (s.localDo acc vt a len op f).mem = true := by
  unfold localDo
  dsimp only
  split
  · exact hw
  next hu => simp [memWf_perform hw _ _ hu]

@[simp] theorem memWf_remoteSend (hw : Mem.wf s.mem = true) (t : Task) (x : Segment) (a : ℕ) (len : ℕ) (op : AccOp) (dst : Option RegId) (acq : Bool) (rel : Bool) (scope : BitVec 4) : Mem.wf (s.remoteSend t x a len op dst acq rel scope).mem = true := by simp [remoteSend, hw]

@[simp] theorem memWf_remoteWait (hw : Mem.wf s.mem = true) (t : Task) (x : Segment) (a : ℕ) (row : ℕ) (op : AccOp) (dst : Option RegId) (acq : Bool) (rel : Bool) (scope : BitVec 4) (carry : List ℕ) : Mem.wf (s.remoteWait t x a row op dst acq rel scope carry).mem = true := by simp [remoteWait, hw]

@[simp] theorem memWf_announceRecord (hw : Mem.wf s.mem = true) (t : Task) (op : AccOp) (place : Place) (far : Bool) : Mem.wf (s.announceRecord t op place far).mem = true := by
  unfold announceRecord
  split <;> simp [hw]

@[simp] theorem memWf_announce (hw : Mem.wf s.mem = true) (t : Task) (op : AccOp) (place : Place) (dst : Option RegId) (len : ℕ) (m : MemOp) (far : Bool) : Mem.wf (s.announce t op place dst len m far).mem = true := by simp [announce, hw]

@[simp] theorem memWf_load (hw : Mem.wf s.mem = true) (o : LdArgs) (n : ℕ) (isV : Bool) : Mem.wf (s.load o n isV).mem = true := by
  unfold load
  refine memWf_plain hw _ _ _ _ fun t => ?_
  dsimp only
  repeat' split
  all_goals simp (disch := simp [hw])

@[simp] theorem memWf_storeOp (hw : Mem.wf s.mem = true) (o : StArgs) (n : ℕ) (isV : Bool) : Mem.wf (s.storeOp o n isV).mem = true := by
  unfold storeOp
  refine memWf_plain hw _ _ _ _ fun t => ?_
  dsimp only
  repeat' split
  all_goals simp (disch := simp [hw]) [hw]

@[simp] theorem memWf_storeNibble (hw : Mem.wf s.mem = true) (o : StArgs) : Mem.wf (s.storeNibble o).mem = true := by
  unfold storeNibble
  refine memWf_plain hw _ _ _ _ fun t => ?_
  dsimp only
  repeat' split
  all_goals simp (disch := simp [hw]) [hw]

@[simp] theorem mem_yieldNow (t : Task) : (s.yieldNow t).mem = s.mem := by simp [yieldNow]

@[simp] theorem memWf_yieldOr (hw : Mem.wf s.mem = true) (t : Task) (y : Bool) (wait : State) (h0 : Mem.wf wait.mem = true) : Mem.wf (s.yieldOr t y wait).mem = true := by simp [yieldOr, hw, h0]

@[simp] theorem memWf_cameBack (hw : Mem.wf s.mem = true) (t : Task) (r : Acc) (done : State → Task → ℕ → Bool → State) (hk0 : ∀ x0 x1 x2 x3, Mem.wf x0.mem = true → Mem.wf (done x0 x1 x2 x3).mem = true) : Mem.wf (s.cameBack t r done).mem = true := by
  unfold cameBack
  split <;> simp [hw, hk0]

@[simp] theorem memWf_probe (hw : Mem.wf s.mem = true) (t : Task) (x : Segment) (a : ℕ) (take : Bool) (dst : Option RegId) (scope : BitVec 4)
    (got : State → Task → ℕ → Bool → State) (hk : ∀ s t v b, Mem.wf s.mem = true → Mem.wf (got s t v b).mem = true) :
    Mem.wf (s.probe t x a take dst scope got).mem = true := by
  unfold probe
  split
  · simp [hw]
  · refine memWf_cameBack hw _ _ _ fun s t v bad hs => ?_
    split
    · exact hk _ _ _ _ hs
    · simp [hs]

@[simp] theorem memWf_joinWait (hw : Mem.wf s.mem = true) (t : Task) (o : FeArgs) (x : Segment) (a : ℕ) (take : Bool) (scope : BitVec 4) : Mem.wf (s.joinWait t o x a take scope).mem = true := by
  unfold joinWait
  split <;> simp [hw]

@[simp] theorem memWf_feLoad (hw : Mem.wf s.mem = true) (o : FeArgs) (take atHome : Bool) : Mem.wf (s.feLoad o take atHome).mem = true := by
  unfold feLoad
  refine memWf_plain hw _ _ _ _ fun t => ?_
  dsimp only
  split
  · simp [hw]
  · repeat' split
    all_goals simp [hw]

@[simp] theorem memWf_feStore (hw : Mem.wf s.mem = true) (o : StfeArgs) : Mem.wf (s.feStore o).mem = true := by
  unfold feStore
  refine memWf_plain hw _ _ _ _ fun t => ?_
  dsimp only
  repeat' split
  all_goals simp (disch := simp [hw]) [hw]

@[simp] theorem mem_startWalk (t : Task) (seg : BitVec 3) (va : ℕ) (acc : ℕ) : (s.startWalk t seg va acc).mem = s.mem := by simp [startWalk]

@[simp] theorem memWf_extEnds (hw : Mem.wf s.mem = true) (t : Task) (len : ℕ) (op : AccOp) (space : ℕ) (a : ℕ) : Mem.wf (s.extEnds t len op space a).mem = true := by simp [extEnds, hw]

@[simp] theorem memWf_queuePush (hw : Mem.wf s.mem = true) (t : Task) (m : MemOp) (len : ℕ) (space : ℕ) (a : ℕ) (n : ℕ) (q : ℕ) (acc : ℕ) (op : AccOp) (dst : Option RegId) (o : Order) : Mem.wf (s.queuePush t m len space a n q acc op dst o).mem = true := by
  unfold queuePush
  split <;> simp [hw]

@[simp] theorem memWf_qload (hw : Mem.wf s.mem = true) (o : QArgs) : Mem.wf (s.qload o).mem = true := by
  unfold qload
  refine memWf_plain hw _ _ _ _ fun t => ?_
  split <;> simp [hw]

@[simp] theorem memWf_qstore (hw : Mem.wf s.mem = true) (o : QArgs) : Mem.wf (s.qstore o).mem = true := by
  unfold qstore
  refine memWf_plain hw _ _ _ _ fun t => ?_
  dsimp only
  repeat' split
  all_goals simp (disch := simp [hw])

@[simp] theorem memWf_amo (hw : Mem.wf s.mem = true) (o : AmoArgs) (w : ℕ) : Mem.wf (s.amo o w).mem = true := by
  unfold amo
  refine memWf_plain hw _ _ _ _ fun t => ?_
  dsimp only
  repeat' split
  all_goals simp (disch := simp [hw])

@[simp] theorem memWf_watchEnds (hw : Mem.wf s.mem = true) (t : Task) (len : ℕ) (x : Segment) (a : ℕ) (n : ℕ) : Mem.wf (s.watchEnds t len x a n).mem = true := by simp [watchEnds, hw]

@[simp] theorem memWf_waitAddr (hw : Mem.wf s.mem = true) (o : WaddrArgs) : Mem.wf (s.waitAddr o).mem = true := by
  unfold waitAddr
  refine memWf_plain hw _ _ _ _ fun t => ?_
  dsimp only
  repeat' split
  all_goals simp (disch := simp [hw]) [hw]

@[simp] theorem mem_newGtid (die : ℕ) : (s.newGtid die).2.mem = s.mem := by simp [newGtid]

@[simp] theorem memWf_forkPush (hw : Mem.wf s.mem = true) (t : Task) (o : MemOp) (dst : Reg) (len : ℕ) (code : Capsule) (entry : ℕ) (dom : ℕ) (counter : ℕ) (args : List ℕ) (seen : List State.Seen) : Mem.wf (s.forkPush t o dst len code entry dom counter args seen).mem = true := by simp [forkPush, hw]

@[simp] theorem memWf_forkBack (hw : Mem.wf s.mem = true) (t : Task) (r : Acc) (m : MemOp) (dst : Reg) (len : ℕ) : Mem.wf (s.forkBack t r m dst len).mem = true := by
  unfold forkBack
  dsimp only
  repeat' split
  all_goals simp [hw]

@[simp] theorem memWf_forkOp (hw : Mem.wf s.mem = true) (f : Form) (m : MemOp) (dst : Reg) : Mem.wf (s.forkOp f m dst).mem = true := by
  unfold forkOp
  refine memWf_plain hw _ _ _ _ fun t => ?_
  split
  · simp [hw]
  dsimp only
  split
  · simp [hw]
  split
  · exact hw
  generalize hu : List.foldl _ s _ = u
  have hb : Mem.wf u.mem = true := by
    rw [← hu]
    simp [hw]
  split
  · simp [hb]
  split
  · simp [hb]
  split
  · simp [hb]
  split
  · simp [hb]
  split
  · simp [hb]
  refine memWf_toWrite hb _ _ ?_
  split
  · simp [hb]
  split
  · exact hb
  split
  · exact hb
  next hp => simp [memWf_perform hb _ _ hp]

/-! ### Machine/Sync -/

@[simp] theorem mem_semSignal (part : ℕ) (vt : ℕ) (n : ℕ) : (s.semSignal part vt n).1.mem = s.mem := by
  unfold semSignal
  split <;> simp

@[simp] theorem mem_semTake (part : ℕ) (vt : ℕ) (n : ℕ) (w : SemWaiter) : (s.semTake part vt n w).mem = s.mem := by simp [semTake]

@[simp] theorem mem_semJoin (part : ℕ) (vt : ℕ) (n : ℕ) (w : SemWaiter) : (s.semJoin part vt n w).mem = s.mem := by simp [semJoin]

@[simp] theorem mem_netSend (key : ℕ) (m : Msg) : (s.netSend key m).mem = s.mem := by simp [netSend]

@[simp] theorem mem_msgFill (key : ℕ) (m : Msg) : (s.msgFill key m).mem = s.mem := by simp [msgFill]

@[simp] theorem mem_drainInbox (core n : ℕ) : (s.drainInbox core n).mem = s.mem := by
  induction n generalizing s with
  | zero => rfl
  | succ n ih =>
    unfold drainInbox
    split
    · rfl
    · simp [ih]

@[simp] theorem memWf_sendOp (hw : Mem.wf s.mem = true) (f : Form) (a : Reg) (ea : Bool) (b : Reg) (eb : Bool) : Mem.wf (s.sendOp f a ea b eb).mem = true := by
  unfold sendOp
  refine memWf_plain hw _ _ _ _ fun t => ?_
  dsimp only
  repeat' split
  all_goals simp (disch := simp [hw]) [hw]

@[simp] theorem memWf_recvOp (hw : Mem.wf s.mem = true) (f : Form) (d : Reg) (a : BitVec 3) (ea keep : Bool) : Mem.wf (s.recvOp f d a ea keep).mem = true := by
  refine memWf_plain hw _ _ _ _ fun t => ?_
  dsimp only
  split <;> simp [hw]

@[simp] theorem memWf_mwaitOp (hw : Mem.wf s.mem = true) (f : Form) (a : BitVec 3) (ea : Bool) : Mem.wf (s.mwaitOp f a ea).mem = true := by simp [mwaitOp, hw]

@[simp] theorem mem_inboxArrive (tag : ℕ) : (s.inboxArrive tag).mem = s.mem := by
  unfold inboxArrive
  repeat' split
  all_goals simp

@[simp] theorem mem_msgArrive (tag : ℕ) : (s.msgArrive tag).mem = s.mem := by
  unfold msgArrive
  split
  · simp
  dsimp only
  split
  · rfl
  split
  · rfl
  split
  · simp
  split
  · simp
  split
  · simp
  · rfl

@[simp] theorem memWf_fenceOp (hw : Mem.wf s.mem = true) (f : Form) (o : Order) : Mem.wf (s.fenceOp f o).mem = true := by simp [fenceOp, hw]

@[simp] theorem memWf_qwaitOp (hw : Mem.wf s.mem = true) (f : Form) (sel : BitVec 5) : Mem.wf (s.qwaitOp f sel).mem = true := by simp [qwaitOp, hw]

@[simp] theorem mem_recordAcc (a : Acc) : (s.recordAcc a).mem = s.mem := by
  unfold recordAcc
  split <;> simp

@[simp] theorem mem_storeFails (a : Acc) : (s.storeFails a).mem = s.mem := by simp [storeFails]

@[simp] theorem mem_backTo (a : Acc) : (s.backTo a).mem = s.mem := by
  unfold backTo
  dsimp only
  repeat' split
  all_goals simp

@[simp] theorem mem_accFails (a : Acc) (poison : Bool) : (s.accFails a poison).mem = s.mem := by simp [accFails]

@[simp] theorem memWf_storePieces (hw : Mem.wf s.mem = true) (ps : List Piece) (bs : List Byte) : Mem.wf (s.storePieces ps bs).mem = true := by
  induction ps generalizing s bs with
  | nil => exact hw
  | cons p ps ih => exact ih (by split <;> simp [hw]) _

@[simp] theorem memWf_atHome (hw : Mem.wf s.mem = true) (part : ℕ) (op : AccOp) (ps : List Piece) : (s.atHome part op ps).Canon := by
  have hu : Mem.wf (s.takeBytes ps).2.mem = true := by simp [hw]
  unfold atHome
  split
  · trivial
  repeat' split
  any_goals trivial
  all_goals
    rw [‹s.takeBytes ps = _›] at hu
    simp [hu]

@[simp] theorem mem_accRefused (a : Acc) (c : BitVec 6) : (s.accRefused a c).mem = s.mem := by simp [accRefused]

@[simp] theorem mem_accPoison (a : Acc) : (s.accPoison a).mem = s.mem := by simp [accPoison]

@[simp] theorem mem_answer (a : Acc) (v : ℕ) (err : Bool) : (s.answer a v err).mem = s.mem := by
  unfold answer
  split <;> simp

@[simp] theorem mem_accArrive (a : Acc) : (s.accArrive a).mem = s.mem := by
  unfold accArrive
  dsimp only
  repeat' split
  all_goals simp

@[simp] theorem mem_sfuArrive (r : SfuReq) : (s.sfuArrive r).mem = s.mem := by simp [sfuArrive]

@[simp] theorem mem_farWatch (m : Match) (op : AccOp) (acc : Bool) (vt : ℕ) (a : ℕ) : (s.farWatch m op acc vt a).mem = s.mem := by simp [farWatch]

@[simp] theorem memWf_agentServe (hw : Mem.wf s.mem = true) (a : Acc) (acc : Bool) (vt w : ℕ) : Mem.wf (s.agentServe a acc vt w).mem = true := by
  unfold agentServe
  split
  next hp => simp [memWf_perform hw _ _ hp]
  · repeat' split
    all_goals simp [hw]

@[simp] theorem memWf_remoteArrive (hw : Mem.wf s.mem = true) (tag : ℕ) (nib : Bool) : Mem.wf (s.remoteArrive tag nib).mem = true := by
  unfold remoteArrive
  split
  · exact hw
  split
  · exact hw
  extract_lets isNib
  split
  · exact hw
  split
  · split <;> simp [hw]
  · split <;> simp [hw]
  · split <;> simp [hw]
  · exact hw

@[simp] theorem memWf_heldStore (hw : Mem.wf s.mem = true) (h : Held) (acc : Bool) (vt a : ℕ) (op : AccOp) :
    Mem.wf (s.heldStore h acc vt a op).mem = true := by
  unfold heldStore
  split
  · exact hw
  next hp => simp [memWf_perform hw _ _ hp]

@[simp] theorem memWf_heldDo (hw : Mem.wf s.mem = true) (h : Held) : Mem.wf (s.heldDo h).mem = true := by
  unfold heldDo
  split <;> simp [hw]

@[simp] theorem memWf_heldPerform (hw : Mem.wf s.mem = true) (tag : ℕ) : Mem.wf (s.heldPerform tag).mem = true := by
  unfold heldPerform
  split
  · exact hw
  dsimp only
  split <;> simp [hw]

@[simp] theorem memWf_scComplete (hw : Mem.wf s.mem = true) (o : ScOp) (f : Task → Task) : Mem.wf (s.scComplete o f).mem = true := by simp [scComplete, hw]

@[simp] theorem memWf_scSent (hw : Mem.wf s.mem = true) (o : ScOp) (a : Acc) : Mem.wf (s.scSent o a).mem = true := by simp [scSent, hw]

@[simp] theorem memWf_scQueued (hw : Mem.wf s.mem = true) (o : ScOp) (st : AccState) : Mem.wf (s.scQueued o st).mem = true := by simp [scQueued, hw]

@[simp] theorem memWf_scEnds (hw : Mem.wf s.mem = true) (o : ScOp) : Mem.wf (s.scEnds o).mem = true := by simp [scEnds, hw]

@[simp] theorem memWf_scTile (hw : Mem.wf s.mem = true) (o : ScOp) (acc : Bool) (vt a : ℕ) : Mem.wf (s.scTile o acc vt a).mem = true := by
  unfold scTile
  split
  · simp [hw]
  split
  · exact hw
  next h =>
    have hv := memWf_perform hw _ _ h
    dsimp only
    split <;> simp [hv]

@[simp] theorem memWf_scLost (hw : Mem.wf s.mem = true) (o : ScOp) : Mem.wf (s.scLost o).mem = true := by simp [scLost, hw]

@[simp] theorem memWf_scRefused (hw : Mem.wf s.mem = true) (o : ScOp) (c : BitVec 6) : Mem.wf (s.scRefused o c).mem = true := by simp [scRefused, hw]

@[simp] theorem mem_dropSc (tag : ℕ) : (s.dropSc tag).mem = s.mem := by simp [dropSc]

@[simp] theorem memWf_scDo (hw : Mem.wf s.mem = true) (o : ScOp) : outCanon (s.scDo o) := by
  have hd : Mem.wf (s.dropSc o.tag).mem = true := by simp [hw]
  unfold scDo
  dsimp only
  split
  · simp [hw]
  next ps _ =>
    have ha := memWf_atHome hd o.part o.op ps
    split
    · trivial
    · simp [hw]
    · simp [hw]
    next h =>
      rw [h, Home.canon_done] at ha
      simp [ha]

@[simp] theorem memWf_scAll (hw : Mem.wf s.mem = true) (l : List ScOp) : outCanon (s.scAll l) := by
  induction l generalizing s with
  | nil => exact hw
  | cons o r ih =>
    have ho := memWf_scDo hw o
    unfold scAll
    split
    next h =>
      rw [h] at ho
      exact ih ho
    · exact ho

@[simp] theorem memWf_scMeets (hw : Mem.wf s.mem = true) (tag : ℕ) (how : Arrival) : Mem.wf (s.scMeets tag how).mem = true := by
  unfold scMeets
  split
  · exact hw
  · repeat' split
    all_goals simp [hw]

/-! ### Machine/Command -/

@[simp] theorem mem_accept (t : Task) (p : Partition) (w : CmdWord) : (s.accept t p w).mem = s.mem := by simp [accept]

@[simp] theorem memWf_tcmd (hw : Mem.wf s.mem = true) (f : Form) (a : Reg) (ea : Bool) (b : Reg) (eb : Bool) : Mem.wf (s.tcmd f a ea b eb).mem = true := by
  unfold tcmd
  refine memWf_plain hw _ _ _ _ fun t => ?_
  dsimp only
  repeat' split
  all_goals simp (disch := simp [hw])

@[simp] theorem memWf_semSig (hw : Mem.wf s.mem = true) (f : Form) (n : BitVec 3) : Mem.wf (s.semSig f n).mem = true := by
  unfold semSig
  refine memWf_plain hw _ _ _ _ fun t => ?_
  dsimp only
  repeat' split
  all_goals simp (disch := simp [hw]) [hw]

@[simp] theorem memWf_semWait (hw : Mem.wf s.mem = true) (f : Form) (n : BitVec 3) : Mem.wf (s.semWait f n).mem = true := by
  unfold semWait
  refine memWf_plain hw _ _ _ _ fun t => ?_
  dsimp only
  repeat' split
  all_goals simp (disch := simp [hw]) [hw]

@[simp] theorem memWf_pwrAcq (hw : Mem.wf s.mem = true) (f : Form) (cls : BitVec 2) (n : BitVec 5) : Mem.wf (s.pwrAcq f cls n).mem = true := by
  unfold pwrAcq
  refine memWf_plain hw _ _ _ _ fun t => ?_
  dsimp only
  repeat' split
  all_goals simp (disch := simp [hw]) [hw]

@[simp] theorem memWf_pwrRel (hw : Mem.wf s.mem = true) (f : Form) (cls : BitVec 2) (n : BitVec 5) : Mem.wf (s.pwrRel f cls n).mem = true := by
  unfold pwrRel
  refine memWf_plain hw _ _ _ _ fun t => ?_
  dsimp only
  repeat' split
  all_goals simp (disch := simp [hw]) [hw]

/-! ### Machine/Translation -/

@[simp] theorem memWf_inTurn (hw : Mem.wf s.mem = true) (i : HostRequest) (f : State → State) (hk0 : ∀ x0, Mem.wf x0.mem = true → Mem.wf (f x0).mem = true) : Mem.wf (s.inTurn i f).mem = true := by simp [inTurn, hw, hk0]

@[simp] theorem mem_takeTurn (code : ℕ) : (s.takeTurn code).mem = s.mem := by simp [takeTurn]

@[simp] theorem memWf_answerReq (hw : Mem.wf s.mem = true) (code : ℕ) (status : ℕ) (data : List Byte) : Mem.wf (s.answerReq code status data).mem = true := by
  unfold answerReq
  dsimp only
  repeat' split
  all_goals simp (disch := simp [hw]) [hw]

theorem memWf_ringPut (hw : Mem.wf s.mem = true) (part base : ℕ) (rec : List Byte) {x : ℕ} {u : State} (hu : s.ringPut part base rec = some (u, x)) :
    Mem.wf u.mem = true := by
  unfold ringPut at hu
  split at hu
  · cases hu
  split at hu
  · cases hu
  split at hu
  · cases hu
  next h1 =>
  split at hu
  · cases hu
  next h2 =>
  cases hu
  exact memWf_writeVa (memWf_writeVa hw _ _ _ h1) _ _ _ h2

@[simp] theorem memWf_ringTake (hw : Mem.wf s.mem = true) (part base h : ℕ) : Mem.wf (s.ringTake part base h).mem = true := by
  unfold ringTake
  cases hu : s.writeVa part (ringAt base) (leBytes 8 ((h + 1) % 2 ^ 64)) with
  | none => exact hw
  | some u => exact memWf_writeVa hw _ _ _ hu

@[simp] theorem memWf_postOne (hw : Mem.wf s.mem = true) (f : FaultRec) : Mem.wf (s.postOne f).1.mem = true := by
  unfold postOne
  dsimp only
  repeat' split
  any_goals exact hw
  next hp => simp [memWf_ringPut hw _ _ _ hp]

@[simp] theorem memWf_postHeld (hw : Mem.wf s.mem = true) (part : ℕ) : Mem.wf (s.postHeld part).mem = true := by
  refine List.foldlRecOn (motive := fun x : State × List FaultRec => Mem.wf x.1.mem = true) _ _ hw fun x hx f _ => ?_
  dsimp only
  split <;> simp [hx]

@[simp] theorem memWf_postFault (hw : Mem.wf s.mem = true) (part va acc : ℕ) (prop : BitVec 6) (w : Waiter) :
    Mem.wf (s.postFault part va acc prop w).mem = true := by
  unfold postFault
  split
  · exact hw
  · simp [hw]

@[simp] theorem memWf_partFault (hw : Mem.wf s.mem = true) (part : ℕ) (c : BitVec 6) (va : ℕ) : Mem.wf (s.partFault part c va).mem = true := by simp [partFault, hw]

@[simp] theorem memWf_supFault (hw : Mem.wf s.mem = true) (part : ℕ) (g : Word) (d : Due) : Mem.wf (s.supFault part g d).mem = true := by
  unfold supFault
  split <;> simp [hw]

@[simp] theorem mem_modHeldCmds (g : Word) (va : ℕ) (f : Cmd → Cmd) : (s.modHeldCmds g va f).mem = s.mem := by simp [modHeldCmds]

@[simp] theorem mem_retryWaiter (va : ℕ) (w : Waiter) : (s.retryWaiter va w).mem = s.mem := by
  unfold retryWaiter
  repeat' split
  all_goals simp

@[simp] theorem memWf_failAcc (hw : Mem.wf s.mem = true) (tag : ℕ) (d : Due) : Mem.wf (s.failAcc tag d).mem = true := by
  unfold failAcc
  split <;> simp [hw]

@[simp] theorem mem_unstop (key : ℕ) : (s.unstop key).mem = s.mem := by
  unfold unstop
  split <;> simp

@[simp] theorem mem_failAsk (g : Word) (va : ℕ) : (s.failAsk g va).mem = s.mem := by
  refine List.foldlRecOn (motive := fun u : State => u.mem = s.mem) _ _ rfl fun u hu a _ => ?_
  split <;> simp [hu]

@[simp] theorem memWf_failWaiter (hw : Mem.wf s.mem = true) (va : ℕ) (c : BitVec 6) (w : Waiter) : Mem.wf (s.failWaiter va c w).mem = true := by
  unfold failWaiter
  repeat' split
  all_goals simp [hw]

@[simp] theorem mem_parkPage (key : ℕ) (va : ℕ) (acc : ℕ) : (s.parkPage key va acc).mem = s.mem := by simp [parkPage]

@[simp] theorem memWf_walkFaults (hw : Mem.wf s.mem = true) (w : Walk) (c : BitVec 6) : Mem.wf (s.walkFaults w c).mem = true := by
  unfold walkFaults
  dsimp only
  repeat' split
  all_goals simp [hw]

@[simp] theorem mem_modDir (part : ℕ) (vpage : ℕ) (f : DirEntry → DirEntry) : (s.modDir part vpage f).mem = s.mem := by simp [modDir]

@[simp] theorem mem_dirAttach (part : ℕ) (va : ℕ) (w : Waiter) : (s.dirAttach part va w).mem = s.mem := by simp [dirAttach]

@[simp] theorem memWf_pageWalkDone (hw : Mem.wf s.mem = true) (w : Walk) : Mem.wf (s.pageWalkDone w).mem = true := by
  unfold pageWalkDone
  split <;> simp [hw]

@[simp] theorem memWf_faultReplied (hw : Mem.wf s.mem = true) (f : FaultRec) (reply rcause : ℕ) : Mem.wf (s.faultReplied f reply rcause).mem = true := by
  unfold faultReplied
  dsimp only
  split
  · exact memWf_foldl (fun s x h => by simp [h]) _ hw
  · exact memWf_foldl (fun s x h => by simp [h]) _ hw

@[simp] theorem mem_leaseEnds (cluster : ℕ) (i : ℕ) : (s.leaseEnds cluster i).mem = s.mem := by simp [leaseEnds]

@[simp] theorem memWf_withdraw (hw : Mem.wf s.mem = true) (a : Acc) : Mem.wf (s.withdraw a).mem = true := by
  unfold withdraw
  split
  · exact hw
  dsimp only
  split
  next h => simp [memWf_piecesFor hw _ _ _ _ _ h]
  · split
    · simp [hw]
    · simp [hw]
    · simp [hw]
    · split <;> simp [hw]

@[simp] theorem memWf_writeLeaf (hw : Mem.wf s.mem = true) (part : ℕ) (vpage : ℕ) (v : Bool) (mig : ℕ) (pa : ℕ) : Mem.wf (s.writeLeaf part vpage v mig pa).mem = true := by
  unfold writeLeaf
  split <;> simp [hw]

@[simp] theorem memWf_dirWake (hw : Mem.wf s.mem = true) (part vpage : ℕ) (fail : Option (BitVec 6)) : Mem.wf (s.dirWake part vpage fail).mem = true := by
  refine memWf_foldl (fun s x h => ?_) _ (by simp [hw])
  split <;> simp [h]

@[simp] theorem memWf_hostGrant (hw : Mem.wf s.mem = true) (remote : Bool) (frame : ℕ) : Mem.wf (s.hostGrant remote frame).mem = true := by simp [hostGrant, hw]

@[simp] theorem memWf_mapLoser (hw : Mem.wf s.mem = true) (part : ℕ) (vpage : ℕ) : Mem.wf (s.mapLoser part vpage).mem = true := by simp [mapLoser, hw]

@[simp] theorem memWf_dirDeviceFault (hw : Mem.wf s.mem = true) (part : ℕ) (vpage : ℕ) : Mem.wf (s.dirDeviceFault part vpage).mem = true := by
  unfold dirDeviceFault
  dsimp only
  repeat' split
  all_goals simp (disch := simp [hw]) [hw]

@[simp] theorem memWf_dirHostServe (hw : Mem.wf s.mem = true) (part : ℕ) (vpage : ℕ) : Mem.wf (s.dirHostServe part vpage).mem = true := by
  unfold dirHostServe
  dsimp only
  repeat' split
  all_goals simp [hw]

@[simp] theorem memWf_dirHostFault (hw : Mem.wf s.mem = true) (part vpage : ℕ) : Mem.wf (s.dirHostFault part vpage).mem = true := by
  unfold dirHostFault
  extract_lets ws s1
  have h1 : Mem.wf s1.mem = true := memWf_foldl (fun s w h => by simp [h]) _ hw
  simp [h1]

@[simp] theorem mem_cleanPage (pa : ℕ) : (s.cleanPage pa).mem = s.mem := by simp [cleanPage]

@[simp] theorem memWf_copyPage (hw : Mem.wf s.mem = true) (src : ℕ) (dst : ℕ) : Mem.wf (s.copyPage src dst).mem = true := by simp [copyPage, hw]

@[simp] theorem memWf_hostAborts (hw : Mem.wf s.mem = true) (n : ℕ) : Mem.wf (s.hostAborts n).mem = true := by
  induction n generalizing s with
  | zero => exact hw
  | succ n ih => exact ih (by simp [hw])

@[simp] theorem memWf_hostGrants (hw : Mem.wf s.mem = true) (remote : Bool) (frame n : ℕ) : Mem.wf (s.hostGrants remote frame n).mem = true := by
  induction n generalizing s with
  | zero => exact hw
  | succ n ih => exact ih (by simp [hw])

@[simp] theorem memWf_copyToHost (hw : Mem.wf s.mem = true) (e : DirEntry) : Mem.wf (s.copyToHost e).mem = true := by
  unfold copyToHost
  split <;> simp [hw]

@[simp] theorem memWf_moveDone (hw : Mem.wf s.mem = true) (part vpage : ℕ) (ok : Bool) : Mem.wf (s.moveDone part vpage ok).mem = true := by
  unfold moveDone
  dsimp only
  split
  · split <;> simp (disch := simp [hw])
  · split
    · exact hw
    split
    · refine memWf_hostGrants ?_ _ _ _
      simp only [mem_modDir]
      split <;> simp (disch := simp [hw])
    · simp (disch := simp [hw])
  · exact hw

@[simp] theorem mem_atsRequest (link : ℕ) (lo : ℕ) (hi : ℕ) : (s.atsRequest link lo hi).mem = s.mem := by simp [atsRequest]

@[simp] theorem mem_abortCmd (tile : ℕ) (order : ℕ) : (s.abortCmd tile order).mem = s.mem := by simp [abortCmd]

@[simp] theorem memWf_atsAbort (hw : Mem.wf s.mem = true) (v : AtsInval) : Mem.wf (s.atsAbort v).mem = true := by
  unfold atsAbort
  split
  · exact hw
  refine memWf_foldl (fun s x h => by simp [h]) _ (memWf_foldl (fun s x h => ?_) _ hw)
  repeat' split
  all_goals simp [h]

@[simp] theorem mem_atsComplete (link : ℕ) (i : ℕ) (v : AtsInval) : (s.atsComplete link i v).mem = s.mem := by simp [atsComplete]

/-! ### Machine/Engine -/

@[simp] theorem memWf_engineStore (hw : Mem.wf s.mem = true) (c : Cmd) (a : ℕ) (bs : List Byte) : Mem.wf (s.engineStore c a bs).mem = true := by simp [engineStore, hw]

@[simp] theorem mem_engineAsks (c : Cmd) (acc : ℕ) (ps : List Piece) (bs : List Byte) : (s.engineAsks c acc ps bs).mem = s.mem := by
  simp [engineAsks]

theorem memWf_pieceProblem (c : Cmd) (acc : ℕ) (p : Piece) : ∀ r ∈ s.pieceProblem c acc p, r.Canon := by
  unfold pieceProblem
  dsimp only
  repeat' split
  all_goals
    intro r h
    cases h <;> trivial

theorem memWf_worstReach (l : List Reach) (hl : ∀ r ∈ l, r.Canon) : ∀ r ∈ worstReach l, r.Canon := by
  refine forall_mem_orElse (forall_mem_orElse (forall_mem_orElse ?_ ?_) ?_) ?_
  · exact fun r h => hl r (List.mem_of_find?_eq_some h)
  · exact fun r h => hl r (List.mem_of_find?_eq_some h)
  · intro r h
    obtain ⟨c, -, rfl⟩ := Option.map_eq_some_iff.1 h
    trivial
  · exact fun r h => hl r (List.mem_of_mem_head? h)

@[simp] theorem memWf_reach (hw : Mem.wf s.mem = true) (c : Cmd) (x : Side) (o n acc : ℕ) : (s.reach c x o n acc).Canon := by
  have hp (v : State) (ps : List Piece) : ∀ r ∈ worstReach (ps.filterMap (v.pieceProblem c acc)), r.Canon := by
    refine memWf_worstReach _ fun r h => ?_
    obtain ⟨p, -, h⟩ := List.mem_filterMap.1 h
    exact memWf_pieceProblem _ _ _ r h
  unfold reach
  split
  · dsimp only
    split
    · trivial
    · exact hw
  · split
    · trivial
    next ps v h =>
      have hv : Mem.wf v.mem = true := by
        split at h
        · cases h
          exact hw
        · exact memWf_piecesFor hw _ _ _ _ _ h
      cases hr : worstReach (ps.filterMap (v.pieceProblem c acc)) with
      | none => simp [hv]
      | some r => exact hp v ps r hr

@[simp] theorem memWf_writePart (hw : Mem.wf s.mem = true) (c : Cmd) (y : Side) (o : ℕ) (ps : List Piece) (bs : List Byte) :
    Mem.wf (s.writePart c y o ps bs).2.mem = true := by
  unfold writePart
  split
  · exact hw
  · simp only [mem_ite, mem_foldl fun (s : State) (p : Piece) => mem_cleanPage (s := s) p.addr]
    simp [hw]

@[simp] theorem mem_modCmd (tile : ℕ) (order : ℕ) (f : Cmd → Cmd) : (s.modCmd tile order f).mem = s.mem := by simp [modCmd]

@[simp] theorem memWf_mmBody (hw : Mem.wf s.mem = true) (c : Cmd) : (s.mmBody c).Canon := by
  unfold mmBody
  dsimp only
  repeat' split
  all_goals simp [hw]

@[simp] theorem memWf_gathBody (hw : Mem.wf s.mem = true) (c : Cmd) : (s.gathBody c).Canon := by simp [gathBody, hw]

@[simp] theorem memWf_moves (hw : Mem.wf s.mem = true) (c : Cmd) (x : Side) (y : Side) : (s.moves c x y).Canon := by simp [moves, hw]

@[simp] theorem memWf_ends (hw : Mem.wf s.mem = true) (e : ℕ × ℕ) : (s.ends e).Canon := by simp [ends, hw]

@[simp] theorem memWf_copyBody (hw : Mem.wf s.mem = true) (c : Cmd) : (s.copyBody c).Canon := by
  unfold copyBody
  dsimp only
  repeat' split
  all_goals simp [hw]

@[simp] theorem memWf_cinBody (hw : Mem.wf s.mem = true) (c : Cmd) : (s.cinBody c).Canon := by
  unfold cinBody
  dsimp only
  repeat' split
  all_goals simp [hw]

@[simp] theorem memWf_decBody (hw : Mem.wf s.mem = true) (c : Cmd) : (s.decBody c).Canon := by
  unfold decBody
  dsimp only
  repeat' split
  all_goals simp [hw]

@[simp] theorem memWf_encBody (hw : Mem.wf s.mem = true) (c : Cmd) : (s.encBody c).Canon := by
  unfold encBody
  dsimp only
  repeat' split
  all_goals simp [hw]

@[simp] theorem memWf_collBody (hw : Mem.wf s.mem = true) (c : Cmd) (add : Bool) : (s.collBody c add).Canon := by
  unfold collBody
  dsimp only
  repeat' split
  all_goals simp [hw]

@[simp] theorem memWf_beatAll (hw : Mem.wf s.mem = true) (part : ℕ) (g : ℕ) (mine : List (List Byte)) (far : ℕ) (n : ℕ) : Mem.wf (s.beatAll part g mine far n).mem = true := by
  unfold beatAll
  dsimp only
  repeat' split
  all_goals simp (disch := simp [hw]) [hw]

@[simp] theorem memWf_arBody (hw : Mem.wf s.mem = true) (c : Cmd) : (s.arBody c).Canon := by
  unfold arBody
  dsimp only
  split
  · exact hw
  split
  · trivial
  · simp [hw]

@[simp] theorem memWf_cmdBody (hw : Mem.wf s.mem = true) (c : Cmd) : (s.cmdBody c).Canon := by
  unfold cmdBody
  split <;> simp [hw]

@[simp] theorem mem_engineWatch (c : Cmd) (write : Bool) (r : ℕ × ℕ) : (s.engineWatch c write r).mem = s.mem := by simp [engineWatch]

@[simp] theorem mem_sideWatch (c : Cmd) (write : Bool) (x : Side) (o : ℕ) (n : ℕ) : (s.sideWatch c write x o n).mem = s.mem := by simp [sideWatch]

@[simp] theorem mem_engineReads (c : Cmd) : (s.engineReads c).mem = s.mem := by simp [engineReads]

@[simp] theorem mem_putCmdTerms (tile : ℕ) (c : Cmd) (ts : List (ℕ × ℕ)) : (s.putCmdTerms tile c ts).mem = s.mem := by simp [putCmdTerms]

@[simp] theorem mem_fillToken (c : Cmd) (x : Word) : (s.fillToken c x).mem = s.mem := by simp [fillToken]

@[simp] theorem memWf_finishCmd (hw : Mem.wf s.mem = true) (tile : ℕ) (c : Cmd) (r : CmdResult) (drew : Bool) :
    Mem.wf (s.finishCmd tile c r drew).mem = true := by
  unfold finishCmd
  extract_lets w s1 s2 s3 s4 sig full s5 s6 s7
  have h1 : Mem.wf s1.mem = true := memWf_foldl (fun s x h => by simp [h]) _ hw
  have h2 : Mem.wf s2.mem = true := by
    unfold s2
    split <;> simp [h1]
  have h3 : s3.mem = s2.mem := by
    unfold s3
    split <;> simp
  have h4 : sig.1.mem = s3.mem := by
    unfold sig
    split <;> simp [s4]
  have h7 : s7.mem = sig.1.mem := by simp [s7, s6, s5]
  rw [modTile_mem, h7, h4, h3]
  exact h2

@[simp] theorem mem_cmdWait (tile : ℕ) (c : Cmd) : (s.cmdWait tile c).2.mem = s.mem := by
  unfold cmdWait
  dsimp only
  repeat' split
  all_goals simp

@[simp] theorem mem_cmdToken (tile : ℕ) (c : Cmd) : (s.cmdToken tile c).2.mem = s.mem := by
  unfold cmdToken
  dsimp only
  repeat' split
  all_goals simp

theorem mem_cmdToken_some {tile : ℕ} {c : Cmd} {b : Bool} {u v : State} (h : s.cmdToken tile c = (some (b, u), v)) : u.mem = s.mem := by
  unfold cmdToken at h
  dsimp only at h
  grind [mem_poolPut, mem_poolDraw]

@[simp] theorem memWf_holdCmd (hw : Mem.wf s.mem = true) (tile : ℕ) (c : Cmd) (e : VaFail) (acc : ℕ) : Mem.wf (s.holdCmd tile c e acc).mem = true := by
  unfold holdCmd
  dsimp only
  repeat' split
  all_goals simp [hw]

@[simp] theorem memWf_moveBytes (hw : Mem.wf s.mem = true) (c : Cmd) (x y : Side) (n : ℕ) (src : List Byte) (ps : List Piece) :
    Mem.wf (s.moveBytes c x y n src ps).2.mem = true := by
  have hx : Mem.wf (if x.ext then s.sideWatch c false x c.moved n else s).mem = true := by simp [hw]
  unfold moveBytes
  dsimp only
  repeat' split
  all_goals simp [hw]

@[simp] theorem mem_refusedCmd (c : Cmd) (cause : BitVec 6) : (s.refusedCmd c cause).mem = s.mem := by simp [refusedCmd]

@[simp] theorem memWf_movePart (hw : Mem.wf s.mem = true) (tile : ℕ) (c : Cmd) : outCanon (s.movePart tile c) := by
  unfold movePart
  split
  next x y hs =>
    dsimp only
    split
    · simp [hw]
    generalize hr : ite (x.ext = true) _ _ = r
    have hx : r.Canon := by
      rw [← hr]
      split <;> simp [hw]
    cases r with
    | ok px v =>
      replace hx : Mem.wf v.mem = true := hx
      dsimp only
      generalize hb : ite (x.ext = true) _ _ = b
      have hb2 : Mem.wf b.2.mem = true := by
        rw [← hb]
        split <;> simp [hx]
      split
      · simp [hb2]
      · have hy := memWf_reach hb2 c y c.moved (partLen c x y) (if CmdWord.queue c.word = 3 ∧ CmdWord.eop c.word = 2 then 3 else 2)
        split
        · simp [hb2]
        · simp [hb2]
        · simp [hb2]
        · simp [hb2]
        · simp
        next py u hr =>
          rw [hr] at hy
          replace hy : Mem.wf u.mem = true := hy
          simp [hy]
    | page e => simp [hw]
    | code k => simp [hw]
    | barred e => simp [hw]
    | wait => simp [hw]
    | absent pa => simp
  · exact hw

@[simp] theorem memWf_serveCmd (hw : Mem.wf s.mem = true) (tile : ℕ) (c : Cmd) (fresh : Bool) : Mem.wf (s.serveCmd tile c fresh).mem = true := by
  unfold serveCmd
  split
  · simp [hw]
  split
  · split <;> simp [hw]
  dsimp only
  generalize hv : s.modCmd tile c.order _ = v
  have hvw : Mem.wf v.mem = true := by
    rw [← hv]
    simp [hw]
  have hb := memWf_cmdBody hvw { c with offered := none }
  split
  next r u hr =>
    rw [hr] at hb
    replace hb : Mem.wf u.mem = true := hb
    simp [hb]
  · simp [hvw]

@[simp] theorem memWf_runCmd (hw : Mem.wf s.mem = true) (tile : ℕ) (c : Cmd) : Mem.wf (s.runCmd tile c).mem = true := by
  unfold runCmd
  split
  · simp [hw]
  dsimp only
  have hb := memWf_cmdBody hw c
  split
  next r u hr =>
    rw [hr] at hb
    replace hb : Mem.wf u.mem = true := hb
    split <;> simp [hb]
  next d u hr =>
    rw [hr] at hb
    replace hb : Mem.wf u.mem = true := hb
    simp [hb]
  · exact hw

@[simp] theorem memWf_startCmd (hw : Mem.wf s.mem = true) (tile q : ℕ) (l : List Cmd) (c : Cmd) : outCanon (s.startCmd tile q l c) := by
  unfold startCmd
  split
  · exact hw
  dsimp only
  split
  · simp [hw]
  split
  · split <;> simp [hw]
  split
  · split <;> simp [hw]
  split
  · simp [hw]
  split
  · simp [hw]
  next drew u hu =>
    have hu : u.mem = _ := mem_cmdToken_some (Prod.ext hu rfl)
    simp [hu, hw]

@[simp] theorem memWf_goOn (hw : Mem.wf s.mem = true) (tile : ℕ) (c : Cmd) : outCanon (s.goOn tile c) := by
  unfold goOn
  repeat' split
  all_goals simp [hw]

@[simp] theorem memWf_engineRow (hw : Mem.wf s.mem = true) (tile q op : ℕ) : outCanon (s.engineRow tile q op) := by
  unfold engineRow
  dsimp only
  repeat' split
  all_goals simp [hw]

@[simp] theorem memWf_fenceRow (hw : Mem.wf s.mem = true) (tile : ℕ) : Mem.wf (s.fenceRow tile).mem = true := by
  refine memWf_foldl (fun s f h => ?_) _ hw
  dsimp only
  split <;> simp [h]

/-! ### Machine/Schedule -/

@[simp] theorem mem_occupy (key : ℕ) (t : Task) (sub : ℕ) : (s.occupy key t sub).mem = s.mem := by simp [occupy]

theorem mem_stealFor (p : Partition) (part key : ℕ) {u : State} (hu : s.stealFor p part key = some u) : u.mem = s.mem := by
  unfold stealFor at hu
  obtain ⟨v, -, hv⟩ := Option.bind_eq_some_iff.1 hu
  obtain ⟨t, -, rfl⟩ := Option.map_eq_some_iff.1 hv
  simp

@[simp] theorem mem_frameStart  : (s.frameStart).mem = s.mem := by simp [frameStart]

/-! ### Machine/Capsule -/

@[simp] theorem memWf_service (hw : Mem.wf s.mem = true) (n : ℕ) {f : Task → Word → State × ℕ × ℕ} (hf : ∀ t a, Mem.wf (f t a).1.mem = true) :
    Mem.wf (s.service n f).mem = true := by
  unfold service
  dsimp only
  split
  · split <;> simp [hw, hf]
  · exact hw

@[simp] theorem mem_nextIv (w : BitVec 4) : (s.nextIv w).2.mem = s.mem := by simp [nextIv]

@[simp] theorem mem_modCapsule (part : ℕ) (capid : ℕ) (f : Capsule → Capsule) : (s.modCapsule part capid f).mem = s.mem := by simp [modCapsule]

@[simp] theorem mem_giveJoiners (part : ℕ) (c : Capsule) (code : ℕ) : (s.giveJoiners part c code).mem = s.mem := by simp [giveJoiners]

@[simp] theorem mem_buildRefused (part : ℕ) (capid : ℕ) : (s.buildRefused part capid).mem = s.mem := by simp [buildRefused]

@[simp] theorem mem_buildEnds (part : ℕ) (c : Capsule) : (s.buildEnds part c).mem = s.mem := by simp [buildEnds]

@[simp] theorem memWf_install (hw : Mem.wf s.mem = true) (part : ℕ) (c : Capsule) : Mem.wf (s.install part c).mem = true := by simp [install, hw]

@[simp] theorem memWf_capinst (hw : Mem.wf s.mem = true) (t : Task) (arg : Word) : Mem.wf (s.capinst t arg).1.mem = true := by
  unfold capinst
  dsimp only
  repeat' split
  all_goals simp [hw]

@[simp] theorem mem_noCapsule (part : ℕ) (id : ℕ) : (s.noCapsule part id).1.mem = s.mem := by
  unfold noCapsule
  split <;> simp

@[simp] theorem mem_capref (t : Task) (arg : Word) : (s.capref t arg).1.mem = s.mem := by
  unfold capref
  dsimp only
  repeat' split
  all_goals simp

@[simp] theorem mem_capdel (t : Task) (arg : Word) : (s.capdel t arg).1.mem = s.mem := by
  unfold capdel
  repeat' split
  all_goals simp

@[simp] theorem mem_capstat (t : Task) (arg : Word) : (s.capstat t arg).1.mem = s.mem := by
  unfold capstat
  repeat' split
  all_goals simp

@[simp] theorem memWf_ctxdrop (hw : Mem.wf s.mem = true) (t : Task) (arg : Word) : Mem.wf (s.ctxdrop t arg).1.mem = true := by
  unfold ctxdrop
  split <;> simp [hw]

@[simp] theorem memWf_capexp (hw : Mem.wf s.mem = true) (t : Task) (arg : Word) : Mem.wf (s.capexp t arg).1.mem = true := by
  unfold capexp
  split
  · exact hw
  dsimp only
  split
  · simp [hw]
  split
  · exact hw
  split
  · exact hw
  next u h =>
    have hu : Mem.wf u.mem = true := memWf_writeVa hw _ _ _ h
    exact hu

/-! ### Machine/System -/

@[simp] theorem mem_msWrite (t : Task) (n : ℕ) (x : Word) : (s.msWrite t n x).mem = s.mem := by
  unfold msWrite
  split <;> simp

@[simp] theorem memWf_returnTo (hw : Mem.wf s.mem = true) (c : Option Capsule) (tr : TrapRegs) (u : Task) : Mem.wf (s.returnTo c tr u).mem = true := by simp [returnTo, hw]

@[simp] theorem memWf_fwReturn (hw : Mem.wf s.mem = true)  : Mem.wf (s.fwReturn).mem = true := by simp [fwReturn, hw]

@[simp] theorem memWf_trapReturn (hw : Mem.wf s.mem = true)  : Mem.wf (s.trapReturn).mem = true := by simp [trapReturn, hw]

/-! ### Machine/Image -/

@[simp] theorem mem_sealTile (part : ℕ) (vt : ℕ) : (s.sealTile part vt).2.mem = s.mem := by simp [sealTile]

@[simp] theorem memWf_loadTile (hw : Mem.wf s.mem = true) (part : ℕ) (x : TileImage) : Mem.wf (s.loadTile part x).mem = true := by
  unfold loadTile
  refine memWf_foldl (fun s r h => ?_) _ (by simp [hw])
  refine memWf_foldl (fun s f h => ?_) _ (by simp [h])
  split
  · exact h
  · simp [h]

/-! ### Machine/Traps -/

@[simp] theorem memWf_takeDue (hw : Mem.wf s.mem = true)  : Mem.wf (s.takeDue).mem = true := by
  unfold takeDue
  dsimp only
  repeat' split
  all_goals simp [hw]

@[simp] theorem memWf_entryAt (hw : Mem.wf s.mem = true) (key : ℕ) : Mem.wf (s.entryAt key).mem = true := by simp [entryAt, hw]

@[simp] theorem memWf_postRecord (hw : Mem.wf s.mem = true) (part : ℕ) (rec : List Byte) : Mem.wf (s.postRecord part rec).mem = true := by
  unfold postRecord
  split
  · exact hw
  dsimp only
  split
  next h =>
    split at h
    · obtain ⟨b, -, h⟩ := Option.bind_eq_some_iff.1 h
      exact memWf_ringPut hw _ _ _ h
    · cases h
  · split <;> simp [hw]

@[simp] theorem memWf_postQheld (hw : Mem.wf s.mem = true) (part n : ℕ) : Mem.wf (s.postQheld part n).mem = true := by
  induction n generalizing s with
  | zero => exact hw
  | succ n ih =>
    unfold postQheld
    split
    · exact hw
    split
    · split
      · exact hw
      next h => exact ih (by simp [memWf_ringPut hw _ _ _ h])
    · exact hw

@[simp] theorem memWf_vaFault (hw : Mem.wf s.mem = true) (part : ℕ) (e : VaFail) : Mem.wf (s.vaFault part e).mem = true := by simp [vaFault, hw]

@[simp] theorem memWf_toArea (hw : Mem.wf s.mem = true) (part : ℕ) (b : List Byte) : Mem.wf (s.toArea part b).2.mem = true := by
  unfold toArea
  split
  · exact hw
  dsimp only
  split
  · split
    next h => simp [memWf_vaWrite hw _ _ _ h]
    · simp [hw]
  · exact hw

@[simp] theorem mem_markGang (t : Task) (d : Due) : (s.markGang t d).mem = s.mem := by
  unfold markGang
  split <;> simp

@[simp] theorem memWf_freeze (hw : Mem.wf s.mem = true) (t : Task) (cause : BitVec 6) : Mem.wf (s.freeze t cause).mem = true := by
  unfold freeze
  extract_lets w fatal s1
  have hn : Mem.wf (s1.nextIv w).2.mem = true := by simp [s1, hw]
  generalize s1.nextIv w = p at hn ⊢
  obtain ⟨n, s2⟩ := p
  dsimp -zeta only at hn ⊢
  extract_lets img r s3 m s4
  have h3 : Mem.wf s4.mem = true := by
    unfold s4
    split <;> simp [r, s3, hn]
  simp [h3]

@[simp] theorem memWf_quarantineTask (hw : Mem.wf s.mem = true) (key : ℕ) (cause : BitVec 6) : Mem.wf (s.quarantineTask key cause).mem = true := by
  unfold quarantineTask
  split <;> simp [hw]

@[simp] theorem memWf_quarantineWorld (hw : Mem.wf s.mem = true) (w : BitVec 4) : Mem.wf (s.quarantineWorld w).mem = true := by
  unfold quarantineWorld
  dsimp only
  split
  · exact hw
  · exact memWf_foldl (fun s t h => by simp [h]) _ (memWf_foldl (fun s e h => by simp [h]) _ hw)

@[simp] theorem mem_breakAt (key : ℕ) : (s.breakAt key).mem = s.mem := by simp [breakAt]

/-! ### Machine/Context -/

@[simp] theorem mem_takeCmds (part : ℕ) (cs : List Cmd) : (s.takeCmds part cs).mem = s.mem := by simp [takeCmds]

@[simp] theorem memWf_giveCmds (hw : Mem.wf s.mem = true) (key : ℕ) (cs : List Cmd) : Mem.wf (s.giveCmds key cs).mem = true := by simp +contextual [giveCmds, hw]

@[simp] theorem mem_stopForSave (key : ℕ) : (s.stopForSave key).mem = s.mem := by simp [stopForSave]

@[simp] theorem mem_withdrawRest (g : Word) : (s.withdrawRest g).mem = s.mem := by simp [withdrawRest]

@[simp] theorem memWf_beforeSave (hw : Mem.wf s.mem = true) (key : ℕ) : Mem.wf (s.beforeSave key).mem = true := by
  unfold beforeSave
  dsimp only
  repeat' split
  all_goals simp [hw]

@[simp] theorem memWf_saveStopped (hw : Mem.wf s.mem = true) (key va : ℕ) (byCaldera hold : Bool) : (s.saveStopped key va byCaldera hold).Canon := by
  unfold saveStopped
  extract_lets s1
  have h1 : Mem.wf s1.mem = true := by simp [s1, hw]
  split
  · exact h1
  dsimp only
  split
  · simp [h1]
  next h =>
    split at h
    · have := memWf_vaWrite (by simp [h1]) _ _ _ h
      simp [this]
    · have := memWf_portWrite (by simp [h1]) _ _ _ _ h
      simp [this]

@[simp] theorem memWf_saveSlot (hw : Mem.wf s.mem = true) (key va : ℕ) (byCaldera hold : Bool) : (s.saveSlot key va byCaldera hold).Canon := by
  unfold saveSlot
  dsimp only
  split <;> simp [hw]

@[simp] theorem memWf_putBack (hw : Mem.wf s.mem = true) (key : ℕ) (v : Saved) (t : Task) : Mem.wf (s.putBack key v t).mem = true := by simp [putBack, hw]

@[simp] theorem mem_bodyFor (part capid : ℕ) : (s.bodyFor part capid).2.mem = s.mem := by
  unfold bodyFor
  split
  · rfl
  split
  · rfl
  · simp

@[simp] theorem memWf_restoreCheck (hw : Mem.wf s.mem = true) (part key : ℕ) (b : List Byte) : (s.restoreCheck part key b).Canon := by
  unfold restoreCheck
  extract_lets iv g
  split
  · trivial
  split
  · trivial
  extract_lets t t2
  split
  · trivial
  split
  · trivial
  split
  · trivial
  dsimp only
  split
  · trivial
  · simp [hw]

theorem memWf_portSlotImage (hw : Mem.wf s.mem = true) (part core va : ℕ) {x : List Byte} {u : State}
    (hu : s.portSlotImage part core va = .ok (x, u)) : Mem.wf u.mem = true := by
  unfold portSlotImage at hu
  split at hu
  · cases hu
  next h => exact memWf_portRead (memWf_portRead hw _ _ _ _ h) _ _ _ _ hu

@[simp] theorem mem_ask (d : Reg) (len : ℕ) (q : Ask) (reply : Option Word) : (s.ask d len q reply).mem = s.mem := by simp [ask]

@[simp] theorem memWf_imageFails (hw : Mem.wf s.mem = true) (a : Asked) (acc : ℕ) (e : VaFail) : (s.imageFails a acc e).Canon := by
  unfold imageFails
  split <;> simp [hw]

@[simp] theorem memWf_ctxsaveStep (hw : Mem.wf s.mem = true) (a : Asked) (slot : Word) (va : ℕ) : (s.ctxsaveStep a slot va).Canon := by
  unfold ctxsaveStep
  split
  · exact hw
  next k _ =>
  split
  · exact hw
  split
  · exact hw
  have hs := memWf_saveSlot hw k va false false
  split
  next h => 
    rw [h] at hs
    exact hs
  next h => 
    rw [h] at hs
    exact hs
  next h => 
    rw [h] at hs
    exact hs
  next h => 
    rw [h] at hs
    rw [SaveOut.canon_failed] at hs
    split <;> simp [hs]

@[simp] theorem memWf_ctxrestStep (hw : Mem.wf s.mem = true) (a : Asked) (slot : Word) (va : ℕ) : (s.ctxrestStep a slot va).Canon := by
  unfold ctxrestStep
  split
  next k _ _ _ =>
    split
    · exact hw
    split
    · simp [hw]
    next b v hv =>
      have hvw := memWf_portSlotImage hw _ _ _ hv
      have hr := memWf_restoreCheck hvw a.part k b
      dsimp only
      split
      · exact hvw
      next h =>
        rw [h] at hr
        split
        · exact hvw
        · exact hr
      · split <;> simp [hvw]
  · exact hw

@[simp] theorem memWf_tileSaveStep (hw : Mem.wf s.mem = true) (a : Asked) (va : ℕ) : (s.tileSaveStep a va).Canon := by
  unfold tileSaveStep
  dsimp only
  split
  · exact hw
  split
  · simp [hw]
  next h => exact memWf_portWrite (by simp [hw]) _ _ _ _ h

theorem memWf_readTileImage (hw : Mem.wf s.mem = true) (part core va : ℕ) {x : List Byte} {u : State}
    (hu : s.readTileImage part core va = .ok (x, u)) : Mem.wf u.mem = true := by
  unfold readTileImage at hu
  split at hu
  · cases hu
  next h => exact memWf_portRead (memWf_portRead hw _ _ _ _ h) _ _ _ _ hu

@[simp] theorem memWf_tileRestStep (hw : Mem.wf s.mem = true) (a : Asked) (va : ℕ) : (s.tileRestStep a va).Canon := by
  unfold tileRestStep
  dsimp only
  split
  · exact hw
  split
  · simp [hw]
  next h =>
    have hv := memWf_readTileImage hw _ _ _ h
    repeat' split
    all_goals simp [hv]

@[simp] theorem memWf_ctxOp (hw : Mem.wf s.mem = true) (f : Form) (d : Reg) (srcs : List (RegId × Bool)) (g : BitVec 3) (n : ℕ) (need : Need) (q : Task → ℕ → Ask) : Mem.wf (s.ctxOp f d srcs g n need q).mem = true := by
  unfold ctxOp
  split <;> simp (disch := simp [hw])

@[simp] theorem mem_goTask (g : Word) (step : Bool) : (s.goTask g step).mem = s.mem := by
  unfold goTask
  dsimp only
  repeat' split
  all_goals simp

@[simp] theorem mem_haltStart (t : Task) (g : Word) (op : ℕ) : (s.haltStart t g op).2.mem = s.mem := by
  unfold haltStart
  dsimp only
  repeat' split
  all_goals simp

/-! ### Machine/Packet -/

@[simp] theorem mem_acceptLaunch (part : ℕ) (q : ℕ) (k : Packet) (step : Option ℕ) (sched : Bool) : (s.acceptLaunch part q k step sched).2.mem = s.mem := by simp [acceptLaunch]

@[simp] theorem mem_noteLast (part : ℕ) (q : ℕ) (id : Option ℕ) : (s.noteLast part q id).mem = s.mem := by simp [noteLast]

@[simp] theorem memWf_answerPacket (hw : Mem.wf s.mem = true) (part at_ base h st : ℕ) : Mem.wf (s.answerPacket part at_ base h st).mem = true := by
  simp [answerPacket, hw]

@[simp] theorem memWf_takeLaunch (hw : Mem.wf s.mem = true) (part q : ℕ) : Mem.wf (s.takeLaunch part q).mem = true := by
  unfold takeLaunch
  split
  · exact hw
  dsimp only
  split
  · exact hw
  · exact memWf_answerPacket (by split <;> simp [hw]) _ _ _ _ _

@[simp] theorem memWf_takeUnload (hw : Mem.wf s.mem = true) (part q : ℕ) : Mem.wf (s.takeUnload part q).mem = true := by
  unfold takeUnload
  split
  · exact hw
  dsimp only
  repeat' split
  all_goals simp [hw]

@[simp] theorem memWf_launchEnds (hw : Mem.wf s.mem = true) (id : ℕ) : Mem.wf (s.launchEnds id).mem = true := by
  unfold launchEnds
  repeat' split
  all_goals simp [hw]

@[simp] theorem memWf_consume (hw : Mem.wf s.mem = true) (part ring : ℕ) : Mem.wf (s.consume part ring).mem = true := by
  unfold consume
  repeat' split
  all_goals simp [hw]

/-! ### Machine/Caldera -/

@[simp] theorem memWf_tileFirst (hw : Mem.wf s.mem = true) (part key : ℕ) (t : Task) : Mem.wf (s.tileFirst part key t).mem = true := by
  unfold tileFirst
  split
  · exact hw
  dsimp only
  split
  · exact hw
  split <;> simp [hw]

@[simp] theorem memWf_placeTask (hw : Mem.wf s.mem = true) (key : ℕ) (g : Option Word) (t : Task) : Mem.wf (s.placeTask key g t).mem = true := by
  simp [placeTask, hw]

@[simp] theorem mem_dropWork (w : QueuedWork) : (s.dropWork w).mem = s.mem := by simp [dropWork]

@[simp] theorem memWf_placeGang (hw : Mem.wf s.mem = true) (part id : ℕ) (ts : List Task) (keys : List ℕ) :
    Mem.wf (s.placeGang part id ts keys).mem = true := by
  refine memWf_foldl (fun s x h => by simp [h]) _ ?_
  refine List.foldlRecOn (motive := fun x : List Word × State => Mem.wf x.2.mem = true) _ _ hw fun x hx t _ => ?_
  simp [hx]

@[simp] theorem mem_holdSaved (part : ℕ) (l : List Saved) : (s.holdSaved part l).mem = s.mem := by simp [holdSaved]

theorem memWf_recheck (hw : Mem.wf s.mem = true) (part key : ℕ) (v : Saved) : ∀ r ∈ s.recheck part key v, r.Canon := by
  intro r h
  obtain ⟨b, -, rfl⟩ := Option.map_eq_some_iff.1 h
  exact memWf_restoreCheck hw _ _ _

theorem memWf_restoreOne (hw : Mem.wf s.mem = true) (part key : ℕ) (v : Saved) {u : State} (hu : s.restoreOne part key v = some u) :
    Mem.wf u.mem = true := by
  unfold restoreOne at hu
  split at hu
  · cases hu
    simp [hw]
  · cases hu

theorem memWf_restoreGroup (hw : Mem.wf s.mem = true) (part : ℕ) (l : List Saved) (ks : List ℕ) {u : State} (hu : s.restoreGroup part l ks = some u) :
    Mem.wf u.mem = true := by
  unfold restoreGroup at hu
  dsimp only at hu
  split at hu
  · cases hu
    simp [hw]
  refine List.foldlRecOn (motive := fun m : Option State => ∀ u ∈ m, Mem.wf u.mem = true) _ _ ?_ ?_ u hu
  · intro u h
    cases h
    exact hw
  · intro m hm x _ u h
    obtain ⟨v, hv, h⟩ := Option.bind_eq_some_iff.1 h
    exact memWf_restoreOne (hm v hv) _ _ _ h

theorem memWf_restoreItem (hw : Mem.wf s.mem = true) (part : ℕ) (p : Partition) (w : QueuedWork) {u : State} (hu : s.restoreItem part p w = some u) :
    Mem.wf u.mem = true := by
  unfold restoreItem at hu
  split at hu
  · split at hu
    · cases hu
      simp [hw]
    · obtain ⟨l, -, hu⟩ := Option.bind_eq_some_iff.1 hu
      obtain ⟨ks, -, hu⟩ := Option.bind_eq_some_iff.1 hu
      exact memWf_restoreGroup hw _ _ _ hu
  · cases hu

@[simp] theorem memWf_placeItem (hw : Mem.wf s.mem = true) (part : ℕ) (w : QueuedWork) (ks : List ℕ) : Mem.wf (s.placeItem part w ks).mem = true := by
  unfold placeItem
  extract_lets s1 c s2 key
  have h2 : Mem.wf s2.mem = true := by
    unfold s2
    split <;> simp [s1, hw]
  split
  · simp [h2]
  · split <;> simp [h2]
  · simp [h2]
  · exact h2

theorem memWf_tryItem (hw : Mem.wf s.mem = true) (part : ℕ) (p : Partition) (w : QueuedWork) {u : State} (hu : s.tryItem part p w = some u) :
    Mem.wf u.mem = true := by
  unfold tryItem at hu
  split at hu
  · cases hu
    simp [hw]
  · exact memWf_restoreItem hw _ _ _ hu

theorem memWf_firstFit (hw : Mem.wf s.mem = true) (part : ℕ) (p : Partition) (held : List ℕ) (l : List QueuedWork) {x : QueuedWork} {u : State}
    (hu : s.firstFit part p held l = some (x, u)) : Mem.wf u.mem = true := by
  induction l generalizing held with
  | nil => cases hu
  | cons w r ih =>
    unfold firstFit at hu
    split at hu
    · exact ih _ hu
    split at hu
    next t ht =>
      cases hu
      exact memWf_tryItem hw _ _ _ ht
    · exact ih _ hu

theorem memWf_nextItem (hw : Mem.wf s.mem = true) (part : ℕ) {x : QueuedWork} {u : State} (hu : s.nextItem part = some (x, u)) :
    Mem.wf u.mem = true := by
  unfold nextItem at hu
  split at hu
  · cases hu
  next p _ =>
    refine forall_mem_orElse (P := fun y : QueuedWork × State => Mem.wf y.2.mem = true) ?_ ?_ (x, u) hu
    · intro y hy
      obtain ⟨w, -, hy⟩ := List.exists_of_findSome?_eq_some hy
      obtain ⟨t, ht, rfl⟩ := Option.map_eq_some_iff.1 hy
      exact memWf_tryItem hw _ _ _ ht
    · exact fun y hy => memWf_firstFit hw _ _ _ _ hy

@[simp] theorem memWf_placeOne (hw : Mem.wf s.mem = true) (part : ℕ) : Mem.wf (s.placeOne part).mem = true := by
  unfold placeOne
  split
  next w t h =>
    split
    · exact hw
    · exact memWf_nextItem hw _ h
  · exact hw

@[simp] theorem memWf_restoreFirst (hw : Mem.wf s.mem = true) (part : ℕ) : Mem.wf (s.restoreFirst part).mem = true := by
  unfold restoreFirst
  split
  next h =>
    split
    · exact memWf_nextItem hw _ h
    · exact hw
  · exact hw

@[simp] theorem mem_restoreBuilds (part : ℕ) : (s.restoreBuilds part).mem = s.mem := by
  unfold restoreBuilds
  split <;> simp

theorem memWf_popOwn (hw : Mem.wf s.mem = true) (part key : ℕ) {u : State} (hu : s.popOwn part key = some u) : Mem.wf u.mem = true := by
  unfold popOwn at hu
  dsimp only at hu
  split at hu
  · cases hu
    simp [hw]
  · cases hu
    simp [hw]
  · cases hu

@[simp] theorem memWf_searchSlot (hw : Mem.wf s.mem = true) (key : ℕ) : Mem.wf (s.searchSlot key).mem = true := by
  unfold searchSlot
  split
  · exact hw
  split
  next h => exact memWf_popOwn hw _ _ h
  next p _ _ =>
    cases h : s.stealFor p _ key with
    | none => exact hw
    | some u =>
      rw [Option.getD_some, mem_stealFor _ _ _ h]
      exact hw
  · exact hw

@[simp] theorem memWf_stealEnds (hw : Mem.wf s.mem = true) (key : ℕ) : Mem.wf (s.stealEnds key).mem = true := by
  unfold stealEnds
  split
  · exact hw
  · simp [hw]

@[simp] theorem mem_dropReserved (part : ℕ) (p : Partition) : (s.dropReserved part p).mem = s.mem := by simp [dropReserved]

@[simp] theorem mem_reserveGang (part : ℕ) : (s.reserveGang part).mem = s.mem := by
  unfold reserveGang
  dsimp only
  repeat' split
  all_goals simp

@[simp] theorem mem_reservePreempt (part : ℕ) : (s.reservePreempt part).mem = s.mem := by
  unfold reservePreempt
  split <;> simp

@[simp] theorem mem_switchEnds (part : ℕ) : (s.switchEnds part).mem = s.mem := by simp [switchEnds]

@[simp] theorem mem_sliceEnds (part : ℕ) : (s.sliceEnds part).mem = s.mem := by
  unfold sliceEnds
  split <;> simp

@[simp] theorem mem_requeue1 (part : ℕ) (g : Word) (prio : ℕ) : (s.requeue1 part g prio).mem = s.mem := by simp [requeue1]

@[simp] theorem mem_saveFails (r : Preempt) (key : ℕ) (e : VaFail) : (s.saveFails r key e).mem = s.mem := by
  unfold saveFails
  split <;> simp

@[simp] theorem memWf_preemptSlot (hw : Mem.wf s.mem = true) (r : Preempt) (key : ℕ) : Mem.wf (s.preemptSlot r key).mem = true := by
  unfold preemptSlot
  dsimp only
  split
  · exact hw
  next p _ =>
    have hs := memWf_saveSlot hw key (savePlace p) true r.hold
    split
    next h =>
      rw [h, SaveOut.canon_saved] at hs
      split <;> simp [hs]
    next h =>
      rw [h] at hs
      exact hs
    next h =>
      rw [h] at hs
      exact hs
    · simp [hw]

theorem memWf_holdQueued (hw : Mem.wf s.mem = true) (part : ℕ) (t : Task) {u : State} (hu : s.holdQueued part t = some u) : Mem.wf u.mem = true := by
  unfold holdQueued at hu
  split at hu
  · cases hu
  dsimp only at hu
  obtain ⟨v, hv, rfl⟩ := Option.map_eq_some_iff.1 hu
  have hv2 := memWf_writeVa (u := v) (s := (s.nextIv (s.worldOfPart part)).2) (by simp [hw]) _ _ _ hv
  simp [hv2]

@[simp] theorem memWf_preemptDeque (hw : Mem.wf s.mem = true) (r : Preempt) : Mem.wf (s.preemptDeque r).mem = true := by
  unfold preemptDeque
  dsimp only
  split
  · exact hw
  refine memWf_foldl (fun s t h => ?_) _ (by simp [hw])
  split
  · cases hq : s.holdQueued r.part t with
    | none => simp [h]
    | some u => exact memWf_holdQueued h _ _ hq
  · exact h

@[simp] theorem memWf_resizeEnds (hw : Mem.wf s.mem = true) (part : ℕ) : Mem.wf (s.resizeEnds part).mem = true := by
  unfold resizeEnds
  dsimp only
  repeat' split
  all_goals simp [hw]

@[simp] theorem memWf_preemptArrives (hw : Mem.wf s.mem = true) (part core : ℕ) : Mem.wf (s.preemptArrives part core).mem = true := by
  unfold preemptArrives
  split
  · exact hw
  next r _ =>
    extract_lets keys s1 r2 left
    have h1 : Mem.wf s1.mem = true := memWf_preemptDeque (memWf_foldl (fun s x h => by simp [h]) _ hw) _
    split
    · exact h1
    · simp [h1]

@[simp] theorem mem_saveTileImage (part : ℕ) (vt : ℕ) : (s.saveTileImage part vt).mem = s.mem := by
  unfold saveTileImage
  split <;> simp

/-! ### Machine/Control -/

@[simp] theorem memWf_landing (hw : Mem.wf s.mem = true) (target : Word) (k : State) (h0 : Mem.wf k.mem = true) : Mem.wf (s.landing target k).mem = true := by simp [landing, hw, h0]

@[simp] theorem memWf_jump (hw : Mem.wf s.mem = true) (t : Task) (target : Word) : Mem.wf (s.jump t target).mem = true := by simp [jump, hw]

@[simp] theorem memWf_inText (hw : Mem.wf s.mem = true) (target : Word) (k : State) (h0 : Mem.wf k.mem = true) : Mem.wf (s.inText target k).mem = true := by simp [inText, hw, h0]

@[simp] theorem memWf_direct (hw : Mem.wf s.mem = true) (t : Task) (target : Word) : Mem.wf (s.direct t target).mem = true := by simp [direct, hw]

/-! ### Machine/StepQueue -/

@[simp] theorem mem_putStepq (part : ℕ) (x : StepQ) : (s.putStepq part x).mem = s.mem := by simp [putStepq]

@[simp] theorem mem_takePage (x : StepQ) : (s.takePage x).2.2.mem = s.mem := by simp [takePage]

@[simp] theorem memWf_stepgetOp (hw : Mem.wf s.mem = true) (f : Form) (d : Reg) (sel : BitVec 3) (a : Reg) (ea : Bool) : Mem.wf (s.stepgetOp f d sel a ea).mem = true := by
  unfold stepgetOp
  refine memWf_plain hw _ _ _ _ fun t => ?_
  dsimp only
  repeat' split
  all_goals simp (disch := simp [hw])

@[simp] theorem memWf_stoptestOp (hw : Mem.wf s.mem = true) (o : TwoArgs) : Mem.wf (s.stoptestOp o).mem = true := by
  refine memWf_plain hw _ _ _ _ fun t => ?_
  split <;> simp [hw]

@[simp] theorem memWf_postDone (hw : Mem.wf s.mem = true) (part : ℕ) (x : StepQ) (seqid : Word) (slot why len pages : ℕ) :
    Mem.wf (s.postDone part x seqid slot why len pages).mem = true := by
  unfold postDone
  extract_lets n rec_ s1
  have h1 : Mem.wf s1.mem = true := by simp [s1, hw]
  split
  next h => exact memWf_ringPut h1 _ _ _ h
  · exact h1

@[simp] theorem memWf_vaFaultIf (hw : Mem.wf s.mem = true) (part : ℕ) (e : Option VaFail) : Mem.wf (s.vaFaultIf part e).mem = true := by
  unfold vaFaultIf
  split <;> simp [hw]

@[simp] theorem memWf_retireSeq (hw : Mem.wf s.mem = true) (part why slot : ℕ) : Mem.wf (s.retireSeq part why slot).mem = true := by
  unfold retireSeq
  repeat' split
  all_goals simp [hw]

@[simp] theorem memWf_seqretStep (hw : Mem.wf s.mem = true) (a : Asked) (base mask : Word) (why : ℕ) : (s.seqretStep a base mask why).Canon := by
  unfold seqretStep
  split
  · exact hw
  split
  · dsimp only
    split
    · exact hw
    · exact memWf_foldl (fun s x h => by simp [h]) _ hw
  · exact hw

@[simp] theorem mem_takePages (x : StepQ) (n : ℕ) : (s.takePages x n).2.2.mem = s.mem := by
  induction n generalizing s x with
  | zero => rfl
  | succ n ih => simp [takePages, ih]

theorem memWf_admitLoop (hw : Mem.wf s.mem = true) (part want done fuel : ℕ) {x y : ℕ} {u : State} (hu : s.admitLoop part want done fuel = some (x, y, u)) :
    Mem.wf u.mem = true := by
  induction fuel generalizing s done with
  | zero =>
    cases hu
    exact hw
  | succ fuel ih =>
    conv at hu => lhs; whnf
    split at hu
    · cases hu
      exact hw
    split at hu
    · cases hu
      exact hw
    split at hu
    · cases hu
      exact hw
    dsimp only at hu
    split at hu
    · split at hu
      · cases hu
      · exact ih (by simp [hw]) _ hu
    split at hu
    · cases hu
      exact hw
    split at hu
    · cases hu
      exact hw
    refine ih ?_ _ hu
    refine memWf_ringTake ?_ _ _ _
    split
    next h => exact memWf_vaWrite (by simp [hw]) _ _ _ h
    · simp [hw]

@[simp] theorem memWf_seqadmStep (hw : Mem.wf s.mem = true) (a : Asked) (n : Word) : (s.seqadmStep a n).Canon := by
  unfold seqadmStep
  split
  · exact hw
  split
  · exact hw
  split
  · exact hw
  next h => exact memWf_admitLoop hw _ _ _ _ h

@[simp] theorem memWf_poolTakeStep (hw : Mem.wf s.mem = true) (a : Asked) : (s.poolTakeStep a).Canon := by
  unfold poolTakeStep
  dsimp only
  repeat' split
  all_goals simp [hw]

@[simp] theorem memWf_poolGiveStep (hw : Mem.wf s.mem = true) (a : Asked) (pa : Word) : (s.poolGiveStep a pa).Canon := by
  unfold poolGiveStep
  repeat' split
  all_goals simp [hw]

@[simp] theorem mem_launchStep (part : ℕ) (x : StepQ) : (s.launchStep part x).mem = s.mem := by simp [launchStep]

@[simp] theorem mem_nextSeqs (x : StepQ) : (s.nextSeqs x).2.mem = s.mem :=
  List.foldlRecOn (motive := fun x : Map Seq × State => x.2.mem = s.mem) _ _ rfl fun x hx e _ => by simpa using hx

@[simp] theorem memWf_buildStep (hw : Mem.wf s.mem = true) (part : ℕ) : Mem.wf (s.buildStep part).mem = true := by
  unfold buildStep
  split
  · exact hw
  split <;> simp [hw]

@[simp] theorem mem_startScheduler (part : ℕ) : (s.startScheduler part).mem = s.mem := by
  unfold startScheduler
  split <;> simp

@[simp] theorem mem_stepcfg (t : Task) (arg : Word) : (s.stepcfg t arg).1.mem = s.mem := by
  unfold stepcfg
  dsimp only
  repeat' split
  all_goals simp

@[simp] theorem memWf_askStep (hw : Mem.wf s.mem = true) (a : Asked) : (s.askStep a).Canon := by
  unfold askStep
  split
  · exact hw
  split <;> simp [hw]
  split <;> simp [hw]

@[simp] theorem mem_giveReply (key : ℕ) (a : Asked) (w : Word) : (s.giveReply key a w).mem = s.mem := by simp [giveReply]

@[simp] theorem memWf_refuseGive (hw : Mem.wf s.mem = true) (key : ℕ) (a : Asked) (pa : Word) : Mem.wf (s.refuseGive key a pa).mem = true := by simp [refuseGive, hw]

@[simp] theorem memWf_replyAt (hw : Mem.wf s.mem = true) (key : ℕ) : Mem.wf (s.replyAt key).mem = true := by
  unfold replyAt
  split
  · exact hw
  next a _ =>
    dsimp only
    split
    · split <;> simp [hw]
    have ha := memWf_askStep hw a
    split
    next h =>
      rw [h, AskOut.canon_reply] at ha
      split <;> simp [ha]
    next h =>
      rw [h] at ha
      exact ha
    · repeat' split
      all_goals simp [hw]

/-! ### Machine/Services -/

@[simp] theorem mem_answerZero (arg : Word) (result : ℕ) : (s.answerZero arg result).1.mem = s.mem := by
  unfold answerZero
  split <;> simp

@[simp] theorem mem_setIn (t : Task) (ok : Bool) (f : Partition → Partition) : (s.setIn t ok f).1.mem = s.mem := by
  unfold setIn
  split <;> simp

@[simp] theorem mem_settvseg (t : Task) (arg : Word) : (s.settvseg t arg).1.mem = s.mem := by
  unfold settvseg
  dsimp only
  split
  · rfl
  split
  · rfl
  · refine List.foldlRecOn (motive := fun u : State => u.mem = s.mem) _ _ rfl fun u hu k _ => ?_
    repeat' split
    all_goals simp [hu]

@[simp] theorem mem_termclrall (t : Task) : (s.termclrall t).mem = s.mem := by simp [termclrall]

@[simp] theorem mem_hdmbase (arg : Word) : (s.hdmbase arg).1.mem = s.mem := by
  unfold hdmbase
  split <;> simp

@[simp] theorem mem_setptroot (t : Task) (arg : Word) : (s.setptroot t arg).1.mem = s.mem := by simp [setptroot]

@[simp] theorem memWf_setfring (hw : Mem.wf s.mem = true) (t : Task) (arg : Word) : Mem.wf (s.setfring t arg).1.mem = true := by
  unfold setfring
  split <;> simp [hw]

@[simp] theorem mem_collgrp (t : Task) (arg : Word) : (s.collgrp t arg).1.mem = s.mem := by
  unfold collgrp
  dsimp only
  repeat' split
  all_goals simp

@[simp] theorem memWf_holdGiven (hw : Mem.wf s.mem = true) (part : ℕ) (g : Word) : Mem.wf (s.holdGiven part g).1.mem = true := by
  unfold holdGiven
  split
  · exact hw
  split
  · exact hw
  next h => exact memWf_holdQueued (by simp [hw]) _ _ h

@[simp] theorem memWf_preemptSvc (hw : Mem.wf s.mem = true) (t : Task) (g : Word) : Mem.wf (s.preemptSvc t g).1.mem = true := by
  unfold preemptSvc
  split
  · split <;> simp [hw]
  · split
    · simp [hw]
    · split <;> simp [hw]

@[simp] theorem mem_requeueSvc (t : Task) (g : Word) : (s.requeueSvc t g).1.mem = s.mem := by
  unfold requeueSvc
  dsimp only
  repeat' split
  all_goals simp

/-! ### Machine/Trust -/

@[simp] theorem mem_keyload (t : Task) (arg : Word) : (s.keyload t arg).1.mem = s.mem := by
  unfold keyload
  dsimp only
  repeat' split
  all_goals simp

@[simp] theorem mem_keydrop (t : Task) (h : Word) : (s.keydrop t h).1.mem = s.mem := by
  unfold keydrop
  split <;> simp

@[simp] theorem mem_keyctr (t : Task) (h : Word) : (s.keyctr t h).1.mem = s.mem := by
  unfold keyctr
  split <;> simp

@[simp] theorem memWf_pgrebuild (hw : Mem.wf s.mem = true) (t : Task) (arg : Word) : Mem.wf (s.pgrebuild t arg).1.mem = true := by
  unfold pgrebuild
  dsimp only
  split
  · exact hw
  split
  · exact hw
  split
  · exact hw
  · exact memWf_foldl (fun s p h => by simp [h]) _ (memWf_writePieces hw _ _)

@[simp] theorem mem_endRequests (k : ℕ) (m : ℕ) : (s.endRequests k m).mem = s.mem := by simp [endRequests]

@[simp] theorem mem_loseMember (k : ℕ) (m : ℕ) : (s.loseMember k m).mem = s.mem := by
  unfold loseMember
  split <;> simp

@[simp] theorem mem_drawKey  : (s.drawKey).2.mem = s.mem := by simp [drawKey]

@[simp] theorem mem_coordinate (k : ℕ) : (s.coordinate k).mem = s.mem := by
  unfold coordinate
  split <;> simp

@[simp] theorem mem_domBarrier (k : ℕ) (src : ℕ) (gen : ℕ) : (s.domBarrier k src gen).mem = s.mem := by
  unfold domBarrier
  split <;> simp

@[simp] theorem mem_domDrained (k : ℕ) (m : ℕ) : (s.domDrained k m).mem = s.mem := by
  unfold domDrained
  split <;> simp

@[simp] theorem mem_domKeyed (k : ℕ) (src : ℕ) (key : List Byte) : (s.domKeyed k src key).mem = s.mem := by
  unfold domKeyed
  split <;> simp

@[simp] theorem mem_domReady (k : ℕ) (m : ℕ) : (s.domReady k m).mem = s.mem := by
  unfold domReady
  split <;> simp

@[simp] theorem mem_domOpened (k : ℕ) (src : ℕ) : (s.domOpened k src).mem = s.mem := by
  unfold domOpened
  split <;> simp

@[simp] theorem mem_barrierTimeout (k : ℕ) : (s.barrierTimeout k).mem = s.mem := by
  unfold barrierTimeout
  repeat' split
  all_goals simp

@[simp] theorem mem_domset (t : Task) (arg : Word) : (s.domset t arg).1.mem = s.mem := by
  unfold domset
  dsimp only
  repeat' split
  all_goals simp

@[simp] theorem mem_joinEnds (k : ℕ) (l : List JoinReport) : (s.joinEnds k l).mem = s.mem := by
  unfold joinEnds
  dsimp only
  repeat' split
  all_goals simp

@[simp] theorem mem_succeed (k : ℕ) : (s.succeed k).mem = s.mem := by
  unfold succeed
  split <;> simp

@[simp] theorem mem_successorNamed (k : ℕ) (src : ℕ) (m : ℕ) : (s.successorNamed k src m).mem = s.mem := by
  unfold successorNamed
  split <;> simp

@[simp] theorem mem_domleave (t : Task) (arg : Word) : (s.domleave t arg).1.mem = s.mem := by
  unfold domleave
  dsimp only
  repeat' split
  all_goals simp

@[simp] theorem mem_memberLeaves (k : ℕ) (m : ℕ) : (s.memberLeaves k m).mem = s.mem := by
  unfold memberLeaves
  split <;> simp

@[simp] theorem mem_domstat (t : Task) (arg : Word) : (s.domstat t arg).1.mem = s.mem := by
  unfold domstat
  dsimp only
  repeat' split
  all_goals simp

@[simp] theorem mem_tupleBreaks (k : ℕ) (src : ℕ) (ch : ℕ) (c : BitVec 6) : (s.tupleBreaks k src ch c).mem = s.mem := by
  unfold tupleBreaks
  dsimp only
  repeat' split
  all_goals simp

@[simp] theorem memWf_fabricAnswer (hw : Mem.wf s.mem = true) (world : BitVec 4) (kind : ℕ) (pa : ℕ) (len : ℕ) (data : List Byte) : Mem.wf (s.fabricAnswer world kind pa len data).2.2.mem = true := by
  unfold fabricAnswer
  dsimp only
  repeat' split
  all_goals simp [hw]

@[simp] theorem memWf_fabricServe (hw : Mem.wf s.mem = true) (world : BitVec 4) (kind : ℕ) (pa : ℕ) (len : ℕ) (data : List Byte) : Mem.wf (s.fabricServe world kind pa len data).mem = true := by simp [fabricServe, hw]

@[simp] theorem mem_takeBeat (k : ℕ) (m : ℕ) : (s.takeBeat k m).mem = s.mem := by
  unfold takeBeat
  split <;> simp

@[simp] theorem mem_controlled (k : ℕ) (src : ℕ) (a3 : Control) : (s.controlled k src a3).mem = s.mem := by
  unfold controlled
  split <;> simp

@[simp] theorem memWf_domainMessage (hw : Mem.wf s.mem = true) (k : ℕ) (b : List Byte) : Mem.wf (s.domainMessage k b).mem = true := by
  unfold domainMessage
  dsimp only
  repeat' split
  all_goals simp [hw]

@[simp] theorem mem_nextLms : s.nextLms.2.mem = s.mem := by
  unfold nextLms
  dsimp only
  repeat' split
  all_goals rfl

theorem mem_nextLms_eq {x : Option ℕ} {u : State} (h : s.nextLms = (x, u)) : u.mem = s.mem := by
  have hn := mem_nextLms (s := s)
  rwa [h] at hn

/-! ### Machine/Capsule -/

@[simp] theorem mem_signed (m : List Byte) : (s.signed m).2.mem = s.mem := by
  have hn := mem_nextLms (s := s)
  unfold signed
  dsimp only
  split
  next h =>
    rw [h] at hn
    exact hn
  next h =>
    rw [h] at hn
    exact hn

/-! ### Machine/Trust -/

@[simp] theorem memWf_spdm (hw : Mem.wf s.mem = true) (n : ℕ) (okFrom : SpdmPhase → Bool) (next : SpdmPhase) (f : State → State) (hk0 : ∀ x0, Mem.wf x0.mem = true → Mem.wf (f x0).mem = true) : Mem.wf (s.spdm n okFrom next f).mem = true := by
  unfold spdm
  split <;> simp [hw, hk0]

@[simp] theorem mem_signedReply (n code : ℕ) (m : List Byte) : (s.signedReply n code m).mem = s.mem := by
  unfold signedReply
  split
  next h => simp [mem_nextLms_eq h]
  next h => simp [mem_nextLms_eq h]

@[simp] theorem mem_modDbg (part : ℕ) (f : PartDebug → PartDebug) : (s.modDbg part f).mem = s.mem := by simp [modDbg]

@[simp] theorem mem_unhold (part : ℕ) : (s.unhold part).mem = s.mem := by
  unfold unhold
  split
  · rfl
  · exact mem_foldl (fun s c => modCore_mem ..) _ _

@[simp] theorem mem_goDone (part : ℕ) : (s.goDone part).mem = s.mem := by simp [goDone]

@[simp] theorem mem_detach (part : ℕ) : (s.detach part).mem = s.mem := by
  unfold detach
  split
  · rfl
  extract_lets s1 s2 d s3
  have h2 : s2.mem = s1.mem := mem_foldl (fun s g => by split <;> simp) _ _
  have h3 : s3.mem = s.mem := h2.trans (by simp [s1])
  simpa using h3

@[simp] theorem mem_detachAll (session : ℕ) : (s.detachAll session).mem = s.mem := by
  exact mem_foldl (fun s e => mem_detach ..) _ _

/-! ### Machine/Debug -/

@[simp] theorem memWf_dbgReq (hw : Mem.wf s.mem = true) (h : DebugHead) (part op : ℕ) (attachedOnly : Bool) {f : Partition → State × ℕ × List Byte}
    (hf : ∀ p, Mem.wf (f p).1.mem = true) : Mem.wf (s.dbgReq h part op attachedOnly f).mem = true := by
  unfold dbgReq
  dsimp only
  split
  · simp [hw]
  · simp [hw]
  · split
    · simp [hw]
    · split <;> simp [hw, hf]

@[simp] theorem mem_dbgStop1 (part : ℕ) (g : Word) : (s.dbgStop1 part g).mem = s.mem := by simp [dbgStop1]

@[simp] theorem mem_dbgGo1 (part : ℕ) (g : Word) : (s.dbgGo1 part g).mem = s.mem := by simp [dbgGo1]

@[simp] theorem mem_dbgTask (part : ℕ) (g : Word) (op : ℕ) : (s.dbgTask part g op).1.mem = s.mem := by
  unfold dbgTask
  split
  · rfl
  split
  · split <;> simp
  · split <;> simp
  · split <;> simp

@[simp] theorem mem_readReg (part : ℕ) (g : Word) (file : ℕ) (index : ℕ) : (s.readReg part g file index).1.mem = s.mem := by
  unfold readReg
  dsimp only
  repeat' split
  all_goals simp

@[simp] theorem mem_muteReg (g : Word) (r : RegId) : (s.muteReg g r).mem = s.mem := by simp [muteReg]

@[simp] theorem mem_writeReg (part : ℕ) (g : Word) (file : ℕ) (index : ℕ) (x : VWord) : (s.writeReg part g file index x).1.mem = s.mem := by
  unfold writeReg
  dsimp only
  repeat' split
  all_goals simp

@[simp] theorem mem_readTileMem (part : ℕ) (p : Partition) (vt : ℕ) (addr : ℕ) (len : ℕ) : (s.readTileMem part p vt addr len).1.mem = s.mem := by
  unfold readTileMem
  split <;> simp

@[simp] theorem mem_dropStop (i : ℕ) : (s.dropStop i).mem = s.mem := by simp [dropStop]

@[simp] theorem mem_stopAway (t : Task) (cause : BitVec 6) (skid : ℕ) : (s.stopAway t cause skid).mem = s.mem := by simp [stopAway]

@[simp] theorem mem_stopArrives (core : ℕ) (i : ℕ) : (s.stopArrives core i).mem = s.mem := by
  unfold stopArrives
  dsimp only
  repeat' split
  all_goals simp

@[simp] theorem memWf_triggerAt (hw : Mem.wf s.mem = true) (core part : ℕ) (id : BitVec 4) (action : BitVec 2) (count : ℕ) (opkg : BitVec 19)
    (ocore : BitVec 10) (ocycle : ℕ) : Mem.wf (s.triggerAt core part id action count opkg ocore ocycle).mem = true := by
  unfold triggerAt
  split
  · split <;> simp [hw]
  dsimp only
  split
  · simp [hw]
  split
  · refine memWf_foldl (fun s t h => ?_) _ (by simp [hw])
    repeat' split
    all_goals simp [h]
  · simp [hw]

@[simp] theorem mem_sampleAt (core : ℕ) : (s.sampleAt core).mem = s.mem := by
  unfold sampleAt
  split <;> simp

@[simp] theorem memWf_freezeAbroad (hw : Mem.wf s.mem = true) (z : Freeze) : Mem.wf (s.freezeAbroad z).mem = true := by
  refine memWf_foldl (fun s e h => ?_) _ hw
  split <;> simp [h]

@[simp] theorem memWf_freezeAt (hw : Mem.wf s.mem = true) (core : ℕ) : Mem.wf (s.freezeAt core).mem = true := by
  unfold freezeAt
  split
  · exact hw
  dsimp only
  split <;> simp [hw]

@[simp] theorem mem_logFreeze (b : List Byte) : (s.logFreeze b).mem = s.mem := by simp [logFreeze]

@[simp] theorem mem_gatherRings : s.gatherRings.mem = s.mem := by
  unfold gatherRings
  split
  · rfl
  split
  · rfl
  dsimp only
  split
  · rfl
  · simp

@[simp] theorem mem_readView (w : BitVec 4) (t : Tephra) (chunk : ℕ) : (s.readView w t chunk).1.mem = s.mem := by
  unfold readView
  extract_lets b give
  have hg (u : State) (sig : List Byte) : (give u sig).1.mem = u.mem := by
    unfold give
    dsimp only
    split <;> rfl
  split
  · exact hg _ _
  split
  next h => exact mem_nextLms_eq h
  next u h => exact (hg _ _).trans (show u.mem = s.mem from mem_nextLms_eq h)

@[simp] theorem mem_liveRing (p : Partition) (core : ℕ) : (s.liveRing p core).1.mem = s.mem := by
  unfold liveRing
  split
  · rfl
  dsimp only
  split
  next h => exact mem_nextLms_eq h
  next h => exact mem_nextLms_eq h

@[simp] theorem memWf_tephraReq (hw : Mem.wf s.mem = true) (h : DebugHead) (op : ℕ) {f : Session → State × ℕ × List Byte}
    (hf : ∀ x, Mem.wf (f x).1.mem = true) : Mem.wf (s.tephraReq h op f).mem = true := by
  unfold tephraReq
  split
  · simp [hw]
  · simp [hw]
  next x _ _ =>
    dsimp only
    split
    · simp [hw]
    · simp [hf]

/-! ### Machine/HostSide -/

@[simp] theorem memWf_serveUnknown (hw : Mem.wf s.mem = true)  : Mem.wf (s.serveUnknown).mem = true := by
  unfold serveUnknown
  split <;> simp [hw]

@[simp] theorem memWf_grant (hw : Mem.wf s.mem = true) (p : Partition) : Mem.wf (s.grant p).mem = true := by simp +contextual [grant, hw]

@[simp] theorem memWf_createPart (hw : Mem.wf s.mem = true) (r : CreateReq) : Mem.wf (s.createPart r).mem = true := by simp [createPart, hw]

@[simp] theorem memWf_destroyPart (hw : Mem.wf s.mem = true) (part : ℕ) : Mem.wf (s.destroyPart part).mem = true := by simp [destroyPart, hw]

@[simp] theorem memWf_resizePart (hw : Mem.wf s.mem = true) (part : ℕ) (cores : List ℕ) : Mem.wf (s.resizePart part cores).mem = true := by
  unfold resizePart
  split <;> simp [hw]

@[simp] theorem memWf_bindDevice (hw : Mem.wf s.mem = true) (part : ℕ) (dev : ℕ) (weight : ℕ) (slice : ℕ) : Mem.wf (s.bindDevice part dev weight slice).mem = true := by simp [bindDevice, hw]

@[simp] theorem mem_scrub (die : ℕ) : (s.scrub die).mem = s.mem := by simp [scrub]

@[simp] theorem mem_pruneWorlds  : (s.pruneWorlds).mem = s.mem := by simp [pruneWorlds]

@[simp] theorem memWf_createWorld (hw : Mem.wf s.mem = true) (die : ℕ) (world : BitVec 4) (secret : TenantSecret) (capKeys : List Byte) : Mem.wf (s.createWorld die world secret capKeys).mem = true := by simp [createWorld, hw]

@[simp] theorem mem_poisonPages (pa : ℕ) (level : ℕ) : (s.poisonPages pa level).mem = s.mem := by simp [poisonPages]

@[simp] theorem mem_pageError (pa : ℕ) (level : ℕ) : (s.pageError pa level).mem = s.mem := by simp [pageError]

@[simp] theorem memWf_firmwareError (hw : Mem.wf s.mem = true) (pa : ℕ) : Mem.wf (s.firmwareError pa).mem = true := by simp [firmwareError, hw]

@[simp] theorem memWf_reportUnits (hw : Mem.wf s.mem = true) (part pa : ℕ) (runs : List (ℕ × ℕ)) (n : ℕ) :
    Mem.wf (s.reportUnits part pa runs n).mem = true := by
  induction n generalizing s runs with
  | zero => exact hw
  | succ n ih =>
    unfold reportUnits
    split
    · exact hw
    · exact ih (by simp [hw]) _

@[simp] theorem memWf_poisonReported (hw : Mem.wf s.mem = true) (part a : ℕ) : Mem.wf (s.poisonReported part a).mem = true := by
  simp [poisonReported, hw]

@[simp] theorem mem_ideFails (part : ℕ) (link : ℕ) : (s.ideFails part link).mem = s.mem := by
  unfold ideFails
  split <;> simp

@[simp] theorem mem_peerLost (peer : ℕ) : (s.peerLost peer).mem = s.mem := by
  refine mem_foldl (fun s e => ?_) _ _
  split
  · rfl
  · split <;> simp

@[simp] theorem memWf_loseTask (hw : Mem.wf s.mem = true) (t : Task) : Mem.wf (s.loseTask t).mem = true := by simp [loseTask, hw]

@[simp] theorem memWf_destroyAsked (hw : Mem.wf s.mem = true) (part : ℕ) : Mem.wf (s.destroyAsked part).mem = true := by simp [destroyAsked, hw]

@[simp] theorem memWf_serveNext (hw : Mem.wf s.mem = true)  : outCanon (s.serveNext) := by
  unfold serveNext
  repeat' split
  all_goals simp [hw]

/-! ### Machine/Scalar -/

@[simp] theorem memWf_alu (hw : Mem.wf s.mem = true) (o : AluArgs) (litSigned : Bool) (lat : ℕ) (f : Word → Word → Word) : Mem.wf (s.alu o litSigned lat f).mem = true := by simp [alu, hw]

@[simp] theorem memWf_divide (hw : Mem.wf s.mem = true) (o : AluArgs) (litSigned : Bool) (f : Word → Word → Word) : Mem.wf (s.divide o litSigned f).mem = true := by simp [divide, hw]

@[simp] theorem memWf_unary (hw : Mem.wf s.mem = true) (o : UnArgs) (f : Word → Word) : Mem.wf (s.unary o f).mem = true := by simp [unary, hw]

@[simp] theorem memWf_aluImm (hw : Mem.wf s.mem = true) (o : ImmArgs) (signed : Bool) (f : Word → Word → Word) : Mem.wf (s.aluImm o signed f).mem = true := by simp [aluImm, hw]

@[simp] theorem memWf_cmp (hw : Mem.wf s.mem = true) (o : CmpArgs) (c : Cond) : Mem.wf (s.cmp o c).mem = true := by simp [cmp, hw]

@[simp] theorem memWf_cmpImm (hw : Mem.wf s.mem = true) (o : CmpImmArgs) (c : Cond) : Mem.wf (s.cmpImm o c).mem = true := by simp [cmpImm, hw]

@[simp] theorem memWf_pred (hw : Mem.wf s.mem = true) (f : Form) (d : BitVec 3) (r : Task → PWord) : Mem.wf (s.pred f d r).mem = true := by simp [pred, hw]

/-! ### Machine/Start -/

@[simp] theorem mem_lmsAbandon  : (s.lmsAbandon).mem = s.mem := by simp [lmsAbandon]

@[simp] theorem mem_lmsStart  : (s.lmsStart).mem = s.mem := by simp [lmsStart]

@[simp] theorem memWf_bare (hw : Mem.wf s.mem = true) (cold : Bool) : Mem.wf (s.bare cold).mem = true := filter_wfFrom _ hw

@[simp] theorem memWf_start (hw : Mem.wf s.mem = true) (kind : ℕ) (failed parts : List ℕ) (cfg : Vector LinkCfg 2) :
    Mem.wf (s.start kind failed parts cfg).mem = true := by
  unfold start
  extract_lets s1 fail alts steps r st s2
  have h2 : Mem.wf s2.mem = true := by simp [s2, s1, hw]
  dsimp only
  exact h2

@[simp] theorem memWf_recoveryStart (hw : Mem.wf s.mem = true) : Mem.wf s.recoveryStart.mem = true := by
  unfold recoveryStart
  extract_lets s1 r s2
  have h2 : Mem.wf s2.mem = true := by simp [s2, s1, hw]
  dsimp only
  exact h2

@[simp] theorem memWf_nextStart (hw : Mem.wf s.mem = true) (failed parts : List ℕ) : Mem.wf (s.nextStart failed parts).mem = true := by
  unfold nextStart
  split
  · exact hw
  split
  · exact memWf_recoveryStart hw
  · exact memWf_start hw _ _ _ _

@[simp] theorem memWf_warmReset (hw : Mem.wf s.mem = true) : Mem.wf s.warmReset.mem = true := by
  unfold warmReset
  split
  · exact hw
  · exact memWf_start hw _ _ _ _

@[simp] theorem mem_setCapacities  : (s.setCapacities).mem = s.mem := by simp [setCapacities]

@[simp] theorem mem_heatQuarantine (sensor : ℕ) : (s.heatQuarantine sensor).mem = s.mem := by simp [heatQuarantine]

@[simp] theorem mem_sampleSensor (x : Sample) : (s.sampleSensor x).mem = s.mem := by
  unfold sampleSensor
  split <;> simp

@[simp] theorem mem_sampleAll (l : List Sample) : (s.sampleAll l).mem = s.mem := by simp [sampleAll]

@[simp] theorem memWf_recover (hw : Mem.wf s.mem = true) : Mem.wf s.recover.mem = true := by
  unfold recover
  split
  · exact hw
  split
  · exact hw
  extract_lets m s1
  have h1 : Mem.wf s1.mem = true := hw
  split
  · exact memWf_warmReset h1
  · refine memWf_foldl (fun s d h => by simp [h]) _ (memWf_foldl (fun s p h => by simp [h]) _ ?_)
    exact memWf_quarantineWorld h1 _

@[simp] theorem mem_updateFails (step : ℕ) (reason : ℕ) : (s.updateFails step reason).mem = s.mem := by simp [updateFails]

@[simp] theorem mem_writeBegins (image : List Byte) (ok : Bool) : (s.writeBegins image ok).mem = s.mem := by simp [writeBegins]

@[simp] theorem mem_startUpdate (session : ℕ) (image : List Byte) (ok : Bool) : (s.startUpdate session image ok).mem = s.mem := by
  unfold startUpdate
  split
  · exact reply_mem ..
  split
  · exact reply_mem ..
  split
  · exact (reply_mem ..).trans (mem_updateFails ..)
  · exact (reply_mem ..).trans (mem_writeBegins ..)

@[simp] theorem mem_writeEnds (u : Update) : (s.writeEnds u).mem = s.mem := by simp [writeEnds]

@[simp] theorem mem_activate  : (s.activate).mem = s.mem := by simp [activate]

@[simp] theorem mem_recoverImage (image : RecoveryImage) : (s.recoverImage image).mem = s.mem := by
  unfold recoverImage
  repeat' split
  all_goals simp

@[simp] theorem memWf_powerOff (hw : Mem.wf s.mem = true) : Mem.wf s.powerOff.mem = true :=
  memWf_bare (by split <;> simp [hw]) true

/-! ### Machine/Issue -/

@[simp] theorem memWf_issued (hw : Mem.wf s.mem = true) (key : ℕ) : Mem.wf (s.issued key).mem = true := by simp +contextual [issued, hw]

@[simp] theorem mem_portLeft (tag : ℕ) : (s.portLeft tag).mem = s.mem := by
  unfold portLeft
  split <;> simp

@[simp] theorem memWf_execRdms (hw : Mem.wf s.mem = true) (f : Form) (d : Reg) (num : BitVec 13) : outCanon (execRdms f d num s) := by
  unfold execRdms
  dsimp only
  repeat' split
  all_goals simp [hw]

@[simp] theorem memWf_execWaddr (hw : Mem.wf s.mem = true) (o : WaddrArgs) : outCanon (execWaddr o s) := by
  unfold execWaddr
  repeat' split
  all_goals simp [hw]

@[simp] theorem memWf_execEngineCommandComplete (hw : Mem.wf s.mem = true) (tile : ℕ) (q : ℕ) : outCanon (execEngineCommandComplete tile q s) := by
  unfold execEngineCommandComplete
  repeat' split
  all_goals simp [hw]

@[simp] theorem memWf_execEngineDeadlineExpiry (hw : Mem.wf s.mem = true) (tile : ℕ) (q : ℕ) : outCanon (execEngineDeadlineExpiry tile q s) := by
  unfold execEngineDeadlineExpiry
  repeat' split
  all_goals simp [hw]

@[simp] theorem memWf_execSlotOverdue (hw : Mem.wf s.mem = true) (core : ℕ) : outCanon (execSlotOverdue core s) := by
  unfold execSlotOverdue
  repeat' split
  all_goals simp [hw]

@[simp] theorem memWf_execIssueRunLimit (hw : Mem.wf s.mem = true) (core : ℕ) : outCanon (execIssueRunLimit core s) := by
  unfold execIssueRunLimit
  repeat' split
  all_goals simp [hw]

@[simp] theorem memWf_execYieldAgeLimit (hw : Mem.wf s.mem = true) (key : ℕ) : outCanon (execYieldAgeLimit key s) := by
  unfold execYieldAgeLimit
  repeat' split
  all_goals simp [hw]

@[simp] theorem memWf_execRingTailWatch (hw : Mem.wf s.mem = true) (part : ℕ) (ring : ℕ) : outCanon (execRingTailWatch part ring s) := by
  unfold execRingTailWatch
  repeat' split
  all_goals simp [hw]

@[simp] theorem memWf_execRingWatchReread (hw : Mem.wf s.mem = true) (ring : ℕ) : outCanon (execRingWatchReread ring s) := by
  unfold execRingWatchReread
  repeat' split
  all_goals simp [hw]

@[simp] theorem memWf_execWaddrRecheck (hw : Mem.wf s.mem = true) (key : ℕ) : outCanon (execWaddrRecheck key s) := by
  unfold execWaddrRecheck
  repeat' split
  all_goals simp [hw]

@[simp] theorem memWf_execPageWalk (hw : Mem.wf s.mem = true) (i : ℕ) : outCanon (execPageWalk i s) := by
  unfold execPageWalk
  repeat' split
  all_goals simp [hw]

@[simp] theorem memWf_execFaultReply (hw : Mem.wf s.mem = true) (part : ℕ) (i : ℕ) : outCanon (execFaultReply part i s) := by
  unfold execFaultReply
  repeat' split
  all_goals simp [hw]

@[simp] theorem memWf_execHysteresisExpiry (hw : Mem.wf s.mem = true) (part : ℕ) (vpage : ℕ) : outCanon (execHysteresisExpiry part vpage s) := by
  unfold execHysteresisExpiry
  repeat' split
  all_goals simp [hw]

@[simp] theorem memWf_execAtsInvalidateTimeout (hw : Mem.wf s.mem = true) (link : ℕ) (i : ℕ) : outCanon (execAtsInvalidateTimeout link i s) := by
  unfold execAtsInvalidateTimeout
  repeat' split
  all_goals simp [hw]

@[simp] theorem memWf_execAtsInvalidateCompletion (hw : Mem.wf s.mem = true) (link : ℕ) (i : ℕ) : outCanon (execAtsInvalidateCompletion link i s) := by
  unfold execAtsInvalidateCompletion
  repeat' split
  all_goals simp [hw]

@[simp] theorem memWf_execPreemptEngineAbort (hw : Mem.wf s.mem = true) (tile : ℕ) (q : ℕ) : outCanon (execPreemptEngineAbort tile q s) := by
  unfold execPreemptEngineAbort
  repeat' split
  all_goals simp [hw]

@[simp] theorem memWf_execWaitForEventTimeout (hw : Mem.wf s.mem = true) (session : ℕ) (part : ℕ) : outCanon (execWaitForEventTimeout session part s) := by
  unfold execWaitForEventTimeout
  repeat' split
  all_goals simp [hw]

@[simp] theorem memWf_execBuildComplete (hw : Mem.wf s.mem = true) (part : ℕ) (capid : ℕ) : outCanon (execBuildComplete part capid s) := by
  unfold execBuildComplete
  repeat' split
  all_goals simp [hw]

@[simp] theorem memWf_execLeaseWithdrawal (hw : Mem.wf s.mem = true) (tag : ℕ) : outCanon (execLeaseWithdrawal tag s) := by
  unfold execLeaseWithdrawal
  repeat' split
  all_goals simp [hw]

@[simp] theorem memWf_execSetBreakpoint (hw : Mem.wf s.mem = true) (head : DebugHead) (part : ℕ) (b : ℕ) (capid : ℕ) (off : BitVec 32) (gtid : Word) (action : ℕ) (trigId : BitVec 4) (trigAction : BitVec 2) : outCanon (execSetBreakpoint head part b capid off gtid action trigId trigAction s) := by
  unfold execSetBreakpoint
  repeat' split
  all_goals simp [hw]

@[simp] theorem memWf_execDebugStopCluster (hw : Mem.wf s.mem = true) (head : DebugHead) (part : ℕ) (gtid : Word) : outCanon (execDebugStopCluster head part gtid s) := by
  unfold execDebugStopCluster
  repeat' split
  all_goals simp [hw]

@[simp] theorem memWf_execDebugGoCluster (hw : Mem.wf s.mem = true) (head : DebugHead) (part : ℕ) (gtid : Word) : outCanon (execDebugGoCluster head part gtid s) := by
  unfold execDebugGoCluster
  repeat' split
  all_goals simp [hw]

@[simp] theorem memWf_execSendTrigger (hw : Mem.wf s.mem = true) (head : DebugHead) (part : ℕ) (id : ℕ) (action : ℕ) (count : ℕ) : outCanon (execSendTrigger head part id action count s) := by
  unfold execSendTrigger
  repeat' split
  all_goals simp [hw]

@[simp] theorem memWf_execSetSamplePeriod (hw : Mem.wf s.mem = true) (head : DebugHead) (part : ℕ) (k : ℕ) : outCanon (execSetSamplePeriod head part k s) := by
  unfold execSetSamplePeriod
  repeat' split
  all_goals simp [hw]

@[simp] theorem memWf_execWaitForEvent (hw : Mem.wf s.mem = true) (head : DebugHead) (part : ℕ) : outCanon (execWaitForEvent head part s) := by
  unfold execWaitForEvent
  repeat' split
  all_goals simp [hw]

@[simp] theorem memWf_execReadTephra (hw : Mem.wf s.mem = true) (head : DebugHead) (chunk : ℕ) : outCanon (execReadTephra head chunk s) := by
  unfold execReadTephra
  repeat' split
  all_goals simp [hw]

@[simp] theorem memWf_execReleaseTephra (hw : Mem.wf s.mem = true) (head : DebugHead) : outCanon (execReleaseTephra head s) := by
  unfold execReleaseTephra
  repeat' split
  all_goals simp [hw]

@[simp] theorem memWf_execFirmwareActivation (hw : Mem.wf s.mem = true)  : outCanon (execFirmwareActivation s) := by
  unfold execFirmwareActivation
  repeat' split
  all_goals simp [hw]

@[simp] theorem memWf_execUncorrectableError (hw : Mem.wf s.mem = true) (pa : ℕ) (treeLevel : MemError) : outCanon (execUncorrectableError pa treeLevel s) := by
  unfold execUncorrectableError
  repeat' split
  all_goals simp [hw]

@[simp] theorem memWf_execFabricRequestTimeout (hw : Mem.wf s.mem = true) (tag : ℕ) : outCanon (execFabricRequestTimeout tag s) := by
  unfold execFabricRequestTimeout
  repeat' split
  all_goals simp [hw]

@[simp] theorem memWf_execPskExchange (hw : Mem.wf s.mem = true) (session : ℕ) (world : BitVec 4) (psk : List Byte) : outCanon (execPskExchange session world psk s) := by
  unfold execPskExchange
  repeat' split
  all_goals simp [hw]

@[simp] theorem memWf_execHeartbeat (hw : Mem.wf s.mem = true) (part : ℕ) : outCanon (execHeartbeat part s) := by
  unfold execHeartbeat
  repeat' split
  all_goals simp [hw]

@[simp] theorem memWf_execCall (hw : Mem.wf s.mem = true) (off : BitVec 20) (g : Guard) : outCanon (execCall off g s) :=
  memWf_plainG hw _ _ _ _ _ fun t => by simp (disch := simp [hw])

@[simp] theorem memWf_execCallr (hw : Mem.wf s.mem = true) (o : UnArgs) : outCanon (execCallr o s) :=
  memWf_plain hw _ _ _ _ fun t => by simp (disch := simp [hw])

@[simp] theorem memWf_execGbar (hw : Mem.wf s.mem = true) (f : Form) : outCanon (execGbar f s) := by
  refine memWf_plain hw _ _ _ _ fun t => ?_
  split
  · simp [hw]
  · dsimp only
    repeat' split
    all_goals simp [hw]

@[simp] theorem memWf_execGnarrow (hw : Mem.wf s.mem = true) (f : Form) (d a : BitVec 3) (b : Reg) (eb : Bool) (c : Reg) (ec : Bool) (drop : BitVec 4) :
    outCanon (execGnarrow f d a b eb c ec drop s) := by
  refine memWf_plain hw _ _ _ _ fun t => ?_
  split <;> simp [hw]

@[simp] theorem memWf_execTrapret (hw : Mem.wf s.mem = true) (f : Form) : outCanon (execTrapret f s) := by
  refine memWf_privileged hw _ (memWf_plain hw _ _ _ _ fun t => ?_)
  split <;> simp [hw]

@[simp] theorem memWf_execGwrite (hw : Mem.wf s.mem = true) (f : Form) (d : BitVec 3) (a : Reg) (ea : Bool) (b : Reg) (eb : Bool) :
    outCanon (execGwrite f d a ea b eb s) := by
  refine memWf_privileged hw _ (memWf_plain hw _ _ _ _ fun t => ?_)
  dsimp only
  split <;> simp [hw]

@[simp] theorem memWf_execRebuild (hw : Mem.wf s.mem = true) (o : UnArgs) : outCanon (execRebuild o s) := by
  refine memWf_privileged hw _ (memWf_plain hw _ _ _ _ fun t => ?_)
  dsimp only
  repeat' split
  all_goals simp [hw]

@[simp] theorem memWf_execRegisterDelivery (hw : Mem.wf s.mem = true) (tag : ℕ) (how : Arrival) : outCanon (execRegisterDelivery tag how s) := by
  unfold execRegisterDelivery
  split
  · rw [outCanon_next]
    split <;> simp [hw]
  split
  · simp [hw]
  next a _ =>
    cases how with
    | perform =>
      dsimp only
      split
      · exact hw
      next ps _ =>
        split
        · exact hw
        have ha := memWf_atHome hw a.part a.op ps
        split
        · trivial
        · simp [hw]
        · simp [hw]
        next h =>
          rw [h, Home.canon_done] at ha
          simp [ha]
    | arrive => simp [hw]
    | abort => simp [hw]
    | poison => simp [hw]
    | integrity => simp [hw]
    | refused => simp [hw]

@[simp] theorem memWf_execQueuedStoreAccept (hw : Mem.wf s.mem = true) (tag : ℕ) (how : Arrival) : outCanon (execQueuedStoreAccept tag how s) := by
  unfold execQueuedStoreAccept
  split
  · exact hw
  next a _ =>
    split
    · exact hw
    next ps _ =>
      split
      · exact hw
      cases how with
      | perform =>
        dsimp only
        split
        · exact hw
        have ha := memWf_atHome hw a.part a.op ps
        split
        · trivial
        · simp [hw]
        · simp [hw]
        next h =>
          rw [h, Home.canon_done] at ha
          simp [ha]
      | arrive => exact hw
      | abort => simp [hw]
      | poison => simp [hw]
      | integrity => simp [hw]
      | refused => simp [hw]

@[simp] theorem memWf_execTermclrall (hw : Mem.wf s.mem = true) : outCanon (execTermclrall s) :=
  memWf_service hw _ fun t a => by split <;> simp [hw]

@[simp] theorem memWf_execDebugAttach (hw : Mem.wf s.mem = true) (head : DebugHead) (part : ℕ) : outCanon (execDebugAttach head part s) :=
  memWf_dbgReq hw _ _ _ _ fun p => by split <;> simp [hw]

@[simp] theorem memWf_execSetWatchpoint (hw : Mem.wf s.mem = true) (head : DebugHead) (part w kind vtile addr k : ℕ) (mask : BitVec 5) (gtid : Word)
    (action : ℕ) (trigId : BitVec 4) (trigAction : BitVec 2) :
    outCanon (execSetWatchpoint head part w kind vtile addr k mask gtid action trigId trigAction s) := by
  refine memWf_dbgReq hw _ _ _ _ fun p => ?_
  repeat' split
  all_goals simp [hw]

@[simp] theorem memWf_execZeroDelayAccumulators (hw : Mem.wf s.mem = true) (head : DebugHead) (part core : ℕ) :
    outCanon (execZeroDelayAccumulators head part core s) := by
  refine memWf_dbgReq hw _ _ _ _ fun p => ?_
  split
  · exact memWf_foldl (fun s c h => by simp [h]) _ hw
  · split <;> simp [hw]

@[simp] theorem memWf_execCreatePartition (hw : Mem.wf s.mem = true) (r : CreateReq) : outCanon (execCreatePartition r s) :=
  memWf_inTurn hw _ _ fun _ h => memWf_createPart h _

@[simp] theorem memWf_execDestroyPartition (hw : Mem.wf s.mem = true) (part : ℕ) : outCanon (execDestroyPartition part s) :=
  memWf_inTurn hw _ _ fun _ h => memWf_destroyAsked h _

@[simp] theorem memWf_execResizePartition (hw : Mem.wf s.mem = true) (part : ℕ) (cores : List ℕ) : outCanon (execResizePartition part cores s) :=
  memWf_inTurn hw _ _ fun _ h => memWf_resizePart h _ _

@[simp] theorem memWf_execBindVirtualDevice (hw : Mem.wf s.mem = true) (part dev weight slice : ℕ) :
    outCanon (execBindVirtualDevice part dev weight slice s) :=
  memWf_inTurn hw _ _ fun _ h => memWf_bindDevice h _ _ _ _

@[simp] theorem memWf_execDirectoryHostFault (hw : Mem.wf s.mem = true) (part vpage : ℕ) : outCanon (execDirectoryHostFault part vpage s) :=
  memWf_inTurn hw _ _ fun _ h => memWf_dirHostFault h _ _

@[simp] theorem memWf_execCreateWorld (hw : Mem.wf s.mem = true) (die : ℕ) (world : BitVec 4) (secret : TenantSecret) (capKeys : List Byte) :
    outCanon (execCreateWorld die world secret capKeys s) :=
  memWf_inTurn hw _ _ fun _ h => memWf_createWorld h _ _ _ _

@[simp] theorem memWf_execRegisterWrite (hw : Mem.wf s.mem = true) (offset : ℕ) (value : Word) : outCanon (execRegisterWrite offset value s) := by
  unfold execRegisterWrite
  split <;> simp [execHlReqringWrite, execHlEvringWrite, hw]

@[simp] theorem memWf_execGetCapabilities (hw : Mem.wf s.mem = true) (session : ℕ) : outCanon (execGetCapabilities session s) :=
  memWf_spdm hw _ _ _ _ fun _ h => h

@[simp] theorem memWf_execNegotiateAlgorithms (hw : Mem.wf s.mem = true) (session : ℕ) : outCanon (execNegotiateAlgorithms session s) :=
  memWf_spdm hw _ _ _ _ fun _ h => h

@[simp] theorem memWf_execKeyExchange (hw : Mem.wf s.mem = true) (session : ℕ) : outCanon (execKeyExchange session s) :=
  memWf_spdm hw _ _ _ _ fun _ h => h

@[simp] theorem memWf_execFinish (hw : Mem.wf s.mem = true) (session : ℕ) : outCanon (execFinish session s) :=
  memWf_spdm hw _ _ _ _ fun _ h => h

@[simp] theorem memWf_coreFails (hw : Mem.wf s.mem = true) (core : ℕ) : Mem.wf (s.coreFails core).mem = true := by
  unfold coreFails
  extract_lets keys s1 ts c s2 s3
  have h1 : Mem.wf s1.mem = true := memWf_foldl (fun s k h => by simp [h]) _ hw
  have h3 : Mem.wf s3.mem = true := memWf_foldl (fun s t h => by simp [h]) _ h1
  exact h3

@[simp] theorem memWf_execCoreFailure (hw : Mem.wf s.mem = true) (core : ℕ) : outCanon (execCoreFailure core s) := memWf_coreFails hw core

/-- Every instruction keeps memory canonical. -/
theorem memWf_exec (hw : Mem.wf s.mem = true) (i : Instr) : outCanon (exec i s) := by
  cases i <;> simp [exec, hw,
    execBr, execNop, execLoop, execJr, execRet, execTend, execHintYield, execYield, execAdd, execSub, execAnd, execOr, execXor, execAndn,
    execOrn, execShl, execShr, execSra, execRol, execRor, execMin, execMax, execMinu, execMaxu, execClz, execCtz, execPopc, execSext, execZext,
    execBext, execBins, execSh1add, execSh2add, execSh3add, execSh4add, execMul, execMulh, execMulhu, execMulhsu, execDiv, execDivu, execRem,
    execRemu, execCmpEq, execCmpNe, execCmpLt, execCmpGe, execCmpLtu, execCmpGeu, execAddi, execAndi, execOri, execXori, execShli, execShri,
    execSrai, execCmpiEq, execCmpiNe, execCmpiLt, execCmpiGe, execCmpiuLtu, execCmpiuGeu, execWrms, execGrd, execPand, execPor, execPxor,
    execPnot, execPmov, execVwhile, execPcnt, execVmov, execVbcast, execVins, execVext, execVperm, execVsel, execVintVadd, execVintVsub,
    execVintVmul, execVintVmulh, execVintVmin, execVintVmax, execVintVand, execVintVor, execVintVxor, execVintVandn, execVintVshl, execVintVshr,
    execVintVsra, execVintVabs, execVintVneg, execVintVcmpEq, execVintVcmpNe, execVintVcmpLt, execVintVcmpLe, execVdot4, execVintVsum,
    execVfpVadd, execVfpVsub, execVfpVmul, execVfpVmin, execVfpVmax, execVfpVabs, execVfpVneg, execVfpVcmpEq, execVfpVcmpNe, execVfpVcmpLt,
    execVfpVcmpLe, execVfpVsum, execVfma, execVfms, execVfnma, execVfnms, execFmt, execCvt, execCvtMx, execSfuExp, execSfuLog, execSfuRcp,
    execSfuRsqrt, execSfuSqrt, execSfuSin, execSfuCos, execSfuTanh, execSfuSigm, execLdD8, execLdD16, execLdD32, execLdD64, execLdD128,
    execStD4, execStD8, execStD16, execStD32, execStD64, execStD128, execLdfe, execLdfeTake, execStfe, execQld, execQst, execAmoD32, execAmoD64,
    execFork, execJoin, execFence, execQwait, execSend, execRecv, execRecvKeep, execMwait, execTcmd, execSemSig, execSemWait, execPwrAcq,
    execPwrRel, execTermrd, execStepget, execStoptest, execSeqret, execSeqadm, execPoolTake, execPoolGive, execTrap, execCtxsave,
    execCtxsaveTile, execCtxrest, execCtxrestTile, execRecmark, execBkpt, execHalt, execFwcall, execTermclr, execMm, execGath, execCopy,
    execCopyCin, execCopyDec, execCopyEnc, execCollPut, execCollAdd, execCollAr, execQueueFence, execMessageArrival, execTaskWake,
    execIdleSlotSearch, execStealComplete, execCalderaPlacement, execGangReservation, execReservationPreempt, execSliceBoundary,
    execLaunchPacket, execUnloadPacket, execLaunchDone, execRingSpaceFreed, execStepDescriptorBuild, execStepSchedulerStart, execCalderaReply,
    execReleasePerformed, execRemoteAccessRequest, execRemoteNibbleStore, execLeaseExpiry, execMigrationMoveComplete, execPreemptRequestArrival,
    execTileImageSave, execCalderaRestore, execTrapEntry, execQuarantine, execBreakAddr, execStopMessageArrival, execTriggerArrival,
    execIssueSample, execFreezeArrival, execPoisonReport, execFwver, execSetpol, execDonate, execSettvseg, execTime, execHdmbase, execSetlease,
    execSetptroot, execSetfring, execSetdeadline, execCollgrp, execPreempt, execRequeue, execStepcfg, execCapinst, execCapref, execCapdel,
    execCapstat, execCtxdrop, execCapexp, execKeyload, execKeydrop, execKeyctr, execDomset, execDomleave, execDomstat, execPgrebuild,
    execScTakeEffect, execDirectoryDeviceFault, execAtsInvalidateRequest, execRingGather, execDebugDetach, execDebugStop, execDebugGo,
    execDebugStep, execDebugStopPartition, execReadRegister, execWriteRegister, execReadTileMemory, execReadLiveRing, execDebugSessionEnd,
    execHlReqringWrite, execHlEvringWrite, execLogRead, execStartRecordRead, execStartRecordClear, execSensorSample, execRecovery,
    execFirmwareUpdate, execColdStart, execWarmReset, execFailedStepRestart, execRecoveryForm, execPowerLoss, execHostOwnershipRequest,
    execIdeIntegrityFailure, execFabricLinkFailure, execTransportLoss, execLinkStateChange, execDomainJoin, execGetVersion, execGetCertificate,
    execChallenge, execGetMeasurements, execDomainMessageReceive, execBarrier, execDrained, execDomainKey, execReady, execDomOpen,
    execBarrierDrainTimeout, execHeartbeatReceive, execCoordinatorLost, execSuccessorMessage, execSuccessorJoinTimeout, execFrameBoundary,
    execLockInterface, execFabricRequest]

/-! ### The agenda and the cycle's events -/

/-- An event of the machine keeps memory canonical. -/
def KeepsCanon (f : State → Out) : Prop := ∀ u : State, Mem.wf u.mem = true → outCanon (f u)

theorem keepsCanon_exec (i : Instr) : KeepsCanon (exec i) := fun _ hw => memWf_exec hw i

theorem keepsCanon_map {α : Type} (l : List α) (f : α → Instr) : ∀ g ∈ l.map fun x => exec (f x), KeepsCanon g := by
  intro g hg
  obtain ⟨x, -, rfl⟩ := List.mem_map.1 hg
  exact keepsCanon_exec _

theorem keepsCanon_append {l m : List (State → Out)} (hl : ∀ g ∈ l, KeepsCanon g) (hm : ∀ g ∈ m, KeepsCanon g) : ∀ g ∈ l ++ m, KeepsCanon g :=
  List.forall_mem_append.2 ⟨hl, hm⟩

theorem keepsCanon_flatMap {α : Type} {l : List α} {f : α → List (State → Out)} (hf : ∀ x, ∀ g ∈ f x, KeepsCanon g) : ∀ g ∈ l.flatMap f, KeepsCanon g := by
  intro g hg
  obtain ⟨x, -, hx⟩ := List.mem_flatMap.1 hg
  exact hf x g hx

theorem keepsCanon_ite {c : Prop} [Decidable c] {l m : List (State → Out)} (hl : ∀ g ∈ l, KeepsCanon g) (hm : ∀ g ∈ m, KeepsCanon g) :
    ∀ g ∈ if c then l else m, KeepsCanon g := by
  split
  · exact hl
  · exact hm

theorem keepsCanon_nil : ∀ g ∈ ([] : List (State → Out)), KeepsCanon g := List.forall_mem_nil _

theorem keepsCanon_cons {f : State → Out} {l : List (State → Out)} (hf : KeepsCanon f) (hl : ∀ g ∈ l, KeepsCanon g) : ∀ g ∈ f :: l, KeepsCanon g :=
  List.forall_mem_cons.2 ⟨hf, hl⟩

theorem keepsCanon_netEvents : ∀ g ∈ s.netEvents, KeepsCanon g := by
  refine keepsCanon_append (keepsCanon_cons (keepsCanon_exec .scTakeEffect) (keepsCanon_map _ _)) (keepsCanon_flatMap fun a => ?_)
  simp only [List.forall_mem_cons]
  exact ⟨fun u hw => by simp [hw], keepsCanon_exec (.leaseWithdrawal a.tag), keepsCanon_exec _, keepsCanon_exec _, keepsCanon_exec _, keepsCanon_exec _,
    keepsCanon_exec (.fabricRequestTimeout a.tag), keepsCanon_nil⟩

theorem keepsCanon_deadEntries (now base : ℕ) (m : Map (List TlbEntry)) : ∀ g ∈ deadEntries now base m, KeepsCanon g :=
  keepsCanon_flatMap fun _ => keepsCanon_map _ _

theorem keepsCanon_mmuEvents : ∀ g ∈ s.mmuEvents, KeepsCanon g := by
  refine keepsCanon_append (keepsCanon_append (keepsCanon_append (keepsCanon_append (keepsCanon_append (keepsCanon_map _ _) ?_)
    (keepsCanon_deadEntries _ _ _)) (keepsCanon_deadEntries _ _ _)) ?_) ?_
  · exact keepsCanon_flatMap fun _ => keepsCanon_map _ _
  · exact keepsCanon_flatMap fun e => keepsCanon_flatMap fun d => keepsCanon_cons (keepsCanon_exec (.directoryDeviceFault e.1 d.1))
      (keepsCanon_cons (keepsCanon_exec _) (keepsCanon_cons (keepsCanon_exec _) keepsCanon_nil))
  · exact keepsCanon_flatMap fun _ => keepsCanon_flatMap fun _ => keepsCanon_cons (keepsCanon_exec _) (keepsCanon_cons (keepsCanon_exec _) keepsCanon_nil)

theorem keepsCanon_taskEvents : ∀ g ∈ s.taskEvents, KeepsCanon g :=
  keepsCanon_append (keepsCanon_flatMap fun _ => keepsCanon_map _ _) (keepsCanon_flatMap fun _ =>
    keepsCanon_append (keepsCanon_ite (keepsCanon_map _ _) keepsCanon_nil) (keepsCanon_ite keepsCanon_nil
      (keepsCanon_append (keepsCanon_cons (keepsCanon_exec _) keepsCanon_nil) (keepsCanon_ite (keepsCanon_cons (keepsCanon_exec _) keepsCanon_nil) keepsCanon_nil))))

theorem keepsCanon_calderaEvents : ∀ g ∈ s.calderaEvents, KeepsCanon g := by
  refine keepsCanon_append (keepsCanon_append (keepsCanon_append (keepsCanon_append (keepsCanon_map _ _) (keepsCanon_map _ _)) (keepsCanon_map _ _))
    (keepsCanon_flatMap fun e => ?_)) (keepsCanon_ite (keepsCanon_cons (keepsCanon_exec _) keepsCanon_nil) keepsCanon_nil)
  refine keepsCanon_append (keepsCanon_append (keepsCanon_append (keepsCanon_append (keepsCanon_ite (keepsCanon_map _ _) keepsCanon_nil)
    (keepsCanon_map _ _)) (keepsCanon_map _ _)) (keepsCanon_ite (keepsCanon_map _ _) keepsCanon_nil)) ?_
  simp only [List.forall_mem_cons]
  exact ⟨keepsCanon_exec _, keepsCanon_exec _, keepsCanon_exec _, keepsCanon_exec _, keepsCanon_exec _, keepsCanon_exec _, keepsCanon_exec _,
    keepsCanon_exec _, keepsCanon_exec _, keepsCanon_nil⟩

theorem keepsCanon_slowEvents : ∀ g ∈ s.slowEvents, KeepsCanon g := by
  refine keepsCanon_append (keepsCanon_append (keepsCanon_append (keepsCanon_append (keepsCanon_flatMap fun e => ?_) ?_) ?_) ?_) ?_
  · split
    · exact keepsCanon_nil
    next d _ =>
      refine keepsCanon_append ?_ fun g hg => ?_
      · simp only [List.forall_mem_cons]
        exact ⟨keepsCanon_exec (.drained e.1 s.pkgNo.toNat), keepsCanon_exec (.barrierDrainTimeout e.1), keepsCanon_exec (.coordinatorLost e.1),
          keepsCanon_exec (.heartbeat e.1), keepsCanon_nil⟩
      · obtain ⟨m, -, rfl⟩ := List.mem_map.1 hg
        exact keepsCanon_exec (.successorJoinTimeout e.1 m)
  · exact keepsCanon_flatMap fun _ => keepsCanon_map _ _
  · exact keepsCanon_ite (keepsCanon_map _ _) keepsCanon_nil
  · exact keepsCanon_ite (keepsCanon_map _ _) keepsCanon_nil
  · simp only [List.forall_mem_cons]
    exact ⟨fun u hw => memWf_serveNext hw, keepsCanon_exec .ringGather, keepsCanon_exec .recovery, keepsCanon_exec .firmwareActivation,
      keepsCanon_exec (.failedStepRestart _ _), keepsCanon_nil⟩

theorem keepsCanon_events : ∀ g ∈ s.events, KeepsCanon g :=
  keepsCanon_append (keepsCanon_append (keepsCanon_append (keepsCanon_append keepsCanon_netEvents keepsCanon_mmuEvents) keepsCanon_taskEvents)
    keepsCanon_calderaEvents) keepsCanon_slowEvents

theorem keepsCanon_engineStarts : ∀ g ∈ s.engineStarts, KeepsCanon g := by
  refine keepsCanon_flatMap fun e => keepsCanon_ite keepsCanon_nil ?_
  simp only [List.forall_mem_cons]
  exact ⟨keepsCanon_exec _, keepsCanon_exec _, keepsCanon_exec _, keepsCanon_exec _, keepsCanon_exec _, keepsCanon_exec _, keepsCanon_exec _,
    keepsCanon_exec _, keepsCanon_exec _, keepsCanon_exec _, keepsCanon_nil⟩

theorem keepsCanon_engineEvents : ∀ g ∈ s.engineEvents, KeepsCanon g :=
  keepsCanon_flatMap fun _ => keepsCanon_ite keepsCanon_nil (keepsCanon_append (keepsCanon_map _ _)
    (keepsCanon_cons (keepsCanon_exec _) (keepsCanon_cons (keepsCanon_exec _) keepsCanon_nil)))

theorem keepsCanon_arrivals : ∀ g ∈ s.arrivals, KeepsCanon g := by
  refine keepsCanon_append (keepsCanon_append (keepsCanon_append (keepsCanon_append (keepsCanon_append (keepsCanon_append (keepsCanon_append
    (keepsCanon_append (keepsCanon_map _ _) (keepsCanon_map _ _)) (keepsCanon_map _ _)) ?_) ?_) ?_) keepsCanon_engineStarts) keepsCanon_engineEvents)
    (keepsCanon_map _ _)
  · exact keepsCanon_flatMap fun _ => keepsCanon_map _ _
  · exact keepsCanon_flatMap fun _ => keepsCanon_ite keepsCanon_nil (keepsCanon_map _ _)
  · exact keepsCanon_flatMap fun _ => keepsCanon_map _ _

/-- The first event that changes the machine keeps memory canonical. -/
theorem memWf_findSome (hw : Mem.wf s.mem = true) {l : List (State → Out)} (hl : ∀ g ∈ l, KeepsCanon g) {o : Out} (ho : outCanon o) :
    outCanon ((l.findSome? s.outcome).getD o) := by
  cases h : l.findSome? s.outcome with
  | none => exact ho
  | some x =>
    obtain ⟨f, hf, hx⟩ := List.exists_of_findSome?_eq_some h
    have hc := hl f hf s hw
    have hfx : f s = x := by
      unfold outcome at hx
      split at hx
      next t ht =>
        split at hx
        · cases hx
        · exact ht.trans (Option.some.inj hx)
      · exact Option.some.inj hx
    rw [hfx] at hc
    exact hc

/-! ### The step -/

theorem memWf_perform1 (hw : Mem.wf s.mem = true) (key : ℕ) (t : Turn) : outCanon (s.perform1 key t) := by
  cases t with
  | trust c => exact memWf_exec hw (.quarantine key c)
  | due => exact memWf_exec hw (.trapEntry key)
  | call i => exact memWf_exec hw i
  | back => exact memWf_exec hw (.trapret .w32)
  | bound => exact memWf_trap hw _
  | stopAt => exact memWf_exec hw (.breakAddr key)
  | bad e => exact memWf_trapC hw _
  | instr i => exact memWf_exec hw i

theorem memWf_slotTurn (hw : Mem.wf s.mem = true) (key : ℕ) : outCanon (s.slotTurn key) := by
  have ha : Mem.wf (s.at_ key).mem = true := by simp [hw]
  unfold slotTurn
  extract_lets s1 t
  split
  · exact memWf_perform1 (memWf_issued ha key) _ _
  · have hp := memWf_perform1 ha key t
    split
    next u hu =>
      rw [hu, outCanon_next] at hp
      rw [outCanon_next]
      split <;> simp [hp]
    · exact hp

theorem memWf_serve (hw : Mem.wf s.mem = true) (p : Pick) : outCanon (s.serve p) := by
  cases p with
  | event i => exact memWf_exec hw i
  | parks k => exact memWf_perform1 (s := s.at_ k) (by simp [hw]) _ _
  | slot k => exact memWf_slotTurn hw k

theorem memWf_betweenIssues (hw : Mem.wf s.mem = true) : outCanon s.betweenIssues :=
  memWf_findSome (s := { s with turn := 1024 }) hw keepsCanon_events hw

theorem memWf_issueTurn (hw : Mem.wf s.mem = true) : outCanon s.issueTurn := by
  unfold issueTurn
  split
  · exact memWf_exec hw _
  split
  · exact memWf_serve hw _
  · exact memWf_betweenIssues hw

theorem memWf_advance (hw : Mem.wf s.mem = true) : outCanon s.advance := by
  unfold advance
  split
  next i r _ => exact memWf_exec (s := { s with agenda := r }) hw i
  split
  · exact memWf_issueTurn hw
  · exact memWf_findSome hw keepsCanon_arrivals (memWf_issueTurn (s := { s with turn := 0 }) hw)

end State

/-- Settles O60. -/
theorem memoryStaysCanonical : Obligations.MemoryStaysCanonical := by
  unfold Obligations.MemoryStaysCanonical
  intro s t hs ht
  have h : outCanon s.advance := State.memWf_advance hs
  rw [show s.advance = .next t from ht] at h
  exact h

end Sys2Proof.Machine
end

section
/-! PROOFS. Loads, stores, full/empty accesses and atomics on this tile's memory (13:R220 to R223, R227, R235). -/

namespace Sys2Proof.Machine

/-! ### Values of an access -/

/-- The signed value of the low `w` bits. -/
theorem signOf_eq_toInt {x w : Nat} (hw : 0 < w) (hx : x < 2 ^ w) : signOf x w = (BitVec.ofNat w x).toInt := by
  have h : 2 ^ w = 2 * 2 ^ (w - 1) := by rw [← Nat.pow_succ', Nat.succ_eq_add_one, Nat.sub_add_cancel hw]
  have hc : (2 : Int) ^ w = ((2 ^ w : Nat) : Int) := by push_cast; rfl
  rw [BitVec.toInt_eq_toNat_cond, BitVec.toNat_ofNat, Nat.mod_eq_of_lt hx, signOf, hc, h]
  split <;> split <;> omega

theorem leNat_lt : ∀ l : List Byte, leNat l < 256 ^ l.length
  | [] => by simp [leNat]
  | b :: l => by
    have := leNat_lt l
    have := b.isLt
    simp only [leNat, List.length_cons, Nat.pow_succ]
    omega

theorem memNat_lt (m : Mem) (a n : Nat) : memNat m a n < 2 ^ (8 * n) := by
  have h := leNat_lt (memRead m a n)
  rwa [memRead, List.length_map, List.length_range, show (256 : Nat) = 2 ^ 8 from rfl, ← Nat.pow_mul] at h

/-- A loaded value, extended to a register (13:R220). -/
theorem ofNat_extLoad {n x : Nat} (sx : Bool) (h0 : 0 < n) (h8 : n ≤ 8) (hx : x < 2 ^ (8 * n)) :
    BitVec.ofNat 64 (extLoad n sx x) = if sx then (BitVec.ofNat (8 * n) x).signExtend 64 else BitVec.ofNat 64 x := by
  cases sx
  · simp [extLoad]
  by_cases h : n < 8
  · have e : wrapTo 64 (signOf x (8 * n)) = (BitVec.ofInt 64 (signOf x (8 * n))).toNat := by
      rw [BitVec.toNat_ofInt]; rfl
    simp only [extLoad, h, and_self, if_true, e, BitVec.ofNat_toNat, BitVec.setWidth_eq, BitVec.signExtend]
    rw [signOf_eq_toInt (by omega) hx]
  · obtain rfl : n = 8 := by omega
    simp [extLoad, BitVec.signExtend_eq]

theorem extLoad_wide (n : Nat) (sx : Bool) (x : Nat) (h : 8 ≤ n) : extLoad n sx x = x := by
  simp [extLoad, Nat.not_lt.2 h]

/-- Byte `i` of a number cut to `n` bytes. -/
theorem byte_of_mod {d n i : Nat} (h : i < n) : BitVec.ofNat 8 (d % 2 ^ (8 * n) / 256 ^ i) = BitVec.ofNat 8 (d / 256 ^ i) := by
  apply BitVec.eq_of_toNat_eq
  have e : 2 ^ (8 * n) = 256 ^ i * (256 * 256 ^ (n - i - 1)) := by
    rw [show (256 : Nat) = 2 ^ 8 from rfl, ← Nat.pow_mul, ← Nat.pow_mul, ← Nat.pow_add, ← Nat.pow_add]
    congr 1; omega
  rw [BitVec.toNat_ofNat, BitVec.toNat_ofNat, e, Nat.mod_mul_right_div_self, show (2 : Nat) ^ 8 = 256 from rfl, Nat.mod_mul_right_mod]

/-! ### Full/empty bits -/

theorem contains_insNat (l : List Nat) (a b : Nat) : (insNat l a).contains b = (l.contains b || b == a) := by
  induction l with
  | nil => by_cases h : b = a <;> simp [insNat, h]
  | cons x r ih =>
    unfold insNat
    split
    · simp only [List.contains_cons, ih, Bool.or_assoc]
    · split
      · next h => subst h; by_cases hb : b = x <;> simp [hb]
      · simp only [List.contains_cons]; rw [Bool.or_comm, Bool.or_assoc]

namespace State

variable {s : State}

theorem feFull_setFe (a b : Nat) (full : Bool) : (s.setFe a full).feFull b = if full then s.feFull b || b == a else s.feFull b && !(b == a) := by
  cases full
  · simp only [feFull, setFe, Bool.false_eq_true, if_false, contains_insNat, Bool.not_or]
  · by_cases h : b = a <;> simp [feFull, setFe, h]

/-! ### What a segment check lets through -/

theorem check_segCheck {seg : BitVec 3} {o n : Nat} {need : Need} {spaces : List Nat} {align : Nat} {asSizes : List Nat} {x : Segment} {a : Nat}
    (h : s.check seg o n need spaces align asSizes = .ok (x, a)) :
    segCheck (s.partOf? s.task.part) (s.task.getG seg) o n need spaces align asSizes = .ok (x, a) := by
  unfold check at h
  split at h
  · next hs => cases h; exact hs
  · cases h

theorem segCheck_segOf {p : Option Partition} {g : VWord} {o n : Nat} {need : Need} {spaces : List Nat} {align : Nat} {asSizes : List Nat}
    {x : Segment} {a : Nat} (h : segCheck p g o n need spaces align asSizes = .ok (x, a)) : segOf g = x := by
  unfold segCheck at h
  dsimp only at h
  repeat' split at h
  all_goals cases h
  all_goals rfl

theorem check_segOf {seg : BitVec 3} {o n : Nat} {need : Need} {spaces : List Nat} {align : Nat} {asSizes : List Nat} {x : Segment} {a : Nat}
    (h : s.check seg o n need spaces align asSizes = .ok (x, a)) : segOf (s.task.getG seg) = x := segCheck_segOf (check_segCheck h)

theorem check_space {seg : BitVec 3} {o n : Nat} {need : Need} {spaces : List Nat} {align : Nat} {asSizes : List Nat} {x : Segment} {a : Nat}
    (h : s.check seg o n need spaces align asSizes = .ok (x, a)) :
    x.space ∈ spaces ∧ (x.space = 2 ∨ x.space = 6 → n ∈ asSizes) := by
  have hs := check_segCheck h
  unfold segCheck at hs
  rw [check_segOf h] at hs
  dsimp only at hs
  split at hs
  · cases hs
  split at hs
  · cases hs
  next hm =>
  split at hs
  · cases hs
  next ha =>
  exact ⟨by simpa using hm, fun h => by simpa [h] using ha⟩

/-- Memory that no accumulator access reaches. -/
theorem check_noAcc {seg : BitVec 3} {o n : Nat} {need : Need} {spaces : List Nat} {align : Nat} {x : Segment} {a : Nat}
    (h : s.check seg o n need spaces align [] = .ok (x, a)) : (x.space == 2 || x.space == 6) = false := by
  have := (check_space h).2
  grind

theorem tileMem_local {x : Segment} {a : Nat} (h : x.space ≤ 2) : s.tileMem x a = tileAddr s.task.part (x.space == 2 || x.space == 6) s.here a := by
  unfold tileMem tileOfSeg
  rw [if_neg (by omega)]

/-! ### An access that goes on at once -/

theorem sameBut_of_memory {u : State} (h : s.sameButMemory u) (hm : u.mem = s.mem) (hf : u.feEmpty = s.feEmpty) (hv : u.vtiles = s.vtiles) : s.sameBut u := by
  have := h.1
  rwa [hm, hf, hv] at this

/-- A local access writes its memory and its task, and nothing else (10:R173, 06:R103). -/
theorem localDo_goes {acc : Bool} {vt a len v : Nat} {op : AccOp} {f : Task → Nat → Nat → Task} {m : Mem} {fe : List Nat} {vts : Map VTile}
    (h : s.perform (tileAddr s.task.part acc vt a) op = some (v, { s with mem := m, feEmpty := fe, vtiles := vts }))
    (hv : ∀ p w, (State.vtile { s with vtiles := vts } p w).sems = (s.vtile p w).sems ∧ (State.vtile { s with vtiles := vts } p w).waiters = (s.vtile p w).waiters)
    (hf : ∀ l, (f s.task v l).stepping = false ∧ (f s.task v l).pc = s.task.pc ∧ (f s.task v l).gtid = s.task.gtid ∧ (f s.task v l).part = s.task.part)
    (hw : s.watchHits s.task.part (ofBool acc) vt a op.size (accMask op) s.task.gtid = []) :
    s.sameButMemory (s.localDo acc vt a len op f) ∧ (s.localDo acc vt a len op f).mem = m ∧ (s.localDo acc vt a len op f).feEmpty = fe
      ∧ (s.localDo acc vt a len op f).vtiles = vts
      ∧ (s.localDo acc vt a len op f).task = s.goneOn (f s.task v (5 + 2 * s.bankUses acc a)) len := by
  obtain ⟨lat, tl, rfl, e, hq⟩ := localDo_eq (len := len) h hf hw
  rw [e]
  exact ⟨sameButMemory_of hq hv, rfl, rfl, rfl, task_setTask (s := s) _⟩


/-- A checked load: announced, performed here, or sent (13:R220). -/
theorem load_checked {o : LdArgs} {n : Nat} {isV : Bool} {x : Segment} {a : Nat}
    (h : s.performs o.f [if isV then .v o.t else .s o.t] (o.m.reads.map (·.1)) = true)
    (hc : s.check o.m.seg (o.m.offset s.task).toNat n { rd := true } [1, 2, 3, 6] n [4, 16] = .ok (x, a)) :
    s.load o n isV = if o.o.ord = 3 then
        s.announce s.task (.load n o.sx) (.tile (x.space == 2 || x.space == 6) (s.tileOfSeg x) a) (regDst isV o.t) o.f.bytes o.m (decide (2 < x.space))
      else if x.space ≤ 2 then
        if s.localWaits s.task (x.space == 2 || x.space == 6) a n then s
        else s.localDo (x.space == 2 || x.space == 6) s.here a o.f.bytes (.load n o.sx) fun t v lat => writeT (o.m.bump t) s.cycle isV o.t v lat
      else s.remoteSend (o.m.bump s.task) x a o.f.bytes (.load n o.sx) (regDst isV o.t) (o.o.ord == 2) false
        (scopeOr o.o.sn o.o.scope (s.farScope s.task x.target)) := by
  rw [load, plain_performs (performs_reads h), hc]
  exact toWrite_full (performsG_iff.1 h).2.2

/-- A load from this tile's memory (13:R220). -/
theorem load_local {o : LdArgs} {n : Nat} {isV : Bool} {x : Segment} {a : Nat} (ho : o.o.ord ≠ 3)
    (h : s.performs o.f [if isV then .v o.t else .s o.t] (o.m.reads.map (·.1)) = true)
    (hc : s.check o.m.seg (o.m.offset s.task).toNat n { rd := true } [1, 2, 3, 6] n [4, 16] = .ok (x, a)) (ha : s.atOnce x a n 1) :
    s.sameBut (s.load o n isV)
      ∧ (s.load o n isV).task = s.goneOn (writeT (o.m.bump s.task) s.cycle isV o.t (extLoad n o.sx (memNat s.mem (s.tileMem x a) n))
          (5 + 2 * s.bankUses (x.space == 2 || x.space == 6) a)) o.f.bytes := by
  obtain ⟨hs, hl, hw⟩ := ha
  have hst := performs_stepping h
  have e : s.load o n isV = s.localDo (x.space == 2 || x.space == 6) s.here a o.f.bytes (.load n o.sx)
      fun t v lat => writeT (o.m.bump t) s.cycle isV o.t v lat := by
    rw [load_checked h hc, if_neg ho, if_pos hs, hl, if_neg Bool.false_ne_true]
  rw [e, tileMem_local hs]
  obtain ⟨h1, h2, h3, h4, h5⟩ := localDo_goes (s := s) (len := o.f.bytes) (op := .load n o.sx) (f := fun t v lat => writeT (o.m.bump t) s.cycle isV o.t v lat)
    (m := s.mem) (fe := s.feEmpty) (vts := s.vtiles) rfl (fun _ _ => ⟨rfl, rfl⟩) (fun l => by cases isV <;> simp [writeT, hst]) hw
  exact ⟨sameBut_of_memory h1 h2 h3 h4, h5⟩

theorem feLoad_local {o : FeArgs} {take atHome : Bool} {x : Segment} {a : Nat} (h : s.performs o.f [.s o.t] (o.m.reads.map (·.1)) = true)
    (hc : s.check o.m.seg (o.m.offset s.task).toNat 8 { rd := true } [1, 3] 8 [] = .ok (x, a)) (hf : s.feFull (s.tileMem x a) = true)
    (ha : s.atOnce x a 8 (1 + ofBool take * 8)) :
    s.sameButMemory (s.feLoad o take atHome) ∧ (s.feLoad o take atHome).mem = s.mem ∧ (take = false → (s.feLoad o take atHome).vtiles = s.vtiles)
      ∧ (∀ b, (s.feLoad o take atHome).feFull b = (s.feFull b && !(take && b == s.tileMem x a)))
      ∧ (s.feLoad o take atHome).task = s.goneOn ((o.m.bump s.task).writeS s.cycle o.t (BitVec.ofNat 64 (memNat s.mem (s.tileMem x a) 8))
          (5 + 2 * s.bankUses false a)) o.f.bytes := by
  obtain ⟨hs, hl, hw⟩ := ha
  have hst := performs_stepping h
  have hacc := check_noAcc hc
  have hx : x.space = 1 := by have := (check_space hc).1; simp only [List.mem_cons, List.not_mem_nil, or_false] at this; omega
  rw [tileMem_local hs, hacc] at hf ⊢
  rw [hacc] at hl hw
  have e : s.feLoad o take atHome = s.localDo false s.here a o.f.bytes (.feRead take)
      fun t v lat => (o.m.bump t).writeS s.cycle o.t (BitVec.ofNat 64 v) lat := by
    rw [feLoad, plain_performs (performs_reads h), hc]
    simp only [hx, hl, hf, if_true, if_false, Bool.false_eq_true, Bool.not_true]
    exact toWrite_full (performsG_iff.1 h).2.2
  rw [e]
  cases take with
  | false =>
    obtain ⟨h1, h2, h3, h4, h5⟩ := localDo_goes (s := s) (len := o.f.bytes) (op := .feRead false) (f := fun t v lat => (o.m.bump t).writeS s.cycle o.t (BitVec.ofNat 64 v) lat)
      (m := s.mem) (fe := s.feEmpty) (vts := s.vtiles) (if_pos hf) (fun _ _ => ⟨rfl, rfl⟩)
      (fun l => by simp [hst]) hw
    exact ⟨h1, h2, fun _ => h4, fun b => by simp [feFull, h3], h5⟩
  | true =>
    obtain ⟨vts, hd, hv⟩ := dirty_eq (s := s.setFe (tileAddr s.task.part false s.here a) false) (tileAddr s.task.part false s.here a) 8
    obtain ⟨h1, h2, h3, h4, h5⟩ := localDo_goes (s := s) (len := o.f.bytes) (op := .feRead true) (f := fun t v lat => (o.m.bump t).writeS s.cycle o.t (BitVec.ofNat 64 v) lat)
      (m := s.mem) (fe := insNat s.feEmpty (tileAddr s.task.part false s.here a)) (vts := vts)
      ((if_pos hf).trans (by rw [if_pos rfl, hd]; rfl)) hv (fun l => by simp [hst]) hw
    refine ⟨h1, h2, nofun, fun b => ?_, h5⟩
    have := feFull_setFe (s := s) (tileAddr s.task.part false s.here a) b false
    simpa [feFull, h3, setFe] using this

end State

/-- A narrow load extends its value to the register (13:R220). -/
theorem writeT_narrow {t : Task} {now n : Nat} (r : Reg) {sx : Bool} (m : Mem) (a lat : Nat) (h0 : 0 < n) (h8 : n ≤ 8) :
    State.writeT t now false r (extLoad n sx (memNat m a n)) lat
      = t.writeS now r (if sx then (BitVec.ofNat (8 * n) (leNat (memRead m a n))).signExtend 64 else BitVec.ofNat 64 (leNat (memRead m a n))) lat :=
  congrArg (t.writeS now r · lat) (ofNat_extLoad sx h0 h8 (memNat_lt m a n))

theorem writeT_wide {t : Task} {now : Nat} (r : Reg) {sx : Bool} (m : Mem) (a lat : Nat) :
    State.writeT t now true r (extLoad 16 sx (memNat m a 16)) lat = t.writeV now r (BitVec.ofNat 128 (leNat (memRead m a 16))) lat := by
  rw [extLoad_wide _ _ _ (by decide)]; rfl

/-- Settles O21: a local load goes on at once with its value extended; a full/empty read also empties its word when it takes it. -/
theorem localLoads : Obligations.LocalLoads := by
  refine ⟨fun s o x a ho e he => ?_, fun s o x a h hc hf e he ha => ?_⟩
  · simp only [List.mem_cons, List.not_mem_nil, or_false] at he
    rcases he with rfl | rfl | rfl | rfl | rfl <;> intro n h hc ha <;> obtain ⟨h1, h2⟩ := State.load_local ho h hc ha
    all_goals refine ⟨_, rfl, h1, h2.trans (congrArg (s.goneOn · _) ?_)⟩
    · exact writeT_narrow (n := 1) _ _ _ _ (by decide) (by decide)
    · exact writeT_narrow (n := 2) _ _ _ _ (by decide) (by decide)
    · exact writeT_narrow (n := 4) _ _ _ _ (by decide) (by decide)
    · exact writeT_narrow (n := 8) _ _ _ _ (by decide) (by decide)
    · exact writeT_wide _ _ _ _
  · simp only [List.mem_cons, List.not_mem_nil, or_false] at he
    rcases he with rfl | rfl | rfl
    · exact ⟨_, rfl, State.feLoad_local (take := false) h hc hf ha⟩
    · exact ⟨_, rfl, State.feLoad_local (take := true) h hc hf ha⟩
    · exact ⟨_, rfl, State.feLoad_local (take := false) h hc hf ha⟩

namespace State

variable {s : State}

/-- A local access that stores: its bytes become those of `d` but where a decryption hides them (14:R249). -/
theorem localDo_stores {acc : Bool} {vt a len n d v : Nat} {op : AccOp} {f : Task → Nat → Nat → Task} (hm : s.memOk)
    (h : s.perform (tileAddr s.task.part acc vt a) op = some (v, s.coreStore (tileAddr s.task.part acc vt a) n d))
    (hf : ∀ l, (f s.task v l).stepping = false ∧ (f s.task v l).pc = s.task.pc ∧ (f s.task v l).gtid = s.task.gtid ∧ (f s.task v l).part = s.task.part)
    (hw : s.watchHits s.task.part (ofBool acc) vt a op.size (accMask op) s.task.gtid = []) :
    s.sameButMemory (s.localDo acc vt a len op f) ∧ (s.localDo acc vt a len op f).feEmpty = s.feEmpty
      ∧ (s.localDo acc vt a len op f).task = s.goneOn (f s.task v (5 + 2 * s.bankUses acc a)) len
      ∧ ∀ b, memGet (s.localDo acc vt a len op f).mem b =
        if tileAddr s.task.part acc vt a ≤ b ∧ b < tileAddr s.task.part acc vt a + n ∧ s.hiddenAt b = false then
          BitVec.ofNat 8 (d / 256 ^ (b - tileAddr s.task.part acc vt a)) else memGet s.mem b := by
  obtain ⟨m, vts, he, hv, hb⟩ := coreStore_eq (s := s) (tileAddr s.task.part acc vt a) n d
  rw [he] at h
  obtain ⟨h1, h2, h3, -, h5⟩ := localDo_goes (len := len) h hv hf hw
  exact ⟨h1, h3, h5, fun b => by rw [h2]; exact (hb hm).2 b⟩

/-- A checked store: announced, held, performed here, or sent (13:R221). -/
theorem storeOp_checked {o : StArgs} {n : Nat} {isV : Bool} {x : Segment} {a : Nat}
    (h : s.performs o.f [] (o.m.reads.map (·.1) ++ [if isV then .v o.t else .s o.t]) = true)
    (hc : s.check o.m.seg (o.m.offset s.task).toNat n { wr := true } [1, 2, 3, 6] n [4, 16] = .ok (x, a)) {d : Nat}
    (hd : d = (if isV then (s.task.getV o.t).toNat else (s.task.getS o.t).toNat) % 2 ^ (8 * n)) :
    s.storeOp o n isV = if o.o.ord = 3 then
        s.announce s.task (.store n d) (.tile (x.space == 2 || x.space == 6) (s.tileOfSeg x) a) none o.f.bytes o.m (decide (2 < x.space))
      else if x.space ≤ 2 then
        if o.o.ord = 1 ∧ s.releaseWaits s.task.gtid then
          (s.hold s.task (.store s.here (x.space == 2 || x.space == 6) a n d)).completeWith (o.m.bump s.task) o.f.bytes
        else if s.localWaits s.task (x.space == 2 || x.space == 6) a n then s
        else s.localDo (x.space == 2 || x.space == 6) s.here a o.f.bytes (.store n d) fun t _ _ => o.m.bump t
      else s.remoteSend (o.m.bump s.task) x a o.f.bytes (.store n d) none false (o.o.ord == 1)
        (scopeOr o.o.sn o.o.scope (s.farScope s.task x.target)) := by
  subst hd
  rw [storeOp, plain_performs (by cases isV <;> simpa using h), hc]

/-- A store to this tile's memory (13:R221). -/
theorem storeOp_local {o : StArgs} {n : Nat} {isV : Bool} {x : Segment} {a : Nat} (hm : s.memOk) (ho : o.o.ord ≠ 3)
    (hr : o.o.ord = 1 → s.releaseWaits s.task.gtid = false)
    (h : s.performs o.f [] (o.m.reads.map (·.1) ++ [if isV then .v o.t else .s o.t]) = true)
    (hc : s.check o.m.seg (o.m.offset s.task).toNat n { wr := true } [1, 2, 3, 6] n [4, 16] = .ok (x, a)) (ha : s.atOnce x a n 2) :
    s.sameButMemory (s.storeOp o n isV) ∧ (s.storeOp o n isV).feEmpty = s.feEmpty ∧ (s.storeOp o n isV).task = s.goneOn (o.m.bump s.task) o.f.bytes
      ∧ ∀ b, memGet (s.storeOp o n isV).mem b = if s.tileMem x a ≤ b ∧ b < s.tileMem x a + n ∧ s.hiddenAt b = false then
          BitVec.ofNat 8 ((if isV then (s.task.getV o.t).toNat else (s.task.getS o.t).toNat) / 256 ^ (b - s.tileMem x a)) else memGet s.mem b := by
  obtain ⟨hs, hl, hw⟩ := ha
  have hst := performs_stepping h
  have hr' : ¬(o.o.ord = 1 ∧ s.releaseWaits s.task.gtid = true) := fun ⟨h1, h2⟩ => by rw [hr h1] at h2; cases h2
  have e : s.storeOp o n isV = s.localDo (x.space == 2 || x.space == 6) s.here a o.f.bytes
      (.store n ((if isV then (s.task.getV o.t).toNat else (s.task.getS o.t).toNat) % 2 ^ (8 * n))) fun t _ _ => o.m.bump t := by
    rw [storeOp_checked h hc rfl, if_neg ho, if_pos hs, if_neg hr', hl, if_neg Bool.false_ne_true]
  rw [e, tileMem_local hs]
  obtain ⟨h1, h2, h3, h4⟩ := localDo_stores (len := o.f.bytes) (f := fun t _ _ => o.m.bump t)
    (op := .store n ((if isV then (s.task.getV o.t).toNat else (s.task.getS o.t).toNat) % 2 ^ (8 * n))) hm rfl (fun _ => by simp [hst]) hw
  refine ⟨h1, h2, h3, fun b => (h4 b).trans ?_⟩
  by_cases hb : tileAddr s.task.part (x.space == 2 || x.space == 6) s.here a ≤ b ∧ b < tileAddr s.task.part (x.space == 2 || x.space == 6) s.here a + n ∧ s.hiddenAt b = false
  · rw [if_pos hb, if_pos hb, byte_of_mod (by omega)]
  · rw [if_neg hb, if_neg hb]

/-- One nibble of a byte, replaced (13:R222). -/
theorem nibble_eq (hi : Bool) {b d : Nat} (hb : b < 256) (hd : d < 16) :
    (if hi then setField b 4 4 d else setField b 0 4 d) = if hi then b % 16 + d * 16 else b / 16 * 16 + d := by
  cases hi <;> simp only [setField, field, if_true, if_false, Bool.false_eq_true] <;> omega

theorem storeNibble_checked {o : StArgs} {x : Segment} {a : Nat} (h : s.performs o.f [] (o.m.reads.map (·.1) ++ [.s o.t]) = true)
    (hc : s.check o.m.seg ((o.m.offset s.task).toNat / 2) 1 { wr := true } [1, 2, 3, 6] 1 [] = .ok (x, a)) {hi : Bool} {d : Nat}
    (hhi : hi = ((o.m.offset s.task).toNat % 2 == 1)) (hd : d = (s.task.getS o.t).toNat % 16) :
    s.storeNibble o = if x.space ≤ 2 then
        if o.o.ord = 1 ∧ s.releaseWaits s.task.gtid then
          (s.hold s.task (.nibble s.here a hi d)).completeWith (o.m.bump s.task) o.f.bytes
        else if s.localWaits s.task false a 1 then s
        else s.localDo false s.here a o.f.bytes (.nibble hi d) fun t _ _ => o.m.bump t
      else s.remoteSend (o.m.bump s.task) x a o.f.bytes (.nibble hi d) none false (o.o.ord == 1)
        (scopeOr o.o.sn o.o.scope (s.farScope s.task x.target)) := by
  subst hhi hd
  rw [storeNibble, plain_performs (by simpa using h)]
  dsimp only
  rw [hc]

theorem storeNibble_local {o : StArgs} {x : Segment} {a : Nat} (hm : s.memOk) (hr : o.o.ord = 1 → s.releaseWaits s.task.gtid = false)
    (h : s.performs o.f [] (o.m.reads.map (·.1) ++ [.s o.t]) = true)
    (hc : s.check o.m.seg ((o.m.offset s.task).toNat / 2) 1 { wr := true } [1, 2, 3, 6] 1 [] = .ok (x, a)) (ha : s.atOnce x a 1 2) :
    s.sameButMemory (s.storeNibble o) ∧ (s.storeNibble o).feEmpty = s.feEmpty ∧ (s.storeNibble o).task = s.goneOn (o.m.bump s.task) o.f.bytes
      ∧ ∀ b, memGet (s.storeNibble o).mem b = if b = s.tileMem x a ∧ s.hiddenAt b = false then
          BitVec.ofNat 8 (if (o.m.offset s.task).toNat % 2 = 1 then (memGet s.mem (s.tileMem x a)).toNat % 16 + (s.task.getS o.t).toNat % 16 * 16
            else (memGet s.mem (s.tileMem x a)).toNat / 16 * 16 + (s.task.getS o.t).toNat % 16) else memGet s.mem b := by
  obtain ⟨hs, hl, hw⟩ := ha
  have hst := performs_stepping h
  have hacc := check_noAcc hc
  have hr' : ¬(o.o.ord = 1 ∧ s.releaseWaits s.task.gtid = true) := fun ⟨h1, h2⟩ => by rw [hr h1] at h2; cases h2
  rw [tileMem_local hs, hacc]
  rw [hacc] at hl hw
  have e : s.storeNibble o = s.localDo false s.here a o.f.bytes
      (.nibble ((o.m.offset s.task).toNat % 2 == 1) ((s.task.getS o.t).toNat % 16)) fun t _ _ => o.m.bump t := by
    rw [storeNibble_checked h hc rfl rfl, if_pos hs, if_neg hr', hl, if_neg Bool.false_ne_true]
  rw [e]
  obtain ⟨h1, h2, h3, h4⟩ := localDo_stores (len := o.f.bytes) (f := fun t _ _ => o.m.bump t)
    (op := .nibble ((o.m.offset s.task).toNat % 2 == 1) ((s.task.getS o.t).toNat % 16)) hm rfl (fun _ => by simp [hst]) hw
  refine ⟨h1, h2, h3, fun b => (h4 b).trans ?_⟩
  have hone : s.loadNat (tileAddr s.task.part false s.here a) 1 = (memGet s.mem (tileAddr s.task.part false s.here a)).toNat := by
    simp [loadNat, memNat, memRead, leNat]
  rw [hone, nibble_eq _ (memGet s.mem _).isLt (Nat.mod_lt _ (by decide))]
  by_cases hb : b = tileAddr s.task.part false s.here a ∧ s.hiddenAt b = false
  · obtain ⟨rfl, hh⟩ := hb
    simp [hh]
  · rw [if_neg hb, if_neg fun ⟨hl, hu, hh⟩ => hb ⟨by omega, hh⟩]

theorem feStore_checked {o : StfeArgs} {x : Segment} {a : Nat} (h : s.performs o.f [] (o.m.reads.map (·.1) ++ [.s o.t]) = true)
    (hc : s.check o.m.seg (o.m.offset s.task).toNat 8 { wr := true } [1, 3] 8 [] = .ok (x, a)) {d : Nat} (hd : d = (s.task.getS o.t).toNat) :
    s.feStore o = if x.space = 1 then
        if s.releaseWaits s.task.gtid then
          if o.wfe then s else (s.hold s.task (.fill s.here a d)).completeWith (o.m.bump s.task) o.f.bytes
        else if o.wfe && s.feFull (tileAddr s.task.part false s.here a) then s.park 2 (.word (tileAddr s.task.part false s.here a) false)
        else s.localDo false s.here a o.f.bytes (.feStore o.wfe d) fun t _ _ => o.m.bump t
      else s.remoteSend (o.m.bump s.task) x a o.f.bytes (.feStore o.wfe d) none false true (scopeOr o.sn o.scope (s.farScope s.task x.target)) := by
  subst hd
  rw [feStore, plain_performs (by simpa using h), hc]

theorem feStore_local {o : StfeArgs} {x : Segment} {a : Nat} (hm : s.memOk) (h : s.performs o.f [] (o.m.reads.map (·.1) ++ [.s o.t]) = true)
    (hc : s.check o.m.seg (o.m.offset s.task).toNat 8 { wr := true } [1, 3] 8 [] = .ok (x, a)) (hr : s.releaseWaits s.task.gtid = false)
    (hf : o.wfe = true → s.feFull (s.tileMem x a) = false) (ha : s.atOnce x a 8 10) :
    s.sameButMemory (s.feStore o) ∧ (s.feStore o).task = s.goneOn (o.m.bump s.task) o.f.bytes
      ∧ (∀ b, (s.feStore o).feFull b = (s.feFull b || b == s.tileMem x a))
      ∧ ∀ b, memGet (s.feStore o).mem b = if s.tileMem x a ≤ b ∧ b < s.tileMem x a + 8 ∧ s.hiddenAt b = false then
          BitVec.ofNat 8 ((s.task.getS o.t).toNat / 256 ^ (b - s.tileMem x a)) else memGet s.mem b := by
  obtain ⟨hs, -, hw⟩ := ha
  have hst := performs_stepping h
  have hx : x.space = 1 := by have := (check_space hc).1; simp only [List.mem_cons, List.not_mem_nil, or_false] at this; omega
  have hacc := check_noAcc hc
  rw [tileMem_local hs, hacc] at hf ⊢
  rw [hacc] at hw
  have hf' : (o.wfe && s.feFull (tileAddr s.task.part false s.here a)) = false := by
    cases hwfe : o.wfe
    · rfl
    · exact hf hwfe
  have e : s.feStore o = s.localDo false s.here a o.f.bytes (.feStore o.wfe (s.task.getS o.t).toNat) fun t _ _ => o.m.bump t := by
    rw [feStore_checked h hc rfl, if_pos hx, hr, hf', if_neg Bool.false_ne_true, if_neg Bool.false_ne_true]
  obtain ⟨m, vts, he, hv, hb⟩ := coreStore_eq (s := s) (tileAddr s.task.part false s.here a) 8 (s.task.getS o.t).toNat
  rw [e]
  obtain ⟨h1, h2, h3, -, h5⟩ := localDo_goes (s := s) (len := o.f.bytes) (op := .feStore o.wfe (s.task.getS o.t).toNat) (f := fun t _ _ => o.m.bump t)
    (m := m) (fe := s.feEmpty.filter (· != tileAddr s.task.part false s.here a)) (vts := vts) (v := 0)
    (by simp only [perform, hf', Bool.false_eq_true, if_false, he]; rfl) hv (fun _ => by simp [hst]) hw
  refine ⟨h1, h5, fun b => ?_, fun b => by rw [h2]; exact (hb hm).2 b⟩
  have := feFull_setFe (s := s) (tileAddr s.task.part false s.here a) b true
  simpa [feFull, h3, setFe] using this

end State

/-- Settles O22: a local store writes its bytes where no decryption hides them, `st.d4` one nibble, and `stfe` fills its word. -/
theorem localStores : Obligations.LocalStores := by
  refine ⟨fun s o x a hm ho hr e he => ?_, fun s o x a hm hr h hc ha => ⟨_, rfl, State.storeNibble_local hm hr h hc ha⟩,
    fun s o x a hm h hc hr hf ha => ⟨_, rfl, State.feStore_local hm h hc hr hf ha⟩⟩
  simp only [List.mem_cons, List.not_mem_nil, or_false] at he
  rcases he with rfl | rfl | rfl | rfl | rfl <;> intro n h hc ha
  · exact ⟨_, rfl, State.storeOp_local (isV := false) hm ho hr h hc ha⟩
  · exact ⟨_, rfl, State.storeOp_local (isV := false) hm ho hr h hc ha⟩
  · exact ⟨_, rfl, State.storeOp_local (isV := false) hm ho hr h hc ha⟩
  · exact ⟨_, rfl, State.storeOp_local (isV := false) hm ho hr h hc ha⟩
  · exact ⟨_, rfl, State.storeOp_local (isV := true) hm ho hr h hc ha⟩

namespace State

variable {s : State}

/-- A checked atomic: queued, announced, performed here, or sent (13:R227). -/
theorem amo_checked {o : AmoArgs} {w n : Nat} {x : Segment} {a : Nat} (hn : w / 8 = n) (hq : o.queue = 0 ∨ x.space = 4)
    (h : s.performs o.f [.s o.t] ((o.m.reads.map (·.1)) ++ [.s o.c] ++ if o.op = 9 then [.s o.t] else []) = true)
    (hc : s.check o.m.seg (o.m.offset s.task).toNat n { at_ := true } [1, 2, 3, 4, 6] n [4] = .ok (x, a)) {op : AccOp}
    (hop : op = .amo w o.op.toNat ((s.task.getS o.c).toNat % 2 ^ w) ((s.task.getS o.t).toNat % 2 ^ w)) :
    s.amo o w = if x.space = 4 then s.queuePush s.task o.m o.f.bytes 4 a n o.queue.toNat 4 op (regDst false o.t) o.o
      else if o.o.ord = 3 then
        s.announce s.task op (.tile (x.space == 2 || x.space == 6) (s.tileOfSeg x) a) (regDst false o.t) o.f.bytes o.m (decide (2 < x.space))
      else if x.space ≤ 2 then
        if s.localWaits s.task (x.space == 2 || x.space == 6) a n || (o.o.ord == 1 && s.releaseWaits s.task.gtid) then s
        else s.localDo (x.space == 2 || x.space == 6) s.here a o.f.bytes op fun t v lat => (o.m.bump t).writeS s.cycle o.t (BitVec.ofNat 64 v) lat
      else s.remoteSend (o.m.bump s.task) x a o.f.bytes op (regDst false o.t) (o.o.ord == 2) (o.o.ord == 1)
        (scopeOr o.o.sn o.o.scope (s.farScope s.task x.target)) := by
  have hx := check_segOf hc
  have hr : (o.queue != 0 && (segOf (s.task.getG o.m.seg)).space != 4) = false := by
    rw [hx]
    rcases hq with h | h <;> simp [h]
  subst hn
  rw [amo, plain_performs (by simpa [apply_ite (List.map fun x : RegId × Bool => x.1)] using performs_reads h)]
  dsimp only
  rw [hr, hc, hop]
  exact toWrite_full (performsG_iff.1 h).2.2

/-- An atomic on this tile's memory (13:R227). -/
theorem amo_local {o : AmoArgs} {n : Nat} {x : Segment} {a : Nat} (hm : s.memOk) (ho : o.o.ord ≠ 3) (hq : o.queue = 0)
    (hr : o.o.ord = 1 → s.releaseWaits s.task.gtid = false)
    (h : s.performs o.f [.s o.t] ((o.m.reads.map (·.1)) ++ [.s o.c] ++ if o.op = 9 then [.s o.t] else []) = true)
    (hc : s.check o.m.seg (o.m.offset s.task).toNat n { at_ := true } [1, 2, 3, 4, 6] n [4] = .ok (x, a)) (ha : s.atOnce x a n 4) :
    s.sameButMemory (s.amo o (8 * n)) ∧ (s.amo o (8 * n)).feEmpty = s.feEmpty
      ∧ (s.amo o (8 * n)).task = s.goneOn ((o.m.bump s.task).writeS s.cycle o.t (BitVec.ofNat 64 (memNat s.mem (s.tileMem x a) n))
          (5 + 2 * s.bankUses (x.space == 2 || x.space == 6) a)) o.f.bytes
      ∧ ∀ b, memGet (s.amo o (8 * n)).mem b = if s.tileMem x a ≤ b ∧ b < s.tileMem x a + n ∧ s.hiddenAt b = false then
          BitVec.ofNat 8 (amoNew (8 * n) o.op.toNat (memNat s.mem (s.tileMem x a) n) ((s.task.getS o.c).toNat % 2 ^ (8 * n))
            ((s.task.getS o.t).toNat % 2 ^ (8 * n)) / 256 ^ (b - s.tileMem x a)) else memGet s.mem b := by
  obtain ⟨hs, hl, hw⟩ := ha
  have hst := performs_stepping h
  have hn : 8 * n / 8 = n := by omega
  have hr' : (o.o.ord == 1 && s.releaseWaits s.task.gtid) = false := by
    rw [Bool.and_eq_false_imp]
    exact fun h1 => hr (beq_iff_eq.1 h1)
  have h4 : x.space ≠ 4 := by omega
  have e : s.amo o (8 * n) = s.localDo (x.space == 2 || x.space == 6) s.here a o.f.bytes
      (.amo (8 * n) o.op.toNat ((s.task.getS o.c).toNat % 2 ^ (8 * n)) ((s.task.getS o.t).toNat % 2 ^ (8 * n)))
      fun t v lat => (o.m.bump t).writeS s.cycle o.t (BitVec.ofNat 64 v) lat := by
    rw [amo_checked hn (.inl hq) h hc rfl, if_neg h4, if_neg ho, if_pos hs, hl, hr', Bool.or_self, if_neg Bool.false_ne_true]
  rw [e, tileMem_local hs]
  exact localDo_stores (s := s) (len := o.f.bytes) (n := n) (f := fun t v lat => (o.m.bump t).writeS s.cycle o.t (BitVec.ofNat 64 v) lat)
    (op := .amo (8 * n) o.op.toNat ((s.task.getS o.c).toNat % 2 ^ (8 * n)) ((s.task.getS o.t).toNat % 2 ^ (8 * n))) hm
    (by simp only [perform, hn]; rfl) (fun _ => by simp [hst]) (by rw [AccOp.size, hn]; exact hw)

end State

/-- What an atomic makes of the old word `p` and its operand `c` (13:R227). -/
theorem amoNew_signed {w op p c cmp : Nat} (h0 : 0 < w) (hp : p < 2 ^ w) (hc : c < 2 ^ w) :
    amoNew w op p c cmp = match op with
      | 0 => c
      | 1 => (p + c) % 2 ^ w
      | 2 => p &&& c
      | 3 => p ||| c
      | 4 => p ^^^ c
      | 5 => if (BitVec.ofNat w p).toInt ≤ (BitVec.ofNat w c).toInt then p else c
      | 6 => if (BitVec.ofNat w p).toInt ≤ (BitVec.ofNat w c).toInt then c else p
      | 7 => min p c
      | 8 => max p c
      | _ => if p = cmp then c else p := by
  rw [← signOf_eq_toInt h0 hp, ← signOf_eq_toInt h0 hc]
  exact rfl

/-- Settles O23: an atomic returns the old word and stores what its operation makes of it, in one step. -/
theorem localAtomics : Obligations.LocalAtomics := by
  intro s o x a hm ho hq hr e he
  simp only [List.mem_cons, List.not_mem_nil, or_false] at he
  have hc := fun n => Nat.mod_lt (s.task.getS o.c).toNat (Nat.two_pow_pos (8 * n))
  rcases he with rfl | rfl <;> intro n h hk ha
  · obtain ⟨h1, h2, h3, h4⟩ := State.amo_local (n := 4) hm ho hq hr h hk ha
    rw [amoNew_signed (by decide) (memNat_lt _ _ _) (hc 4)] at h4
    exact ⟨_, rfl, h1, h2, h3, h4⟩
  · obtain ⟨h1, h2, h3, h4⟩ := State.amo_local (n := 8) hm ho hq hr h hk ha
    rw [amoNew_signed (by decide) (memNat_lt _ _ _) (hc 8)] at h4
    exact ⟨_, rfl, h1, h2, h3, h4⟩

end Sys2Proof.Machine
end

section
/-! PROOFS. Accesses to another tile's memory (13:R220 to R227, R235, 06:R105). -/

namespace Sys2Proof.Machine

@[simp] theorem noteErr_pc (t : Task) (a : Word) (sub : Nat) : (State.noteErr t a sub).pc = t.pc := by unfold State.noteErr; split <;> rfl
@[simp] theorem noteErr_stepping (t : Task) (a : Word) (sub : Nat) : (State.noteErr t a sub).stepping = t.stepping := by
  unfold State.noteErr; split <;> rfl
@[simp] theorem setErr_pc (t : Task) (r : RegId) : (t.setErr r).pc = t.pc := by
  cases r
  all_goals simp only [Task.setErr] <;> (try split) <;> rfl
@[simp] theorem setErr_stepping (t : Task) (r : RegId) : (t.setErr r).stepping = t.stepping := by
  cases r
  all_goals simp only [Task.setErr] <;> (try split) <;> rfl

theorem markEmpty_part (t : Task) (r : RegId) : (t.markEmpty r).part = t.part := by
  cases r
  all_goals simp only [Task.markEmpty, Task.setFull] <;> (try split) <;> rfl
theorem markEmpty_nissued (t : Task) (r : RegId) : (t.markEmpty r).nissued = t.nissued := by
  cases r
  all_goals simp only [Task.markEmpty, Task.setFull] <;> (try split) <;> rfl
theorem markEmpty_priv (t : Task) (r : RegId) : (t.markEmpty r).priv = t.priv := by
  cases r
  all_goals simp only [Task.markEmpty, Task.setFull] <;> (try split) <;> rfl
theorem markEmpty_standsAt (t : Task) (r : RegId) : State.standsAt (t.markEmpty r) = State.standsAt t := by
  cases r
  all_goals simp only [Task.markEmpty, Task.setFull] <;> (try split) <;> rfl

namespace State

variable {s : State}

/-- A full/empty read of another tile's word that no `join` of it is out for (13:R235). -/
theorem feLoad_remote {o : FeArgs} {take atHome : Bool} {x : Segment} {a : Nat} (h : s.performs o.f [.s o.t] (o.m.reads.map (·.1)) = true)
    (hc : s.check o.m.seg (o.m.offset s.task).toNat 8 { rd := true } [1, 3] 8 [] = .ok (x, a)) (hx : 3 ≤ x.space)
    (hj : s.waitedFor s.task.gtid (.feRead take) x.target a = none) {scope : BitVec 4}
    (hs : scope = scopeOr o.sn o.scope (if atHome then 5 else s.farScope s.task x.target)) :
    s.feLoad o take atHome = if yields s.task o.y then
        s.probe s.task x a take (regDst false o.t) scope fun u t v bad =>
          let w := (o.m.bump t).writeS s.cycle o.t (BitVec.ofNat 64 v) 1
          u.completeWith (if bad then w.setErr (.s o.t) else w) o.f.bytes
      else if atHome then s.joinWait s.task o x a take scope
      else s.remoteSend (o.m.bump s.task) x a o.f.bytes (.feRead take) (regDst false o.t) true false scope := by
  subst hs
  rw [feLoad, plain_performs (performs_reads h), hc]
  dsimp only
  rw [if_neg (by omega), hj, Option.isSome_none, if_neg Bool.false_ne_true]
  exact toWrite_full (performsG_iff.1 h).2.2

/-- A `join` that is issued again while its request is out parks on it again (13:R235). -/
theorem feLoad_joining {o : FeArgs} {take atHome : Bool} {x : Segment} {a : Nat} {r : Acc} (h : s.performs o.f [.s o.t] (o.m.reads.map (·.1)) = true)
    (hc : s.check o.m.seg (o.m.offset s.task).toNat 8 { rd := true } [1, 3] 8 [] = .ok (x, a)) (hx : 3 ≤ x.space)
    (hj : s.waitedFor s.task.gtid (.feRead take) x.target a = some r) : s.feLoad o take atHome = s.park 2 (.response r.tag) := by
  rw [feLoad, plain_performs (performs_reads h), hc]
  dsimp only
  rw [if_neg (by omega), hj, Option.isSome_some, if_pos rfl, joinWait, hj]

/-- A request of the current task is the same whatever its registers hold. -/
theorem withAcc_setTask {t : Task} (hg : t.gtid = s.task.gtid) (hp : t.part = s.task.part) (hn : t.nissued = s.task.nissued)
    (hs : standsAt t = standsAt s.task) (hl : t.priv = s.task.priv) (place : Place) (op : AccOp) (dst : Option RegId) (acq rel : Bool)
    (scope : BitVec 4) (lease : Option Nat) (extra : Nat) (waits : Bool) (carry : List Nat) :
    (s.setTask t).withAcc place op dst acq rel scope lease extra waits carry = s.withAcc place op dst acq rel scope lease extra waits carry := by
  have ht : (s.setTask t).task = t := task_setTask (s := s) _
  unfold withAcc
  rw [ht, hg, hp, hn, hs, hl]
  rfl

theorem sent_of_setTask {t : Task} {u : State} {net : Net} (h : (s.setTask t).sent u net) : s.sent u net :=
  ⟨h.1, fun k hk => (h.2.1 k hk).trans (congrArg (fun o : Option Task => o.getD {}) (mapGet_mapSet_ne _ hk _)), h.2.2⟩

/-- `join` empties its destination and parks until the answer arrives (13:R235). -/
theorem joinWait_eq {o : FeArgs} {x : Segment} {a : Nat} {take : Bool} {scope : BitVec 4}
    (hj : s.waitedFor s.task.gtid (.feRead take) x.target a = none) :
    s.joinWait s.task o x a take scope = (s.setTask (s.task.markEmpty (.s o.t))).remoteWait (s.task.markEmpty (.s o.t)) x a 2 (.feRead take)
      (regDst false o.t) true false scope (o.f.bytes :: if o.m.pinc = true then [o.m.ptr.toNat, o.m.disp.val.toNat] else []) := by
  rw [joinWait, hj, MemOp.bumpBy]
  cases o.m.pinc <;> rfl

theorem joinWait_sent {o : FeArgs} {x : Segment} {a : Nat} {take : Bool} {scope : BitVec 4} (h : s.task.stepping = false)
    (hj : s.waitedFor s.task.gtid (.feRead take) x.target a = none) :
    s.sent (s.joinWait s.task o x a take scope)
        (s.withAcc (.tile (x.space == 6) x.target a) (.feRead take) (regDst false o.t) true false scope (waits := true)
          (carry := o.f.bytes :: if o.m.pinc = true then [o.m.ptr.toNat, o.m.disp.val.toNat] else []))
      ∧ (s.joinWait s.task o x a take scope).task = { s.task.markEmpty (.s o.t) with run := .parked 2 (.response s.tagCtr) } := by
  have ht : (s.setTask (s.task.markEmpty (.s o.t))).task = s.task.markEmpty (.s o.t) := task_setTask (s := s) _
  have hw := remoteWait_sent (s := s.setTask (s.task.markEmpty (.s o.t))) (x := x) (a := a) (row := 2) (op := .feRead take) (dst := regDst false o.t)
    (acq := true) (rel := false) (scope := scope) (carry := o.f.bytes :: if o.m.pinc = true then [o.m.ptr.toNat, o.m.disp.val.toNat] else [])
    (by rw [ht]; simp [h])
  rw [ht, withAcc_setTask (markEmpty_gtid _ _) (markEmpty_part _ _) (markEmpty_nissued _ _) (markEmpty_standsAt _ _) (markEmpty_priv _ _)] at hw
  rw [joinWait_eq hj]
  exact ⟨sent_of_setTask hw.1, hw.2⟩

/-! ### What comes back (13:R235) -/

theorem domainAnswers_nil (p : Nat) : s.domainAnswers p [] = s := by
  unfold domainAnswers domainParts
  split
  · rfl
  · next h => simp only [h, List.flatMap_nil]

theorem wakeNow_task {k row : Nat} {w : Wake} (hr : (s.taskAt k).run = .parked row w) (hs : (s.taskAt k).stopped = false) :
    s.wakeNow k = (s.putTask k ((s.taskAt k).woken s.cycle)).recordSched k 2 row (s.taskAt k).gtid := by
  unfold wakeNow
  simp only [hr, hs, Bool.false_eq_true, if_false]

/-- An instruction that waited in its slot completes there (13:R235, 07:R128). -/
theorem completeAt_task {k row len : Nat} {w : Wake} {f : Task → Task} (hr : (s.taskAt k).run = .parked row w) (hs : (s.taskAt k).stopped = false)
    (hf : (f ((s.taskAt k).woken s.cycle)).stepping = false) (hp : (f ((s.taskAt k).woken s.cycle)).pc = (s.taskAt k).pc) :
    (s.completeAt k len f).taskAt k = { f ((s.taskAt k).woken s.cycle) with
      pc := (s.taskAt k).pc + BitVec.ofNat 64 len, fpend := false, fmtword := 0, skipBreak := false } := by
  have ht : ((s.at_ k).wakeNow k).task = (s.taskAt k).woken s.cycle := by
    rw [wakeNow_task (s := s.at_ k) hr hs]
    exact taskAt_putTask_self _ k _
  have hc : ((s.at_ k).wakeNow k).cur = k := by rw [wakeNow_task (s := s.at_ k) hr hs]; rfl
  unfold completeAt
  dsimp only
  rw [ht, completeWith_after hf (by rw [hp, ht]; rfl), after, setTask, ht, hc]
  exact taskAt_putTask_self _ k _

end State

namespace Task

theorem woken_putS (t : Task) (c : Nat) (r : Reg) (x : Word) : (t.woken c).putS r x = (t.putS r x).woken c := by
  unfold putS; split <;> rfl
theorem woken_setFull (t : Task) (c : Nat) (r : RegId) (b : Bool) : (t.woken c).setFull r b = (t.setFull r b).woken c := by
  cases r
  all_goals simp only [setFull] <;> (try split) <;> rfl
theorem woken_deliver (t : Task) (c : Nat) (r : RegId) (x : VWord) : (t.woken c).deliver r x false = (t.deliver r x false).woken c := by
  have h : (t.woken c).putReg r x = (t.putReg r x).woken c := by
    cases r with
    | s r => exact woken_putS t c r _
    | v r => rfl
    | m r => rfl
  exact (congrArg (·.setFull r true) h).trans (woken_setFull _ c r true)
theorem deliver_false (t : Task) (r : RegId) (x : VWord) : t.deliver r x false = (t.putReg r x).setFull r true := rfl

@[simp] theorem putReg_pc (t : Task) (r : RegId) (x : VWord) : (t.putReg r x).pc = t.pc := by
  cases r
  all_goals simp only [putReg, putS] <;> (try split) <;> rfl
@[simp] theorem putReg_stepping (t : Task) (r : RegId) (x : VWord) : (t.putReg r x).stepping = t.stepping := by
  cases r
  all_goals simp only [putReg, putS] <;> (try split) <;> rfl
@[simp] theorem putReg_holdUntil (t : Task) (r : RegId) (x : VWord) : (t.putReg r x).holdUntil = t.holdUntil := by
  cases r
  all_goals simp only [putReg, putS] <;> (try split) <;> rfl
@[simp] theorem setFull_holdUntil (t : Task) (r : RegId) (b : Bool) : (t.setFull r b).holdUntil = t.holdUntil := by
  cases r
  all_goals simp only [setFull] <;> (try split) <;> rfl

@[simp] theorem deliver_pc (t : Task) (r : RegId) (x : VWord) : (t.deliver r x false).pc = t.pc := by simp [deliver_false]
@[simp] theorem deliver_stepping (t : Task) (r : RegId) (x : VWord) : (t.deliver r x false).stepping = t.stepping := by simp [deliver_false]
@[simp] theorem deliver_holdUntil (t : Task) (r : RegId) (x : VWord) : (t.deliver r x false).holdUntil = t.holdUntil := by simp [deliver_false]

end Task

namespace State

variable {s : State}

/-- What an instruction that comes back does to its task: the pointer's increment, then the destination (13:R235, R225). -/
def gets (t : Task) (bump : Option (Reg × Word)) (dst : Option RegId) (x : VWord) : Task :=
  let w := match bump with
    | some (p, d) => t.putS p (t.getS p + d)
    | none => t
  match dst with
  | some d => w.deliver d x false
  | none => w

theorem gets_woken (t : Task) (c : Nat) (bump : Option (Reg × Word)) (dst : Option RegId) (x : VWord) :
    gets (t.woken c) bump dst x = (gets t bump dst x).woken c ∧ (gets t bump dst x).pc = t.pc ∧ (gets t bump dst x).stepping = t.stepping
      ∧ (gets t bump dst x).holdUntil = t.holdUntil := by
  have hg (p : Reg) : (t.woken c).getS p = t.getS p := rfl
  cases bump <;> cases dst <;> simp [gets, Task.woken_putS, Task.woken_deliver, hg]

/-- The answer of a `join` fills its destination and completes the instruction (13:R235). -/
theorem joinDone_task {r : Acc} {k len v : Nat} {row : Nat} {w : Wake} (hv : r.st = .answered v) (hr : (s.taskAt k).run = .parked row w)
    (hs : (s.taskAt k).stopped = false) (hst : (s.taskAt k).stepping = false) {bump : Option (Reg × Word)}
    (hb : r.carry = len :: (match bump with | some (p, d) => [p.toNat, d.toNat] | none => [])) :
    (s.joinDone k r).taskAt k = { gets (s.taskAt k) bump r.dst (BitVec.ofNat 128 v) with
      run := .resident, holdUntil := max (s.taskAt k).holdUntil (s.cycle + 1), pc := (s.taskAt k).pc + BitVec.ofNat 64 len, fpend := false
      fmtword := 0, skipBreak := false } := by
  obtain ⟨h1, h2, h3, h4⟩ := gets_woken (s.taskAt k) s.cycle bump r.dst (BitVec.ofNat 128 v)
  have e : s.joinDone k r = (s.dropAcc r.tag).completeAt k len fun t => gets t bump r.dst (BitVec.ofNat 128 v) := by
    unfold joinDone
    rw [hv]
    dsimp only
    rw [hb, List.headD_cons]
    refine congrArg ((s.dropAcc r.tag).completeAt k len) (funext fun t => ?_)
    cases bump <;> cases r.dst <;> simp [gets]
  rw [e, completeAt_task (s := s.dropAcc r.tag) hr hs]
  · rw [← h4]
    exact congrArg (fun t : Task => { t with pc := (s.taskAt k).pc + BitVec.ofNat 64 len, fpend := false, fmtword := 0, skipBreak := false }) h1
  · exact (congrArg Task.stepping h1).trans (h3.trans hst)
  · exact (congrArg Task.pc h1).trans h2

/-- The answer arrives at the core (13:R235). -/
theorem arrive_joins {r : Acc} {k v vt a : Nat} (hsfu : s.net.sfu = []) (ha : s.accOf? r.tag = some r) (hw : r.waits = true)
    (hop : r.op = .feRead false) (hp : r.place = .tile false vt a) (hd : r.dead = false) (hst : r.st = .performed v)
    (hc : r.issued + 24 + r.extra ≤ s.cycle) (hk : s.keyOf? r.owner = some k) :
    exec (.registerDelivery r.tag .arrive) s = .next (State.joinDone ((s.putAcc { r with st := .answered v }).addDelay { r with st := .answered v }) k { r with st := .answered v }) := by
  have hq : s.queueFirst r = true := by rw [queueFirst, Acc.queue?, hp]
  have hl : s.latencyOf r = 24 := by rw [latencyOf, hp]
  have hpc : r.pieces = [] := by rw [Acc.pieces, hp]
  have hj : Acc.joins { r with st := .answered v } = true := by simp [Acc.joins, hw, hop]
  have e : exec (.registerDelivery r.tag .arrive) s = .next (s.accArrive r) := by
    simp only [exec, execRegisterDelivery, hsfu, List.find?_nil, ha]
  rw [e, accArrive, hq, hl, hst, hpc, if_neg (by simpa using hc)]
  dsimp only
  rw [domainAnswers_nil, if_pos (show (r.waits && !r.dead) = true by rw [hw, hd]; rfl), backTo]
  dsimp only
  rw [show ((s.putAcc { r with st := .answered v }).addDelay { r with st := .answered v }).keyOf? r.owner = some k from hk, hj]
  rfl

end State


namespace State

variable {s : State}

/-- A yielding read whose probe has come back (13:R235, 17:R271). -/
theorem feLoad_cameBack {o : FeArgs} {take atHome : Bool} {x : Segment} {a : Nat} {r : Acc} (h : s.performs o.f [.s o.t] (o.m.reads.map (·.1)) = true)
    (hc : s.check o.m.seg (o.m.offset s.task).toNat 8 { rd := true } [1, 3] 8 [] = .ok (x, a)) (hx : 3 ≤ x.space)
    (hj : s.waitedFor s.task.gtid (.feRead take) x.target a = none) (hy : yields s.task o.y = true)
    (hp : s.waitedFor s.task.gtid (.feProbe take) x.target a = some r) :
    (∀ v, r.st = .answered v → s.feLoad o take atHome = if v < 2 ^ 64 then
        State.after (s.dropAcc r.tag) ((o.m.bump s.task).writeS s.cycle o.t (BitVec.ofNat 64 v) 1) o.f.bytes
      else (s.dropAcc r.tag).yieldNow s.task)
    ∧ ∀ b, r.st = .failed b → s.feLoad o take atHome = State.after (s.dropAcc r.tag)
        (((o.m.bump (noteErr s.task (accErrAddr r) (placeSub r))).writeS s.cycle o.t 0 1).setErr (.s o.t)) o.f.bytes := by
  have hst := performs_stepping h
  rw [feLoad_remote h hc hx hj rfl, hy, if_pos rfl, probe, hp]
  refine ⟨fun v hv => ?_, fun b hb => ?_⟩
  · simp only [cameBack, hv]
    refine if_congr Iff.rfl ?_ rfl
    exact completeWith_after (s := s.dropAcc r.tag) (by simp [hst]) (by simp; rfl)
  · simp only [cameBack, hb, if_true, show (0 : Nat) < 2 ^ 64 by decide]
    exact completeWith_after (s := s.dropAcc r.tag) (by simp [hst]) (by simp; rfl)

theorem feLoad_probes {o : FeArgs} {take atHome : Bool} {x : Segment} {a : Nat} (h : s.performs o.f [.s o.t] (o.m.reads.map (·.1)) = true)
    (hc : s.check o.m.seg (o.m.offset s.task).toNat 8 { rd := true } [1, 3] 8 [] = .ok (x, a)) (hx : 3 ≤ x.space)
    (hj : s.waitedFor s.task.gtid (.feRead take) x.target a = none) (hy : yields s.task o.y = true)
    (hp : s.waitedFor s.task.gtid (.feProbe take) x.target a = none) {scope : BitVec 4}
    (hs : scope = scopeOr o.sn o.scope (if atHome then 5 else s.farScope s.task x.target)) :
    s.feLoad o take atHome = s.remoteWait s.task x a 2 (.feProbe take) (regDst false o.t) true false scope [] := by
  rw [feLoad_remote h hc hx hj hs, hy, if_pos rfl, probe, hp]

end State

/-- Settles O24: an access to another tile leaves its request and goes on, or waits for its answer and completes with it. -/
theorem remoteAccesses : Obligations.RemoteAccesses := by
  refine ⟨fun s x a hx => ?_, fun s r k len v vt a hsfu ha hw hop hp hd hst hc hk hr hs hst' bump hb => ?_⟩
  · have h2 : ¬ x.space ≤ 2 := by omega
    have h1 : x.space ≠ 1 := by omega
    intro place scope sent
    have sends {u : State} {m : MemOp} {len : Nat} {op : AccOp} {dst : Option RegId} {acq rel : Bool} {n : BitVec 4}
        (ht : s.task.stepping = false) (h : u = s.remoteSend (m.bump s.task) x a len op dst acq rel n) : sent (.next u) m len op dst acq rel n :=
      ⟨u, rfl, h ▸ State.remoteSend_sent (by simp [ht]) (by simp) (by simp) (by simp)⟩
    refine ⟨fun o ho e he h hc => ?_, fun o ho e he h hc => ?_, fun o h hc => ?_, fun o ho hq h4 e he h hc => ?_, fun o h hc => ?_, fun o h hc => ?_⟩
    · simp only [List.mem_cons, List.not_mem_nil, or_false] at he
      rcases he with rfl | rfl | rfl | rfl | rfl
      all_goals exact sends (State.performs_stepping h) ((State.load_checked h hc).trans (by rw [if_neg ho, if_neg h2]; rfl))
    · simp only [List.mem_cons, List.not_mem_nil, or_false] at he
      rcases he with rfl | rfl | rfl | rfl | rfl
      all_goals exact sends (State.performs_stepping h) ((State.storeOp_checked h hc rfl).trans (by rw [if_neg ho, if_neg h2]; rfl))
    · exact sends (State.performs_stepping h) ((State.storeNibble_checked h hc rfl rfl).trans (if_neg h2))
    · simp only [List.mem_cons, List.not_mem_nil, or_false] at he
      rcases he with rfl | rfl
      all_goals exact sends (State.performs_stepping h) ((State.amo_checked rfl (.inl hq) h hc rfl).trans (by rw [if_neg h4, if_neg ho, if_neg h2]; rfl))
    · exact sends (State.performs_stepping h) ((State.feStore_checked h hc rfl).trans (if_neg h1))
    · have hst := State.performs_stepping h
      intro t dst asks ends plain joining wide takes
      have taken {i : Instr} {take atHome : Bool} {n : BitVec 4} (hi : exec i s = .next (s.feLoad o take atHome))
          (hn : n = State.scopeOr o.sn o.scope (if atHome then 5 else s.farScope s.task x.target)) (hy : ¬ plain) : takes i take n := by
        intro hj
        have hy' : State.yields s.task o.y = true := by
          rw [State.yields]
          by_contra hn
          refine hy ?_
          by_cases hg : s.task.gang = none
          · exact .inr (by simpa [hg] using hn)
          · exact .inl hg
        refine ⟨fun hp => ⟨_, hi, ?_⟩, fun r hp => ⟨fun v hv => ?_, fun b hb => ?_⟩⟩
        · rw [State.feLoad_probes h hc hx hj hy' hp hn]
          exact State.remoteWait_sent hst
        · have := (State.feLoad_cameBack (atHome := atHome) h hc hx hj hy' hp).1 v hv
          split
          · next hlt => rw [hi, this, if_pos hlt]
          · next hlt => rw [hi, this, if_neg hlt]
        · rw [hi, (State.feLoad_cameBack h hc hx hj hy' hp).2 b hb]
      have plainly (hp : plain) : State.yields s.task o.y = false := by
        rcases hp with hg | hy
        · rw [State.yields, Option.isNone_eq_false_iff.2 (Option.isSome_iff_ne_none.2 hg), Bool.and_false]
        · rw [State.yields, hy, Bool.false_and]
      refine ⟨fun hp => ⟨fun hj => ?_, fun hj => ?_, fun hj => ?_⟩, fun r hj => ?_, fun hp => ⟨?_, ?_, ?_⟩⟩
      · exact sends hst ((State.feLoad_remote h hc hx hj rfl).trans (by rw [plainly hp]; rfl))
      · exact sends hst ((State.feLoad_remote h hc hx hj rfl).trans (by rw [plainly hp]; rfl))
      · have e : s.feLoad o false true = s.joinWait s.task o x a false wide := by
          rw [State.feLoad_remote h hc hx hj (scope := wide) rfl, plainly hp, if_neg Bool.false_ne_true, if_pos rfl]
        have hi : exec (.join o) s = .next (s.feLoad o false true) := rfl
        rw [e] at hi
        exact ⟨_, hi, State.joinWait_sent hst hj⟩
      · have hi : exec (.join o) s = .next (s.feLoad o false true) := rfl
        rw [State.feLoad_joining h hc hx hj] at hi
        exact ⟨_, hi, State.park_sameBut hst, State.park_task hst⟩
      · exact taken (atHome := false) rfl rfl hp
      · exact taken (atHome := false) rfl rfl hp
      · exact taken (atHome := true) rfl rfl hp
  · refine ⟨_, State.arrive_joins hsfu ha hw hop hp hd hst hc hk, ?_⟩
    have ht : ((s.putAcc { r with st := .answered v }).addDelay { r with st := .answered v }).taskAt k = s.taskAt k := rfl
    have hd := State.joinDone_task (s := (s.putAcc { r with st := .answered v }).addDelay { r with st := .answered v }) (k := k)
      (r := { r with st := .answered v }) rfl (by rw [ht]; exact hr) (by rw [ht]; exact hs) (by rw [ht]; exact hst') hb
    rw [ht] at hd
    unfold State.gets at hd
    exact hd

end Sys2Proof.Machine
end

section
/-! PROOFS. Queued accesses (13:R225, R227, 06:R106, R107) and operations of order `sc` (07:R127, R128). -/

namespace Sys2Proof.Machine

@[simp] theorem awaits_gtid (t : Task) (d : Option RegId) : (t.awaits d).gtid = t.gtid := by
  cases d <;> simp [Task.awaits]
@[simp] theorem awaits_part (t : Task) (d : Option RegId) : (t.awaits d).part = t.part := by
  cases d <;> simp [Task.awaits, markEmpty_part]

namespace State

variable {s : State}

/-! ### Queued accesses -/

/-- The state with other cluster TLBs and host translation caches. -/
def cachesAs (s : State) (tlb : Map (List TlbEntry)) (atc : Map (List Nat)) : State := { s with mmu := { s.mmu with tlb1 := tlb, atc := atc } }

theorem tlbRefill_caches (tlb : Map (List TlbEntry)) (part core va acc : Nat) :
    ∃ tlb', (s.cachesAs tlb s.mmu.atc).tlbRefill part core va acc = s.cachesAs tlb' s.mmu.atc := by
  unfold tlbRefill
  split
  · exact ⟨_, rfl⟩
  · split
    · exact ⟨_, rfl⟩
    · exact ⟨_, rfl⟩

theorem atcFill_caches (tlb : Map (List TlbEntry)) (atc : Map (List Nat)) (part : Nat) (ps : List Piece) :
    ∃ atc', (s.cachesAs tlb atc).atcFill part ps = s.cachesAs tlb atc' := by
  unfold atcFill
  split
  · exact ⟨_, rfl⟩
  · dsimp only
    split
    · exact ⟨_, rfl⟩
    · exact ⟨_, rfl⟩

/-- Translating at the core's port brings entries into its caches, and does nothing else (19:R297). -/
theorem portCaches (space part core va n acc : Nat) (ps : List Piece) :
    ∃ tlb atc, (if space = 4 then (s.tlbRefill part core va acc).tlbRefill part core (va + n - 1) acc else s).atcFill part ps = s.cachesAs tlb atc := by
  split
  · obtain ⟨t1, h1⟩ := tlbRefill_caches (s := s) s.mmu.tlb1 part core va acc
    obtain ⟨t2, h2⟩ := tlbRefill_caches (s := s) t1 part core (va + n - 1) acc
    obtain ⟨c, h3⟩ := atcFill_caches (s := s) t2 s.mmu.atc part ps
    refine ⟨t2, c, ?_⟩
    rw [show s.tlbRefill part core va acc = s.cachesAs t1 s.mmu.atc from h1, h2, h3]
  · obtain ⟨c, h⟩ := atcFill_caches (s := s) s.mmu.tlb1 s.mmu.atc part ps
    exact ⟨_, c, h⟩

theorem extEnds_unwatched {t : Task} {len space a : Nat} {op : AccOp}
    (h : space = 4 → s.watchHits t.part 2 0 a op.size (accMask op) t.gtid = []) : s.extEnds t len op space a = s.completeWith t len := by
  unfold extEnds
  split
  · rfl
  · next hs =>
    refine completeWatched_none fun x hx => ?_
    obtain rfl := List.mem_singleton.1 hx
    exact h (not_not.1 hs)

/-- A queued request takes its entry and its instruction goes on (13:R225). -/
theorem queueSend_sent {t : Task} {place : Place} {op : AccOp} {dst : Option RegId} {acq rel : Bool} {scope : BitVec 4} {lease : Option Nat}
    {extra len space a : Nat} {w : State → State} (hw : ∀ s, ∃ c, w s = { s with cores := c }) (h : t.stepping = false) (hp : t.pc = s.task.pc)
    (hg : t.gtid = s.task.gtid) (hq : t.part = s.task.part)
    (hh : space = 4 → s.watchHits s.task.part 2 0 a op.size (accMask op) s.task.gtid = []) :
    let u := ((s.sendAcc fun tag => { tag := tag, owner := s.task.gtid, key := s.cur, part := s.task.part, op := op, place := place, dst := dst
                                      acq := acq, rel := rel, scope := scope, leaseEnd := lease, issued := s.cycle, extra := extra }).sampled s.task w).extEnds t len op space a
    s.sent u (s.withAcc place op dst acq rel scope (lease := lease) (extra := extra)) ∧ u.task = s.goneOn t len := by
  obtain ⟨c, hc⟩ := sampled_eq (s := s.sendAcc fun tag =>
    { tag := tag, owner := s.task.gtid, key := s.cur, part := s.task.part, op := op, place := place, dst := dst
      acq := acq, rel := rel, scope := scope, leaseEnd := lease, issued := s.cycle, extra := extra }) s.task hw
  dsimp only
  rw [hc, extEnds_unwatched (by rw [hg, hq]; exact hh), completeWith_after h (by rw [hp]; rfl)]
  exact ⟨sameBut_slots (x := (s.after t len).slots) rfl fun _ hk => mapGet_mapSet_ne _ hk _, task_setTask (s := s) _⟩

/-- A miss leaves one walk of the task's for the page (19:R297). -/
theorem startWalk_eq (seg : BitVec 3) (va acc : Nat) :
    s.startWalk s.task seg va acc = { s with mmu := { s.mmu with walks := (s.startWalk s.task seg va acc).mmu.walks } }
      ∧ ∃ k ∈ (s.startWalk s.task seg va acc).mmu.walks, k.gtid = s.task.gtid ∧ k.va / 4096 = va / 4096 ∧ k.acc = acc := by
  unfold startWalk
  dsimp only
  split
  · next h =>
    obtain ⟨k, hk, hm⟩ := List.any_eq_true.1 h
    exact ⟨rfl, k, hk, by simpa [and_assoc] using hm⟩
  · exact ⟨rfl, _, List.mem_append_right _ (List.mem_singleton_self _), rfl, rfl, rfl⟩

theorem sameBut_caches {tlb : Map (List TlbEntry)} {atc : Map (List Nat)} {u : State} (h : (s.cachesAs tlb atc).sameBut u) :
    State.sameBut { s with mmu := { s.mmu with tlb1 := u.mmu.tlb1, atc := u.mmu.atc } } u := by
  have hm : u.mmu = { s.mmu with tlb1 := tlb, atc := atc } := congrArg State.mmu h.1
  rw [hm]; exact h

theorem sent_caches {tlb : Map (List TlbEntry)} {atc : Map (List Nat)} {u : State} {net : Net} (h : (s.cachesAs tlb atc).sent u net) :
    State.sent { s with mmu := { s.mmu with tlb1 := u.mmu.tlb1, atc := u.mmu.atc } } u net := by
  have hm : u.mmu = { s.mmu with tlb1 := tlb, atc := atc } := congrArg State.mmu h.1
  rw [hm]; exact h

/-- An operation of order `sc` waits for what is before it (07:R127). -/
theorem announce_waits {op : AccOp} {place : Place} {dst : Option RegId} {len : Nat} {m : MemOp} {far : Bool}
    (h : s.unperformed s.task.gtid = true ∨ s.acqPending s.task.gtid = true) :
    s.announce s.task op place dst len m far = s.park 9 (.performed false) := by
  rw [announce, if_pos (by simpa using h)]

/-- A translated access: it waits, is announced, or takes its entry, in the state whose caches hold its pages (13:R225). -/
theorem queuePush_pieces {m : MemOp} {len space a n q acc : Nat} {op : AccOp} {dst : Option RegId} {o : Order} {ps : List Piece}
    (hx : s.extPieces s.task space a n acc = .pieces ps) : ∃ tlb atc,
    s.queuePush s.task m len space a n q acc op dst o =
      if s.domainHolds s.task.part ps then (s.cachesAs tlb atc).park 10 .domain
      else if s.queueRoom s.task.part (coreOf s.cur) q = false then (s.cachesAs tlb atc).park 10 (.queueShare q)
      else if o.ord = 3 then (s.cachesAs tlb atc).announce s.task op (.ext space q a ps) dst len m false
      else if o.ord = 1 ∧ ps.any orderedPiece = true ∧ s.unperformed s.task.gtid = true then (s.cachesAs tlb atc).park 9 (.performed false)
      else (((s.cachesAs tlb atc).sendAcc fun tag =>
        { tag := tag, owner := s.task.gtid, key := s.cur, part := s.task.part, op := op, place := .ext space q a ps, dst := dst
          acq := o.ord == 2 && ps.any orderedPiece, rel := o.ord == 1 && ps.any orderedPiece
          scope := scopeOr o.sn o.scope (extScope space)
          leaseEnd := if space = 4 then s.leaseOf s.task.part (coreOf s.cur) a n acc else none, issued := s.cycle
          extra := if space = 4 then s.tlbDelay s.task.part (coreOf s.cur) a n acc else 0 }).sampled s.task
            fun u => u.recordExt u.cur s.task.gtid (extSub op) a).extEnds ((m.bump s.task).awaits dst) len op space a := by
  obtain ⟨tlb, atc, hc⟩ := portCaches (s := s) space s.task.part (coreOf s.cur) a n acc ps
  refine ⟨tlb, atc, ?_⟩
  have hq : s.queueRoom s.task.part (coreOf s.cur) q = false ↔ (!(s.cachesAs tlb atc).queueRoom s.task.part (coreOf s.cur) q) = true := by
    rw [Bool.not_eq_true']; rfl
  rw [queuePush, hx]
  dsimp only
  rw [hc]
  refine if_congr Iff.rfl rfl (if_congr hq.symm rfl ?_)
  refine if_congr Iff.rfl rfl (if_congr Iff.rfl rfl ?_)
  cases dst <;> rfl

theorem regDst_eq (b : Bool) (t : Reg) :
    regDst b t = if b then some (if b then .v t else .s t) else if t = 0 then none else some (if b then .v t else .s t) := by
  cases b <;> rfl

theorem qload_checked {o : QArgs} {n : Nat} {x : Segment} {a : Nat} (hn : n = 2 ^ o.size.toNat)
    (h : s.performs o.f [if o.size == 4 then .v o.t else .s o.t] (o.m.reads.map (·.1)) = true)
    (hc : s.check o.m.seg (o.m.offset s.task).toNat n { rd := true } (extSpaces o.o.ord) 1 [] = .ok (x, a)) :
    s.qload o = s.queuePush s.task o.m o.f.bytes x.space a n o.queue.toNat 1 (.load n false) (regDst (o.size == 4) o.t) o.o := by
  subst hn
  rw [qload, plain_performs (performs_reads h), hc]
  exact toWrite_full (performsG_iff.1 h).2.2

theorem qstore_checked {o : QArgs} {n : Nat} {x : Segment} {a : Nat} (hn : n = 2 ^ o.size.toNat)
    (h : s.performs o.f [] ((o.m.reads.map (·.1)) ++ [if o.size == 4 then .v o.t else .s o.t]) = true)
    (hc : s.check o.m.seg (o.m.offset s.task).toNat n { wr := true } (extSpaces o.o.ord) 1 [] = .ok (x, a)) :
    s.qstore o = s.queuePush s.task o.m o.f.bytes x.space a n o.queue.toNat 2
      (.store n ((if o.size == 4 then (s.task.getV o.t).toNat else (s.task.getS o.t).toNat) % 2 ^ (8 * n))) none o.o := by
  subst hn
  rw [qstore, plain_performs (by simpa [apply_ite Prod.fst] using h), hc]

end State

/-- Settles O25: a queued access starts a walk, waits, is announced, or takes its entry and goes on. -/
theorem queuedAccesses : Obligations.QueuedAccesses := by
  intro s x a queued
  have push {o : Order} {m : MemOp} {len n q acc : Nat} {op : AccOp} {dst : Option RegId} (hst : s.task.stepping = false) (hn : op.size = n) :
      queued (.next (s.queuePush s.task m len x.space a n q acc op dst o)) o m len n q acc op dst := by
    refine ⟨fun va hx => ?_, fun ps hx => ?_⟩
    · rw [State.queuePush, hx]
      exact ⟨_, rfl, State.startWalk_eq m.seg va acc⟩
    · obtain ⟨tlb, atc, e⟩ := State.queuePush_pieces (m := m) (len := len) (q := q) (op := op) (dst := dst) (o := o) hx
      intro caches marked waits
      have parks {row : Nat} {k : Wake} (he : s.queuePush s.task m len x.space a n q acc op dst o = (s.cachesAs tlb atc).park row k) : waits row k := by
        exact ⟨_, congrArg Host.Outcome.next he, State.sameBut_caches (State.park_sameBut (s := s.cachesAs tlb atc) hst),
          State.park_task (s := s.cachesAs tlb atc) hst⟩
      by_cases h1 : s.domainHolds s.task.part ps = true
      · rw [if_pos h1] at e ⊢
        exact parks e
      rw [if_neg h1] at e ⊢
      by_cases h2 : s.queueRoom s.task.part (coreOf s.cur) q = false
      · rw [if_pos h2] at e ⊢
        exact parks e
      rw [if_neg h2] at e ⊢
      by_cases h3 : o.ord = 3
      · rw [if_pos h3] at e ⊢
        by_cases h4 : s.unperformed s.task.gtid = true ∨ s.acqPending s.task.gtid = true
        · rw [if_pos h4]
          exact parks (e.trans (State.announce_waits (s := s.cachesAs tlb atc) h4))
        · rw [if_neg h4]
          obtain ⟨h5, h6⟩ := State.announce_sent (s := s.cachesAs tlb atc) (op := op) (place := .ext x.space q a ps) (dst := dst) (len := len) (m := m)
            (far := false) hst
            (Bool.eq_false_iff.2 (not_or.1 h4).1) (Bool.eq_false_iff.2 (not_or.1 h4).2)
          exact ⟨_, congrArg Host.Outcome.next e, State.sent_caches h5, h6⟩
      rw [if_neg h3] at e ⊢
      by_cases h4 : o.ord = 1 ∧ marked = true ∧ s.unperformed s.task.gtid = true
      · rw [if_pos h4] at e ⊢
        exact parks e
      rw [if_neg h4] at e ⊢
      intro hw
      obtain ⟨h5, h6⟩ := State.queueSend_sent (s := s.cachesAs tlb atc) (t := (m.bump s.task).awaits dst) (place := .ext x.space q a ps) (op := op) (dst := dst)
        (acq := o.ord == 2 && ps.any orderedPiece) (rel := o.ord == 1 && ps.any orderedPiece) (scope := State.scopeOr o.sn o.scope (State.extScope x.space))
        (lease := if x.space = 4 then s.leaseOf s.task.part (coreOf s.cur) a n acc else none)
        (extra := if x.space = 4 then s.tlbDelay s.task.part (coreOf s.cur) a n acc else 0) (len := len) (space := x.space) (a := a)
        (w := fun u => u.recordExt u.cur s.task.gtid (State.extSub op) a) (fun _ => ⟨_, rfl⟩) (by simp [hst])
        ((awaits_pc _ _).trans (bump_pc _ _)) ((awaits_gtid _ _).trans (bump_gtid _ _)) ((awaits_part _ _).trans (bump_part _ _))
        (by rw [hn]; exact hw)
      exact ⟨_, congrArg Host.Outcome.next e, State.sent_caches h5, h6⟩
  refine ⟨fun o => ?_, fun o hx e he h hc => ?_⟩
  · intro isV n r
    refine ⟨fun h hc => ?_, fun h hc => ?_⟩
    · have hi : exec (.qld o) s = .next (s.qload o) := rfl
      rw [hi, State.qload_checked (n := n) rfl h hc, State.regDst_eq]
      exact push (State.performs_stepping h) rfl
    · have hi : exec (.qst o) s = .next (s.qstore o) := rfl
      rw [hi, State.qstore_checked (n := n) rfl h hc]
      exact push (State.performs_stepping h) rfl
  · simp only [List.mem_cons, List.not_mem_nil, or_false] at he
    rcases he with rfl | rfl
    · let op : AccOp := .amo 32 o.op.toNat ((s.task.getS o.c).toNat % 2 ^ 32) ((s.task.getS o.t).toNat % 2 ^ 32)
      have hi : exec (.amoD32 o) s = .next (s.queuePush s.task o.m o.f.bytes x.space a 4 o.queue.toNat 4 op (State.regDst false o.t) o.o) := by
        rw [hx]
        exact congrArg Host.Outcome.next ((State.amo_checked (w := 32) rfl (.inr hx) h hc rfl).trans (if_pos hx))
      rw [hi, show (32, Instr.amoD32 o).1 / 8 = 4 by simp]
      exact push (op := op) (dst := State.regDst false o.t) (State.performs_stepping h) rfl
    · let op : AccOp := .amo 64 o.op.toNat ((s.task.getS o.c).toNat % 2 ^ 64) ((s.task.getS o.t).toNat % 2 ^ 64)
      have hi : exec (.amoD64 o) s = .next (s.queuePush s.task o.m o.f.bytes x.space a 8 o.queue.toNat 4 op (State.regDst false o.t) o.o) := by
        rw [hx]
        exact congrArg Host.Outcome.next ((State.amo_checked (w := 64) rfl (.inr hx) h hc rfl).trans (if_pos hx))
      rw [hi, show (64, Instr.amoD64 o).1 / 8 = 8 by simp]
      exact push (op := op) (dst := State.regDst false o.t) (State.performs_stepping h) rfl

end Sys2Proof.Machine
end

section
/-! PROOFS. Operations of order `sc`: announced, then taking effect once at their time (07:R127, R128). -/

namespace Sys2Proof.Machine

namespace State

variable {s : State}

/-- A completed instruction changes its slot and the recorder, and no other part (13:R235). -/
theorem completeAt_frame {k row len : Nat} {w : Wake} {f : Task → Task} (hr : (s.taskAt k).run = .parked row w) (hs : (s.taskAt k).stopped = false)
    (hf : (f ((s.taskAt k).woken s.cycle)).stepping = false) (hp : (f ((s.taskAt k).woken s.cycle)).pc = (s.taskAt k).pc) :
    ∃ sl c, s.completeAt k len f = { s with slots := sl, cores := c } := by
  have ht : ((s.at_ k).wakeNow k).task = (s.taskAt k).woken s.cycle := by
    rw [wakeNow_task (s := s.at_ k) hr hs]
    exact taskAt_putTask_self (s := s.at_ k) k _
  unfold completeAt
  dsimp only
  rw [ht, completeWith_after hf (by rw [hp, ht]; rfl), wakeNow_task (s := s.at_ k) hr hs]
  exact ⟨_, _, rfl⟩

theorem tileBank_eq (part vt : Nat) (acc : Bool) (w : Nat) : ∃ e tl, s.tileBank part vt acc w = (e, { s with tiles := tl }) := by
  unfold tileBank
  split
  · exact ⟨0, s.tiles, rfl⟩
  · exact ⟨_, _, rfl⟩

theorem farWatch_none {m : Match} {op : AccOp} {acc : Bool} {vt a : Nat} (h : s.watchHits m.part (ofBool acc) vt a op.size (accMask op) m.gtid = []) :
    s.farWatch m op acc vt a = s := by
  unfold farWatch watchAway
  dsimp only
  rw [h]
  rfl

/-- An operation of order `sc` with no destination completes its instruction where it parked (07:R128). -/
theorem scComplete_done {o : ScOp} {row : Nat} {w : Wake} (hg : (s.taskAt o.key).gtid = o.owner)
    (hh : ∀ x ∈ scSeen o, s.seenHits (s.taskAt o.key) x = []) (hr : (s.taskAt o.key).run = .parked row w)
    (hs : (s.taskAt o.key).stopped = false) (hst : (s.taskAt o.key).stepping = false) :
    (∃ sl c, s.scComplete o (fun t => t) = { s with slots := sl, cores := c })
      ∧ (s.scComplete o fun t => t).taskAt o.key = { gets (s.taskAt o.key) o.pinc none 0 with
        run := .resident, holdUntil := max (s.taskAt o.key).holdUntil (s.cycle + 1), pc := (s.taskAt o.key).pc + BitVec.ofNat 64 o.len, fpend := false
        fmtword := 0, skipBreak := false } := by
  have hn : (scSeen o).flatMap (s.seenHits (s.taskAt o.key)) = [] := List.flatMap_eq_nil_iff.2 hh
  have e : s.scComplete o (fun t => t) = s.completeAt o.key o.len fun t => gets t o.pinc none 0 := by
    have hu : s.stopsIt o.part [] = false := by simp [stopsIt]
    unfold scComplete
    dsimp only
    rw [if_neg (by simp [hg]), hn, hu]
    rfl
  obtain ⟨h1, h2, h3, h4⟩ := gets_woken (s.taskAt o.key) s.cycle o.pinc none 0
  have h5 := (congrArg Task.stepping h1).trans (h3.trans hst)
  have h6 := (congrArg Task.pc h1).trans h2
  rw [e, completeAt_task hr hs h5 h6, ← h4]
  exact ⟨completeAt_frame hr hs h5 h6,
    congrArg (fun t : Task => { t with pc := (s.taskAt o.key).pc + BitVec.ofNat 64 o.len, fpend := false, fmtword := 0, skipBreak := false }) h1⟩

/-- The network with one more request, under the next tag. -/
def plusAcc (s : State) (a : Acc) : State :=
  { s with tagCtr := s.tagCtr + 1, net := { s.net with accs := s.net.accs ++ [{ a with tag := s.tagCtr }] } }

/-- The one announced operation: before its time nothing happens (07:R128). -/
theorem scWindow_single {o : ScOp} (h : s.net.scOps = [o]) :
    s.scWindow = if s.cycle < 32 * (o.cycle / 32) + 128 then [] else [o] := by
  simp [scWindow, h, scInsert]

theorem coreStore_mem (a n x : Nat) : (s.coreStore a n x).mem =
    memWrite s.mem a ((leBytes n x).zipIdx.map fun e => if s.hiddenAt (a + e.2) then memGet s.mem (a + e.2) else e.1) := by
  obtain ⟨v, h, -⟩ := store_eq (s := s) a ((leBytes n x).zipIdx.map fun e => if s.hiddenAt (a + e.2) then memGet s.mem (a + e.2) else e.1)
  exact congrArg State.mem h

/-- A store of order `sc` to a tile takes effect: its bytes, its answer where the tile is another one, and its instruction's end (07:R128). -/
theorem scTile_store {o : ScOp} {vt a n d : Nat} {acc : Bool} (hop : o.op = .store n d) (hd : o.dst = none) (hpl : o.place = .tile acc vt a)
    (hfar : o.far = true → s.tileAway o.part vt o.owner = false) (hg : (s.taskAt o.key).gtid = o.owner) (hp : (s.taskAt o.key).part = o.part)
    (hst : (s.taskAt o.key).stepping = false) (hs : (s.taskAt o.key).stopped = false) {row : Nat} {w : Wake} (hr : (s.taskAt o.key).run = .parked row w)
    (hw : s.watchHits o.part (ofBool acc) vt a n 2 o.owner = []) :
    (if o.far = true then ∃ r v, (s.scTile o acc vt a).net = { s.net with accs := s.net.accs ++ [r] } ∧ r.owner = o.owner ∧ r.place = o.place
          ∧ r.op = o.op ∧ r.dst = none ∧ r.st = .performed v
        else (s.scTile o acc vt a).net = s.net)
      ∧ (s.scTile o acc vt a).mem = (s.coreStore (tileAddr o.part acc vt a) n d).mem
      ∧ (s.scTile o acc vt a).taskAt o.key = { gets (s.taskAt o.key) o.pinc none 0 with
        run := .resident, holdUntil := max (s.taskAt o.key).holdUntil (s.cycle + 1), pc := (s.taskAt o.key).pc + BitVec.ofNat 64 o.len, fpend := false
        fmtword := 0, skipBreak := false } := by
  obtain ⟨m, vts, hm, -⟩ := coreStore_eq (s := s) (tileAddr o.part acc vt a) n d
  obtain ⟨e, tl, hb⟩ := tileBank_eq (s := { s with mem := m, vtiles := vts }) o.part vt acc a
  have hperf : s.perform (tileAddr o.part acc vt a) o.op = some (0, { s with mem := m, vtiles := vts }) := by rw [hop, ← hm]; rfl
  have haway : (o.far && s.tileAway o.part vt o.owner) = false := by
    cases hf : o.far
    · rfl
    · exact hfar hf
  rw [hm]
  unfold scTile
  rw [haway, hperf]
  dsimp only
  rw [hb]
  dsimp only
  cases hf : o.far with
  | false =>
    have hseen : ∀ x ∈ scSeen o, State.seenHits { s with mem := m, vtiles := vts, tiles := tl } (s.taskAt o.key) x = [] := by
      intro x hx
      rw [scSeen, hpl, hf] at hx
      obtain rfl := List.mem_singleton.1 hx
      rw [seenHits, hp, hg, hop]
      exact hw
    obtain ⟨⟨sl, c, h1⟩, h2⟩ := scComplete_done (s := { s with mem := m, vtiles := vts, tiles := tl }) hg hseen hr hs hst
    simp only [Bool.false_eq_true, if_false, hd]
    exact ⟨(congrArg State.net h1 :), (congrArg State.mem h1 :), h2⟩
  | true =>
    obtain ⟨⟨sl, c, h1⟩, h2⟩ := scComplete_done (s := State.plusAcc { s with mem := m, vtiles := vts, tiles := tl } { s.scAcc o 0 (.performed 0) with extra := e }) hg
      (by rw [scSeen, hpl, hf]; exact List.forall_mem_nil _) hr hs hst
    have hsent : State.scSent { s with mem := m, vtiles := vts, tiles := tl } o { s.scAcc o 0 (.performed 0) with extra := e }
        = State.scComplete (State.plusAcc { s with mem := m, vtiles := vts, tiles := tl } { s.scAcc o 0 (.performed 0) with extra := e }) o fun t => t := by
      rw [scSent, hd]; rfl
    have hnone : State.farWatch (State.scSent { s with mem := m, vtiles := vts, tiles := tl } o { s.scAcc o 0 (.performed 0) with extra := e })
        ⟨o.owner, o.part, o.key, 0, o.offset, some o.nissue⟩ o.op acc vt a
          = State.scSent { s with mem := m, vtiles := vts, tiles := tl } o { s.scAcc o 0 (.performed 0) with extra := e } := by
      refine farWatch_none ?_
      rw [hop, hsent, h1]
      exact hw
    refine ⟨⟨_, 0, (congrArg State.net (hnone.trans hsent)).trans (congrArg State.net h1), rfl, rfl, rfl, hd, rfl⟩,
      (congrArg State.mem (hnone.trans hsent)).trans (congrArg State.mem h1), (congrArg (State.taskAt · o.key) (hnone.trans hsent)).trans h2⟩

end State

/-- Settles O26: an operation of order `sc` announces itself once nothing is before it, and takes effect at its time. -/
theorem sequentialOperations : Obligations.SequentialOperations := by
  refine ⟨fun s x a => ?_, fun s o vt a n d acc hl hpl hop hd => ?_⟩
  · intro announced reg
    have announces {u : State} {m : MemOp} {len : Nat} {op : AccOp} {dst : Option RegId} (hst : s.task.stepping = false)
        (h : u = s.announce s.task op (.tile (x.space == 2 || x.space == 6) (s.tileOfSeg x) a) dst len m (decide (2 < x.space))) :
        announced (.next u) m len op dst := by
      by_cases hw : s.unperformed s.task.gtid = true ∨ s.acqPending s.task.gtid = true
      · refine (if_pos hw).mpr ⟨u, rfl, ?_⟩
        rw [h, State.announce_waits hw]
        exact ⟨State.park_sameBut hst, State.park_task hst⟩
      · refine (if_neg hw).mpr ⟨u, rfl, ?_⟩
        rw [h]
        exact State.announce_sent hst (Bool.eq_false_iff.2 (not_or.1 hw).1) (Bool.eq_false_iff.2 (not_or.1 hw).2)
    refine ⟨fun o ho e he h hc => ?_, fun o ho e he h hc => ?_, fun o ho hq h4 e he h hc => ?_⟩
    · simp only [List.mem_cons, List.not_mem_nil, or_false] at he
      rcases he with rfl | rfl | rfl | rfl | rfl
      all_goals exact announces (State.performs_stepping h) ((State.load_checked h hc).trans (if_pos ho))
    · simp only [List.mem_cons, List.not_mem_nil, or_false] at he
      rcases he with rfl | rfl | rfl | rfl | rfl
      all_goals exact announces (State.performs_stepping h) ((State.storeOp_checked h hc rfl).trans (if_pos ho))
    · simp only [List.mem_cons, List.not_mem_nil, or_false] at he
      rcases he with rfl | rfl
      all_goals exact announces (State.performs_stepping h) ((State.amo_checked rfl (.inl hq) h hc rfl).trans (by rw [if_neg h4, if_pos ho]; rfl))
  · intro t hg hp hst hs hr hfar hw
    have hx : exec .scTakeEffect s = s.scAll s.scWindow := rfl
    rw [hx, State.scWindow_single hl]
    split
    · rfl
    · have hdrop : (s.dropSc o.tag).net = { s.net with scOps := [] } := by simp [State.dropSc, hl]
      have hdo : s.scAll [o] = .next ((s.dropSc o.tag).scTile o acc vt a) := by
        simp only [State.scAll, State.scDo, hpl]
      obtain ⟨h1, h2, h3⟩ := State.scTile_store (s := s.dropSc o.tag) hop hd hpl hfar hg hp hst hs hr hw
      refine ⟨_, hdo, ?_, h2.trans ?_, ?_⟩
      · rw [hdrop] at h1
        exact h1
      · rw [State.coreStore_mem, State.coreStore_mem]
        rfl
      · unfold State.gets at h3
        exact h3

end Sys2Proof.Machine
end

section
/-! PROOFS. `fork` (13:R234, 02:R17 to R26). -/

namespace Sys2Proof.Machine

theorem Task.getS_congr {t u : Task} (h : t.s = u.s) (r : Reg) : t.getS r = u.getS r := by rw [Task.getS, Task.getS, h]

namespace State

variable {s : State}

theorem deque_setDeque_cons (p c : Nat) (t : Task) (l : List Task) : (s.setDeque p c (t :: l)).deque p c = t :: l := by
  simp [setDeque, deque]

/-- The next identifier of a die: its serial, the die, the package (02:R17). -/
theorem newGtid_word (die : Nat) :
    (s.newGtid die).1 = BitVec.ofNat 64 ((s.cald.serials.toList[die]?.getD 0) % 2 ^ 42 + die % 8 * 2 ^ 42 + s.pkgNo.toNat * 2 ^ 45) := by
  have h : s.pkgNo.toNat % 2 ^ 19 = s.pkgNo.toNat := Nat.mod_eq_of_lt s.pkgNo.isLt
  simp only [newGtid, word64, packFields, h]
  congr 1
  omega

theorem freshTask_eq (gtid : Word) (part capid bodygen entry : Nat) (args : List Nat) (segs : Vector VWord 8) :
    freshTask gtid part capid bodygen entry args segs =
      (((({ gtid := gtid, part := part, capid := capid, bodygen := bodygen, pc := BitVec.ofNat 64 entry, g := segs } : Task).putS 1
        (BitVec.ofNat 64 (args[0]?.getD 0))).putS 2 (BitVec.ofNat 64 (args[1]?.getD 0))).putS 3 (BitVec.ofNat 64 (args[2]?.getD 0))).putS 4
        (BitVec.ofNat 64 (args[3]?.getD 0)) := rfl

/-- A new task has its arguments in s1 to s4 (02:R21). -/
theorem freshTask_getS (gtid : Word) (part capid bodygen entry : Nat) (args : List Nat) (segs : Vector VWord 8) {i : Nat} (hi : i < 4) :
    (freshTask gtid part capid bodygen entry args segs).getS (BitVec.ofNat 5 (i + 1)) = BitVec.ofNat 64 (args[i]?.getD 0) := by
  rw [freshTask_eq]
  match i, hi with
  | 0, _ => rw [Task.getS_putS_ne _ (show _ ≠ _ by decide), Task.getS_putS_ne _ (show _ ≠ _ by decide), Task.getS_putS_ne _ (show _ ≠ _ by decide)]; exact Task.getS_putS_self _ (by decide) _
  | 1, _ => rw [Task.getS_putS_ne _ (show _ ≠ _ by decide), Task.getS_putS_ne _ (show _ ≠ _ by decide)]; exact Task.getS_putS_self _ (by decide) _
  | 2, _ => rw [Task.getS_putS_ne _ (show _ ≠ _ by decide)]; exact Task.getS_putS_self _ (by decide) _
  | 3, _ => exact Task.getS_putS_self _ (by decide) _

/-- The child of a fork (13:R234, 02:R21). -/
theorem forkChild_fields (t : Task) (code : Capsule) (gtid : Word) (core entry dom counter : Nat) (args : List Nat) :
    let child := forkChild t code gtid core entry dom counter args
    child.gtid = gtid ∧ child.pc = BitVec.ofNat 64 entry ∧ child.g = t.g ∧ child.part = t.part ∧ child.capid = code.capid ∧ child.tile = t.tile
      ∧ child.launch = t.launch ∧ child.step = (if t.sched = true then none else t.step) ∧ child.gang = none ∧ child.join = some counter
      ∧ child.run = .resident ∧ child.domain = BitVec.ofNat 2 (min dom t.domain.toNat)
      ∧ ∀ i, i < 4 → child.getS (BitVec.ofNat 5 (i + 1)) = BitVec.ofNat 64 (args[i]?.getD 0) := by
  have hf (u : Task) (hu : u = freshTask gtid t.part code.capid code.bodygen entry args t.g) : u.gtid = gtid ∧ u.pc = BitVec.ofNat 64 entry
      ∧ u.g = t.g ∧ u.part = t.part ∧ u.capid = code.capid ∧ u.gang = none ∧ u.run = .resident := by
    rw [hu, freshTask_eq]
    simp
  obtain ⟨h1, h2, h3, h4, h5, h6, h7⟩ := hf _ rfl
  have hs : (forkChild t code gtid core entry dom counter args).s = (freshTask gtid t.part code.capid code.bodygen entry args t.g).s := rfl
  exact ⟨h1, h2, h3, h4, h5, rfl, rfl, rfl, h6, rfl, h7, rfl, fun i hi => (Task.getS_congr hs _).trans (freshTask_getS _ _ _ _ _ _ _ hi)⟩

/-- The push of a fork's child: it stands at the bottom of the deque, and the parent goes on with its identifier (13:R234). -/
theorem forkPush_eq {m : MemOp} {d : Reg} {len : Nat} {code : Capsule} {entry dom counter : Nat} {args : List Nat} {seen : List Seen}
    (hst : s.task.stepping = false) (hw : ∀ x ∈ seen, s.seenHits s.task x = []) :
    s.forkPush s.task m d len code entry dom counter args seen =
      State.after ((s.newGtid (dieOf (coreOf s.cur))).2.pushBottom (coreOf s.cur)
          (forkChild s.task code (s.newGtid (dieOf (coreOf s.cur))).1 (coreOf s.cur) entry dom counter args))
        ((m.bump s.task).writeS s.cycle d (s.newGtid (dieOf (coreOf s.cur))).1 1) len := by
  unfold forkPush
  dsimp only
  rw [completeWatched_none, completeWith_after (by simp [hst]) (by simp; rfl)]
  · rfl
  · intro x hx
    rw [seenHits, Task.writeS_gtid, Task.writeS_part, bump_gtid, bump_part]
    exact hw x hx

/-! ### The bank of an access (06:R103) -/

theorem exists_of_mapGet {α : Type} {m : Map α} {k : Nat} {v : α} (h : mapGet m k = some v) : ∃ e ∈ m, e.2 = v := by
  induction m with
  | nil => cases h
  | cons e r ih =>
    obtain ⟨x, b⟩ := e
    rw [mapGet] at h
    split at h
    · exact ⟨_, List.mem_cons_self, Option.some.inj h⟩
    · obtain ⟨e, he, hv⟩ := ih h
      exact ⟨e, List.mem_cons_of_mem _ he, hv⟩

/-- A set entry that answers a question as the one it replaces, or as the default, leaves what any entry answers. -/
theorem any_mapSet {α : Type} {p : α → Bool} {d : α} (hd : p d = false) {k : Nat} {v : α} :
    ∀ m : Map α, p v = p ((mapGet m k).getD d) → (mapSet m k v).any (fun e => p e.2) = m.any fun e => p e.2
  | [], hv => by simpa [mapSet, mapGet, hd] using hv
  | (x, b) :: r, hv => by
    rw [mapGet] at hv
    rw [mapSet]
    by_cases hk : x = k
    · rw [if_pos hk, Option.getD_some] at hv
      rw [if_neg (by omega), if_pos hk, List.any_cons, List.any_cons, hv]
    rw [if_neg hk] at hv
    by_cases hlt : x < k
    · rw [if_pos hlt, List.any_cons, List.any_cons, any_mapSet hd r hv]
    rw [if_neg hlt, if_neg hk, List.any_cons, hv]
    cases hg : mapGet r k with
    | none => simp [hd]
    | some w =>
      obtain ⟨e, he, rfl⟩ := exists_of_mapGet hg
      cases hp : p e.2
      · simp [hp]
      · have : r.any (fun e => p e.2) = true := List.any_eq_true.2 ⟨e, he, hp⟩
        simp [this]

/-- A tile's running decryption hides this byte (14:R249). -/
def tileHides (b : Nat) (t : Tile) : Bool :=
  (t.queues[2]).any fun c => !false && Cmd.running c && c.word.toNat % 256 == 3 &&
    (let r := c.ranges[1]
     decide (r.mem ≤ b) && decide (b < r.mem + r.len))

theorem hiddenAt_eq (b : Nat) : s.hiddenAt b = s.tiles.any fun e => tileHides b e.2 := rfl

/-- The note of a bank's use hides no byte and shows none (06:R103). -/
theorem bankCost_hidden (acc : Bool) (a b : Nat) : (s.bankCost acc a).2.hiddenAt b = s.hiddenAt b := by
  have hd : tileHides b {} = false := by simp [tileHides]
  rw [hiddenAt_eq, hiddenAt_eq]
  exact any_mapSet hd s.tiles rfl

/-- Accesses to these words of the tile, noted at their banks. -/
theorem bankFold_eq (acc : Bool) (l : List Nat) : ∃ tl, l.foldl (fun s i => (s.bankCost acc i).2) s = { s with tiles := tl }
    ∧ (∀ k, (State.tile { s with tiles := tl } k).queues = (s.tile k).queues ∧ (State.tile { s with tiles := tl } k).accepted = (s.tile k).accepted)
    ∧ ∀ b, State.hiddenAt { s with tiles := tl } b = s.hiddenAt b := by
  induction l generalizing s with
  | nil => exact ⟨s.tiles, rfl, fun _ => ⟨rfl, rfl⟩, fun _ => rfl⟩
  | cons i l ih =>
    obtain ⟨t1, h1, h2⟩ := bankCost_eq (s := s) acc i
    have h3 (b : Nat) : State.hiddenAt { s with tiles := t1 } b = s.hiddenAt b := by
      have := bankCost_hidden (s := s) acc i b
      rwa [h1] at this
    obtain ⟨t2, h4, h5, h6⟩ := ih (s := { s with tiles := t1 })
    refine ⟨t2, ?_, fun k => ⟨(h5 k).1.trans (h2 k).1, (h5 k).2.trans (h2 k).2⟩, fun b => (h6 b).trans (h3 b)⟩
    rw [List.foldl_cons, h1]
    exact h4

/-! ### `fork` -/

theorem forkWords_get (base : Nat) {i : Nat} (hi : i < 6) : (s.forkWords base)[i]?.getD 0 = s.loadNat (base + 8 * i) 8 := by
  simp [forkWords, hi]

/-- A fork whose descriptor keeps the rules asks its counter's home, or counts here and pushes its child (13:R234). -/
theorem forkOp_accepted {f : Form} {m : MemOp} {d : Reg} {y x : Segment} {a c : Nat} {code : Capsule} (h : s.performs f [.s d] (m.reads.map (·.1)) = true)
    (hy : s.check m.seg (m.offset s.task).toNat 48 { rd := true } [1] 16 [] = .ok (y, a)) (hcode : s.codeOf? s.task = some code)
    (hroom : s.dequeRoom s.task.part (coreOf s.cur) = true) {base : Nat} (hbase : base = tileAddr s.task.part false s.here a)
    (hw : s.forkWaits s.task.gtid base = none) (hl : s.localWaits s.task false a 48 = false) (h0 : s.loadNat base 8 < 2 ^ 37)
    (hlands : code.lands (BitVec.ofNat 64 (s.loadNat base 8 % 2 ^ 32)) = true)
    (hx : s.check (BitVec.ofNat 3 (s.loadNat base 8 / 2 ^ 34)) (s.loadNat (base + 8) 8) 8 { rd := true, wr := true } [1, 3] 8 [] = .ok (x, c))
    {tl : Map Tile} (htl : [a + 0, a + 16, a + 32].foldl (fun s i => (s.bankCost false i).2) s = { s with tiles := tl }) {counter : Nat}
    (hc : counter = tileAddr s.task.part false (s.tileOfSeg x) c) {mem : Mem} {vts : Map VTile}
    (hm : State.coreStore { s with tiles := tl } counter 8 ((s.loadNat counter 8 + 1) % 2 ^ 64) = { s with tiles := tl, mem := mem, vtiles := vts }) :
    s.forkOp f m d = if x.space = 3 then State.remoteWait { s with tiles := tl } s.task x c 9 .count (regDst false d) false true 5 (base :: s.forkWords base)
      else if s.releaseWaits s.task.gtid then { s with tiles := tl }
      else (State.bankCost { s with tiles := tl, mem := mem, vtiles := vts, feEmpty := insNat s.feEmpty counter } false c).2.forkPush s.task m d f.bytes code
          (s.loadNat base 8 % 2 ^ 32) (s.loadNat base 8 / 2 ^ 32 % 4) counter ((s.forkWords base).drop 2)
          [(0, s.here, a, .load 48 false), (0, s.here, c, .count)] := by
  subst hbase
  have hw0 := forkWords_get (s := s) (tileAddr s.task.part false s.here a) (i := 0) (by decide)
  have hw1 := forkWords_get (s := s) (tileAddr s.task.part false s.here a) (i := 1) (by decide)
  rw [Nat.mul_zero, Nat.add_zero] at hw0
  rw [Nat.mul_one] at hw1
  have hf0 : field (s.loadNat (tileAddr s.task.part false s.here a) 8) 37 27 = 0 := by
    rw [field, Nat.div_eq_of_lt h0, Nat.zero_mod]
  have hf1 : BitVec.ofNat 3 (field (s.loadNat (tileAddr s.task.part false s.here a) 8) 34 3) = BitVec.ofNat 3 (s.loadNat (tileAddr s.task.part false s.here a) 8 / 2 ^ 34) := by
    apply BitVec.eq_of_toNat_eq
    rw [BitVec.toNat_ofNat, BitVec.toNat_ofNat, field, Nat.mod_mod]
  have hf2 : field (s.loadNat (tileAddr s.task.part false s.here a) 8) 0 32 = s.loadNat (tileAddr s.task.part false s.here a) 8 % 2 ^ 32 := by
    rw [field, Nat.pow_zero, Nat.div_one]
  have htl' : [0, 16, 32].foldl (fun s i => (s.bankCost false (a + i)).2) s = { s with tiles := tl } := htl
  rw [forkOp, plain_performs (performs_reads h), hy]
  dsimp only
  rw [hw]
  dsimp only
  rw [hl, if_neg Bool.false_ne_true, hw0, hw1, htl', hf0, hf1, hf2, if_neg (by simp)]
  rw [show State.codeOf? { s with tiles := tl } s.task = some code from hcode]
  dsimp only
  rw [hlands, if_neg (by simp), show State.check { s with tiles := tl } _ _ _ _ _ _ _ = _ from hx]
  dsimp only
  rw [show State.dequeRoom { s with tiles := tl } s.task.part (coreOf s.cur) = true from hroom, if_neg (by simp)]
  refine (toWrite_full (s := { s with tiles := tl }) (performsG_iff.1 h).2.2).trans ?_
  refine if_congr Iff.rfl rfl (if_congr Iff.rfl rfl ?_)
  have hp : State.perform { s with tiles := tl } (tileAddr s.task.part false (s.tileOfSeg x) c) .count
      = some (0, { s with tiles := tl, mem := mem, vtiles := vts, feEmpty := insNat s.feEmpty counter }) := by
    rw [← hc]
    exact congrArg (fun u => some (0, State.setFe u counter false)) hm
  rw [show State.perform { s with tiles := tl } (tileAddr s.task.part false (State.tileOfSeg { s with tiles := tl } x) c) .count = _ from hp, hc]
  rfl

/-- What the push of a fork's child leaves: the child below the deque's tasks, the parent gone on, and memory as it was (13:R234). -/
theorem forkPush_born {m : MemOp} {d : Reg} {len : Nat} {code : Capsule} {entry dom counter : Nat} {args : List Nat} {seen : List Seen}
    (hst : s.task.stepping = false) (hw : ∀ x ∈ seen, s.seenHits s.task x = []) :
    let u := s.forkPush s.task m d len code entry dom counter args seen
    let child := forkChild s.task code (s.newGtid (dieOf (coreOf s.cur))).1 (coreOf s.cur) entry dom counter args
    u.deque s.task.part (coreOf s.cur) = child :: s.deque s.task.part (coreOf s.cur)
      ∧ u.task = s.goneOn ((m.bump s.task).writeS s.cycle d child.gtid 1) len ∧ u.mem = s.mem ∧ u.feEmpty = s.feEmpty := by
  intro u child
  obtain ⟨hg, -, -, hp, -⟩ := forkChild_fields s.task code (s.newGtid (dieOf (coreOf s.cur))).1 (coreOf s.cur) entry dom counter args
  have hu : u = _ := forkPush_eq hst hw
  rw [hu, show child.gtid = _ from hg]
  refine ⟨?_, task_setTask _ _, rfl, rfl⟩
  rw [pushBottom, hp]
  exact deque_setDeque_cons (s := (s.newGtid (dieOf (coreOf s.cur))).2) _ _ _ _

/-- A fork whose counter's home has answered pushes the child its descriptor named (13:R234). -/
theorem forkOp_back {f : Form} {m : MemOp} {d : Reg} {y : Segment} {a c vt v : Nat} {code : Capsule} {r : Acc}
    (h : s.performs f [.s d] (m.reads.map (·.1)) = true)
    (hy : s.check m.seg (m.offset s.task).toNat 48 { rd := true } [1] 16 [] = .ok (y, a)) (hcode : s.codeOf? s.task = some code)
    (hroom : s.dequeRoom s.task.part (coreOf s.cur) = true) {base : Nat} (hbase : base = tileAddr s.task.part false s.here a)
    (hw : s.forkWaits s.task.gtid base = some r) (hv : r.st = .answered v) (hp : r.place = .tile false vt c) :
    s.forkOp f m d = State.forkPush (s.dropAcc r.tag) s.task m d f.bytes code (r.carry[1]?.getD 0 % 2 ^ 32) (r.carry[1]?.getD 0 / 2 ^ 32 % 4)
      (tileAddr r.part false vt c) (r.carry.drop 3)
      [(0, (placeOf (r.carry.headD 0)).2.1, (placeOf (r.carry.headD 0)).2.2.1, .load 48 false)] := by
  subst hbase
  have hf (n : Nat) : field n 0 32 = n % 2 ^ 32 := by rw [field, Nat.pow_zero, Nat.div_one]
  rw [forkOp, plain_performs (performs_reads h), hy]
  dsimp only
  rw [hw]
  dsimp only
  rw [forkBack, hv, hp]
  dsimp only
  rw [show (s.dropAcc r.tag).codeOf? s.task = some code from hcode]
  dsimp only
  rw [show (s.dropAcc r.tag).dequeRoom s.task.part (coreOf (s.dropAcc r.tag).cur) = true from hroom, if_pos rfl, hf]
  rfl

theorem sent_of_tiles {tl : Map Tile} {u : State} {net : Net} (h : State.sent { s with tiles := tl } u net)
    (hq : ∀ k, (State.tile { s with tiles := tl } k).queues = (s.tile k).queues ∧ (State.tile { s with tiles := tl } k).accepted = (s.tile k).accepted) :
    s.sent u net :=
  ⟨h.1, h.2.1, fun k => ⟨(h.2.2 k).1.trans (hq k).1, (h.2.2 k).2.trans (hq k).2⟩⟩

end State

/-- Settles O27: `fork` counts its child and pushes it below the core's deque, or asks the counter's home and pushes it when that has counted. -/
theorem forkedTasks : Obligations.ForkedTasks := by
  intro s f m d y x a c code hmem h hy hcode hroom t base born w
  have hst : s.task.stepping = false := State.performs_stepping h
  have hy1 : y.space = 1 := by simpa using (State.check_space hy).1
  have hbase : base = State.tileAddr s.task.part false s.here a := by
    rw [show base = s.tileMem y a from rfl, State.tileMem_local (by omega), hy1]
    rfl
  have hexec : exec (.fork f m d) s = .next (s.forkOp f m d) := rfl
  refine ⟨fun hw hl h0 hlands hx => ?_, fun r vt v hw hv hp hc7 hh => ?_⟩
  · obtain ⟨tl, htl, htq, hth⟩ := State.bankFold_eq (s := s) false [a + 0, a + 16, a + 32]
    obtain ⟨mm, vts, hm, hvt, hb⟩ := State.coreStore_eq (s := { s with tiles := tl }) (State.tileAddr s.task.part false (s.tileOfSeg x) c) 8
      ((s.loadNat (State.tileAddr s.task.part false (s.tileOfSeg x) c) 8 + 1) % 2 ^ 64)
    have hx13 : x.space = 1 ∨ x.space = 3 := by simpa using (State.check_space hx).1
    have hfork := State.forkOp_accepted h hy hcode hroom hbase hw hl h0 hlands hx htl rfl hm
    by_cases h3 : x.space = 3
    · rw [if_pos h3]
      rw [if_pos h3] at hfork
      obtain ⟨h4, h5⟩ := State.remoteWait_sent (s := { s with tiles := tl }) (x := x) (a := c) (row := 9) (op := .count) (dst := State.regDst false d)
        (acq := false) (rel := true) (scope := 5) (carry := base :: s.forkWords base) hst
      rw [h3] at h4
      exact ⟨_, hexec.trans (congrArg Host.Outcome.next hfork), h5, State.sent_of_tiles h4 htq⟩
    · rw [if_neg h3]
      intro hr hw1 hw2 at_ count
      rw [if_neg h3, hr, if_neg Bool.false_ne_true] at hfork
      have hat : at_ = State.tileAddr s.task.part false (s.tileOfSeg x) c := by
        rw [show at_ = s.tileMem x c from rfl, State.tileMem, hx13.resolve_right h3]
        rfl
      have hcount : count = (s.loadNat (State.tileAddr s.task.part false (s.tileOfSeg x) c) 8 + 1) % 2 ^ 64 :=
        congrArg (fun b => (leNat (memRead s.mem b 8) + 1) % 2 ^ 64) hat
      rw [hat, hcount]
      obtain ⟨tl', hbk, -⟩ := State.bankCost_eq
        (s := { s with tiles := tl, mem := mm, vtiles := vts, feEmpty := insNat s.feEmpty (State.tileAddr s.task.part false (s.tileOfSeg x) c) }) false c
      rw [hbk] at hfork
      obtain ⟨h4, h5, h6, h7⟩ := State.forkPush_born (m := m) (d := d) (len := f.bytes) (code := code) (entry := s.loadNat base 8 % 2 ^ 32) (dom := s.loadNat base 8 / 2 ^ 32 % 4)
        (counter := State.tileAddr s.task.part false (s.tileOfSeg x) c) (args := (s.forkWords base).drop 2)
        (seen := [(0, s.here, a, .load 48 false), (0, s.here, c, .count)])
        (s := { s with tiles := tl', mem := mm, vtiles := vts, feEmpty := insNat s.feEmpty (State.tileAddr s.task.part false (s.tileOfSeg x) c) }) hst
        (by
          intro e he
          simp only [List.mem_cons, List.not_mem_nil, or_false] at he
          rcases he with rfl | rfl
          · exact hw1
          · exact hw2)
      refine ⟨_, ⟨_, hexec.trans (congrArg Host.Outcome.next hfork), h4, h5, ?_⟩, fun b => ?_, fun b => ?_⟩
      · obtain ⟨g1, g2, g3, g4, g5, g6, g7, g8, g9, g10, g11, g12, g13⟩ := State.forkChild_fields s.task code (s.newGtid (dieOf (coreOf s.cur))).1 (coreOf s.cur)
          (s.loadNat base 8 % 2 ^ 32) (s.loadNat base 8 / 2 ^ 32 % 4) (State.tileAddr s.task.part false (s.tileOfSeg x) c) ((s.forkWords base).drop 2)
        refine ⟨g1.trans (State.newGtid_word _), g2, g3, g4, g5, g6, g7, g8, g9, g10, g11, g12, fun i hi => (g13 i hi).trans ?_⟩
        rw [List.getElem?_drop, State.forkWords_get _ (by omega)]
        rfl
      · exact (congrArg (fun l : List Nat => !l.contains b) h7).trans (State.feFull_setFe (s := s) _ b false)
      · exact (congrArg (memGet · b) h6).trans ((hth b ▸ (hb hmem).2 b :))
  · have hfork := State.forkOp_back h hy hcode hroom hbase hw hv hp
    obtain ⟨h4, h5, h6, h7⟩ := State.forkPush_born (m := m) (d := d) (len := f.bytes) (code := code) (entry := r.carry[1]?.getD 0 % 2 ^ 32)
      (dom := r.carry[1]?.getD 0 / 2 ^ 32 % 4) (counter := State.tileAddr r.part false vt c) (args := r.carry.drop 3)
      (seen := [(0, (State.placeOf (r.carry.headD 0)).2.1, (State.placeOf (r.carry.headD 0)).2.2.1, .load 48 false)]) (s := s.dropAcc r.tag) hst
      (by
        intro e he
        rw [List.mem_singleton.1 he]
        exact hh _ _ _ _)
    refine ⟨_, ⟨_, hexec.trans (congrArg Host.Outcome.next hfork), h4, h5, ?_⟩, h6, h7⟩
    obtain ⟨g1, g2, g3, g4, g5, g6, g7, g8, g9, g10, g11, g12, g13⟩ := State.forkChild_fields s.task code (s.newGtid (dieOf (coreOf s.cur))).1 (coreOf s.cur)
      (r.carry[1]?.getD 0 % 2 ^ 32) (r.carry[1]?.getD 0 / 2 ^ 32 % 4) (State.tileAddr r.part false vt c) (r.carry.drop 3)
    refine ⟨g1.trans (State.newGtid_word _), g2, g3, g4, g5, g6, g7, g8, g9, g10, g11, g12, fun i hi => (g13 i hi).trans ?_⟩
    rw [List.getElem?_drop]
    have : 3 + i = 2 + i + 1 := by omega
    rw [this]

end Sys2Proof.Machine
end

section
/-! PROOFS. `waddr` (13:R230, R224, 02:R42). -/

namespace Sys2Proof.Machine

/-- A signed difference that is not negative (13:R230). -/
theorem watchHolds_iff {cond : BitVec 2} {w v c : Nat} (hw : 0 < w) (hc : c < 2 ^ w) :
    State.watchHolds cond w v c = true ↔ match cond.toNat with
      | 0 => v ≠ c
      | 1 => v = c
      | _ => 0 ≤ (BitVec.ofNat w v - BitVec.ofNat w c).toInt := by
  have hd : BitVec.ofNat w ((v + (2 ^ w - c)) % 2 ^ w) = BitVec.ofNat w v - BitVec.ofNat w c := by
    apply BitVec.eq_of_toNat_eq
    rw [BitVec.toNat_sub, BitVec.toNat_ofNat, BitVec.toNat_ofNat, BitVec.toNat_ofNat, Nat.mod_mod, Nat.mod_eq_of_lt hc, Nat.add_comm, Nat.add_mod_mod]
  unfold State.watchHolds
  generalize cond.toNat = k
  rcases k with _ | _ | k
  · exact bne_iff_ne
  · exact beq_iff_eq
  · rw [← hd, ← signOf_eq_toInt hw (Nat.mod_lt _ (Nat.two_pow_pos w))]
    exact decide_eq_true_iff

namespace State

variable {s : State}

theorem tileBank_frame (part vt : Nat) (acc : Bool) (w : Nat) : ∃ e tl, s.tileBank part vt acc w = (e, { s with tiles := tl })
    ∧ ∀ k, (State.tile { s with tiles := tl } k).queues = (s.tile k).queues ∧ (State.tile { s with tiles := tl } k).accepted = (s.tile k).accepted := by
  unfold tileBank
  split
  · exact ⟨0, s.tiles, rfl, fun _ => ⟨rfl, rfl⟩⟩
  · next k hk =>
    refine ⟨_, _, rfl, fun j => ?_⟩
    simp only [tile, mapMod]
    by_cases h : j = k
    · subst h; simp
    · simp [mapGet_mapSet_ne _ h]

/-- A `waddr` whose registers can be read, and whose memory something backs, is performed (13:R230). -/
theorem exec_waddr {o : WaddrArgs} {x : Segment} {a n : Nat} (hn : n = if o.d64 then 8 else 4)
    (h : s.performs o.f [.s o.t] ((o.m.reads.map (·.1)) ++ [.s o.t]) = true)
    (hc : s.check o.m.seg (o.m.offset s.task).toNat n { rd := true } [1, 3, 4, 5] n [] = .ok (x, a))
    (hu : ∀ ps, s.watchPieces s.task x a n = .pieces ps → 4 ≤ x.space → unbacked? ps = none) :
    exec (.waddr o) s = .next (s.waitAddr o) := by
  subst hn
  obtain ⟨h1, h2, h3⟩ := performsG_iff.1 h
  have hg : gate s.cycle s.task [.s o.t] (waddrReads o) = .ok := gate_ok (by simpa [waddrReads] using h3)
  have hab : s.watchAbsent o = none := by
    unfold watchAbsent
    dsimp only
    rw [h1, h2, hg, if_neg (by decide), watchCheck, hc]
    dsimp only
    split
    · rfl
    · next ps hp =>
      split
      · next h4 => exact hu ps hp h4
      · rfl
  have hx : exec (.waddr o) s = execWaddr o s := rfl
  rw [hx, execWaddr, hab]

theorem waitAddr_pieces {o : WaddrArgs} {x : Segment} {a n : Nat} (hn : n = if o.d64 then 8 else 4)
    (h : s.performs o.f [.s o.t] ((o.m.reads.map (·.1)) ++ [.s o.t]) = true)
    (hc : s.check o.m.seg (o.m.offset s.task).toNat n { rd := true } [1, 3, 4, 5] n [] = .ok (x, a)) :
    (∀ va, s.watchPieces s.task x a n = .miss va → s.waitAddr o = s.startWalk s.task o.m.seg va 1)
    ∧ ∀ ps, s.watchPieces s.task x a n = .pieces ps → s.watchWaits s.task x a n ps = false →
      (4 ≤ x.space ∧ s.domainHolds s.task.part ps = true → s.waitAddr o = s.park 10 .domain)
      ∧ (¬ (4 ≤ x.space ∧ s.domainHolds s.task.part ps = true) → (4 ≤ x.space → s.readRefused s.task.part a ps = none) →
        ∀ e u, (if x.space ≤ 3 then (s.takeBytes ps).2.tileBank s.task.part (s.tileOfSeg x) false a else (0, (s.takeBytes ps).2)) = (e, u) →
        s.waitAddr o = if watchHolds o.cond (8 * n) (leNat (s.takeBytes ps).1) ((s.task.getS o.t).toNat % 2 ^ (8 * n)) then
            u.watchEnds ((o.m.bump s.task).writeS u.cycle o.t (BitVec.ofNat 64 (leNat (s.takeBytes ps).1)) (5 + e)) o.f.bytes x a n
          else u.yieldOr s.task o.y (u.park 5 (.watch ((ps.head?.map (·.addr)).getD 0) n (leNat (s.takeBytes ps).1) o.cond
            ((s.task.getS o.t).toNat % 2 ^ (8 * n))))) := by
  subst hn
  have hbody (b : Task → State) : s.plain o.f [.s o.t] (waddrReads o) b = b s.task := plain_performs (by simpa [waddrReads] using h)
  refine ⟨fun va hp => ?_, fun ps hp hw => ⟨fun hd => ?_, fun hd hr e u hb => ?_⟩⟩
  · rw [waitAddr, hbody, watchCheck, hc]
    dsimp only
    rw [hp]
  · rw [waitAddr, hbody, watchCheck, hc]
    dsimp only
    rw [hp]
    dsimp only
    rw [hw, if_neg Bool.false_ne_true, if_pos hd]
  · have hr' : (if 4 ≤ x.space then s.readRefused s.task.part a ps else none) = none := by
      split
      · next h4 => exact hr h4
      · rfl
    rw [waitAddr, hbody, watchCheck, hc]
    dsimp only
    rw [hp]
    dsimp only
    rw [hw, if_neg Bool.false_ne_true, if_neg hd, hr']
    dsimp only
    rw [show (s.takeBytes ps).2.tileOfSeg x = s.tileOfSeg x from rfl, hb]

/-- A `waddr` that holds goes on, in the state whose bank it has used (13:R230). -/
theorem watchEnds_goes {t : Task} {len a n : Nat} {x : Segment} (hst : t.stepping = false) (hp : t.pc = s.task.pc)
    (hh : ∀ m w b k l, s.watchHits t.part m w b k l t.gtid = []) : s.watchEnds t len x a n = s.after t len := by
  have hc : s.completeWith t len = s.after t len := completeWith_after hst hp
  unfold watchEnds
  split
  · dsimp only
    rw [hc, watchAway]
    dsimp only
    rw [show State.watchHits (s.after t len) t.part _ _ _ _ _ t.gtid = [] from hh _ _ _ _ _]
    rfl
  · split
    · rw [localEnds, completeWatched_none, hc]
      intro e he
      rw [List.mem_singleton.1 he]
      exact hh _ _ _ _ _
    · rw [extEnds_unwatched (fun _ => hh _ _ _ _ _), hc]

/-- A byte of a tile has an address that is neither main memory nor the fabric window (06:R100, R101). -/
theorem tileAddr_high (part vt : Nat) (acc : Bool) (a : Nat) : hostBase ≤ tileAddr part acc vt a := by
  unfold tileAddr spBase asBase hostBase
  split <;> omega

/-- The word of a tile that a `waddr` reads (13:R230). -/
theorem takeBytes_tile {x : Segment} {a n : Nat} {ps : List Piece} (hx : x.space = 1 ∨ x.space = 3) (hp : s.watchPieces s.task x a n = .pieces ps) :
    (s.takeBytes ps).1 = memRead s.mem (s.tileMem x a) n := by
  rw [watchPieces, if_pos hx] at hp
  cases hp
  have hacc : (x.space == 2 || x.space == 6) = false := by rcases hx with h | h <;> simp [h]
  have hn : ¬ (tileAddr s.task.part false (s.tileOfSeg x) a < hostBase ∧ inWindow (tileAddr s.task.part false (s.tileOfSeg x) a) = true) :=
    fun h => absurd h.1 (Nat.not_lt.2 (tileAddr_high _ _ _ _))
  simp only [takeBytes, tileMem, hacc, List.zipIdx_cons, List.zipIdx_nil, List.map_cons, List.map_nil, List.flatten_cons, List.flatten_nil,
    List.append_nil, pieceBytes, hn, if_false]

/-- Free values taken and a bank's use noted: beside the current task only they differ. -/
theorem sameBut_taken {n : Nat} {tl : Map Tile} {u : State} (h : State.sameBut { s with freeCtr := n, tiles := tl } u)
    (hq : ∀ k, (State.tile { s with tiles := tl } k).queues = (s.tile k).queues ∧ (State.tile { s with tiles := tl } k).accepted = (s.tile k).accepted) :
    State.sameBut { s with freeCtr := u.freeCtr } u := by
  have hf : u.freeCtr = n := congrArg State.freeCtr h.1
  rw [hf]
  exact ⟨h.1, h.2.1, fun k => ⟨(h.2.2 k).1.trans (hq k).1, (h.2.2 k).2.trans (hq k).2⟩⟩

end State

/-- Settles O28: `waddr` completes with its word where the condition holds, else parks on it or yields. -/
theorem watchedWords : Obligations.WatchedWords := by
  intro s o x a h t n hc
  have hst := State.performs_stepping h
  have hn0 : 0 < 8 * n := by
    show 0 < 8 * (if o.d64 = true then 8 else 4)
    split <;> decide
  obtain ⟨hmiss, hpieces⟩ := State.waitAddr_pieces rfl h hc
  refine ⟨fun va hp => ⟨_, ?_, State.startWalk_eq o.m.seg va 1⟩, fun ps hp hu hw => ?_⟩
  · rw [State.exec_waddr rfl h hc (fun ps hq => by rw [hq] at hp; cases hp), hmiss va hp]
  · have hx : exec (.waddr o) s = .next (s.waitAddr o) := State.exec_waddr rfl h hc fun qs hq => by
      rw [hq] at hp
      cases hp
      exact hu
    obtain ⟨hheld, hread⟩ := hpieces ps hp hw
    by_cases hd : 4 ≤ x.space ∧ s.domainHolds t.part ps = true
    · rw [if_pos hd]
      exact ⟨_, hx.trans (congrArg Host.Outcome.next (hheld hd)), State.park_sameBut hst, State.park_task hst⟩
    rw [if_neg hd]
    intro hr v c holds bank
    have hiff : State.watchHolds o.cond (8 * n) v c = true ↔ holds := watchHolds_iff hn0 (Nat.mod_lt _ (Nat.two_pow_pos _))
    obtain ⟨e, tl, hb, hq⟩ : ∃ e tl, bank = (e, { s with freeCtr := s.freeCtr + 256 * ps.length, tiles := tl })
        ∧ ∀ k, (State.tile { s with tiles := tl } k).queues = (s.tile k).queues ∧ (State.tile { s with tiles := tl } k).accepted = (s.tile k).accepted := by
      show ∃ e tl, (if x.space ≤ 3 then (s.takeBytes ps).2.tileBank t.part (s.tileOfSeg x) false a else (0, (s.takeBytes ps).2)) = _ ∧ _
      split
      · exact State.tileBank_frame (s := (s.takeBytes ps).2) _ _ _ _
      · exact ⟨0, s.tiles, rfl, fun _ => ⟨rfl, rfl⟩⟩
    have hbody := hread hd hr _ _ hb
    refine ⟨fun hs => congrArg leNat (State.takeBytes_tile hs hp), fun hh hwatch => ?_, fun hh hy => ?_, fun hh hy hg => ?_⟩
    · rw [if_pos (hiff.2 hh), State.watchEnds_goes (by simp [hst]) (by simp; rfl)
        (by intro m w b k l; rw [Task.writeS_part, Task.writeS_gtid, bump_part, bump_gtid]; exact hwatch m w b k l)] at hbody
      refine ⟨_, hx.trans (congrArg Host.Outcome.next hbody), ?_, ?_⟩
      · exact State.sameBut_taken (State.sameBut_after _ _ _) hq
      · rw [hb]
        exact State.task_setTask _ _
    · have hny : State.yields t o.y = false := by
        rcases hy with hy | hg
        · rw [State.yields, hy, Bool.false_and]
        · rw [State.yields, Option.isNone_eq_false_iff.2 (Option.isSome_iff_ne_none.2 hg), Bool.and_false]
      rw [if_neg (fun hw => hh (hiff.1 hw)), State.yieldOr, hny, if_neg Bool.false_ne_true] at hbody
      refine ⟨_, hx.trans (congrArg Host.Outcome.next hbody), ?_, State.park_task (s := { s with freeCtr := s.freeCtr + 256 * ps.length, tiles := tl }) hst⟩
      exact State.sameBut_taken (State.park_sameBut (s := { s with freeCtr := s.freeCtr + 256 * ps.length, tiles := tl }) hst) hq
    · have hyy : State.yields t o.y = true := by rw [State.yields, hy, hg]; rfl
      rw [if_neg (fun hw => hh (hiff.1 hw)), State.yieldOr, hyy, if_pos rfl] at hbody
      rw [hx, hbody, hb]

end Sys2Proof.Machine
end

section
/-! PROOFS. Fences, queue waits, the end of a task, and yields (07:R124, 13:R226, R228, R236, 02:R24, R32, R35, R38). -/

namespace Sys2Proof.Machine

namespace State

variable {s : State}

/-! ### What a task that leaves its slot leaves alone -/

/-- Memory, its full/empty bits, the deques, the requests in the network and the tiles of partitions are as they were. -/
structure Quiet (s u : State) : Prop where
  mem : u.mem = s.mem
  feEmpty : u.feEmpty = s.feEmpty
  deques : u.deques = s.deques
  accs : u.net.accs = s.net.accs
  helds : u.net.helds = s.net.helds
  vtiles : u.vtiles = s.vtiles
  vtileOf : ∀ p c, u.vtileOf? p c = s.vtileOf? p c
  tagCtr : u.tagCtr = s.tagCtr
  cycle : u.cycle = s.cycle
  cur : u.cur = s.cur

theorem Quiet.refl (s : State) : s.Quiet s := ⟨rfl, rfl, rfl, rfl, rfl, rfl, fun _ _ => rfl, rfl, rfl, rfl⟩

theorem Quiet.trans {u v : State} (h : s.Quiet u) (k : u.Quiet v) : s.Quiet v :=
  ⟨k.mem.trans h.mem, k.feEmpty.trans h.feEmpty, k.deques.trans h.deques, k.accs.trans h.accs, k.helds.trans h.helds, k.vtiles.trans h.vtiles,
    fun p c => (k.vtileOf p c).trans (h.vtileOf p c), k.tagCtr.trans h.tagCtr, k.cycle.trans h.cycle, k.cur.trans h.cur⟩

theorem Quiet.unperformed {u : State} (h : s.Quiet u) (g : Word) : u.unperformed g = s.unperformed g := by
  rw [State.unperformed, State.unperformed, h.accs, h.helds]

/-- A change of a partition that keeps its virtual tiles. -/
theorem quiet_modPart (p : Nat) {f : Partition → Partition} (hf : ∀ x, (f x).vmap = x.vmap) : s.Quiet (s.modPart p f) := by
  unfold modPart
  split
  · exact .refl s
  · next x hx =>
    refine ⟨rfl, rfl, rfl, rfl, rfl, rfl, fun q c => ?_, rfl, rfl, rfl⟩
    unfold vtileOf?
    by_cases hq : q = p
    · subst hq
      simp only [mapGet_mapSet_self, hx, hf]
    · simp only [mapGet_mapSet_ne _ hq]

theorem quiet_poolReturn (part k n : Nat) : s.Quiet (s.poolReturn part k n) := by
  refine quiet_modPart part fun x => ?_
  split <;> rfl

theorem quiet_keepTokens (g : Word) (cls n : Nat) : s.Quiet (s.keepTokens g cls n) := by
  unfold keepTokens
  dsimp only
  split
  · exact ⟨rfl, rfl, rfl, rfl, rfl, rfl, fun _ _ => rfl, rfl, rfl, rfl⟩
  · exact ⟨rfl, rfl, rfl, rfl, rfl, rfl, fun _ _ => rfl, rfl, rfl, rfl⟩

theorem slots_keepTokens (g : Word) (cls n : Nat) : (s.keepTokens g cls n).slots = s.slots := by
  unfold keepTokens
  dsimp only
  split <;> rfl

theorem quiet_giveTokens (part : Nat) (g : Word) (core cls held n : Nat) : s.Quiet (s.giveTokens part g core cls held n) :=
  (quiet_poolReturn _ _ _).trans (quiet_keepTokens _ _ _)

theorem slots_giveTokens (part : Nat) (g : Word) (core cls held n : Nat) : (s.giveTokens part g core cls held n).slots = s.slots :=
  (slots_keepTokens _ _ _).trans (modPart_slots _ _ _)

/-- Tokens given back touch the pools and what they cover (05:R98). -/
theorem quiet_dropTokens (t : Task) (core : Nat) : s.Quiet (s.dropTokens t core) ∧ (s.dropTokens t core).slots = s.slots := by
  have key : ∀ (l : List Nat) (u : State), u.Quiet (l.foldl (fun s c =>
      let h := t.tokens.toList[c]?.getD 0
      if h = 0 then s else s.giveTokens t.part t.gtid core c h h) u) ∧ (l.foldl (fun s c =>
      let h := t.tokens.toList[c]?.getD 0
      if h = 0 then s else s.giveTokens t.part t.gtid core c h h) u).slots = u.slots := by
    intro l
    induction l with
    | nil => exact fun u => ⟨.refl u, rfl⟩
    | cons c l ih =>
      intro u
      rw [List.foldl_cons]
      dsimp only
      split
      · exact ih u
      · obtain ⟨h1, h2⟩ := ih (u.giveTokens t.part t.gtid core c (t.tokens.toList[c]?.getD 0) (t.tokens.toList[c]?.getD 0))
        exact ⟨(quiet_giveTokens _ _ _ _ _ _).trans h1, h2.trans (slots_giveTokens _ _ _ _ _ _)⟩
  unfold dropTokens
  split
  · exact ⟨.refl s, rfl⟩
  · exact key _ s

theorem quiet_freeSlot (k : Nat) : s.Quiet (s.freeSlot k) ∧ mapGet (s.freeSlot k).slots k = none := by
  have hn : mapGet (mapErase s.slots k) k = none := by rw [mapGet_mapErase, if_pos rfl]
  unfold freeSlot
  dsimp only
  generalize ((s.taskAt k).tvNext.getD _) = seg
  split
  · exact ⟨⟨rfl, rfl, rfl, rfl, rfl, rfl, fun _ _ => rfl, rfl, rfl, rfl⟩, hn⟩
  · exact ⟨⟨rfl, rfl, rfl, rfl, rfl, rfl, fun _ _ => rfl, rfl, rfl, rfl⟩, hn⟩

theorem quiet_rootDone (t : Task) : s.Quiet (s.rootDone t) ∧ (s.rootDone t).slots = s.slots := by
  unfold rootDone
  split
  · exact ⟨.refl s, rfl⟩
  · split
    · exact ⟨.refl s, rfl⟩
    · exact ⟨⟨rfl, rfl, rfl, rfl, rfl, rfl, fun _ _ => rfl, rfl, rfl, rfl⟩, rfl⟩

theorem quiet_leaveGang (id rank : Nat) : s.Quiet (s.leaveGang id rank) ∧ (s.leaveGang id rank).slots = s.slots := by
  unfold leaveGang
  split
  · exact ⟨.refl s, rfl⟩
  · exact ⟨⟨rfl, rfl, rfl, rfl, rfl, rfl, fun _ _ => rfl, rfl, rfl, rfl⟩, rfl⟩

/-! ### The end of a task (13:R236, 02:R24) -/

/-- The state when the ended task's slot is free and its tokens and its launch's root are given back. -/
def slotLeft (s : State) (key cause : Nat) : State :=
  ((((s.recordSched key 6 cause (s.taskAt key).gtid).dropTokens (s.taskAt key) (coreOf key)).freeSlot key).rootDone (s.taskAt key))

/-- The same when its gang is told too. -/
def gangLeft (s : State) (key cause : Nat) : State :=
  match (s.taskAt key).gang with
  | none => s.slotLeft key cause
  | some id => (s.slotLeft key cause).afterAll (s.taskAt key) key (.leave id (s.taskAt key).grank) ((s.slotLeft key cause).leaveGang id (s.taskAt key).grank)

theorem retire_eq (key cause : Nat) : s.retire key cause =
    ((match (s.taskAt key).join with
      | none => s.gangLeft key cause
      | some a => (s.gangLeft key cause).afterAll (s.taskAt key) key (.uncount a)
        ((s.gangLeft key cause).sendUncount key (s.taskAt key).part (s.taskAt key).gtid a)).orphan (s.taskAt key).gtid).unwait (s.taskAt key).part (s.taskAt key).gtid := rfl

theorem slotLeft_quiet (key cause : Nat) : s.Quiet (s.slotLeft key cause) ∧ mapGet (s.slotLeft key cause).slots key = none := by
  have h1 : s.Quiet (s.recordSched key 6 cause (s.taskAt key).gtid) := ⟨rfl, rfl, rfl, rfl, rfl, rfl, fun _ _ => rfl, rfl, rfl, rfl⟩
  obtain ⟨h2, -⟩ := quiet_dropTokens (s := s.recordSched key 6 cause (s.taskAt key).gtid) (s.taskAt key) (coreOf key)
  obtain ⟨h3, h4⟩ := quiet_freeSlot (s := (s.recordSched key 6 cause (s.taskAt key).gtid).dropTokens (s.taskAt key) (coreOf key)) key
  obtain ⟨h5, h6⟩ := quiet_rootDone (s := ((s.recordSched key 6 cause (s.taskAt key).gtid).dropTokens (s.taskAt key) (coreOf key)).freeSlot key) (s.taskAt key)
  exact ⟨((h1.trans h2).trans h3).trans h5, by rw [slotLeft, h6, h4]⟩

theorem gangLeft_quiet (key cause : Nat) (hu : s.unperformed (s.taskAt key).gtid = false) :
    s.Quiet (s.gangLeft key cause) ∧ mapGet (s.gangLeft key cause).slots key = none := by
  obtain ⟨h1, h2⟩ := slotLeft_quiet (s := s) key cause
  unfold gangLeft
  split
  · exact ⟨h1, h2⟩
  · next id _ =>
    obtain ⟨h3, h4⟩ := quiet_leaveGang (s := s.slotLeft key cause) id (s.taskAt key).grank
    rw [afterAll, h1.unperformed, hu, if_neg Bool.false_ne_true]
    exact ⟨h1.trans h3, by rw [h4, h2]⟩

/-- Behind an access of its own the end of a task is only noted (07:R119). -/
theorem gangLeft_held (key cause : Nat) (hu : s.unperformed (s.taskAt key).gtid = true) :
    (s.gangLeft key cause).mem = s.mem ∧ (s.gangLeft key cause).unperformed (s.taskAt key).gtid = true ∧ mapGet (s.gangLeft key cause).slots key = none := by
  obtain ⟨h1, h2⟩ := slotLeft_quiet (s := s) key cause
  have h3 := (h1.unperformed (s.taskAt key).gtid).trans hu
  unfold gangLeft
  split
  · exact ⟨h1.mem, h3, h2⟩
  · rw [afterAll, h3, if_pos rfl]
    refine ⟨h1.mem, ?_, h2⟩
    unfold unperformed at h3 ⊢
    rw [List.any_append, ← Bool.or_assoc, h3, Bool.true_or]

theorem retired_frame (part : Nat) (g : Word) : ((s.orphan g).unwait part g).mem = s.mem ∧ ((s.orphan g).unwait part g).feEmpty = s.feEmpty
    ∧ ((s.orphan g).unwait part g).slots = s.slots ∧ ((s.orphan g).unwait part g).net.helds = s.net.helds
    ∧ ((s.orphan g).unwait part g).net.accs = s.net.accs.map fun a => if a.owner == g then { a with dead := true } else a := by
  refine ⟨modPart_mem _ _ _, modPart_feEmpty _ _ _, modPart_slots _ _ _, ?_, ?_⟩
  · exact (congrArg Net.helds (modPart_net _ _ _) :)
  · exact (congrArg Net.accs (modPart_net _ _ _) :)

/-- One taken from a join counter: its word, and at zero its full/empty bit (02:R24). -/
theorem uncount_word (hm : s.memOk) (a : Nat) :
    let n := (s.loadNat a 8 + (2 ^ 64 - 1)) % 2 ^ 64
    memNat (s.uncount a).mem a 8 = n ∧ (∀ b, b < a ∨ a + 8 ≤ b → memGet (s.uncount a).mem b = memGet s.mem b)
      ∧ (∀ b, (s.uncount a).feFull b = (s.feFull b || (n == 0 && b == a))) ∧ (s.uncount a).slots = s.slots := by
  intro n
  obtain ⟨vts, hv, -⟩ := store_eq (s := s) a (leBytes 8 n)
  have hu : s.uncount a = if n = 0 then State.setFe { s with mem := memWrite s.mem a (leBytes 8 n), vtiles := vts } a true
      else { s with mem := memWrite s.mem a (leBytes 8 n), vtiles := vts } := by
    rw [← hv]; rfl
  have hmem : (s.uncount a).mem = memWrite s.mem a (leBytes 8 n) := by
    rw [hu]; split <;> rfl
  refine ⟨?_, fun b hb => ?_, fun b => ?_, ?_⟩
  · rw [hmem]
    exact (memNat_memPut a 8 n hm).trans (Nat.mod_eq_of_lt (Nat.mod_lt _ (by decide)))
  · rw [hmem, memGet_memWrite_out _ (by rw [length_leBytes]; omega)]
  · rw [hu]
    by_cases h0 : n = 0
    · rw [if_pos h0, feFull_setFe, h0]; rfl
    · rw [if_neg h0, beq_false_of_ne h0, Bool.false_and, Bool.or_false]; rfl
  · rw [hu]; split <;> rfl

/-- A task that ends behind an access of its own: its count is held (07:R119). -/
theorem retire_held (key cause : Nat) (hu : s.unperformed (s.taskAt key).gtid = true) :
    mapGet (s.retire key cause).slots key = none ∧ (s.retire key cause).mem = s.mem
      ∧ ∀ a, (s.taskAt key).join = some a → ∃ h ∈ (s.retire key cause).net.helds, h.owner = (s.taskAt key).gtid ∧ h.op = .uncount a := by
  obtain ⟨h1, h2, h3⟩ := gangLeft_held (s := s) key cause hu
  rw [retire_eq]
  cases hj : (s.taskAt key).join with
  | none =>
    obtain ⟨f1, -, f2, -, -⟩ := retired_frame (s := s.gangLeft key cause) (s.taskAt key).part (s.taskAt key).gtid
    exact ⟨by rw [f2, h3], f1.trans h1, nofun⟩
  | some a =>
    dsimp only
    rw [afterAll, h2, if_pos rfl]
    obtain ⟨f1, -, f2, f3, -⟩ := retired_frame (s := { s.gangLeft key cause with
        tagCtr := (s.gangLeft key cause).tagCtr + 1
        net := { (s.gangLeft key cause).net with helds := (s.gangLeft key cause).net.helds
          ++ [(⟨(s.gangLeft key cause).tagCtr, (s.taskAt key).gtid, key, (s.taskAt key).part, .uncount a, 0, 0⟩ : Held)] } })
      (s.taskAt key).part (s.taskAt key).gtid
    refine ⟨by rw [f2]; exact h3, f1.trans h1, fun b hb => ?_⟩
    cases hb
    rw [f3]
    exact ⟨_, List.mem_append_right _ (List.mem_singleton_self _), rfl, rfl⟩

/-- The request that takes 1 from a counter in another tile (06:R109). -/
def uncountAcc (s : State) (key part : Nat) (g : Word) (a : Nat) : Acc :=
  { tag := s.tagCtr, owner := g, key := key, part := part, op := .uncount, place := .tile false (placeOf a).2.1 (placeOf a).2.2.1
    dead := true, scope := 5, issued := s.cycle, left := some s.cycle }

/-- A task that ends with its accesses performed takes 1 from its counter, here or at the counter's home (02:R24). -/
theorem retire_counts (hm : s.memOk) (key cause : Nat) (hu : s.unperformed (s.taskAt key).gtid = false) :
    mapGet (s.retire key cause).slots key = none ∧ match (s.taskAt key).join with
      | none => (s.retire key cause).mem = s.mem ∧ (s.retire key cause).feEmpty = s.feEmpty
      | some a => let n := (memNat s.mem a 8 + (2 ^ 64 - 1)) % 2 ^ 64
        let vt := (placeOf a).2.1
        (s.vtileOf? (s.taskAt key).part (coreOf key) = some vt → (∀ d, mapGet (s.vtile (s.taskAt key).part vt).saved d = none) →
          memNat (s.retire key cause).mem a 8 = n ∧ (∀ b, b < a ∨ a + 8 ≤ b → memGet (s.retire key cause).mem b = memGet s.mem b)
            ∧ ∀ b, (s.retire key cause).feFull b = (s.feFull b || (n == 0 && b == a)))
        ∧ (s.vtileOf? (s.taskAt key).part (coreOf key) ≠ some vt → (s.retire key cause).mem = s.mem ∧ (s.retire key cause).feEmpty = s.feEmpty
          ∧ ∃ x ∈ (s.retire key cause).net.accs, x.owner = (s.taskAt key).gtid ∧ x.op = .uncount ∧ x.place = .tile false vt (placeOf a).2.2.1) := by
  obtain ⟨hq, hs⟩ := gangLeft_quiet (s := s) key cause hu
  rw [retire_eq]
  cases hj : (s.taskAt key).join with
  | none =>
    obtain ⟨f1, f2, f3, -, -⟩ := retired_frame (s := s.gangLeft key cause) (s.taskAt key).part (s.taskAt key).gtid
    exact ⟨by rw [f3, hs], f1.trans hq.mem, f2.trans hq.feEmpty⟩
  | some a =>
    dsimp only
    rw [afterAll, hq.unperformed, hu, if_neg Bool.false_ne_true, sendUncount]
    obtain ⟨e, tl, hb, -⟩ := tileBank_frame (s := s.gangLeft key cause) (s.taskAt key).part (placeOf a).2.1 false (placeOf a).2.2.1
    rw [hb]
    dsimp only
    by_cases hc : (s.gangLeft key cause).counterHere key (s.taskAt key).part (s.taskAt key).gtid a = true
    · rw [if_pos hc]
      have hv : s.vtileOf? (s.taskAt key).part (coreOf key) = some (placeOf a).2.1 := by
        have := (Bool.and_eq_true_iff.1 hc).1
        rw [hq.vtileOf] at this
        exact beq_iff_eq.1 this
      obtain ⟨w1, w2, w3, w4⟩ := uncount_word (s := { s.gangLeft key cause with tiles := tl }) (by rw [memOk]; exact hq.mem ▸ hm) a
      obtain ⟨f1, f2, f3, -, -⟩ := retired_frame (s := State.uncount { s.gangLeft key cause with tiles := tl } a) (s.taskAt key).part (s.taskAt key).gtid
      have hn : State.loadNat { s.gangLeft key cause with tiles := tl } a 8 = memNat s.mem a 8 := by rw [← hq.mem]; rfl
      have hfe (b : Nat) : State.feFull { s.gangLeft key cause with tiles := tl } b = s.feFull b := congrArg (fun l : List Nat => !l.contains b) hq.feEmpty
      rw [hn] at w1 w3
      refine ⟨by rw [f3, w4]; exact hs, fun _ _ => ⟨?_, fun b hb => ?_, fun b => ?_⟩, fun h => absurd hv h⟩
      · rw [f1, w1]
      · rw [f1, w2 b hb]; exact congrArg (memGet · b) hq.mem
      · rw [← hfe b]
        exact (congrArg (fun l : List Nat => !l.contains b) f2).trans (w3 b)
    · rw [if_neg hc]
      have hnone : ∀ d, mapGet ((s.gangLeft key cause).vtile (s.taskAt key).part (placeOf a).2.1).saved d
          = mapGet (s.vtile (s.taskAt key).part (placeOf a).2.1).saved d := fun d => by rw [vtile, vtile, hq.vtiles]
      obtain ⟨f1, f2, f3, -, f5⟩ := retired_frame
        (s := (s.gangLeft key cause).plusAcc ((s.gangLeft key cause).uncountAcc key (s.taskAt key).part (s.taskAt key).gtid a)) (s.taskAt key).part (s.taskAt key).gtid
      refine ⟨by rw [← hs]; exact congrArg (mapGet · key) f3, fun hv h => absurd ?_ hc, fun hv => ⟨f1.trans hq.mem, f2.trans hq.feEmpty, ?_⟩⟩
      · rw [counterHere, hq.vtileOf, hv, tileAway, hnone, h]
        simp
      · have hin := List.mem_map_of_mem (f := fun x : Acc => if x.owner == (s.taskAt key).gtid then { x with dead := true } else x)
          (List.mem_append_right (s.gangLeft key cause).net.accs
            (List.mem_singleton_self ({ (s.gangLeft key cause).uncountAcc key (s.taskAt key).part (s.taskAt key).gtid a with tag := (s.gangLeft key cause).tagCtr })))
        exact ⟨_, f5.symm ▸ hin, by simp [uncountAcc], by simp [uncountAcc], by simp [uncountAcc]⟩

end State

namespace State

variable {s : State} {f : Form}

/-! ### Fences and waits -/

theorem unperformed_iff (g : Word) :
    s.unperformed g = true ↔ (∃ a ∈ s.net.accs, (a.owner == g) = true ∧ a.pending = true) ∨ ∃ h ∈ s.net.helds, h.owner = g := by
  simp [unperformed, List.any_eq_true]

theorem unperformedReads_iff (g : Word) :
    s.unperformedReads g = true ↔ ∃ a ∈ s.net.accs, (a.owner == g) = true ∧ a.pending = true ∧ a.op.reads = true := by
  simp [unperformedReads, List.any_eq_true, and_assoc]

/-- A fence, a queue wait or the end of a task waits where something is before it, else it goes on (07:R124, 13:R228). -/
theorem waits_or_goes {row len : Nat} {w : Wake} {b : Bool} {c : Prop} [Decidable c] {o : Out} (hst : s.task.stepping = false) (hb : b = true ↔ c)
    (ho : o = .next (if b then s.park row w else s.complete len)) :
    if c then ∃ u, o = .next u ∧ s.sameBut u ∧ u.task = { s.task with run := .parked row w } else o = .next (s.after s.task len) := by
  split
  · next h =>
    rw [if_pos (hb.2 h)] at ho
    exact ⟨_, ho, park_sameBut hst, park_task hst⟩
  · next h =>
    rw [if_neg (fun hc => h (hb.1 hc)), complete_after hst] at ho
    exact ho

/-! ### Yields (02:R35, R38) -/

/-- `hint.yield` changes the core's hint and nothing else, and under greedy-then-oldest it sets it (02:R38). -/
theorem hintYield_eq : ∃ c, s.hintYield = { s with counters := c } ∧ (s.counts s.task.part (coreOf s.cur) = s.hintYield.counts s.task.part (coreOf s.cur)
      ∨ (s.hintYield.counts s.task.part (coreOf s.cur)).hint = some s.cycle)
    ∧ ((s.partOf? s.task.part).map (·.pol) ≠ some true → (s.hintYield.counts s.task.part (coreOf s.cur)).hint = some s.cycle) := by
  unfold hintYield
  dsimp only
  split
  · next h =>
    refine ⟨s.counters, rfl, .inl rfl, fun hn => absurd ?_ hn⟩
    cases hp : (s.partOf? s.task.part).map (·.pol) with
    | none => rw [hp] at h; exact absurd h (by decide)
    | some b => rw [hp, Option.getD_some] at h; rw [h]
  · have hh : ((s.modCounts s.task.part (coreOf s.cur) fun k => { k with hint := some s.cycle }).counts s.task.part (coreOf s.cur)).hint = some s.cycle := by
      simp [modCounts, counts, mapMod]
    exact ⟨_, rfl, .inr hh, fun _ => hh⟩

theorem quiet_moveFence (g : Word) : s.Quiet (s.moveFence g) ∧ (s.moveFence g).slots = s.slots :=
  ⟨⟨rfl, rfl, rfl, rfl, rfl, rfl, fun _ _ => rfl, rfl, rfl, rfl⟩, rfl⟩

theorem deque_setDeque_snoc (p c : Nat) (l : List Task) (t : Task) : (s.setDeque p c (l ++ [t])).deque p c = l ++ [t] := by
  simp [setDeque, deque]

/-- A yielding task leaves its slot and stands behind the tasks of its core's deque (02:R35). -/
theorem yieldTask_moves {t : Task} (hst : t.stepping = false) :
    mapGet (s.yieldTask t).slots s.cur = none ∧ (s.yieldTask t).deque t.part (coreOf s.cur) = s.deque t.part (coreOf s.cur)
      ++ [{ t with yieldedAt := some s.cycle, lastIssue := none, holdUntil := 0, waitCount := 0, lats := []
                   owed := t.owed || t.tokens.toList.any fun n => decide (0 < n) }] := by
  have h0 : s.Quiet ((s.recordSched s.cur 3 0 t.gtid).setTask t) := ⟨rfl, rfl, rfl, rfl, rfl, rfl, fun _ _ => rfl, rfl, rfl, rfl⟩
  obtain ⟨h1, -⟩ := quiet_dropTokens (s := (s.recordSched s.cur 3 0 t.gtid).setTask t) t (coreOf s.cur)
  obtain ⟨h2, h3⟩ := quiet_freeSlot (s := ((s.recordSched s.cur 3 0 t.gtid).setTask t).dropTokens t (coreOf s.cur)) s.cur
  have hq := ((h0.trans h1).trans h2).trans (quiet_moveFence t.gtid).1
  have hs : mapGet (((((s.recordSched s.cur 3 0 t.gtid).setTask t).dropTokens t (coreOf s.cur)).freeSlot s.cur).moveFence t.gtid).slots s.cur = none := h3
  have hy : s.yieldTask t = (((((s.recordSched s.cur 3 0 t.gtid).setTask t).dropTokens t (coreOf s.cur)).freeSlot s.cur).moveFence t.gtid).pushTop (coreOf s.cur)
      { t with yieldedAt := some (((((s.recordSched s.cur 3 0 t.gtid).setTask t).dropTokens t (coreOf s.cur)).freeSlot s.cur).moveFence t.gtid).cycle
               lastIssue := none, holdUntil := 0, waitCount := 0, lats := [], owed := t.owed || t.tokens.toList.any fun n => decide (0 < n) } := by
    unfold yieldTask
    rw [hst]
    rfl
  rw [hy]
  generalize ((((s.recordSched s.cur 3 0 t.gtid).setTask t).dropTokens t (coreOf s.cur)).freeSlot s.cur).moveFence t.gtid = u at hq hs
  refine ⟨hs, ?_⟩
  rw [pushTop, hq.cycle]
  refine (deque_setDeque_snoc _ _ _ _).trans ?_
  rw [deque, deque, hq.deques]

end State

/-- Settles O29: fences and waits hold what is behind something; the end of a task and a yield free its slot. -/
theorem fencesWaitsAndYields : Obligations.FencesWaitsAndYields := by
  refine ⟨fun s f h => ?_, fun s f h => ?_⟩
  · have hst := State.performs_stepping h
    intro waits mine
    have hf (o : Order) : exec (.fence f o) s = .next (s.fenceOp f o) := rfl
    have hq (q : BitVec 5) : exec (.qwait f q) s = .next (s.qwaitOp f q) := rfl
    refine ⟨fun o ho => ?_, fun o ho => ?_, fun q => ?_⟩
    · refine State.waits_or_goes hst (State.unperformedReads_iff _) ?_
      rw [hf, State.fenceOp, State.plain_performs h, if_pos ho]
    · refine State.waits_or_goes hst (State.unperformed_iff _) ?_
      rw [hf, State.fenceOp, State.plain_performs h, if_neg ho]
    · refine State.waits_or_goes (b := s.net.accs.any fun a => a.owner == s.task.gtid && a.queue? == some q.toNat) hst (by simp [List.any_eq_true, mine]) ?_
      rw [hq, State.qwaitOp, State.plain_performs h]
  · have hst := State.performs_stepping h
    intro t hinted
    have hhint {o : Out} (ho : o = .next (s.complete f.bytes).hintYield) : hinted o := by
      rw [State.complete_after hst] at ho
      obtain ⟨c, h1, h2, h3⟩ := State.hintYield_eq (s := s.after s.task f.bytes)
      have ht : (s.after s.task f.bytes).task = s.goneOn s.task f.bytes := State.task_setTask _ _
      rw [ht] at h2 h3
      refine ⟨_, ho, ?_, ?_, h2, h3⟩
      · rw [h1]; exact ht
      · rw [h1]
    refine ⟨?_, hhint (congrArg Host.Outcome.next (State.plain_performs h)), ?_⟩
    · have htend : exec (.tend f) s = .next (if s.outstanding t.gtid then s.park 7 .drained else s.retire s.cur 0) :=
        congrArg Host.Outcome.next (State.plain_performs h)
      by_cases ho : s.outstanding t.gtid = true
      · rw [if_pos ho] at htend ⊢
        exact ⟨_, htend, State.park_sameBut hst, State.park_task hst⟩
      · rw [if_neg ho] at htend ⊢
        intro hm
        by_cases hu : s.unperformed t.gtid = true
        · obtain ⟨h1, h2, h3⟩ := State.retire_held (s := s) s.cur 0 hu
          refine ⟨_, htend, h1, ?_⟩
          rw [if_pos hu]
          exact ⟨h2, h3⟩
        · obtain ⟨h1, h2⟩ := State.retire_counts hm s.cur 0 (Bool.eq_false_iff.2 hu)
          refine ⟨_, htend, h1, ?_⟩
          rw [if_neg hu]
          exact h2
    · have hyield : exec (.yield f) s = .next (if s.canYield then s.yieldTask { t with pc := t.pc + BitVec.ofNat 64 f.bytes } else (s.complete f.bytes).hintYield) :=
        congrArg Host.Outcome.next (State.plain_performs h)
      have hcan : s.canYield = true ↔ t.gang = none ∧ s.dequeRoom t.part (coreOf s.cur) = true := by
        rw [State.canYield, Bool.and_eq_true, Option.isNone_iff_eq_none]
      by_cases hc : t.gang = none ∧ s.dequeRoom t.part (coreOf s.cur) = true
      · rw [if_pos hc]
        rw [if_pos (hcan.2 hc)] at hyield
        obtain ⟨h1, h2⟩ := State.yieldTask_moves (s := s) (t := { t with pc := t.pc + BitVec.ofNat 64 f.bytes }) hst
        exact ⟨_, _, hyield, h1, h2, rfl⟩
      · rw [if_neg hc]
        rw [if_neg fun h => hc (hcan.1 h)] at hyield
        exact hhint hyield

end Sys2Proof.Machine
end

section
/-! PROOFS. The gang's barrier (02:R33, 13:R236) and messages within a gang (13:R231 to R233, 03:R53). -/

namespace Sys2Proof.Machine

theorem mem_insNat {l : List Nat} {a b : Nat} : b ∈ insNat l a ↔ b = a ∨ b ∈ l := by
  have h := contains_insNat l a b
  rw [← List.contains_iff_mem, h, Bool.or_eq_true, List.contains_iff_mem, beq_iff_eq, or_comm]

namespace State

variable {s : State} {f : Form}

/-- The task of a member that has arrived (02:R33). -/
def arrivedTask (s : State) : Task := { s.task with atBarrier := true, barriers := s.task.barriers + 1 }

/-- `gbar` in a gang (02:R33). -/
theorem exec_gbar {id : Nat} {g : Gang} (h : s.performs f [] [] = true) (hid : s.task.gang = some id) (hg : mapGet s.cald.gangs id = some g) :
    exec (.gbar f) s = .next (if s.task.atBarrier then
        if s.task.barriers ≤ g.completed then s.completeWith { s.task with atBarrier := false } f.bytes else s.park 6 (.barrier s.task.barriers)
      else
        let u := (s.setTask s.arrivedTask).afterAll s.arrivedTask s.cur (.arrive id s.task.grank) ((s.setTask s.arrivedTask).arriveAt id s.task.grank)
        if s.task.barriers + 1 ≤ ((mapGet u.cald.gangs id).map (·.completed)).getD 0 then
          u.completeWith { s.task with barriers := s.task.barriers + 1, atBarrier := false } f.bytes
        else u.park 6 (.barrier (s.task.barriers + 1))) := by
  refine congrArg Host.Outcome.next ?_
  rw [plain_performs h]
  dsimp only
  split
  · next hn => rw [hid] at hn; cases hn
  · next k hk =>
    rw [hid] at hk
    cases hk
    rw [hg]
    rfl

theorem arriveAt_eq {id rank : Nat} {g : Gang} (hg : mapGet s.cald.gangs id = some g) :
    s.arriveAt id rank = { s with cald := { s.cald with gangs := mapSet s.cald.gangs id ({ g with arrived := insNat g.arrived rank } : Gang).settle } } := by
  rw [arriveAt, hg]

/-- The last arrival completes the barrier; any other one is noted (02:R33). -/
theorem settle_arrived {g : Gang} {rank : Nat} :
    ({ g with arrived := insNat g.arrived rank } : Gang).settle = if ∀ r ∈ g.live, r = rank ∨ r ∈ g.arrived then { g with arrived := [], completed := g.completed + 1 }
      else { g with arrived := insNat g.arrived rank } := by
  have h : (g.live.all (insNat g.arrived rank).contains = true) ↔ ∀ r ∈ g.live, r = rank ∨ r ∈ g.arrived := by
    simp only [List.all_eq_true, List.contains_iff_mem, mem_insNat]
  unfold Gang.settle
  dsimp only
  split
  · next hc => rw [if_pos (h.1 hc)]
  · next hc => rw [if_neg (fun hn => hc (h.2 hn))]

theorem park_arrived {u : State} {w : Wake} (hst : s.task.stepping = false) (hu : u.task = s.arrivedTask) :
    (u.park 6 w).task = { s.arrivedTask with run := .parked 6 w } := by
  rw [park_task (by rw [hu]; exact hst), hu]

theorem park_cald {row : Nat} {w : Wake} (h : s.task.stepping = false) : (s.park row w).cald = s.cald := by
  rw [park_eq h]; rfl

theorem exists_completed {u : State} {t : Task} {len : Nat} {o : Out} (ho : o = .next (u.completeWith t len)) (hst : t.stepping = false) (hu : u.task = s.arrivedTask)
    (hpc : t.pc = s.task.pc) : ∃ x, o = .next x ∧ x.task = s.goneOn t len ∧ x.cald = u.cald := by
  rw [completeWith_after hst (by rw [hu]; exact hpc)] at ho
  refine ⟨_, ho, ?_, rfl⟩
  rw [after, task_setTask, hu]
  rfl

end State

/-- Settles O30: a member arrives at the barrier of its gang, and the last arrival completes it. -/
theorem gangBarrier : Obligations.GangBarrier := by
  intro s f h t
  have hst := State.performs_stepping h
  refine ⟨fun hg => ?_, fun id g hid hg => ?_⟩
  · refine congrArg Host.Outcome.next ?_
    rw [State.plain_performs h]
    dsimp only
    split
    · rfl
    · next k hk => rw [show s.task.gang = none from hg] at hk; cases hk
  have hx := State.exec_gbar h hid hg
  refine ⟨fun ha => ?_, fun ha hu hc => ?_, fun ha hu hc => ?_⟩
  · rw [ha, if_pos rfl] at hx
    by_cases hb : t.barriers ≤ g.completed
    · rw [if_pos hb] at hx ⊢
      exact hx.trans (congrArg Host.Outcome.next (State.completeWith_after (t := { s.task with atBarrier := false }) hst rfl))
    · rw [if_neg hb] at hx ⊢
      exact ⟨_, hx, State.park_sameBut hst, State.park_task hst⟩
  · rw [ha, if_neg Bool.false_ne_true] at hx
    dsimp only at hx
    rw [State.afterAll, show (s.setTask s.arrivedTask).unperformed s.arrivedTask.gtid = true from hu, if_pos rfl] at hx
    rw [show (s.setTask s.arrivedTask).cald = s.cald from rfl, hg, Option.map_some, Option.getD_some, if_neg (show ¬ s.task.barriers + 1 ≤ g.completed by rw [hc]; exact Nat.not_succ_le_self _)] at hx
    refine ⟨_, ⟨s.tagCtr, t.gtid, s.cur, t.part, .arrive id t.grank, 0, 0⟩, hx,
      State.sent_of_setTask (State.park_sameBut ((congrArg Task.stepping (State.task_setTask s s.arrivedTask)).trans hst)), rfl, rfl,
      State.park_arrived hst (State.task_setTask s s.arrivedTask)⟩
  · rw [ha, if_neg Bool.false_ne_true] at hx
    dsimp only at hx
    rw [State.afterAll, show (s.setTask s.arrivedTask).unperformed s.arrivedTask.gtid = false from hu, if_neg Bool.false_ne_true,
      State.arriveAt_eq (s := s.setTask s.arrivedTask) (g := g) hg, State.settle_arrived] at hx
    dsimp only at hx
    rw [mapGet_mapSet_self, Option.map_some, Option.getD_some] at hx
    by_cases hl : ∀ r ∈ g.live, r = s.task.grank ∨ r ∈ g.arrived
    · rw [if_pos hl] at hx
      rw [if_pos hl]
      have hn : s.task.barriers + 1 ≤ g.completed + 1 := by rw [hc]
      rw [if_pos hn] at hx
      obtain ⟨u, hu, ht, hgs⟩ := State.exists_completed hx hst (State.task_setTask s s.arrivedTask) rfl
      refine ⟨u, hu, ht, ?_⟩
      rw [hgs]
      dsimp only
      rw [mapGet_mapSet_self, Option.map_some, hc]
    · rw [if_neg hl] at hx
      rw [if_neg hl]
      rw [if_neg (show ¬ s.task.barriers + 1 ≤ g.completed by rw [hc]; exact Nat.not_succ_le_self _)] at hx
      refine ⟨_, hx, State.park_arrived hst (State.task_setTask s s.arrivedTask), { g with arrived := insNat g.arrived s.task.grank }, ?_, rfl, fun r => mem_insNat⟩
      rw [State.park_cald (by exact (congrArg Task.stepping (State.task_setTask s s.arrivedTask)).trans hst)]
      exact mapGet_mapSet_self _ _ _

/-! ### Messages -/

namespace State

variable {s : State}

theorem takeTokens_eq (key : Nat) (t : Task) : ∃ p, s.takeTokens key t = { s with parts := p } := by
  have h : ∀ (l : List Nat) (u : State), ∃ p, (l.foldl (fun s c => s.poolDraw t.part (poolKey (coreOf key) c) (t.tokens.toList[c]?.getD 0)) u) = { u with parts := p } := by
    intro l
    induction l with
    | nil => exact fun u => ⟨u.parts, rfl⟩
    | cons c l ih =>
      intro u
      obtain ⟨p, hp⟩ := ih (u.poolDraw t.part (poolKey (coreOf key) c) (t.tokens.toList[c]?.getD 0))
      obtain ⟨q, hq⟩ : ∃ q, u.poolDraw t.part (poolKey (coreOf key) c) (t.tokens.toList[c]?.getD 0) = { u with parts := q } := modPart_eq u t.part _
      exact ⟨p, by rw [List.foldl_cons, hp, hq]⟩
  exact h _ _

/-- Tokens owed to a task are taken where the pools have them; nothing else of it changes (05:R98). -/
theorem payTokens_eq (key : Nat) : ∃ p x, s.payTokens key = { s with parts := p, slots := x } ∧ (∀ j, j ≠ key → mapGet x j = mapGet s.slots j)
    ∧ ∃ o, (s.payTokens key).taskAt key = { s.taskAt key with owed := o } := by
  unfold payTokens
  dsimp only
  split
  · obtain ⟨p, hp⟩ := takeTokens_eq (s := s) key (s.taskAt key)
    refine ⟨p, mapSet s.slots key { s.taskAt key with owed := false }, by rw [hp]; rfl, fun j hj => mapGet_mapSet_ne _ hj _, false, taskAt_putTask_self _ key _⟩
  · exact ⟨s.parts, s.slots, rfl, fun _ _ => rfl, (s.taskAt key).owed, rfl⟩

/-- A task that is woken, or not, keeps its registers; one whose wake condition is a register's filling is let back when the register is full (02:R36). -/
theorem wakeUp_frame (key : Nat) : (s.wakeUp key).net = s.net ∧ (∀ j, j ≠ key → (s.wakeUp key).taskAt j = s.taskAt j)
    ∧ ((s.wakeUp key).taskAt key).m = (s.taskAt key).m ∧ ((s.wakeUp key).taskAt key).mFull = (s.taskAt key).mFull
    ∧ ∀ row r, (s.taskAt key).run = .parked row (.full r) → (s.taskAt key).stopped = false → (s.taskAt key).full r = true →
      ((s.wakeUp key).taskAt key).run = .resident := by
  obtain ⟨p, x, h1, h2, o, h3⟩ := payTokens_eq (s := s) key
  have hn : (s.payTokens key).net = s.net := by rw [h1]
  have ho : ∀ j, j ≠ key → (s.payTokens key).taskAt j = s.taskAt j := fun j hj => by rw [h1]; exact congrArg (·.getD {}) (h2 j hj)
  unfold wakeUp
  dsimp only
  generalize s.payTokens key = u at *
  have hrun : (u.taskAt key).run = (s.taskAt key).run := by rw [h3]
  split
  · next hr => exact ⟨hn, ho, by rw [h3], by rw [h3], fun row r hq => absurd (hr.symm.trans (hrun.trans hq)) (by simp)⟩
  · next row w hr =>
    split
    · refine ⟨hn, fun j hj => (taskAt_putTask_ne _ hj _).trans (ho j hj), ?_, ?_, fun _ _ _ _ _ => ?_⟩
      all_goals rw [taskAt_recordSched, taskAt_putTask_self]
      · exact (congrArg Task.m h3 :)
      · exact (congrArg Task.mFull h3 :)
      · rfl
    · next hc =>
      refine ⟨hn, ho, by rw [h3], by rw [h3], fun row r hq hs hf => absurd ?_ hc⟩
      have hw := hr.symm.trans (hrun.trans hq)
      cases hw
      rw [h3, Bool.and_eq_true]
      exact ⟨by rw [hs]; rfl, hf⟩

/-- A message's arrival fills its register, and wakes the task that waits for it (13:R233). -/
theorem msgFill_frame (k : Nat) (m : Msg) (hs : (s.taskAt k).stopped = false) : (s.msgFill k m).net = s.net ∧ (∀ j, j ≠ k → (s.msgFill k m).taskAt j = s.taskAt j)
    ∧ ((s.msgFill k m).taskAt k).getM m.mreg = m.data ∧ ((s.msgFill k m).taskAt k).full (.m m.mreg) = true
    ∧ ((s.taskAt k).run = .parked 3 (.full (.m m.mreg)) → ((s.msgFill k m).taskAt k).run = .resident) := by
  let t := (((s.taskAt k).putM m.mreg m.data).setFull (.m m.mreg) true).filled s.cycle (.m m.mreg)
  have hget : t.getM m.mreg = m.data := by simp [t, Task.getM, Task.putM, Task.setFull, Task.filled]
  have hfull : t.full (.m m.mreg) = true := by
    have hr := m.mreg.isLt
    simp [t, Task.full, Task.setFull, Task.filled, BitVec.getLsbD_or]
    exact .inr ((by decide : ∀ n < 8, (BitVec.ofNat 8 (1 <<< n)).getLsbD n = true) m.mreg.toNat hr)
  obtain ⟨h1, h2, h3, h4, h5⟩ := wakeUp_frame (s := (s.putTask k t).record k 0x6 1 (s.taskAt k).gtid (msgPay m.srcRank m.ch m.mreg)) k
  have ht : ((s.putTask k t).record k 0x6 1 (s.taskAt k).gtid (msgPay m.srcRank m.ch m.mreg)).taskAt k = t := taskAt_putTask_self (s := s) k t
  rw [ht] at h3 h4 h5
  refine ⟨h1, fun j hj => (h2 j hj).trans (taskAt_putTask_ne _ hj _), ?_, ?_, fun hr => h5 3 (.m m.mreg) hr hs hfull⟩
  · exact (congrArg (fun x : Vector VWord 8 => x[m.mreg.toNat]) h3).trans hget
  · exact (congrArg (fun x : BitVec 8 => x.getLsbD m.mreg.toNat) h4).trans hfull

/-- The message that `send` sends, but for its number (13:R231). -/
def messageOf (s : State) (a : Reg) (w : Nat) : Msg :=
  let dst := ((s.gangOf? s.task).bind fun g => g.members[field w 0 14]?).getD 0
  { tag := 0, src := s.task.gtid, srcCore := coreOf s.cur, srcRank := s.task.grank, gang := s.task.gang.getD 0, dst := dst
    dstKey := (s.keyOf? dst).getD 0, dstRank := field w 0 14, ch := field w 23 1, mreg := BitVec.ofNat 3 (field w 20 3), data := s.task.getV a }

/-- `send` to a rank of the gang, or the trap of one that is not of it (13:R231). -/
theorem exec_send {f : Form} {a b : Reg} {ea eb : Bool} (h : s.performs f [] [.v a, .s b] = true) :
    exec (.send f a ea b eb) s = .next (
      let w := (s.task.getS b).toNat
      if field w 14 6 ≠ 0 ∨ field w 24 40 ≠ 0 ∨ s.task.gang.isNone ∨ s.task.gsize ≤ field w 0 14 then s.trapC cMSG_TARGET
      else if !s.sendRoom (coreOf s.cur) (field w 23 1) then s.park 10 (.messageShare (field w 23 1))
      else if s.releaseWaits s.task.gtid then (s.hold s.task (.send (s.messageOf a w))).complete f.bytes
      else (s.netSend s.cur (s.messageOf a w)).complete f.bytes) :=
  congrArg Host.Outcome.next (plain_performs h)

theorem netSend_sent {m : Msg} {len : Nat} (h : s.task.stepping = false) :
    s.sent ((s.netSend s.cur m).complete len) { s.net with msgs := s.net.msgs ++ [{ m with tag := s.tagCtr }] }
      ∧ ((s.netSend s.cur m).complete len).task = s.goneOn s.task len := by
  rw [complete_of_task (s := s) (s.netSend s.cur m) h rfl]
  exact ⟨sameBut_slots (x := ((s.netSend s.cur m).after s.task len).slots) rfl fun _ hk => mapGet_mapSet_ne _ hk _, task_setTask _ _⟩

end State

/-- Settles O31: messages within a gang. -/
theorem gangMessages : Obligations.GangMessages := by
  refine ⟨fun s f a b ea eb h => ?_, fun s f d a ea => ?_, fun s m l k hm hk hl hmu => ?_⟩
  · have hst := State.performs_stepping h
    have hx := State.exec_send (a := a) (ea := ea) (eb := eb) h
    intro t w
    have h24 : field w.toNat 24 40 = w.toNat / 2 ^ 24 := Nat.mod_eq_of_lt (by have := w.isLt; omega)
    have h0 : field w.toNat 0 14 = w.toNat % 2 ^ 14 := by rw [field, Nat.pow_zero, Nat.div_one]
    dsimp only at hx
    split
    · next hc => exact hx.trans (congrArg _ (if_pos (by rwa [h24, h0, Option.isNone_iff_eq_none])))
    · next hc =>
      intro g dst hg hd hr hw
      rw [if_neg (by rwa [h24, h0, Option.isNone_iff_eq_none]), show s.sendRoom (coreOf s.cur) (field (s.task.getS b).toNat 23 1) = true from hr,
        show s.releaseWaits s.task.gtid = false from hw, if_neg (by simp), if_neg Bool.false_ne_true] at hx
      have hdst : ((s.gangOf? s.task).bind fun g => g.members[field w.toNat 0 14]?).getD 0 = dst := by
        rw [show s.gangOf? s.task = some g from hg, h0, Option.bind_some, hd, Option.getD_some]
      obtain ⟨h1, h2⟩ := State.netSend_sent (m := s.messageOf a (s.task.getS b).toNat) (len := f.bytes) hst
      refine ⟨_, _, hx, h1, h2, rfl, rfl, rfl, hdst, h0, rfl, ?_, rfl⟩
      show BitVec.ofNat 3 (field w.toNat 20 3) = _
      exact BitVec.eq_of_toNat_eq (by rw [BitVec.toNat_ofNat, BitVec.toNat_ofNat, field, Nat.mod_mod])
  · intro t waits
    refine ⟨fun h => ?_, fun h => ?_, fun he hf h => ?_⟩
    · have hst := State.performs_stepping h
      have hr : exec (.recv f d a ea) s = .next ((s.after ((t.writeV s.cycle d (t.getM a) 1).setFull (.m a) false) f.bytes).drainInbox (coreOf s.cur)
          (s.inboxOf (coreOf s.cur)).length) := by
        refine congrArg Host.Outcome.next ?_
        rw [State.recvOp, State.plain_performs h]
        exact congrArg (fun u : State => u.drainInbox (coreOf s.cur) (s.inboxOf (coreOf s.cur)).length)
          (State.completeWith_after (t := (t.writeV s.cycle d (t.getM a) 1).setFull (.m a) false) hst rfl)
      refine ⟨⟨hr, fun he => ?_⟩, ?_⟩
      · rw [hr, he]
        rfl
      · refine congrArg Host.Outcome.next ?_
        rw [State.recvOp, State.plain_performs h]
        exact State.completeWith_after (t := t.writeV s.cycle d (t.getM a) 1) hst rfl
    · refine congrArg Host.Outcome.next ?_
      rw [State.mwaitOp, State.plain_performs h]
      exact State.complete_after (State.performs_stepping h)
    · have hst := State.performs_stepping h
      obtain ⟨hp, hg, hread⟩ := State.performsG_iff.1 h
      have ht : gateTrap s.cycle s.task [(.m a, ea)] = none := by
        simp only [State.gateTrap_cons, he, Task.err, Bool.and_false, Bool.false_and, Bool.false_eq_true, if_false]
        rfl
      have hpark (dsts : List RegId) (body : Task → State) : s.plain f dsts [(.m a, ea)] body = s.park 3 (.full (.m a)) :=
        State.plain_parks (r := .m a) hp hg ht (List.find?_cons_of_pos (by simpa using hf))
      exact ⟨⟨_, congrArg Host.Outcome.next (hpark [.v d] _), State.park_sameBut hst, State.park_task hst⟩,
        ⟨_, congrArg Host.Outcome.next (hpark [.v d] _), State.park_sameBut hst, State.park_task hst⟩,
        ⟨_, congrArg Host.Outcome.next (hpark [] _), State.park_sameBut hst, State.park_task hst⟩⟩
  · intro t hs hf hb
    have hfind : s.net.msgs.find? (·.tag == m.tag) = some m := by rw [hm]; simp
    have hfirst : (s.net.msgs.find? fun x => x.srcCore == m.srcCore && coreOf x.dstKey == coreOf m.dstKey && x.ch == m.ch && (x.dst == m.dst || !s.msgHeld x)) = some m := by
      rw [hm]; simp
    have hheld : s.msgHeld m = false := by rw [State.msgHeld, hk]; rfl
    have hleft : s.net.msgs.filter (·.tag != m.tag) = l := by
      rw [hm, List.filter_cons_of_neg (by simp), List.filter_eq_self.2 fun x hx => by simpa using hl x hx]
    have hbefore : s.inboxBefore (coreOf k) m.tag m.srcCore m.ch = false := by
      rw [State.inboxBefore, List.any_eq_false]
      intro x hx hc
      simp only [Bool.and_eq_true, decide_eq_true_eq, beq_iff_eq, and_assoc] at hc
      exact hb x hx hc
    have hx : exec (.messageArrival m.tag) s = .next (State.msgFill { s with net := { s.net with msgs := l } } k m) := by
      refine congrArg Host.Outcome.next ?_
      rw [State.msgArrive, hfind]
      dsimp only
      rw [hfirst, hheld, hleft, hmu, hk]
      dsimp only
      rw [show (s.taskAt k).full (.m m.mreg) = false from hf, hbefore]
      rw [if_neg (by simp), if_neg Bool.false_ne_true]
      rfl
    obtain ⟨h1, h2, h3, h4, h5⟩ := State.msgFill_frame (s := { s with net := { s.net with msgs := l } }) k m hs
    refine ⟨_, hx, h1, h3, h4, ?_, h2⟩
    split
    · next hr => exact h5 hr
    · rfl

end Sys2Proof.Machine
end

section
/-! PROOFS. Semaphores and tokens (14:R242, R243, R252, 05:R97, R98). -/

namespace Sys2Proof.Machine

namespace State

variable {s : State}

/-! ### Semaphores -/

/-- A change of one semaphore changes no other (14:R242). -/
theorem semCount_modVTile {p vt n c : Nat} {f : VTile → VTile} (hn : n < 8) (hf : (f (s.vtile p vt)).sems = (s.vtile p vt).sems.setIfInBounds n c) :
    (s.modVTile p vt f).semCount p vt n = c
      ∧ ∀ p' vt' k, (p' * 1024 + vt' ≠ p * 1024 + vt ∨ k ≠ n) → (s.modVTile p vt f).semCount p' vt' k = s.semCount p' vt' k := by
  have hself {p' vt' : Nat} (h : p' * 1024 + vt' = p * 1024 + vt) : (s.modVTile p vt f).vtile p' vt' = f (s.vtile p vt) := by
    rw [vtile, modVTile, mapMod, h, mapGet_mapSet_self]
    rfl
  have hl : n < (s.vtile p vt).sems.toList.length := by simpa using hn
  refine ⟨?_, fun p' vt' k h => ?_⟩
  · rw [semCount, hself rfl, hf, Vector.toList_setIfInBounds, List.getElem?_set_self hl, Option.getD_some]
  · by_cases he : p' * 1024 + vt' = p * 1024 + vt
    · rw [semCount, hself he, hf, Vector.toList_setIfInBounds, List.getElem?_set_ne (Ne.symm (h.resolve_left (fun hc => hc he))), semCount, vtile, vtile, he]
    · rw [semCount, vtile, modVTile, mapMod, mapGet_mapSet_ne _ he]
      rfl

theorem semCount_semJoin (p vt n : Nat) (w : SemWaiter) (k : Nat) : (s.semJoin p vt n w).semCount p vt k = s.semCount p vt k := by
  rw [semCount, vtile, semJoin, modVTile, mapMod, mapGet_mapSet_self]
  dsimp only [Option.getD_some]
  split <;> rfl

/-! ### Token pools -/

variable {part k : Nat} {p : Partition} {q : Pool}

theorem pool_of (hp : s.partOf? part = some p) (hq : mapGet p.pools k = some q) : s.pool part k = q := by
  rw [pool, hp]
  exact (congrArg (fun o : Option Pool => o.getD { created := 0, capacity := 0 }) hq :)

/-- A change of a pool changes that pool (05:R97). -/
theorem poolPut_pool (hp : s.partOf? part = some p) (hq : mapGet p.pools k = some q) (f : Pool → Pool) :
    ∃ p', (s.poolPut part k f).partOf? part = some p' ∧ mapGet p'.pools k = some (f q) := by
  refine ⟨{ p with pools := mapSet p.pools k (f q) }, ?_, mapGet_mapSet_self _ _ _⟩
  rw [poolPut, modPart, show mapGet s.parts part = some p from hp]
  dsimp only
  rw [hq]
  exact mapGet_mapSet_self _ _ _

theorem firstInPool_iff {t : Task} (h : s.pool t.part k = q) : s.firstInPool t k = true ↔ q.waiters = [] ∨ q.waiters.head? = some (.task t.gtid) := by
  rw [firstInPool, h]
  cases q.waiters with
  | nil => simp
  | cons g l => simp

theorem parts_keepTokens (g : Word) (cls n : Nat) : (s.keepTokens g cls n).parts = s.parts := by
  unfold keepTokens
  dsimp only
  split <;> rfl

/-- An instruction that changes tokens alone goes on (05:R98). -/
theorem completeWith_drawn {u : State} {t : Task} {len : Nat} (ht : t.stepping = false) (hp : t.pc = s.task.pc) (hu : u.task = s.task) :
    (u.completeWith t len).task = s.goneOn t len ∧ (u.completeWith t len).parts = u.parts ∧ (u.completeWith t len).mem = u.mem := by
  rw [completeWith_after ht (by rw [hu, hp])]
  refine ⟨?_, rfl, rfl⟩
  rw [after, task_setTask, hu]
  rfl

theorem poolPut_task (k : Nat) (f : Pool → Pool) : (s.poolPut part k f).task = s.task := by
  obtain ⟨x, hx⟩ : ∃ x, s.poolPut part k f = { s with parts := x } := modPart_eq s part _
  rw [hx]
  rfl

theorem poolPut_mem (k : Nat) (f : Pool → Pool) : (s.poolPut part k f).mem = s.mem := modPart_mem _ _ _

theorem park_parts {row : Nat} {w : Wake} (h : s.task.stepping = false) : (s.park row w).parts = s.parts := by
  rw [park_eq h]; rfl

theorem pool_of_parts {u : State} (h : s.parts = u.parts) (hp : u.partOf? part = some p) (hq : mapGet p.pools k = some q) : s.pool part k = q :=
  pool_of (p := p) (by rw [partOf?, h]; exact hp) hq

theorem giveTokens_task (g : Word) (core cls held n : Nat) : (s.giveTokens part g core cls held n).task = s.task := by
  rw [task, taskAt, slots_giveTokens, (quiet_giveTokens part g core cls held n).cur]
  rfl

end State

/-- Settles O32: semaphores count and wait in turn, tokens are drawn and given back. -/
theorem semaphoresAndTokens : Obligations.SemaphoresAndTokens := by
  refine ⟨fun s f n h => ?_, fun s f cls n p q h => ?_⟩
  · have hst := State.performs_stepping h
    intro t v counted
    have hcount {c : Nat} {o : Out} {g : VTile → VTile} (ho : o = .next ((s.modVTile t.part s.here g).complete f.bytes))
        (hg : (g (s.vtile t.part s.here)).sems = (s.vtile t.part s.here).sems.setIfInBounds n.toNat c) : counted o c := by
      rw [State.complete_of_task (s := s) (s.modVTile t.part s.here g) hst rfl] at ho
      obtain ⟨h1, h2⟩ := State.semCount_modVTile n.isLt hg
      exact ⟨_, ho, rfl, h1, h2⟩
    refine ⟨?_, ?_⟩
    · have hx : exec (.semSig f n) s = .next (if 65535 ≤ v then s.trapC cSEM_OVERFLOW
          else if s.releaseWaits t.gtid then (s.hold t (.signal s.here n.toNat)).complete f.bytes
          else ((s.semSignal t.part s.here n.toNat).1).complete f.bytes) := congrArg Host.Outcome.next (State.plain_performs h)
      split
      · next hv => exact hx.trans (congrArg _ (if_pos hv))
      · next hv =>
        intro hw
        rw [if_neg hv, hw, if_neg Bool.false_ne_true, State.semSignal, if_neg hv] at hx
        exact hcount hx rfl
    · have hx : exec (.semWait f n) s = .next (if 0 < v ∧ s.semTurn t.part s.here n.toNat t.gtid then (s.semTake t.part s.here n.toNat (.task t.gtid)).complete f.bytes
          else (s.semJoin t.part s.here n.toNat (.task t.gtid)).park 8 (.sem n.toNat)) := congrArg Host.Outcome.next (State.plain_performs h)
      split
      · next hv =>
        rw [if_pos hv] at hx
        exact hcount hx rfl
      · next hv =>
        rw [if_neg hv] at hx
        have hj := State.park_sameBut (s := s.semJoin t.part s.here n.toNat (.task t.gtid)) (row := 8) (w := .sem n.toNat) hst
        refine ⟨_, hx, State.park_task hst, State.park_mem hst, fun k => ?_⟩
        rw [State.semCount, State.vtile, hj.1]
        exact State.semCount_semJoin _ _ _ _ _
  · have hst := State.performs_stepping h
    intro t k held hp hq drawn
    have hpool := State.pool_of hp hq
    refine ⟨?_, ?_⟩
    · have hx : exec (.pwrAcq f cls n) s = .next (if (s.pool t.part k).created < held + n.toNat then s.trapC cPOWER_EXCESS
          else if !(decide (n.toNat ≤ s.poolFree t.part k) && s.firstInPool t k) then (s.poolWait t k).park 11 (.tokens cls.toNat n.toNat)
          else ((s.poolServed t k).poolDraw t.part k n.toNat).completeWith { t with tokens := t.tokens.setIfInBounds cls.toNat (held + n.toNat) } f.bytes) :=
        congrArg Host.Outcome.next (State.plain_performs h)
      have hfirst : ((decide (n.toNat ≤ s.poolFree t.part k) && s.firstInPool t k) = true)
          ↔ n.toNat ≤ q.capacity - q.inUse ∧ (q.waiters = [] ∨ q.waiters.head? = some (.task t.gtid)) := by
        rw [Bool.and_eq_true, State.firstInPool_iff hpool, decide_eq_true_eq, State.poolFree, hpool]
      rw [hpool] at hx
      split
      · next hc => exact hx.trans (congrArg _ (if_pos hc))
      · next hc =>
        rw [if_neg hc] at hx
        split
        · next hd =>
          rw [hfirst.2 hd, if_neg (by simp)] at hx
          obtain ⟨p1, hp1, hq1⟩ := State.poolPut_pool hp hq fun p => { p with waiters := p.waiters.filter (· != .task t.gtid) }
          obtain ⟨p2, hp2, hq2⟩ := State.poolPut_pool hp1 hq1 fun p => { p with inUse := p.inUse + n.toNat }
          obtain ⟨h1, h2, h3⟩ := State.completeWith_drawn (s := s) (u := (s.poolServed t k).poolDraw t.part k n.toNat)
            (t := { t with tokens := t.tokens.setIfInBounds cls.toNat (held + n.toNat) }) (len := f.bytes) hst rfl
            ((State.poolPut_task _ _).trans (State.poolPut_task _ _))
          have hpu := State.pool_of_parts h2 hp2 hq2
          exact ⟨_, hx, h1, by rw [hpu], by rw [hpu], h3.trans ((State.poolPut_mem _ _).trans (State.poolPut_mem _ _))⟩
        · next hd =>
          rw [Bool.eq_false_iff.2 fun hc => hd (hfirst.1 hc), if_pos (by simp)] at hx
          obtain ⟨p1, hp1, hq1⟩ := State.poolPut_pool hp hq fun p =>
            if p.waiters.contains (.task t.gtid) then p else { p with waiters := p.waiters ++ [.task t.gtid] }
          have hw : (s.poolWait t k).task = s.task := State.poolPut_task _ _
          have hws : (s.poolWait t k).task.stepping = false := by rw [hw]; exact hst
          have hpu := State.pool_of_parts (State.park_parts (row := 11) (w := .tokens cls.toNat n.toNat) hws) hp1 hq1
          refine ⟨_, hx, by rw [State.park_task hws, hw], ?_, ?_⟩
          all_goals rw [hpu]; split
          · next hc => exact List.contains_iff_mem.1 hc
          · exact List.mem_append_right _ (List.mem_singleton.2 rfl)
          · rfl
          · rfl
    · have hx : exec (.pwrRel f cls n) s = .next (if held < n.toNat then s.trapC cPOWER_RELEASE
          else (s.giveTokens t.part t.gtid (coreOf s.cur) cls.toNat held n.toNat).completeWith
            { t with tokens := t.tokens.setIfInBounds cls.toNat (held - n.toNat) } f.bytes) := congrArg Host.Outcome.next (State.plain_performs h)
      split
      · next hc => exact hx.trans (congrArg _ (if_pos hc))
      · next hc =>
        rw [if_neg hc] at hx
        obtain ⟨p1, hp1, hq1⟩ := State.poolPut_pool hp hq fun p => { p with inUse := p.inUse - min n.toNat (held - s.covered t.gtid cls.toNat) }
        obtain ⟨h1, h2, h3⟩ := State.completeWith_drawn (s := s) (u := s.giveTokens t.part t.gtid (coreOf s.cur) cls.toNat held n.toNat)
          (t := { t with tokens := t.tokens.setIfInBounds cls.toNat (held - n.toNat) }) (len := f.bytes) hst rfl (State.giveTokens_task _ _ _ _ _)
        have hpu := State.pool_of_parts (h2.trans (State.parts_keepTokens _ _ _)) hp1 hq1
        exact ⟨_, hx, h1, by rw [hpu], by rw [hpu], h3.trans (State.quiet_giveTokens _ _ _ _ _ _).mem⟩

end Sys2Proof.Machine
end

section
/-! PROOFS. Reads of the step descriptor (14:R254 to R256). -/

namespace Sys2Proof.Machine

/-- Bits that rise with the keys of a map are the keys it has (14:R255). -/
theorem testBit_keysOf {α : Type} {i j : Nat} (hj : j < 64) : ∀ (m : Map α) (lo n : Nat), risingFrom lo m = true → n < 2 ^ (lo - 64 * i) →
    ((m.filter fun e => e.1 / 64 == i).foldl (fun n e => n + 2 ^ (e.1 % 64)) n).testBit j = (n.testBit j || (mapGet m (64 * i + j)).isSome)
  | [], lo, n, _, _ => by simp [mapGet]
  | (k, v) :: r, lo, n, hr, hn => by
    simp only [risingFrom, Bool.and_eq_true, decide_eq_true_eq] at hr
    obtain ⟨hlo, hr⟩ := hr
    by_cases hk : k / 64 = i
    · have hkm : k % 64 = k - 64 * i := by omega
      have hlt : n < 2 ^ (k % 64) := Nat.lt_of_lt_of_le hn (Nat.pow_le_pow_right (by omega) (by omega))
      have hnew : n + 2 ^ (k % 64) < 2 ^ (k + 1 - 64 * i) := by
        rw [show k + 1 - 64 * i = k % 64 + 1 by omega, Nat.pow_succ]
        omega
      rw [List.filter_cons_of_pos (by simpa using hk), List.foldl_cons, testBit_keysOf hj r (k + 1) _ hr hnew, Nat.add_comm, show 2 ^ (k % 64) + n = 2 ^ (k % 64) ||| n by simpa using Nat.two_pow_add_eq_or_of_lt hlt 1,
        Nat.testBit_or, Nat.testBit_two_pow]
      by_cases he : k % 64 = j
      · rw [mapGet, if_pos (by omega)]
        simp [he]
      · rw [mapGet, if_neg (by omega)]
        simp [he]
    · have hnew : n < 2 ^ (k + 1 - 64 * i) := Nat.lt_of_lt_of_le hn (Nat.pow_le_pow_right (by omega) (by omega))
      rw [List.filter_cons_of_neg (by simpa using hk), testBit_keysOf hj r (k + 1) n hr hnew, mapGet, if_neg (by omega)]

/-- Four bits, written by their weights. -/
theorem testBit_fourBits (f : Nat → Bool) : (List.range 4).foldl (fun n j => n + ofBool (f j) * 2 ^ j) 0 < 16
    ∧ ∀ j, j < 4 → ((List.range 4).foldl (fun n j => n + ofBool (f j) * 2 ^ j) 0).testBit j = f j := by
  have h : ∀ a b c d : Bool, 0 + ofBool a * 2 ^ 0 + ofBool b * 2 ^ 1 + ofBool c * 2 ^ 2 + ofBool d * 2 ^ 3 < 16
      ∧ (0 + ofBool a * 2 ^ 0 + ofBool b * 2 ^ 1 + ofBool c * 2 ^ 2 + ofBool d * 2 ^ 3).testBit 0 = a
      ∧ (0 + ofBool a * 2 ^ 0 + ofBool b * 2 ^ 1 + ofBool c * 2 ^ 2 + ofBool d * 2 ^ 3).testBit 1 = b
      ∧ (0 + ofBool a * 2 ^ 0 + ofBool b * 2 ^ 1 + ofBool c * 2 ^ 2 + ofBool d * 2 ^ 3).testBit 2 = c
      ∧ (0 + ofBool a * 2 ^ 0 + ofBool b * 2 ^ 1 + ofBool c * 2 ^ 2 + ofBool d * 2 ^ 3).testBit 3 = d := by decide
  obtain ⟨h0, h1, h2, h3, h4⟩ := h (f 0) (f 1) (f 2) (f 3)
  refine ⟨h0, fun j hj => ?_⟩
  match j, hj with
  | 0, _ => exact h1
  | 1, _ => exact h2
  | 2, _ => exact h3
  | 3, _ => exact h4

namespace State

/-- The index that `stepget` reads: of its register for the selectors that take one (14:R255). -/
def stepgetIndex (t : Task) (sel : BitVec 3) (a : Reg) : Nat := if 2 ≤ sel.toNat ∧ sel.toNat ≤ 4 then (t.getS a).toNat else 0

end State

/-- Settles O33: reads of the step descriptor, field by field. -/
theorem stepReads : Obligations.StepReads := by
  refine ⟨fun s f d a ea sel h => ?_, fun s o h => ?_⟩
  · have hst := State.performs_stepping h
    intro t i
    have hsel : ∀ sel : BitVec 3, (2 ≤ sel.toNat ∧ sel.toNat ≤ 4) ↔ (sel = 2 ∨ sel = 3 ∨ sel = 4) := by decide
    have hp : s.performs f [.s d] (List.map (·.1) (if 2 ≤ sel.toNat ∧ sel.toNat ≤ 4 then [(RegId.s a, ea)] else [])) = true := by
      by_cases hs : sel = 2 ∨ sel = 3 ∨ sel = 4
      · rw [if_pos ((hsel sel).2 hs)]
        rwa [if_pos hs] at h
      · rw [if_neg (fun hc => hs ((hsel sel).1 hc))]
        rwa [if_neg hs] at h
    have hx : exec (.stepget f d sel a ea) s = .next (match s.stepOf s.task with
      | none => s.trap stepUse
      | some x =>
        if (sel.toNat = 2 ∧ 15 < State.stepgetIndex s.task sel a) ∨ 1023 < State.stepgetIndex s.task sel a then s.trap stepIndex
        else s.toWrite [.s d] (s.completeWith (s.task.writeS s.cycle d (BitVec.ofNat 64 (State.descField x sel.toNat (State.stepgetIndex s.task sel a))) 3) f.bytes)) :=
      congrArg Host.Outcome.next (State.plain_performs (State.performs_reads hp))
    split
    · next hn => rw [hn] at hx; exact hx
    · next x hq =>
      rw [hq] at hx
      dsimp only at hx
      have hin : sel = 2 ∨ sel = 3 ∨ sel = 4 → State.stepgetIndex s.task sel a = i := fun hs => if_pos ((hsel sel).2 hs)
      have hout : ¬ (sel = 2 ∨ sel = 3 ∨ sel = 4) → State.stepgetIndex s.task sel a = 0 := fun hs => if_neg fun hc => hs ((hsel sel).1 hc)
      have htrap : ((sel.toNat = 2 ∧ 15 < State.stepgetIndex s.task sel a) ∨ 1023 < State.stepgetIndex s.task sel a)
          ↔ (sel = 2 ∧ 15 < i) ∨ ((sel = 3 ∨ sel = 4) ∧ 1023 < i) := by
        have h2 : sel.toNat = 2 ↔ sel = 2 := (by decide : ∀ x : BitVec 3, x.toNat = 2 ↔ x = 2) sel
        by_cases hs : sel = 2 ∨ sel = 3 ∨ sel = 4
        · rw [hin hs, h2]
          rcases hs with rfl | rfl | rfl
          · simp
            omega
          · simp
          · simp
        · rw [hout hs]
          refine iff_of_false (fun hc => by rcases hc with ⟨-, hc⟩ | hc <;> omega) fun hc => ?_
          rcases hc with ⟨h, -⟩ | ⟨h, -⟩
          · exact hs (.inl h)
          · exact hs (.inr h)
      split
      · next hc => exact hx.trans (congrArg _ (if_pos (htrap.2 hc)))
      · next hc =>
        rw [if_neg (fun hn => hc (htrap.1 hn)), State.toWrite_full (State.performsG_iff.1 hp).2.2,
          State.completeWith_after (by rw [Task.writeS_stepping]; exact hst) (Task.writeS_pc ..)] at hx
        refine ⟨_, hx, ?_, ?_, ?_, ?_, ?_, ?_, ?_, ?_⟩
        · rintro rfl; rfl
        · rintro rfl; rfl
        · rintro rfl hr j hj
          rw [hin (by decide)]
          exact (testBit_keysOf hj x.desc 0 0 hr (by simp)).trans (by simp)
        · rintro rfl
          rw [hin (by decide), show State.descField x (3 : BitVec 3).toNat i = ((mapGet x.desc i).map (·.len)).getD 0 from rfl]
          cases mapGet x.desc i <;> rfl
        · rintro rfl
          rw [hin (by decide), show State.descField x (4 : BitVec 3).toNat i = if (mapGet x.desc i).isSome then x.listAt i else 0 from rfl]
          cases mapGet x.desc i <;> rfl
        · rintro rfl; rfl
        · rintro rfl; rfl
        · rintro rfl; rfl
  · have hst := State.performs_stepping h
    intro b
    split
    · next hn =>
      refine congrArg Host.Outcome.next ?_
      rw [State.stoptestOp, State.plain_performs (State.performs_reads h), hn]
      rfl
    · next x hx =>
      have he : exec (.stoptest o) s = .next (s.after (s.task.writeS s.cycle o.d (BitVec.ofNat 64 (State.stopBits x (s.task.getV o.a) b)) 3) o.f.bytes) := by
        refine congrArg Host.Outcome.next ?_
        rw [State.stoptestOp, State.plain_performs (State.performs_reads h), hx]
        dsimp only
        rw [State.toWrite_full (State.performsG_iff.1 h).2.2]
        exact State.completeWith_after (by rw [Task.writeS_stepping]; exact hst) (Task.writeS_pc ..)
      refine ⟨_, he, ?_, fun j hj => ?_⟩
      · exact (testBit_fourBits _).1
      · rw [State.stopBits, (testBit_fourBits _).2 j hj]
        cases hq : mapGet x.desc (b + j) with
        | none => simp
        | some q => simp

end Sys2Proof.Machine
end

section
/-! PROOFS. Instructions that ask Caldera (14:R254, R257, R259, R261, 18:R282, R289, R292). -/

namespace Sys2Proof.Machine

theorem mapGet_map {α β : Type} (f : α → β) (k : Nat) : ∀ m : Map α, mapGet (m.map fun e => (e.1, f e.2)) k = (mapGet m k).map f
  | [] => rfl
  | (x, a) :: r => by
    rw [List.map_cons, mapGet, mapGet, mapGet_map f k r]
    split <;> rfl

theorem getLsbD_one_shiftLeft : ∀ n < 32, (BitVec.ofNat 32 (1 <<< n)).getLsbD n = true := by decide

/-- A register that is filled is full (03:R49). -/
theorem Task.full_setFull_s (t : Task) (r : Reg) : (t.setFull (.s r) true).full (.s r) = true := by
  by_cases h : r = 0
  · simp [h, Task.full, Task.setFull]
  · have hr := r.isLt
    simp only [Task.full, Task.setFull, if_neg h, if_true, BitVec.getLsbD_or]
    have hb : ((1 <<< r.toNat : Nat) : BitVec 32).getLsbD r.toNat = true := getLsbD_one_shiftLeft r.toNat hr
    rw [hb, Bool.or_true, Bool.or_true]

namespace State

variable {s : State} {f : Form}

/-- What an instruction that asks leaves: the question in Caldera's queue, its task parked at row 12 (14:R254). -/
theorem ask_frame {v : State} {d : Reg} {len : Nat} {q : Ask} {r : Option Word} (hst : v.task.stepping = false) :
    (v.ask d len q r).task = { v.task with run := .parked 12 .event }
      ∧ State.sameBut { v with cald := { v.cald with asked := v.cald.asked ++ [⟨v.cur, v.task.gtid, v.task.part, d, len, q, r, none⟩] } } (v.ask d len q r) :=
  ⟨park_task (s := { v with cald := { v.cald with asked := v.cald.asked ++ [⟨v.cur, v.task.gtid, v.task.part, d, len, q, r, none⟩] } }) hst,
    park_sameBut (s := { v with cald := { v.cald with asked := v.cald.asked ++ [⟨v.cur, v.task.gtid, v.task.part, d, len, q, r, none⟩] } }) hst⟩

theorem imageSeg_ok {g : BitVec 3} {n va : Nat} {need : Need} {x : Segment} (h : s.check g 0 n need [4] 1 [] = .ok (x, va)) : s.imageSeg g n need = .ok va := by
  rw [imageSeg, h]

/-- A save or a restore asks with the image's address (18:R282). -/
theorem ctxOp_asks {d : Reg} {srcs : List (RegId × Bool)} {g : BitVec 3} {n va : Nat} {need : Need} {q : Task → Nat → Ask} {x : Segment}
    (hp : s.task.priv ≠ .task) (h : s.performs f [.s d] (srcs.map (·.1)) = true) (hc : s.check g 0 n need [4] 1 [] = .ok (x, va)) :
    s.ctxOp f d srcs g n need q = s.ask d f.bytes (q s.task va) none := by
  rw [ctxOp, privileged_above hp, plain_performs (performs_reads h), imageSeg_ok hc]
  exact toWrite_full (performsG_iff.1 h).2.2

/-! ### `halt` (18:R292) -/

theorem exec_halt {d a : Reg} {ea : Bool} {op : BitVec 3} (hp : s.task.priv ≠ .task) (hop : op.toNat < 5) (h : s.performs f [.s d] [.s a] = true) :
    exec (.halt f d a ea op) s = .next ((s.haltStart s.task (s.task.getS a) op.toNat).2.ask d f.bytes (.halt (s.task.getS a) op.toNat)
      ((s.haltStart s.task (s.task.getS a) op.toNat).1.map (BitVec.ofNat 64))) := by
  refine congrArg Host.Outcome.next ?_
  rw [privileged_above hp, if_neg (by omega), plain_performs h]

/-- The task that a stop or a step names (18:R292). -/
theorem haltStart_eq {g : Word} {op : Nat} (h : op < 3) : s.haltStart s.task g op = if g = s.task.gtid then (some 4, s) else match s.running? s.task.part g with
    | none => (some 1, s)
    | some x => if op = 0 then if x.stopped then (some 3, s) else (none, s.sendStop g cHALT_REQ)
      else if !x.stopped then (some 2, s) else (some 0, s.goTask g (op == 2)) := by
  rw [haltStart, if_neg (by omega), if_neg (by omega)] <;> rfl

theorem taskAt_mapTasks {u : Task → Task} (k : Nat) : (s.mapTasks u).taskAt k = ((mapGet s.slots k).map u).getD {} := by
  rw [taskAt, mapTasks]
  dsimp only
  rw [mapGet_map]

/-- The first entry of a key, where the first one of a task's number has that key (02:R17). -/
theorem find_gtid {k : Nat} {g : Word} {x : Task} : ∀ {l : Map Task}, (l.find? fun e => e.2.gtid == g).map (·.1) = some k → (mapGet l k).getD {} = x → x.gtid = g →
    mapGet l k = some x ∧ (l.map (·.2)).find? (fun t => t.gtid == g) = some x
  | [], h, _, _ => by cases h
  | (j, y) :: l, h, hx, hg => by
    by_cases hy : y.gtid = g
    · rw [List.find?_cons_of_pos (by simpa using hy)] at h
      cases h
      have hyx : y = x := by simpa [mapGet] using hx
      exact ⟨by simp [mapGet, hyx], by rw [List.map_cons, List.find?_cons_of_pos (by simpa using hy), hyx]⟩
    · rw [List.find?_cons_of_neg (by simpa using hy)] at h
      have hj : j ≠ k := by
        intro hj
        rw [mapGet, if_pos hj] at hx
        exact hy ((congrArg Task.gtid hx).trans hg)
      rw [mapGet, if_neg hj] at hx ⊢
      rw [List.map_cons, List.find?_cons_of_neg (by simpa using hy)]
      exact find_gtid h hx hg

theorem running_gtid {p : Nat} {g : Word} {x : Task} (h : s.running? p g = some x) : x.gtid = g := by
  simpa using List.find?_some h

theorem sendStop_eq {k : Nat} {g : Word} {x : Task} (c : BitVec 6) (hk : s.keyOf? g = some k) (hx : s.taskAt k = x) (hg : x.gtid = g) :
    s.sendStop g c = { s with dbg := { s.dbg with stops := s.dbg.stops ++ [(coreOf k, { gtid := g, cause := c, cycle := s.cycle, base := x.nissued })] } } := by
  obtain ⟨h1, h2⟩ := find_gtid hk hx hg
  have he : s.everyTask.find? (fun t => t.gtid == g) = some x := by
    simp only [everyTask, List.append_assoc, List.find?_append, h2, Option.some_or]
  rw [sendStop, ringKey?, hk]
  dsimp only
  rw [he]
  rfl

/-- A task that is let go: it runs on, for one instruction where it steps (18:R292). -/
def letGo (s : State) (b : Bool) (t : Task) : Task := { t with stopped := false, stepping := b, run := s.rewaits t }

theorem goTask_eq (g : Word) (b : Bool) : ∃ c, s.goTask g b = { s.modTask g (s.letGo b) with cores := c } := by
  unfold goTask
  dsimp only
  split
  · exact ⟨_, rfl⟩
  · exact ⟨_, rfl⟩

theorem goTask_taskAt {g : Word} (b : Bool) (k : Nat) :
    (s.goTask g b).taskAt k = ((mapGet s.slots k).map fun t => if t.gtid == g then s.letGo b t else t).getD {} := by
  obtain ⟨c, hc⟩ := goTask_eq (s := s) g b
  rw [hc]
  exact taskAt_mapTasks (s := s) (u := fun t => if t.gtid == g then s.letGo b t else t) k

theorem goTask_named {g : Word} {x : Task} (b : Bool) {k : Nat} (h : mapGet s.slots k = some x) (hg : x.gtid = g) : (s.goTask g b).taskAt k = s.letGo b x := by
  rw [goTask_taskAt, h, Option.map_some, if_pos (by simpa using hg), Option.getD_some]

theorem goTask_other {g : Word} (b : Bool) {k : Nat} (h : (s.taskAt k).gtid ≠ g) : (s.goTask g b).taskAt k = s.taskAt k := by
  rw [goTask_taskAt]
  rw [taskAt] at h ⊢
  cases hm : mapGet s.slots k with
  | none => rfl
  | some x =>
    rw [hm] at h
    rw [Option.map_some, if_neg (by simpa using h)]

theorem goTask_cur (g : Word) (b : Bool) : (s.goTask g b).cur = s.cur := by
  obtain ⟨c, hc⟩ := goTask_eq (s := s) g b
  rw [hc]
  rfl

/-! ### `rebuild` (18:R289) -/

/-- What `rebuild` leaves where it answers at once. -/
def rebuilt (s : State) (o : UnArgs) (code : Nat) : State :=
  (s.completeWith (s.task.markEmpty (.s o.d)) o.f.bytes).putTask s.cur
    (((s.completeWith (s.task.markEmpty (.s o.d)) o.f.bytes).taskAt s.cur).deliver (.s o.d) (BitVec.ofNat 128 code) false)

theorem rebuilt_task {o : UnArgs} {code : Nat} (hst : s.task.stepping = false) : (s.rebuilt o code).task.pc = s.task.pc + BitVec.ofNat 64 o.f.bytes
    ∧ (o.d ≠ 0 → (s.rebuilt o code).task.getS o.d = BitVec.ofNat 64 code) ∧ (s.rebuilt o code).task.full (.s o.d) = true := by
  have ha := completeWith_after (s := s) (t := s.task.markEmpty (.s o.d)) (len := o.f.bytes) (by rw [markEmpty_stepping]; exact hst) (markEmpty_pc _ _)
  have ht : (s.rebuilt o code).task = (s.goneOn (s.task.markEmpty (.s o.d)) o.f.bytes).deliver (.s o.d) (BitVec.ofNat 128 code) false := by
    rw [rebuilt, ha]
    refine (taskAt_putTask_self (s := s.after (s.task.markEmpty (.s o.d)) o.f.bytes) s.cur _).trans ?_
    exact congrArg (fun t : Task => t.deliver (.s o.d) (BitVec.ofNat 128 code) false) (taskAt_putTask_self (s := s) s.cur _)
  rw [ht, Task.deliver_pc]
  refine ⟨rfl, fun hd => ?_, Task.full_setFull_s _ _⟩
  have hget (u : Task) : (u.deliver (.s o.d) (BitVec.ofNat 128 code) false).getS o.d = (u.putS o.d (BitVec.ofNat 64 code)).getS o.d := by
    rw [Task.deliver_false, Task.setFull]
    rw [if_neg hd]
    exact Task.getS_congr (congrArg Task.s (congrArg (u.putS o.d) (BitVec.eq_of_toNat_eq (by simp)))) o.d
  rw [hget, Task.getS_putS_self _ hd]

theorem find_modCapsule {p id : Nat} {g : Capsule → Capsule} (hg : ∀ c, (g c).capid = c.capid) :
    (s.modCapsule p id g).capsule? p id = (s.capsule? p id).map g := by
  have hfind (l : List Capsule) : (l.map fun c => if c.capid == id then g c else c).find? (fun c => c.capid == id)
      = (l.find? fun c => c.capid == id).map g := by
    induction l with
    | nil => rfl
    | cons c l ih =>
      rw [List.map_cons]
      by_cases hc : c.capid == id
      · rw [if_pos hc, List.find?_cons_of_pos (p := fun c : Capsule => c.capid == id) (by rw [hg]; exact hc), List.find?_cons_of_pos (p := fun c : Capsule => c.capid == id) hc]
        rfl
      · rw [if_neg hc, List.find?_cons_of_neg (p := fun c : Capsule => c.capid == id) hc, List.find?_cons_of_neg (p := fun c : Capsule => c.capid == id) hc, ih]
  rw [capsule?, capsule?, partOf?, partOf?, modCapsule, modPart]
  cases hp : mapGet s.parts p with
  | none => dsimp only; rw [hp]; rfl
  | some x =>
    dsimp only
    rw [mapGet_mapSet_self]
    exact hfind x.capsules

theorem startBuild_capid (c : Capsule) : c.startBuild.capid = c.capid := by
  unfold Capsule.startBuild
  split <;> rfl

/-- A task that joins a build goes on, with its register empty (18:R289). -/
theorem buildJoined {p id : Nat} {o : UnArgs} {g : Capsule → Capsule} {e : Out} (hst : s.task.stepping = false) (hg : ∀ c, (g c).capid = c.capid)
    (he : e = .next ((s.modCapsule p id g).completeWith (s.task.markEmpty (.s o.d)) o.f.bytes)) :
    ∃ u, e = .next u ∧ u.task = s.goneOn (s.task.markEmpty (.s o.d)) o.f.bytes ∧ u.capsule? p id = (s.capsule? p id).map g := by
  obtain ⟨x, hx⟩ : ∃ x, s.modCapsule p id g = { s with parts := x } := modPart_eq s p _
  have ht : (s.modCapsule p id g).task = s.task := by rw [hx]; rfl
  rw [completeWith_after (by rw [markEmpty_stepping]; exact hst) (by rw [markEmpty_pc, ht])] at he
  refine ⟨_, he, ?_, find_modCapsule hg⟩
  rw [after, task_setTask, ht]
  rfl

end State

/-- Settles O34: what each instruction that asks Caldera leaves. -/
theorem calderaRequests : Obligations.CalderaRequests := by
  intro s t asks
  have hasks {o : Out} {f : Form} {dsts srcs : List RegId} (h : s.performs f dsts srcs = true) {len : Nat} {d : Reg} {q : Ask} (ho : o = .next (s.ask d len q none)) :
      asks o len d q := by
    obtain ⟨h1, h2⟩ := State.ask_frame (d := d) (len := len) (q := q) (r := none) (State.performs_stepping h)
    exact ⟨_, ho, h1, h2⟩
  refine ⟨fun o why h => ?_, fun o h => ?_, fun f d h => ?_, fun f a ea h => ?_, fun hp f d a ea g x va => ⟨fun h hc => ?_, fun h hc => ?_, fun h hc => ?_, fun h hc => ?_⟩,
    fun hp f d a ea h => ?_, fun hp o h => ?_⟩
  · exact hasks h (congrArg Host.Outcome.next (State.plain_performs h))
  · exact hasks h (congrArg Host.Outcome.next (State.plain_performs h))
  · have hx : exec (.poolTake f d) s = .next (if (s.stepq? t.part).isNone then s.trap stepUse else s.toWrite [.s d] (s.ask d f.bytes .poolTake none)) :=
      congrArg Host.Outcome.next (State.plain_performs (State.performs_reads h))
    split
    · next hn => rw [hn] at hx; exact hx
    · next hn =>
      rw [if_neg (by simpa using hn), State.toWrite_full (State.performsG_iff.1 h).2.2] at hx
      exact hasks h hx
  · have hx : exec (.poolGive f a ea) s = .next (if (s.stepq? t.part).isNone then s.trap stepUse else s.ask 0 f.bytes (.poolGive (t.getS a)) none) :=
      congrArg Host.Outcome.next (State.plain_performs h)
    split
    · next hn => rw [hn] at hx; exact hx
    · next hn =>
      rw [if_neg (by simpa using hn)] at hx
      exact hasks h hx
  · exact hasks h (congrArg Host.Outcome.next (State.ctxOp_asks (srcs := [(.s a, ea)]) hp h hc))
  · exact hasks h (congrArg Host.Outcome.next (State.ctxOp_asks (srcs := [(.s a, ea)]) hp h hc))
  · exact hasks h (congrArg Host.Outcome.next (State.ctxOp_asks (srcs := []) hp h hc))
  · exact hasks h (congrArg Host.Outcome.next (State.ctxOp_asks (srcs := []) hp h hc))
  · have hst := State.performs_stepping h
    intro hh answers
    have hans {op : BitVec 3} {v : State} {r : Option Nat} (hop : op.toNat < 3) (hv : v.task = s.task) (hc : v.cur = s.cur) (ha : v.cald.asked = s.cald.asked)
        (hs : s.haltStart s.task hh op.toNat = (r, v)) : answers op (r.map (BitVec.ofNat 64)) v := by
      have hx := State.exec_halt (d := d) (a := a) (ea := ea) hp (by omega : op.toNat < 5) h
      rw [show s.task.getS a = hh from rfl, hs] at hx
      obtain ⟨h1, h2⟩ := State.ask_frame (v := v) (d := d) (len := f.bytes) (q := .halt hh op.toNat) (r := r.map (BitVec.ofNat 64)) (by rw [hv]; exact hst)
      refine ⟨_, hx, by rw [h1, hv], ?_, ?_, fun k hk => h2.2.1 k (by rw [hc]; exact hk)⟩
      · rw [h2.1, hv, hc, ha]
      · rw [h2.1]
    refine ⟨fun he => ⟨?_, ?_, ?_⟩, fun he hn => ⟨?_, ?_, ?_⟩, fun k x he hk hkc hx hr hy => ?_⟩
    · exact hans (r := some 4) (by decide) rfl rfl rfl ((State.haltStart_eq (by decide)).trans (if_pos he))
    · exact hans (r := some 4) (by decide) rfl rfl rfl ((State.haltStart_eq (by decide)).trans (if_pos he))
    · exact hans (r := some 4) (by decide) rfl rfl rfl ((State.haltStart_eq (by decide)).trans (if_pos he))
    · exact hans (r := some 1) (by decide) rfl rfl rfl ((State.haltStart_eq (by decide)).trans (by rw [if_neg he, hn]))
    · exact hans (r := some 1) (by decide) rfl rfl rfl ((State.haltStart_eq (by decide)).trans (by rw [if_neg he, hn]))
    · exact hans (r := some 1) (by decide) rfl rfl rfl ((State.haltStart_eq (by decide)).trans (by rw [if_neg he, hn]))
    · have hg := State.running_gtid hr
      have hstart {op : Nat} (hop : op < 3) : s.haltStart s.task hh op = if op = 0 then if x.stopped then (some 3, s) else (none, s.sendStop hh cHALT_REQ)
          else if !x.stopped then (some 2, s) else (some 0, s.goTask hh (op == 2)) := by
        rw [State.haltStart_eq hop, if_neg he, hr]
      split
      · next hs =>
        have hgo {op : BitVec 3} (hop : op.toNat < 3) (h0 : op.toNat ≠ 0) : ∃ u, exec (.halt f d a ea op) s = .next u ∧ (u.taskAt k).stopped = false
            ∧ (u.taskAt k).stepping = (op.toNat == 2) := by
          have hx' := State.exec_halt (d := d) (a := a) (ea := ea) hp (by omega : op.toNat < 5) h
          rw [show s.task.getS a = hh from rfl, hstart hop, if_neg h0, hs] at hx'
          have hv : (s.goTask hh (op.toNat == 2)).task = s.task := by
            rw [State.task, State.goTask_cur, State.goTask_other _ (Ne.symm he)]
            rfl
          obtain ⟨-, h2⟩ := State.ask_frame (v := s.goTask hh (op.toNat == 2)) (d := d) (len := f.bytes) (q := .halt hh op.toNat) (r := some (BitVec.ofNat 64 0))
            (by rw [hv]; exact hst)
          have hu := (h2.2.1 k (by exact (State.goTask_cur hh _).symm ▸ hkc)).trans (State.goTask_named (op.toNat == 2) (State.find_gtid hk hx hg).1 hg)
          exact ⟨_, hx', congrArg Task.stopped hu, congrArg Task.stepping hu⟩
        refine ⟨hans (r := some 3) (by decide) rfl rfl rfl ((hstart (by decide)).trans (by rw [hs]; rfl)), hgo (op := 1) (by decide) (by decide), hgo (op := 2) (by decide) (by decide)⟩
      · next hs =>
        have hs := Bool.eq_false_iff.2 hs
        refine ⟨hans (r := some 2) (by decide) rfl rfl rfl ((hstart (by decide)).trans (by rw [hs]; rfl)),
          hans (r := some 2) (by decide) rfl rfl rfl ((hstart (by decide)).trans (by rw [hs]; rfl)),
          hans (r := none) (by decide) rfl rfl rfl ((hstart (by decide)).trans ?_)⟩
        rw [if_pos (by decide), hs, State.sendStop_eq cHALT_REQ hk hx hg]
        rfl
  · have hst := State.performs_stepping h
    intro gives
    have hgives {n : Nat} (hx : exec (.rebuild o) s = .next (s.rebuilt o n)) : gives n := ⟨_, hx, State.rebuilt_task hst⟩
    have hx : exec (.rebuild o) s = .next (match s.capsule? t.part (t.getS o.a).toNat with
      | none => s.rebuilt o (if (s.noCapsule t.part (t.getS o.a).toNat).2.1 = 3 then 4 else 2)
      | some c => match c.st with
        | .unloadPending _ _ => s.rebuilt o 4
        | .built => s.rebuilt o 1
        | _ => if featverMax < c.featver then s.rebuilt o 3
          else (s.modCapsule t.part (t.getS o.a).toNat fun c => { c.startBuild with joiners := c.joiners ++ [⟨t.gtid, o.d, s.cur, false, false⟩] }).completeWith
            (t.markEmpty (.s o.d)) o.f.bytes) := by
      refine congrArg Host.Outcome.next ?_
      rw [State.privileged_above hp, State.plain_performs h]
      rfl
    split
    · next hc =>
      rw [hc] at hx
      refine hgives (hx.trans (congrArg (fun n => Host.Outcome.next (s.rebuilt o n)) ?_))
      rw [State.noCapsule]
      split
      · next hd => rfl
      · next hd => rfl
    · next c hc =>
      rw [hc] at hx
      dsimp only at hx
      split
      · next hs =>
        rw [hs] at hx
        exact hgives hx
      · next hs =>
        rw [hs] at hx
        exact hgives hx
      · next h1 h2 =>
        have hx' : exec (.rebuild o) s = .next (if featverMax < c.featver then s.rebuilt o 3
            else (s.modCapsule t.part (t.getS o.a).toNat fun c => { c.startBuild with joiners := c.joiners ++ [⟨t.gtid, o.d, s.cur, false, false⟩] }).completeWith
              (t.markEmpty (.s o.d)) o.f.bytes) := by
          refine hx.trans (congrArg Host.Outcome.next ?_)
          split
          · next hs => exact absurd hs (h1 _ _)
          · next hs => exact absurd hs h2
          · rfl
        split
        · next hf =>
          rw [if_pos hf] at hx'
          exact hgives hx'
        · next hf =>
          rw [if_neg hf] at hx'
          obtain ⟨u, hu, ht, hq⟩ := State.buildJoined (g := fun c : Capsule => { c.startBuild with joiners := c.joiners ++ [⟨t.gtid, o.d, s.cur, false, false⟩] })
            hst State.startBuild_capid hx'
          refine ⟨u, hu, ht, ?_⟩
          rw [hq, hc]
          rfl

end Sys2Proof.Machine
end

section
/-! PROOFS. The acceptance of a command (14:R238, R239). -/

namespace Sys2Proof.Machine

namespace State

variable {s : State} {f : Form}

theorem exec_tcmd {a b : Reg} {ea eb : Bool} (h : s.performs f [] [.v a, .v b] = true) :
    exec (.tcmd f a ea b eb) s = .next (
      let w : CmdWord := s.task.getV b ++ s.task.getV a
      if !wordOk w || !opOk s.task.g w then s.trap { cause := cBAD_COMMAND, detail := CmdWord.queue w }
      else if CmdWord.queue w < 4 && (isStage (coreOf s.cur) == (CmdWord.queue w == 0)) then s.trap { cause := cENGINE_ROLE, detail := CmdWord.queue w }
      else if CmdWord.tok w = 0 then s.trapC cTOKEN_REG
      else s.toWrite [.s (CmdWord.tok w)] <|
        if s.acqPending s.task.gtid || s.heldLocal s.task.gtid then s
        else match (takes w).find? fun x => !s.engineRoom s.task.part (tileOf (coreOf s.cur)) x with
        | some x => s.park 10 (.engineShare x)
        | none =>
          match s.partOf? s.task.part with
          | none => s
          | some p => (s.accept s.task p w).completeWith (s.task.markEmpty (.s (CmdWord.tok w))) f.bytes) :=
  congrArg Host.Outcome.next (plain_performs h)

/-- The command that `tcmd` puts at the end of its queue (14:R239). -/
def commandOf (s : State) (t : Task) (p : Partition) (w : CmdWord) : Cmd :=
  { order := (s.tile (tileOf (coreOf s.cur))).accepted, part := t.part, owner := t.gtid, core := coreOf s.cur, vtile := s.here
    word := w, seq := ((mapGet p.seqs (s.here * 8 + CmdWord.queue w)).getD 0) % 2 ^ 16, gs := t.g, sup := t.priv != .task, nissue := t.nissued
    offset := (standsAt t).toNat, ranges := Vector.ofFn fun i => rangeOf p t.part s.here t.g w (i.val + 1) }

/-- Acceptance touches the tile's queue and the sequence numbers (14:R239). -/
theorem accept_eq (t : Task) (p : Partition) (w : CmdWord) : ∃ x, s.accept t p w = { s.modTile (tileOf (coreOf s.cur)) fun x => { x with
    accepted := x.accepted + 1
    queues := x.queues.setIfInBounds (CmdWord.queue w) ((x.queues.toList[CmdWord.queue w]?.getD []) ++ [s.commandOf t p w]) } with parts := x } :=
  modPart_eq _ _ _

theorem accept_queues (t : Task) (p : Partition) {w : CmdWord} {k : Nat} (hk : k < 5) :
    ((s.accept t p w).tile (tileOf (coreOf s.cur))).queues.toList[k]?.getD []
      = (s.tile (tileOf (coreOf s.cur))).queues.toList[k]?.getD [] ++ if k = CmdWord.queue w then [s.commandOf t p w] else [] := by
  obtain ⟨x, hx⟩ := accept_eq (s := s) t p w
  rw [hx, tile, modTile, mapMod]
  dsimp only
  rw [mapGet_mapSet_self, Option.getD_some, Vector.toList_setIfInBounds, List.getElem?_set]
  split
  · next h => rw [if_pos (by simpa [← h] using hk), if_pos h.symm, h]; rfl
  · next h => rw [if_neg (Ne.symm h), List.append_nil]; rfl

theorem accept_task (t : Task) (p : Partition) (w : CmdWord) : (s.accept t p w).task = s.task ∧ (s.accept t p w).mem = s.mem := by
  obtain ⟨x, hx⟩ := accept_eq (s := s) t p w
  rw [hx]
  exact ⟨rfl, rfl⟩

/-- The queues a command takes room in: its own, or those a fence entry names (14:R242). -/
theorem mem_takes {w : CmdWord} {q : Nat} (hq : CmdWord.queue w = q) (hle : q ≤ 4) (k : Nat) :
    k ∈ takes w ↔ k < 5 ∧ ((q < 4 ∧ k = q) ∨ (q = 4 ∧ k < 4 ∧ w.getLsbD (44 + k) = true)) := by
  rw [takes, hq]
  split
  · next h =>
    subst h
    have hbit : k < 4 → ((CmdWord.fmask w / 2 ^ k % 2 == 1) = w.getLsbD (44 + k)) := fun hk => by
      rw [show (CmdWord.fmask w / 2 ^ k % 2 == 1) = (CmdWord.fmask w).testBit k by rw [Nat.testBit_eq_decide_div_mod_eq]; rfl]
      rw [CmdWord.fmask, CmdWord.get, field, Nat.testBit_mod_two_pow, Nat.testBit_div_two_pow, decide_eq_true hk, Bool.true_and, Nat.add_comm, BitVec.getLsbD]
    rw [setBits, List.mem_filter, List.mem_range]
    constructor
    · rintro ⟨hk, hb⟩
      exact ⟨by omega, .inr ⟨rfl, hk, by rw [← hbit hk]; exact hb⟩⟩
    · rintro ⟨-, ⟨h, -⟩ | ⟨-, hk, hb⟩⟩
      · omega
      · exact ⟨hk, by rw [hbit hk]; exact hb⟩
  · next h =>
    rw [List.mem_singleton]
    omega

end State

/-- Settles O36: the checks of `tcmd` in order, and the accepted command. -/
theorem commandAcceptance : Obligations.CommandAcceptance := by
  intro s f a b ea eb h t w q tok' tile
  have hst := State.performs_stepping h
  have hx := State.exec_tcmd (ea := ea) (eb := eb) h
  dsimp only at hx
  have htok : CmdWord.tok w = tok' := BitVec.eq_of_toNat_eq (by
    show (BitVec.ofNat 5 (w.toNat / 2 ^ 31 % 2 ^ 5)).toNat = (BitVec.ofNat 5 (w.toNat / 2 ^ 31)).toNat
    rw [BitVec.toNat_ofNat, BitVec.toNat_ofNat, Nat.mod_mod])
  have hstage : (isStage (coreOf s.cur) == (q == 0)) = true ↔ (isStage (coreOf s.cur) = true ↔ q = 0) := by
    rw [beq_iff_eq, Bool.eq_iff_iff, beq_iff_eq]
  have hq : CmdWord.queue w = q := rfl
  rw [show s.task.getV b ++ s.task.getV a = w from rfl, htok, hq] at hx
  split
  · next hc =>
    rw [if_pos (by simpa using hc)] at hx
    exact hx
  · next hc =>
    rw [if_neg (by simpa using hc)] at hx
    split
    · next hr =>
      rw [if_pos (by rw [Bool.and_eq_true, decide_eq_true_eq, hstage]; exact hr)] at hx
      exact hx
    · next hr =>
      rw [if_neg (by rw [Bool.and_eq_true, decide_eq_true_eq, hstage]; exact hr)] at hx
      split
      · next ht => rw [if_pos ht] at hx; exact hx
      · next ht =>
        rw [if_neg ht] at hx
        split
        · next hf =>
          rw [State.toWrite, List.find?_cons_of_pos (by simpa using hf)] at hx
          exact ⟨_, hx, State.park_sameBut hst, State.park_task hst⟩
        · next hf =>
          intro hfr hacq hheld p hp room
          have hf := (Bool.not_eq_false _).mp hf
          have hle : q ≤ 4 := by
            simp only [not_or, Bool.not_eq_false, wordOk, Bool.and_eq_true, decide_eq_true_eq] at hc
            obtain ⟨⟨⟨⟨-, hl⟩, -⟩, -⟩, -⟩ := hc
            exact hl
          have hw : ∀ k : State, s.toWrite [.s tok'] k = k := fun k => by
            rw [State.toWrite, List.find?_cons_of_neg (by simpa using hf), List.find?_nil]
            simp [show s.task.fresh s.cycle (.s tok') = false from hfr]
          rw [hw, show s.acqPending s.task.gtid = false from hacq, show s.heldLocal s.task.gtid = false from hheld, if_neg (by simp)] at hx
          refine ⟨fun hr => ?_, fun hr => ?_⟩
          · have hnone : (State.takes w).find? (fun x => !s.engineRoom s.task.part (tileOf (coreOf s.cur)) x) = none :=
              List.find?_eq_none.2 fun k hk => by
                obtain ⟨h5, hk⟩ := (State.mem_takes hq hle k).1 hk
                rcases hk with ⟨h4, hkq⟩ | ⟨h4, hk4, hb⟩
                · simpa using hr k (by omega) (.inl ⟨h4, hkq⟩)
                · simpa using hr k hk4 (.inr ⟨h4, hb⟩)
            rw [hnone, show s.partOf? s.task.part = some p from hp] at hx
            obtain ⟨ht', hm⟩ := State.accept_task (s := s) s.task p w
            dsimp only at hx
            rw [State.completeWith_after (by rw [markEmpty_stepping]; exact hst) (by rw [markEmpty_pc, ht'])] at hx
            refine ⟨_, s.commandOf s.task p w, hx, ?_, fun k hk => State.accept_queues s.task p hk, rfl, rfl, rfl, rfl, rfl, rfl, rfl, rfl, rfl, hm⟩
            rw [State.after, State.task_setTask, ht']
            rfl
          · obtain ⟨k, hk⟩ : ∃ k, (State.takes w).find? (fun x => !s.engineRoom s.task.part (tileOf (coreOf s.cur)) x) = some k := by
              rw [← Option.isSome_iff_exists, List.find?_isSome]
              by_contra hno
              refine hr fun k hk hkq => ?_
              by_contra hroom
              exact hno ⟨k, (State.mem_takes hq hle k).2 ⟨by omega, hkq.imp id fun h => ⟨h.1, hk, h.2⟩⟩, by simpa using hroom⟩
            rw [hk] at hx
            exact ⟨_, k, hx, State.park_sameBut hst, State.park_task hst, by simpa using List.find?_some hk⟩

end Sys2Proof.Machine
end

section
/-! PROOFS. Replies of Caldera (14:R254, R257, R259 to R261, 18:R282). -/

namespace Sys2Proof.Machine

namespace State

variable {s u : State} {a : Asked} {k : Nat} {t : Task} {w : Word}

/-! ### A reply reaches the task that asked (14:R254) -/

theorem askedAt_single (h : s.cald.asked = [a]) (hk : a.key = k) (ht : mapGet s.slots k = some t) (hg : t.gtid = a.gtid) : s.askedAt k = some a := by
  rw [askedAt, h, ht, List.find?_cons_of_pos (by simp [hk, hg])]
  rfl

/-- What a reply leaves where its task stands in its slot: the task goes on, the question is gone, and nothing else of the slots changes. -/
theorem giveReply_done (hst : (s.taskAt k).stepping = false) :
    s.giveReply k a w = { s with
      cald := { s.cald with asked := s.cald.asked.erase a }
      slots := mapSet (mapSet s.slots k ({ s.taskAt k with run := .resident }.writeS s.cycle a.dst w 1)) k
        { ({ s.taskAt k with run := .resident }.writeS s.cycle a.dst w 1) with
          pc := (s.taskAt k).pc + BitVec.ofNat 64 a.len, fpend := false, fmtword := 0, skipBreak := false }
      cores := (s.giveReply k a w).cores } := by
  have ht : ((({ s with cald := { s.cald with asked := s.cald.asked.erase a } }.putTask k ({ s.taskAt k with run := .resident }.writeS s.cycle a.dst w 1)).recordSched
      k 2 12 (s.taskAt k).gtid).at_ k).task = { s.taskAt k with run := .resident }.writeS s.cycle a.dst w 1 :=
    taskAt_putTask_self (s := { s with cald := { s.cald with asked := s.cald.asked.erase a } }) k _
  rw [giveReply]
  dsimp only
  rw [complete_after (by rw [ht, Task.writeS_stepping]; exact hst), after, ht, Task.writeS_pc]
  rfl

theorem debugReplies_slots (n part x y : Nat) (l : List Byte) (ids : List (BitVec 32)) :
    ∀ s : State, (ids.foldl (fun s i => s.debugReply n part i x y l) s).slots = s.slots := by
  induction ids with
  | nil => exact fun _ => rfl
  | cons i ids ih => exact fun s => (ih (s.debugReply n part i x y l)).trans rfl

theorem postStop_slots (part : Nat) (r : VWord) : (s.postStop part r).slots = s.slots := by
  unfold postStop
  split
  · rfl
  · split
    · rfl
    · dsimp only
      split
      · exact debugReplies_slots ..
      · exact modPart_slots _ _ _

/-- A task that stops keeps its registers and its run state (27:R377). -/
theorem stopTask_slots (key : Nat) (c : BitVec 6) (n : Nat) :
    (s.stopTask key c n).slots = mapSet s.slots key { s.taskAt key with stopped := true, stepping := false } := by
  unfold stopTask
  dsimp only
  rw [postStop_slots, modPart_slots]
  rfl

theorem stopTask_other {key j : Nat} (c : BitVec 6) (n : Nat) (h : j ≠ key) : mapGet (s.stopTask key c n).slots j = mapGet s.slots j := by
  rw [stopTask_slots]; exact mapGet_mapSet_ne _ h _

theorem stopTask_self (key : Nat) (c : BitVec 6) (n : Nat) : (s.stopTask key c n).taskAt key = { s.taskAt key with stopped := true, stepping := false } := by
  rw [taskAt, stopTask_slots, mapGet_mapSet_self]; rfl

/-- An instruction that completes changes the slot that runs alone, and no register (02:R36). -/
theorem complete_frame (len : Nat) : (∀ j, j ≠ s.cur → mapGet (s.complete len).slots j = mapGet s.slots j)
    ∧ ((s.complete len).taskAt s.cur).run = s.task.run ∧ ((s.complete len).taskAt s.cur).s = s.task.s := by
  unfold complete finish
  dsimp only
  generalize ht : ({ s.task with pc := s.task.pc + BitVec.ofNat 64 len, fpend := false, fmtword := 0, skipBreak := false } : Task) = t
  have hrun : t.run = s.task.run := by rw [← ht]
  have hs : t.s = s.task.s := by rw [← ht]
  have hself : (s.setTask t).taskAt s.cur = t := taskAt_putTask_self _ s.cur t
  rw [if_neg Bool.false_ne_true]
  split
  · refine ⟨fun j hj => ?_, ?_, ?_⟩
    · exact (stopTask_other (s := s.setTask t) _ _ hj).trans (mapGet_mapSet_ne _ hj _)
    · exact (congrArg Task.run (stopTask_self (s := s.setTask t) s.cur _ _)).trans ((congrArg Task.run hself).trans hrun)
    · exact (congrArg Task.s (stopTask_self (s := s.setTask t) s.cur _ _)).trans ((congrArg Task.s hself).trans hs)
  · refine ⟨fun j hj => mapGet_mapSet_ne _ hj _, ?_, ?_⟩
    · rw [hself, hrun]
    · rw [hself, hs]

/-- What a reply leaves wherever its task stands: the register and the run state are its task's alone (14:R254). -/
theorem giveReply_frame : (∀ j, j ≠ k → mapGet (s.giveReply k a w).slots j = mapGet s.slots j) ∧ ((s.giveReply k a w).taskAt k).run = .resident
    ∧ ((s.giveReply k a w).taskAt k).getS a.dst = if a.dst = 0 then 0 else w := by
  let v := (({ s with cald := { s.cald with asked := s.cald.asked.erase a } }.putTask k ({ s.taskAt k with run := .resident }.writeS s.cycle a.dst w 1)).recordSched
      k 2 12 (s.taskAt k).gtid).at_ k
  have ht : v.task = { s.taskAt k with run := .resident }.writeS s.cycle a.dst w 1 :=
    taskAt_putTask_self (s := { s with cald := { s.cald with asked := s.cald.asked.erase a } }) k _
  obtain ⟨h1, h2, h3⟩ := complete_frame (s := v) a.len
  refine ⟨fun j hj => (h1 j hj).trans (mapGet_mapSet_ne _ hj _), h2.trans ?_, (Task.getS_congr h3 _).trans ?_⟩
  · rw [ht, Task.writeS_run]
  · rw [ht, Task.writeS]
    split
    · next h => rw [h]; exact Task.getS_zero _
    · next h => exact Task.getS_putS_self _ h w

theorem replyAt_stored (h : s.cald.asked = [a]) (hk : a.key = k) (ht : mapGet s.slots k = some t) (hg : t.gtid = a.gtid) (hr : a.reply = some w) :
    s.replyAt k = s.giveReply k a w := by
  rw [replyAt, askedAt_single h hk ht hg]
  dsimp only
  rw [hr, ht]
  simp [hg]

/-- The state in which a question's answer has been noted. -/
def answered (u : State) (a : Asked) (w : Word) : State :=
  { u with cald := { u.cald with asked := u.cald.asked.map fun x => if x == a then { a with reply := some w } else x } }

theorem replyAt_asked (h : s.cald.asked = [a]) (hk : a.key = k) (ht : mapGet s.slots k = some t) (hg : t.gtid = a.gtid) (hr : a.reply = none)
    (hs : s.askStep a = .reply w u) : s.replyAt k = (u.answered a w).giveReply k { a with reply := some w } w := by
  rw [replyAt, askedAt_single h hk ht hg]
  dsimp only
  rw [hr, hs, ht]
  simp [hg, answered]

/-! ### What posting a record leaves (14:R259, 20:R312) -/

/-- The slots, the questions and the step queues are as they were. -/
structure Calm (s u : State) : Prop where
  slots : u.slots = s.slots
  asked : u.cald.asked = s.cald.asked
  stepq : ∀ p, u.stepq? p = s.stepq? p

theorem Calm.refl : s.Calm s := ⟨rfl, rfl, fun _ => rfl⟩
theorem Calm.trans {v : State} (h : s.Calm u) (h' : u.Calm v) : s.Calm v :=
  ⟨h'.slots.trans h.slots, h'.asked.trans h.asked, fun p => (h'.stepq p).trans (h.stepq p)⟩

theorem calm_store (x : Nat) (bs : List Byte) : s.Calm (s.store x bs) := by
  obtain ⟨v, hv, -⟩ := store_eq (s := s) x bs
  rw [hv]
  exact ⟨rfl, rfl, fun _ => rfl⟩

theorem calm_writePieces : ∀ (ps : List Piece) (bs : List Byte) (s : State), s.Calm (s.writePieces ps bs)
  | [], _, _ => .refl
  | _ :: r, _, _ => (calm_store ..).trans (calm_writePieces r _ _)

theorem calm_writeVa {part va : Nat} {bs : List Byte} (h : s.writeVa part va bs = some u) : s.Calm u := by
  rw [writeVa, vaWrite] at h
  cases hp : s.vaPieces part va 2 bs.length with
  | error e => rw [hp] at h; cases h
  | ok ps =>
    rw [hp] at h
    cases h
    exact calm_writePieces _ _ _

theorem calm_ringPut {part base n : Nat} {rec : List Byte} (h : s.ringPut part base rec = some (u, n)) : s.Calm u := by
  unfold ringPut at h
  split at h
  · cases h
  · split at h
    · cases h
    · split at h
      · cases h
      · next v h1 =>
        split at h
        · cases h
        · next x h2 =>
          cases h
          exact (calm_writeVa h1).trans (calm_writeVa h2)

theorem calm_modPart {part : Nat} {f : Partition → Partition} (hf : ∀ p, (f p).stepq = p.stepq) : s.Calm (s.modPart part f) := by
  refine ⟨modPart_slots _ _ _, ?_, fun q => ?_⟩
  · unfold modPart
    split <;> rfl
  · unfold modPart
    split
    · rfl
    · next x hx =>
      rw [stepq?, stepq?, partOf?, partOf?]
      dsimp only
      by_cases hq : q = part
      · rw [hq, mapGet_mapSet_self, hx]
        exact hf x
      · rw [mapGet_mapSet_ne _ hq]

theorem calm_stopped (part : Nat) : s.Calm (s.modPart part fun p => { p with stopped := true }) := calm_modPart fun _ => rfl
theorem calm_cserial (part n : Nat) : s.Calm (s.modPart part fun p => { p with cserial := n }) := calm_modPart fun _ => rfl
theorem calm_mgmt (m : Mgmt) : s.Calm { s with mgmt := m } := ⟨rfl, rfl, fun _ => rfl⟩
theorem calm_hl (h : HostRegs) : s.Calm { s with hl := h } := ⟨rfl, rfl, fun _ => rfl⟩

theorem calm_logPut (kind : Nat) (world : BitVec 4) (l : List Byte) : s.Calm (s.logPut kind world l) := calm_mgmt _

theorem calm_postEvent (rec : List Byte) : s.Calm (s.postEvent rec) := by
  unfold postEvent
  dsimp only
  refine (calm_logPut 1 0 (rec.take 48)).trans ?_
  generalize s.logPut 1 0 (rec.take 48) = v
  split
  · exact .refl
  · split
    · exact calm_hl _
    · rw [storeNat]
      exact (calm_store _ _).trans (calm_store _ _)

theorem calm_requestPreempt (part : Nat) (hold : Bool) (l : List Word) : s.Calm (s.requestPreempt part hold l) := by
  unfold requestPreempt
  split
  · exact .refl
  · exact ⟨rfl, rfl, fun _ => rfl⟩

theorem calm_partFault (part : Nat) (c : BitVec 6) (va : Nat) : s.Calm (s.partFault part c va) := by
  rw [partFault]
  exact ((calm_stopped part).trans (calm_requestPreempt part true [])).trans (calm_postEvent _)

theorem calm_vaFaultIf (part : Nat) (e : Option VaFail) : s.Calm (s.vaFaultIf part e) := by
  cases e with
  | none => exact .refl
  | some e => exact calm_partFault _ _ _

theorem calm_postDone (part : Nat) (x : StepQ) (q : Word) (slot why len pages : Nat) : s.Calm (s.postDone part x q slot why len pages) := by
  unfold postDone
  dsimp only
  split
  · next v n h => exact (calm_cserial _ _).trans (calm_ringPut h)
  · exact calm_cserial _ _

/-- A step queue that is put back is the one that is there (14:R254). -/
theorem putStepq_frame {part : Nat} {x : StepQ} (y : StepQ) (h : s.stepq? part = some x) : (s.putStepq part y).slots = s.slots
    ∧ (s.putStepq part y).cald.asked = s.cald.asked ∧ (s.putStepq part y).stepq? part = some y := by
  rw [stepq?, partOf?] at h
  cases hp : mapGet s.parts part with
  | none => rw [hp] at h; cases h
  | some p =>
    rw [putStepq, modPart, hp]
    refine ⟨rfl, rfl, ?_⟩
    rw [stepq?, partOf?, mapGet_mapSet_self]
    rfl

/-! ### The step queue's answers (14:R254, R257, R259) -/

theorem givePages_desc (x : StepQ) (l : List Nat) : (givePages x l).1.desc = x.desc := by
  unfold givePages
  generalize 0 = n
  induction l generalizing x n with
  | nil => rfl
  | cons b l ih =>
    rw [List.foldl_cons]
    split
    · exact ih x n
    · split
      · exact ih _ _
      · exact ih x n

/-- A sequence that retires is named so, and its slot keeps its description (14:R257). -/
theorem retireSeq_frame {part why i : Nat} {x : StepQ} (hx : s.stepq? part = some x) (hd : (mapGet x.desc i).isSome = true) :
    (s.retireSeq part why i).slots = s.slots ∧ (s.retireSeq part why i).cald.asked = s.cald.asked
      ∧ ∃ y, (s.retireSeq part why i).stepq? part = some y ∧ y.desc = x.desc ∧ ∀ n, n ∈ y.retired ↔ n ∈ x.retired ∨ n = i := by
  obtain ⟨q, hq⟩ := Option.isSome_iff_exists.1 hd
  unfold retireSeq
  rw [hx]
  dsimp only
  rw [hq]
  dsimp only
  generalize hl : s.readList part (x.listAt i) 4096 = l
  have hgd := givePages_desc x l.1
  generalize givePages x l.1 = r at hgd ⊢
  obtain ⟨p1, p2, p3⟩ := putStepq_frame (s := s) { r.1 with retired := insNat x.retired i } hx
  have hc := (calm_postDone (s := s.putStepq part { r.1 with retired := insNat x.retired i }) part { r.1 with retired := insNat x.retired i } q.seqid i why q.len r.2).trans
    (calm_vaFaultIf part l.2)
  refine ⟨hc.slots.trans p1, hc.asked.trans p2, _, (hc.stepq part).trans p3, hgd, fun n => ?_⟩
  dsimp only
  rw [mem_insNat, or_comm]

/-- The sequences that retire together (14:R257). -/
theorem retireAll_frame {part why : Nat} : ∀ (l : List Nat) {s : State} {x : StepQ}, s.stepq? part = some x → (∀ i ∈ l, (mapGet x.desc i).isSome = true) →
    (l.foldl (fun s i => s.retireSeq part why i) s).slots = s.slots ∧ (l.foldl (fun s i => s.retireSeq part why i) s).cald.asked = s.cald.asked
      ∧ ∃ y, (l.foldl (fun s i => s.retireSeq part why i) s).stepq? part = some y ∧ y.desc = x.desc ∧ ∀ n, n ∈ y.retired ↔ n ∈ x.retired ∨ n ∈ l
  | [], s, x, hx, _ => ⟨rfl, rfl, x, hx, rfl, fun n => by simp⟩
  | i :: l, s, x, hx, hl => by
    obtain ⟨h1, h2, y, hy, hyd, hyr⟩ := retireSeq_frame (why := why) hx (hl i List.mem_cons_self)
    obtain ⟨g1, g2, z, hz, hzd, hzr⟩ := retireAll_frame (why := why) l hy fun j hj => by rw [hyd]; exact hl j (List.mem_cons_of_mem _ hj)
    refine ⟨g1.trans h1, g2.trans h2, z, hz, hzd.trans hyd, fun n => ?_⟩
    rw [hzr, hyr, List.mem_cons, or_assoc]

theorem stepWord_eq {code already live : Nat} (h1 : code < 2 ^ 8) (h2 : already < 2 ^ 16) (h3 : live < 2 ^ 16) :
    stepWord code already live = BitVec.ofNat 64 (live + already * 2 ^ 16 + code * 2 ^ 32) := by
  rw [stepWord, word64]
  simp only [packFields, Nat.mod_eq_of_lt h1, Nat.mod_eq_of_lt h2, Nat.mod_eq_of_lt h3]
  congr 1
  omega

/-- The free page with the number r among the free ones (14:R254). -/
theorem nthFree_free : ∀ (l : List Nat) (r : Nat), l.Pairwise (· < ·) →
    l.foldl (fun k u => if u ≤ k then k + 1 else k) r ∉ l ∧ r ≤ l.foldl (fun k u => if u ≤ k then k + 1 else k) r
      ∧ l.foldl (fun k u => if u ≤ k then k + 1 else k) r ≤ r + l.length ∧ ((∀ u ∈ l, r < u) → l.foldl (fun k u => if u ≤ k then k + 1 else k) r = r)
  | [], r, _ => ⟨by simp, Nat.le_refl _, Nat.le_refl _, fun _ => rfl⟩
  | u :: l, r, h => by
    obtain ⟨hu, hl⟩ := List.pairwise_cons.1 h
    rw [List.foldl_cons, List.length_cons, List.mem_cons]
    split
    · next hle =>
      obtain ⟨h1, h2, h3, h4⟩ := nthFree_free l (r + 1) hl
      exact ⟨fun hc => hc.elim (fun e => by omega) h1, by omega, by omega, fun hc => absurd (hc u List.mem_cons_self) (by omega)⟩
    · next hgt =>
      obtain ⟨h1, h2, h3, h4⟩ := nthFree_free l r hl
      have he := h4 fun v hv => by have := hu v hv; omega
      exact ⟨fun hc => hc.elim (fun e => by omega) h1, h2, by omega, fun _ => he⟩

theorem asker_of {f : Task → Bool} (ht : mapGet s.slots k = some t) (hg : t.gtid = a.gtid) (hf : f t = true) : s.asker a f = true := by
  obtain ⟨e, he, het⟩ := exists_of_mapGet ht
  exact List.any_eq_true.2 ⟨t, List.mem_append_left _ (List.mem_map.2 ⟨e, he, het⟩), by simp [hg, hf]⟩

/-- With no entry in the admission ring nothing is admitted (14:R259). -/
theorem admitLoop_none {part want fuel : Nat} {x : StepQ} (hx : s.stepq? part = some x) (h : s.ringHead part x.adm 64 = none) :
    s.admitLoop part want 0 (fuel + 1) = some (0, 0, s) := by
  conv => lhs; whnf
  split
  · next hn => exact absurd (hx.symm.trans hn) (by simp)
  · next y hy =>
    rw [hx] at hy
    cases hy
    split
    · rfl
    · split
      · rfl
      · next b i hb => rw [h] at hb; cases hb

/-! ### `ctxsave` and `ctxrest` (18:R282) -/

theorem unwait_slots (part : Nat) (g : Word) : (s.unwait part g).slots = s.slots := modPart_slots _ _ _

theorem ctxWord_ok (n : Nat) : ctxWord 0 n = BitVec.ofNat 64 (n % 2 ^ 32 * 2 ^ 32) := by
  rw [ctxWord, word64]
  simp only [packFields, if_true]
  congr 1
  omega

theorem namedSlot_other {slot : Word} {j : Nat} (h : s.namedSlot a slot = some j) (hk : a.key = k) : j ≠ k := by
  unfold namedSlot at h
  split at h
  · cases h
  · dsimp only at h
    split at h
    · next hc =>
      cases h
      simp only [Bool.and_eq_true, bne_iff_ne] at hc
      rw [← hk]
      exact hc.2
    · cases h

/-- A slot that has been saved is free (18:R282). -/
theorem saveSlot_frees {key va n : Nat} {b c : Bool} (h : s.saveSlot key va b c = .saved u n) : mapGet u.slots key = none := by
  unfold saveSlot at h
  dsimp only at h
  split at h
  · unfold saveStopped at h
    dsimp only at h
    split at h
    · cases h
    · split at h
      · cases h
      · next v hv =>
        cases h
        rw [modPart_slots, withdrawRest, moveFence]
        dsimp only
        rw [unwait_slots]
        exact (quiet_freeSlot key).2
  · cases h

theorem portSlotImage_mmu {part core va : Nat} {b : List Byte} (h : s.portSlotImage part core va = .ok (b, u)) : ∃ m, u = { s with mmu := m } := by
  have hread {s u : State} {n : Nat} {b : List Byte} (h : s.portRead part core va n = .ok (b, u)) : ∃ m, u = { s with mmu := m } := by
    unfold portRead at h
    cases hq : s.portPieces part core va 1 n with
    | error e => rw [hq] at h; cases h
    | ok q =>
      rw [hq] at h
      cases h
      exact portPieces_mmu hq
  unfold portSlotImage at h
  split at h
  · cases h
  · next l v hv =>
    obtain ⟨m, rfl⟩ := hread hv
    obtain ⟨m', h'⟩ := hread h
    exact ⟨m', h'⟩

/-- A task that is woken, or not, keeps its number and its place (02:R36). -/
theorem wakeUp_ids (key j : Nat) : ((s.wakeUp key).taskAt j).gtid = (s.taskAt j).gtid ∧ ((s.wakeUp key).taskAt j).pc = (s.taskAt j).pc := by
  by_cases hj : j = key
  · subst hj
    obtain ⟨p, x, -, -, o, h3⟩ := payTokens_eq (s := s) j
    unfold wakeUp
    dsimp only
    split
    · exact ⟨(congrArg Task.gtid h3 :), (congrArg Task.pc h3 :)⟩
    · split
      · rw [taskAt_recordSched, taskAt_putTask_self]
        exact ⟨(congrArg Task.gtid h3 :), (congrArg Task.pc h3 :)⟩
      · exact ⟨(congrArg Task.gtid h3 :), (congrArg Task.pc h3 :)⟩
  · obtain ⟨-, h, -⟩ := wakeUp_frame (s := s) key
    rw [h j hj]
    exact ⟨rfl, rfl⟩

theorem setErr_gtid (t : Task) (r : RegId) : (t.setErr r).gtid = t.gtid := by
  cases r with
  | s r => rw [Task.setErr]; split <;> rfl
  | v r => rfl
  | m r => rfl

theorem deliver_ids (t : Task) (r : RegId) (x : VWord) (err : Bool) : (t.deliver r x err).gtid = t.gtid ∧ (t.deliver r x err).pc = t.pc := by
  have hput : (t.putReg r x).gtid = t.gtid := by
    cases r with
    | s r => exact Task.putS_gtid ..
    | v r => rfl
    | m r => rfl
  have hfull : ((t.putReg r x).setFull r true).gtid = t.gtid ∧ ((t.putReg r x).setFull r true).pc = t.pc := by
    rw [setFull_gtid, setFull_pc, Task.putReg_pc]
    exact ⟨hput, rfl⟩
  unfold Task.deliver
  dsimp only
  split
  · rw [setErr_gtid, setErr_pc]
    exact hfull
  · exact hfull

theorem noteErr_gtid (t : Task) (x : Word) (n : Nat) : (noteErr t x n).gtid = t.gtid := by unfold noteErr; split <;> rfl

/-- A delivery changes no task's number or place, and no access (13:R222). -/
theorem deliverTo_ids (g : Word) (part : Nat) (r : RegId) (tag : Nat) (x : VWord) (err : Bool) (aerr : Word) (sub j : Nat) :
    (((s.deliverTo g part r tag x err aerr sub).taskAt j).gtid = (s.taskAt j).gtid ∧ ((s.deliverTo g part r tag x err aerr sub).taskAt j).pc = (s.taskAt j).pc)
      ∧ (s.deliverTo g part r tag x err aerr sub).net.accs = s.net.accs := by
  unfold deliverTo
  split
  · next k hk =>
    dsimp only
    generalize ht : (if err = true then noteErr (((s.taskAt k).deliver r x err).filled s.cycle r) aerr sub else ((s.taskAt k).deliver r x err).filled s.cycle r) = t
    have hids : t.gtid = (s.taskAt k).gtid ∧ t.pc = (s.taskAt k).pc := by
      obtain ⟨h1, h2⟩ := deliver_ids (s.taskAt k) r x err
      rw [← ht]
      split
      · rw [noteErr_gtid, noteErr_pc]
        exact ⟨h1, h2⟩
      · exact ⟨h1, h2⟩
    obtain ⟨h1, h2⟩ := wakeUp_ids (s := s.putTask k t) k j
    refine ⟨?_, congrArg Net.accs (wakeUp_frame (s := s.putTask k t) k).1⟩
    rw [h1, h2]
    by_cases hj : j = k
    · rw [hj, taskAt_putTask_self]
      exact hids
    · rw [taskAt_putTask_ne _ hj]
      exact ⟨rfl, rfl⟩
  · split <;> exact ⟨⟨rfl, rfl⟩, rfl⟩

/-- A task that takes a slot keeps its number and its place, where no access of it joins (18:R282, 13:R235). -/
theorem landAll_ids {j : Nat} (h : ∀ q ∈ s.net.accs, q.owner = (s.taskAt j).gtid → q.joins = false) :
    ((s.landAll j).taskAt j).gtid = (s.taskAt j).gtid ∧ ((s.landAll j).taskAt j).pc = (s.taskAt j).pc := by
  have hfold : ∀ (l : List Landed) (u : State), u.net.accs = s.net.accs → (u.taskAt j).gtid = (s.taskAt j).gtid → (u.taskAt j).pc = (s.taskAt j).pc →
      let v := l.foldl (fun u x => u.deliverTo (s.taskAt j).gtid 0 x.dst x.tag x.value x.err x.aerr x.sub) u
      v.net.accs = s.net.accs ∧ (v.taskAt j).gtid = (s.taskAt j).gtid ∧ (v.taskAt j).pc = (s.taskAt j).pc := by
    intro l
    induction l with
    | nil => exact fun u h1 h2 h3 => ⟨h1, h2, h3⟩
    | cons x l ih =>
      intro u h1 h2 h3
      obtain ⟨⟨g1, g2⟩, g3⟩ := deliverTo_ids (s := u) (s.taskAt j).gtid 0 x.dst x.tag x.value x.err x.aerr x.sub j
      exact ih _ (g3.trans h1) (g1.trans h2) (g2.trans h3)
  unfold landAll
  dsimp only
  obtain ⟨h1, h2, h3⟩ := hfold (s.net.landed.filter (·.owner == (s.taskAt j).gtid))
    { s with net := { s.net with landed := s.net.landed.filter (·.owner != (s.taskAt j).gtid) } } rfl rfl rfl
  generalize List.foldl _ _ (s.net.landed.filter (·.owner == (s.taskAt j).gtid)) = v at h1 h2 h3 ⊢
  have hnone : (v.net.accs.filter fun a => a.owner == (s.taskAt j).gtid && a.joins) = [] := by
    rw [h1, List.filter_eq_nil_iff]
    intro q hq hc
    simp only [Bool.and_eq_true, beq_iff_eq] at hc
    exact absurd hc.2 (by rw [h q hq hc.1]; exact Bool.false_ne_true)
  rw [hnone, List.foldl_nil, taskAt_putTask_self]
  exact ⟨h2, h3⟩

theorem giveCmds_slots (j : Nat) (cs : List Cmd) : ∀ s : State, (s.giveCmds j cs).slots = s.slots := by
  induction cs with
  | nil => exact fun _ => rfl
  | cons c cs ih => exact fun s => (ih _).trans rfl

theorem seated_ids {j sub : Nat} {t x : Task} (hg : x.gtid = t.gtid) (hp : x.pc = t.pc) (h : ∀ q ∈ s.net.accs, q.owner = t.gtid → q.joins = false) :
    ((((s.putTask j x).recordSched j sub 0 x.gtid).landAll j).taskAt j).gtid = t.gtid
      ∧ ((((s.putTask j x).recordSched j sub 0 x.gtid).landAll j).taskAt j).pc = t.pc := by
  have hx : ((s.putTask j x).recordSched j sub 0 x.gtid).taskAt j = x := taskAt_putTask_self (s := s) j x
  obtain ⟨h1, h2⟩ := landAll_ids (s := (s.putTask j x).recordSched j sub 0 x.gtid) (j := j) fun q hq ho => h q hq (by rw [ho, hx, hg])
  rw [h1, h2, hx]
  exact ⟨hg, hp⟩

theorem occupy_ids {j n : Nat} {t : Task} (h : ∀ q ∈ s.net.accs, q.owner = t.gtid → q.joins = false) :
    ((s.occupy j t n).taskAt j).gtid = t.gtid ∧ ((s.occupy j t n).taskAt j).pc = t.pc := by
  unfold occupy
  dsimp only
  refine seated_ids ?_ ?_ h
  · dsimp only
    split <;> rfl
  · dsimp only
    split <;> rfl

/-- A task that is put back has its number and its place (18:R282). -/
theorem putBack_ids {j : Nat} {v : Saved} {t : Task} (h : ∀ q ∈ s.net.accs, q.owner = t.gtid → q.joins = false) :
    ((s.putBack j v t).taskAt j).gtid = t.gtid ∧ ((s.putBack j v t).taskAt j).pc = t.pc := by
  have hnet : ((s.takeTokens j t).modPart t.part fun p => { p with saved := p.saved.filter fun x => x.gtid != v.gtid }).net = s.net := by
    obtain ⟨p, hp⟩ := takeTokens_eq (s := s) j t
    obtain ⟨x, hx⟩ := modPart_eq (s.takeTokens j t) t.part fun p => { p with saved := p.saved.filter fun x => x.gtid != v.gtid }
    rw [hx, hp]
  unfold putBack
  dsimp only
  rw [taskAt, giveCmds_slots]
  exact occupy_ids fun q hq => h q (by rw [← hnet]; exact hq)

/-- What an answered question leaves at its task. -/
theorem reply_done (hu : u.cald.asked = [a]) (ht : u.taskAt k = t) (hst : t.stepping = false) :
    let v := (u.answered a w).giveReply k { a with reply := some w } w
    (v.cald.asked = [] ∧ v.taskAt k = { ({ t with run := .resident }.writeS v.cycle a.dst w 1) with
      pc := t.pc + BitVec.ofNat 64 a.len, fpend := false, fmtword := 0, skipBreak := false }) ∧ v.mem = u.mem ∧ ∀ p, v.stepq? p = u.stepq? p := by
  intro v
  have hv := giveReply_done (s := u.answered a w) (k := k) (a := { a with reply := some w }) (w := w) (by rw [← ht] at hst; exact hst)
  have hasked : (u.answered a w).cald.asked = [{ a with reply := some w }] := by
    rw [answered, hu]
    simp
  subst ht
  refine ⟨⟨?_, ?_⟩, ?_, fun p => ?_⟩
  · rw [show v = _ from hv, hasked]
    simp
  · rw [show v = _ from hv]
    exact congrArg (fun o : Option Task => o.getD {}) (mapGet_mapSet_self _ _ _)
  · rw [show v = _ from hv]
    rfl
  · rw [show v = _ from hv]
    rfl

end State

/-- Settles O35: what each reply of Caldera does. -/
theorem calderaReplies : Obligations.CalderaReplies := by
  intro s k a t ha hk ht hg hst hp hpg done
  have htask : s.taskAt k = t := by rw [State.taskAt, ht]; rfl
  have hpw : s.pageWaits a = false := by rw [State.pageWaits, hpg]; rfl
  have hdone {w : Word} {u : State} (hr : a.reply = none) (hs : s.askStep a = .reply w u) (h1 : u.slots = s.slots) (h2 : u.cald.asked = s.cald.asked) :
      ∃ v, exec (.calderaReply k) s = .next v ∧ done w v ∧ ∀ p, v.stepq? p = u.stepq? p := by
    obtain ⟨h3, -, h4⟩ := State.reply_done (u := u) (k := k) (w := w) (h2.trans ha) (t := t) (by rw [State.taskAt, h1]; exact htask) hst
    exact ⟨_, congrArg Host.Outcome.next (State.replyAt_asked ha hk ht hg hr hs), h3, h4⟩
  refine ⟨fun w hr => ?_, fun hr x hx => ⟨fun hq => ?_, fun pa n hq hu hpage hn => ?_, fun mask base why hq hu hstep => ?_,
    fun n hq hsched hring => ?_⟩, fun hr slot va j x hq hslot hj hgang w n hsave => ?_, fun hr slot va j b x y r hq hslot hj hker hste hlos himg hchk hjoin => ?_⟩
  · have hv := State.giveReply_done (s := s) (k := k) (a := a) (w := w) (by rw [htask]; exact hst)
    refine ⟨_, congrArg Host.Outcome.next (State.replyAt_stored ha hk ht hg hr), ⟨?_, ?_⟩, ?_⟩
    · rw [hv, ha]
      simp
    · rw [hv, htask]
      exact congrArg (fun o : Option Task => o.getD {}) (mapGet_mapSet_self _ _ _)
    · rw [hv]
  · have hx' : s.stepq? a.part = some x := by rw [hp]; exact hx
    have hs : s.askStep a = s.poolTakeStep a := by rw [State.askStep, hpw, hq]; rfl
    rw [State.poolTakeStep, hx'] at hs
    dsimp only at hs
    split
    · next hfull =>
      rw [if_pos (by rw [StepQ.freePages]; omega)] at hs
      obtain ⟨v, h1, h2, -⟩ := hdone hr hs rfl rfl
      exact ⟨v, h1, h2⟩
    · next hfull =>
      have hfree : x.freePages ≠ 0 := by rw [StepQ.freePages]; omega
      let m := x.nthFree ((Config.freeWord s.freeCtr).toNat % x.freePages)
      rw [if_neg hfree, State.takePage] at hs
      obtain ⟨p1, p2, p3⟩ := State.putStepq_frame (s := s.tick) { x with used := insNat x.used m } hx'
      obtain ⟨v, h1, h2, h3⟩ := hdone hr hs p1 p2
      have hlt : (Config.freeWord s.freeCtr).toNat % x.freePages < x.freePages := Nat.mod_lt _ (by omega)
      refine ⟨v, m, h1, h2, by rw [h3, ← hp]; exact p3, fun hpw hlen => ?_⟩
      obtain ⟨g1, g2, g3, -⟩ := State.nthFree_free x.used ((Config.freeWord s.freeCtr).toNat % x.freePages) hpw
      refine ⟨g1, Nat.lt_of_le_of_lt g3 ?_⟩
      rw [StepQ.freePages] at hlt ⊢
      omega
  · have hx' : s.stepq? a.part = some x := by rw [hp]; exact hx
    have hs : s.askStep a = .reply 0 (s.putStepq a.part { x with used := x.used.filter (· != n) }) := by
      rw [State.askStep, hpw, hq]
      dsimp only
      rw [if_neg Bool.false_ne_true, State.poolGiveStep, ← hg, hu, if_neg Bool.false_ne_true, State.givable, hx', Option.bind_some, hpage, Option.filter_some, if_pos (by simpa using hn)]
    obtain ⟨p1, p2, p3⟩ := State.putStepq_frame (s := s) { x with used := x.used.filter (· != n) } hx'
    obtain ⟨v, h1, h2, h3⟩ := hdone hr hs p1 p2
    exact ⟨v, h1, h2, by rw [h3, ← hp]; exact p3⟩
  · intro named live hroom
    have hx' : s.stepq? a.part = some x := by rw [hp]; exact hx
    have hasker : s.asker a (·.step.isSome) = true := State.asker_of ht hg hstep
    have hnamed : ((setBits mask.toNat 64).map (base.toNat + ·)).filter (· < 1024) = named := by
      refine congrArg (fun l : List Nat => (l.map (base.toNat + ·)).filter (· < 1024)) (List.filter_congr fun i _ => ?_)
      rw [BitVec.getLsbD, Nat.testBit_eq_decide_div_mod_eq]
      rfl
    have hs : s.askStep a = .reply (State.stepWord (ofBool (named.length - live.length ≠ 0)) (named.length - live.length) live.length)
        (live.foldl (fun s i => s.retireSeq a.part why.toNat i) s) := by
      rw [State.askStep, hpw, hq]
      dsimp only
      rw [if_neg Bool.false_ne_true, State.seqretStep, ← hg, hu, if_neg Bool.false_ne_true, hx', hasker]
      dsimp only
      rw [hnamed]
      exact if_neg (Nat.not_lt.2 (by rw [hp]; exact hroom))
    obtain ⟨p1, p2, y, p3, p4, p5⟩ := State.retireAll_frame (part := a.part) (why := why.toNat) live hx' fun i hi => by
      have := (List.mem_filter.1 hi).2
      simp only [Bool.and_eq_true] at this
      exact this.1
    obtain ⟨v, h1, h2, h3⟩ := hdone hr hs p1 p2
    have hle : live.length ≤ named.length := List.length_filter_le _ _
    have hn64 : named.length ≤ 64 := by
      refine (List.length_filter_le _ _).trans ?_
      rw [List.length_map]
      exact (List.length_filter_le _ _).trans (by simp)
    have hcode : ofBool (decide (named.length - live.length ≠ 0)) = if live.length < named.length then 1 else 0 := by
      by_cases hlt : live.length < named.length
      · rw [if_pos hlt, decide_eq_true (by omega)]; rfl
      · rw [if_neg hlt, decide_eq_false (by omega)]; rfl
    have h8 : (if live.length < named.length then 1 else 0) < 2 ^ 8 := by split <;> decide
    have ha16 : named.length - live.length < 2 ^ 16 := Nat.lt_of_le_of_lt ((Nat.sub_le _ _).trans hn64) (by decide)
    have hl16 : live.length < 2 ^ 16 := Nat.lt_of_le_of_lt (hle.trans hn64) (by decide)
    rw [hcode, State.stepWord_eq h8 ha16 hl16] at h2
    exact ⟨v, y, h1, h2, by rw [h3, ← hp]; exact p3, p4, p5⟩
  · have hx' : s.stepq? a.part = some x := by rw [hp]; exact hx
    have hasker : s.asker a (·.sched) = true := State.asker_of ht hg hsched
    have hloop : s.admitLoop a.part n.toNat 0 (State.ringSize x.adm + 1) = some (0, 0, s) := State.admitLoop_none hx' (by rw [hp]; exact hring)
    have hs : s.askStep a = .reply 0 s := by
      rw [State.askStep, hpw, hq]
      dsimp only
      rw [if_neg Bool.false_ne_true, State.seqadmStep, hx', hasker]
      dsimp only
      rw [if_neg (by simp), hloop]
      rfl
    obtain ⟨v, h1, h2, -⟩ := hdone hr hs rfl rfl
    exact ⟨v, h1, h2⟩
  · have hkj : j ≠ k := State.namedSlot_other hslot hk
    have hs : s.askStep a = .reply (State.ctxWord 0 n) w := by
      rw [State.askStep, hpw, hq]
      dsimp only
      rw [if_neg Bool.false_ne_true, State.ctxsaveStep, hslot]
      dsimp only
      rw [hj]
      dsimp only
      rw [hgang, hsave]
      rfl
    have hfree : mapGet w.slots j = none := State.saveSlot_frees hsave
    obtain ⟨h1, h2, h3⟩ := State.giveReply_frame (s := w.answered a (State.ctxWord 0 n)) (k := k) (a := { a with reply := some (State.ctxWord 0 n) }) (w := State.ctxWord 0 n)
    refine ⟨_, congrArg Host.Outcome.next (State.replyAt_asked ha hk ht hg hr hs), (h1 j hkj).trans hfree, ?_, h2⟩
    rw [h3, State.ctxWord_ok]
  · have hkj : j ≠ k := State.namedSlot_other hslot hk
    obtain ⟨p, hpart, hlose⟩ := Option.map_eq_some_iff.1 hlos
    obtain ⟨m, rfl⟩ := State.portSlotImage_mmu himg
    have hs : s.askStep a = .reply (State.ctxWord 0 b.length) (State.putBack { s with mmu := m } j x y) := by
      rw [State.askStep, hpw, hq]
      dsimp only
      rw [if_neg Bool.false_ne_true, State.ctxrestStep, hslot, hp, hpart]
      dsimp only
      have hnorest (u : State) (f : Asked → Word → Nat → Bool) (hu : u.cald.asked = [a]) : u.earlierRest a f = false := by
        rw [State.earlierRest, hu, List.takeWhile_cons_of_neg (by simp), List.any_nil]
      rw [show State.losing p (coreOf j) = false from hlose, hnorest s _ ha, if_neg (by simp), hk, himg]
      dsimp only
      rw [hchk, hnorest { s with mmu := m } _ ha, hj, show State.kernelIn { s with mmu := m } j = false from hker,
        show State.stealTo { s with mmu := m } j = false from hste]
      exact if_neg (by simp)
    obtain ⟨h1, h2, -⟩ := State.giveReply_frame (s := (State.putBack { s with mmu := m } j x y).answered a (State.ctxWord 0 b.length)) (k := k)
      (a := { a with reply := some (State.ctxWord 0 b.length) }) (w := State.ctxWord 0 b.length)
    have hids := State.putBack_ids (s := { s with mmu := m }) (j := j) (v := x) hjoin
    have htj := congrArg (fun o : Option Task => o.getD {}) (h1 j hkj)
    exact ⟨_, congrArg Host.Outcome.next (State.replyAt_asked ha hk ht hg hr hs), (congrArg Task.gtid htj).trans hids.1, (congrArg Task.pc htj).trans hids.2, h2⟩

end Sys2Proof.Machine
end

section
/-! PROOFS. The device's side of an SPDM exchange (23:R350, R351, 27:R375). -/

namespace Sys2Proof.Machine

namespace State

variable {s u : State} {n : Nat}

/-! ### Signature indices (23:R351) -/

theorem nextLms_eq : (∃ i m, s.nextLms = (some i, { s with mgmt := m }) ∧ m.lmsNext = i + 1 ∧ (s.mgmt.lmsNext ≤ i ∨ s.mgmt.lmsEnd ≤ s.mgmt.lmsNext))
    ∨ (s.nextLms = (none, s) ∧ 2 ^ 40 < s.mgmt.lmsEnd + 1024) := by
  unfold nextLms
  dsimp only
  split
  · exact .inl ⟨_, _, rfl, rfl, .inl (Nat.le_refl _)⟩
  · next h =>
    split
    · exact .inl ⟨_, _, rfl, rfl, .inr (Nat.le_of_not_lt h)⟩
    · next h' => exact .inr ⟨rfl, by omega⟩

theorem nextLms_sessions (s : State) (y : Map Session) : (State.nextLms { s with sessions := y }).1 = s.nextLms.1 := by
  unfold nextLms
  dsimp only
  split
  · rfl
  · split <;> rfl

theorem length_beBytes (k x : Nat) : (Crypto.beBytes k x).length = k := by
  rw [Crypto.beBytes, List.length_reverse, length_leBytes]

/-! ### Phases (23:R350) -/

theorem spdm_phase {ok : SpdmPhase → Bool} {next : SpdmPhase} {f : State → State} {x : Session} (h : mapGet s.sessions n = some x) :
    s.spdm n ok next f = if ok x.phase then f { s with sessions := mapSet s.sessions n { x with phase := next } } else s.reply n 0x7F 4 [] := by
  rw [spdm, session?, h]

/-- A phase that only answers (23:R350). -/
theorem spdm_answers {ok : SpdmPhase → Bool} {next : SpdmPhase} {x : Session} {code : Nat} {o : Out} (h : mapGet s.sessions n = some x) (hok : ok x.phase = true)
    (ho : o = .next (s.spdm n ok next fun s => s.reply n code 0 [])) : ∃ u r, o = .next u ∧ mapGet u.sessions n = some { x with phase := next }
      ∧ u.replies = s.replies ++ [r] ∧ r.session = n ∧ r.status = 0 ∧ u = { s with sessions := u.sessions, replies := u.replies } := by
  rw [spdm_phase h, if_pos hok] at ho
  exact ⟨_, _, ho, mapGet_mapSet_self _ _ _, rfl, rfl, rfl, rfl⟩

/-- A phase whose answer carries both signatures, or fails without an index (23:R351). -/
theorem spdm_signs {ok : SpdmPhase → Bool} {next : SpdmPhase} {x : Session} {code : Nat} {m : State → List Byte} {o : Out} (h : mapGet s.sessions n = some x)
    (hok : ok x.phase = true) (ho : o = .next (s.spdm n ok next fun s => s.signedReply n code (m s))) :
    ∃ u, o = .next u ∧ mapGet u.sessions n = some { x with phase := next } ∧ match (s.nextLms).1 with
        | none => u.replies = s.replies ++ [{ session := n, code := 0x7F, status := 3 }]
        | some i => ∃ a b, u.replies = s.replies ++ [a, b] ∧ a.status = 0 ∧ b.status = 0 ∧ u.mgmt.lmsNext = i + 1 ∧ ∃ m, b.data = Config.lmsSign i m := by
  rw [spdm_phase h, if_pos hok] at ho
  refine ⟨_, ho, ?_⟩
  rw [← nextLms_sessions s (mapSet s.sessions n { x with phase := next }), signedReply]
  rcases nextLms_eq (s := { s with sessions := mapSet s.sessions n { x with phase := next } }) with ⟨i, g, h1, h2, -⟩ | ⟨h1, -⟩
  · rw [h1]
    exact ⟨mapGet_mapSet_self _ _ _, _, _, List.append_assoc _ _ _, rfl, rfl, h2, _, rfl⟩
  · rw [h1]
    exact ⟨mapGet_mapSet_self _ _ _, rfl⟩

/-- The certificates carry both signatures, or fail without an index (23:R351). -/
theorem getCertificate_answers {x : Session} (h : mapGet s.sessions n = some x) (hp : x.phase = .algorithms) :
    ∃ u, exec (.getCertificate n) s = .next u ∧ mapGet u.sessions n = some { x with phase := .certificate } ∧ match (s.nextLms).1 with
        | none => u.replies = s.replies ++ [{ session := n, code := 0x7F, status := 3 }]
        | some i => ∃ a e, u.replies = s.replies ++ [a] ∧ a.status = 0 ∧ u.mgmt.lmsNext = i + 1
          ∧ a.data = Config.certificates ++ e ++ leBytes 4 (Config.lmsSign i Config.certificates).length ++ Config.lmsSign i Config.certificates ∧ e.length = 96 := by
  refine ⟨_, congrArg Host.Outcome.next (spdm_phase h), ?_⟩
  rw [if_pos (by rw [hp]; rfl), ← nextLms_sessions s (mapSet s.sessions n { x with phase := .certificate })]
  rcases nextLms_eq (s := { s with sessions := mapSet s.sessions n { x with phase := .certificate } }) with ⟨i, g, h1, h2, -⟩ | ⟨h1, -⟩
  · rw [signed, h1]
    refine ⟨mapGet_mapSet_self _ _ _, _, Crypto.beBytes 96 (Config.ecdsaSign Config.certificates).toNat, rfl, rfl, h2, ?_, length_beBytes _ _⟩
    simp only [List.append_assoc]
  · rw [h1]
    exact ⟨mapGet_mapSet_self _ _ _, rfl⟩

/-! ### A session that begins again leaves nothing attached (23:R350, 27:R375) -/

/-- The debug session of a partition. -/
def attachedTo (s : State) (k : Nat) : Option (Option Nat) := (s.partOf? k).map (·.dbg.session)

theorem partOf_modPart (k j : Nat) (f : Partition → Partition) : (s.modPart k f).partOf? j = if j = k then (s.partOf? j).map f else s.partOf? j := by
  unfold modPart
  rw [partOf?]
  split
  · next h =>
    split
    · next hj => rw [partOf?, hj, h]; rfl
    · rfl
  · next x h =>
    split
    · next hj => rw [partOf?, hj, h]; exact mapGet_mapSet_self _ _ _
    · next hj => exact mapGet_mapSet_ne _ hj _

theorem attachedTo_goTask (g : Word) (b : Bool) (j : Nat) : (s.goTask g b).attachedTo j = s.attachedTo j ∧ (s.goTask g b).replies = s.replies := by
  obtain ⟨c, hc⟩ := goTask_eq (s := s) g b
  rw [hc]
  refine ⟨?_, rfl⟩
  have hm := mapGet_map (fun p : Partition => { p with saved := p.saved.map fun (v : Saved) => { v with task := if v.task.gtid == g then s.letGo b v.task else v.task } }) j s.parts
  exact (congrArg (Option.map fun p : Partition => p.dbg.session) hm).trans (Option.map_map _ _ _)

/-- The tasks that a debugger stopped are let go (27:R377). -/
theorem attachedTo_goAll {c : State → Word → Bool} (j : Nat) (l : List Word) :
    ∀ s : State, (l.foldl (fun s g => if c s g then s.goTask g false else s) s).attachedTo j = s.attachedTo j
      ∧ (l.foldl (fun s g => if c s g then s.goTask g false else s) s).replies = s.replies := by
  induction l with
  | nil => exact fun s => ⟨rfl, rfl⟩
  | cons g l ih =>
    intro s
    obtain ⟨h1, h2⟩ := ih (if c s g then s.goTask g false else s)
    rw [List.foldl_cons, h1, h2]
    split
    · exact attachedTo_goTask g false j
    · exact ⟨rfl, rfl⟩

theorem attachedTo_unhold (k j : Nat) : (s.unhold k).attachedTo j = s.attachedTo j ∧ (s.unhold k).replies = s.replies := by
  have hcores {f : Core → Core} (l : List Nat) : ∀ s : State, (l.foldl (fun s c => s.modCore c f) s).attachedTo j = s.attachedTo j
      ∧ (l.foldl (fun s c => s.modCore c f) s).replies = s.replies := by
    induction l with
    | nil => exact fun _ => ⟨rfl, rfl⟩
    | cons c l ih => exact fun s => ih (s.modCore c f)
  unfold unhold
  split
  · exact ⟨rfl, rfl⟩
  · exact hcores _ _

theorem detach_attached (k j : Nat) : (s.detach k).attachedTo j = (if j = k then (s.attachedTo j).map fun _ => none else s.attachedTo j) ∧ (s.detach k).replies = s.replies := by
  unfold detach
  split
  · next h =>
    refine ⟨?_, rfl⟩
    split
    · next hj => rw [attachedTo, hj, h]; rfl
    · rfl
  · next p h =>
    dsimp only
    generalize hz : (s.modPart k fun q => { q with saved := q.saved.map fun (v : Saved) => if q.dbg.stops.contains v.gtid then { v with go := true } else v }) = z
    have hza : z.attachedTo j = s.attachedTo j ∧ z.replies = s.replies := by
      rw [← hz]
      refine ⟨?_, modPart_replies _ _ _⟩
      rw [attachedTo, partOf_modPart]
      split
      · rw [Option.map_map]; rfl
      · rfl
    obtain ⟨h1, h2⟩ := attachedTo_goAll (c := fun s g => (s.allTasks k).any fun t => t.gtid == g && t.stopped) j p.dbg.stops z
    generalize List.foldl _ z p.dbg.stops = y at h1 h2 ⊢
    obtain ⟨h3, h4⟩ := attachedTo_unhold (s := State.modDbg { y with dbg := { y.dbg with stops := y.dbg.stops.filter fun x => !p.dbg.stops.contains x.2.gtid } } k
      fun d => { d with session := none, records := [], stops := [] }) k j
    refine ⟨h3.trans ?_, h4.trans ((modPart_replies _ _ _).trans (h2.trans hza.2))⟩
    rw [attachedTo, modDbg, partOf_modPart]
    rw [← hza.1, ← h1]
    split
    · rw [Option.map_map, attachedTo, Option.map_map]; rfl
    · rfl

/-- What is left of the sessions of the partitions that are detached. -/
theorem detachList_attached (j : Nat) : ∀ (l : List (Nat × Partition)) (s : State), (l.foldl (fun s e => s.detach e.1) s).replies = s.replies
    ∧ ((l.foldl (fun s e => s.detach e.1) s).attachedTo j = if (∃ e ∈ l, e.1 = j) then (s.attachedTo j).map fun _ => none else s.attachedTo j)
  | [], s => ⟨rfl, by simp⟩
  | e :: l, s => by
    obtain ⟨h1, h2⟩ := detachList_attached j l (s.detach e.1)
    obtain ⟨h3, h4⟩ := detach_attached (s := s) e.1 j
    refine ⟨h1.trans h4, ?_⟩
    rw [List.foldl_cons, h2, h3]
    have hex : (∃ x ∈ e :: l, x.1 = j) ↔ j = e.1 ∨ ∃ x ∈ l, x.1 = j := by rw [List.exists_mem_cons_iff, eq_comm]
    simp only [hex]
    by_cases hl : ∃ x ∈ l, x.1 = j
    · by_cases he : j = e.1
      · rw [if_pos hl, if_pos he, if_pos (Or.inl he), Option.map_map]; rfl
      · rw [if_pos hl, if_neg he, if_pos (Or.inr hl)]
    · by_cases he : j = e.1
      · rw [if_neg hl, if_pos he, if_pos (Or.inl he)]
      · rw [if_neg hl, if_neg he, if_neg (not_or.2 ⟨he, hl⟩)]

theorem mem_of_mapGet {α : Type} {k : Nat} {v : α} : ∀ {m : Map α}, mapGet m k = some v → (k, v) ∈ m
  | [], h => by cases h
  | (x, a) :: r, h => by
    rw [mapGet] at h
    split at h
    · next hx => cases h; rw [hx]; exact List.mem_cons_self
    · exact List.mem_cons_of_mem _ (mem_of_mapGet h)

theorem detachAll_attached (k : Nat) : (∀ p, (s.detachAll n).partOf? k = some p → p.dbg.session ≠ some n) ∧ (s.detachAll n).replies = s.replies := by
  obtain ⟨h1, h2⟩ := detachList_attached k (s.parts.filter fun e => e.2.dbg.session == some n) s
  refine ⟨fun p hp hn => ?_, h1⟩
  have ha : (s.detachAll n).attachedTo k = some (some n) := by rw [attachedTo, hp, Option.map_some, hn]
  rw [detachAll] at ha
  rw [h2] at ha
  split at ha
  · cases hs : s.attachedTo k with
    | none => rw [hs] at ha; cases ha
    | some o => rw [hs] at ha; cases ha
  · next hno =>
    obtain ⟨x, hx, hxn⟩ := Option.map_eq_some_iff.1 ha
    exact hno ⟨(k, x), List.mem_filter.2 ⟨mem_of_mapGet hx, by simp [hxn]⟩, rfl⟩

end State

/-- Settles O53: the phases of an exchange, and what each request answers. -/
theorem attestationSessions : Obligations.AttestationSessions := by
  refine ⟨fun s n => ?_, fun s n x h => ⟨fun e he hp => ?_, fun hp => ?_, fun e he hp => ?_, fun e he hp => ?_, fun h1 h2 => ?_, fun w psk => ?_⟩, fun s => ?_⟩
  · obtain ⟨h1, h2⟩ := And.intro (fun k => (State.detachAll_attached (s := s) (n := n) k).1) (State.detachAll_attached (s := s) (n := n) 0).2
    refine ⟨_, _, rfl, mapGet_mapSet_self _ _ _, congrArg (· ++ _) h2, rfl, h1, fun hno => ?_⟩
    rw [State.detachAll, List.filter_eq_nil_iff.2 fun e he => by simpa using hno e he]
    rfl
  · simp only [List.mem_cons, List.not_mem_nil, or_false] at he
    rcases he with rfl | rfl | rfl | rfl | rfl
    · exact State.spdm_answers h (by rw [hp]; rfl) rfl
    · exact State.spdm_answers h (by rw [hp]; rfl) rfl
    · exact State.spdm_answers h (by rw [hp]; rfl) rfl
    · exact State.spdm_answers h (by rw [hp]; rfl) rfl
    · exact State.spdm_answers h (by rw [hp]; rfl) rfl
  · exact State.getCertificate_answers h hp
  · simp only [List.mem_cons, List.not_mem_nil, or_false] at he
    rcases he with rfl | rfl
    · exact State.spdm_signs h (by rw [hp]; rfl) rfl
    · exact State.spdm_signs h (by rw [hp]; rfl) rfl
  · have href {ok : SpdmPhase → Bool} {next : SpdmPhase} {f : State → State} (hf : ok x.phase = false) : s.spdm n ok next f = s.reply n 0x7F 4 [] := by
      rw [State.spdm_phase h, hf, if_neg Bool.false_ne_true]
    have hb {p : SpdmPhase} (hne : x.phase ≠ p) : (x.phase == p) = false := beq_eq_false_iff_ne.2 hne
    simp only [List.mem_cons, List.not_mem_nil, or_false] at he
    rcases he with rfl | rfl | rfl | rfl | rfl | rfl
    all_goals exact congrArg Host.Outcome.next (href (hb hp))
  · refine congrArg Host.Outcome.next ((State.spdm_phase h).trans (if_neg ?_))
    simp [h1, h2]
  · refine congrArg Host.Outcome.next ?_
    rw [State.session?, h]
    dsimp only
    by_cases hc : x.phase = .algorithms ∧ (∃ y ∈ s.worlds, y.id = w) ∧ psk = s.worldKey w "dbg"
    · rw [if_pos hc, if_neg ?_]
      obtain ⟨h1, ⟨y, hy, hyw⟩, h3⟩ := hc
      have hany : (s.worlds.any fun z : World => z.id == w) = true := List.any_eq_true.2 ⟨y, hy, by simp [hyw]⟩
      rw [h1, hany, h3]
      simp
    · rw [if_neg hc, if_pos ?_]
      by_contra hno
      refine hc ?_
      simpa [List.any_eq_true, and_assoc] using hno
  · rcases State.nextLms_eq (s := s) with ⟨i, m, h1, -, h3⟩ | ⟨h1, h2⟩
    · rw [h1]; exact h3
    · rw [h1]; exact h2

end Sys2Proof.Machine
end

section
/-! PROOFS. Walks of a partition's tables (19:R294, R295, R297). -/

namespace Sys2Proof.Machine

theorem bitField (e k : Nat) : (field e k 1 == 1) = e.testBit k := by
  rw [field, Nat.testBit_eq_decide_div_mod_eq, Nat.pow_one]
  rfl

namespace State

variable {s : State}

/-- A table entry that a walk may read (19:R294). -/
theorem tableBad_ok {part ea : Nat} {p : Partition} (hp : s.partOf? part = some p) (h : ea < mainBytes ∧ s.granuleWorld ea = p.world ∧ s.sealedOff ea = false ∧ s.poisoned ea = false) :
    s.tableBad part ea = false := by
  obtain ⟨h1, h2, h3, h4⟩ := h
  rw [tableBad, h2, h3, h4, worldOfPart, hp]
  simp [Nat.not_le.2 h1]

/-- An entry that names the next table (19:R295). -/
theorem pteBad_node {e lvl : Nat} (h : e.testBit 63 = true ∧ e / 2 ^ 61 % 4 = 0 ∧ e.testBit 57 = false ∧ e / 2 ^ 55 % 4 ≠ 3 ∧ e / 2 ^ 50 % 32 = 0) :
    pteBad (pteOf e) (lvl + 1) = false ∧ (pteOf e).v = true ∧ (pteOf e).leaf = false := by
  obtain ⟨h1, h2, h3, h4, h5⟩ := h
  have hv : (pteOf e).v = true := (bitField e 63).trans h1
  have hl : (pteOf e).leaf = false := (bitField e 57).trans h3
  have hk : (pteOf e).kind = 0 := h2
  have hr : (pteOf e).resv = 0 := h5
  have hm : ((pteOf e).mig == 3) = false := beq_eq_false_iff_ne.2 h4
  refine ⟨?_, hv, hl⟩
  rw [pteBad, hl, hk, hr, hm]
  simp

/-- A walk goes down a table (19:R294). -/
theorem walkFrom_down {part va acc pa lvl : Nat} (hb : s.tableBad part (pteAddr pa (lvl + 1) va) = false)
    (he : pteBad (pteOf (s.loadNat (pteAddr pa (lvl + 1) va) 8)) (lvl + 1) = false ∧ (pteOf (s.loadNat (pteAddr pa (lvl + 1) va) 8)).v = true
      ∧ (pteOf (s.loadNat (pteAddr pa (lvl + 1) va) 8)).leaf = false) :
    s.walkFrom part va acc pa (lvl + 1) = s.walkFrom part va acc (pteOf (s.loadNat (pteAddr pa (lvl + 1) va) 8)).pa lvl := by
  obtain ⟨h1, h2, h3⟩ := he
  rw [walkFrom, hb]
  dsimp only
  rw [h1, h2, h3]
  rfl

/-- A walk that meets an entry that is not valid (19:R295). -/
theorem walkFrom_unmapped {part va acc pa lvl : Nat} (hb : s.tableBad part (pteAddr pa (lvl + 1) va) = false)
    (he : (pteOf (s.loadNat (pteAddr pa (lvl + 1) va) 8)).v = false) : s.walkFrom part va acc pa (lvl + 1) = .fault cPAGE_UNMAPPED := by
  rw [walkFrom, hb]
  dsimp only
  rw [he]
  rfl

/-- The TLB entry of a 4 KiB page (19:R297). -/
def pageEntry (s : State) (part va lease : Nat) (e : Pte) : TlbEntry :=
  { part := part, vbase := va / 4096 * 4096, size := 4096, pbase := e.pa, kind := e.kind, r := e.r, w := e.w, a := e.a, mig := e.mig, expiry := s.cycle + lease * 1700 }

/-- A walk ends at a page's entry (19:R295). -/
theorem walkFrom_leaf {part va acc pa : Nat} {p : Partition} (hp : s.partOf? part = some p) (hb : s.tableBad part (pteAddr pa 0 va) = false)
    {e : Nat} (he : s.loadNat (pteAddr pa 0 va) 8 = e) (h63 : e.testBit 63 = true) (h57 : e.testBit 57 = true) (hk : e / 2 ^ 61 % 4 ≠ 3) (hm : e / 2 ^ 55 % 4 = 0)
    (hr : e / 2 ^ 50 % 32 = 0) (hacc : (acc = 1 ∧ e.testBit 60 = true) ∨ (acc = 2 ∧ e.testBit 59 = true) ∨ (acc = 4 ∧ e.testBit 58 = true))
    (hpa : e / 2 ^ 12 % 2 ^ 38 * 2 ^ 12 < mainBytes) : s.walkFrom part va acc pa 0 = .entry (s.pageEntry part va p.lease (pteOf e)) := by
  have hv : (pteOf e).v = true := (bitField e 63).trans h63
  have hl : (pteOf e).leaf = true := (bitField e 57).trans h57
  have hm' : (pteOf e).mig = 0 := hm
  have hr' : (pteOf e).resv = 0 := hr
  have hpa' : (pteOf e).pa < mainBytes := hpa
  have hmod : (pteOf e).pa % 4096 = 0 := Nat.mul_mod_left _ _
  have hbad : pteBad (pteOf e) 0 = false := by
    rw [pteBad, hl, hm', hr']
    simp [hmod]
  have hallow : pageAllows (pteOf e).r (pteOf e).w (pteOf e).a acc = true := by
    rcases hacc with ⟨rfl, h⟩ | ⟨rfl, h⟩ | ⟨rfl, h⟩
    · rw [pageAllows, show (pteOf e).r = true from (bitField e 60).trans h]; rfl
    · rw [pageAllows, show (pteOf e).w = true from (bitField e 59).trans h]; rfl
    · rw [pageAllows, show (pteOf e).a = true from (bitField e 58).trans h]; rfl
  have hwin : inWindow (pteOf e).pa = false := by
    rw [inWindow, beq_eq_false_iff_ne]
    rw [mainBytes] at hpa'
    omega
  have hphys : physOf (pteOf e).pa = (pteOf e).pa := by
    refine if_neg fun h => ?_
    rw [inHostWindow, beq_iff_eq] at h
    rw [mainBytes] at hpa'
    omega
  rw [walkFrom, hb, he]
  dsimp only
  rw [hv, hbad, leafOut, if_neg (show (pteOf e).kind ≠ 3 from hk), hallow, hm', hwin, hphys, hp, if_neg Bool.false_ne_true, if_neg (by simp), if_neg Bool.false_ne_true, if_neg (by simp), if_neg (by simp),
    if_neg (by simp), pageEntry, hm']
  rfl

/-! ### The TLBs (19:R297) -/

theorem mem_tlbPut (l : List TlbEntry) (e : TlbEntry) : e ∈ tlbPut l e := by
  unfold tlbPut
  dsimp only
  rw [List.drop_append_of_le_length (by omega)]
  exact List.mem_append_right _ List.mem_cons_self

theorem mem_tlbPut8 (l : List TlbEntry) (e : TlbEntry) : e ∈ tlbPut8 l e := by
  unfold tlbPut8
  exact List.mem_append_right _ List.mem_cons_self

theorem tlbInstall_holds (core : Nat) (e : TlbEntry) : e ∈ (mapGet (s.tlbInstall core e).mmu.tlb1 (clusterOf core)).getD []
    ∧ e ∈ (mapGet (s.tlbInstall core e).mmu.tlb2 (dieOf core)).getD [] := by
  rw [tlbInstall]
  dsimp only
  rw [mapMod, mapGet_mapSet_self, mapMod, mapGet_mapSet_self, Option.getD_some, Option.getD_some]
  exact ⟨mem_tlbPut _ _, mem_tlbPut8 _ _⟩

end State

/-- Settles O41: a walk installs its page's entry, or raises the fault of an invalid one. -/
theorem pageWalks : Obligations.PageWalks := by
  intro s w l p hw hp hg hpriv hsup hsince entry ok next node a3 e3 a2 e2 a1 e1 a0 e0 h3
  let z : State := { s with mmu := { s.mmu with walks := l } }
  have hx : exec (.pageWalk 0) s = .next (z.pageWalkDone w) := by
    refine congrArg Host.Outcome.next ?_
    rw [hw]
    exact if_neg (Nat.not_lt.2 hsince)
  have hpz : z.partOf? w.part = some p := hp
  have hroot : z.walk w.part w.va w.acc = z.walkFrom w.part w.va w.acc p.ptroot 3 := by
    rw [State.walk, hpz]
    rfl
  have hdone : z.pageWalkDone w = match z.walkSeen w.part w.va w.acc with
      | .entry e => z.tlbInstall (w.cluster * 8) e
      | .fault c => z.walkFaults w c
      | .directory => (z.parkPage w.key w.va w.acc).dirAttach w.part w.va ⟨w.gtid, w.acc, some w.seg, none, w.va⟩ := by
    rw [State.pageWalkDone]
    have hguard : ((z.taskAt w.key).gtid != w.gtid || ((z.taskAt w.key).priv != .task) != w.sup) = false := by
      rw [show z.taskAt w.key = s.taskAt w.key from rfl, hg, hpriv, hsup]
      simp
    rw [hguard, if_neg Bool.false_ne_true, hsup]
    rfl
  rw [hdone] at hx
  refine ⟨fun hn3 h2 hn2 h1 hn1 h0 h63 h57 hk hm hr hacc hpa => ?_, fun hv hmov hring => ?_⟩
  · have hwalk : z.walkSeen w.part w.va w.acc = .entry (z.pageEntry w.part w.va p.lease (State.pteOf e0)) := by
      have d3 : z.walkFrom w.part w.va w.acc p.ptroot 3 = z.walkFrom w.part w.va w.acc (next e3) 2 :=
        State.walkFrom_down (s := z) (lvl := 2) (State.tableBad_ok hpz h3) (State.pteBad_node hn3)
      have d2 : z.walkFrom w.part w.va w.acc (next e3) 2 = z.walkFrom w.part w.va w.acc (next e2) 1 :=
        State.walkFrom_down (s := z) (lvl := 1) (State.tableBad_ok hpz h2) (State.pteBad_node hn2)
      have d1 : z.walkFrom w.part w.va w.acc (next e2) 1 = z.walkFrom w.part w.va w.acc (next e1) 0 :=
        State.walkFrom_down (s := z) (lvl := 0) (State.tableBad_ok hpz h1) (State.pteBad_node hn1)
      have d0 : z.walkFrom w.part w.va w.acc (next e1) 0 = .entry (z.pageEntry w.part w.va p.lease (State.pteOf e0)) :=
        State.walkFrom_leaf (s := z) hpz (State.tableBad_ok hpz h0) rfl h63 h57 hk hm hr hacc hpa
      rw [State.walkSeen, hroot, d3, d2, d1, d0]
    rw [hwalk] at hx
    refine ⟨_, z.pageEntry w.part w.va p.lease (State.pteOf e0), hx, rfl, rfl, ?_, ?_, rfl, rfl, rfl, rfl, rfl, rfl⟩
    · have hm1 := (State.tlbInstall_holds (s := z) (w.cluster * 8) (z.pageEntry w.part w.va p.lease (State.pteOf e0))).1
      rwa [clusterOf, Nat.mul_div_cancel _ (by decide)] at hm1
    · exact (State.tlbInstall_holds (s := z) (w.cluster * 8) (z.pageEntry w.part w.va p.lease (State.pteOf e0))).2
  · have hwalk : z.walkSeen w.part w.va w.acc = .fault cPAGE_UNMAPPED := by
      have hv3 : (State.pteOf e3).v = false := (bitField e3 63).trans hv
      have d3 : z.walkFrom w.part w.va w.acc p.ptroot 3 = .fault cPAGE_UNMAPPED :=
        State.walkFrom_unmapped (s := z) (pa := p.ptroot) (lvl := 2) (State.tableBad_ok hpz h3) hv3
      rw [State.walkSeen, hroot, d3]
      dsimp only
      rw [show z.dirMoving w.part w.va = false from hmov, Bool.and_false, if_neg Bool.false_ne_true]
    rw [hwalk] at hx
    have hfault : z.walkFaults w cPAGE_UNMAPPED
        = (z.recordExt w.key w.gtid (if w.acc = 4 then 2 else w.acc - 1) w.va).addDue w.key (z.faultDue w.va (some w.seg) cPAGE_UNMAPPED w.acc) := by
      rw [State.walkFaults, hsup, if_neg Bool.false_ne_true, show ((z.recordExt w.key w.gtid (if w.acc = 4 then 2 else w.acc - 1) w.va).partOf? w.part) = some p from hp,
        Option.bind_some, hring]
      rfl
    dsimp only at hx
    rw [hfault] at hx
    refine ⟨_, z.faultDue w.va (some w.seg) cPAGE_UNMAPPED w.acc, hx, rfl, ?_, rfl, rfl, rfl⟩
    exact congrArg Task.due (State.taskAt_putTask_self (s := z.recordExt w.key w.gtid (if w.acc = 4 then 2 else w.acc - 1) w.va) w.key _)

end Sys2Proof.Machine
end

section
/-! PROOFS. Wakes, held releases and withdrawn leases (02:R36, R40, 07:R119, 13:R230, 19:R299). -/

namespace Sys2Proof.Machine

namespace State

variable {s u : State} {k row : Nat} {w : Wake}

/-! ### Wakes (02:R36, 05:R98) -/

theorem payTokens_unpaid (h : (s.taskAt k).owed = false ∨ s.tokensFor k (s.taskAt k) = false) : s.payTokens k = s := by
  rw [payTokens]
  refine if_neg ?_
  rcases h with h | h <;> simp [h]

theorem payTokens_paid (h1 : (s.taskAt k).owed = true) (h2 : s.tokensFor k (s.taskAt k) = true) :
    s.payTokens k = (s.takeTokens k (s.taskAt k)).putTask k { s.taskAt k with owed := false } := by
  rw [payTokens]
  exact if_pos (by rw [h1, h2]; rfl)

theorem wakeUp_resident (h : ((s.payTokens k).taskAt k).run = .resident) : s.wakeUp k = s.payTokens k := by
  rw [wakeUp]
  rw [h]

theorem wakeUp_parked (hr : (s.taskAt k).run = .parked row w) (ho : (s.taskAt k).owed = false) :
    s.wakeUp k = if (!(s.taskAt k).stopped && s.wakeReady k (s.taskAt k) w) = true
      then (s.putTask k ((s.taskAt k).woken s.cycle)).recordSched k 2 row (s.taskAt k).gtid else s := by
  rw [wakeUp]
  rw [payTokens_unpaid (.inl ho), hr]

theorem woken_frame (t : Task) (g : Word) : ((s.putTask k t).recordSched k 2 row g).taskAt k = t
    ∧ (∀ j, j ≠ k → ((s.putTask k t).recordSched k 2 row g).taskAt j = s.taskAt j)
    ∧ ((s.putTask k t).recordSched k 2 row g) = { s with slots := ((s.putTask k t).recordSched k 2 row g).slots, cores := ((s.putTask k t).recordSched k 2 row g).cores } :=
  ⟨taskAt_putTask_self _ k t, fun _ hj => taskAt_putTask_ne _ hj t, rfl⟩

/-! ### Releases (07:R119) -/

/-- A held release is performed once everything before it is (07:R119). -/
theorem heldPerform_first {h : Held} {l : List Held} (hs : s.net.helds = h :: l) (hl : ∀ x ∈ l, x.tag ≠ h.tag) (haway : s.heldAway h = false)
    (ha : ∀ a ∈ s.net.accs, a.owner = h.owner → h.tag ≤ a.tag) (hx : ∀ x ∈ l, x.owner = h.owner → h.tag ≤ x.tag) :
    s.heldPerform h.tag = State.heldDo { s with net := { s.net with helds := l } } h := by
  have hacq : (s.net.accs.any fun a => a.owner == h.owner && decide (a.tag < h.tag) && a.holdsLater) = false := by
    rw [List.any_eq_false]
    intro a ha' hc
    simp only [Bool.and_eq_true, beq_iff_eq, decide_eq_true_eq] at hc
    exact absurd (ha a ha' hc.1.1) (Nat.not_le.2 hc.1.2)
  have hun : s.unperformedBefore h.owner h.tag = false := by
    rw [unperformedBefore, Bool.or_eq_false_iff, List.any_eq_false, List.any_eq_false]
    refine ⟨fun a ha' hc => ?_, fun x hx' hc => ?_⟩
    · simp only [Bool.and_eq_true, beq_iff_eq, decide_eq_true_eq] at hc
      exact absurd (ha a ha' hc.1.1) (Nat.not_le.2 hc.1.2)
    · simp only [Bool.and_eq_true, beq_iff_eq, decide_eq_true_eq] at hc
      rw [hs, List.mem_cons] at hx'
      rcases hx' with rfl | hx'
      · exact Nat.lt_irrefl _ hc.2
      · exact absurd (hx x hx' hc.1) (Nat.not_le.2 hc.2)
  have hfind : s.net.helds.find? (·.tag == h.tag) = some h := by rw [hs, List.find?_cons_of_pos (by simp)]
  have hleft : s.net.helds.filter (·.tag != h.tag) = l := by
    rw [hs, List.filter_cons_of_neg (by simp), List.filter_eq_self.2 fun x hx => by simpa using hl x hx]
  rw [heldPerform, hfind]
  dsimp only
  rw [hacq, hun, haway, hleft]
  rfl

/-! ### Fault records (19:R302) -/

theorem writePieces_eq : ∀ (ps : List Piece) (bs : List Byte) (s : State), ∃ m v, s.writePieces ps bs = { s with mem := m, vtiles := v }
  | [], _, s => ⟨s.mem, s.vtiles, rfl⟩
  | p :: r, bs, s => by
    obtain ⟨v, hv, -⟩ := store_eq (s := s) p.addr (bs.take p.len)
    obtain ⟨m, x, hx⟩ := writePieces_eq r (bs.drop p.len) (s.store p.addr (bs.take p.len))
    exact ⟨m, x, by rw [writePieces, hx, hv]⟩

theorem writeVa_eq {part va : Nat} {bs : List Byte} (h : s.writeVa part va bs = some u) : ∃ m v, u = { s with mem := m, vtiles := v } := by
  rw [writeVa, vaWrite] at h
  cases hp : s.vaPieces part va 2 bs.length with
  | error e => rw [hp] at h; cases h
  | ok ps =>
    rw [hp] at h
    cases h
    exact writePieces_eq _ _ _

theorem ringPut_eq {part base n : Nat} {rec : List Byte} (h : s.ringPut part base rec = some (u, n)) : ∃ m v, u = { s with mem := m, vtiles := v } := by
  unfold ringPut at h
  split at h
  · cases h
  · split at h
    · cases h
    · split at h
      · cases h
      · next v h1 =>
        split at h
        · cases h
        · next x h2 =>
          cases h
          obtain ⟨m, y, rfl⟩ := writeVa_eq h1
          obtain ⟨m', y', rfl⟩ := writeVa_eq h2
          exact ⟨m', y', rfl⟩

/-- What a fault record names. -/
def sameRecord (f g : FaultRec) : Prop := f.part = g.part ∧ f.va = g.va ∧ f.acc = g.acc ∧ f.waiters = g.waiters

theorem postOne_frame (f : FaultRec) : (s.postOne f).1.net = s.net ∧ sameRecord (s.postOne f).2 f := by
  unfold postOne
  split
  · split
    · exact ⟨rfl, rfl, rfl, rfl, rfl⟩
    · dsimp only
      split
      · exact ⟨rfl, rfl, rfl, rfl, rfl⟩
      · next v i h =>
        obtain ⟨m, y, rfl⟩ := ringPut_eq h
        exact ⟨modPart_net _ _ _, rfl, rfl, rfl, rfl⟩
  · exact ⟨rfl, rfl, rfl, rfl, rfl⟩

theorem postHeld_frame (part : Nat) : (s.postHeld part).net = s.net ∧ ∀ f ∈ s.mmu.faults, ∃ g ∈ (s.postHeld part).mmu.faults, sameRecord g f := by
  have hfold : ∀ (l : List FaultRec) (x : State) (fs : List FaultRec), x.net = s.net →
      let r := l.foldl (fun (acc : State × List FaultRec) f =>
        if f.part = part then
          let x := acc.1.postOne f
          (x.1, acc.2 ++ [x.2])
        else (acc.1, acc.2 ++ [f])) (x, fs)
      r.1.net = s.net ∧ (∀ g ∈ fs, g ∈ r.2) ∧ ∀ f ∈ l, ∃ g ∈ r.2, sameRecord g f := by
    intro l
    induction l with
    | nil => exact fun x fs hx => ⟨hx, fun g hg => hg, fun f hf => absurd hf List.not_mem_nil⟩
    | cons f l ih =>
      intro x fs hx
      rw [List.foldl_cons]
      by_cases hf : f.part = part
      · rw [if_pos hf]
        obtain ⟨p1, p2⟩ := postOne_frame (s := x) f
        obtain ⟨h1, h2, h3⟩ := ih (x.postOne f).1 (fs ++ [(x.postOne f).2]) (p1.trans hx)
        refine ⟨h1, fun g hg => h2 g (List.mem_append_left _ hg), fun e he => ?_⟩
        rcases List.mem_cons.1 he with rfl | he
        · exact ⟨_, h2 _ (List.mem_append_right _ List.mem_cons_self), p2⟩
        · exact h3 e he
      · rw [if_neg hf]
        obtain ⟨h1, h2, h3⟩ := ih x (fs ++ [f]) hx
        refine ⟨h1, fun g hg => h2 g (List.mem_append_left _ hg), fun e he => ?_⟩
        rcases List.mem_cons.1 he with rfl | he
        · exact ⟨e, h2 _ (List.mem_append_right _ List.mem_cons_self), rfl, rfl, rfl, rfl⟩
        · exact h3 e he
  obtain ⟨h1, -, h3⟩ := hfold s.mmu.faults s [] rfl
  exact ⟨h1, h3⟩

/-- A fault that is posted names its page and its waiter (19:R302). -/
theorem postFault_frame (part va acc : Nat) (c : BitVec 6) (w : Waiter) : (s.postFault part va acc c w).net = s.net
    ∧ ∃ f ∈ (s.postFault part va acc c w).mmu.faults, sameFault f part va acc = true ∧ w ∈ f.waiters := by
  unfold postFault
  split
  · next h =>
    obtain ⟨f, hf, hs⟩ := List.any_eq_true.1 h
    refine ⟨rfl, { f with waiters := f.waiters ++ [w] }, List.mem_map.2 ⟨f, hf, if_pos hs⟩, hs, List.mem_append_right _ List.mem_cons_self⟩
  · obtain ⟨h1, h2⟩ := postHeld_frame (s := { s with mmu := { s.mmu with faults := s.mmu.faults
      ++ [{ part := part, va := va, acc := acc, prop := c.toNat, idx := none, waiters := [w] }] } }) part
    obtain ⟨g, hg, e1, e2, e3, e4⟩ := h2 _ (List.mem_append_right _ List.mem_cons_self)
    refine ⟨h1, g, hg, ?_, ?_⟩
    · rw [sameFault, e1, e2, e3]
      simp
    · rw [e4]
      exact List.mem_cons_self

theorem recordAcc_eq (a : Acc) : ∃ c, s.recordAcc a = { s with cores := c } := by
  unfold recordAcc
  split
  · exact ⟨_, rfl⟩
  · exact ⟨_, rfl⟩

theorem accOf_putAcc {a b : Acc} (ht : b.tag = a.tag) (h : s.accOf? a.tag = some a) : (s.putAcc b).accOf? a.tag = some b := by
  have hp : ((fun x : Acc => x.tag == a.tag) ∘ fun x => if x.tag == b.tag then b else x) = fun x => x.tag == a.tag := by
    funext x
    dsimp only [Function.comp]
    split
    · next hx => rw [eq_of_beq hx]
    · rfl
  rw [accOf?, putAcc]
  dsimp only
  rw [List.find?_map, hp, show s.net.accs.find? (fun x => x.tag == a.tag) = some a from h, Option.map_some, if_pos (by rw [ht]; exact beq_self_eq_true _)]

end State

/-- Settles O40: wakes, held releases and leases that are withdrawn. -/
theorem wakesAndReleases : Obligations.WakesAndReleases := by
  refine ⟨fun s k row w => ?_, fun s h l hwf hs hl haway ha hx => ?_, fun s a space q va ps ha hpl hfl => ?_⟩
  · intro t woken
    refine ⟨fun hr => ⟨?_, fun ho => ?_, fun ho ht => ?_⟩, fun hr ho => ?_, fun a n v c x hr => ?_⟩
    · refine congrArg Host.Outcome.next ?_
      rw [show (s.taskAt k).run = .resident from hr]
    · have hp := State.payTokens_unpaid ho
      refine congrArg Host.Outcome.next ?_
      rw [State.wakeUp_resident (by rw [hp]; exact hr), hp]
    · have hp := State.payTokens_paid ho ht
      refine congrArg Host.Outcome.next ?_
      rw [State.wakeUp_resident, hp]
      rw [hp, State.taskAt_putTask_self]
      exact hr
    · have hx : exec (.taskWake k) s = .next (s.wakeUp k) := rfl
      rw [State.wakeUp_parked hr ho] at hx
      split
      · next hc =>
        rw [if_pos (by rw [hc.1, hc.2]; rfl)] at hx
        obtain ⟨h1, h2, h3⟩ := State.woken_frame (s := s) (k := k) (row := row) woken t.gtid
        exact ⟨_, hx, h1, h2, h3⟩
      · next hc =>
        rw [if_neg (by simpa using hc)] at hx
        exact hx
    · have hx : exec (.waddrRecheck k) s = .next (s.wakeNow k) := by
        refine congrArg Host.Outcome.next ?_
        rw [show (s.taskAt k).run = _ from hr]
      rw [State.wakeNow, show (s.taskAt k).run = _ from hr] at hx
      dsimp only at hx
      refine ⟨_, hx, ?_, ?_⟩
      · split <;> rfl
      · split
        · exact State.taskAt_putTask_self _ k _
        · exact State.taskAt_putTask_self _ k _
  · have hperf := State.heldPerform_first hs hl haway ha hx
    have hr : exec (.releasePerformed h.tag) s = .next (s.heldPerform h.tag) := rfl
    refine ⟨fun vt acc a n d hop hwatch => ?_, fun vt n hop hn hlt => ?_, fun m hop => ?_⟩
    · intro at_
      rw [hperf, State.heldDo, hop] at hr
      obtain ⟨m, vts, hm, -, hmem⟩ := State.coreStore_eq (s := { s with net := { s.net with helds := l } }) at_ n d
      obtain ⟨e, tl, hb⟩ := State.tileBank_eq (s := { s with net := { s.net with helds := l }, mem := m, vtiles := vts }) h.part vt acc a
      have hstore : State.heldStore { s with net := { s.net with helds := l } } h acc vt a (.store n d)
          = { s with net := { s.net with helds := l }, mem := m, vtiles := vts, tiles := tl } := by
        rw [State.heldStore, State.perform]
        dsimp only
        rw [hm, hb]
        exact State.farWatch_none hwatch
      dsimp only at hr
      rw [hstore] at hr
      exact ⟨_, hr, rfl, (hmem hwf).2⟩
    · rw [hperf, State.heldDo, hop] at hr
      dsimp only at hr
      rw [State.semSignal, show State.semCount { s with net := { s.net with helds := l } } h.part vt n = s.semCount h.part vt n from rfl, if_neg (show ¬ 65535 ≤ s.semCount h.part vt n by omega),
        if_neg Bool.false_ne_true] at hr
      obtain ⟨h1, -⟩ := State.semCount_modVTile (s := { s with net := { s.net with helds := l } }) (p := h.part) (vt := vt) (c := s.semCount h.part vt n + 1) hn
        (f := fun x => { x with sems := x.sems.setIfInBounds n (x.sems.toList[n]?.getD 0 + 1) }) rfl
      exact ⟨_, hr, rfl, h1, rfl⟩
    · rw [hperf, State.heldDo, hop] at hr
      exact ⟨_, hr, rfl, rfl, rfl⟩
  · intro n acc
    refine ⟨?_, fun hc => ?_, fun hlease hpend => ⟨fun x v hpc => ?_, fun f c b hpc hwhy hring hsup => ?_⟩⟩
    · cases he : a.leaseEnd with
      | none => simp [State.leaseOk]
      | some e => simp [State.leaseOk]
    · refine congrArg Host.Outcome.next ?_
      rw [ha]
      refine if_pos ?_
      rcases hc with hc | hc <;> simp [hc]
    · have hx : exec (.leaseWithdrawal a.tag) s = .next (s.withdraw a) := by
        refine congrArg Host.Outcome.next ?_
        rw [ha]
        exact if_neg (by simp [hfl, hlease, hpend])
      rw [State.withdraw, hpl] at hx
      dsimp only at hx
      rw [show s.piecesFor a.part (coreOf a.key) va (ps.map (·.len)).sum _ = _ from hpc] at hx
      obtain ⟨m, rfl⟩ := State.piecesFor_mmu hpc
      exact ⟨_, hx, rfl, State.accOf_putAcc (s := { s with mmu := m }) (b := { a with place := .ext space q va x, leaseEnd := _ }) rfl ha⟩
    · have hx : exec (.leaseWithdrawal a.tag) s = .next (s.withdraw a) := by
        refine congrArg Host.Outcome.next ?_
        rw [ha]
        exact if_neg (by simp [hfl, hlease, hpend])
      obtain ⟨co, hco⟩ := State.recordAcc_eq (s := s) a
      rw [State.withdraw, hpl] at hx
      dsimp only at hx
      rw [show s.piecesFor a.part (coreOf a.key) va (ps.map (·.len)).sum _ = _ from hpc] at hx
      dsimp only at hx
      rw [hwhy, hsup, hco] at hx
      dsimp only at hx
      rw [show State.partOf? { s with cores := co } a.part = s.partOf? a.part from rfl, hring] at hx
      obtain ⟨h1, g, hg, hsame, hw⟩ := State.postFault_frame (s := { s with cores := co }) a.part f.va acc c ⟨a.owner, acc, none, some a.tag, f.va⟩
      refine ⟨_, hx, ?_, ?_, g, hg, hsame⟩
      · rw [State.accOf?, h1]
        exact ha
      · rw [State.faultPends, Bool.or_eq_true]
        exact .inl (List.any_eq_true.2 ⟨g, hg, List.any_eq_true.2 ⟨_, hw, beq_self_eq_true _⟩⟩)

end Sys2Proof.Machine
end

section
/-! PROOFS. Remote and queued requests performed, and deliveries (06:R105 to R117, 03:R48, 13:R222, 17:R271, 12:R216). -/

namespace Sys2Proof.Machine

namespace State

variable {s u : State} {k : Nat}

/-! ### Requests at an agent (06:R105) -/

/-- What performing an access at a tile may change. -/
theorem perform_frame {x : Nat} {op : AccOp} {v : Nat} (h : s.perform x op = some (v, u)) : ∃ m f y, u = { s with mem := m, feEmpty := f, vtiles := y } := by
  have hstore (n d : Nat) : ∃ m f y, s.coreStore x n d = { s with mem := m, feEmpty := f, vtiles := y } := by
    obtain ⟨m, y, h, -⟩ := coreStore_eq (s := s) x n d
    exact ⟨m, s.feEmpty, y, h⟩
  have hfe {w : State} (b : Bool) (hw : ∃ m f y, w = { s with mem := m, feEmpty := f, vtiles := y }) :
      ∃ m f y, w.setFe x b = { s with mem := m, feEmpty := f, vtiles := y } := by
    obtain ⟨m, f, y, rfl⟩ := hw
    exact ⟨_, _, _, rfl⟩
  have hdirty {w : State} (hw : ∃ m f y, w = { s with mem := m, feEmpty := f, vtiles := y }) :
      ∃ m f y, w.dirty x 8 = { s with mem := m, feEmpty := f, vtiles := y } := by
    obtain ⟨m, f, y, rfl⟩ := hw
    obtain ⟨z, hz, -⟩ := dirty_eq (s := { s with mem := m, feEmpty := f, vtiles := y }) x 8
    exact ⟨m, f, z, hz⟩
  have hid : ∃ m f y, s = { s with mem := m, feEmpty := f, vtiles := y } := ⟨_, _, _, rfl⟩
  have huncount : ∃ m f y, s.uncount x = { s with mem := m, feEmpty := f, vtiles := y } := by
    obtain ⟨y, hy, -⟩ := store_eq (s := s) x (leBytes 8 ((s.loadNat x 8 + (2 ^ 64 - 1)) % 2 ^ 64))
    have hst : ∃ m f y, s.store x (leBytes 8 ((s.loadNat x 8 + (2 ^ 64 - 1)) % 2 ^ 64)) = { s with mem := m, feEmpty := f, vtiles := y } := ⟨_, _, _, hy⟩
    rw [uncount, storeNat]
    split
    · exact hfe _ hst
    · exact hst
  have hdone {n : Nat} {x : State} (hx : ∃ m f y, x = { s with mem := m, feEmpty := f, vtiles := y }) (h : some (n, x) = some (v, u)) :
      ∃ m f y, u = { s with mem := m, feEmpty := f, vtiles := y } := by
    rw [← (Prod.mk.inj (Option.some.inj h)).2]
    exact hx
  have htake (take : Bool) : ∃ m f y, (if take then (s.setFe x false).dirty x 8 else s) = { s with mem := m, feEmpty := f, vtiles := y } := by
    split
    · exact hdirty (hfe _ hid)
    · exact hid
  cases op with
  | load n sx => exact hdone hid h
  | store n d => exact hdone (hstore _ _) h
  | nibble hi d => exact hdone (hstore _ _) h
  | amo w op c cmp => exact hdone (hstore _ _) h
  | feRead take =>
    rw [perform] at h
    split at h
    · exact hdone (htake take) h
    · cases h
  | feProbe take =>
    rw [perform] at h
    split at h
    · exact hdone (htake take) h
    · exact hdone hid h
  | feStore wait d =>
    rw [perform] at h
    split at h
    · cases h
    · exact hdone (hfe _ (hstore _ _)) h
  | count => exact hdone (hfe _ (hstore _ _)) h
  | uncount => exact hdone huncount h

/-! ### Wakes keep every register (02:R36) -/

theorem wakeUp_task (key : Nat) : ∃ o r h, (s.wakeUp key).taskAt key = { s.taskAt key with owed := o, run := r, holdUntil := h } := by
  obtain ⟨p, x, -, -, o, h3⟩ := payTokens_eq (s := s) key
  unfold wakeUp
  dsimp only
  split
  · exact ⟨o, _, _, h3⟩
  · split
    · rw [taskAt_recordSched, taskAt_putTask_self, h3]
      exact ⟨o, _, _, rfl⟩
    · exact ⟨o, _, _, h3⟩

/-! ### Deliveries (03:R48, R52, 17:R271) -/

/-- The task after a delivery (03:R48). -/
def delivered (s : State) (k : Nat) (r : RegId) (x : VWord) (err : Bool) (aerr : Word) (sub : Nat) : Task :=
  if err then noteErr (((s.taskAt k).deliver r x err).filled s.cycle r) aerr sub else ((s.taskAt k).deliver r x err).filled s.cycle r

theorem deliverTo_there {g : Word} {part tag sub : Nat} {r : RegId} {x : VWord} {err : Bool} {aerr : Word} (hk : s.keyOf? g = some k) :
    (s.deliverTo g part r tag x err aerr sub).net = s.net ∧ (∀ j, j ≠ k → (s.deliverTo g part r tag x err aerr sub).taskAt j = s.taskAt j)
      ∧ ∃ o n h, (s.deliverTo g part r tag x err aerr sub).taskAt k = { s.delivered k r x err aerr sub with owed := o, run := n, holdUntil := h } := by
  have hd : s.deliverTo g part r tag x err aerr sub = (s.putTask k (s.delivered k r x err aerr sub)).wakeUp k := by
    rw [deliverTo, hk]
    rfl
  rw [hd]
  obtain ⟨h1, h2, -⟩ := wakeUp_frame (s := s.putTask k (s.delivered k r x err aerr sub)) k
  obtain ⟨o, n, h, h3⟩ := wakeUp_task (s := s.putTask k (s.delivered k r x err aerr sub)) k
  rw [taskAt_putTask_self] at h3
  exact ⟨h1, fun j hj => (h2 j hj).trans (taskAt_putTask_ne _ hj _), o, n, h, h3⟩

theorem full_deliver (t : Task) (d : Reg) (x : VWord) (err : Bool) : (t.deliver (.s d) x err).full (.s d) = true := by
  have h := Task.full_setFull_s (t.putReg (.s d) x) d
  unfold Task.deliver
  dsimp only
  split
  · rw [Task.setErr]
    split
    · exact h
    · exact h
  · exact h

theorem getS_deliver (t : Task) {d : Reg} (hd : d ≠ 0) (x : VWord) (q : Reg) :
    (t.deliver (.s d) x false).getS q = if q = d then x.setWidth 64 else t.getS q := by
  have hs : (t.deliver (.s d) x false).getS q = (t.putS d (x.setWidth 64)).getS q := by
    rw [Task.deliver_false, Task.setFull, if_neg hd]
    exact Task.getS_congr rfl q
  rw [hs]
  split
  · next h => rw [h]; exact Task.getS_putS_self _ hd _
  · next h => exact Task.getS_putS_ne _ h _

theorem err_deliver (t : Task) {d : Reg} (hd : d ≠ 0) (x : VWord) : (t.deliver (.s d) x true).err (.s d) = true := by
  rw [Task.deliver, if_pos rfl, Task.setErr, if_neg hd, Task.err, Bool.and_eq_true]
  refine ⟨bne_iff_ne.2 hd, ?_⟩
  rw [BitVec.getLsbD_or, show ((1 <<< d.toNat : Nat) : BitVec 32).getLsbD d.toNat = true from getLsbD_one_shiftLeft d.toNat d.isLt, Bool.or_true]

theorem getV_deliver (t : Task) (d : Reg) (x : VWord) : (t.deliver (.v d) x false).getV d = x ∧ (t.deliver (.v d) x false).full (.v d) = true := by
  have hd := d.isLt
  refine ⟨by simp [Task.deliver_false, Task.getV, Task.putReg, Task.putV, Task.setFull], ?_⟩
  rw [Task.deliver_false, Task.full, Task.setFull]
  dsimp only
  rw [if_pos rfl, BitVec.getLsbD_or, show ((1 <<< d.toNat : Nat) : BitVec 32).getLsbD d.toNat = true from getLsbD_one_shiftLeft d.toNat d.isLt, Bool.or_true]

/-! ### Answers (06:R107, R108) -/

theorem domainAnswers_alone {part : Nat} (h : s.domainAt part = none) (ps : List Piece) : s.domainAnswers part ps = s := by
  rw [domainAnswers, h]

theorem domainAnswers_eq (part : Nat) (ps : List Piece) : ∃ p, s.domainAnswers part ps = { s with parts := p } := by
  unfold domainAnswers
  split
  · exact ⟨s.parts, rfl⟩
  · split
    · exact ⟨s.parts, rfl⟩
    · unfold modDomain
      split
      · exact ⟨s.parts, rfl⟩
      · exact modPart_eq s _ _

theorem accOf_dropAcc (tag : Nat) : (s.dropAcc tag).accOf? tag = none :=
  List.find?_eq_none.2 fun x hx => by simpa using (List.mem_filter.1 hx).2

/-- An answer that arrives leaves the network and fills its register (03:R48, 06:R107). -/
theorem answer_fills {a : Acc} {d : Reg} {v : Nat} {err : Bool} (hdst : a.dst = some (.s d)) (hdead : a.dead = false) (hk : s.keyOf? a.owner = some k) :
    (s.answer a v err).accOf? a.tag = none ∧ (∀ j, j ≠ k → (s.answer a v err).taskAt j = s.taskAt j)
      ∧ ∃ o n h, (s.answer a v err).taskAt k
        = { s.delivered k (.s d) (BitVec.ofNat 128 v) err (if err then accErrAddr a else 0) (placeSub a) with owed := o, run := n, holdUntil := h } := by
  have ha : s.answer a v err = ((s.dropAcc a.tag).addDelay a).deliverTo a.owner a.part (.s d) a.tag (BitVec.ofNat 128 v) err (if err then accErrAddr a else 0) (placeSub a) := by
    rw [answer, hdst, hdead]
    rfl
  have hnet : ((s.dropAcc a.tag).addDelay a).net = (s.dropAcc a.tag).net := rfl
  have hkey : ((s.dropAcc a.tag).addDelay a).keyOf? a.owner = some k := hk
  have htask (j : Nat) : ((s.dropAcc a.tag).addDelay a).taskAt j = s.taskAt j := rfl
  have hcyc : ((s.dropAcc a.tag).addDelay a).cycle = s.cycle := rfl
  have hdel (x : VWord) (aerr : Word) (sub : Nat) : ((s.dropAcc a.tag).addDelay a).delivered k (.s d) x err aerr sub = s.delivered k (.s d) x err aerr sub := by
    rw [delivered, delivered, htask, hcyc]
  rw [ha]
  generalize (s.dropAcc a.tag).addDelay a = w at hnet hkey htask hdel ⊢
  obtain ⟨h1, h2, o, n, h, h3⟩ := deliverTo_there (s := w) (part := a.part) (tag := a.tag) (sub := placeSub a) (r := .s d)
    (x := BitVec.ofNat 128 v) (err := err) (aerr := if err then accErrAddr a else 0) hkey
  rw [hdel] at h3
  refine ⟨?_, fun j hj => (h2 j hj).trans (htask j), o, n, h, h3⟩
  rw [accOf?, h1, hnet]
  exact accOf_dropAcc (s := s) a.tag

theorem noteErr_regs (t : Task) (a : Word) (sub : Nat) (r : RegId) : (noteErr t a sub).full r = t.full r ∧ (noteErr t a sub).err r = t.err r := by
  unfold noteErr
  split <;> exact ⟨rfl, rfl⟩

theorem getS_delivered {d q : Reg} (hd : d ≠ 0) (v : Nat) (aerr : Word) (sub : Nat) :
    (s.delivered k (.s d) (BitVec.ofNat 128 v) false aerr sub).getS q = if q = d then BitVec.ofNat 64 v else (s.taskAt k).getS q := by
  refine (getS_deliver (s.taskAt k) hd (BitVec.ofNat 128 v) q).trans ?_
  rw [show (BitVec.ofNat 128 v).setWidth 64 = BitVec.ofNat 64 v from BitVec.eq_of_toNat_eq (by simp)]

theorem full_delivered (d : Reg) (x : VWord) (err : Bool) (aerr : Word) (sub : Nat) : (s.delivered k (.s d) x err aerr sub).full (.s d) = true := by
  unfold delivered
  split
  · exact (noteErr_regs _ _ _ _).1.trans (full_deliver (s.taskAt k) d x err)
  · exact full_deliver (s.taskAt k) d x err

theorem err_delivered {d : Reg} (hd : d ≠ 0) (x : VWord) (aerr : Word) (sub : Nat) : (s.delivered k (.s d) x true aerr sub).err (.s d) = true :=
  (noteErr_regs _ _ _ _).2.trans (err_deliver (s.taskAt k) hd x)

/-- What the register of an answer holds afterwards, and every other one (03:R48). -/
theorem answer_value {a : Acc} {d : Reg} {v : Nat} (hdst : a.dst = some (.s d)) (hd : d ≠ 0) (hdead : a.dead = false) (hk : s.keyOf? a.owner = some k) :
    ((s.answer a v false).taskAt k).full (.s d) = true
      ∧ ∀ q, ((s.answer a v false).taskAt k).getS q = if q = d then BitVec.ofNat 64 v else (s.taskAt k).getS q := by
  obtain ⟨-, -, o, n, h, h3⟩ := answer_fills (s := s) (v := v) (err := false) hdst hdead hk
  have hf := full_delivered (s := s) (k := k) d (BitVec.ofNat 128 v) false (if false then accErrAddr a else 0) (placeSub a)
  have hq := fun q => getS_delivered (s := s) (k := k) (q := q) hd v (if false then accErrAddr a else 0) (placeSub a)
  rw [h3]
  generalize s.delivered k (.s d) (BitVec.ofNat 128 v) false (if false then accErrAddr a else 0) (placeSub a) = t at hf hq
  exact ⟨hf, hq⟩

/-- A failed answer marks its register (17:R271). -/
theorem answer_marks {a : Acc} {d : Reg} (hdst : a.dst = some (.s d)) (hd : d ≠ 0) (hdead : a.dead = false) (hk : s.keyOf? a.owner = some k) :
    ((s.answer a 0 true).taskAt k).full (.s d) = true ∧ ((s.answer a 0 true).taskAt k).err (.s d) = true := by
  obtain ⟨-, -, o, n, h, h3⟩ := answer_fills (s := s) (v := 0) (err := true) hdst hdead hk
  have hf := full_delivered (s := s) (k := k) d (BitVec.ofNat 128 0) true (if true then accErrAddr a else 0) (placeSub a)
  have he := err_delivered (s := s) (k := k) hd (BitVec.ofNat 128 0) (if true then accErrAddr a else 0) (placeSub a)
  rw [h3]
  generalize s.delivered k (.s d) (BitVec.ofNat 128 0) true (if true then accErrAddr a else 0) (placeSub a) = t at hf he
  exact ⟨hf, he⟩

/-! ### The agent's service (06:R105) -/

/-- Whether an access is the business of the nibble row (06:R111). -/
def isNibble : AccOp → Bool
  | .nibble _ _ => true
  | _ => false

theorem remoteArrive_other {r : Acc} {acc : Bool} {vt w : Nat} {nib : Bool} (hr : s.accOf? r.tag = some r) (hpl : r.place = .tile acc vt w) (hn : nib ≠ isNibble r.op) :
    s.remoteArrive r.tag nib = s := by
  have h : (isNibble r.op != nib) = true := bne_iff_ne.2 (Ne.symm hn)
  unfold remoteArrive
  rw [hr]
  dsimp only
  rw [hpl]
  exact if_pos (show (isNibble r.op != nib || s.tileAway r.part vt r.owner) = true by rw [h]; rfl)

theorem remoteArrive_mine {r : Acc} {acc : Bool} {vt w : Nat} (hr : s.accOf? r.tag = some r) (hpl : r.place = .tile acc vt w) (hst : r.st = .flying)
    (hmay : s.mayPerform r = true) (haway : s.tileAway r.part vt r.owner = false) (hfirst : s.waiterFirst r (tileAddr r.part acc vt w) = false) :
    s.remoteArrive r.tag (isNibble r.op) = s.agentServe r acc vt w := by
  unfold remoteArrive
  rw [hr]
  dsimp only
  rw [hpl, hst]
  dsimp only
  rw [hmay, hfirst]
  exact (if_neg (show ¬(isNibble r.op != isNibble r.op || s.tileAway r.part vt r.owner) = true by rw [haway]; simp)).trans (if_neg Bool.false_ne_true)

theorem agentServe_performs {r : Acc} {acc : Bool} {vt w v : Nat} {t : State} (hr : s.accOf? r.tag = some r) (hp : s.perform (tileAddr r.part acc vt w) r.op = some (v, t))
    (hw : s.watchHits r.part (ofBool acc) vt w r.op.size (accMask r.op) r.owner = []) :
    ∃ extra, (s.agentServe r acc vt w).accOf? r.tag = some { r with st := .performed v, extra := r.extra + extra } ∧ (s.agentServe r acc vt w).mem = t.mem
      ∧ (s.agentServe r acc vt w).feEmpty = t.feEmpty ∧ (s.agentServe r acc vt w).slots = s.slots := by
  obtain ⟨m, f, y, rfl⟩ := perform_frame hp
  obtain ⟨e, tl, ht⟩ := tileBank_eq (s := { s with mem := m, feEmpty := f, vtiles := y }) r.part vt acc w
  have hs : s.agentServe r acc vt w = ({ s with mem := m, feEmpty := f, vtiles := y, tiles := tl } : State).putAcc { r with st := .performed v, extra := r.extra + e } := by
    rw [agentServe, hp]
    dsimp only
    rw [ht]
    exact farWatch_none (s := ({ s with mem := m, feEmpty := f, vtiles := y, tiles := tl } : State).putAcc { r with st := .performed v, extra := r.extra + e }) hw
  rw [hs]
  exact ⟨e, accOf_putAcc (s := { s with mem := m, feEmpty := f, vtiles := y, tiles := tl }) (b := { r with st := .performed v, extra := r.extra + e }) rfl hr, rfl, rfl, rfl⟩

theorem accOf_waitAcc (a : Acc) : (s.waitAcc a).accOf? a.tag = some { a with st := .waiting } := by
  have hn : (s.dropAcc a.tag).net.accs.find? (·.tag == a.tag) = none := accOf_dropAcc (s := s) a.tag
  show ((s.dropAcc a.tag).net.accs ++ [({ a with st := .waiting } : Acc)]).find? (·.tag == a.tag) = _
  rw [List.find?_append, hn, Option.none_or]
  exact List.find?_cons_of_pos (p := fun b : Acc => b.tag == a.tag) (beq_self_eq_true a.tag)

theorem agentServe_waits {r : Acc} {acc : Bool} {vt w : Nat} (hp : s.perform (tileAddr r.part acc vt w) r.op = none) (hst : r.st = .flying) (hroom : s.agentWaiting r < 64) :
    s.agentServe r acc vt w = s.waitAcc r := by
  rw [agentServe, hp]
  dsimp only
  rw [hst, if_neg (by simp), if_pos hroom]

/-! ### Queued accesses on memory of the package (06:R107, R108) -/

theorem askDomain_alone {part : Nat} (h : s.domainAt part = none) (k : Nat) (ps : List Piece) (bs : List Byte) : s.askDomain part k ps bs = s := by
  rw [askDomain, h]

section Home

variable {part : Nat} {p : Piece} {op : AccOp} (hback : backed p.addr = true) (hwin : inWindow p.addr = false) (hhost : p.addr < hostBase) (hdom : s.domainAt part = none)
  (hfor : s.foreign part [p] = false) (hpoi : s.poisonMeets [p] = false)
include hback hwin hhost hdom hfor hpoi

theorem atHome_reaches (hmac : (op.reads && s.macMeets [p]) = false) :
    s.atHome part op [p] = match op with
      | .load n sx => .done (extLoad n sx (leNat (memRead s.mem p.addr p.len))) (State.askDomain { s with freeCtr := s.freeCtr + 256 } part 0 [p] [])
      | .store n d => .done 0 ((State.askDomain { s with freeCtr := s.freeCtr + 256 } part 1 [p] (leBytes n d)).storePieces [p] (leBytes n d))
      | .amo w o c cmp => .done (leNat (memRead s.mem p.addr p.len)) ((State.askDomain { s with freeCtr := s.freeCtr + 256 } part 2 [p]
          (leBytes 1 o ++ leBytes (w / 8) c ++ leBytes (w / 8) cmp)).storePieces [p] (leBytes (w / 8) (amoNew w o (leNat (memRead s.mem p.addr p.len)) c cmp)))
      | _ => .done 0 { s with freeCtr := s.freeCtr + 256 } := by
  have hun : unbacked? [p] = none := by
    rw [unbacked?, List.find?_cons_of_neg (by rw [hback]; simp)]
    rfl
  have hlost : s.domainLost part [p] = false := by rw [domainLost, hdom]; rfl
  have hrouted : s.routed part [p] = true := by
    rw [routed, List.all_cons, List.all_nil, Bool.and_true, if_neg (by omega), hwin]
    rfl
  have htake : s.takeBytes [p] = (memRead s.mem p.addr p.len, { s with freeCtr := s.freeCtr + 256 }) := by
    rw [takeBytes]
    refine Prod.ext ?_ rfl
    show ([s.pieceBytes 0 p]).flatten = _
    rw [List.flatten_singleton, pieceBytes, if_neg (by rw [hwin]; simp)]
  rw [atHome, hun, hlost, hrouted, hfor, hpoi, hmac, htake]
  cases op <;> rfl

theorem atHome_load {n : Nat} {sx : Bool} (hmac : s.macMeets [p] = false) :
    s.atHome part (.load n sx) [p] = .done (extLoad n sx (leNat (memRead s.mem p.addr p.len))) { s with freeCtr := s.freeCtr + 256 } := by
  rw [atHome_reaches hback hwin hhost hdom hfor hpoi (by rw [hmac, Bool.and_false])]
  dsimp only
  rw [askDomain_alone (s := { s with freeCtr := s.freeCtr + 256 }) hdom]

theorem atHome_store {n d : Nat} :
    s.atHome part (.store n d) [p] = .done 0 (({ s with freeCtr := s.freeCtr + 256 } : State).store p.addr ((leBytes n d).take p.len)) := by
  rw [atHome_reaches hback hwin hhost hdom hfor hpoi rfl]
  dsimp only
  rw [askDomain_alone (s := { s with freeCtr := s.freeCtr + 256 }) hdom, storePieces, if_neg (show ¬(p.addr < hostBase ∧ inWindow p.addr = true) by rw [hwin]; simp)]
  rfl

end Home

/-- A queued store writes its bytes where they belong and no other (13:R221). -/
theorem memGet_store {n d x : Nat} (hm : s.memOk) (b : Nat) :
    memGet (s.store x ((leBytes n d).take n)).mem b = if x ≤ b ∧ b < x + n then BitVec.ofNat 8 (d / 256 ^ (b - x)) else memGet s.mem b := by
  obtain ⟨y, hy, -⟩ := store_eq (s := s) x ((leBytes n d).take n)
  have hl : (leBytes n d).length = n := length_leBytes n d
  rw [List.take_of_length_le (by omega)] at hy ⊢
  rw [hy]
  split
  · next hb =>
    obtain ⟨i, rfl⟩ := Nat.exists_eq_add_of_le hb.1
    have hi : i < (leBytes n d).length := by omega
    rw [show x + i - x = i by omega]
    exact (memGet_memWrite_in (leBytes n d) hm hi).trans (getElem_leBytes n d i hi)
  · next hb => exact memGet_memWrite_out (leBytes n d) (by omega)

theorem deliverTo_vector {g : Word} {part tag : Nat} {d : Reg} {x : VWord} (hk : s.keyOf? g = some k) :
    ((s.deliverTo g part (.v d) tag x false 0).taskAt k).full (.v d) = true ∧ ((s.deliverTo g part (.v d) tag x false 0).taskAt k).getV d = x := by
  obtain ⟨-, -, o, n, h, h3⟩ := deliverTo_there (s := s) (part := part) (tag := tag) (sub := 0) (r := .v d) (x := x) (err := false) (aerr := 0) hk
  obtain ⟨hv, hf⟩ := getV_deliver (s.taskAt k) d x
  rw [h3]
  exact ⟨hf, hv⟩

/-- A special function's result that arrives leaves the network and fills its vector register (12:R216). -/
theorem sfuArrive_fills {r : SfuReq} (hc : r.last + 24 ≤ s.cycle) (hmu : r.mute = false) (hdead : r.dead = false) (hk : s.keyOf? r.owner = some k) :
    ((s.sfuArrive r).taskAt k).full (.v r.dst) = true ∧ ((s.sfuArrive r).taskAt k).getV r.dst = r.value ∧ (s.sfuArrive r).mem = s.mem ∧ ∀ x ∈ (s.sfuArrive r).net.sfu, x.tag ≠ r.tag := by
  have hpool : ∃ p, (if r.drawn then ({ s with net := { s.net with sfu := s.net.sfu.filter (·.tag != r.tag) } } : State).poolReturn r.part (r.cluster * 4 + 3) 1
      else { s with net := { s.net with sfu := s.net.sfu.filter (·.tag != r.tag) } }) = { s with net := { s.net with sfu := s.net.sfu.filter (·.tag != r.tag) }, parts := p } := by
    split
    · exact modPart_eq _ _ _
    · exact ⟨s.parts, rfl⟩
  obtain ⟨p, hp⟩ := hpool
  have hu : s.sfuArrive r = ({ s with net := { s.net with sfu := s.net.sfu.filter (·.tag != r.tag) }, parts := p } : State).deliverTo r.owner r.part (.v r.dst) r.tag r.value false 0 := by
    rw [sfuArrive, if_neg (by omega)]
    dsimp only
    rw [hp, hmu, hdead]
    rfl
  have hkey : ({ s with net := { s.net with sfu := s.net.sfu.filter (·.tag != r.tag) }, parts := p } : State).keyOf? r.owner = some k := hk
  have hmem : ({ s with net := { s.net with sfu := s.net.sfu.filter (·.tag != r.tag) }, parts := p } : State).mem = s.mem := rfl
  have hnet : ∀ x ∈ ({ s with net := { s.net with sfu := s.net.sfu.filter (·.tag != r.tag) }, parts := p } : State).net.sfu, x.tag ≠ r.tag :=
    fun x hx => by simpa using (List.mem_filter.1 hx).2
  rw [hu]
  generalize ({ s with net := { s.net with sfu := s.net.sfu.filter (·.tag != r.tag) }, parts := p } : State) = w at hkey hmem hnet ⊢
  obtain ⟨hf, hv⟩ := deliverTo_vector (s := w) (part := r.part) (tag := r.tag) (d := r.dst) (x := r.value) hkey
  have h1 : (w.deliverTo r.owner r.part (.v r.dst) r.tag r.value false 0).net = w.net := (deliverTo_there hkey).1
  exact ⟨hf, hv, (mem_deliverTo _ _ _ _ _ _ _ _).trans hmem, fun x hx => hnet x (h1 ▸ hx)⟩

end State

/-- Settles O39: requests performed at their agents, and what their answers leave. -/
theorem requestsAndDeliveries : Obligations.RequestsAndDeliveries := by
  refine ⟨fun s r acc vt w hr hpl hst hmay => ?_, fun s a d v k ha hsfu hst hdst hd hdead hw hq hc hk => ?_, fun s a d x k ha hsfu hdst hd hdead hw hst hq hc hk => ?_,
    fun s a ha hsfu hst hop hw => ?_, fun s a space q va n p hwf ha hsfu hpl hlen hst hmay hback hwin hhost hdom hfor hpoi => ?_, fun s r k hr hc hmu hdead hk => ?_⟩
  · intro at_ haway hfirst hw nibble mine other
    have hnib : nibble = State.isNibble r.op := by
      show (match r.op with | .nibble _ _ => true | _ => false) = State.isNibble r.op
      cases r.op <;> rfl
    have hexec (b : Bool) : exec (if b then .remoteNibbleStore r.tag else .remoteAccessRequest r.tag) s = .next (s.remoteArrive r.tag b) := by
      cases b <;> rfl
    have hother : exec other s = .next s := by
      have ho : other = if !nibble then .remoteNibbleStore r.tag else .remoteAccessRequest r.tag := by
        show (if nibble then _ else _) = _
        cases nibble <;> rfl
      rw [ho, hexec, State.remoteArrive_other hr hpl (by rw [hnib]; cases State.isNibble r.op <;> simp)]
    have hmine : exec mine s = .next (s.agentServe r acc vt w) := by
      rw [show mine = if nibble then .remoteNibbleStore r.tag else .remoteAccessRequest r.tag from rfl, hexec, hnib,
        State.remoteArrive_mine hr hpl hst hmay haway hfirst]
    refine ⟨hother, ?_⟩
    rcases hp : s.perform at_ r.op with _ | ⟨v, t⟩
    · intro hroom
      rw [State.agentServe_waits hp hst hroom] at hmine
      exact ⟨_, hmine, State.accOf_waitAcc r, rfl, rfl⟩
    · obtain ⟨extra, h1, h2, h3, h4⟩ := State.agentServe_performs hr hp hw
      exact ⟨_, extra, hmine, h1, h2, h3, h4⟩
  · have hx : exec (.registerDelivery a.tag .arrive) s = .next (s.accArrive a) := by
      show (match s.net.sfu.find? (·.tag == a.tag) with | some r => _ | none => _) = _
      rw [List.find?_eq_none.2 fun r hr => by simpa using hsfu r hr, ha]
    obtain ⟨p, hp⟩ := State.domainAnswers_eq (s := s) a.part a.pieces
    rw [State.accArrive, hq, hst, if_neg (by simp; omega)] at hx
    dsimp only at hx
    rw [hw, Bool.false_and, if_neg Bool.false_ne_true, hp] at hx
    have hk' : ({ s with parts := p } : State).keyOf? a.owner = some k := hk
    obtain ⟨h1, h2, -⟩ := State.answer_fills (v := v) (err := false) hdst hdead hk'
    obtain ⟨h3, h4⟩ := State.answer_value (v := v) hdst hd hdead hk'
    exact ⟨_, hx, h1, h3, (h4 d).trans (if_pos rfl), State.mem_answer _ _ _, h2, fun q hqd => (h4 q).trans (if_neg hqd)⟩
  · have hx : exec (.registerDelivery a.tag .arrive) s = .next (s.accArrive a) := by
      show (match s.net.sfu.find? (·.tag == a.tag) with | some r => _ | none => _) = _
      rw [List.find?_eq_none.2 fun r hr => by simpa using hsfu r hr, ha]
    rw [State.accArrive, hq, hst, if_neg (by simp; omega)] at hx
    dsimp only at hx
    rw [hw, if_neg Bool.false_ne_true] at hx
    exact ⟨_, hx, (State.answer_fills (v := 0) (err := true) hdst hdead hk).1, State.answer_marks hdst hd hdead hk⟩
  · have hx : exec (.registerDelivery a.tag .abort) s = .next (if a.pending then s.accFails a false else s) := by
      show (match s.net.sfu.find? (·.tag == a.tag) with | some r => _ | none => _) = _
      rw [List.find?_eq_none.2 fun r hr => by simpa using hsfu r hr, ha]
    obtain ⟨c, hc⟩ := State.recordAcc_eq (s := s) a
    have hfail : s.accFails a false = (s.recordAcc a).putAcc { a with st := .failed false } :=
      (if_neg (show ¬a.waits = true by rw [hw]; exact Bool.false_ne_true)).trans (if_pos hop)
    rw [Acc.pending, hst, if_pos rfl, hfail, hc] at hx
    exact ⟨_, hx, State.accOf_putAcc (s := { s with cores := c }) (a := a) (b := { a with st := .failed false }) rfl ha, rfl, rfl⟩
  · subst hlen
    refine ⟨fun sx hop hmac => ?_, fun d hop => ?_⟩
    · have hx : exec (.registerDelivery a.tag .perform) s
          = .next (({ s with freeCtr := s.freeCtr + 256 } : State).putAcc { a with st := .performed (extLoad p.len sx (leNat (memRead s.mem p.addr p.len))) }) := by
        show execRegisterDelivery a.tag .perform s = _
        rw [execRegisterDelivery, List.find?_eq_none.2 fun r hr => by simpa using hsfu r hr, ha]
        dsimp only
        rw [hpl, hst, hop, hmay]
        dsimp only
        rw [State.atHome_load hback hwin hhost hdom hfor hpoi hmac]
        rfl
      exact ⟨_, hx, State.accOf_putAcc (s := { s with freeCtr := s.freeCtr + 256 })
        (b := { a with st := .performed (extLoad p.len sx (leNat (memRead s.mem p.addr p.len))) }) rfl ha, rfl⟩
    · have hat : (({ s with freeCtr := s.freeCtr + 256 } : State).store p.addr ((leBytes p.len d).take p.len)).domainAt a.part = none := by
        obtain ⟨y, hy, -⟩ := State.store_eq (s := { s with freeCtr := s.freeCtr + 256 }) p.addr ((leBytes p.len d).take p.len)
        rw [hy]
        exact hdom
      have hx : exec (.queuedStoreAccept a.tag .perform) s
          = .next (((({ s with freeCtr := s.freeCtr + 256 } : State).store p.addr ((leBytes p.len d).take p.len)).dropAcc a.tag).addDelay a) := by
        show execQueuedStoreAccept a.tag .perform s = _
        rw [execQueuedStoreAccept, ha]
        dsimp only
        rw [hpl, hst, hop, hmay]
        dsimp only
        rw [State.atHome_store hback hwin hhost hdom hfor hpoi]
        dsimp only
        rw [State.domainAnswers_alone hat]
        rfl
      refine ⟨_, hx, State.accOf_dropAcc (s := ({ s with freeCtr := s.freeCtr + 256 } : State).store p.addr ((leBytes p.len d).take p.len)) a.tag, fun b => ?_⟩
      exact State.memGet_store (s := { s with freeCtr := s.freeCtr + 256 }) hwf b
  · have hx : exec (.registerDelivery r.tag .arrive) s = .next (s.sfuArrive r) := by
      show execRegisterDelivery r.tag .arrive s = _
      rw [execRegisterDelivery, hr]
      rfl
    obtain ⟨h1, h2, h3, h4⟩ := State.sfuArrive_fills hc hmu hdead hk
    exact ⟨_, hx, h1, h2, h3, h4⟩

end Sys2Proof.Machine
end

section
/-! PROOFS. Firmware services of a partition (18:R281, 20:R310, R311, 25:R366). -/

namespace Sys2Proof.Machine

namespace State

variable {s u : State} {arg : Word}

/-! ### A firmware call runs its service (18:R281) -/

theorem word64_code {c r : Nat} (hc : c < 256) : word64 [(8, c), (56, r)] = BitVec.ofNat 64 (c + r % 2 ^ 56 * 2 ^ 8) := by
  rw [word64]
  refine congrArg _ ?_
  show c % 2 ^ 8 + 2 ^ 8 * (r % 2 ^ 56 + 2 ^ 56 * 0) = _
  omega

/-- The service that a call names leaves its machine, its code and its result in the call. -/
theorem service_calls {n code result : Nat} {f : Task → Word → State × Nat × Nat} {v : State} (h : s.calls n arg) (hf : f s.task arg = (v, code, result))
    (hc : code < 256) (hcur : v.cur = s.cur) : s.service n f = s.served v code result := by
  obtain ⟨k, d, hk, hn⟩ := h
  unfold service
  dsimp only
  rw [hk]
  dsimp only
  rw [if_neg (not_not.2 hn), hf, served, hk, setTask, hcur, word64_code hc]
  rfl

/-- A service that refuses changes nothing but its call. -/
theorem service_refuses {n code : Nat} {f : Task → Word → State × Nat × Nat} (h : s.calls n arg) (hf : f s.task arg = (s, code, 0)) (hc : code < 256) :
    s.service n f = s.served s code 0 := service_calls h hf hc rfl

theorem modPart_some {part : Nat} {p : Partition} (h : s.partOf? part = some p) (f : Partition → Partition) : s.modPart part f = s.putPart part (f p) := by
  rw [modPart, show mapGet s.parts part = some p from h]
  rfl

theorem partOf_putPart (part : Nat) (p : Partition) : (s.putPart part p).partOf? part = some p := mapGet_mapSet_self _ _ _

theorem partOf_putPart_ne {part q : Nat} (h : q ≠ part) (p : Partition) : (s.putPart part p).partOf? q = s.partOf? q := mapGet_mapSet_ne _ h _

section Setting

variable {n : Nat} {p : Partition} {f : Partition → Partition}

/-- A service that sets a part of its partition. -/
theorem service_sets {g : Task → Word → State × Nat × Nat} (h : s.calls n arg) (hp : s.partOf? s.task.part = some p) (hg : g s.task arg = s.setIn s.task true f) :
    s.service n g = s.served (s.putPart s.task.part (f p)) 0 0 :=
  service_calls h (hg.trans (by rw [setIn, if_pos rfl, modPart_some hp])) (by omega) rfl

/-- A service that sets a part of its partition, or refuses its argument. -/
theorem service_setIn {ok : Word → Bool} {c : Prop} [Decidable c] {f : Word → Partition → Partition} (h : s.calls n arg) (hp : s.partOf? s.task.part = some p)
    (hok : ok arg = true ↔ c) :
    (.next (s.service n fun t a => s.setIn t (ok a) (f a)) : Out) = if c then .next (s.served (s.putPart s.task.part (f arg p)) 0 0) else .next (s.served s 2 0) := by
  split
  · next hc => rw [service_sets (f := f arg) h hp (by rw [hok.2 hc])]
  · next hc => rw [service_refuses h (by rw [setIn, if_neg (fun e => hc (hok.1 e))]) (by omega)]

end Setting

theorem served_mod (v : State) (c r : Nat) : s.served v c (r % 2 ^ 56) = s.served v c r := by rw [served, served, Nat.mod_mod]

/-- A service that reports a value for the argument 0. -/
theorem service_zero {n r : Nat} (h : s.calls n arg) :
    (.next (s.service n fun _ a => s.answerZero a r) : Out) = if arg = 0 then .next (s.served s 0 r) else .next (s.served s 2 0) := by
  split
  · next h0 => rw [service_calls h (by rw [answerZero, if_pos h0]) (by omega) rfl]
  · next h0 => rw [service_refuses h (by rw [answerZero, if_neg h0]) (by omega)]

/-! ### The trap segment of a partition's slots (17:R268) -/

/-- The handler's segment, given to a task of the slot (18:R281). -/
def giveTv (x : VWord) (u : Task) : Task := if u.inHandler then { u with tvNext := some x } else { u with tr := { u.tr with vseg := x } }

theorem giveTv_giveTv (x : VWord) (u : Task) : giveTv x (giveTv x u) = giveTv x u := by
  by_cases h : u.inHandler <;> simp [giveTv, h]

/-- The segment, given to one slot: to its task, or kept for the next one (18:R281). -/
def giveSlot (x : VWord) (s : State) (k : Nat) : State := match mapGet s.slots k with
  | none => { s with slotTv := mapSet s.slotTv k (((mapGet s.slotTv k).getD (0, 0)).1, x) }
  | some u => if u.inHandler then s.putTask k { u with tvNext := some x } else s.putTask k { u with tr := { u.tr with vseg := x } }

theorem giveSlot_frame (x : VWord) (k : Nat) : giveSlot x s k = { s with slots := (giveSlot x s k).slots, slotTv := (giveSlot x s k).slotTv } := by
  unfold giveSlot
  split
  · rfl
  · split <;> rfl

theorem giveSlot_slots (x : VWord) (k j : Nat) : mapGet (giveSlot x s k).slots j = if j = k then (mapGet s.slots j).map (giveTv x) else mapGet s.slots j := by
  unfold giveSlot
  split
  · next h =>
    split
    · next hj => rw [hj, h]; rfl
    · rfl
  · next u h =>
    have hput : (if u.inHandler then s.putTask k { u with tvNext := some x } else s.putTask k { u with tr := { u.tr with vseg := x } }) = s.putTask k (giveTv x u) := by
      unfold giveTv
      split <;> rfl
    rw [hput, putTask]
    split
    · next hj => rw [hj, mapGet_mapSet_self, h]; rfl
    · next hj => exact mapGet_mapSet_ne _ hj _

theorem giveSlot_slotTv (x : VWord) {k j : Nat} (h : mapGet s.slots j = none) :
    (mapGet (giveSlot x s k).slotTv j).map (·.2) = if j = k then some x else (mapGet s.slotTv j).map (·.2) := by
  unfold giveSlot
  split
  · split
    · next hj => rw [hj, mapGet_mapSet_self]; rfl
    · next hj => rw [mapGet_mapSet_ne _ hj]
  · next u hu =>
    have hj : j ≠ k := fun e => by rw [e, hu] at h; cases h
    rw [if_neg hj]
    split <;> rfl

/-- Every slot of a list, once each of them was given the segment, whatever came before. -/
theorem giveSlots (x : VWord) : ∀ (l : List Nat) (s : State),
    l.foldl (giveSlot x) s = { s with slots := (l.foldl (giveSlot x) s).slots, slotTv := (l.foldl (giveSlot x) s).slotTv }
      ∧ (∀ j, mapGet (l.foldl (giveSlot x) s).slots j = if j ∈ l then (mapGet s.slots j).map (giveTv x) else mapGet s.slots j)
      ∧ ∀ j, mapGet s.slots j = none → (mapGet (l.foldl (giveSlot x) s).slotTv j).map (·.2) = if j ∈ l then some x else (mapGet s.slotTv j).map (·.2)
  | [], s => ⟨rfl, fun j => rfl, fun j _ => rfl⟩
  | k :: l, s => by
    obtain ⟨h1, h2, h3⟩ := giveSlots x l (giveSlot x s k)
    have hs (j : Nat) := giveSlot_slots (s := s) x k j
    refine ⟨?_, fun j => ?_, fun j hj => ?_⟩
    · rw [List.foldl_cons, h1]
      rw [giveSlot_frame]
    · rw [List.foldl_cons, h2, hs]
      by_cases hk : j = k <;> by_cases hl : j ∈ l <;> simp [hk, hl, Function.comp_def, giveTv_giveTv]
    · have hn : mapGet (giveSlot x s k).slots j = none := by
        rw [hs, hj]
        split <;> rfl
      rw [List.foldl_cons, h3 j hn, giveSlot_slotTv x hj]
      by_cases hk : j = k <;> by_cases hl : j ∈ l <;> simp [hk, hl]

theorem settvseg_gives {p : Partition} (hp : s.partOf? s.task.part = some p) (ha : arg.toNat < 8)
    (hspace : (segOf (s.task.getG (BitVec.ofNat 3 arg.toNat))).space = 1 ∨ (segOf (s.task.getG (BitVec.ofNat 3 arg.toNat))).space = 4) :
    s.settvseg s.task arg = ((slotsOf p).foldl (giveSlot (s.task.getG (BitVec.ofNat 3 arg.toNat))) s, 0, 0) := by
  have hx : arg.setWidth 3 = BitVec.ofNat 3 arg.toNat := BitVec.eq_of_toNat_eq (by simp)
  unfold settvseg
  rw [hx]
  dsimp only
  rw [if_neg (by omega), hp]
  rfl

theorem settvseg_refuses (h : 8 ≤ arg.toNat ∨ ((segOf (s.task.getG (BitVec.ofNat 3 arg.toNat))).space ≠ 1 ∧ (segOf (s.task.getG (BitVec.ofNat 3 arg.toNat))).space ≠ 4)) :
    s.settvseg s.task arg = (s, 2, 0) := by
  have hx : arg.setWidth 3 = BitVec.ofNat 3 arg.toNat := BitVec.eq_of_toNat_eq (by simp)
  unfold settvseg
  rw [hx]
  exact if_pos h

/-! ### Counters of a partition (05:R94) -/

theorem mapGet_mapKey {α : Type} (f : Nat → α → α) (k : Nat) : ∀ m : Map α, mapGet (m.map fun e => (e.1, f e.1 e.2)) k = (mapGet m k).map (f k)
  | [] => rfl
  | (x, a) :: r => by
    rw [List.map_cons, mapGet, mapGet, mapGet_mapKey f k r]
    split
    · next h => rw [h]; rfl
    · rfl

theorem counts_termclrall (t : Task) {q c : Nat} (hc : c < 1024) :
    let k := s.counts q c
    if q = t.part ∧ k.clearedAt ≠ some s.cycle then ((s.termclrall t).counts q c).terms = (if k.addedAt = s.cycle then k.added else [])
        ∧ ((s.termclrall t).counts q c).added = [] ∧ { (s.termclrall t).counts q c with terms := k.terms, added := k.added, clearedAt := k.clearedAt } = k
      else (s.termclrall t).counts q c = k := by
  have hmap : (s.termclrall t).counters = s.counters.map fun e => (e.1, (fun k x => if k / 1024 == t.part then Counters.clearTerms x s.cycle else x) e.1 e.2) := by
    refine List.map_congr_left fun e _ => ?_
    dsimp only
    split <;> rfl
  have hget : (s.termclrall t).counts q c
      = ((mapGet s.counters (q * 1024 + c)).map fun x => if q == t.part then Counters.clearTerms x s.cycle else x).getD {} := by
    rw [counts, hmap, mapGet_mapKey (fun k x => if k / 1024 == t.part then Counters.clearTerms x s.cycle else x), show (q * 1024 + c) / 1024 = q by omega]
  dsimp only
  rw [hget, counts]
  rcases mapGet s.counters (q * 1024 + c) with _ | x
  · split
    · exact ⟨(ite_self _).symm, rfl, rfl⟩
    · rfl
  · by_cases hq : q = t.part
    · have hbeq : (q == t.part) = true := beq_iff_eq.2 hq
      rw [Option.map_some, if_pos hbeq, Option.getD_some, Option.getD_some, Counters.clearTerms]
      by_cases hcl : x.clearedAt = some s.cycle
      · rw [if_pos hcl, if_neg (fun e => e.2 hcl)]
      · rw [if_neg hcl, if_pos ⟨hq, hcl⟩]
        exact ⟨rfl, rfl, rfl⟩
    · rw [if_neg (fun e => hq e.1), Option.map_some, if_neg (fun e => hq (beq_iff_eq.1 e))]

/-! ### Held records (19:R302) -/

/-- A step of the fault ring's service keeps every slot and every ring. -/
structure KeepsRings (s u : State) : Prop where
  slots : u.slots = s.slots
  cur : u.cur = s.cur
  rings : ∀ q, (u.partOf? q).bind (·.fring) = (s.partOf? q).bind (·.fring)

theorem postOne_rings (f : FaultRec) : s.KeepsRings (s.postOne f).1 := by
  unfold postOne
  split
  · next p hp =>
    split
    · exact ⟨rfl, rfl, fun _ => rfl⟩
    · dsimp only
      split
      · exact ⟨rfl, rfl, fun _ => rfl⟩
      · next v i h =>
        obtain ⟨m, y, rfl⟩ := ringPut_eq h
        refine ⟨modPart_slots _ _ _, modPart_cur _ _ _, fun q => ?_⟩
        rw [partOf_modPart]
        split
        · show (Option.map _ (s.partOf? q)).bind _ = _
          cases s.partOf? q <;> rfl
        · rfl
  · exact ⟨rfl, rfl, fun _ => rfl⟩

theorem postHeld_rings (part : Nat) : s.KeepsRings (s.postHeld part) := by
  have hfold : ∀ (l : List FaultRec) (x : State × List FaultRec), x.1.KeepsRings (l.foldl (fun (acc : State × List FaultRec) f =>
        if f.part = part then
          let x := acc.1.postOne f
          (x.1, acc.2 ++ [x.2])
        else (acc.1, acc.2 ++ [f])) x).1 := by
    intro l
    induction l with
    | nil => exact fun x => ⟨rfl, rfl, fun _ => rfl⟩
    | cons f l ih =>
      intro x
      rw [List.foldl_cons]
      split
      · obtain ⟨a1, a2, a3⟩ := postOne_rings (s := x.1) f
        obtain ⟨b1, b2, b3⟩ := ih ((x.1.postOne f).1, x.2 ++ [(x.1.postOne f).2])
        exact ⟨b1.trans a1, b2.trans a2, fun q => (b3 q).trans (a3 q)⟩
      · exact ih (x.1, x.2 ++ [f])
  obtain ⟨h1, h2, h3⟩ := hfold s.mmu.faults (s, [])
  exact ⟨h1, h2, h3⟩

theorem postHeld_none {part : Nat} (h : s.mmu.faults = []) : s.postHeld part = s := by
  unfold postHeld
  rw [h]
  have hm : s.mmu = { s.mmu with faults := [] } := by rw [← h]
  show ({ s with mmu := { s.mmu with faults := [] } } : State) = s
  rw [← hm]

end State

/-- Settles O47: each service of a partition runs once, with its code and result. -/
theorem partitionServices : Obligations.PartitionServices := by
  intro s arg p part a bad set hp
  have hofNat : BitVec.ofNat 64 a = arg := BitVec.ofNat_toNat 64 arg |>.trans (BitVec.setWidth_eq arg)
  have hone : (arg == 1) = (a == 1) := by
    rw [Bool.eq_iff_iff, beq_iff_eq, beq_iff_eq]
    exact ⟨fun h => by rw [show a = arg.toNat from rfl, h]; rfl, fun h => by rw [← hofNat, h]; rfl⟩
  have hrange (b : Word) : (decide (1 ≤ b.toNat) && decide (b.toNat ≤ 1000)) = true ↔ 1 ≤ b.toNat ∧ b.toNat ≤ 1000 := by
    rw [Bool.and_eq_true, decide_eq_true_iff, decide_eq_true_iff]
  refine ⟨fun h => State.service_zero h, fun h => ?_, fun h => ?_, fun h => ?_, fun h => ?_, fun h => ?_, fun h => ?_, fun h => ?_, fun h => ?_, fun h => ?_, fun h => ?_,
    fun h => ?_, fun h x hx c hc => ?_, fun h => ⟨fun v hv => ?_, fun hv hpre => ?_⟩⟩
  · refine (State.service_zero h).trans ?_
    rw [State.served_mod]
  · show (.next (s.service 0x06 fun _ a => s.hdmbase a) : Out) = _
    split
    · next h2 => rw [State.service_refuses (f := fun _ a => s.hdmbase a) h (if_pos h2) (by omega)]
    · next h2 => exact congrArg Host.Outcome.next (State.service_calls (f := fun _ a => s.hdmbase a) h (by rw [State.hdmbase, if_neg h2]; simp [field, a]) (by omega) rfl)
  · refine (State.service_setIn (ok := fun a => decide (a.toNat < 2)) (f := fun a p => { p with polNext := a == 1 }) h hp decide_eq_true_iff).trans ?_
    rw [hone]
  · refine (State.service_setIn (ok := fun a => decide (a.toNat < 2)) (f := fun a p => { p with donateNext := a == 1 }) h hp decide_eq_true_iff).trans ?_
    rw [hone]
  · intro x
    split
    · next hx => exact congrArg Host.Outcome.next (State.service_refuses h (State.settvseg_refuses hx) (by omega))
    · next hx =>
      obtain ⟨h1, h2, h3⟩ := State.giveSlots x (State.slotsOf p) s
      have hspace (hx : ¬(8 ≤ a ∨ (segOf x).space ≠ 1 ∧ (segOf x).space ≠ 4)) : (segOf x).space = 1 ∨ (segOf x).space = 4 := by
        by_contra hc
        exact hx (.inr (not_or.1 hc))
      have hcur : ((State.slotsOf p).foldl (State.giveSlot x) s).cur = s.cur := by rw [h1]
      refine ⟨_, congrArg Host.Outcome.next (State.service_calls h (State.settvseg_gives hp (not_le.1 (not_or.1 hx).1) (hspace hx)) (by omega) hcur), h1, fun k hk => ?_⟩
      split
      · next hn => rw [h3 k hn, if_pos hk]
      · next u hu => rw [h2, if_pos hk, hu]; rfl
  · split
    · next h0 => exact congrArg Host.Outcome.next (State.service_refuses h (if_neg h0) (by omega))
    · next h0 =>
      exact ⟨_, congrArg Host.Outcome.next (State.service_calls h (if_pos (not_not.1 h0)) (by omega) rfl), rfl, fun q c hc => State.counts_termclrall s.task hc⟩
  · exact State.service_setIn (ok := fun a => decide (1 ≤ a.toNat) && decide (a.toNat ≤ 1000))
      (f := fun a p => { p with lease := a.toNat, dir := p.dir.map fun d => (d.1, d.2.raise a.toNat) }) h hp (hrange arg)
  · refine State.service_setIn (ok := fun a => a.toNat % 65536 == 0 && decide (a.toNat < mainBytes) && s.granuleWorld a.toNat == s.worldOfPart s.task.part && !s.sealedOff a.toNat)
      (f := fun a p => { p with ptroot := a.toNat }) h hp ?_
    have hw : s.worldOfPart s.task.part = p.world := by rw [State.worldOfPart, show s.partOf? s.task.part = some p from hp]; rfl
    rw [hw]
    simp only [Bool.and_eq_true, beq_iff_eq, decide_eq_true_iff, Bool.not_eq_true', and_assoc]
    exact Iff.rfl
  · split
    · next h12 => exact congrArg Host.Outcome.next (State.service_refuses h (if_neg (by rw [ringOk, decide_eq_true_iff]; exact not_lt.2 h12)) (by omega))
    · next h12 =>
      obtain ⟨h1, h2, h3⟩ := State.postHeld_rings (s := s.putPart part { p with fring := some a }) part
      have hset : s.setfring s.task arg = ((s.putPart part { p with fring := some a }).postHeld part, 0, 0) := by
        rw [State.setfring, if_pos (by rw [ringOk, decide_eq_true_iff]; exact not_le.1 h12), State.modPart_some hp]
      refine ⟨_, congrArg Host.Outcome.next (State.service_calls h hset (by omega) h2), (h3 part).trans ?_, h1, fun hf => State.postHeld_none hf⟩
      rw [State.partOf_putPart]
      rfl
  · exact State.service_setIn (ok := fun a => decide (1 ≤ a.toNat) && decide (a.toNat ≤ 1000)) (f := fun a p => { p with deadline := a.toNat }) h hp (hrange arg)
  · have hcg : exec .collgrp s = .next (s.service 0x14 s.collgrp) := rfl
    rw [hcg]
    rcases hb : s.readVa part (a / 4096 * 4096) 4096 with _ | b
    · refine congrArg Host.Outcome.next (State.service_refuses h ?_ (by omega))
      rw [State.collgrp, show s.readVa s.task.part (arg.toNat / 4096 * 4096) 4096 = none from hb]
      exact ite_self _
    · dsimp only
      split
      · next h8 =>
        refine congrArg Host.Outcome.next (State.service_sets (f := fun p => { p with groups := mapSet p.groups (a % 256) (State.groupList b 512) }) h hp ?_)
        rw [State.collgrp, show s.readVa s.task.part (arg.toNat / 4096 * 4096) 4096 = some b from hb]
        exact if_neg (not_not.2 h8)
      · next h8 =>
        refine congrArg Host.Outcome.next (State.service_refuses h ?_ (by omega))
        rw [State.collgrp]
        exact if_pos h8
  · have hps : exec .preempt s = .next (s.service 0x15 s.preemptSvc) := rfl
    have hval : s.preemptSvc s.task arg = if x.gang.isSome then (s, 3, 0) else
        ({ s with cald := { s.cald with preempts := s.cald.preempts ++ [⟨s.task.part, c, s.cycle, true, [arg], []⟩] } }, 0, 0) := by
      rw [State.preemptSvc, show s.running? s.task.part arg = some x from hx, show s.coreOfTask s.task.part arg = some c from hc]
    rw [hps]
    split
    · next hg => exact congrArg Host.Outcome.next (State.service_refuses h (hval.trans (if_pos hg)) (by omega))
    · next hg => exact congrArg Host.Outcome.next (State.service_calls h (hval.trans (if_neg hg)) (by omega) rfl)
  · have hval : s.requeueSvc s.task arg = ((s.putPart part { p with saved := p.saved.map fun x => if x.gtid == arg then { x with hold := false } else x }).requeue1 part arg v.task.prio, 0, 0) := by
      rw [State.requeueSvc, show s.partOf? s.task.part = some p from hp, Option.map_some, Option.getD_some, hv, State.modPart_some hp]
    exact congrArg Host.Outcome.next (State.service_calls h hval (by omega) rfl)
  · have hn : (p.saved.find? fun v => v.gtid == arg && v.byCaldera && v.hold) = none := by
      refine List.find?_eq_none.2 fun v hv' => ?_
      rw [Bool.and_eq_true, Bool.and_eq_true, beq_iff_eq]
      rintro ⟨⟨e1, e2⟩, e3⟩
      rcases hv v hv' e1 with e | e
      · rw [e2] at e; cases e
      · rw [e3] at e; cases e
    refine congrArg Host.Outcome.next (State.service_refuses h ?_ (by omega))
    rw [State.requeueSvc, show s.partOf? s.task.part = some p from hp, Option.map_some, Option.getD_some, hn, hpre]
    rfl

end Sys2Proof.Machine
end

section
/-! PROOFS. Key handles, trust domains and the rebuild of a page (23:R349 to R360). -/

namespace Sys2Proof.Machine

namespace State

variable {s u : State} {arg : Word} {p : Partition}

/-! ### Key handles (23:R359, R360) -/

theorem handleWord_eq (world : BitVec 4) (serial : Nat) {i : Nat} (hi : i < 256) :
    handleWord world serial i = i + serial % 2 ^ 20 * 2 ^ 8 + world.toNat * 2 ^ 28 := by
  have hw := world.isLt
  show i % 2 ^ 8 + 2 ^ 8 * (serial % 2 ^ 20 + 2 ^ 20 * (world.toNat % 2 ^ 4 + 2 ^ 4 * 0)) = _
  omega

/-- The handle that a number names: in its place, not dropped, of its serial and world (23:R360). -/
theorem handleOf_some {part : Nat} {k : KeyHandle} (hp : s.partOf? part = some p) :
    s.handleOf part arg = some k ↔ mapGet p.keys (arg.toNat % 256) = some k ∧ k.dropped = false
      ∧ arg.toNat = arg.toNat % 256 + k.serial % 2 ^ 20 * 2 ^ 8 + p.world.toNat * 2 ^ 28 := by
  rw [handleOf, hp]
  dsimp only
  rw [Option.filter_eq_some_iff, Bool.and_eq_true, Bool.not_eq_true', beq_iff_eq, handleWord_eq _ _ (Nat.mod_lt _ (by omega))]

theorem handleOf_none {part : Nat} (hp : s.partOf? part = some p)
    (h : ∀ k, ¬(mapGet p.keys (arg.toNat % 256) = some k ∧ k.dropped = false ∧ arg.toNat = arg.toNat % 256 + k.serial % 2 ^ 20 * 2 ^ 8 + p.world.toNat * 2 ^ 28)) :
    s.handleOf part arg = none :=
  Option.eq_none_iff_forall_ne_some.2 fun k hk => h k ((handleOf_some hp).1 hk)

/-- The lowest of the 256 places that is free. -/
theorem lowest_free {q : Nat → Bool} : (∀ i, i < 256 → q i = false) → (List.range 256).find? q = none :=
  fun h => List.find?_eq_none.2 fun i hi => by simp [h i (List.mem_range.1 hi)]

theorem find_range_first {q : Nat → Bool} : ∀ {n i : Nat}, i < n → q i = true → (∀ j, j < i → q j = false) → (List.range n).find? q = some i := by
  intro n i hi hq hlow
  rw [List.find?_range_eq_some]
  exact ⟨hq, List.mem_range.2 hi, fun j hj => by simp [hlow j hj]⟩

/-! ### Trust domains (23:R352 to R356) -/

theorem partOf_of_mem {k : Nat} {x : Partition} : ∀ {m : Map Partition}, (k, x) ∈ m → ∃ y, mapGet m k = some y
  | [], h => absurd h List.not_mem_nil
  | (j, y) :: r, h => by
    rw [mapGet]
    split
    · exact ⟨y, rfl⟩
    · next hj =>
      rcases List.mem_cons.1 h with e | e
      · exact absurd (congrArg Prod.fst e).symm hj
      · exact partOf_of_mem e

theorem domainAt_part {part k : Nat} {d : Domain} (h : s.domainAt part = some (k, d)) : ∃ x, s.partOf? k = some x := by
  unfold domainAt at h
  split at h
  · cases h
  · obtain ⟨e, he, h⟩ := List.exists_of_findSome?_eq_some h
    split at h
    · rcases hd : e.2.domain with _ | d'
      · rw [hd] at h; cases h
      · rw [hd] at h
        obtain ⟨rfl, -⟩ := Prod.mk.inj (Option.some.inj h)
        exact partOf_of_mem he
    · cases h

theorem domain_setDomain {k : Nat} {x : Partition} (h : s.partOf? k = some x) (d : Domain) : (s.setDomain k d).domain? k = some d := by
  rw [setDomain, modPart_some h, domain?, partOf_putPart]
  rfl

theorem partOf_of_domain {k : Nat} {d : Domain} (h : s.domain? k = some d) : ∃ x, s.partOf? k = some x := by
  obtain ⟨x, hx, -⟩ := Option.bind_eq_some_iff.1 h
  exact ⟨x, hx⟩

/-- What messages of a domain leave: only their numbers move, and each is in the network. -/
structure Told (k : Nat) (n : Nat) (s u : State) : Prop where
  frame : u = { s with parts := u.parts, net := { s.net with out := u.net.out } }
  here : ∀ x, s.partOf? k = some x → ∃ y, u.partOf? k = some y
  domain : ∀ d, s.domain? k = some d → ∃ q, u.domain? k = some { d with sendSeq := q }
  sent : ∀ d, s.domain? k = some d → u.net.out.length = s.net.out.length + n

theorem told_none (k : Nat) : Told k 0 s s := ⟨rfl, fun x hx => ⟨x, hx⟩, fun d hd => ⟨d.sendSeq, hd⟩, fun _ _ => rfl⟩

theorem Told.trans {k n m : Nat} {v : State} (h : Told k n s u) (h' : Told k m u v) : Told k (n + m) s v := by
  refine ⟨?_, fun x hx => ?_, fun d hd => ?_, fun d hd => ?_⟩
  · rw [h'.frame, h.frame]
  · obtain ⟨y, hy⟩ := h.here x hx
    exact h'.here y hy
  · obtain ⟨q, hq⟩ := h.domain d hd
    obtain ⟨q', hq'⟩ := h'.domain _ hq
    exact ⟨q', hq'⟩
  · obtain ⟨q, hq⟩ := h.domain d hd
    rw [h'.sent _ hq, h.sent d hd, Nat.add_assoc]

theorem told_sendMsg (k peer ch kind : Nat) (payload : List Byte) : Told k 1 s (s.sendMsg k peer ch kind payload) := by
  rcases hd : s.domain? k with _ | d
  · have hs : s.sendMsg k peer ch kind payload = s := by rw [sendMsg, hd]
    rw [hs]
    exact ⟨rfl, fun x hx => ⟨x, hx⟩, fun d' hd' => ⟨_, hd'⟩, fun d' hd' => by rw [hd] at hd'; cases hd'⟩
  · obtain ⟨x, hx⟩ := partOf_of_domain hd
    have hs : ∃ q m, s.sendMsg k peer ch kind payload = (s.putPart k { x with domain := some { d with sendSeq := q } }).post m := by
      refine ⟨mapSet d.sendSeq (tupleKey peer ch) (d.nextSeq peer ch + 1), .message peer (d.seal s.pkgNo.toNat peer ch kind (d.nextSeq peer ch) payload), ?_⟩
      rw [sendMsg, hd]
      dsimp only
      rw [setDomain, modPart_some hx]
    obtain ⟨q, m, hs⟩ := hs
    have hk : ((s.putPart k { x with domain := some { d with sendSeq := q } }).post m).partOf? k = some { x with domain := some { d with sendSeq := q } } := partOf_putPart _ _
    rw [hs]
    refine ⟨rfl, fun y hy => ⟨_, hk⟩, fun d' hd' => ⟨q, ?_⟩, fun d' hd' => List.length_append⟩
    rw [domain?, hk, ← Option.some.inj (hd.symm.trans hd')]
    rfl

theorem told_control (k peer : Nat) (c : Control) : Told k (if peer = s.pkgNo.toNat then 0 else 1) s (s.control k peer c) := by
  unfold control
  split
  · exact told_none k
  · exact told_sendMsg k peer 3 5 _

theorem told_controlAll (k : Nat) (c : Control) : ∀ (l : List Nat) (s : State), Told k (l.filter (· != s.pkgNo.toNat)).length s (s.controlAll k l c)
  | [], _ => told_none k
  | m :: l, s => by
    have h := told_control (s := s) k m c
    have hpkg : (s.control k m c).pkgNo = s.pkgNo := by rw [h.frame]
    have ht := told_controlAll k c l (s.control k m c)
    rw [hpkg] at ht
    have hlen : ((m :: l).filter (· != s.pkgNo.toNat)).length = (if m = s.pkgNo.toNat then 0 else 1) + (l.filter (· != s.pkgNo.toNat)).length := by
      by_cases hm : m = s.pkgNo.toNat <;> simp [hm, Nat.add_comm]
    rw [hlen]
    exact h.trans ht

theorem domain_modDomain {k : Nat} {d : Domain} {f : Domain → Domain} (h : s.domain? k = some d) : (s.modDomain k f).domain? k = some (f d) := by
  obtain ⟨x, hx⟩ := partOf_of_domain h
  rw [modDomain, h]
  exact domain_setDomain hx (f d)

/-- A barrier that starts keeps who the domain is and who coordinates it (23:R356). -/
theorem domain_raiseBarrier {k : Nat} {d : Domain} (h : s.domain? k = some d) :
    ∃ e, (s.raiseBarrier k).domain? k = some e ∧ e.id = d.id ∧ e.members = d.members ∧ e.coord = d.coord := by
  obtain ⟨q, hq⟩ := (told_controlAll k (.barrier (nextGeneration d.gen)) d.joined s).domain d h
  rw [raiseBarrier, h]
  exact ⟨_, domain_modDomain hq, rfl, rfl, rfl⟩

theorem raiseBarrier_cur (k : Nat) : (s.raiseBarrier k).cur = s.cur := by
  rcases hd : s.domain? k with _ | d
  · rw [raiseBarrier, hd]
  · rw [raiseBarrier, hd]
    dsimp only
    rw [modDomain]
    have hc : (s.controlAll k d.joined (.barrier (nextGeneration d.gen))).cur = s.cur := by rw [(told_controlAll k (.barrier (nextGeneration d.gen)) d.joined s).frame]
    split
    · exact hc
    · exact (modPart_cur _ _ _).trans hc

/-! ### A page that is rebuilt (23:R349) -/

theorem writePieces_one (x : Piece) (bs : List Byte) : s.writePieces [x] bs = s.store x.addr (bs.take x.len) := rfl

theorem memGet_zeroes {x n : Nat} (hm : s.memOk) (b : Nat) :
    memGet (s.store x (List.replicate n 0)).mem b = if x ≤ b ∧ b < x + n then 0 else memGet s.mem b := by
  obtain ⟨y, hy, -⟩ := store_eq (s := s) x (List.replicate n 0)
  rw [hy]
  split
  · next hb =>
    obtain ⟨i, rfl⟩ := Nat.exists_eq_add_of_le hb.1
    have hi : i < (List.replicate n (0 : Byte)).length := by rw [List.length_replicate]; omega
    exact (memGet_memWrite_in (List.replicate n 0) hm hi).trans (List.getElem_replicate _)
  · next hb => exact memGet_memWrite_out (List.replicate n 0) (by rw [List.length_replicate]; omega)

/-! ### What each service answers -/

/-- The handle of a key just loaded (23:R359). -/
def loaded (serial : Nat) (key b : List Byte) : KeyHandle :=
  { serial := serial % 2 ^ 20, key := key, use := BitVec.ofNat 3 (leNat ((b.drop 40).take 1)), fixed := (b.drop 44).take 4 }

/-- `keyload` of a key that the world's key unwraps takes the lowest free place (23:R359). -/
theorem keyload_takes {b key : List Byte} {i : Nat} (hp : s.partOf? s.task.part = some p) (hb : s.readVa s.task.part arg.toNat 64 = some b)
    (hun : Crypto.unwrap (s.worldKey p.world "wrap") (b.take 40) = some key) (h1 : leNat ((b.drop 40).take 1) < 8) (h2 : leNat ((b.drop 41).take 3) = 0)
    (h3 : leNat ((b.drop 48).take 16) = 0) (hi : (List.range 256).find? (fun i => !((mapGet p.keys i).any fun k => !k.dropped)) = some i) :
    s.keyload s.task arg = ({ s.putPart s.task.part { p with keys := mapSet p.keys i (loaded ((mapGet s.keySerials p.world.toNat).getD 0) key b) } with
        keySerials := mapSet s.keySerials p.world.toNat ((mapGet s.keySerials p.world.toNat).getD 0 + 1) }, 0,
      handleWord p.world ((mapGet s.keySerials p.world.toNat).getD 0 % 2 ^ 20) i) := by
  unfold keyload
  rw [hb, hp]
  dsimp only
  rw [hun]
  dsimp only
  rw [if_neg (by omega), hi]
  dsimp only
  rw [modPart_some (s := { s with keySerials := mapSet s.keySerials p.world.toNat ((mapGet s.keySerials p.world.toNat).getD 0 + 1) }) hp]
  rfl

theorem keyload_refuses {b : List Byte} (hp : s.partOf? s.task.part = some p) (hb : s.readVa s.task.part arg.toNat 64 = some b)
    (hun : Crypto.unwrap (s.worldKey p.world "wrap") (b.take 40) = none) : s.keyload s.task arg = (s, 2, 0) := by
  unfold keyload
  rw [hb, hp]
  dsimp only
  rw [hun]

theorem keyload_full {b key : List Byte} (hp : s.partOf? s.task.part = some p) (hb : s.readVa s.task.part arg.toNat 64 = some b)
    (hun : Crypto.unwrap (s.worldKey p.world "wrap") (b.take 40) = some key) (h1 : leNat ((b.drop 40).take 1) < 8) (h2 : leNat ((b.drop 41).take 3) = 0)
    (h3 : leNat ((b.drop 48).take 16) = 0) (hi : (List.range 256).find? (fun i => !((mapGet p.keys i).any fun k => !k.dropped)) = none) :
    s.keyload s.task arg = (s, 3, 0) := by
  unfold keyload
  rw [hb, hp]
  dsimp only
  rw [hun]
  dsimp only
  rw [if_neg (by omega), hi]

/-- The domain that a well-formed descriptor states (23:R352). -/
def stated (s : State) (h l : List Byte) (ms : List Nat) : Domain :=
  { id := leNat ((h.drop 0).take 2), members := ms, meas := (h.drop 8).take 48, digest := Crypto.sha384 (h ++ l), coord := ms.head?.getD s.pkgNo.toNat
    joined := [s.pkgNo.toNat], since := s.cycle }

/-- The domain as another list of its members leaves it (23:R353). -/
def listed (d : Domain) (fresh : Domain) : Domain :=
  { d with members := fresh.members, meas := fresh.meas, digest := fresh.digest, coord := if fresh.members == d.members then d.coord else fresh.coord
           joined := d.joined.filter fresh.members.contains }

section Descriptor

variable {h l : List Byte} {ms : List Nat} (hh : s.readVa s.task.part arg.toNat 64 = some h) (h1 : leNat ((h.drop 0).take 2) ≠ 0) (h2 : leNat ((h.drop 2).take 2) = 0)
  (h3 : 2 ≤ leNat ((h.drop 4).take 4)) (h4 : leNat ((h.drop 4).take 4) ≤ 524288) (h5 : leNat ((h.drop 56).take 8) = 0)
  (hl : s.readVa s.task.part (arg.toNat + 64) (8 * leNat ((h.drop 4).take 4)) = some l) (hms : memberList l (leNat ((h.drop 4).take 4)) = ms)
  (hrise : rising ms = true) (hsmall : ∀ m ∈ ms, m < 2 ^ 19) (hme : s.pkgNo.toNat ∈ ms)
include hh h1 h2 h3 h4 h5 hl hms hrise hsmall hme

/-- `domset` of a well-formed descriptor goes by the domain that the world has (23:R352). -/
theorem domset_reads : s.domset s.task arg = match s.domainAt s.task.part with
    | none => (s.setDomain s.task.part (stated s h l ms), 0, 0)
    | some (k, d) =>
      if d.id ≠ (stated s h l ms).id then (s, 3, 0)
      else
        (if (listed d (stated s h l ms)).coord = s.pkgNo.toNat && d.st != .joining && ms != d.members
            && ((d.joined.any fun m => !ms.contains m) || ms.all (listed d (stated s h l ms)).joined.contains) then
          (s.setDomain k (listed d (stated s h l ms))).raiseBarrier k else s.setDomain k (listed d (stated s h l ms)), 0, 0) := by
  have hany : (ms.any fun m => decide (2 ^ 19 ≤ m)) = false := List.any_eq_false.2 fun m hm => by simpa using hsmall m hm
  have hcont : ms.contains s.pkgNo.toNat = true := List.contains_iff_mem.2 hme
  have hok : (!rising ms || (ms.any fun m => decide (2 ^ 19 ≤ m)) || !ms.contains s.pkgNo.toNat) = false := by rw [hrise, hany, hcont]; rfl
  unfold domset
  rw [hh]
  dsimp only
  rw [if_neg (by omega), hl]
  dsimp only
  rw [hms, hok, if_neg Bool.false_ne_true]
  rcases s.domainAt s.task.part with _ | ⟨k, d⟩ <;> rfl

end Descriptor

theorem domleave_leaves {k : Nat} {d : Domain} (hat : s.domainAt s.task.part = some (k, d)) (hid : d.id = arg.toNat) : ∃ c,
    s.domleave s.task arg = ((s.controlAll k (d.joined.filter (· != s.pkgNo.toNat)) c).modPart k fun p => { p with domain := none }, 0, 0) := by
  refine ⟨if d.coord = s.pkgNo.toNat then .successor ((d.joined.filter (· != s.pkgNo.toNat)).foldl min ((d.joined.filter (· != s.pkgNo.toNat)).headD 0)) else .leave, ?_⟩
  unfold domleave
  rw [hat]
  exact if_neg (not_not.2 hid)

theorem pgrebuild_odd (ha : arg.toNat % 4096 ≠ 0) : s.pgrebuild s.task arg = (s, 2, 0) := by
  unfold pgrebuild
  dsimp only
  rw [if_pos ha]

theorem pgrebuild_high (ha : 2 ^ 52 ≤ arg.toNat) : s.pgrebuild s.task arg = (s, 2, 0) := by
  unfold pgrebuild
  dsimp only
  split
  · rfl
  · rw [if_pos (show 2 ^ 52 < arg.toNat + 4096 by omega)]

/-- `pgrebuild` of one page zeroes it and ends its poison (23:R349). -/
theorem pgrebuild_cleans {x : Piece} (ha : arg.toNat % 4096 = 0) (hlt : arg.toNat < 2 ^ 52) (hw : s.walkRange s.task.part arg.toNat 2 4096 = .ok [x])
    (hclosed : s.closed s.task.part [x] = false) :
    s.pgrebuild s.task arg = ((s.store x.addr ((List.replicate 4096 0).take x.len)).cleanPage x.addr, 0, 0) := by
  unfold pgrebuild
  dsimp only
  rw [if_neg (not_not.2 ha), if_neg (show ¬2 ^ 52 < arg.toNat + 4096 by omega), hw]
  dsimp only
  rw [hclosed]
  rfl

end State

/-- Settles O49: each trust service runs once, with its code and result. -/
theorem trustServices : Obligations.TrustServices := by
  intro s arg p part a bad set free live hp
  have hfree (i : Nat) : (!((mapGet p.keys i).any fun k => !k.dropped)) = true ↔ free i := by
    show _ ↔ ∀ k, mapGet p.keys i = some k → k.dropped = true
    rcases mapGet p.keys i with _ | k <;> simp
  have hgone (hk : ∀ k, ¬live k) : s.handleOf part arg = none := State.handleOf_none hp hk
  refine ⟨fun h b hb => ?_, fun h => ⟨fun k hk => ?_, fun hk => ?_⟩, fun h => ⟨fun k hk => ?_, fun hk => ?_⟩, fun h hd l hhd => ?_,
    fun h => ⟨fun hnone => ?_, fun k d hat => ?_⟩, fun h => ⟨fun ha => ?_, fun h1 h2 => ⟨fun hnone => ?_, fun k d hat => ?_⟩⟩,
    fun h => ⟨fun ha => ?_, fun ha => ?_, fun x hm ha hlt hw hlen hclosed => ?_⟩⟩
  · refine ⟨fun hun => congrArg Host.Outcome.next (State.service_refuses h (State.keyload_refuses hp hb hun) (by omega)), fun key hun h1 h2 h3 => ⟨fun hfull => ?_, fun i hi hf hlow => ?_⟩⟩
    · have hnone := State.lowest_free (q := fun i => !((mapGet p.keys i).any fun k => !k.dropped)) fun i hi => Bool.eq_false_iff.2 fun e => hfull i hi ((hfree i).1 e)
      exact congrArg Host.Outcome.next (State.service_refuses h (State.keyload_full hp hb hun h1 h2 h3 hnone) (by omega))
    · have hsome := State.find_range_first (q := fun i => !((mapGet p.keys i).any fun k => !k.dropped)) hi ((hfree i).2 hf) fun j hj => Bool.eq_false_iff.2 fun e => hlow j hj ((hfree j).1 e)
      have hk := State.keyload_takes hp hb hun h1 h2 h3 hsome
      rw [State.handleWord_eq _ _ hi, Nat.mod_mod] at hk
      exact congrArg Host.Outcome.next (State.service_calls h hk (by omega) rfl)
  · refine congrArg Host.Outcome.next (State.service_sets (f := fun p => { p with keys := mapSet p.keys (a % 256) { k with dropped := true } }) h hp ?_)
    rw [State.keydrop, show s.handleOf s.task.part arg = some k from (State.handleOf_some hp).2 hk]
  · refine congrArg Host.Outcome.next (State.service_refuses h ?_ (by omega))
    rw [State.keydrop, show s.handleOf s.task.part arg = none from hgone hk]
  · have hk' : s.keyctr s.task arg = (s, 0, k.counter % 2 ^ 56) := by rw [State.keyctr, show s.handleOf s.task.part arg = some k from (State.handleOf_some hp).2 hk]
    exact congrArg Host.Outcome.next ((State.service_calls h hk' (by omega) rfl).trans (State.served_mod _ _ _))
  · refine congrArg Host.Outcome.next (State.service_refuses h ?_ (by omega))
    rw [State.keyctr, show s.handleOf s.task.part arg = none from hgone hk]
  · intro n ms h1 h2 h3 h4 h5 hl hrise hsmall hme
    have hread := State.domset_reads hhd h1 h2 h3 h4 h5 hl rfl hrise hsmall hme
    have hhead : ms.head?.getD s.pkgNo.toNat = ms.headD 0 := by
      rcases hms : ms with _ | ⟨m, r⟩
      · rw [hms] at hme; exact absurd hme List.not_mem_nil
      · rfl
    refine ⟨fun hnone => ?_, fun k d hat => ?_⟩
    · rw [show s.domainAt s.task.part = none from hnone] at hread
      refine ⟨State.stated s hd l ms, congrArg Host.Outcome.next ((State.service_calls h hread (by omega) ((State.modPart_cur _ _ _))).trans ?_), rfl, rfl, hhead, rfl, rfl, rfl⟩
      rw [State.setDomain, State.modPart_some hp]
    · rw [show s.domainAt s.task.part = some (k, d) from hat] at hread
      dsimp only at hread
      obtain ⟨x, hx⟩ := State.domainAt_part hat
      split
      · next hid => exact congrArg Host.Outcome.next (State.service_refuses h (hread.trans (if_pos hid)) (by omega))
      · next hid =>
        replace hread := hread.trans (if_neg hid)
        have hset := State.domain_setDomain hx (State.listed d (State.stated s hd l ms))
        have hcoord : (State.listed d (State.stated s hd l ms)).coord = if ms = d.members then d.coord else ms.headD 0 := by
          show (if ms == d.members then d.coord else ms.head?.getD s.pkgNo.toNat) = _
          rw [hhead]
          by_cases e : ms = d.members <;> simp [e]
        split at hread
        · obtain ⟨e, he, e1, e2, e3⟩ := State.domain_raiseBarrier hset
          exact ⟨_, e, congrArg Host.Outcome.next (State.service_calls h hread (by omega) ((State.raiseBarrier_cur _).trans (State.modPart_cur _ _ _))), he, e1, e2, e3.trans hcoord⟩
        · exact ⟨_, _, congrArg Host.Outcome.next (State.service_calls h hread (by omega) (State.modPart_cur _ _ _)), hset, rfl, rfl, hcoord⟩
  · refine congrArg Host.Outcome.next (State.service_refuses h ?_ (by omega))
    rw [State.domleave, show s.domainAt s.task.part = none from hnone]
  · split
    · next hid =>
      refine congrArg Host.Outcome.next (State.service_refuses h ?_ (by omega))
      rw [State.domleave, show s.domainAt s.task.part = some (k, d) from hat]
      exact if_pos hid
    · next hid =>
      obtain ⟨c, hc⟩ := State.domleave_leaves hat (not_not.1 hid)
      obtain ⟨x, hx⟩ := State.domainAt_part hat
      have ht := State.told_controlAll k c (d.joined.filter (· != s.pkgNo.toNat)) s
      obtain ⟨y, hy⟩ := ht.here x hx
      rw [State.modPart_some hy] at hc
      refine ⟨_, congrArg Host.Outcome.next (State.service_calls h hc (by omega) ?_), ?_, ?_, fun hdom => ?_⟩
      · show (s.controlAll k (d.joined.filter (· != s.pkgNo.toNat)) c).cur = s.cur
        rw [ht.frame]
      · rw [State.partOf_putPart]
        rfl
      · rw [State.putPart, ht.frame]
      · show (s.controlAll k (d.joined.filter (· != s.pkgNo.toNat)) c).net.out.length = _
        rw [ht.sent d hdom, List.filter_filter]
        simp
  · exact congrArg Host.Outcome.next (State.service_refuses h (if_pos ha) (by omega))
  · refine congrArg Host.Outcome.next (State.service_refuses h ?_ (by omega))
    rw [State.domstat, if_neg (show ¬(arg.toNat = 0 ∨ 65536 ≤ arg.toNat) by omega), show s.domainAt s.task.part = none from hnone]
    rfl
  · have hread : s.domstat s.task arg = match (some (k, d)).filter fun d => d.2.id == arg.toNat with
        | none => (s, 0, 0)
        | some (_, d) => (s, 0, packFields [(8, match d.st with
            | .joining => 1
            | .opened => 3
            | _ => 2), (16, d.gen), (24, d.joined.length)]) := by
      rw [State.domstat, if_neg (show ¬(arg.toNat = 0 ∨ 65536 ≤ arg.toNat) by omega), show s.domainAt s.task.part = some (k, d) from hat] <;> rfl
    split
    · next hid =>
      refine congrArg Host.Outcome.next (State.service_refuses h (hread.trans ?_) (by omega))
      rw [Option.filter_some, if_neg (by simpa using hid)]
    · next hid =>
      rw [Option.filter_some, if_pos (beq_iff_eq.2 (not_not.1 hid))] at hread
      refine congrArg Host.Outcome.next ((State.service_calls h hread (by omega) rfl).trans ?_)
      have hst : packFields [(8, match d.st with
            | .joining => 1
            | .opened => 3
            | _ => 2), (16, d.gen), (24, d.joined.length)]
          = (if d.st = .joining then 1 else if d.st = .opened then 3 else 2) + d.gen % 2 ^ 16 * 2 ^ 8 + d.joined.length % 2 ^ 24 * 2 ^ 24 := by
        simp only [packFields]
        rcases d.st <;> simp <;> omega
      rw [hst]
  · exact congrArg Host.Outcome.next (State.service_refuses h (State.pgrebuild_odd ha) (by omega))
  · exact congrArg Host.Outcome.next (State.service_refuses h (State.pgrebuild_high ha) (by omega))
  · have hcur : ((s.store x.addr ((List.replicate 4096 0).take x.len)).cleanPage x.addr).cur = s.cur := by
      obtain ⟨y, hy, -⟩ := State.store_eq (s := s) x.addr ((List.replicate 4096 0).take x.len)
      rw [State.cleanPage, hy]
    refine ⟨_, congrArg Host.Outcome.next (State.service_calls h (State.pgrebuild_cleans ha hlt hw hclosed) (by omega) hcur), ?_, ?_, fun b => ?_⟩
    · obtain ⟨y, hy, -⟩ := State.store_eq (s := s) x.addr ((List.replicate 4096 0).take x.len)
      rw [State.cleanPage, hy]
    · obtain ⟨y, hy, -⟩ := State.store_eq (s := s) x.addr ((List.replicate 4096 0).take x.len)
      rw [State.cleanPage, hy]
    · rw [hlen, List.take_of_length_le (Nat.le_of_eq List.length_replicate)]
      exact State.memGet_zeroes hm b

end Sys2Proof.Machine
end

section
/-! PROOFS. Firmware services of capsules and of the step queue (21:R331 to R336, 20:R318, 18:R281). -/

namespace Sys2Proof.Machine

namespace State

variable {s u : State} {arg : Word} {p : Partition}

/-! ### References, deletion and status (21:R331) -/

theorem capsule_eq (hp : s.partOf? s.task.part = some p) (id : Nat) : s.capsule? s.task.part id = p.capsules.find? fun c => c.capid == id := by
  rw [capsule?, hp]

theorem capid_of {part id : Nat} {c : Capsule} (h : s.capsule? part id = some c) : c.capid = id := by
  unfold capsule? at h
  split at h
  · cases h
  · exact beq_iff_eq.1 (List.find?_some (p := fun c : Capsule => c.capid == id) h)

theorem noCapsule_eq (hp : s.partOf? s.task.part = some p) (id : Nat) :
    s.noCapsule s.task.part id = if (mapGet p.deleted id).isSome then (s, 3, 6) else (s, 2, 0) := by
  rw [noCapsule, hp]
  rfl

theorem capdel_deletes {c : Capsule} (hp : s.partOf? s.task.part = some p) (hc : s.capsule? s.task.part arg.toNat = some c) :
    s.capdel s.task arg = if c.code ≠ 4 then (s, 3, 6) else if s.capLive s.task.part arg.toNat = true then (s, 3, 7)
      else if s.savedOf s.task.part arg.toNat ≠ 0 then (s, 3, 8)
      else (s.putPart s.task.part { p with
          capsules := p.capsules.filter fun x => x.capid != arg.toNat, deleted := mapSet p.deleted arg.toNat c.bodygen, supCap := p.supCap.filter (· != arg.toNat) }, 0, 0) := by
  unfold capdel
  rw [hc]
  dsimp only
  rw [capid_of hc, modPart_some hp]

theorem code_le (c : Capsule) : c.code ≤ 4 := by
  unfold Capsule.code
  split <;> omega

/-- The status word of a capsule: its code, its references, its saved tasks and the generation of its body (21:R334). -/
theorem capstat_word (c : Capsule) (n : Nat) : packFields [(4, c.code), (8, c.refs.toNat), (16, min n 65535), (28, c.bodygen)]
    = c.code + c.refs.toNat * 2 ^ 4 + min n 65535 * 2 ^ 12 + c.bodygen % 2 ^ 28 * 2 ^ 28 := by
  have h1 := code_le c
  have h2 := c.refs.isLt
  simp only [packFields]
  omega

theorem capstat_deleted (g : Nat) : packFields [(4, 5), (8, 0), (16, 0), (28, g)] = 5 + g % 2 ^ 28 * 2 ^ 28 := by
  simp only [packFields]
  omega

theorem capref_answers {c : Capsule} (hc : s.capsule? s.task.part (arg.toNat % 2 ^ 40) = some c) (ha : arg.toNat < 2 ^ 44) :
    s.capref s.task arg = if arg.getLsbD 43 = true then (if c.refs.getLsbD (arg.toNat / 2 ^ 40 % 8) = true
          then (s.modCapsule s.task.part (arg.toNat % 2 ^ 40) fun c => c.dropRef (arg.toNat / 2 ^ 40 % 8), 0, 0) else (s, 3, 10))
      else if c.code = 4 then (s, 3, 6) else if c.refs.getLsbD (arg.toNat / 2 ^ 40 % 8) = true then (s, 3, 10)
      else (s.modCapsule s.task.part (arg.toNat % 2 ^ 40) fun c => { c with refs := c.refs ||| ((1 : BitVec 8) <<< (arg.toNat / 2 ^ 40 % 8)) }, 0, 0) := by
  have h0 : field arg.toNat 0 40 = arg.toNat % 2 ^ 40 := by rw [field, Nat.pow_zero, Nat.div_one]
  have h3 : field arg.toNat 40 3 = arg.toNat / 2 ^ 40 % 8 := rfl
  have h44 : field arg.toNat 44 20 = 0 := by rw [field, Nat.div_eq_of_lt ha, Nat.zero_mod]
  unfold capref
  rw [h0, h3]
  dsimp only
  rw [h44, if_neg (not_not.2 rfl), hc]
  rfl

/-! ### Installation (21:R332) -/

theorem capinst_checks {b : List Byte} (hp : s.partOf? s.task.part = some p) (ha : arg.toNat % 4096 = 0) (hlt : arg.toNat < 2 ^ 52)
    (hb : s.readImage s.task.part arg.toNat = some b) : s.capinst s.task arg = match s.installCheck p b with
      | .error r => (s, 3, r)
      | .ok c => (s.install s.task.part c, 0, c.code) := by
  unfold capinst
  dsimp only
  rw [if_neg (by omega), hb, hp] <;> rfl

theorem install_frame {c : Capsule} (hp : s.partOf? s.task.part = some p) : (s.install s.task.part c).cur = s.cur
    ∧ (s.install s.task.part c).partOf? s.task.part = some { p with
          capsules := p.capsules ++ [c], deleted := mapErase p.deleted c.capid, supCap := some (p.supCap.getD c.capid) }
    ∧ (s.install s.task.part c).mem = memWrite s.mem c.base (Image.bytes c.image (Image.read c.image).text) := by
  obtain ⟨y, hy, -⟩ := store_eq (s := s) c.base (Image.bytes c.image (Image.read c.image).text)
  rw [install, hy]
  refine ⟨modPart_cur _ _ _, ?_, modPart_mem _ _ _⟩
  rw [partOf_modPart, if_pos rfl]
  show (s.partOf? s.task.part).map _ = _
  rw [hp]
  rfl

/-! ### What is left of a task that is dropped (21:R336) -/

/-- What the end of a task leaves: its core's slots, Caldera's queue and the saved tasks. -/
structure KeepsQueues (s u : State) : Prop where
  slots : u.slots = s.slots
  cur : u.cur = s.cur
  work : u.cald.work = s.cald.work
  saved : ∀ q, (u.partOf? q).map (·.saved) = (s.partOf? q).map (·.saved)

theorem KeepsQueues.refl : s.KeepsQueues s := ⟨rfl, rfl, rfl, fun _ => rfl⟩

theorem KeepsQueues.trans {v : State} (h : s.KeepsQueues u) (h' : u.KeepsQueues v) : s.KeepsQueues v :=
  ⟨h'.slots.trans h.slots, h'.cur.trans h.cur, h'.work.trans h.work, fun q => (h'.saved q).trans (h.saved q)⟩

theorem keepsQueues_rootDone (t : Task) : s.KeepsQueues (s.rootDone t) := by
  unfold rootDone
  split
  · exact .refl
  · split
    · exact .refl
    · exact ⟨rfl, rfl, rfl, fun _ => rfl⟩

theorem keepsQueues_leaveGang (id rank : Nat) : s.KeepsQueues (s.leaveGang id rank) := by
  unfold leaveGang
  split
  · exact .refl
  · exact ⟨rfl, rfl, rfl, fun _ => rfl⟩

theorem keepsQueues_sendUncount (key part : Nat) (g : Word) (a : Nat) : s.KeepsQueues (s.sendUncount key part g a) := by
  unfold sendUncount
  split
  · obtain ⟨e, tl, ht⟩ := tileBank_eq (s := s) part (placeOf a).2.1 false (placeOf a).2.2.1
    rw [ht]
    obtain ⟨y, hy, -⟩ := store_eq (s := { s with tiles := tl }) a (leBytes 8 ((({ s with tiles := tl } : State).loadNat a 8 + (2 ^ 64 - 1)) % 2 ^ 64))
    unfold uncount storeNat
    dsimp only
    rw [hy]
    split <;> exact ⟨rfl, rfl, rfl, fun _ => rfl⟩
  · exact ⟨rfl, rfl, rfl, fun _ => rfl⟩

theorem keepsQueues_afterAll {t : Task} {key : Nat} {op : HeldOp} (h : s.KeepsQueues u) : s.KeepsQueues (s.afterAll t key op u) := by
  unfold afterAll
  split
  · exact ⟨rfl, rfl, rfl, fun _ => rfl⟩
  · exact h

/-- A partition in which nothing waits for a task any more (02:R35). -/
def forgets (g : Word) (p : Partition) : Partition := { p with
  dir := p.dir.map fun (d : Nat × DirEntry) => (d.1, { d.2 with waiters := d.2.waiters.filter (·.gtid != g) })
  capsules := p.capsules.map fun (c : Capsule) => { c with joiners := c.joiners.map fun j => if j.gtid == g then { j with dead := true } else j } }

theorem keepsQueues_orphan (g : Word) : s.KeepsQueues (s.orphan g) := by
  have hparts : (s.orphan g).parts = s.parts.map fun e => (e.1, forgets g e.2) := rfl
  refine ⟨rfl, rfl, rfl, fun q => ?_⟩
  rw [partOf?, hparts, mapGet_map (forgets g), Option.map_map]
  rfl

theorem keepsQueues_modPart {part : Nat} {f : Partition → Partition} (hf : ∀ p, (f p).saved = p.saved) : s.KeepsQueues (s.modPart part f) := by
  refine ⟨modPart_slots _ _ _, modPart_cur _ _ _, by rw [modPart_cald], fun q => ?_⟩
  rw [partOf_modPart]
  split
  · rw [Option.map_map]
    exact congrArg (fun g => Option.map g (s.partOf? q)) (funext hf)
  · rfl

theorem keepsQueues_ended (t : Task) (key : Nat) : s.KeepsQueues (s.ended t key) := by
  have h1 : s.KeepsQueues (s.rootDone t) := keepsQueues_rootDone t
  have hgang (v : State) : v.KeepsQueues (match t.gang with
      | none => v
      | some id => v.afterAll t key (.leave id t.grank) (v.leaveGang id t.grank)) := by
    split
    · exact .refl
    · exact keepsQueues_afterAll (keepsQueues_leaveGang _ _)
  have hjoin (v : State) : v.KeepsQueues (match t.join with
      | none => v
      | some a => v.afterAll t key (.uncount a) (v.sendUncount key t.part t.gtid a)) := by
    split
    · exact .refl
    · exact keepsQueues_afterAll (keepsQueues_sendUncount _ _ _ _)
  have hunwait (v : State) : v.KeepsQueues (v.unwait t.part t.gtid) := by
    have hv : v.KeepsQueues { v with vtiles := v.vtiles.map fun (e : Nat × VTile) =>
        if e.1 / 1024 == t.part then (e.1, { e.2 with waiters := e.2.waiters.map fun (l : List SemWaiter) => l.filter (· != SemWaiter.task t.gtid) }) else e } :=
      ⟨rfl, rfl, rfl, fun _ => rfl⟩
    exact hv.trans (keepsQueues_modPart fun p => rfl)
  exact (((h1.trans (hgang _)).trans (hjoin _)).trans (keepsQueues_orphan t.gtid)).trans (hunwait _)

/-- The state in which a dropped task has left its partition and Caldera's queue (21:R336). -/
def dropSaved (s : State) (part : Nat) (g : Word) : State :=
  { s.modPart part fun p => { p with saved := p.saved.filter fun x => x.gtid != g } with
    cald := { s.cald with work := s.cald.work.filter fun w => w.work != Work.saved g } }

theorem ctxdrop_drops {v : Saved} (hp : s.partOf? s.task.part = some p) (hv : (p.saved.find? fun v => v.gtid == arg) = some v) :
    s.ctxdrop s.task arg = ((s.dropSaved s.task.part arg).ended v.task (v.task.home * 16), 0, 0) := by
  unfold ctxdrop
  rw [hp, Option.map_some, Option.bind_some, hv]
  dsimp only
  rw [modPart_cald]
  rfl

/-! ### The step queue (20:R318) -/

/-- The packet is judged by the partition's capsules, tiles and slots (20:R312). -/
theorem packetStatus_cring {part c : Nat} (hp : s.partOf? part = some p) (q : Nat) (k : Packet) :
    (s.putPart part { p with cring := some c }).packetStatus part q k = s.packetStatus part q k := by
  have ht : (s.putPart part { p with cring := some c }).tilesOf part = s.tilesOf part := by
    rw [tilesOf, tilesOf, partOf_putPart, hp]
    rfl
  unfold packetStatus
  rw [ht, partOf_putPart, hp]
  rfl

/-- The step queue that a descriptor sets up (20:R318). -/
def stepqOf (s : State) (part : Nat) (b : List Byte) : StepQ :=
  let n (o k : Nat) : Nat := leNat ((b.drop o).take k)
  { root := b.take 256, sched := n 256 4, pool := n 264 8, npages := n 272 4, pglog := n 276 1, adm := n 280 8, cring := n 288 8, plarea := n 296 8
    pgfree := n 272 4, admTail := ((s.ringState part (n 280 8)).map (·.2)).getD 0 }

theorem launchStep_runs {part : Nat} {x : StepQ} (hp : s.partOf? part = some p) (h : s.packetStatus part 0 (Packet.read x.root) = 1) :
    ∃ id, (s.launchStep part x).stepq? part = some { x with phase := .running id } ∧ (s.launchStep part x).cald.launches.length = s.cald.launches.length + 1
      ∧ (s.launchStep part x).cur = s.cur := by
  have hl : s.launchStep part x = (s.acceptLaunch part 0 (Packet.read x.root) (some x.stepno) false).2.putStepq part
      { x with phase := .running (s.acceptLaunch part 0 (Packet.read x.root) (some x.stepno) false).1 } := by
    unfold launchStep
    exact if_pos h
  have hpart : ∃ y, (s.acceptLaunch part 0 (Packet.read x.root) (some x.stepno) false).2.partOf? part = some y := by
    rw [acceptLaunch]
    dsimp only
    rw [modCapsule, partOf_modPart, if_pos rfl]
    show ∃ y, (s.partOf? part).map _ = some y
    rw [hp]
    exact ⟨_, rfl⟩
  obtain ⟨y, hy⟩ := hpart
  rw [hl, putStepq, modPart_some hy]
  refine ⟨(s.acceptLaunch part 0 (Packet.read x.root) (some x.stepno) false).1, ?_, ?_, ?_⟩
  · rw [stepq?, partOf_putPart]
    rfl
  · show (s.acceptLaunch part 0 (Packet.read x.root) (some x.stepno) false).2.cald.launches.length = _
    rw [acceptLaunch]
    dsimp only
    rw [modCapsule, modPart_cald]
    exact List.length_append
  · exact modPart_cur _ _ _

end State

theorem field_take {o k n : Nat} (b : List Byte) (h : o + k ≤ n) : ((b.take n).drop o).take k = (b.drop o).take k := by
  rw [List.drop_take, List.take_take, Nat.min_eq_left (by omega)]

/-- A packet is in the first 256 bytes of its slot (20:R313). -/
theorem read_take (b : List Byte) : Packet.read (b.take 256) = Packet.read b := by
  have hargs : ((List.range 4).map fun i => leNat (((b.take 256).drop (32 + 8 * i)).take 8)) = (List.range 4).map fun i => leNat ((b.drop (32 + 8 * i)).take 8) :=
    List.map_congr_left fun i hi => by
      have := List.mem_range.1 hi
      rw [field_take b (by omega)]
  have hseg : (fun i : Fin 8 => BitVec.ofNat 128 (leNat (((b.take 256).drop (64 + 16 * i.val)).take 16))) = fun i => BitVec.ofNat 128 (leNat ((b.drop (64 + 16 * i.val)).take 16)) :=
    funext fun i => by rw [field_take b (by omega)]
  unfold Packet.read
  dsimp only
  rw [hargs, hseg]
  simp only [field_take b, Nat.reduceAdd, Nat.reduceLeDiff]

/-- Settles O48: each service of capsules and of the step queue runs once, with its code and result. -/
theorem capsuleServices : Obligations.CapsuleServices := by
  intro s arg p part a bad hp
  refine ⟨fun h b hb => ?_, fun h => ⟨fun ha => ?_, fun ha hlt b hb => ?_⟩, fun h c hc ha => ?_, fun h => ⟨fun hn => ?_, fun c hc => ?_⟩, fun h => ⟨fun hn => ?_, fun c hc => ?_⟩,
    fun h => ⟨fun hn => ?_, fun v hv => ?_⟩, fun h b c v hb hc => ?_⟩
  · intro n k schedOk h1 h2 h3 h4 h5 h6 h7 h8 h9 h10 h11 h12 h13 h14 h15
    have hcheck : ¬(n 260 4 ≠ 0 ∨ n 277 3 ≠ 0 ∨ n 304 16 ≠ 0 ∨ n 272 4 = 0 ∨ 2 ^ 24 < n 272 4 ∨ n 276 1 < 12 ∨ 21 < n 276 1
        ∨ n 264 8 % 2 ^ n 276 1 ≠ 0 ∨ (!ringOk (n 280 8)) = true ∨ (!ringOk (n 288 8)) = true ∨ n 296 8 % 4096 ≠ 0 ∨ k.serial = true ∨ k.doneaddr ≠ 0
        ∨ s.packetStatus part 0 k ≠ 1 ∨ (!schedOk) = true) := by
      have r1 : ringOk (n 280 8) = true := decide_eq_true h9
      have r2 : ringOk (n 288 8) = true := decide_eq_true h10
      rw [r1, r2, h12, h15, h14, h13, Bool.not_true]
      simp only [Bool.false_eq_true, false_or, or_false, ne_eq, not_true_eq_false]
      omega
    have hstep : s.stepcfg s.task arg = if p.stepq.isSome = true then (s, 3, 0) else
        ((s.putPart part { p with cring := some (n 288 8) }).launchStep part (s.stepqOf part b), 0, 0) := by
      rw [State.stepcfg, show s.readVa s.task.part arg.toNat 320 = some b from hb, show s.partOf? s.task.part = some p from hp]
      refine (if_neg hcheck).trans ?_
      dsimp only
      rw [State.modPart_some hp]
      rfl
    split
    · next hq => exact congrArg Host.Outcome.next (State.service_calls h (hstep.trans (if_pos hq)) (by omega) rfl)
    · next hq =>
      have hst : (s.putPart part { p with cring := some (n 288 8) }).packetStatus part 0 (Packet.read (s.stepqOf part b).root) = 1 := by
        rw [State.packetStatus_cring hp]
        show s.packetStatus part 0 (Packet.read (b.take 256)) = 1
        rw [read_take]
        exact h14
      obtain ⟨id, e1, e2, e3⟩ := State.launchStep_runs (State.partOf_putPart part { p with cring := some (n 288 8) }) hst
      exact ⟨_, _, id, congrArg Host.Outcome.next (State.service_calls h (hstep.trans (if_neg hq)) (by omega) e3), e1, rfl, rfl, rfl, rfl, rfl, rfl, rfl, rfl, rfl, rfl, rfl, rfl,
        e2, State.mem_launchStep _ _⟩
  · refine congrArg Host.Outcome.next (State.service_refuses h ?_ (by omega))
    rw [State.capinst]
    exact if_pos (.inl ha)
  · have hci := State.capinst_checks hp ha hlt hb
    rcases hchk : s.installCheck p b with r | c
    · rw [hchk] at hci
      exact congrArg Host.Outcome.next (State.service_calls h hci (by omega) rfl)
    · rw [hchk] at hci
      obtain ⟨h1, h2, h3⟩ := State.install_frame (c := c) hp
      exact ⟨_, congrArg Host.Outcome.next (State.service_calls h hci (by omega) h1), h2, h3⟩
  · have hcr := State.capref_answers hc ha
    have hcur (f : Capsule → Capsule) : (s.modCapsule part (a % 2 ^ 40) f).cur = s.cur := State.modPart_cur _ _ _
    show (.next (s.service 0x41 s.capref) : Out) = _
    split
    · next h43 =>
      rw [if_pos h43] at hcr
      split
      · next hq => exact congrArg Host.Outcome.next (State.service_calls h (hcr.trans (if_pos hq)) (by omega) (hcur _))
      · next hq => exact congrArg Host.Outcome.next (State.service_calls h (hcr.trans (if_neg hq)) (by omega) rfl)
    · next h43 =>
      rw [if_neg h43] at hcr
      split
      · next h4 => exact congrArg Host.Outcome.next (State.service_calls h (hcr.trans (if_pos h4)) (by omega) rfl)
      · next h4 =>
        rw [if_neg h4] at hcr
        split
        · next hq => exact congrArg Host.Outcome.next (State.service_calls h (hcr.trans (if_pos hq)) (by omega) rfl)
        · next hq => exact congrArg Host.Outcome.next (State.service_calls h (hcr.trans (if_neg hq)) (by omega) (hcur _))
  · have hv : s.capdel s.task arg = if (mapGet p.deleted a).isSome then (s, 3, 6) else (s, 2, 0) := by
      rw [State.capdel, show s.capsule? s.task.part arg.toNat = none from hn]
      exact State.noCapsule_eq hp a
    split
    · next hd => exact congrArg Host.Outcome.next (State.service_calls h (hv.trans (if_pos hd)) (by omega) rfl)
    · next hd => exact congrArg Host.Outcome.next (State.service_calls h (hv.trans (if_neg hd)) (by omega) rfl)
  · have hv := State.capdel_deletes hp hc
    show (.next (s.service 0x42 s.capdel) : Out) = _
    split
    · next h1 => exact congrArg Host.Outcome.next (State.service_calls h (hv.trans (if_pos h1)) (by omega) rfl)
    · next h1 =>
      rw [if_neg h1] at hv
      split
      · next h2 => exact congrArg Host.Outcome.next (State.service_calls h (hv.trans (if_pos h2)) (by omega) rfl)
      · next h2 =>
        rw [if_neg h2] at hv
        split
        · next h3 => exact congrArg Host.Outcome.next (State.service_calls h (hv.trans (if_pos h3)) (by omega) rfl)
        · next h3 => exact congrArg Host.Outcome.next (State.service_calls h (hv.trans (if_neg h3)) (by omega) rfl)
  · have hv : s.capstat s.task arg = match mapGet p.deleted a with
        | some gen => (s, 0, packFields [(4, 5), (8, 0), (16, 0), (28, gen)])
        | none => (s, 2, 0) := by
      rw [State.capstat, show s.capsule? s.task.part arg.toNat = none from hn, show s.partOf? s.task.part = some p from hp]
      rfl
    rcases hd : mapGet p.deleted a with _ | g
    · rw [hd] at hv
      exact congrArg Host.Outcome.next (State.service_calls h hv (by omega) rfl)
    · rw [hd] at hv
      replace hv := hv.trans (congrArg (fun x => (s, 0, x)) (State.capstat_deleted g))
      exact congrArg Host.Outcome.next (State.service_calls h hv (by omega) rfl)
  · have hv : s.capstat s.task arg = (s, 0, packFields [(4, c.code), (8, c.refs.toNat), (16, min (s.savedOf part a) 65535), (28, c.bodygen)]) := by
      rw [State.capstat, show s.capsule? s.task.part arg.toNat = some c from hc]
      dsimp only
      rw [State.capid_of hc]
    rw [State.capstat_word] at hv
    exact congrArg Host.Outcome.next (State.service_calls h hv (by omega) rfl)
  · have hnone : (p.saved.find? fun v => v.gtid == arg) = none := List.find?_eq_none.2 fun v hv => by simpa using hn v hv
    refine congrArg Host.Outcome.next (State.service_refuses h ?_ (by omega))
    rw [State.ctxdrop, show s.partOf? s.task.part = some p from hp, Option.map_some, Option.bind_some, hnone]
  · obtain ⟨h1, h2, h3, h4⟩ := State.keepsQueues_ended (s := s.dropSaved part arg) v.task (v.task.home * 16)
    refine ⟨_, congrArg Host.Outcome.next (State.service_calls h (State.ctxdrop_drops hp hv) (by omega) (h2.trans (State.modPart_cur _ _ _))), (h4 part).trans ?_, fun w hw => ?_, h1.trans (State.modPart_slots _ _ _)⟩
    · show ((s.modPart part _).partOf? part).map _ = _
      rw [State.modPart_some hp, State.partOf_putPart]
      rfl
    · rw [h3] at hw
      simpa using (List.mem_filter.1 hw).2
  · intro to_ h1 h2 h3
    have hv : s.capexp s.task arg = ({ v with freeCtr := v.freeCtr + 1 }, 0, (s.exported c).length) := by
      unfold State.capexp
      rw [show s.readVa s.task.part arg.toNat 16 = some b from hb]
      dsimp only
      rw [show s.capsule? s.task.part (leNat (b.take 8)) = some c from hc]
      dsimp only
      rw [if_neg (show ¬(to_ % 4096 ≠ 0 ∨ 2 ^ 52 < to_ + 2 ^ 26) by omega), show s.writeVa s.task.part (leNat (b.drop 8)) (s.exported c) = some v from h3]
    obtain ⟨m, y, hy⟩ := State.writeVa_eq h3
    exact congrArg Host.Outcome.next (State.service_calls h hv (by omega) (by rw [hy]))

end Sys2Proof.Machine
end

section
/-! PROOFS. A command that has run to its end stores, signals, fills its token and leaves (14:R240 to R242, R251, 20:R320). -/

namespace Sys2Proof.Machine

namespace State

variable {s u : State} {part k : Nat}

/-! ### What a watchpoint's match leaves of a command's state (27:R378) -/

/-- The slots, the queues, the semaphores and the pools are as they were. -/
structure KeepsCmd (s u : State) : Prop where
  slots : u.slots = s.slots
  tiles : u.tiles = s.tiles
  sems : ∀ p vt, (u.vtile p vt).sems = (s.vtile p vt).sems
  pools : ∀ q, (u.partOf? q).map (·.pools) = (s.partOf? q).map (·.pools)

theorem KeepsCmd.refl : s.KeepsCmd s := ⟨rfl, rfl, fun _ _ => rfl, fun _ => rfl⟩

theorem KeepsCmd.trans {v : State} (h : s.KeepsCmd u) (h' : u.KeepsCmd v) : s.KeepsCmd v :=
  ⟨h'.slots.trans h.slots, h'.tiles.trans h.tiles, fun p vt => (h'.sems p vt).trans (h.sems p vt), fun q => (h'.pools q).trans (h.pools q)⟩

theorem keepsCmd_modPart {part : Nat} {f : Partition → Partition} (hf : ∀ p, (f p).pools = p.pools) : s.KeepsCmd (s.modPart part f) := by
  refine ⟨modPart_slots _ _ _, modPart_tiles _ _ _, fun p vt => by rw [vtile, modPart_vtiles]; rfl, fun q => ?_⟩
  rw [partOf_modPart]
  split
  · rw [Option.map_map]
    exact congrArg (fun g => Option.map g (s.partOf? q)) (funext hf)
  · rfl

theorem keepsCmd_foldl {α : Type} {f : State → α → State} (hf : ∀ (v : State) (x : α), v.KeepsCmd (f v x)) : ∀ (l : List α) (v : State), v.KeepsCmd (l.foldl f v)
  | [], _ => .refl
  | x :: l, v => (hf v x).trans (keepsCmd_foldl hf l (f v x))

theorem keepsCmd_sendStop (g : Word) (c : BitVec 6) (b : Option Nat) (n : Option VWord) : s.KeepsCmd (s.sendStop g c b n) := by
  unfold sendStop
  split
  · exact ⟨rfl, rfl, fun _ _ => rfl, fun _ => rfl⟩
  · exact .refl

theorem keepsCmd_debugReply (n part : Nat) (i : BitVec 32) (c st : Nat) (l : List Byte) : s.KeepsCmd (s.debugReply n part i c st l) :=
  ⟨rfl, rfl, fun _ _ => rfl, fun _ => rfl⟩

theorem keepsCmd_postStop (part : Nat) (r : VWord) : s.KeepsCmd (s.postStop part r) := by
  unfold postStop
  split
  · exact .refl
  · split
    · exact .refl
    · dsimp only
      split
      · refine KeepsCmd.trans ?_ (keepsCmd_foldl (fun v i => keepsCmd_debugReply _ _ _ _ _ _) _ _)
        exact ⟨rfl, rfl, fun _ _ => rfl, fun _ => rfl⟩
      · exact keepsCmd_modPart fun p => rfl

theorem keepsCmd_sendMsg (k peer ch kind : Nat) (l : List Byte) : s.KeepsCmd (s.sendMsg k peer ch kind l) := by
  unfold sendMsg
  split
  · exact .refl
  · next d hd =>
    refine KeepsCmd.trans (u := s.setDomain k { d with sendSeq := mapSet d.sendSeq (tupleKey peer ch) (d.nextSeq peer ch + 1) }) ?_ ⟨rfl, rfl, fun _ _ => rfl, fun _ => rfl⟩
    exact keepsCmd_modPart fun p => rfl

theorem keepsCmd_controlAll (k : Nat) (l : List Nat) (c : Control) : s.KeepsCmd (s.controlAll k l c) := by
  refine keepsCmd_foldl (fun v m => ?_) l s
  unfold control
  split
  · exact .refl
  · exact keepsCmd_sendMsg _ _ _ _ _

theorem keepsCmd_sendTriggerTo (part core : Nat) (id : BitVec 4) (a : BitVec 2) (n : Nat) : s.KeepsCmd (s.sendTriggerTo part core id a n) := by
  unfold sendTriggerTo
  split
  · exact .refl
  · dsimp only
    split
    · exact ⟨rfl, rfl, fun _ _ => rfl, fun _ => rfl⟩
    · refine KeepsCmd.trans ?_ (keepsCmd_controlAll _ _ _)
      exact ⟨rfl, rfl, fun _ _ => rfl, fun _ => rfl⟩

theorem keepsCmd_record (key kind sub : Nat) (g : Word) (pay : Nat) : s.KeepsCmd (s.record key kind sub g pay) := ⟨rfl, rfl, fun _ _ => rfl, fun _ => rfl⟩

/-- A match elsewhere than at the instruction in progress stops nobody at once. -/
theorem keepsCmd_onMatch (m : Match) (c : BitVec 6) (a : Nat) (id : BitVec 4) (ta : BitVec 2) (n : Option VWord) : s.KeepsCmd (s.onMatch m c a id ta false n) := by
  unfold onMatch
  split
  · exact .refl
  · split
    · exact ((keepsCmd_record ..).trans (keepsCmd_postStop _ _)).trans (keepsCmd_sendTriggerTo _ _ _ _ _)
    · dsimp only
      exact ((keepsCmd_sendStop _ _ _ _).trans (keepsCmd_foldl (fun v g => keepsCmd_sendStop _ _ _ _) _ _)).trans (keepsCmd_modPart fun p => rfl)

theorem keepsCmd_engineWatch (c : Cmd) (w : Bool) (r : Nat × Nat) : s.KeepsCmd (s.engineWatch c w r) := by
  unfold engineWatch
  split
  · exact .refl
  · unfold watchAway
    dsimp only
    split
    · exact .refl
    · refine KeepsCmd.trans ?_ (keepsCmd_foldl (fun v h => keepsCmd_onMatch _ _ _ _ _ _) _ _)
      split
      · exact .refl
      · exact keepsCmd_record ..

theorem keepsCmd_store (a : Nat) (bs : List Byte) : s.KeepsCmd (s.store a bs) := by
  obtain ⟨y, hy, h⟩ := store_eq (s := s) a bs
  rw [hy]
  exact ⟨rfl, rfl, fun p vt => (h p vt).1, fun _ => rfl⟩

/-! ### What the command stores (14:R249, R250) -/

/-- Whether a command is this one. -/
def isCmd (c d : Cmd) : Bool := d.order == c.order && d.core == c.core

theorem hiddenBut_tiles (h : u.tiles = s.tiles) (own : Cmd → Bool) (a : Nat) : u.hiddenBut own a = s.hiddenBut own a := by
  rw [hiddenBut, hiddenBut, h]

theorem engineStore_open {c : Cmd} (h : ∀ b, s.hiddenBut (isCmd c) b = false) (a : Nat) (bs : List Byte) : s.engineStore c a bs = s.store a bs := by
  have hmap : (bs.zipIdx.map fun e => if s.hiddenBut (isCmd c) (a + e.2) then memGet s.mem (a + e.2) else e.1) = bs := by
    rw [List.map_congr_left (g := Prod.fst) fun e _ => by rw [h, if_neg Bool.false_ne_true]]
    exact List.zipIdx_map_fst 0 bs
  exact congrArg (s.store a) hmap

theorem mem_store_eq (a : Nat) (bs : List Byte) : (s.store a bs).mem = memWrite s.mem a bs := by
  obtain ⟨y, hy, -⟩ := store_eq (s := s) a bs
  rw [hy]

/-- The writes of a command, one after the other. -/
theorem writes_fold {c : Cmd} : ∀ (l : List (Nat × List Byte)) (s : State), (∀ b, s.hiddenBut (isCmd c) b = false) →
    s.KeepsCmd (l.foldl (fun s x => (s.engineStore c x.1 x.2).engineWatch c true (x.1, x.2.length)) s)
      ∧ (l.foldl (fun s x => (s.engineStore c x.1 x.2).engineWatch c true (x.1, x.2.length)) s).mem = l.foldl (fun m x => memWrite m x.1 x.2) s.mem
  | [], s, _ => ⟨.refl, rfl⟩
  | x :: l, s, h => by
    have hs : s.KeepsCmd ((s.engineStore c x.1 x.2).engineWatch c true (x.1, x.2.length)) := by
      rw [engineStore_open h]
      exact (keepsCmd_store _ _).trans (keepsCmd_engineWatch _ _ _)
    have hm : ((s.engineStore c x.1 x.2).engineWatch c true (x.1, x.2.length)).mem = memWrite s.mem x.1 x.2 := by
      rw [mem_engineWatch, engineStore_open h, mem_store_eq]
    obtain ⟨h1, h2⟩ := writes_fold l ((s.engineStore c x.1 x.2).engineWatch c true (x.1, x.2.length)) fun b => (hiddenBut_tiles hs.tiles _ _).trans (h b)
    exact ⟨hs.trans h1, by rw [List.foldl_cons, h2, hm, List.foldl_cons]⟩

/-- A read inside what was written. -/
theorem memRead_within {m : Mem} {a o n : Nat} {bs : List Byte} (w : Mem.wf m = true) (h : o + n ≤ bs.length) :
    memRead (memWrite m a bs) (a + o) n = (bs.drop o).take n := by
  refine List.ext_getElem (by simp [memRead]; omega) fun i h1 h2 => ?_
  have hi : i < n := by simpa [memRead] using h1
  simp only [memRead, List.getElem_map, List.getElem_range, List.getElem_take, List.getElem_drop]
  rw [show a + o + i = a + (o + i) by omega]
  exact memGet_memWrite_in bs w (by omega)

theorem memRead_part {m : Mem} {a o k n : Nat} (h : o + k ≤ n) : ((memRead m a n).drop o).take k = memRead m (a + o) k := by
  refine List.ext_getElem (by simp [memRead]; omega) fun i h1 h2 => ?_
  simp only [memRead, List.getElem_map, List.getElem_range, List.getElem_take, List.getElem_drop]
  rw [show a + (o + i) = a + o + i by omega]

/-- Element `i` of an array of four-byte elements. -/
theorem element_eq (l : List Byte) {i : Nat} (h : 4 * i + 4 ≤ l.length) : ((List.range 4).map fun j => l.toArray.getD (i * 4 + j) 0) = (l.drop (4 * i)).take 4 := by
  refine List.ext_getElem (by simp; omega) fun j h1 h2 => ?_
  have hj : j < 4 := by simpa using h1
  simp only [List.getElem_map, List.getElem_range, List.getElem_take, List.getElem_drop, Array.getD_eq_getD_getElem?, List.getElem?_toArray]
  rw [List.getElem?_eq_getElem (show i * 4 + j < l.length by omega), Option.getD_some]
  congr 1
  omega

/-- Part `i` of parts of four bytes each. -/
theorem flatMap_part {α : Type} {g : α → List Byte} (hg : ∀ x, (g x).length = 4) : ∀ (l : List α) (i : Nat) (h : i < l.length), ((l.flatMap g).drop (4 * i)).take 4 = g l[i]
  | x :: l, 0, _ => by
    rw [List.flatMap_cons, Nat.mul_zero, List.drop_zero, List.take_append_of_le_length (by rw [hg]), List.take_of_length_le (by rw [hg])]
    rfl
  | x :: l, i + 1, h => by
    rw [List.flatMap_cons, show 4 * (i + 1) = (g x).length + 4 * i by rw [hg]; omega, List.drop_append, List.drop_of_length_le (by omega), List.nil_append,
      show (g x).length + 4 * i - (g x).length = 4 * i by omega]
    exact flatMap_part hg l i (by simpa using h)

theorem flatMap_length {α : Type} {g : α → List Byte} (hg : ∀ x, (g x).length = 4) (l : List α) : (l.flatMap g).length = 4 * l.length := by
  induction l with
  | nil => rfl
  | cons x l ih => rw [List.flatMap_cons, List.length_append, hg, ih, List.length_cons]; omega

/-- The sum of two arrays of i32 elements, element by element (14:R250). -/
theorem collRange_i32 {x y : List Byte} {n i : Nat} (hx : x.length = n) (hy : y.length = n) (hn : n % 4 = 0) :
    (collRange 2 n [x, y]).length = n ∧ (i < n / 4 → ((collRange 2 n [x, y]).drop (4 * i)).take 4
      = leBytes 4 ((leNat ((x.drop (4 * i)).take 4) + leNat ((y.drop (4 * i)).take 4)) % 2 ^ 32)) := by
  have hc : collRange 2 n [x, y] = (List.range (n / 4)).flatMap fun i => leBytes 4 (collSum 2 ([x.toArray, y.toArray].map fun a => leNat ((List.range 4).map fun j => a.getD (i * 4 + j) 0))) := rfl
  have hg (i : Nat) : (leBytes 4 (collSum 2 ([x.toArray, y.toArray].map fun a => leNat ((List.range 4).map fun j => a.getD (i * 4 + j) 0)))).length = 4 := length_leBytes _ _
  rw [hc]
  refine ⟨by rw [flatMap_length hg, List.length_range]; omega, fun hi => ?_⟩
  rw [flatMap_part hg _ i (by rw [List.length_range]; exact hi), List.getElem_range, List.map_cons, List.map_cons, List.map_nil, element_eq x (by omega), element_eq y (by omega)]
  refine congrArg (leBytes 4) ?_
  show (0 + _ + _) % 2 ^ 32 = _
  rw [Nat.zero_add]

/-! ### The stages of a command's end (14:R240) -/

/-- The command's data are stored, and its elements added (14:R249, R250). -/
def cmdStored (s : State) (c : Cmd) (r : CmdResult) : State :=
  let s := r.writes.foldl (fun s x => (s.engineStore c x.1 x.2).engineWatch c true (x.1, x.2.length)) s
  match r.adds with
  | some (ty, a, bs) => (s.engineStore c a (collRange ty bs.length [memRead s.mem a bs.length, bs])).engineWatch c true (a, bs.length)
  | none => s

/-- The command's latch is set and its terms are counted (14:R245, 05:R93). -/
def cmdLatched (s : State) (tile : Nat) (c : Cmd) (r : CmdResult) : State :=
  let s := match r.latch with
    | some (l, x) => s.modVTile c.part c.vtile fun v => { v with latches := v.latches.setIfInBounds l (some x) }
    | none => s
  s.putCmdTerms tile c r.terms

/-- The command's semaphore has its signal; whether it was full (14:R242). -/
def cmdSignals (s : State) (c : Cmd) : State × Bool := if CmdWord.ssen c.word then s.semSignal c.part c.vtile (CmdWord.ssig c.word) else (s, false)

/-- The status word that a command's end gives its token (14:R241). -/
def cmdStatus (c : Cmd) (r : CmdResult) (full : Bool) : Word :=
  statusWord c (if full && r.code == 0 then 12 else r.code) (if full && r.code == 0 then CmdWord.ssig c.word else r.detail)

/-- The command returns its token, waits for none, and leaves its queue (05:R97, 14:R238). -/
def cmdLeaves (s : State) (tile : Nat) (c : Cmd) (drew : Bool) : State :=
  let s := if drew then s.poolReturn c.part (poolKey (2 * tile) (CmdWord.queue c.word)) 1 else s
  let s := if c.waitFrom.isSome then s.poolPut c.part (poolKey (2 * tile) (CmdWord.queue c.word)) fun p => { p with
    waiters := p.waiters.filter (· != .cmd tile c.order) } else s
  s.modTile tile fun t => { t with queues := t.queues.map fun (q : List Cmd) => q.filter fun x => x.order != c.order }

theorem finishCmd_eq (tile : Nat) (c : Cmd) (r : CmdResult) (drew : Bool) : s.finishCmd tile c r drew
    = ((((((s.cmdStored c r).cmdLatched tile c r).cmdSignals c).1).fillToken c (cmdStatus c r ((((s.cmdStored c r).cmdLatched tile c r).cmdSignals c).2))).cmdLeaves tile c drew) := rfl

/-- Where the command stands against no decryption: what it stores. -/
theorem cmdStored_eq {c : Cmd} {r : CmdResult} (h : ∀ b, s.hiddenBut (isCmd c) b = false) :
    s.KeepsCmd (s.cmdStored c r) ∧ (r.adds = none → (s.cmdStored c r).mem = r.writes.foldl (fun m x => memWrite m x.1 x.2) s.mem)
      ∧ ∀ a bs, r.writes = [] → r.adds = some (2, a, bs) → (s.cmdStored c r).mem = memWrite s.mem a (collRange 2 bs.length [memRead s.mem a bs.length, bs]) := by
  obtain ⟨h1, h2⟩ := writes_fold (c := c) r.writes s h
  unfold cmdStored
  dsimp only
  refine ⟨?_, fun ha => ?_, fun a bs hw ha => ?_⟩
  · split
    · rw [engineStore_open fun b => (hiddenBut_tiles h1.tiles _ _).trans (h b)]
      exact (h1.trans (keepsCmd_store _ _)).trans (keepsCmd_engineWatch _ _ _)
    · exact h1
  · rw [ha]
    exact h2
  · rw [ha, hw]
    dsimp only [List.foldl_nil]
    rw [mem_engineWatch, engineStore_open h, mem_store_eq]

theorem vtile_modVTile_self (p vt : Nat) (f : VTile → VTile) : (s.modVTile p vt f).vtile p vt = f (s.vtile p vt) := by
  rw [vtile, modVTile, mapMod, mapGet_mapSet_self]
  rfl

theorem vtile_modVTile_field {α : Type} (g : VTile → α) {p vt : Nat} {f : VTile → VTile} (hf : ∀ x, g (f x) = g x) (q wt : Nat) :
    g ((s.modVTile p vt f).vtile q wt) = g (s.vtile q wt) := by
  rw [vtile, modVTile, mapMod]
  by_cases h : q * 1024 + wt = p * 1024 + vt
  · rw [h, mapGet_mapSet_self, Option.getD_some, hf, vtile, h]
  · rw [mapGet_mapSet_ne _ h]
    rfl

theorem keepsCmd_putCmdTerms (tile : Nat) (c : Cmd) (l : List (Nat × Nat)) : s.KeepsCmd (s.putCmdTerms tile c l) ∧ (s.putCmdTerms tile c l).vtiles = s.vtiles := by
  unfold putCmdTerms
  split
  · exact ⟨.refl, rfl⟩
  · exact ⟨⟨rfl, rfl, fun _ _ => rfl, fun _ => rfl⟩, rfl⟩

theorem keepsCmd_latch (p vt l : Nat) (x : Option Latch) : s.KeepsCmd (s.modVTile p vt fun v => { v with latches := v.latches.setIfInBounds l x }) :=
  ⟨rfl, rfl, fun q wt => vtile_modVTile_field (f := fun v => { v with latches := v.latches.setIfInBounds l x }) (·.sems) (fun _ => rfl) q wt, fun _ => rfl⟩

theorem cmdLatched_eq (tile : Nat) (c : Cmd) (r : CmdResult) : s.KeepsCmd (s.cmdLatched tile c r) ∧ (s.cmdLatched tile c r).mem = s.mem
    ∧ ∀ i x, i < 2 → r.latch = some (i, x) → ((s.cmdLatched tile c r).vtile c.part c.vtile).latches.toList[i]? = some (some x) := by
  unfold cmdLatched
  dsimp only
  split
  · next l x hl =>
    obtain ⟨h1, h2⟩ := keepsCmd_putCmdTerms (s := s.modVTile c.part c.vtile fun v => { v with latches := v.latches.setIfInBounds l (some x) }) tile c r.terms
    refine ⟨(keepsCmd_latch _ _ _ _).trans h1, mem_putCmdTerms _ _ _, fun i y hi hy => ?_⟩
    obtain ⟨rfl, rfl⟩ := Prod.mk.inj (Option.some.inj (hl.symm.trans hy))
    rw [vtile, h2]
    show ((s.modVTile c.part c.vtile _).vtile c.part c.vtile).latches.toList[l]? = _
    rw [vtile_modVTile_self]
    dsimp only
    rw [Vector.toList_setIfInBounds, List.getElem?_set_self (by simpa using hi)]
  · next hl =>
    obtain ⟨h1, h2⟩ := keepsCmd_putCmdTerms (s := s) tile c r.terms
    exact ⟨h1, mem_putCmdTerms _ _ _, fun i y hi hy => by rw [hl] at hy; cases hy⟩

/-- The signal of a command (14:R242). -/
theorem cmdSignals_eq (c : Cmd) : (s.cmdSignals c).1 = { s with vtiles := (s.cmdSignals c).1.vtiles }
    ∧ (∀ q vt, ((s.cmdSignals c).1.vtile q vt).latches = (s.vtile q vt).latches)
    ∧ ((s.cmdSignals c).2 = true ↔ CmdWord.ssen c.word = true ∧ 65535 ≤ s.semCount c.part c.vtile (CmdWord.ssig c.word))
    ∧ (CmdWord.ssen c.word = true → s.semCount c.part c.vtile (CmdWord.ssig c.word) < 65535 →
      (s.cmdSignals c).1.semCount c.part c.vtile (CmdWord.ssig c.word) = s.semCount c.part c.vtile (CmdWord.ssig c.word) + 1) := by
  have hn : CmdWord.ssig c.word < 8 := Nat.mod_lt _ (by decide)
  unfold cmdSignals
  by_cases hs : CmdWord.ssen c.word = true
  · rw [if_pos hs]
    unfold semSignal
    by_cases hf : 65535 ≤ s.semCount c.part c.vtile (CmdWord.ssig c.word)
    · rw [if_pos hf]
      exact ⟨rfl, fun _ _ => rfl, ⟨fun _ => ⟨hs, hf⟩, fun _ => rfl⟩, fun _ h => absurd hf (by omega)⟩
    · rw [if_neg hf]
      refine ⟨rfl, fun q vt => vtile_modVTile_field (f := fun x => { x with sems := x.sems.setIfInBounds _ _ }) (·.latches) (fun _ => rfl) q vt,
        ⟨fun h => absurd h Bool.false_ne_true, fun h => absurd h.2 hf⟩, fun _ _ => ?_⟩
      exact (semCount_modVTile hn rfl).1
  · rw [if_neg hs]
    exact ⟨rfl, fun _ _ => rfl, ⟨fun h => absurd h Bool.false_ne_true, fun h => absurd h.1 hs⟩, fun h => absurd h hs⟩

/-- A delivery to a task that is there changes its slot, the pools its tokens come from, and the recorder (03:R48). -/
theorem deliverTo_eq {g : Word} {tag : Nat} {r : RegId} {x : VWord} (hk : s.keyOf? g = some k) :
    ∃ p sl co, s.deliverTo g part r tag x false 0 = { s with parts := p, slots := sl, cores := co } ∧ ((s.taskAt k).owed = false → p = s.parts) := by
  have hd : s.deliverTo g part r tag x false 0 = (s.putTask k (((s.taskAt k).deliver r x false).filled s.cycle r)).wakeUp k := by
    rw [deliverTo, hk]
    rfl
  have howed : (((s.taskAt k).deliver r x false).filled s.cycle r).owed = (s.taskAt k).owed := by
    rw [Task.filled, Task.deliver_false]
    cases r <;> simp [Task.putReg, Task.setFull, Task.putS, Task.putV, Task.putM] <;> split <;> rfl
  obtain ⟨p, sl, h1, -, -⟩ := payTokens_eq (s := s.putTask k (((s.taskAt k).deliver r x false).filled s.cycle r)) k
  have hp : (s.taskAt k).owed = false → p = s.parts := fun ho => by
    have h2 := payTokens_unpaid (s := s.putTask k (((s.taskAt k).deliver r x false).filled s.cycle r)) (k := k) (.inl (by rw [taskAt_putTask_self, howed]; exact ho))
    exact (congrArg State.parts (h1.symm.trans h2))
  rw [hd, wakeUp, h1]
  dsimp only
  split
  · exact ⟨p, sl, s.cores, rfl, hp⟩
  · split
    · exact ⟨p, _, _, rfl, hp⟩
    · exact ⟨p, sl, s.cores, rfl, hp⟩

/-! ### The command has left -/

theorem pool_poolReturn (part k n : Nat) : ((s.poolReturn part k n).pool part k).inUse = (s.pool part k).inUse - n := by
  rcases hp : s.partOf? part with _ | p
  · have hs : s.poolReturn part k n = s := by rw [poolReturn, poolPut, modPart, show mapGet s.parts part = none from hp]
    rw [hs, pool, hp]
    exact (Nat.zero_sub n).symm
  · rcases hq : mapGet p.pools k with _ | q
    · have hs : (s.poolReturn part k n).partOf? part = some p := by
        rw [poolReturn, poolPut, partOf_modPart, if_pos rfl, hp, Option.map_some, hq]
      rw [pool, hs, pool, hp]
      dsimp only
      rw [hq]
      exact (Nat.zero_sub n).symm
    · obtain ⟨p', h1, h2⟩ := poolPut_pool hp hq fun p => { p with inUse := p.inUse - n }
      rw [poolReturn, pool_of h1 h2, pool_of hp hq]

theorem pool_eq (part k : Nat) : s.pool part k = (((s.partOf? part).map (·.pools)).bind fun m => mapGet m k).getD { created := 0, capacity := 0 } := by
  unfold pool
  cases s.partOf? part <;> rfl

theorem pool_congr (h : (u.partOf? part).map (·.pools) = (s.partOf? part).map (·.pools)) (k : Nat) : u.pool part k = s.pool part k := by
  rw [pool_eq, h, pool_eq]

theorem poolPut_eq (part k : Nat) (f : Pool → Pool) : ∃ p, s.poolPut part k f = { s with parts := p } := modPart_eq s part _

theorem cmdLeaves_eq (tile : Nat) (c : Cmd) (drew : Bool) : ∃ p, s.cmdLeaves tile c drew = ({ s with parts := p } : State).modTile tile fun t =>
    { t with queues := t.queues.map fun (q : List Cmd) => q.filter fun x => x.order != c.order } := by
  obtain ⟨p1, h1⟩ := poolPut_eq (s := s) c.part (poolKey (2 * tile) (CmdWord.queue c.word)) fun p => { p with inUse := p.inUse - 1 }
  have h2 : ∃ p, (if drew then s.poolReturn c.part (poolKey (2 * tile) (CmdWord.queue c.word)) 1 else s) = { s with parts := p } := by
    split
    · exact ⟨p1, h1⟩
    · exact ⟨s.parts, rfl⟩
  obtain ⟨p2, h2⟩ := h2
  unfold cmdLeaves
  rw [h2]
  dsimp only
  split
  · obtain ⟨p3, h3⟩ := poolPut_eq (s := { s with parts := p2 }) c.part (poolKey (2 * tile) (CmdWord.queue c.word)) fun p => { p with waiters := p.waiters.filter (· != .cmd tile c.order) }
    exact ⟨p3, by rw [h3]⟩
  · exact ⟨p2, rfl⟩

theorem pool_cmdLeaves {tile : Nat} {c : Cmd} (h : c.waitFrom = none) :
    ((s.cmdLeaves tile c true).pool c.part (poolKey (2 * tile) (CmdWord.queue c.word))).inUse = (s.pool c.part (poolKey (2 * tile) (CmdWord.queue c.word))).inUse - 1 := by
  rw [cmdLeaves, if_pos rfl, h]
  exact pool_poolReturn _ _ _

theorem queue_modTile (tile : Nat) (f : List Cmd → List Cmd) {q : Nat} (hq : q < 5) :
    ((s.modTile tile fun t => { t with queues := t.queues.map f }).tile tile).queues.toList[q]?.getD [] = f ((s.tile tile).queues.toList[q]?.getD []) := by
  have hl : q < (s.tile tile).queues.toList.length := by simpa using hq
  rw [State.tile, modTile, mapMod, mapGet_mapSet_self, Option.getD_some]
  dsimp only
  rw [Vector.toList_map, List.getElem?_map]
  show ((((s.tile tile).queues.toList[q]?).map f).getD []) = _
  rw [List.getElem?_eq_getElem hl]
  rfl

theorem fillToken_eq {c : Cmd} (hm : c.mute = false) (hd : c.dead = false) (x : Word) :
    s.fillToken c x = s.deliverTo c.owner c.part (.s (CmdWord.tok c.word)) c.order (x.setWidth 128) false 0 := by
  rw [fillToken, hm, hd]
  rfl

/-- The token of a command holds its status word (14:R241). -/
theorem token_filled {g : Word} {tag : Nat} {d : Reg} {x : Word} (hd : d ≠ 0) (hk : s.keyOf? g = some k) :
    ((s.deliverTo g part (.s d) tag (x.setWidth 128) false 0).taskAt k).full (.s d) = true ∧ ((s.deliverTo g part (.s d) tag (x.setWidth 128) false 0).taskAt k).getS d = x := by
  obtain ⟨-, -, o, n, h, h3⟩ := deliverTo_there (s := s) (part := part) (tag := tag) (sub := 0) (r := .s d) (x := x.setWidth 128) (err := false) (aerr := 0) hk
  have hx : (x.setWidth 128).setWidth 64 = x := BitVec.eq_of_toNat_eq (by have := x.isLt; simp only [BitVec.toNat_setWidth]; omega)
  have hf : (s.delivered k (.s d) (x.setWidth 128) false 0 0).full (.s d) = true := full_delivered d _ false 0 0
  have hv : (s.delivered k (.s d) (x.setWidth 128) false 0 0).getS d = x := (getS_deliver (s.taskAt k) hd (x.setWidth 128) d).trans ((if_pos rfl).trans hx)
  rw [h3]
  generalize s.delivered k (.s d) (x.setWidth 128) false 0 0 = t at hf hv
  exact ⟨hf, hv⟩

theorem cmdStatus_eq {p : Prop} [Decidable p] (c : Cmd) (r : CmdResult) {full : Bool} (hp : full = true ↔ p) : cmdStatus c r full = if p ∧ r.code = 0 then
      BitVec.ofNat 64 (12 + CmdWord.queue c.word * 2 ^ 8 + c.seq % 2 ^ 16 * 2 ^ 16 + CmdWord.ssig c.word * 2 ^ 32)
    else BitVec.ofNat 64 (r.code % 2 ^ 8 + CmdWord.queue c.word * 2 ^ 8 + c.seq % 2 ^ 16 * 2 ^ 16 + r.detail % 2 ^ 32 * 2 ^ 32) := by
  have hq : CmdWord.queue c.word < 8 := Nat.mod_lt _ (by decide)
  have hn : CmdWord.ssig c.word < 8 := Nat.mod_lt _ (by decide)
  have hw (a b : Nat) : word64 [(8, a), (4, CmdWord.queue c.word), (4, 0), (16, c.seq), (32, b)]
      = BitVec.ofNat 64 (a % 2 ^ 8 + CmdWord.queue c.word * 2 ^ 8 + c.seq % 2 ^ 16 * 2 ^ 16 + b % 2 ^ 32 * 2 ^ 32) := by
    refine congrArg (BitVec.ofNat 64) ?_
    simp only [packFields]
    omega
  rw [cmdStatus, statusWord, hw]
  by_cases h : p ∧ r.code = 0
  · have hb : (full && r.code == 0) = true := by
      rw [hp.2 h.1, h.2]
      rfl
    rw [if_pos h, if_pos hb, if_pos hb]
    refine congrArg (BitVec.ofNat 64) ?_
    omega
  · have hb : ¬(full && r.code == 0) = true := by
      rw [Bool.and_eq_true, beq_iff_eq, hp]
      exact h
    rw [if_neg h, if_neg hb, if_neg hb]

/-- A command whose owner is there ends: what its end leaves (14:R240 to R242). -/
theorem finishCmd_leaves {tile q : Nat} {c : Cmd} {r : CmdResult} {drew : Bool} (hq : q < 5) (hmute : c.mute = false) (hdead : c.dead = false) (hk : s.keyOf? c.owner = some k)
    (htok : CmdWord.tok c.word ≠ 0) (hst : s.KeepsCmd (s.cmdStored c r)) :
    ((s.finishCmd tile c r drew).tile tile).queues.toList[q]?.getD [] = ((s.tile tile).queues.toList[q]?.getD []).filter (fun x => x.order != c.order)
      ∧ (s.finishCmd tile c r drew).mem = (s.cmdStored c r).mem
      ∧ (∀ i x, i < 2 → r.latch = some (i, x) → ((s.finishCmd tile c r drew).vtile c.part c.vtile).latches.toList[i]? = some (some x))
      ∧ (drew = true → c.waitFrom = none → (s.taskAt k).owed = false → ((s.finishCmd tile c r drew).pool c.part (poolKey (2 * tile) (CmdWord.queue c.word))).inUse
          = (s.pool c.part (poolKey (2 * tile) (CmdWord.queue c.word))).inUse - 1)
      ∧ (CmdWord.ssen c.word = true → s.semCount c.part c.vtile (CmdWord.ssig c.word) < 65535 →
          (s.finishCmd tile c r drew).semCount c.part c.vtile (CmdWord.ssig c.word) = s.semCount c.part c.vtile (CmdWord.ssig c.word) + 1)
      ∧ ((s.finishCmd tile c r drew).taskAt k).full (.s (CmdWord.tok c.word)) = true
      ∧ ((s.finishCmd tile c r drew).taskAt k).getS (CmdWord.tok c.word)
        = if (CmdWord.ssen c.word = true ∧ 65535 ≤ s.semCount c.part c.vtile (CmdWord.ssig c.word)) ∧ r.code = 0 then
            BitVec.ofNat 64 (12 + CmdWord.queue c.word * 2 ^ 8 + c.seq % 2 ^ 16 * 2 ^ 16 + CmdWord.ssig c.word * 2 ^ 32)
          else BitVec.ofNat 64 (r.code % 2 ^ 8 + CmdWord.queue c.word * 2 ^ 8 + c.seq % 2 ^ 16 * 2 ^ 16 + r.detail % 2 ^ 32 * 2 ^ 32) := by
  obtain ⟨hla, hmem, hlatch⟩ := cmdLatched_eq (s := s.cmdStored c r) tile c r
  have hkeep := hst.trans hla
  have hsem (n : Nat) : ((s.cmdStored c r).cmdLatched tile c r).semCount c.part c.vtile n = s.semCount c.part c.vtile n := by
    rw [semCount, hkeep.sems, semCount]
  obtain ⟨hsig, hlat, hfull, hcount⟩ := cmdSignals_eq (s := (s.cmdStored c r).cmdLatched tile c r) c
  rw [hsem] at hfull hcount
  have hstat := cmdStatus_eq c r hfull
  rw [finishCmd_eq, fillToken_eq hmute hdead, ← hstat]
  generalize cmdStatus c r (((s.cmdStored c r).cmdLatched tile c r).cmdSignals c).2 = x
  have hslots : ((((s.cmdStored c r).cmdLatched tile c r).cmdSignals c).1).slots = s.slots := by rw [hsig]; exact hkeep.slots
  have htiles : ((((s.cmdStored c r).cmdLatched tile c r).cmdSignals c).1).tiles = s.tiles := by rw [hsig]; exact hkeep.tiles
  have hparts : ((((s.cmdStored c r).cmdLatched tile c r).cmdSignals c).1).parts = ((s.cmdStored c r).cmdLatched tile c r).parts := by rw [hsig]
  have hmem1 : ((((s.cmdStored c r).cmdLatched tile c r).cmdSignals c).1).mem = (s.cmdStored c r).mem := by rw [hsig]; exact hmem
  generalize (((s.cmdStored c r).cmdLatched tile c r).cmdSignals c).1 = v at hlat hcount hslots htiles hparts hmem1 ⊢
  have hkv : v.keyOf? c.owner = some k := by rw [keyOf?, hslots]; exact hk
  obtain ⟨hf, hv⟩ := token_filled (s := v) (part := c.part) (tag := c.order) (x := x) htok hkv
  obtain ⟨p, sl, co, hd, hp⟩ := deliverTo_eq (part := c.part) (tag := c.order) (r := .s (CmdWord.tok c.word)) (x := x.setWidth 128) hkv
  have hdt : (v.deliverTo c.owner c.part (.s (CmdWord.tok c.word)) c.order (x.setWidth 128) false 0).tiles = v.tiles := by rw [hd]
  have hdv : (v.deliverTo c.owner c.part (.s (CmdWord.tok c.word)) c.order (x.setWidth 128) false 0).vtiles = v.vtiles := by rw [hd]
  have hdm : (v.deliverTo c.owner c.part (.s (CmdWord.tok c.word)) c.order (x.setWidth 128) false 0).mem = v.mem := by rw [hd]
  have hdp : (s.taskAt k).owed = false → (v.deliverTo c.owner c.part (.s (CmdWord.tok c.word)) c.order (x.setWidth 128) false 0).parts = v.parts := fun ho => by
    rw [hd]
    exact hp (by rw [taskAt, hslots]; exact ho)
  generalize v.deliverTo c.owner c.part (.s (CmdWord.tok c.word)) c.order (x.setWidth 128) false 0 = w at hf hv hdt hdv hdm hdp
  obtain ⟨pl, hl⟩ := cmdLeaves_eq (s := w) tile c drew
  have hls : (w.cmdLeaves tile c drew).slots = w.slots := by rw [hl]; rfl
  have hlv : (w.cmdLeaves tile c drew).vtiles = w.vtiles := by rw [hl]; rfl
  have hlm : (w.cmdLeaves tile c drew).mem = w.mem := by rw [hl]; rfl
  refine ⟨?_, hlm.trans (hdm.trans hmem1), fun i y hi hy => ?_, fun h1 h2 ho => ?_, fun h1 h2 => ?_, ?_, ?_⟩
  · rw [hl, queue_modTile tile (fun q => q.filter fun x => x.order != c.order) hq]
    show ((State.tile w tile).queues.toList[q]?.getD []).filter _ = _
    rw [State.tile, hdt, htiles]
    rfl
  · rw [vtile, hlv, hdv]
    exact (congrArg (fun z => z.toList[i]?) (hlat c.part c.vtile)).trans (hlatch i y hi hy)
  · rw [h1, pool_cmdLeaves h2]
    refine congrArg (fun z : Pool => z.inUse - 1) ((pool_congr (s := v) ?_ _).trans (pool_congr ?_ _))
    · rw [partOf?, hdp ho]
      rfl
    · rw [partOf?, hparts]
      exact hkeep.pools c.part
  · rw [semCount, vtile, hlv, hdv]
    exact hcount h1 h2
  · rw [taskAt, hls]
    exact hf
  · rw [taskAt, hls]
    exact hv

end State

/-- A running command whose external part nobody has accepted within the deadline (20:R320). -/
def State.isLate (s : State) (c : Cmd) : Bool := State.Cmd.running c && c.kernel.isNone && match c.offered with
  | some o => decide (o + (((s.partOf? c.part).map (·.deadline)).getD 20) * cyclesPerUs ≤ s.cycle)
  | none => false

theorem State.cmdLate_eq (s : State) (tile q : Nat) : s.cmdLate tile q = ((s.tile tile).queues.toList[q]?.getD []).find? s.isLate := rfl

theorem State.isLate_not {s : State} {c : Cmd} (h : c.st = .queued ∨ c.offered = none) : s.isLate c = false := by
  rcases h with h | h
  · rw [State.isLate, show State.Cmd.running c = false by rw [State.Cmd.running, h]]
    rfl
  · rw [State.isLate, h]
    exact Bool.and_false _

/-- The late command goes to Caldera as a kernel, ahead of all other work (20:R320). -/
theorem State.deadline_expires {s : State} {tile q : Nat} {c : Cmd} (h : s.cmdLate tile q = some c) :
    (match s.cmdLate tile q with
      | none => s
      | some c =>
        let w : QueuedWork := { part := c.part, prio := 3, requeued := true, since := s.cycle, work := .kernel tile q c.order }
        let s := s.modCmd tile c.order fun x => { x with kernel := some none }
        { s with cald := { s.cald with work := w :: s.cald.work } })
      = { s.modCmd tile c.order (fun x => { x with kernel := some none }) with
        cald := { s.cald with work := { part := c.part, prio := 3, requeued := true, since := s.cycle, work := .kernel tile q c.order } :: s.cald.work } } := by
  rw [h]
  rfl

theorem running_of_started {c : Cmd} (h : c.st ≠ .queued) : State.Cmd.running c = true := by
  unfold State.Cmd.running
  split
  · rfl
  · next hq => exact absurd hq h

/-- Settles O38: what a command, a queue-fence entry and a late command leave. -/
theorem commandEnds : Obligations.CommandEnds := by
  refine ⟨fun s tile q k c l hm hq hqueue hqw hst hheld hmoving hopen hend hmute hdead hk htok hl hhidden => ?_,
    fun s tile k f l r hqueue hmute hdead habort hswen hssen hq4 htok hk hothers hready => ?_,
    fun s tile q o c l r hqueue hl hst hkernel hoffered hlate => ?_⟩
  · intro r n
    have hrun := running_of_started hst
    have hends : s.cmdEnds tile q = some c := by
      rw [State.cmdEnds, hqueue]
      exact if_pos (by rw [hrun, hheld, hmoving, hopen, decide_eq_true hend, decide_eq_true hq]; rfl)
    have hx : exec (.engineCommandComplete tile q) s = .next (s.finishCmd tile c r (c.drawn && decide (q < 3))) := by
      show execEngineCommandComplete tile q s = _
      rw [execEngineCommandComplete, hends]
    obtain ⟨hkeep, hw, ha⟩ := State.cmdStored_eq (c := c) (r := r) hhidden
    obtain ⟨h1, h2, h3, h4, h5, h6, h7⟩ := State.finishCmd_leaves (tile := tile) (q := q) (drew := c.drawn && decide (q < 3)) (show q < 5 by omega) hmute hdead hk htok hkeep
    refine ⟨_, hx, ?_, fun a bs hadd hwr => ?_, fun hadd => h2.trans (hw hadd), fun a bs hwr hadd hlen => ?_, h3, fun hq3 hdrawn hwait howed => ?_, h5, h6, ?_⟩
    · rw [h1, hqueue, List.filter_cons_of_neg (by simp), List.filter_eq_self.2 fun d hd => by simpa using hl d hd]
    · rw [h2, hw hadd, show r.writes = [(a, bs)] from hwr]
      exact ⟨memRead_memWrite bs a hm, fun b hb => memGet_memWrite_out bs (by omega)⟩
    · rw [h2, ha a bs hwr hadd]
      have hread : (memRead s.mem a bs.length).length = bs.length := by simp [memRead]
      have hlen' := (State.collRange_i32 (i := 0) hread rfl hlen).1
      refine ⟨fun i hi => ?_, fun b hb => memGet_memWrite_out _ (by rw [hlen']; exact hb)⟩
      rw [State.memRead_within hm (show 4 * i + 4 ≤ _ by rw [hlen']; omega), (State.collRange_i32 hread rfl hlen).2 hi, State.memRead_part (by omega), leNat_leBytes]
      exact Nat.mod_eq_of_lt (Nat.mod_lt _ (by decide))
    · have hd : (c.drawn && decide (q < 3)) = true := by rw [hdrawn, decide_eq_true hq3]; rfl
      rw [← hqw]
      rw [← hqw] at hd h4
      exact h4 hd hwait howed
    · rw [h7, hqw]
      exact if_congr and_assoc rfl rfl
  · have hfr : s.fenceReady tile f = true := by
      rw [State.fenceReady, List.all_eq_true]
      intro q hq
      obtain ⟨hq4', hbit⟩ := ((State.mem_takes hq4 (Nat.le_refl 4) q).1 (by rw [State.takes, hq4]; exact hq)).2.resolve_left (fun h => absurd h.1 (by omega)) |>.2
      exact List.all_eq_true.2 fun d hd => decide_eq_true (hready q hq4' hbit d hd)
    have hfilter : (s.tile tile).queues[4].filter (s.fenceReady tile) = [f] := by
      have h4 : (s.tile tile).queues[4] = l ++ f :: r := by
        rw [← hqueue, List.getElem?_eq_getElem (show 4 < (s.tile tile).queues.toList.length by simp)]
        rfl
      rw [h4, List.filter_append, List.filter_eq_nil_iff.2 fun d hd => by simp [(hothers d (List.mem_append_left _ hd)).2], List.filter_cons_of_pos hfr,
        List.filter_eq_nil_iff.2 fun d hd => by simp [(hothers d (List.mem_append_right _ hd)).2]]
      rfl
    have hwait : s.cmdWait tile f = (true, s) := by
      rw [State.cmdWait]
      exact if_pos (by rw [hswen]; rfl)
    have hx : exec (.queueFence tile) s = .next (s.finishCmd tile f {} false) := by
      show Host.Outcome.next (s.fenceRow tile) = _
      rw [State.fenceRow, hfilter, List.foldl_cons, List.foldl_nil, hwait, habort]
      rfl
    obtain ⟨h1, h2, -, -, -, h6, h7⟩ := State.finishCmd_leaves (tile := tile) (q := 4) (r := {}) (drew := false) (by omega) hmute hdead hk htok .refl
    refine ⟨_, hx, ?_, h2, h6, ?_⟩
    · have hne (d : Cmd) (hd : d ∈ l ++ r) : (d.order != f.order) = true := bne_iff_ne.2 (hothers d hd).1
      rw [h1, hqueue, List.filter_append, List.filter_eq_self.2 fun d hd => hne d (List.mem_append_left _ hd), List.filter_cons_of_neg (by simp),
        List.filter_eq_self.2 fun d hd => hne d (List.mem_append_right _ hd)]
    · rw [h7, hssen, hq4, if_neg (fun h => Bool.false_ne_true h.1.1)]
      refine congrArg (BitVec.ofNat 64) ?_
      simp
  · have hlast : s.cmdLate tile q = some c := by
      have hl' : l.find? s.isLate = none := List.find?_eq_none.2 fun d hd => by rw [State.isLate_not (hl d hd)]; exact Bool.false_ne_true
      have hc : s.isLate c = true := by
        rw [State.isLate, running_of_started hst, hkernel, hoffered]
        exact decide_eq_true hlate
      rw [State.cmdLate_eq, hqueue, List.find?_append, hl', Option.none_or]
      exact List.find?_cons_of_pos hc
    exact ⟨_, _, congrArg Host.Outcome.next (State.deadline_expires hlast), rfl, rfl, rfl, rfl⟩

end Sys2Proof.Machine
end

section
/-! PROOFS. Breakpoints, stop messages, triggers, samples, freezes and the event timeout (27:R376 to R389). -/

namespace Sys2Proof.Machine

namespace State

variable {s u : State} {part k key : Nat}

/-! ### What a stop or a match leaves (27:R378, R383) -/

/-- Memory, the agenda, the stop messages and the cores of each partition are as they were. -/
structure KeepsStops (s u : State) : Prop where
  mem : u.mem = s.mem
  agenda : u.agenda = s.agenda
  stops : u.dbg.stops = s.dbg.stops
  cores : ∀ q, (u.partOf? q).map (·.cores.length) = (s.partOf? q).map (·.cores.length)

theorem KeepsStops.refl : s.KeepsStops s := ⟨rfl, rfl, rfl, fun _ => rfl⟩

theorem KeepsStops.trans {v : State} (h : s.KeepsStops u) (h' : u.KeepsStops v) : s.KeepsStops v :=
  ⟨h'.mem.trans h.mem, h'.agenda.trans h.agenda, h'.stops.trans h.stops, fun q => (h'.cores q).trans (h.cores q)⟩

theorem keepsStops_modPart {part : Nat} {f : Partition → Partition} (hf : ∀ p, (f p).cores = p.cores) : s.KeepsStops (s.modPart part f) := by
  refine ⟨modPart_mem _ _ _, modPart_agenda _ _ _, by rw [modPart_dbg], fun q => ?_⟩
  rw [partOf_modPart]
  split
  · rw [Option.map_map]
    exact congrArg (fun g => Option.map g (s.partOf? q)) (funext fun p => congrArg List.length (hf p))
  · rfl

theorem keepsStops_debugReplies (n part c st : Nat) (l : List Byte) : ∀ (ids : List (BitVec 32)) (v : State),
    v.KeepsStops (ids.foldl (fun s i => s.debugReply n part i c st l) v)
  | [], _ => .refl
  | i :: ids, v => KeepsStops.trans (u := v.debugReply n part i c st l) ⟨rfl, rfl, rfl, fun _ => rfl⟩ (keepsStops_debugReplies n part c st l ids _)

theorem keepsStops_postStop (part : Nat) (r : VWord) : s.KeepsStops (s.postStop part r) := by
  unfold postStop
  split
  · exact .refl
  · split
    · exact .refl
    · dsimp only
      split
      · refine KeepsStops.trans ?_ (keepsStops_debugReplies _ _ _ _ _ _ _)
        exact ⟨rfl, rfl, rfl, fun _ => rfl⟩
      · exact keepsStops_modPart fun p => rfl

theorem keepsStops_stopTask (key : Nat) (c : BitVec 6) (n : Nat) : s.KeepsStops (s.stopTask key c n) := by
  unfold stopTask
  dsimp only
  refine KeepsStops.trans ?_ (keepsStops_postStop _ _)
  refine KeepsStops.trans (u := (s.putTask key { s.taskAt key with stopped := true, stepping := false }).record key 0xA (c.toNat % 8) (s.taskAt key).gtid
    (packFields [(32, (standsAt (s.taskAt key)).toNat), (8, min n 255)])) ⟨rfl, rfl, rfl, fun _ => rfl⟩ (keepsStops_modPart fun p => ?_)
  split <;> rfl

/-- A stop message on its way is all that sending one leaves (27:R383). -/
theorem sendStop_frame (g : Word) (c : BitVec 6) (b : Option Nat) (n : Option VWord) : ∃ d, s.sendStop g c b n = { s with dbg := d } := by
  unfold sendStop
  split
  · exact ⟨_, rfl⟩
  · exact ⟨s.dbg, rfl⟩

theorem sendStops_frame (c : BitVec 6) : ∀ (l : List Word) (s : State), ∃ d, l.foldl (fun s g => s.sendStop g c) s = { s with dbg := d }
  | [], s => ⟨s.dbg, rfl⟩
  | g :: l, s => by
    obtain ⟨d, hd⟩ := sendStop_frame (s := s) g c none none
    obtain ⟨d', hd'⟩ := sendStops_frame c l (s.sendStop g c)
    exact ⟨d', by rw [List.foldl_cons, hd', hd]⟩

/-! ### Breakpoints (27:R378) -/

theorem breakHits_attached {t : Task} {c o : Nat} (h : s.breakHits t c o ≠ []) : s.attached t.part = true := by
  unfold breakHits at h
  unfold attached
  cases hp : s.partOf? t.part with
  | none => rw [hp] at h; exact absurd rfl h
  | some p =>
    rw [hp] at h
    dsimp only at h
    split at h
    · exact absurd rfl h
    · next hc =>
      rw [Option.map_some, Option.getD_some]
      cases hs : p.dbg.session with
      | none => rw [hs] at hc; simp at hc
      | some n => rfl

/-- A match at the instruction in progress that stops stops its task at once (27:R378). -/
theorem onMatch_stops {m : Match} {c : BitVec 6} {a : Nat} {id : BitVec 4} {ta : BitVec 2} (h : s.attached m.part = true) (ha : a ≠ 4) :
    (s.onMatch m c a id ta true).agenda = s.agenda ∧ (s.onMatch m c a id ta true).taskAt m.key = (if (s.taskAt m.key).stopped then s.taskAt m.key
      else { s.taskAt m.key with stopped := true, stepping := false }) := by
  have hnow : ∃ v, (if (s.taskAt m.key).stopped then s else s.stopTask m.key c 0) = v ∧ v.agenda = s.agenda
      ∧ v.taskAt m.key = (if (s.taskAt m.key).stopped then s.taskAt m.key else { s.taskAt m.key with stopped := true, stepping := false }) := by
    refine ⟨_, rfl, ?_⟩
    split
    · exact ⟨rfl, rfl⟩
    · exact ⟨(keepsStops_stopTask _ _ _).agenda, stopTask_self _ _ _⟩
  obtain ⟨v, hv, h1, h2⟩ := hnow
  have hm : s.onMatch m c a id ta true = ((s.actionTargets m a).foldl (fun s g => s.sendStop g cHALT_REQ) v).modPart m.part fun p =>
      { p with dbg := { p.dbg with stops := s.actionTargets m a ++ p.dbg.stops } } := by
    rw [← hv, onMatch, h]
    exact if_neg ha
  obtain ⟨d, hd⟩ := sendStops_frame cHALT_REQ (s.actionTargets m a) v
  rw [hm, hd, modPart_agenda, taskAt, modPart_slots]
  exact ⟨h1, h2⟩

theorem sendTriggerTo_agenda {p : Partition} {core : Nat} {id : BitVec 4} {a : BitVec 2} {n : Nat} (hp : s.partOf? part = some p) :
    (s.sendTriggerTo part core id a n).agenda.length = s.agenda.length + p.cores.length := by
  unfold sendTriggerTo
  rw [hp]
  dsimp only
  split
  · rw [List.length_append, List.length_map]
  · next k d hd =>
    rw [(told_controlAll k (.trigger id a n (BitVec.ofNat 10 core) s.cycle) d.joined _).frame]
    show (s.agenda ++ p.cores.map _).length = _
    rw [List.length_append, List.length_map]

theorem sendTriggerTo_slots (core : Nat) (id : BitVec 4) (a : BitVec 2) (n : Nat) : (s.sendTriggerTo part core id a n).slots = s.slots := (keepsCmd_sendTriggerTo _ _ _ _ _).slots

/-- A match whose action is a trigger is recorded, at its core and for the debugger (27:R378, R384). -/
def matchNoted (s : State) (m : Match) (c : BitVec 6) : State :=
  (s.record m.key 0xA (8 + c.toNat % 8) m.gtid (packFields [(32, m.off), (8, 0)])).postStop m.part
    (recWord 0xA ((s.record m.key 0xA (8 + c.toNat % 8) m.gtid (packFields [(32, m.off), (8, 0)])).worldOfCore (coreOf m.key)).toNat (slotOf m.key) (8 + c.toNat % 8) m.gtid s.cycle
      (packFields [(32, m.off), (8, 0)]))

/-- A match whose action is a trigger sends it to every core of the partition (27:R384). -/
theorem onMatch_triggers {m : Match} {c : BitVec 6} {id : BitVec 4} {ta : BitVec 2} {now : Bool} (h : s.attached m.part = true) :
    (s.onMatch m c 4 id ta now).agenda.length = s.agenda.length + (((s.partOf? m.part).map (·.cores.length)).getD 0) ∧ (s.onMatch m c 4 id ta now).slots = s.slots := by
  have hm : s.onMatch m c 4 id ta now = (s.matchNoted m c).sendTriggerTo m.part (coreOf m.key) id ta 0 := by
    rw [onMatch, h]
    rfl
  have hk : s.KeepsStops (s.matchNoted m c) :=
    KeepsStops.trans (u := s.record m.key 0xA (8 + c.toNat % 8) m.gtid (packFields [(32, m.off), (8, 0)])) ⟨rfl, rfl, rfl, fun _ => rfl⟩ (keepsStops_postStop _ _)
  have hs : (s.matchNoted m c).slots = s.slots := postStop_slots _ _
  generalize s.matchNoted m c = v at hm hk hs
  rw [hm, sendTriggerTo_slots, hs]
  refine ⟨?_, rfl⟩
  rw [← hk.cores m.part]
  cases hp : v.partOf? m.part with
  | none =>
    rw [attached, Option.map_eq_none_iff.1 ((hk.cores m.part).symm.trans (by rw [hp]; rfl))] at h
    cases h
  | some p => rw [sendTriggerTo_agenda hp, hk.agenda]; rfl

/-- One breakpoint matches: the task notes it, and the match is done (27:R378). -/
theorem breakAt_one {b : Breakpoint} {c : Capsule} (hc : s.codeOf? (s.taskAt key) = some c) (hb : s.breakHits (s.taskAt key) c.capid (s.taskAt key).pc.toNat = [b]) :
    s.breakAt key = (s.putTask key { s.taskAt key with skipBreak := true }).onMatch
      ⟨(s.taskAt key).gtid, (s.taskAt key).part, key, coreOf key, (standsAt (s.taskAt key)).toNat, none⟩ cBREAK_ADDR b.action b.trigId b.trigAction true := by
  unfold breakAt
  dsimp only
  rw [hc]
  dsimp only
  split
  · next h => rw [hb] at h; cases h
  · rw [hb]
    rfl

theorem breakAt_none {c : Capsule} (hc : s.codeOf? (s.taskAt key) = some c) (hb : s.breakHits (s.taskAt key) c.capid (s.taskAt key).pc.toNat = []) : s.breakAt key = s := by
  unfold breakAt
  dsimp only
  rw [hc]
  dsimp only
  split
  · rfl
  · next h => rw [hb] at h; exact absurd rfl h

/-! ### Stop messages (27:R383) -/

/-- A stop message is taken, with the record that it brings (27:R379). -/
def takeStop (s : State) (i k : Nat) (m : StopMsg) : State := match m.note with
  | some w => (s.dropStop i).modCore (coreOf k) fun x => { x with recorder := x.recorder.put s.cycle w }
  | none => s.dropStop i

theorem takeStop_eq (i k : Nat) (m : StopMsg) : ∃ c, s.takeStop i k m = { s with cores := c, dbg := { s.dbg with stops := s.dbg.stops.eraseIdx i } } := by
  unfold takeStop
  split
  · exact ⟨_, rfl⟩
  · exact ⟨s.cores, rfl⟩

theorem stopArrives_eq {core i k : Nat} {m : StopMsg} {t : Task} (hm : s.dbg.stops[i]? = some (core, m)) (hk : s.keyOf? m.gtid = some k)
    (ht : (s.everyTask.find? fun t => t.gtid == m.gtid) = some t) :
    s.stopArrives core i = if t.stopped then s.takeStop i k m else if !s.atBoundary t then s else (s.takeStop i k m).stopTask k m.cause (t.nissued - m.base) := by
  unfold stopArrives
  rw [hm]
  dsimp only
  rw [if_neg (not_not.2 rfl), hk, ht]
  rfl

/-! ### Recorders (27:R386) -/

theorem recWord_fields {kind world slot sub : Nat} {g : Word} {time pay : Nat} (hk : kind < 16) :
    (recWord kind world slot sub g time pay).toNat / 2 ^ 124 = kind ∧ (recWord kind world slot sub g time pay).toNat / 2 ^ 40 % 2 ^ 32 = time % 2 ^ 32 := by
  have h : ∃ a b, a < 2 ^ 40 ∧ b < 2 ^ 52 ∧ packFields [(40, pay), (32, time), (40, recGtid g), (4, sub), (4, slot), (4, world), (4, kind)]
      = a + 2 ^ 40 * (time % 2 ^ 32) + 2 ^ 72 * b + 2 ^ 124 * kind := by
    refine ⟨pay % 2 ^ 40, recGtid g % 2 ^ 40 + 2 ^ 40 * (sub % 2 ^ 4 + 2 ^ 4 * (slot % 2 ^ 4 + 2 ^ 4 * (world % 2 ^ 4))), Nat.mod_lt _ (by decide), by omega, ?_⟩
    simp only [packFields]
    omega
  obtain ⟨a, b, ha, hb, h⟩ := h
  rw [recWord, BitVec.toNat_ofNat, h]
  omega

theorem put_open {r : Recorder} (now : Nat) (w : VWord) (hf : r.frozen = none) (hc : r.capture = none) (hl : r.ring.length < 4096) :
    r.put now w = { r with ring := r.ring ++ [w], backlog := r.queued now + 1, backAt := now } := by
  unfold Recorder.put
  rw [hf]
  dsimp only [Option.isSome_none]
  rw [if_neg Bool.false_ne_true, hc]
  dsimp only
  rw [show r.ring.length + 1 - 4096 = 0 by omega, List.drop_zero]

/-- Two records written in one cycle to an open ring with room. -/
theorem put_two {r : Recorder} (now : Nat) (a b : VWord) (hf : r.frozen = none) (hc : r.capture = none) (hl : r.ring.length ≤ 4094) :
    (r.put now a).put now b = { r with ring := r.ring ++ [a, b], backlog := r.queued now + 2, backAt := now } := by
  rw [put_open now a hf hc (by omega), put_open (r := { r with ring := r.ring ++ [a], backlog := r.queued now + 1, backAt := now }) now b hf hc (by rw [List.length_append]; simp; omega)]
  have hq : Recorder.queued { r with ring := r.ring ++ [a], backlog := r.queued now + 1, backAt := now } now = r.queued now + 1 := by
    rw [Recorder.queued, Nat.sub_self, Nat.mul_zero, Nat.sub_zero]
  rw [hq, List.append_assoc]
  rfl

theorem core_modCore_self (c : Nat) (f : Core → Core) : (s.modCore c f).core c = f (s.core c) := by
  rw [core, modCore, mapMod, mapGet_mapSet_self]
  rfl

theorem core_modCore_ne {c j : Nat} (h : j ≠ c) (f : Core → Core) : (s.modCore c f).core j = s.core j := by
  rw [core, modCore, mapMod, mapGet_mapSet_ne _ h]
  rfl

/-! ### Triggers (27:R384, R388) -/

theorem spreadCores (z : Freeze) : ∀ (l : List Nat) (s : State),
    ∃ c, l.foldl (fun s c => s.modCore c fun k => { k with recorder := { k.recorder with freezeDue := some z } }) s = { s with cores := c }
      ∧ ∀ j, (j ∈ l ∨ (s.core j).recorder.freezeDue = some z) → (State.core { s with cores := c } j).recorder.freezeDue = some z
  | [], s => ⟨s.cores, rfl, fun j hj => hj.resolve_left List.not_mem_nil⟩
  | x :: l, s => by
    obtain ⟨c, h1, h2⟩ := spreadCores z l (s.modCore x fun k => { k with recorder := { k.recorder with freezeDue := some z } })
    refine ⟨c, by rw [List.foldl_cons, h1]; rfl, fun j hj => h2 j ?_⟩
    by_cases hx : j = x
    · right
      rw [hx, core_modCore_self]
    · rcases hj with hj | hj
      · exact .inl ((List.mem_cons.1 hj).resolve_left hx)
      · right
        rw [core_modCore_ne hx]
        exact hj

/-- A freeze that a trigger brings is on its way to every core that is there (27:R388). -/
theorem spreadFreeze_eq (z : Freeze) : ∃ c, s.spreadFreeze z = { s with cores := c, dbg := { s.dbg with freeze := some z } }
    ∧ ∀ j, s.corePresent j = true → (State.core { s with cores := c } j).recorder.freezeDue = some z := by
  obtain ⟨c, h1, h2⟩ := spreadCores z ((List.range 1024).filter s.corePresent) { s with dbg := { s.dbg with freeze := some z } }
  refine ⟨c, h1, fun j hj => h2 j (.inl (List.mem_filter.2 ⟨List.mem_range.2 ?_, hj⟩))⟩
  unfold corePresent at hj
  simp only [Bool.and_eq_true, decide_eq_true_eq] at hj
  exact hj.1.1

/-- A capture that starts ends the one before it (27:R384). -/
def forCapture (action : BitVec 2) (r : Recorder) : Recorder := if action = 1 then { r with capture := none } else r

/-- The state with a trigger's two records at its core (27:R384). -/
def triggerNoted (s : State) (core : Nat) (id : BitVec 4) (action : BitVec 2) (opkg : BitVec 19) (oc : BitVec 10) (n : Nat) : State :=
  s.modCore core fun k => { k with recorder := (triggerRecords (s.worldOfCore core) id action opkg oc n s.cycle).foldl (fun r w => r.put s.cycle w) (forCapture action k.recorder) }

theorem triggerAt_notes {core part count n : Nat} {id : BitVec 4} {action : BitVec 2} {opkg : BitVec 19} {oc : BitVec 10} (h3 : action ≠ 3) :
    s.triggerAt core part id action count opkg oc n = if action = 1 then (s.triggerNoted core id action opkg oc n).modCore core fun k => { k with recorder := { k.recorder with capture := some count } }
      else if (action = 2 && s.attached part) = true then
        (((s.triggerNoted core id action opkg oc n).tasksOn part (· == core)).filter (!·.stopped)).foldl (fun s t => match s.keyOf? t.gtid with
          | some k => if s.atBoundary t then s.stopTask k cTRIGGER 0 else s.sendStop t.gtid cTRIGGER
          | none => s.sendStop t.gtid cTRIGGER) (s.triggerNoted core id action opkg oc n)
      else s.triggerNoted core id action opkg oc n := by
  unfold triggerAt
  rw [if_neg h3]
  rfl

theorem triggerNoted_ring {core n : Nat} {id : BitVec 4} {action : BitVec 2} {opkg : BitVec 19} {oc : BitVec 10} (hf : (s.core core).recorder.frozen = none)
    (hc : (s.core core).recorder.capture = none) (hl : (s.core core).recorder.ring.length ≤ 4094) : ∃ a b,
    ((s.triggerNoted core id action opkg oc n).core core).recorder = { (s.core core).recorder with
        ring := (s.core core).recorder.ring ++ [a, b], backlog := (s.core core).recorder.queued s.cycle + 2, backAt := s.cycle }
      ∧ a.toNat / 2 ^ 124 = 8 ∧ a.toNat / 2 ^ 40 % 2 ^ 32 = s.cycle % 2 ^ 32 ∧ b.toNat / 2 ^ 124 = 9 ∧ b.toNat % 2 ^ 64 = n % 2 ^ 64 := by
  have hcap : forCapture action (s.core core).recorder = (s.core core).recorder := by
    unfold forCapture
    split
    · rw [← hc]
    · rfl
  have h9 : (BitVec.ofNat 128 (packFields [(64, n), (60, 0), (4, 9)])).toNat = n % 2 ^ 64 + 9 * 2 ^ 124 := by
    rw [BitVec.toNat_ofNat]
    simp only [packFields]
    omega
  refine ⟨recWord 0x8 (s.worldOfCore core).toNat 0 id.toNat 0 s.cycle (packFields [(9, 0), (2, action.toNat), (10, oc.toNat), (19, opkg.toNat)]),
    BitVec.ofNat 128 (packFields [(64, n), (60, 0), (4, 9)]), ?_, (recWord_fields (by omega)).1, (recWord_fields (by omega)).2, ?_, ?_⟩
  · rw [triggerNoted, core_modCore_self, hcap]
    exact put_two s.cycle _ _ hf hc hl
  · rw [h9]; omega
  · rw [h9]; omega

/-! ### Samples and freezes (27:R386 to R389) -/

/-- A sample records one word, or is lost where four records are queued (27:R386). -/
theorem sampleAt_eq {core p : Nat} (h : s.sampleDue core = some p) : ∃ w : VWord, w.toNat / 2 ^ 124 = 1 ∧ w.toNat / 2 ^ 40 % 2 ^ 32 = s.cycle % 2 ^ 32
    ∧ s.sampleAt core = s.modCore core fun k =>
      if 4 ≤ k.recorder.queued s.cycle then { k with samples := s.cycle + 1, recorder := { k.recorder with dropped := k.recorder.dropped + 1 } }
      else { k with samples := s.cycle + 1, recorder := k.recorder.put s.cycle w } := by
  unfold sampleAt
  rw [h]
  exact ⟨_, (recWord_fields (by omega)).1, (recWord_fields (by omega)).2, rfl⟩

theorem freezeAbroad_told (z : Freeze) : ∃ p o, s.freezeAbroad z = { s with parts := p, net := { s.net with out := o } } := by
  have h : ∀ (l : List (Nat × Partition)) (v : State), ∃ p o, l.foldl (fun s e => match e.2.domain with
      | none => s
      | some d => s.controlAll e.1 d.joined (.trigger 0 3 z.cause (BitVec.ofNat 10 z.ocore) z.cycle)) v = { v with parts := p, net := { v.net with out := o } } := by
    intro l
    induction l with
    | nil => exact fun v => ⟨v.parts, v.net.out, rfl⟩
    | cons e l ih =>
      intro v
      rw [List.foldl_cons]
      rcases e.2.domain with _ | d
      · exact ih v
      · obtain ⟨p, o, h⟩ := ih (v.controlAll e.1 d.joined (.trigger 0 3 z.cause (BitVec.ofNat 10 z.ocore) z.cycle))
        exact ⟨p, o, by rw [h, (told_controlAll e.1 (.trigger 0 3 z.cause (BitVec.ofNat 10 z.ocore) z.cycle) d.joined v).frame]⟩
  exact h _ s

theorem trailerOf_length (core : Nat) (z : Freeze) (n : Nat) : (s.trailerOf core z n).length = 10 := rfl

/-- A freeze ends the ring of its core with its trailer (27:R388). -/
theorem freezeAt_eq {core : Nat} {z : Freeze} (h : s.freezeDueAt core = some z) : ∃ p o,
    s.freezeAt core = { s.modCore core (fun k => { k with recorder := { k.recorder with freezeDue := none, frozen := some (s.trailerOf core z k.recorder.dropped) } }) with
        parts := p, net := { s.net with out := o } }
      ∧ (z.opkg ≠ s.pkgNo.toNat ∨ z.ocore ≠ core → p = s.parts ∧ o = s.net.out) := by
  have hf : s.freezeAt core = if (z.opkg = s.pkgNo.toNat && z.ocore = core) = true then
      (s.modCore core fun k => { k with recorder := { k.recorder with freezeDue := none, frozen := some (s.trailerOf core z k.recorder.dropped) } }).freezeAbroad z
      else s.modCore core fun k => { k with recorder := { k.recorder with freezeDue := none, frozen := some (s.trailerOf core z k.recorder.dropped) } } := by
    unfold freezeAt
    rw [h]
    rfl
  rw [hf]
  split
  · next hc =>
    obtain ⟨p, o, hp⟩ := freezeAbroad_told (s := s.modCore core fun k => { k with recorder := { k.recorder with freezeDue := none, frozen := some (s.trailerOf core z k.recorder.dropped) } }) z
    refine ⟨p, o, hp, fun hn => ?_⟩
    simp only [Bool.and_eq_true, decide_eq_true_eq] at hc
    exact absurd hn (by rintro (e | e); exacts [e hc.1, e hc.2])
  · exact ⟨s.parts, s.net.out, rfl, fun _ => ⟨rfl, rfl⟩⟩

/-! ### The gathered record (27:R389) -/

theorem signed_mgmt (m : List Byte) : ∃ g, (s.signed m).2 = { s with mgmt := g } := by
  unfold signed
  dsimp only
  rcases nextLms_eq (s := s) with ⟨i, g, h, -⟩ | ⟨h, -⟩
  · rw [h]; exact ⟨g, rfl⟩
  · rw [h]; exact ⟨s.mgmt, rfl⟩

theorem logPut_mgmt (kind : Nat) (w : BitVec 4) (l : List Byte) : ∃ g, s.logPut kind w l = { s with mgmt := g } := ⟨_, rfl⟩

theorem logFreeze_mgmt (b : List Byte) : ∃ g, s.logFreeze b = { s with mgmt := g } := by
  have h : ∀ (f : Nat → List Byte) (l : List Nat) (v : State), ∃ g, l.foldl (fun s i => s.logPut 8 0 (f i)) v = { v with mgmt := g } := by
    intro f l
    induction l with
    | nil => exact fun v => ⟨v.mgmt, rfl⟩
    | cons i l ih =>
      intro v
      obtain ⟨g, hg⟩ := ih (v.logPut 8 0 (f i))
      obtain ⟨g', hg'⟩ := logPut_mgmt (s := v) 8 0 (f i)
      exact ⟨g, by rw [List.foldl_cons, hg, hg']⟩
  exact h _ _ s

/-- The ring of a core, once its freeze has arrived (27:R389). -/
def gatherOne (s : State) (e : Nat × Core) : Option TephraCore :=
  (e.2.recorder.frozen).map fun tr => { core := e.1, world := s.worldOfCore e.1, ring := e.2.recorder.ring, trailer := tr }

/-- A core after its ring was gathered (27:R389). -/
def ungathered (e : Nat × Core) : Nat × Core := if e.2.recorder.frozen.isSome then (e.1, { e.2 with recorder := {} }) else e

/-- The record of all rings, before it is signed (27:R389). -/
def tephraOf (s : State) (z : Freeze) : Tephra :=
  { fwver := s.fwver, origin := z.cycle, pkg := z.opkg, ocore := z.ocore, cause := z.cause, cores := s.cores.filterMap s.gatherOne, sig := [], keys := s.recordKeys }

/-- The state in which new rings have begun (27:R389). -/
def ringsBegun (s : State) : State := { s with cores := s.cores.map ungathered, dbg := { s.dbg with freeze := none } }

/-- The record kept for the debugger (27:R389). -/
def withTephra (s : State) (t : Tephra) : State := { s with dbg := { s.dbg with tephra := some t } }

theorem gatherRings_eq {z : Freeze} (hz : s.dbg.freeze = some z) (hr : s.gatherReady = true) (ht : s.dbg.tephra = none) : ∃ sig g,
    s.gatherRings = { s.ringsBegun.withTephra { s.tephraOf z with sig := sig } with mgmt := g } := by
  have h : s.gatherRings = State.logFreeze ((s.ringsBegun.signed (Tephra.body (s.tephraOf z) 0xFF)).2.withTephra
        { s.tephraOf z with sig := (s.ringsBegun.signed (Tephra.body (s.tephraOf z) 0xFF)).1 })
      (Tephra.body (s.tephraOf z) 0xFF ++ (s.ringsBegun.signed (Tephra.body (s.tephraOf z) 0xFF)).1) := by
    unfold gatherRings
    rw [hz, hr]
    dsimp only
    split
    · next hr' => rw [Bool.not_true] at hr'; cases hr'
    · split
      · next h => rw [ht] at h; cases h
      · rfl
  obtain ⟨g, hg⟩ := signed_mgmt (s := s.ringsBegun) (Tephra.body (s.tephraOf z) 0xFF)
  obtain ⟨g', hg'⟩ := logFreeze_mgmt (s := (s.ringsBegun.signed (Tephra.body (s.tephraOf z) 0xFF)).2.withTephra
      { s.tephraOf z with sig := (s.ringsBegun.signed (Tephra.body (s.tephraOf z) 0xFF)).1 })
    (Tephra.body (s.tephraOf z) 0xFF ++ (s.ringsBegun.signed (Tephra.body (s.tephraOf z) 0xFF)).1)
  rw [hg] at hg'
  exact ⟨_, g', h.trans (by rw [hg]; exact hg')⟩

theorem gatherReady_iff {z : Freeze} (hz : s.dbg.freeze = some z) : s.gatherReady = true ↔ ¬∃ e ∈ s.cores, e.2.recorder.freezeDue ≠ none := by
  rw [gatherReady, hz]
  simp [Option.isSome_iff_ne_none]

end State

/-- Settles O46: what breakpoints, stop messages, triggers, samples and freezes leave. -/
theorem debugEvents : Obligations.DebugEvents := by
  refine ⟨fun s key b c => ?_, fun s core i k m t hm hk ht htask => ?_, fun s core part count n id action opkg oc => ?_, fun s core p => ?_, fun s core => ?_, fun s z hz => ?_,
    fun s session part c id x hx hw => ?_⟩
  · intro t hc
    refine ⟨fun hb => congrArg Host.Outcome.next (State.breakAt_none hc hb), fun hb => ?_⟩
    have hne : s.breakHits t c.capid t.pc.toNat ≠ [] := by
      rw [hb]
      exact List.cons_ne_nil _ _
    have hatt : (s.putTask key { s.taskAt key with skipBreak := true }).attached t.part = true := State.breakHits_attached hne
    have hself : (s.putTask key { s.taskAt key with skipBreak := true }).taskAt key = { t with skipBreak := true } := State.taskAt_putTask_self _ _ _
    refine ⟨_, congrArg Host.Outcome.next (State.breakAt_one hc hb), State.mem_onMatch _ _ _ _ _ _ _, ?_⟩
    by_cases h4 : b.action = 4
    · rw [h4]
      obtain ⟨h1, h2⟩ := State.onMatch_triggers (m := ⟨t.gtid, t.part, key, coreOf key, (State.standsAt t).toNat, none⟩) (c := cBREAK_ADDR) (id := b.trigId) (ta := b.trigAction) (now := true) hatt
      have hu : (((s.putTask key { s.taskAt key with skipBreak := true }).onMatch ⟨t.gtid, t.part, key, coreOf key, (State.standsAt t).toNat, none⟩ cBREAK_ADDR 4 b.trigId b.trigAction true).taskAt key)
          = { t with skipBreak := true } := by rw [State.taskAt, h2]; exact hself
      exact ⟨by rw [hu], by rw [hu], fun h => absurd rfl h, fun _ => ⟨by rw [hu], h1⟩⟩
    · obtain ⟨h1, h2⟩ := State.onMatch_stops (m := ⟨t.gtid, t.part, key, coreOf key, (State.standsAt t).toNat, none⟩) (c := cBREAK_ADDR) (id := b.trigId) (ta := b.trigAction) hatt h4
      dsimp only at h2
      rw [hself] at h2
      refine ⟨?_, ?_, fun _ => ⟨?_, h1⟩, fun h => absurd h h4⟩
      · rw [h2]
        split <;> rfl
      · rw [h2]
        split <;> rfl
      · rw [h2]
        split
        · next hs => exact hs
        · rfl
  · intro gone
    have hx : exec (.stopMessageArrival core i) s = .next _ := congrArg Host.Outcome.next (State.stopArrives_eq hm hk ht)
    refine ⟨fun h1 h2 => ?_, fun h1 => ?_, fun h1 h2 => ?_⟩
    · rw [hx, h1, h2]
      rfl
    · rw [hx, h1]
      refine congrArg Host.Outcome.next ?_
      show s.takeStop i k m = _
      unfold State.takeStop
      cases m.note <;> rfl
    · rw [h1, h2] at hx
      obtain ⟨co, hco⟩ := State.takeStop_eq (s := s) i k m
      have hslots : (s.takeStop i k m).slots = s.slots := by rw [hco]
      have hk' := State.keepsStops_stopTask (s := s.takeStop i k m) k m.cause (t.nissued - m.base)
      refine ⟨_, hx, ?_, ?_, fun j hj => ?_, ?_⟩
      · show ((s.takeStop i k m).stopTask k m.cause (t.nissued - m.base)).dbg.stops = _
        rw [hk'.stops, hco]
      · show ((s.takeStop i k m).stopTask k m.cause (t.nissued - m.base)).taskAt k = _
        rw [State.stopTask_self, State.taskAt, hslots, ← htask]
        rfl
      · show ((s.takeStop i k m).stopTask k m.cause (t.nissued - m.base)).taskAt j = _
        rw [State.taskAt, State.stopTask_other _ _ hj, hslots]
        rfl
      · show ((s.takeStop i k m).stopTask k m.cause (t.nissued - m.base)).mem = _
        rw [hk'.mem, hco]
  · intro r i
    refine ⟨fun h3 hf => ?_, fun h3 hf => ?_, fun h3 h2 hfz hc hl => ?_, fun k t h2 hatt hon hk htask hstop => ?_⟩
    · show Host.Outcome.next (s.triggerAt core part id action count opkg oc n) = _
      rw [State.triggerAt, if_pos h3, if_pos hf]
    · intro z
      obtain ⟨c, h1, h2⟩ := State.spreadFreeze_eq (s := s) z
      have hx : s.triggerAt core part id action count opkg oc n = { s with cores := c, dbg := { s.dbg with freeze := some z } } := by
        rw [State.triggerAt, if_pos h3, hf]
        exact h1
      exact ⟨_, congrArg Host.Outcome.next hx, rfl, h2⟩
    · obtain ⟨a, b, h4, h5, h6, h7, h8⟩ := State.triggerNoted_ring (s := s) (core := core) (n := n) (id := id) (action := action) (opkg := opkg) (oc := oc) hfz hc hl
      have hx := State.triggerAt_notes (s := s) (core := core) (part := part) (count := count) (n := n) (id := id) (opkg := opkg) (oc := oc) h3
      by_cases h1 : action = 1
      · rw [if_pos h1] at hx
        refine ⟨_, a, b, congrArg Host.Outcome.next hx, rfl, ?_, h5, h6, h7, h8⟩
        rw [State.core_modCore_self, if_pos h1, h4]
      · rw [if_neg h1, if_neg (show ¬(decide (action = 2) && s.attached part) = true by rw [decide_eq_false h2]; exact Bool.false_ne_true)] at hx
        refine ⟨_, a, b, congrArg Host.Outcome.next hx, rfl, ?_, h5, h6, h7, h8⟩
        rw [h4, if_neg h1, ← hc]
    · have hx := State.triggerAt_notes (s := s) (core := core) (part := part) (count := count) (n := n) (id := id) (action := action) (opkg := opkg) (oc := oc) (by rw [h2]; decide)
      have hon' : (s.triggerNoted core id action opkg oc n).tasksOn part (· == core) = [t] := hon
      have hk' : (s.triggerNoted core id action opkg oc n).keyOf? t.gtid = some k := hk
      have ht' : (s.triggerNoted core id action opkg oc n).taskAt k = t := htask
      have hb' : (s.triggerNoted core id action opkg oc n).atBoundary t = s.atBoundary t := rfl
      rw [if_neg (by rw [h2]; decide), if_pos (by rw [h2, hatt]; rfl), hon', List.filter_cons_of_pos (by rw [hstop]; rfl), List.filter_nil, List.foldl_cons, List.foldl_nil, hk'] at hx
      dsimp only at hx
      rw [hb'] at hx
      split
      · next hb =>
        rw [if_pos hb] at hx
        refine ⟨_, congrArg Host.Outcome.next hx, (State.keepsStops_stopTask _ _ _).mem, ?_⟩
        rw [State.stopTask_self, ht']
        exact ⟨rfl, rfl⟩
      · next hb =>
        rw [if_neg hb, State.sendStop_eq cTRIGGER hk' ht' rfl] at hx
        exact ⟨_, congrArg Host.Outcome.next hx, rfl, ht', List.length_append⟩
  · refine ⟨fun h => ?_, fun h => ?_⟩
    · show Host.Outcome.next (s.sampleAt core) = _
      rw [State.sampleAt, h]
    · obtain ⟨w, h1, h2, h3⟩ := State.sampleAt_eq h
      refine ⟨_, congrArg Host.Outcome.next h3, rfl, ?_, ?_⟩
      · rw [State.core_modCore_self]
        split <;> rfl
      · rw [State.core_modCore_self]
        split
        · rfl
        · exact ⟨w, rfl, h1, h2⟩
  · refine ⟨fun h => ?_, fun z h => ?_⟩
    · show Host.Outcome.next (s.freezeAt core) = _
      rw [State.freezeAt, h]
    · obtain ⟨p, o, h1, h2⟩ := State.freezeAt_eq h
      refine ⟨_, s.trailerOf core z (s.core core).recorder.dropped, congrArg Host.Outcome.next h1, rfl, rfl, rfl, fun hn => ?_, ?_⟩
      · obtain ⟨rfl, rfl⟩ := h2 hn
        rfl
      · exact congrArg Core.recorder (State.core_modCore_self (s := s) core fun k =>
          { k with recorder := { k.recorder with freezeDue := none, frozen := some (s.trailerOf core z k.recorder.dropped) } })
  · split
    · next h =>
      have hr : s.gatherReady = false := Bool.eq_false_iff.2 fun e => (State.gatherReady_iff hz).1 e h
      show Host.Outcome.next s.gatherRings = _
      rw [State.gatherRings, hz, hr]
      rfl
    · next h =>
      intro ht
      obtain ⟨sig, g, hg⟩ := State.gatherRings_eq hz ((State.gatherReady_iff hz).2 h) ht
      refine ⟨_, _, congrArg Host.Outcome.next hg, rfl, rfl, rfl, rfl, rfl, rfl, rfl, rfl, rfl, fun e he => ?_, fun e he tr htr => ?_⟩
      · obtain ⟨d, -, rfl⟩ := List.mem_map.1 (show e ∈ s.cores.map State.ungathered from he)
        unfold State.ungathered
        split
        · rfl
        · next hn => simpa using hn
      · exact ⟨_, List.mem_filterMap.2 ⟨e, he, by rw [State.gatherOne, htr]; rfl⟩, rfl, rfl, rfl⟩
  · have hx' : s.session? session = some x := hx
    show execWaitForEventTimeout session part s = _
    rw [execWaitForEventTimeout, hx']
    dsimp only
    rw [hw]
    have hover : s.waitOver part (part, c, id) = decide (c + 100 * 1700000 ≤ s.cycle) := by
      rw [State.waitOver]
      exact (congrArg (· && _) (beq_self_eq_true part)).trans (Bool.true_and _)
    rw [List.filter_cons, hover]
    by_cases hlt : s.cycle < c + 100 * 1700000
    · rw [if_pos hlt, decide_eq_false (by omega), if_neg Bool.false_ne_true]
      rfl
    · rw [if_neg hlt, decide_eq_true (by omega), if_pos rfl]
      have hleft : [(part, c, id)].filter (fun w => !s.waitOver part w) = [] := by
        rw [List.filter_cons, hover, decide_eq_true (by omega)]
        rfl
      rw [hleft]
      rfl

end Sys2Proof.Machine
end

section
/-! PROOFS. The barrier of a trust domain, its members, and the messages they send and refuse (23:R352 to R357). -/

namespace Sys2Proof.Machine

namespace State

variable {s u : State} {k : Nat} {p : Partition} {d e : Domain}

theorem mapSet_mapSet {α : Type} (k : Nat) (a b : α) : ∀ m : Map α, mapSet (mapSet m k a) k b = mapSet m k b
  | [] => by simp [mapSet]
  | (j, x) :: r => by
    have ih := mapSet_mapSet k a b r
    by_cases h1 : j < k
    · simp only [mapSet, if_pos h1, ih]
    · by_cases h2 : j = k
      · simp [mapSet, h2]
      · simp [mapSet, h1, h2]

/-! ### A domain and its messages -/

theorem domain_of (hp : s.partOf? k = some p) (hd : p.domain = some d) : s.domain? k = some d := by
  rw [domain?, hp]
  exact hd

theorem setDomain_eq (hp : s.partOf? k = some p) (e : Domain) : s.setDomain k e = s.putPart k { p with domain := some e } := by
  rw [setDomain, modPart_some hp]

theorem setDomain_setDomain (hp : s.partOf? k = some p) (d e : Domain) : (s.setDomain k d).setDomain k e = s.setDomain k e := by
  rw [setDomain_eq hp, setDomain_eq hp, setDomain_eq (partOf_putPart k { p with domain := some d }), putPart, putPart, putPart]
  dsimp only
  rw [mapSet_mapSet]

/-- The state in which domain `k` is `e` and messages were sent. -/
def nextDomain (s : State) (k : Nat) (p : Partition) (e : Domain) (out : List Outgoing) : State :=
  { s.putPart k { p with domain := some e } with net := { s.net with out := s.net.out ++ out } }

theorem nextDomain_nil (hp : s.partOf? k = some p) (e : Domain) : s.setDomain k e = s.nextDomain k p e [] := by
  rw [setDomain_eq hp, nextDomain, List.append_nil]
  rfl

theorem domain_nextDomain (e : Domain) (out : List Outgoing) : (s.nextDomain k p e out).domain? k = some e := by
  rw [domain?]
  show ((s.putPart k { p with domain := some e }).partOf? k).bind _ = _
  rw [partOf_putPart]
  rfl

theorem nextDomain_setDomain (e f : Domain) (out : List Outgoing) : (s.nextDomain k p e out).setDomain k f = s.nextDomain k p f out := by
  have hk : (s.nextDomain k p e out).partOf? k = some { p with domain := some e } := partOf_putPart k _
  rw [setDomain_eq hk, nextDomain, nextDomain, putPart, putPart, putPart]
  dsimp only
  rw [mapSet_mapSet]

theorem nextDomain_modDomain (e : Domain) (out : List Outgoing) (f : Domain → Domain) : (s.nextDomain k p e out).modDomain k f = s.nextDomain k p (f e) out := by
  rw [modDomain, domain_nextDomain]
  exact nextDomain_setDomain _ _ _

theorem nextDomain_post (e : Domain) (out : List Outgoing) (o : Outgoing) : (s.nextDomain k p e out).post o = s.nextDomain k p e (out ++ [o]) := by
  unfold nextDomain post
  dsimp only
  rw [List.append_assoc]

/-- The domain after one message to a member on channel 3. -/
def toldTo (m : Nat) (e : Domain) : Domain := { e with sendSeq := mapSet e.sendSeq (4 * m + 3) (e.nextSeq m 3 + 1) }

/-- The message that carries a control to a member. -/
def mailTo (me m : Nat) (c : Control) (e : Domain) : Outgoing := .message m (e.seal me m 3 5 (e.nextSeq m 3) (Config.controlPayload c))

theorem nextDomain_control {m : Nat} (e : Domain) (out : List Outgoing) (c : Control) (hm : m ≠ s.pkgNo.toNat) :
    (s.nextDomain k p e out).control k m c = s.nextDomain k p (toldTo m e) (out ++ [mailTo s.pkgNo.toNat m c e]) := by
  have hc : (s.nextDomain k p e out).control k m c = (s.nextDomain k p e out).sendMsg k m 3 5 (Config.controlPayload c) := if_neg hm
  rw [hc, sendMsg, domain_nextDomain]
  dsimp only
  rw [nextDomain_setDomain, nextDomain_post, tupleKey, Nat.mul_comm]
  rfl

theorem control_sends {m : Nat} (hp : s.partOf? k = some p) (hk : s.domain? k = some d) (c : Control) (hm : m ≠ s.pkgNo.toNat) :
    s.control k m c = s.nextDomain k p (toldTo m d) [mailTo s.pkgNo.toNat m c d] := by
  rw [control, if_neg hm, sendMsg, hk]
  dsimp only
  rw [nextDomain_nil hp, nextDomain_post, tupleKey, Nat.mul_comm]
  rfl

/-! ### What the coordinator's messages do (23:R356) -/

theorem domBarrier_other (hk : s.domain? k = some d) {src g : Nat} (h : d.coord = s.pkgNo.toNat ∨ src ≠ d.coord) : s.domBarrier k src g = s := by
  unfold domBarrier
  rw [hk]
  dsimp only
  rw [if_pos (by simpa using h)]

theorem domOpened_other (hk : s.domain? k = some d) {src : Nat} (h : d.coord = s.pkgNo.toNat ∨ src ≠ d.coord ∨ d.st ≠ .keyed) : s.domOpened k src = s := by
  unfold domOpened
  rw [hk]
  dsimp only
  rw [if_pos (by simpa [or_assoc] using h)]

theorem domKeyed_other (hk : s.domain? k = some d) {src : Nat} (key : List Byte)
    (h : d.coord = s.pkgNo.toNat ∨ src ≠ d.coord ∨ ¬(d.st = .drained ∨ d.st = .joining ∨ (d.st = .opened ∧ d.keyBy ≠ d.coord))) : s.domKeyed k src key = s := by
  unfold domKeyed
  rw [hk]
  dsimp only
  have hn : (d.st == .drained || d.st == .joining || (d.st == .opened && d.keyBy != d.coord)) = true ↔ (d.st = .drained ∨ d.st = .joining ∨ (d.st = .opened ∧ d.keyBy ≠ d.coord)) := by
    simp [or_assoc]
  rw [if_pos]
  rw [Bool.or_eq_true, Bool.or_eq_true, decide_eq_true_iff, bne_iff_ne, Bool.not_eq_true', ← Bool.not_eq_true, hn, or_assoc]
  exact h

theorem successorNamed_other (hk : s.domain? k = some d) {src m : Nat} (h : d.coord = s.pkgNo.toNat ∨ src ≠ d.coord ∨ m ∉ d.joined ∨ m = d.coord) :
    s.successorNamed k src m = s := by
  unfold successorNamed
  rw [hk]
  dsimp only
  rw [if_pos (by simpa [or_assoc] using h)]

theorem domBarrier_eq (hk : s.domain? k = some d) (g : Nat) (hc : d.coord ≠ s.pkgNo.toNat) : s.domBarrier k d.coord g
    = if d.st = .joining then s.setDomain k { d with nextGen := g, since := s.cycle }
      else if g = d.gen % 65535 + 1 then s.setDomain k { d with st := .draining, nextGen := g, since := s.cycle } else s := by
  unfold domBarrier nextGeneration
  rw [hk]
  dsimp only
  rw [if_neg (by simpa using hc)]
  by_cases h : g = d.gen % 65535 + 1
  · rw [if_neg (not_not.2 h), if_pos h]
  · rw [if_pos h, if_neg h]

theorem domOpened_eq (hk : s.domain? k = some d) (hc : d.coord ≠ s.pkgNo.toNat) (h : d.st = .keyed) : s.domOpened k d.coord
    = s.setDomain k { d with st := .opened, since := s.cycle, lastBeat := s.cycle, drained := [], ready := [], joined := d.members.filter fun m => !d.lost.contains m } := by
  unfold domOpened
  rw [hk]
  dsimp only
  rw [if_neg (by simpa [h] using hc)]
  rfl

theorem domKeyed_eq (hp : s.partOf? k = some p) (hk : s.domain? k = some d) (key : List Byte) (hc : d.coord ≠ s.pkgNo.toNat)
    (h : d.st = .drained ∨ d.st = .joining ∨ (d.st = .opened ∧ d.keyBy ≠ d.coord)) :
    s.domKeyed k d.coord key = s.nextDomain k p (toldTo d.coord (Domain.install d (if d.st = .opened ∧ d.keyBy ≠ d.coord then 1 else max 1 d.nextGen) key s.cycle))
      [mailTo s.pkgNo.toNat d.coord .ready (Domain.install d (if d.st = .opened ∧ d.keyBy ≠ d.coord then 1 else max 1 d.nextGen) key s.cycle)] := by
  have hgen : (if (d.st == .opened && d.keyBy != d.coord) = true then 1 else max 1 d.nextGen) = if d.st = .opened ∧ d.keyBy ≠ d.coord then 1 else max 1 d.nextGen := by
    refine if_congr ?_ rfl rfl
    simp
  unfold domKeyed
  rw [hk]
  dsimp only
  have hn : (d.st == .drained || d.st == .joining || (d.st == .opened && d.keyBy != d.coord)) = true := by
    simpa [or_assoc] using h
  rw [hn, if_neg (by simpa using hc), hgen, nextDomain_nil hp, nextDomain_control _ _ _ hc]
  rfl

/-! ### What the members' messages do (23:R356) -/

theorem coordinate_member (hk : s.domain? k = some d) (h : d.coord ≠ s.pkgNo.toNat) : s.coordinate k = s := by
  unfold coordinate
  rw [hk]
  dsimp only
  rw [if_pos h]

theorem coordinate_waits (hk : s.domain? k = some d) (h1 : d.st = .drained → ∃ x ∈ d.joined, x ≠ s.pkgNo.toNat ∧ x ∉ d.drained)
    (h2 : d.st = .keyed → ∃ x ∈ d.joined, x ≠ s.pkgNo.toNat ∧ x ∉ d.ready) : s.coordinate k = s := by
  have hall (l : List Nat) (h : ∃ x ∈ d.joined, x ≠ s.pkgNo.toNat ∧ x ∉ l) : (d.joined.filter (· != s.pkgNo.toNat)).all l.contains = false := by
    obtain ⟨x, hx, hne, hl⟩ := h
    exact List.all_eq_false.2 ⟨x, List.mem_filter.2 ⟨hx, bne_iff_ne.2 hne⟩, by simpa using hl⟩
  unfold coordinate
  rw [hk]
  dsimp only
  by_cases hc : d.coord = s.pkgNo.toNat
  · rw [if_neg (not_not.2 hc), if_neg, if_neg]
    · rw [Bool.and_eq_true, decide_eq_true_iff]
      rintro ⟨e, ha⟩
      rw [hall _ (h2 e)] at ha
      cases ha
    · rw [Bool.and_eq_true, decide_eq_true_iff]
      rintro ⟨e, ha⟩
      rw [hall _ (h1 e)] at ha
      cases ha
  · rw [if_pos hc]

theorem domDrained_me (hp : s.partOf? k = some p) (hk : s.domain? k = some d) (hc : d.coord ≠ s.pkgNo.toNat) : s.domDrained k s.pkgNo.toNat
    = if d.st = .draining ∧ s.ownDrained k d = true then
        s.nextDomain k p { toldTo d.coord d with st := .drained, since := s.cycle } [mailTo s.pkgNo.toNat d.coord .drained d] else s := by
  unfold domDrained
  rw [hk]
  dsimp only
  rw [if_pos rfl]
  by_cases h : d.st = .draining ∧ s.ownDrained k d = true
  · have hk' : (s.nextDomain k p { toldTo d.coord d with st := .drained, since := s.cycle } [mailTo s.pkgNo.toNat d.coord .drained d]).domain? k
        = some { toldTo d.coord d with st := .drained, since := s.cycle } := domain_nextDomain _ _
    rw [if_pos (by simpa using h), if_pos h, control_sends hp hk .drained hc, nextDomain_modDomain]
    exact coordinate_member hk' hc
  · rw [if_neg (by simpa using h), if_neg h]

theorem domDrained_eq (hp : s.partOf? k = some p) (hk : s.domain? k = some d) {m : Nat} (hc : d.coord = s.pkgNo.toNat) (hm : m ≠ s.pkgNo.toNat) (hj : m ∈ d.joined)
    (hst : d.st = .draining ∨ d.st = .drained) : s.domDrained k m = (s.nextDomain k p { d with drained := insNat d.drained m } []).coordinate k := by
  unfold domDrained
  rw [hk]
  dsimp only
  rw [if_neg hm, if_pos (by simpa [hc, hj] using hst), nextDomain_nil hp]

theorem domReady_eq (hp : s.partOf? k = some p) (hk : s.domain? k = some d) {m : Nat} (hc : d.coord = s.pkgNo.toNat) (hj : m ∈ d.joined) (hst : d.st = .keyed) :
    s.domReady k m = (s.nextDomain k p { d with ready := insNat d.ready m } []).coordinate k := by
  unfold domReady
  rw [hk]
  dsimp only
  rw [if_pos (by simp [hc, hj, hst]), nextDomain_nil hp]

/-- Keys to members, one message each. -/
theorem posts_eq (f : Nat → Outgoing) : ∀ (l : List Nat) (s : State), l.foldl (fun s m => s.post (f m)) s = { s with net := { s.net with out := s.net.out ++ l.map f } }
  | [], s => by rw [List.map_nil, List.append_nil]; rfl
  | m :: l, s => by
    rw [List.foldl_cons, posts_eq f l, post]
    dsimp only
    rw [List.append_assoc]
    rfl

theorem all_others {d : Domain} {me : Nat} {l : List Nat} (h : ∀ x ∈ d.joined, x ≠ me → x ∈ l) : (d.joined.filter (· != me)).all l.contains = true :=
  List.all_eq_true.2 fun x hx => List.contains_iff_mem.2 (h x (List.mem_filter.1 hx).1 (bne_iff_ne.1 (List.mem_filter.1 hx).2))

/-- The coordinator draws the new key and sends it once every member has drained (23:R356). -/
theorem coordinate_keys (hp : s.partOf? k = some p) (hk : s.domain? k = some d) (hc : d.coord = s.pkgNo.toNat) (hst : d.st = .drained)
    (hall : ∀ x ∈ d.joined, x ≠ s.pkgNo.toNat → x ∈ d.drained) (hsome : ∃ x ∈ d.joined, x ≠ s.pkgNo.toNat) : ∃ key u,
    s.coordinate k = u ∧ u.domain? k = some (Domain.install d d.nextGen key s.cycle) ∧ u.mem = s.mem
      ∧ u.net.out = s.net.out ++ (d.joined.filter (· != s.pkgNo.toNat)).map fun x => .key x key := by
  have hne : (d.joined.filter (· != s.pkgNo.toNat)).isEmpty = false := by
    obtain ⟨x, hx, hxm⟩ := hsome
    rw [List.isEmpty_eq_false_iff]
    exact List.ne_nil_of_mem (List.mem_filter.2 ⟨hx, bne_iff_ne.2 hxm⟩)
  refine ⟨s.drawKey.1, _, rfl, ?_⟩
  have h : s.coordinate k = (d.joined.filter (· != s.pkgNo.toNat)).foldl (fun v m => v.post (.key m s.drawKey.1)) (s.drawKey.2.setDomain k (Domain.install d d.nextGen s.drawKey.1 s.cycle)) := by
    unfold coordinate
    rw [hk]
    dsimp only
    rw [if_neg (not_not.2 hc), if_pos (by rw [Bool.and_eq_true, decide_eq_true_iff]; exact ⟨hst, all_others hall⟩), hne]
    rfl
  have hp' : s.drawKey.2.partOf? k = some p := hp
  rw [h, posts_eq fun m => .key m s.drawKey.1]
  refine ⟨domain_setDomain hp' _, ?_, ?_⟩
  · exact modPart_mem _ _ _
  · show (s.drawKey.2.setDomain k _).net.out ++ _ = _
    rw [setDomain, modPart_net]
    rfl

/-! ### Messages to every member -/

/-- The mails to a list of members, one after the other. -/
def mails (me : Nat) (c : Control) : Domain → List Nat → List Outgoing
  | _, [] => []
  | e, m :: l => mailTo me m c e :: mails me c (toldTo m e) l

theorem nextDomain_controlAll (c : Control) : ∀ (l : List Nat) (e : Domain) (out : List Outgoing), (∀ m ∈ l, m ≠ s.pkgNo.toNat) →
    (s.nextDomain k p e out).controlAll k l c = s.nextDomain k p (l.foldl (fun e m => toldTo m e) e) (out ++ mails s.pkgNo.toNat c e l)
  | [], e, out, _ => by rw [mails, List.append_nil]; rfl
  | m :: l, e, out, h => by
    have ih := nextDomain_controlAll c l (toldTo m e) (out ++ [mailTo s.pkgNo.toNat m c e]) fun x hx => h x (List.mem_cons_of_mem _ hx)
    rw [List.append_assoc] at ih
    refine Eq.trans ?_ ih
    rw [← nextDomain_control e out c (h m List.mem_cons_self)]
    rfl

theorem toldTo_fold : ∀ (l : List Nat) (e : Domain), l.foldl (fun e m => toldTo m e) e = { e with sendSeq := (l.foldl (fun e m => toldTo m e) e).sendSeq }
  | [], _ => rfl
  | m :: l, e => by
    rw [List.foldl_cons, toldTo_fold l (toldTo m e)]
    rfl

theorem nextSeq_toldTo {x m : Nat} (h : x ≠ m) (e : Domain) : Domain.nextSeq (toldTo m e) x 3 = Domain.nextSeq e x 3 := by
  rw [Domain.nextSeq, Domain.nextSeq, toldTo]
  dsimp only
  rw [mapGet_mapSet_ne _ (by rw [tupleKey]; omega)]

theorem mailTo_toldTo {me x m : Nat} (c : Control) (h : x ≠ m) (e : Domain) : mailTo me x c (toldTo m e) = mailTo me x c e := by
  rw [mailTo, mailTo, nextSeq_toldTo h]
  rfl

/-- Each member gets its own number, so the mails do not depend on the ones before. -/
theorem mails_map (me : Nat) (c : Control) : ∀ (l : List Nat) (e : Domain), l.Nodup → mails me c e l = l.map fun x => mailTo me x c e
  | [], _, _ => rfl
  | m :: l, e, h => by
    obtain ⟨h1, h2⟩ := List.nodup_cons.1 h
    rw [mails, mails_map me c l _ h2, List.map_cons]
    refine congrArg _ (List.map_congr_left fun x hx => mailTo_toldTo c (fun he : x = m => h1 (he ▸ hx)) e)

/-- The coordinator opens the domain once every member is ready (23:R356). -/
theorem coordinate_opens (hc : e.coord = s.pkgNo.toNat) (hst : e.st = .keyed) (hall : ∀ x ∈ e.joined, x ≠ s.pkgNo.toNat → x ∈ e.ready) :
    (s.nextDomain k p e []).coordinate k = s.nextDomain k p
        (Domain.openUp ((e.joined.filter (· != s.pkgNo.toNat)).foldl (fun e m => toldTo m e) e) s.cycle) (mails s.pkgNo.toNat .opened e (e.joined.filter (· != s.pkgNo.toNat))) := by
  have h : (s.nextDomain k p e []).coordinate k
      = ((s.nextDomain k p e []).controlAll k (e.joined.filter (· != s.pkgNo.toNat)) .opened).modDomain k fun d => Domain.openUp d s.cycle := by
    unfold coordinate
    rw [domain_nextDomain]
    dsimp only
    rw [if_neg (show ¬e.coord ≠ (s.nextDomain k p e []).pkgNo.toNat from not_not.2 hc), if_neg (by rw [hst]; simp),
      if_pos (by rw [Bool.and_eq_true, decide_eq_true_iff]; exact ⟨hst, all_others hall⟩)]
    rfl
  rw [h, nextDomain_controlAll _ _ _ _ (fun m hm => bne_iff_ne.1 (List.mem_filter.1 hm).2), nextDomain_modDomain, List.nil_append]

/-! ### What ends with a member (23:R356, R357) -/

/-- The domains, the clock, the package's number and memory are as they were. -/
structure KeepsDomains (s u : State) : Prop where
  domain : ∀ q, u.domain? q = s.domain? q
  cycle : u.cycle = s.cycle
  pkgNo : u.pkgNo = s.pkgNo
  mem : u.mem = s.mem

theorem KeepsDomains.refl : s.KeepsDomains s := ⟨fun _ => rfl, rfl, rfl, rfl⟩

theorem KeepsDomains.trans {v : State} (h : s.KeepsDomains u) (h' : u.KeepsDomains v) : s.KeepsDomains v :=
  ⟨fun q => (h'.domain q).trans (h.domain q), h'.cycle.trans h.cycle, h'.pkgNo.trans h.pkgNo, h'.mem.trans h.mem⟩

theorem keepsDomains_foldl {α : Type} {f : State → α → State} (hf : ∀ (v : State) (x : α), v.KeepsDomains (f v x)) : ∀ (l : List α) (v : State), v.KeepsDomains (l.foldl f v)
  | [], _ => .refl
  | x :: l, v => (hf v x).trans (keepsDomains_foldl hf l (f v x))

/-- A partition in whose saved tasks a cause is due. -/
def dueIn (g : Word) (x : Due) (y : Partition) : Partition :=
  { y with saved := y.saved.map fun v => { v with task := (fun t : Task => if t.gtid == g then { t with due := t.due ++ [x] } else t) v.task } }

theorem keepsDomains_addDueTo (g : Word) (x : Due) : s.KeepsDomains (s.addDueTo g x) := by
  refine ⟨fun q => ?_, rfl, rfl, mem_addDueTo _ _⟩
  have hparts : (s.addDueTo g x).parts = s.parts.map fun e => (e.1, dueIn g x e.2) := rfl
  rw [domain?, domain?, partOf?, partOf?, hparts, mapGet_map (dueIn g x)]
  cases mapGet s.parts q <;> rfl

theorem keepsDomains_accRefused (a : Acc) (c : BitVec 6) : s.KeepsDomains (s.accRefused a c) := by
  unfold accRefused
  dsimp only
  refine KeepsDomains.trans ?_ (keepsDomains_addDueTo _ _)
  have h : s.KeepsDomains (if a.op.reads then s.putAcc { a with st := .failed true } else (s.dropAcc a.tag).addDelay a) := by
    split <;> exact ⟨fun _ => rfl, rfl, rfl, rfl⟩
  obtain ⟨co, hco⟩ := recordAcc_eq (s := if a.op.reads then s.putAcc { a with st := .failed true } else (s.dropAcc a.tag).addDelay a) a
  rw [hco]
  exact h.trans ⟨fun _ => rfl, rfl, rfl, rfl⟩

theorem keepsDomains_endRequests (k m : Nat) : s.KeepsDomains (s.endRequests k m) := by
  unfold endRequests
  dsimp only
  exact (keepsDomains_foldl (fun v a => keepsDomains_accRefused _ _) _ _).trans (keepsDomains_foldl (fun v a => keepsDomains_addDueTo _ _) _ _)

theorem cycle_setDomain (e : Domain) : (s.setDomain k e).cycle = s.cycle := modPart_cycle _ _ _
theorem pkgNo_setDomain (e : Domain) : (s.setDomain k e).pkgNo = s.pkgNo := modPart_pkgNo _ _ _

/-- A member that is lost is joined no more (23:R356). -/
theorem loseMember_eq {d : Domain} (h : s.domain? k = some d) (m : Nat) :
    (s.loseMember k m).domain? k = some { d with joined := d.joined.filter (· != m), lost := insNat d.lost m } ∧ (s.loseMember k m).cycle = s.cycle
      ∧ (s.loseMember k m).pkgNo = s.pkgNo := by
  obtain ⟨x, hx⟩ := partOf_of_domain h
  obtain ⟨h1, h2, h3, -⟩ := keepsDomains_endRequests (s := s.setDomain k { d with joined := d.joined.filter (· != m), lost := insNat d.lost m }) k m
  rw [loseMember, h]
  exact ⟨(h1 k).trans (domain_setDomain hx _), h2.trans (cycle_setDomain _), h3.trans (pkgNo_setDomain _)⟩

theorem loseMembers_eq : ∀ (l : List Nat) {s : State} {d : Domain}, s.domain? k = some d → ∃ e, (l.foldl (fun s m => s.loseMember k m) s).domain? k = some e
    ∧ (l.foldl (fun s m => s.loseMember k m) s).cycle = s.cycle ∧ e.gen = d.gen ∧ (∀ m, m ∈ e.joined ↔ m ∈ d.joined ∧ m ∉ l) ∧ ∀ m, m ∈ d.lost ∨ m ∈ l → m ∈ e.lost
  | [], s, d, h => ⟨d, h, rfl, rfl, fun m => by simp, fun m hm => hm.resolve_right List.not_mem_nil⟩
  | x :: l, s, d, h => by
    obtain ⟨h1, h2, -⟩ := loseMember_eq h x
    obtain ⟨e, e1, e2, e3, e4, e5⟩ := loseMembers_eq l h1
    refine ⟨e, e1, e2.trans h2, e3, fun m => ?_, fun m hm => e5 m ?_⟩
    · rw [e4]
      simp [and_assoc]
    · dsimp only
      rw [mem_insNat]
      rcases hm with hm | hm
      · exact .inl (.inr hm)
      · rcases List.mem_cons.1 hm with rfl | hm
        · exact .inl (.inl rfl)
        · exact .inr hm

/-- A barrier that starts (23:R356). -/
theorem raiseBarrier_eq {d : Domain} (h : s.domain? k = some d) : ∃ q, (s.raiseBarrier k).domain? k
    = some { d with sendSeq := q, st := .draining, nextGen := d.gen % 65535 + 1, drained := [], ready := [], since := s.cycle, barrierAt := s.cycle } := by
  obtain ⟨q, hq⟩ := (told_controlAll k (.barrier (nextGeneration d.gen)) d.joined s).domain d h
  rw [raiseBarrier, h]
  exact ⟨q, domain_modDomain hq⟩

/-! ### Reports of members that join (23:R352) -/

/-- Without reports, joining changes who is joined, who is lost and who coordinates in nothing. -/
theorem joinEnds_nil {d : Domain} (h : s.domain? k = some d) :
    ∃ e, (s.joinEnds k []).domain? k = some e ∧ e.coord = d.coord ∧ e.joined = d.joined ∧ e.lost = d.lost := by
  obtain ⟨x, hx⟩ := partOf_of_domain h
  unfold joinEnds
  rw [h]
  dsimp only
  split
  · exact ⟨d, h, rfl, rfl, rfl⟩
  split
  · split
    · obtain ⟨q, hq⟩ := raiseBarrier_eq (domain_setDomain (s := s) hx { d with rejoin := none, rejoined := [] })
      exact ⟨_, hq, rfl, rfl, rfl⟩
    · exact ⟨_, domain_setDomain hx _, rfl, rfl, rfl⟩
  split
  · rw [posts_eq]
    have hd : State.domain? { s.drawKey.2.setDomain k (Domain.install { d with joined := d.joined } 1 s.drawKey.1 s.cycle) with net := { (s.drawKey.2.setDomain k (Domain.install { d with joined := d.joined } 1 s.drawKey.1 s.cycle)).net with out := (s.drawKey.2.setDomain k (Domain.install { d with joined := d.joined } 1 s.drawKey.1 s.cycle)).net.out ++ (d.joined.filter (· != s.pkgNo.toNat)).map fun m => .key m s.drawKey.1 } } k
        = some (Domain.install { d with joined := d.joined } 1 s.drawKey.1 s.cycle) := domain_setDomain (s := s.drawKey.2) hx _
    obtain ⟨q, hq⟩ := (told_controlAll k .opened (d.joined.filter (· != s.pkgNo.toNat)) _).domain _ hd
    exact ⟨_, domain_modDomain hq, rfl, rfl, rfl⟩
  · split
    · exact ⟨d, h, rfl, rfl, rfl⟩
    · obtain ⟨q, hq⟩ := raiseBarrier_eq (domain_setDomain (s := s) hx d)
      exact ⟨_, hq, rfl, rfl, rfl⟩

theorem mem_foldl_insNat (m : Nat) : ∀ (l a : List Nat), m ∈ l.foldl insNat a ↔ m ∈ a ∨ m ∈ l
  | [], a => by simp
  | x :: l, a => by
    rw [List.foldl_cons, mem_foldl_insNat m l, mem_insNat, List.mem_cons]
    tauto

/-- What the devices that report exchanged, sent. -/
def asked (d : Domain) (l : List JoinReport) : List Outgoing := l.flatMap fun r => (exchanged d r).map fun c => .spdm r.member c

theorem asks_eq (d : Domain) : ∀ (l : List JoinReport) (s : State),
    l.foldl (fun s r => (exchanged d r).foldl (fun s c => s.post (.spdm r.member c)) s) s = { s with net := { s.net with out := s.net.out ++ asked d l } }
  | [], s => by
    have h : asked d [] = [] := rfl
    rw [h, List.append_nil]
    rfl
  | r :: l, s => by
    rw [List.foldl_cons, asks_eq d l, posts_eq fun c => .spdm r.member c]
    dsimp only
    rw [List.append_assoc]
    rfl

/-- The members whose reports let them join. -/
def joiners (me : Nat) (d : Domain) (l : List JoinReport) : List Nat :=
  ((l.filter fun r => r.member != me && d.members.contains r.member).filter (joinOk d)).map (·.member)

theorem mem_joiners {me m : Nat} {d : Domain} {l : List JoinReport} :
    m ∈ joiners me d l ↔ ∃ r ∈ l, r.member = m ∧ m ≠ me ∧ m ∈ d.members ∧ 8 ≤ r.answered ∧ r.meas = d.meas ∧ r.digest = d.digest := by
  rw [joiners, List.mem_map]
  simp only [List.mem_filter, joinOk, measured, Bool.and_eq_true, bne_iff_ne, List.contains_iff_mem, decide_eq_true_iff, beq_iff_eq]
  constructor
  · rintro ⟨r, ⟨⟨hr, h1, h2⟩, h3, h4, h5⟩, rfl⟩
    exact ⟨r, hr, rfl, h1, h2, h3, h4, h5⟩
  · rintro ⟨r, hr, rfl, h1, h2, h3, h4, h5⟩
    exact ⟨r, ⟨⟨hr, h1, h2⟩, h3, h4, h5⟩, rfl⟩

/-- The state in which a coordinator that joins has drawn the domain's key and sent it. -/
def keysSent (s : State) (k : Nat) (e : Domain) (key : List Byte) (ms : List Nat) (l : List Outgoing) : State :=
  let v : State := { s with net := { s.net with out := s.net.out ++ l } }
  let w := v.tick.setDomain k (Domain.install e 1 key s.cycle)
  { w with net := { w.net with out := w.net.out ++ ms.map fun m => .key m key } }

/-! ### What travels between the members (23:R354) -/

/-- Only the domain's sending, its barrier and what is sent may change. -/
structure Talks (k : Nat) (s u : State) : Prop where
  frame : u = { s with parts := u.parts, net := { s.net with out := u.net.out } }
  domain : ∀ d, s.domain? k = some d → ∃ e, u.domain? k = some e ∧ e.recvSeq = d.recvSeq ∧ e.broken = d.broken
  sent : ∀ o ∈ s.net.out, o ∈ u.net.out

theorem talks_refl : Talks k s s := ⟨rfl, fun d h => ⟨d, h, rfl, rfl⟩, fun _ h => h⟩

theorem Talks.trans {v : State} (h : Talks k s u) (h' : Talks k u v) : Talks k s v := by
  refine ⟨?_, fun d hd => ?_, fun o ho => h'.sent o (h.sent o ho)⟩
  · rw [h'.frame, h.frame]
  · obtain ⟨e, he, e1, e2⟩ := h.domain d hd
    obtain ⟨f, hf, f1, f2⟩ := h'.domain e he
    exact ⟨f, hf, f1.trans e1, f2.trans e2⟩

theorem sendMsg_out {d : Domain} (h : s.domain? k = some d) (peer ch kind : Nat) (b : List Byte) :
    (s.sendMsg k peer ch kind b).net.out = s.net.out ++ [.message peer (d.seal s.pkgNo.toNat peer ch kind (d.nextSeq peer ch) b)] := by
  rw [sendMsg, h]
  show (s.setDomain k _).net.out ++ _ = _
  rw [setDomain, modPart_net]

theorem talks_sendMsg (peer ch kind : Nat) (b : List Byte) : Talks k s (s.sendMsg k peer ch kind b) := by
  have h := told_sendMsg (s := s) k peer ch kind b
  refine ⟨h.frame, fun d hd => ?_, fun o ho => ?_⟩
  · obtain ⟨q, hq⟩ := h.domain d hd
    exact ⟨_, hq, rfl, rfl⟩
  · rcases hd : s.domain? k with _ | d
    · rw [sendMsg, hd]
      exact ho
    · rw [sendMsg_out hd]
      exact List.mem_append_left _ ho

theorem talks_control (m : Nat) (c : Control) : Talks k s (s.control k m c) := by
  unfold control
  split
  · exact talks_refl
  · exact talks_sendMsg _ _ _ _

theorem talks_controlAll (c : Control) : ∀ (l : List Nat) (s : State), Talks k s (s.controlAll k l c)
  | [], _ => talks_refl
  | m :: l, s => (talks_control m c).trans (talks_controlAll c l (s.control k m c))

theorem talks_modDomain {f : Domain → Domain} (hr : ∀ d, (f d).recvSeq = d.recvSeq) (hb : ∀ d, (f d).broken = d.broken) : Talks k s (s.modDomain k f) := by
  rcases hd : s.domain? k with _ | d
  · have h : s.modDomain k f = s := by rw [modDomain, hd]
    rw [h]
    exact talks_refl
  · have h : s.modDomain k f = s.setDomain k (f d) := by rw [modDomain, hd]
    obtain ⟨x, hx⟩ := partOf_of_domain hd
    refine ⟨?_, fun d' hd' => ?_, fun o ho => ?_⟩
    · rw [h, setDomain_eq hx]
      rfl
    · cases hd.symm.trans hd'
      exact ⟨_, domain_modDomain hd, hr d, hb d⟩
    · rw [h, setDomain, modPart_net]
      exact ho

theorem talks_raiseBarrier : Talks k s (s.raiseBarrier k) := by
  unfold raiseBarrier
  split
  · exact talks_refl
  · exact (talks_controlAll _ _ _).trans (talks_modDomain (fun _ => rfl) fun _ => rfl)

theorem talks_askBarrier : Talks k s (s.askBarrier k) := by
  unfold askBarrier
  split
  · exact talks_refl
  split
  · split
    · exact talks_refl
    · exact talks_raiseBarrier
  · exact talks_control _ _

theorem talks_sendDomain (peer ch kind : Nat) (b : List Byte) : Talks k s (s.sendDomain k peer ch kind b) := by
  unfold sendDomain
  dsimp only
  split
  · exact (talks_sendMsg _ _ _ _).trans talks_askBarrier
  · exact talks_sendMsg _ _ _ _

theorem sendDomain_sends {d : Domain} (h : s.domain? k = some d) (peer ch kind : Nat) (b : List Byte) :
    ∃ m, .message peer m ∈ (s.sendDomain k peer ch kind b).net.out := by
  have hm : .message peer (d.seal s.pkgNo.toNat peer ch kind (d.nextSeq peer ch) b) ∈ (s.sendMsg k peer ch kind b).net.out := by
    rw [sendMsg_out h]
    exact List.mem_append_right _ List.mem_cons_self
  refine ⟨d.seal s.pkgNo.toNat peer ch kind (d.nextSeq peer ch) b, ?_⟩
  unfold sendDomain
  dsimp only
  split
  · exact talks_askBarrier.sent _ hm
  · exact hm

/-- The fabric's answer changes memory at most. -/
theorem fabricAnswer_frame (w : BitVec 4) (kind pa n : Nat) (b : List Byte) : ∃ vts m, (s.fabricAnswer w kind pa n b).2.2 = { s with mem := m, vtiles := vts } := by
  unfold fabricAnswer
  split
  · exact ⟨_, _, rfl⟩
  split
  · exact ⟨_, _, rfl⟩
  split
  · exact ⟨_, _, rfl⟩
  split
  · exact ⟨_, _, rfl⟩
  · obtain ⟨vts, h, -⟩ := store_eq (s := s) pa (b.take n)
    exact ⟨vts, memWrite s.mem pa (b.take n), h⟩
  · obtain ⟨vts, h, -⟩ := store_eq (s := s) pa (leBytes n (amoNew (8 * n) (leNat (b.take 1)) (s.loadNat pa n) (leNat ((b.drop 1).take n)) (leNat ((b.drop (1 + n)).take n))))
    exact ⟨vts, memWrite s.mem pa (leBytes n (amoNew (8 * n) (leNat (b.take 1)) (s.loadNat pa n) (leNat ((b.drop 1).take n)) (leNat ((b.drop (1 + n)).take n)))), h⟩

/-- A tuple that breaks (23:R355). -/
theorem tupleBreaks_eq {d : Domain} (h : s.domain? k = some d) (src ch : Nat) (c : BitVec 6) :
    ∃ e, (s.tupleBreaks k src ch c).domain? k = some e ∧ tupleKey src ch ∈ e.broken ∧ (s.tupleBreaks k src ch c).mem = s.mem := by
  have key (v : State) (hv : s.KeepsDomains v) : ∃ e, ((v.setDomain k { d with broken := insNat d.broken (tupleKey src ch) }).askBarrier k).domain? k = some e
      ∧ tupleKey src ch ∈ e.broken ∧ ((v.setDomain k { d with broken := insNat d.broken (tupleKey src ch) }).askBarrier k).mem = s.mem := by
    have hvd : v.domain? k = some d := (hv.domain k).trans h
    obtain ⟨x, hx⟩ := partOf_of_domain hvd
    have ht := talks_askBarrier (k := k) (s := v.setDomain k { d with broken := insNat d.broken (tupleKey src ch) })
    obtain ⟨e, he, -, eb⟩ := ht.domain _ (domain_setDomain hx _)
    refine ⟨e, he, ?_, ?_⟩
    · rw [eb, mem_insNat]
      exact .inl rfl
    · rw [ht.frame]
      exact (modPart_mem _ _ _).trans hv.mem
  unfold tupleBreaks
  dsimp only
  have hv (l : List Word) : s.KeepsDomains (l.foldl (fun v g => v.addDueTo g { cause := c, cycle := s.cycle }) s) := keepsDomains_foldl (fun v a => keepsDomains_addDueTo _ _) _ _
  rw [((hv _).domain k).trans h]
  exact key _ (hv _)

/-- A coordinator that joins makes the key, sends it and opens the domain (23:R352, R353). -/
theorem joinEnds_joining {d : Domain} (h : s.domain? k = some d) (hc : d.coord = s.pkgNo.toNat) (hr : d.rejoin = none) (hst : d.st = .joining) (l : List JoinReport) :
    ∃ c, s.joinEnds k l = ((s.keysSent k { d with joined := (joiners s.pkgNo.toNat d l).foldl insNat d.joined } s.drawKey.1
        (((joiners s.pkgNo.toNat d l).foldl insNat d.joined).filter (· != s.pkgNo.toNat)) (asked d (l.filter fun r => r.member != s.pkgNo.toNat && d.members.contains r.member))).controlAll k
        (((joiners s.pkgNo.toNat d l).foldl insNat d.joined).filter (· != s.pkgNo.toNat)) .opened).modDomain k fun d => Domain.openUp d c := by
  refine ⟨(s.keysSent k { d with joined := (joiners s.pkgNo.toNat d l).foldl insNat d.joined } s.drawKey.1
        (((joiners s.pkgNo.toNat d l).foldl insNat d.joined).filter (· != s.pkgNo.toNat)) (asked d (l.filter fun r => r.member != s.pkgNo.toNat && d.members.contains r.member))).cycle, ?_⟩
  unfold joinEnds
  rw [h]
  dsimp only
  rw [if_neg (not_not.2 hc), if_neg (by rw [hr]; exact Bool.false_ne_true), asks_eq]
  split
  · rw [posts_eq]
    rfl
  · next hne => exact absurd hst hne

theorem domain_keysSent {d : Domain} (h : s.domain? k = some d) (e : Domain) (key : List Byte) (ms : List Nat) (l : List Outgoing) :
    (s.keysSent k e key ms l).domain? k = some (Domain.install e 1 key s.cycle) := by
  obtain ⟨x, hx⟩ := partOf_of_domain h
  exact domain_setDomain (s := State.tick { s with net := { s.net with out := s.net.out ++ l } }) hx _

/-! ### A successor of the coordinator (23:R357) -/

theorem foldl_min_le : ∀ (l : List Nat) (a : Nat), l.foldl min a ≤ a ∧ ∀ x ∈ l, l.foldl min a ≤ x
  | [], a => ⟨le_rfl, fun _ h => absurd h List.not_mem_nil⟩
  | y :: l, a => by
    obtain ⟨h1, h2⟩ := foldl_min_le l (min a y)
    refine ⟨h1.trans (min_le_left a y), fun x hx => ?_⟩
    rcases List.mem_cons.1 hx with rfl | hx
    · exact h1.trans (min_le_right a x)
    · exact h2 x hx

theorem foldl_min_mem : ∀ (l : List Nat) (a : Nat), l.foldl min a = a ∨ l.foldl min a ∈ l
  | [], _ => .inl rfl
  | y :: l, a => by
    rcases foldl_min_mem l (min a y) with h | h
    · rcases min_choice a y with e | e
      · exact .inl (h.trans e)
      · refine .inr ?_
        rw [List.foldl_cons, h, e]
        exact List.mem_cons_self
    · exact .inr (List.mem_cons_of_mem _ h)

/-- The lowest of a list that starts with its own first element. -/
theorem lowest_of {l : List Nat} {x : Nat} (m : Nat) (h : x ∈ l) : l.foldl min (l.headD m) ∈ l ∧ ∀ y ∈ l, l.foldl min (l.headD m) ≤ y := by
  refine ⟨?_, (foldl_min_le l _).2⟩
  rcases foldl_min_mem l (l.headD m) with e | e
  · rw [e]
    cases l with
    | nil => cases h
    | cons y r => exact List.mem_cons_self
  · exact e

/-- After a domain is set and a member's requests are ended, joining may end too. -/
theorem domain_succeeds {d : Domain} (h : s.domain? k = some d) (e : Domain) (m : Nat) (c : Prop) [Decidable c] :
    ∃ f, (if c then ((s.setDomain k e).endRequests k m).joinEnds k [] else (s.setDomain k e).endRequests k m).domain? k = some f
      ∧ f.coord = e.coord ∧ f.joined = e.joined ∧ f.lost = e.lost := by
  obtain ⟨x, hx⟩ := partOf_of_domain h
  have he : ((s.setDomain k e).endRequests k m).domain? k = some e := ((keepsDomains_endRequests k m).domain k).trans (domain_setDomain hx e)
  split
  · exact joinEnds_nil he
  · exact ⟨e, he, rfl, rfl, rfl⟩

theorem succeed_eq {d : Domain} (h : s.domain? k = some d) : ∃ e, (s.succeed k).domain? k = some e
    ∧ e.coord = (d.joined.filter (· != d.coord)).foldl min ((d.joined.filter (· != d.coord)).headD s.pkgNo.toNat)
    ∧ e.joined = d.joined.filter (· != d.coord) ∧ e.lost = insNat d.lost d.coord := by
  unfold succeed
  rw [h]
  exact domain_succeeds h _ _ _

theorem successorNamed_eq {d : Domain} (h : s.domain? k = some d) {m : Nat} (hc : d.coord ≠ s.pkgNo.toNat) (hj : m ∈ d.joined) (hm : m ≠ d.coord) :
    ∃ e, (s.successorNamed k d.coord m).domain? k = some e ∧ e.coord = m ∧ e.joined = d.joined.filter (· != d.coord) ∧ e.lost = insNat d.lost d.coord := by
  unfold successorNamed
  rw [h]
  dsimp only
  rw [if_neg (by simp [hc, hj, hm])]
  exact domain_succeeds h _ _ _

theorem domain_of_rejoinLate {m : Nat} (h : s.rejoinLate k m = true) : ∃ d, s.domain? k = some d := by
  unfold rejoinLate at h
  cases hd : s.domain? k with
  | none => rw [hd] at h; cases h
  | some d => exact ⟨d, rfl⟩

/-! ### A message of the fabric that arrives (23:R354, R355) -/

/-- A message of a domain that is taken: its number counts, and what it asks is done. -/
def domainTakes (s : State) (k : Nat) (d : Domain) (x : Nonce) (kind : Nat) (pt : List Byte) : State :=
  let s := s.setDomain k { d with recvSeq := mapSet d.recvSeq (tupleKey x.src x.ch) (x.seq + 1) }
  if kind < 3 then
    let q := Config.requestOf kind pt
    let r := s.fabricAnswer (s.worldOfPart k) kind q.1 q.2.1 q.2.2
    r.2.2.sendDomain k x.src 1 3 (Config.payload 3 r.1 r.2.1.length r.2.1)
  else if kind < 5 then s.modDomain k fun d => { d with early := mapMod d.early (tupleKey x.src x.ch) 0 fun n => n + 1 }
  else match Config.controlOf pt with
    | none => s
    | some c => s.controlled k x.src c

/-- What a message of the domain must be, or it is not looked at. -/
def MessageFits (s : State) (d : Domain) (b : List Byte) : Prop :=
  b.length = 32 + 16 * leNat ((b.drop 13).take 1) ∧ 16 * leNat ((b.drop 13).take 1) ≤ 256 ∧ leNat ((b.drop 14).take 2) = d.id
    ∧ (nonceOf (leNat (b.take 12))).dst = s.pkgNo.toNat ∧ (nonceOf (leNat (b.take 12))).src ∈ d.members
    ∧ 4 * (nonceOf (leNat (b.take 12))).src + (nonceOf (leNat (b.take 12))).ch ∉ d.broken

theorem tupleKey_eq (m c : Nat) : tupleKey m c = 4 * m + c := by
  rw [tupleKey, Nat.mul_comm]

theorem messageFits_iff {d : Domain} {b : List Byte} : s.MessageFits d b ↔
    ¬(b.length ≠ 32 + 16 * leNat ((b.drop 13).take 1) ∨ 256 < 16 * leNat ((b.drop 13).take 1) ∨ leNat ((b.drop 14).take 2) ≠ d.id
      ∨ (nonceOf (leNat (b.take 12))).dst ≠ s.pkgNo.toNat ∨ (!d.members.contains (nonceOf (leNat (b.take 12))).src) = true
        ∨ d.broken.contains (tupleKey (nonceOf (leNat (b.take 12))).src (nonceOf (leNat (b.take 12))).ch) = true) := by
  rw [MessageFits, ← tupleKey_eq]
  simp [not_or]

theorem domainMessage_unfit {d : Domain} (h : s.domain? k = some d) {b : List Byte} (hw : ¬s.MessageFits d b) : s.domainMessage k b = s := by
  rw [messageFits_iff, not_not] at hw
  unfold domainMessage
  rw [h]
  exact if_pos hw

/-- A message that fits: by its generation, its tag, its number and its kind. -/
theorem domainMessage_fit {d : Domain} (h : s.domain? k = some d) {b : List Byte} (hw : s.MessageFits d b) : s.domainMessage k b
    = if (nonceOf (leNat (b.take 12))).gen ≠ d.gen then s.tupleBreaks k (nonceOf (leNat (b.take 12))).src (nonceOf (leNat (b.take 12))).ch cSEQ_FAULT
      else match Crypto.gcmOpen d.key (b.take 12) (b.take 16) ((b.drop 16).take (16 * leNat ((b.drop 13).take 1))) (b.drop (16 + 16 * leNat ((b.drop 13).take 1))) with
        | none => s.tupleBreaks k (nonceOf (leNat (b.take 12))).src (nonceOf (leNat (b.take 12))).ch cINTEGRITY
        | some pt =>
          if (nonceOf (leNat (b.take 12))).seq ≠ (mapGet d.recvSeq (tupleKey (nonceOf (leNat (b.take 12))).src (nonceOf (leNat (b.take 12))).ch)).getD 0 then
            s.tupleBreaks k (nonceOf (leNat (b.take 12))).src (nonceOf (leNat (b.take 12))).ch cSEQ_FAULT
          else s.domainTakes k d (nonceOf (leNat (b.take 12))) (leNat ((b.drop 12).take 1)) pt := by
  rw [messageFits_iff] at hw
  unfold domainMessage
  rw [h]
  exact (if_neg hw)

theorem domainMessage_takes {d : Domain} (h : s.domain? k = some d) {b : List Byte} (hw : s.MessageFits d b) (hg : (nonceOf (leNat (b.take 12))).gen = d.gen)
    (hs : (nonceOf (leNat (b.take 12))).seq = (mapGet d.recvSeq (4 * (nonceOf (leNat (b.take 12))).src + (nonceOf (leNat (b.take 12))).ch)).getD 0) {pt : List Byte}
    (hpt : Crypto.gcmOpen d.key (b.take 12) (b.take 16) ((b.drop 16).take (16 * leNat ((b.drop 13).take 1))) (b.drop (16 + 16 * leNat ((b.drop 13).take 1))) = some pt) :
    s.domainMessage k b = s.domainTakes k d (nonceOf (leNat (b.take 12))) (leNat ((b.drop 12).take 1)) pt := by
  rw [← tupleKey_eq] at hs
  rw [domainMessage_fit h hw, if_neg (not_not.2 hg), hpt]
  exact if_neg (not_not.2 hs)

theorem domainTakes_request {d : Domain} (h : s.domain? k = some d) (x : Nonce) {kind : Nat} (hk : kind < 3) (pt : List Byte) : ∃ e,
    (s.domainTakes k d x kind pt).domain? k = some e ∧ e.recvSeq = mapSet d.recvSeq (tupleKey x.src x.ch) (x.seq + 1) ∧ e.broken = d.broken
      ∧ (s.domainTakes k d x kind pt).slots = s.slots ∧ ∃ m, .message x.src m ∈ (s.domainTakes k d x kind pt).net.out := by
  obtain ⟨y, hy⟩ := partOf_of_domain h
  unfold domainTakes
  dsimp only
  rw [if_pos hk]
  generalize hv : s.setDomain k { d with recvSeq := mapSet d.recvSeq (tupleKey x.src x.ch) (x.seq + 1) } = v
  have hvd : v.domain? k = some { d with recvSeq := mapSet d.recvSeq (tupleKey x.src x.ch) (x.seq + 1) } := hv ▸ domain_setDomain hy _
  have hvs : v.slots = s.slots := hv ▸ modPart_slots _ _ _
  obtain ⟨vts, m, ha⟩ := fabricAnswer_frame (s := v) (v.worldOfPart k) kind (Config.requestOf kind pt).1 (Config.requestOf kind pt).2.1 (Config.requestOf kind pt).2.2
  rw [ha]
  have hd : State.domain? { v with mem := m, vtiles := vts } k = some { d with recvSeq := mapSet d.recvSeq (tupleKey x.src x.ch) (x.seq + 1) } := hvd
  have ht (b : List Byte) := talks_sendDomain (k := k) (s := { v with mem := m, vtiles := vts }) x.src 1 3 b
  obtain ⟨e, he, e1, e2⟩ := (ht _).domain _ hd
  refine ⟨e, he, e1, e2, ?_, sendDomain_sends hd _ _ _ _⟩
  rw [(ht _).frame]
  exact hvs

theorem joinEnds_opens {d : Domain} (h : s.domain? k = some d) (hc : d.coord = s.pkgNo.toNat) (hr : d.rejoin = none) (hst : d.st = .joining) (l : List JoinReport) :
    ∃ e, (s.joinEnds k l).domain? k = some e ∧ e.st = .opened ∧ e.gen = 1 ∧ e.id = d.id ∧ e.recvSeq = [] ∧ (s.joinEnds k l).slots = s.slots
      ∧ e.joined = (joiners s.pkgNo.toNat d l).foldl insNat d.joined ∧ ∀ m ∈ e.joined, m ≠ s.pkgNo.toNat → .key m e.key ∈ (s.joinEnds k l).net.out := by
  obtain ⟨c, hj⟩ := joinEnds_joining h hc hr hst l
  rw [hj]
  generalize hv : s.keysSent k { d with joined := (joiners s.pkgNo.toNat d l).foldl insNat d.joined } s.drawKey.1
        (((joiners s.pkgNo.toNat d l).foldl insNat d.joined).filter (· != s.pkgNo.toNat)) (asked d (l.filter fun r => r.member != s.pkgNo.toNat && d.members.contains r.member)) = v
  have hd : v.domain? k = _ := hv ▸ domain_keysSent h _ _ _ _
  have hs : v.slots = s.slots := by
    rw [← hv]
    exact modPart_slots _ _ _
  have hk : ∀ m ∈ (joiners s.pkgNo.toNat d l).foldl insNat d.joined, m ≠ s.pkgNo.toNat → .key m s.drawKey.1 ∈ v.net.out := by
    intro m hm hne
    rw [← hv]
    exact List.mem_append_right _ (List.mem_map_of_mem (List.mem_filter.2 ⟨hm, bne_iff_ne.2 hne⟩))
  generalize ((joiners s.pkgNo.toNat d l).foldl insNat d.joined).filter (· != s.pkgNo.toNat) = ms
  have ht := told_controlAll k .opened ms v
  obtain ⟨q, hq⟩ := ht.domain _ hd
  have hm : ((v.controlAll k ms .opened).modDomain k fun d => Domain.openUp d c).net = (v.controlAll k ms .opened).net := by
    rw [modDomain, hq]
    exact modPart_net _ _ _
  have hms : ((v.controlAll k ms .opened).modDomain k fun d => Domain.openUp d c).slots = (v.controlAll k ms .opened).slots := by
    rw [modDomain, hq]
    exact modPart_slots _ _ _
  refine ⟨_, domain_modDomain hq, rfl, rfl, rfl, rfl, ?_, rfl, fun m h1 h2 => ?_⟩
  · rw [hms, ht.frame]
    exact hs
  · rw [hm]
    exact (talks_controlAll .opened ms v).sent _ (hk m h1 h2)

end State

open Host

/-- Settles O54, message by message: what a member and what a coordinator makes of each, and what each timeout does. -/
theorem domainEvents : Obligations.DomainEvents := by
  unfold Obligations.DomainEvents
  intro s k p d hp hd
  have hk := State.domain_of hp hd
  refine ⟨fun g src h => ⟨?_, ?_, fun key => ?_, fun m => ?_⟩, fun g hc => ?_, fun hc => ?_, fun m hc hm hj hst => ?_, fun m hc hm hj hst hall => ?_, fun key hc => ?_,
    fun m hc hst hj => ⟨fun hw => ?_, fun hall => ?_⟩, fun hc => ?_, fun hl => ?_, fun hl => ?_, ?_, fun m => ⟨fun hc hj hm => ?_, fun hc h => ?_, fun hc h => ?_, fun hc h => ?_⟩,
    fun hl => ?_, fun hl hme => ?_, fun m hc h => ?_, fun m hc hj hm => ?_, fun m hl => ?_, fun m hl => ?_, fun l hc => ?_, fun l hc hr hst => ?_, fun b => ⟨fun hw => ?_, fun hw h => ?_,
    fun hw hg hs pt hpt => ⟨fun hkd => ?_, fun hkd => ?_, fun hkd hno => ?_⟩⟩⟩
  · exact congrArg Outcome.next (State.domBarrier_other hk h)
  · exact congrArg Outcome.next (State.domOpened_other hk (h.imp_right .inl))
  · exact congrArg Outcome.next (State.domKeyed_other hk key (h.imp_right .inl))
  · exact congrArg Outcome.next (State.successorNamed_other hk (h.imp_right .inl))
  · have he := State.domBarrier_eq hk g hc
    split
    · next h1 =>
      rw [if_pos h1, State.nextDomain_nil hp] at he
      exact congrArg Outcome.next he
    · next h1 =>
      rw [if_neg h1] at he
      split
      · next h2 =>
        rw [if_pos h2, State.nextDomain_nil hp] at he
        exact congrArg Outcome.next he
      · next h2 =>
        rw [if_neg h2] at he
        exact congrArg Outcome.next he
  · have he := State.domDrained_me hp hk hc
    split
    · next h1 => exact congrArg Outcome.next (he.trans (if_pos h1))
    · next h1 => exact congrArg Outcome.next (he.trans (if_neg h1))
  · have hw := State.coordinate_waits (State.domain_nextDomain (s := s) (k := k) (p := p) { d with drained := insNat d.drained m } []) (fun e1 => ?_) (fun e1 => ?_)
    · exact congrArg Outcome.next ((State.domDrained_eq hp hk hc hm hj (hst.imp_right And.left)).trans hw)
    · rcases hst with h1 | ⟨-, x, hx, h1, h2, h3⟩
      · cases h1.symm.trans e1
      · exact ⟨x, hx, h1, fun hi => (mem_insNat.1 hi).elim h2 h3⟩
    · rcases hst with h1 | ⟨h1, -⟩ <;> cases h1.symm.trans e1
  · have hp' : (s.nextDomain k p { d with drained := insNat d.drained m } []).partOf? k = some { p with domain := some { d with drained := insNat d.drained m } } := State.partOf_putPart k _
    obtain ⟨key, u, hu, hud, hum, huo⟩ := State.coordinate_keys hp' (State.domain_nextDomain (s := s) (k := k) (p := p) { d with drained := insNat d.drained m } []) hc hst
      (fun x hx hne => mem_insNat.2 (hall x hx hne)) ⟨m, hj, hm⟩
    refine ⟨u, _, congrArg Outcome.next ((State.domDrained_eq hp hk hc hm hj (.inr hst)).trans hu), hud, rfl, rfl, rfl, rfl, rfl, rfl, hum, huo.trans ?_⟩
    rw [State.nextDomain]
    dsimp only
    rw [List.append_nil]
    rfl
  · intro anew
    split
    · next h1 =>
      have he := State.domKeyed_eq hp hk key hc h1
      refine ⟨_, _, congrArg Outcome.next he, State.domain_nextDomain _ _, rfl, rfl, fun ha => if_pos ha, fun ha => if_neg ha, rfl, rfl, rfl, rfl, rfl⟩
    · next h1 => exact congrArg Outcome.next (State.domKeyed_other hk key (.inr (.inr h1)))
  · obtain ⟨x, hx, h1, h2, h3⟩ := hw
    have hw := State.coordinate_waits (State.domain_nextDomain (s := s) (k := k) (p := p) { d with ready := insNat d.ready m } []) (fun e1 => ?_) (fun _ => ?_)
    · exact congrArg Outcome.next ((State.domReady_eq hp hk hc hj hst).trans hw)
    · cases hst.symm.trans e1
    · exact ⟨x, hx, h1, fun hi => (mem_insNat.1 hi).elim h2 h3⟩
  · have he := (State.domReady_eq hp hk hc hj hst).trans (State.coordinate_opens (e := { d with ready := insNat d.ready m }) hc hst fun x hx hne => mem_insNat.2 (hall x hx hne))
    refine ⟨_, _, congrArg Outcome.next he, State.domain_nextDomain _ _, ?_, rfl, fun hnd => ?_⟩
    · rw [State.toldTo_fold]
      rfl
    · rw [State.mails_map _ _ _ _ (hnd.filter _)]
      rfl
  · split
    · next h1 => exact congrArg Outcome.next ((State.domOpened_eq hk hc h1).trans (State.nextDomain_nil hp _))
    · next h1 => exact congrArg Outcome.next (State.domOpened_other hk (.inr (.inr h1)))
  · refine congrArg Outcome.next ?_
    rw [State.barrierTimeout, hl]
    rfl
  · have hne : (!s.barrierLate k) = false := by rw [hl]; rfl
    have he : s.barrierTimeout k = ((d.joined.filter fun m => m != s.pkgNo.toNat && !d.drained.contains m).foldl (fun s m => s.loseMember k m) s).raiseBarrier k := by
      rw [State.barrierTimeout, hne, hk]
      rfl
    obtain ⟨e, hed, hcy, hgen, hjoin, hlost⟩ := State.loseMembers_eq (d.joined.filter fun m => m != s.pkgNo.toNat && !d.drained.contains m) hk
    obtain ⟨q, hq⟩ := State.raiseBarrier_eq hed
    refine ⟨_, _, congrArg Outcome.next he, hq, rfl, congrArg (· % 65535 + 1) hgen, rfl, hcy, fun m hm => ?_⟩
    have hmem : m ∈ (d.joined.filter fun m => m != s.pkgNo.toNat && !d.drained.contains m) ↔ ¬(m = s.pkgNo.toNat ∨ m ∈ d.drained) := by
      simp [hm]
    split
    · next h => exact (hjoin m).2 ⟨hm, fun hi => hmem.1 hi h⟩
    · next h => exact ⟨fun hi => ((hjoin m).1 hi).2 (hmem.2 h), hlost m (.inr (hmem.2 h))⟩
  · have hb : (decide (d.coord = s.pkgNo.toNat) || d.st == .joining || decide (s.cycle < d.beatSent + 250 * cyclesPerUs)) = true
        ↔ (d.coord = s.pkgNo.toNat ∨ d.st = .joining ∨ s.cycle < d.beatSent + 250 * 1700) := by
      simp only [Bool.or_eq_true, decide_eq_true_iff, beq_iff_eq, or_assoc]
      rfl
    have he : exec (.heartbeat k) s = .next (if d.coord = s.pkgNo.toNat ∨ d.st = .joining ∨ s.cycle < d.beatSent + 250 * 1700 then s
        else (s.control k d.coord .heartbeat).modDomain k fun d => { d with beatSent := s.cycle }) := by
      show execHeartbeat k s = _
      rw [execHeartbeat, hk]
      exact congrArg Outcome.next (if_congr hb rfl rfl)
    split
    · next h => exact he.trans (congrArg Outcome.next (if_pos h))
    · next h =>
      refine he.trans (congrArg Outcome.next ((if_neg h).trans ?_))
      rw [State.control_sends hp hk .heartbeat fun hc => h (.inl hc), State.nextDomain_modDomain]
      rfl
  · refine congrArg Outcome.next ?_
    rw [State.takeBeat, hk]
    dsimp only
    rw [if_pos hc, if_pos (by simpa using hj)]
    exact State.control_sends hp hk .heartbeat hm
  · refine congrArg Outcome.next ?_
    rw [State.takeBeat, hk]
    dsimp only
    rw [if_pos hc]
    rcases h with h | rfl
    · exact if_neg (by simpa using h)
    · rw [State.control, if_pos rfl, ite_self]
  · refine congrArg Outcome.next ?_
    rw [State.takeBeat, hk]
    dsimp only
    rw [if_neg hc, if_pos h]
    exact State.nextDomain_nil hp _
  · refine congrArg Outcome.next ?_
    rw [State.takeBeat, hk]
    dsimp only
    rw [if_neg hc, if_neg h]
  · refine congrArg Outcome.next ?_
    rw [hl]
    rfl
  · have hc : d.coord ≠ s.pkgNo.toNat := by
      rw [State.coordinatorGone, hk] at hl
      simp only [Bool.and_eq_true, bne_iff_ne] at hl
      exact hl.1.1
    obtain ⟨e, he, e1, e2, e3⟩ := State.succeed_eq hk
    have hx : exec (.coordinatorLost k) s = .next (s.succeed k) := by
      show execCoordinatorLost k s = _
      rw [execCoordinatorLost, hl]
      rfl
    obtain ⟨l1, l2⟩ := State.lowest_of s.pkgNo.toNat (List.mem_filter.2 ⟨hme, bne_iff_ne.2 (Ne.symm hc)⟩ : s.pkgNo.toNat ∈ d.joined.filter (· != d.coord))
    rw [← e1] at l1 l2
    obtain ⟨m1, m2⟩ := List.mem_filter.1 l1
    refine ⟨_, e, hx, he, m1, bne_iff_ne.1 m2, fun m h1 h2 => l2 m (List.mem_filter.2 ⟨h1, bne_iff_ne.2 h2⟩), ?_, ?_⟩
    · rw [e3, mem_insNat]
      exact .inl rfl
    · rw [e2]
      simp
  · exact congrArg Outcome.next (State.successorNamed_other hk (.inr (.inr h)))
  · obtain ⟨e, he, e1, e2, e3⟩ := State.successorNamed_eq hk hc hj hm
    refine ⟨_, e, rfl, he, e1, ?_, ?_⟩
    · rw [e3, mem_insNat]
      exact .inl rfl
    · rw [e2]
      simp
  · refine congrArg Outcome.next ?_
    rw [hl]
    rfl
  · obtain ⟨h1, -, -⟩ := State.loseMember_eq hk m
    obtain ⟨e, he, -, e2, e3⟩ := State.joinEnds_nil h1
    have hx : exec (.successorJoinTimeout k m) s = .next ((s.loseMember k m).joinEnds k []) := by
      show execSuccessorJoinTimeout k m s = _
      rw [execSuccessorJoinTimeout, hl]
      rfl
    refine ⟨_, e, hx, he, ?_, ?_⟩
    · rw [e2]
      simp
    · rw [e3, mem_insNat]
      exact .inl rfl
  · refine congrArg Outcome.next ?_
    rw [State.joinEnds, hk]
    exact if_pos hc
  · obtain ⟨e, he, e1, e2, e3, e4, e5, e6, e7⟩ := State.joinEnds_opens hk hc hr hst l
    refine ⟨_, e, rfl, he, e1, e2, e3, e4, e5, fun m => ?_, e7⟩
    rw [e6, State.mem_foldl_insNat, State.mem_joiners]
  · exact congrArg Outcome.next (State.domainMessage_unfit hk hw)
  · have he := State.domainMessage_fit hk hw
    have hb (c : BitVec 6) : ∃ e, (s.tupleBreaks k (State.nonceOf (leNat (b.take 12))).src (State.nonceOf (leNat (b.take 12))).ch c).domain? k = some e
        ∧ 4 * (State.nonceOf (leNat (b.take 12))).src + (State.nonceOf (leNat (b.take 12))).ch ∈ e.broken
        ∧ (s.tupleBreaks k (State.nonceOf (leNat (b.take 12))).src (State.nonceOf (leNat (b.take 12))).ch c).mem = s.mem := by
      rw [← State.tupleKey_eq]
      exact State.tupleBreaks_eq hk _ _ c
    suffices hs : ∃ c, s.domainMessage k b = s.tupleBreaks k (State.nonceOf (leNat (b.take 12))).src (State.nonceOf (leNat (b.take 12))).ch c by
      obtain ⟨c, hs⟩ := hs
      obtain ⟨e, e1, e2, e3⟩ := hb c
      exact ⟨_, e, congrArg Outcome.next hs, e1, e2, e3⟩
    rw [he]
    split
    · exact ⟨_, rfl⟩
    · next hg =>
      split
      · exact ⟨_, rfl⟩
      · next pt hpt =>
        refine ⟨_, if_pos fun hq => ?_⟩
        rcases h with h | h | h
        · exact hg h
        · cases hpt.symm.trans h
        · rw [← State.tupleKey_eq] at h
          exact h hq
  · obtain ⟨e, e1, e2, e3, e4, m, e5⟩ := State.domainTakes_request hk (State.nonceOf (leNat (b.take 12))) hkd pt
    refine ⟨_, e, congrArg Outcome.next (State.domainMessage_takes hk hw hg hs hpt), e1, ?_, e3, e4, fun _ => ⟨m, e5⟩⟩
    rw [e2, State.tupleKey_eq]
    exact mapGet_mapSet_self _ _ _
  · refine congrArg Outcome.next ((State.domainMessage_takes hk hw hg hs hpt).trans ?_)
    have h3 : ¬leNat ((b.drop 12).take 1) < 3 := by omega
    have h5 : leNat ((b.drop 12).take 1) < 5 := by omega
    rw [State.domainTakes]
    dsimp only
    rw [if_neg h3, if_pos h5, State.nextDomain_nil hp, State.nextDomain_modDomain, State.tupleKey_eq]
    rfl
  · refine congrArg Outcome.next ((State.domainMessage_takes hk hw hg hs hpt).trans ?_)
    rw [State.domainTakes]
    dsimp only
    rw [if_neg (by omega), if_neg (by omega), hno]
    dsimp only
    rw [State.nextDomain_nil hp, State.tupleKey_eq]
    rfl

end Sys2Proof.Machine
end

section
/-! PROOFS. The join that a task's own slot completes (13:R235) moves the pc of a task that is placed (03:R52). -/

namespace Sys2Proof.Machine

namespace State

/-- A task on its way to slot 0, whose `join` of 8 bytes was answered while it held no slot. -/
def joinedOnTheWay : State :=
  { reset with
    cald := { steals := [{ key := 0, since := 0, limit := 0, task := { gtid := 1 } }] }
    net := { accs := [{ tag := 0, owner := 1, key := 0, part := 0, op := .feRead false, place := .tile false 0 0, waits := true, carry := [8], st := .answered 0 }] } }

/-- The slot that takes the task completes its `join`, so the task stands at the instruction after it. -/
theorem stealEnds_joinedOnTheWay : ((joinedOnTheWay.stealEnds 0).taskAt 0).pc = 8 := by
  decide

end State

open Host

/-- Refutes O43: a steal that completes brings its task to the pc after its `join`, where that was answered on the way (03:R52, 13:R235). -/
theorem not_schedulerEvents : ¬ Obligations.SchedulerEvents := by
  unfold Obligations.SchedulerEvents
  rintro ⟨-, -, h, -⟩
  obtain ⟨u, hu, -, hpc, -⟩ := h State.joinedOnTheWay 0 _ rfl
  have he : State.joinedOnTheWay.stealEnds 0 = u := Outcome.next.inj hu
  rw [← he, State.stealEnds_joinedOnTheWay] at hpc
  exact absurd hpc (by decide)

end Sys2Proof.Machine
end

section
/-! PROOFS. A restore that completes the `join` of its task (03:R52, 13:R235): its state, and where it brings the task. -/

namespace Sys2Proof.Machine

namespace State

variable {s : State} {k part : Nat}

/-! ### A task whose `join` was answered takes a slot -/

/-- An answer of this length is the only one that the task of a slot has waiting. -/
structure AnsweredJoin (s : State) (g : Word) (a : Acc) (v len : Nat) : Prop where
  landed : s.net.landed.filter (·.owner == g) = []
  joins : (s.net.accs.filter fun a => a.owner == g && a.joins) = [a]
  st : a.st = .answered v
  carry : a.carry = [len]

theorem pc_completeAt {len : Nat} {f : Task → Task} (hr : (s.taskAt k).run = .resident) (hf : (f (s.taskAt k)).stepping = false) (hp : (f (s.taskAt k)).pc = (s.taskAt k).pc) :
    ((s.completeAt k len f).taskAt k).pc = (s.taskAt k).pc + BitVec.ofNat 64 len := by
  have hw : (s.at_ k).wakeNow k = s.at_ k := by
    rw [wakeNow, show (s.at_ k).taskAt k = s.taskAt k from rfl, hr]
  have ht : (s.at_ k).task = s.taskAt k := rfl
  rw [completeAt, hw, ht, completeWith_after (s := s.at_ k) hf hp]
  show ((s.putTask k _).taskAt k).pc = _
  rw [taskAt_putTask_self]
  rfl

theorem pc_joinDone {a : Acc} {v len : Nat} (hst : a.st = .answered v) (hc : a.carry = [len]) (hr : (s.taskAt k).run = .resident) (hs : (s.taskAt k).stepping = false) :
    ((s.joinDone k a).taskAt k).pc = (s.taskAt k).pc + BitVec.ofNat 64 len := by
  unfold joinDone
  rw [hst, hc]
  dsimp only
  refine pc_completeAt (s := s.dropAcc a.tag) hr ?_ ?_
  · cases a.dst <;> simp <;> exact hs
  · cases a.dst <;> simp

theorem pc_landAll {a : Acc} {v len : Nat} (h : s.AnsweredJoin (s.taskAt k).gtid a v len) (hr : (s.taskAt k).run = .resident) (hs : (s.taskAt k).stepping = false) :
    ((s.landAll k).taskAt k).pc = (s.taskAt k).pc + BitVec.ofNat 64 len := by
  obtain ⟨h1, h2, h3, h4⟩ := h
  unfold landAll
  dsimp only
  rw [h1, List.foldl_nil]
  dsimp only
  rw [h2, List.foldl_cons, List.foldl_nil, taskAt_putTask_self]
  exact pc_joinDone (s := { s with net := { s.net with landed := s.net.landed.filter (·.owner != (s.taskAt k).gtid) } }) h3 h4 hr hs

theorem pc_occupy {a : Acc} {v len sub : Nat} {t : Task} (h : s.AnsweredJoin t.gtid a v len) (hr : s.rewaits t = .resident) (ht : t.stamp ≠ 0) (hs : t.stepping = false) :
    ((s.occupy k t sub).taskAt k).pc = t.pc + BitVec.ofNat 64 len := by
  unfold occupy
  dsimp only
  rw [if_neg ht]
  obtain ⟨h1, h2, h3, h4⟩ := h
  refine (pc_landAll ⟨?_, ?_, h3, h4⟩ ?_ ?_).trans ?_
  · rw [taskAt_recordSched, taskAt_putTask_self]
    exact h1
  · rw [taskAt_recordSched, taskAt_putTask_self]
    exact h2
  · rw [taskAt_recordSched, taskAt_putTask_self]
    exact hr
  · rw [taskAt_recordSched, taskAt_putTask_self]
    exact hs
  · rw [taskAt_recordSched, taskAt_putTask_self]

theorem answeredJoin_of_net {u : State} {g : Word} {a : Acc} {v len : Nat} (h : s.AnsweredJoin g a v len) (hn : u.net = s.net) : u.AnsweredJoin g a v len := by
  obtain ⟨h1, h2, h3, h4⟩ := h
  rw [← hn] at h1 h2
  exact ⟨h1, h2, h3, h4⟩

theorem takeTokens_net (t : Task) : (s.takeTokens k t).net = s.net := by
  obtain ⟨p, hp⟩ := takeTokens_eq (s := s) k t
  rw [hp]

theorem pc_giveCmds (cs : List Cmd) (j : Nat) : (s.giveCmds k cs).taskAt j = s.taskAt j := by
  unfold giveCmds
  induction cs generalizing s with
  | nil => rfl
  | cons c cs ih => rw [List.foldl_cons, ih, taskAt_modTile]

/-- A saved task that comes back to a slot with its `join` answered stands after it. -/
theorem pc_putBack {a : Acc} {v len : Nat} {x : Saved} {t : Task} (h : s.AnsweredJoin t.gtid a v len) (hr : t.run = .resident) (ht : t.stamp ≠ 0) (hs : t.stepping = false) :
    ((s.putBack k x t).taskAt k).pc = t.pc + BitVec.ofNat 64 len := by
  unfold putBack
  dsimp only
  rw [pc_giveCmds]
  refine pc_occupy (t := { t with owed := false, bodygen := _ }) (answeredJoin_of_net h ?_) ?_ ht hs
  · exact (modPart_net _ _ _).trans (takeTokens_net t)
  · unfold rewaits
    dsimp only
    rw [hr]
    rfl

/-- The first restore of a partition, where one task waits for it alone (20:R323). -/
theorem restoreFirst_one {p : Partition} {v x : Saved} {w : QueuedWork} {b : List Byte} {t : Task} (hp : s.partOf? part = some p) (hv : p.saved = [v])
    (hold : v.hold = false) (hg : v.task.gang = none) (hu : s.urgent part p = []) (ho : s.placeOrder part p = [w]) (hw : w.work = .saved v.gtid) (hres : w.reserved = [])
    (hs : s.restoreSlots part p (s.freeSlots part p) [v] = some [k]) (hb : s.readSlotImage part v.va = .ok b) (hc : s.restoreCheck part k b = .go x t) :
    s.restoreFirst part = (s.tileFirst part k t).putBack k x t := by
  have hrec : s.recheck part k v = some (.go x t) := by
    rw [recheck, hb]
    exact congrArg some hc
  have hfind : p.saved.find? (fun y => y.gtid == v.gtid) = some v := by
    rw [hv, List.find?_cons, beq_self_eq_true]
  have hgroup : s.savedGroup part p v = some [v] := by
    rw [savedGroup, hg, hold]
    rfl
  have hone : s.restoreOne part k v = some ((s.tileFirst part k t).putBack k x t) := by
    rw [restoreOne, hrec]
  have hitem : s.tryItem part p w = some ((s.tileFirst part k t).putBack k x t) := by
    have hf : s.fits part p w = none := by
      rw [fits, hw]
    rw [tryItem, hf]
    dsimp only
    rw [restoreItem, hw]
    dsimp only
    rw [hfind]
    dsimp only
    rw [hgroup, Option.bind_some, reservedOr, hres, hs]
    show s.restoreGroup part [v] [k] = _
    unfold restoreGroup
    dsimp only
    rw [if_neg]
    · exact hone
    · simp [hrec]
  have hnext : s.nextItem part = some (w, (s.tileFirst part k t).putBack k x t) := by
    rw [nextItem, hp]
    dsimp only
    rw [hu, ho]
    rw [List.findSome?_nil, Option.orElse_none, firstFit, hitem]
    rfl
  rw [restoreFirst, hnext]
  dsimp only
  rw [isSaved, hw]
  rfl

/-! ### The restore of a task whose `join` was answered while it was saved -/

/-- A saved task. -/
def awayTask : Task := { fetchTask with stamp := 1 }

/-- Its image, with this tag (18:R285). -/
def awayImage (tag : List Byte) : List Byte := slotBytes awayTask 0 [] [] (zeros 12) tag

/-- The tag of the image under the key of world 0. -/
def awayTag : List Byte := imageTag (reset.worldKey 0 "seal") (zeros 12) (awayImage (zeros 16))

/-- The tag byte by byte. -/
def awayTagBytes : List Byte := (List.range 16).map fun i => awayTag.getD i 0

def awaySaved : Saved := { gtid := 1, capid := 1, task := awayTask, va := 0x4000, byCaldera := true, core := some 0 }

def awayWork : QueuedWork := { part := 0, prio := 0, requeued := true, since := 0, work := .saved 1 }

/-- Its `join` of 8 bytes, answered. -/
def awayJoin : Acc :=
  { tag := 0, owner := 1, key := 0, part := 0, op := .feRead false, place := .tile false 0 0, waits := true, carry := [8], st := .answered 0 }

def awayPart : Partition := { fetchPart 12 with ptroot := 0x10000, saveArea := 0x4000, stackMask := 0xFF, saved := [awaySaved] }

/-- Tables under which virtual page 4 of the partition is the page at 0x34000 (19:R294). -/
def awayTables : Mem :=
  memWrite (memWrite (memWrite (memWrite [] 0x10000 (leBytes 8 (2 ^ 63 + 0x20000))) 0x20000 (leBytes 8 (2 ^ 63 + 0x21000))) 0x21000 (leBytes 8 (2 ^ 63 + 0x22000)))
    0x22020 (leBytes 8 (2 ^ 63 + 7 * 2 ^ 58 + 2 ^ 57 + 0x34000))

/-- Consecutive bytes from an address. -/
def bytesFrom (a : Nat) (l : List Byte) : Mem := l.zipIdx.map fun e => (a + e.2, e.1)

/-- The package in which the image is at virtual 0x4000, its task waits for a restore, and its `join` was answered. -/
def joinedAway : State :=
  { reset with
    mem := awayTables ++ bytesFrom 0x34000 (awayImage awayTagBytes)
    parts := [(0, awayPart)]
    cald := { work := [awayWork] }
    net := { accs := [awayJoin] } }

theorem joinedAway_urgent : joinedAway.urgent 0 awayPart = [] := by decide +kernel
theorem joinedAway_order : joinedAway.placeOrder 0 awayPart = [awayWork] := by decide +kernel
theorem joinedAway_slots : joinedAway.restoreSlots 0 awayPart (joinedAway.freeSlots 0 awayPart) [awaySaved] = some [0] := by decide +kernel

theorem memGet_append_of_ne (n : Mem) {a : Nat} : ∀ m : Mem, (∀ e ∈ m, e.1 ≠ a) → memGet (m ++ n) a = memGet n a
  | [], _ => rfl
  | (x, b) :: m, h => by
    rw [List.cons_append, memGet, if_neg (h _ List.mem_cons_self), memGet_append_of_ne n m fun e he => h e (List.mem_cons_of_mem _ he)]

theorem memGet_bytesFrom (a : Nat) : ∀ (l : List Byte) (o i : Nat), memGet ((l.zipIdx o).map fun e => (a + e.2, e.1)) (a + o + i) = l.getD i (memGet [] (a + o + i))
  | [], o, i => rfl
  | b :: l, o, 0 => if_pos rfl
  | b :: l, o, i + 1 => by
    rw [List.zipIdx_cons, List.map_cons]
    refine (if_neg (show ¬a + o = a + o + (i + 1) by omega)).trans ?_
    rw [List.getD_cons_succ, show a + o + (i + 1) = a + (o + 1) + i by omega]
    exact memGet_bytesFrom a l (o + 1) i

/-- Bytes that stand above the rest of memory are read there. -/
theorem memRead_bytesFrom {m : Mem} {a n : Nat} {l : List Byte} (h : ∀ e ∈ m, e.1 < a) (hn : n ≤ l.length) : memRead (m ++ bytesFrom a l) a n = l.take n := by
  refine List.ext_getElem (by simp [memRead, hn]) fun i h1 h2 => ?_
  have hi : i < l.length := by simp at h2; omega
  have hb := memGet_bytesFrom a l 0 i
  rw [Nat.add_zero] at hb
  simp only [memRead, List.getElem_map, List.getElem_range, List.getElem_take]
  rw [memGet_append_of_ne _ _ fun e he => by have := h e he; omega]
  refine hb.trans ?_
  rw [List.getD_eq_getElem _ _ hi]

theorem awayImage_length : (awayImage awayTagBytes).length = 0x4B8 := by decide +kernel

theorem joinedAway_vaRead {n : Nat} (hn : n ≤ 0x4B8) (h : (joinedAway.vaPieces 0 0x4000 1 n).toOption = some [⟨0x34000, n, 0⟩]) :
    joinedAway.vaRead 0 0x4000 n = .ok ((awayImage awayTagBytes).take n) := by
  have hv : joinedAway.vaPieces 0 0x4000 1 n = .ok [⟨0x34000, n, 0⟩] := by
    cases hx : joinedAway.vaPieces 0 0x4000 1 n with
    | error e => rw [hx] at h; cases h
    | ok x => rw [hx] at h; exact congrArg Except.ok (Option.some.inj h)
  rw [vaRead, hv]
  show Except.ok (memRead (awayTables ++ bytesFrom 0x34000 (awayImage awayTagBytes)) 0x34000 n ++ []) = _
  rw [List.append_nil, memRead_bytesFrom (by decide +kernel) (by rw [awayImage_length]; exact hn)]

theorem joinedAway_image : joinedAway.readSlotImage 0 awaySaved.va = .ok (awayImage awayTagBytes) := by
  have hl : max 8 (min (leNat ((((awayImage awayTagBytes).take 8).drop 4).take 4)) 16383) = 0x4B8 := by decide +kernel
  rw [readSlotImage, show awaySaved.va = 0x4000 from rfl, joinedAway_vaRead (n := 8) (by omega) (by decide +kernel)]
  dsimp only
  rw [hl, joinedAway_vaRead (le_refl _) (by decide +kernel), ← awayImage_length, List.take_length]

theorem awayTag_length : awayTag.length = 16 := by decide +kernel

theorem awayTagBytes_eq : awayTagBytes = awayTag := by
  refine List.ext_getElem (by simp [awayTagBytes, awayTag_length]) fun i h1 h2 => ?_
  simp [awayTagBytes, List.getD, h2]

/-- An image is patched at its tag. -/
theorem patch_middle (a b c d : List Byte) {o : Nat} (ha : a.length = o) (hb : b.length = d.length) : patch (a ++ (b ++ c)) o d = a ++ (d ++ c) := by
  rw [patch, List.take_left' ha, ← List.append_assoc a b, List.drop_left' (by simp [ha, hb]), List.append_assoc]

/-- The image carries its tag. -/
theorem awayImage_tagOk : tagOk (joinedAway.worldKey (joinedAway.worldOfPart 0) "seal") (((awayImage awayTagBytes).drop 0x30).take 12) (awayImage awayTagBytes) 0x20 = true := by
  have hiv : ((awayImage awayTagBytes).drop 0x30).take 12 = zeros 12 := by decide +kernel
  have hkey : joinedAway.worldKey (joinedAway.worldOfPart 0) "seal" = reset.worldKey 0 "seal" := rfl
  have hsplit (tag : List Byte) : awayImage tag = slotHead awayTask 0 0x4B8 ++ (tag ++ slotTail awayTask [] [] (zeros 12)) := List.append_assoc _ _ _
  have hhead : (slotHead awayTask 0 0x4B8).length = 0x20 := by decide +kernel
  have hpatch : patch (awayImage awayTag) 0x20 (zeros 16) = awayImage (zeros 16) := by
    rw [hsplit, hsplit, patch_middle _ _ _ _ hhead awayTag_length]
  rw [hiv, hkey, awayTagBytes_eq, tagOk, hpatch, hsplit, List.drop_left' hhead, List.take_left' awayTag_length]
  exact beq_self_eq_true _

/-- The task that comes back from the image. -/
def awayBack : Task := joinedAway.rehome 0 0 (awayTask.ofImage (awayImage awayTagBytes))

theorem awayBack_fields : awayBack.gtid = 1 ∧ awayBack.part = 0 ∧ awayBack.run = .resident ∧ awayBack.stamp ≠ 0 ∧ awayBack.stepping = false := by decide +kernel

theorem joinedAway_form : slotFormOk (awayImage awayTagBytes) = true := by decide +kernel

theorem joinedAway_known : joinedAway.deliveriesKnown 0 (awayImage awayTagBytes) = true := by decide +kernel

theorem joinedAway_record : awayPart.saved.find? (fun v => v.gtid == BitVec.ofNat 64 (leNat (((awayImage awayTagBytes).drop 8).take 8))
    && v.iv == leNat (((awayImage awayTagBytes).drop 0x30).take 12)) = some awaySaved := by decide +kernel

theorem joinedAway_dead : joinedAway.alive (BitVec.ofNat 64 (leNat (((awayImage awayTagBytes).drop 8).take 8))) = false := by decide +kernel

theorem awayBack_resumes : joinedAway.admits awayBack (coreOf 0) = true ∧ joinedAway.resumeOk awayBack = true ∧ (joinedAway.bodyFor 0 awayBack.capid).1 = true
    ∧ (joinedAway.bodyFor 0 awayBack.capid).2.tokensFor 0 awayBack = true := by decide +kernel

/-- The restore of the image goes on (18:R286). -/
theorem joinedAway_goes : joinedAway.restoreCheck 0 0 (awayImage awayTagBytes) = .go awaySaved awayBack := by
  obtain ⟨h1, h2, h3, h4⟩ := awayBack_resumes
  have hr : joinedAway.rehome 0 0 (awaySaved.task.ofImage (awayImage awayTagBytes)) = awayBack := rfl
  have hp : ((joinedAway.partOf? 0).map (·.saved)).bind (fun l => l.find? fun v => v.gtid == BitVec.ofNat 64 (leNat (((awayImage awayTagBytes).drop 8).take 8))
      && v.iv == leNat (((awayImage awayTagBytes).drop 0x30).take 12)) = some awaySaved := joinedAway_record
  unfold restoreCheck
  dsimp only
  rw [awayImage_tagOk, joinedAway_form, joinedAway_known, if_neg (by decide), hp]
  dsimp only
  rw [hr, if_neg (show ¬awaySaved.go = true from Bool.false_ne_true), joinedAway_dead, h1, h2, h3, h4]
  rfl

end State

open Host

/-- Refutes O45: a task whose `join` was answered while it was saved comes back to its slot at the instruction after it (03:R52, 13:R235). -/
theorem not_preemptionEvents : ¬ Obligations.PreemptionEvents := by
  unfold Obligations.PreemptionEvents
  rintro ⟨-, -, -, -, h, -⟩
  obtain ⟨hg, hpart, hrun, hstamp, hstep⟩ := State.awayBack_fields
  obtain ⟨u, hu, -, hpc, -⟩ := h State.joinedAway 0 0 State.awayPart State.awaySaved State.awaySaved State.awayWork _ State.awayBack rfl rfl rfl rfl rfl rfl
    State.joinedAway_urgent State.joinedAway_order rfl rfl State.joinedAway_slots State.joinedAway_image State.joinedAway_goes hpart
  have hres : State.joinedAway.restoreFirst 0 = (State.joinedAway.tileFirst 0 0 State.awayBack).putBack 0 State.awaySaved State.awayBack :=
    State.restoreFirst_one rfl rfl rfl rfl State.joinedAway_urgent State.joinedAway_order rfl rfl State.joinedAway_slots State.joinedAway_image State.joinedAway_goes
  have he : State.joinedAway.restoreFirst 0 = u := Outcome.next.inj hu
  have hj : (State.joinedAway.tileFirst 0 0 State.awayBack).AnsweredJoin State.awayBack.gtid State.awayJoin 0 8 := by
    rw [hg]
    exact ⟨rfl, rfl, rfl, rfl⟩
  rw [← he, hres, State.pc_putBack hj hrun hstamp hstep] at hpc
  have hne : ∀ x : Word, x + BitVec.ofNat 64 8 ≠ x := by
    intro x hx
    bv_omega
  exact hne _ hpc

end Sys2Proof.Machine
end

section
/-! PROOFS. Launch and unload packets, done words, rings, steps and builds (20:R312 to R314, R318, 21:R333, R334). -/

namespace Sys2Proof.Machine

namespace State

variable {s u : State} {part q : Nat} {p : Partition}

/-! ### Packets (20:R312 to R314) -/

/-- A capsule that changes leaves its partition's step queue, and all but the partitions. -/
theorem modCapsule_frame (s : State) (part capid : Nat) (f : Capsule → Capsule) : s.modCapsule part capid f = { s with parts := (s.modCapsule part capid f).parts }
    ∧ ∀ y, s.partOf? part = some y → ∃ z, (s.modCapsule part capid f).partOf? part = some z ∧ z.stepq = y.stepq := by
  refine ⟨?_, fun y hy => ?_⟩
  · rw [modCapsule, modPart]
    split <;> rfl
  · rw [modCapsule, modPart_some hy]
    exact ⟨_, partOf_putPart _ _, rfl⟩

/-- What an accepted launch leaves: its record, its work, and its capsule's build, perhaps. -/
theorem acceptLaunch_eq (s : State) (part q : Nat) (k : Packet) (step : Option Nat) (sched : Bool) : ∃ l items x, (s.acceptLaunch part q k step sched).1 = l.id
    ∧ (s.acceptLaunch part q k step sched).2 = { s with parts := x, cald := { s.cald with idCtr := s.cald.idCtr + 1, work := s.cald.work ++ items, launches := s.cald.launches ++ [l] } }
    ∧ l.part = part ∧ l.queue = q ∧ l.live = k.nroot ∧ l.doneaddr = k.doneaddr ∧ l.doneval = BitVec.ofNat 64 k.doneval ∧ l.domain = k.domain
    ∧ items.length = (if k.gang then 1 else k.nroot) ∧ ∀ y, s.partOf? part = some y → ∃ z, mapGet x part = some z ∧ z.stepq = y.stepq := by
  unfold acceptLaunch
  dsimp only
  generalize hi : (if k.gang = true then _ else _ : List QueuedWork) = items
  obtain ⟨h1, h2⟩ := modCapsule_frame { s with cald := { s.cald with idCtr := s.cald.idCtr + 1, work := s.cald.work ++ items, launches := s.cald.launches ++ [{ id := s.cald.idCtr * 8 + q, part := part, queue := q, domain := k.domain, live := k.nroot, doneaddr := k.doneaddr, doneval := BitVec.ofNat 64 k.doneval }] } } part k.capid Capsule.startBuild
  refine ⟨_, items, _, rfl, h1, rfl, rfl, rfl, rfl, rfl, rfl, ?_, h2⟩
  rw [← hi]
  split <;> simp

theorem takeLaunch_eq {b : List Byte} {at_ base h : Nat} (hh : s.headPacket part q = some (b, at_, base, h)) (h2 : (Packet.read b).type ≠ 2)
    (ht : s.takesPackets part q = true) (hs : (Packet.read b).type = 1 → (Packet.read b).serial = true → s.queueDone part q = true) :
    s.takeLaunch part q = ((if s.packetStatus part q (Packet.read b) = 1 then
        (s.acceptLaunch part q (Packet.read b) none false).2.noteLast part q (some (s.acceptLaunch part q (Packet.read b) none false).1)
      else s.noteLast part q none).answerPacket part at_ base h (s.packetStatus part q (Packet.read b))) := by
  unfold takeLaunch
  rw [hh]
  dsimp only
  rw [if_neg]
  rintro (h | h | ⟨h, h', h''⟩)
  · exact h2 h
  · rw [ht] at h
    cases h
  · rw [hs h h'] at h''
    cases h''

theorem takeLaunch_waits {b : List Byte} {at_ base h : Nat} (hh : s.headPacket part q = some (b, at_, base, h)) 
    (hs : (Packet.read b).type = 2 ∨ (Packet.read b).type = 1 ∧ (Packet.read b).serial = true ∧ s.queueDone part q = false) : s.takeLaunch part q = s := by
  unfold takeLaunch
  rw [hh]
  dsimp only
  rw [if_pos]
  rcases hs with h | ⟨h1, h2, h3⟩
  · exact .inl h
  · exact .inr (.inr ⟨h1, h2, by rw [h3]; rfl⟩)

theorem takeUnload_eq {b : List Byte} {at_ base h : Nat} (hh : s.headPacket part q = some (b, at_, base, h)) (h2 : (Packet.read b).type = 2)
    (ht : s.takesPackets part q = true) : s.takeUnload part q =
      if Packet.unloadBad b = true then (s.noteLast part q none).answerPacket part at_ base h 0x80
      else match s.capsule? part (Packet.read b).capid with
        | none => (s.noteLast part q none).answerPacket part at_ base h 0x84
        | some c => if s.stepHolds part q (Packet.read b).capid = true ∨ c.holds q = false then (s.noteLast part q none).answerPacket part at_ base h 0x84
          else ((s.noteLast part q none).modCapsule part (Packet.read b).capid fun c => c.dropRef q).answerPacket part at_ base h 1 := by
  have hno : (s.noteLast part q none).stepHolds part q (Packet.read b).capid = s.stepHolds part q (Packet.read b).capid := by
    rw [stepHolds, stepHolds, noteLast, partOf_modPart, if_pos rfl]
    cases s.partOf? part <;> rfl
  unfold takeUnload
  rw [hh]
  dsimp only
  rw [if_neg (by rw [ht]; simpa using h2), hno]
  split
  · rfl
  · cases s.capsule? part (Packet.read b).capid with
    | none => exact if_pos (by simp)
    | some c =>
      dsimp only
      refine if_congr ?_ rfl rfl
      simp

theorem consume_packet {b : List Byte} {at_ base h : Nat} (hq : q < 8) (hh : s.headPacket part q = some (b, at_, base, h)) :
    s.consume part q = if (Packet.read b).type = 2 then s.takeUnload part q else s.takeLaunch part q := by
  unfold consume
  rw [if_pos hq, hh]

theorem consumedRing_launch {a : Nat} (hq : q < 8) (ha : s.launchRing part q = some a) : s.consumedRing part q = some a := by
  rw [consumedRing, if_pos hq, ha]

/-! ### Done words and rings -/

theorem launchEnds_live {id : Nat} {l : Launch} (h : (s.cald.launches.find? fun x => x.id == id) = some l) (hl : l.live ≠ 0) : s.launchEnds id = s := by
  rw [launchEnds, h]
  exact if_pos hl

theorem launchEnds_done {id : Nat} {l : Launch} (h : (s.cald.launches.find? fun x => x.id == id) = some l) (hl : l.live = 0) : s.launchEnds id
    = { (if l.doneaddr = 0 then s else (s.writeVa l.part l.doneaddr (leBytes 8 l.doneval.toNat)).getD s) with
        cald := { s.cald with launches := s.cald.launches.filter fun x => x.id != id } } := by
  have hc : (if l.doneaddr = 0 then s else (s.writeVa l.part l.doneaddr (leBytes 8 l.doneval.toNat)).getD s).cald = s.cald := by
    split
    · rfl
    · cases hw : s.writeVa l.part l.doneaddr (leBytes 8 l.doneval.toNat) with
      | none => rfl
      | some v =>
        obtain ⟨m, x, hx⟩ := writeVa_eq hw
        rw [hx]
        rfl
  rw [launchEnds, h]
  dsimp only
  rw [if_neg (not_not.2 hl), hc]

/-- A request the device does not know is answered with status 0x80, in its place on the ring (25:R366). -/
theorem serveUnknown_eq {a h c : Nat} (hm : s.memOk) (hr : s.reqHead = some (a, h)) (hc : leNat (memRead s.mem a 1) = c) (hu : c = 0 ∨ 6 < c) :
    ∃ r, s.serveUnknown.replies = s.replies ++ [r] ∧ r.code = 0x300 + c ∧ r.status = 0x80 ∧ memGet s.serveUnknown.mem (a + 1) = 0x80
      ∧ leNat (memRead s.serveUnknown.mem (hostBase + ringAt s.hl.reqring.toNat) 8) = (h + 1) % 2 ^ 64 := by
  have ha : hostBase + ringAt s.hl.reqring.toNat + 8 ≤ a + 1 := by
    unfold reqHead at hr
    dsimp only at hr
    split at hr
    · cases hr
    split at hr
    · cases hr
    · have h1 := congrArg Prod.fst (Option.some.inj hr)
      dsimp only at h1
      omega
  have he : s.serveUnknown = { ((s.reply 0 (0x300 + c) 0x80 []).storeNat (a + 1) 1 0x80).storeNat (hostBase + ringAt s.hl.reqring.toNat) 8 ((h + 1) % 2 ^ 64) with
      hl := { (((s.reply 0 (0x300 + c) 0x80 []).storeNat (a + 1) 1 0x80).storeNat (hostBase + ringAt s.hl.reqring.toNat) 8 ((h + 1) % 2 ^ 64)).hl with serving := none } } := by
    have hr' : (s.reply 0 (0x300 + c) 0x80 []).reqHead = some (a, h) := hr
    have hc' : memNat s.mem a 1 = c := hc
    unfold serveUnknown
    rw [hr]
    dsimp only
    rw [hc', if_neg (by omega), answerReq]
    dsimp only
    rw [hr']
    dsimp only
    exact if_neg (not_not.2 hc')
  have hmem : s.serveUnknown.mem = memWrite (memWrite s.mem (a + 1) (leBytes 1 0x80)) (hostBase + ringAt s.hl.reqring.toNat) (leBytes 8 ((h + 1) % 2 ^ 64)) := by
    rw [he]
    exact (store_mem _ _ _).trans (congrArg (fun m => memWrite m _ _) (store_mem _ _ _))
  have hw : Mem.wf (memWrite s.mem (a + 1) (leBytes 1 0x80)) = true := memWrite_wf _ _ hm
  refine ⟨{ session := 0, code := 0x300 + c, status := 0x80, data := [] }, ?_, rfl, rfl, ?_, ?_⟩
  · rw [he]
    exact (store_replies _ _ _).trans (store_replies _ _ _)
  · rw [hmem, memGet_memWrite_out _ (.inr ha)]
    exact memGet_memWrite_in (i := 0) (leBytes 1 0x80) hm (by decide)
  · rw [hmem]
    have := memRead_memWrite (leBytes 8 ((h + 1) % 2 ^ 64)) (hostBase + ringAt s.hl.reqring.toNat) hw
    rw [show (leBytes 8 ((h + 1) % 2 ^ 64)).length = 8 from length_leBytes _ _] at this
    rw [this, leNat_leBytes]
    omega

/-- A held record goes where there is room (19:R302). -/
theorem postQheld_one {base i : Nat} {r : List Byte} {v : State} (hp : s.partOf? part = some p) (hq : p.qheld = [r]) (hc : p.cring = some base)
    (hr : s.ringPut part base r = some (v, i)) : s.postQheld part 1 = v.putPart part { p with qheld := [] } := by
  obtain ⟨m, x, hv⟩ := ringPut_eq hr
  have hpv : v.partOf? part = some p := by
    rw [hv]
    exact hp
  rw [postQheld, hp]
  dsimp only
  split
  · next r' l b h1 h2 =>
    cases hq.symm.trans h1
    cases hc.symm.trans h2
    rw [hr]
    exact modPart_some hpv _
  · next hno => exact absurd hc (hno _ _ _ hq)

theorem postHeld_one {base i : Nat} {f : FaultRec} {v : State} (hp : s.partOf? part = some p) (hf : s.mmu.faults = [f]) (hfp : f.part = part) (hidx : f.idx = none)
    (hring : p.fring = some base) (hr : s.ringPut part base (faultBytes f ((p.ftail + 1) % 2 ^ 32)) = some (v, i)) :
    s.postHeld part = { v.putPart part { p with ftail := (p.ftail + 1) % 2 ^ 32 } with mmu := { v.mmu with faults := [{ f with idx := some i, base := base }] } } := by
  obtain ⟨m, x, hv⟩ := ringPut_eq hr
  have hpv : v.partOf? part = some p := by
    rw [hv]
    exact hp
  have hone : s.postOne f = (v.putPart part { p with ftail := (p.ftail + 1) % 2 ^ 32 }, { f with idx := some i, base := base }) := by
    unfold postOne
    split
    · next p' h1 h2 =>
      rw [hfp, hp] at h2
      cases h2
      split
      · next h3 => cases hring.symm.trans h3
      · next b h3 =>
        cases hring.symm.trans h3
        dsimp only
        split
        · next h4 =>
          rw [hfp, hr] at h4
          cases h4
        · next v' i' h4 =>
          rw [hfp, hr] at h4
          cases h4
          exact congrArg (·, _) ((congrArg (fun n => v.modPart n _) hfp).trans (modPart_some hpv _))
    · next hno => exact absurd hp (hfp ▸ hno p hidx)
  unfold postHeld
  dsimp only
  rw [hf, List.foldl_cons, List.foldl_nil, if_pos hfp, hone]
  rfl

/-! ### Steps (20:R318, 02:R43) -/

theorem stepq_putStepq {x : StepQ} (y : StepQ) (h : s.stepq? part = some x) : (s.putStepq part y).stepq? part = some y := (putStepq_frame y h).2.2

theorem partOf_of_stepq {x : StepQ} (h : s.stepq? part = some x) : ∃ p, s.partOf? part = some p ∧ p.stepq = some x := by
  rw [stepq?] at h
  cases hp : s.partOf? part with
  | none => rw [hp] at h; cases h
  | some p => rw [hp] at h; exact ⟨p, rfl, h⟩

theorem stepq_acceptLaunch {x : StepQ} (h : s.stepq? part = some x) (k : Packet) (step : Option Nat) (sched : Bool) :
    (s.acceptLaunch part 0 k step sched).2.stepq? part = some x := by
  obtain ⟨p, hp, hx⟩ := partOf_of_stepq h
  obtain ⟨l, items, y, -, h2, -, -, -, -, -, -, -, hy⟩ := acceptLaunch_eq s part 0 k step sched
  obtain ⟨z, hz, hzx⟩ := hy p hp
  rw [h2, stepq?, partOf?]
  dsimp only
  rw [hz]
  exact hzx.trans hx

/-- A step that is built runs, whether or not its packet is accepted. -/
theorem launchStep_step {x : StepQ} (y : StepQ) (h : s.stepq? part = some x) : ∃ id, (s.launchStep part y).stepq? part = some { y with phase := .running id }
    ∧ (s.launchStep part y).mem = s.mem := by
  unfold launchStep
  dsimp only
  split
  · exact ⟨_, stepq_putStepq _ (stepq_acceptLaunch h _ _ _), (mem_putStepq _ _).trans (mem_acceptLaunch _ _ _ _ _)⟩
  · exact ⟨_, stepq_putStepq _ h, mem_putStepq _ _⟩

/-- The sequences that stay, each with a new length, and the random numbers they took. -/
theorem keptSeqs_eq : ∀ (l : Map Seq) (m : Map Seq) (s : State), ∃ f c, l.foldl (fun (acc : Map Seq × State) e =>
    (acc.1 ++ [(e.1, { e.2 with len := (Config.freeWord acc.2.freeCtr).toNat % 2 ^ 32 })], acc.2.tick)) (m, s)
      = (m ++ f, { s with freeCtr := c }) ∧ ∀ i, (mapGet f i).map (fun d => (d.seqid, d.stops)) = (mapGet l i).map (fun d => (d.seqid, d.stops))
  | [], m, s => ⟨[], s.freeCtr, by rw [List.append_nil]; rfl, fun _ => rfl⟩
  | e :: l, m, s => by
    obtain ⟨f, c, h1, h2⟩ := keptSeqs_eq l (m ++ [(e.1, { e.2 with len := (Config.freeWord s.freeCtr).toNat % 2 ^ 32 })]) s.tick
    refine ⟨(e.1, { e.2 with len := (Config.freeWord s.freeCtr).toNat % 2 ^ 32 }) :: f, c, ?_, fun i => ?_⟩
    · rw [List.foldl_cons, h1, List.append_assoc]
      rfl
    · rw [mapGet, mapGet]
      dsimp only
      split
      · rfl
      · exact h2 i

theorem mapGet_none_of_rising {α : Type} {k : Nat} : ∀ {m : Map α} {lo : Nat}, risingFrom lo m = true → k < lo → mapGet m k = none
  | [], _, _, _ => rfl
  | (j, x) :: m, lo, h, hk => by
    simp only [risingFrom, Bool.and_eq_true, decide_eq_true_iff] at h
    rw [mapGet, if_neg (by omega)]
    exact mapGet_none_of_rising h.2 (by omega)

/-- What each key holds after the entries of a map were set, one after the other. -/
theorem mapGet_setAll {α : Type} (i : Nat) : ∀ {m : Map α} {lo : Nat} (b : Map α), risingFrom lo m = true →
    mapGet (m.foldl (fun a e => mapSet a e.1 e.2) b) i = (mapGet m i).or (mapGet b i)
  | [], _, _, _ => rfl
  | (k, x) :: m, lo, b, h => by
    simp only [risingFrom, Bool.and_eq_true, decide_eq_true_iff] at h
    rw [List.foldl_cons, mapGet_setAll i _ h.2, mapGet]
    by_cases hk : k = i
    · rw [if_pos hk, mapGet_none_of_rising h.2 (by omega), hk, mapGet_mapSet_self]
      rfl
    · rw [if_neg hk, mapGet_mapSet_ne _ (Ne.symm hk)]

theorem mapGet_keep {l : List Nat} (i : Nat) : ∀ m : Map Seq, mapGet (m.filter fun e => !l.contains e.1) i = if l.contains i then none else mapGet m i
  | [] => by rw [List.filter_nil]; split <;> rfl
  | (k, x) :: m => by
    have ih := mapGet_keep (l := l) i m
    by_cases hk : k = i
    · subst hk
      by_cases hl : l.contains k = true
      · rw [List.filter_cons_of_neg (by simpa using hl), ih, if_pos hl, if_pos hl]
      · rw [List.filter_cons_of_pos (by simpa using hl), if_neg hl]
        simp [mapGet]
    · by_cases hl : l.contains k = true
      · rw [List.filter_cons_of_neg (by simpa using hl), ih, mapGet, if_neg hk]
      · rw [List.filter_cons_of_pos (by simpa using hl), mapGet, if_neg hk, ih, mapGet, if_neg hk]

/-- The next step's sequences: those admitted, and those that stay. -/
theorem nextSeqs_eq (x : StepQ) (hr : Machine.rising x.admitted = true) : ∃ c, (s.nextSeqs x).2 = { s with freeCtr := c }
    ∧ (∀ i d, mapGet x.admitted i = some d → mapGet (s.nextSeqs x).1 i = some d)
    ∧ ∀ i, mapGet x.admitted i = none → if x.retired.contains i then mapGet (s.nextSeqs x).1 i = none
        else (mapGet (s.nextSeqs x).1 i).map (fun d => (d.seqid, d.stops)) = (mapGet x.desc i).map (fun d => (d.seqid, d.stops)) := by
  obtain ⟨f, c, h1, h2⟩ := keptSeqs_eq (x.desc.filter fun e => !x.retired.contains e.1) [] s
  have he : s.nextSeqs x = (x.admitted.foldl (fun m e => mapSet m e.1 e.2) f, { s with freeCtr := c }) := by
    rw [nextSeqs]
    dsimp only
    rw [h1]
    rfl
  rw [he]
  refine ⟨c, rfl, fun i d hd => ?_, fun i hi => ?_⟩
  · rw [mapGet_setAll i f hr, hd]
    rfl
  · have h3 := h2 i
    rw [mapGet_keep] at h3
    rw [mapGet_setAll i f hr, hi, Option.none_or]
    split
    · next hc =>
      rw [if_pos hc] at h3
      exact Option.map_eq_none_iff.1 h3
    · next hc =>
      rw [if_neg hc] at h3
      exact h3

theorem buildStep_eq {x : StepQ} (h : s.stepq? part = some x) (hph : x.phase = .scheduling) (hl : s.stepLive part true = false) (hr : Machine.rising x.admitted = true) :
    ∃ m id, (s.buildStep part).stepq? part = some { x with stepno := x.stepno + 1, desc := m, retired := [], admitted := [], pgfree := x.freePages, phase := .running id }
      ∧ (s.buildStep part).mem = s.mem ∧ (∀ i d, mapGet x.admitted i = some d → mapGet m i = some d)
      ∧ ∀ i, mapGet x.admitted i = none → if x.retired.contains i then mapGet m i = none
        else (mapGet m i).map (fun d => (d.seqid, d.stops)) = (mapGet x.desc i).map (fun d => (d.seqid, d.stops)) := by
  obtain ⟨c, h1, h2, h3⟩ := nextSeqs_eq (s := s) x hr
  have hb : s.buildStep part = (s.nextSeqs x).2.launchStep part { x with stepno := x.stepno + 1, desc := (s.nextSeqs x).1, retired := [], admitted := [], pgfree := x.freePages } := by
    unfold buildStep
    rw [h]
    dsimp only
    rw [if_neg (by rw [hph, hl]; decide)]
  have hx : (s.nextSeqs x).2.stepq? part = some x := by
    rw [h1]
    exact h
  obtain ⟨id, h4, h5⟩ := launchStep_step { x with stepno := x.stepno + 1, desc := (s.nextSeqs x).1, retired := [], admitted := [], pgfree := x.freePages } hx
  rw [hb]
  refine ⟨_, id, h4, h5.trans ?_, h2, h3⟩
  rw [h1]

theorem startScheduler_idle {x : StepQ} (h : s.stepq? part = some x) (hph : x.phase ≠ .scheduling) (hl : s.stepLive part false = false)
    (hi : x.nextLive = [] ∧ s.admPending part x = 0) : s.startScheduler part = s.putStepq part { x with phase := .idle } := by
  unfold startScheduler
  rw [h]
  dsimp only
  rw [if_neg (by simp [hph, hl]), if_pos (by simp [hi])]

theorem startScheduler_starts {x : StepQ} (h : s.stepq? part = some x) (hph : x.phase ≠ .scheduling) (hl : s.stepLive part false = false)
    (hi : ¬(x.nextLive = [] ∧ s.admPending part x = 0)) : ∃ l, (s.startScheduler part).stepq? part = some { x with phase := .scheduling }
      ∧ (s.startScheduler part).cald.launches = s.cald.launches ++ [l] ∧ l.part = part ∧ l.live = 1 ∧ (s.startScheduler part).mem = s.mem := by
  obtain ⟨l, items, y, -, h2, h3, -, h5, -⟩ := acceptLaunch_eq s part 0 { Packet.read x.root with entry := x.sched, flags := 0, vtile0 := 0, nroot := 1 } (some x.stepno) true
  have hs : s.startScheduler part = (s.acceptLaunch part 0 { Packet.read x.root with entry := x.sched, flags := 0, vtile0 := 0, nroot := 1 } (some x.stepno) true).2.putStepq part
      { x with phase := .scheduling } := by
    unfold startScheduler
    rw [h]
    dsimp only
    rw [if_neg (by simp [hph, hl]), if_neg (by simpa using hi)]
  rw [hs]
  refine ⟨l, stepq_putStepq _ (stepq_acceptLaunch h _ _ _), ?_, h3, h5, (mem_putStepq _ _).trans (mem_acceptLaunch _ _ _ _ _)⟩
  rw [putStepq, modPart_cald, h2]

/-! ### Builds (21:R333, R334) -/

theorem buildEnds_idle {c : Capsule} (h : c.st = .built ∨ c.st = .voided) : s.buildEnds part c = s := by
  have hb : c.building = false := by
    rcases h with h | h <;> rw [Capsule.building, h]
  rw [buildEnds, hb]
  rfl

/-- A rebuild that ends: the capsule's new state, and the code its waiting tasks get. -/
theorem buildEnds_bodies {c : Capsule} (hst : c.st = .rebuilding) : s.buildEnds part c = if 1 < c.featver then
      ((s.modCapsule part c.capid fun c => { c with st := match c.st with
        | .rebuilding => .voided
        | _ => .unloadPending false false }).giveJoiners part c 3).buildRefused part c.capid
    else (s.modCapsule part c.capid fun c => { c with bodygen := c.bodygen + 1, st := match c.st with
        | .rebuilding => .built
        | _ => .unloadPending true false }).giveJoiners part c 0 := by
  have hb : c.building = true := by rw [Capsule.building, hst]
  rw [buildEnds, hb]
  rfl

/-- The capsules are as they were. -/
def KeepsCapsules (s u : State) : Prop := ∀ j id, u.capsule? j id = s.capsule? j id

theorem KeepsCapsules.trans {v : State} (h : s.KeepsCapsules u) (h' : u.KeepsCapsules v) : s.KeepsCapsules v := fun j id => (h' j id).trans (h j id)

theorem keepsCapsules_of_parts (h : u.parts = s.parts) : s.KeepsCapsules u := by
  intro j id
  rw [capsule?, capsule?, partOf?, partOf?, h]

theorem keepsCapsules_modPart {f : Partition → Partition} (hf : ∀ p, (f p).capsules = p.capsules) : s.KeepsCapsules (s.modPart part f) := by
  intro j id
  rw [capsule?, capsule?, partOf_modPart]
  by_cases h : j = part
  · rw [if_pos h]
    cases s.partOf? j with
    | none => rfl
    | some p =>
      show (f p).capsules.find? _ = _
      rw [hf]
  · rw [if_neg h]

theorem keepsCapsules_takeTokens (key : Nat) (t : Task) : s.KeepsCapsules (s.takeTokens key t) := by
  have h : ∀ (l : List Nat) (u : State), u.KeepsCapsules (l.foldl (fun s c => s.poolDraw t.part (poolKey (coreOf key) c) (t.tokens.toList[c]?.getD 0)) u) := by
    intro l
    induction l with
    | nil => exact fun u _ _ => rfl
    | cons c l ih =>
      refine fun u => KeepsCapsules.trans ?_ (ih _)
      refine keepsCapsules_modPart fun p => ?_
      split <;> rfl
  exact h _ _

theorem keepsCapsules_wakeUp (key : Nat) : s.KeepsCapsules (s.wakeUp key) := by
  have hp : s.KeepsCapsules (s.payTokens key) := by
    unfold payTokens
    dsimp only
    split
    · exact (keepsCapsules_takeTokens key (s.taskAt key)).trans (keepsCapsules_of_parts rfl)
    · exact fun _ _ => rfl
  unfold wakeUp
  dsimp only
  split
  · exact hp
  · split
    · exact hp.trans (keepsCapsules_of_parts rfl)
    · exact hp

theorem keepsCapsules_deliverTo {g : Word} {n tag : Nat} {r : RegId} {x : VWord} {k : Nat} (hk : s.keyOf? g = some k) :
    s.KeepsCapsules (s.deliverTo g n r tag x false 0) := by
  have hd : s.deliverTo g n r tag x false 0 = (s.putTask k (((s.taskAt k).deliver r x false).filled s.cycle r)).wakeUp k := by
    rw [deliverTo, hk]
    rfl
  rw [hd]
  exact (keepsCapsules_of_parts rfl).trans (keepsCapsules_wakeUp k)

theorem buildRefused_frame (capid : Nat) : s.KeepsCapsules (s.buildRefused part capid) ∧ (s.buildRefused part capid).slots = s.slots := by
  unfold buildRefused
  dsimp only
  exact ⟨keepsCapsules_modPart fun _ => rfl, modPart_slots _ _ _⟩

/-- The code that the one task which waits for a build gets, and the capsule afterwards. -/
theorem giveJoiners_one {c : Capsule} {j : Joiner} {r : Reg} {k code : Nat} {f : Capsule → Capsule} (hf : ∀ c, (f c).capid = c.capid) (hc : s.capsule? part c.capid = some c)
    (hj : c.joiners = [j]) (hjr : j.dst = r) (hr : r ≠ 0) (hm : j.mute = false) (hd : j.dead = false) (hk : s.keyOf? j.gtid = some k) :
    let u := (s.modCapsule part c.capid f).giveJoiners part c code
    u.capsule? part c.capid = some { f c with joiners := [] } ∧ (u.taskAt k).full (.s r) = true ∧ (u.taskAt k).getS r = BitVec.ofNat 64 code := by
  intro u
  obtain ⟨h1, -⟩ := modCapsule_frame (s.modCapsule part c.capid f) part c.capid fun c => { c with joiners := [] }
  obtain ⟨h2, -⟩ := modCapsule_frame s part c.capid f
  generalize hv : (s.modCapsule part c.capid f).modCapsule part c.capid (fun c => { c with joiners := [] }) = v at h1
  have hvk : v.keyOf? j.gtid = some k := by
    rw [h1, h2]
    exact hk
  have hu : u = v.deliverTo j.gtid part (.s r) 0 (BitVec.ofNat 128 code) false 0 := by
    show (s.modCapsule part c.capid f).giveJoiners part c code = _
    unfold giveJoiners
    dsimp only
    rw [hv, hj, List.foldl_cons, List.foldl_nil, hm, hd, hjr]
    rfl
  have hcap : v.capsule? part c.capid = some { f c with joiners := [] } := by
    rw [← hv, find_modCapsule (g := fun c => { c with joiners := [] }) fun _ => rfl, find_modCapsule hf, hc]
    rfl
  obtain ⟨-, -, o, n, h, ht⟩ := deliverTo_there (part := part) (tag := 0) (sub := 0) (r := .s r) (x := BitVec.ofNat 128 code) (err := false) (aerr := 0) hvk
  rw [hu]
  refine ⟨(keepsCapsules_deliverTo hvk part c.capid).trans hcap, ?_, ?_⟩
  · rw [ht]
    exact full_delivered r (BitVec.ofNat 128 code) false 0 0
  · rw [ht]
    exact (getS_delivered hr code 0 0).trans (if_pos rfl)

theorem giveJoiners_none {c : Capsule} {code : Nat} {f : Capsule → Capsule} (hf : ∀ c, (f c).capid = c.capid) (hc : s.capsule? part c.capid = some c)
    (hj : c.joiners = []) : let u := (s.modCapsule part c.capid f).giveJoiners part c code
    u.capsule? part c.capid = some { f c with joiners := [] } ∧ u.mem = s.mem ∧ u.slots = s.slots := by
  intro u
  have hu : u = (s.modCapsule part c.capid f).modCapsule part c.capid fun c => { c with joiners := [] } := by
    show (s.modCapsule part c.capid f).giveJoiners part c code = _
    unfold giveJoiners
    rw [hj]
    rfl
  rw [hu]
  refine ⟨?_, (modPart_mem _ _ _).trans (modPart_mem _ _ _), (modPart_slots _ _ _).trans (modPart_slots _ _ _)⟩
  rw [find_modCapsule (g := fun c => { c with joiners := [] }) fun _ => rfl, find_modCapsule hf, hc]
  rfl

/-- The capsule after its rebuild, and after one that its version refuses. -/
def bodyBuilt (c : Capsule) : Capsule := { c with bodygen := c.bodygen + 1, st := match c.st with
  | .rebuilding => .built
  | _ => .unloadPending true false }

def bodyRefused (c : Capsule) : Capsule := { c with st := match c.st with
  | .rebuilding => .voided
  | _ => .unloadPending false false }

theorem bodyBuilt_eq {c : Capsule} (h : c.st = .rebuilding) : bodyBuilt c = { c with st := .built, bodygen := c.bodygen + 1 } := by
  rw [bodyBuilt, h]

theorem bodyRefused_eq {c : Capsule} (h : c.st = .rebuilding) : bodyRefused c = { c with st := .voided } := by
  rw [bodyRefused, h]

theorem buildComplete_exec {capid : Nat} {c : Capsule} (hc : s.capsule? part capid = some c) (hst : c.st = .rebuilding) : exec (.buildComplete part capid) s
    = .next (if 1 < c.featver then ((s.modCapsule part c.capid bodyRefused).giveJoiners part c 3).buildRefused part c.capid
      else (s.modCapsule part c.capid bodyBuilt).giveJoiners part c 0) := by
  show execBuildComplete part capid s = _
  rw [execBuildComplete, hc]
  exact congrArg Host.Outcome.next (buildEnds_bodies hst)

end State

open Host

/-- Settles O44: packet by packet, then the done word, the rings, the step queue and the builds. -/
theorem launchEvents : Obligations.LaunchEvents := by
  unfold Obligations.LaunchEvents
  refine ⟨fun s part q at_ base h b hh => ⟨fun h2 ht hs => ?_, fun h1 hs hd => ?_, fun h2 ht => ⟨?_, ?_⟩, fun a hq ha => ⟨fun hr => ?_, fun hr => ⟨?_, ?_⟩⟩⟩,
    fun s id l hl => ⟨fun h0 => ?_, fun h0 hd => ?_, fun v h0 hd hw => ?_⟩, fun s a h c hm hr hc hu => ?_,
    fun s v part base i p hp => ⟨fun r hq hc hr => ?_, fun f hf hfp hidx hring hr => ?_⟩,
    fun s part x hx => ⟨fun n t hr hs => ?_, fun hph hl hr => ?_, fun hph hl => ?_⟩, fun s part capid c hc => ⟨fun h => ?_, fun hst hj hf => ?_, fun j r k hst hj hjr hr hm hd hk => ?_⟩⟩
  · have he := State.takeLaunch_eq hh h2 ht hs
    split
    · next h1 =>
      rw [if_pos h1, h1] at he
      obtain ⟨l, items, x, hid, hst, l1, l2, l3, l4, l5, l6, hlen, hx⟩ := State.acceptLaunch_eq s part q (Packet.read b) none false
      refine ⟨_, l, congrArg Outcome.next he, ?_, fun p hp => ?_, l1, l2, l3, l4, l5, l6, ?_, ?_, ?_⟩
      · rw [State.noteLast, State.modPart_cald, hst]
      · rw [State.noteLast, State.partOf_modPart, if_pos rfl, Option.map_eq_some_iff] at hp
        obtain ⟨y, -, hy⟩ := hp
        rw [← hy, ← hid]
        exact mapGet_mapSet_self _ _ _
      · rw [State.noteLast, State.modPart_cald, hst, ← hlen]
        exact List.length_append
      · rw [State.noteLast, State.modPart_mem, hst]
      · rw [State.noteLast, State.modPart_slots, hst]
    · next h1 =>
      rw [if_neg h1] at he
      exact congrArg Outcome.next he
  · exact congrArg Outcome.next (State.takeLaunch_waits hh (.inr ⟨h1, hs, hd⟩))
  · exact congrArg Outcome.next (State.takeLaunch_waits hh (.inl h2))
  · exact congrArg Outcome.next (State.takeUnload_eq hh h2 ht)
  · show execRingTailWatch part q s = _
    rw [execRingTailWatch, State.consumedRing_launch hq ha]
    dsimp only
    rw [hr, if_neg Bool.false_ne_true, State.consume_packet hq hh]
    exact apply_ite Outcome.next _ _ _
  · show execRingTailWatch part q s = _
    rw [execRingTailWatch, State.consumedRing_launch hq ha]
    dsimp only
    rw [hr]
    rfl
  · show execRingWatchReread (1 + part * 16 + q) s = _
    have h1 : (1 + part * 16 + q - 1) / 16 = part := by omega
    have h2 : (1 + part * 16 + q - 1) % 16 = q := by omega
    rw [execRingWatchReread, if_neg (by omega), h1, h2, State.consumedRing_launch hq ha]
    dsimp only
    rw [hr, if_pos rfl, State.consume_packet hq hh]
    exact apply_ite Outcome.next _ _ _
  · exact congrArg Outcome.next (State.launchEnds_live hl h0)
  · refine congrArg Outcome.next ((State.launchEnds_done hl h0).trans ?_)
    rw [if_pos hd]
  · refine congrArg Outcome.next ((State.launchEnds_done hl h0).trans ?_)
    rw [if_neg hd, hw]
    rfl
  · obtain ⟨r, h1, h2, h3, h4, h5⟩ := State.serveUnknown_eq hm hr hc hu
    exact ⟨_, r, rfl, h1, h2, h3, h4, h5⟩
  · have hlen : ((s.partOf? part).map (·.qheld.length)).getD 0 = 1 := by
      rw [hp]
      exact congrArg List.length hq
    refine ⟨_, congrArg Outcome.next ((if_pos rfl).trans (by rw [hlen]; exact State.postQheld_one hp hq hc hr)), State.partOf_putPart _ _, rfl⟩
  · exact ⟨_, congrArg Outcome.next (State.postHeld_one hp hf hfp hidx hring hr), rfl, State.partOf_putPart _ _, rfl⟩
  · obtain ⟨p, hp, hq⟩ := State.partOf_of_stepq hx
    have hb : (s.partOf? part).bind (·.stepq) = some x := by
      rw [hp]
      exact hq
    have he : exec (.ringTailWatch part 8) s = .next (s.putStepq part { x with admTail := t }) := by
      show execRingTailWatch part 8 s = _
      rw [execRingTailWatch, State.consumedRing, if_neg (by decide), if_pos rfl, hb]
      dsimp only [Option.map_some]
      rw [hr, State.consume, if_neg (by decide), hb]
      dsimp only
      rw [hs]
      rfl
    exact ⟨_, he, State.stepq_putStepq _ hx, State.mem_putStepq _ _⟩
  · obtain ⟨m, id, h1, h2, h3, h4⟩ := State.buildStep_eq hx hph hl hr
    exact ⟨_, _, id, rfl, h1, rfl, rfl, rfl, rfl, rfl, rfl, h2, h3, h4⟩
  · split
    · next hi => exact ⟨_, congrArg Outcome.next (State.startScheduler_idle hx hph hl hi), State.stepq_putStepq _ hx, State.modPart_cald _ _ _⟩
    · next hi =>
      obtain ⟨l, h1, h2, h3, h4, h5⟩ := State.startScheduler_starts hx hph hl hi
      exact ⟨_, l, rfl, h1, h2, h3, h4, h5⟩
  · show execBuildComplete part capid s = _
    rw [execBuildComplete, hc]
    exact congrArg Outcome.next (State.buildEnds_idle h)
  · have hid := State.capid_of hc
    have he := (State.buildComplete_exec hc hst).trans (congrArg Outcome.next (if_neg (by omega)))
    obtain ⟨h1, h2, h3⟩ := State.giveJoiners_none (s := s) (part := part) (code := 0) (f := State.bodyBuilt) (fun _ => rfl) (hid.symm ▸ hc) hj
    refine ⟨_, he, ?_, h2, h3⟩
    rw [← hid, h1, State.bodyBuilt_eq hst, ← hj]
  · have hid := State.capid_of hc
    have he := State.buildComplete_exec hc hst
    by_cases hf : 1 < c.featver
    · obtain ⟨h1, h2, h3⟩ := State.giveJoiners_one (s := s) (part := part) (code := 3) (f := State.bodyRefused) (fun _ => rfl) (hid.symm ▸ hc) hj hjr hr hm hd hk
      obtain ⟨h4, h5⟩ := State.buildRefused_frame (part := part) (s := (s.modCapsule part c.capid State.bodyRefused).giveJoiners part c 3) c.capid
      have ht : (((s.modCapsule part c.capid State.bodyRefused).giveJoiners part c 3).buildRefused part c.capid).taskAt k = ((s.modCapsule part c.capid State.bodyRefused).giveJoiners part c 3).taskAt k := by
        rw [State.taskAt, State.taskAt, h5]
      rw [if_pos hf] at he
      refine ⟨_, he, ?_, ?_, ?_⟩
      · rw [if_pos hf, h4 part capid, ← hid, h1, State.bodyRefused_eq hst]
      · rw [ht]
        exact h2
      · rw [ht, if_pos hf]
        exact h3
    · obtain ⟨h1, h2, h3⟩ := State.giveJoiners_one (s := s) (part := part) (code := 0) (f := State.bodyBuilt) (fun _ => rfl) (hid.symm ▸ hc) hj hjr hr hm hd hk
      rw [if_neg hf] at he
      refine ⟨_, he, ?_, h2, ?_⟩
      · rw [if_neg hf, ← hid, h1, State.bodyBuilt_eq hst]
      · rw [if_neg hf]
        exact h3

end Sys2Proof.Machine
end
